-- ==== Sys2Proof/Word.lean ====
section
/-! DEFINITION. Words, lane masks and the sparse map that holds memory and register files. -/

namespace Sys2Proof

/-- A byte of memory. -/
abbrev Byte := BitVec 8

/-- The 32-bit word of a lane (R6). -/
abbrev Word := BitVec 32

/-- A scalar register, an address or a PC (R11). -/
abbrev DWord := BitVec 64

/-- A lane mask: bit l stands for lane l. -/
abbrev Mask := BitVec 32

/-- A sparse map in canonical form: keys strictly rising, no entry equal to the default. Memory is `SMap Byte`, the
same type as a list of `Host.Cell`. -/
abbrev SMap (β : Type) := List (Nat × β)

/-- The value at a key: the entry's value, or the default where no entry lists the key. -/
def SMap.get {β : Type} [Inhabited β] : SMap β → Nat → β
  | [], _ => default
  | (k', v') :: t, k => if k = k' then v' else SMap.get t k

/-- Remove a key. -/
def SMap.erase {β : Type} (m : SMap β) (k : Nat) : SMap β := m.filter fun x => x.1 != k

/-- Write a key, keeping the canonical form: writing the default removes the entry. -/
def SMap.set {β : Type} [Inhabited β] [DecidableEq β] : SMap β → Nat → β → SMap β
  | [], k, v => if v = default then [] else [(k, v)]
  | (k', v') :: t, k, v =>
    if k < k' then (if v = default then SMap.erase ((k', v') :: t) k else (k, v) :: (k', v') :: t)
    else if k = k' then (if v = default then SMap.erase t k else (k, v) :: t)
    else (k', v') :: SMap.set t k v

/-- Change one key's value. -/
def SMap.modify {β : Type} [Inhabited β] [DecidableEq β] (m : SMap β) (k : Nat) (f : β → β) : SMap β :=
  m.set k (f (m.get k))

/-- Every key of the list is at least `lo`, keys rise strictly and no value is the default. -/
def SMap.wfFrom {β : Type} [Inhabited β] [DecidableEq β] : Nat → SMap β → Bool
  | _, [] => true
  | lo, (k, v) :: t => decide (lo ≤ k) && decide (v ≠ default) && SMap.wfFrom (k + 1) t

/-- The canonical form. -/
def SMap.wf {β : Type} [Inhabited β] [DecidableEq β] (m : SMap β) : Bool := SMap.wfFrom 0 m

/-- Bits lo to lo + n - 1 of a number. -/
def bits (x lo n : Nat) : Nat := x / 2 ^ lo % 2 ^ n

end Sys2Proof
end

