-- ==== Sys2Proof/Syntax.lean ====
section
/-! DEFINITION. The instructions and steps of the PQ-8: one constructor of `Instr` per row of spec/opcode_table.json.
A warp instruction carries its decoded fields (R31 to R36); a step of another agent carries what names it. -/

namespace Sys2Proof

/-- The guard: predicate p0 to p7 and its negation (R33). -/
structure Guard where
  p : Fin 8
  neg : Bool
  deriving DecidableEq, Repr, Inhabited

/-- A source operand of the 9-bit operand space (R35, R36). -/
inductive Src where
  | v (r : Fin 256)                       -- vector register
  | s (r : Fin 64)                        -- scalar register
  | b (k : Fin 4)                         -- bypass latch
  | int (c : Fin 48)                      -- integer constant c - 16
  | flt (c : Fin 16)                      -- floating constant 0x1B0 + c
  | lit (w : BitVec 32)                   -- the literal of a 96-bit form
  | win (k : Fin 8) (off : BitVec 17)     -- constant-window operand of a 96-bit form
  deriving DecidableEq, Repr, Inhabited

/-- A destination: a vector register, a scalar (uniform form, R37), or b0 alone with NW = 1 (R42). -/
inductive Dst where
  | v (r : Fin 256)
  | s (r : Fin 64)
  | b0
  deriving DecidableEq, Repr, Inhabited

/-- A base, an index, or a branch target: absent, a scalar, or a vector register (R207, R290). -/
inductive ABase where
  | zero
  | s (r : Fin 64)
  | v (r : Fin 256)
  deriving DecidableEq, Repr, Inhabited

/-- The integer types in the order of their TY codes (R88). -/
inductive Ty where
  | i32 | n32 | i64 | n64 | i16 | n16 | i8 | n8
  deriving DecidableEq, Repr, Inhabited

/-- Comparisons, SUB 0 to 5 of setp (R46). -/
inductive Cmp where
  | eq | ne | lt | le | gt | ge
  deriving DecidableEq, Repr, Inhabited

/-- Comparisons of fsetp in the order of their SUB codes (R46, R116). -/
inductive FCmp where
  | eq | ne | lt | le | gt | ge | num | nan | equ | neu | ltu | leu | gtu | geu
  deriving DecidableEq, Repr, Inhabited

/-- The combination of a comparison with a predicate (R103). -/
inductive Comb where
  | none | and | or | xor
  deriving DecidableEq, Repr, Inhabited

/-- The floating formats of the vector majors (R111). -/
inductive FT where
  | f32 | f16 | bf16 | f16x2 | bf16x2
  deriving DecidableEq, Repr, Inhabited

/-- Rounding modes (R70). -/
inductive RM where
  | rn | rz | rp | rm
  deriving DecidableEq, Repr, Inhabited

/-- The component format of the exact majors (R123). -/
inductive XT where
  | f32 | f16 | bf16
  deriving DecidableEq, Repr, Inhabited

/-- The block-scaled and narrow formats (R76, R78). -/
inductive NF where
  | e2m1 | e4m3 | e5m2
  deriving DecidableEq, Repr, Inhabited

/-- The types of cvt in the order of their codes (R133). -/
inductive CT where
  | i32 | n32 | i64 | n64 | i16 | n16 | i8 | n8 | f32 | f16 | bf16 | f64
  deriving DecidableEq, Repr, Inhabited

/-- Scopes (R183). -/
inductive Scope where
  | warp | block | gang | sheet | device | system
  deriving DecidableEq, Repr, Inhabited

/-- Orders (R184). -/
inductive Ord where
  | plain | rlx | acq | rel | ar | sc
  deriving DecidableEq, Repr, Inhabited

/-- Widths of a memory access in the order of the codes of W (R209). -/
inductive MW where
  | n8 | i8 | n16 | i16 | b32 | b64 | b128 | i32
  deriving DecidableEq, Repr, Inhabited

/-- Atomic operations in the order of AOP (R220). -/
inductive AOp where
  | addI32 | addI64 | addF32 | addF16x2 | addBf16x2 | minI32 | minN32 | maxI32 | maxN32 | minF32 | maxF32
  | and | or | xor | exch32 | exch64
  deriving DecidableEq, Repr, Inhabited

/-! Shapes of the arithmetic instructions: guard, destination, one to three sources, modifiers. -/

/-- One source. -/
structure Op1 (μ : Type) where
  g : Guard
  d : Dst
  a : Src
  m : μ
  deriving DecidableEq, Repr, Inhabited

/-- Two sources. -/
structure Op2 (μ : Type) where
  g : Guard
  d : Dst
  a : Src
  b : Src
  m : μ
  deriving DecidableEq, Repr, Inhabited

/-- Three sources. -/
structure Op3 (μ : Type) where
  g : Guard
  d : Dst
  a : Src
  b : Src
  c : Src
  m : μ
  deriving DecidableEq, Repr, Inhabited

/-- TY and SAT (R88). -/
structure IntM where
  ty : Ty
  sat : Bool
  deriving DecidableEq, Repr, Inhabited

/-- shf: TY and X = .l (R99). -/
structure ShfM where
  ty : Ty
  l : Bool
  deriving DecidableEq, Repr, Inhabited

/-- lea: reading of idx (n32 when set) and SH (R109). -/
structure LeaM where
  n32 : Bool
  sh : Fin 4
  deriving DecidableEq, Repr, Inhabited

/-- idot4, idot2, tacc: SAT, X (.hi), .ua, .ub (R110). -/
structure DotM where
  sat : Bool
  hi : Bool
  ua : Bool
  ub : Bool
  deriving DecidableEq, Repr, Inhabited

/-- The floating modifier byte (R111). -/
structure FM where
  ft : FT
  rm : RM
  f5 : Bool
  f6 : Bool
  deriving DecidableEq, Repr, Inhabited

/-- addc, subb (R97). -/
structure CarryI where
  g : Guard
  d : Dst
  a : Src
  b : Src
  pc : Fin 8
  ty : Ty
  ci : Bool
  deriving DecidableEq, Repr, Inhabited

/-- setp (R103). `pc` is 0 when `comb` is none. -/
structure SetpI where
  g : Guard
  pd : Fin 8
  a : Src
  b : Src
  cc : Cmp
  ty : Ty
  comb : Comb
  pc : Fin 8
  deriving DecidableEq, Repr, Inhabited

/-- sel (R104). -/
structure SelI where
  g : Guard
  d : Dst
  a : Src
  b : Src
  pc : Fin 8
  ty : Ty
  deriving DecidableEq, Repr, Inhabited

/-- pfn (R105). -/
structure PfnI where
  g : Guard
  pd : Fin 8
  pa : Fin 8
  pb : Fin 8
  pc : Fin 8
  lut : BitVec 8
  deriving DecidableEq, Repr, Inhabited

/-- movp (R107, X = 0). -/
structure MovpI where
  g : Guard
  d : Dst
  pa : Fin 8
  deriving DecidableEq, Repr, Inhabited

/-- movp.to (R107, X = 1). -/
structure MovpToI where
  g : Guard
  pd : Fin 8
  a : Src
  deriving DecidableEq, Repr, Inhabited

/-- sethi20 and sethi20.pc (R108). -/
structure SethiI where
  g : Guard
  sd : Fin 64
  imm : BitVec 20
  deriving DecidableEq, Repr, Inhabited

/-- fsetp (R116). -/
structure FsetpI where
  g : Guard
  pd : Fin 8
  a : Src
  b : Src
  cc : FCmp
  ft : FT
  comb : Comb
  pc : Fin 8
  deriving DecidableEq, Repr, Inhabited

/-- fclass (R117). -/
structure FclassI where
  g : Guard
  pd : Fin 8
  a : Src
  mask : Src
  ft : FT
  deriving DecidableEq, Repr, Inhabited

/-- xren (R129): length code N of d and a, 1 to 3 for x2 to x4. -/
structure XrenI where
  g : Guard
  d : Fin 256
  a : Fin 256
  t : XT
  na : Fin 4
  deriving DecidableEq, Repr, Inhabited

/-- xcmpr (R129). -/
structure XcmprI where
  g : Guard
  d : Fin 256
  a : Fin 256
  t : XT
  na : Fin 4
  nd : Fin 4
  rm : RM
  deriving DecidableEq, Repr, Inhabited

/-- xcmp (R131). -/
structure XcmpI where
  g : Guard
  pd : Fin 8
  a : Fin 256
  b : Fin 256
  t : XT
  na : Fin 4
  cc : Cmp
  deriving DecidableEq, Repr, Inhabited

/-- xadd (R130): NB 0 reads b as one word. -/
structure XaddI where
  g : Guard
  d : Fin 256
  a : Fin 256
  b : Src
  t : XT
  na : Fin 4
  nb : Fin 4
  deriving DecidableEq, Repr, Inhabited

/-- xmul.w (R130). -/
structure XmulI where
  g : Guard
  d : Fin 256
  a : Fin 256
  b : Src
  t : XT
  na : Fin 4
  deriving DecidableEq, Repr, Inhabited

/-- cvt (R133): DT, ST, RM, SAT. -/
structure CvtM where
  dt : CT
  st : CT
  rm : RM
  sat : Bool
  deriving DecidableEq, Repr, Inhabited

/-- The direction of cvt.n with what only that direction has (R135). -/
inductive CvtNDir where
  | narrow (b : Src) (mode : RM) (ovf : Bool) (hi : Bool)
  | widen (sel : Fin 4)
  deriving DecidableEq, Repr, Inhabited

/-- cvt.n (R135): `e5m2` is NF, `wf` the wide format. -/
structure CvtNI where
  g : Guard
  d : Dst
  a : Src
  e5m2 : Bool
  wf : XT
  dir : CvtNDir
  deriving DecidableEq, Repr, Inhabited

/-- cvt.sr (R136): to a lone 16-bit word, or two bytes. -/
inductive CvtSrTo where
  | f16 | bf16
  | byte (e5m2 : Bool) (b : Src) (ovf : Bool) (hi : Bool)
  deriving DecidableEq, Repr, Inhabited

/-- cvt.sr (R136). -/
structure CvtSrI where
  g : Guard
  d : Dst
  a : Src
  c : Src
  dest : CvtSrTo
  deriving DecidableEq, Repr, Inhabited

/-- cvt.blk, decoding (R137, R138). -/
structure CvtBlkDecI where
  g : Guard
  d : Fin 256
  a : Src
  sc : Fin 256
  nf : NF
  sel : Fin 4
  deriving DecidableEq, Repr, Inhabited

/-- cvt.blk, encoding (R137, R139). -/
structure CvtBlkEncI where
  g : Guard
  d : Dst
  a : Fin 256
  sc : Fin 256
  nf : NF
  sel : Fin 4
  auto : Bool
  rm : RM
  ovf : Bool
  deriving DecidableEq, Repr, Inhabited

/-- cvt.x2 (R132): FP64 to x2.f32, or back in a mode. -/
inductive CvtX2I where
  | toX2 (g : Guard) (d : Fin 256) (a : Src)
  | toF64 (g : Guard) (d : Fin 256) (a : Fin 256) (mode : RM)
  deriving DecidableEq, Repr, Inhabited

/-- unpk.t3 (R142). -/
structure UnpkI where
  g : Guard
  d : Fin 256
  a : Src
  pd : Option (Fin 8)
  deriving DecidableEq, Repr, Inhabited

/-- The forms of pack (R140). -/
inductive PackP where
  | f16x2 (mode : RM) | bf16x2 (mode : RM) | i16x2 (sat : Bool) | n16x2 (sat : Bool)
  | i8 (sat hi : Bool) | n8 (sat hi : Bool)
  deriving DecidableEq, Repr, Inhabited

/-- The forms of unpack (R141), with the element selected. -/
inductive UnpackP where
  | f16 (sel : Fin 2) | bf16 (sel : Fin 2) | i16 (sel : Fin 2) | n16 (sel : Fin 2) | i8 (sel : Fin 4) | n8 (sel : Fin 4)
  deriving DecidableEq, Repr, Inhabited

/-- The modes of xlane (R300). -/
inductive XlaneMode where
  | idx | sh | rot | flip
  deriving DecidableEq, Repr, Inhabited

/-- xlane (R300): segment width 32 >> seg. -/
structure XlaneI where
  g : Guard
  d : Fin 256
  a : Fin 256
  b : Src
  mode : XlaneMode
  seg : Fin 6
  pd : Option (Fin 8)
  deriving DecidableEq, Repr, Inhabited

/-- nbr (R301). -/
structure NbrI where
  g : Guard
  d : Fin 256
  a : Fin 256
  n : Src
  above : Bool
  pd : Option (Fin 8)
  deriving DecidableEq, Repr, Inhabited

/-- The forms of lvote with their destinations (R302). -/
inductive VoteOp where
  | and (pd : Fin 8) | or (pd : Fin 8) | same (pd : Fin 8) | xor (pd : Fin 8)
  | maskV (d : Fin 256) | maskS (d : Fin 64)
  deriving DecidableEq, Repr, Inhabited

/-- lvote (R302). -/
structure LvoteI where
  g : Guard
  op : VoteOp
  pa : Fin 8
  na : Bool
  deriving DecidableEq, Repr, Inhabited

/-- Modes of mpopc (R303). -/
inductive PopcMode where
  | excl | incl | tot
  deriving DecidableEq, Repr, Inhabited

/-- mpopc (R303). -/
structure MpopcI where
  g : Guard
  d : Dst
  pa : Fin 8
  mode : PopcMode
  na : Bool
  deriving DecidableEq, Repr, Inhabited

/-- Modes of lmatch (R304). -/
inductive MatchMode where
  | grp | uni (pd : Option (Fin 8)) | lead
  deriving DecidableEq, Repr, Inhabited

/-- lmatch (R304). -/
structure LmatchI where
  g : Guard
  d : Fin 256
  a : Fin 256
  w64 : Bool
  mode : MatchMode
  deriving DecidableEq, Repr, Inhabited

/-- Offset and extension of a memory form (R205, R206). `long` is the 128-bit form. `sbc` 0 names no counter, n + 1
names sb n. -/
structure Ext where
  long : Bool
  off : Int
  sbc : Fin 7
  scope : Scope
  cp : Fin 4
  deriving DecidableEq, Repr, Inhabited

/-- stc (R305): with `ri`, the slot destination. -/
structure StcI where
  g : Guard
  ri : Option (Fin 256)
  q : Fin 64
  base : Fin 64
  data : Src
  w : MW
  x : Ext
  deriving DecidableEq, Repr, Inhabited

/-- ld, lds, ldgs, ldl (R210): IP and the index scale 2^sc as R209. -/
structure LoadI where
  g : Guard
  d : Dst
  base : ABase
  idx : ABase
  sc : Fin 4
  ip : Bool
  w : MW
  ord : Ord
  x : Ext
  deriving DecidableEq, Repr, Inhabited

/-- st, sts, stgs, stl (R210, R212). -/
structure StoreI where
  g : Guard
  data : Src
  base : ABase
  idx : ABase
  sc : Fin 4
  ip : Bool
  w : MW
  ord : Ord
  x : Ext
  deriving DecidableEq, Repr, Inhabited

/-- ldk (R214). -/
structure LdkI where
  g : Guard
  d : Dst
  win : Fin 8
  idx : ABase
  sc : Fin 4
  w : MW
  x : Ext
  deriving DecidableEq, Repr, Inhabited

/-- pref (R216). -/
structure PrefI where
  g : Guard
  base : ABase
  idx : ABase
  sc : Fin 4
  ip : Bool
  llc : Bool
  x : Ext
  deriving DecidableEq, Repr, Inhabited

/-- Bank modes (R177). -/
inductive BankMode where
  | scratch | cache | fifo
  deriving DecidableEq, Repr, Inhabited

/-- bankcfg (R217). -/
structure BankcfgI where
  g : Guard
  first : Src
  count : Src
  mode : BankMode
  long : Bool
  deriving DecidableEq, Repr, Inhabited

/-- fifo.push (R218). -/
structure FifoPushI where
  g : Guard
  bank : Src
  data : Src
  long : Bool
  deriving DecidableEq, Repr, Inhabited

/-- fifo.pop (R218). -/
structure FifoPopI where
  g : Guard
  d : Fin 256
  bank : Src
  long : Bool
  deriving DecidableEq, Repr, Inhabited

/-- atom, atoms (R219): `d` is a vector register or, with a uniform address, a scalar. -/
structure AtomI where
  g : Guard
  d : Dst
  base : ABase
  idx : ABase
  op : AOp
  ord : Ord
  x : Ext
  deriving DecidableEq, Repr, Inhabited

/-- red, reds (R219). -/
structure RedI where
  g : Guard
  data : Src
  base : ABase
  idx : ABase
  op : AOp
  ord : Ord
  x : Ext
  deriving DecidableEq, Repr, Inhabited

/-- cas, cass (R221). -/
structure CasI where
  g : Guard
  d : Fin 256
  base : ABase
  idx : ABase
  w64 : Bool
  ord : Ord
  x : Ext
  deriving DecidableEq, Repr, Inhabited

/-- The pair types of catom (R222). -/
inductive PairT where
  | f32 | bf16 | bf16f32
  deriving DecidableEq, Repr, Inhabited

/-- catom.add (R222). -/
structure CatomI where
  g : Guard
  d : Fin 256
  base : ABase
  delta : ABase
  pt : PairT
  pd : Option (Fin 8)
  ord : Ord
  x : Ext
  deriving DecidableEq, Repr, Inhabited

/-- fence (R225). -/
structure FenceI where
  g : Guard
  ord : Ord
  scope : Scope
  deriving DecidableEq, Repr, Inhabited

/-- bar.init (R228). -/
structure BarInitI where
  g : Guard
  obj : Fin 64
  count : Src
  scratch : Bool
  scope : Scope
  long : Bool
  deriving DecidableEq, Repr, Inhabited

/-- bar.arrive (R229). -/
structure BarArriveI where
  g : Guard
  obj : Fin 64
  count : Src
  bytes : Src
  scratch : Bool
  scope : Scope
  long : Bool
  sbc : Fin 7
  deriving DecidableEq, Repr, Inhabited

/-- bar.wait (R230). -/
structure BarWaitI where
  g : Guard
  obj : Fin 64
  par : Src
  scratch : Bool
  scope : Scope
  long : Bool
  deriving DecidableEq, Repr, Inhabited

/-- bar.test (R230). -/
structure BarTestI where
  g : Guard
  pd : Fin 8
  obj : Fin 64
  par : Src
  scratch : Bool
  scope : Scope
  long : Bool
  deriving DecidableEq, Repr, Inhabited

/-- waitc (R231). -/
structure WaitcI where
  g : Guard
  ctr : Fin 64
  value : Src
  scope : Scope
  deriving DecidableEq, Repr, Inhabited

/-- signal (R232). -/
structure SignalI where
  g : Guard
  ctr : Fin 64
  value : Src
  scope : Scope
  long : Bool
  sbc : Fin 7
  deriving DecidableEq, Repr, Inhabited

/-- waitsb (R233). -/
structure WaitsbI where
  g : Guard
  sb : Fin 6
  n : Src
  deriving DecidableEq, Repr, Inhabited

/-- pause (R234). -/
structure PauseI where
  g : Guard
  n : Src
  deriving DecidableEq, Repr, Inhabited

/-- bra (R289): off24 in words. -/
structure BraI where
  g : Guard
  off : BitVec 24
  deriving DecidableEq, Repr, Inhabited

/-- brx, ret (R290, R292). -/
structure JumpI where
  g : Guard
  target : ABase
  deriving DecidableEq, Repr, Inhabited

/-- call (R291). -/
structure CallI where
  g : Guard
  link : Fin 256
  off : BitVec 24
  deriving DecidableEq, Repr, Inhabited

/-- callx (R291). -/
structure CallxI where
  g : Guard
  link : Fin 256
  target : ABase
  deriving DecidableEq, Repr, Inhabited

/-- An instruction with a guard alone: exit, nop, tret, migr.home, tlbi.all, rgn.end. -/
structure PlainI where
  g : Guard
  deriving DecidableEq, Repr, Inhabited

/-- jopen (R296). -/
structure JopenI where
  g : Guard
  j : Fin 16
  mask : Option Src
  deriving DecidableEq, Repr, Inhabited

/-- jenter, jquit, jwait, jfree (R296). -/
structure JsetI where
  g : Guard
  j : Fin 16
  deriving DecidableEq, Repr, Inhabited

/-- jsave, jload (R296, R298). -/
structure JmemI where
  g : Guard
  j : Fin 16
  base : Fin 64
  slot : Src
  deriving DecidableEq, Repr, Inhabited

/-- The operand formats of mma in the order of their codes (R162). -/
inductive MF where
  | bf16 | f16 | e4m3 | e5m2 | i8 | n8 | e2m1
  deriving DecidableEq, Repr, Inhabited

/-- mma (R162): scale records with .sc, token. -/
structure MmaI where
  g : Guard
  d : Fin 8
  sa : Fin 64
  sb : Fin 64
  af : MF
  bf : MF
  ck : Bool
  scale : Option (Fin 64 × Fin 64)
  tk : Option (Fin 64)
  deriving DecidableEq, Repr, Inhabited

/-- mma.res (R162): as mma, with the residual tile. -/
structure MmaResI where
  m : MmaI
  r : Fin 8
  deriving DecidableEq, Repr, Inhabited

/-- The formats of acc in the order of their codes (R165). -/
inductive AF where
  | f32 | f16 | bf16 | e4m3 | e5m2 | i32
  deriving DecidableEq, Repr, Inhabited

/-- acc.zero (R166). -/
structure AccZeroI where
  g : Guard
  d : Fin 8
  deriving DecidableEq, Repr, Inhabited

/-- acc.rd (R167): rows 32·rh on, 2^nr registers, first column `col`; `sum` names the residual tile. -/
structure AccRdI where
  g : Guard
  d : Fin 256
  a : Fin 8
  sum : Option (Fin 8)
  ft : AF
  rm : RM
  ovf : Bool
  rh : Fin 2
  nr : Fin 5
  col : Fin 64
  deriving DecidableEq, Repr, Inhabited

/-- acc.wr (R167). -/
structure AccWrI where
  g : Guard
  d : Fin 8
  a : Fin 256
  ft : AF
  rh : Fin 2
  nr : Fin 5
  col : Fin 64
  deriving DecidableEq, Repr, Inhabited

/-- acc.ld (R168). -/
structure AccLdI where
  g : Guard
  d : Fin 8
  lrec : Fin 64
  ft : AF
  tk : Option (Fin 64)
  deriving DecidableEq, Repr, Inhabited

/-- acc.st (R168). -/
structure AccStI where
  g : Guard
  a : Fin 8
  lrec : Fin 64
  sum : Option (Fin 8)
  ft : AF
  rm : RM
  ovf : Bool
  sb : Fin 6
  deriving DecidableEq, Repr, Inhabited

/-- cpy (R241): `bar` is the tied barrier and its space (scratch when set). -/
structure CpyI where
  g : Guard
  dst : Fin 64
  src : Fin 64
  bar : Option (Fin 64 × Bool)
  scope : Scope
  tk : Option (Fin 64)
  cr : Option (Fin 64)
  deriving DecidableEq, Repr, Inhabited

/-- Reduction modes of cpy.red, ROP 1 to 6 (R249). -/
inductive Rop where
  | sumF32 | sumBf16w | sumCmp | max | min | sumI32
  deriving DecidableEq, Repr, Inhabited

/-- cpy.red (R241). -/
structure CpyRedI where
  c : CpyI
  rop : Rop
  deriving DecidableEq, Repr, Inhabited

/-- cpy.sig (R241): the counter and the value. -/
structure CpySigI where
  c : CpyI
  ctr : Fin 64
  value : Src
  deriving DecidableEq, Repr, Inhabited

/-- imp.start (R241). -/
structure ImpI where
  g : Guard
  desc : Fin 64
  scope : Scope
  tk : Option (Fin 64)
  cr : Option (Fin 64)
  deriving DecidableEq, Repr, Inhabited

/-- rgn.begin (R391): label offset in words. -/
structure RgnBeginI where
  g : Guard
  loff : BitVec 24
  retry : Fin 8
  deriving DecidableEq, Repr, Inhabited

/-- rgn.keep (R392). -/
structure RgnKeepI where
  g : Guard
  vfirst : Fin 256
  vnum : Fin 257
  sfirst : Fin 64
  snum : Fin 65
  pmask : BitVec 8
  jmask : BitVec 16
  tile0 : Option (Fin 8)
  tile1 : Option (Fin 8)
  deriving DecidableEq, Repr, Inhabited

/-- rgn.abort, trap (R390, R379): n as a scalar or a constant. -/
structure TrapI where
  g : Guard
  n : Src
  deriving DecidableEq, Repr, Inhabited

/-- rgn.status (R395). -/
structure RgnStatusI where
  g : Guard
  d : Fin 64
  deriving DecidableEq, Repr, Inhabited

/-- errp.post (R383). -/
structure ErrpPostI where
  g : Guard
  n : Src
  w0 : Fin 64
  w1 : Fin 64
  long : Bool
  deriving DecidableEq, Repr, Inhabited

/-- errp.vec, errp.mask (R383). -/
structure ErrpSetI where
  g : Guard
  d : Option (Fin 64)
  a : Src
  long : Bool
  deriving DecidableEq, Repr, Inhabited

/-- csrr (R346): a vector or scalar destination. -/
structure CsrrI where
  g : Guard
  d : Dst
  srn : BitVec 8
  deriving DecidableEq, Repr, Inhabited

/-- csrw (R346). -/
structure CsrwI where
  g : Guard
  srn : BitVec 8
  a : Src
  deriving DecidableEq, Repr, Inhabited

/-- migr (R308). -/
structure MigrI where
  g : Guard
  a : Fin 64
  deriving DecidableEq, Repr, Inhabited

/-- tlbi.va (R350). -/
structure TlbiVaI where
  g : Guard
  c : Fin 64
  v : Fin 64
  mv : Bool
  deriving DecidableEq, Repr, Inhabited

/-- tlbi.ctx (R350). -/
structure TlbiCtxI where
  g : Guard
  c : Fin 64
  mv : Bool
  deriving DecidableEq, Repr, Inhabited

/-- tlbi.all (R350). -/
structure TlbiAllI where
  g : Guard
  mv : Bool
  deriving DecidableEq, Repr, Inhabited

/-- ctxop.drain (R352). -/
structure CtxI where
  g : Guard
  c : Fin 64
  deriving DecidableEq, Repr, Inhabited

/-- ctxop.root (R352). -/
structure CtxRootI where
  g : Guard
  c : Fin 64
  r : Fin 64
  deriving DecidableEq, Repr, Inhabited

/-! What the steps of the other agents carry. -/

/-- The operands of a context's creation (R333, R431). -/
structure CtxArgs where
  ctx : Nat
  sys : Bool
  root : DWord
  rhome : Fin 4
  errq : DWord
  deriving DecidableEq, Repr, Inhabited

/-- The operands of a queue's registration (R314): the 64 bytes of its control block, or its removal. -/
inductive QueueArgs where
  | register (queue : Nat) (qcb : List Byte)
  | remove (queue : Nat)
  deriving DecidableEq, Repr, Inhabited

/-- Where an uncorrectable error strikes (R373, R411). -/
inductive ErrPlace where
  | hbm (key : Nat)                            -- byte key sheet·2^38 + PA
  | scratch (gang block off : Nat)             -- byte of a block's scratch
  | fifo (gang block bank k : Nat)             -- entry k of a FIFO bank
  | vreg (w r lane : Nat) | sreg (w r : Nat) | preg (w r : Nat) | jreg (w r : Nat)
  | tile (w t e : Nat)                         -- element e = 64·row + column of a warp's tile
  | bridge (n : Nat)                           -- a bridge whose replay has failed 16 times
  | latch (w k lane : Nat)
  | kept (w level : Nat)                       -- kept state of a region level, in the galley or a spare tile slot
  | galley (w level k off : Nat)               -- byte off of entry k of a level's held stores
  | l1 (forme key : Nat)                       -- the copy of a byte in a forme's L1
  | groupSum (w e : Nat) (m x : Int)           -- m·2^x in the group sum that a warp's next mma step applies to element e
  deriving DecidableEq, Repr, Inhabited

/-- The engine that stops in a pre-emption (R328). -/
inductive Engine where
  | warp (w : Nat) | platen (w : Nat) | feeder (cmd : Nat) | cp
  deriving DecidableEq, Repr, Inhabited

/-- Where a packet of a port comes from: the number of its queue pair or peer, and whether the network marked it by ECN
(R336, R431). -/
structure Sender where
  peer : Nat
  ecn : Bool
  deriving DecidableEq, Repr, Inhabited

/-- A WRITE with immediate (R251). -/
structure ImmWrite where
  imm : BitVec 32
  payload : List Byte
  deriving DecidableEq, Repr, Inhabited

/-- The instructions and steps of the PQ-8, in the order of the opcode table. -/
inductive Instr where
  | issueOpportunity (q : Nat)
  | add (i : Op2 IntM)
  | sub (i : Op2 IntM)
  | addc (i : CarryI)
  | subb (i : CarryI)
  | mul (i : Op2 IntM)
  | mulhi (i : Op2 Ty)
  | mad (i : Op3 IntM)
  | madhi (i : Op3 Ty)
  | mulwd (i : Op2 Ty)
  | div (i : Op2 Ty)
  | rem (i : Op2 Ty)
  | abs (i : Op1 IntM)
  | neg (i : Op1 IntM)
  | min (i : Op2 Ty)
  | max (i : Op2 Ty)
  | sad (i : Op3 Ty)
  | add3 (i : Op3 IntM)
  | clamp (i : Op3 Ty)
  | and (i : Op2 Ty)
  | or (i : Op2 Ty)
  | xor (i : Op2 Ty)
  | not (i : Op1 Ty)
  | andn (i : Op2 Ty)
  | bfn (i : Op3 (BitVec 8))
  | shl (i : Op2 Ty)
  | shr (i : Op2 Ty)
  | shrA (i : Op2 Ty)
  | rot (i : Op2 Ty)
  | shf (i : Op3 ShfM)
  | bfx (i : Op2 Ty)
  | bfi (i : Op3 Ty)
  | popc (i : Op1 Ty)
  | clz (i : Op1 Ty)
  | ctz (i : Op1 Ty)
  | brev (i : Op1 Ty)
  | bsel (i : Op3 Unit)
  | setp (i : SetpI)
  | sel (i : SelI)
  | pfn (i : PfnI)
  | mov (i : Op1 Ty)
  | movp (i : MovpI)
  | movpTo (i : MovpToI)
  | sethi20 (i : SethiI)
  | sethi20Pc (i : SethiI)
  | lea (i : Op3 LeaM)
  | idot4 (i : Op3 DotM)
  | idot2 (i : Op3 DotM)
  | tacc (i : Op3 DotM)
  | fadd (i : Op2 FM)
  | fsub (i : Op2 FM)
  | fmul (i : Op2 FM)
  | fma (i : Op3 FM)
  | fdot2 (i : Op3 FM)
  | fscale (i : Op2 FM)
  | fmin (i : Op2 FM)
  | fmax (i : Op2 FM)
  | fclamp (i : Op3 FM)
  | fsetp (i : FsetpI)
  | fclass (i : FclassI)
  | frnd (i : Op1 FM)
  | fexpo (i : Op1 FM)
  | fmant (i : Op1 FM)
  | fdiv (i : Op2 FM)
  | fsqrt (i : Op1 FM)
  | frcp (i : Op1 FM)
  | frsq (i : Op1 FM)
  | fex2 (i : Op1 FM)
  | flg2 (i : Op1 FM)
  | fsin (i : Op1 FM)
  | fcos (i : Op1 FM)
  | ftanh (i : Op1 FM)
  | faddE (i : Op2 XT)
  | fmulE (i : Op2 XT)
  | fmaE (i : Op3 XT)
  | xren (i : XrenI)
  | xcmpr (i : XcmprI)
  | xcmp (i : XcmpI)
  | xadd (i : XaddI)
  | xmulW (i : XmulI)
  | cvt (i : Op1 CvtM)
  | cvtN (i : CvtNI)
  | cvtSr (i : CvtSrI)
  | cvtBlkDecode (i : CvtBlkDecI)
  | cvtBlkEncode (i : CvtBlkEncI)
  | cvtX2 (i : CvtX2I)
  | unpkT3 (i : UnpkI)
  | pack (i : Op2 PackP)
  | unpack (i : Op1 UnpackP)
  | xlane (i : XlaneI)
  | nbr (i : NbrI)
  | lvote (i : LvoteI)
  | mpopc (i : MpopcI)
  | lmatch (i : LmatchI)
  | stc (i : StcI)
  | ld (i : LoadI)
  | st (i : StoreI)
  | lds (i : LoadI)
  | sts (i : StoreI)
  | ldgs (i : LoadI)
  | stgs (i : StoreI)
  | ldk (i : LdkI)
  | ldl (i : LoadI)
  | stl (i : StoreI)
  | pref (i : PrefI)
  | bankcfg (i : BankcfgI)
  | bankDrainEnd (w : Nat)
  | fifoPush (i : FifoPushI)
  | fifoPop (i : FifoPopI)
  | atom (i : AtomI)
  | red (i : RedI)
  | atoms (i : AtomI)
  | reds (i : RedI)
  | cas (i : CasI)
  | cass (i : CasI)
  | catom (i : CatomI)
  | atomicPerformed (w op piece : Nat)
  | loadDataReturn (w op piece : Nat)
  | storePerformed (w op piece : Nat)
  | resultWriteback (w k : Nat)
  | fence (i : FenceI)
  | barInit (i : BarInitI)
  | barArrive (i : BarArriveI)
  | barWait (i : BarWaitI)
  | barTest (i : BarTestI)
  | waitc (i : WaitcI)
  | signal (i : SignalI)
  | waitsb (i : WaitsbI)
  | pause (i : PauseI)
  | groupWaitEnd (w lane : Nat)
  | bra (i : BraI)
  | brx (i : JumpI)
  | call (i : CallI)
  | callx (i : CallxI)
  | ret (i : JumpI)
  | exit (i : PlainI)
  | jopen (i : JopenI)
  | jenter (i : JsetI)
  | jquit (i : JsetI)
  | jwait (i : JsetI)
  | jfree (i : JsetI)
  | jsave (i : JmemI)
  | jload (i : JmemI)
  | mma (i : MmaI)
  | mmaRes (i : MmaResI)
  | accZero (i : AccZeroI)
  | accRd (i : AccRdI)
  | accWr (i : AccWrI)
  | accLd (i : AccLdI)
  | accSt (i : AccStI)
  | platenStep (q : Nat)
  | cpy (i : CpyI)
  | cpyRed (i : CpyRedI)
  | cpySig (i : CpySigI)
  | impStart (i : ImpI)
  | feederChunk (f : Nat)
  | stepSend (cmd : Nat)
  | stepRecv (cmd : Nat)
  | stepRrs (cmd : Nat)
  | stepRrc (cmd : Nat)
  | stepCopy (cmd : Nat)
  | stepWait (cmd : Nat)
  | stepSignal (cmd : Nat)
  | stepLoop (cmd : Nat)
  | stepEndloop (cmd : Nat)
  | credit (port : Nat) (src : Sender) (m : List Byte)
  | chunk (port : Nat) (src : Sender) (m : ImmWrite)
  | abort (port : Nat) (src : Sender) (m : List Byte)
  | transferTimeout (cmd : Nat)
  | rgnBegin (i : RgnBeginI)
  | rgnKeep (i : RgnKeepI)
  | rgnEnd (i : PlainI)
  | rgnAbort (i : TrapI)
  | rgnStatus (i : RgnStatusI)
  | errpPost (i : ErrpPostI)
  | errpVec (i : ErrpSetI)
  | errpMask (i : ErrpSetI)
  | csrr (i : CsrrI)
  | csrw (i : CsrwI)
  | trap (i : TrapI)
  | tret (i : PlainI)
  | migr (i : MigrI)
  | migrHome (i : PlainI)
  | migrationDeparture (w : Nat)
  | migrationArrival (w slot : Nat)
  | nop (i : PlainI)
  | tlbiVa (i : TlbiVaI)
  | tlbiCtx (i : TlbiCtxI)
  | tlbiAll (i : TlbiAllI)
  | ctxopRoot (i : CtxRootI)
  | ctxopDrain (i : CtxI)
  | migWalkRetry (w : Nat)
  | movedNack (w op piece : Nat)
  | takeTrap (w : Nat)
  | detectedError (w cause pc gseq lanes : Nat)
  | regionRollback (w : Nat)
  | gangKill (gang cause : Nat)
  | gangRelaunch (gang : Nat) (slots : List Nat)
  | watchdogExpiry (rcb : Nat)
  | gangPlacement (launch : Nat) (slots : List Nat)
  | warpRetire (w : Nat)
  | preemptionRequest (gang : Nat)
  | engineStop (gang : Nat) (e : Engine)
  | preemptionComplete (gang : Nat)
  | resumption (gang : Nat)
  | timeSliceExpiry (gang : Nat)
  | schedulerRebuild (chase : Nat) (fatal : Bool)
  | fabricEntry (src dst vc : Nat)
  | fabricResend (src dst vc : Nat)
  | tail (queue : Nat) (value : DWord)
  | resume (queue : Nat)
  | reset (queue : Nat)
  | launch (queue : Nat)
  | packetFence (queue : Nat)
  | packetSignal (queue : Nat)
  | packetCopy (queue : Nat)
  | collective (queue : Nat)
  | rcbRegister (queue : Nat)
  | rcbUnregister (queue : Nat)
  | skip (queue : Nat)
  | unknownPacket (queue : Nat)
  | fenceThresholdMet (queue : Nat)
  | workCompletionDone (work : Nat)
  | rdmaWrite (port : Nat) (src : Sender) (va : DWord) (data : List Byte)
  | rdmaRead (port : Nat) (src : Sender) (va : DWord) (len : Nat)
  | clockThrottle (up : Bool)
  | thermalTripFatal
  | boot
  | readOfferWords (port : Nat)
  | featureAccept (port word : Nat) (value : DWord)
  | featureLock (port : Nat) (value : DWord)
  | createContext (port : Nat) (a : CtxArgs)
  | removeContext (port ctx : Nat)
  | registerQueue (port : Nat) (a : QueueArgs)
  | bindQueuePair (port qpPort qp ctx : Nat)
  | attestationQuote (port : Nat) (nonce : List Byte)
  | writeFirmwareSlot (port slot : Nat) (version : DWord) (image signature : List Byte)
  | readManagementErrata (port : Nat)
  | commitFirmwareVersion (port : Nat)
  | linkFailure (cmd : Nat)
  | impositionWaitMet (cmd : Nat)
  | uncorrectableError (p : ErrPlace)
  | powerLoss
  | cnpReceived (port : Nat)
  | malformedManagementMessage (port : Nat) (message : List Byte)
  deriving DecidableEq, Repr, Inhabited

end Sys2Proof
end

