-- ==== Sys2Proof/WellFormed.lean ====
section
/-! DEFINITION. Which instruction terms stand for an encoding the PQ-8 accepts: the checks of R35 to R47 and of each
entry that do not depend on the warp. A step of another agent is no instruction of the stream and is not well-formed. -/

namespace Sys2Proof

/-- The type of a source position (R36). -/
inductive Pos where
  | i8 | i16 | i32 | i64 | f32 | f16 | bf16 | pair | f64 | narrow | expansion
  deriving DecidableEq, Repr, Inhabited

/-- Width in bits of an integer type (R88, R89). -/
def Ty.width : Ty → Nat
  | .i32 | .n32 => 32
  | .i64 | .n64 => 64
  | .i16 | .n16 => 16
  | .i8 | .n8 => 8

/-- Whether a type is signed (R88). -/
def Ty.signed : Ty → Bool
  | .i32 | .i64 | .i16 | .i8 => true
  | .n32 | .n64 | .n16 | .n8 => false

/-- TY 0 to 3. -/
def Ty.wide : Ty → Bool
  | .i32 | .n32 | .i64 | .n64 => true
  | _ => false

/-- TY 0 or 1. -/
def Ty.is32 : Ty → Bool
  | .i32 | .n32 => true
  | _ => false

/-- The position of a data operand of an integer type (R89). -/
def Ty.pos (t : Ty) : Pos :=
  match t.width with
  | 8 => .i8
  | 16 => .i16
  | 64 => .i64
  | _ => .i32

/-- The position of an operand in a floating format (R111). -/
def FT.pos : FT → Pos
  | .f32 => .f32
  | .f16 => .f16
  | .bf16 => .bf16
  | .f16x2 | .bf16x2 => .pair

/-- FT 0 to 2. -/
def FT.lone : FT → Bool
  | .f32 | .f16 | .bf16 => true
  | _ => false

/-- The position of a component format (R123). -/
def XT.pos : XT → Pos
  | .f32 => .f32
  | .f16 => .f16
  | .bf16 => .bf16

/-- The position of a cvt type (R133). -/
def CT.pos : CT → Pos
  | .i32 | .n32 => .i32
  | .i64 | .n64 => .i64
  | .i16 | .n16 => .i16
  | .i8 | .n8 => .i8
  | .f32 => .f32
  | .f16 => .f16
  | .bf16 => .bf16
  | .f64 => .f64

/-- A 64-bit type of cvt. -/
def CT.is64 : CT → Bool
  | .i64 | .n64 | .f64 => true
  | _ => false

/-- An integer type of cvt. -/
def CT.isInt : CT → Bool
  | .i32 | .n32 | .i64 | .n64 | .i16 | .n16 | .i8 | .n8 => true
  | _ => false

/-- A literal in an integer position of n bits has the bits above all zero or all equal to the top bit of that width
(R36). -/
def litFits (w : BitVec 32) (n : Nat) : Bool :=
  let hi := w.toNat / 2 ^ n
  hi == 0 || (hi == 2 ^ (32 - n) - 1 && bits w.toNat (n - 1) 1 == 1)

/-- Whether a source code is legal in a position (R36). -/
def Src.okAt (x : Src) (p : Pos) : Bool :=
  match x with
  | .v r => if p = .i64 ∨ p = .f64 then r.val % 2 == 0 else true
  | .b k => if p = .i64 ∨ p = .f64 then k.val % 2 == 0 else true
  | .s _ => true
  | .int _ => match p with
    | .narrow | .expansion | .f64 => false
    | _ => true
  | .flt _ => match p with
    | .f32 | .f16 | .bf16 | .pair => true
    | _ => false
  | .lit w => match p with
    | .i8 => litFits w 8
    | .i16 => litFits w 16
    | .f16 | .bf16 => decide (w.toNat < 65536)
    | .i32 | .i64 | .f32 | .pair => true
    | _ => false
  | .win _ _ => match p with
    | .narrow | .expansion => false
    | _ => true

/-- A source the uniform form takes: neither a vector register nor a latch (R37). -/
def Src.uniform : Src → Bool
  | .v _ | .b _ => false
  | _ => true

/-- A source that the extension of a 96-bit form holds. -/
def Src.isExt : Src → Bool
  | .lit _ | .win _ _ => true
  | _ => false

/-- The extension of a 96-bit form is one word: the sources that it holds are equal (R35). -/
def extAgree (l : List Src) : Bool :=
  match l.filter Src.isExt with
  | [] => true
  | x :: t => t.all (· == x)

/-- A destination of majors 0x01 to 0x2D: uniform forms take uniform sources (R37); a pair result is even (R89); NW
only for one 32-bit word (R42). -/
def dstInt (d : Dst) (pairResult : Bool) (srcs : List Src) : Bool :=
  match d with
  | .v r => !pairResult || r.val % 2 == 0
  | .s _ => srcs.all Src.uniform
  | .b0 => !pairResult

/-- A vector destination of one word, or b0 (R42, R111). -/
def dstVec : Dst → Bool
  | .s _ => false
  | _ => true

/-- A scalar or an integer constant. -/
def Src.sOrInt : Src → Bool
  | .s _ | .int _ => true
  | _ => false

/-- A constant from 0 to 15 or a scalar (R379, R383, R390). -/
def Src.trapNum : Src → Bool
  | .s _ => true
  | .int c => decide (16 ≤ c.val ∧ c.val < 32)
  | _ => false

def wfI1 (tyOk : Ty → Bool) (satOk : Ty → Bool) (i : Op1 IntM) : Bool :=
  tyOk i.m.ty && (!i.m.sat || satOk i.m.ty) && i.a.okAt i.m.ty.pos && dstInt i.d (i.m.ty.width == 64) [i.a]

def wfI2 (tyOk : Ty → Bool) (i : Op2 IntM) : Bool :=
  tyOk i.m.ty && i.a.okAt i.m.ty.pos && i.b.okAt i.m.ty.pos && dstInt i.d (i.m.ty.width == 64) [i.a, i.b] &&
    extAgree [i.a, i.b]

def wfI3 (tyOk : Ty → Bool) (i : Op3 IntM) : Bool :=
  tyOk i.m.ty && i.a.okAt i.m.ty.pos && i.b.okAt i.m.ty.pos && i.c.okAt i.m.ty.pos &&
    dstInt i.d (i.m.ty.width == 64) [i.a, i.b, i.c] && extAgree [i.a, i.b, i.c]

/-- One source at the type's width; `wide` says whether the result has that width. -/
def wfT1 (tyOk : Ty → Bool) (pairResult : Ty → Bool) (i : Op1 Ty) : Bool :=
  tyOk i.m && i.a.okAt i.m.pos && dstInt i.d (pairResult i.m) [i.a]

/-- Two sources, the second in position `pb`. -/
def wfT2 (tyOk : Ty → Bool) (pairResult : Ty → Bool) (pb : Ty → Pos) (i : Op2 Ty) : Bool :=
  tyOk i.m && i.a.okAt i.m.pos && i.b.okAt (pb i.m) && dstInt i.d (pairResult i.m) [i.a, i.b] && extAgree [i.a, i.b]

/-- Three sources, the third in position `pc`. -/
def wfT3 (tyOk : Ty → Bool) (pc : Ty → Pos) (i : Op3 Ty) : Bool :=
  tyOk i.m && i.a.okAt i.m.pos && i.b.okAt i.m.pos && i.c.okAt (pc i.m) &&
    dstInt i.d (i.m.width == 64) [i.a, i.b, i.c] && extAgree [i.a, i.b, i.c]

/-- What an entry of the floating majors accepts (R111): formats, a rounding mode, F5 and F6. -/
structure FSpec where
  ftOk : FT → Bool
  rmOk : Bool
  f5 : Bool
  f6 : Bool

def FSpec.ok (p : FSpec) (m : FM) : Bool :=
  p.ftOk m.ft && (p.rmOk || m.rm == .rn) && (p.f5 || !m.f5) && (p.f6 || !m.f6)

def wfF1 (p : FSpec) (i : Op1 FM) : Bool := p.ok i.m && dstVec i.d && i.a.okAt i.m.ft.pos

def wfF2 (p : FSpec) (pb : FT → Pos) (i : Op2 FM) : Bool :=
  p.ok i.m && dstVec i.d && i.a.okAt i.m.ft.pos && i.b.okAt (pb i.m.ft) && extAgree [i.a, i.b]

def wfF3 (p : FSpec) (pc : FT → Pos) (i : Op3 FM) : Bool :=
  p.ok i.m && dstVec i.d && i.a.okAt i.m.ft.pos && i.b.okAt i.m.ft.pos && i.c.okAt (pc i.m.ft) &&
    extAgree [i.a, i.b, i.c]

/-- Every format, every mode (R113). -/
def fsAll : FSpec := ⟨fun _ => true, true, false, false⟩
/-- fma (R113). -/
def fsFma : FSpec := ⟨fun _ => true, true, true, true⟩
/-- fdot2 (R114). -/
def fsDot : FSpec := ⟨fun f => !f.lone, true, false, false⟩
/-- fmin, fmax, fclamp (R115). -/
def fsMin : FSpec := ⟨fun _ => true, false, true, false⟩
/-- frnd (R118). -/
def fsRnd : FSpec := ⟨fun _ => true, true, true, false⟩
/-- fexpo (R119). -/
def fsExpo : FSpec := ⟨FT.lone, false, false, false⟩
/-- fmant and the functions of R120 that take only .rn. -/
def fsRn : FSpec := ⟨fun _ => true, false, false, false⟩

/-- A vector destination aligned for an expansion of length code n (R84, R128). -/
def expAligned (r : Fin 256) (n : Nat) : Bool :=
  if n == 0 then true else if n == 1 then r.val % 2 == 0 else r.val % 4 == 0

/-- A plain vector destination. -/
def Dst.isV : Dst → Bool
  | .v _ => true
  | _ => false

def Dst.alignedV (d : Dst) (n : Nat) : Bool :=
  match d with
  | .v r => r.val % n == 0
  | _ => false

/-- The offset, counter, scope and policy that a memory form may hold (R205, R206). -/
def Ext.ok (x : Ext) (strong scopeOk sbcOk cpOk : Bool) : Bool :=
  if x.long then
    decide (-8388608 ≤ x.off ∧ x.off < 8388608) && (sbcOk || x.sbc == 0) &&
      ((scopeOk && strong) || x.scope == .warp) && (cpOk || x.cp == 0)
  else
    decide (-2048 ≤ x.off ∧ x.off < 2048) && x.sbc == 0 && x.scope == .device && x.cp == 0

/-- A form whose 128-bit variant has an all-zero extension but the scope field unused (R205). -/
def ABase.scalar : ABase → Bool
  | .v _ => false
  | _ => true

/-- Base and index codes (R207): a global vector base is an even pair; an index pair exists only in global space. -/
def addrOk (global : Bool) (base idx : ABase) (ip : Bool) : Bool :=
  (match base with
    | .v r => !global || r.val % 2 == 0
    | _ => true) &&
  (!ip || (global && match idx with
    | .v r => r.val % 2 == 0
    | .zero => true
    | .s _ => false))

/-- Destination of a load (R210). -/
def loadDst (d : Dst) (base idx : ABase) (w : MW) (scalarOk : Bool) : Bool :=
  match d with
  | .v r => match w with
    | .b64 => r.val % 2 == 0
    | .b128 => r.val % 4 == 0
    | _ => true
  | .s _ => scalarOk && base.scalar && idx.scalar && w != .b128
  | .b0 => false

/-- Data of a store (R212). DESIGN CHOICE (log 47): a scalar or a latch has no 128 bits, and at .b128 it is an illegal
operand. -/
def storeData (x : Src) (w : MW) : Bool :=
  match x with
  | .v r => match w with
    | .b64 => r.val % 2 == 0
    | .b128 => r.val % 4 == 0
    | _ => true
  | .s _ => w != .b128
  | .b k => match w with
    | .b64 => k.val % 2 == 0
    | .b128 => false
    | _ => true
  | .int _ => w != .b128
  | _ => false

/-- A store takes no W of 1, 3 or 7 (R209). -/
def MW.storeOk : MW → Bool
  | .i8 | .i16 | .i32 => false
  | _ => true

/-- Orders of a load, a store, a returning atomic, a reduction, a fence (R184). -/
def Ord.loadOk : Ord → Bool
  | .plain | .rlx | .acq | .sc => true
  | _ => false
def Ord.storeOk : Ord → Bool
  | .plain | .rlx | .rel | .sc => true
  | _ => false
def Ord.atomOk : Ord → Bool
  | .plain => false
  | _ => true
def Ord.redOk : Ord → Bool
  | .rlx | .rel | .sc => true
  | _ => false
def Ord.fenceOk : Ord → Bool
  | .acq | .rel | .ar | .sc => true
  | _ => false

def wfLoad (global scope cp scalarOk privateSpace : Bool) (i : LoadI) : Bool :=
  addrOk global i.base i.idx i.ip && loadDst i.d i.base i.idx i.w scalarOk && i.ord.loadOk &&
    (!privateSpace || i.ord == .plain) && i.x.ok (i.ord != .plain) scope false cp

def wfStore (global scope cp privateSpace : Bool) (i : StoreI) : Bool :=
  addrOk global i.base i.idx i.ip && i.w.storeOk && storeData i.data i.w && i.ord.storeOk &&
    (!privateSpace || i.ord == .plain) && i.x.ok (i.ord != .plain) scope true cp

/-- Bytes of an atomic's operand (R220). -/
def AOp.is64 : AOp → Bool
  | .addI64 | .exch64 => true
  | _ => false

/-- Destination of a returning atomic (R219). -/
def atomDst (d : Dst) (base idx : ABase) (op : AOp) : Bool :=
  match d with
  | .v r => !op.is64 || r.val % 2 == 0
  | .s _ => base.scalar && idx.scalar
  | .b0 => false

/-- The formats of mma that go together (R163). -/
def mmaPair (a b : MF) : Bool :=
  match a, b with
  | .bf16, .bf16 | .f16, .f16 | .e2m1, .e2m1 => true
  | .e4m3, .e4m3 | .e4m3, .e5m2 | .e5m2, .e4m3 | .e5m2, .e5m2 => true
  | .i8, .i8 | .i8, .n8 | .n8, .i8 | .n8, .n8 => true
  | _, _ => false

/-- .sc: required with e2m1, optional with the 8-bit formats, forbidden otherwise (R163). -/
def mmaScale (a : MF) (sc : Bool) : Bool :=
  match a with
  | .e2m1 => sc
  | .e4m3 | .e5m2 => true
  | _ => !sc

def wfMma (i : MmaI) : Bool := mmaPair i.af i.bf && mmaScale i.af i.scale.isSome

/-- Elements of a tile row in one register (R167). -/
def AF.perReg : AF → Nat
  | .f32 | .i32 => 1
  | .f16 | .bf16 => 2
  | .e4m3 | .e5m2 => 4

/-- RM needs a rounding, OVF an 8-bit format, SUM a floating format (R165). -/
def accMods (ft : AF) (mode : RM) (ovf sum : Bool) : Bool :=
  (match ft with
    | .f32 => mode == .rn || sum
    | .i32 => mode == .rn && !sum
    | _ => true) &&
  (!ovf || ft == .e4m3 || ft == .e5m2)

def wfCvt (i : Op1 CvtM) : Bool :=
  let m := i.m
  let rmOk := match m.st.isInt, m.dt.isInt with
    | true, true => false
    | false, false => !((m.st == .f16 || m.st == .bf16 || m.st == .f32) && m.dt == .f64) &&
        !((m.st == .f16 || m.st == .bf16) && m.dt == .f32)
    | _, _ => true
  m.dt != m.st && (rmOk || m.rm == .rn) && (!m.sat || (m.st.isInt && m.dt.isInt)) && i.a.okAt m.st.pos &&
    (match i.d with
      | .v r => !m.dt.is64 || r.val % 2 == 0
      | .s _ => false
      | .b0 => !m.dt.is64)

/-- A special register that csrr delivers as 64 bits (R21, R345). -/
def srIs64 (srn : Nat) : Bool := (decide (9 ≤ srn ∧ srn ≤ 15)) || srn == 0x80 || srn == 0x81

/-- The instructions of the stream that the PQ-8 decodes without a fault (R48, orders 2 to 9). -/
def Instr.wf : Instr → Bool
  | .add i | .sub i | .mul i => wfI2 (fun _ => true) i
  | .mad i | .add3 i => wfI3 (fun _ => true) i
  | .mulhi i | .div i | .rem i => wfT2 Ty.wide (fun t => t.width == 64) Ty.pos i
  | .mulwd i => wfT2 Ty.is32 (fun _ => true) Ty.pos i
  | .madhi i => wfT3 Ty.wide Ty.pos i
  | .min i | .max i => wfT2 (fun _ => true) (fun t => t.width == 64) Ty.pos i
  | .sad i => wfT3 (fun t => t.width != 64) Ty.pos i
  | .clamp i => wfT3 (fun _ => true) Ty.pos i
  | .abs i => wfI1 Ty.signed (fun _ => true) i
  | .neg i => wfI1 (fun _ => true) Ty.signed i
  | .and i | .or i | .xor i | .andn i => wfT2 Ty.wide (fun t => t.width == 64) Ty.pos i
  | .not i | .brev i => wfT1 Ty.wide (fun t => t.width == 64) i
  | .popc i | .clz i | .ctz i => wfT1 Ty.wide (fun _ => false) i
  | .mov i => wfT1 Ty.wide (fun t => t.width == 64) i
  | .addc i | .subb i => i.ty.wide && i.a.okAt i.ty.pos && i.b.okAt i.ty.pos &&
      dstInt i.d (i.ty.width == 64) [i.a, i.b] && extAgree [i.a, i.b]
  | .bfn i => let p : Pos := match i.d with
      | .s _ => .i64
      | _ => .i32
      i.a.okAt p && i.b.okAt p && i.c.okAt p && dstInt i.d false [i.a, i.b, i.c] && extAgree [i.a, i.b, i.c]
  | .shl i | .shr i | .shrA i | .rot i | .bfx i => wfT2 Ty.wide (fun t => t.width == 64) (fun _ => .i32) i
  | .shf i => i.m.ty.wide && i.a.okAt i.m.ty.pos && i.b.okAt i.m.ty.pos && i.c.okAt .i32 &&
      dstInt i.d (i.m.ty.width == 64) [i.a, i.b, i.c] && extAgree [i.a, i.b, i.c]
  | .bfi i => wfT3 Ty.wide (fun _ => .i32) i
  | .bsel i => i.a.okAt .i32 && i.b.okAt .i32 && i.c.okAt .i32 && dstInt i.d false [i.a, i.b, i.c] &&
      extAgree [i.a, i.b, i.c]
  | .setp i => i.a.okAt i.ty.pos && i.b.okAt i.ty.pos && extAgree [i.a, i.b] && (i.comb != .none || i.pc == 0)
  | .sel i => i.ty.wide && i.a.okAt i.ty.pos && i.b.okAt i.ty.pos && dstInt i.d (i.ty.width == 64) [i.a, i.b] &&
      extAgree [i.a, i.b]
  | .pfn _ => true
  | .movp _ => true
  | .movpTo i => i.a.okAt .i32
  | .sethi20 _ | .sethi20Pc _ => true
  | .lea i => i.a.okAt .i64 && i.b.okAt .i32 && i.c.okAt .i32 && dstInt i.d true [i.a, i.b, i.c] &&
      extAgree [i.a, i.b, i.c]
  | .idot4 i => !i.m.hi && i.a.okAt .i32 && i.b.okAt .i32 && i.c.okAt .i32 && dstInt i.d false [i.a, i.b, i.c] &&
      extAgree [i.a, i.b, i.c]
  | .idot2 i => i.a.okAt .i32 && i.b.okAt .i32 && i.c.okAt .i32 && dstInt i.d false [i.a, i.b, i.c] &&
      extAgree [i.a, i.b, i.c]
  | .tacc i => !i.m.hi && !i.m.ub && i.a.okAt .i32 && i.b.okAt .i32 && i.c.okAt .i32 &&
      dstInt i.d false [i.a, i.b, i.c] && extAgree [i.a, i.b, i.c]
  | .fadd i | .fsub i | .fmul i | .fdiv i => wfF2 fsAll FT.pos i
  | .fma i => wfF3 fsFma FT.pos i
  | .fdot2 i => wfF3 fsDot (fun _ => .f32) i
  | .fscale i => wfF2 fsAll (fun _ => .i32) i
  | .fmin i | .fmax i => wfF2 fsMin FT.pos i
  | .fclamp i => wfF3 fsMin FT.pos i
  | .fsetp i => i.ft.lone && i.a.okAt i.ft.pos && i.b.okAt i.ft.pos && extAgree [i.a, i.b] &&
      (i.comb != .none || i.pc == 0)
  | .fclass i => i.ft.lone && i.a.okAt i.ft.pos && i.mask.okAt .i32 && extAgree [i.a, i.mask]
  | .frnd i => wfF1 fsRnd i
  | .fexpo i => wfF1 fsExpo i
  | .fmant i => wfF1 fsRn i
  | .fsqrt i | .frcp i => wfF1 fsAll i
  | .frsq i | .fex2 i | .flg2 i | .fsin i | .fcos i | .ftanh i => wfF1 fsRn i
  | .faddE i | .fmulE i => i.d.alignedV 2 && i.a.okAt i.m.pos && i.b.okAt i.m.pos && extAgree [i.a, i.b]
  | .fmaE i => i.d.alignedV 4 && i.a.okAt i.m.pos && i.b.okAt i.m.pos && i.c.okAt i.m.pos &&
      extAgree [i.a, i.b, i.c]
  | .xren i => i.na != 0 && expAligned i.d i.na && expAligned i.a i.na
  | .xcmpr i => i.na != 0 && decide (i.nd.val < i.na.val) && expAligned i.d i.nd && expAligned i.a i.na
  | .xcmp i => i.na != 0 && expAligned i.a i.na && expAligned i.b i.na
  | .xadd i => i.na != 0 && expAligned i.d i.na && expAligned i.a i.na &&
      (if i.nb = 0 then i.b.okAt i.t.pos else match i.b with
        | .v r => expAligned r i.nb
        | _ => false)
  | .xmulW i => i.na != 0 && expAligned i.d i.na && expAligned i.a i.na && i.b.okAt i.t.pos
  | .cvt i => wfCvt i
  | .cvtN i => dstVec i.d && (match i.dir with
      | .narrow b _ _ _ => i.a.okAt i.wf.pos && b.okAt i.wf.pos && extAgree [i.a, b]
      | .widen _ => i.a.okAt .narrow)
  | .cvtSr i => dstVec i.d && i.a.okAt .f32 && i.c.okAt .i32 && (match i.dest with
      | .byte _ b _ _ => b.okAt .f32 && extAgree [i.a, b, i.c]
      | _ => extAgree [i.a, i.c])
  | .cvtBlkDecode i => i.a.okAt .narrow && (i.d.val % (if i.nf = .e2m1 then 8 else 4) == 0)
  | .cvtBlkEncode i => (i.a.val % (if i.nf = .e2m1 then 8 else 4) == 0) && (!(i.ovf && i.nf == .e2m1)) &&
      (match i.d with
        | .v _ => true
        | .s _ => false
        | .b0 => !i.auto)
  | .cvtX2 i => match i with
    | .toX2 _ d a => d.val % 2 == 0 && a.okAt .f64
    | .toF64 _ d a _ => d.val % 2 == 0 && a.val % 2 == 0
  | .unpkT3 i => i.a.okAt .narrow
  | .pack i => dstVec i.d && (match i.m with
      | .f16x2 _ | .bf16x2 _ => i.a.okAt .f32 && i.b.okAt .f32
      | _ => i.a.okAt .i32 && i.b.okAt .i32) && extAgree [i.a, i.b]
  | .unpack i => dstVec i.d && (match i.m with
      | .f16 _ | .bf16 _ => i.a.okAt .pair
      | _ => i.a.okAt .i32)
  | .xlane i => i.b.okAt .i32
  | .nbr i => i.n.okAt .i32
  | .lvote _ => true
  | .mpopc i => match i.d with
    | .v _ => true
    | .s _ => i.mode == .tot
    | .b0 => false
  | .lmatch i => !i.w64 || i.a.val % 2 == 0
  | .stc i => i.w.storeOk && i.w != .b128 && storeData i.data i.w && i.x.off ≥ -8388608 && i.x.off < 8388608 &&
      (i.x.long || (i.x.off == 0 && i.x.sbc == 0 && i.x.scope == .device && i.x.cp == 0))
  | .ld i => wfLoad true true true true false i
  | .st i => wfStore true true true false i
  | .lds i | .ldgs i => wfLoad false true false true false i
  | .sts i | .stgs i => wfStore false true false false i
  | .ldl i => wfLoad false false true false true i
  | .stl i => wfStore false false true true i
  | .ldk i => loadDst i.d .zero i.idx i.w true && i.x.ok false false false false
  | .pref i => addrOk true i.base i.idx i.ip && i.x.ok false false false true
  | .bankcfg i => i.first.sOrInt && i.count.sOrInt
  | .fifoPush i => i.bank.sOrInt && storeData i.data .b32
  | .fifoPop i => i.bank.sOrInt
  | .atom i => addrOk true i.base i.idx false && atomDst i.d i.base i.idx i.op && i.ord.atomOk && i.x.ok true true false true
  | .atoms i => addrOk false i.base i.idx false && atomDst i.d i.base i.idx i.op && i.ord.atomOk &&
      i.x.ok true true false false
  | .red i => addrOk true i.base i.idx false && storeData i.data (if i.op.is64 then .b64 else .b32) && i.ord.redOk &&
      i.x.ok true true true true
  | .reds i => addrOk false i.base i.idx false && storeData i.data (if i.op.is64 then .b64 else .b32) && i.ord.redOk &&
      i.x.ok true true true false
  | .cas i => addrOk true i.base i.idx false && (i.d.val % (if i.w64 then 4 else 2) == 0) && i.ord.atomOk &&
      i.x.ok true true false true
  | .cass i => addrOk false i.base i.idx false && (i.d.val % (if i.w64 then 4 else 2) == 0) && i.ord.atomOk &&
      i.x.ok true true false false
  | .catom i => addrOk true i.base .zero false && i.d.val % 2 == 0 && (match i.delta with
      | .v r => r.val % 2 == 0
      | .s _ => true
      | .zero => false) && i.ord.redOk && i.x.ok true true i.pd.isNone true
  | .fence i => i.ord.fenceOk
  | .barInit i => i.count.sOrInt
  | .barArrive i => i.count.okAt .i32 && !i.count.isExt && i.bytes.okAt .i64 && !i.bytes.isExt && (i.long || i.sbc == 0)
  | .barWait i => i.par.sOrInt
  | .barTest i => i.par.sOrInt
  | .waitc i => i.value.sOrInt
  | .signal i => i.value.sOrInt && (i.long || i.sbc == 0)
  | .waitsb i => i.n.sOrInt
  | .pause i => i.n.okAt .i32 && !i.n.isExt
  | .bra _ | .exit _ | .jenter _ | .jquit _ | .jwait _ | .jfree _ | .nop _ | .tret _ | .migrHome _ | .tlbiAll _ => true
  | .brx i | .ret i => match i.target with
    | .zero => false
    | .s _ => true
    | .v r => r.val % 2 == 0
  | .call i => i.link.val % 2 == 0
  | .callx i => i.link.val % 2 == 0 && (match i.target with
    | .zero => false
    | .s _ => true
    | .v r => r.val % 2 == 0)
  | .jopen i => match i.mask with
    | none => true
    | some m => m.sOrInt
  | .jsave i | .jload i => i.slot.sOrInt
  | .mma i => wfMma i
  | .mmaRes i => wfMma i.m && i.m.d != i.r && i.m.af != .i8 && i.m.af != .n8
  | .accZero _ => true
  | .accRd i => accMods i.ft i.rm i.ovf i.sum.isSome && i.col.val % i.ft.perReg == 0 &&
      decide (i.col.val + 2 ^ i.nr.val * i.ft.perReg ≤ 64)
  | .accWr i => i.col.val % i.ft.perReg == 0 && decide (i.col.val + 2 ^ i.nr.val * i.ft.perReg ≤ 64)
  | .accLd _ => true
  | .accSt i => accMods i.ft i.rm i.ovf i.sum.isSome
  | .cpy _ | .cpyRed _ | .impStart _ => true
  | .cpySig i => i.value.sOrInt
  | .rgnBegin _ | .rgnEnd _ | .rgnStatus _ => true
  | .rgnKeep i => (i.vnum.val != 0 || i.vfirst == 0) && (i.snum.val != 0 || i.sfirst == 0) &&
      decide (i.sfirst.val + i.snum.val ≤ 64) && bits i.pmask.toNat 0 1 == 0 &&
      (i.tile0.isNone || i.tile0 != i.tile1)
  | .rgnAbort i | .trap i => i.n.trapNum
  | .errpPost i => i.n.trapNum
  | .errpVec i => match i.a with
    | .s _ => true
    | _ => false
  | .errpMask i => i.a.sOrInt
  | .csrr i => match i.d with
    | .v r => !srIs64 i.srn.toNat || r.val % 2 == 0
    | .s _ => true
    | .b0 => false
  | .csrw i => match i.a with
    | .s _ | .int _ | .lit _ | .win _ _ => true
    | _ => false
  | .migr _ | .tlbiVa _ | .tlbiCtx _ | .ctxopRoot _ | .ctxopDrain _ => true
  | .issueOpportunity _ | .bankDrainEnd _ | .atomicPerformed _ _ _ | .loadDataReturn _ _ _ | .storePerformed _ _ _ |
    .resultWriteback _ _ | .groupWaitEnd _ _ | .platenStep _ | .feederChunk _ | .stepSend _ | .stepRecv _ | .stepRrs _ |
    .stepRrc _ | .stepCopy _ | .stepWait _ | .stepSignal _ | .stepLoop _ | .stepEndloop _ | .credit _ _ _ |
    .chunk _ _ _ | .abort _ _ _ | .transferTimeout _ | .migrationDeparture _ | .migrationArrival _ _ |
    .migWalkRetry _ | .movedNack _ _ _ | .takeTrap _ | .detectedError _ _ _ _ _ | .regionRollback _ |
    .gangKill _ _ | .gangRelaunch _ _ | .watchdogExpiry _ | .gangPlacement _ _ | .warpRetire _ |
    .preemptionRequest _ | .engineStop _ _ | .preemptionComplete _ | .resumption _ | .timeSliceExpiry _ |
    .schedulerRebuild _ _ | .fabricEntry _ _ _ | .fabricResend _ _ _ | .tail _ _ | .resume _ | .reset _ | .launch _ |
    .packetFence _ | .packetSignal _ | .packetCopy _ | .collective _ | .rcbRegister _ | .rcbUnregister _ | .skip _ |
    .unknownPacket _ | .fenceThresholdMet _ | .workCompletionDone _ | .rdmaWrite _ _ _ _ | .rdmaRead _ _ _ _ |
    .clockThrottle _ | .thermalTripFatal | .boot | .readOfferWords _ | .featureAccept _ _ _ | .featureLock _ _ |
    .createContext _ _ | .removeContext _ _ | .registerQueue _ _ | .bindQueuePair _ _ _ _ | .attestationQuote _ _ |
    .writeFirmwareSlot _ _ _ _ _ | .readManagementErrata _ | .commitFirmwareVersion _ | .linkFailure _ |
    .impositionWaitMet _ | .uncorrectableError _ | .powerLoss | .cnpReceived _ | .malformedManagementMessage _ _ => false

end Sys2Proof
end

