-- ==== Sys2Proof/Decode.lean ====
section
/-! DEFINITION. The decoder (R26 to R48, orders 2 to 9), total on any words, and after it the encoder. Numbers hold
bit fields here; the machine never sees them. -/

namespace Sys2Proof

/-- The decode faults that the words alone decide, in R48's names; the machine adds the fetch-block crossing, the
grant, the latches and the targets. -/
inductive DecFault where
  | undefinedOpcode | undefinedMinor | illegalLength | reservedModifier | illegalModifier | illegalOperand | reservedField
  deriving DecidableEq, Repr, Inhabited

/-- The cause code of a decode fault (R48). -/
def DecFault.code : DecFault → Nat
  | .undefinedOpcode => 0x00
  | .undefinedMinor => 0x01
  | .illegalLength => 0x02
  | .reservedModifier => 0x04
  | .illegalModifier => 0x05
  | .illegalOperand => 0x06
  | .reservedField => 0x07

abbrev Dec (α : Type) := Except DecFault α

/-- Raise a fault unless the check holds. -/
def need (c : Bool) (f : DecFault) : Dec Unit := if c then .ok () else .error f

/-- The fields of the first 64 bits (R31), the length in words and the extension words as one number. -/
structure Raw where
  len : Nat
  op : Nat
  g : Nat
  gn : Nat
  nw : Nat
  d : Nat
  a : Nat
  b : Nat
  c : Nat
  sub : Nat
  m : Nat
  ext : Nat
  deriving DecidableEq, Repr, Inhabited

/-- Words of an instruction by LEN (R26): 2, 3, 4, or 1 for 0b11. -/
def lenWords (w0 : Nat) : Nat :=
  match w0 % 4 with
  | 0 => 2
  | 1 => 3
  | 2 => 4
  | _ => 1

/-- The fields of an instruction given as one number, bit 0 the least significant bit of the first word (R26, R31). -/
def Raw.ofNat (x : Nat) : Raw where
  len := lenWords x
  op := bits x 2 8
  g := bits x 10 3
  gn := bits x 13 1
  nw := bits x 14 1
  d := bits x 15 9
  a := bits x 24 9
  b := bits x 33 9
  c := bits x 42 9
  sub := bits x 51 5
  m := bits x 56 8
  ext := bits x 64 (match lenWords x with
    | 3 => 32
    | 4 => 64
    | _ => 0)

def Raw.guard (r : Raw) : Guard := ⟨Fin.ofNat 8 r.g, r.gn != 0⟩

/-! ### Codes of the enumerated fields -/

def Ty.ofCode : Nat → Ty
  | 0 => .i32 | 1 => .n32 | 2 => .i64 | 3 => .n64 | 4 => .i16 | 5 => .n16 | 6 => .i8 | _ => .n8
def Ty.code : Ty → Nat
  | .i32 => 0 | .n32 => 1 | .i64 => 2 | .n64 => 3 | .i16 => 4 | .n16 => 5 | .i8 => 6 | .n8 => 7
def Cmp.ofCode : Nat → Cmp
  | 0 => .eq | 1 => .ne | 2 => .lt | 3 => .le | 4 => .gt | _ => .ge
def Cmp.code : Cmp → Nat
  | .eq => 0 | .ne => 1 | .lt => 2 | .le => 3 | .gt => 4 | .ge => 5
def FCmp.ofCode : Nat → FCmp
  | 0 => .eq | 1 => .ne | 2 => .lt | 3 => .le | 4 => .gt | 5 => .ge | 6 => .num | 7 => .nan | 8 => .equ | 9 => .neu
  | 10 => .ltu | 11 => .leu | 12 => .gtu | _ => .geu
def FCmp.code : FCmp → Nat
  | .eq => 0 | .ne => 1 | .lt => 2 | .le => 3 | .gt => 4 | .ge => 5 | .num => 6 | .nan => 7 | .equ => 8 | .neu => 9
  | .ltu => 10 | .leu => 11 | .gtu => 12 | .geu => 13
def Comb.ofCode : Nat → Comb
  | 0 => .none | 1 => .and | 2 => .or | _ => .xor
def Comb.code : Comb → Nat
  | .none => 0 | .and => 1 | .or => 2 | .xor => 3
def FT.ofCode : Nat → FT
  | 0 => .f32 | 1 => .f16 | 2 => .bf16 | 3 => .f16x2 | _ => .bf16x2
def FT.code : FT → Nat
  | .f32 => 0 | .f16 => 1 | .bf16 => 2 | .f16x2 => 3 | .bf16x2 => 4
def RM.ofCode : Nat → RM
  | 0 => .rn | 1 => .rz | 2 => .rp | _ => .rm
def RM.code : RM → Nat
  | .rn => 0 | .rz => 1 | .rp => 2 | .rm => 3
def XT.ofCode : Nat → XT
  | 0 => .f32 | 1 => .f16 | _ => .bf16
def XT.code : XT → Nat
  | .f32 => 0 | .f16 => 1 | .bf16 => 2
def NF.ofCode : Nat → NF
  | 0 => .e2m1 | 1 => .e4m3 | _ => .e5m2
def NF.code : NF → Nat
  | .e2m1 => 0 | .e4m3 => 1 | .e5m2 => 2
def CT.ofCode : Nat → CT
  | 0 => .i32 | 1 => .n32 | 2 => .i64 | 3 => .n64 | 4 => .i16 | 5 => .n16 | 6 => .i8 | 7 => .n8 | 8 => .f32 | 9 => .f16
  | 10 => .bf16 | _ => .f64
def CT.code : CT → Nat
  | .i32 => 0 | .n32 => 1 | .i64 => 2 | .n64 => 3 | .i16 => 4 | .n16 => 5 | .i8 => 6 | .n8 => 7 | .f32 => 8 | .f16 => 9
  | .bf16 => 10 | .f64 => 11
def Scope.ofCode : Nat → Scope
  | 0 => .warp | 1 => .block | 2 => .gang | 3 => .sheet | 4 => .device | _ => .system
def Scope.code : Scope → Nat
  | .warp => 0 | .block => 1 | .gang => 2 | .sheet => 3 | .device => 4 | .system => 5
def Ord.ofCode : Nat → Ord
  | 0 => .plain | 1 => .rlx | 2 => .acq | 3 => .rel | 4 => .ar | _ => .sc
def Ord.code : Ord → Nat
  | .plain => 0 | .rlx => 1 | .acq => 2 | .rel => 3 | .ar => 4 | .sc => 5
/-- ORD of a load (R209): code 2 is .acq. -/
def Ord.ofLoad : Nat → Ord
  | 0 => .plain | 1 => .rlx | 2 => .acq | _ => .sc
def Ord.loadCode : Ord → Nat
  | .rlx => 1 | .acq => 2 | .sc => 3 | _ => 0
/-- ORD of a store (R209): code 2 is .rel. -/
def Ord.ofStore : Nat → Ord
  | 0 => .plain | 1 => .rlx | 2 => .rel | _ => .sc
def Ord.storeCode : Ord → Nat
  | .rlx => 1 | .rel => 2 | .sc => 3 | _ => 0
/-- ORD of catom (R222). -/
def Ord.ofCatom : Nat → Ord
  | 0 => .rlx | 1 => .rel | _ => .sc
def Ord.catomCode : Ord → Nat
  | .rel => 1 | .sc => 2 | _ => 0
def MW.ofCode : Nat → MW
  | 0 => .n8 | 1 => .i8 | 2 => .n16 | 3 => .i16 | 4 => .b32 | 5 => .b64 | 6 => .b128 | _ => .i32
def MW.code : MW → Nat
  | .n8 => 0 | .i8 => 1 | .n16 => 2 | .i16 => 3 | .b32 => 4 | .b64 => 5 | .b128 => 6 | .i32 => 7
def AOp.ofCode : Nat → AOp
  | 0 => .addI32 | 1 => .addI64 | 2 => .addF32 | 3 => .addF16x2 | 4 => .addBf16x2 | 5 => .minI32 | 6 => .minN32
  | 7 => .maxI32 | 8 => .maxN32 | 9 => .minF32 | 10 => .maxF32 | 11 => .and | 12 => .or | 13 => .xor | 14 => .exch32
  | _ => .exch64
def AOp.code : AOp → Nat
  | .addI32 => 0 | .addI64 => 1 | .addF32 => 2 | .addF16x2 => 3 | .addBf16x2 => 4 | .minI32 => 5 | .minN32 => 6
  | .maxI32 => 7 | .maxN32 => 8 | .minF32 => 9 | .maxF32 => 10 | .and => 11 | .or => 12 | .xor => 13 | .exch32 => 14
  | .exch64 => 15
def XlaneMode.ofCode : Nat → XlaneMode
  | 0 => .idx | 1 => .sh | 2 => .rot | _ => .flip
def XlaneMode.code : XlaneMode → Nat
  | .idx => 0 | .sh => 1 | .rot => 2 | .flip => 3
def PopcMode.ofCode : Nat → PopcMode
  | 0 => .excl | 1 => .incl | _ => .tot
def PopcMode.code : PopcMode → Nat
  | .excl => 0 | .incl => 1 | .tot => 2
def BankMode.ofCode : Nat → BankMode
  | 0 => .scratch | 1 => .cache | _ => .fifo
def BankMode.code : BankMode → Nat
  | .scratch => 0 | .cache => 1 | .fifo => 2
def PairT.ofCode : Nat → PairT
  | 0 => .f32 | 1 => .bf16 | _ => .bf16f32
def PairT.code : PairT → Nat
  | .f32 => 0 | .bf16 => 1 | .bf16f32 => 2
def MF.ofCode : Nat → MF
  | 0 => .bf16 | 1 => .f16 | 2 => .e4m3 | 3 => .e5m2 | 4 => .i8 | 5 => .n8 | _ => .e2m1
def MF.code : MF → Nat
  | .bf16 => 0 | .f16 => 1 | .e4m3 => 2 | .e5m2 => 3 | .i8 => 4 | .n8 => 5 | .e2m1 => 6
def AF.ofCode : Nat → AF
  | 0 => .f32 | 1 => .f16 | 2 => .bf16 | 3 => .e4m3 | 4 => .e5m2 | _ => .i32
def AF.code : AF → Nat
  | .f32 => 0 | .f16 => 1 | .bf16 => 2 | .e4m3 => 3 | .e5m2 => 4 | .i32 => 5
def Rop.ofCode : Nat → Rop
  | 1 => .sumF32 | 2 => .sumBf16w | 3 => .sumCmp | 4 => .max | 5 => .min | _ => .sumI32
def Rop.code : Rop → Nat
  | .sumF32 => 1 | .sumBf16w => 2 | .sumCmp => 3 | .max => 4 | .min => 5 | .sumI32 => 6

/-! ### Operand fields -/

/-- A source code of the operand space (R35), before the position is judged. -/
def srcCode (r : Raw) (code : Nat) : Dec Src :=
  if code < 256 then .ok (.v (Fin.ofNat 256 code))
  else if code < 320 then .ok (.s (Fin.ofNat 64 (code - 256)))
  else if code < 324 then .ok (.b (Fin.ofNat 4 (code - 320)))
  else if code < 384 then .error .illegalOperand
  else if code < 432 then .ok (.int (Fin.ofNat 48 (code - 384)))
  else if code < 448 then .ok (.flt (Fin.ofNat 16 (code - 432)))
  else if code = 448 then
    if r.len = 3 then .ok (.lit (BitVec.ofNat 32 r.ext)) else .error .illegalOperand
  else if code = 449 then
    if r.len = 3 then .ok (.win (Fin.ofNat 8 (bits r.ext 17 3)) (BitVec.ofNat 17 r.ext)) else .error .illegalOperand
  else .error .illegalOperand

/-- A source read in a position (R36). -/
def src (r : Raw) (code : Nat) (p : Pos) : Dec Src := do
  let x ← srcCode r code
  need (x.okAt p) .illegalOperand
  .ok x

/-- The destination field, with NW (R35, R37, R42). -/
def dst (r : Raw) : Dec Dst :=
  if r.nw = 0 then
    if r.d < 256 then .ok (.v (Fin.ofNat 256 r.d))
    else if r.d < 320 then .ok (.s (Fin.ofNat 64 (r.d - 256)))
    else .error .illegalOperand
  else if r.d = 320 then .ok .b0
  else .error .illegalOperand

/-- A vector register field with its low bits clear under an alignment. -/
def vreg (code align : Nat) : Dec (Fin 256) := do
  need (decide (code < 256 ∧ code % align = 0)) .illegalOperand
  .ok (Fin.ofNat 256 code)

/-- A scalar register field. -/
def sreg (code : Nat) : Dec (Fin 64) := do
  need (decide (256 ≤ code ∧ code < 320)) .illegalOperand
  .ok (Fin.ofNat 64 (code - 256))

/-- An optional scalar: 0x000 names none. -/
def sregOpt (code : Nat) : Dec (Option (Fin 64)) :=
  if code = 0 then .ok none else do
    let r ← sreg code
    .ok (some r)

/-- A small index in the low bits, the bits above zero (R35). -/
def index (code n : Nat) [NeZero n] : Dec (Fin n) := do
  need (decide (code < n)) .illegalOperand
  .ok (Fin.ofNat n code)

/-- A base or index code (R207). -/
def abase (code : Nat) : Dec ABase :=
  if code < 256 then .ok (.v (Fin.ofNat 256 code))
  else if code < 320 then .ok (.s (Fin.ofNat 64 (code - 256)))
  else if code = 400 then .ok .zero
  else .error .illegalOperand

/-- A branch target: a scalar or an even vector register (R290, R292). -/
def target (code : Nat) : Dec ABase := do
  let t ← abase code
  need (match t with
    | .zero => false
    | .s _ => true
    | .v r => r.val % 2 == 0) .illegalOperand
  .ok t

/-- A source field the form does not use (R35). -/
def unused (code : Nat) : Dec Unit := need (code == 0) .illegalOperand

/-- A destination field that the form leaves unused: a bit of the first 64 that is not zero (R31, R48 order 9). -/
def noD (r : Raw) : Dec Unit := need (r.d == 0) .reservedField

/-- NW = 0 where the instruction does not permit it (R42). -/
def noNw (r : Raw) : Dec Unit := need (r.nw == 0) .illegalOperand

/-- The extension of a 96-bit form is judged with its operands: the two extension codes are not named together (R35),
and bits [95:84] of a window word are zero (R48, order 9). -/
def ext96 (codes : List Nat) : Dec Unit := do
  need (!(codes.contains 448 && codes.contains 449)) .illegalOperand

def res96 (r : Raw) (codes : List Nat) : Dec Unit :=
  need (!(r.len == 3 && codes.contains 449) || bits r.ext 20 12 == 0) .reservedField

/-- The lengths of majors that take 64 bits, and 96 where one of
the four operand fields names the literal or the window; a field that may not name it is judged with the operands,
later (R39, R44, R48). -/
def len96 (r : Raw) : Dec Unit :=
  need (r.len == 2 || (r.len == 3 &&
    ([r.d, r.a, r.b, r.c].contains 448 || [r.d, r.a, r.b, r.c].contains 449))) .illegalLength

def len64 (r : Raw) : Dec Unit := need (r.len == 2) .illegalLength
def len128 (r : Raw) : Dec Unit := need (r.len == 4) .illegalLength
def len64or128 (r : Raw) : Dec Unit := need (r.len == 2 || r.len == 4) .illegalLength

/-- SUB is zero (R46). -/
def sub0 (r : Raw) : Dec Unit := need (r.sub == 0) .undefinedMinor

/-- Bit n of M. -/
def Raw.mbit (r : Raw) (n : Nat) : Bool := bits r.m n 1 != 0

/-- Bits n to n + k - 1 of M are marked zero (R47). -/
def mzero (r : Raw) (n k : Nat) : Dec Unit := need (bits r.m n k == 0) .reservedModifier

/-- Which of the integer modifier bits an entry gives a meaning (R88). DESIGN CHOICE (log 14): SAT where an entry neither
permits it nor marks it zero (the bitwise forms, popc, clz, ctz, brev) is an illegal modifier combination. -/
structure IntSpec where
  tyOk : Ty → Bool
  /-- SAT: a permitted modifier, a bit marked zero, or a modifier the entry refuses -/
  satZero : Bool := false
  satOk : Ty → Bool := fun _ => false
  x : Bool := false
  cb0 : Bool := false
  cb1 : Bool := false

/-- The checks of the integer modifier byte in order (R47, R48, R88). -/
def intMods (r : Raw) (p : IntSpec) : Dec Ty := do
  mzero r 7 1
  need (p.x || !r.mbit 4) .reservedModifier
  need (p.cb0 || !r.mbit 5) .reservedModifier
  need (p.cb1 || !r.mbit 6) .reservedModifier
  need (!p.satZero || !r.mbit 3) .reservedModifier
  let ty := Ty.ofCode (bits r.m 0 3)
  need (p.tyOk ty && (!r.mbit 3 || p.satOk ty)) .illegalModifier
  .ok ty

/-- The sources and the destination of an integer form, checked together (R35, R37, R42, R89). -/
def intOps1 (r : Raw) (pa : Pos) (pairResult : Bool) : Dec (Dst × Src) := do
  let d ← dst r
  let a ← src r r.a pa
  unused r.b
  unused r.c
  need (dstInt d pairResult [a]) .illegalOperand
  res96 r [r.a]
  .ok (d, a)

def intOps2 (r : Raw) (pa pb : Pos) (pairResult : Bool) : Dec (Dst × Src × Src) := do
  let d ← dst r
  let a ← src r r.a pa
  let b ← src r r.b pb
  need (dstInt d pairResult [a, b]) .illegalOperand
  ext96 [r.a, r.b]
  .ok (d, a, b)

def intOps3 (r : Raw) (pa pb pc : Pos) (pairResult : Bool) : Dec (Dst × Src × Src × Src) := do
  let d ← dst r
  let a ← src r r.a pa
  let b ← src r r.b pb
  let c ← src r r.c pc
  need (dstInt d pairResult [a, b, c]) .illegalOperand
  ext96 [r.a, r.b, r.c]
  res96 r [r.a, r.b, r.c]
  .ok (d, a, b, c)

def decI1 (r : Raw) (p : IntSpec) : Dec (Op1 IntM) := do
  sub0 r
  len96 r
  let ty ← intMods r p
  let (d, a) ← intOps1 r ty.pos (ty.width == 64)
  .ok ⟨r.guard, d, a, ⟨ty, r.mbit 3⟩⟩

def decI2 (r : Raw) (p : IntSpec) : Dec (Op2 IntM) := do
  sub0 r
  len96 r
  let ty ← intMods r p
  let (d, a, b) ← intOps2 r ty.pos ty.pos (ty.width == 64)
  unused r.c
  res96 r [r.a, r.b]
  .ok ⟨r.guard, d, a, b, ⟨ty, r.mbit 3⟩⟩

def decI3 (r : Raw) (p : IntSpec) : Dec (Op3 IntM) := do
  sub0 r
  len96 r
  let ty ← intMods r p
  let (d, a, b, c) ← intOps3 r ty.pos ty.pos ty.pos (ty.width == 64)
  .ok ⟨r.guard, d, a, b, c, ⟨ty, r.mbit 3⟩⟩

def decT1 (r : Raw) (p : IntSpec) (pairResult : Ty → Bool) : Dec (Op1 Ty) := do
  sub0 r
  len96 r
  let ty ← intMods r p
  let (d, a) ← intOps1 r ty.pos (pairResult ty)
  .ok ⟨r.guard, d, a, ty⟩

/-- SUB is checked by the caller, since shr and shr.a differ in it. -/
def decT2 (r : Raw) (p : IntSpec) (pairResult : Ty → Bool) (pb : Ty → Pos) : Dec (Op2 Ty) := do
  len96 r
  let ty ← intMods r p
  let (d, a, b) ← intOps2 r ty.pos (pb ty) (pairResult ty)
  unused r.c
  res96 r [r.a, r.b]
  .ok ⟨r.guard, d, a, b, ty⟩

def decT3 (r : Raw) (p : IntSpec) (pc : Ty → Pos) : Dec (Op3 Ty) := do
  sub0 r
  len96 r
  let ty ← intMods r p
  let (d, a, b, c) ← intOps3 r ty.pos ty.pos (pc ty) (ty.width == 64)
  .ok ⟨r.guard, d, a, b, c, ty⟩

/-- Every type, saturation permitted (R95). -/
def isAllSat : IntSpec := { tyOk := fun _ => true, satOk := fun _ => true }
/-- Every type, no saturation (R95). -/
def isAll : IntSpec := { tyOk := fun _ => true }
/-- TY 0 to 3, no saturation (R95, R98, R101). -/
def isWide : IntSpec := { tyOk := Ty.wide }
/-- TY 0 to 3, every other bit zero (R99, R100, R104, R106). -/
def isWide0 : IntSpec := { tyOk := Ty.wide, satZero := true }
/-- The width-64 result is a pair (R89). -/
def res64 (t : Ty) : Bool := t.width == 64

def decDot (r : Raw) (x ub : Bool) : Dec (Op3 DotM) := do
  sub0 r
  len96 r
  let _ ← intMods r { tyOk := fun t => t == .i32, satOk := fun _ => true, x := x, cb0 := true, cb1 := ub }
  let (d, a, b, c) ← intOps3 r .i32 .i32 .i32 false
  .ok ⟨r.guard, d, a, b, c, ⟨r.mbit 3, r.mbit 4, r.mbit 5, r.mbit 6⟩⟩

/-- addc, subb (R97). -/
def decCarry (r : Raw) : Dec CarryI := do
  sub0 r
  len96 r
  let ty ← intMods r { tyOk := Ty.wide, satZero := true, x := true }
  let (d, a, b) ← intOps2 r ty.pos ty.pos (ty.width == 64)
  let pc ← index r.c 8
  res96 r [r.a, r.b]
  .ok ⟨r.guard, d, a, b, pc, ty, r.mbit 4⟩

/-- bfn (R98): M is the truth table; 64 bits in the uniform form. -/
def decBfn (r : Raw) : Dec (Op3 (BitVec 8)) := do
  sub0 r
  len96 r
  let d ← dst r
  let p : Pos := match d with
    | .s _ => .i64
    | _ => .i32
  let (d, a, b, c) ← intOps3 r p p p false
  .ok ⟨r.guard, d, a, b, c, BitVec.ofNat 8 r.m⟩

def decShf (r : Raw) : Dec (Op3 ShfM) := do
  sub0 r
  len96 r
  let ty ← intMods r { tyOk := Ty.wide, satZero := true, x := true }
  let (d, a, b, c) ← intOps3 r ty.pos ty.pos .i32 (ty.width == 64)
  .ok ⟨r.guard, d, a, b, c, ⟨ty, r.mbit 4⟩⟩

def decBsel (r : Raw) : Dec (Op3 Unit) := do
  sub0 r
  len96 r
  let _ ← intMods r { tyOk := fun t => t == .i32, satZero := true }
  let (d, a, b, c) ← intOps3 r .i32 .i32 .i32 false
  .ok ⟨r.guard, d, a, b, c, ()⟩

/-- The predicate a combining comparison names in C (R103). -/
def combPred (r : Raw) (cb : Comb) : Dec (Fin 8) :=
  if cb = .none then do
    unused r.c
    .ok 0
  else index r.c 8

def decSetp (r : Raw) : Dec SetpI := do
  need (decide (r.sub < 6)) .undefinedMinor
  len96 r
  let ty ← intMods r { tyOk := fun _ => true, satZero := true, cb0 := true, cb1 := true }
  noNw r
  let pd ← index r.d 8
  let a ← src r r.a ty.pos
  let b ← src r r.b ty.pos
  ext96 [r.a, r.b]
  let cb := Comb.ofCode (bits r.m 5 2)
  let pc ← combPred r cb
  res96 r [r.a, r.b]
  .ok ⟨r.guard, pd, a, b, Cmp.ofCode r.sub, ty, cb, pc⟩

def decSel (r : Raw) : Dec SelI := do
  sub0 r
  len96 r
  let ty ← intMods r isWide0
  let (d, a, b) ← intOps2 r ty.pos ty.pos (ty.width == 64)
  let pc ← index r.c 8
  res96 r [r.a, r.b]
  .ok ⟨r.guard, d, a, b, pc, ty⟩

def decPfn (r : Raw) : Dec PfnI := do
  sub0 r
  len96 r
  noNw r
  let pd ← index r.d 8
  let pa ← index r.a 8
  let pb ← index r.b 8
  let pc ← index r.c 8
  .ok ⟨r.guard, pd, pa, pb, pc, BitVec.ofNat 8 r.m⟩

/-- movp and movp.to (R107). -/
def decMovp (r : Raw) : Dec Instr := do
  sub0 r
  len96 r
  let _ ← intMods r { tyOk := fun t => t == .i32, satZero := true, x := true }
  if r.mbit 4 then do
    noNw r
    let pd ← index r.d 8
    let a ← src r r.a .i32
    unused r.b
    unused r.c
    res96 r [r.a]
    .ok (.movpTo ⟨r.guard, pd, a⟩)
  else do
    let d ← dst r
    let pa ← index r.a 8
    unused r.b
    unused r.c
    .ok (.movp ⟨r.guard, d, pa⟩)

/-- sethi20 (R108): imm20 overlays [43:24]. -/
def decSethi (r : Raw) : Dec Instr := do
  need (decide (r.sub < 2)) .undefinedMinor
  len64 r
  mzero r 0 8
  noNw r
  let sd ← sreg r.d
  need (bits r.c 2 7 == 0) .reservedField
  let i : SethiI := ⟨r.guard, sd, BitVec.ofNat 20 (r.a + r.b * 2 ^ 9 + bits r.c 0 2 * 2 ^ 18)⟩
  .ok (if r.sub = 0 then .sethi20 i else .sethi20Pc i)

def decLea (r : Raw) : Dec (Op3 LeaM) := do
  sub0 r
  len96 r
  let ty ← intMods r { tyOk := Ty.is32, satZero := true, x := true, cb0 := true }
  let (d, a, b, c) ← intOps3 r .i64 .i32 .i32 true
  .ok ⟨r.guard, d, a, b, c, ⟨ty == .n32, Fin.ofNat 4 (bits r.m 4 2)⟩⟩

/-! ### Floating majors (R111) -/

def floatMods (r : Raw) (p : FSpec) : Dec FM := do
  mzero r 7 1
  need (p.f5 || !r.mbit 5) .reservedModifier
  need (p.f6 || !r.mbit 6) .reservedModifier
  need (decide (bits r.m 0 3 < 5)) .illegalModifier
  let m : FM := ⟨FT.ofCode (bits r.m 0 3), RM.ofCode (bits r.m 3 2), r.mbit 5, r.mbit 6⟩
  need (p.ftOk m.ft && (p.rmOk || m.rm == .rn)) .illegalModifier
  .ok m

/-- A vector destination or b0 (R111, R121). -/
def dstV (r : Raw) : Dec Dst := do
  let d ← dst r
  need (dstVec d) .illegalOperand
  .ok d

def decF1 (r : Raw) (p : FSpec) : Dec (Op1 FM) := do
  sub0 r
  len96 r
  let m ← floatMods r p
  let d ← dstV r
  let a ← src r r.a m.ft.pos
  unused r.b
  unused r.c
  res96 r [r.a]
  .ok ⟨r.guard, d, a, m⟩

def decF2 (r : Raw) (p : FSpec) (pb : FT → Pos) : Dec (Op2 FM) := do
  sub0 r
  len96 r
  let m ← floatMods r p
  let d ← dstV r
  let a ← src r r.a m.ft.pos
  let b ← src r r.b (pb m.ft)
  unused r.c
  ext96 [r.a, r.b]
  res96 r [r.a, r.b]
  .ok ⟨r.guard, d, a, b, m⟩

def decF3 (r : Raw) (p : FSpec) (pc : FT → Pos) : Dec (Op3 FM) := do
  sub0 r
  len96 r
  let m ← floatMods r p
  let d ← dstV r
  let a ← src r r.a m.ft.pos
  let b ← src r r.b m.ft.pos
  let c ← src r r.c (pc m.ft)
  ext96 [r.a, r.b, r.c]
  res96 r [r.a, r.b, r.c]
  .ok ⟨r.guard, d, a, b, c, m⟩

/-- fsetp (R116): bits [6:5] are the combination. -/
def decFsetp (r : Raw) : Dec FsetpI := do
  need (decide (r.sub < 14)) .undefinedMinor
  len96 r
  mzero r 7 1
  need (decide (bits r.m 0 3 < 3) && bits r.m 3 2 == 0) .illegalModifier
  noNw r
  let ft := FT.ofCode (bits r.m 0 3)
  let pd ← index r.d 8
  let a ← src r r.a ft.pos
  let b ← src r r.b ft.pos
  ext96 [r.a, r.b]
  let cb := Comb.ofCode (bits r.m 5 2)
  let pc ← combPred r cb
  res96 r [r.a, r.b]
  .ok ⟨r.guard, pd, a, b, FCmp.ofCode r.sub, ft, cb, pc⟩

def decFclass (r : Raw) : Dec FclassI := do
  sub0 r
  len96 r
  mzero r 5 3
  need (decide (bits r.m 0 3 < 3) && bits r.m 3 2 == 0) .illegalModifier
  noNw r
  let ft := FT.ofCode (bits r.m 0 3)
  let pd ← index r.d 8
  let a ← src r r.a ft.pos
  let b ← src r r.b .i32
  unused r.c
  ext96 [r.a, r.b]
  res96 r [r.a, r.b]
  .ok ⟨r.guard, pd, a, b, ft⟩

/-! ### Exact majors (R121 to R131) -/

/-- T in M[1:0], the rest of M zero (R123). -/
def xtMods (r : Raw) : Dec XT := do
  mzero r 2 6
  need (bits r.m 0 2 != 3) .illegalModifier
  .ok (XT.ofCode (bits r.m 0 2))

/-- An aligned vector destination without NW. -/
def dstAligned (r : Raw) (align : Nat) : Dec Dst := do
  noNw r
  let d ← vreg r.d align
  .ok (.v d)

def decX2 (r : Raw) : Dec (Op2 XT) := do
  sub0 r
  len96 r
  let t ← xtMods r
  let d ← dstAligned r 2
  let a ← src r r.a t.pos
  let b ← src r r.b t.pos
  unused r.c
  ext96 [r.a, r.b]
  res96 r [r.a, r.b]
  .ok ⟨r.guard, d, a, b, t⟩

def decX3 (r : Raw) : Dec (Op3 XT) := do
  sub0 r
  len96 r
  let t ← xtMods r
  let d ← dstAligned r 4
  let a ← src r r.a t.pos
  let b ← src r r.b t.pos
  let c ← src r r.c t.pos
  ext96 [r.a, r.b, r.c]
  res96 r [r.a, r.b, r.c]
  .ok ⟨r.guard, d, a, b, c, t⟩

/-- The alignment of an expansion of length code n (R84). -/
def expAlign (n : Nat) : Nat := if n = 0 then 1 else if n = 1 then 2 else 4

def decXren (r : Raw) : Dec XrenI := do
  sub0 r
  len96 r
  mzero r 4 4
  let na := bits r.m 2 2
  need (bits r.m 0 2 != 3 && na != 0) .illegalModifier
  noNw r
  let d ← vreg r.d (expAlign na)
  let a ← vreg r.a (expAlign na)
  unused r.b
  unused r.c
  .ok ⟨r.guard, d, a, XT.ofCode (bits r.m 0 2), Fin.ofNat 4 na⟩

def decXcmpr (r : Raw) : Dec XcmprI := do
  sub0 r
  len96 r
  let na := bits r.m 2 2
  let nd := bits r.m 4 2
  need (bits r.m 0 2 != 3 && na != 0 && decide (nd < na)) .illegalModifier
  noNw r
  let d ← vreg r.d (expAlign nd)
  let a ← vreg r.a (expAlign na)
  unused r.b
  unused r.c
  .ok ⟨r.guard, d, a, XT.ofCode (bits r.m 0 2), Fin.ofNat 4 na, Fin.ofNat 4 nd, RM.ofCode (bits r.m 6 2)⟩

def decXcmp (r : Raw) : Dec XcmpI := do
  sub0 r
  len96 r
  mzero r 7 1
  let na := bits r.m 2 2
  need (bits r.m 0 2 != 3 && na != 0 && decide (bits r.m 4 3 < 6)) .illegalModifier
  noNw r
  let pd ← index r.d 8
  let a ← vreg r.a (expAlign na)
  let b ← vreg r.b (expAlign na)
  unused r.c
  .ok ⟨r.guard, pd, a, b, XT.ofCode (bits r.m 0 2), Fin.ofNat 4 na, Cmp.ofCode (bits r.m 4 3)⟩

def decXadd (r : Raw) : Dec XaddI := do
  sub0 r
  len96 r
  mzero r 6 2
  let na := bits r.m 2 2
  let nb := bits r.m 4 2
  need (bits r.m 0 2 != 3 && na != 0) .illegalModifier
  noNw r
  let t := XT.ofCode (bits r.m 0 2)
  let d ← vreg r.d (expAlign na)
  let a ← vreg r.a (expAlign na)
  let b ← (if nb = 0 then src r r.b t.pos else do
    let v ← vreg r.b (expAlign nb)
    .ok (.v v))
  unused r.c
  res96 r [r.b]
  .ok ⟨r.guard, d, a, b, t, Fin.ofNat 4 na, Fin.ofNat 4 nb⟩

def decXmul (r : Raw) : Dec XmulI := do
  sub0 r
  len96 r
  mzero r 4 4
  let na := bits r.m 2 2
  need (bits r.m 0 2 != 3 && na != 0) .illegalModifier
  noNw r
  let t := XT.ofCode (bits r.m 0 2)
  let d ← vreg r.d (expAlign na)
  let a ← vreg r.a (expAlign na)
  let b ← src r r.b t.pos
  unused r.c
  res96 r [r.b]
  .ok ⟨r.guard, d, a, b, t, Fin.ofNat 4 na⟩

/-! ### Conversions (R132 to R142) -/

/-- cvt (R133): C is a mode field, whose upper bits are a reserved field. -/
def decCvt (r : Raw) : Dec (Op1 CvtM) := do
  sub0 r
  len96 r
  need (decide (bits r.m 0 4 < 12 ∧ bits r.m 4 4 < 12)) .illegalModifier
  let m : CvtM := ⟨CT.ofCode (bits r.m 0 4), CT.ofCode (bits r.m 4 4), RM.ofCode (bits r.c 0 2), bits r.c 2 1 != 0⟩
  need (wfCvt ⟨r.guard, .v 0, .s 0, m⟩) .illegalModifier
  let d ← dst r
  let a ← src r r.a m.st.pos
  unused r.b
  need (wfCvt ⟨r.guard, d, a, m⟩) .illegalOperand
  need (bits r.c 3 6 == 0) .reservedField
  res96 r [r.a]
  .ok ⟨r.guard, d, a, m⟩

def decCvtN (r : Raw) : Dec CvtNI := do
  sub0 r
  len96 r
  if r.mbit 0 then do
    mzero r 6 2
    need (bits r.m 2 2 != 3) .illegalModifier
    let d ← dstV r
    let a ← src r r.a .narrow
    unused r.b
    unused r.c
    .ok ⟨r.guard, d, a, r.mbit 1, XT.ofCode (bits r.m 2 2), .widen (Fin.ofNat 4 (bits r.m 4 2))⟩
  else do
    need (bits r.m 2 2 != 3) .illegalModifier
    let wf := XT.ofCode (bits r.m 2 2)
    let d ← dstV r
    let a ← src r r.a wf.pos
    let b ← src r r.b wf.pos
    unused r.c
    ext96 [r.a, r.b]
    res96 r [r.a, r.b]
    .ok ⟨r.guard, d, a, r.mbit 1, wf, .narrow b (RM.ofCode (bits r.m 4 2)) (r.mbit 6) (r.mbit 7)⟩

/-- cvt.sr (R136). DESIGN CHOICE (log 44): c, the random bits, stands in a 32-bit integer position, so that a floating
constant there is an illegal operand. -/
def decCvtSr (r : Raw) : Dec CvtSrI := do
  sub0 r
  len96 r
  mzero r 4 4
  let df := bits r.m 0 2
  need (decide (2 ≤ df) || (!r.mbit 2 && !r.mbit 3)) .illegalModifier
  let d ← dstV r
  let a ← src r r.a .f32
  let c ← src r r.c .i32
  if df < 2 then do
    unused r.b
    ext96 [r.a, r.c]
    res96 r [r.a, r.c]
    .ok ⟨r.guard, d, a, c, if df = 0 then .f16 else .bf16⟩
  else do
    let b ← src r r.b .f32
    ext96 [r.a, r.b, r.c]
    res96 r [r.a, r.b, r.c]
    .ok ⟨r.guard, d, a, c, .byte (df == 3) b (r.mbit 2) (r.mbit 3)⟩

/-- cvt.blk (R137): DIR chooses the row. A bit that only encoding uses is a forbidden combination when decoding (R47). -/
def decCvtBlk (r : Raw) : Dec Instr := do
  sub0 r
  len96 r
  mzero r 7 1
  let decode := r.mbit 0
  let nfc := bits r.m 1 2
  need (nfc != 3 && !(nfc == 0 && r.mbit 6)) .illegalModifier
  need (!decode || (!r.mbit 5 && !r.mbit 6)) .illegalModifier
  let nf := NF.ofCode nfc
  let grp := if nf = .e2m1 then 8 else 4
  let sel := Fin.ofNat 4 (bits r.m 3 2)
  if decode then do
    noNw r
    let d ← vreg r.d grp
    let a ← src r r.a .narrow
    let sc ← vreg r.b 1
    need (r.c == 0) .reservedField
    .ok (.cvtBlkDecode ⟨r.guard, d, a, sc, nf, sel⟩)
  else do
    let d ← dstV r
    need (!(r.mbit 5 && d == .b0)) .illegalOperand
    let a ← vreg r.a grp
    let sc ← vreg r.b 1
    need (bits r.c 2 7 == 0) .reservedField
    .ok (.cvtBlkEncode ⟨r.guard, d, a, sc, nf, sel, r.mbit 5, RM.ofCode (bits r.c 0 2), r.mbit 6⟩)

def decCvtX2 (r : Raw) : Dec CvtX2I := do
  sub0 r
  len96 r
  mzero r 3 5
  need (r.mbit 0 || bits r.m 1 2 == 0) .illegalModifier
  noNw r
  let d ← vreg r.d 2
  if r.mbit 0 then do
    let a ← vreg r.a 2
    unused r.b
    unused r.c
    .ok (.toF64 r.guard d a (RM.ofCode (bits r.m 1 2)))
  else do
    let a ← src r r.a .f64
    unused r.b
    unused r.c
    res96 r [r.a]
    .ok (.toX2 r.guard d a)

/-- unpk.t3 (R142): M[2:0] is read only where PV = 1. -/
def decUnpk (r : Raw) : Dec UnpkI := do
  sub0 r
  len96 r
  mzero r 4 4
  noNw r
  let d ← vreg r.d 1
  let a ← src r r.a .narrow
  unused r.b
  unused r.c
  .ok ⟨r.guard, d, a, if r.mbit 3 then some (Fin.ofNat 8 (bits r.m 0 3)) else none⟩

def decPack (r : Raw) : Dec (Op2 PackP) := do
  sub0 r
  len96 r
  mzero r 7 1
  let p := bits r.m 0 3
  need (decide (p < 6)) .illegalModifier
  need (decide (p < 2) || bits r.m 3 2 == 0) .illegalModifier
  need (decide (2 ≤ p) || !r.mbit 5) .illegalModifier
  need (decide (4 ≤ p) || !r.mbit 6) .illegalModifier
  let pos : Pos := if p < 2 then .f32 else .i32
  let d ← dstV r
  let a ← src r r.a pos
  let b ← src r r.b pos
  unused r.c
  ext96 [r.a, r.b]
  res96 r [r.a, r.b]
  let m : PackP := match p with
    | 0 => .f16x2 (RM.ofCode (bits r.m 3 2))
    | 1 => .bf16x2 (RM.ofCode (bits r.m 3 2))
    | 2 => .i16x2 (r.mbit 5)
    | 3 => .n16x2 (r.mbit 5)
    | 4 => .i8 (r.mbit 5) (r.mbit 6)
    | _ => .n8 (r.mbit 5) (r.mbit 6)
  .ok ⟨r.guard, d, a, b, m⟩

def decUnpack (r : Raw) : Dec (Op1 UnpackP) := do
  sub0 r
  len96 r
  mzero r 5 3
  let p := bits r.m 0 3
  let sel := bits r.m 3 2
  need (decide (p < 6) && (decide (4 ≤ p) || decide (sel < 2))) .illegalModifier
  let d ← dstV r
  let a ← src r r.a (if p < 2 then .pair else .i32)
  unused r.b
  unused r.c
  res96 r [r.a]
  let m : UnpackP := match p with
    | 0 => .f16 (Fin.ofNat 2 sel)
    | 1 => .bf16 (Fin.ofNat 2 sel)
    | 2 => .i16 (Fin.ofNat 2 sel)
    | 3 => .n16 (Fin.ofNat 2 sel)
    | 4 => .i8 (Fin.ofNat 4 sel)
    | _ => .n8 (Fin.ofNat 4 sel)
  .ok ⟨r.guard, d, a, m⟩

/-! ### Lane exchange (R299 to R307) -/

/-- The optional predicate that C names when PV = 1 (R300). -/
def optPred (r : Raw) (pv : Bool) : Dec (Option (Fin 8)) :=
  if pv then do
    let p ← index r.c 8
    .ok (some p)
  else do
    unused r.c
    .ok none

def decXlane (r : Raw) : Dec XlaneI := do
  need (decide (r.sub < 4)) .undefinedMinor
  len96 r
  mzero r 4 4
  need (decide (bits r.m 0 3 < 6)) .illegalModifier
  noNw r
  let d ← vreg r.d 1
  let a ← vreg r.a 1
  let b ← src r r.b .i32
  let pd ← optPred r (r.mbit 3)
  res96 r [r.b]
  .ok ⟨r.guard, d, a, b, XlaneMode.ofCode r.sub, Fin.ofNat 6 (bits r.m 0 3), pd⟩

def decNbr (r : Raw) : Dec NbrI := do
  sub0 r
  len96 r
  mzero r 1 2
  mzero r 4 4
  noNw r
  let d ← vreg r.d 1
  let a ← vreg r.a 1
  let n ← src r r.b .i32
  let pd ← optPred r (r.mbit 3)
  res96 r [r.b]
  .ok ⟨r.guard, d, a, n, r.mbit 0, pd⟩

def decLvote (r : Raw) : Dec LvoteI := do
  need (decide (r.sub < 5)) .undefinedMinor
  len96 r
  mzero r 1 7
  noNw r
  let op : VoteOp ← (match r.sub with
    | 0 => do let p ← index r.d 8; .ok (.and p)
    | 1 => do let p ← index r.d 8; .ok (.or p)
    | 2 => do let p ← index r.d 8; .ok (.same p)
    | 4 => do let p ← index r.d 8; .ok (.xor p)
    | _ => if r.d < 256 then .ok (.maskV (Fin.ofNat 256 r.d)) else do
        let s ← sreg r.d
        .ok (.maskS s))
  let pa ← index r.a 8
  unused r.b
  unused r.c
  .ok ⟨r.guard, op, pa, r.mbit 0⟩

def decMpopc (r : Raw) : Dec MpopcI := do
  sub0 r
  len96 r
  mzero r 3 5
  need (bits r.m 0 2 != 3) .illegalModifier
  noNw r
  let mode := PopcMode.ofCode (bits r.m 0 2)
  let d ← dst r
  need (match d with
    | .v _ => true
    | .s _ => mode == .tot
    | .b0 => false) .illegalOperand
  let pa ← index r.a 8
  unused r.b
  unused r.c
  .ok ⟨r.guard, d, pa, mode, r.mbit 2⟩

def decLmatch (r : Raw) : Dec LmatchI := do
  need (decide (r.sub < 3)) .undefinedMinor
  len96 r
  mzero r 1 2
  mzero r 4 4
  need (r.sub == 1 || !r.mbit 3) .illegalModifier
  noNw r
  let d ← vreg r.d 1
  let a ← vreg r.a (if r.mbit 0 then 2 else 1)
  unused r.b
  let pd ← optPred r (r.mbit 3)
  .ok ⟨r.guard, d, a, r.mbit 0, match r.sub with
    | 0 => .grp
    | 1 => .uni pd
    | _ => .lead⟩

/-! ### Memory forms (R205 to R224) -/

/-- A signed field of n bits. -/
def signedField (x n : Nat) : Int := if x < 2 ^ (n - 1) then x else (x : Int) - 2 ^ n

/-- What an entry permits in the extension (R206). -/
structure ExtSpec where
  strong : Bool
  scope : Bool
  sbc : Bool
  cp : Bool

/-- The extension of a memory form: the modifier checks of R206, R209, R215. -/
def extMods (r : Raw) (p : ExtSpec) : Dec Unit :=
  if r.len = 4 then do
    need (bits r.ext 24 3 != 7 && (p.sbc || bits r.ext 24 3 == 0)) .illegalModifier
    need (decide (bits r.ext 27 3 < 6) && ((p.scope && p.strong) || bits r.ext 27 3 == 0)) .illegalModifier
    need (p.cp || bits r.ext 30 2 == 0) .illegalModifier
  else .ok ()

/-- off12 or OFF24 and the fields of the extension, after the operands (R205, R48 order 9). -/
def extOf (r : Raw) (off12 : Nat) : Dec Ext :=
  if r.len = 4 then do
    need (off12 == 0 && bits r.ext 32 32 == 0) .reservedField
    .ok ⟨true, signedField (bits r.ext 0 24) 24, Fin.ofNat 7 (bits r.ext 24 3), Scope.ofCode (bits r.ext 27 3),
      Fin.ofNat 4 (bits r.ext 30 2)⟩
  else .ok ⟨false, signedField off12 12, 0, .device, 0⟩

/-- off12 of a memory major: bits [53:42] (R32). -/
def Raw.off12 (r : Raw) : Nat := r.c + bits r.sub 0 3 * 2 ^ 9
/-- The two-bit SUB of a memory major (R32). -/
def Raw.sub2 (r : Raw) : Nat := bits r.sub 3 2

def memSub0 (r : Raw) : Dec Unit := need (r.sub2 == 0) .undefinedMinor

/-- Base and index (R207). -/
def address (r : Raw) (global ip : Bool) : Dec (ABase × ABase) := do
  let base ← abase r.a
  let idx ← abase r.b
  need (addrOk global base idx ip) .illegalOperand
  .ok (base, idx)

def decLoad (r : Raw) (global scope cp scalarOk privateSpace : Bool) : Dec LoadI := do
  memSub0 r
  len64or128 r
  let ord := Ord.ofLoad (bits r.m 6 2)
  need (!privateSpace || ord == .plain) .illegalModifier
  need (global || !r.mbit 5) .illegalModifier
  extMods r ⟨ord != .plain, scope, false, cp⟩
  noNw r
  let d ← dst r
  let (base, idx) ← address r global (r.mbit 5)
  let w := MW.ofCode (bits r.m 0 3)
  need (loadDst d base idx w scalarOk) .illegalOperand
  let x ← extOf r r.off12
  .ok ⟨r.guard, d, base, idx, Fin.ofNat 4 (bits r.m 3 2), r.mbit 5, w, ord, x⟩

/-- The data of a store, a push, a reduction (R212). -/
def dataSrc (r : Raw) (code : Nat) (w : MW) : Dec Src := do
  let x ← srcCode r code
  need (storeData x w) .illegalOperand
  .ok x

def decStore (r : Raw) (global scope cp privateSpace : Bool) : Dec StoreI := do
  memSub0 r
  len64or128 r
  let ord := Ord.ofStore (bits r.m 6 2)
  let w := MW.ofCode (bits r.m 0 3)
  need (w.storeOk && (!privateSpace || ord == .plain)) .illegalModifier
  need (global || !r.mbit 5) .illegalModifier
  extMods r ⟨ord != .plain, scope, true, cp⟩
  noNw r
  let data ← dataSrc r r.d w
  let (base, idx) ← address r global (r.mbit 5)
  let x ← extOf r r.off12
  .ok ⟨r.guard, data, base, idx, Fin.ofNat 4 (bits r.m 3 2), r.mbit 5, w, ord, x⟩

def decLdk (r : Raw) : Dec LdkI := do
  memSub0 r
  len64or128 r
  need (bits r.m 6 2 == 0 && !r.mbit 5) .illegalModifier
  extMods r ⟨false, false, false, false⟩
  noNw r
  let d ← dst r
  let win ← index r.a 8
  let idx ← abase r.b
  let w := MW.ofCode (bits r.m 0 3)
  need (loadDst d .zero idx w true) .illegalOperand
  let x ← extOf r r.off12
  .ok ⟨r.guard, d, win, idx, Fin.ofNat 4 (bits r.m 3 2), w, x⟩

def decPref (r : Raw) : Dec PrefI := do
  memSub0 r
  len64or128 r
  mzero r 1 2
  mzero r 6 2
  extMods r ⟨false, false, false, true⟩
  noNw r
  let (base, idx) ← address r true (r.mbit 5)
  let x ← extOf r r.off12
  noD r
  .ok ⟨r.guard, base, idx, Fin.ofNat 4 (bits r.m 3 2), r.mbit 5, r.mbit 0, x⟩

/-- A scalar or an integer constant. -/
def sOrInt (r : Raw) (code : Nat) : Dec Src := do
  let x ← srcCode r code
  need x.sOrInt .illegalOperand
  .ok x

/-- A memory form with no offset and no extension field (R217, R218). -/
def noOffset (r : Raw) : Dec Unit :=
  need (r.off12 == 0 && r.ext == 0) .reservedField

/-- Extension fields that the entry does not permit are an illegal combination (R206). -/
def noExtFields (r : Raw) : Dec Unit := need (bits r.ext 0 32 == 0) .illegalModifier

def decBankcfg (r : Raw) : Dec BankcfgI := do
  memSub0 r
  len64or128 r
  mzero r 2 6
  need (bits r.m 0 2 != 3) .illegalModifier
  noExtFields r
  noNw r
  let first ← sOrInt r r.a
  let count ← sOrInt r r.b
  noOffset r
  noD r
  .ok ⟨r.guard, first, count, BankMode.ofCode (bits r.m 0 2), r.len == 4⟩

def decFifo (r : Raw) : Dec Instr := do
  need (decide (r.sub2 < 2)) .undefinedMinor
  len64or128 r
  mzero r 0 8
  noExtFields r
  noNw r
  if r.sub2 = 0 then do
    let data ← dataSrc r r.d .b32
    let bank ← sOrInt r r.a
    unused r.b
    noOffset r
    .ok (.fifoPush ⟨r.guard, bank, data, r.len == 4⟩)
  else do
    let d ← vreg r.d 1
    let bank ← sOrInt r r.a
    unused r.b
    noOffset r
    .ok (.fifoPop ⟨r.guard, d, bank, r.len == 4⟩)

/-- The modifier byte of the atomics (R219). -/
def atomMods (r : Raw) (ok : Ord → Bool) : Dec Ord := do
  mzero r 7 1
  let ord := Ord.ofCode (bits r.m 4 3)
  need (decide (bits r.m 4 3 < 6) && ok ord) .illegalModifier
  .ok ord

def decAtom (r : Raw) (global : Bool) : Dec AtomI := do
  memSub0 r
  len64or128 r
  let ord ← atomMods r Ord.atomOk
  extMods r ⟨true, true, false, global⟩
  noNw r
  let d ← dst r
  let (base, idx) ← address r global false
  let op := AOp.ofCode (bits r.m 0 4)
  need (atomDst d base idx op) .illegalOperand
  let x ← extOf r r.off12
  .ok ⟨r.guard, d, base, idx, op, ord, x⟩

def decRed (r : Raw) (global : Bool) : Dec RedI := do
  memSub0 r
  len64or128 r
  let ord ← atomMods r Ord.redOk
  extMods r ⟨true, true, true, global⟩
  noNw r
  let op := AOp.ofCode (bits r.m 0 4)
  let data ← dataSrc r r.d (if op.is64 then .b64 else .b32)
  let (base, idx) ← address r global false
  let x ← extOf r r.off12
  .ok ⟨r.guard, data, base, idx, op, ord, x⟩

def decCas (r : Raw) (global : Bool) : Dec CasI := do
  memSub0 r
  len64or128 r
  mzero r 1 3
  let ord ← atomMods r Ord.atomOk
  extMods r ⟨true, true, false, global⟩
  noNw r
  let d ← vreg r.d (if r.mbit 0 then 4 else 2)
  let (base, idx) ← address r global false
  let x ← extOf r r.off12
  .ok ⟨r.guard, d, base, idx, r.mbit 0, ord, x⟩

def decCatom (r : Raw) : Dec CatomI := do
  memSub0 r
  len64or128 r
  need (r.mbit 2 || bits r.m 3 3 == 0) .reservedModifier
  need (bits r.m 0 2 != 3 && bits r.m 6 2 != 3) .illegalModifier
  extMods r ⟨true, true, !r.mbit 2, true⟩
  noNw r
  let d ← vreg r.d 2
  let base ← abase r.a
  need (addrOk true base .zero false) .illegalOperand
  let delta ← target r.b
  let x ← extOf r r.off12
  .ok ⟨r.guard, d, base, delta, PairT.ofCode (bits r.m 0 2),
    if r.mbit 2 then some (Fin.ofNat 8 (bits r.m 3 3)) else none, Ord.ofCatom (bits r.m 6 2), x⟩

/-- stc (R305): the memory extension in its 128-bit form, no offset in the 64-bit form. -/
def decStc (r : Raw) : Dec StcI := do
  sub0 r
  len64or128 r
  mzero r 4 4
  let w := MW.ofCode (bits r.m 0 3)
  need (w.storeOk && w != .b128) .illegalModifier
  extMods r ⟨true, true, true, true⟩
  noNw r
  let ri ← (if r.mbit 3 then do
      let d ← vreg r.d 1
      .ok (some d)
    else .ok none)
  let q ← sreg r.a
  let base ← sreg r.b
  let data ← dataSrc r r.c w
  let x ← extOf r 0
  need (r.mbit 3 || r.d == 0) .reservedField
  .ok ⟨r.guard, ri, q, base, data, w, x⟩

/-! ### Synchronisation (R225 to R234) -/

def decFence (r : Raw) : Dec FenceI := do
  sub0 r
  len64 r
  mzero r 6 2
  let o := Ord.ofCode (bits r.m 0 3)
  need (decide (bits r.m 0 3 < 6) && o.fenceOk && decide (bits r.m 3 3 < 6)) .illegalModifier
  noNw r
  unused r.a
  unused r.b
  unused r.c
  noD r
  .ok ⟨r.guard, o, Scope.ofCode (bits r.m 3 3)⟩

/-- bar (R227): SP, scope, and SBC in the extension of the 128-bit form. -/
def decBar (r : Raw) : Dec Instr := do
  need (decide (r.sub < 4)) .undefinedMinor
  len64or128 r
  mzero r 4 4
  need (decide (bits r.m 1 3 < 6)) .illegalModifier
  need (bits r.ext 0 3 != 7 && (r.sub == 1 || bits r.ext 0 3 == 0)) .illegalModifier
  noNw r
  let obj ← sreg r.a
  let scratch := r.mbit 0
  let scope := Scope.ofCode (bits r.m 1 3)
  let long := r.len == 4
  match r.sub with
  | 0 => do
    let count ← sOrInt r r.b
    unused r.c
    need (bits r.ext 3 61 == 0) .reservedField
    noD r
    .ok (.barInit ⟨r.guard, obj, count, scratch, scope, long⟩)
  | 1 => do
    let count ← src r r.b .i32
    let bytes ← src r r.c .i64
    need (bits r.ext 3 61 == 0) .reservedField
    noD r
    .ok (.barArrive ⟨r.guard, obj, count, bytes, scratch, scope, long, Fin.ofNat 7 (bits r.ext 0 3)⟩)
  | 2 => do
    let par ← sOrInt r r.b
    unused r.c
    need (bits r.ext 3 61 == 0) .reservedField
    noD r
    .ok (.barWait ⟨r.guard, obj, par, scratch, scope, long⟩)
  | _ => do
    let pd ← index r.d 8
    let par ← sOrInt r r.b
    unused r.c
    need (bits r.ext 3 61 == 0) .reservedField
    .ok (.barTest ⟨r.guard, pd, obj, par, scratch, scope, long⟩)

def decWaitc (r : Raw) : Dec WaitcI := do
  sub0 r
  len64 r
  mzero r 3 5
  need (decide (bits r.m 0 3 < 6)) .illegalModifier
  noNw r
  let ctr ← sreg r.a
  let v ← sOrInt r r.b
  unused r.c
  noD r
  .ok ⟨r.guard, ctr, v, Scope.ofCode (bits r.m 0 3)⟩

def decSignal (r : Raw) : Dec SignalI := do
  sub0 r
  len64or128 r
  mzero r 3 5
  need (decide (bits r.m 0 3 < 6) && bits r.ext 0 3 != 7) .illegalModifier
  noNw r
  let ctr ← sreg r.a
  let v ← sOrInt r r.b
  unused r.c
  need (bits r.ext 3 61 == 0) .reservedField
  noD r
  .ok ⟨r.guard, ctr, v, Scope.ofCode (bits r.m 0 3), r.len == 4, Fin.ofNat 7 (bits r.ext 0 3)⟩

def decWaitsb (r : Raw) : Dec WaitsbI := do
  sub0 r
  len64 r
  mzero r 0 8
  noNw r
  let sb ← index r.a 6
  let n ← sOrInt r r.b
  unused r.c
  noD r
  .ok ⟨r.guard, sb, n⟩

def decPause (r : Raw) : Dec PauseI := do
  sub0 r
  len64 r
  mzero r 0 8
  noNw r
  unused r.a
  let n ← src r r.b .i32
  unused r.c
  noD r
  .ok ⟨r.guard, n⟩

/-! ### Control (R287 to R298) -/

/-- off24 at [47:24] (R32). -/
def Raw.off24 (r : Raw) : BitVec 24 := BitVec.ofNat 24 (r.a + r.b * 2 ^ 9 + bits r.c 0 6 * 2 ^ 18)

def ctlHead (r : Raw) : Dec Unit := do
  sub0 r
  len64 r

def decBra (r : Raw) : Dec BraI := do
  ctlHead r
  mzero r 0 8
  noNw r
  need (bits r.c 6 3 == 0) .reservedField
  noD r
  .ok ⟨r.guard, r.off24⟩

def decCall (r : Raw) : Dec CallI := do
  ctlHead r
  mzero r 0 8
  noNw r
  let link ← vreg r.d 2
  need (bits r.c 6 3 == 0) .reservedField
  .ok ⟨r.guard, link, r.off24⟩

/-- brx, ret (R290, R292). -/
def decJump (r : Raw) : Dec JumpI := do
  ctlHead r
  mzero r 0 8
  noNw r
  let t ← target r.a
  unused r.b
  unused r.c
  noD r
  .ok ⟨r.guard, t⟩

def decCallx (r : Raw) : Dec CallxI := do
  ctlHead r
  mzero r 0 8
  noNw r
  let link ← vreg r.d 2
  let t ← target r.a
  unused r.b
  unused r.c
  .ok ⟨r.guard, link, t⟩

/-- A form with the guard alone. -/
def decPlain (r : Raw) : Dec PlainI := do
  mzero r 0 8
  noNw r
  unused r.a
  unused r.b
  unused r.c
  noD r
  .ok ⟨r.guard⟩

def decJopen (r : Raw) : Dec JopenI := do
  ctlHead r
  mzero r 1 7
  noNw r
  let j ← index r.d 16
  let mask ← (if r.mbit 0 then do
      let m ← sOrInt r r.a
      .ok (some m)
    else do
      unused r.a
      .ok none)
  unused r.b
  unused r.c
  .ok ⟨r.guard, j, mask⟩

def decJset (r : Raw) : Dec JsetI := do
  ctlHead r
  mzero r 0 8
  noNw r
  let j ← index r.d 16
  unused r.a
  unused r.b
  unused r.c
  .ok ⟨r.guard, j⟩

def decJmem (r : Raw) : Dec JmemI := do
  ctlHead r
  mzero r 0 8
  noNw r
  let j ← index r.d 16
  let base ← sreg r.a
  let slot ← sOrInt r r.b
  unused r.c
  .ok ⟨r.guard, j, base, slot⟩

/-! ### Platen and Feeder (R159 to R168, R241) -/

def decMma (r : Raw) : Dec Instr := do
  need (decide (r.sub < 2)) .undefinedMinor
  len128 r
  need (bits r.m 0 3 != 7 && bits r.m 3 3 != 7) .illegalModifier
  let af := MF.ofCode (bits r.m 0 3)
  let bf := MF.ofCode (bits r.m 3 3)
  let sc := r.mbit 6
  need (mmaPair af bf && mmaScale af sc) .illegalModifier
  need (!(r.sub == 1 && (af == .i8 || af == .n8))) .illegalModifier
  noNw r
  let d ← index r.d 8
  let sa ← sreg r.a
  let sb ← sreg r.b
  let scale ← (if sc then do
      let x ← sreg (bits r.ext 0 9)
      let y ← sreg (bits r.ext 9 9)
      .ok (some (x, y))
    else do
      unused (bits r.ext 0 9)
      unused (bits r.ext 9 9)
      .ok none)
  let tk ← sregOpt (bits r.ext 18 9)
  let m : MmaI := ⟨r.guard, d, sa, sb, af, bf, r.mbit 7, scale, tk⟩
  if r.sub = 0 then do
    unused r.c
    need (bits r.ext 27 37 == 0) .reservedField
    .ok (.mma m)
  else do
    let res ← index r.c 8
    need (res != d) .illegalOperand
    need (bits r.ext 27 37 == 0) .reservedField
    .ok (.mmaRes ⟨m, res⟩)

/-- The format byte of acc.rd, acc.wr, acc.ld, acc.st (R165). -/
def accByte (r : Raw) (modsOk : Bool) : Dec AF := do
  mzero r 7 1
  need (decide (bits r.m 0 3 < 6)) .illegalModifier
  let ft := AF.ofCode (bits r.m 0 3)
  need (if modsOk then accMods ft (RM.ofCode (bits r.m 3 2)) (r.mbit 5) (r.mbit 6) else bits r.m 3 4 == 0)
    .illegalModifier
  .ok ft

/-- The residual tile that C names with SUM (R167, R168). -/
def accSum (r : Raw) : Dec (Option (Fin 8)) :=
  if r.mbit 6 then do
    let t ← index r.c 8
    .ok (some t)
  else do
    unused r.c
    .ok none

/-- NR and COL (R167). -/
def accCols (r : Raw) (ft : AF) : Dec Unit := do
  let nr := bits r.ext 1 3
  let col := bits r.ext 4 6
  need (decide (nr < 5)) .illegalModifier
  need (col % ft.perReg == 0 && decide (col + 2 ^ nr * ft.perReg ≤ 64)) .illegalModifier

def decAcc (r : Raw) : Dec Instr := do
  need (decide (r.sub < 5)) .undefinedMinor
  len128 r
  match r.sub with
  | 0 => do
    mzero r 0 8
    noNw r
    let d ← index r.d 8
    unused r.a
    unused r.b
    unused r.c
    need (r.ext == 0) .reservedField
    .ok (.accZero ⟨r.guard, d⟩)
  | 1 => do
    let ft ← accByte r true
    accCols r ft
    noNw r
    let d ← vreg r.d 1
    let a ← index r.a 8
    unused r.b
    let sum ← accSum r
    need (bits r.ext 10 54 == 0) .reservedField
    .ok (.accRd ⟨r.guard, d, a, sum, ft, RM.ofCode (bits r.m 3 2), r.mbit 5, Fin.ofNat 2 (bits r.ext 0 1),
      Fin.ofNat 5 (bits r.ext 1 3), Fin.ofNat 64 (bits r.ext 4 6)⟩)
  | 2 => do
    let ft ← accByte r false
    accCols r ft
    noNw r
    let d ← index r.d 8
    let a ← vreg r.a 1
    unused r.b
    unused r.c
    need (bits r.ext 10 54 == 0) .reservedField
    .ok (.accWr ⟨r.guard, d, a, ft, Fin.ofNat 2 (bits r.ext 0 1), Fin.ofNat 5 (bits r.ext 1 3),
      Fin.ofNat 64 (bits r.ext 4 6)⟩)
  | 3 => do
    let ft ← accByte r false
    noNw r
    let d ← index r.d 8
    let lrec ← sreg r.a
    unused r.b
    unused r.c
    let tk ← sregOpt (bits r.ext 18 9)
    need (bits r.ext 0 18 == 0 && bits r.ext 27 37 == 0) .reservedField
    .ok (.accLd ⟨r.guard, d, lrec, ft, tk⟩)
  | _ => do
    let ft ← accByte r true
    need (decide (bits r.ext 0 3 < 6)) .illegalModifier
    noNw r
    let a ← index r.a 8
    let lrec ← sreg r.b
    let sum ← accSum r
    need (bits r.ext 3 61 == 0) .reservedField
    noD r
    .ok (.accSt ⟨r.guard, a, lrec, sum, ft, RM.ofCode (bits r.m 3 2), r.mbit 5, Fin.ofNat 6 (bits r.ext 0 3)⟩)

def decCpy (r : Raw) : Dec Instr := do
  need (decide (r.sub < 3)) .undefinedMinor
  len128 r
  mzero r 7 1
  let rop := bits r.m 3 3
  need (decide (bits r.m 0 3 < 6)) .illegalModifier
  need (if r.sub = 1 then rop != 0 && rop != 7 else rop == 0) .illegalModifier
  need (!(r.mbit 6 && r.b == 0)) .illegalModifier
  noNw r
  let d ← sreg r.d
  let a ← sreg r.a
  let bar ← sregOpt r.b
  let tk ← sregOpt (bits r.ext 0 9)
  let cr ← sregOpt (bits r.ext 9 9)
  let c : CpyI := ⟨r.guard, d, a, bar.map fun x => (x, r.mbit 6), Scope.ofCode (bits r.m 0 3), tk, cr⟩
  if r.sub = 2 then do
    let v ← sOrInt r r.c
    let ctr ← sreg (bits r.ext 18 9)
    need (bits r.ext 27 37 == 0) .reservedField
    .ok (.cpySig ⟨c, ctr, v⟩)
  else do
    unused r.c
    unused (bits r.ext 18 9)
    need (bits r.ext 27 37 == 0) .reservedField
    .ok (if r.sub = 0 then .cpy c else .cpyRed ⟨c, Rop.ofCode rop⟩)

def decImp (r : Raw) : Dec ImpI := do
  sub0 r
  len128 r
  mzero r 3 5
  need (decide (bits r.m 0 3 < 6)) .illegalModifier
  noNw r
  let d ← sreg r.d
  unused r.a
  unused r.b
  unused r.c
  let tk ← sregOpt (bits r.ext 0 9)
  let cr ← sregOpt (bits r.ext 9 9)
  need (bits r.ext 18 46 == 0) .reservedField
  .ok ⟨r.guard, d, Scope.ofCode (bits r.m 0 3), tk, cr⟩

/-! ### Regions, errata, system (R346 to R352, R379, R383, R390 to R395) -/

/-- A constant from 0 to 15 or a scalar. -/
def trapNum (r : Raw) (code : Nat) : Dec Src := do
  let x ← srcCode r code
  need x.trapNum .illegalOperand
  .ok x

/-- A kept tile: [3] keep, [2:0] index, zero when not kept (R392). -/
def keptTile (x : Nat) : Option (Fin 8) := if x < 8 then none else some (Fin.ofNat 8 x)

def decRgn (r : Raw) : Dec Instr := do
  need (decide (r.sub < 5)) .undefinedMinor
  need (if r.sub < 2 then r.len == 4 else r.len == 2) .illegalLength
  mzero r 0 8
  match r.sub with
  | 0 => do
    noNw r
    unused r.a
    unused r.b
    unused r.c
    need (bits r.ext 27 37 == 0) .reservedField
    noD r
    .ok (.rgnBegin ⟨r.guard, BitVec.ofNat 24 (bits r.ext 0 24), Fin.ofNat 8 (bits r.ext 24 3)⟩)
  | 1 => do
    let vnum := bits r.ext 0 9
    let vfirst := bits r.ext 9 8
    let sfirst := bits r.ext 17 6
    let snum := bits r.ext 23 7
    let pmask := bits r.ext 30 8
    let jmask := bits r.ext 38 16
    let t0 := bits r.ext 54 4
    let t1 := bits r.ext 58 4
    need (decide (vnum < 257) && (vnum != 0 || vfirst == 0) && (snum != 0 || sfirst == 0) &&
      decide (sfirst + snum ≤ 64) && bits pmask 0 1 == 0) .illegalModifier
    need ((decide (8 ≤ t0) || t0 == 0) && (decide (8 ≤ t1) || t1 == 0) && (decide (t0 < 8) || t0 != t1)) .illegalModifier
    noNw r
    unused r.a
    unused r.b
    unused r.c
    need (bits r.ext 62 2 == 0) .reservedField
    noD r
    .ok (.rgnKeep ⟨r.guard, Fin.ofNat 256 vfirst, Fin.ofNat 257 vnum, Fin.ofNat 64 sfirst, Fin.ofNat 65 snum,
      BitVec.ofNat 8 pmask, BitVec.ofNat 16 jmask, keptTile t0, keptTile t1⟩)
  | 2 => do
    let p ← decPlain r
    .ok (.rgnEnd p)
  | 3 => do
    noNw r
    let n ← trapNum r r.a
    unused r.b
    unused r.c
    noD r
    .ok (.rgnAbort ⟨r.guard, n⟩)
  | _ => do
    noNw r
    let d ← sreg r.d
    unused r.a
    unused r.b
    unused r.c
    .ok (.rgnStatus ⟨r.guard, d⟩)

def decErrp (r : Raw) : Dec Instr := do
  sub0 r
  len64or128 r
  mzero r 2 6
  need (bits r.m 0 2 != 3) .illegalModifier
  noNw r
  match bits r.m 0 2 with
  | 0 => do
    let n ← trapNum r r.a
    let w0 ← sreg r.b
    let w1 ← sreg r.c
    need (r.ext == 0) .reservedField
    noD r
    .ok (.errpPost ⟨r.guard, n, w0, w1, r.len == 4⟩)
  | 1 => do
    let d ← sregOpt r.d
    let a ← sreg r.a
    unused r.b
    unused r.c
    need (r.ext == 0) .reservedField
    .ok (.errpVec ⟨r.guard, d, .s a, r.len == 4⟩)
  | _ => do
    let d ← sregOpt r.d
    let a ← sOrInt r r.a
    unused r.b
    unused r.c
    need (r.ext == 0) .reservedField
    .ok (.errpMask ⟨r.guard, d, a, r.len == 4⟩)

def decCsrr (r : Raw) : Dec CsrrI := do
  sub0 r
  len64 r
  noNw r
  let d ← dst r
  need (match d with
    | .v x => !srIs64 r.m || x.val % 2 == 0
    | _ => true) .illegalOperand
  unused r.a
  unused r.b
  unused r.c
  .ok ⟨r.guard, d, BitVec.ofNat 8 r.m⟩

def decCsrw (r : Raw) : Dec CsrwI := do
  sub0 r
  len96 r
  noNw r
  let a ← srcCode r r.a
  need (match a with
    | .s _ | .int _ | .lit _ | .win _ _ => true
    | _ => false) .illegalOperand
  unused r.b
  unused r.c
  res96 r [r.a]
  noD r
  .ok ⟨r.guard, BitVec.ofNat 8 r.m, a⟩

def decTrap (r : Raw) : Dec Instr := do
  need (decide (r.sub < 2)) .undefinedMinor
  len64 r
  if r.sub = 1 then do
    let p ← decPlain r
    .ok (.tret p)
  else do
    mzero r 0 8
    noNw r
    let n ← trapNum r r.a
    unused r.b
    unused r.c
    noD r
    .ok (.trap ⟨r.guard, n⟩)

def decMigr (r : Raw) : Dec Instr := do
  need (decide (r.sub < 2)) .undefinedMinor
  len64 r
  if r.sub = 1 then do
    let p ← decPlain r
    .ok (.migrHome p)
  else do
    mzero r 0 8
    noNw r
    let a ← sreg r.a
    unused r.b
    unused r.c
    noD r
    .ok (.migr ⟨r.guard, a⟩)

/-- tlbi (R350). MV outside .va decodes: it raises "illegal context" when the instruction issues (log 10). -/
def decTlbi (r : Raw) : Dec Instr := do
  need (decide (r.sub < 3)) .undefinedMinor
  len64 r
  mzero r 1 7
  noNw r
  match r.sub with
  | 0 => do
    let c ← sreg r.a
    let v ← sreg r.b
    unused r.c
    noD r
    .ok (.tlbiVa ⟨r.guard, c, v, r.mbit 0⟩)
  | 1 => do
    let c ← sreg r.a
    unused r.b
    unused r.c
    noD r
    .ok (.tlbiCtx ⟨r.guard, c, r.mbit 0⟩)
  | _ => do
    unused r.a
    unused r.b
    unused r.c
    noD r
    .ok (.tlbiAll ⟨r.guard, r.mbit 0⟩)

def decCtxop (r : Raw) : Dec Instr := do
  need (decide (r.sub < 2)) .undefinedMinor
  len64 r
  mzero r 0 8
  noNw r
  let c ← sreg r.a
  if r.sub = 0 then do
    let b ← sreg r.b
    unused r.c
    noD r
    .ok (.ctxopRoot ⟨r.guard, c, b⟩)
  else do
    unused r.b
    unused r.c
    noD r
    .ok (.ctxopDrain ⟨r.guard, c⟩)

/-! ### The map of the majors (R45) -/

/-- Decode the fields of an instruction of a legal length code: the opcode map (R45), then the major's checks. -/
def decodeRaw (r : Raw) : Dec Instr :=
  match r.op with
  | 0x01 => (decI2 r isAllSat).map .add
  | 0x02 => (decI2 r isAllSat).map .sub
  | 0x03 => (decCarry r).map .addc
  | 0x04 => (decCarry r).map .subb
  | 0x05 => (decI2 r isAllSat).map .mul
  | 0x06 => (sub0 r).bind fun _ => (decT2 r isWide res64 Ty.pos).map .mulhi
  | 0x07 => (decI3 r isAllSat).map .mad
  | 0x08 => (decT3 r isWide Ty.pos).map .madhi
  | 0x09 => (sub0 r).bind fun _ => (decT2 r { tyOk := Ty.is32 } (fun _ => true) Ty.pos).map .mulwd
  | 0x0A => (sub0 r).bind fun _ => (decT2 r isWide res64 Ty.pos).map .div
  | 0x0B => (sub0 r).bind fun _ => (decT2 r isWide res64 Ty.pos).map .rem
  | 0x0C => (decI1 r { tyOk := Ty.signed, satOk := fun _ => true }).map .abs
  | 0x0D => (decI1 r { tyOk := fun _ => true, satOk := Ty.signed }).map .neg
  | 0x0E => (sub0 r).bind fun _ => (decT2 r isAll res64 Ty.pos).map .min
  | 0x0F => (sub0 r).bind fun _ => (decT2 r isAll res64 Ty.pos).map .max
  | 0x10 => (sub0 r).bind fun _ => (decT2 r isWide res64 Ty.pos).map .and
  | 0x11 => (sub0 r).bind fun _ => (decT2 r isWide res64 Ty.pos).map .or
  | 0x12 => (sub0 r).bind fun _ => (decT2 r isWide res64 Ty.pos).map .xor
  | 0x13 => (decT1 r isWide res64).map .not
  | 0x14 => (sub0 r).bind fun _ => (decT2 r isWide res64 Ty.pos).map .andn
  | 0x15 => (decBfn r).map .bfn
  | 0x16 => (sub0 r).bind fun _ => (decT2 r isWide0 res64 (fun _ => .i32)).map .shl
  | 0x17 => (need (decide (r.sub < 2)) .undefinedMinor).bind fun _ =>
      (decT2 r isWide0 res64 (fun _ => .i32)).map (if r.sub = 0 then .shr else .shrA)
  | 0x18 => (sub0 r).bind fun _ => (decT2 r isWide0 res64 (fun _ => .i32)).map .rot
  | 0x19 => (decShf r).map .shf
  | 0x1A => (sub0 r).bind fun _ => (decT2 r isWide0 res64 (fun _ => .i32)).map .bfx
  | 0x1B => (decT3 r isWide0 (fun _ => .i32)).map .bfi
  | 0x1C => (decT1 r isWide (fun _ => false)).map .popc
  | 0x1D => (decT1 r isWide (fun _ => false)).map .clz
  | 0x1E => (decT1 r isWide (fun _ => false)).map .ctz
  | 0x1F => (decT1 r isWide res64).map .brev
  | 0x20 => (decBsel r).map .bsel
  | 0x21 => (decSetp r).map .setp
  | 0x22 => (decSel r).map .sel
  | 0x23 => (decPfn r).map .pfn
  | 0x24 => (decT1 r isWide0 res64).map .mov
  | 0x25 => decMovp r
  | 0x26 => decSethi r
  | 0x27 => (decLea r).map .lea
  | 0x28 => (decDot r false true).map .idot4
  | 0x29 => (decDot r true true).map .idot2
  | 0x2A => (decDot r false false).map .tacc
  | 0x2B => (decT3 r { tyOk := fun t => t.width != 64 } Ty.pos).map .sad
  | 0x2C => (decI3 r isAllSat).map .add3
  | 0x2D => (decT3 r isAll Ty.pos).map .clamp
  | 0x40 => (decF2 r fsAll FT.pos).map .fadd
  | 0x41 => (decF2 r fsAll FT.pos).map .fsub
  | 0x42 => (decF2 r fsAll FT.pos).map .fmul
  | 0x43 => (decF3 r fsFma FT.pos).map .fma
  | 0x44 => (decF2 r fsMin FT.pos).map .fmin
  | 0x45 => (decF2 r fsMin FT.pos).map .fmax
  | 0x46 => (decFsetp r).map .fsetp
  | 0x47 => (decFclass r).map .fclass
  | 0x48 => (decF2 r fsAll FT.pos).map .fdiv
  | 0x49 => (decF1 r fsAll).map .fsqrt
  | 0x4A => (decF1 r fsAll).map .frcp
  | 0x4B => (decF1 r fsRn).map .frsq
  | 0x4C => (decF1 r fsRn).map .fex2
  | 0x4D => (decF1 r fsRn).map .flg2
  | 0x4E => (decF1 r fsRn).map .fsin
  | 0x4F => (decF1 r fsRn).map .fcos
  | 0x50 => (decF1 r fsRn).map .ftanh
  | 0x51 => (decF1 r fsRnd).map .frnd
  | 0x52 => (decF2 r fsAll (fun _ => .i32)).map .fscale
  | 0x53 => (decF1 r fsExpo).map .fexpo
  | 0x54 => (decF1 r fsRn).map .fmant
  | 0x55 => (decF3 r fsDot (fun _ => .f32)).map .fdot2
  | 0x56 => (decF3 r fsMin FT.pos).map .fclamp
  | 0x70 => (decX2 r).map .faddE
  | 0x71 => (decX2 r).map .fmulE
  | 0x72 => (decX3 r).map .fmaE
  | 0x73 => (decXren r).map .xren
  | 0x74 => (decXcmpr r).map .xcmpr
  | 0x75 => (decXcmp r).map .xcmp
  | 0x76 => (decXadd r).map .xadd
  | 0x77 => (decXmul r).map .xmulW
  | 0x80 => (decCvt r).map .cvt
  | 0x81 => (decCvtN r).map .cvtN
  | 0x82 => (decCvtSr r).map .cvtSr
  | 0x83 => decCvtBlk r
  | 0x84 => (decCvtX2 r).map .cvtX2
  | 0x85 => (decUnpk r).map .unpkT3
  | 0x86 => (decPack r).map .pack
  | 0x87 => (decUnpack r).map .unpack
  | 0x90 => (decXlane r).map .xlane
  | 0x91 => (decNbr r).map .nbr
  | 0x92 => (decLvote r).map .lvote
  | 0x93 => (decMpopc r).map .mpopc
  | 0x94 => (decLmatch r).map .lmatch
  | 0x95 => (decStc r).map .stc
  | 0xA0 => (decLoad r true true true true false).map .ld
  | 0xA1 => (decStore r true true true false).map .st
  | 0xA2 => (decLoad r false true false true false).map .lds
  | 0xA3 => (decStore r false true false false).map .sts
  | 0xA4 => (decLoad r false true false true false).map .ldgs
  | 0xA5 => (decStore r false true false false).map .stgs
  | 0xA6 => (decLdk r).map .ldk
  | 0xA7 => (decLoad r false false true false true).map .ldl
  | 0xA8 => (decStore r false false true true).map .stl
  | 0xA9 => (decPref r).map .pref
  | 0xAA => (decBankcfg r).map .bankcfg
  | 0xAB => (decAtom r true).map .atom
  | 0xAC => (decRed r true).map .red
  | 0xAD => (decAtom r false).map .atoms
  | 0xAE => (decRed r false).map .reds
  | 0xAF => (decCas r true).map .cas
  | 0xB0 => (decCatom r).map .catom
  | 0xB1 => decFifo r
  | 0xB2 => (decCas r false).map .cass
  | 0xC0 => (decFence r).map .fence
  | 0xC1 => decBar r
  | 0xC2 => (decWaitc r).map .waitc
  | 0xC3 => (decSignal r).map .signal
  | 0xC4 => (decWaitsb r).map .waitsb
  | 0xC5 => (decPause r).map .pause
  | 0xD0 => (decBra r).map .bra
  | 0xD1 => (decJump r).map .brx
  | 0xD2 => (decCall r).map .call
  | 0xD3 => (decCallx r).map .callx
  | 0xD4 => (decJump r).map .ret
  | 0xD5 => (ctlHead r).bind fun _ => (decPlain r).map .exit
  | 0xD6 => (decJopen r).map .jopen
  | 0xD7 => (decJset r).map .jenter
  | 0xD8 => (decJset r).map .jquit
  | 0xD9 => (decJset r).map .jwait
  | 0xDA => (decJset r).map .jfree
  | 0xDB => (decJmem r).map .jsave
  | 0xDC => (decJmem r).map .jload
  | 0xE0 => decMma r
  | 0xE1 => decAcc r
  | 0xE8 => decCpy r
  | 0xE9 => (decImp r).map .impStart
  | 0xF0 => decRgn r
  | 0xF1 => decErrp r
  | 0xF8 => (decCsrr r).map .csrr
  | 0xF9 => (decCsrw r).map .csrw
  | 0xFA => decTrap r
  | 0xFB => decMigr r
  | 0xFC => (ctlHead r).bind fun _ => (decPlain r).map .nop
  | 0xFD => decTlbi r
  | 0xFE => decCtxop r
  | _ => .error .undefinedOpcode

/-- Decode an instruction given as one number, bit 0 the least significant bit of its first word (R26, R48): LEN 0b11
is judged before the opcode; the quad is no instruction and is stepped over by the fetch (R27). -/
def decodeNat (x : Nat) : Dec Instr :=
  if lenWords x = 1 then .error .illegalLength else decodeRaw (Raw.ofNat x)

/-- The number that little-endian bytes hold. -/
def leNat : List Byte → Nat
  | [] => 0
  | b :: t => b.toNat + 256 * leNat t

/-- The first n bytes of a number, little-endian. -/
def leBytes (x : Nat) : Nat → List Byte
  | 0 => []
  | n + 1 => BitVec.ofNat 8 x :: leBytes (x / 256) n

/-- Decode the bytes of an instruction, the first at the lowest address (R26). -/
def decodeBytes (l : List Byte) : Dec Instr := decodeNat (leNat l)

/-- The quad (R27). -/
def isQuad (w0 : Nat) : Bool := w0 % 2 ^ 32 == 3

/-! ### The encoder -/

def Src.code : Src → Nat
  | .v r => r.val
  | .s r => 256 + r.val
  | .b k => 320 + k.val
  | .int c => 384 + c.val
  | .flt c => 432 + c.val
  | .lit _ => 448
  | .win _ _ => 449

/-- The third word of a 96-bit form (R35). -/
def Src.extWord : Src → Nat
  | .lit w => w.toNat
  | .win k off => off.toNat + 2 ^ 17 * k.val
  | _ => 0

def Dst.code : Dst → Nat
  | .v r => r.val
  | .s r => 256 + r.val
  | .b0 => 320

def Dst.nwBit : Dst → Nat
  | .b0 => 1
  | _ => 0

def ABase.code : ABase → Nat
  | .v r => r.val
  | .s r => 256 + r.val
  | .zero => 400

def sregCode (r : Fin 64) : Nat := 256 + r.val

def optSregCode : Option (Fin 64) → Nat
  | none => 0
  | some r => 256 + r.val

def optIndex {n : Nat} : Option (Fin n) → Nat
  | none => 0
  | some r => r.val

/-- The fields of a form without an extension word in view: 64 bits. -/
def enc64 (op : Nat) (g : Guard) (sub m d a b c : Nat) : Raw where
  len := 2
  op := op
  g := g.p.val
  gn := g.neg.toNat
  nw := 0
  d := d
  a := a
  b := b
  c := c
  sub := sub
  m := m
  ext := 0

/-- A 128-bit form. -/
def enc128 (op : Nat) (g : Guard) (sub m d a b c ext : Nat) : Raw :=
  { enc64 op g sub m d a b c with len := 4, ext := ext }

/-- A form of 64 or 128 bits. -/
def encLong (long : Bool) (op : Nat) (g : Guard) (sub m d a b c ext : Nat) : Raw :=
  if long then enc128 op g sub m d a b c ext else enc64 op g sub m d a b c

/-- Give a form the third word that one of its sources needs (R39). -/
def Raw.withSrcs (r : Raw) (l : List Src) : Raw :=
  match l.find? Src.isExt with
  | some x => { r with len := 3, ext := x.extWord }
  | none => r

/-- Give a form its destination, with NW. -/
def Raw.withDst (r : Raw) (d : Dst) : Raw := { r with d := d.code, nw := d.nwBit }

def enc1 (op sub m : Nat) (g : Guard) (d : Dst) (a : Src) : Raw :=
  ((enc64 op g sub m 0 a.code 0 0).withDst d).withSrcs [a]
def enc2 (op sub m : Nat) (g : Guard) (d : Dst) (a b : Src) (c : Nat) : Raw :=
  ((enc64 op g sub m 0 a.code b.code c).withDst d).withSrcs [a, b]
def enc3 (op sub m : Nat) (g : Guard) (d : Dst) (a b c : Src) : Raw :=
  ((enc64 op g sub m 0 a.code b.code c.code).withDst d).withSrcs [a, b, c]

def IntM.byte (m : IntM) : Nat := m.ty.code + 8 * m.sat.toNat
def DotM.byte (m : DotM) : Nat := 8 * m.sat.toNat + 16 * m.hi.toNat + 32 * m.ua.toNat + 64 * m.ub.toNat
def FM.byte (m : FM) : Nat := m.ft.code + 8 * m.rm.code + 32 * m.f5.toNat + 64 * m.f6.toNat

def encI1 (op : Nat) (i : Op1 IntM) : Raw := enc1 op 0 i.m.byte i.g i.d i.a
def encI2 (op : Nat) (i : Op2 IntM) : Raw := enc2 op 0 i.m.byte i.g i.d i.a i.b 0
def encI3 (op : Nat) (i : Op3 IntM) : Raw := enc3 op 0 i.m.byte i.g i.d i.a i.b i.c
def encT1 (op : Nat) (i : Op1 Ty) : Raw := enc1 op 0 i.m.code i.g i.d i.a
def encT2 (op sub : Nat) (i : Op2 Ty) : Raw := enc2 op sub i.m.code i.g i.d i.a i.b 0
def encT3 (op : Nat) (i : Op3 Ty) : Raw := enc3 op 0 i.m.code i.g i.d i.a i.b i.c
def encDot (op : Nat) (i : Op3 DotM) : Raw := enc3 op 0 i.m.byte i.g i.d i.a i.b i.c
def encF1 (op : Nat) (i : Op1 FM) : Raw := enc1 op 0 i.m.byte i.g i.d i.a
def encF2 (op : Nat) (i : Op2 FM) : Raw := enc2 op 0 i.m.byte i.g i.d i.a i.b 0
def encF3 (op : Nat) (i : Op3 FM) : Raw := enc3 op 0 i.m.byte i.g i.d i.a i.b i.c
def encCarry (op : Nat) (i : CarryI) : Raw := enc2 op 0 (i.ty.code + 16 * i.ci.toNat) i.g i.d i.a i.b i.pc.val

/-- The extension of a memory form (R206). -/
def Ext.word (x : Ext) : Nat :=
  (x.off % 2 ^ 24).toNat + 2 ^ 24 * x.sbc.val + 2 ^ 27 * x.scope.code + 2 ^ 30 * x.cp.val

/-- A memory form: off12 in [53:42] of the 64-bit form (R32, R205). -/
def encMem (op sub2 : Nat) (g : Guard) (m d a b : Nat) (x : Ext) : Raw :=
  if x.long then enc128 op g (8 * sub2) m d a b 0 x.word
  else
    let o := (x.off % 4096).toNat
    enc64 op g (o / 512 + 8 * sub2) m d a b (o % 512)

def encLoad (op : Nat) (i : LoadI) : Raw :=
  encMem op 0 i.g (i.w.code + 8 * i.sc.val + 32 * i.ip.toNat + 64 * i.ord.loadCode) i.d.code i.base.code i.idx.code i.x
def encStore (op : Nat) (i : StoreI) : Raw :=
  encMem op 0 i.g (i.w.code + 8 * i.sc.val + 32 * i.ip.toNat + 64 * i.ord.storeCode) i.data.code i.base.code i.idx.code
    i.x
def encAtom (op : Nat) (i : AtomI) : Raw :=
  encMem op 0 i.g (i.op.code + 16 * i.ord.code) i.d.code i.base.code i.idx.code i.x
def encRed (op : Nat) (i : RedI) : Raw :=
  encMem op 0 i.g (i.op.code + 16 * i.ord.code) i.data.code i.base.code i.idx.code i.x
def encCas (op : Nat) (i : CasI) : Raw :=
  encMem op 0 i.g (i.w64.toNat + 16 * i.ord.code) i.d.val i.base.code i.idx.code i.x

/-- off24 at [47:24] (R32). -/
def enc24 (op : Nat) (g : Guard) (d : Nat) (off : BitVec 24) : Raw :=
  enc64 op g 0 0 d (bits off.toNat 0 9) (bits off.toNat 9 9) (bits off.toNat 18 6)

def encSethi (sub : Nat) (i : SethiI) : Raw :=
  enc64 0x26 i.g sub 0 (sregCode i.sd) (bits i.imm.toNat 0 9) (bits i.imm.toNat 9 9) (bits i.imm.toNat 18 2)

def encMma (sub res : Nat) (i : MmaI) : Raw :=
  enc128 0xE0 i.g sub (i.af.code + 8 * i.bf.code + 64 * i.scale.isSome.toNat + 128 * i.ck.toNat) i.d.val
    (sregCode i.sa) (sregCode i.sb) res
    ((match i.scale with
      | none => 0
      | some (x, y) => sregCode x + 2 ^ 9 * sregCode y) + 2 ^ 18 * optSregCode i.tk)

def accWord (ft : AF) (mode : RM) (ovf : Bool) (sum : Option (Fin 8)) : Nat :=
  ft.code + 8 * mode.code + 32 * ovf.toNat + 64 * sum.isSome.toNat

def encCpy (sub rop c ctr : Nat) (i : CpyI) : Raw :=
  enc128 0xE8 i.g sub (i.scope.code + 8 * rop + 64 * (match i.bar with
      | some (_, true) => 1
      | _ => 0)) (sregCode i.dst) (sregCode i.src) (optSregCode (i.bar.map Prod.fst)) c
    (optSregCode i.tk + 2 ^ 9 * optSregCode i.cr + 2 ^ 18 * ctr)

def tileCode : Option (Fin 8) → Nat
  | none => 0
  | some t => 8 + t.val

def barByte (scratch : Bool) (scope : Scope) : Nat := scratch.toNat + 2 * scope.code

/-- The fields of an instruction of the stream; a step of another agent has none. -/
def Instr.toRaw : Instr → Option Raw
  | .add i => some (encI2 0x01 i)
  | .sub i => some (encI2 0x02 i)
  | .addc i => some (encCarry 0x03 i)
  | .subb i => some (encCarry 0x04 i)
  | .mul i => some (encI2 0x05 i)
  | .mulhi i => some (encT2 0x06 0 i)
  | .mad i => some (encI3 0x07 i)
  | .madhi i => some (encT3 0x08 i)
  | .mulwd i => some (encT2 0x09 0 i)
  | .div i => some (encT2 0x0A 0 i)
  | .rem i => some (encT2 0x0B 0 i)
  | .abs i => some (encI1 0x0C i)
  | .neg i => some (encI1 0x0D i)
  | .min i => some (encT2 0x0E 0 i)
  | .max i => some (encT2 0x0F 0 i)
  | .and i => some (encT2 0x10 0 i)
  | .or i => some (encT2 0x11 0 i)
  | .xor i => some (encT2 0x12 0 i)
  | .not i => some (encT1 0x13 i)
  | .andn i => some (encT2 0x14 0 i)
  | .bfn i => some (enc3 0x15 0 i.m.toNat i.g i.d i.a i.b i.c)
  | .shl i => some (encT2 0x16 0 i)
  | .shr i => some (encT2 0x17 0 i)
  | .shrA i => some (encT2 0x17 1 i)
  | .rot i => some (encT2 0x18 0 i)
  | .shf i => some (enc3 0x19 0 (i.m.ty.code + 16 * i.m.l.toNat) i.g i.d i.a i.b i.c)
  | .bfx i => some (encT2 0x1A 0 i)
  | .bfi i => some (encT3 0x1B i)
  | .popc i => some (encT1 0x1C i)
  | .clz i => some (encT1 0x1D i)
  | .ctz i => some (encT1 0x1E i)
  | .brev i => some (encT1 0x1F i)
  | .bsel i => some (enc3 0x20 0 0 i.g i.d i.a i.b i.c)
  | .setp i => some ((enc64 0x21 i.g i.cc.code (i.ty.code + 32 * i.comb.code) i.pd.val i.a.code i.b.code
      i.pc.val).withSrcs [i.a, i.b])
  | .sel i => some (enc2 0x22 0 i.ty.code i.g i.d i.a i.b i.pc.val)
  | .pfn i => some (enc64 0x23 i.g 0 i.lut.toNat i.pd.val i.pa.val i.pb.val i.pc.val)
  | .mov i => some (encT1 0x24 i)
  | .movp i => some ((enc64 0x25 i.g 0 0 0 i.pa.val 0 0).withDst i.d)
  | .movpTo i => some ((enc64 0x25 i.g 0 16 i.pd.val i.a.code 0 0).withSrcs [i.a])
  | .sethi20 i => some (encSethi 0 i)
  | .sethi20Pc i => some (encSethi 1 i)
  | .lea i => some (enc3 0x27 0 (i.m.n32.toNat + 16 * i.m.sh.val) i.g i.d i.a i.b i.c)
  | .idot4 i => some (encDot 0x28 i)
  | .idot2 i => some (encDot 0x29 i)
  | .tacc i => some (encDot 0x2A i)
  | .sad i => some (encT3 0x2B i)
  | .add3 i => some (encI3 0x2C i)
  | .clamp i => some (encT3 0x2D i)
  | .fadd i => some (encF2 0x40 i)
  | .fsub i => some (encF2 0x41 i)
  | .fmul i => some (encF2 0x42 i)
  | .fma i => some (encF3 0x43 i)
  | .fmin i => some (encF2 0x44 i)
  | .fmax i => some (encF2 0x45 i)
  | .fsetp i => some ((enc64 0x46 i.g i.cc.code (i.ft.code + 32 * i.comb.code) i.pd.val i.a.code i.b.code
      i.pc.val).withSrcs [i.a, i.b])
  | .fclass i => some ((enc64 0x47 i.g 0 i.ft.code i.pd.val i.a.code i.mask.code 0).withSrcs [i.a, i.mask])
  | .fdiv i => some (encF2 0x48 i)
  | .fsqrt i => some (encF1 0x49 i)
  | .frcp i => some (encF1 0x4A i)
  | .frsq i => some (encF1 0x4B i)
  | .fex2 i => some (encF1 0x4C i)
  | .flg2 i => some (encF1 0x4D i)
  | .fsin i => some (encF1 0x4E i)
  | .fcos i => some (encF1 0x4F i)
  | .ftanh i => some (encF1 0x50 i)
  | .frnd i => some (encF1 0x51 i)
  | .fscale i => some (encF2 0x52 i)
  | .fexpo i => some (encF1 0x53 i)
  | .fmant i => some (encF1 0x54 i)
  | .fdot2 i => some (encF3 0x55 i)
  | .fclamp i => some (encF3 0x56 i)
  | .faddE i => some (enc2 0x70 0 i.m.code i.g i.d i.a i.b 0)
  | .fmulE i => some (enc2 0x71 0 i.m.code i.g i.d i.a i.b 0)
  | .fmaE i => some (enc3 0x72 0 i.m.code i.g i.d i.a i.b i.c)
  | .xren i => some (enc64 0x73 i.g 0 (i.t.code + 4 * i.na.val) i.d.val i.a.val 0 0)
  | .xcmpr i => some (enc64 0x74 i.g 0 (i.t.code + 4 * i.na.val + 16 * i.nd.val + 64 * i.rm.code) i.d.val i.a.val 0 0)
  | .xcmp i => some (enc64 0x75 i.g 0 (i.t.code + 4 * i.na.val + 16 * i.cc.code) i.pd.val i.a.val i.b.val 0)
  | .xadd i => some ((enc64 0x76 i.g 0 (i.t.code + 4 * i.na.val + 16 * i.nb.val) i.d.val i.a.val i.b.code 0).withSrcs
      [i.b])
  | .xmulW i => some ((enc64 0x77 i.g 0 (i.t.code + 4 * i.na.val) i.d.val i.a.val i.b.code 0).withSrcs [i.b])
  | .cvt i => some (((enc64 0x80 i.g 0 (i.m.dt.code + 16 * i.m.st.code) 0 i.a.code 0
      (i.m.rm.code + 4 * i.m.sat.toNat)).withDst i.d).withSrcs [i.a])
  | .cvtN i => some (match i.dir with
      | .narrow b mode ovf hi => enc2 0x81 0
          (2 * i.e5m2.toNat + 4 * i.wf.code + 16 * mode.code + 64 * ovf.toNat + 128 * hi.toNat) i.g i.d i.a b 0
      | .widen e => enc1 0x81 0 (1 + 2 * i.e5m2.toNat + 4 * i.wf.code + 16 * e.val) i.g i.d i.a)
  | .cvtSr i => some (match i.dest with
      | .f16 => ((enc64 0x82 i.g 0 0 0 i.a.code 0 i.c.code).withDst i.d).withSrcs [i.a, i.c]
      | .bf16 => ((enc64 0x82 i.g 0 1 0 i.a.code 0 i.c.code).withDst i.d).withSrcs [i.a, i.c]
      | .byte e5m2 b ovf hi => enc3 0x82 0 (2 + e5m2.toNat + 4 * ovf.toNat + 8 * hi.toNat) i.g i.d i.a b i.c)
  | .cvtBlkDecode i => some (enc64 0x83 i.g 0 (1 + 2 * i.nf.code + 8 * i.sel.val) i.d.val i.a.code i.sc.val 0)
  | .cvtBlkEncode i => some ((enc64 0x83 i.g 0
      (2 * i.nf.code + 8 * i.sel.val + 32 * i.auto.toNat + 64 * i.ovf.toNat) 0 i.a.val i.sc.val i.rm.code).withDst i.d)
  | .cvtX2 i => some (match i with
      | .toX2 g d a => (enc64 0x84 g 0 0 d.val a.code 0 0).withSrcs [a]
      | .toF64 g d a mode => enc64 0x84 g 0 (1 + 2 * mode.code) d.val a.val 0 0)
  | .unpkT3 i => some (enc64 0x85 i.g 0 (match i.pd with
      | none => 0
      | some p => 8 + p.val) i.d.val i.a.code 0 0)
  | .pack i => some (enc2 0x86 0 (match i.m with
      | .f16x2 mode => 8 * mode.code
      | .bf16x2 mode => 1 + 8 * mode.code
      | .i16x2 sat => 2 + 32 * sat.toNat
      | .n16x2 sat => 3 + 32 * sat.toNat
      | .i8 sat hi => 4 + 32 * sat.toNat + 64 * hi.toNat
      | .n8 sat hi => 5 + 32 * sat.toNat + 64 * hi.toNat) i.g i.d i.a i.b 0)
  | .unpack i => some (enc1 0x87 0 (match i.m with
      | .f16 e => 8 * e.val
      | .bf16 e => 1 + 8 * e.val
      | .i16 e => 2 + 8 * e.val
      | .n16 e => 3 + 8 * e.val
      | .i8 e => 4 + 8 * e.val
      | .n8 e => 5 + 8 * e.val) i.g i.d i.a)
  | .xlane i => some ((enc64 0x90 i.g i.mode.code (i.seg.val + 8 * i.pd.isSome.toNat) i.d.val i.a.val i.b.code
      (optIndex i.pd)).withSrcs [i.b])
  | .nbr i => some ((enc64 0x91 i.g 0 (i.above.toNat + 8 * i.pd.isSome.toNat) i.d.val i.a.val i.n.code
      (optIndex i.pd)).withSrcs [i.n])
  | .lvote i => some (match i.op with
      | .and p => enc64 0x92 i.g 0 i.na.toNat p.val i.pa.val 0 0
      | .or p => enc64 0x92 i.g 1 i.na.toNat p.val i.pa.val 0 0
      | .same p => enc64 0x92 i.g 2 i.na.toNat p.val i.pa.val 0 0
      | .xor p => enc64 0x92 i.g 4 i.na.toNat p.val i.pa.val 0 0
      | .maskV d => enc64 0x92 i.g 3 i.na.toNat d.val i.pa.val 0 0
      | .maskS d => enc64 0x92 i.g 3 i.na.toNat (sregCode d) i.pa.val 0 0)
  | .mpopc i => some (enc64 0x93 i.g 0 (i.mode.code + 4 * i.na.toNat) i.d.code i.pa.val 0 0)
  | .lmatch i => some (match i.mode with
      | .grp => enc64 0x94 i.g 0 i.w64.toNat i.d.val i.a.val 0 0
      | .uni pd => enc64 0x94 i.g 1 (i.w64.toNat + 8 * pd.isSome.toNat) i.d.val i.a.val 0 (optIndex pd)
      | .lead => enc64 0x94 i.g 2 i.w64.toNat i.d.val i.a.val 0 0)
  | .stc i => some (encLong i.x.long 0x95 i.g 0 (i.w.code + 8 * i.ri.isSome.toNat) (optIndex i.ri) (sregCode i.q)
      (sregCode i.base) i.data.code i.x.word)
  | .ld i => some (encLoad 0xA0 i)
  | .st i => some (encStore 0xA1 i)
  | .lds i => some (encLoad 0xA2 i)
  | .sts i => some (encStore 0xA3 i)
  | .ldgs i => some (encLoad 0xA4 i)
  | .stgs i => some (encStore 0xA5 i)
  | .ldk i => some (encMem 0xA6 0 i.g (i.w.code + 8 * i.sc.val) i.d.code i.win.val i.idx.code i.x)
  | .ldl i => some (encLoad 0xA7 i)
  | .stl i => some (encStore 0xA8 i)
  | .pref i => some (encMem 0xA9 0 i.g (i.llc.toNat + 8 * i.sc.val + 32 * i.ip.toNat) 0 i.base.code i.idx.code i.x)
  | .bankcfg i => some (encLong i.long 0xAA i.g 0 i.mode.code 0 i.first.code i.count.code 0 0)
  | .atom i => some (encAtom 0xAB i)
  | .red i => some (encRed 0xAC i)
  | .atoms i => some (encAtom 0xAD i)
  | .reds i => some (encRed 0xAE i)
  | .cas i => some (encCas 0xAF i)
  | .catom i => some (encMem 0xB0 0 i.g (i.pt.code + (match i.pd with
      | none => 0
      | some p => 4 + 8 * p.val) + 64 * i.ord.catomCode) i.d.val i.base.code i.delta.code i.x)
  | .fifoPush i => some (encLong i.long 0xB1 i.g 0 0 i.data.code i.bank.code 0 0 0)
  | .fifoPop i => some (encLong i.long 0xB1 i.g 8 0 i.d.val i.bank.code 0 0 0)
  | .cass i => some (encCas 0xB2 i)
  | .fence i => some (enc64 0xC0 i.g 0 (i.ord.code + 8 * i.scope.code) 0 0 0 0)
  | .barInit i => some (encLong i.long 0xC1 i.g 0 (barByte i.scratch i.scope) 0 (sregCode i.obj) i.count.code 0 0)
  | .barArrive i => some (encLong i.long 0xC1 i.g 1 (barByte i.scratch i.scope) 0 (sregCode i.obj) i.count.code
      i.bytes.code i.sbc.val)
  | .barWait i => some (encLong i.long 0xC1 i.g 2 (barByte i.scratch i.scope) 0 (sregCode i.obj) i.par.code 0 0)
  | .barTest i => some (encLong i.long 0xC1 i.g 3 (barByte i.scratch i.scope) i.pd.val (sregCode i.obj) i.par.code 0 0)
  | .waitc i => some (enc64 0xC2 i.g 0 i.scope.code 0 (sregCode i.ctr) i.value.code 0)
  | .signal i => some (encLong i.long 0xC3 i.g 0 i.scope.code 0 (sregCode i.ctr) i.value.code 0 i.sbc.val)
  | .waitsb i => some (enc64 0xC4 i.g 0 0 0 i.sb.val i.n.code 0)
  | .pause i => some (enc64 0xC5 i.g 0 0 0 0 i.n.code 0)
  | .bra i => some (enc24 0xD0 i.g 0 i.off)
  | .brx i => some (enc64 0xD1 i.g 0 0 0 i.target.code 0 0)
  | .call i => some (enc24 0xD2 i.g i.link.val i.off)
  | .callx i => some (enc64 0xD3 i.g 0 0 i.link.val i.target.code 0 0)
  | .ret i => some (enc64 0xD4 i.g 0 0 0 i.target.code 0 0)
  | .exit i => some (enc64 0xD5 i.g 0 0 0 0 0 0)
  | .jopen i => some (enc64 0xD6 i.g 0 i.mask.isSome.toNat i.j.val (match i.mask with
      | none => 0
      | some m => m.code) 0 0)
  | .jenter i => some (enc64 0xD7 i.g 0 0 i.j.val 0 0 0)
  | .jquit i => some (enc64 0xD8 i.g 0 0 i.j.val 0 0 0)
  | .jwait i => some (enc64 0xD9 i.g 0 0 i.j.val 0 0 0)
  | .jfree i => some (enc64 0xDA i.g 0 0 i.j.val 0 0 0)
  | .jsave i => some (enc64 0xDB i.g 0 0 i.j.val (sregCode i.base) i.slot.code 0)
  | .jload i => some (enc64 0xDC i.g 0 0 i.j.val (sregCode i.base) i.slot.code 0)
  | .mma i => some (encMma 0 0 i)
  | .mmaRes i => some (encMma 1 i.r.val i.m)
  | .accZero i => some (enc128 0xE1 i.g 0 0 i.d.val 0 0 0 0)
  | .accRd i => some (enc128 0xE1 i.g 1 (accWord i.ft i.rm i.ovf i.sum) i.d.val i.a.val 0 (optIndex i.sum)
      (i.rh.val + 2 * i.nr.val + 16 * i.col.val))
  | .accWr i => some (enc128 0xE1 i.g 2 i.ft.code i.d.val i.a.val 0 0 (i.rh.val + 2 * i.nr.val + 16 * i.col.val))
  | .accLd i => some (enc128 0xE1 i.g 3 i.ft.code i.d.val (sregCode i.lrec) 0 0 (2 ^ 18 * optSregCode i.tk))
  | .accSt i => some (enc128 0xE1 i.g 4 (accWord i.ft i.rm i.ovf i.sum) 0 i.a.val (sregCode i.lrec) (optIndex i.sum)
      i.sb.val)
  | .cpy i => some (encCpy 0 0 0 0 i)
  | .cpyRed i => some (encCpy 1 i.rop.code 0 0 i.c)
  | .cpySig i => some (encCpy 2 0 i.value.code (sregCode i.ctr) i.c)
  | .impStart i => some (enc128 0xE9 i.g 0 i.scope.code (sregCode i.desc) 0 0 0
      (optSregCode i.tk + 2 ^ 9 * optSregCode i.cr))
  | .rgnBegin i => some (enc128 0xF0 i.g 0 0 0 0 0 0 (i.loff.toNat + 2 ^ 24 * i.retry.val))
  | .rgnKeep i => some (enc128 0xF0 i.g 1 0 0 0 0 0 (i.vnum.val + 2 ^ 9 * i.vfirst.val + 2 ^ 17 * i.sfirst.val +
      2 ^ 23 * i.snum.val + 2 ^ 30 * i.pmask.toNat + 2 ^ 38 * i.jmask.toNat + 2 ^ 54 * tileCode i.tile0 +
      2 ^ 58 * tileCode i.tile1))
  | .rgnEnd i => some (enc64 0xF0 i.g 2 0 0 0 0 0)
  | .rgnAbort i => some (enc64 0xF0 i.g 3 0 0 i.n.code 0 0)
  | .rgnStatus i => some (enc64 0xF0 i.g 4 0 (sregCode i.d) 0 0 0)
  | .errpPost i => some (encLong i.long 0xF1 i.g 0 0 0 i.n.code (sregCode i.w0) (sregCode i.w1) 0)
  | .errpVec i => some (encLong i.long 0xF1 i.g 0 1 (optSregCode i.d) i.a.code 0 0 0)
  | .errpMask i => some (encLong i.long 0xF1 i.g 0 2 (optSregCode i.d) i.a.code 0 0 0)
  | .csrr i => some (enc64 0xF8 i.g 0 i.srn.toNat i.d.code 0 0 0)
  | .csrw i => some ((enc64 0xF9 i.g 0 i.srn.toNat 0 i.a.code 0 0).withSrcs [i.a])
  | .trap i => some (enc64 0xFA i.g 0 0 0 i.n.code 0 0)
  | .tret i => some (enc64 0xFA i.g 1 0 0 0 0 0)
  | .migr i => some (enc64 0xFB i.g 0 0 0 (sregCode i.a) 0 0)
  | .migrHome i => some (enc64 0xFB i.g 1 0 0 0 0 0)
  | .nop i => some (enc64 0xFC i.g 0 0 0 0 0 0)
  | .tlbiVa i => some (enc64 0xFD i.g 0 i.mv.toNat 0 (sregCode i.c) (sregCode i.v) 0)
  | .tlbiCtx i => some (enc64 0xFD i.g 1 i.mv.toNat 0 (sregCode i.c) 0 0)
  | .tlbiAll i => some (enc64 0xFD i.g 2 i.mv.toNat 0 0 0 0)
  | .ctxopRoot i => some (enc64 0xFE i.g 0 0 0 (sregCode i.c) (sregCode i.r) 0)
  | .ctxopDrain i => some (enc64 0xFE i.g 1 0 0 (sregCode i.c) 0 0)
  | _ => none

/-- The fields laid out as one number (R31). -/
def Raw.toNat (r : Raw) : Nat :=
  (r.len - 2) + 2 ^ 2 * r.op + 2 ^ 10 * r.g + 2 ^ 13 * r.gn + 2 ^ 14 * r.nw + 2 ^ 15 * r.d + 2 ^ 24 * r.a +
    2 ^ 33 * r.b + 2 ^ 42 * r.c + 2 ^ 51 * r.sub + 2 ^ 56 * r.m + 2 ^ 64 * r.ext

/-- The words of an instruction as one number. -/
def encode (i : Instr) : Option Nat := i.toRaw.map Raw.toNat

/-- The instruction the decoder reads from bits numbered as the opcode table numbers them. Every bit above the word's
own is zero. -/
def decodeTableWord (nbits w : Nat) : Option Instr :=
  match decodeNat (w % 2 ^ nbits) with
  | .ok i => some i
  | .error _ => none

end Sys2Proof
end

