-- ==== Sys2Proof/Config.lean ====
section
/-! DEFINITION. What the PQ-8 fixes (counts, limits, offered features) and the free values the spec leaves open. -/

namespace Sys2Proof.Config

/-- Sheets of the package (R5). -/
def sheets : Nat := 4
/-- Formes of the package: 128 per sheet (R5). -/
def formes : Nat := 512
/-- Formes of one sheet (R5). -/
def formesPerSheet : Nat := 128
/-- Quadrants of a forme (R5). -/
def quadsPerForme : Nat := 4
/-- General warp slots of a quadrant (R6). -/
def slotsPerQuad : Nat := 16
/-- The number of the landing slot (R6, R387). -/
def landingSlot : Nat := 16
/-- Vector registers of a quadrant that the general slots share (R7). -/
def generalVRegs : Nat := 1792
/-- Accumulator tiles of a quadrant (R6). -/
def tilesPerQuad : Nat := 8
/-- Spare tile slots of a quadrant (R6). -/
def spareTiles : Nat := 2
/-- SRAM banks of a forme (R5). -/
def banksPerForme : Nat := 32
/-- Bytes of one SRAM bank (R5). -/
def bankBytes : Nat := 16384
/-- Entries of one FIFO bank (R218). -/
def fifoEntries : Nat := 4096
/-- Feeders of a sheet (R5). -/
def feedersPerSheet : Nat := 4
/-- Ethernet ports of the package (R5). -/
def ports : Nat := 8
/-- Contexts the device holds (R333). -/
def contexts : Nat := 64
/-- Bytes of HBM4 one sheet serves: 144 GB (R340). -/
def sheetBytes : Nat := 144000000000
/-- Entries of a quadrant's L1 TLB and of a compute die's L2 TLB (R342). -/
def l1TlbEntries : Nat := 64
/-- See `l1TlbEntries`. -/
def l2TlbEntries : Nat := 8192
/-- Bytes of the pre-emption save region of a sheet: 280 MiB (R427). -/
def saveBytes : Nat := 293601280
/-- Entries of a warp's Platen queue (R144). -/
def platenQueue : Nat := 4
/-- Feeder commands in flight per warp (R239). -/
def feederInFlight : Nat := 8
/-- Instructions the replay queue holds (R378). -/
def replayMax : Nat := 16
/-- Galley entries of a warp (R396). -/
def galleyEntries : Nat := 128
/-- Deferred instructions of a warp (R398). -/
def deferredMax : Nat := 32
/-- The skid bound (R375). -/
def skidMax : Nat := 256
/-- Bytes of a Feeder chunk (R251). -/
def chunkBytes : Nat := 65536
/-- Registered RCBs of the device (R323). -/
def maxRcbs : Nat := 4096
/-- Queue pairs of a port (R431). -/
def qpsPerPort : Nat := 4096
/-- DEVICE_CLASS (R355). -/
def deviceClass : Nat := 0x0108
/-- FEATURE_OFFER: bits 0 to 11 (R355). -/
def featureOffer : Nat := 0xFFF
/-- Signatures of the attestation key (R429). -/
def lmsLeaves : Nat := 1048576
/-- Entries of one receiving fabric queue, and those reserved for VC0 (R331). -/
def fabricEntries : Nat := 256
/-- See `fabricEntries`. -/
def fabricReserved : Nat := 32
/-- The replay window of a fabric channel (R331). -/
def fabricWindow : Nat := 128

/-- FREE VALUE (log 9): the syndrome word of a reliability error's record (R387 W0), by record number. -/
opaque syndrome : Nat → DWord
/-- FREE VALUE (log 9): the physical location word of a reliability error's record (R387 W1), by record number. -/
opaque physLocation : Nat → DWord
/-- FREE VALUE (log 53): the fused root key of firmware signatures (R429): 16 bytes of identifier, 32 of root. -/
opaque rootKey : Nat → Byte
/-- FREE VALUE (log 53): the hash of the image that slot 0 holds when the device leaves the factory (R427, R430). -/
opaque factoryHash : Nat → Byte
/-- FREE VALUE (log 53): the attestation key (R429): its identifier; the start of a chain of a leaf's one-time key, by leaf,
chain and byte; what a leaf's signature is randomised with; the nodes of its tree. -/
opaque lmsId : Nat → Byte
/-- See `lmsId`. -/
opaque lmsSecret : Nat → Nat → Nat → Byte
/-- See `lmsId`. -/
opaque lmsRandom : Nat → Nat → Byte
/-- See `lmsId`. -/
opaque lmsNode : Nat → Nat → Byte
/-- FREE VALUE (log 9): the device serial number DEVID of a quote (R430). -/
opaque devId : DWord
/-- FREE VALUE (log 9): the device address of the doorbell line that registration assigns to a queue (R314). -/
opaque doorbellAddress : Nat → DWord

/-- FREE VALUE (log 9): the TAG that the record of a packet whose header cannot be read carries (R323), by HEAD. -/
opaque unreadTag : Nat → DWord
/-- FREE VALUE (log 9): byte i of FWHASH and FWVER in a quote made in recovery mode, where no slot runs (R430). -/
opaque noFirmware : Nat → Byte
/-- FREE VALUE (log 52): where the firmware of a version puts the save region of a sheet (R427), in 64 KiB frames. -/
opaque saveFrame : DWord → Nat → Nat
/-- FREE VALUE (log 52): other back-off limits of the fabric, in ns, that the firmware of a version sets, if it does (R332, R427). -/
opaque backoff : DWord → Option (Nat × Nat)
/-- FREE VALUE (log 9): the remote key and the landing address that a credit names (R251), by command and step. -/
opaque creditKey : Nat → Nat → Nat
/-- See `creditKey`. -/
opaque creditLanding : Nat → Nat → DWord
/-- FREE VALUE (log 9): what a poisoned access returns (R373), by the number of the operation and the lane. -/
opaque poisonValue : Nat → Nat → Nat
/-- FREE VALUE (log 11): the kept bits of a word of which an instruction with destination b0 sets only some (R42, R135,
R140), by issue number and lane. -/
opaque nwKept : Nat → Nat → Word
/-- FREE VALUE (log 12): the word of a register that cvt.blk .auto writes both as its destination and as its scale
register (R139), by issue number and lane. -/
opaque autoClash : Nat → Nat → Word
/-- FREE VALUE (log 41): the lane of an operand of an instruction that acts once, by issue number. -/
opaque positionLane : Nat → Nat

end Sys2Proof.Config
end

