-- ==== Sys2Proof/Machine/State.lean ====
section
/-! DEFINITION. The state of the PQ-8: everything the spec gives the machine, as plain data. INVENTORY.md lists each
piece with its rule and its reset value. Numbers of parts follow R5; a warp slot is named by one number (`slotId`). -/

namespace Sys2Proof.Machine

/-- Why a step cannot happen: the only fault of the model. -/
inductive Fault where
  /-- Raised by the meaning of an internal step (a return, a write-back, a placement and the like) that cannot happen in
  the state at hand, and by a warp instruction for which no group has been chosen. Safe: the hardware makes no such step
  (log 1). -/
  | notEnabled
  deriving DecidableEq, Repr, Inhabited

/-- Why an instruction has no meaning here. -/
inductive Refusal where
  /-- Raised by an arm of `exec` whose instruction has no meaning yet. Safe. -/
  | notModelled (mnemonic : String)
  deriving DecidableEq, Repr, Inhabited

/-! ### Memory -/

/-- Where a byte lies: in HBM4 (key sheet·2^38 + PA, R340), or in the scratch of a block of a gang (R174). -/
inductive Place where
  | hbm (key : Nat)
  | scr (gang block off : Nat)
  deriving DecidableEq, Repr, Inhabited

/-- Bytes of HBM4 that a write replaced, from a key on (R20, R30). -/
structure Past where
  key : Nat
  old : List Byte
  deriving DecidableEq, Repr, Inhabited

/-- What a memory access in flight does when it is performed. -/
inductive OpKind where
  | load (d : Dst) (w : MW)
  | kload (d : Dst) (w : MW)
  | store
  | atom (op : AOp) (ret : Option Dst)
  | cas (w64 : Bool) (d : Fin 256)
  | catom (pt : PairT) (pd : Option (Fin 8))
  | arrive (count : Nat) (bytes : DWord)
  | signal
  | jload (j : Fin 16)
  | stc (ri : Option (Fin 256)) (w : MW) (base : DWord) (elems : List (Nat × Nat))
  | fence
  deriving DecidableEq, Repr, Inhabited

/-- One lane's part of an access. `data` is what a store writes or an atomic combines; `data2` the new value of a cas or
the residual of a catom; `fmask`, `fval` the bytes forwarded from the galley (R397); `loc` says who
may read the store before it is performed: 0 its warp, 1 its forme, 2 its sheet, and `seq` its place in their order, 0 while
none of them can (R196); `sent` that the part has entered the fabric (R331). -/
structure Piece where
  lane : Nat
  place : Place
  place2 : Place
  va : DWord
  va2 : DWord
  size : Nat
  data : Nat
  data2 : Nat
  fmask : Nat
  fval : Nat
  got : Option Nat
  done : Bool
  loc : Nat
  seq : Nat
  sent : Bool
  deriving DecidableEq, Repr, Inhabited

/-- A memory instruction issued and not finished (R18, R195, R236). `sbc` 0 names no counter; `uncached` that its page is
never held in an L1 (R215); `depth` is the number of region levels open at issue (R401). -/
structure MemOp where
  id : Nat
  kind : OpKind
  pieces : List Piece
  ord : Ord
  scope : Scope
  sbc : Nat
  cp : Nat
  uncached : Bool
  pc : DWord
  gseq : Nat
  lanes : Mask
  depth : Nat
  deriving DecidableEq, Repr, Inhabited

/-- A held table entry (R342): the TLB or walkers that hold it (a quadrant's L1 TLB by the quadrant's number, a compute die's
L2 TLB and walkers as 2,048 + die; 0 where none does), its level (0 for a leaf, else that of a pointer), context, first
virtual address, size and the entry. -/
structure TlbEntry where
  unit : Nat
  level : Nat
  ctx : Nat
  base : Nat
  size : Nat
  leaf : DWord
  deriving DecidableEq, Repr, Inhabited

/-! ### Warps -/

/-- A rejoin-set register (R15). -/
structure JSet where
  members : Mask
  arrived : Mask
  meet : DWord
  open_ : Bool
  deriving DecidableEq, Repr, Inhabited

/-- A layout record (R149). -/
structure LRec where
  base : DWord
  fmt : Nat
  space : Nat
  ext : List Nat
  str : List Int
  deriving DecidableEq, Repr, Inhabited

/-- What the checker holds of a column: P, D and M as dyadics (R157). -/
structure ColSum where
  p : Int × Int
  d : Int × Int
  m : Int × Int
  deriving DecidableEq, Repr, Inhabited

/-- An operation of a warp's Platen queue (R144, R155): the instruction, its checked records, the next step, the words
acc.wr captured, whether the operation is checked and its comparison skipped (R157, R158), the checker's
columns and the errors that strike the next group sum. -/
structure PlatOp where
  id : Nat
  instr : Instr
  act : Mask
  recs : List LRec
  src : SMap Word
  next : Nat
  chk : Bool
  skip : Bool
  sums : List ColSum
  hurt : List (Nat × Int × Int)
  pc : DWord
  gseq : Nat
  depth : Nat
  deriving DecidableEq, Repr, Inhabited

/-- An instruction of the replay queue (R378). -/
inductive Replay where
  | mem (op : MemOp)
  | plat (op : PlatOp)
  deriving DecidableEq, Repr, Inhabited

/-- The trap frame (R376), with the cause being handled and the handler group (R372). Instructions numbered below `gseq`
issued before the trap: what they still write goes to the saved registers (R236). -/
structure Frame where
  cause : Nat
  time : Nat
  gseq : Nat
  group : Mask
  trapping : Mask
  live : Mask
  pcs : SMap DWord
  s60 : DWord
  s61 : DWord
  p1 : Mask
  js : SMap JSet
  latch : SMap Word
  lvalid : BitVec 4
  lmask : Mask
  badL : List Nat
  ages : SMap Nat
  replay : List Replay
  deriving DecidableEq, Repr, Inhabited

/-- What holds a lane (R274). `ops` are operations by warp and number that a tlbi or stc waits for, `drained` those and the RDMA
operations that ctxop.drain waits for (R352); `fifoFailed` is a fifo instruction whose bank has left FIFO mode (R217), `proofEnd` an rgn.end that its proof warp has not
issued (R393). -/
inductive WaitKind where
  | jwait (j : Fin 16)
  | barWait (va : DWord) (scratch : Bool) (par : Bool) (scope : Scope) (act : Mask)
  | waitc (va : DWord) (value : Nat) (scope : Scope) (act : Mask)
  | waitsb (sb : Nat) (n : Nat)
  | fifoPush (bank : Nat) (words : List Word) (act : Mask)
  | fifoPop (bank : Nat) (d : Fin 256) (act : Mask)
  | fifoFailed (act : Mask)
  | pause (left : Nat)
  | drain (banks : List Nat) (mode : BankMode)
  | ops (ids : List (Nat × Nat))
  | proofEnd (act : Mask)
  | drained (ids : List (Nat × Nat)) (held : List Instr)
  | walk (va : DWord) (left : Nat)
  | migrating (sheet : Nat) (dep : Option Nat)
  deriving DecidableEq, Repr, Inhabited

/-- A group held by one instruction; `len` is its length in words. The lanes' PCs name the instruction until the wait
ends (R236). -/
structure Wait where
  lanes : Mask
  kind : WaitKind
  len : Nat
  gseq : Nat
  deriving DecidableEq, Repr, Inhabited

/-- The registers of a warp (R11) and the condition of its lanes: a leading warp has one, its proof warp another
(R405). `badL` are latch words with an uncorrectable error (R411). -/
structure Regs where
  v : SMap Word
  s : SMap DWord
  p : SMap Mask
  j : SMap JSet
  latch : SMap Word
  lvalid : BitVec 4
  lmask : Mask
  pc : SMap DWord
  live : Mask
  ages : SMap Nat
  gseq : DWord
  badL : List Nat
  bankconf : DWord
  fpflags : DWord
  vec : DWord
  tmask : BitVec 6
  frame : Option Frame
  deriving DecidableEq, Repr, Inhabited

/-- An error detected for an instruction of a warp, or queued for its handler (R373, R375, R377). `level` is the number
of region levels that were open when the instruction issued. -/
structure AsyncErr where
  cause : Nat
  pc : DWord
  gseq : Nat
  lanes : Mask
  laddr : DWord
  w0 : DWord
  w1 : DWord
  unit : Nat
  index : Nat
  level : Nat
  time : Nat
  soft : Bool
  deriving DecidableEq, Repr, Inhabited

/-- The registers that a multi-clock vector instruction will write (R93): writes of v, predicate writes, flags. -/
structure Result where
  vw : List (Nat × Word)
  sw : List (Nat × DWord)
  pd : Option (Fin 8)
  pm : Mask
  flags : BitVec 6
  act : Mask
  pc : DWord
  gseq : Nat
  proof : Bool
  deriving DecidableEq, Repr, Inhabited

/-- A held store of the galley (R397): the 64-byte block of global or gang-scratch memory, its bytes by offset, and the
order and scope of a strong store; `bad` are the offsets of its poisoned bytes (R374, R411). -/
structure Held where
  id : Nat
  gs : Bool
  block : Nat
  bytes : List (Nat × Byte)
  bad : List Nat
  strong : Option (Ord × Scope)
  deriving DecidableEq, Repr, Inhabited

/-! ### Feeders -/

/-- Who issued a Feeder command: a warp of a gang, or a queue with the packet's TAG, DONE and DVAL. -/
inductive Owner where
  | warp (slot gang : Nat)
  | queue (q : Nat) (work : Nat)
  deriving DecidableEq, Repr, Inhabited

/-- What a Feeder command does (R241). -/
inductive CmdKind where
  | copy
  | red (rop : Nat)
  | sig (ctr : DWord) (value : DWord)
  | imp
  deriving DecidableEq, Repr, Inhabited

/-- An imposition descriptor (R252). -/
structure Desc where
  prog : DWord
  nstep : Nat
  feeder : Nat
  tag : Nat
  rank : List Nat
  size : List Nat
  timeout : Nat
  peers : DWord
  feed : List Nat
  buf : List DWord
  bfmt : List Nat
  deriving DecidableEq, Repr, Inhabited

/-- A credit of a peer of level 1 (R251): the peer, its step and landing address, the first chunk wanted and how many. -/
structure Grant where
  peer : Nat
  step : Nat
  landing : DWord
  first : Nat
  count : Nat
  deriving DecidableEq, Repr, Inhabited

/-- An inbound step that a program has given a credit for: the step, its 32 bytes and the loop counters; its number (on its
channel at level 0); the chunks received, those below which are granted, and, at level 1, those received and not used. -/
structure InStep where
  step : Nat
  raw : Nat
  ctr : List Nat
  no : Nat
  recvd : List Nat
  upto : Nat
  stream : List (Nat × List (Nat × Bool))
  deriving DecidableEq, Repr, Inhabited

/-- The progress of an imposition program (R255, R256): the step and, once read, its 32 bytes; the counters c0 to c3, the
open loops (counter, the LOOP's step, trips). Of the running step: `begun` that a WAIT polls or a SIGNAL is on its way; the
number of its outbound transfer at level 0; how many chunks have been sent, and at level 1 the credit for them; the ns without
progress. `ins` are the inbound steps that have been given a credit, in order: the running one and the next (log 48). Of level
1: `offers` are credits for outbound steps to come, `lastOut` by peer the peer's step that the last outbound step was granted
by, `aborts` the aborts received (peer, its step, STATUS). -/
structure ImpState where
  desc : Desc
  step : Nat
  cur : Option Nat
  ctr : List Nat
  loops : List (Nat × Nat × Nat)
  begun : Bool
  outNo : Option Nat
  sent : Nat
  grant : Option Grant
  ins : List InStep
  idle : Nat
  offers : List Grant
  lastOut : List (Nat × Nat)
  aborts : List (Nat × Nat × Nat)
  deriving DecidableEq, Repr, Inhabited

/-- The transfer of one outbound step of level 0 to another Feeder (R256): its number on its channel, its chunks as wire
elements with their poison. -/
structure Transfer where
  no : Nat
  chunks : List (List (Nat × Bool))
  aborted : Bool
  deriving DecidableEq, Repr, Inhabited

/-- The credit of an inbound step of level 0 (R251, R256): its number on its channel, what a matched step must agree with, the
receiving command and step, and the chunk up to which chunks are granted. -/
structure InCredit where
  no : Nat
  rop : Nat
  count : Nat
  fmt : Nat
  cmd : Nat
  step : Nat
  upto : Nat
  deriving DecidableEq, Repr, Inhabited

/-- A channel of level 0 between two Feeders, for one context and TAG (R256): the numbers of the next outbound and inbound
step, the transfers not yet used up, the credits of inbound steps, the inbound steps that have been aborted. -/
structure ImpChan where
  ctx : Nat
  tag : Nat
  src : Nat
  dst : Nat
  nextOut : Nat
  nextIn : Nat
  sends : List Transfer
  credits : List InCredit
  cuts : List Nat
  deriving DecidableEq, Repr, Inhabited

/-- A completion record that a moving page holds up (R344): its word, the status, the address that goes with a failure. -/
structure Owed where
  status : Nat
  word : Nat
  laddr : DWord
  deriving DecidableEq, Repr, Inhabited

/-- A Feeder command (R239 to R243). `bytes` counts the destination bytes done; `ctx`, `gang`, `block`, `forme` the party;
`cls` its class; `rcb` the RCB it is issued under; `tie` the tied barrier, with its virtual address; `tiedErr` that 0x81 has
been delivered (R248), `sigged` that the addition of cpy.sig is on its way; `owed` the completion record still to be written. -/
structure Cmd where
  id : Nat
  owner : Owner
  feeder : Nat
  cls : Nat
  ctx : Nat
  gang : Nat
  block : Nat
  forme : Nat
  rcb : Nat
  kind : CmdKind
  src : LRec
  dst : LRec
  tie : Option Place
  tieVa : DWord
  scope : Scope
  tok : Option (Fin 64)
  cr : Option DWord
  bytes : Nat
  imp : Option ImpState
  pc : DWord
  gseq : Nat
  lanes : Mask
  suspended : Bool
  killed : Bool
  tiedErr : Bool
  sigged : Bool
  owed : Option Owed
  deriving DecidableEq, Repr, Inhabited

/-- What a posted atomic of a Feeder is for (R229, R248, R255): bytes landed at a tied barrier, the addition of cpy.sig, that
of a SIGNAL step. -/
inductive PostFor where
  | tie | sig | step
  deriving DecidableEq, Repr, Inhabited

/-- A posted atomic of a Feeder on its way to another sheet (R331): its number, its command, its purpose, the address and the
value added or the bytes landed. -/
structure Post where
  id : Nat
  cmd : Nat
  why : PostFor
  va : DWord
  x : Nat
  deriving DecidableEq, Repr, Inhabited

/-- Work deferred to a region's release (R398). -/
inductive Deferred where
  | mem (op : MemOp)
  | feed (c : Cmd)
  deriving DecidableEq, Repr, Inhabited

/-- An open region level (R388): label, retries, kept state, held stores, deferred work; `start` is the number of the
rgn.begin that opened it; `badKept` that its kept state, in the galley or in spare tile slots, has an uncorrectable error
(R403, R411). -/
structure Level where
  label : DWord
  start : Nat
  retry : Nat
  kv : List (Nat × List Word)
  ks : List (Nat × DWord)
  kp : List (Nat × Mask)
  kj : List (Nat × JSet)
  kt : List (Nat × SMap Word)
  held : List Held
  deferred : List Deferred
  badKept : Bool
  deriving DecidableEq, Repr, Inhabited

/-- What the proof warp matches a leader's compared instruction by (R406). -/
structure Compared where
  pc : DWord
  lanes : Mask
  pieces : List Piece
  words : List DWord
  deriving DecidableEq, Repr, Inhabited

/-- Where compared work of a leader goes once it matches (R406): it is performed, or it enters the galley (of gang scratch or
not) or the deferred queue of its region. -/
inductive Keep where
  | perform
  | galley (gs : Bool)
  | defer
  deriving DecidableEq, Repr, Inhabited

/-- A leader's instruction that its proof warp has not issued: the group, the decoded instruction, the values it takes
(R405), and what is held for comparison. -/
structure Lag where
  lanes : Mask
  pc : DWord
  len : Nat
  instr : Instr
  gseq : Nat
  compared : Option Compared
  op : Option MemOp
  cmd : Option Cmd
  keep : Keep
  arrive : Bool
  depth : Nat
  deriving DecidableEq, Repr, Inhabited

/-- Values of the value queue (R405): what a leader's instruction wrote. -/
structure Values where
  gseq : Nat
  vw : List (Nat × Word)
  sw : List (Nat × DWord)
  pw : List (Nat × Mask × Mask)
  jw : List (Nat × JSet)
  deriving DecidableEq, Repr, Inhabited

/-- Quads that a group of the leader has stepped over (R27) before it issued instruction `gseq`. -/
structure Stride where
  gseq : Nat
  lanes : Mask
  src : DWord
  dst : DWord
  deriving DecidableEq, Repr, Inhabited

/-- A proof warp (R404); `strides` are the quads that it has still to step over. -/
structure Proof where
  r : Regs
  lag : List Lag
  values : List Values
  strides : List Stride
  deriving DecidableEq, Repr, Inhabited

/-- A resident warp, keyed by the slot it stands in. `home` is its general slot; `away` that it stands in a landing slot
(R285). `arrivals` are the offsets of barriers in block scratch
at whose running phase the warp has arrived (R308). `codeSince` and `constSince` are the lengths of the history of memory
when its LAUNCH packet was parsed and when its last fence at .device or wider settled, `constSeq` the number of operations
then, `constOwn` the number of that fence; `resolved` that no error can be detected any more for instructions numbered below
it (R391, R393, R395); `galley` the bank that holds its galley while a level is open (R181): older contents are not fetched, or read through a constant window (R20, R30). `platHeld` that an operand fault holds its Platen queue (R156); `heldTok` the tokens that poison keeps held (R160). -/
structure Warp where
  gang : Nat
  block : Nat
  num : Nat
  ctx : Nat
  home : Nat
  vgrant : Nat
  tgrant : Nat
  priv : Nat
  privBase : DWord
  gx : Nat
  gy : Nat
  gz : Nat
  windows : List (DWord × Nat)
  r : Regs
  tiles : SMap Word
  waits : List Wait
  pend : List MemOp
  results : List Result
  platen : List PlatOp
  platHeld : Bool
  heldTok : List (Fin 64)
  arrivals : List Nat
  feeder : Nat
  async : List AsyncErr
  det : List AsyncErr
  levels : List Level
  galley : Nat
  lastCause : Nat
  rolls : Nat
  soft : Bool
  codeSince : Nat
  constSince : Nat
  constSeq : Nat
  constOwn : Nat
  badV : List Nat
  badS : List Nat
  badP : List Nat
  badJ : List Nat
  badT : List Nat
  proof : Option Proof
  resolved : Nat
  stopped : Bool
  deriving DecidableEq, Repr, Inhabited

/-! ### Gangs, launches, queues -/

/-- A block of a resident gang: its forme, banks, the mode of each bank of the grant (R177), the scratch bytes, the
poisoned words (R374), the entries of FIFO banks with their poison (R218, R374), the general slots of its warps and of their proof warps. -/
structure Block where
  forme : Nat
  banks : List Nat
  modes : List BankMode
  bytes : Nat
  scratch : SMap Byte
  poison : List Nat
  fifos : SMap (List (Word × Bool))
  slots : List Nat
  twins : List Nat
  released : Bool
  deriving DecidableEq, Repr, Inhabited

/-- Where a gang stands with pre-emption (R328, R329). -/
inductive GangPhase where
  | running | stopping | suspended | waitRelaunch
  deriving DecidableEq, Repr, Inhabited

/-- A gang the Compositor has placed (R270). `saved` holds its warps while it is suspended; `order` is the order of its
placement; `since` the time of its placement or resumption, `stopAt` that of its pre-emption, `saveTime` the ns of its save;
`yieldTo` the launch and the gang that it was pre-empted for. -/
structure Gang where
  id : Nat
  launch : Nat
  lin : Nat
  chase : Nat
  blocks : List Block
  phase : GangPhase
  acks : List Engine
  saved : List (Nat × Warp)
  order : Nat
  since : Nat
  stopAt : Nat
  saveTime : Nat
  yieldTo : Option (Nat × Nat)
  relaunches : Nat
  checked : Bool
  deriving DecidableEq, Repr, Inhabited

/-- A region control block as the device copied it (R261), with its timer (R265). -/
structure Rcb where
  id : Nat
  ctx : Nat
  addr : DWord
  parent : DWord
  ovr : Nat
  index : Nat
  newdom : Bool
  cls : Nat
  checked : Bool
  rsv : Bool
  formes : Nat
  warps : Nat
  tiles : Nat
  banks : Nat
  feeders : Nat
  retry : Nat
  wdog : Nat
  timer : Nat
  spent : Bool
  deriving DecidableEq, Repr, Inhabited

/-- A launch record (R267). -/
structure LaunchRec where
  rcb : DWord
  entry : DWord
  gx : Nat
  gy : Nat
  gz : Nat
  bpg : Nat
  wpb : Nat
  tg : Nat
  relaunch : Bool
  vgrant : Nat
  scratch : Nat
  priv : Nat
  privBase : DWord
  windows : List (DWord × Nat)
  deriving DecidableEq, Repr, Inhabited

/-- Work accepted from a queue (R321): a launch, or a copy or collective. `next` is the first gang not placed, `finished` counts
finished gangs, or is 1 when a command has ended well; `since` is the length of the history of memory when its packet was
parsed (R30). -/
structure Work where
  id : Nat
  queue : Nat
  ctx : Nat
  tag : Nat
  done : DWord
  dval : DWord
  launch : Option LaunchRec
  rcbId : Nat
  next : Nat
  finished : Nat
  since : Nat
  deriving DecidableEq, Repr, Inhabited

/-- A packet whose parse waits (R321): a FENCE with its SCOPE, LEN and TAG and those of its counters that have not been seen
at their thresholds, or an RCB packet that unregisters. -/
inductive Parse where
  | fence (scope len tag : Nat) (left : List (DWord × DWord))
  | unregister (rcb : Nat)
  deriving DecidableEq, Repr, Inhabited

/-- A registered queue (R314 to R318), with the packet whose parse waits; `haltNext` is the cause of a halt that takes effect
once that packet is accepted (R324); `times` the ns of the last 16 saves and restores (R330). -/
structure Queue where
  ring : DWord
  log2 : Nat
  ctx : Nat
  cls : Nat
  slice : Nat
  doorbell : DWord
  head : Nat
  tail : Nat
  faulted : Bool
  cause : Nat
  parse : Option Parse
  haltNext : Option Nat
  times : List Nat
  deriving DecidableEq, Repr, Inhabited

/-- A context record (R333), with the flag that the next record carries LOST (R386). -/
structure Ctx where
  res : Bool
  sys : Bool
  root : DWord
  rhome : Nat
  errq : DWord
  lost : Bool
  deriving DecidableEq, Repr, Inhabited

/-- An errata record (R387) as it was posted to the management queue (R386). -/
structure Errata where
  cause : Nat
  flags : Nat
  sev : Nat
  unit : Nat
  ctx : Nat
  rcbIdx : Nat
  time : Nat
  laddr : DWord
  pc : DWord
  gseq : Nat
  skid : Nat
  lanes : Mask
  forme : Nat
  quad : Nat
  slot : Nat
  index : Nat
  w0 : DWord
  w1 : DWord
  deriving DecidableEq, Repr, Inhabited

/-- What an entry of a fabric channel carries (R331): a part of an operation of a warp, a warp whose departure has a number,
or a posted atomic of a Feeder. -/
inductive Freight where
  | piece (w op piece : Nat)
  | warp (w dep : Nat)
  | post (id : Nat)
  deriving DecidableEq, Repr, Inhabited

/-- A fabric channel (R331, R332): the number of the next entry, the unacknowledged entries oldest first, the first of
them to be sent next, the receiver's next number, its queue; whether that entry has been refused, the last back-off in ns
of its refusals and what is left of it. -/
structure Channel where
  nextSeq : Nat
  window : List (Nat × Freight)
  cursor : Nat
  expect : Nat
  queue : List (Nat × Freight)
  refused : Bool
  backoff : Nat
  wait : Nat
  deriving DecidableEq, Repr, Inhabited

/-- A message to the outside: management replies, RDMA responses, Feeder messages (R251, R336, R431). -/
inductive Reply where
  | nak (port qp : Nat)
  | data (port qp : Nat) (bytes : List Byte)
  | mgmt (port : Nat) (bytes : List Byte)
  | words (port : Nat) (l : List DWord)
  | quote (port : Nat) (body signature : List Byte)
  | records (port : Nat) (l : List Errata)
  | send (port peer : Nat) (m : List Byte)
  | cnp (port peer : Nat)
  | write (port peer : Nat) (imm : BitVec 32) (payload : List Byte)
  deriving DecidableEq, Repr, Inhabited

/-- A firmware slot (R427 to R429): whether it holds an image, its version, the image and its HSS signature; `none` for the
image that it held when the device left the factory (log 53). -/
structure FwSlot where
  present : Bool
  version : DWord
  code : Option (List Byte × List Byte)
  deriving DecidableEq, Repr, Inhabited

/-- How far the package has booted (R427). -/
inductive Phase where
  | off | recovery | running
  deriving DecidableEq, Repr, Inhabited

/-- A queue pair bound to a context (R334), and its error state (R336). -/
structure Qp where
  ctx : Nat
  error : Bool
  deriving DecidableEq, Repr, Inhabited

/-- An instruction that the issue opportunity has chosen and that has not run yet: the slot of the warp, whether its
proof warp issues, the group, its PC and the length in words. -/
structure Slot where
  w : Nat
  proof : Bool
  grp : Mask
  pc : DWord
  len : Nat
  instr : Instr
  deriving DecidableEq, Repr, Inhabited

/-- The whole machine. -/
structure State where
  /-- the device timer in ns and its fraction in parts of a ns; the cycles of each sheet; the clock in MHz -/
  time : Nat
  tfrac : Nat
  cycles : List Nat
  freq : Nat
  halted : Bool
  /-- boot, firmware, attestation, features -/
  phase : Phase
  fuses : Nat
  slots : List FwSlot
  runSlot : Nat
  leaf : Nat
  featAccept : List DWord
  featLock : Nat
  backoffMin : Nat
  backoffMax : Nat
  /-- the first address of the save region of each sheet, once boot has set it aside (R427) -/
  saves : List Nat
  /-- memory; `past` are the bytes that writes of HBM4 replaced, newest first: what a fetch or a constant window may still
  read -/
  hbm : SMap Byte
  past : List Past
  poison : List Nat
  moving : List TlbEntry
  l1 : SMap (Option Byte)
  l1bad : List Nat
  tlb : List TlbEntry
  /-- contexts and the outside; `lateErrata` are records, by context, and `rdmaHeld` RDMA operations
  that a moving page holds, in order (R344) -/
  ctxs : SMap Ctx
  qps : SMap (Option Qp)
  mgmtErr : List Errata
  lateErrata : List (Nat × Errata)
  replies : List Reply
  rdmaHeld : List Instr
  dropped : SMap Nat
  cnp : SMap Nat
  /-- queues and work -/
  queues : SMap (Option Queue)
  rcbs : List Rcb
  works : List Work
  gangs : List Gang
  warps : SMap (Option Warp)
  cmds : List Cmd
  impChans : List ImpChan
  posts : List Post
  chans : SMap Channel
  /-- per quadrant and per Feeder; the record that the Compositor served last, the queues, by class, that the CP did -/
  skip : SMap DWord
  rrSlot : SMap Nat
  platRR : SMap Nat
  feedRR : SMap Nat
  compRR : Nat
  cpRR : SMap Nat
  recNo : Nat
  /-- the model's own: arbitration, numbering, the instructions of the running issue opportunity -/
  agenda : List Instr
  env : List Nat
  elapse : List Nat
  opSeq : Nat
  nextQuad : Nat
  issue : List Slot
  deriving DecidableEq, Repr, Inhabited

/-- The number of a warp slot: general slots 0 to 15 and the landing slot 16 of a quadrant of a forme (R5, R6). -/
def slotId (forme quad slot : Nat) : Nat := (forme * 4 + quad) * 17 + slot
def slotForme (w : Nat) : Nat := w / 17 / 4
def slotQuad (w : Nat) : Nat := w / 17 % 4
/-- The quadrant's number in the package. -/
def slotQuadId (w : Nat) : Nat := w / 17
def slotNum (w : Nat) : Nat := w % 17
def slotSheet (w : Nat) : Nat := slotForme w / 128
def slotChase (w : Nat) : Nat := slotForme w / 4

/-- The machine after reset: no work can exist before a feature lock (R354). The values that the spec does not state
are those of logs 2, 3, 4, 5 and 6. -/
def State.reset : State where
  time := 0
  tfrac := 0
  cycles := [0, 0, 0, 0]
  freq := 1500
  halted := false
  phase := .off
  fuses := 0
  slots := [⟨true, 0, none⟩, ⟨false, 0, none⟩]
  runSlot := 0
  leaf := 0
  featAccept := [0, 0, 0, 0]
  featLock := 0
  backoffMin := 200
  backoffMax := 6400
  saves := []
  hbm := []
  past := []
  poison := []
  moving := []
  l1 := []
  l1bad := []
  tlb := []
  ctxs := []
  qps := []
  mgmtErr := []
  lateErrata := []
  replies := []
  rdmaHeld := []
  dropped := []
  cnp := []
  queues := []
  rcbs := []
  works := []
  gangs := []
  warps := []
  cmds := []
  impChans := []
  posts := []
  chans := []
  skip := []
  rrSlot := []
  platRR := []
  feedRR := []
  compRR := 0
  cpRR := []
  recNo := 0
  agenda := []
  env := []
  elapse := []
  opSeq := 0
  nextQuad := 0
  issue := []

/-- Memory is in canonical form: addresses rise strictly and no entry holds what an unlisted byte reads as. -/
abbrev Memory.wf (s : State) : Prop := s.hbm.wf = true

end Sys2Proof.Machine
end

