-- ==== Sys2Proof/Machine/Regs.lean ====
section
/-! DEFINITION. Access to a warp's registers, lanes, warps and gangs: the one home of each register (R11 to R17). -/

namespace Sys2Proof.Machine

/-- Bit l of a mask. -/
def lane (m : Mask) (l : Nat) : Bool := m.getLsbD l

/-- The lanes 0 to 31. -/
def lanes32 : List Nat := List.range 32

/-- The lanes of a mask in ascending order. -/
def lanesOf (m : Mask) : List Nat := lanes32.filter (lane m)

/-- The mask of the lanes a test picks. -/
def maskOf (f : Nat → Bool) : Mask :=
  BitVec.ofNat 32 (lanes32.foldl (fun acc l => if f l then acc + 2 ^ l else acc) 0)

/-- The lowest lane of a mask, if it has one. -/
def lowest (m : Mask) : Option Nat := lanes32.find? (lane m)

/-- The number of set lanes. -/
def countOf (m : Mask) : Nat := (lanesOf m).length

/-! ### Registers of a warp -/

def Regs.vget (r : Regs) (k l : Nat) : Word := r.v.get (k * 32 + l)
def Regs.vset (r : Regs) (k l : Nat) (x : Word) : Regs := { r with v := r.v.set (k * 32 + l) x }
/-- The pair v[k]:v[k+1] of a lane, low word first (R36). -/
def Regs.vpair (r : Regs) (k l : Nat) : DWord := (r.vget (k + 1) l) ++ (r.vget k l)
def Regs.sget (r : Regs) (k : Nat) : DWord := r.s.get k
def Regs.sset (r : Regs) (k : Nat) (x : DWord) : Regs := { r with s := r.s.set k x }
/-- p0 always reads as all ones (R14). -/
def Regs.pget (r : Regs) (k : Nat) : Mask := if k = 0 then BitVec.allOnes 32 else r.p.get k
/-- A write of p0 is discarded (R14); only the lanes of `act` change. -/
def Regs.pset (r : Regs) (k : Nat) (act m : Mask) : Regs :=
  if k = 0 then r else { r with p := r.p.set k ((m &&& act) ||| (r.p.get k &&& ~~~act)) }
def Regs.jget (r : Regs) (k : Nat) : JSet := r.j.get k
def Regs.jset (r : Regs) (k : Nat) (x : JSet) : Regs := { r with j := r.j.set k x }
def Regs.pcGet (r : Regs) (l : Nat) : DWord := r.pc.get l
/-- Give every lane of a mask one PC. -/
def Regs.setPc (r : Regs) (m : Mask) (pc : DWord) : Regs :=
  { r with pc := (lanesOf m).foldl (fun acc l => acc.set l pc) r.pc }
def Regs.latchGet (r : Regs) (k l : Nat) : Word := r.latch.get (k * 32 + l)

/-- A list of vector writes, each (register·32 + lane, word). -/
def Regs.writeV (r : Regs) (ws : List (Nat × Word)) : Regs :=
  { r with v := ws.foldl (fun acc w => acc.set w.1 w.2) r.v }
def Regs.writeS (r : Regs) (ws : List (Nat × DWord)) : Regs :=
  { r with s := ws.foldl (fun acc w => acc.set w.1 w.2) r.s }

/-- The guard's mask (R33). -/
def Regs.guard (r : Regs) (g : Guard) : Mask := if g.neg then ~~~(r.pget g.p.val) else r.pget g.p.val

/-- The active lanes of an instruction of a group (R33). -/
def active (r : Regs) (grp : Mask) (g : Guard) : Mask := grp &&& r.guard g

/-- The latches' shift (R41): in each lane of the group b0 to b2 move up; b0 takes the word `x` gives. -/
def Regs.shiftLatches (r : Regs) (grp : Mask) (x : Nat → Word) : Regs :=
  { r with
    latch := (lanesOf grp).foldl (fun acc l =>
      (((acc.set (96 + l) (r.latchGet 2 l)).set (64 + l) (r.latchGet 1 l)).set (32 + l) (r.latchGet 0 l)).set l (x l))
      r.latch
    lvalid := (r.lvalid <<< 1) ||| 1
    badL := (r.badL.map fun x => if lane grp (x % 32) then x + 32 else x).filter fun x => decide (x < 128) }

/-- Every latch becomes invalid (R43). -/
def Regs.dropLatches (r : Regs) : Regs := { r with lvalid := 0 }

/-! ### Warps, gangs, work -/

def State.warp (s : State) (w : Nat) : Option Warp := s.warps.get w
def State.setWarp (s : State) (w : Nat) (x : Warp) : State := { s with warps := s.warps.set w (some x) }
def State.modWarp (s : State) (w : Nat) (f : Warp → Warp) : State :=
  match s.warp w with
  | none => s
  | some x => s.setWarp w (f x)
def State.dropWarp (s : State) (w : Nat) : State := { s with warps := s.warps.set w none }
/-- The resident warps with their slots. -/
def State.warpList (s : State) : List (Nat × Warp) := s.warps.filterMap fun x => x.2.map fun y => (x.1, y)

/-- The registers of the leading or of the proof warp. -/
def Warp.side (w : Warp) (proof : Bool) : Option Regs := if proof then w.proof.map Proof.r else some w.r
def Warp.setSide (w : Warp) (proof : Bool) (r : Regs) : Warp :=
  if proof then { w with proof := w.proof.map fun p => { p with r := r } } else { w with r := r }

def State.gang (s : State) (id : Nat) : Option Gang := s.gangs.find? fun g => g.id == id
def State.modGang (s : State) (id : Nat) (f : Gang → Gang) : State :=
  { s with gangs := s.gangs.map fun g => if g.id == id then f g else g }
def State.work (s : State) (id : Nat) : Option Work := s.works.find? fun x => x.id == id
def State.modWork (s : State) (id : Nat) (f : Work → Work) : State :=
  { s with works := s.works.map fun x => if x.id == id then f x else x }
def State.queue (s : State) (q : Nat) : Option Queue := s.queues.get q
def State.modQueue (s : State) (q : Nat) (f : Queue → Queue) : State :=
  match s.queue q with
  | none => s
  | some x => { s with queues := s.queues.set q (some (f x)) }
def State.cmd (s : State) (id : Nat) : Option Cmd := s.cmds.find? fun c => c.id == id
def State.modCmd (s : State) (id : Nat) (f : Cmd → Cmd) : State :=
  { s with cmds := s.cmds.map fun c => if c.id == id then f c else c }
/-- A command has ended but for its completion record. -/
def Cmd.ended (c : Cmd) : Bool := c.owed.any fun o => o.status != 1
def State.rcb (s : State) (id : Nat) : Option Rcb := s.rcbs.find? fun x => x.id == id
def State.rcbAt (s : State) (ctx : Nat) (addr : DWord) : Option Rcb :=
  s.rcbs.find? fun x => x.ctx == ctx && x.addr == addr

def Gang.block? (g : Gang) (b : Nat) : Option Block := g.blocks[b]?
def Gang.modBlock (g : Gang) (b : Nat) (f : Block → Block) : Gang :=
  { g with blocks := g.blocks.zipIdx.map fun x => if x.2 == b then f x.1 else x.1 }

/-- A key that names no slot: what the device does for a Feeder or for a record that waits. -/
def engineSlot : Nat := slotId Config.formes 0 0

/-- One of n outcomes the spec leaves to the device: the next choice of `env`, or the first when none is given
(log 2). -/
def State.pick (s : State) (n : Nat) : Nat × State :=
  if n ≤ 1 then (0, s)
  else match s.env with
    | [] => (0, s)
    | c :: t => (c % n, { s with env := t })

/-- A fresh number for an operation, a command, a gang or a piece of work. -/
def State.fresh (s : State) : Nat × State := (s.opSeq, { s with opSeq := s.opSeq + 1 })

/-- The path of an RCB to its root (R261, R262), nearest first; the fuel is the number of registered RCBs. -/
def State.rcbPath (s : State) : Nat → Nat → List Rcb
  | 0, _ => []
  | fuel + 1, id =>
    match s.rcb id with
    | none => []
    | some x => x :: (if x.parent = 0 then [] else
        match s.rcbAt x.ctx x.parent with
        | none => []
        | some p => s.rcbPath fuel p.id)

def State.path (s : State) (id : Nat) : List Rcb := s.rcbPath (s.rcbs.length + 1) id

/-- The node whose value of field i holds at an RCB (R262). -/
def State.nodeOf (s : State) (id i : Nat) : Option Rcb := (s.path id).find? fun x => bits x.ovr i 1 == 1

/-- The effective class (R262, R264). -/
def State.classOf (s : State) (id : Nat) : Nat := ((s.nodeOf id 5).map Rcb.cls).getD 3
def State.checkedOf (s : State) (id : Nat) : Bool := ((s.nodeOf id 7).map Rcb.checked).getD false
def State.feedersOf (s : State) (id : Nat) : Nat := ((s.nodeOf id 4).map Rcb.feeders).getD 0
def State.retryOf (s : State) (id : Nat) : Nat := ((s.nodeOf id 8).map Rcb.retry).getD 0
/-- The root of the fault domain of a node (R262): the nearest ancestor-or-self with NEWDOM, else the root. -/
def State.domainOf (s : State) (id : Nat) : Nat :=
  let p := s.path id
  match p.find? Rcb.newdom with
  | some x => x.id
  | none => (p.getLast?.map Rcb.id).getD id
/-- Whether a node lies in the subtree of another. -/
def State.under (s : State) (id top : Nat) : Bool := (s.path id).any fun x => x.id == top

/-- The leaf's RCB of a gang (R267). -/
def State.gangRcb (s : State) (g : Gang) : Nat := ((s.work g.launch).map Work.rcbId).getD 0
def State.gangCtx (s : State) (g : Gang) : Nat := ((s.work g.launch).map Work.ctx).getD 0
def State.warpRcb (s : State) (w : Warp) : Nat := ((s.gang w.gang).map s.gangRcb).getD 0
/-- The class of a warp (R264). -/
def State.warpClass (s : State) (w : Warp) : Nat := s.classOf (s.warpRcb w)
def State.launchOf (s : State) (w : Warp) : Option LaunchRec :=
  (s.gang w.gang).bind fun g => (s.work g.launch).bind Work.launch
def State.context (s : State) (c : Nat) : Ctx := s.ctxs.get c
/-- A warp is privileged when its context has SYS = 1 (R335). -/
def State.privileged (s : State) (w : Warp) : Bool := (s.context w.ctx).sys
/-- A warp in its handler (R377). -/
def Regs.inHandler (r : Regs) : Bool := r.frame.isSome

/-- A warp that stands in a landing slot has left its scratch (R174, R310). -/
def Warp.away (w : Warp) (slot : Nat) : Bool := w.home != slot

/-! ### sr.rgn (R389) -/

def Level.scalarEntries (l : Level) : Nat := (l.ks.length + 7) / 8
/-- Galley entries a level uses (R397). -/
def Level.used (l : Level) : Nat := l.held.length + 2 * l.kv.length + l.scalarEntries
def Warp.galleyUsed (w : Warp) : Nat := w.levels.foldl (fun a l => a + l.used) 0
def Warp.keptTiles (w : Warp) : Nat := w.levels.foldl (fun a l => a + l.kt.length) 0
def Warp.deferredUsed (w : Warp) : Nat := w.levels.foldl (fun a l => a + l.deferred.length) 0
/-- The open level n, 1 the outermost: the list holds the innermost first. -/
def Warp.level (w : Warp) (n : Nat) : Option Level := w.levels.reverse[n - 1]?
/-- `sr.rgn` (R389). -/
def Warp.rgn (w : Warp) : DWord :=
  let rt (n : Nat) : Nat := ((w.level n).map Level.retry).getD 0
  BitVec.ofNat 64 (w.levels.length + 2 ^ 3 * rt 1 + 2 ^ 6 * rt 2 + 2 ^ 9 * rt 3 + 2 ^ 12 * rt 4 +
    2 ^ 15 * w.galleyUsed + 2 ^ 23 * w.keptTiles + 2 ^ 32 * w.lastCause + 2 ^ 40 * w.rolls + 2 ^ 48 * w.soft.toNat)

/-- The lanes that wait on anything, and those that wait at a jwait. -/
def Warp.waiting (w : Warp) : Mask := w.waits.foldl (fun m x => m ||| x.lanes) 0
def Wait.isJ (x : Wait) : Bool :=
  match x.kind with
  | .jwait _ => true
  | _ => false
def Warp.jwaiting (w : Warp) : Mask := (w.waits.filter Wait.isJ).foldl (fun m x => m ||| x.lanes) 0

end Sys2Proof.Machine
end

