-- ==== Sys2Proof/Machine/Memory.lean ====
section
/-! DEFINITION. Bytes of HBM4 and scratch, poison (R373, R374), and the little-endian view of several bytes (R2). -/

namespace Sys2Proof.Machine

/-- The key of a byte of HBM4: sheet and physical address (R340). -/
def hbmKey (sheet pa : Nat) : Nat := sheet * 2 ^ 38 + pa

/-- The place n bytes on. -/
def Place.add : Place → Nat → Place
  | .hbm k, n => .hbm (k + n)
  | .scr g b o, n => .scr g b (o + n)

/-- The sheet that homes a place of global memory. -/
def Place.sheet? : Place → Option Nat
  | .hbm k => some (k / 2 ^ 38)
  | .scr _ _ _ => none

/-- Whether two ranges of bytes share a byte. -/
def Place.overlaps (p : Place) (n : Nat) (q : Place) (m : Nat) : Bool :=
  match p, q with
  | .hbm a, .hbm b => decide (a < b + m ∧ b < a + n)
  | .scr g x a, .scr h y b => g == h && x == y && decide (a < b + m ∧ b < a + n)
  | _, _ => false

/-- The block of a gang whose scratch an access reaches; a released block has none (R272). -/
def State.scrBlock (s : State) (g b : Nat) : Option Block :=
  ((s.gang g).bind fun x => x.block? b).filter fun x => !x.released

/-- The byte at a place: what nothing has written reads as 0 (R174; log 3 for HBM4). -/
def State.byte (s : State) : Place → Byte
  | .hbm k => s.hbm.get k
  | .scr g b o => ((s.scrBlock g b).map fun x => x.scratch.get o).getD 0

def State.setByte (s : State) (p : Place) (x : Byte) : State :=
  match p with
  | .hbm k => { s with hbm := s.hbm.set k x }
  | .scr g b o => s.modGang g fun y => y.modBlock b fun z => { z with scratch := z.scratch.set o x }

def State.bytes (s : State) (p : Place) (n : Nat) : List Byte := (List.range n).map fun i => s.byte (p.add i)

/-- n bytes as a number, the lowest address least significant (R2). -/
def State.readLe (s : State) (p : Place) (n : Nat) : Nat := leNat (s.bytes p n)

/-- The protected word of a byte (R374): its number and its size. -/
def Place.word : Place → Nat × Nat
  | .hbm k => (k / 8, 8)
  | .scr _ _ o => (o / 4, 4)

/-- The protected words that n bytes touch. -/
def wordsOf (first n size : Nat) : List Nat :=
  (List.range ((first + n + size - 1) / size - first / size)).map fun i => first / size + i

/-- Whether any of n bytes lies in a poisoned word. -/
def State.poisoned (s : State) (p : Place) (n : Nat) : Bool :=
  match p with
  | .hbm k => (wordsOf k n 8).any s.poison.contains
  | .scr g b o => ((s.scrBlock g b).map fun x => (wordsOf o n 4).any x.poison.contains).getD false

/-- Poison the words that n bytes touch. -/
def State.setPoison (s : State) (p : Place) (n : Nat) : State :=
  match p with
  | .hbm k => { s with poison := (wordsOf k n 8).foldl (fun l w => if l.contains w then l else w :: l) s.poison }
  | .scr g b o => s.modGang g fun y => y.modBlock b fun z =>
      { z with poison := (wordsOf o n 4).foldl (fun l w => if l.contains w then l else w :: l) z.poison }

/-- The words that a write of n bytes covers whole lose their poison (R374). -/
def State.clearPoison (s : State) (p : Place) (n : Nat) : State :=
  match p with
  | .hbm k =>
    if s.poison.isEmpty then s
    else { s with poison := s.poison.filter fun w => !(decide (k ≤ 8 * w ∧ 8 * w + 8 ≤ k + n)) }
  | .scr g b o => s.modGang g fun y => y.modBlock b fun z =>
      if z.poison.isEmpty then z
      else { z with poison := z.poison.filter fun w => !(decide (o ≤ 4 * w ∧ 4 * w + 4 ≤ o + n)) }

/-- Write bytes at a place, one by one. -/
def State.putBytes (s : State) (p : Place) : List Byte → State
  | [] => s
  | x :: t => (s.setByte p x).putBytes (p.add 1) t

/-- Keep the bytes that a write of HBM4 is about to replace. -/
def State.keepPast (s : State) (p : Place) (n : Nat) : State :=
  match p with
  | .hbm k => { s with past := ⟨k, s.bytes p n⟩ :: s.past }
  | .scr _ _ _ => s

/-- Write bytes at their home; whole protected words lose their poison. -/
def State.writeBytes (s : State) (p : Place) (l : List Byte) : State :=
  ((s.keepPast p l.length).putBytes p l).clearPoison p l.length

/-- Write the low n bytes of a number (R2). -/
def State.writeLe (s : State) (p : Place) (x n : Nat) : State := s.writeBytes p (leBytes x n)

/-- A number's bits as a signed number of n bits. -/
def toSigned (x n : Nat) : Int := if x % 2 ^ n < 2 ^ (n - 1) then (x % 2 ^ n : Nat) else ((x % 2 ^ n : Nat) : Int) - 2 ^ n

/-- An integer modulo 2^n. -/
def wrap (x : Int) (n : Nat) : Nat := (x % 2 ^ n).toNat

end Sys2Proof.Machine
end

