-- ==== Sys2Proof/Machine/Mmu.lean ====
section
/-! DEFINITION. Page tables, walks and cached translations (R337 to R344). -/

namespace Sys2Proof.Machine

/-- What an access needs of its leaf (R341). -/
inductive Need where
  | read | write | readWrite | fetch | valid
  deriving DecidableEq, Repr, Inhabited

/-- Why an access is not translated: a cause with the failing entry (R387), or a poisoned entry (R374). -/
inductive NoTrans where
  | cause (c entry : Nat)
  | poison
  deriving DecidableEq, Repr, Inhabited

def causeTranslation : Nat := 0x20
def causePermission : Nat := 0x21
def causeNonCanonical : Nat := 0x22
def causeMalformedPage : Nat := 0x2B

/-- A 57-bit virtual address, sign-extended (R172, R207). -/
def canonical (va : DWord) : Bool :=
  let top := va.toNat / 2 ^ 56
  top == 0 || top == 255

/-- Byte n of virtual address space on. -/
def vaAdd (va : DWord) (n : Nat) : DWord := va + BitVec.ofNat 64 n

def pteV (e : Nat) : Bool := bits e 0 1 == 1
def pteR (e : Nat) : Bool := bits e 1 1 == 1
def pteW (e : Nat) : Bool := bits e 2 1 == 1
def pteX (e : Nat) : Bool := bits e 3 1 == 1
def pteT (e : Nat) : Bool := bits e 4 1 == 1
def pteCont (e : Nat) : Bool := bits e 5 1 == 1
def pteMig (e : Nat) : Bool := bits e 6 1 == 1
def pteCp (e : Nat) : Nat := bits e 8 2
def pteHome (e : Nat) : Nat := bits e 10 3
/-- PA of an entry: bits [51:16] in place. -/
def ptePa (e : Nat) : Nat := bits e 16 36 * 2 ^ 16

/-- Fields that are zero in every valid entry (R338). -/
def pteZero (e : Nat) : Bool := bits e 13 3 == 0 && bits e 7 1 == 0 && bits e 52 4 == 0 && bits e 38 14 == 0

/-- A well-formed pointer entry (R338). -/
def ptePointerOk (e : Nat) : Bool := pteZero e && bits e 1 6 == 0 && pteCp e == 0 && decide (pteHome e < 4)

/-- A well-formed leaf entry of level 0 or 1 (R338). -/
def pteLeafOk (level e : Nat) : Bool :=
  pteZero e && pteCp e != 3 && decide (pteHome e ≤ 4) &&
    (if level = 1 then !pteCont e && bits e 16 13 == 0 else pteHome e != 4 || pteCont e)

/-- A table entry at a sheet and physical address (R337, R340). -/
def State.readEntry (s : State) (sheet pa : Nat) : Except NoTrans Nat :=
  if Config.sheetBytes < pa + 8 then .error (.cause causeTranslation 0)
  else if s.poisoned (.hbm (hbmKey sheet pa)) 8 then .error .poison
  else .ok (s.readLe (.hbm (hbmKey sheet pa)) 8)

/-- The index of a virtual address at a level (R337). -/
def vaIndex (level va : Nat) : Nat :=
  match level with
  | 3 => bits va 55 2
  | 2 => bits va 42 13
  | 1 => bits va 29 13
  | _ => bits va 16 13

/-- The 32 entries of a 2 MiB run agree (R339): entry i against the first. -/
def runOk (e0 : Nat) (i e : Nat) : Bool :=
  pteV e && pteT e && pteCont e && pteLeafOk 0 e && bits e 1 3 == bits e0 1 3 && pteMig e == pteMig e0 &&
    pteCp e == pteCp e0 && pteHome e == pteHome e0 && ptePa e == ptePa e0 + i * 2 ^ 16

/-- The leaf at the end of a walk, with the first address and the size of its page. -/
def State.leafAt (s : State) (level sheet table va e : Nat) (ctx : Nat) : Except NoTrans TlbEntry :=
  if !pteLeafOk level e then .error (.cause causeMalformedPage e)
  else if level = 1 then .ok ⟨0, 0, ctx, va / 2 ^ 29 * 2 ^ 29, 2 ^ 29, BitVec.ofNat 64 e⟩
  else if !pteCont e then .ok ⟨0, 0, ctx, va / 2 ^ 16 * 2 ^ 16, 2 ^ 16, BitVec.ofNat 64 e⟩
  else
    let first := vaIndex 0 va / 32 * 32
    match s.readEntry sheet (table + first * 8) with
    | .error x => .error x
    | .ok e0 =>
      let rest := (List.range 32).map fun i => s.readEntry sheet (table + (first + i) * 8)
      if rest.any (fun x => match x with
          | .error .poison => true
          | _ => false) then .error .poison
      else if ptePa e0 % 2 ^ 21 == 0 && (rest.zipIdx.all fun x => match x.1 with
          | .ok y => runOk e0 x.2 y
          | .error _ => false) then
        .ok ⟨0, 0, ctx, va / 2 ^ 21 * 2 ^ 21, 2 ^ 21, BitVec.ofNat 64 e0⟩
      else .error (.cause causeMalformedPage e)

/-- The walk from a level down (R341): `level` counts the levels still below. -/
def State.walkFrom (s : State) (ctx va : Nat) : Nat → Nat → Nat → Except NoTrans TlbEntry
  | level, sheet, table =>
    match s.readEntry sheet (table + vaIndex level va * 8) with
    | .error x => .error x
    | .ok e =>
      if !pteV e then .error (.cause causeTranslation e)
      else match level with
        | 0 => if !pteT e then .error (.cause causeMalformedPage e) else s.leafAt 0 sheet table va e ctx
        | 1 => if pteT e then s.leafAt 1 sheet table va e ctx
          else if ptePointerOk e then s.walkFrom ctx va 0 (pteHome e) (ptePa e)
          else .error (.cause causeMalformedPage e)
        | n + 2 => if !pteT e && ptePointerOk e then s.walkFrom ctx va (n + 1) (pteHome e) (ptePa e)
          else .error (.cause causeMalformedPage e)

/-- A whole walk in a context's tables (R341). -/
def State.walk (s : State) (ctx : Nat) (va : DWord) : Except NoTrans TlbEntry :=
  let c := s.context ctx
  s.walkFrom ctx (va.toNat % 2 ^ 57) 3 c.rhome c.root.toNat

/-- The first address and the size of what a pointer entry of a level covers (R337). -/
def pointerSpan (level : Nat) : Nat := 2 ^ (if level = 1 then 29 else if level = 2 then 42 else 55)

/-- The pointer entries that a walk from a level down passes (R342). -/
def State.pointersFrom (s : State) (ctx va : Nat) : Nat → Nat → Nat → List TlbEntry
  | 0, _, _ => []
  | n + 1, sheet, table =>
    match s.readEntry sheet (table + vaIndex (n + 1) va * 8) with
    | .error _ => []
    | .ok e =>
      if pteV e && !pteT e && ptePointerOk e then
        let w := pointerSpan (n + 1)
        ⟨0, n + 1, ctx, va / w * w, w, BitVec.ofNat 64 e⟩ :: s.pointersFrom ctx va n (pteHome e) (ptePa e)
      else []

/-- A cached entry covers an address (R342). -/
def TlbEntry.covers (e : TlbEntry) (ctx va : Nat) : Bool :=
  e.ctx == ctx && decide (e.base ≤ va ∧ va < e.base + e.size)

/-- A translated address. -/
structure Phys where
  sheet : Nat
  pa : Nat
  cp : Nat
  mig : Bool
  inter : Bool
  deriving DecidableEq, Repr, Inhabited

def Phys.place (p : Phys) : Place := .hbm (hbmKey p.sheet p.pa)

/-- Permissions by the kind of access (R341). -/
def Need.ok (n : Need) (e : Nat) : Bool :=
  match n with
  | .read => pteR e
  | .write => pteW e
  | .readWrite => pteR e && pteW e
  | .fetch => pteX e
  | .valid => true

/-- A physical address lies in the save region of its sheet, which no context can map (R427). -/
def inSave (saves : List Nat) (sheet pa : Nat) : Bool :=
  match saves[sheet]? with
  | none => false
  | some b => decide (b ≤ pa ∧ pa < b + Config.saveBytes)

/-- Where an address lies under a leaf (R340), and whether the leaf covers the access. DESIGN CHOICE (log 52): a leaf that
names the save region is taken as one that names bytes beyond the sheet. -/
def TlbEntry.resolve (t : TlbEntry) (saves : List Nat) (va : Nat) (n : Need) : Except NoTrans Phys :=
  let e := t.leaf.toNat
  let pa := ptePa e + (va - t.base)
  let sheet := if pteHome e = 4 then bits pa 18 2 else pteHome e
  if !n.ok e then .error (.cause causePermission e)
  else if Config.sheetBytes ≤ pa || inSave saves sheet pa then .error (.cause causeTranslation e)
  else .ok ⟨sheet, pa, pteCp e, pteMig e, pteHome e == 4⟩

/-! ### TLBs and walkers (R342) -/

/-- The L2 TLB and the walkers of a compute die (R5, R342). -/
def dieUnit (die : Nat) : Nat := 2048 + die

/-- The die whose L2 TLB and walkers serve a unit: a quadrant's own die. -/
def unitDie (u : Nat) : Nat := if u < 2048 then dieUnit (u / 256) else u

/-- A unit may be served by an entry: a quadrant by its L1 TLB and by its die. DESIGN CHOICE (log 51): what stands on no
compute die is served by any die. -/
def TlbEntry.serves (t : TlbEntry) (u : Nat) : Bool :=
  if u < 2048 then t.unit == u || t.unit == unitDie u else decide (2048 ≤ t.unit)

/-- Two outcomes of a walk are the same. -/
def sameLeaf : Except NoTrans TlbEntry → Except NoTrans TlbEntry → Bool
  | .ok a, .ok b => a == b
  | .error a, .error b => a == b
  | _, _ => false

/-- What an access to an address may be translated by: the walk's leaf, a held one, or that of a walk which goes on from a
held pointer entry (R342). -/
def State.leafOptions (s : State) (u ctx : Nat) (va : DWord) : List (Except NoTrans TlbEntry) :=
  let a := va.toNat % 2 ^ 57
  let held := s.tlb.filter fun t => t.covers ctx a && t.serves u
  let all := s.walk ctx va :: held.map fun t =>
    if t.level = 0 then .ok { t with unit := 0 }
    else s.walkFrom ctx a (t.level - 1) (pteHome t.leaf.toNat) (ptePa t.leaf.toNat)
  all.foldl (fun acc x => if acc.any (sameLeaf x) then acc else acc ++ [x]) []

/-- The translations that an access may take (R342). -/
def State.transOptions (s : State) (u ctx : Nat) (va : DWord) (n : Need) : List (Except NoTrans Phys) :=
  (s.leafOptions u ctx va).map fun x => x.bind fun t => t.resolve s.saves (va.toNat % 2 ^ 57) n

/-- A TLB of some entries holds a leaf, in place of another where it is full (R342). -/
def State.holdLeaf (s : State) (u cap : Nat) (t : TlbEntry) : State :=
  let e := { t with unit := u }
  if s.tlb.contains e then s
  else
    let l := s.tlb.filter fun x => x.unit == u && x.level == 0
    let (k, s1) := s.pick l.length
    { s1 with tlb := e :: (if l.length < cap then s1.tlb else s1.tlb.erase (l.getD k default)) }

/-- What an access leaves held (R342): its leaf in the L1 TLB of its quadrant and in the L2 TLB of the die, but none with
MIG = 1; the pointer entries of a walk in the walkers. -/
def State.holdFor (s : State) (u ctx : Nat) (va : DWord) (x : Except NoTrans TlbEntry) : State :=
  let d := unitDie u
  let new := ((s.pointersFrom ctx (va.toNat % 2 ^ 57) 3 (s.context ctx).rhome (s.context ctx).root.toNat).map
    fun t => { t with unit := d }).filter fun t => !s.tlb.contains t
  let s1 := { s with tlb := new ++ s.tlb }
  match x with
  | .error _ => s1
  | .ok t =>
    if pteMig t.leaf.toNat then s1
    else if u < 2048 then (s1.holdLeaf u Config.l1TlbEntries t).holdLeaf d Config.l2TlbEntries t
    else s1.holdLeaf d Config.l2TlbEntries t

/-- Translate one address of an access of a unit (R341, R342). -/
def State.translate (s : State) (u ctx : Nat) (va : DWord) (n : Need) : Except NoTrans Phys × State :=
  if !canonical va then (.error (.cause causeNonCanonical 0), s)
  else
    let o := s.leafOptions u ctx va
    let (k, s1) := s.pick o.length
    let x := o.getD k (.error (.cause causeTranslation 0))
    (x.bind fun t => t.resolve s.saves (va.toNat % 2 ^ 57) n, s1.holdFor u ctx va x)

/-! ### Moving pages, and the device's own accesses -/

/-- A page whose lines are marked moving at their home (R344). -/
def TlbEntry.holdsPa (t : TlbEntry) (sheet pa : Nat) : Bool :=
  let e := t.leaf.toNat
  decide (ptePa e ≤ pa ∧ pa < ptePa e + t.size) && (if pteHome e = 4 then bits pa 18 2 == sheet else pteHome e == sheet)

def State.isMoving (s : State) (p : Place) : Bool :=
  match p with
  | .hbm k => s.moving.any fun t => t.holdsPa (k / 2 ^ 38) (k % 2 ^ 38)
  | .scr _ _ _ => false

/-- Where a sheet's HBM4 ends within a 64 KiB frame (R340). -/
def frameEnd : Nat := Config.sheetBytes % 2 ^ 16

/-- Bytes of an access that its first byte decides: those in the same 64 KiB page, on the same side of the end of a sheet's
HBM4 (R340). -/
def firstPart (va : DWord) (n : Nat) : Nat :=
  let o := va.toNat % 2 ^ 16
  min n ((if o < frameEnd then frameEnd else 2 ^ 16) - o)

/-- Read n bytes of one page for the device. -/
def State.readPage (s : State) (u ctx : Nat) (va : DWord) (n : Nat) : Except (NoTrans × DWord) (List Byte) × State :=
  if n = 0 then (.ok [], s)
  else match s.translate u ctx va .read with
    | (.error x, s1) => (.error (x, va), s1)
    | (.ok p, s1) => (if s1.poisoned p.place n then .error (.poison, va) else .ok (s1.bytes p.place n), s1)

/-- Read n bytes of global memory for the device (a packet, a record, a header): at most two parts. The answer is the
bytes, or the first failure with its address. -/
def State.readGlobal (s : State) (u ctx : Nat) (va : DWord) (n : Nat) : Except (NoTrans × DWord) (List Byte) × State :=
  let k := firstPart va n
  match s.readPage u ctx va k with
  | (.error x, s1) => (.error x, s1)
  | (.ok l, s1) =>
    match s1.readPage u ctx (vaAdd va k) (n - k) with
    | (.error x, s2) => (.error x, s2)
    | (.ok l', s2) => (.ok (l ++ l'), s2)

/-- What a store of the device comes to: done, not translated, or waiting for a page that moves (R344). -/
inductive Wrote where
  | done
  | failed (x : NoTrans)
  | moving
  deriving DecidableEq, Repr, Inhabited

/-- Write bytes of one 64 KiB page for the device, where they translate with W. -/
def State.writeGlobal (s : State) (u ctx : Nat) (va : DWord) (l : List Byte) : Wrote × State :=
  match s.translate u ctx va .write with
  | (.error x, s1) => (.failed x, s1)
  | (.ok p, s1) => if p.mig || s1.isMoving p.place then (.moving, s1) else (.done, s1.writeBytes p.place l)

end Sys2Proof.Machine
end

