-- ==== Sys2Proof/Machine/Errata.lean ====
section
/-! DEFINITION. Errata records and the queues they are posted to (R385 to R387). -/

namespace Sys2Proof.Machine

/-- The flags of byte 1 of a record (R387). -/
def flagPrecise : Nat := 1
def flagAsync : Nat := 2
def flagFetch : Nat := 4
def flagPhys : Nat := 8
def flagSoft : Nat := 16
def flagChecked : Nat := 32
def flagLost : Nat := 64
def flagUndelivered : Nat := 128

/-- The 64 bytes of a record (R387). -/
def Errata.bytes (e : Errata) : List Byte :=
  leBytes (e.cause + 2 ^ 8 * e.flags + 2 ^ 16 * e.sev + 2 ^ 24 * e.unit + 2 ^ 32 * (e.ctx % 64) + 2 ^ 48 * e.rcbIdx +
    2 ^ 64 * (e.time % 2 ^ 64) + 2 ^ 128 * e.laddr.toNat + 2 ^ 192 * e.pc.toNat + 2 ^ 256 * (e.gseq % 2 ^ 48) +
    2 ^ 304 * e.skid + 2 ^ 320 * e.lanes.toNat + 2 ^ 352 * (e.forme % 512) + 2 ^ 361 * (e.quad % 4) +
    2 ^ 363 * (e.slot % 32) + 2 ^ 368 * (e.index % 16) + 2 ^ 384 * e.w0.toNat + 2 ^ 448 * e.w1.toNat) 64

/-- A queue header as the device reads it (R385): BASE, LOG2N, WR, RD, LOST; none when it breaks its ranges. -/
def parseErrq (l : List Byte) : Option (DWord × Nat × Nat × Nat × Nat) :=
  let x := leNat l
  let base := bits x 0 64
  let log2n := bits x 64 5
  if base % 64 == 0 && decide (4 ≤ log2n ∧ log2n ≤ 20) && bits x 69 59 == 0 && bits x 320 192 == 0 then
    some (BitVec.ofNat 64 base, log2n, bits x 128 64, bits x 192 64, bits x 256 64)
  else none

def State.toManagement (s : State) (e : Errata) : State := { s with mgmtErr := s.mgmtErr ++ [e] }

def State.setLost (s : State) (c : Nat) (b : Bool) : State :=
  { s with ctxs := s.ctxs.modify c fun x => { x with lost := b } }

/-- Post a record to one context's queue (R386): the record, then WR + 1; or LOST + 1 where there is no room; or the
management queue where ERRQ is 0 or the header cannot be used. None while a page to be written is moving (R344). -/
def State.tryPost (s : State) (c : Nat) (e0 : Errata) : Option State :=
  let cx := s.context c
  if cx.errq = 0 ∨ cx.errq.toNat % 64 ≠ 0 then some (s.toManagement e0)
  else match s.readGlobal (dieUnit 0) c cx.errq 64 with
    | (.error _, s1) => some (s1.toManagement e0)
    | (.ok hdr, s1) =>
      match parseErrq hdr with
      | none => some (s1.toManagement e0)
      | some (base, log2n, wr, rd, lost) =>
        if (wr + 2 ^ 64 - rd) % 2 ^ 64 < 2 ^ log2n then
          let e := if cx.lost then { e0 with flags := e0.flags ||| flagLost } else e0
          match s1.writeGlobal (dieUnit 0) c (vaAdd base (64 * (wr % 2 ^ log2n))) e.bytes with
          | (.moving, _) => none
          | (.failed _, s2) => some (s2.toManagement e0)
          | (.done, s2) =>
            match s2.writeGlobal (dieUnit 0) c (vaAdd cx.errq 16) (leBytes (wr + 1) 8) with
            | (.moving, _) => none
            | (.failed _, s3) => some (s3.toManagement e0)
            | (.done, s3) => some (s3.setLost c false)
        else
          match s1.writeGlobal (dieUnit 0) c (vaAdd cx.errq 32) (leBytes (lost + 1) 8) with
          | (.moving, _) => none
          | (.failed _, s2) => some (s2.toManagement e0)
          | (.done, s2) => some (s2.setLost c true)

/-- A record of one context is posted behind those that wait for a moving page (R344, R386). -/
def State.postTo (s : State) (c : Nat) (e : Errata) : State :=
  match if s.lateErrata.any fun x => x.1 == c then none else s.tryPost c e with
  | some t => t
  | none => { s with lateErrata := s.lateErrata ++ [(c, e)] }

/-- The first context whose oldest waiting record can be posted now: the machine after it. -/
def State.postLate (s : State) : Option State :=
  (s.lateErrata.map Prod.fst).eraseDups.findSome? fun c =>
    (s.lateErrata.find? fun x => x.1 == c).bind fun x => { s with lateErrata := s.lateErrata.erase x }.tryPost c x.2

/-- Post a record (R386): severity 4 goes to every resident context and to management. -/
def State.post (s : State) (e : Errata) : State :=
  if e.sev = 4 then
    (((List.range Config.contexts).filter fun c => (s.context c).res).foldl
      (fun a c => a.postTo c { e with ctx := c }) s).toManagement e
  else s.postTo e.ctx e

/-- The syndrome and the physical location of a reliability error (R387): free values (log 9). -/
def State.reliabilityWords (s : State) : DWord × DWord × State :=
  (Config.syndrome s.recNo, Config.physLocation s.recNo, { s with recNo := s.recNo + 1 })

/-- The INDEX of the leaf's RCB of a gang, or 0xFFFF (R387). -/
def State.rcbIndexOf (s : State) (id : Nat) : Nat := ((s.rcb id).map Rcb.index).getD 0xFFFF

/-- A record about a warp: where it stands and whom it serves. A unit that is no warp gives no PC (R387). -/
def State.warpErrata (s : State) (slot : Nat) (w : Warp) (cause flags sev unit : Nat) (pc : DWord) (gseq skid : Nat)
    (lanes : Mask) (laddr w0 w1 : DWord) : Errata where
  cause := cause
  flags := flags ||| (if w.proof.isSome then flagChecked else 0)
  sev := sev
  unit := unit
  ctx := w.ctx
  rcbIdx := s.rcbIndexOf (s.warpRcb w)
  time := s.time
  laddr := laddr
  pc := if unit ≤ 1 then pc else 0
  gseq := gseq
  skid := skid
  lanes := lanes
  forme := slotForme slot
  quad := slotQuad slot
  slot := slotNum slot
  index := 0
  w0 := w0
  w1 := w1

/-- A record about a unit that is no warp (R387). -/
def State.unitErrata (s : State) (cause sev unit ctx rcbIdx index : Nat) (laddr w0 w1 : DWord) : Errata where
  cause := cause
  flags := 0
  sev := sev
  unit := unit
  ctx := ctx
  rcbIdx := rcbIdx
  time := s.time
  laddr := laddr
  pc := 0
  gseq := 0
  skid := 0
  lanes := 0
  forme := 0
  quad := 0
  slot := 0
  index := index
  w0 := w0
  w1 := w1

end Sys2Proof.Machine
end

