-- ==== Sys2Proof/Machine/Float.lean ====
section
/-! DEFINITION. Floating formats, exact values and rounding (R68 to R77). A finite value is held exactly, as an integer
times a power of two; every rounding is one function. -/

namespace Sys2Proof.Machine

/-- A binary format: exponent bits, fraction bits, and whether all-ones exponents hold infinities (R68, R76). -/
structure Fmt where
  ebits : Nat
  fbits : Nat
  inf : Bool
  deriving DecidableEq, Repr, Inhabited

def f32 : Fmt := ⟨8, 23, true⟩
def f16 : Fmt := ⟨5, 10, true⟩
def bf16 : Fmt := ⟨8, 7, true⟩
def f64 : Fmt := ⟨11, 52, true⟩
def e4m3 : Fmt := ⟨4, 3, false⟩
def e5m2 : Fmt := ⟨5, 2, true⟩

def Fmt.width (f : Fmt) : Nat := 1 + f.ebits + f.fbits
def Fmt.bias (f : Fmt) : Int := (2 ^ (f.ebits - 1) : Nat) - 1
/-- The exponent of the smallest normal. -/
def Fmt.emin (f : Fmt) : Int := 1 - f.bias
/-- The exponent of the smallest subnormal: the least unit in the last place. -/
def Fmt.qmin (f : Fmt) : Int := f.emin - f.fbits
def Fmt.expMask (f : Fmt) : Nat := (2 ^ f.ebits - 1) * 2 ^ f.fbits
def Fmt.signBit (f : Fmt) : Nat := 2 ^ (f.ebits + f.fbits)
def Fmt.quietBit (f : Fmt) : Nat := 2 ^ (f.fbits - 1)
/-- The code of the largest finite magnitude. -/
def Fmt.maxCode (f : Fmt) : Nat := if f.inf then f.expMask - 1 else f.signBit - 2
/-- The code of infinity; a format without one answers its NaN code. -/
def Fmt.infCode (f : Fmt) : Nat := if f.inf then f.expMask else f.signBit - 1
/-- The canonical quiet NaN (R68, R77). -/
def Fmt.nanCode (f : Fmt) : Nat := if f.inf then f.expMask + f.quietBit else f.signBit - 1
def Fmt.signed (f : Fmt) (neg : Bool) (x : Nat) : Nat := x + (if neg then f.signBit else 0)

/-- A value: a NaN with its fraction field, an infinity, a signed zero, or m·2^e with m not zero. -/
inductive FV where
  | nan (neg quiet : Bool) (frac : Nat)
  | inf (neg : Bool)
  | zero (neg : Bool)
  | fin (m e : Int)
  deriving DecidableEq, Repr, Inhabited

def FV.isNan : FV → Bool
  | .nan _ _ _ => true
  | _ => false
def FV.isFinite : FV → Bool
  | .zero _ | .fin _ _ => true
  | _ => false
def FV.isZero : FV → Bool
  | .zero _ => true
  | _ => false
def FV.neg? : FV → Bool
  | .nan s _ _ => s
  | .inf s => s
  | .zero s => s
  | .fin m _ => decide (m < 0)
def FV.negate : FV → FV
  | .nan s q f => .nan (!s) q f
  | .inf s => .inf (!s)
  | .zero s => .zero (!s)
  | .fin m e => .fin (-m) e
def FV.snan : FV → Bool
  | .nan _ q _ => !q
  | _ => false

/-- The value of a code (R68, R76). -/
def Fmt.decode (f : Fmt) (x : Nat) : FV :=
  let neg := bits x (f.ebits + f.fbits) 1 == 1
  let e := bits x f.fbits f.ebits
  let m := bits x 0 f.fbits
  if f.inf && e == 2 ^ f.ebits - 1 then
    if m = 0 then .inf neg else .nan neg (decide (f.quietBit ≤ m)) m
  else if !f.inf && x % f.signBit == f.signBit - 1 then .nan neg true m
  else if e = 0 then
    if m = 0 then .zero neg else .fin (if neg then -(m : Int) else m) f.qmin
  else
    let n : Int := ((2 ^ f.fbits + m : Nat) : Int)
    .fin (if neg then -n else n) (f.qmin + (e : Int) - 1)

/-- Flags of `sr.fpflags` (R21). -/
abbrev Flags := BitVec 6
def NX : Flags := 1
def UF : Flags := 2
def OF : Flags := 4
def DZ : Flags := 8
def NV : Flags := 16
def ILO : Flags := 32

/-- A code with the flags its making set. -/
structure FRes where
  code : Nat
  flags : Flags
  deriving DecidableEq, Repr, Inhabited

/-- Whether a magnitude N + rest/2^k (rest of the value `rem`, half the value `half`) is rounded away from zero. -/
def roundUp (md : RM) (neg odd : Bool) (rem half : Nat) : Bool :=
  match md with
  | .rn => decide (half < rem) || (rem == half && odd)
  | .rz => false
  | .rp => decide (0 < rem) && !neg
  | .rm => decide (0 < rem) && neg

/-- Overflow goes to infinity, not to the largest finite value (R70). -/
def overflowToInf (md : RM) (neg : Bool) : Bool :=
  match md with
  | .rn => true
  | .rz => false
  | .rp => !neg
  | .rm => neg

/-- Round the magnitude M·2^E, M > 0, to units of 2^q: the integer and whether it is inexact. -/
def roundAt (md : RM) (neg : Bool) (M : Nat) (E q : Int) : Nat × Bool :=
  if q ≤ E then (M * 2 ^ (E - q).toNat, false)
  else
    let k := (q - E).toNat
    let n := M / 2 ^ k
    let r := M % 2 ^ k
    (if roundUp md neg (n % 2 == 1) r (2 ^ (k - 1)) then n + 1 else n, r != 0)

/-- The exponent of a magnitude M·2^E: that of its leading bit. -/
def topExp (M : Nat) (E : Int) : Int := (Nat.log2 M : Int) + E

/-- Round a finite non-zero m·2^e to a format (R70 to R73): code and flags. -/
def Fmt.round (f : Fmt) (md : RM) (m e : Int) : FRes :=
  let neg := decide (m < 0)
  let M := m.natAbs
  let t := topExp M e
  let q := max (t - f.fbits) f.qmin
  let (n, inexact) := roundAt md neg M e q
  let code := ((q - f.qmin).toNat) * 2 ^ f.fbits + n
  if f.maxCode < code then
    ⟨f.signed neg (if overflowToInf md neg then f.infCode else f.maxCode), OF ||| NX⟩
  else
    ⟨f.signed neg code, (if inexact then NX else 0) ||| (if inexact && decide (t < f.emin) then UF else 0)⟩

/-- The exact product; none when it is invalid. -/
def FV.mul : FV → FV → Option FV
  | .inf s, .inf t => some (.inf (s != t))
  | .inf _, .zero _ => none
  | .zero _, .inf _ => none
  | .inf s, .fin m _ => some (.inf (s != decide (m < 0)))
  | .fin m _, .inf s => some (.inf (s != decide (m < 0)))
  | .zero s, x => some (.zero (s != x.neg?))
  | x, .zero s => some (.zero (s != x.neg?))
  | .fin m e, .fin n g => some (.fin (m * n) (e + g))
  | x, _ => some x

/-- The sum of two dyadics, aligned. -/
def addDyadic (m e n g : Int) : Int × Int :=
  if e ≤ g then (m + n * 2 ^ (g - e).toNat, e) else (m * 2 ^ (e - g).toNat + n, g)

/-- The exact sum; an exact zero takes the sign of R72; none when it is invalid. -/
def FV.add (md : RM) : FV → FV → Option FV
  | .inf s, .inf t => if s = t then some (.inf s) else none
  | .inf s, _ => some (.inf s)
  | _, .inf s => some (.inf s)
  | .zero s, .zero t => some (.zero (if s = t then s else md == .rm))
  | .zero _, x => some x
  | x, .zero _ => some x
  | .fin m e, .fin n g =>
    let (a, b) := addDyadic m e n g
    if a = 0 then some (.zero (md == .rm)) else some (.fin a b)
  | x, _ => some x

/-- Deliver an exact value that is no NaN in a format. -/
def Fmt.deliver (f : Fmt) (md : RM) : FV → FRes
  | .nan _ _ _ => ⟨f.nanCode, 0⟩
  | .inf s => ⟨f.signed s f.infCode, 0⟩
  | .zero s => ⟨f.signed s 0, 0⟩
  | .fin m e => f.round md m e

/-- An invalid operation without NaN inputs: the canonical NaN and NV (R74). -/
def Fmt.invalid (f : Fmt) : FRes := ⟨f.nanCode, NV⟩

def Fmt.deliver? (f : Fmt) (md : RM) : Option FV → FRes
  | none => f.invalid
  | some x => f.deliver md x

/-- The code of a NaN input as a result: sign and payload kept, quiet bit set (R74). -/
def Fmt.nanOf (f : Fmt) (neg : Bool) (frac : Nat) : Nat := f.signed neg (f.expMask + (frac ||| f.quietBit))

/-- The result for NaN inputs (R74): the first NaN in operand order, NV when any input is signalling; none when no input
is a NaN. -/
def Fmt.nanResult (f : Fmt) (l : List FV) : Option FRes :=
  match l.find? FV.isNan with
  | some (.nan s _ frac) => some ⟨f.nanOf s frac, if l.any FV.snan then NV else 0⟩
  | _ => none

/-- A NaN of one format in another (R74): the most significant fraction bits kept. -/
def nanConvert (src dst : Fmt) (neg : Bool) (frac : Nat) : Nat :=
  dst.nanOf neg (if dst.fbits ≤ src.fbits then frac / 2 ^ (src.fbits - dst.fbits) else frac * 2 ^ (dst.fbits - src.fbits))

/-- Compare two values that are no NaN: less, equal, greater; the zeros are equal. -/
def FV.cmp : FV → FV → Ordering
  | .inf s, .inf t => if s = t then .eq else if s then .lt else .gt
  | .inf s, _ => if s then .lt else .gt
  | _, .inf s => if s then .gt else .lt
  | .zero _, .zero _ => .eq
  | .zero _, .fin m _ => if m < 0 then .gt else .lt
  | .fin m _, .zero _ => if m < 0 then .lt else .gt
  | .fin m e, .fin n g =>
    let d := (addDyadic m e (-n) g).1
    if d < 0 then .lt else if d = 0 then .eq else .gt
  | _, _ => .eq

/-- Less, with −0 below +0 (R115, R220). -/
def FV.below (a b : FV) : Bool :=
  match a, b with
  | .zero s, .zero t => s && !t
  | _, _ => a.cmp b == .lt

/-! ### Operations with canonical NaNs: Platen, atomics, Feeders (R75) -/

/-- A sum rounded with RN, every NaN canonical (R75). -/
def Fmt.addCanon (f : Fmt) (a b : FV) : Nat :=
  if a.isNan || b.isNan then f.nanCode else (f.deliver? .rn (FV.add .rn a b)).code

/-- The exact sum of a list, zeros under R72; none when a NaN or an invalid sum enters. -/
def sumExact : List FV → Option FV
  | [] => some (.zero false)
  | x :: t => t.foldl (fun acc y => if y.isNan then none else acc.bind fun z => FV.add .rn z y)
      (if x.isNan then none else some x)

/-- A list's exact sum rounded once with RN; every NaN canonical (R75). -/
def Fmt.sumCanon (f : Fmt) (l : List FV) : Nat :=
  match sumExact l with
  | none => f.nanCode
  | some x => (f.deliver .rn x).code

/-- Minimum or maximum of IEEE 754-2019 with −0 below +0; a NaN gives the canonical NaN (R75, R220). -/
def Fmt.minmaxCanon (f : Fmt) (max : Bool) (x y : Nat) : Nat :=
  let a := f.decode x
  let b := f.decode y
  if a.isNan || b.isNan then f.nanCode
  else if max then (if a.below b then y else x) else (if b.below a then y else x)

end Sys2Proof.Machine
end

