-- ==== Sys2Proof/Machine/Perform.lean ====
section
/-! DEFINITION. What one part of a memory access does at its home when it is performed: loads, stores, atomics (R220 to
R223), barriers (R226, R229), counters (R232). -/

namespace Sys2Proof.Machine

/-- f(old, x) of the atomics (R220). -/
def aopApply (op : AOp) (old x : Nat) : Nat :=
  let half (f : Fmt) : Nat :=
    f.addCanon (f.decode (bits old 0 16)) (f.decode (bits x 0 16)) +
      2 ^ 16 * f.addCanon (f.decode (bits old 16 16)) (f.decode (bits x 16 16))
  match op with
  | .addI32 => (old + x) % 2 ^ 32
  | .addI64 => (old + x) % 2 ^ 64
  | .addF32 => f32.addCanon (f32.decode old) (f32.decode x)
  | .addF16x2 => half f16
  | .addBf16x2 => half bf16
  | .minI32 => if toSigned x 32 < toSigned old 32 then x else old
  | .minN32 => if x < old then x else old
  | .maxI32 => if toSigned old 32 < toSigned x 32 then x else old
  | .maxN32 => if old < x then x else old
  | .minF32 => f32.minmaxCanon false old x
  | .maxF32 => f32.minmaxCanon true old x
  | .and => old &&& x
  | .or => old ||| x
  | .xor => old ^^^ x
  | .exch32 | .exch64 => x

def aopSize (op : AOp) : Nat := if op.is64 then 8 else 4

/-- Formats of the high and the low word of a catom (R222). -/
def pairHi : PairT → Fmt
  | .f32 => f32
  | .bf16 | .bf16f32 => bf16
def pairLo : PairT → Fmt
  | .f32 | .bf16f32 => f32
  | .bf16 => bf16
def pairHiSize : PairT → Nat
  | .f32 => 4
  | .bf16 | .bf16f32 => 2
def pairLoSize : PairT → Nat
  | .f32 | .bf16f32 => 4
  | .bf16 => 2

/-- Whether m·2^e is a value of a format exactly (R223). -/
def Fmt.exact (f : Fmt) (x : FV) : Bool :=
  match x with
  | .fin m e => (f.round .rn m e).flags == 0
  | _ => true

/-- The compensated update (R223): the new high word, the new low word, and the flag. `v` and `res` are f32 codes. -/
def catomUpdate (pt : PairT) (hv lv v res : Nat) : Nat × Nat × Bool :=
  let h := (pairHi pt).decode hv
  let x := if h.isNan || (f32.decode v).isNan then none else FV.add .rn h (f32.decode v)
  let hn := match x with
    | none => (pairHi pt).nanCode
    | some y => ((pairHi pt).deliver .rn y).code
  match x, (pairHi pt).decode hn with
  | some (.fin m e), .fin n g =>
    let (a, b) := addDyadic m e (-n) g
    let err : FV := if a = 0 then .zero false else .fin a b
    (hn, (pairLo pt).sumCanon [(pairLo pt).decode lv, err, f32.decode res], !(pairLo pt).exact err)
  | some (.fin m e), .zero _ =>
    (hn, (pairLo pt).sumCanon [(pairLo pt).decode lv, .fin m e, f32.decode res], !(pairLo pt).exact (.fin m e))
  | some (.zero _), .zero _ => (hn, (pairLo pt).sumCanon [(pairLo pt).decode lv, .zero false, f32.decode res], false)
  | _, _ => (hn, 0, false)

/-- The fields of a barrier object (R226). -/
structure Barrier where
  expect : Nat
  pending : Nat
  phase : Bool
  pbytes : Nat
  deriving DecidableEq, Repr, Inhabited

/-- Read a barrier object; none when it is malformed (R226). -/
def Barrier.parse (x : Nat) : Option Barrier :=
  let e := bits x 0 24
  let p := bits x 32 24
  if bits x 24 8 = 0 ∧ bits x 56 7 = 0 ∧ e ≠ 0 ∧ p ≤ e then some ⟨e, p, bits x 63 1 == 1, bits x 64 64⟩ else none

def Barrier.code (b : Barrier) : Nat := b.expect + 2 ^ 32 * b.pending + 2 ^ 63 * b.phase.toNat + 2 ^ 64 * b.pbytes

/-- A phase completes when PENDING and PBYTES are 0: PENDING is EXPECT again and PHASE is inverted (R226). -/
def Barrier.settle (b : Barrier) : Barrier :=
  if b.pending = 0 ∧ b.pbytes = 0 then { b with pending := b.expect, phase := !b.phase } else b

/-- An arrival (R229); none when the count exceeds PENDING. -/
def Barrier.arrive (b : Barrier) (count bytes : Nat) : Option Barrier :=
  if b.pending < count then none
  else some ({ b with pending := b.pending - count, pbytes := (b.pbytes + bytes) % 2 ^ 64 } : Barrier).settle

/-- A tied copy's bytes land (R248). -/
def Barrier.land (b : Barrier) (n : Nat) : Barrier :=
  ({ b with pbytes := (b.pbytes + 2 ^ 64 - n % 2 ^ 64) % 2 ^ 64 } : Barrier).settle

/-- The copy of a byte that a forme's L1 holds, if it holds one: keyed by forme and HBM key (R195). -/
def l1Key (forme key : Nat) : Nat := forme * 2 ^ 40 + key

/-- The copies that an L1 holds anew are readable. -/
def mendL1 (bad : List Nat) (first n : Nat) : List Nat := bad.filter fun x => !(decide (first ≤ x ∧ x < first + n))

/-- The L1 copies of the 16-byte units that n bytes touch follow their home (R186, R187). -/
def State.refreshL1 (s : State) (forme key n : Nat) : State :=
  if s.l1.isEmpty then s
  else
    let first := key / 16 * 16
    { s with l1bad := mendL1 s.l1bad (l1Key forme key) n, l1 := (List.range ((key + n + 15) / 16 * 16 - first)).foldl (fun acc i =>
        let a := l1Key forme (first + i)
        if (acc.get a).isSome then acc.set a (some (s.byte (.hbm (first + i)))) else acc) s.l1 }

/-- What a forme reads at a home, its own copies follow (R193). -/
def State.refreshHome (s : State) (forme : Nat) (p : Place) (n : Nat) : State :=
  match p with
  | .hbm k => s.refreshL1 forme k n
  | .scr _ _ _ => s

/-- Write bytes at their home on behalf of a forme, whose own copies follow (R187). -/
def State.store (s : State) (forme : Nat) (p : Place) (x n : Nat) : State :=
  (s.writeLe p x n).refreshHome forme p n

/-- The L1 copies of every forme of a sheet follow a home whose store they could read early (R190, R193). -/
def State.refreshSheet (s : State) (sheet : Nat) (p : Place) (n : Nat) : State :=
  match p with
  | .scr _ _ _ => s
  | .hbm k => { s with l1 := s.l1.map fun x =>
      if x.1 / 2 ^ 40 / 128 = sheet ∧ k ≤ x.1 % 2 ^ 40 ∧ x.1 % 2 ^ 40 < k + n then (x.1, some (s.byte (.hbm (x.1 % 2 ^ 40)))) else x }

/-- What performing a part did beside memory: the value returned, whether it met poison, an asynchronous cause (R229), and
the flag of a catom, or that the phase of a barrier goes on after an arrival. -/
structure Performed where
  s : State
  old : Nat
  poison : Bool
  cause : Option Nat
  flag : Bool

/-- A phase of a barrier has completed: nobody's arrival at it is open any more (R308). -/
def State.phaseDone (s : State) (p : Place) : State :=
  match p with
  | .hbm _ => s
  | .scr g b o => { s with warps := s.warps.map fun x => (x.1, x.2.map fun w =>
      if w.gang = g ∧ w.block = b then { w with arrivals := w.arrivals.filter fun y => y != o } else w) }

/-- Write a barrier object after a change of it. -/
def State.putBarrier (s : State) (forme : Nat) (p : Place) (before after : Barrier) : State :=
  let s1 := s.store forme p after.code 16
  if before.phase = after.phase then s1 else s1.phaseDone p

/-- Perform a part that is no load at its home (R212, R220 to R223, R229, R232). A poisoned word is left as it is
(R374). -/
def State.perform (s : State) (forme : Nat) (k : OpKind) (p : Piece) : Performed :=
  let bad := s.poisoned p.place p.size
  let old := s.readLe p.place p.size
  match k with
  | .load _ _ | .kload _ _ | .jload _ | .fence => ⟨s, old, bad, none, false⟩
  | .store =>
    let s1 := s.store forme p.place p.data p.size
    ⟨if 2 ≤ p.loc then s1.refreshSheet (forme / 128) p.place p.size else s1, 0, false, none, false⟩
  | .stc _ _ _ _ =>
    if bad then ⟨s, old, true, none, false⟩
    else ⟨s.store forme p.place ((old + p.data) % 2 ^ 64) p.size, old, false, none, false⟩
  | .atom op _ =>
    if bad then ⟨s, old, true, none, false⟩
    else ⟨s.store forme p.place (aopApply op old p.data) p.size, old, false, none, false⟩
  | .cas _ _ =>
    if bad then ⟨s, old, true, none, false⟩
    else if old = p.data then ⟨s.store forme p.place p.data2 p.size, old, false, none, false⟩
    else ⟨s.refreshHome forme p.place p.size, old, false, none, false⟩
  | .signal =>
    if bad then ⟨s, old, true, none, false⟩
    else ⟨s.store forme p.place ((old + p.data) % 2 ^ 64) p.size, old, false, none, false⟩
  | .catom pt _ =>
    if bad || s.poisoned p.place2 (pairLoSize pt) then ⟨s, old, true, none, false⟩
    else
      let (h, l, fl) := catomUpdate pt old (s.readLe p.place2 (pairLoSize pt)) p.data p.data2
      ⟨(s.store forme p.place h (pairHiSize pt)).store forme p.place2 l (pairLoSize pt), old, false, none, fl⟩
  | .arrive count bytes =>
    if bad then ⟨s, old, true, some 0xC8, false⟩
    else match Barrier.parse old with
      | none => ⟨s, old, false, some 0x81, false⟩
      | some b =>
        match b.arrive count bytes.toNat with
        | none => ⟨s, old, false, some 0x80, false⟩
        | some b' => ⟨s.putBarrier forme p.place b b', old, false, none, b.phase == b'.phase⟩

end Sys2Proof.Machine
end

