-- ==== Sys2Proof/Machine/Visible.lean ====
section
/-! DEFINITION. The stores in flight that a warp may read (R187, R196), and what a word of HBM4 may read as for a fetch or
through a constant window (R20, R30). -/

namespace Sys2Proof.Machine

def OpKind.isStore : OpKind → Bool
  | .store => true
  | _ => false

/-- The operations held for the proof warp (R406). -/
def Warp.lagOps (w : Warp) : List MemOp :=
  match w.proof with
  | none => []
  | some p => p.lag.filterMap Lag.op

/-- The operations of a warp in flight, those held for its proof warp included. -/
def Warp.inFlight (w : Warp) : List MemOp := w.pend ++ w.lagOps

/-- An operation of the Platen queue that stores (R168). -/
def PlatOp.storing (o : PlatOp) : Bool :=
  match o.instr with
  | .accSt _ => true
  | _ => false

/-- Two parts of accesses share a byte. -/
def Piece.overlaps (p q : Piece) : Bool :=
  p.place.overlaps p.size q.place q.size || p.place2.overlaps p.size q.place q.size ||
    p.place.overlaps p.size q.place2 q.size || p.place2.overlaps p.size q.place2 q.size

/-- The parts of stores of other warps that a warp may read before they are performed (R196), with their places in the
order in which they became readable. -/
def State.visible (s : State) (slot : Nat) : List (Nat × Piece) :=
  s.warpList.flatMap fun y =>
    if y.1 = slot then []
    else
      let least := if slotForme y.1 = slotForme slot then 1 else if slotSheet y.1 = slotSheet slot then 2 else 3
      y.2.pend.flatMap fun o => if o.kind.isStore then
        o.pieces.filterMap fun p => if !p.done && p.seq != 0 && decide (least ≤ p.loc) then some (p.seq, p) else none else []

/-- The byte of a part at a place. -/
def Piece.byteAt (p : Piece) (q : Place) (x : Nat) : Option Byte :=
  match p.place, q with
  | .hbm a, .hbm b => if a ≤ b ∧ b < a + p.size then some (BitVec.ofNat 8 (x / 2 ^ (8 * (b - a)))) else none
  | .scr g y a, .scr h z b =>
    if g = h ∧ y = z ∧ a ≤ b ∧ b < a + p.size then some (BitVec.ofNat 8 (x / 2 ^ (8 * (b - a)))) else none
  | _, _ => none

/-- The byte of the newest of several stored parts at a place. -/
def newestByte (l : List (Nat × Piece)) (q : Place) : Option Byte :=
  (l.foldl (fun acc x => match x.2.byteAt q x.2.data, acc with
    | none, _ => acc
    | some b, none => some (x.1, b)
    | some b, some (n, c) => if n ≤ x.1 then some (x.1, b) else some (n, c)) (none : Option (Nat × Byte))).map Prod.snd

/-- The unperformed stores of the warp itself before a load, with their places in the order of the readable ones: those
that only the warp reads come last, as they issued. `now` is greater than every place. -/
def Warp.ownStores (w : Warp) (now id : Nat) : List (Nat × Piece) :=
  w.inFlight.flatMap fun o => if o.kind.isStore && decide (o.id < id) then
    (o.pieces.filter fun p => !p.done).map fun p => (if p.seq = 0 then now + 1 + o.id else p.seq, p) else []

/-! ### The galley's forwarding -/

/-- The entry of a 64-byte block that a plain store may share (R397): the level's last plain entry for the block, unless a
younger strong entry holds one of the bytes, whose final value would then not be that of the last store (DEDUCED). -/
def Level.shared (lv : Level) (gs : Bool) (block : Nat) (offs : List Nat) : Option Held :=
  let l := (lv.held.filter fun h => h.gs == gs && h.block == block).reverse
  let younger := l.takeWhile fun h => h.strong.isSome
  if younger.any fun h => h.bytes.any fun b => offs.contains b.1 then none else l.find? fun h => h.strong.isNone

/-- Hold one byte: in the block's shared entry, a strong store in its own (R397). -/
def Level.holdByte (lv : Level) (id : Nat) (gs : Bool) (strong : Option (Ord × Scope)) (a : Nat) (b : Byte) : Level :=
  let at_ := if strong.isSome then lv.held.find? fun h => h.gs == gs && h.block == a / 64 && h.id == id && h.strong.isSome
    else lv.shared gs (a / 64) [a % 64]
  match at_ with
  | some h =>
    { lv with held := lv.held.map fun x => if x = h then
        { x with bytes := x.bytes.filter (fun y => y.1 != a % 64) ++ [(a % 64, b)], bad := x.bad.filter fun y => y != a % 64 }
        else x }
  | none => { lv with held := lv.held ++ [⟨id, gs, a / 64, [(a % 64, b)], [], strong⟩] }

/-- Hold the pieces of a store, lanes in ascending order (R186). -/
def Level.hold (lv : Level) (id : Nat) (gs : Bool) (strong : Option (Ord × Scope)) (pieces : List Piece) : Level :=
  pieces.foldl (fun acc p => (leBytes p.data p.size).zipIdx.foldl (fun a y =>
    a.holdByte id gs strong (p.va.toNat + y.2) y.1) acc) lv

/-- Change the innermost level. -/
def Warp.modInner (w : Warp) (f : Level → Level) : Warp :=
  match w.levels with
  | [] => w
  | lv :: t => { w with levels := f lv :: t }

/-- Compared work of the leader takes its place (R406). -/
def Warp.takeKept (w : Warp) (k : Keep) (op : MemOp) : Warp :=
  match k with
  | .perform => { w with pend := w.pend ++ [op] }
  | .galley gs =>
    w.modInner fun lv => lv.hold op.id gs (if op.ord = .plain then none else some (op.ord, op.scope)) op.pieces
  | .defer => w.modInner fun lv => { lv with deferred := lv.deferred ++ [.mem op] }

/-- The galley and the deferred queue as they will be when all that is held for comparison has matched: a region's own loads
forward from them, and their room is that of both. -/
def Warp.withLag (w : Warp) : Warp :=
  match w.proof with
  | none => w
  | some p => p.lag.foldl (fun a e => match e.op, e.cmd, e.keep with
      | _, _, .perform => a
      | some op, _, k => a.takeKept k op
      | none, some c, _ => a.modInner fun lv => { lv with deferred := lv.deferred ++ [.feed c] }
      | none, none, _ => a) w

/-- The byte that a level holds at a 64-byte block and offset: that of the newest entry of those asked for (R397). -/
def Level.heldByte (lv : Level) (f : Held → Bool) (gs : Bool) (block off : Nat) : Option Byte :=
  lv.held.foldl (fun acc h =>
    if f h ∧ h.gs = gs ∧ h.block = block then
      (match h.bytes.find? fun b => b.1 == off with
        | some b => some b.2
        | none => acc)
    else acc) none

/-- The byte that the galley forwards: the innermost level's (R397). -/
def Warp.forward (w : Warp) (gs : Bool) (a : Nat) : Option Byte :=
  w.levels.findSome? fun lv => lv.heldByte (fun _ => true) gs (a / 64) (a % 64)

/-- Whether the galley forwards a byte that is poisoned (R374, R411). -/
def Warp.forwardBad (w : Warp) (gs : Bool) (a : Nat) : Bool :=
  (w.levels.find? fun lv => (lv.heldByte (fun _ => true) gs (a / 64) (a % 64)).isSome).any fun lv =>
    (lv.held.reverse.find? fun h => h.gs == gs && h.block == a / 64 && h.bytes.any fun b => b.1 == a % 64).any fun h =>
      h.bad.contains (a % 64)

/-- Bytes of global memory with held stores laid over them: those of the entries asked for. -/
def Warp.overHeld (w : Warp) (f : Held → Bool) (va : Nat) (l : List Byte) : List Byte :=
  l.zipIdx.map fun b =>
    (w.levels.findSome? fun lv => lv.heldByte f false ((va + b.2) / 64) ((va + b.2) % 64)).getD b.1

/-! ### Older contents (R20, R30) -/

/-- The content that a place had before a write, among n bytes read there. -/
def Past.undo (x : Past) (key : Nat) (l : List Byte) : List Byte :=
  l.zipIdx.map fun b => if x.key ≤ key + b.2 then (x.old[key + b.2 - x.key]?).getD b.1 else b.1

/-- The contents of bytes of HBM4 from now back, as the newest n writes are undone one by one. -/
def undoAll (key : Nat) : List Past → List Byte → List (List Byte)
  | [], l => [l]
  | x :: t, l => l :: undoAll key t (x.undo key l)

/-- Every content that bytes of HBM4 have had since the history had a length. -/
def State.versions (s : State) (key n since : Nat) : List (List Byte) :=
  (undoAll key (s.past.take (s.past.length - since)) (s.bytes (.hbm key) n)).eraseDups

/-- Bytes with a store in flight laid over them. -/
def Piece.over (p : Piece) (at_ : Place) (l : List Byte) : List Byte :=
  l.zipIdx.map fun b => (p.byteAt (at_.add b.2) p.data).getD b.1

def insertSeq (x : Nat × Piece) : List (Nat × Piece) → List (Nat × Piece)
  | [] => [x]
  | y :: t => if x.1 < y.1 then x :: y :: t else y :: insertSeq x t

/-- The contents as the stores in flight that a warp may read come one after another. -/
def overAll (at_ : Place) : List (Nat × Piece) → List Byte → List (List Byte)
  | [], l => [l]
  | x :: t, l => l :: overAll at_ t (x.2.over at_ l)

/-- A store in flight that the warp's last fence at .device or wider was after: one that others could read then, or one that
the warp had issued before it. -/
def Warp.fenced (w : Warp) (now : Nat) (x : Nat × Piece) : Bool :=
  decide (x.1 ≤ w.constSeq) || decide (now < x.1 ∧ x.1 < now + 1 + w.constOwn)

/-- What n bytes of a word may read as through a constant window, the newest first (R20): whatever they have held since the
warp's last fence at .device or wider. -/
def State.homeVersions (s : State) (slot : Nat) (w : Warp) (p : Place) (n : Nat) : List (List Byte) :=
  match p with
  | .scr _ _ _ => [s.bytes p n]
  | .hbm k =>
    let l := ((w.ownStores s.opSeq s.opSeq ++ s.visible slot).foldr insertSeq []).filter fun x => x.2.place.overlaps x.2.size p n
    let later := (l.reverse.takeWhile fun x => !w.fenced s.opSeq x).reverse
    let home := if later.length = l.length then s.versions k n w.constSince else [s.bytes p n]
    let base := (l.take (l.length - later.length)).foldl (fun acc x => x.2.over p acc) (s.bytes p n)
    (overAll p later base).reverse ++ home.drop 1

/-- The same under the warp's own held stores (R204). -/
def State.constVersions (s : State) (slot : Nat) (w : Warp) (p : Place) (va n : Nat) : List (List Byte) :=
  let l := s.homeVersions slot w p n
  let must := l.map (w.withLag.overHeld (fun h => decide (h.id < w.constOwn)) va)
  ((w.withLag.overHeld (fun _ => true) va (l.headD [])) :: must).eraseDups

/-- Read n bytes of a word through a constant window: any of those contents. -/
def State.constBytes (s : State) (slot : Nat) (w : Warp) (p : Place) (va n : Nat) : List Byte × State :=
  let l := s.constVersions slot w p va n
  let x := s.pick l.length
  (l.getD x.1 [], x.2)

end Sys2Proof.Machine
end

