-- ==== Sys2Proof/Machine/Ops.lean ====
section
/-! DEFINITION. The shared operations of the machine: an instruction's completion, the kill of a gang and of a domain
(R266, R407 to R409), taking a trap and returning from one (R369 to R382), rollback (R401, R402), detected errors. -/

namespace Sys2Proof.Machine

abbrev Out := Host.Outcome State Fault Refusal

/-- The latches of a warp as a group finds them (R43): another lane mask than the last makes all four invalid. -/
def Regs.forGroup (r : Regs) (grp : Mask) : Regs := if r.lmask = grp then r else { r with lvalid := 0, lmask := grp }

/-- Run a warp instruction's meaning on the group that the issue opportunity chose: the head of `issue` is consumed.
An instruction for which no group has been chosen cannot happen. -/
def State.onSlot (s : State) (f : State → Slot → Warp → Regs → Out) : Out :=
  match s.issue with
  | [] => .fault .notEnabled
  | sl :: rest =>
    let s1 := { s with issue := rest }
    match s1.warp sl.w with
    | none => .fault .notEnabled
    | some w =>
      match w.side sl.proof with
      | none => .fault .notEnabled
      | some r => f s1 sl w (r.forGroup sl.grp)

/-- The address after an instruction. -/
def Slot.after (sl : Slot) : DWord := sl.pc + BitVec.ofNat 64 (4 * sl.len)

/-- What a leader leaves for its proof warp, and what the proof warp takes off (R404). -/
def Warp.follow (w : Warp) (sl : Slot) (entry : Lag) : Warp :=
  match w.proof with
  | none => w
  | some p =>
    if sl.proof then { w with proof := some { p with lag := p.lag.drop 1 } }
    else { w with proof := some { p with lag := p.lag ++ [entry] } }

/-- The plain entry of a leader's instruction in its proof warp's list. -/
def Slot.lag (sl : Slot) (w : Warp) : Lag :=
  { lanes := sl.grp, pc := sl.pc, len := sl.len, instr := sl.instr, gseq := w.r.gseq.toNat, compared := none, op := none,
    cmd := none, keep := .perform, arrive := false, depth := w.levels.length }

/-- An issued instruction's end: the registers are written, the group's PCs move on, `sr.gseq` advances (R21). -/
def State.finishWith (s : State) (sl : Slot) (r : Regs) (entry : Warp → Lag) : State :=
  s.modWarp sl.w fun w =>
    ((w.follow sl (entry w)).setSide sl.proof { r.setPc sl.grp sl.after with gseq := r.gseq + 1 })

def State.finish (s : State) (sl : Slot) (r : Regs) : State := s.finishWith sl r sl.lag

/-- As `finishWith`, the group's PCs staying at the instruction, which holds the lanes until `kind` ends (R274). -/
def State.holdWith (s : State) (sl : Slot) (r : Regs) (lanes : Mask) (kind : WaitKind) (entry : Warp → Lag) : State :=
  s.modWarp sl.w fun w =>
    let w1 := (w.follow sl (entry w)).setSide sl.proof
      { r.setPc (sl.grp &&& ~~~lanes) sl.after with gseq := r.gseq + 1 }
    { w1 with waits := w1.waits ++ [⟨lanes, kind, sl.len, r.gseq.toNat⟩] }

def State.holdAt (s : State) (sl : Slot) (r : Regs) (lanes : Mask) (kind : WaitKind) : State :=
  s.holdWith sl r lanes kind sl.lag

/-- End a wait: its lanes go on behind the instruction. -/
def Warp.endWait (w : Warp) (x : Wait) : Warp :=
  { w with
    waits := w.waits.filter fun y => y != x
    r := match lowest x.lanes with
      | none => w.r
      | some l => w.r.setPc x.lanes (w.r.pcGet l + BitVec.ofNat 64 (4 * x.len)) }

/-! ### The end of commands, work and gangs -/

/-- The base die's TLB for a command: that of its Feeder's sheet (R5, R342). -/
def Cmd.mmu (c : Cmd) : Nat := dieUnit (2 * (c.feeder / 4))

/-- Write a completion record (R243): the completion word and the time. A failure is logged with UNIT 3. None while its page
is moving (R344). -/
def State.writeCompletion (s : State) (c : Cmd) (word : Nat) : Option State :=
  match c.cr with
  | none => some s
  | some a =>
    match s.writeGlobal c.mmu c.ctx a (leBytes word 8 ++ leBytes s.time 8) with
    | (.done, s1) => some s1
    | (.moving, _) => none
    | (.failed (.cause k e), s1) =>
      some (s1.post (s1.unitErrata k 0 3 c.ctx (s1.rcbIndexOf c.rcb) c.feeder a 4 (BitVec.ofNat 64 e)))
    | (.failed .poison, s1) =>
      let (x, y, s2) := s1.reliabilityWords
      some (s2.post (s2.unitErrata 0xC2 0 3 c.ctx (s2.rcbIndexOf c.rcb) c.feeder a x y))

/-- A completion word (R243). -/
def completionWord (status step bytes : Nat) : Nat := status + 2 ^ 8 * step + 2 ^ 24 * bytes

/-- A queue halts in FAULTED; a FENCE that waits is abandoned, and any other packet in parse is accepted first (R324). -/
def State.haltQueue (s : State) (q cause : Nat) : State :=
  s.modQueue q fun x => match x.parse with
    | some (.unregister _) => { x with haltNext := some cause }
    | _ => { x with faulted := true, cause := cause, parse := none }

/-- Perform the parts of a lane of an operation that are not done. -/
def State.performLane (s : State) (forme : Nat) (op : MemOp) (l : Nat) : State :=
  op.pieces.foldl (fun a p => if p.lane = l ∧ !p.done then (a.perform forme op.kind p).s else a) s

/-- An access of a killed warp (R236): a load is discarded; each lane's access of any other is performed whole or not at
all. -/
def State.settleKilled (s : State) (forme : Nat) (op : MemOp) : State :=
  match op.kind with
  | .load _ _ | .kload _ _ | .jload _ | .fence => s
  | _ => ((op.pieces.filter fun p => !p.done).map Piece.lane).eraseDups.foldl (fun a l =>
      if op.pieces.any fun p => p.lane == l && p.done then a.performLane forme op l
      else
        let (k, a1) := a.pick 2
        if k = 1 then a1.performLane forme op l else a1) s

/-- Put an operation among others in issue order. -/
def insertOp (x : MemOp) : List MemOp → List MemOp
  | [] => [x]
  | y :: t => if x.id < y.id then x :: y :: t else y :: insertOp x t

/-- The accesses of a killed warp, in issue order. -/
def State.settleAll (s : State) (slot : Nat) (l : List MemOp) : State :=
  (l.foldr insertOp []).foldl (fun a op => a.settleKilled (slotForme slot) op) s

/-- A part of a store that others can read before it is performed: its place in their order, its warp, its operation and
its number there. -/
structure Readable where
  seq : Nat
  slot : Nat
  op : Nat
  part : Nat

def insertReadable (x : Readable) : List Readable → List Readable
  | [] => [x]
  | y :: t => if x.seq < y.seq then x :: y :: t else y :: insertReadable x t

/-- The parts of stores that others can read, in order (R196). -/
def State.readables (s : State) : List Readable :=
  (s.warpList.flatMap fun y => y.2.pend.flatMap fun o => if o.kind == .store then
    (o.pieces.zipIdx.filter fun p => !p.1.done && p.1.seq != 0).map fun p => ⟨p.1.seq, y.1, o.id, p.2⟩ else []).foldr
      insertReadable []

/-- Mark a part of an operation done. -/
def MemOp.doneAt (o : MemOp) (k : Nat) : MemOp :=
  { o with pieces := o.pieces.zipIdx.map fun y => if y.2 = k then { y.1 with done := true } else y.1 }

/-- Perform a part of a store at its home. -/
def State.landStore (s : State) (x : Readable) : State :=
  match (s.warp x.slot).bind fun w => (w.pend.find? fun o => o.id == x.op).bind fun o => o.pieces[x.part]? with
  | none => s
  | some p =>
    (s.perform (slotForme x.slot) .store p).s.modWarp x.slot fun w =>
      let l := w.pend.map fun o => if o.id = x.op then o.doneAt x.part else o
      { w with pend := l.filter fun o => !(o.id == x.op && o.pieces.all Piece.done) }

/-- Before a gang is discarded: a store of it that others may have read is performed, after those that stand before it
(R195, R196). -/
def State.landReadables (s : State) (ws : List (Nat × Warp)) : State :=
  if ws.any fun x => x.2.pend.any fun o => o.kind == .store && o.pieces.any fun p => !p.done && p.seq != 0 then
    s.readables.foldl State.landStore s
  else s

/-- Discard the warps of a gang with what is in flight for them (R156, R236, R259, R407). -/
def State.discardGang (s : State) (id : Nat) : State :=
  let s0 := s.landReadables (s.warpList.filter fun x => x.2.gang == id)
  let ws := s0.warpList.filter fun x => x.2.gang == id
  let saved := ((s0.gang id).map Gang.saved).getD []
  let s1 := (ws ++ saved).foldl (fun a x => a.settleAll x.1 x.2.pend) s0
  let s2 := ws.foldl (fun a x => a.dropWarp x.1) s1
  let mine (f : Freight) : Bool := match f with
    | .piece w _ _ | .warp w _ => ws.any fun x => x.1 == w
    | .post _ => false
  { s2 with
    chans := s2.chans.map fun c => (c.1, { c.2 with queue := c.2.queue.filter fun e => !mine e.2 })
    cmds := s2.cmds.map fun c => match c.owner with
      | .warp _ g => if g = id then { c with killed := true, suspended := false } else c
      | .queue _ _ => c
    issue := s2.issue.filter fun sl => (s2.warp sl.w).isSome
    gangs := s2.gangs.map fun g => if g.id = id then { g with saved := [], acks := [], yieldTo := none } else g }

/-- The gangs of a launch record. -/
def LaunchRec.total (l : LaunchRec) : Nat := l.gx * l.gy * l.gz

/-- A launch record with gangs not yet placed. -/
def Work.unplaced (w : Work) : Bool := (w.launch.map fun l => decide (w.next < l.total)).getD false

/-- A launch record whose gangs have all been placed and have finished (R272): it only completes. -/
def State.allFinished (s : State) (w : Work) : Bool :=
  w.launch.isSome && !w.unplaced && s.gangs.all fun g => g.launch != w.id

/-- Kill a fault domain (R262, R266), the subtree of its root: every gang is discarded and none relaunched, launches are
abandoned, their queues halt with 0xE0 (R324), but for records whose gangs have all finished; Feeder commands of packets that hang from it are killed (R320, R324). -/
def State.killDomain (s : State) (dom : Nat) : State :=
  let inDom (w : Work) : Bool := w.launch.isSome && s.under w.rcbId dom && !s.allFinished w
  let works := (s.works.filter inDom).map Work.id
  let gangs := (s.gangs.filter fun g => works.contains g.launch).map Gang.id
  let s0 := { s with cmds := s.cmds.map fun c => match c.owner with
      | .queue _ _ => if s.under c.rcb dom then { c with killed := true } else c
      | .warp _ _ => c }
  let s1 := gangs.foldl State.discardGang s0
  let s2 := { s1 with gangs := s1.gangs.filter fun g => !gangs.contains g.id }
  let s3 := (s2.works.filter fun w => works.contains w.id).foldl (fun a w => a.haltQueue w.queue 0xE0) s2
  { s3 with works := s3.works.filter fun w => !works.contains w.id }

/-- Whether a killed gang is relaunched (R408). -/
def State.mayRelaunch (s : State) (g : Gang) : Bool :=
  match s.work g.launch with
  | none => false
  | some w => ((w.launch.map LaunchRec.relaunch).getD false) && decide (g.relaunches < s.retryOf w.rcbId)

/-- Kill a gang (R407 to R409): one record is posted with the severity of the outcome. -/
def State.killGang (s : State) (id : Nat) (e : Errata) : State :=
  match s.gang id with
  | none => s
  | some g =>
    if s.mayRelaunch g then
      let s1 := (s.discardGang id).modGang id fun x => { x with
        phase := .waitRelaunch
        blocks := if g.phase = .suspended then x.blocks.map fun b => { b with released := true } else x.blocks }
      s1.post { e with sev := 2 }
    else
      let dom := s.domainOf (s.gangRcb g)
      let s1 := s.discardGang id
      (s1.post { e with sev := 3 }).killDomain dom

/-! ### Multi-clock results (R93) -/

/-- The enabled flags an instruction set (R370). -/
def enabledFlags (r : Regs) (flags : Flags) : BitVec 6 := flags &&& r.tmask

/-- The lowest set flag. -/
def lowestFlag (x : BitVec 6) : Option Nat := (List.range 6).find? fun i => x.getLsbD i

/-- The arithmetic trap of an instruction that set enabled flags (R370): asynchronous, with the lowest flag's cause and
every flag the instruction set in W0. -/
def arithErr (r : Regs) (flags : Flags) (pc : DWord) (gseq : Nat) (act : Mask) (level time : Nat) : Option AsyncErr :=
  (lowestFlag (enabledFlags r flags)).map fun i =>
    { cause := 0x40 + i, pc := pc, gseq := gseq, lanes := act, laddr := 0, w0 := flags.zeroExtend 64, w1 := 0, unit := 0,
      index := 0, level := level, time := time, soft := false }

/-- Set sticky flags (R23). -/
def Regs.setFlags (r : Regs) (flags : Flags) : Regs := { r with fpflags := r.fpflags ||| flags.zeroExtend 64 }

/-- The reliability range (R367). -/
def reliability (cause : Nat) : Bool := decide (0xC0 ≤ cause ∧ cause < 0xE0)

/-- The skid of an error (R375): the instructions issued after X. -/
def Warp.skid (w : Warp) (e : AsyncErr) : Nat := w.r.gseq.toNat - (e.gseq + 1)

/-- The record of an asynchronous error of a warp (R387). -/
def State.asyncErrata (s : State) (slot : Nat) (w : Warp) (e : AsyncErr) (flags sev : Nat) : Errata :=
  { s.warpErrata slot w e.cause (flagAsync ||| (if e.soft then flagSoft else 0) ||| flags) sev e.unit e.pc e.gseq
      (if reliability e.cause then w.skid e else 0) e.lanes e.laddr e.w0 e.w1 with index := e.index, time := e.time }

/-- Queue an asynchronous error for a warp (R373, R377): outside a handler any number waits for the boundary; inside,
the queue has four entries and a fifth error is not delivered. -/
def State.queueAsync (s : State) (slot : Nat) (e : AsyncErr) : State :=
  match s.warp slot with
  | none => s
  | some w =>
    if w.r.inHandler && decide (4 ≤ w.async.length) then
      if reliability e.cause then s.killGang w.gang (s.asyncErrata slot w e flagUndelivered 0)
      else s.post (s.asyncErrata slot w e flagUndelivered 0)
    else s.setWarp slot { w with async := w.async ++ [e] }

/-- The warp of a gang that stands, or stood when the gang was suspended, in a slot (R329). -/
def State.ownerWarp (s : State) (slot gang : Nat) : Option Warp :=
  match (s.warp slot).filter fun w => w.gang == gang with
  | some w => some w
  | none => ((s.gang gang).map Gang.saved).bind fun l => (l.find? fun x => x.1 == slot).map Prod.snd

/-- Change that warp. -/
def State.modOwner (s : State) (slot gang : Nat) (f : Warp → Warp) : State :=
  if (s.warp slot).any fun w => w.gang == gang then s.modWarp slot f
  else s.modGang gang fun g => { g with saved := g.saved.map fun x => if x.1 = slot then (x.1, f x.2) else x }

/-- An asynchronous error for that warp: for a suspended one it is delivered after its resumption (R329). -/
def State.queueFor (s : State) (slot gang : Nat) (e : AsyncErr) : State :=
  if (s.warp slot).any fun w => w.gang == gang then s.queueAsync slot e
  else match s.ownerWarp slot gang with
    | none => s
    | some w =>
      if w.r.inHandler && decide (4 ≤ w.async.length) then
        if reliability e.cause then s.killGang gang (s.asyncErrata slot w e flagUndelivered 0)
        else s.post (s.asyncErrata slot w e flagUndelivered 0)
      else s.modOwner slot gang fun y => { y with async := y.async ++ [e] }

/-- Write one pending result (R93) with its flags. -/
def State.writeResult (s : State) (slot : Nat) (x : Result) : State :=
  match s.warp slot with
  | none => s
  | some w =>
    let w1 := { w with results := w.results.filter fun y => y != x }
    match w1.side x.proof with
    | none => s.setWarp slot w1
    | some r =>
      let r1 := ((r.writeV x.vw).writeS x.sw).setFlags x.flags
      let r2 := match x.pd with
        | none => r1
        | some p => r1.pset p.val x.act x.pm
      let s1 := s.setWarp slot (w1.setSide x.proof r2)
      if x.proof then s1
      else match arithErr r x.flags x.pc x.gseq x.act w.levels.length s.time with
        | none => s1
        | some e => s1.queueAsync slot e

/-- Write every pending result: a boundary waits for them (R93, R372). -/
def State.flushResults (s : State) (slot : Nat) : State :=
  match s.warp slot with
  | none => s
  | some w => w.results.foldl (fun a x => a.writeResult slot x) s

/-! ### Taking a trap (R369 to R378) -/

/-- A load is sent again after a boundary; everything else in flight goes on (R236). -/
def MemOp.replayed (op : MemOp) : Bool :=
  match op.kind with
  | .load _ _ | .kload _ _ | .jload _ => true
  | _ => false

/-- The issue number of a replayed instruction. -/
def Replay.gseq : Replay → Nat
  | .mem op => op.gseq
  | .plat op => op.gseq

/-- Put an instruction into a queue in issue order (R378). -/
def insertReplay (x : Replay) : List Replay → List Replay
  | [] => [x]
  | y :: t => if x.gseq < y.gseq then x :: y :: t else y :: insertReplay x t

/-- What a trap carries into its record and registers. `sync` gives the group, the active lanes and the resume PC of a
synchronous fault; `extra` what joins the replay queue. -/
structure TrapInfo where
  cause : Nat
  sync : Option (Mask × Mask × DWord)
  laddr : DWord
  flags : Nat
  unit : Nat
  pc : DWord
  gseq : Nat
  skid : Nat
  lanes : Mask
  w0 : DWord
  w1 : DWord
  index : Nat
  time : Nat
  extra : List Replay

/-- An stc whose pointer update has not returned (R306). -/
def MemOp.isStc (op : MemOp) : Bool :=
  match op.kind with
  | .stc _ _ _ _ => true
  | _ => false

/-- What a trap holds in the replay queue (R156, R236, R378), in issue order: loads in flight, after an operand fault the
Platen operations, and what the trap itself adds. -/
def Warp.toReplay (w : Warp) (extra : List Replay) : List Replay :=
  (extra ++ (w.pend.filter MemOp.replayed).map Replay.mem ++ (if w.platHeld then w.platen.map Replay.plat else [])).foldr
    insertReplay []

/-- No load that would be sent again lies before a store or atomic of the warp on the same bytes: such a load ends before
the boundary (R187, R372, log 54). -/
def Warp.loadsSettled (w : Warp) : Bool :=
  w.pend.all fun op => !op.replayed ||
    (w.inFlight.all (fun o => decide (o.id ≤ op.id) || o.replayed ||
       o.pieces.all fun q => q.done || op.pieces.all fun p => p.done || !p.overlaps q) &&
     w.platen.all fun o => !(o.storing && decide (op.id < o.id)))

/-- A boundary can be taken: no bank drains, the warp is not migrating, no stc is between its update and its elements,
at most 16 instructions would be held, `extra` among them (R236, R307, R312, R378), and the loads held would read the bytes
that they read now. -/
def Warp.boundaryWith (w : Warp) (extra : List Replay) : Bool :=
  w.waits.all (fun x => match x.kind with
    | .drain _ _ | .migrating _ _ => false
    | _ => true) &&
  w.inFlight.all (fun op => !op.isStc) && decide ((w.toReplay extra).length ≤ Config.replayMax) && w.loadsSettled

def Warp.boundary (w : Warp) : Bool := w.boundaryWith []

/-- The record of a trap or of the kill that takes its place. -/
def State.trapRecord (s : State) (slot : Nat) (w : Warp) (t : TrapInfo) : Errata :=
  { s.warpErrata slot w t.cause ((if t.sync.isSome then flagPrecise else flagAsync) ||| t.flags) 0 t.unit t.pc t.gseq
      t.skid t.lanes t.laddr t.w0 t.w1 with index := t.index, time := t.time }

/-- The entry registers and the frame of one side of a warp (R372, R376): the handler group is every live lane that does
not wait at a jwait. -/
def Regs.enter (r : Regs) (group : Mask) (t : TrapInfo) (time : Nat) (replay : List Replay) : Regs :=
  let f : Frame :=
    { cause := t.cause, time := time, gseq := r.gseq.toNat, group := group,
      trapping := match t.sync with
        | some (g, _, _) => g
        | none => 0
      live := r.live, pcs := (lanesOf group).foldl (fun acc l => acc.set l (r.pcGet l)) [],
      s60 := r.sget 60, s61 := r.sget 61, p1 := r.pget 1, js := r.j, latch := r.latch, lvalid := r.lvalid,
      lmask := r.lmask, badL := r.badL, ages := r.ages, replay := replay }
  let resume : DWord := match t.sync with
    | some (_, _, pc) => pc
    | none => 0
  let act : Mask := match t.sync with
    | some (_, a, _) => a
    | none => 0
  let r1 := ((r.sset 60 resume).sset 61 t.laddr).pset 1 (BitVec.allOnes 32) act
  { (r1.setPc group r.vec).dropLatches with frame := some f }

/-- A leader's wait that a trap takes off is issued again after tret: its proof warp passes the first issue without moving
on (R372, R405). -/
def Warp.takenOff (w : Warp) (e : Lag) : Lag :=
  if w.waits.any fun x => !x.isJ && x.gseq == e.gseq && x.len != 0 then { e with len := 0 } else e

/-- The entry that lets the proof warp take its leader's trap (R405). -/
def TrapInfo.entry (t : TrapInfo) (slot : Nat) (w : Warp) (group : Mask) (r1 : Regs) : Lag :=
  let trapping : Mask := match t.sync with
    | some (g, _, _) => g
    | none => 0
  { lanes := group, pc := r1.vec, len := 0, instr := .takeTrap slot, gseq := w.r.gseq.toNat
    compared := some ⟨r1.sget 60, r1.pget 1, [], [r1.sget 61, BitVec.ofNat 64 t.cause, trapping.zeroExtend 64]⟩
    op := none, cmd := none, keep := .perform, arrive := t.sync.isSome, depth := w.levels.length }

/-- Take a trap (R372): the one operation every exception of a warp goes through. The warp is not in its handler and its
VEC is not 0. -/
def State.enterHandler (s0 : State) (slot : Nat) (t : TrapInfo) : State :=
  let s := s0.flushResults slot
  match s.warp slot with
  | none => s
  | some w =>
    let group := w.r.live &&& ~~~w.jwaiting
    let r1 := w.r.enter group t s.time (w.toReplay t.extra)
    let w1 := { w with
      r := r1
      pend := w.pend.filter fun op => !op.replayed
      platen := if w.platHeld then [] else w.platen
      platHeld := false
      waits := w.waits.filter Wait.isJ
      proof := w.proof.map fun p => { p with lag := (p.lag.map (w.takenOff)) ++ [t.entry slot w group r1] } }
    let s1 := s.setWarp slot w1
    s1.post (s1.trapRecord slot w t)

/-- A warp meets a handler-bound cause at a boundary (R369, R372, R377): a trap, or the kill of the gang where VEC = 0,
or a double fault inside the handler. Where the boundary must wait, nothing happens yet. -/
def State.takeTrap (s : State) (slot : Nat) (t : TrapInfo) : State :=
  match s.warp slot with
  | none => s
  | some w =>
    match w.r.frame with
    | some f =>
      s.killGang w.gang { s.trapRecord slot w t with cause := 0x69, w0 := BitVec.ofNat 64 t.cause,
                                                     w1 := BitVec.ofNat 64 f.cause, laddr := t.laddr }
    | none =>
      if !w.boundaryWith t.extra then s
      else if w.r.vec = 0 then s.killGang w.gang (s.trapRecord slot w t)
      else s.enterHandler slot t

/-- A synchronous fault of the instruction at hand (R371, R372): it takes no effect. -/
structure SyncFault where
  cause : Nat
  laddr : DWord
  w0 : DWord
  w1 : DWord
  flags : Nat
  deriving DecidableEq, Repr, Inhabited

/-- A fault with nothing logged. -/
def SyncFault.plain (cause : Nat) : SyncFault := ⟨cause, 0, 0, 0, 0⟩

/-- Raise a synchronous fault with a resume PC of one's own (R372, R380, R307). -/
def State.raiseAt (s : State) (sl : Slot) (act : Mask) (f : SyncFault) (resume : DWord) (extra : List Replay) : State :=
  let gs := ((s.warp sl.w).map fun w => w.r.gseq.toNat).getD 0
  s.takeTrap sl.w
    { cause := f.cause, sync := some (sl.grp, act, resume), laddr := f.laddr, flags := f.flags, unit := 0, pc := sl.pc,
      gseq := gs, skid := 0, lanes := act, w0 := f.w0, w1 := f.w1, index := 0, time := s.time, extra := extra }

/-- Raise a synchronous fault precisely: the whole group resumes at the instruction. A proof warp raises nothing of its
own (R405). -/
def State.raise (s : State) (sl : Slot) (act : Mask) (f : SyncFault) : State := s.raiseAt sl act f sl.pc []

/-- The trap of a queued asynchronous error (R372): no trapping lanes, resume PC 0. -/
def AsyncErr.trap (e : AsyncErr) (skid : Nat) (extra : List Replay) : TrapInfo :=
  { cause := e.cause, sync := none, laddr := e.laddr, flags := 0, unit := e.unit, pc := e.pc, gseq := e.gseq, skid := skid,
    lanes := e.lanes, w0 := e.w0, w1 := e.w1, index := e.index, time := e.time, extra := extra }

/-! ### Returning from a trap (R381, R382) -/

/-- The sets at tret (R376, R381): every field as saved, ARRIVED within the lanes still waiting at a jwait on the set. -/
def restoreSets (js : SMap JSet) (waits : List Wait) : SMap JSet :=
  js.filterMap fun x =>
    let still := waits.foldl (fun m y => match y.kind with
      | .jwait j => if j.val = x.1 then m ||| y.lanes else m
      | _ => m) (0 : Mask)
    let v : JSet := { x.2 with arrived := x.2.arrived &&& still }
    if v = default then none else some (x.1, v)

/-- tret on one side of a warp (R381). -/
def Regs.leave (r : Regs) (f : Frame) (waits : List Wait) : Regs :=
  let rp := r.sget 60
  let back := f.group &&& r.live
  let pcs := (lanesOf back).foldl (fun acc l => acc.set l (if lane f.trapping l then rp else f.pcs.get l)) r.pc
  let r1 := ((r.sset 60 f.s60).sset 61 f.s61).pset 1 (BitVec.allOnes 32) f.p1
  { r1 with pc := pcs, j := restoreSets f.js waits, latch := f.latch, lvalid := f.lvalid, lmask := f.lmask, badL := f.badL, ages := f.ages,
            frame := none }

/-! ### Detected errors and rollback (R375, R401 to R403) -/

/-- Detect an error for a warp's instruction (R375): it waits for a boundary, or for tret inside a handler (R377). -/
def State.detect (s : State) (slot : Nat) (e : AsyncErr) : State :=
  match s.warp slot with
  | none => s
  | some w =>
    if w.r.inHandler then s.queueAsync slot e
    else if reliability e.cause || e.soft then s.setWarp slot { w with det := w.det ++ [e] }
    else s.queueAsync slot e

/-- An error detected for an instruction, with the free words of its record (R387). -/
def State.detectFor (s : State) (slot cause : Nat) (pc : DWord) (gseq : Nat) (lanes : Mask) (laddr : DWord)
    (unit level : Nat) : State :=
  let (x, y, s1) := s.reliabilityWords
  s1.detect slot { cause := cause, pc := pc, gseq := gseq, lanes := lanes, laddr := laddr, w0 := x, w1 := y, unit := unit,
                   index := 0, level := level, time := s.time, soft := false }

/-- The level that absorbs an error (R401, R402): the innermost with a retry left among those open when X issued; 0 when
none. Levels are numbered from the outermost, 1. -/
def Warp.absorber (w : Warp) (level : Nat) : Nat :=
  let n := min level w.levels.length
  ((List.range n).reverse.map (· + 1)).find? (fun k => decide (0 < ((w.level k).map Level.retry).getD 0)) |>.getD 0

/-- Restore the kept state of a level (R401, R283). -/
def Level.restore (l : Level) (r : Regs) : Regs :=
  let v := l.kv.foldl (fun acc x => (x.2.zipIdx).foldl (fun a y => a.set (x.1 * 32 + y.2) y.1) acc) r.v
  let s := l.ks.foldl (fun acc x => acc.set x.1 x.2) r.s
  let p := l.kp.foldl (fun acc x => acc.set x.1 x.2) r.p
  let j0 : SMap JSet := r.j.filterMap fun x =>
    let y : JSet := { x.2 with arrived := 0 }
    if y = default then none else some (x.1, y)
  let j := l.kj.foldl (fun acc x => acc.set x.1 x.2) j0
  { r with v := v, s := s, p := p, j := j }

/-- Put a kept tile back. -/
def restoreTile (t : Nat) (kept : SMap Word) (tiles : SMap Word) : SMap Word :=
  kept.foldl (fun acc x => acc.set (t * 4096 + x.1) x.2) (tiles.filter fun x => x.1 / 4096 != t)

/-- What a level's kept state overwrites loses its errors (R401). -/
def Level.mend (l : Level) (w : Warp) : Warp :=
  { w with
    badV := w.badV.filter fun x => !(l.kv.any fun y => y.1 == x / 32)
    badS := w.badS.filter fun x => !(l.ks.any fun y => y.1 == x)
    badP := w.badP.filter fun x => !(l.kp.any fun y => y.1 == x)
    badJ := w.badJ.filter fun x => !(l.kj.any fun y => y.1 == x)
    badT := w.badT.filter fun x => !(l.kt.any fun y => y.1 == x / 4096) }

/-- Roll a warp back to level k (R401), k ≥ 1. -/
def Warp.rollTo (w : Warp) (k cause : Nat) (soft : Bool) : Warp :=
  match w.levels.drop (w.levels.length - k) with
  | [] => w
  | l :: outer =>
    let r1 := l.restore { w.r with frame := none }
    let r2 : Regs := { ((r1.setPc r1.live l.label).dropLatches) with ages := [] }
    { l.mend w with
      r := r2
      tiles := l.kt.foldl (fun acc x => restoreTile x.1 x.2 acc) w.tiles
      waits := []
      pend := w.pend.filter fun op => !op.replayed
      platen := if w.platHeld then [] else w.platen
      platHeld := false
      heldTok := []
      levels := { l with retry := l.retry - 1, held := [], deferred := [] } :: outer
      lastCause := cause
      rolls := min 255 (w.rolls + 1)
      soft := soft
      proof := w.proof.map fun p => { p with r := r2, lag := [], values := [], strides := [] } }

/-- The severity of a gang's kill (R408, R409). -/
def State.killSev (s : State) (id : Nat) : Nat := if (s.gang id).any s.mayRelaunch then 2 else 3

/-- A level whose kept state and held stores have no uncorrectable error, from k outwards; 0 when there is none (R403). -/
def Warp.soundLevel (w : Warp) : Nat → Nat
  | 0 => 0
  | k + 1 => if ((w.level (k + 1)).map fun l => l.badKept || l.retry == 0 || l.held.any fun h => !h.bad.isEmpty).getD true then w.soundLevel k else k + 1

/-- Deliver the detected errors of a warp at a boundary (R373, R401 to R403): one rollback to the outermost of the
absorbing levels, or to a level outside it where kept state cannot be read; or the kill of the gang. Each error posts its
record with the severity of the outcome, a kill's own record being that of the first error that no region absorbs. Nothing
happens while the warp's Platen operations run (R156). -/
def State.deliverDetected (s0 : State) (slot : Nat) : State :=
  match s0.warp slot with
  | none => s0
  | some w0 =>
    match w0.det with
    | [] => s0
    | e :: rest =>
      let all := e :: rest
      let target := (all.map fun x => w0.absorber x.level).foldl min (w0.absorber e.level)
      let sound := w0.soundLevel target
      if sound = 0 then
        let first := (all.find? fun x => w0.absorber x.level == 0).getD e
        let sev := s0.killSev w0.gang
        let s1 := (all.filter fun x => x != first).foldl (fun a x => a.post (a.asyncErrata slot w0 x 0 sev)) s0
        s1.killGang w0.gang (s1.asyncErrata slot w0 first 0 0)
      else if !(w0.platen.isEmpty || w0.platHeld) then s0
      else
        let s := s0.flushResults slot
        match s.warp slot with
        | none => s
        | some w =>
          let last := (all.getLast?).getD e
          let s1 := s.setWarp slot { (w.rollTo sound last.cause last.soft) with det := [] }
          all.foldl (fun a x => a.post (a.asyncErrata slot w x 0 1)) s1

/-- The oldest of some errors, the first of those of one time (R373). -/
def oldestErr : List AsyncErr → Option AsyncErr
  | [] => none
  | e :: t => match oldestErr t with
    | none => some e
    | some x => if e.time ≤ x.time then some e else some x

/-- The oldest error that waits for a warp is taken at this boundary (R373, R377): a trap, with `extra` in its replay queue;
or, in the reliability range, a rollback or a kill. Nothing happens in a handler, or where the boundary cannot be taken. -/
def State.takeQueued (s : State) (slot : Nat) (extra : List Replay) : State :=
  match s.warp slot with
  | none => s
  | some w =>
    if w.r.inHandler || !w.boundaryWith extra then s
    else match oldestErr (w.det ++ w.async) with
      | none => s
      | some e =>
        if w.det.contains e then s.deliverDetected slot
        else if reliability e.cause then
          (s.modWarp slot fun y => { y with async := y.async.erase e, det := y.det ++ [e] }).deliverDetected slot
        else (s.modWarp slot fun y => { y with async := y.async.erase e }).takeTrap slot (e.trap 0 extra)

end Sys2Proof.Machine
end

