-- ==== Sys2Proof/Machine/Operands.lean ====
section
/-! DEFINITION. The source operands (R35, R36): registers, latches, constants, literals and the constant windows
(R19, R20). -/

namespace Sys2Proof.Machine

/-- What one instruction reads its operands from: the registers at issue, the 64 bits its window operand read, the
active lanes, and the number of its free values. -/
structure Rd where
  r : Regs
  win : Nat
  act : Mask
  seq : Nat

/-- π, ln 2 and log2 e to 64 bits and more; every format rounds them with RN (R36). -/
def piBits : Int × Int := (0x3243F6A8885A308D3, -64)
def ln2Bits : Int × Int := (0xB17217F7D1CF79AB, -64)
def log2eBits : Int × Int := (0x171547652B82FE177, -64)

/-- A floating constant in a format (R36, the table of floating inline constants). -/
def fconst (f : Fmt) (c : Nat) : Nat :=
  match c with
  | 0 => (f.round .rn 1 (-1)).code
  | 1 => (f.round .rn (-1) (-1)).code
  | 2 => (f.round .rn 1 (-2)).code
  | 3 => (f.round .rn (-1) (-2)).code
  | 4 => (f.round .rn 1 (-3)).code
  | 5 => (f.round .rn 3 (-1)).code
  | 6 => f.signed false f.infCode
  | 7 => f.signed true f.infCode
  | 8 => f.nanCode
  | 9 => f.maxCode
  | 10 => 2 ^ f.fbits
  | 11 => 1
  | 12 => f.signBit
  | 13 => (f.round .rn piBits.1 piBits.2).code
  | 14 => (f.round .rn ln2Bits.1 ln2Bits.2).code
  | _ => (f.round .rn log2eBits.1 log2eBits.2).code

/-- The value of an integer constant's code (R35). -/
def intConst (c : Fin 48) : Int := (c.val : Int) - 16

/-- A small integer exactly in a format (R36). -/
def intAsFloat (f : Fmt) (n : Int) : Nat := if n = 0 then 0 else (f.round .rn n 0).code

/-- A 32-bit position (R36). -/
def Rd.word (x : Rd) (a : Src) (l : Nat) : Nat :=
  match a with
  | .v k => (x.r.vget k.val l).toNat
  | .s k => (x.r.sget k.val).toNat % 2 ^ 32
  | .b k => (x.r.latchGet k.val l).toNat
  | .int c => wrap (intConst c) 32
  | .flt c => fconst f32 c.val
  | .lit w => w.toNat
  | .win _ _ => x.win % 2 ^ 32

/-- A 64-bit position (R36). -/
def Rd.dword (x : Rd) (a : Src) (l : Nat) : Nat :=
  match a with
  | .v k => (x.r.vpair k.val l).toNat
  | .s k => (x.r.sget k.val).toNat
  | .b k => (x.r.latchGet k.val l).toNat + 2 ^ 32 * (x.r.latchGet (k.val + 1) l).toNat
  | .int c => wrap (intConst c) 64
  | .flt _ => 0
  | .lit w => wrap (toSigned w.toNat 32) 64
  | .win _ _ => x.win % 2 ^ 64

/-- The lane whose word an instruction that acts once takes where a position that admits any operand code names a vector
register or a latch (R36, R229, R234): one of the active lanes, the spec does not say which (log 41). -/
def Rd.once (r : Regs) (act : Mask) : Nat := (lanesOf act).getD (Config.positionLane r.gseq.toNat % countOf act) 0

/-- An integer position of w bits, as a code. -/
def Rd.code (x : Rd) (a : Src) (w l : Nat) : Nat := if w = 64 then x.dword a l else x.word a l % 2 ^ w

/-- A data position of an integer type, as its value (R89). -/
def Rd.int (x : Rd) (t : Ty) (a : Src) (l : Nat) : Int :=
  if t.signed then toSigned (x.code a t.width l) t.width else (x.code a t.width l : Nat)

/-- A 32-bit position read as i32. -/
def Rd.i32 (x : Rd) (a : Src) (l : Nat) : Int := toSigned (x.word a l) 32

/-- A lone floating position: the code in the format (R36, R69). -/
def Rd.flt (x : Rd) (f : Fmt) (a : Src) (l : Nat) : Nat :=
  match a with
  | .int c => intAsFloat f (intConst c)
  | .flt c => fconst f c.val
  | .lit w => w.toNat % 2 ^ f.width
  | a => x.word a l % 2 ^ f.width

/-- A packed-pair position: the codes of element 0 and element 1 (R36, R69). -/
def Rd.pair (x : Rd) (f : Fmt) (a : Src) (l : Nat) : Nat × Nat :=
  match a with
  | .int c => (intAsFloat f (intConst c), intAsFloat f (intConst c))
  | .flt c => (fconst f c.val, fconst f c.val)
  | a => (x.word a l % 2 ^ 16, bits (x.word a l) 16 16)

/-- The window that sources name, with the words read: two where a 64-bit position names it (R36). `wide` lists whether
each source stands in a 64-bit position. -/
def winOf (l : List (Src × Bool)) : Option (Nat × Nat × Nat) :=
  l.foldl (fun acc x => match x.1, acc with
    | .win k off, none => some (k.val, off.toNat, if x.2 then 2 else 1)
    | .win k off, some (_, _, n) => some (k.val, off.toNat, if x.2 then 2 else n)
    | _, _ => acc) none

/-- Read one word of global memory through a warp's constant cache: what it holds, or has held since the warp's last fence at
.device or wider (R20). -/
def State.constWord (s : State) (slot ctx : Nat) (va : DWord) : Except NoTrans Nat × State :=
  match s.translate (slotQuadId slot) ctx va .read with
  | (.error x, s1) => (.error x, s1)
  | (.ok p, s1) =>
    if s1.poisoned p.place 4 then (.error .poison, s1)
    else match s1.warp slot with
      | none => (.ok (s1.readLe p.place 4), s1)
      | some w =>
        let x := s1.constBytes slot w p.place va.toNat 4
        (.ok (leNat x.1), x.2)

/-- Read n words through the constant cache: the number they make and whether one was poisoned, or the failing word's
address. -/
def State.constWords (s : State) (slot ctx : Nat) (va : DWord) : Nat → Except (Nat × Nat × DWord) (Nat × Bool) × State
  | 0 => (.ok (0, false), s)
  | n + 1 =>
    match s.constWord slot ctx va with
    | (.error (.cause c e), s1) => (.error (c, e, va), s1)
    | (.error .poison, s1) =>
      match s1.constWords slot ctx (vaAdd va 4) n with
      | (.error x, s2) => (.error x, s2)
      | (.ok (y, _), s2) => (.ok (Config.poisonValue s2.opSeq n % 2 ^ 32 + 2 ^ 32 * y, true), s2)
    | (.ok x, s1) =>
      match s1.constWords slot ctx (vaAdd va 4) n with
      | (.error z, s2) => (.error z, s2)
      | (.ok (y, b), s2) => (.ok (x + 2 ^ 32 * y, b), s2)

def causeWindowBound : Nat := 0x28

/-- Read the window operand of an instruction with an active lane (R36, R19); the second answer is poison met. -/
def State.readWindow (s : State) (slot : Nat) (w : Warp) (win : Option (Nat × Nat × Nat)) :
    Except SyncFault (Nat × Bool) × State :=
  match win with
  | none => (.ok (0, false), s)
  | some (k, off, n) =>
    let (base, len) := w.windows.getD k (0, 0)
    let va := vaAdd base (4 * off)
    if len < 4 * off + 4 * n then (.error ⟨causeWindowBound, va, 0, 0, 0⟩, s)
    else match s.constWords slot w.ctx va n with
      | (.error (c, e, a), s1) => (.error ⟨c, a, 0, BitVec.ofNat 64 e, 0⟩, s1)
      | (.ok x, s1) => (.ok x, s1)

/-- As `readWindow` under an instruction's active lanes: with none the window is not read (R36). A poisoned word is
consumed: 0xC2 is detected (R374). A proof warp raises nothing of its own (R405). -/
def State.operandWindow (s : State) (sl : Slot) (w : Warp) (act : Mask) (win : Option (Nat × Nat × Nat)) :
    Except SyncFault Nat × State :=
  if act = 0 then (.ok 0, s)
  else match s.readWindow sl.w w win with
    | (.error e, s1) => if sl.proof then (.ok 0, s1) else (.error e, s1)
    | (.ok (x, bad), s1) =>
      if bad && !sl.proof then
        (.ok x, s1.detectFor sl.w 0xC2 sl.pc w.r.gseq.toNat act 0 0 w.levels.length)
      else (.ok x, s1)

end Sys2Proof.Machine
end

