-- ==== Sys2Proof/Machine/Flags.lean ====
section
/-! DEFINITION. Results of the vector pipeline: the words, the predicate bits and the flags of an instruction, its
latches and its write-back (R23, R37, R41, R42, R89, R90, R93, R94, R370). -/

namespace Sys2Proof.Machine

/-- What an instruction computes in one lane: the words of its destination, its value as a 64-bit scalar, its predicate
bit and the flags it raised. -/
structure LaneRes where
  ws : List Word
  sx : DWord
  p : Bool
  flags : Flags
  deriving DecidableEq, Repr, Inhabited

/-- One word, zero-extended in a scalar. -/
def LaneRes.word (x : Nat) : LaneRes := ⟨[BitVec.ofNat 32 x], BitVec.ofNat 64 (x % 2 ^ 32), false, 0⟩

/-- One word with flags. -/
def LaneRes.ofFRes (x : FRes) : LaneRes := ⟨[BitVec.ofNat 32 x.code], BitVec.ofNat 64 x.code, false, x.flags⟩

/-- Two halves of a packed pair (R69). -/
def LaneRes.ofPair (x y : FRes) : LaneRes :=
  ⟨[BitVec.ofNat 32 (x.code + 2 ^ 16 * y.code)], 0, false, x.flags ||| y.flags⟩

/-- A pair, low word first. -/
def LaneRes.dword (x : Nat) : LaneRes :=
  ⟨[BitVec.ofNat 32 x, BitVec.ofNat 32 (x / 2 ^ 32)], BitVec.ofNat 64 x, false, 0⟩

/-- A predicate bit alone. -/
def LaneRes.bit (b : Bool) : LaneRes := ⟨[], 0, b, 0⟩

/-- Several words. -/
def LaneRes.words (l : List Nat) (fl : Flags) : LaneRes := ⟨l.map (BitVec.ofNat 32), 0, false, fl⟩

/-- A result of type t (R67, R89): extended into its word, and into 64 bits in a scalar, by its signedness. -/
def LaneRes.ofTy (t : Ty) (x : Nat) : LaneRes :=
  if t.width = 64 then .dword x
  else if t.signed then
    ⟨[BitVec.ofNat 32 (wrap (toSigned x t.width) 32)], BitVec.ofNat 64 (wrap (toSigned x t.width) 64), false, 0⟩
  else ⟨[BitVec.ofNat 32 (x % 2 ^ t.width)], BitVec.ofNat 64 (x % 2 ^ t.width), false, 0⟩

/-- The least and the greatest value of a type (R90). -/
def Ty.lo (t : Ty) : Int := if t.signed then -(2 ^ (t.width - 1) : Nat) else 0
def Ty.hi (t : Ty) : Int := if t.signed then (2 ^ (t.width - 1) : Nat) - 1 else (2 ^ t.width : Nat) - 1

/-- An exact value delivered in a type: wrapped, or clamped with .sat (R90). -/
def deliverInt (t : Ty) (sat : Bool) (x : Int) : LaneRes :=
  .ofTy t (wrap (if sat then max (Ty.lo t) (min x (Ty.hi t)) else x) t.width)

/-- An instruction of the vector pipeline: guard, destination, predicate destination, its window operand, whether it
takes more than one clock, whether it draws free values, and what it computes in a lane. -/
structure VecOp where
  g : Guard
  d : Option Dst
  pd : Option (Fin 8)
  win : Option (Nat × Nat × Nat)
  multi : Bool
  free : Bool
  f : Rd → Nat → LaneRes
  /-- Words written whatever the activity of their lanes: the scale bytes of cvt.blk .auto (R139). -/
  extra : Rd → List (Nat × Word) := fun _ => []

/-- The results by lane: every active lane, or the lowest alone in the uniform form (R37). -/
def VecOp.table (o : VecOp) (x : Rd) : List (Nat × LaneRes) :=
  match o.d with
  | some (.s _) => match lowest x.act with
    | none => []
    | some l => [(l, o.f x l)]
  | _ => (lanesOf x.act).map fun l => (l, o.f x l)

/-- The writes of vector registers: words from D on in each lane. -/
def vecWrites (d : Option Dst) (tab : List (Nat × LaneRes)) : List (Nat × Word) :=
  match d with
  | some (.v k) => tab.flatMap fun x => x.2.ws.zipIdx.map fun y => ((k.val + y.2) * 32 + x.1, y.1)
  | _ => []

/-- The write of a scalar destination. -/
def scalarWrites (d : Option Dst) (tab : List (Nat × LaneRes)) : List (Nat × DWord) :=
  match d with
  | some (.s k) => tab.map fun x => (k.val, x.2.sx)
  | _ => []

/-- The predicate bits: of each active lane; in the uniform form one bit for all of them (R97). -/
def predBits (d : Option Dst) (act : Mask) (tab : List (Nat × LaneRes)) : Mask :=
  match d with
  | some (.s _) => if tab.any fun x => x.2.p then act else 0
  | _ => maskOf fun l => tab.any fun x => x.1 == l && x.2.p

/-- The flags of all lanes. -/
def allFlags (tab : List (Nat × LaneRes)) : Flags := tab.foldl (fun a x => a ||| x.2.flags) 0

/-- The word of a lane that enters b0 (R41): the word written to D, or the unchanged word of D, or 0 with NW. -/
def latchWord (r : Regs) (d : Dst) (tab : List (Nat × LaneRes)) (l : Nat) : Word :=
  match tab.find? fun x => x.1 == l with
  | some x => (x.2.ws.head?).getD 0
  | none => match d with
    | .v k => r.vget k.val l
    | _ => 0

/-- The latches after an instruction: a vector destination or b0 shifts them (R41, R42). -/
def Regs.latchesAfter (r : Regs) (grp : Mask) (d : Option Dst) (tab : List (Nat × LaneRes)) : Regs :=
  match d with
  | some (.v k) => r.shiftLatches grp (latchWord r (.v k) tab)
  | some .b0 => r.shiftLatches grp (latchWord r .b0 tab)
  | _ => r

/-- The registers after a one-clock instruction: vector words, scalar, predicate bits, flags. -/
def Regs.vecAfter (r : Regs) (grp act : Mask) (d : Option Dst) (pd : Option (Fin 8)) (tab : List (Nat × LaneRes))
    (extra : List (Nat × Word)) : Regs :=
  let r1 := (((r.latchesAfter grp d tab).writeV (vecWrites d tab ++ extra)).writeS (scalarWrites d tab)).setFlags (allFlags tab)
  match pd with
  | none => r1
  | some p => r1.pset p.val act (predBits d act tab)

/-- What a multi-clock instruction will write (R93). -/
def pendingResult (sl : Slot) (r : Regs) (act : Mask) (d : Option Dst) (pd : Option (Fin 8))
    (tab : List (Nat × LaneRes)) (extra : List (Nat × Word)) : Result :=
  { vw := vecWrites d tab ++ extra, sw := scalarWrites d tab, pd := pd, pm := predBits d act tab, flags := allFlags tab,
    act := act, pc := sl.pc, gseq := r.gseq.toNat, proof := sl.proof }

/-- Queue the arithmetic trap of flags that an instruction set (R370). The proof warp takes its leader's traps. -/
def State.trapFlags (s : State) (sl : Slot) (r : Regs) (act : Mask) (fl : Flags) : State :=
  if sl.proof then s
  else match arithErr r fl sl.pc r.gseq.toNat act (((s.warp sl.w).map fun w => w.levels.length).getD 0) s.time with
    | none => s
    | some e => s.queueAsync sl.w e

/-- The end of an instruction of the vector pipeline. -/
def State.vecDone (s : State) (sl : Slot) (r : Regs) (o : VecOp) (x : Rd) : State :=
  let tab := o.table x
  if o.multi then
    (s.finish sl (r.latchesAfter sl.grp o.d tab)).modWarp sl.w fun w =>
      { w with results := w.results ++ [pendingResult sl r x.act o.d o.pd tab (o.extra x)] }
  else
    (s.finish sl (r.vecAfter sl.grp x.act o.d o.pd tab (o.extra x))).trapFlags sl r x.act (allFlags tab)

/-- An instruction of the vector pipeline (R33, R34, R36, R37, R41): the window is read, or its fault raised; then every
active lane computes and the results are written. -/
def State.vec (s : State) (o : VecOp) : Out :=
  s.onSlot fun s1 sl w r =>
    let act := active r sl.grp o.g
    match s1.operandWindow sl w act o.win with
    | (.error e, s2) => .next (s2.raise sl act e)
    | (.ok x, s2) =>
      let s3 := if o.free then { s2 with opSeq := s2.opSeq + 1 } else s2
      .next (s3.vecDone sl r o ⟨r, x, act, s2.opSeq⟩)

end Sys2Proof.Machine
end

