-- ==== Sys2Proof/Machine/Address.lean ====
section
/-! DEFINITION. Addresses of memory instructions: forming them (R207), checking them (R19, R173, R174, R179, R208, R214),
counting bank conflicts (R176), translating them (R208, R341, R344), and what the galley forwards (R397). -/

namespace Sys2Proof.Machine

/-- The spaces that an instruction names by its opcode (R172); a window by its number. -/
inductive Space where
  | global | block | gang | priv
  | window (k : Fin 8)
  deriving DecidableEq, Repr, Inhabited

def causeMisaligned : Nat := 0x23
def causeScratchBound : Nat := 0x24
def causeScratchAway : Nat := 0x25
def causeBankMode : Nat := 0x26
def causeBankGrant : Nat := 0x27
def causePrivateBound : Nat := 0x29
def causeSplitHome : Nat := 0x2A

/-- The base of an address: 64 bits in global space, else 32 (R207). -/
def Rd.base (x : Rd) (wide : Bool) (b : ABase) (l : Nat) : Nat :=
  match b with
  | .zero => 0
  | .s k => if wide then (x.r.sget k.val).toNat else (x.r.sget k.val).toNat % 2 ^ 32
  | .v k => if wide then (x.r.vpair k.val l).toNat else (x.r.vget k.val l).toNat

/-- The index: a signed pair, or a 32-bit word sign-extended (R207). -/
def Rd.index (x : Rd) (ip : Bool) (b : ABase) (l : Nat) : Int :=
  match b with
  | .zero => 0
  | .s k => toSigned (x.r.sget k.val).toNat 32
  | .v k => if ip then toSigned (x.r.vpair k.val l).toNat 64 else toSigned (x.r.vget k.val l).toNat 32

/-- The effective address of a lane (R207). -/
def Rd.ea (x : Rd) (wide : Bool) (base idx : ABase) (ip : Bool) (n : Nat) (off : Int) (l : Nat) : Int :=
  (x.base wide base l : Nat) + x.index ip idx l * n + off

/-- The lanes of an access: every active lane, or one for a uniform destination (R210). -/
def accessLanes (act : Mask) (uniform : Bool) : List Nat :=
  if uniform then (match lowest act with
    | none => []
    | some l => [l])
  else lanesOf act

/-- Whether scratch can be reached: a warp in a landing slot has none (R174). -/
def State.scratchBlock (s : State) (slot : Nat) (w : Warp) (b : Nat) : Option Block :=
  if w.away slot then none else s.scrBlock w.gang b

/-- One part of an access: its lane, where it lies, its virtual address or offset, its bytes; whether its page has an
interleaved home, and whether it is cached in an L1 (R338). -/
structure Part where
  lane : Nat
  place : Place
  va : DWord
  size : Nat
  inter : Bool
  cached : Bool
  deriving DecidableEq, Repr, Inhabited

/-- What stops an access: a fault, a page that is moving (R344), a poisoned table entry (R374). -/
inductive MemStop where
  | fault (f : SyncFault)
  | moving (va : DWord)
  | poison (va : DWord)
  deriving DecidableEq, Repr, Inhabited

/-- The kinds of access in W0 of a record (R387). -/
def kindLoad : Nat := 0
def kindStore : Nat := 1
def kindAtomic : Nat := 2
def kindFetch : Nat := 3
def kindEngine : Nat := 4

def memFault (cause : Nat) (a : Int) (kind : Nat) : MemStop :=
  .fault ⟨cause, BitVec.ofNat 64 (wrap a 64), BitVec.ofNat 64 kind, 0, 0⟩

/-- The checks of form: canonical or 32-bit, and alignment (R207, R208). -/
def checkForm (sp : Space) (size kind : Nat) (ea : Int) : Option MemStop :=
  match sp with
  | .global =>
    if !canonical (BitVec.ofNat 64 (wrap ea 64)) then some (memFault causeNonCanonical ea kind)
    else if ea % size ≠ 0 then some (memFault causeMisaligned ea kind) else none
  | _ =>
    if ea < 0 ∨ 2 ^ 32 ≤ ea then
      some (memFault (match sp with
        | .priv => causePrivateBound
        | .window _ => causeWindowBound
        | _ => causeScratchBound) ea kind)
    else if ea % size ≠ 0 then some (memFault causeMisaligned ea kind) else none

/-- The block and the offset that a scratch offset names (R174). -/
def scratchTarget (sp : Space) (w : Warp) (o : Nat) : Nat × Nat :=
  match sp with
  | .gang => (bits o 19 13, o % 2 ^ 19)
  | _ => (w.block, o)

/-- The mode of the bank that holds a unit of a block's scratch (R175). -/
def Block.unitMode (b : Block) (o : Nat) : BankMode := b.modes.getD (o / 64 % b.banks.length) .scratch

/-- The checks of bound and bank (R19, R174, R179, R214). -/
def State.checkBound (s : State) (slot : Nat) (w : Warp) (sp : Space) (size kind : Nat) (ea : Int) : Option MemStop :=
  let o := ea.toNat
  match sp with
  | .global => none
  | .priv => if w.priv < o + size then some (memFault causePrivateBound ea kind) else none
  | .window k =>
    let (base, len) := w.windows.getD k.val (0, 0)
    if len < o + size then some (memFault causeWindowBound (base.toNat + ea) kind) else none
  | _ =>
    let (b, off) := scratchTarget sp w o
    match s.scratchBlock slot w b with
    | none => some (memFault causeScratchBound ea kind)
    | some x =>
      if x.bytes < off + size then some (memFault causeScratchBound ea kind)
      else if x.unitMode off ≠ .scratch then some (memFault causeBankMode ea kind)
      else none

/-- The virtual address of byte o of a lane's private space (R173). -/
def privateVa (w : Warp) (l o : Nat) : DWord := vaAdd w.privBase (128 * (o / 4) + 4 * l + o % 4)

/-- Translate the parts of an access that lie in global memory (R208). A page marked as moving holds stores and atomics
(R344). -/
def State.translateAll (s : State) (u ctx : Nat) (n : Need) (kind : Nat) :
    List (Nat × DWord × Nat) → Except MemStop (List Part) × State
  | [] => (.ok [], s)
  | (l, va, size) :: t =>
    match s.translate u ctx va n with
    | (.error .poison, s1) => (.error (.poison va), s1)
    | (.error (.cause c e), s1) => (.error (.fault ⟨c, va, BitVec.ofNat 64 kind, BitVec.ofNat 64 e, 0⟩), s1)
    | (.ok p, s1) =>
      if p.mig && (n == .write || n == .readWrite) then (.error (.moving va), s1)
      else match s1.translateAll u ctx n kind t with
        | (.error x, s2) => (.error x, s2)
        | (.ok l', s2) => (.ok (⟨l, p.place, va, size, p.inter, p.cp == 0⟩ :: l'), s2)

/-- The parts in global memory of one lane's access: one, or its words in private space (R173) and through a window, whose
base need only be a multiple of 4 (R19). -/
def globalParts (w : Warp) (sp : Space) (l : Nat) (ea : Int) (size : Nat) : List (Nat × DWord × Nat) :=
  match sp with
  | .priv => (List.range ((size + 3) / 4)).map fun k => (l, privateVa w l (ea.toNat + 4 * k), min size 4)
  | .window k => (List.range ((size + 3) / 4)).map fun i =>
      (l, vaAdd (w.windows.getD k.val (0, 0)).1 (ea.toNat + 4 * i), min size 4)
  | _ => [(l, BitVec.ofNat 64 (wrap ea 64), size)]

/-- The distinct elements of a list. -/
def distinct (l : List Nat) : List Nat := l.foldl (fun acc x => if acc.contains x then acc else x :: acc) []

/-- What accesses to units of one block add to `sr.bankconf` (R176). -/
def conflicts (nb : Nat) (units : List Nat) : Nat :=
  let u := distinct units
  (List.range nb).foldl (fun acc k => acc + ((u.filter fun x => x % nb == k).length - 1)) 0

/-- The conflicts of a scratch access by all its lanes, block by block (R176). -/
def State.bankConflicts (s : State) (slot : Nat) (w : Warp) (sp : Space) (l : List (Nat × Int)) : Nat :=
  match sp with
  | .block | .gang =>
    let t := l.map fun x => scratchTarget sp w x.2.toNat
    (List.range 4).foldl (fun acc q =>
      let b := if sp = .block then w.block else q
      if sp = .block ∧ q ≠ 0 then acc
      else acc + conflicts (((s.scratchBlock slot w b).map fun x => x.banks.length).getD 0)
        ((t.filter fun x => x.1 == b).map fun x => x.2 / 64)) 0
  | _ => 0

/-- Every check of an access in the order of R208, and the parts of its lanes; the bank conflicts it counts. -/
def State.access (s : State) (slot : Nat) (w : Warp) (sp : Space) (size : Nat) (n : Need) (kind : Nat)
    (l : List (Nat × Int)) : Except MemStop (List Part) × State :=
  let scratch := sp = .block ∨ sp = .gang
  if scratch ∧ w.away slot then
    (.error (memFault causeScratchAway (((l.head?).map Prod.snd).getD 0) kind), s)
  else match (l.filterMap fun x => checkForm sp size kind x.2).head? with
    | some e => (.error e, s)
    | none => match (l.filterMap fun x => s.checkBound slot w sp size kind x.2).head? with
      | some e => (.error e, s)
      | none =>
        if scratch then
          (.ok (l.map fun x =>
            let (b, o) := scratchTarget sp w x.2.toNat
            ⟨x.1, .scr w.gang b o, BitVec.ofNat 64 x.2.toNat, size, false, true⟩), s)
        else s.translateAll (slotQuadId slot) w.ctx n kind (l.flatMap fun x => globalParts w sp x.1 x.2 size)

/-- The bytes forwarded to a part, as a mask of bytes and their value. -/
def Warp.forwardPart (w : Warp) (gs : Bool) (p : Part) : Nat × Nat :=
  (List.range p.size).foldl (fun acc k =>
    match w.forward gs (p.va.toNat + k) with
    | some b => (acc.1 + 2 ^ k, acc.2 + b.toNat * 2 ^ (8 * k))
    | none => acc) (0, 0)

/-- A part of an access in flight. -/
def Part.piece (p : Part) : Piece :=
  { lane := p.lane, place := p.place, place2 := p.place, va := p.va, va2 := 0, size := p.size, data := 0, data2 := 0,
    fmask := 0, fval := 0, got := none, done := false, loc := 0, seq := 0, sent := false }

end Sys2Proof.Machine
end

