-- ==== Sys2Proof/Machine/MemIssue.lean ====
section
/-! DEFINITION. The issue of a memory instruction: its checks, then its operation into flight, into the galley, into the
deferred queue, or held for the proof warp (R195, R208, R235, R397, R398, R405, R406). -/

namespace Sys2Proof.Machine

/-- The inclusion of scopes (R183). -/
def scopeRank : Scope → Nat
  | .warp => 0
  | .block => 1
  | .gang => 2
  | .sheet => 3
  | .device => 4
  | .system => 5

/-- A scope no wider than its space reaches, and .gang on global memory as .device (R185). -/
def effectiveScope (sp : Space) (x : Scope) : Scope :=
  match sp with
  | .block => if 1 < scopeRank x then .block else x
  | .gang => if 2 < scopeRank x then .gang else x
  | _ => if x = .gang then .device else x

/-- The acquire and the release part of an order (R190, R192). -/
def ordAcquires : Ord → Bool
  | .acq | .ar | .sc => true
  | _ => false
def ordReleases : Ord → Bool
  | .rel | .ar | .sc => true
  | _ => false

/-- What a memory instruction asks for. -/
structure MemReq where
  g : Guard
  kind : OpKind
  sp : Space
  size : Nat
  need : Need
  no : Nat
  ord : Ord
  scope : Scope
  sbc : Nat
  cp : Nat
  uniform : Bool
  ea : Rd → Nat → Int
  data : Rd → Nat → Nat
  data2 : Rd → Nat → Nat

/-- Operations the proof warp compares (R405): stores, reductions, catoms, arrivals, signals, stc. -/
def OpKind.compared : OpKind → Bool
  | .store | .atom _ none | .catom _ _ | .arrive _ _ | .signal | .stc _ _ _ _ => true
  | _ => false

/-- Operations that a region forbids (R400), holds in the galley, or defers (R235). -/
def OpKind.forbidden : OpKind → Bool
  | .atom _ (some _) | .cas _ _ | .catom _ (some _) | .stc _ _ _ _ => true
  | _ => false
def OpKind.deferred : OpKind → Bool
  | .atom _ none | .catom _ none | .arrive _ _ | .signal => true
  | _ => false
def OpKind.isCatom : OpKind → Bool
  | .catom _ _ => true
  | _ => false
/-- Operations that read a value without changing memory. -/
def OpKind.isLoad : OpKind → Bool
  | .load _ _ | .kload _ _ | .jload _ => true
  | _ => false

def causeForbidden : Nat := 0x65
def causeGalley : Nat := 0x66
def causeRegionNesting : Nat := 0x67
def causeRegionGroup : Nat := 0x68

/-- The value of an access split over its parts: a private access has a part for every 4 bytes (R173). -/
def partData (sp : Space) (size k x : Nat) : Nat :=
  match sp with
  | .priv => bits x (32 * (k % ((size + 3) / 4))) (8 * min size 4)
  | _ => x % 2 ^ (8 * size)

/-- The pieces of a request from its parts. -/
def MemReq.pieces (q : MemReq) (x : Rd) (w : Warp) (parts : List Part) : List Piece :=
  let galley := q.kind.isLoad && !w.levels.isEmpty && (match q.sp with
    | .global | .gang | .priv => true
    | _ => false)
  parts.zipIdx.map fun p =>
    let f := if galley then w.withLag.forwardPart (q.sp = .gang) p.1 else (0, 0)
    { p.1.piece with
      data := partData q.sp q.size p.2 (q.data x p.1.lane), data2 := partData q.sp q.size p.2 (q.data2 x p.1.lane),
      fmask := f.1, fval := f.2 }

/-- A part takes a poisoned byte from the galley (R374, R411). -/
def Piece.forwardsBad (p : Piece) (w : Warp) (sp : Space) : Bool :=
  p.fmask != 0 && (List.range p.size).any fun i => p.fmask.testBit i && w.withLag.forwardBad (sp = .gang) (p.va.toNat + i)

/-- What the proof warp compares of a piece (R406). -/
def Piece.image (p : Piece) : Piece :=
  { p with place := .hbm 0, place2 := .hbm 0, fmask := 0, fval := 0, got := none, done := false, loc := 0,
           seq := 0, sent := false }

/-- What is compared of an instruction (R406). -/
def comparedOf (pc : DWord) (lanes : Mask) (pieces : List Piece) (words : List DWord) : Compared :=
  ⟨pc, lanes, pieces.map Piece.image, words⟩

/-- An operation that later accesses wait for: one with an acquire part. A .sc store is a fence and a .rel store (R192). -/
def MemOp.acquires (o : MemOp) : Bool := ordAcquires o.ord && !o.kind.isStore

/-- Two parts lie in one unit of a bank of scratch (R213). -/
def Piece.sameUnit (p q : Piece) : Bool :=
  match p.place, q.place with
  | .scr g b o, .scr h c n => g == h && b == c && o / 64 == n / 64
  | _, _ => false

/-! ### Stores that others may read early (R196) -/

/-- An earlier operation of the warp lets others read a younger store's part: it orders nothing, and its parts that share
bytes are done or, of a store, readable already (R187, R190, R225). -/
def MemOp.letsRead (o : MemOp) (p : Piece) : Bool :=
  !o.acquires && o.kind != .fence && o.pieces.all fun q => q.done || !q.overlaps p || (o.kind.isStore && q.seq != 0)

/-- The parts of one store, `before` those of lower lanes, get their places in the order of the readable stores, from n
on. -/
def stampPieces (older : List MemOp) (before : List Piece) : List Piece → Nat → List Piece × Nat
  | [], n => ([], n)
  | p :: t, n =>
    let go := !p.done && p.seq == 0 && decide (1 ≤ p.loc) && (older.all fun o => o.letsRead p) &&
      (before.all fun q => q.done || q.seq != 0 || !q.overlaps p)
    let p1 := if go then { p with seq := n + 1 } else p
    let x := stampPieces older (before ++ [p1]) t (if go then n + 1 else n)
    (p1 :: x.1, x.2)

/-- The same for the stores among some operations of a warp; `all` are all its operations in flight. -/
def stampOps (all : List MemOp) : List MemOp → Nat → List MemOp × Nat
  | [], n => ([], n)
  | o :: t, n =>
    let x := if o.kind.isStore then stampPieces (all.filter fun y => decide (y.id < o.id)) [] o.pieces n else (o.pieces, n)
    let o1 := { o with pieces := x.1 }
    let y := stampOps (all.map fun z => if z.id = o.id then o1 else z) t x.2
    (o1 :: y.1, y.2)

/-- Whether a store may be read by its forme's other warps before it is performed: the device's choice (R196). Scratch
has one point of service; a release is readable only once it is performed. -/
def State.chooseLocal (s : State) : List Piece → List Piece × State
  | [] => ([], s)
  | p :: t =>
    match p.place with
    | .scr _ _ _ =>
      let (l, s1) := s.chooseLocal t
      (p :: l, s1)
    | .hbm _ =>
      let (k, s1) := s.pick 2
      let (l, s2) := s1.chooseLocal t
      ({ p with loc := k } :: l, s2)

/-- A fence of a warp as an operation in flight (R225). -/
def fenceOp (id : Nat) (ord : Ord) (scope : Scope) (pc : DWord) (gseq : Nat) (lanes : Mask) (depth : Nat) : MemOp :=
  { id := id, kind := .fence, pieces := [], ord := ord, scope := scope, sbc := 0, cp := 0, uncached := false, pc := pc,
    gseq := gseq, lanes := lanes, depth := depth }

/-- Send a MemOp into flight from a leading warp: it is performed later, or held until the proof warp has issued the
matching instruction (R406). -/
def State.sendOp (s : State) (sl : Slot) (r : Regs) (act : Mask) (op : MemOp) : State :=
  match s.warp sl.w with
  | none => s
  | some w =>
    let held := w.proof.isSome && op.kind.compared
    let e := sl.lag w
    let w2 := (w.follow sl (if held then { e with op := some op, compared := some (comparedOf sl.pc act op.pieces []) }
      else e)).setSide false { r.setPc sl.grp sl.after with gseq := r.gseq + 1 }
    if held then s.setWarp sl.w w2
    else
      let x := stampOps w.inFlight [op] s.opSeq
      ({ s with opSeq := x.2 }).setWarp sl.w { w2 with pend := w2.pend ++ x.1 }

/-- A .sc access begins with a .sc fence, which comes before it (R192). -/
def State.scFence (s : State) (sl : Slot) (r : Regs) (act : Mask) (op : MemOp) : State × MemOp :=
  if op.ord = .sc then
    let (id, s1) := s.fresh
    (s1.modWarp sl.w fun w =>
      { w with pend := w.pend ++ [fenceOp op.id .sc op.scope sl.pc r.gseq.toNat act w.levels.length] }, { op with id := id })
  else (s, op)

/-! ### Holding and deferring (R397, R398) -/

/-- "galley overflow" with its reason (R399). -/
def galleyFull (reason : Nat) : SyncFault := ⟨causeGalley, 0, BitVec.ofNat 64 reason, 0, 0⟩

/-- Finish an instruction whose work a region keeps: at once, or once its proof warp has compared it (R406). -/
def State.keepWork (s : State) (sl : Slot) (w : Warp) (r : Regs) (act : Mask) (op : MemOp) (k : Keep) : State :=
  if w.proof.isSome then
    s.finishWith sl r fun y => { sl.lag y with op := some op, keep := k, compared := some (comparedOf sl.pc act op.pieces []) }
  else (s.setWarp sl.w (w.takeKept k op)).finish sl r

/-- A store inside a region (R235, R397). -/
def State.holdStore (s : State) (sl : Slot) (w : Warp) (r : Regs) (act : Mask) (sp : Space) (op : MemOp) : State :=
  let k := Keep.galley (sp = .gang)
  if Config.galleyEntries < (w.withLag.takeKept k op).galleyUsed then s.raise sl act (galleyFull 1)
  else s.keepWork sl w r act op k

/-- A deferred instruction inside a region (R398). -/
def State.deferOp (s : State) (sl : Slot) (w : Warp) (r : Regs) (act : Mask) (op : MemOp) : State :=
  if Config.deferredMax ≤ w.withLag.deferredUsed then s.raise sl act (galleyFull 4)
  else s.keepWork sl w r act op .defer

/-! ### The proof warp's side -/

/-- Take a result from the value queue (R405); `post` is what the instruction does beside. -/
def State.takeValuesWith (s : State) (sl : Slot) (r : Regs) (post : Regs → Regs) : State :=
  match (s.warp sl.w).bind Warp.proof with
  | none => s
  | some p =>
    match p.values.find? fun v => v.gseq == r.gseq.toNat with
    | none => s.finish sl (post r)
    | some v =>
      let r0 := v.pw.foldl (fun a x => a.pset x.1 x.2.2 x.2.1) ((r.writeV v.vw).writeS v.sw)
      let r1 := v.jw.foldl (fun a x => a.jset x.1 x.2) r0
      (s.modWarp sl.w fun w => { w with proof := w.proof.map fun q => { q with values := q.values.filter fun y => y != v } }).finish
        sl (post r1)

def State.takeValues (s : State) (sl : Slot) (r : Regs) : State := s.takeValuesWith sl r id

/-- The first lane in which two lists of parts hold other data, with the differing bits: of a part of 8 bytes or more, those of
its first differing 32-bit word (R418). -/
def dataDiff : List Piece → List Piece → Option (Piece × Nat)
  | p :: t, q :: u =>
    if p.data = q.data ∧ p.data2 = q.data2 then dataDiff t u
    else
      let x := if p.data = q.data then p.data2 ^^^ q.data2 else p.data ^^^ q.data
      let k := ((List.range 4).find? fun i => bits x (32 * i) 32 != 0).getD 0
      some (p, bits x (32 * k) 32)
  | _, _ => none

/-- Two compared instructions agree but for their data. -/
def Compared.sameButData (a b : Compared) : Bool :=
  let plain (l : List Piece) : List Piece := l.map fun p => { p with data := 0, data2 := 0 }
  a.pc == b.pc && a.lanes == b.lanes && plain a.pieces == plain b.pieces && a.words.length == b.words.length

/-- The physical address of a part of an operation (R418). -/
def physOf (op : Option MemOp) (l : Nat) (va : DWord) : DWord :=
  match op.bind fun o => o.pieces.find? fun p => p.lane == l && p.va == va with
  | some p => (match p.place with
    | .hbm k => BitVec.ofNat 64 (k % 2 ^ 38)
    | .scr _ _ o => BitVec.ofNat 64 o)
  | none => 0

/-- What a proof mismatch logs (R418): LADDR, W0 and W1. Of an access in scratch the offset stands for its physical address;
an instruction that makes no access has none (DESIGN CHOICE, log 38). -/
def mismatchWords (e : Lag) (mine : Compared) : DWord × DWord × DWord :=
  match e.compared with
  | none => (0, 0, 0)
  | some c =>
    let first := c.pieces.head?
    let other : DWord × DWord × DWord := ((first.map Piece.va).getD 0, 0,
      (first.map fun p => physOf e.op p.lane p.va).getD 0)
    if !c.sameButData mine then other
    else match dataDiff c.pieces mine.pieces with
      | some (p, x) => (p.va, BitVec.ofNat 64 x, physOf e.op p.lane p.va)
      | none => (0, ((c.words.zip mine.words).findSome? fun x => if x.1 = x.2 then none else some (x.1 ^^^ x.2)).getD 0, 0)

/-- The lanes of a mismatch (R387, R418): those whose data differ, or, where the difference lies elsewhere, the leader's active
lanes (log 38). -/
def mismatchLanes (e : Lag) (mine : Compared) : Mask :=
  match e.compared with
  | none => 0
  | some c =>
    let m : Mask := maskOf fun l => (c.pieces.zip mine.pieces).any fun x => x.1.lane == l && (x.1.data != x.2.data || x.1.data2 != x.2.data2)
    if c.sameButData mine && m != 0 then m else c.lanes

/-- A proof mismatch is detected for the leader's instruction (R406, R418). -/
def State.mismatched (s : State) (slot : Nat) (e : Lag) (mine : Compared) : State :=
  let x := mismatchWords e mine
  s.detect slot
    { cause := 0xC3, pc := e.pc, gseq := e.gseq, lanes := mismatchLanes e mine, laddr := x.1, w0 := x.2.1
      w1 := x.2.2, unit := 1, index := 0, level := e.depth, time := s.time, soft := false }

/-- Compare the proof warp's instruction with its leader's (R406): the leader's work is performed, or enters the galley or the
deferred queue of its region; or a proof mismatch is detected and it is dropped. -/
def State.compareProof (s : State) (sl : Slot) (r : Regs) (mine : Compared) : State :=
  match ((s.warp sl.w).bind Warp.proof).bind fun p => p.lag.head? with
  | none => s.finish sl r
  | some e =>
    let s1 := s.finish sl r
    if e.compared = some mine then
      match e.op, e.cmd, e.keep with
      | some op, _, k => s1.modWarp sl.w fun w => w.takeKept k op
      | none, some c, .perform => { s1 with cmds := s1.cmds ++ [c] }
      | none, some c, _ => s1.modWarp sl.w fun w => w.modInner fun lv => { lv with deferred := lv.deferred ++ [.feed c] }
      | none, none, _ => s1
    else s1.mismatched sl.w e mine

/-- The proof warp's side of a memory instruction: no access is made. -/
def State.proofMemory (s : State) (sl : Slot) (w : Warp) (r : Regs) (act : Mask) (q : MemReq) : State :=
  if q.kind.compared then
    let x : Rd := ⟨r, 0, act, 0⟩
    let parts := (accessLanes act q.uniform).flatMap fun l =>
      match q.sp with
      | .block | .gang => [(l, BitVec.ofNat 64 (q.ea x l).toNat, q.size)]
      | sp => globalParts w sp l (q.ea x l) q.size
    let ps := q.pieces x { w with levels := [] } (parts.map fun p => ⟨p.1, .hbm 0, p.2.1, p.2.2, false, true⟩)
    s.compareProof sl r (comparedOf sl.pc act ps [])
  else s.takeValues sl r

/-! ### The leading warp's side -/

/-- Hold a group at a store or atomic whose page is moving; the instruction has not issued (R208, R344). -/
def State.holdWalk (s : State) (sl : Slot) (r : Regs) (va : DWord) : State :=
  s.modWarp sl.w fun w => { w with waits := w.waits ++ [⟨sl.grp, .walk va 1000, sl.len, r.gseq.toNat⟩] }

/-- A stop of an access: the fault is taken; a moving page holds the group; a poisoned table entry is detected and the
instruction does not issue (R344, R374). -/
def State.stopAccess (s : State) (sl : Slot) (w : Warp) (r : Regs) (act : Mask) : MemStop → State
  | .fault f => s.raise sl act f
  | .moving va => s.holdWalk sl r va
  | .poison va => s.detectFor sl.w 0xC2 sl.pc r.gseq.toNat act va 0 w.levels.length

/-- The operation of a request. -/
def MemReq.op (q : MemReq) (sl : Slot) (w : Warp) (r : Regs) (act : Mask) (id : Nat) (ps : List Piece) (cached : Bool) :
    MemOp :=
  { id := id, kind := q.kind, pieces := ps, ord := q.ord, scope := effectiveScope q.sp q.scope, sbc := q.sbc, cp := q.cp,
    uncached := !cached, pc := sl.pc, gseq := r.gseq.toNat, lanes := act, depth := w.levels.length }

/-- Where the operation of a leading warp goes. -/
def State.dispatchOp (s : State) (sl : Slot) (w : Warp) (r : Regs) (act : Mask) (sp : Space) (op : MemOp) : State :=
  if !w.levels.isEmpty && op.kind.isStore && sp != .block then s.holdStore sl w r act sp op
  else if !w.levels.isEmpty && op.kind.deferred then s.deferOp sl w r act op
  else
    let (s1, op1) := s.scFence sl r act op
    let (ps, s2) := if op1.kind.isStore && !ordReleases op1.ord then s1.chooseLocal op1.pieces else (op1.pieces, s1)
    s2.sendOp sl r act { op1 with pieces := ps }

/-- A memory instruction with an active lane, on its leading warp (R207, R208, R235). -/
def State.leadMemory (s : State) (sl : Slot) (w : Warp) (r : Regs) (act : Mask) (q : MemReq) : State :=
  let x : Rd := ⟨r, 0, act, 0⟩
  if !w.levels.isEmpty && q.kind.forbidden then s.raise sl act (.plain causeForbidden)
  else
    let lanes := (accessLanes act q.uniform).map fun l => (l, q.ea x l)
    match s.access sl.w w q.sp q.size q.need q.no lanes with
    | (.error e, s1) => s1.stopAccess sl w r act e
    | (.ok parts, s1) =>
      let (id, s2) := s1.fresh
      let r1 := { r with bankconf := r.bankconf + BitVec.ofNat 64 (s2.bankConflicts sl.w w q.sp lanes) }
      let ps := q.pieces x w parts
      let bad := if q.kind.isLoad then ps.filter fun p => p.forwardsBad w q.sp else []
      let ps1 := if bad.isEmpty then ps else ps.map fun p => if p.forwardsBad w q.sp then
        { p with fval := Config.poisonValue id p.lane % 2 ^ (8 * p.size) } else p
      let s3 := s2.dispatchOp sl w r1 act q.sp (q.op sl w r act id ps1 (parts.all Part.cached))
      match bad.head? with
      | none => s3
      | some p => s3.detectFor sl.w 0xC2 sl.pc r.gseq.toNat act p.va 0 w.levels.length

/-- A memory instruction with an active lane. -/
def State.memoryOn (s : State) (sl : Slot) (w : Warp) (r : Regs) (act : Mask) (q : MemReq) : State :=
  if sl.proof then s.proofMemory sl w r act q else s.leadMemory sl w r act q

/-- A memory instruction (R205): with no active lane it only issues (R34). -/
def State.memory (s : State) (q : MemReq) : Out :=
  s.onSlot fun s1 sl w r =>
    let act := active r sl.grp q.g
    .next (if act = 0 then s1.finish sl r else s1.memoryOn sl w r act q)

end Sys2Proof.Machine
end

