-- ==== Sys2Proof/Machine/MemOps.lean ====
section
/-! DEFINITION. Loads, stores, prefetch, atomics and the compensated atomic (R209 to R224). -/

namespace Sys2Proof.Machine

/-- Bytes of a width (R209). -/
def mwBytes : MW → Nat
  | .n8 | .i8 => 1
  | .n16 | .i16 => 2
  | .b32 | .i32 => 4
  | .b64 => 8
  | .b128 => 16

/-- The data of a store: its low bytes (R212). -/
def Rd.storeData (x : Rd) (a : Src) (n l : Nat) : Nat :=
  if n = 16 then
    (match a with
      | .v k => (x.r.vpair k.val l).toNat + 2 ^ 64 * (x.r.vpair (k.val + 2) l).toNat
      | _ => x.dword a l)
  else if n = 8 then x.dword a l else x.word a l % 2 ^ (8 * n)

def isScalar : Dst → Bool
  | .s _ => true
  | _ => false

/-- A load (R210, R211). -/
def loadReq (sp : Space) (i : LoadI) : MemReq :=
  { g := i.g, kind := .load i.d i.w, sp := sp, size := mwBytes i.w, need := .read, no := kindLoad, ord := i.ord,
    scope := i.x.scope, sbc := 0, cp := i.x.cp.val, uniform := isScalar i.d
    ea := fun x l => x.ea (sp == .global) i.base i.idx i.ip (2 ^ i.sc.val) i.x.off l
    data := fun _ _ => 0, data2 := fun _ _ => 0 }

/-- A store (R212). -/
def storeReq (sp : Space) (i : StoreI) : MemReq :=
  { g := i.g, kind := .store, sp := sp, size := mwBytes i.w, need := .write, no := kindStore, ord := i.ord,
    scope := i.x.scope, sbc := i.x.sbc.val, cp := i.x.cp.val, uniform := false
    ea := fun x l => x.ea (sp == .global) i.base i.idx i.ip (2 ^ i.sc.val) i.x.off l
    data := fun x l => x.storeData i.data (mwBytes i.w) l, data2 := fun _ _ => 0 }

def execLd (i : LoadI) (s : State) : Out := s.memory (loadReq .global i)
def execLds (i : LoadI) (s : State) : Out := s.memory (loadReq .block i)
def execLdgs (i : LoadI) (s : State) : Out := s.memory (loadReq .gang i)
def execLdl (i : LoadI) (s : State) : Out := s.memory (loadReq .priv i)
def execSt (i : StoreI) (s : State) : Out := s.memory (storeReq .global i)
def execSts (i : StoreI) (s : State) : Out := s.memory (storeReq .block i)
def execStgs (i : StoreI) (s : State) : Out := s.memory (storeReq .gang i)
def execStl (i : StoreI) (s : State) : Out := s.memory (storeReq .priv i)

/-- ldk (R214). -/
def execLdk (i : LdkI) (s : State) : Out :=
  s.memory { g := i.g, kind := .kload i.d i.w, sp := .window i.win, size := mwBytes i.w, need := .read, no := kindLoad
             ord := .plain, scope := .warp, sbc := 0, cp := 0, uniform := isScalar i.d
             ea := fun x l => x.index false i.idx l * (2 ^ i.sc.val : Nat) + i.x.off
             data := fun _ _ => 0, data2 := fun _ _ => 0 }

/-- Bring a 128-byte line into a forme's L1: bytes it does not hold are read from their home (R216). -/
def State.fillLine (s : State) (forme key : Nat) : State :=
  { s with l1 := (List.range 128).foldl (fun acc k =>
      let a := l1Key forme (key / 128 * 128 + k)
      if (acc.get a).isSome then acc else acc.set a (some (s.byte (.hbm (key / 128 * 128 + k))))) s.l1 }

/-- CP 3 drops the line of an access from the L1 (R215). -/
def State.dropLine (s : State) (forme : Nat) (p : Place) : State :=
  match p with
  | .scr _ _ _ => s
  | .hbm k =>
    { s with l1 := s.l1.filter fun x => !(decide (l1Key forme (k / 128 * 128) ≤ x.1 ∧ x.1 < l1Key forme (k / 128 * 128) + 128)) }

/-- pref of one lane: dropped when the address fails (R216). -/
def State.prefetch (s : State) (slot : Nat) (w : Warp) (llc : Bool) (cp : Nat) (ea : Int) : State :=
  match s.translate (slotQuadId slot) w.ctx (BitVec.ofNat 64 (wrap ea 64)) .read with
  | (.error _, s1) => s1
  | (.ok p, s1) =>
    match p.place with
    | .hbm k =>
      if cp = 3 then s1.dropLine (slotForme slot) (.hbm k)
      else if llc || cp != 0 || p.cp != 0 then s1 else s1.fillLine (slotForme slot) k
    | .scr _ _ _ => s1

def execPref (i : PrefI) (s : State) : Out :=
  s.onSlot fun s1 sl w r =>
    let act := active r sl.grp i.g
    let x : Rd := ⟨r, 0, act, 0⟩
    let s2 := if sl.proof then s1 else (lanesOf act).foldl (fun a l =>
      a.prefetch sl.w w i.llc i.x.cp.val (x.ea true i.base i.idx i.ip (2 ^ i.sc.val) i.x.off l)) s1
    .next (s2.finish sl r)

/-- The operand of an atomic in a lane (R219). -/
def Rd.dstOperand (x : Rd) (d : Dst) (n l : Nat) : Nat :=
  match d with
  | .v k => if n = 8 then (x.r.vpair k.val l).toNat else (x.r.vget k.val l).toNat
  | .s k => (x.r.sget k.val).toNat % 2 ^ (8 * n)
  | .b0 => 0

/-- atom and atoms (R219). -/
def atomReq (sp : Space) (i : AtomI) : MemReq :=
  { g := i.g, kind := .atom i.op (some i.d), sp := sp, size := aopSize i.op, need := .readWrite, no := kindAtomic
    ord := i.ord, scope := i.x.scope, sbc := 0, cp := i.x.cp.val, uniform := isScalar i.d
    ea := fun x l => x.ea (sp == .global) i.base i.idx false (aopSize i.op) i.x.off l
    data := fun x l => x.dstOperand i.d (aopSize i.op) l, data2 := fun _ _ => 0 }

/-- red and reds (R219). -/
def redReq (sp : Space) (i : RedI) : MemReq :=
  { g := i.g, kind := .atom i.op none, sp := sp, size := aopSize i.op, need := .readWrite, no := kindAtomic
    ord := i.ord, scope := i.x.scope, sbc := i.x.sbc.val, cp := i.x.cp.val, uniform := false
    ea := fun x l => x.ea (sp == .global) i.base i.idx false (aopSize i.op) i.x.off l
    data := fun x l => x.storeData i.data (aopSize i.op) l, data2 := fun _ _ => 0 }

/-- cas and cass (R221). -/
def casReq (sp : Space) (i : CasI) : MemReq :=
  let n := if i.w64 then 8 else 4
  { g := i.g, kind := .cas i.w64 i.d, sp := sp, size := n, need := .readWrite, no := kindAtomic, ord := i.ord
    scope := i.x.scope, sbc := 0, cp := i.x.cp.val, uniform := false
    ea := fun x l => x.ea (sp == .global) i.base i.idx false n i.x.off l
    data := fun x l => x.dstOperand (.v i.d) n l
    data2 := fun x l => if i.w64 then (x.r.vpair (i.d.val + 2) l).toNat else (x.r.vget (i.d.val + 1) l).toNat }

def execAtom (i : AtomI) (s : State) : Out := s.memory (atomReq .global i)
def execAtoms (i : AtomI) (s : State) : Out := s.memory (atomReq .block i)
def execRed (i : RedI) (s : State) : Out := s.memory (redReq .global i)
def execReds (i : RedI) (s : State) : Out := s.memory (redReq .block i)
def execCas (i : CasI) (s : State) : Out := s.memory (casReq .global i)
def execCass (i : CasI) (s : State) : Out := s.memory (casReq .block i)

/-! ### catom (R222 to R224) -/

/-- delta: a 64-bit position (R222). -/
def catomDelta (x : Rd) (i : CatomI) (l : Nat) : Nat := x.base true i.delta l

/-- The request for the high words. -/
def catomReq (i : CatomI) : MemReq :=
  { g := i.g, kind := .catom i.pt i.pd, sp := .global, size := pairHiSize i.pt, need := .readWrite, no := kindAtomic
    ord := i.ord, scope := i.x.scope, sbc := i.x.sbc.val, cp := i.x.cp.val, uniform := false
    ea := fun x l => x.ea true i.base .zero false 1 i.x.off l
    data := fun x l => (x.r.vget i.d.val l).toNat, data2 := fun x l => (x.r.vget (i.d.val + 1) l).toNat }

/-- "split home" (R224). -/
def splitHome (hi lo : Part) (delta : Nat) : Bool :=
  hi.place.sheet? != lo.place.sheet? || ((hi.inter || lo.inter) && delta % 2 ^ 18 != 0)

/-- The pieces of a catom: both words of each lane. -/
def catomPieces (x : Rd) (i : CatomI) (hi lo : List Part) : List Piece :=
  (hi.zip lo).map fun p =>
    { p.1.piece with
      place2 := p.2.place, va2 := p.2.va, data := (x.r.vget i.d.val p.1.lane).toNat,
      data2 := (x.r.vget (i.d.val + 1) p.1.lane).toNat }

/-- catom on its leading warp: both words are checked before either is accessed. -/
def State.leadCatom (s : State) (sl : Slot) (w : Warp) (r : Regs) (act : Mask) (i : CatomI) : State :=
  let q := catomReq i
  let x : Rd := ⟨r, 0, act, 0⟩
  let his := (lanesOf act).map fun l => (l, q.ea x l)
  let los := (lanesOf act).map fun l => (l, ((wrap (q.ea x l) 64 + catomDelta x i l : Nat) : Int))
  let loSize := pairLoSize i.pt
  if !w.levels.isEmpty && q.kind.forbidden then s.raise sl act (.plain causeForbidden)
  else match ((his.filterMap fun y => checkForm .global q.size kindAtomic y.2) ++
      (los.filterMap fun y => checkForm .global loSize kindAtomic y.2)).head? with
    | some e => s.stopAccess sl w r act e
    | none =>
      match s.access sl.w w .global q.size .readWrite kindAtomic his with
      | (.error e, s1) => s1.stopAccess sl w r act e
      | (.ok hp, s1) =>
        match s1.access sl.w w .global loSize .readWrite kindAtomic los with
        | (.error e, s2) => s2.stopAccess sl w r act e
        | (.ok lp, s2) =>
          match (hp.zip lp).find? fun p => splitHome p.1 p.2 (catomDelta x i p.1.lane) with
          | some p => s2.raise sl act ⟨causeSplitHome, p.1.va, BitVec.ofNat 64 kindAtomic, 0, 0⟩
          | none =>
            let (id, s3) := s2.fresh
            s3.dispatchOp sl w r act .global (q.op sl w r act id (catomPieces x i hp lp) true)

/-- The proof warp's side of a catom. -/
def State.proofCatom (s : State) (sl : Slot) (r : Regs) (act : Mask) (i : CatomI) : State :=
  let q := catomReq i
  (let x : Rd := ⟨r, 0, act, 0⟩
    let part (a : Nat) (n l : Nat) : Part := ⟨l, .hbm 0, BitVec.ofNat 64 a, n, false, true⟩
    let hi := (lanesOf act).map fun l => part (wrap (q.ea x l) 64) q.size l
    let lo := (lanesOf act).map fun l => part (wrap (q.ea x l) 64 + catomDelta x i l) (pairLoSize i.pt) l
    s.compareProof sl r (comparedOf sl.pc act (catomPieces x i hi lo) []))

def execCatom (i : CatomI) (s : State) : Out :=
  s.onSlot fun s1 sl w r =>
    let act := active r sl.grp i.g
    .next (if act = 0 then s1.finish sl r
      else if sl.proof then s1.proofCatom sl r act i
      else s1.leadCatom sl w r act i)

end Sys2Proof.Machine
end

