-- ==== Sys2Proof/Machine/Records.lean ====
section
/-! DEFINITION. The addresses that a layout record gives (R149, R150, R155), and the stores that the acc.st operations of a
Platen queue have still to make (R168). -/

namespace Sys2Proof.Machine

/-- Element size in bytes by FMT (R149, R150): a scale pair has two bytes aligned to one. -/
def fmtBytes (fmt : Nat) : Nat :=
  match fmt with
  | 0 | 1 => 2
  | 7 | 8 => 4
  | 9 => 2
  | _ => 1

def LRec.e (r : LRec) (i : Nat) : Nat := r.ext.getD i 1
def LRec.st (r : LRec) (i : Nat) : Int := r.str.getD i 0
/-- The spans along k and along j (R150). -/
def LRec.spanK (r : LRec) : Nat := r.e 0 * r.e 2
def LRec.spanJ (r : LRec) : Nat := r.e 1 * r.e 3

/-- The address of the element with reduction index k and row index j, and its nibble (R150). -/
def LRec.addr (r : LRec) (k j : Nat) : Int × Nat :=
  let i0 := k % r.e 0
  let a : Int := (r.base.toNat : Int) + ((j % r.e 1 : Nat) : Int) * r.st 1 + ((k / r.e 0 : Nat) : Int) * r.st 2 +
    ((j / r.e 1 : Nat) : Int) * r.st 3
  if r.fmt = 6 then (a + ((i0 / 2 : Nat) : Int), i0 % 2) else (a + (i0 : Int) * r.st 0, 0)

/-- The space of a record's elements. -/
def LRec.sp (r : LRec) : Space := if r.space = 0 then .global else if r.space = 1 then .block else .gang

/-- The addresses of 16 rows of 64 columns (R155, R168). -/
def LRec.rows16 (rc : LRec) (step : Nat) : List (List Int) :=
  (List.range 16).map fun j => (List.range 64).map fun k => (rc.addr k (16 * step + j)).1

/-- The page of an address. -/
def pageNo (a : Int) : Nat := wrap a 64 / 2 ^ 16

/-- The keys of a page's first byte under each translation that a store may take. -/
def State.pageKeys (s : State) (u ctx page : Nat) : List Nat :=
  (s.transOptions u ctx (BitVec.ofNat 64 (page * 2 ^ 16)) .write).filterMap fun x => match x with
    | .ok p => some (hbmKey p.sheet p.pa)
    | .error _ => none

/-- Where the elements at some addresses of a warp's space may lie when they are stored to. -/
def State.elemPlaces (s : State) (slot : Nat) (w : Warp) (sp : Space) (l : List Int) : List Place :=
  match sp with
  | .global =>
    let table := (l.map pageNo).eraseDups.map fun g => (g, s.pageKeys (slotQuadId slot) w.ctx g)
    l.flatMap fun a => match table.find? fun x => x.1 == pageNo a with
      | some x => x.2.map fun k => .hbm (k + wrap a 64 % 2 ^ 16)
      | none => []
  | _ => l.map fun a =>
      let t := scratchTarget sp w a.toNat
      .scr w.gang t.1 t.2

/-- The stores that an acc.st of the queue has still to make, as one operation of its place in issue order (R168): the
later stores and atomics of the warp to the same bytes come after it. -/
def State.queuedStores (s : State) (slot : Nat) (w : Warp) : List MemOp :=
  w.platen.filterMap fun o => if o.storing then
      let rc := (o.recs.head?).getD default
      let l := (List.range 4).flatMap fun k => if o.next ≤ k then (rc.rows16 k).flatten else []
      some { (default : MemOp) with
        id := o.id + 1, kind := .store
        pieces := (s.elemPlaces slot w rc.sp l).map fun p => { (default : Piece) with place := p, place2 := p, size := fmtBytes rc.fmt } }
    else none

/-- An acc.st of the queue that issued before number `id` has stores to make. -/
def Warp.storesQueued (w : Warp) (id : Nat) : Bool := w.platen.any fun o => o.storing && decide (o.id < id)

end Sys2Proof.Machine
end

