-- ==== Sys2Proof/Machine/MemEvents.lean ====
section
/-! DEFINITION. What becomes of a memory instruction after its issue: which of its parts may be performed (R187 to R196,
R331), loads returning, stores and atomics performed at their home, fences settling, results written back, page moves
(R93, R203, R211, R212, R220, R225, R236, R344). -/

namespace Sys2Proof.Machine

/-! ### Scopes and the readiness of a part -/

/-- How far an order must reach: the rank of its scope; a block one of whose gang's warps stands on another forme, and a
gang, are only sure to be reached at .device (R185, R310). -/
def State.reach (s : State) (w : Warp) (x : Scope) : Nat :=
  match scopeRank x with
  | 0 => 0
  | 1 => if s.warpList.any fun y => y.2.gang == w.gang && y.2.away y.1 then 4 else 1
  | 3 => 3
  | _ => 4

/-- A store's part need only be accepted, not performed, for a release at .sheet: it is homed on another sheet. -/
def Piece.bridged (p : Piece) (slot : Nat) : Bool :=
  match p.place.sheet? with
  | some x => x != slotSheet slot
  | none => false

/-- Whether the part of an earlier access is far enough for a release of that reach (R190, R225). -/
def releasedAt (reach slot : Nat) (k : OpKind) (p : Piece) : Bool :=
  p.done || (k.isStore && p.place.sheet?.isSome && (decide (reach ≤ 1) || (decide (reach = 3) && p.bridged slot)))

/-- Whether a release numbered `id` of a warp may be performed: its earlier accesses are, none is held for the proof
warp, and, from .sheet on, so are the stores that its forme may have read (R190, R191). -/
def State.releaseReady (s : State) (slot : Nat) (w : Warp) (id reach : Nat) : Bool :=
  decide (reach = 0) ||
    ((w.pend.all fun o => decide (id ≤ o.id) || o.pieces.all fun p => releasedAt reach slot o.kind p) &&
      (w.lagOps.all fun o => decide (id ≤ o.id)) && !w.storesQueued id &&
      (decide (reach ≤ 1) || (s.visible slot).all fun x => releasedAt reach slot .store x.2))

/-- Let the stores numbered below `id` of a warp be read as far as a release of that reach asks. -/
def Warp.shareStores (w : Warp) (id loc : Nat) : Warp :=
  { w with pend := w.pend.map fun o => if o.kind.isStore && decide (o.id < id) then
      { o with pieces := o.pieces.map fun p => if p.place.sheet?.isSome then { p with loc := max p.loc loc } else p }
    else o }

/-- The stores of a warp that its forme may read reach the whole sheet. -/
def Warp.widenStores (w : Warp) : Warp :=
  { w with pend := w.pend.map fun o =>
      { o with pieces := o.pieces.map fun p => if p.seq != 0 && p.loc == 1 then { p with loc := 2 } else p } }

/-- The readable stores of a warp get their places in the order (R196). -/
def State.stampStores (s : State) (slot : Nat) : State :=
  match s.warp slot with
  | none => s
  | some w =>
    let x := stampOps (w.inFlight ++ s.queuedStores slot w) w.pend s.opSeq
    if x.2 = s.opSeq then s else ({ s with opSeq := x.2 }).setWarp slot { w with pend := x.1 }

/-- What a release of that reach makes readable: the warp's own earlier stores and, at .sheet, those of its forme that it
may have read (R190, R191). -/
def State.shareForRelease (s : State) (slot id reach : Nat) : State :=
  match reach with
  | 1 => (s.modWarp slot fun w => w.shareStores id 1).stampStores slot
  | 3 => ((s.warpList.filter fun y => slotForme y.1 == slotForme slot).foldl
      (fun a y => a.modWarp y.1 fun w => if y.1 = slot then w.shareStores id 2 else w.widenStores) s).stampStores slot
  | _ => s

/-- The L1 copies of a forme are dropped: an acquire beyond the block (R225). -/
def State.dropL1 (s : State) (forme : Nat) : State :=
  { s with l1 := s.l1.filter fun x => x.1 / 2 ^ 40 != forme }

/-- An acquire takes effect (R190, R225). -/
def State.acquire (s : State) (slot reach : Nat) : State := if 2 ≤ reach then s.dropL1 (slotForme slot) else s

/-! ### Fences (R192, R225) -/

/-- A fence may settle: its acquire part waits for earlier reads, its release part as a release does. -/
def State.fenceReady (s : State) (slot : Nat) (w : Warp) (f : MemOp) : Bool :=
  (!ordAcquires f.ord || w.inFlight.all fun o => decide (f.id ≤ o.id) || o.kind.isStore) &&
    (!ordReleases f.ord || s.releaseReady slot w f.id (s.reach w f.scope))

/-- A fence at .device or wider: what it ordered is no longer missed through a constant window (R20). -/
def State.constFence (s : State) (slot id rank : Nat) : State :=
  if rank < 4 then s
  else s.modWarp slot fun x => { x with constSince := s.past.length, constSeq := s.opSeq, constOwn := id }

/-- Settle a fence. At .device or wider the constant cache reads memory anew (R20). -/
def State.settleFence (s : State) (slot : Nat) (w : Warp) (f : MemOp) : State :=
  let reach := s.reach w f.scope
  let s1 := (s.modWarp slot fun x => { x with pend := x.pend.filter fun o => o.id != f.id }).constFence slot f.id
    (scopeRank f.scope)
  let s2 := if ordReleases f.ord then s1.shareForRelease slot f.id reach else s1
  if ordAcquires f.ord then s2.acquire slot reach else s2

/-- Settle the oldest fences of a warp while they can be: at most n. -/
def State.settleFences (s : State) (slot : Nat) : Nat → State
  | 0 => s
  | n + 1 =>
    match s.warp slot with
    | none => s
    | some w => match w.pend.find? fun o => o.kind == .fence with
      | none => s
      | some f => if s.fenceReady slot w f then (s.settleFence slot w f).settleFences slot n else s

/-- Settle every fence of a warp that can be; the stores behind them may become readable. -/
def State.settle (s : State) (slot : Nat) : State :=
  (s.settleFences slot (((s.warp slot).map fun w => w.pend.length).getD 0)).stampStores slot

/-- Settle the fences of a quadrant's warps. -/
def State.settleQuad (s : State) (q : Nat) : State := (List.range 17).foldl (fun a k => a.settle (q * 17 + k)) s

/-! ### The fabric (R331) -/

def chanKey (src dst vc : Nat) : Nat := (src * 4 + dst) * 2 + vc

/-- Requests between sheets that travel in fabric queues (R331). -/
def OpKind.travels : OpKind → Bool
  | .atom _ _ | .cas _ _ | .catom _ _ | .arrive _ _ | .signal | .stc _ _ _ _ => true
  | _ => false

def needsFabric (slot : Nat) (k : OpKind) (p : Piece) : Bool := k.travels && p.bridged slot

/-- The channels toward a part's home: of both virtual channels. -/
def channelsTo (slot : Nat) (p : Piece) : List Nat :=
  match p.place.sheet? with
  | some d => [chanKey (slotSheet slot) d 0, chanKey (slotSheet slot) d 1]
  | none => []

/-- A part has reached the head of its receiving queue. -/
def State.arrived (s : State) (slot : Nat) (op k : Nat) (p : Piece) : Bool :=
  (channelsTo slot p).any fun c => match (s.chans.get c).queue.head? with
    | some e => e.2 == .piece slot op k
    | none => false

/-- The receiver has performed, or answered, a part: it leaves the receiving queue. -/
def State.leaveFabric (s : State) (slot : Nat) (op k : Nat) (p : Piece) : State :=
  if p.sent then { s with chans := s.chans.map fun c => (c.1, { c.2 with queue := c.2.queue.filter fun e => e.2 != .piece slot op k }) }
  else s

/-! ### Which part may be performed -/

/-- A part q of an earlier operation o of the warp keeps a part p of `op` back (R187, R213): they share a byte, or a unit
of a bank, which serves its queue in order; a load of global memory takes an earlier store's bytes before its home does. -/
def keepsBack (o op : MemOp) (q p : Piece) : Bool :=
  !q.done && (q.sameUnit p || (q.overlaps p && !(op.kind.isLoad && o.kind.isStore)))

/-- A fence that a later access waits for: a load passes one without an acquire part, but a constant window is read behind
every fence at .device or wider (R20, R225). -/
def MemOp.fencesOff (f op : MemOp) : Bool :=
  f.kind == .fence && (match op.kind with
    | .kload _ _ => decide (4 ≤ scopeRank f.scope)
    | k => !k.isLoad)

/-- The earlier accesses of the warp let a part be performed (R187, R190, R225). `queued` are stores that its Platen has
still to make; no load waits for them (R169). -/
def orderReady (w : Warp) (queued : List MemOp) (op : MemOp) (k : Nat) (p : Piece) : Bool :=
  (op.kind.isLoad || queued.all fun o => decide (op.id ≤ o.id) || o.pieces.all fun q => !q.overlaps p) &&
  (w.inFlight.all fun o => decide (op.id ≤ o.id) ||
    (!o.acquires && !o.fencesOff op && o.pieces.all fun q => !keepsBack o op q p)) &&
  (op.kind.isLoad || (op.pieces.take k).all fun q => q.done || !q.overlaps p)

/-- A store that others can read already keeps its place among those they can read; any other comes after these
(R193). -/
def Piece.after (p : Piece) (x : Nat × Piece) : Bool := x.2.overlaps p && !(p.seq != 0 && decide (p.seq < x.1))

/-- The part may be performed, its page's move and its passage through the fabric apart. -/
def State.partReady (s : State) (slot : Nat) (w : Warp) (op : MemOp) (k : Nat) (p : Piece) : Bool :=
  !p.done && op.kind != .fence && orderReady w (s.queuedStores slot w) op k p &&
  (op.kind.isLoad ||
    (((s.visible slot).all fun x => !p.after x) &&
     (!ordReleases op.ord || s.releaseReady slot w op.id (s.reach w op.scope))))

/-- A part of an operation in flight, by its numbers. -/
def State.partOf (s : State) (slot op k : Nat) : Option (Warp × MemOp × Piece) :=
  (s.warp slot).bind fun w => (w.pend.find? fun o => o.id == op).bind fun o => (o.pieces[k]?).map fun p => (w, o, p)

/-- The part can be performed at its home now. -/
def State.canPerform (s : State) (slot : Nat) (w : Warp) (op : MemOp) (k : Nat) (p : Piece) : Bool :=
  s.partReady slot w op k p && (op.kind.isLoad || !(s.isMoving p.place || s.isMoving p.place2)) &&
    (!needsFabric slot op.kind p || s.arrived slot op.id k p)

/-! ### What an operation writes when all its parts are done -/

/-- A lane's value: its parts one after another, the lowest address first. -/
def MemOp.laneValue (op : MemOp) (l : Nat) : Nat :=
  ((op.pieces.filter fun p => p.lane == l).foldr (fun p acc => (p.got.getD 0) % 2 ^ (8 * p.size) + 2 ^ (8 * p.size) * acc) 0)

def mwSigned : MW → Bool
  | .i8 | .i16 | .i32 => true
  | _ => false

/-- The words of a value of n bytes, 8-bit and 16-bit widths extended (R67, R211). -/
def wordsOfValue (w : MW) (x : Nat) : List Word :=
  let n := mwBytes w
  if n < 4 then [BitVec.ofNat 32 (if mwSigned w then wrap (toSigned x (8 * n)) 32 else x % 2 ^ (8 * n))]
  else (List.range (n / 4)).map fun i => BitVec.ofNat 32 (bits x (32 * i) 32)

/-- A uniform destination's value (R210). -/
def scalarOfValue (w : MW) (x : Nat) : DWord :=
  let n := mwBytes w
  BitVec.ofNat 64 (if mwSigned w then wrap (toSigned x (8 * n)) 64 else x % 2 ^ (8 * n))

/-- What an operation writes: vector words, scalars, predicates, sets. -/
structure Writes where
  vw : List (Nat × Word)
  sw : List (Nat × DWord)
  pw : List (Nat × Mask × Mask)
  jw : List (Nat × JSet)

/-- Words into a vector group, or one value into a scalar: `uni` holds the lane that made the access, if the scalar is
still to be written. -/
def valueWrites (d : Dst) (lanes uni : List Nat) (words : Nat → List Word) (scalar : Nat → DWord) : Writes :=
  match d with
  | .v k => ⟨lanes.flatMap fun l => (words l).zipIdx.map fun y => ((k.val + y.2) * 32 + l, y.1), [], [], []⟩
  | .s k => ⟨[], (uni.take 1).map fun l => (k.val, scalar l), [], []⟩
  | .b0 => ⟨[], [], [], []⟩

/-- The set that an image gives (R298). -/
def jloadSet (image : Nat) (live : Mask) : JSet :=
  if bits image 64 1 = 1 then ⟨BitVec.ofNat 32 image &&& live, 0, 0, true⟩ else ⟨0, 0, 0, false⟩

/-- What a finished operation writes in the lanes still live; a scalar while any lane that issued it lives (R294). -/
def MemOp.writes (op : MemOp) (live : Mask) : Writes :=
  let all := (op.pieces.map Piece.lane).eraseDups
  let lanes := all.filter (lane live)
  let uni := if op.lanes &&& live ≠ 0 ∨ lanes ≠ [] then all else []
  let words (n : Nat) (l : Nat) : List Word :=
    (List.range (n / 4)).map fun i => BitVec.ofNat 32 (bits (op.laneValue l) (32 * i) 32)
  match op.kind with
  | .load d w | .kload d w =>
    valueWrites d lanes uni (fun l => wordsOfValue w (op.laneValue l)) (fun l => scalarOfValue w (op.laneValue l))
  | .atom a (some d) =>
    valueWrites d lanes uni (words (aopSize a)) (fun l => BitVec.ofNat 64 (op.laneValue l))
  | .cas w64 d => valueWrites (.v d) lanes uni (words (if w64 then 8 else 4)) (fun _ => 0)
  | .catom _ (some pd) =>
    ⟨[], [], [(pd.val, maskOf fun l => op.pieces.any fun p => p.lane == l && p.got == some 1, op.lanes &&& live)], []⟩
  | .jload j => ⟨[], [], [], (op.pieces.take 1).map fun p => (j.val, jloadSet (op.laneValue p.lane) live)⟩
  | _ => ⟨[], [], [], []⟩

/-- Write a scalar for an instruction of number `gseq`: one that issued before the running handler's entry writes the
saved register (R236, R376). -/
def Regs.sDeliver (r : Regs) (gseq k : Nat) (x : DWord) : Regs :=
  match r.frame with
  | some f =>
    if gseq < f.gseq ∧ k = 60 then { r with frame := some { f with s60 := x } }
    else if gseq < f.gseq ∧ k = 61 then { r with frame := some { f with s61 := x } }
    else r.sset k x
  | none => r.sset k x

/-- Write predicate bits likewise. -/
def Regs.pDeliver (r : Regs) (gseq k : Nat) (act m : Mask) : Regs :=
  match r.frame with
  | some f =>
    if gseq < f.gseq ∧ k = 1 then { r with frame := some { f with p1 := (m &&& act) ||| (f.p1 &&& ~~~act) } }
    else r.pset k act m
  | none => r.pset k act m

def Regs.deliver (r : Regs) (gseq : Nat) (x : Writes) : Regs :=
  let r1 := x.sw.foldl (fun a y => a.sDeliver gseq y.1 y.2) (r.writeV x.vw)
  let r2 := x.pw.foldl (fun a y => a.pDeliver gseq y.1 y.2.2 y.2.1) r1
  x.jw.foldl (fun a y => a.jset y.1 y.2) r2

/-- Whether the proof warp takes what an operation returned from the value queue (R405). -/
def OpKind.returns : OpKind → Bool
  | .load _ _ | .kload _ _ | .jload _ | .atom _ (some _) | .cas _ _ | .catom _ (some _) | .stc _ _ _ _ => true
  | _ => false

/-- Leave values for the proof warp; one that has passed the instruction takes them at once (R405). -/
def Warp.giveValues (w : Warp) (gseq : Nat) (x : Writes) : Warp :=
  { w with proof := w.proof.map fun p =>
      if p.lag.any fun e => e.gseq == gseq then { p with values := p.values ++ [⟨gseq, x.vw, x.sw, x.pw, x.jw⟩] }
      else { p with r := p.r.deliver gseq x } }

/-- A reliability error is already detected for an instruction. -/
def Warp.detected (w : Warp) (gseq : Nat) : Bool := (w.det ++ w.async).any fun e => e.gseq == gseq && reliability e.cause

/-- Detect an error for an instruction, once (R373 to R375). -/
def State.detectOnce (s : State) (slot cause : Nat) (pc : DWord) (gseq : Nat) (lanes : Mask) (va : DWord) (depth : Nat) :
    State :=
  match s.warp slot with
  | none => s
  | some w => if w.detected gseq then s else s.detectFor slot cause pc gseq lanes va 0 depth

/-- Detect poison for an operation in flight, once. -/
def State.poisonHit (s : State) (slot : Nat) (op : MemOp) (va : DWord) (cause : Nat) : State :=
  s.detectOnce slot cause op.pc op.gseq op.lanes va op.depth

/-- A catom's flag (R223, R370): sticky, and trapped when enabled. -/
def State.catomFlag (s : State) (slot : Nat) (op : MemOp) : State :=
  if op.pieces.any (fun p => p.got == some 1) then
    let s1 := s.modWarp slot fun w => { w with r := w.r.setFlags 0x20 }
    match s.warp slot with
    | none => s1
    | some w => match arithErr w.r 0x20 op.pc op.gseq op.lanes op.depth s.time with
      | none => s1
      | some e => s1.queueAsync slot e
  else s

/-- An operation whose parts are all done: registers written, the acquire performed, values given. -/
def State.completeOp (s : State) (slot : Nat) (w : Warp) (op : MemOp) : State :=
  let x := op.writes w.r.live
  let w1 := { w with pend := w.pend.filter (fun o => o.id != op.id), r := w.r.deliver op.gseq x }
  let s1 := s.setWarp slot (if op.kind.returns then w1.giveValues op.gseq x else w1)
  let s2 := if op.acquires then s1.acquire slot (s.reach w op.scope) else s1
  match op.kind with
  | .catom _ _ => s2.catomFlag slot op
  | _ => s2

/-- Change one part of an operation. -/
def MemOp.setPiece (o : MemOp) (k : Nat) (f : Piece → Piece) : MemOp :=
  { o with pieces := o.pieces.zipIdx.map fun p => if p.2 = k then f p.1 else p.1 }

/-- Record what one part returned; the operation completes with its last part. -/
def State.partDone (s : State) (slot op k got : Nat) : State :=
  match s.warp slot with
  | none => s
  | some w => match w.pend.find? fun o => o.id == op with
    | none => s
    | some o =>
      let o1 := o.setPiece k fun p => { p with done := true, got := some got }
      if o1.pieces.all Piece.done then s.completeOp slot w o1
      else s.setWarp slot { w with pend := w.pend.map fun y => if y.id = op then o1 else y }

/-! ### Loads (R193, R211) -/

/-- A byte that a load takes from elsewhere than memory: the galley, a lane of the same load, the warp's own stores,
those it may see (R186, R187, R196, R204). -/
def State.overlayByte (s : State) (slot : Nat) (w : Warp) (op : MemOp) (p : Piece) (i : Nat) : Option Byte :=
  let q := p.place.add i
  if p.fmask.testBit i then some (BitVec.ofNat 8 (p.fval / 2 ^ (8 * i)))
  else match op.pieces.findSome? fun y => y.got.bind fun x => y.byteAt q x with
    | some b => some b
    | none => newestByte (w.ownStores s.opSeq op.id ++ s.visible slot) q

/-- The copies that an L1 holds of a part, if it holds them all. -/
def State.l1Copy (s : State) (forme : Nat) (p : Piece) : Option (List Byte) :=
  match p.place with
  | .scr _ _ _ => none
  | .hbm k =>
    let l := (List.range p.size).filterMap fun i => s.l1.get (l1Key forme (k + i))
    if l.length = p.size then some l else none

/-- Fill a forme's L1 with the 16-byte units of a part. -/
def State.fillUnits (s : State) (forme key n : Nat) : State :=
  let first := key / 16 * 16
  { s with l1bad := mendL1 s.l1bad (l1Key forme first) ((key + n + 15) / 16 * 16 - first), l1 := (List.range ((key + n + 15) / 16 * 16 - first)).foldl (fun acc i =>
      acc.set (l1Key forme (first + i)) (some (s.byte (.hbm (first + i))))) s.l1 }

/-- What a load leaves in the L1 by its cache policy (R215). -/
def State.afterLoad (s : State) (forme : Nat) (op : MemOp) (p : Piece) : State :=
  match p.place with
  | .scr _ _ _ => s
  | .hbm k =>
    if op.cp = 3 then s.dropLine forme (.hbm k)
    else if op.cp = 0 && !op.uncached then s.fillUnits forme k p.size
    else s.refreshL1 forme k p.size

/-- A strong load at .sheet or wider bypasses the L1 (R195). -/
def MemOp.bypasses (op : MemOp) (reach : Nat) : Bool := op.uncached || (op.ord != .plain && decide (2 ≤ reach))

/-- The bytes of a part in memory: its home's, or those of a copy the device may still hold. -/
def State.memoryBytes (s : State) (slot : Nat) (w : Warp) (op : MemOp) (p : Piece) : List Byte × State :=
  let home := s.bytes p.place p.size
  match op.kind with
  | .kload _ _ => s.constBytes slot w p.place p.va.toNat p.size
  | _ =>
    match s.l1Copy (slotForme slot) p with
    | some copy =>
      let (k, s1) := if copy ≠ home ∧ !op.bypasses (s.reach w op.scope) then s.pick 2 else (0, s)
      if k = 1 then (copy, if op.cp = 3 then s1.dropLine (slotForme slot) p.place else s1)
      else (home, s1.afterLoad (slotForme slot) op p)
    | none => (home, s.afterLoad (slotForme slot) op p)

/-- Whether a forme's L1 holds a copy of a part with an uncorrectable error (R411). -/
def State.l1Poisoned (s : State) (forme : Nat) (p : Piece) : Bool :=
  !s.l1bad.isEmpty && (s.l1Copy forme p).isSome && (match p.place with
    | .hbm k => (List.range p.size).any fun i => s.l1bad.contains (l1Key forme (k + i))
    | .scr _ _ _ => false)

/-- A load's part whose copy in the L1 is poisoned: it takes the copy, and consumes the poison, or reads its home (R374). -/
def State.takesPoison (s : State) (slot : Nat) (w : Warp) (op : MemOp) (p : Piece) : Bool × State :=
  if s.poisoned p.place p.size then (true, s)
  else match op.kind with
    | .kload _ _ => (false, s)
    | _ =>
      if s.l1Poisoned (slotForme slot) p && !op.bypasses (s.reach w op.scope) then
        let (k, s1) := s.pick 2
        if k = 1 then (true, s1) else (false, s1.dropLine (slotForme slot) p.place)
      else (false, s)

/-- A load's part returns (R211). -/
def State.sample (s : State) (slot : Nat) (w : Warp) (op : MemOp) (k : Nat) (p : Piece) : State :=
  let found := match op.kind with
    | .kload _ _ => (List.range p.size).map fun _ => none
    | _ => (List.range p.size).map fun i => s.overlayByte slot w op p i
  if found.all Option.isSome then s.partDone slot op.id k (leNat (found.filterMap id))
  else
    let (bad, s0) := s.takesPoison slot w op p
    if bad then (s0.poisonHit slot op p.va 0xC2).partDone slot op.id k (Config.poisonValue op.id p.lane % 2 ^ (8 * p.size))
    else
    let (mem, s1) := s0.memoryBytes slot w op p
    s1.partDone slot op.id k (leNat ((found.zip mem).map fun x => x.1.getD x.2))

def execLoadDataReturn (slot op piece : Nat) (s0 : State) : Out :=
  let s := s0.settle slot
  match s.partOf slot op piece with
  | none => .fault .notEnabled
  | some (w, o, p) =>
    if o.kind.isLoad && !w.stopped && s.canPerform slot w o piece p then .next (s.sample slot w o piece p)
    else .fault .notEnabled

/-! ### Stores and atomics (R195, R212, R220 to R223) -/

/-- The error of an arrival (R229) or of a poisoned word (R374). -/
def State.performErr (s : State) (slot : Nat) (op : MemOp) (p : Piece) (x : Performed) : State :=
  match x.cause with
  | some 0xC8 => s.poisonHit slot op p.va 0xC8
  | some c =>
    s.queueAsync slot { cause := c, pc := op.pc, gseq := op.gseq, lanes := op.lanes, laddr := p.va, w0 := 0, w1 := 0,
                        unit := if p.place.sheet?.isSome then 6 else 0, index := 0, level := op.depth, time := s.time,
                        soft := false }
  | none => if x.poison then s.poisonHit slot op p.va 0xC2 else s

/-- What a performed part returned: the old value, a catom's flag, or a free value for poisoned bytes. -/
def Performed.value (x : Performed) (op : MemOp) (p : Piece) : Nat :=
  match op.kind with
  | .catom _ _ => x.flag.toNat
  | _ => if x.poison then Config.poisonValue op.id p.lane % 2 ^ (8 * p.size) else x.old

/-- An arrival at a barrier in block scratch whose phase goes on (R308). -/
def State.noteArrival (s : State) (slot : Nat) (op : MemOp) (p : Piece) (x : Performed) : State :=
  match op.kind, p.place with
  | .arrive _ _, .scr _ _ o =>
    if x.flag then s.modWarp slot fun w =>
      { w with arrivals := if w.arrivals.contains o then w.arrivals else o :: w.arrivals } else s
  | _, _ => s

/-- Perform a part at its home: its release is complete, the fabric entry is answered, memory changes. -/
def State.performPart (s : State) (slot : Nat) (w : Warp) (op : MemOp) (k : Nat) (p : Piece) : State × Nat :=
  let s1 := if ordReleases op.ord then s.shareForRelease slot op.id (s.reach w op.scope) else s
  let y := (s1.leaveFabric slot op.id k p).perform (slotForme slot) op.kind p
  let x := if op.cp = 3 then { y with s := (y.s.dropLine (slotForme slot) p.place).dropLine (slotForme slot) p.place2 } else y
  ((x.s.noteArrival slot op p x).performErr slot op p x, x.value op p)

def execStorePerformed (slot op piece : Nat) (s0 : State) : Out :=
  let s := s0.settle slot
  match s.partOf slot op piece with
  | none => .fault .notEnabled
  | some (w, o, p) =>
    if o.kind.isStore && s.canPerform slot w o piece p then
      let (s1, x) := s.performPart slot w o piece p
      .next (s1.partDone slot op piece x)
    else .fault .notEnabled

/-! ### stc after its update (R306, R307) -/

/-- The element accesses of an stc: lane, address, value. -/
def stcElements (w : MW) (base : DWord) (elems : List (Nat × Nat)) (q0 : Nat) : List (Nat × Nat × Nat) :=
  elems.zipIdx.map fun x => (x.1.1, (base.toNat + (q0 + x.2) % 2 ^ 64 * mwBytes w) % 2 ^ 64, x.1.2)

/-- The words that the .ri form writes. -/
def stcSlots (ri : Option (Fin 256)) (elems : List (Nat × Nat)) (q0 : Nat) (live : Mask) : List (Nat × Word) :=
  match ri with
  | none => []
  | some d => (elems.zipIdx.filter fun x => lane live x.1.1).map fun x => (d.val * 32 + x.1.1, BitVec.ofNat 32 (q0 + x.2))

/-- The checks of the element stores and their parts (R207, R208, R307). -/
def State.stcParts (s : State) (slot : Nat) (w : Warp) (mw : MW) (l : List (Nat × Nat × Nat)) :
    Except MemStop (List Part) × State :=
  s.access slot w .global (mwBytes mw) .write kindStore (l.map fun x => (x.1, ((x.2.1 : Nat) : Int)))

/-- The shift of an stc that writes slots (R41). -/
def Regs.stcShift (r : Regs) (grp : Mask) (ri : Option (Fin 256)) : Regs :=
  match ri with
  | none => r
  | some d => r.shiftLatches grp fun l => r.vget d.val l

/-- Send the element stores and write the slots; the latches of the group that the stc held shift (R41). -/
def State.stcFinish (s : State) (slot : Nat) (op : MemOp) (ri : Option (Fin 256)) (elems : List (Nat × Nat)) (q0 : Nat)
    (parts : List Part) (grp : Mask) : State :=
  let (id, s1) := s.fresh
  let ps := (parts.zip elems).map fun x => { x.1.piece with data := x.2.2 % 2 ^ (8 * x.1.size) }
  let (ps1, s2) := s1.chooseLocal ps
  s2.modWarp slot fun w =>
    let x : Writes := ⟨stcSlots ri elems q0 w.r.live, [], [], []⟩
    let r := w.r.deliver op.gseq x
    let shift (y : Regs) : Regs := if grp = 0 then y else y.stcShift grp ri
    let w1 := ({ w with
      r := shift r
      pend := w.pend ++ [{ op with id := id, kind := .store, pieces := ps1, ord := .plain, scope := .warp }] }).giveValues op.gseq x
    { w1 with proof := w1.proof.map fun p => { p with r := shift p.r } }

/-- The group that an stc holds until its update returns. -/
def Warp.heldBy (w : Warp) (op : Nat) : Option Wait :=
  w.waits.find? fun x => match x.kind with
    | .ops l => l.any fun y => y.2 == op
    | _ => false

/-- The fault of an element (R307): raised at the stc, which the replay queue completes. -/
def State.stcFault (s : State) (slot : Nat) (op : MemOp) (grp : Mask) (len : Nat) (f : SyncFault) : State :=
  s.takeTrap slot
    { cause := f.cause, sync := some (grp, op.lanes, op.pc + BitVec.ofNat 64 (4 * len)), laddr := f.laddr, flags := f.flags,
      unit := 0, pc := op.pc, gseq := op.gseq, skid := 0, lanes := op.lanes, w0 := f.w0, w1 := f.w1, index := 0,
      time := s.time, extra := [.mem op] }

/-- An stc leaves the operations in flight, and the group it held goes on. -/
def Warp.dropStc (w : Warp) (op : MemOp) : Warp :=
  let w1 := { w with pend := w.pend.filter fun o => o.id != op.id }
  match w.heldBy op.id with
  | none => w1
  | some h => w1.endWait h

/-- The element accesses of an stc fault (R307). An error that is already queued is older: its trap is taken first and holds
the stc in its replay queue (R373). While no boundary can be taken the stc stays as it is; in a handler the fault is a double
fault (R377). -/
def State.stcElementFault (s : State) (slot : Nat) (w : Warp) (op : MemOp) (f : SyncFault) : State :=
  match w.heldBy op.id with
  | none => s.modWarp slot fun y => y.dropStc op
  | some h =>
    if w.r.inHandler then s.stcFault slot op h.lanes h.len f
    else if !(w.dropStc op).boundaryWith [.mem op] then s
    else if w.async.isEmpty && w.det.isEmpty then
      (s.modWarp slot fun y => { y with pend := y.pend.filter fun o => o.id != op.id }).stcFault slot op h.lanes h.len f
    else (s.modWarp slot fun y => y.dropStc op).takeQueued slot [.mem op]

/-- The update of an stc has returned q0: the group is released and the element stores are made. A page that is moving
keeps the stc waiting; a poisoned table entry is a detected error. -/
def State.stcUpdated (s : State) (slot : Nat) (op : MemOp) (ri : Option (Fin 256)) (mw : MW) (base : DWord)
    (elems : List (Nat × Nat)) (q0 : Nat) : State :=
  match s.warp slot with
  | none => s
  | some w =>
    match s.stcParts slot w mw (stcElements mw base elems q0) with
    | (.error (.moving _), s1) => s1
    | (.error (.fault f), s1) => s1.stcElementFault slot w op f
    | (.error (.poison _), s1) => (s1.modWarp slot fun y => y.dropStc op).poisonHit slot op 0 0xC2
    | (.ok parts, s1) =>
      (s1.modWarp slot fun y => y.dropStc op).stcFinish slot op ri elems q0 parts (((w.heldBy op.id).map Wait.lanes).getD 0)

/-- An stc's update is performed, once; its elements follow as soon as their pages do not move. -/
def State.performStc (s : State) (slot : Nat) (w : Warp) (op : MemOp) (p : Piece) (ri : Option (Fin 256)) (mw : MW)
    (base : DWord) (elems : List (Nat × Nat)) : State :=
  let (s1, q0) := s.performPart slot w op 0 p
  let op1 := { op with pieces := op.pieces.map fun x => { x with done := true, got := some q0 } }
  (s1.modWarp slot fun y => { y with pend := y.pend.map fun o => if o.id = op.id then op1 else o }).stcUpdated slot op1 ri
    mw base elems q0

/-- A part of an atomic of a warp is performed. -/
def warpAtomicPerformed (slot op piece : Nat) (s0 : State) : Out :=
  let s := s0.settle slot
  match s.partOf slot op piece with
  | none => .fault .notEnabled
  | some (w, o, p) =>
    match o.kind with
    | .load _ _ | .kload _ _ | .jload _ | .store | .fence => .fault .notEnabled
    | .stc ri mw base elems =>
      if p.done then .next (s.stcUpdated slot o ri mw base elems (p.got.getD 0))
      else if s.canPerform slot w o piece p then .next (s.performStc slot w o p ri mw base elems)
      else .fault .notEnabled
    | _ =>
      if s.canPerform slot w o piece p then
        let (s1, x) := s.performPart slot w o piece p
        .next (s1.partDone slot op piece x)
      else .fault .notEnabled

/-! ### Results, moving pages (R93, R203, R344) -/

def execResultWriteback (slot k : Nat) (s : State) : Out :=
  match (s.warp slot).bind fun w => w.results[k]? with
  | none => .fault .notEnabled
  | some x => .next (s.writeResult slot x)

/-- Translate a part of a store or atomic again (R344): where it lies now; none while its page is still moving; or why
it cannot be. -/
def State.relocate (s : State) (u ctx : Nat) (k : OpKind) (va : DWord) : Except (Nat × Nat) (Option Place) × State :=
  match s.translate u ctx va (if k.isLoad then .read else if k.isStore then .write else .readWrite) with
  | (.error (.cause c e), s1) => (.error (c, e), s1)
  | (.error .poison, s1) => (.error (0xC2, 0), s1)
  | (.ok p, s1) => (.ok (if p.mig then none else some p.place), s1)

def State.setPart (s : State) (slot op k : Nat) (f : Piece → Piece) : State :=
  let g (o : MemOp) : MemOp := if o.id = op then o.setPiece k f else o
  s.modWarp slot fun w => { w with
    pend := w.pend.map g
    proof := w.proof.map fun p => { p with lag := p.lag.map fun e => { e with op := e.op.map g } } }

/-- A part that can no longer be translated is dropped; its cause is an asynchronous error. -/
def State.lostPart (s : State) (slot : Nat) (op : MemOp) (k : Nat) (p : Piece) (cause entry : Nat) : State :=
  let s1 :=
    if cause = 0xC2 then s.poisonHit slot op p.va 0xC2
    else s.queueAsync slot { cause := cause, pc := op.pc, gseq := op.gseq, lanes := op.lanes, laddr := p.va
                             w0 := BitVec.ofNat 64 (if op.kind.isStore then kindStore else kindAtomic)
                             w1 := BitVec.ofNat 64 entry, unit := 0, index := 0, level := op.depth, time := s.time
                             soft := false }
  s1.partDone slot op.id k 0

/-- Send a part of an access to where its page is now. -/
def State.moveOne (s : State) (slot : Nat) (w : Warp) (op : MemOp) (k : Nat) (p : Piece) : State :=
  match s.relocate (slotQuadId slot) w.ctx op.kind p.va with
  | (.error (c, e), s1) => if op.kind.isLoad then s1 else s1.lostPart slot op k p c e
  | (.ok none, s1) => s1
  | (.ok (some x), s1) =>
    match op.kind with
    | .catom _ _ =>
      (match s1.relocate (slotQuadId slot) w.ctx op.kind p.va2 with
      | (.error (c, e), s2) => s2.lostPart slot op k p c e
      | (.ok none, s2) => s2
      | (.ok (some y), s2) => s2.setPart slot op.id k fun q => { q with place := x, place2 := y, sent := false })
    | _ => s1.setPart slot op.id k fun q => { q with place := x, place2 := x, sent := false }

/-- A store or atomic is NACKed MOVED at its old home and translated again (R203, R224, R344). -/
def execMovedNack (slot op piece : Nat) (s0 : State) : Out :=
  let s := s0.settle slot
  match s.partOf slot op piece with
  | none => .fault .notEnabled
  | some (w, o, p) =>
    if !o.kind.isLoad && s.partReady slot w o piece p && (s.isMoving p.place || s.isMoving p.place2) &&
        (!needsFabric slot o.kind p || s.arrived slot op piece p) then
      .next ((s.leaveFabric slot op piece p).moveOne slot w o piece p)
    else .fault .notEnabled

/-- The page whose walk is to be repeated now. -/
def Wait.walkDue (x : Wait) : Option DWord :=
  match x.kind with
  | .walk va 0 => some va
  | _ => none

/-- The walk of a held store or atomic is repeated (R344): the group issues its instruction again once MIG = 0. A record that
waits to be posted tries again. -/
def execMigWalkRetry (slot : Nat) (s : State) : Out :=
  match s.warp slot with
  | none => match if slot = engineSlot then s.postLate else none with
    | none => .fault .notEnabled
    | some t => .next t
  | some w =>
    match w.waits.findSome? fun x => x.walkDue.map fun va => (x, va) with
    | none => .fault .notEnabled
    | some (x, va) =>
      let still := match s.walk w.ctx va with
        | .ok t => pteMig t.leaf.toNat
        | .error _ => false
      let ws := if still then w.waits.map (fun y => if y = x then { y with kind := .walk va 1000 } else y)
        else w.waits.filter (fun y => y != x)
      .next (s.setWarp slot { w with waits := ws })

end Sys2Proof.Machine
end

