-- ==== Sys2Proof/Machine/Control.lean ====
section
/-! DEFINITION. Branches, calls, exit (R287 to R295), rejoin sets (R279 to R283, R296 to R298) and stc (R305 to R307). -/

namespace Sys2Proof.Machine

/-- Run an instruction with at least one active lane; with none it only issues (R34). -/
def State.withActive (s : State) (g : Guard) (f : State → Slot → Warp → Regs → Mask → State) : Out :=
  s.onSlot fun s1 sl w r =>
    let act := active r sl.grp g
    .next (if act = 0 then s1.finish sl r else f s1 sl w r act)

/-- Raise a fault if there is one; a proof warp raises nothing of its own (R405). -/
def State.raiseOr (s : State) (sl : Slot) (act : Mask) (f : Option SyncFault) (k : State) : State :=
  match f with
  | none => k
  | some e => if sl.proof then k else s.raise sl act e

def Warp.modSide (w : Warp) (proof : Bool) (f : Regs → Regs) : Warp :=
  match w.side proof with
  | none => w
  | some r => w.setSide proof (f r)

/-- Give each lane of a mask its own PC. -/
def Regs.setPcs (r : Regs) (m : Mask) (f : Nat → DWord) : Regs :=
  { r with pc := (lanesOf m).foldl (fun acc l => acc.set l (f l)) r.pc }

/-- A transfer of control (R288): the active lanes take their targets, the others of the group go on. -/
def State.jump (s : State) (sl : Slot) (r : Regs) (act : Mask) (target : Nat → DWord) : State :=
  (s.finish sl r).modWarp sl.w fun w => w.modSide sl.proof fun x => x.setPcs act target

/-- PC + 4·off24 (R289). -/
def relTarget (pc : DWord) (off : BitVec 24) : DWord := pc + off.signExtend 64 * 4

/-- A target register (R290): one for all lanes, or each lane's pair. -/
def Regs.target (r : Regs) (a : ABase) (l : Nat) : DWord :=
  match a with
  | .zero => 0
  | .s k => r.sget k.val
  | .v k => r.vpair k.val l

def causeMisalignedTarget : Nat := 0x0A

/-- The first two words of an instruction, as its record gives them (R387). -/
def instrWords (i : Instr) : DWord × DWord :=
  let x := (encode i).getD 0
  (BitVec.ofNat 64 (bits x 0 32), BitVec.ofNat 64 (bits x 32 32))

/-- "misaligned target" (R293). -/
def targetFault (i : Instr) (act : Mask) (t : Nat → DWord) : Option SyncFault :=
  if (lanesOf act).any fun l => (t l).toNat % 4 != 0 then
    some ⟨causeMisalignedTarget, 0, (instrWords i).1, (instrWords i).2, 0⟩
  else none

def execBra (i : BraI) (s : State) : Out :=
  s.withActive i.g fun s1 sl _ r act => s1.jump sl r act fun _ => relTarget sl.pc i.off

def execBrx (i : JumpI) (s : State) : Out :=
  s.withActive i.g fun s1 sl _ r act =>
    s1.raiseOr sl act (targetFault sl.instr act (r.target i.target)) (s1.jump sl r act (r.target i.target))

def execRet (i : JumpI) (s : State) : Out :=
  s.withActive i.g fun s1 sl _ r act =>
    s1.raiseOr sl act (targetFault sl.instr act (r.target i.target)) (s1.jump sl r act (r.target i.target))

/-- The link pair in every active lane (R291). -/
def Regs.link (r : Regs) (d : Fin 256) (act : Mask) (back : DWord) : Regs :=
  r.writeV ((lanesOf act).flatMap fun l =>
    [(d.val * 32 + l, back.extractLsb' 0 32), ((d.val + 1) * 32 + l, back.extractLsb' 32 32)])

def execCall (i : CallI) (s : State) : Out :=
  s.withActive i.g fun s1 sl _ r act =>
    s1.jump sl (r.link i.link act sl.after) act fun _ => relTarget sl.pc i.off

def execCallx (i : CallxI) (s : State) : Out :=
  s.withActive i.g fun s1 sl _ r act =>
    s1.raiseOr sl act (targetFault sl.instr act (r.target i.target))
      (s1.jump sl (r.link i.link act sl.after) act (r.target i.target))

/-! ### Rejoin sets -/

def causeRejoinMismatch : Nat := 0x60
def causeOrphaned : Nat := 0x61
def causeNotMember : Nat := 0x62
def causeSetFree : Nat := 0x63

/-- A set that its release check releases (R279). -/
def JSet.ready (x : JSet) : Bool := x.open_ && x.arrived != 0 && x.arrived == x.members

/-- A jwait on set k. -/
def Wait.onSet (x : Wait) (k : Nat) : Bool :=
  match x.kind with
  | .jwait j => j.val == k
  | _ => false

/-- Set k releases (R280): every lane of ARRIVED stops waiting, at MEET and the length of that jwait. -/
def Warp.releaseSet (w : Warp) (k : Nat) : Warp :=
  let x := w.r.jget k
  let len := ((w.waits.find? fun y => y.onSet k && (y.lanes &&& x.arrived) != 0).map Wait.len).getD 2
  { w with
    waits := w.waits.filterMap fun y =>
      if !y.onSet k then some y
      else if y.lanes &&& ~~~x.arrived = 0 then none
      else some { y with lanes := y.lanes &&& ~~~x.arrived }
    r := ((w.r.setPc x.arrived (x.meet + BitVec.ofNat 64 (4 * len))).jset k { x with arrived := 0 }).dropLatches }

/-- Release every set that is ready (R279, R280). -/
def Warp.release (w : Warp) : Warp := ((List.range 16).filter fun k => (w.r.jget k).ready).foldl Warp.releaseSet w

/-- Release on the side that issued. A proof warp's lanes do not wait: its order of issue is its leader's. -/
def Warp.releaseOn (w : Warp) (proof : Bool) : Warp :=
  if proof then w.modSide true fun r =>
    (List.range 16).foldl (fun a k => if (a.jget k).ready then (a.jset k { a.jget k with arrived := 0 }).dropLatches else a) r
  else w.release

/-- An instruction that changes sets and finishes: the releases it causes follow. -/
def State.finishSets (s : State) (sl : Slot) (r : Regs) : State :=
  (s.finish sl r).modWarp sl.w fun w => w.releaseOn sl.proof

/-- Every live lane would wait at a jwait and no set would release (R281). -/
def orphaned (r : Regs) (waiting : Mask) : Bool :=
  r.live != 0 && (r.live &&& ~~~waiting) == 0 && (List.range 16).all fun k => !(r.jget k).ready

def orphanFault (r : Regs) (waiting : Mask) : Option SyncFault :=
  if orphaned r waiting then some (.plain causeOrphaned) else none

/-- The mask operand of jopen (R296). -/
def Regs.openMask (r : Regs) (a : Option Src) : Mask :=
  match a with
  | none => BitVec.allOnes 32
  | some (.s k) => (r.sget k.val).extractLsb' 0 32
  | some (.int c) => BitVec.ofInt 32 (intConst c)
  | some _ => 0

def execJopen (i : JopenI) (s : State) : Out :=
  s.withActive i.g fun s1 sl _ r act =>
    s1.raiseOr sl act (if (r.jget i.j.val).arrived != 0 then some (.plain causeOrphaned) else none)
      (s1.finish sl (r.jset i.j.val ⟨act &&& r.openMask i.mask, 0, 0, true⟩))

/-- "rejoin set free" (R279). -/
def freeFault (x : JSet) : Option SyncFault := if x.open_ then none else some (.plain causeSetFree)

def execJenter (i : JsetI) (s : State) : Out :=
  s.withActive i.g fun s1 sl _ r act =>
    let x := r.jget i.j.val
    s1.raiseOr sl act (freeFault x) (s1.finish sl (r.jset i.j.val { x with members := x.members ||| act }))

def execJquit (i : JsetI) (s : State) : Out :=
  s.withActive i.g fun s1 sl _ r act =>
    let x := r.jget i.j.val
    s1.raiseOr sl act (freeFault x) (s1.finishSets sl (r.jset i.j.val { x with members := x.members &&& ~~~act }))

/-- The checks of jwait in their order (R279). -/
def jwaitFault (x : JSet) (act : Mask) (pc : DWord) : Option SyncFault :=
  if !x.open_ then some (.plain causeSetFree)
  else if act &&& ~~~x.members ≠ 0 then some (.plain causeNotMember)
  else if x.arrived ≠ 0 ∧ pc ≠ x.meet then some (.plain causeRejoinMismatch)
  else none

/-- The active lanes arrive and wait; then the release check (R279, R280). -/
def State.arrive (s : State) (sl : Slot) (r : Regs) (act : Mask) (j : Fin 16) : State :=
  if sl.proof then s.finishSets sl r
  else (s.holdAt sl r act (.jwait j)).modWarp sl.w Warp.release

def execJwait (i : JsetI) (s : State) : Out :=
  s.withActive i.g fun s1 sl w r act =>
    let x := r.jget i.j.val
    let r1 := r.jset i.j.val
      { x with arrived := x.arrived ||| act, meet := if x.arrived = 0 then sl.pc else x.meet }
    s1.raiseOr sl act (jwaitFault x act sl.pc)
      (s1.raiseOr sl act (orphanFault r1 (w.jwaiting ||| act)) (s1.arrive sl r1 act i.j))

def execJfree (i : JsetI) (s : State) : Out :=
  s.withActive i.g fun s1 sl _ r act =>
    s1.raiseOr sl act (if (r.jget i.j.val).arrived != 0 then some (.plain causeOrphaned) else none)
      (s1.finish sl (r.jset i.j.val ⟨0, 0, 0, false⟩))

/-- The lanes retire and quit every open set (R279, R294). -/
def Regs.retire (r : Regs) (act : Mask) : Regs :=
  { r with
    live := r.live &&& ~~~act
    j := r.j.filterMap fun x =>
      let y : JSet := { x.2 with members := x.2.members &&& ~~~act }
      if y = default then none else some (x.1, y) }

def execExit (i : PlainI) (s : State) : Out :=
  s.withActive i.g fun s1 sl w r act =>
    let r1 := r.retire act
    s1.raiseOr sl act (if w.levels.isEmpty then none else some (.plain causeForbidden))
      (s1.raiseOr sl act (orphanFault r1 w.jwaiting) (s1.finishSets sl r1))

/-! ### Saving and loading a set (R298) -/

/-- The image of a set. -/
def JSet.image (x : JSet) : Nat :=
  x.members.toNat + 2 ^ 32 * x.arrived.toNat + 2 ^ 64 * (x.meet.toNat / 4 * 4) + 2 ^ 64 * x.open_.toNat

/-- The private offset of a set's image (R298). -/
def Rd.imageOffset (x : Rd) (i : JmemI) (l : Nat) : Int :=
  ((x.r.sget i.base.val).toNat % 2 ^ 32 : Nat) + 16 * x.i32 i.slot l

def jmemReq (i : JmemI) (k : OpKind) (n : Need) (no : Nat) : MemReq :=
  { g := i.g, kind := k, sp := .priv, size := 16, need := n, no := no, ord := .plain, scope := .warp, sbc := 0, cp := 0
    uniform := k != .store, ea := fun x l => x.imageOffset i l, data := fun x _ => (x.r.jget i.j.val).image
    data2 := fun _ _ => 0 }

def execJsave (i : JmemI) (s : State) : Out := s.memory (jmemReq i .store .write kindStore)

def execJload (i : JmemI) (s : State) : Out :=
  s.withActive i.g fun s1 sl w r act =>
    s1.raiseOr sl act (if (r.jget i.j.val).arrived != 0 then some (.plain causeOrphaned) else none)
      (s1.memoryOn sl w r act (jmemReq i (.jload i.j) .read kindLoad))

/-! ### stc -/

/-- The operation of an stc: the update of its queue pointer, with what its elements will store (R306). -/
def stcOp (i : StcI) (sl : Slot) (w : Warp) (r : Regs) (act : Mask) (id : Nat) (p : Part) : MemOp :=
  let x : Rd := ⟨r, 0, act, 0⟩
  { id := id
    kind := .stc i.ri i.w (r.sget i.base.val + BitVec.ofInt 64 i.x.off)
      ((lanesOf act).map fun l => (l, x.storeData i.data (mwBytes i.w) l))
    pieces := [{ p.piece with data := countOf act }], ord := .rlx, scope := effectiveScope .global i.x.scope
    sbc := i.x.sbc.val, cp := i.x.cp.val, uncached := false, pc := sl.pc, gseq := r.gseq.toNat, lanes := act
    depth := w.levels.length }

/-- What the proof warp compares of an stc: its update and what its elements will store (R405). -/
def stcCompared (i : StcI) (sl : Slot) (r : Regs) (act : Mask) (ps : List Piece) : Compared :=
  let x : Rd := ⟨r, 0, act, 0⟩
  comparedOf sl.pc act ps ((r.sget i.base.val + BitVec.ofInt 64 i.x.off) ::
    (lanesOf act).flatMap fun l => [BitVec.ofNat 64 (x.storeData i.data (mwBytes i.w) l),
      BitVec.ofNat 64 (x.storeData i.data (mwBytes i.w) l / 2 ^ 64)])

/-- The part of an stc's update as the proof warp forms it. -/
def stcPart (i : StcI) (r : Regs) (act : Mask) : List Part :=
  ((lanesOf act).take 1).map fun l => ⟨l, .hbm 0, r.sget i.q.val, 8, false, true⟩

/-- stc on its leading warp: Q is checked precisely, then the group waits for the update (R307). -/
def State.leadStc (s : State) (sl : Slot) (w : Warp) (r : Regs) (act : Mask) (i : StcI) : State :=
  if !w.levels.isEmpty then s.raise sl act (.plain causeForbidden)
  else match s.access sl.w w .global 8 .readWrite kindAtomic
      ((lanesOf act).take 1 |>.map fun l => (l, ((r.sget i.q.val).toNat : Int))) with
    | (.error e, s1) => s1.stopAccess sl w r act e
    | (.ok parts, s1) =>
      let (id, s2) := s1.fresh
      let ops := parts.map fun p => stcOp i sl w r act id p
      if w.proof.isSome then
        s2.holdWith sl r sl.grp (.ops [(sl.w, id)]) fun y =>
          { sl.lag y with op := ops.head?, compared := some (stcCompared i sl r act (ops.flatMap MemOp.pieces)) }
      else (s2.holdAt sl r sl.grp (.ops [(sl.w, id)])).modWarp sl.w fun y => { y with pend := y.pend ++ ops }

/-- The proof warp's stc is compared; its slots come with the leader's values (R405). -/
def State.proofStc (s : State) (sl : Slot) (r : Regs) (act : Mask) (i : StcI) : State :=
  s.compareProof sl r (stcCompared i sl r act ((stcPart i r act).map fun p => { p.piece with data := countOf act }))

def execStc (i : StcI) (s : State) : Out :=
  s.onSlot fun s1 sl w r =>
    let act := active r sl.grp i.g
    .next (if act = 0 then s1.finish sl (r.stcShift sl.grp i.ri)
      else if sl.proof then s1.proofStc sl r act i
      else s1.leadStc sl w r act i)

end Sys2Proof.Machine
end

