-- ==== Sys2Proof/Machine/Sync.lean ====
section
/-! DEFINITION. Fences, split barriers, counters, pause (R225 to R234), bank modes and FIFO banks (R177 to R180, R217,
R218), and the end of a group's wait (R236, R274). -/

namespace Sys2Proof.Machine

/-! ### fence -/

/-- The order a fence has inside a region: its release part is the release's (R204). -/
def fenceOrd (inRegion : Bool) (o : Ord) : Ord := if inRegion && ordAcquires o then .acq else o

def execFence (i : FenceI) (s : State) : Out :=
  s.withActive i.g fun s1 sl w r act =>
    let o := fenceOrd (!w.levels.isEmpty) i.ord
    if sl.proof then s1.finish sl r
    else if !w.levels.isEmpty && !ordAcquires o then (s1.finish sl r).constFence sl.w s1.opSeq (scopeRank (effectiveScope .global i.scope))
    else
      let (id, s2) := s1.fresh
      (s2.finish sl r).modWarp sl.w fun x =>
        { x with pend := x.pend ++ [fenceOp id o (effectiveScope .global i.scope) sl.pc r.gseq.toNat act w.levels.length] }

/-! ### Values read at once -/

/-- The space of a barrier object (R227). -/
def objSpace (scratch : Bool) : Space := if scratch then .block else .global

/-- The address of an object in a scalar (R227). -/
def objAddress (scratch : Bool) (x : DWord) : DWord := if scratch then x &&& 0xFFFFFFFF else x

/-- The checks of an object's bytes and where they lie (R208, R227). -/
def State.objectPart (s : State) (slot : Nat) (w : Warp) (scratch : Bool) (va : DWord) (size : Nat) (n : Need) (kind : Nat) :
    Except MemStop Part × State :=
  match s.access slot w (objSpace scratch) size n kind [(0, (va.toNat : Int))] with
  | (.error e, s1) => (.error e, s1)
  | (.ok (p :: _), s1) => (.ok p, s1)
  | (.ok [], s1) => (.error (.fault (.plain causeTranslation)), s1)

/-- The byte of an object that a strong read by the warp returns now: the galley's, the warp's own, one it may see, or
the home's. -/
def State.nowByte (s : State) (slot : Nat) (w : Warp) (p : Part) (i : Nat) : Option Byte :=
  let q := p.place.add i
  match if p.place.sheet?.isSome then w.withLag.forward false (p.va.toNat + i) else none with
  | some b => some b
  | none => newestByte (w.ownStores s.opSeq s.opSeq ++ s.visible slot) q

/-- The value of an object read now; none when poisoned bytes are reached. -/
def State.readNow (s : State) (slot : Nat) (w : Warp) (p : Part) : Option Nat :=
  let found := (List.range p.size).map fun i => s.nowByte slot w p i
  if found.all Option.isSome then some (leNat (found.filterMap id))
  else if s.poisoned p.place p.size then none
  else some (leNat (found.zipIdx.map fun x => x.1.getD (s.byte (p.place.add x.2))))

/-- What a look at an awaited object shows. -/
inductive Look where
  | go | stay
  | stop (e : MemStop)
  | poisoned (cause : Nat)
  deriving DecidableEq, Repr, Inhabited

def causeMalformedBarrier : Nat := 0x81

/-- Whether the phase that a barrier shows differs from the parity asked for (R230). -/
def phaseLook (x : Option Nat) (par : Bool) (va : DWord) : Look :=
  match x with
  | none => .poisoned 0xC8
  | some v => match Barrier.parse v with
    | none => .stop (.fault ⟨causeMalformedBarrier, va, 0, 0, 0⟩)
    | some b => if b.phase != par then .go else .stay

/-- Look at a barrier object or a counter. -/
def State.look (s : State) (slot : Nat) (w : Warp) (scratch : Bool) (va : DWord) (size : Nat)
    (f : Option Nat → Look) : Look × State :=
  match s.objectPart slot w scratch va size .read kindLoad with
  | (.error e, s1) => (.stop e, s1)
  | (.ok p, s1) => (f (s1.readNow slot w p), s1.refreshHome (slotForme slot) p.place size)

/-- Look at what a wait awaits. -/
def State.lookWait (s : State) (slot : Nat) (w : Warp) : WaitKind → Look × State
  | .barWait va scratch par _ _ => s.look slot w scratch va 16 fun x => phaseLook x par va
  | .waitc va value _ _ => s.look slot w false va 8 fun x => match x with
    | none => .poisoned 0xC2
    | some v => if value ≤ v then .go else .stay
  | _ => (.stay, s)

def WaitKind.scope : WaitKind → Scope
  | .barWait _ _ _ x _ | .waitc _ _ x _ => x
  | _ => .warp

/-- Issue a wait on an object: it ends at once, or holds the whole group (R230, R231). -/
def State.beginWait (s : State) (sl : Slot) (w : Warp) (r : Regs) (act : Mask) (k : WaitKind) (va : DWord) : State :=
  if sl.proof then s.finish sl r
  else match s.lookWait sl.w w k with
    | (.go, s1) => (s1.finish sl r).acquire sl.w (s.reach w k.scope)
    | (.stay, s1) => s1.holdAt sl r sl.grp k
    | (.poisoned c, s1) => (s1.holdAt sl r sl.grp k).detectOnce sl.w c sl.pc r.gseq.toNat act va w.levels.length
    | (.stop e, s1) => s1.stopAccess sl w r act e

/-! ### Barriers (R226 to R230) -/

/-- A barrier's scope: no wider than its space (R185). -/
def barScope (scratch : Bool) (x : Scope) : Scope := effectiveScope (objSpace scratch) x

/-- A count is 1 to 2^24 − 1 (R228, R229). -/
def badCount (n : Nat) : Bool := n == 0 || decide (2 ^ 24 ≤ n)

def execBarInit (i : BarInitI) (s : State) : Out :=
  s.withActive i.g fun s1 sl w r act =>
    let x : Rd := ⟨r, 0, act, 0⟩
    let n := x.word i.count 0
    if !sl.proof && !w.levels.isEmpty then s1.raise sl act (.plain causeForbidden)
    else if !sl.proof && badCount n then
      s1.raise sl act ⟨causeMalformedBarrier, objAddress i.scratch (r.sget i.obj.val), 0, 0, 0⟩
    else s1.memoryOn sl w r act
      { g := i.g, kind := .store, sp := objSpace i.scratch, size := 16, need := .write, no := kindStore, ord := .plain
        scope := .warp, sbc := 0, cp := 0, uniform := true
        ea := fun y _ => ((objAddress i.scratch (y.r.sget i.obj.val)).toNat : Int)
        data := fun _ _ => Barrier.code ⟨n, n, false, 0⟩, data2 := fun _ _ => 0 }

def execBarArrive (i : BarArriveI) (s : State) : Out :=
  s.withActive i.g fun s1 sl w r act =>
    let x : Rd := ⟨r, 0, act, 0⟩
    let n := x.word i.count (Rd.once r act)
    let by8 := x.dword i.bytes (Rd.once r act)
    if !sl.proof && badCount n then
      s1.raise sl act ⟨causeMalformedBarrier, objAddress i.scratch (r.sget i.obj.val), 0, 0, 0⟩
    else s1.memoryOn sl w r act
      { g := i.g, kind := .arrive n (BitVec.ofNat 64 by8), sp := objSpace i.scratch, size := 16, need := .readWrite
        no := kindAtomic, ord := .rel, scope := barScope i.scratch i.scope, sbc := i.sbc.val, cp := 0, uniform := true
        ea := fun y _ => ((objAddress i.scratch (y.r.sget i.obj.val)).toNat : Int)
        data := fun _ _ => n, data2 := fun _ _ => by8 }

def execBarWait (i : BarWaitI) (s : State) : Out :=
  s.withActive i.g fun s1 sl w r act =>
    let x : Rd := ⟨r, 0, act, 0⟩
    let va := objAddress i.scratch (r.sget i.obj.val)
    s1.beginWait sl w r act (.barWait va i.scratch (x.word i.par 0 % 2 == 1) (barScope i.scratch i.scope) act) va

/-- The end of a bar.test that read a value: its predicate, and an acquire when it writes 1. -/
def State.testDone (s : State) (sl : Slot) (w : Warp) (r : Regs) (act : Mask) (i : BarTestI) (b : Bool) : State :=
  let m : Mask := if b then act else 0
  let s1 := (s.finish sl (r.pset i.pd.val act m)).modWarp sl.w fun y =>
    y.giveValues r.gseq.toNat ⟨[], [], [(i.pd.val, m, act)], []⟩
  if b then s1.acquire sl.w (s.reach w (barScope i.scratch i.scope)) else s1

def execBarTest (i : BarTestI) (s : State) : Out :=
  s.withActive i.g fun s1 sl w r act =>
    let x : Rd := ⟨r, 0, act, 0⟩
    let va := objAddress i.scratch (r.sget i.obj.val)
    if sl.proof then s1.takeValues sl r
    else match s1.look sl.w w i.scratch va 16 fun v => phaseLook v (x.word i.par 0 % 2 == 1) va with
      | (.go, s2) => s2.testDone sl w r act i true
      | (.stay, s2) => s2.testDone sl w r act i false
      | (.stop e, s2) => s2.stopAccess sl w r act e
      | (.poisoned c, s2) =>
        let (id, s3) := s2.fresh
        (s3.testDone sl w r act i (Config.poisonValue id 0 % 2 == 1)).detectOnce sl.w c sl.pc r.gseq.toNat act va
          w.levels.length

/-! ### Counters (R231, R232), waitsb (R233), pause (R234) -/

def execWaitc (i : WaitcI) (s : State) : Out :=
  s.withActive i.g fun s1 sl w r act =>
    let x : Rd := ⟨r, 0, act, 0⟩
    let va := r.sget i.ctr.val
    s1.beginWait sl w r act (.waitc va (x.dword i.value 0) (effectiveScope .global i.scope) act) va

def execSignal (i : SignalI) (s : State) : Out :=
  s.memory
    { g := i.g, kind := .signal, sp := .global, size := 8, need := .readWrite, no := kindAtomic, ord := .rel
      scope := i.scope, sbc := i.sbc.val, cp := 0, uniform := true
      ea := fun x _ => ((x.r.sget i.ctr.val).toNat : Int), data := fun x _ => x.dword i.value 0, data2 := fun _ _ => 0 }

/-- Accumulator stores of the Platen queue that count on a scoreboard counter (R168). -/
def PlatOp.countsOn (o : PlatOp) (n : Nat) : Bool :=
  match o.instr with
  | .accSt i => i.sb.val == n
  | _ => false

/-- The operations that a handler's end sends again (R378). -/
def Regs.replayMem (r : Regs) : List MemOp :=
  match r.frame with
  | none => []
  | some f => f.replay.filterMap fun x => match x with
    | .mem o => some o
    | .plat _ => none
def Regs.replayPlat (r : Regs) : List PlatOp :=
  match r.frame with
  | none => []
  | some f => f.replay.filterMap fun x => match x with
    | .plat o => some o
    | .mem _ => none

/-- The count of scoreboard counter n (R18): instructions that named it and have not finished, each once. -/
def Warp.sbCount (w : Warp) (n : Nat) : Nat :=
  ((((w.inFlight ++ w.r.replayMem).filter fun o => o.sbc == n + 1).map MemOp.gseq ++
    ((w.platen ++ w.r.replayPlat).filter fun o => o.countsOn n).map PlatOp.gseq).eraseDups).length

def execWaitsb (i : WaitsbI) (s : State) : Out :=
  s.withActive i.g fun s1 sl w r act =>
    let n := (⟨r, 0, act, 0⟩ : Rd).word i.n 0
    if sl.proof || decide (w.sbCount i.sb.val ≤ n) then s1.finish sl r else s1.holdAt sl r sl.grp (.waitsb i.sb.val n)

def execPause (i : PauseI) (s : State) : Out :=
  s.withActive i.g fun s1 sl _ r act =>
    let n := min ((⟨r, 0, act, 0⟩ : Rd).word i.n (Rd.once r act)) 4095
    if sl.proof || n = 0 then s1.finish sl r else s1.holdAt sl r sl.grp (.pause n)

/-! ### Bank modes (R177 to R179, R217) -/

/-- Whether a byte of a block's scratch lies in a bank of its grant (R175). -/
def inBank (nb k o : Nat) : Bool := o / 64 % nb == k

/-- A bank's content after its switch (R178): zero bytes, no entry, no poison. -/
def Block.clearBank (b : Block) (k : Nat) : Block :=
  { b with scratch := b.scratch.filter fun x => !inBank b.banks.length k x.1
           poison := b.poison.filter fun x => !inBank b.banks.length k (4 * x)
           fifos := b.fifos.filter fun x => x.1 != k }

/-- Switch one bank of the grant: to its own mode it has no effect (R178). -/
def Block.switchBank (b : Block) (k : Nat) (m : BankMode) : Block :=
  if b.modes.getD k .scratch = m then b
  else { b.clearBank k with modes := b.modes.zipIdx.map fun x => if x.2 = k then m else x.1 }

/-- A check of an instruction that names banks of the grant: region, migration, grant (R217, R218). -/
def bankFault (s : State) (slot : Nat) (w : Warp) (first count : Nat) : Option SyncFault :=
  if !w.levels.isEmpty then some (.plain causeForbidden)
  else if w.away slot then some (.plain causeScratchAway)
  else
    let nb := ((s.scratchBlock slot w w.block).map fun b => b.banks.length).getD 0
    if count = 0 ∨ nb < first + count then some (.plain causeBankGrant) else none

def execBankcfg (i : BankcfgI) (s : State) : Out :=
  s.withActive i.g fun s1 sl w r act =>
    let x : Rd := ⟨r, 0, act, 0⟩
    let first := x.word i.first 0
    let count := x.word i.count 0
    if sl.proof then s1.finish sl r
    else match bankFault s1 sl.w w first count with
      | some f => s1.raise sl act f
      | none => s1.holdAt sl r sl.grp (.drain ((List.range count).map fun k => first + k) i.mode)

/-- A part in flight lies in one of a block's banks. -/
def Piece.inBanks (p : Piece) (g b nb : Nat) (l : List Nat) : Bool :=
  match p.place with
  | .scr g' b' o => !p.done && g' == g && b' == b && l.any fun k => inBank nb k o
  | _ => false

/-- Every request before a switch has been served: those of the gang's warps in flight, and the scratch operands of the
Platen operations that the switching warp has issued (R178, R179). -/
def State.banksIdle (s : State) (g b nb : Nat) (l : List Nat) : Bool :=
  s.warpList.all fun y => y.2.inFlight.all fun o => o.pieces.all fun p => !p.inBanks g b nb l

/-- A Platen operation with an operand in scratch. -/
def PlatOp.usesScratch (o : PlatOp) : Bool := o.recs.any fun x => x.space != 0

/-- Banks that a switch takes out of FIFO mode. -/
def Block.leaveFifo (b : Block) (l : List Nat) (m : BankMode) : List Nat :=
  if m = .fifo then [] else l.filter fun k => b.modes.getD k .scratch == .fifo

/-- A fifo instruction that waits on such a bank fails (R217). -/
def Wait.failFifo (x : Wait) (l : List Nat) : Wait :=
  match x.kind with
  | .fifoPush bank _ a | .fifoPop bank _ a => if l.contains bank then { x with kind := .fifoFailed a } else x
  | _ => x

/-- The waits of a block's warps on those banks. -/
def State.failFifos (s : State) (g b : Nat) (l : List Nat) : State :=
  if l.isEmpty then s
  else (s.warpList.filter fun y => y.2.gang == g && y.2.block == b).foldl (fun a y => a.modWarp y.1 fun w =>
    { w with waits := w.waits.map fun x => x.failFifo l }) s

/-- The drain of a bankcfg ends: the banks change in ascending order and the warp resumes (R178, R217). -/
def execBankDrainEnd (slot : Nat) (s : State) : Out :=
  match s.warp slot with
  | none => .fault .notEnabled
  | some w =>
    match w.waits.findSome? fun x => match x.kind with
        | .drain l m => some (x, l, m)
        | _ => none with
    | none => .fault .notEnabled
    | some (x, l, m) =>
      match s.scrBlock w.gang w.block with
      | none => .fault .notEnabled
      | some b =>
        if s.banksIdle w.gang w.block b.banks.length l && w.platen.all fun o => !o.usesScratch then
          .next (((s.modGang w.gang fun g => g.modBlock w.block fun y => l.foldl (fun a k => a.switchBank k m) y).failFifos w.gang
            w.block (b.leaveFifo l m)).modWarp slot fun y => y.endWait x)
        else .fault .notEnabled

/-! ### FIFO banks (R180, R218) -/

/-- What a waiting fifo instruction meets: "bank mode", room and entries, or nothing yet. -/
def State.fifoLook (s : State) (w : Warp) (k : WaitKind) : Look :=
  match s.scrBlock w.gang w.block, k with
  | some b, .fifoPush bank words _ =>
    if b.modes.getD bank .scratch ≠ .fifo then .stop (.fault (.plain causeBankMode))
    else if (b.fifos.get bank).length + words.length ≤ Config.fifoEntries then .go else .stay
  | some b, .fifoPop bank _ act =>
    if b.modes.getD bank .scratch ≠ .fifo then .stop (.fault (.plain causeBankMode))
    else if countOf act ≤ (b.fifos.get bank).length then .go else .stay
  | _, _ => .stay

/-- A push is a release at block scope (R180): what the warp did before it is ready to be seen. -/
def State.pushReady (s : State) (slot : Nat) (w : Warp) : Bool := s.releaseReady slot w s.opSeq (s.reach w .block)

/-- The transfer of a fifo instruction, one step (R218). -/
def State.fifoMove (s : State) (slot : Nat) (w : Warp) (gseq : Nat) (k : WaitKind) : State :=
  match k with
  | .fifoPush bank words _ =>
    (s.shareForRelease slot s.opSeq (s.reach w .block)).modGang w.gang fun g => g.modBlock w.block fun b =>
      { b with fifos := b.fifos.modify bank fun l => l ++ words.map fun x => (x, false) }
  | .fifoPop bank d act =>
    let l := (((s.scrBlock w.gang w.block).map fun b => b.fifos.get bank).getD []).take (countOf act)
    let vw := ((lanesOf act).zip l).map fun x =>
      (d.val * 32 + x.1, if x.2.2 then BitVec.ofNat 32 (Config.poisonValue gseq x.1) else x.2.1)
    let s1 := s.modGang w.gang fun g => g.modBlock w.block fun b =>
      { b with fifos := b.fifos.modify bank fun q => q.drop (countOf act) }
    let s2 := (s1.modWarp slot fun y => ({ y with r := y.r.writeV vw }).giveValues gseq ⟨vw, [], [], []⟩).acquire slot
      (s.reach w .block)
    if l.any Prod.snd then
      s2.detectFor slot 0xC2 (((lowest act).map w.r.pcGet).getD 0) gseq act 0 0 w.levels.length
    else s2
  | _ => s

/-- Issue a fifo instruction: a transfer at once, or a wait of the whole group. -/
def State.beginFifo (s : State) (sl : Slot) (w : Warp) (r : Regs) (act : Mask) (bank : Nat) (k : WaitKind) (push : Bool) :
    State :=
  match bankFault s sl.w w bank 1 with
  | some f => s.raise sl act f
  | none => match s.fifoLook w k with
    | .stop (.fault f) => s.raise sl act f
    | .go => if push && !s.pushReady sl.w w then s.holdAt sl r sl.grp k
      else (s.finish sl r).fifoMove sl.w w r.gseq.toNat k
    | _ => s.holdAt sl r sl.grp k

def execFifoPush (i : FifoPushI) (s : State) : Out :=
  s.withActive i.g fun s1 sl w r act =>
    let x : Rd := ⟨r, 0, act, 0⟩
    let bank := x.word i.bank 0
    if sl.proof then s1.finish sl r
    else s1.beginFifo sl w r act bank
      (.fifoPush bank ((lanesOf act).map fun l => BitVec.ofNat 32 (x.storeData i.data 4 l)) act) true

def execFifoPop (i : FifoPopI) (s : State) : Out :=
  s.withActive i.g fun s1 sl w r act =>
    let bank := (⟨r, 0, act, 0⟩ : Rd).word i.bank 0
    if sl.proof then s1.takeValues sl r else s1.beginFifo sl w r act bank (.fifoPop bank i.d act) false

/-! ### The end of a wait -/

/-- A fault that a waiting instruction meets (R230, R236): the wait is taken off and the fault raised as if the instruction
issued again, once a boundary can be taken. -/
def State.waitFault (s : State) (slot : Nat) (w : Warp) (x : Wait) (pc : DWord) (act : Mask) (f : SyncFault) : Out :=
  let w1 := { w with waits := w.waits.filter fun y => y != x }
  if !w.r.inHandler && !w1.boundary then .fault .notEnabled
  else .next ((s.setWarp slot w1).takeTrap slot
    { cause := f.cause, sync := some (x.lanes, act, pc), laddr := f.laddr, flags := f.flags, unit := 0, pc := pc
      gseq := x.gseq, skid := 0, lanes := act, w0 := f.w0, w1 := f.w1, index := 0, time := s.time, extra := [] })

def WaitKind.act : WaitKind → Mask
  | .barWait _ _ _ _ a | .waitc _ _ _ a | .fifoPush _ _ a | .fifoPop _ _ a | .fifoFailed a => a
  | _ => 0

/-- End a wait on an object, or raise what it now meets. -/
def State.finishLook (s : State) (slot : Nat) (w : Warp) (x : Wait) (pc va : DWord) : Look × State → Out
  | (.go, s1) => .next ((s1.modWarp slot fun y => y.endWait x).acquire slot (s.reach w x.kind.scope))
  | (.stop (.fault f), s1) => s1.waitFault slot w x pc x.kind.act f
  | (.stop (.poison a), s1) =>
    if w.detected x.gseq then .fault .notEnabled
    else .next (s1.detectOnce slot 0xC2 pc x.gseq x.kind.act a w.levels.length)
  | (.poisoned c, s1) =>
    if w.detected x.gseq then .fault .notEnabled
    else .next (s1.detectOnce slot c pc x.gseq x.kind.act va w.levels.length)
  | _ => .fault .notEnabled

/-- The operations of a warp that are issued and not finished: in flight, or held for its handler's end (R378). -/
def Warp.unfinished (w : Warp) : List MemOp :=
  w.inFlight ++ w.r.replayMem

/-- An operation is still unfinished, in a resident or a suspended warp. -/
def State.unfinished (s : State) (id : Nat) : Bool :=
  (s.warpList ++ s.gangs.flatMap Gang.saved).any fun y => y.2.unfinished.any fun o => o.id == id

/-- Every operation of a list has been performed or has returned. -/
def State.opsGone (s : State) (l : List (Nat × Nat)) : Bool :=
  l.all fun y => match s.warp y.1 with
    | none => true
    | some w => w.inFlight.all fun o => o.id != y.2

/-- The wait of a lane's group ends (R218, R230, R231, R233, R234, R351, R352). -/
def execGroupWaitEnd (slot lane : Nat) (s : State) : Out :=
  match s.warp slot with
  | none => .fault .notEnabled
  | some w =>
    match w.waits.find? fun x => x.lanes.getLsbD lane with
    | none => .fault .notEnabled
    | some x =>
      let pc := w.r.pcGet lane
      let done : Out := .next (s.modWarp slot fun y => y.endWait x)
      match x.kind with
      | .barWait va _ _ _ _ | .waitc va _ _ _ => s.finishLook slot w x pc va (s.lookWait slot w x.kind)
      | .waitsb sb n => if w.sbCount sb ≤ n then done else .fault .notEnabled
      | .pause 0 => done
      | .fifoPush _ _ _ | .fifoPop _ _ _ =>
        (match s.fifoLook w x.kind with
        | .stop (.fault f) => s.waitFault slot w x pc x.kind.act f
        | .go =>
          let push := match x.kind with
            | .fifoPush _ _ _ => true
            | _ => false
          if push && !s.pushReady slot w then .fault .notEnabled
          else .next ((s.modWarp slot fun y => y.endWait x).fifoMove slot w x.gseq x.kind)
        | _ => .fault .notEnabled)
      | .ops l =>
        if (l.all fun y => !(y.1 == slot && w.pend.any fun o => o.id == y.2 && o.isStc)) && s.opsGone l then done
        else .fault .notEnabled
      | .fifoFailed _ => s.waitFault slot w x pc x.kind.act (.plain causeBankMode)
      | .drained l held =>
        if (l.all fun y => !s.unfinished y.2) && held.all fun i => !s.rdmaHeld.contains i then done else .fault .notEnabled
      | .pause (_ + 1) | .jwait _ | .proofEnd _ | .drain _ _ | .walk _ _ | .migrating _ _ => .fault .notEnabled

end Sys2Proof.Machine
end

