-- ==== Sys2Proof/Machine/IntArith.lean ====
section
/-! DEFINITION. Integer arithmetic, carries, comparison, addresses and narrow dot products (R88 to R97, R103, R108 to
R110). -/

namespace Sys2Proof.Machine

/-- Width 64: an operand is a pair, and the instruction takes more than one clock (R89, R91). -/
def isWide (t : Ty) : Bool := t.width == 64

/-- One integer operand: the exact value of `f`, wrapped or clamped (R90). -/
def int1 (i : Op1 IntM) (f : Int → Int) : VecOp :=
  { g := i.g, d := some i.d, pd := none, win := winOf [(i.a, isWide i.m.ty)], multi := (isWide i.m.ty), free := false
    f := fun x l => deliverInt i.m.ty i.m.sat (f (x.int i.m.ty i.a l)) }

/-- Two integer operands. -/
def int2 (g : Guard) (d : Dst) (a b : Src) (t : Ty) (sat multi : Bool) (f : Int → Int → Int) : VecOp :=
  { g := g, d := some d, pd := none, win := winOf [(a, isWide t), (b, isWide t)], multi := multi, free := false
    f := fun x l => deliverInt t sat (f (x.int t a l) (x.int t b l)) }

/-- Three integer operands. -/
def int3 (g : Guard) (d : Dst) (a b c : Src) (t : Ty) (sat multi : Bool) (f : Int → Int → Int → Int) : VecOp :=
  { g := g, d := some d, pd := none, win := winOf [(a, isWide t), (b, isWide t), (c, isWide t)], multi := multi,
    free := false, f := fun x l => deliverInt t sat (f (x.int t a l) (x.int t b l) (x.int t c l)) }

/-- The quotient of R96. -/
def divInt (t : Ty) (a b : Int) : Int := if b = 0 then -1 else if t.signed && a == Ty.lo t && b == -1 then a else a.tdiv b

/-- The remainder of R96. -/
def remInt (t : Ty) (a b : Int) : Int :=
  if b = 0 then a else if t.signed && a == Ty.lo t && b == -1 then 0 else a - b * a.tdiv b

def execAdd (i : Op2 IntM) (s : State) : Out := s.vec (int2 i.g i.d i.a i.b i.m.ty i.m.sat (isWide i.m.ty) fun a b => a + b)
def execSub (i : Op2 IntM) (s : State) : Out := s.vec (int2 i.g i.d i.a i.b i.m.ty i.m.sat (isWide i.m.ty) fun a b => a - b)
def execMul (i : Op2 IntM) (s : State) : Out := s.vec (int2 i.g i.d i.a i.b i.m.ty i.m.sat (isWide i.m.ty) fun a b => a * b)
def execMulhi (i : Op2 Ty) (s : State) : Out :=
  s.vec (int2 i.g i.d i.a i.b i.m false (isWide i.m) fun a b => a * b / 2 ^ i.m.width)
def execMad (i : Op3 IntM) (s : State) : Out :=
  s.vec (int3 i.g i.d i.a i.b i.c i.m.ty i.m.sat (isWide i.m.ty) fun a b c => a * b + c)
def execMadhi (i : Op3 Ty) (s : State) : Out :=
  s.vec (int3 i.g i.d i.a i.b i.c i.m false (isWide i.m) fun a b c => (a * b + c) / 2 ^ i.m.width)

/-- mulwd: the exact product into a pair, or whole into a scalar (R95). -/
def execMulwd (i : Op2 Ty) (s : State) : Out :=
  s.vec { g := i.g, d := some i.d, pd := none, win := winOf [(i.a, false), (i.b, false)], multi := false, free := false
          f := fun x l => .dword (wrap (x.int i.m i.a l * x.int i.m i.b l) 64) }

def execDiv (i : Op2 Ty) (s : State) : Out := s.vec (int2 i.g i.d i.a i.b i.m false true (divInt i.m))
def execRem (i : Op2 Ty) (s : State) : Out := s.vec (int2 i.g i.d i.a i.b i.m false true (remInt i.m))
def execAbs (i : Op1 IntM) (s : State) : Out := s.vec (int1 i fun a => if a < 0 then -a else a)
def execNeg (i : Op1 IntM) (s : State) : Out := s.vec (int1 i fun a => -a)
def execMin (i : Op2 Ty) (s : State) : Out := s.vec (int2 i.g i.d i.a i.b i.m false (isWide i.m) min)
def execMax (i : Op2 Ty) (s : State) : Out := s.vec (int2 i.g i.d i.a i.b i.m false (isWide i.m) max)
def execSad (i : Op3 Ty) (s : State) : Out :=
  s.vec (int3 i.g i.d i.a i.b i.c i.m false false fun a b c => (if a < b then b - a else a - b) + c)
def execAdd3 (i : Op3 IntM) (s : State) : Out :=
  s.vec (int3 i.g i.d i.a i.b i.c i.m.ty i.m.sat (isWide i.m.ty) fun a b c => a + b + c)
def execClamp (i : Op3 Ty) (s : State) : Out :=
  s.vec (int3 i.g i.d i.a i.b i.c i.m false (isWide i.m) fun a b c => min (max a b) c)

/-- The carry-in of a lane (R97); in the uniform form that of the lowest active lane, which computes. -/
def carryIn (x : Rd) (i : CarryI) (l : Nat) : Nat := if i.ci && lane (x.r.pget i.pc.val) l then 1 else 0

/-- addc and subb (R97): the sum or difference modulo 2^w, and the carry or borrow in p[C]. -/
def carryOp (i : CarryI) (f : Int → Int → Int → Int) (out : Int → Bool) : VecOp :=
  { g := i.g, d := some i.d, pd := some i.pc, win := winOf [(i.a, isWide i.ty), (i.b, isWide i.ty)],
    multi := (isWide i.ty), free := false
    f := fun x l =>
      let u := f (x.code i.a i.ty.width l : Nat) (x.code i.b i.ty.width l : Nat) (carryIn x i l : Nat)
      { LaneRes.ofTy i.ty (wrap u i.ty.width) with p := out u } }

def execAddc (i : CarryI) (s : State) : Out :=
  s.vec (carryOp i (fun a b c => a + b + c) fun u => decide ((2 ^ i.ty.width : Nat) ≤ u))
def execSubb (i : CarryI) (s : State) : Out := s.vec (carryOp i (fun a b c => a - b - c) fun u => decide (u < 0))

/-- A comparison (R103). -/
def compareInt (cc : Cmp) (a b : Int) : Bool :=
  match cc with
  | .eq => decide (a = b)
  | .ne => decide (a ≠ b)
  | .lt => decide (a < b)
  | .le => decide (a ≤ b)
  | .gt => decide (b < a)
  | .ge => decide (b ≤ a)

/-- The combination with a predicate bit (R103). -/
def combine (c : Comb) (r q : Bool) : Bool :=
  match c with
  | .none => r
  | .and => r && q
  | .or => r || q
  | .xor => r != q

def execSetp (i : SetpI) (s : State) : Out :=
  s.vec { g := i.g, d := none, pd := some i.pd, win := winOf [(i.a, isWide i.ty), (i.b, isWide i.ty)]
          multi := (isWide i.ty), free := false
          f := fun x l => .bit (combine i.comb (compareInt i.cc (x.int i.ty i.a l) (x.int i.ty i.b l))
            (lane (x.r.pget i.pc.val) l)) }

/-- sethi20 (R108): a scalar computed once. -/
def sethiOp (i : SethiI) (base : Int) : VecOp :=
  { g := i.g, d := some (.s i.sd), pd := none, win := none, multi := false, free := false
    f := fun _ _ => .dword (wrap (base + toSigned i.imm.toNat 20 * 2 ^ 12) 64) }

def execSethi20 (i : SethiI) (s : State) : Out := s.vec (sethiOp i 0)

/-- sethi20.pc (R108): P is the address of the instruction's first word. -/
def execSethi20Pc (i : SethiI) (s : State) : Out :=
  s.vec (sethiOp i (((s.issue.head?).map fun sl => sl.pc.toNat).getD 0 : Nat))

/-- lea (R109). -/
def execLea (i : Op3 LeaM) (s : State) : Out :=
  s.vec { g := i.g, d := some i.d, pd := none, win := winOf [(i.a, true), (i.b, false), (i.c, false)], multi := false
          free := false
          f := fun x l =>
            let idx : Int := if i.m.n32 then (x.word i.b l : Nat) else x.i32 i.b l
            .dword (wrap ((x.dword i.a l : Nat) + idx * 2 ^ i.m.sh.val + x.i32 i.c l) 64) }

/-- Element j of n bits of a word, unsigned when `u`. -/
def element (w n j : Nat) (u : Bool) : Int := if u then (bits w (n * j) n : Nat) else toSigned (bits w (n * j) n) n

/-- The narrow dot products (R110): an i32 accumulator and a sum formed exactly. -/
def dotOp (i : Op3 DotM) (f : Nat → Nat → Int) : VecOp :=
  { g := i.g, d := some i.d, pd := none, win := winOf [(i.a, false), (i.b, false), (i.c, false)], multi := false,
    free := false, f := fun x l => deliverInt .i32 i.m.sat (x.i32 i.c l + f (x.word i.a l) (x.word i.b l)) }

def execIdot4 (i : Op3 DotM) (s : State) : Out :=
  s.vec (dotOp i fun a b =>
    (List.range 4).foldl (fun acc j => acc + element a 8 j i.m.ua * element b 8 j i.m.ub) 0)
def execIdot2 (i : Op3 DotM) (s : State) : Out :=
  s.vec (dotOp i fun a b =>
    (List.range 2).foldl (fun acc j => acc + element a 16 j i.m.ua * element b 8 (2 * i.m.hi.toNat + j) i.m.ub) 0)
def execTacc (i : Op3 DotM) (s : State) : Out :=
  s.vec (dotOp i fun a b =>
    (List.range 4).foldl (fun acc j => acc + (element b 8 j false).sign * element a 8 j i.m.ua) 0)

end Sys2Proof.Machine
end

