-- ==== Sys2Proof/Machine/Transcend.lean ====
section
/-! DEFINITION. Correctly rounded quotients, roots and transcendental functions (R120). A quotient or a root is an integer
with a sticky bit; a transcendental value is enclosed ever more tightly until both ends round alike. -/

namespace Sys2Proof.Machine

/-- Round ±(M + s)·2^E where s is 0, or between 0 and 1 when `sticky`. -/
def Fmt.roundSticky (f : Fmt) (md : RM) (neg : Bool) (M : Nat) (E : Int) (sticky : Bool) : FRes :=
  let m : Int := ((2 * M + sticky.toNat : Nat) : Int)
  f.round md (if neg then -m else m) (E - 1)

/-- The integer square root, bit by bit from bit k. -/
def isqrtFrom (n : Nat) : Nat → Nat → Nat
  | 0, r => r
  | k + 1, r => isqrtFrom n k (if (r + 2 ^ k) * (r + 2 ^ k) ≤ n then r + 2 ^ k else r)

def isqrt (n : Nat) : Nat := isqrtFrom n (Nat.log2 n / 2 + 1) 0

/-- M·2^E / (N·2^G) rounded. -/
def Fmt.quotient (f : Fmt) (md : RM) (neg : Bool) (M : Nat) (E : Int) (N : Nat) (G : Int) : FRes :=
  let k := Nat.log2 N + 64
  f.roundSticky md neg (M * 2 ^ k / N) (E - G - k) (M * 2 ^ k % N != 0)

/-- √(M·2^E) rounded. -/
def Fmt.root (f : Fmt) (md : RM) (M : Nat) (E : Int) : FRes :=
  let M1 := if E % 2 = 0 then M else 2 * M
  let E1 := if E % 2 = 0 then E else E - 1
  let n := M1 * 2 ^ 128
  let r := isqrt n
  f.roundSticky md false r (E1 / 2 - 64) (r * r != n)

/-- 1/√(M·2^E) rounded. -/
def Fmt.invRoot (f : Fmt) (md : RM) (M : Nat) (E : Int) : FRes :=
  let M1 := if E % 2 = 0 then M else 2 * M
  let E1 := if E % 2 = 0 then E else E - 1
  let k := Nat.log2 M1 + 64
  let r := isqrt (2 ^ (2 * k) / M1)
  f.roundSticky md false r (-(E1 / 2) - k) (r * r * M1 != 2 ^ (2 * k))

/-! Fixed-point series: a number x stands for x / 2^w; each sum is off by fewer than 2^16 units. -/

/-- Σ of terms: the next term from the index and the last. -/
def series (n : Nat) (t0 : Int) (next : Nat → Int → Int) (out : Nat → Int → Int) : Int :=
  ((List.range n).foldl (fun (a : Int × Int) k => (next k a.1, a.2 + out k a.1)) (t0, 0)).2

/-- atanh z for |z| ≤ 1/3. -/
def atanhFix (w : Nat) (z : Int) : Int :=
  series (w / 3 + 4) z (fun _ t => t * z / 2 ^ w * z / 2 ^ w) fun k t => t / (2 * k + 1)

/-- ln 2. -/
def lnTwoFix (w : Nat) : Int := 2 * atanhFix w (2 ^ w / 3)

/-- arctan (1/n). -/
def atanInvFix (w n : Nat) : Int :=
  series (w / 4 + 4) (2 ^ w / n) (fun _ t => -t / (n * n)) fun k t => t / (2 * k + 1)

def piFix (w : Nat) : Int := 4 * (4 * atanInvFix w 5 - atanInvFix w 239)

/-- e^y for |y| < 1. -/
def expFix (w : Nat) (y : Int) : Int := series (w / 2 + 16) (2 ^ w) (fun k t => t * y / 2 ^ w / (k + 1)) fun _ t => t

/-- sin y and cos y for |y| < 1. -/
def sinFix (w : Nat) (y : Int) : Int :=
  series (w / 4 + 16) y (fun k t => -(t * y / 2 ^ w * y / 2 ^ w) / ((2 * k + 2) * (2 * k + 3))) fun _ t => t
def cosFix (w : Nat) (y : Int) : Int :=
  series (w / 4 + 16) (2 ^ w) (fun k t => -(t * y / 2 ^ w * y / 2 ^ w) / ((2 * k + 1) * (2 * k + 2))) fun _ t => t

/-- m·2^e as fixed point, rounded down. -/
def toFix (w : Nat) (m e : Int) : Int :=
  if 0 ≤ e + w then m * 2 ^ (e + w).toNat else m / 2 ^ (-(e + w)).toNat

/-- The working precisions, each tried when the last left the rounding open. -/
def precisions : List Nat := [96, 192, 448, 1024]

/-- Round an irrational magnitude: `approx w` encloses it within 2^16 units of its number. -/
def enclose (f : Fmt) (neg : Bool) (approx : Nat → Int × Int) : List Nat → FRes
  | [] => f.invalid
  | w :: t =>
    let (n, e) := approx w
    let s (x : Int) : Int := if neg then -x else x
    let a := f.round .rn (s (n - 2 ^ 16)) e
    let b := f.round .rn (s (n + 2 ^ 16)) e
    if 2 ^ 16 < n ∧ a = b then a else enclose f neg approx t

/-- 2^x for a finite non-zero x = m·2^e: an integer gives an exact power (R120). Exponents beyond ±2000 round as ±2000
does. -/
def Fmt.exp2 (f : Fmt) (m e : Int) : FRes :=
  let small := decide (topExp m.natAbs e < 11)
  if !small then f.round .rn 1 (if m < 0 then -2000 else 2000)
  else if 0 ≤ e then f.round .rn 1 (m * 2 ^ e.toNat)
  else
    let d : Int := 2 ^ (-e).toNat
    let n := m / d
    if m % d = 0 then f.round .rn 1 n
    else enclose f false (fun w =>
      (expFix w (toFix w (m % d) e * lnTwoFix w / 2 ^ w), n - w)) precisions

/-- log2 x for x = M·2^E > 0, x no power of two. -/
def Fmt.log2 (f : Fmt) (M : Nat) (E : Int) : FRes :=
  let k := Nat.log2 M
  let t : Int := k + E
  if M = 2 ^ k then (if t = 0 then ⟨0, 0⟩ else f.round .rn t 0)
  else
    let value (w : Nat) : Int :=
      let x := toFix w M (-(k : Int))
      t * 2 ^ w + 2 * atanhFix w ((x - 2 ^ w) * 2 ^ w / (x + 2 ^ w)) * 2 ^ w / lnTwoFix w
    let neg := decide (t < 0)
    enclose f neg (fun w => ((if neg then -value w else value w), -(w : Int))) precisions

/-- The octant reduction of |m|·2^e modulo 2 half-turns, e < 0: the quarter 0 to 3 in steps of half a half-turn and the
remainder over 2^(1 − e) parts. -/
def halfTurns (M : Nat) (k : Nat) : Nat × Nat := (M % 2 ^ (k + 1) * 2 / 2 ^ k, M * 2 % 2 ^ k)

/-- sin or cos of π·r/2^(k+1), 0 < r < 2^k: both arguments lie below half a half-turn, folded at a quarter. -/
def quarterFix (w : Nat) (sine : Bool) (r k : Nat) : Int :=
  let fold := decide (2 ^ k < 2 * r)
  let q := if fold then 2 ^ k - r else r
  let y := piFix w * toFix w q (-(k : Int) - 1) / 2 ^ w
  if sine != fold then sinFix w y else cosFix w y

/-- sin πx for a finite non-zero x = m·2^e (R120). -/
def Fmt.sinPi (f : Fmt) (m e : Int) : FRes :=
  let neg := decide (m < 0)
  if 0 ≤ e then ⟨f.signed neg 0, 0⟩
  else
    let k := (-e).toNat
    let (q, r) := halfTurns m.natAbs k
    if r = 0 then
      (if q % 2 = 0 then ⟨f.signed neg 0, 0⟩ else f.round .rn (if neg != (q == 3) then -1 else 1) 0)
    else enclose f (neg != decide (2 ≤ q)) (fun w => (quarterFix w (q % 2 == 0) r k, -(w : Int))) precisions

/-- cos πx for a finite non-zero x = m·2^e (R120). -/
def Fmt.cosPi (f : Fmt) (m e : Int) : FRes :=
  if 0 ≤ e then f.round .rn (if e = 0 ∧ m % 2 ≠ 0 then -1 else 1) 0
  else
    let k := (-e).toNat
    let (q, r) := halfTurns m.natAbs k
    if r = 0 then (if q % 2 = 1 then ⟨0, 0⟩ else f.round .rn (if q = 0 then 1 else -1) 0)
    else enclose f (q == 1 || q == 2) (fun w => (quarterFix w (q % 2 == 1) r k, -(w : Int))) precisions

/-- tanh x for a finite non-zero x = m·2^e (R120). Magnitudes of 64 and more round as 64 does. -/
def Fmt.tanh (f : Fmt) (m e : Int) : FRes :=
  let neg := decide (m < 0)
  let big := decide (6 ≤ topExp m.natAbs e)
  enclose f neg (fun w =>
    let y := 2 * (if big then 64 * 2 ^ w else toFix w m.natAbs e)
    let l := lnTwoFix w
    let k := y / l
    let x := expFix w (-(y - k * l)) / 2 ^ k.toNat
    ((2 ^ w - x) * 2 ^ w / (2 ^ w + x), -(w : Int))) precisions

end Sys2Proof.Machine
end

