-- ==== Sys2Proof/Machine/FloatArith.lean ====
section
/-! DEFINITION. Floating arithmetic of majors 0x40 to 0x56 (R111 to R120). -/

namespace Sys2Proof.Machine

/-- The format of one element (R111). -/
def fmtOf : FT → Fmt
  | .f32 => f32
  | .f16 | .f16x2 => f16
  | .bf16 | .bf16x2 => bf16

/-- The elements of an operand: one, or two of a packed pair (R69). -/
def Rd.elems (x : Rd) (t : FT) (a : Src) (l : Nat) : List Nat :=
  if t.lone then [x.flt (fmtOf t) a l] else [(x.pair (fmtOf t) a l).1, (x.pair (fmtOf t) a l).2]

/-- A result from its elements' results. -/
def ofElems : List FRes → LaneRes
  | [x] => .ofFRes x
  | [x, y] => .ofPair x y
  | _ => default

/-- One operand, each element alone. -/
def flo1 (i : Op1 FM) (multi : Bool) (f : Fmt → FV → FRes) : VecOp :=
  let t := fmtOf i.m.ft
  { g := i.g, d := some i.d, pd := none, win := winOf [(i.a, false)], multi := multi, free := false
    f := fun x l => ofElems ((x.elems i.m.ft i.a l).map fun a => f t (t.decode a)) }

/-- Two operands. -/
def flo2 (i : Op2 FM) (multi : Bool) (f : Fmt → Nat → Nat → FRes) : VecOp :=
  { g := i.g, d := some i.d, pd := none, win := winOf [(i.a, false), (i.b, false)], multi := multi, free := false
    f := fun x l => ofElems ((x.elems i.m.ft i.a l).zipWith (f (fmtOf i.m.ft)) (x.elems i.m.ft i.b l)) }

/-- Three operands. -/
def flo3 (i : Op3 FM) (f : Fmt → Nat → Nat → Nat → FRes) : VecOp :=
  { g := i.g, d := some i.d, pd := none, win := winOf [(i.a, false), (i.b, false), (i.c, false)], multi := false,
    free := false
    f := fun x l => ofElems (List.zipWith (fun (g : Nat → FRes) c => g c)
      ((x.elems i.m.ft i.a l).zipWith (f (fmtOf i.m.ft)) (x.elems i.m.ft i.b l)) (x.elems i.m.ft i.c l)) }

/-- The NaN of the inputs if there is one, else the value delivered (R74, R112). -/
def Fmt.orNan (f : Fmt) (l : List FV) (md : RM) (x : Option FV) : FRes := (f.nanResult l).getD (f.deliver? md x)

/-- A value negated when the modifier says so; a NaN keeps its sign (R112). -/
def negIf (b : Bool) (x : FV) : FV := if b then x.negate else x

def addF (md : RM) (neg : Bool) (f : Fmt) (a b : Nat) : FRes :=
  f.orNan [f.decode a, f.decode b] md (FV.add md (f.decode a) (negIf neg (f.decode b)))
def mulF (md : RM) (f : Fmt) (a b : Nat) : FRes :=
  f.orNan [f.decode a, f.decode b] md (FV.mul (f.decode a) (f.decode b))

/-- fma with its negations (R113): 0·∞ sets NV even beside a quiet NaN addend. -/
def fmaF (md : RM) (np nc : Bool) (f : Fmt) (a b c : Nat) : FRes :=
  let x := f.decode a
  let y := f.decode b
  let z := f.decode c
  let p := FV.mul x y
  match f.nanResult [x, y, z] with
  | some r => if !x.isNan && !y.isNan && p.isNone then { r with flags := r.flags ||| NV } else r
  | none => f.deliver? md (p.bind fun q => FV.add md (negIf np q) (negIf nc z))

def execFadd (i : Op2 FM) (s : State) : Out := s.vec (flo2 i false (addF i.m.rm false))
def execFsub (i : Op2 FM) (s : State) : Out := s.vec (flo2 i false (addF i.m.rm true))
def execFmul (i : Op2 FM) (s : State) : Out := s.vec (flo2 i false (mulF i.m.rm))
def execFma (i : Op3 FM) (s : State) : Out := s.vec (flo3 i (fmaF i.m.rm i.m.f5 i.m.f6))

/-- A NaN of one format as a result in another, with the flags of all inputs (R74, R114). -/
def nanInto (dst : Fmt) (l : List (Fmt × FV)) : Option FRes :=
  match l.find? fun x => x.2.isNan with
  | some (src, .nan s _ frac) => some ⟨nanConvert src dst s frac, if l.any fun x => x.2.snan then NV else 0⟩
  | _ => none

/-- fdot2 (R114). DESIGN CHOICE (log 42): with infinite products of opposite sign and a quiet NaN c no NV is set, and the
zero that zero products and a zero c of one sign make keeps that sign (the sum is taken pairwise under R72). -/
def dot2F (md : RM) (t : Fmt) (a b : Nat × Nat) (c : Nat) : FRes :=
  let a0 := t.decode a.1
  let a1 := t.decode a.2
  let b0 := t.decode b.1
  let b1 := t.decode b.2
  let z := f32.decode c
  let bad (x y : FV) : Bool := !x.isNan && !y.isNan && (FV.mul x y).isNone
  match nanInto f32 [(t, a0), (t, a1), (t, b0), (t, b1), (f32, z)] with
  | some r => if bad a0 b0 || bad a1 b1 then { r with flags := r.flags ||| NV } else r
  | none => f32.deliver? md ((FV.mul a0 b0).bind fun p => (FV.mul a1 b1).bind fun q =>
      (FV.add md p q).bind fun u => FV.add md u z)

def execFdot2 (i : Op3 FM) (s : State) : Out :=
  let t := fmtOf i.m.ft
  s.vec { g := i.g, d := some i.d, pd := none, win := winOf [(i.a, false), (i.b, false), (i.c, false)], multi := false
          free := false
          f := fun x l => .ofFRes (dot2F i.m.rm t (x.pair t i.a l) (x.pair t i.b l) (x.flt f32 i.c l)) }

/-- a·2^n (R113). An n beyond ±1000 rounds as ±1000 does in every format. -/
def scaleF (md : RM) (n : Int) (f : Fmt) (a : FV) : FRes :=
  f.orNan [a] md (match a with
    | .fin m e => some (.fin m (e + max (-1000) (min n 1000)))
    | x => some x)

def execFscale (i : Op2 FM) (s : State) : Out :=
  let t := fmtOf i.m.ft
  s.vec { g := i.g, d := some i.d, pd := none, win := winOf [(i.a, false), (i.b, false)], multi := false, free := false
          f := fun x l => ofElems ((x.elems i.m.ft i.a l).map fun a => scaleF i.m.rm (x.i32 i.b l) t (t.decode a)) }

/-- Minimum and maximum (R115). -/
def minmaxF (isMax num : Bool) (f : Fmt) (a b : Nat) : FRes :=
  let x := f.decode a
  let y := f.decode b
  let nv : Flags := if x.snan || y.snan then NV else 0
  if num && x.isNan && !y.isNan then ⟨b, nv⟩
  else if num && y.isNan && !x.isNan then ⟨a, nv⟩
  else match f.nanResult [x, y] with
    | some r => r
    | none => ⟨if isMax then (if x.below y then b else a) else (if y.below x then b else a), 0⟩

def execFmin (i : Op2 FM) (s : State) : Out := s.vec (flo2 i false (minmaxF false i.m.f5))
def execFmax (i : Op2 FM) (s : State) : Out := s.vec (flo2 i false (minmaxF true i.m.f5))

/-- fclamp is the composition (R115). -/
def execFclamp (i : Op3 FM) (s : State) : Out :=
  s.vec (flo3 i fun f a lo hi =>
    let x := minmaxF true i.m.f5 f a lo
    let y := minmaxF false i.m.f5 f x.code hi
    ⟨y.code, x.flags ||| y.flags⟩)

/-- A floating comparison (R116): the bit and NV. -/
def compareF (cc : FCmp) (a b : FV) : Bool × Flags :=
  let nan := a.isNan || b.isNan
  let sn := a.snan || b.snan
  let o := a.cmp b
  let r (ordered : Bool) (t : Bool) : Bool := if nan then !ordered else t
  let fl (signal : Bool) : Flags := if sn || (nan && signal) then NV else 0
  match cc with
  | .eq => (r true (o == .eq), fl false)
  | .ne => (r true (o != .eq), fl false)
  | .lt => (r true (o == .lt), fl true)
  | .le => (r true (o != .gt), fl true)
  | .gt => (r true (o == .gt), fl true)
  | .ge => (r true (o != .lt), fl true)
  | .num => (!nan, fl false)
  | .nan => (nan, fl false)
  | .equ => (r false (o == .eq), fl false)
  | .neu => (r false (o != .eq), fl false)
  | .ltu => (r false (o == .lt), fl false)
  | .leu => (r false (o != .gt), fl false)
  | .gtu => (r false (o == .gt), fl false)
  | .geu => (r false (o != .lt), fl false)

def execFsetp (i : FsetpI) (s : State) : Out :=
  let t := fmtOf i.ft
  s.vec { g := i.g, d := none, pd := some i.pd, win := winOf [(i.a, false), (i.b, false)], multi := false, free := false
          f := fun x l =>
            let (r, fl) := compareF i.cc (t.decode (x.flt t i.a l)) (t.decode (x.flt t i.b l))
            ⟨[], 0, combine i.comb r (lane (x.r.pget i.pc.val) l), fl⟩ }

/-- The class of a value (R117). -/
def classOf (f : Fmt) (x : FV) : Nat :=
  match x with
  | .nan _ q _ => if q then 1 else 0
  | .inf s => if s then 2 else 9
  | .zero s => if s then 5 else 6
  | .fin m e =>
    let sub := decide (topExp m.natAbs e < f.emin)
    if m < 0 then (if sub then 4 else 3) else (if sub then 7 else 8)

def execFclass (i : FclassI) (s : State) : Out :=
  let t := fmtOf i.ft
  s.vec { g := i.g, d := none, pd := some i.pd, win := winOf [(i.a, false), (i.mask, false)], multi := false
          free := false
          f := fun x l => .bit (bits (x.word i.mask l) (classOf t (t.decode (x.flt t i.a l))) 1 == 1) }

/-- Rounding to an integral value (R118). -/
def rndF (md : RM) (exact : Bool) (f : Fmt) (a : FV) : FRes :=
  match a with
  | .fin m e =>
    let neg := decide (m < 0)
    let (n, inexact) := roundAt md neg m.natAbs e 0
    let fl : Flags := if exact && inexact then NX else 0
    if n = 0 then ⟨f.signed neg 0, fl⟩ else ⟨(f.round .rn (if neg then -(n : Int) else n) 0).code, fl⟩
  | x => f.orNan [x] md (some x)

def execFrnd (i : Op1 FM) (s : State) : Out := s.vec (flo1 i false (rndF i.m.rm i.m.f5))

/-- fexpo (R119): an i32 word. -/
def expoF (_f : Fmt) (a : FV) : FRes :=
  match a with
  | .fin m e => ⟨wrap (topExp m.natAbs e) 32, 0⟩
  | .inf _ => ⟨0x7FFFFFFF, NV⟩
  | _ => ⟨0x80000000, NV⟩

/-- fmant (R119). -/
def mantF (f : Fmt) (a : FV) : FRes :=
  f.orNan [a] .rn (match a with
    | .fin m e => some (.fin m (e - topExp m.natAbs e))
    | x => some x)

def execFexpo (i : Op1 FM) (s : State) : Out := s.vec (flo1 i false expoF)
def execFmant (i : Op1 FM) (s : State) : Out := s.vec (flo1 i false mantF)

/-- Division (R120). -/
def divF (md : RM) (f : Fmt) (a b : FV) : FRes :=
  match f.nanResult [a, b] with
  | some r => r
  | none =>
    let neg := a.neg? != b.neg?
    match a, b with
    | .inf _, .inf _ | .zero _, .zero _ => f.invalid
    | .inf _, _ => ⟨f.signed neg f.infCode, 0⟩
    | _, .inf _ => ⟨f.signed neg 0, 0⟩
    | .zero _, _ => ⟨f.signed neg 0, 0⟩
    | _, .zero _ => ⟨f.signed neg f.infCode, DZ⟩
    | .fin m e, .fin n g => f.quotient md neg m.natAbs e n.natAbs g
    | _, _ => f.invalid

/-- Functions of one operand, by what they do with a positive or negative finite value and with the special operands
(R120). -/
def fun1 (f : Fmt) (a : FV) (zero : Bool → FRes) (inf : Bool → FRes) (fin : Int → Int → FRes) : FRes :=
  match f.nanResult [a] with
  | some r => r
  | none => match a with
    | .zero s => zero s
    | .inf s => inf s
    | .fin m e => fin m e
    | _ => f.invalid

def sqrtF (md : RM) (f : Fmt) (a : FV) : FRes :=
  fun1 f a (fun s => ⟨f.signed s 0, 0⟩) (fun s => if s then f.invalid else ⟨f.infCode, 0⟩)
    (fun m e => if m < 0 then f.invalid else f.root md m.natAbs e)
def rsqF (f : Fmt) (a : FV) : FRes :=
  fun1 f a (fun s => ⟨f.signed s f.infCode, DZ⟩) (fun s => if s then f.invalid else ⟨0, 0⟩)
    (fun m e => if m < 0 then f.invalid else f.invRoot .rn m.natAbs e)
def ex2F (f : Fmt) (a : FV) : FRes :=
  fun1 f a (fun _ => f.round .rn 1 0) (fun s => if s then ⟨0, 0⟩ else ⟨f.infCode, 0⟩) f.exp2
def lg2F (f : Fmt) (a : FV) : FRes :=
  fun1 f a (fun _ => ⟨f.signed true f.infCode, DZ⟩) (fun s => if s then f.invalid else ⟨f.infCode, 0⟩)
    (fun m e => if m < 0 then f.invalid else f.log2 m.natAbs e)
def sinF (f : Fmt) (a : FV) : FRes := fun1 f a (fun s => ⟨f.signed s 0, 0⟩) (fun _ => f.invalid) f.sinPi
def cosF (f : Fmt) (a : FV) : FRes := fun1 f a (fun _ => f.round .rn 1 0) (fun _ => f.invalid) f.cosPi
def tanhF (f : Fmt) (a : FV) : FRes :=
  fun1 f a (fun s => ⟨f.signed s 0, 0⟩) (fun s => f.round .rn (if s then -1 else 1) 0) f.tanh

def execFdiv (i : Op2 FM) (s : State) : Out :=
  s.vec (flo2 i true fun f a b => divF i.m.rm f (f.decode a) (f.decode b))
def execFsqrt (i : Op1 FM) (s : State) : Out := s.vec (flo1 i true (sqrtF i.m.rm))
def execFrcp (i : Op1 FM) (s : State) : Out := s.vec (flo1 i true fun f a => divF i.m.rm f (.fin 1 0) a)
def execFrsq (i : Op1 FM) (s : State) : Out := s.vec (flo1 i true rsqF)
def execFex2 (i : Op1 FM) (s : State) : Out := s.vec (flo1 i true ex2F)
def execFlg2 (i : Op1 FM) (s : State) : Out := s.vec (flo1 i true lg2F)
def execFsin (i : Op1 FM) (s : State) : Out := s.vec (flo1 i true sinF)
def execFcos (i : Op1 FM) (s : State) : Out := s.vec (flo1 i true cosF)
def execFtanh (i : Op1 FM) (s : State) : Out := s.vec (flo1 i true tanhF)

end Sys2Proof.Machine
end

