-- ==== Sys2Proof/Machine/ExactOps.lean ====
section
/-! DEFINITION. Error-free transforms and expansions (R121 to R132). -/

namespace Sys2Proof.Machine

def fmtX : XT → Fmt
  | .f32 => f32
  | .f16 => f16
  | .bf16 => bf16

/-- The exact difference of a value and a delivered code; an exact zero is +0 (R124). -/
def Fmt.residual (f : Fmt) (v : FV) (code : Nat) : FV := (FV.add .rn v (f.decode code).negate).getD (.zero false)

/-- An error term: RN of its exact value, with UF and NX where that is inexact (R124). -/
def Fmt.errorTerm (f : Fmt) (v : FV) : FRes :=
  let r := f.deliver .rn v
  ⟨r.code, if r.flags = 0 then 0 else UF ||| NX⟩

/-- Error terms of a transform: n of them behind the leading result `lead` of the exact value `v` (R124, R125). -/
def Fmt.errors (f : Fmt) (lead : Nat) (v : Option FV) : Nat → List FRes
  | 0 => []
  | n + 1 =>
    match v, (f.decode lead).isFinite with
    | some x, true =>
      let e := f.residual x lead
      let r := if n = 0 then f.errorTerm e else ⟨(f.deliver .rn e).code, 0⟩
      r :: f.errors r.code (some e) n
    | _, _ => List.replicate (n + 1) ⟨f.signed (f.decode lead).neg? f.nanCode, 0⟩

/-- A transform's words and flags: the leading result and n error terms. -/
def transform (f : Fmt) (lead : FRes) (v : Option FV) (n : Nat) : LaneRes :=
  let e := f.errors lead.code v n
  .words (lead.code :: e.map FRes.code) (e.foldl (fun a x => a ||| x.flags) lead.flags)

/-- fadd.e, fmul.e (R123). -/
def transform2 (i : Op2 XT) (lead : Fmt → Nat → Nat → FRes) (v : FV → FV → Option FV) : VecOp :=
  let f := fmtX i.m
  { g := i.g, d := some i.d, pd := none, win := winOf [(i.a, false), (i.b, false)], multi := false, free := false
    f := fun x l =>
      let a := x.flt f i.a l
      let b := x.flt f i.b l
      transform f (lead f a b) (v (f.decode a) (f.decode b)) 1 }

def execFaddE (i : Op2 XT) (s : State) : Out := s.vec (transform2 i (addF .rn false) (FV.add .rn))
def execFmulE (i : Op2 XT) (s : State) : Out := s.vec (transform2 i (mulF .rn) FV.mul)
def execFmaE (i : Op3 XT) (s : State) : Out :=
  let f := fmtX i.m
  s.vec { g := i.g, d := some i.d, pd := none, win := winOf [(i.a, false), (i.b, false), (i.c, false)], multi := true
          free := false
          f := fun x l =>
            let a := x.flt f i.a l
            let b := x.flt f i.b l
            let c := x.flt f i.c l
            transform f (fmaF .rn false false f a b c)
              ((FV.mul (f.decode a) (f.decode b)).bind fun p => FV.add .rn p (f.decode c)) 2 }

/-! ### Expansions -/

/-- An expansion's value and the flags of reading it (R127). -/
structure ExpV where
  v : FV
  flags : Flags
  deriving DecidableEq, Repr, Inhabited

/-- Read components in order (R85, R127); an exact zero takes the sign of R72 in mode `md`. DESIGN CHOICE (log 43): a NaN
component behind a finite leading one gives that NaN without NV, also where infinities of both signs stand before it. -/
def readExp (f : Fmt) (md : RM) (cs : List FV) : ExpV :=
  match cs with
  | [] => ⟨.zero false, 0⟩
  | c0 :: rest =>
    if !c0.isFinite then ⟨c0, if c0.snan then NV else 0⟩
    else
      let sn : Flags := if cs.any FV.snan then NV else 0
      match cs.find? FV.isNan with
      | some x => ⟨x, sn⟩
      | none => match rest.foldl (fun acc y => acc.bind fun z => FV.add md z y) (some c0) with
        | some x => ⟨x, 0⟩
        | none => ⟨f.decode f.nanCode, NV⟩

/-- A component's code: every zero component after c0 is +0 (R126). -/
def Fmt.component (f : Fmt) (first : Bool) (code : Nat) : Nat :=
  if !first && code % 2 ^ (f.width - 1) == 0 then 0 else code

/-- The greedy decomposition (R126): one mode per component; W is what is still to be delivered. `small` says that some
component was rounded from a magnitude below the smallest normal. -/
def greedy (f : Fmt) (first small : Bool) (w : FV) : List RM → List Nat × Flags
  | [] => ([], match w with
    | .fin _ _ => NX ||| (if small then UF else 0)
    | _ => 0)
  | md :: rest =>
    match w with
    | .fin m e =>
      let r := f.round md m e
      if r.flags &&& OF ≠ 0 then (r.code :: rest.map fun _ => 0, OF ||| NX)
      else
        let (l, fl) := greedy f false (small || decide (topExp m.natAbs e < f.emin)) (f.residual w r.code) rest
        (f.component first r.code :: l, fl)
    | .zero s => ((if first then f.signed s 0 else 0) :: rest.map fun _ => 0, 0)
    | .inf s => (f.signed s f.infCode :: rest.map fun _ => 0, 0)
    | .nan s _ frac => (f.nanOf s frac :: rest.map fun _ => 0, 0)

/-- An expansion delivered from a value, or the canonical NaN of an invalid operation (R126, R127). -/
def deliverExp (f : Fmt) (modes : List RM) (fl : Flags) (v : Option FV) : LaneRes :=
  match v with
  | none => .words (f.nanCode :: modes.tail.map fun _ => 0) (fl ||| NV)
  | some x =>
    let (l, g) := greedy f true false x modes
    .words l (fl ||| g)

/-- The components of a register expansion in a lane. -/
def Rd.comps (x : Rd) (f : Fmt) (r : Fin 256) (n l : Nat) : List FV :=
  (List.range n).map fun k => f.decode ((x.r.vget (r.val + k) l).toNat % 2 ^ f.width)

/-- The length that an N code stands for (R128). -/
def lenOf (n : Fin 4) : Nat := n.val + 1

/-- RN for each of n components. -/
def rns (n : Nat) : List RM := List.replicate n .rn

/-- The result of an operation on two values (R127): the first NaN, else what `f` gives. DESIGN CHOICE (log 43): the
canonical NaN that A reads as from opposite infinities goes before a NaN component of B. -/
def expResult (a b : ExpV) (f : FV → FV → Option FV) : Option FV :=
  if a.v.isNan then some a.v else if b.v.isNan then some b.v else f a.v b.v

def execXren (i : XrenI) (s : State) : Out :=
  let f := fmtX i.t
  s.vec { g := i.g, d := some (.v i.d), pd := none, win := none, multi := true, free := false
          f := fun x l =>
            let a := readExp f .rn (x.comps f i.a (lenOf i.na) l)
            deliverExp f (rns (lenOf i.na)) a.flags (some a.v) }

def execXcmpr (i : XcmprI) (s : State) : Out :=
  let f := fmtX i.t
  s.vec { g := i.g, d := some (.v i.d), pd := none, win := none, multi := true, free := false
          f := fun x l =>
            let a := readExp f (if i.nd = 0 then i.rm else .rn) (x.comps f i.a (lenOf i.na) l)
            deliverExp f (rns i.nd.val ++ [i.rm]) a.flags (some a.v) }

def execXadd (i : XaddI) (s : State) : Out :=
  let f := fmtX i.t
  s.vec { g := i.g, d := some (.v i.d), pd := none, win := winOf [(i.b, false)], multi := true, free := false
          f := fun x l =>
            let a := readExp f .rn (x.comps f i.a (lenOf i.na) l)
            let b := match i.nb.val, i.b with
              | n + 1, .v r => readExp f .rn (x.comps f r (n + 2) l)
              | _, c => readExp f .rn [f.decode (x.flt f c l)]
            deliverExp f (rns (lenOf i.na)) (a.flags ||| b.flags) (expResult a b (FV.add .rn)) }

def execXmulW (i : XmulI) (s : State) : Out :=
  let f := fmtX i.t
  s.vec { g := i.g, d := some (.v i.d), pd := none, win := winOf [(i.b, false)], multi := true, free := false
          f := fun x l =>
            let a := readExp f .rn (x.comps f i.a (lenOf i.na) l)
            let b := readExp f .rn [f.decode (x.flt f i.b l)]
            deliverExp f (rns (lenOf i.na)) (a.flags ||| b.flags) (expResult a b FV.mul) }

/-- The comparison of two expansion values (R131). -/
def compareExp (cc : Cmp) (a b : ExpV) : Bool × Flags :=
  let nan := a.v.isNan || b.v.isNan
  let o := a.v.cmp b.v
  let fl := a.flags ||| b.flags
  let sig : Flags := if nan then NV else 0
  match cc with
  | .eq => (!nan && o == .eq, fl)
  | .ne => (nan || o != .eq, fl)
  | .lt => (!nan && o == .lt, fl ||| sig)
  | .le => (!nan && o != .gt, fl ||| sig)
  | .gt => (!nan && o == .gt, fl ||| sig)
  | .ge => (!nan && o != .lt, fl ||| sig)

def execXcmp (i : XcmpI) (s : State) : Out :=
  let f := fmtX i.t
  s.vec { g := i.g, d := none, pd := some i.pd, win := none, multi := true, free := false
          f := fun x l =>
            let (r, fl) := compareExp i.cc (readExp f .rn (x.comps f i.a (lenOf i.na) l))
              (readExp f .rn (x.comps f i.b (lenOf i.na) l))
            ⟨[], 0, r, fl⟩ }

/-- FP64 to x2.f32 (R132). -/
def toX2 (code : Nat) : LaneRes :=
  match f64.decode code with
  | .nan s q frac => .words [nanConvert f64 f32 s frac, 0] (if q then 0 else NV)
  | x => deliverExp f32 (rns 2) 0 (some x)

/-- The sum of an x2.f32 in FP64 (R132). -/
def fromX2 (md : RM) (cs : List FV) : LaneRes :=
  let a := readExp f32 md cs
  match a.v with
  | .nan s _ frac => { LaneRes.dword (nanConvert f32 f64 s frac) with flags := a.flags }
  | x =>
    let r := f64.deliver md x
    { LaneRes.dword r.code with flags := a.flags ||| r.flags }

def execCvtX2 (i : CvtX2I) (s : State) : Out :=
  match i with
  | .toX2 g d a => s.vec { g := g, d := some (.v d), pd := none, win := winOf [(a, true)], multi := true, free := false
                           f := fun x l => toX2 (x.dword a l) }
  | .toF64 g d a md => s.vec { g := g, d := some (.v d), pd := none, win := none, multi := true, free := false
                               f := fun x l => fromX2 md (x.comps f32 a 2 l) }

end Sys2Proof.Machine
end

