-- ==== Sys2Proof/Machine/Logic.lean ====
section
/-! DEFINITION. Bitwise functions, shifts, bit fields, bit counts, byte permutation, predicates and moves (R98 to R102,
R104 to R107). -/

namespace Sys2Proof.Machine

/-- One operand as a code of the type's width. -/
def code1 (i : Op1 Ty) (f : Nat → Nat) : VecOp :=
  { g := i.g, d := some i.d, pd := none, win := winOf [(i.a, isWide i.m)], multi := (isWide i.m), free := false
    f := fun x l => .ofTy i.m (f (x.code i.a i.m.width l) % 2 ^ i.m.width) }

/-- Two operands as codes. -/
def code2 (i : Op2 Ty) (f : Nat → Nat → Nat) : VecOp :=
  { g := i.g, d := some i.d, pd := none, win := winOf [(i.a, isWide i.m), (i.b, isWide i.m)], multi := (isWide i.m),
    free := false, f := fun x l => .ofTy i.m (f (x.code i.a i.m.width l) (x.code i.b i.m.width l) % 2 ^ i.m.width) }

/-- A data operand and a 32-bit control operand (R89). -/
def ctl2 (i : Op2 Ty) (f : Nat → Nat → Nat) : VecOp :=
  { g := i.g, d := some i.d, pd := none, win := winOf [(i.a, isWide i.m), (i.b, false)], multi := (isWide i.m),
    free := false, f := fun x l => .ofTy i.m (f (x.code i.a i.m.width l) (x.word i.b l) % 2 ^ i.m.width) }

/-- All ones of a width. -/
def ones (w : Nat) : Nat := 2 ^ w - 1

def execAnd (i : Op2 Ty) (s : State) : Out := s.vec (code2 i fun a b => a &&& b)
def execOr (i : Op2 Ty) (s : State) : Out := s.vec (code2 i fun a b => a ||| b)
def execXor (i : Op2 Ty) (s : State) : Out := s.vec (code2 i fun a b => a ^^^ b)
def execNot (i : Op1 Ty) (s : State) : Out := s.vec (code1 i fun a => ones i.m.width - a)
def execAndn (i : Op2 Ty) (s : State) : Out := s.vec (code2 i fun a b => a &&& (ones i.m.width - b))

/-- The bit function of three words (R98): the OR over the truth table's set entries. -/
def bitFn (lut w a b c : Nat) : Nat :=
  (List.range 8).foldl (fun acc k =>
    if bits lut k 1 = 1 then
      acc ||| ((if bits k 0 1 = 1 then a else ones w - a) &&& (if bits k 1 1 = 1 then b else ones w - b) &&&
        (if bits k 2 1 = 1 then c else ones w - c))
    else acc) 0

/-- bfn (R98): 32 bits in the vector form, 64 in the uniform form. -/
def execBfn (i : Op3 (BitVec 8)) (s : State) : Out :=
  let w := match i.d with
    | .s _ => 64
    | _ => 32
  s.vec { g := i.g, d := some i.d, pd := none, win := winOf [(i.a, w == 64), (i.b, w == 64), (i.c, w == 64)]
          multi := false, free := false
          f := fun x l =>
            let r := bitFn i.m.toNat w (x.code i.a w l) (x.code i.b w l) (x.code i.c w l)
            if w = 64 then .dword r else .word r }

/-- A logical or an arithmetic shift to the right (R99). -/
def shiftRight (arith : Bool) (w a n : Nat) : Nat := if arith then wrap (toSigned a w / 2 ^ min n w) w else a / 2 ^ min n w

def execShl (i : Op2 Ty) (s : State) : Out := s.vec (ctl2 i fun a n => if i.m.width ≤ n then 0 else a * 2 ^ n)
def execShr (i : Op2 Ty) (s : State) : Out := s.vec (ctl2 i fun a n => shiftRight false i.m.width a n)
def execShrA (i : Op2 Ty) (s : State) : Out := s.vec (ctl2 i fun a n => shiftRight true i.m.width a n)

/-- Rotation to the left (R99). -/
def rotl (w a n : Nat) : Nat := a * 2 ^ (n % w) % 2 ^ w + a / 2 ^ (w - n % w)

def execRot (i : Op2 Ty) (s : State) : Out := s.vec (ctl2 i fun a n => rotl i.m.width a n)

/-- shf (R99): a half of the double word {b, a} shifted. -/
def funnel (left : Bool) (w a b n : Nat) : Nat :=
  let x := b * 2 ^ w + a
  if left then x * 2 ^ (n % w) / 2 ^ w % 2 ^ w else x / 2 ^ (n % w) % 2 ^ w

def execShf (i : Op3 ShfM) (s : State) : Out :=
  let w := i.m.ty.width
  s.vec { g := i.g, d := some i.d, pd := none
          win := winOf [(i.a, isWide i.m.ty), (i.b, isWide i.m.ty), (i.c, false)], multi := (isWide i.m.ty), free := false
          f := fun x l => .ofTy i.m.ty (funnel i.m.l w (x.code i.a w l) (x.code i.b w l) (x.word i.c l)) }

/-- bfx (R100). -/
def fieldOut (t : Ty) (a ctl : Nat) : Nat :=
  let s := bits ctl 0 8
  let n := min (bits ctl 8 8) t.width
  let v : Int := if t.signed then toSigned a t.width else (a : Nat)
  let f := wrap (v / 2 ^ s) n
  if n = 0 then 0 else if t.signed then wrap (toSigned f n) t.width else f

/-- bfi (R100). -/
def fieldIn (w a b ctl : Nat) : Nat :=
  let s := bits ctl 0 8
  let n := min (bits ctl 8 8) w
  let m := (ones n * 2 ^ s) % 2 ^ w
  (b &&& (ones w - m)) ||| ((a * 2 ^ s) &&& m)

def execBfx (i : Op2 Ty) (s : State) : Out := s.vec (ctl2 i fun a c => fieldOut i.m a c)

def execBfi (i : Op3 Ty) (s : State) : Out :=
  let w := i.m.width
  s.vec { g := i.g, d := some i.d, pd := none, win := winOf [(i.a, isWide i.m), (i.b, isWide i.m), (i.c, false)]
          multi := (isWide i.m), free := false
          f := fun x l => .ofTy i.m (fieldIn w (x.code i.a w l) (x.code i.b w l) (x.word i.c l)) }

def popCount (w a : Nat) : Nat := (List.range w).foldl (fun n k => n + bits a k 1) 0
def leadingZeros (w a : Nat) : Nat := if a = 0 then w else w - 1 - Nat.log2 a
def trailingZeros (w a : Nat) : Nat := ((List.range w).find? fun k => bits a k 1 == 1).getD w
def reverseBits (w a : Nat) : Nat := (List.range w).foldl (fun n k => n * 2 + bits a k 1) 0

/-- A count: one 32-bit word whatever the width (R101). -/
def countOp (i : Op1 Ty) (f : Nat → Nat → Nat) : VecOp :=
  { g := i.g, d := some i.d, pd := none, win := winOf [(i.a, isWide i.m)], multi := (isWide i.m), free := false
    f := fun x l => .word (f i.m.width (x.code i.a i.m.width l)) }

def execPopc (i : Op1 Ty) (s : State) : Out := s.vec (countOp i popCount)
def execClz (i : Op1 Ty) (s : State) : Out := s.vec (countOp i leadingZeros)
def execCtz (i : Op1 Ty) (s : State) : Out := s.vec (countOp i trailingZeros)
def execBrev (i : Op1 Ty) (s : State) : Out := s.vec (code1 i fun a => reverseBits i.m.width a)

/-- One byte of bsel (R102). -/
def bselByte (x f : Nat) : Nat :=
  let y := bits x (8 * bits f 0 3) 8
  match bits f 3 2 with
  | 0 => y
  | 1 => 0
  | 2 => if bits y 7 1 = 1 then 255 else 0
  | _ => 255

def bytePermute (a b sel : Nat) : Nat :=
  (List.range 4).foldl (fun acc j => acc + 2 ^ (8 * j) * bselByte (a + 2 ^ 32 * b) (bits sel (8 * j) 8)) 0

def execBsel (i : Op3 Unit) (s : State) : Out :=
  s.vec { g := i.g, d := some i.d, pd := none, win := winOf [(i.a, false), (i.b, false), (i.c, false)], multi := false
          free := false
          f := fun x l => .ofTy .i32 (bytePermute (x.word i.a l) (x.word i.b l) (x.word i.c l)) }

/-- sel (R104): in the uniform form the lowest active lane's bit. -/
def execSel (i : SelI) (s : State) : Out :=
  s.vec { g := i.g, d := some i.d, pd := none, win := winOf [(i.a, isWide i.ty), (i.b, isWide i.ty)]
          multi := (isWide i.ty), free := false
          f := fun x l => .ofTy i.ty (if lane (x.r.pget i.pc.val) l then x.code i.a i.ty.width l
            else x.code i.b i.ty.width l) }

/-- pfn (R105). -/
def execPfn (i : PfnI) (s : State) : Out :=
  s.vec { g := i.g, d := none, pd := some i.pd, win := none, multi := false, free := false
          f := fun x l =>
            let q (k : Fin 8) : Nat := (lane (x.r.pget k.val) l).toNat
            .bit (bits i.lut.toNat (q i.pa + 2 * q i.pb + 4 * q i.pc) 1 == 1) }

/-- mov (R106). -/
def execMov (i : Op1 Ty) (s : State) : Out := s.vec (code1 i fun a => a)

/-- movp (R107): the mask in every active lane. -/
def execMovp (i : MovpI) (s : State) : Out :=
  s.vec { g := i.g, d := some i.d, pd := none, win := none, multi := false, free := false
          f := fun x _ => .word (x.r.pget i.pa.val).toNat }

/-- movp.to (R107): bit l of the word that lane l reads. -/
def execMovpTo (i : MovpToI) (s : State) : Out :=
  s.vec { g := i.g, d := none, pd := some i.pd, win := winOf [(i.a, false)], multi := false, free := false
          f := fun x l => .bit (bits (x.word i.a l) l 1 == 1) }

end Sys2Proof.Machine
end

