-- ==== Sys2Proof/Machine/Convert.lean ====
section
/-! DEFINITION. Conversions (R133 to R142) and the narrow formats (R76 to R83). -/

namespace Sys2Proof.Machine

/-- The integer type or the format of a cvt code (R133). -/
def ctTy : CT → Option Ty
  | .i32 => some .i32
  | .n32 => some .n32
  | .i64 => some .i64
  | .n64 => some .n64
  | .i16 => some .i16
  | .n16 => some .n16
  | .i8 => some .i8
  | .n8 => some .n8
  | _ => none
def ctFmt : CT → Fmt
  | .f16 => f16
  | .bf16 => bf16
  | .f64 => f64
  | _ => f32

/-- A floating code of a cvt type, one word or a pair. -/
def ofFmt (wide : Bool) (r : FRes) : LaneRes :=
  if wide then { LaneRes.dword r.code with flags := r.flags } else .ofFRes r

/-- A floating value in an integer type (R134). -/
def toInt (t : Ty) (md : RM) (v : FV) : LaneRes :=
  let out (x : Int) (fl : Flags) : LaneRes := { LaneRes.ofTy t (wrap x t.width) with flags := fl }
  match v with
  | .nan _ _ _ => out 0 NV
  | .inf s => out (if s then Ty.lo t else Ty.hi t) NV
  | .zero _ => out 0 0
  | .fin m e =>
    if 200 < topExp m.natAbs e then out (if m < 0 then Ty.lo t else Ty.hi t) NV
    else
      let (n, inexact) := roundAt md (decide (m < 0)) m.natAbs e 0
      let x : Int := if m < 0 then -(n : Int) else n
      if x < Ty.lo t then out (Ty.lo t) NV
      else if Ty.hi t < x then out (Ty.hi t) NV
      else out x (if inexact then NX else 0)

/-- A value of one format in another (R134). -/
def reformat (src dst : Fmt) (md : RM) (v : FV) : FRes :=
  match v with
  | .nan s q frac => ⟨nanConvert src dst s frac, if q then 0 else NV⟩
  | x => dst.deliver md x

def execCvt (i : Op1 CvtM) (s : State) : Out :=
  let wide := i.m.st.is64
  s.vec { g := i.g, d := some i.d, pd := none, win := winOf [(i.a, wide)], multi := wide || i.m.dt.is64, free := false
          f := fun x l =>
            match ctTy i.m.st, ctTy i.m.dt with
            | some t, some u => deliverInt u i.m.sat (x.int t i.a l)
            | some t, none =>
              let n := x.int t i.a l
              ofFmt i.m.dt.is64 (if n = 0 then ⟨0, 0⟩ else (ctFmt i.m.dt).round i.m.rm n 0)
            | none, some u =>
              let f := ctFmt i.m.st
              toInt u i.m.rm (f.decode (if wide then x.dword i.a l else x.flt f i.a l))
            | none, none =>
              let f := ctFmt i.m.st
              ofFmt i.m.dt.is64
                (reformat f (ctFmt i.m.dt) i.m.rm (f.decode (if wide then x.dword i.a l else x.flt f i.a l))) }

/-! ### The 8-bit formats -/

def narrow8 (e5 : Bool) : Fmt := if e5 then e5m2 else e4m3

/-- A conversion to an 8-bit format (R77). -/
def to8 (e5 : Bool) (md : RM) (ovf : Bool) (v : FV) : FRes :=
  let f := narrow8 e5
  match v with
  | .nan s q _ => ⟨f.signed s (if e5 then 0x7E else 0x7F), if q then 0 else NV⟩
  | .inf s => if ovf then ⟨f.signed s f.infCode, if e5 then 0 else NV⟩ else ⟨f.signed s f.maxCode, OF ||| NX⟩
  | x =>
    let r := f.deliver md x
    if r.flags &&& OF ≠ 0 && !ovf then ⟨f.signed x.neg? f.maxCode, r.flags⟩ else r

/-- The word of the destination before the instruction; with b0 its kept bits are free (log 11). -/
def Rd.kept (x : Rd) (d : Dst) (l : Nat) : Nat :=
  match d with
  | .v k => (x.r.vget k.val l).toNat
  | _ => (Config.nwKept x.seq l).toNat

def isB0 : Dst → Bool
  | .b0 => true
  | _ => false

/-- Two bytes placed at byte 2·HI of a word. -/
def placeBytes (old lo hi : Nat) (top : Bool) : Nat :=
  if top then old % 2 ^ 16 + 2 ^ 16 * lo + 2 ^ 24 * hi else old / 2 ^ 16 * 2 ^ 16 + lo + 2 ^ 8 * hi

def bytesRes (x : Rd) (d : Dst) (l : Nat) (a b : FRes) (top : Bool) : LaneRes :=
  { LaneRes.word (placeBytes (x.kept d l) a.code b.code top) with flags := a.flags ||| b.flags }

def execCvtN (i : CvtNI) (s : State) : Out :=
  let f := fmtX i.wf
  match i.dir with
  | .narrow b md ovf hi =>
    s.vec { g := i.g, d := some i.d, pd := none, win := winOf [(i.a, false), (b, false)], multi := false
            free := isB0 i.d
            f := fun x l => bytesRes x i.d l (to8 i.e5m2 md ovf (f.decode (x.flt f i.a l)))
              (to8 i.e5m2 md ovf (f.decode (x.flt f b l))) hi }
  | .widen k =>
    let n := narrow8 i.e5m2
    s.vec { g := i.g, d := some i.d, pd := none, win := winOf [(i.a, false)], multi := false, free := false
            f := fun x l => .ofFRes (reformat n f .rn (n.decode (bits (x.word i.a l) (8 * k.val) 8))) }

/-- Stochastic rounding of a finite value (R136): the code with unbounded exponents settled as the format's own, the
magnitude beyond the largest finite, and the flags NX and UF. -/
def stochastic (f : Fmt) (m e : Int) (z : Nat) : Nat × Flags :=
  let M := m.natAbs
  let t := topExp M e
  let q := max (t - f.fbits) f.qmin
  if q ≤ e then (((q - f.qmin).toNat) * 2 ^ f.fbits + M * 2 ^ (e - q).toNat, 0)
  else
    let k := (q - e).toNat
    let n := M / 2 ^ k
    let r := M % 2 ^ k
    let y := if z * 2 ^ k < r * 2 ^ 16 then n + 1 else n
    (((q - f.qmin).toNat) * 2 ^ f.fbits + y, if r = 0 then 0 else NX ||| (if t < f.emin then UF else 0))

/-- cvt.sr of one element (R136). -/
def srTo (f : Fmt) (narrow : Option (Bool × Bool)) (v : FV) (z : Nat) : FRes :=
  match v with
  | .fin m e =>
    let (c, fl) := stochastic f m e z
    if f.maxCode < c then
      ⟨f.signed (decide (m < 0)) (match narrow with
        | some (_, false) => f.maxCode
        | _ => f.infCode), OF ||| NX⟩
    else ⟨f.signed (decide (m < 0)) c, fl⟩
  | x => match narrow with
    | some (e5, ovf) => to8 e5 .rn ovf x
    | none => reformat f32 f .rn x

def execCvtSr (i : CvtSrI) (s : State) : Out :=
  let val (x : Rd) (a : Src) (l : Nat) : FV := f32.decode (x.flt f32 a l)
  match i.dest with
  | .byte e5 b ovf hi =>
    s.vec { g := i.g, d := some i.d, pd := none, win := winOf [(i.a, false), (b, false), (i.c, false)], multi := false
            free := isB0 i.d
            f := fun x l =>
              let z := x.word i.c l
              bytesRes x i.d l (srTo (narrow8 e5) (some (e5, ovf)) (val x i.a l) (bits z 0 16))
                (srTo (narrow8 e5) (some (e5, ovf)) (val x b l) (bits z 16 16)) hi }
  | .f16 =>
    s.vec { g := i.g, d := some i.d, pd := none, win := winOf [(i.a, false), (i.c, false)], multi := false, free := false
            f := fun x l => .ofFRes (srTo f16 none (val x i.a l) (bits (x.word i.c l) 0 16)) }
  | .bf16 =>
    s.vec { g := i.g, d := some i.d, pd := none, win := winOf [(i.a, false), (i.c, false)], multi := false, free := false
            f := fun x l => .ofFRes (srTo bf16 none (val x i.a l) (bits (x.word i.c l) 0 16)) }

/-! ### Block-scaled formats (R78 to R82) -/

/-- A regular E2M1 code as a number of halves (R78). -/
def e2m1Halves (c : Nat) : Int :=
  let h : Int := match c % 8 with
    | 0 => 0
    | 1 => 1
    | 2 => 2
    | 3 => 3
    | 4 => 4
    | 5 => 6
    | 6 => 8
    | _ => 12
  if 8 ≤ c then -h else h

/-- A value times 2^n. -/
def FV.scale (x : FV) (n : Int) : FV :=
  match x with
  | .fin m e => .fin m (e + n)
  | y => y

/-- A canonical quiet NaN as a value: what a decoded NaN is (R79). -/
def quietNan : FV := .nan false true (2 ^ 22)

/-- The exact value of an element under its scale and special bytes (R79, R82). -/
def blockValue (nf : NF) (s q code : Nat) : FV :=
  if s = 255 then quietNan
  else
    let n : Int := (s : Int) - 127
    let v : FV := match nf with
      | .e2m1 => if code = 8 then e4m3.decode q else if e2m1Halves code = 0 then .zero false else .fin (e2m1Halves code) (-1)
      | .e4m3 => e4m3.decode code
      | .e5m2 => e5m2.decode code
    if v.isNan then quietNan else v.scale n

/-- Elements in one lane's word, their width in bits, and the lanes of a block (R81, R82). -/
def NF.perWord : NF → Nat
  | .e2m1 => 8
  | _ => 4
def elemBits (nf : NF) : Nat := 32 / NF.perWord nf
def blockLanes (nf : NF) : Nat := match nf with
  | .e2m1 => 4
  | _ => 8

/-- The scale and the special byte of a lane's block (R82). -/
def Rd.scaleOf (x : Rd) (sc : Fin 256) (nf : NF) (k l : Nat) : Nat × Nat :=
  let first := l / blockLanes nf * blockLanes nf
  (bits (x.r.vget sc.val first).toNat (8 * k) 8, bits (x.r.vget sc.val (first + 1)).toNat (8 * k) 8)

def execCvtBlkDecode (i : CvtBlkDecI) (s : State) : Out :=
  s.vec { g := i.g, d := some (.v i.d), pd := none, win := winOf [(i.a, false)], multi := true, free := false
          f := fun x l =>
            let (e, q) := x.scaleOf i.sc i.nf i.sel.val l
            let w := x.word i.a l
            let rs := (List.range (NF.perWord i.nf)).map fun j =>
              f32.deliver .rn (blockValue i.nf e q (bits w (elemBits i.nf * j) (elemBits i.nf)))
            .words (rs.map FRes.code) (rs.foldl (fun a r => a ||| r.flags) 0) }

/-- The candidates of an E2M1 encoding as multiples of 2^−9 (R80). -/
def e2m1Candidates (q : Nat) : List (Nat × Int) :=
  ([0, 1, 2, 3, 4, 5, 6, 7, 9, 10, 11, 12, 13, 14, 15].map fun c => (c, e2m1Halves c * 2 ^ 8)) ++
    (match e4m3.decode q with
      | .fin m e => [(8, m * 2 ^ (e + 9).toNat)]
      | _ => [])

/-- The candidate of least rank: distance, then the regular code, then F = 0 (R80). -/
def nearest (x : Int) (unit : Int) : List (Nat × Int) → Nat × Int
  | [] => (0, 0)
  | c :: t => t.foldl (fun best y =>
      let rank (z : Nat × Int) : Int := (x - z.2 * unit).natAbs * 4 + (if z.1 = 8 then 2 else (z.1 % 2 : Nat))
      if rank y < rank best then y else best) c

/-- Encode a quotient x / 2^(s − 127) into E2M1 (R80). -/
def toE2m1 (md : RM) (q : Nat) (v : FV) : FRes :=
  let cs := e2m1Candidates q
  let top (neg : Bool) : Nat × Int :=
    nearest (if neg then -(2 ^ 40) else 2 ^ 40) 1 (cs.filter fun c => if neg then decide (c.2 < 0) else decide (0 < c.2))
  match v with
  | .nan _ _ _ => ⟨0, NV⟩
  | .inf s => ⟨(top s).1, OF ||| NX⟩
  | .zero _ => ⟨0, 0⟩
  | .fin m e =>
    let x : Int := if -9 ≤ e then m * 2 ^ (e + 9).toNat else m
    let unit : Int := if -9 ≤ e then 1 else 2 ^ (-9 - e).toNat
    let t := top (decide (m < 0))
    if (t.2 * unit).natAbs < x.natAbs then ⟨t.1, OF ||| NX⟩
    else
      let c := nearest x unit (cs.filter fun c =>
        let y := c.2 * unit
        match md with
        | .rn => true
        | .rz => if 0 ≤ x then decide (0 ≤ y ∧ y ≤ x) else decide (x ≤ y ∧ y ≤ 0)
        | .rp => decide (x ≤ y)
        | .rm => decide (y ≤ x))
      ⟨c.1, if c.2 * unit = x then 0 else NX⟩

/-- Encode one element under a scale and a special byte (R139). -/
def encodeElem (nf : NF) (md : RM) (ovf : Bool) (s q : Nat) (v : FV) : FRes :=
  let u : FV := if s = 255 then .nan v.neg? (!v.snan) (2 ^ 22) else v.scale (127 - (s : Int))
  match nf with
  | .e2m1 => toE2m1 md q u
  | .e4m3 => to8 false md ovf u
  | .e5m2 => to8 true md ovf u

def emaxOf : NF → Int
  | .e2m1 => 2
  | .e4m3 => 8
  | .e5m2 => 15

/-- The active elements of a lane's block, element index order (R82, R139). -/
def Rd.blockElems (x : Rd) (a : Fin 256) (nf : NF) (l : Nat) : List FV :=
  let n := blockLanes nf
  let lanes := ((List.range n).map fun k => l / n * n + k).filter fun k => lane x.act k
  lanes.flatMap fun k => (List.range (NF.perWord nf)).map fun j => f32.decode (x.r.vget (a.val + j) k).toNat

/-- |a| < |b| for finite values. -/
def magBelow (a b : FV) : Bool :=
  let abs (x : FV) : FV := if x.neg? then x.negate else x
  (abs a).cmp (abs b) == .lt

/-- The scale and special bytes that AUTO chooses for a block, and whether an element is infinite or a NaN (R139). -/
def autoScale (nf : NF) (l : List FV) : Nat × Nat × Bool :=
  if l.any fun x => !x.isFinite then (255, 0, true)
  else
    let xm := l.foldl (fun best y => if magBelow best y then y else best) ((l.head?).getD (.zero false))
    match xm with
    | .fin m e =>
      let s := (max 0 (min (topExp m.natAbs e - emaxOf nf + 127) 254)).toNat
      (s, (to8 false .rn false (.fin m (e + 127 - s))).code, false)
    | _ => (127, 0, false)

/-- The scale bytes that AUTO writes (R139): byte sel of the block's first lane, and of the second for E2M1. A register
that is the destination too holds a free value in a lane written twice (log 12). -/
def Rd.autoWrites (x : Rd) (i : CvtBlkEncI) : List (Nat × Word) :=
  let n := blockLanes i.nf
  let put (l b : Nat) : Nat × Word :=
    let old := (x.r.vget i.sc.val l).toNat
    let k := 8 * i.sel.val
    (i.sc.val * 32 + l, if i.d = .v i.sc ∧ lane x.act l then Config.autoClash x.seq l
      else BitVec.ofNat 32 (old - bits old k 8 * 2 ^ k + b * 2 ^ k))
  (List.range (32 / n)).flatMap fun b =>
    let first := b * n
    if (List.range n).any fun k => lane x.act (first + k) then
      let (s, q, _) := autoScale i.nf (x.blockElems i.a i.nf first)
      if i.nf = .e2m1 then [put first s, put (first + 1) q] else [put first s]
    else []

def execCvtBlkEncode (i : CvtBlkEncI) (s : State) : Out :=
  s.vec { g := i.g, d := some i.d, pd := none, win := none, multi := true, free := i.auto
          f := fun x l =>
            let (e, q, bad) := if i.auto then autoScale i.nf (x.blockElems i.a i.nf l)
              else ((x.scaleOf i.sc i.nf i.sel.val l).1, (x.scaleOf i.sc i.nf i.sel.val l).2, false)
            let rs := (List.range (NF.perWord i.nf)).map fun j =>
              encodeElem i.nf i.rm i.ovf e q (f32.decode (x.r.vget (i.a.val + j) l).toNat)
            { LaneRes.word (rs.zipIdx.foldl (fun a r => a + r.1.code * 2 ^ (elemBits i.nf * r.2)) 0) with
              flags := rs.foldl (fun a r => a ||| r.flags) (if bad then NV else 0) }
          extra := fun x => if i.auto then x.autoWrites i else [] }

/-! ### Packing, unpacking, ternary -/

/-- An integer in n bits, low bits or clamped (R140). -/
def packInt (signed sat : Bool) (n : Nat) (x : Int) : Nat :=
  let lo : Int := if signed then -(2 ^ (n - 1) : Nat) else 0
  let hi : Int := if signed then (2 ^ (n - 1) : Nat) - 1 else (2 ^ n : Nat) - 1
  wrap (if sat then max lo (min x hi) else x) n

def execPack (i : Op2 PackP) (s : State) : Out :=
  let op (free : Bool) (f : Rd → Nat → LaneRes) : Out :=
    s.vec { g := i.g, d := some i.d, pd := none, win := winOf [(i.a, false), (i.b, false)], multi := false, free := free
            f := f }
  let half (f : Fmt) (md : RM) : Out := op false fun x l =>
    .ofPair (reformat f32 f md (f32.decode (x.flt f32 i.a l))) (reformat f32 f md (f32.decode (x.flt f32 i.b l)))
  let ints (signed sat : Bool) : Out := op false fun x l =>
    let t : Ty := if signed then .i32 else .n32
    .word (packInt signed sat 16 (x.int t i.a l) + 2 ^ 16 * packInt signed sat 16 (x.int t i.b l))
  let bytes (signed sat hi : Bool) : Out := op (isB0 i.d) fun x l =>
    let t : Ty := if signed then .i32 else .n32
    bytesRes x i.d l ⟨packInt signed sat 8 (x.int t i.a l), 0⟩ ⟨packInt signed sat 8 (x.int t i.b l), 0⟩ hi
  match i.m with
  | .f16x2 md => half f16 md
  | .bf16x2 md => half bf16 md
  | .i16x2 sat => ints true sat
  | .n16x2 sat => ints false sat
  | .i8 sat hi => bytes true sat hi
  | .n8 sat hi => bytes false sat hi

def execUnpack (i : Op1 UnpackP) (s : State) : Out :=
  let op (f : Rd → Nat → LaneRes) : Out :=
    s.vec { g := i.g, d := some i.d, pd := none, win := winOf [(i.a, false)], multi := false, free := false, f := f }
  let half (f : Fmt) (k : Nat) : Out := op fun x l =>
    let p := x.pair f i.a l
    .ofFRes (reformat f f32 .rn (f.decode (if k = 0 then p.1 else p.2)))
  let int (n k : Nat) (signed : Bool) : Out := op fun x l => .word (wrap (element (x.word i.a l) n k (!signed)) 32)
  match i.m with
  | .f16 k => half f16 k.val
  | .bf16 k => half bf16 k.val
  | .i16 k => int 16 k.val true
  | .n16 k => int 16 k.val false
  | .i8 k => int 8 k.val true
  | .n8 k => int 8 k.val false

/-- The five trits of a byte as int8 bytes, and whether the code is illegal (R83). -/
def trits (c : Nat) : List Nat :=
  if 243 ≤ c then [0, 0, 0, 0, 0]
  else (List.range 5).map fun i => wrap (((c / 3 ^ i % 3 : Nat) : Int) - 1) 8

def execUnpkT3 (i : UnpkI) (s : State) : Out :=
  s.vec { g := i.g, d := some (.v i.d), pd := i.pd, win := winOf [(i.a, false)], multi := true, free := false
          f := fun x l =>
            let w := x.word i.a l
            let cs := (List.range 4).map fun j => bits w (8 * j) 8
            let t := cs.flatMap trits
            { LaneRes.words ((List.range 5).map fun k =>
                t.getD (4 * k) 0 + 2 ^ 8 * t.getD (4 * k + 1) 0 + 2 ^ 16 * t.getD (4 * k + 2) 0 +
                  2 ^ 24 * t.getD (4 * k + 3) 0) 0 with
              p := cs.any fun c => decide (243 ≤ c) } }

end Sys2Proof.Machine
end

