-- ==== Sys2Proof/Machine/Lane.lean ====
section
/-! DEFINITION. Lane exchange and votes (R299 to R304). -/

namespace Sys2Proof.Machine

/-- The lane that xlane reads in lane l, and whether it exists (R300). -/
def xlaneSource (md : XlaneMode) (seg l x : Nat) : Nat × Bool :=
  let w := 32 / 2 ^ seg
  let base := l - l % w
  match md with
  | .idx => (base + x % w, true)
  | .sh =>
    let t : Int := (l % w : Nat) + toSigned x 32
    if 0 ≤ t ∧ t < w then (base + t.toNat, true) else (l, false)
  | .rot => (base + (l % w + x) % w, true)
  | .flip => if x < w then (l ^^^ x, true) else (l, false)

def execXlane (i : XlaneI) (s : State) : Out :=
  s.vec { g := i.g, d := some (.v i.d), pd := i.pd, win := winOf [(i.b, false)], multi := true, free := false
          f := fun x l =>
            let (j, ok) := xlaneSource i.mode i.seg.val l (x.word i.b l)
            { LaneRes.word (x.r.vget i.a.val j).toNat with p := ok && lane x.act j } }

/-- The n-th active lane below or above lane l (R301). -/
def neighbour (act : Mask) (above : Bool) (l n : Nat) : Nat × Bool :=
  let s := lanesOf act
  let i := (s.filter fun k => decide (k < l)).length
  if above then (if i + n < s.length then (s.getD (i + n) l, true) else (l, false))
  else (if n ≤ i then (s.getD (i - n) l, true) else (l, false))

def execNbr (i : NbrI) (s : State) : Out :=
  s.vec { g := i.g, d := some (.v i.d), pd := i.pd, win := winOf [(i.n, false)], multi := true, free := false
          f := fun x l =>
            let (j, ok) := neighbour x.act i.above l (x.word i.n l)
            { LaneRes.word (x.r.vget i.a.val j).toNat with p := ok } }

/-- The source mask of a vote (R302). -/
def voteMask (r : Regs) (act : Mask) (pa : Fin 8) (na : Bool) : Mask :=
  act &&& (if na then ~~~(r.pget pa.val) else r.pget pa.val)

/-- A vote over the active lanes (R302). -/
def voteOp (i : LvoteI) (d : Option Dst) (pd : Option (Fin 8)) (f : Mask → Mask → Bool) : VecOp :=
  { g := i.g, d := d, pd := pd, win := none, multi := false, free := false
    f := fun x _ =>
      let q := voteMask x.r x.act i.pa i.na
      match d with
      | some _ => .word q.toNat
      | none => .bit (f q x.act) }

def execLvote (i : LvoteI) (s : State) : Out :=
  match i.op with
  | .and pd => s.vec (voteOp i none (some pd) fun q act => q == act)
  | .or pd => s.vec (voteOp i none (some pd) fun q _ => q != 0)
  | .same pd => s.vec (voteOp i none (some pd) fun q act => q == act || q == 0)
  | .xor pd => s.vec (voteOp i none (some pd) fun q _ => countOf q % 2 == 1)
  | .maskV d => s.vec (voteOp i (some (.v d)) none fun _ _ => false)
  | .maskS d => s.vec (voteOp i (some (.s d)) none fun _ _ => false)

/-- mpopc (R303). -/
def execMpopc (i : MpopcI) (s : State) : Out :=
  s.vec { g := i.g, d := some i.d, pd := none, win := none, multi := false, free := false
          f := fun x l =>
            let q := voteMask x.r x.act i.pa i.na
            let m := maskOf fun k => match i.mode with
              | .excl => decide (k < l)
              | .incl => decide (k ≤ l)
              | .tot => true
            .word (countOf (q &&& m)) }

/-- lmatch (R304). -/
def execLmatch (i : LmatchI) (s : State) : Out :=
  let pd := match i.mode with
    | .uni p => p
    | _ => none
  s.vec { g := i.g, d := some (.v i.d), pd := pd, win := none, multi := true, free := false
          f := fun x l =>
            let val (k : Nat) : DWord := if i.w64 then x.r.vpair i.a.val k else (x.r.vget i.a.val k).setWidth 64
            let same := maskOf fun k => lane x.act k && val k == val l
            match i.mode with
            | .grp => .word same.toNat
            | .uni _ => if same = x.act then { LaneRes.word x.act.toNat with p := true } else .word 0
            | .lead => .word ((lowest same).getD 0) }

end Sys2Proof.Machine
end

