-- ==== Sys2Proof/Machine/Uses.lean ====
section
/-! DEFINITION. The registers an instruction names: what the checks of R12, R40 and R411, the scoreboard (R93) and dual
issue (R91, R92, R122) look at. -/

namespace Sys2Proof.Machine

/-- Registers read and written, by their numbers, rejoin sets, tiles and latches. -/
structure Use where
  vr : List Nat := []
  vw : List Nat := []
  sr : List Nat := []
  sw : List Nat := []
  pr : List Nat := []
  pw : List Nat := []
  jr : List Nat := []
  jw : List Nat := []
  tr : List Nat := []
  tw : List Nat := []
  latch : List Nat := []
  deriving DecidableEq, Repr, Inhabited

def Use.and (a b : Use) : Use :=
  { vr := a.vr ++ b.vr, vw := a.vw ++ b.vw, sr := a.sr ++ b.sr, sw := a.sw ++ b.sw, pr := a.pr ++ b.pr, pw := a.pw ++ b.pw,
    jr := a.jr ++ b.jr, jw := a.jw ++ b.jw, tr := a.tr ++ b.tr, tw := a.tw ++ b.tw, latch := a.latch ++ b.latch }

def Use.all (l : List Use) : Use := l.foldl Use.and {}

/-- n registers from k on. -/
def span (k n : Nat) : List Nat := (List.range n).map fun i => k + i

def readV (k n : Nat) : Use := { vr := span k n }
def writeV (k n : Nat) : Use := { vw := span k n }
def readS (k : Fin 64) : Use := { sr := [k.val] }
def writeS (k : Fin 64) : Use := { sw := [k.val] }
def readP (k : Fin 8) : Use := { pr := [k.val] }
def writeP (k : Fin 8) : Use := { pw := [k.val] }
def writePd (p : Option (Fin 8)) : Use := (p.map writeP).getD {}
def writeSo (k : Option (Fin 64)) : Use := (k.map writeS).getD {}
def readSo (k : Option (Fin 64)) : Use := (k.map readS).getD {}
def guardUse (g : Guard) : Use := readP g.p

/-- A source in a position of n words. -/
def srcUse (n : Nat) (a : Src) : Use :=
  match a with
  | .v k => readV k.val n
  | .s k => readS k
  | .b k => { latch := span k.val n }
  | _ => {}

def baseUse (wide : Bool) (a : ABase) : Use :=
  match a with
  | .zero => {}
  | .s k => readS k
  | .v k => readV k.val (if wide then 2 else 1)

/-- A destination of n words. -/
def dstUse (n : Nat) (d : Dst) : Use :=
  match d with
  | .v k => writeV k.val n
  | .s k => writeS k
  | .b0 => {}

/-- A destination of which only some bytes are written (R135, R140): it is read too. -/
def mergeUse (d : Dst) : Use :=
  match d with
  | .v k => (readV k.val 1).and (writeV k.val 1)
  | _ => dstUse 1 d

/-- Words of an operand of a type. -/
def tyWords (t : Ty) : Nat := if t.width = 64 then 2 else 1

def op1Use {μ : Type} (i : Op1 μ) (n r : Nat) : Use := .all [guardUse i.g, dstUse r i.d, srcUse n i.a]
def op2Use {μ : Type} (i : Op2 μ) (na nb r : Nat) : Use := .all [guardUse i.g, dstUse r i.d, srcUse na i.a, srcUse nb i.b]
def op3Use {μ : Type} (i : Op3 μ) (na nb nc r : Nat) : Use :=
  .all [guardUse i.g, dstUse r i.d, srcUse na i.a, srcUse nb i.b, srcUse nc i.c]

def int1Use (i : Op1 IntM) : Use := op1Use i (tyWords i.m.ty) (tyWords i.m.ty)
def int2Use (i : Op2 IntM) : Use := op2Use i (tyWords i.m.ty) (tyWords i.m.ty) (tyWords i.m.ty)
def int3Use (i : Op3 IntM) : Use := op3Use i (tyWords i.m.ty) (tyWords i.m.ty) (tyWords i.m.ty) (tyWords i.m.ty)
def ty1Use (i : Op1 Ty) : Use := op1Use i (tyWords i.m) (tyWords i.m)
def ty2Use (i : Op2 Ty) : Use := op2Use i (tyWords i.m) (tyWords i.m) (tyWords i.m)
def ty3Use (i : Op3 Ty) : Use := op3Use i (tyWords i.m) (tyWords i.m) (tyWords i.m) (tyWords i.m)
def ctl2Use (i : Op2 Ty) : Use := op2Use i (tyWords i.m) 1 (tyWords i.m)

def carryUse (i : CarryI) : Use :=
  .all [guardUse i.g, dstUse (tyWords i.ty) i.d, srcUse (tyWords i.ty) i.a, srcUse (tyWords i.ty) i.b,
    if i.ci then readP i.pc else {}, writeP i.pc]

def combUse (c : Comb) (p : Fin 8) : Use := if c = .none then {} else readP p

/-- Words of a memory width. -/
def mwWords (w : MW) : Nat := (mwBytes w + 3) / 4

def loadUse (global : Bool) (i : LoadI) : Use :=
  .all [guardUse i.g, dstUse (mwWords i.w) i.d, baseUse global i.base, baseUse i.ip i.idx]
def storeUse (global : Bool) (i : StoreI) : Use :=
  .all [guardUse i.g, srcUse (mwWords i.w) i.data, baseUse global i.base, baseUse i.ip i.idx]

/-- A register that an atomic both reads and writes. -/
def inOut (d : Dst) (n : Nat) : Use :=
  match d with
  | .v k => (readV k.val n).and (writeV k.val n)
  | .s k => (readS k).and (writeS k)
  | .b0 => {}

def atomUse (global : Bool) (i : AtomI) : Use :=
  .all [guardUse i.g, inOut i.d (aopSize i.op / 4), baseUse global i.base, baseUse false i.idx]
def redUse (global : Bool) (i : RedI) : Use :=
  .all [guardUse i.g, srcUse (aopSize i.op / 4) i.data, baseUse global i.base, baseUse false i.idx]
def casUse (global : Bool) (i : CasI) : Use :=
  let n := if i.w64 then 2 else 1
  .all [guardUse i.g, readV i.d.val (2 * n), writeV i.d.val n, baseUse global i.base, baseUse false i.idx]

def setUse (g : Guard) (j : Fin 16) : Use := (guardUse g).and { jr := [j.val], jw := [j.val] }

/-- The residual tile next to a tile. -/
def tileR (t : Option (Fin 8)) : Use := { tr := (t.map fun x => x.val).toList }

def cpyUse (i : CpyI) : Use :=
  .all [guardUse i.g, readS i.dst, readS i.src, readSo (i.bar.map Prod.fst), writeSo i.tk, readSo i.cr]

def mmaUse (i : MmaI) : Use :=
  .all [guardUse i.g, readS i.sa, readS i.sb, readSo (i.scale.map Prod.fst), readSo (i.scale.map Prod.snd), writeSo i.tk,
    { tr := [i.d.val], tw := [i.d.val] }]

/-- Words that csrr writes in a lane: `sr.` registers 0x09 to 0x0F, 0x80 and 0x81 have 64 bits (R21, R345). -/
def srWords (n : Nat) : Nat := if (9 ≤ n ∧ n ≤ 15) ∨ n = 0x80 ∨ n = 0x81 then 2 else 1

/-- What an instruction names. The steps of other agents name nothing. -/
def useOf (i : Instr) : Use :=
  match i with
  | .add i | .sub i | .mul i => int2Use i
  | .addc i | .subb i => carryUse i
  | .mulhi i | .div i | .rem i | .min i | .max i | .and i | .or i | .xor i | .andn i => ty2Use i
  | .mad i | .add3 i => int3Use i
  | .madhi i | .sad i | .clamp i => ty3Use i
  | .mulwd i => op2Use i 1 1 2
  | .abs i | .neg i => int1Use i
  | .not i | .brev i | .mov i => ty1Use i
  | .bfn i =>
    let n := match i.d with
      | .s _ => 2
      | _ => 1
    op3Use i n n n n
  | .shl i | .shr i | .shrA i | .rot i | .bfx i => ctl2Use i
  | .shf i => op3Use i (tyWords i.m.ty) (tyWords i.m.ty) 1 (tyWords i.m.ty)
  | .bfi i => op3Use i (tyWords i.m) (tyWords i.m) 1 (tyWords i.m)
  | .popc i | .clz i | .ctz i => op1Use i (tyWords i.m) 1
  | .bsel i => op3Use i 1 1 1 1
  | .setp i =>
    .all [guardUse i.g, srcUse (tyWords i.ty) i.a, srcUse (tyWords i.ty) i.b, combUse i.comb i.pc, writeP i.pd]
  | .sel i =>
    .all [guardUse i.g, dstUse (tyWords i.ty) i.d, srcUse (tyWords i.ty) i.a, srcUse (tyWords i.ty) i.b, readP i.pc]
  | .pfn i => .all [guardUse i.g, readP i.pa, readP i.pb, readP i.pc, writeP i.pd]
  | .movp i => .all [guardUse i.g, dstUse 1 i.d, readP i.pa]
  | .movpTo i => .all [guardUse i.g, srcUse 1 i.a, writeP i.pd]
  | .sethi20 i | .sethi20Pc i => (guardUse i.g).and (writeS i.sd)
  | .lea i => op3Use i 2 1 1 2
  | .idot4 i | .idot2 i | .tacc i => op3Use i 1 1 1 1
  | .fadd i | .fsub i | .fmul i | .fscale i | .fmin i | .fmax i | .fdiv i => op2Use i 1 1 1
  | .fma i | .fdot2 i | .fclamp i => op3Use i 1 1 1 1
  | .fsetp i => .all [guardUse i.g, srcUse 1 i.a, srcUse 1 i.b, combUse i.comb i.pc, writeP i.pd]
  | .fclass i => .all [guardUse i.g, srcUse 1 i.a, srcUse 1 i.mask, writeP i.pd]
  | .frnd i | .fexpo i | .fmant i | .fsqrt i | .frcp i | .frsq i | .fex2 i | .flg2 i | .fsin i | .fcos i | .ftanh i =>
    op1Use i 1 1
  | .faddE i | .fmulE i => op2Use i 1 1 2
  | .fmaE i => op3Use i 1 1 1 3
  | .xren i => .all [guardUse i.g, readV i.a.val (i.na.val + 1), writeV i.d.val (i.na.val + 1)]
  | .xcmpr i => .all [guardUse i.g, readV i.a.val (i.na.val + 1), writeV i.d.val (i.nd.val + 1)]
  | .xcmp i => .all [guardUse i.g, readV i.a.val (i.na.val + 1), readV i.b.val (i.na.val + 1), writeP i.pd]
  | .xadd i =>
    .all [guardUse i.g, readV i.a.val (i.na.val + 1), srcUse (i.nb.val + 1) i.b, writeV i.d.val (i.na.val + 1)]
  | .xmulW i => .all [guardUse i.g, readV i.a.val (i.na.val + 1), srcUse 1 i.b, writeV i.d.val (i.na.val + 1)]
  | .cvt i => op1Use i (if i.m.st.is64 then 2 else 1) (if i.m.dt.is64 then 2 else 1)
  | .cvtN i =>
    match i.dir with
    | .narrow b _ _ _ => .all [guardUse i.g, srcUse 1 i.a, srcUse 1 b, mergeUse i.d]
    | .widen _ => .all [guardUse i.g, srcUse 1 i.a, dstUse 1 i.d]
  | .cvtSr i =>
    match i.dest with
    | .byte _ b _ _ => .all [guardUse i.g, srcUse 1 i.a, srcUse 1 b, srcUse 1 i.c, mergeUse i.d]
    | _ => .all [guardUse i.g, srcUse 1 i.a, srcUse 1 i.c, dstUse 1 i.d]
  | .cvtBlkDecode i => .all [guardUse i.g, srcUse 1 i.a, readV i.sc.val 1, writeV i.d.val (NF.perWord i.nf)]
  | .cvtBlkEncode i =>
    .all [guardUse i.g, readV i.a.val (NF.perWord i.nf), readV i.sc.val 1, dstUse 1 i.d,
      if i.auto then writeV i.sc.val 1 else {}]
  | .cvtX2 (.toX2 g d a) => .all [guardUse g, srcUse 2 a, writeV d.val 2]
  | .cvtX2 (.toF64 g d a _) => .all [guardUse g, readV a.val 2, writeV d.val 2]
  | .unpkT3 i => .all [guardUse i.g, srcUse 1 i.a, writeV i.d.val 5, writePd i.pd]
  | .pack i =>
    match i.m with
    | .i8 _ _ | .n8 _ _ => .all [guardUse i.g, srcUse 1 i.a, srcUse 1 i.b, mergeUse i.d]
    | _ => op2Use i 1 1 1
  | .unpack i => op1Use i 1 1
  | .xlane i => .all [guardUse i.g, readV i.a.val 1, srcUse 1 i.b, writeV i.d.val 1, writePd i.pd]
  | .nbr i => .all [guardUse i.g, readV i.a.val 1, srcUse 1 i.n, writeV i.d.val 1, writePd i.pd]
  | .lvote i =>
    .all [guardUse i.g, readP i.pa, match i.op with
      | .and p | .or p | .same p | .xor p => writeP p
      | .maskV d => writeV d.val 1
      | .maskS d => writeS d]
  | .mpopc i => .all [guardUse i.g, readP i.pa, dstUse 1 i.d]
  | .lmatch i =>
    .all [guardUse i.g, readV i.a.val (if i.w64 then 2 else 1), writeV i.d.val 1, match i.mode with
      | .uni p => writePd p
      | _ => {}]
  | .stc i =>
    .all [guardUse i.g, readS i.q, readS i.base, srcUse (mwWords i.w) i.data,
      (i.ri.map fun d => writeV d.val 1).getD {}]
  | .ld i => loadUse true i
  | .st i => storeUse true i
  | .lds i | .ldgs i | .ldl i => loadUse false i
  | .sts i | .stgs i | .stl i => storeUse false i
  | .ldk i => .all [guardUse i.g, dstUse (mwWords i.w) i.d, baseUse false i.idx]
  | .pref i => .all [guardUse i.g, baseUse true i.base, baseUse i.ip i.idx]
  | .bankcfg i => .all [guardUse i.g, srcUse 1 i.first, srcUse 1 i.count]
  | .fifoPush i => .all [guardUse i.g, srcUse 1 i.bank, srcUse 1 i.data]
  | .fifoPop i => .all [guardUse i.g, srcUse 1 i.bank, writeV i.d.val 1]
  | .atom i => atomUse true i
  | .atoms i => atomUse false i
  | .red i => redUse true i
  | .reds i => redUse false i
  | .cas i => casUse true i
  | .cass i => casUse false i
  | .catom i => .all [guardUse i.g, readV i.d.val 2, baseUse true i.base, baseUse true i.delta, writePd i.pd]
  | .fence i => guardUse i.g
  | .barInit i => .all [guardUse i.g, readS i.obj, srcUse 1 i.count]
  | .barArrive i => .all [guardUse i.g, readS i.obj, srcUse 1 i.count, srcUse 2 i.bytes]
  | .barWait i => .all [guardUse i.g, readS i.obj, srcUse 1 i.par]
  | .barTest i => .all [guardUse i.g, readS i.obj, srcUse 1 i.par, writeP i.pd]
  | .waitc i => .all [guardUse i.g, readS i.ctr, srcUse 2 i.value]
  | .signal i => .all [guardUse i.g, readS i.ctr, srcUse 2 i.value]
  | .waitsb i => .all [guardUse i.g, srcUse 1 i.n]
  | .pause i => .all [guardUse i.g, srcUse 1 i.n]
  | .bra i => guardUse i.g
  | .brx i | .ret i => (guardUse i.g).and (baseUse true i.target)
  | .call i => (guardUse i.g).and (writeV i.link.val 2)
  | .callx i => .all [guardUse i.g, writeV i.link.val 2, baseUse true i.target]
  | .exit i => (guardUse i.g).and { jw := List.range 16 }
  | .jopen i => (setUse i.g i.j).and ((i.mask.map (srcUse 1)).getD {})
  | .jenter i | .jquit i | .jwait i | .jfree i => setUse i.g i.j
  | .jsave i => .all [guardUse i.g, readS i.base, srcUse 1 i.slot, { jr := [i.j.val] }]
  | .jload i => .all [guardUse i.g, readS i.base, srcUse 1 i.slot, { jw := [i.j.val] }]
  | .mma i => mmaUse i
  | .mmaRes i => (mmaUse i.m).and { tr := [i.r.val], tw := [i.r.val] }
  | .accZero i => (guardUse i.g).and { tw := [i.d.val] }
  | .accRd i => .all [guardUse i.g, writeV i.d.val (2 ^ i.nr.val), { tr := [i.a.val] }, tileR i.sum]
  | .accWr i => .all [guardUse i.g, readV i.a.val (2 ^ i.nr.val), { tw := [i.d.val] }]
  | .accLd i => .all [guardUse i.g, readS i.lrec, writeSo i.tk, { tw := [i.d.val] }]
  | .accSt i => .all [guardUse i.g, readS i.lrec, { tr := [i.a.val] }, tileR i.sum]
  | .cpy i => cpyUse i
  | .cpyRed i => cpyUse i.c
  | .cpySig i => .all [cpyUse i.c, readS i.ctr, srcUse 2 i.value]
  | .impStart i => .all [guardUse i.g, readS i.desc, writeSo i.tk, readSo i.cr]
  | .rgnBegin i => guardUse i.g
  | .rgnKeep i =>
    .all [guardUse i.g, readV i.vfirst.val i.vnum.val, { sr := span i.sfirst.val i.snum.val },
      { pr := (List.range 8).filter fun k => i.pmask.getLsbD k },
      { jr := (List.range 16).filter fun k => i.jmask.getLsbD k }, tileR i.tile0, tileR i.tile1]
  | .rgnEnd i => guardUse i.g
  | .rgnAbort i | .trap i => (guardUse i.g).and (srcUse 1 i.n)
  | .rgnStatus i => (guardUse i.g).and (writeS i.d)
  | .errpPost i => .all [guardUse i.g, srcUse 1 i.n, readS i.w0, readS i.w1]
  | .errpVec i | .errpMask i => .all [guardUse i.g, srcUse 2 i.a, writeSo i.d]
  | .csrr i => (guardUse i.g).and (dstUse (srWords i.srn.toNat) i.d)
  | .csrw i => (guardUse i.g).and (srcUse 2 i.a)
  | .tret i => (guardUse i.g).and { sr := [60], sw := [60, 61], pw := [1] }
  | .migr i => (guardUse i.g).and (readS i.a)
  | .migrHome i | .nop i => guardUse i.g
  | .tlbiAll i => guardUse i.g
  | .tlbiVa i => .all [guardUse i.g, readS i.c, readS i.v]
  | .tlbiCtx i => (guardUse i.g).and (readS i.c)
  | .ctxopDrain i => (guardUse i.g).and (readS i.c)
  | .ctxopRoot i => .all [guardUse i.g, readS i.c, readS i.r]
  | .issueOpportunity _ | .bankDrainEnd _ | .atomicPerformed _ _ _ | .loadDataReturn _ _ _
  | .storePerformed _ _ _ | .resultWriteback _ _ | .groupWaitEnd _ _ | .platenStep _ | .feederChunk _
  | .stepSend _ | .stepRecv _ | .stepRrs _ | .stepRrc _ | .stepCopy _ | .stepWait _ | .stepSignal _
  | .stepLoop _ | .stepEndloop _ | .credit _ _ _ | .chunk _ _ _ | .abort _ _ _ | .transferTimeout _
  | .migrationDeparture _ | .migrationArrival _ _ | .migWalkRetry _ | .movedNack _ _ _ | .takeTrap _
  | .detectedError _ _ _ _ _ | .regionRollback _ | .gangKill _ _ | .gangRelaunch _ _ | .watchdogExpiry _
  | .gangPlacement _ _ | .warpRetire _ | .preemptionRequest _ | .engineStop _ _ | .preemptionComplete _
  | .resumption _ | .timeSliceExpiry _ | .schedulerRebuild _ _ | .fabricEntry _ _ _ | .fabricResend _ _ _
  | .tail _ _ | .resume _ | .reset _ | .launch _ | .packetFence _ | .packetSignal _ | .packetCopy _
  | .collective _ | .rcbRegister _ | .rcbUnregister _ | .skip _ | .unknownPacket _ | .fenceThresholdMet _
  | .workCompletionDone _ | .rdmaWrite _ _ _ _ | .rdmaRead _ _ _ _ | .clockThrottle _ | .thermalTripFatal
  | .boot | .readOfferWords _ | .featureAccept _ _ _ | .featureLock _ _ | .createContext _ _
  | .removeContext _ _ | .registerQueue _ _ | .bindQueuePair _ _ _ _ | .attestationQuote _ _
  | .writeFirmwareSlot _ _ _ _ _ | .readManagementErrata _ | .commitFirmwareVersion _ | .linkFailure _
  | .impositionWaitMet _ | .uncorrectableError _ | .powerLoss | .cnpReceived _ | .malformedManagementMessage _ _ =>
    {}

end Sys2Proof.Machine
end

