-- ==== Sys2Proof/Machine/System.lean ====
section
/-! DEFINITION. Special registers (R21 to R23, R345 to R348), nop, translations dropped and contexts changed (R335,
R350 to R353), trap, tret, errp (R379 to R384), and the traps, rollbacks and kills of detected errors (R373 to R377,
R401 to R409). -/

namespace Sys2Proof.Machine

/-! ### csrr, csrw, nop -/

def causeSpecialRegister : Nat := 0xE5
def causePrivileged : Nat := 0xE6
def causeContext : Nat := 0xE7

/-- `sr.trapcause` (R21). -/
def Regs.trapcause (r : Regs) : Nat :=
  match r.frame with
  | some f => f.cause + 256
  | none => 0

/-- A uniform special register's value (R21, R345); `sr.laneid` and unknown numbers apart. -/
def State.srValue (s : State) (slot : Nat) (w : Warp) (r : Regs) (n : Nat) : Option Nat :=
  match n with
  | 0x01 => some w.num
  | 0x02 => some w.block
  | 0x03 => some w.gx
  | 0x04 => some w.gy
  | 0x05 => some w.gz
  | 0x06 => some (slotForme slot)
  | 0x07 => some (slotQuad slot)
  | 0x08 => some (slotSheet slot)
  | 0x09 => some (s.cycles.getD (slotSheet slot) 0 % 2 ^ 64)
  | 0x0A => some (s.time % 2 ^ 64)
  | 0x0B => some r.gseq.toNat
  | 0x0C => some r.bankconf.toNat
  | 0x0D => some w.rgn.toNat
  | 0x0E => some r.fpflags.toNat
  | 0x0F => some r.trapcause
  | 0x80 => some w.ctx
  | 0x81 => some (s.skip.get (slotQuadId slot)).toNat
  | _ => none

/-- Privileged registers (R345). -/
def srPrivileged (n : Nat) : Bool := n == 0x80 || n == 0x81

/-- What csrr writes (R347); none when the number names no register that the destination can take. -/
def State.srRead (s : State) (slot : Nat) (w : Warp) (r : Regs) (act : Mask) (i : CsrrI) : Option Writes :=
  let n := i.srn.toNat
  match i.d with
  | .s k => (s.srValue slot w r n).map fun x => ⟨[], [(k.val, BitVec.ofNat 64 x)], [], []⟩
  | .v k =>
    if n = 0 then some ⟨(lanesOf act).map fun l => (k.val * 32 + l, BitVec.ofNat 32 l), [], [], []⟩
    else (s.srValue slot w r n).map fun x =>
      ⟨(lanesOf act).flatMap fun l => (List.range (srWords n)).map fun j =>
        ((k.val + j) * 32 + l, BitVec.ofNat 32 (bits x (32 * j) 32)), [], [], []⟩
  | .b0 => none

/-- A check that holds whatever the guard (R335): "privileged instruction". -/
def State.privilegedOr (s : State) (sl : Slot) (w : Warp) (act : Mask) (k : State) : State :=
  if s.privileged w || sl.proof then k else s.raise sl act (.plain causePrivileged)

def execCsrr (i : CsrrI) (s : State) : Out :=
  s.onSlot fun s1 sl w r =>
    let act := active r sl.grp i.g
    let k : State :=
      if act = 0 then s1.finish sl r
      else if sl.proof then s1.takeValues sl r
      else match s1.srRead sl.w w r act i with
        | none => s1.raise sl act (.plain causeSpecialRegister)
        | some x => (s1.finish sl (r.deliver r.gseq.toNat x)).modWarp sl.w fun y => y.giveValues r.gseq.toNat x
    .next (if srPrivileged i.srn.toNat then s1.privilegedOr sl w act k else k)

/-- A special register that csrw may write (R21, R345). -/
def srWritable (n : Nat) : Bool := n == 0x0C || n == 0x0E || n == 0x81

/-- Write a special register (R348). -/
def State.srWrite (s : State) (sl : Slot) (r : Regs) (n : Nat) (x : DWord) : State :=
  match n with
  | 0x0C => s.finish sl { r with bankconf := x }
  | 0x0E => s.finish sl { r with fpflags := x &&& 0x3F }
  | _ =>
    let s1 := s.finish sl r
    if sl.proof then s1 else { s1 with skip := s1.skip.set (slotQuadId sl.w) x }

def execCsrw (i : CsrwI) (s : State) : Out :=
  s.onSlot fun s1 sl w r =>
    let act := active r sl.grp i.g
    let n := i.srn.toNat
    let k : State :=
      if act = 0 then s1.finish sl r
      else if !srWritable n then s1.raiseOr sl act (some (.plain causeSpecialRegister)) (s1.finish sl r)
      else match s1.operandWindow sl w act (winOf [(i.a, true)]) with
        | (.error e, s2) => s2.raise sl act e
        | (.ok x, s2) => s2.srWrite sl r n (BitVec.ofNat 64 ((⟨r, x, act, 0⟩ : Rd).dword i.a 0))
    .next (if srPrivileged n then s1.privilegedOr sl w act k else k)

def execNop (i : PlainI) (s : State) : Out := s.withActive i.g fun s1 sl _ r _ => s1.finish sl r

/-! ### tlbi, ctxop (R350 to R353) -/

/-- A context scalar names a resident context (R350). -/
def State.contextOk (s : State) (c : DWord) : Bool := decide (c.toNat < 64) && (s.context c.toNat).res

/-- A privileged instruction that a region forbids (R335, R353): its checks, then its effect on the leading warp. -/
def State.privilegedOp (s : State) (g : Guard) (check : State → Regs → Option SyncFault)
    (f : State → Slot → Regs → State) : Out :=
  s.onSlot fun s1 sl w r =>
    let act := active r sl.grp g
    .next (s1.privilegedOr sl w act
      (if act = 0 || sl.proof then s1.finish sl r
      else if !w.levels.isEmpty then s1.raise sl act (.plain causeForbidden)
      else match check s1 r with
        | some e => s1.raise sl act e
        | none => f s1 sl r))

def contextFault (s : State) (c : DWord) : Option SyncFault := if s.contextOk c then none else some (.plain causeContext)

/-- The operations in flight that some parts' test picks, by warp and number. -/
def State.opsWhere (s : State) (f : Warp → MemOp → Bool) : List (Nat × Nat) :=
  s.warpList.flatMap fun y => (y.2.inFlight.filter fun o => f y.2 o).map fun o => (y.1, o.id)

/-- Hold the issuing group until operations have been performed (R351, R352). -/
def State.waitOps (s : State) (sl : Slot) (r : Regs) (l : List (Nat × Nat)) : State :=
  if l.isEmpty then s.finish sl r else s.holdAt sl r sl.grp (.ops l)

/-- An operation has a part in global memory. -/
def MemOp.global (o : MemOp) : Bool := o.pieces.any fun p => p.place.sheet?.isSome

/-- The page that a virtual address lies in: its leaf's, or 64 KiB. -/
def State.pageOf (s : State) (c : Nat) (va : DWord) : Nat × Nat :=
  let a := va.toNat % 2 ^ 57
  match s.walk c va with
  | .ok t => (t.base, t.size)
  | .error _ => (a / 2 ^ 16 * 2 ^ 16, 2 ^ 16)

/-- Every access in flight to a page that stops moving, those held for a proof warp included, is sent to where the page is
now (R203). -/
def State.sendMoved (s : State) (t : TlbEntry) : State :=
  s.warpList.foldl (fun a y => y.2.inFlight.foldl (fun b o =>
    o.pieces.zipIdx.foldl (fun c p =>
      let at_ (q : Place) : Bool := match q with
        | .hbm k => t.holdsPa (k / 2 ^ 38) (k % 2 ^ 38)
        | .scr _ _ _ => false
      if !p.1.done && (at_ p.1.place || at_ p.1.place2) then
        (c.leaveFabric y.1 o.id p.2 p.1).moveOne y.1 y.2 o p.2 p.1
      else c) b) a) s

/-- Clear the moving marks of a page (R344, R351). -/
def State.clearMoving (s : State) (c : Nat) (va : DWord) : State :=
  let a := va.toNat % 2 ^ 57
  let gone := s.moving.filter fun t => t.covers c a
  gone.foldl (fun acc t => acc.sendMoved t) { s with moving := s.moving.filter fun t => !t.covers c a }

/-- Mark a page's lines as moving and drop its words from every L1 (R344, R351). -/
def State.markMoving (s : State) (c : Nat) (va : DWord) : State :=
  match s.walk c va with
  | .error _ => s
  | .ok t =>
    { s with
      moving := if s.moving.contains t then s.moving else t :: s.moving
      l1 := s.l1.filter fun x => !t.holdsPa (x.1 % 2 ^ 40 / 2 ^ 38) (x.1 % 2 ^ 38) }

def execTlbiVa (i : TlbiVaI) (s : State) : Out :=
  s.privilegedOp i.g
    (fun s1 r => match contextFault s1 (r.sget i.c.val) with
      | some e => some e
      | none => if canonical (r.sget i.v.val) then none else some ⟨causeNonCanonical, r.sget i.v.val, 0, 0, 0⟩)
    fun s1 sl r =>
      let c := (r.sget i.c.val).toNat
      let va := r.sget i.v.val
      let ranges := s1.pageOf c va :: (s1.tlb.filter fun t => t.level == 0 && t.covers c (va.toNat % 2 ^ 57)).map fun t => (t.base, t.size)
      let dropped (x : DWord) : Bool := ranges.any fun y => decide (y.1 ≤ x.toNat % 2 ^ 57 ∧ x.toNat % 2 ^ 57 < y.1 + y.2)
      let l := s1.opsWhere fun w o => w.ctx == c && (!i.mv || o.kind.isLoad) && o.pieces.any fun p =>
        !p.done && p.place.sheet?.isSome && (dropped p.va || (o.kind.isCatom && dropped p.va2))
      let s2 := { s1 with tlb := s1.tlb.filter fun t => !t.covers c (va.toNat % 2 ^ 57) }
      (if i.mv then s2.markMoving c va else s2.clearMoving c va).waitOps sl r l

/-- Drop every translation of a context, and wait for what they translated (R351). -/
def State.dropContext (s : State) (sl : Slot) (r : Regs) (c : Nat) : State :=
  let l := s.opsWhere fun w o => w.ctx == c && o.global
  { s with tlb := s.tlb.filter fun t => t.ctx != c }.waitOps sl r l

/-- MV outside .va raises "illegal context" (R350). -/
def mvFault (mv : Bool) : Option SyncFault := if mv then some (.plain causeContext) else none

def execTlbiCtx (i : TlbiCtxI) (s : State) : Out :=
  s.privilegedOp i.g (fun s1 r => (contextFault s1 (r.sget i.c.val)).or (mvFault i.mv)) fun s1 sl r =>
    s1.dropContext sl r (r.sget i.c.val).toNat

def execTlbiAll (i : TlbiAllI) (s : State) : Out :=
  s.privilegedOp i.g (fun _ _ => mvFault i.mv) fun s1 sl r =>
    { s1 with tlb := [] }.waitOps sl r (s1.opsWhere fun _ o => o.global)

/-- A root scalar's zero bits (R352). -/
def badRoot (x : DWord) : Bool := bits x.toNat 2 3 != 0 || bits x.toNat 38 26 != 0

def execCtxopRoot (i : CtxRootI) (s : State) : Out :=
  s.privilegedOp i.g
    (fun s1 r => match contextFault s1 (r.sget i.c.val) with
      | some e => some e
      | none => if badRoot (r.sget i.r.val) then some (.plain causeContext) else none)
    fun s1 sl r =>
      let c := (r.sget i.c.val).toNat
      let x := (r.sget i.r.val).toNat
      { s1 with ctxs := s1.ctxs.modify c fun y =>
          { y with root := BitVec.ofNat 64 (bits x 5 47 * 32), rhome := x % 4 } }.dropContext sl r c

/-- The number of a queue pair of a port. -/
def qpKey (port qp : Nat) : Nat := port * Config.qpsPerPort + qp

/-- The queue pair of an RDMA operation. -/
def rdmaKey : Instr → Option Nat
  | .rdmaWrite port ⟨qp, _⟩ _ _ | .rdmaRead port ⟨qp, _⟩ _ _ => some (qpKey port qp)
  | _ => none

/-- What ctxop.drain waits for (R352): the accesses of resident and of suspended warps, and RDMA operations that wait. -/
def State.drainIds (s : State) (slot c : Nat) : List (Nat × Nat) :=
  (s.opsWhere fun w _ => w.ctx == c) ++
    ((s.warpList.filter fun y => y.1 != slot) ++ s.gangs.flatMap Gang.saved).flatMap fun y =>
      if y.2.ctx = c then y.2.unfinished.map fun o => (y.1, o.id) else []

def State.drainHeld (s : State) (c : Nat) : List Instr :=
  s.rdmaHeld.filter fun i => ((rdmaKey i).bind fun k => (s.qps.get k).map Qp.ctx) == some c

def execCtxopDrain (i : CtxI) (s : State) : Out :=
  s.privilegedOp i.g (fun s1 r => contextFault s1 (r.sget i.c.val)) fun s1 sl r =>
    let c := (r.sget i.c.val).toNat
    let l := s1.drainIds sl.w c
    let held := s1.drainHeld c
    if l.isEmpty && held.isEmpty then s1.finish sl r else s1.holdAt sl r sl.grp (.drained l held)

/-! ### trap, tret, errp -/

/-- The low four bits of an operand n (R379, R383, R390). -/
def Regs.small (r : Regs) (a : Src) : Nat := ((⟨r, 0, 0, 0⟩ : Rd).word a 0) % 16

def execTrap (i : TrapI) (s : State) : Out :=
  s.withActive i.g fun s1 sl _ r act =>
    if sl.proof then s1.finish sl r else s1.raiseAt sl act (.plain (0xF0 + r.small i.n)) sl.after []

/-- Translate a load of the replay queue again (R343): its parts at their places, or why not. -/
def State.replace (s : State) (slot : Nat) (w : Warp) : List Piece → Except MemStop (List Piece) × State
  | [] => (.ok [], s)
  | p :: t =>
    match p.place with
    | .scr _ _ _ =>
      if w.away slot then (.error (memFault causeScratchAway (p.va.toNat : Int) kindLoad), s)
      else match s.replace slot w t with
        | (.ok l, s1) => (.ok (p :: l), s1)
        | x => x
    | .hbm _ =>
      match s.translateAll (slotQuadId slot) w.ctx .read kindLoad [(p.lane, p.va, p.size)] with
      | (.error e, s1) => (.error e, s1)
      | (.ok l, s1) =>
        let p1 := match l.head? with
          | some x => { p with place := x.place, place2 := x.place }
          | none => p
        match s1.replace slot w t with
        | (.ok l', s2) => (.ok (p1 :: l'), s2)
        | x => x

/-- The trap of a replayed instruction that faults again (R381): an asynchronous form that keeps the rest. -/
def State.replayFault (s : State) (slot : Nat) (op : MemOp) (f : SyncFault) (rest : List Replay) : State :=
  s.takeTrap slot
    { cause := f.cause, sync := none, laddr := f.laddr, flags := f.flags, unit := 0, pc := op.pc, gseq := op.gseq, skid := 0
      lanes := op.lanes, w0 := f.w0, w1 := f.w1, index := 0, time := s.time, extra := rest }

/-- Put an operation into a Platen queue in issue order (R145). The queue may then hold more than four: what the spec's limit
does with the handler's own operations it does not say (DESIGN CHOICE, log 39). -/
def insertPlat (o : PlatOp) : List PlatOp → List PlatOp
  | [] => [o]
  | y :: t => if o.id < y.id then o :: y :: t else y :: insertPlat o t

/-- Put an operation among those in flight in issue order. -/
def Warp.insertPend (w : Warp) (o : MemOp) : Warp := { w with pend := insertOp o w.pend }

/-- Re-inject the replay queue in issue order (R378, R381): an instruction that faults again is trapped with the rest. -/
def State.reinject (s : State) (slot : Nat) : List Replay → State
  | [] => s
  | .plat o :: t => (s.modWarp slot fun w => { w with platen := insertPlat o w.platen }).reinject slot t
  | .mem op :: t =>
    match s.warp slot with
    | none => s
    | some w =>
      match op.kind with
      | .stc ri mw base elems =>
        let q0 := ((op.pieces.head?).bind Piece.got).getD 0
        (match s.stcParts slot w mw (stcElements mw base elems q0) with
        | (.error (.fault f), s1) => s1.replayFault slot op f (.mem op :: t)
        | (.error (.moving _), s1) => (s1.modWarp slot fun y => y.insertPend op).reinject slot t
        | (.error (.poison va), s1) => (s1.poisonHit slot op va 0xC2).reinject slot t
        | (.ok parts, s1) => (s1.stcFinish slot op ri elems q0 parts 0).reinject slot t)
      | _ =>
        match s.replace slot w op.pieces with
        | (.error (.fault f), s1) => s1.replayFault slot op f (.mem op :: t)
        | (.error (.poison va), s1) => (s1.poisonHit slot op va 0xC2).reinject slot t
        | (.error (.moving _), s1) => s1.reinject slot t
        | (.ok ps, s1) => (s1.modWarp slot fun y => y.insertPend { op with pieces := ps }).reinject slot t

/-- The handler's lanes that tret's group must hold (R382). -/
def Frame.due (f : Frame) (r : Regs) (jwaiting : Mask) : Mask := f.group &&& r.live &&& ~~~jwaiting

/-- The Platen operations of a replay queue. -/
def Replay.isPlat : Replay → Bool
  | .plat _ => true
  | .mem _ => false

/-- tret in a handler, its group complete (R381). An error that is queued is taken first, the oldest (R373): a trap keeps the
replay queue in the new frame; before a rollback or a kill only the Platen operations run on, the rest being discarded
(R401, R407). -/
def State.leaveHandler (s : State) (sl : Slot) (w : Warp) (r : Regs) (f : Frame) : State :=
  let s1 := (s.finish sl r).modWarp sl.w fun y => y.modSide sl.proof fun x => x.leave f w.waits
  if sl.proof then s1
  else match oldestErr (w.det ++ w.async) with
    | none => s1.reinject sl.w f.replay
    | some e =>
      if w.det.contains e || reliability e.cause then
        (s1.reinject sl.w (f.replay.filter Replay.isPlat)).takeQueued sl.w []
      else s1.takeQueued sl.w f.replay

/-- The boundary of a tret can be taken: no more than 16 instructions would be held by a trap there (R378, R381). -/
def Warp.tretReady (w : Warp) (f : Frame) : Bool := w.boundaryWith f.replay

def execTret (i : PlainI) (s : State) : Out :=
  s.withActive i.g fun s1 sl w r act =>
    match r.frame with
    | none => s1.raiseOr sl act (some (.plain 0x6A)) (s1.finish sl r)
    | some f =>
      if !sl.proof && f.due r w.jwaiting &&& ~~~sl.grp ≠ 0 then s1.raise sl act (.plain 0x6B)
      else if !sl.proof && !w.tretReady f then s1
      else s1.leaveHandler sl w r f

def execErrpPost (i : ErrpPostI) (s : State) : Out :=
  s.withActive i.g fun s1 sl w r act =>
    let s2 := s1.finish sl r
    if sl.proof then s2
    else s2.post (s2.warpErrata sl.w w (0xF0 + r.small i.n) flagSoft 0 0 sl.pc r.gseq.toNat 0 act 0 (r.sget i.w0.val)
      (r.sget i.w1.val))

/-- A scalar that receives an old value, or none. -/
def Regs.putOld (r : Regs) (d : Option (Fin 64)) (x : DWord) : Regs :=
  match d with
  | none => r
  | some k => r.sset k.val x

/-- The checks of a handler address (R384). -/
def vecFault (i : Instr) (x : DWord) : Option SyncFault :=
  if x.toNat % 4 ≠ 0 then some ⟨causeMisalignedTarget, 0, (instrWords i).1, (instrWords i).2, 0⟩
  else if !canonical x then some ⟨causeNonCanonical, x, 0, 0, 0⟩ else none

def execErrpVec (i : ErrpSetI) (s : State) : Out :=
  s.withActive i.g fun s1 sl _ r act =>
    let x := BitVec.ofNat 64 ((⟨r, 0, act, 0⟩ : Rd).dword i.a 0)
    s1.raiseOr sl act (vecFault sl.instr x) (s1.finish sl { r.putOld i.d r.vec with vec := x })

def execErrpMask (i : ErrpSetI) (s : State) : Out :=
  s.withActive i.g fun s1 sl _ r act =>
    let x := (⟨r, 0, act, 0⟩ : Rd).word i.a 0
    s1.finish sl { r.putOld i.d (r.tmask.zeroExtend 64) with tmask := BitVec.ofNat 6 x }

/-! ### Boundaries that the device takes -/

/-- Errors wait for the warp, and its boundary can be taken (R372, R373). -/
def Warp.atBoundary (w : Warp) : Bool := !w.r.inHandler && !w.stopped && w.boundary

/-- The warp takes its oldest queued asynchronous error at a boundary (R372, R373). DESIGN CHOICE (log 46): a warp whose last
lane has exited enters its handler with no lanes, so that it retires with its replay queue discarded (R156). -/
def execTakeTrap (slot : Nat) (s : State) : Out :=
  match s.warp slot with
  | none => .fault .notEnabled
  | some w =>
    match oldestErr (w.det ++ w.async) with
    | none => .fault .notEnabled
    | some e => if w.atBoundary && !w.det.contains e then .next (s.takeQueued slot []) else .fault .notEnabled

/-- The region absorbs the warp's detected errors at a boundary, or they escalate (R401 to R403). -/
def execRegionRollback (slot : Nat) (s : State) : Out :=
  match s.warp slot with
  | none => .fault .notEnabled
  | some w =>
    match oldestErr (w.det ++ w.async) with
    | none => .fault .notEnabled
    | some e =>
      if w.atBoundary && w.det.contains e && (w.platen.isEmpty || w.platHeld) then .next (s.deliverDetected slot)
      else .fault .notEnabled

/-- The levels that were open when the instruction numbered `g` issued (R401). -/
def Warp.depthAt (w : Warp) (g : Nat) : Nat := (w.levels.filter fun l => decide (l.start < g)).length

/-- Causes that are detected for an instruction (R375). -/
def detectable (c : Nat) : Bool := c == 0xC1 || c == 0xC2 || c == 0xC3 || c == 0xC5 || c == 0xC8

/-- The unit that detects a cause for a warp (R387). -/
def detectUnit (c : Nat) : Nat := if c = 0xC3 then 1 else if c = 0xC4 ∨ c = 0xC5 then 2 else 0

/-- The unit that corrected an error: of any protected store (R387, R411). -/
def correctedUnit (k : Nat) : Nat := [0, 2, 5, 6, 7, 8].getD k 0

/-- An error that leaves a record only (R368, R411): a corrected one, or a translation structure error, which drops an entry
of the TLBs, to be walked again. Where no warp stands in the slot named the record names no context (DESIGN CHOICE, log 40). -/
def State.recordOnly (s : State) (slot cause : Nat) : State :=
  let (u, s1) := if cause = 0xC7 then (5, s) else let (k, t) := s.pick 6; (correctedUnit k, t)
  let (k, s2) := if cause = 0xC7 then s1.pick s1.tlb.length else (0, s1)
  let s3 := if cause = 0xC7 then { s2 with tlb := s2.tlb.eraseIdx k } else s2
  let (x, y, s4) := s3.reliabilityWords
  match s4.warp slot with
  | some w => s4.post (s4.warpErrata slot w cause 0 0 u 0 0 0 0 0 x y)
  | none => s4.toManagement (s4.unitErrata cause 0 u 0 0xFFFF 0 0 x y)

/-- The instruction that an error is reported for can still be struck by it: it issued within the skid bound, and no rgn.begin,
rgn.end or rgn.status has waited for its detection since (R375, R391, R393, R395). -/
def Warp.strikes (w : Warp) (gseq : Nat) : Bool :=
  let n := w.r.gseq.toNat
  decide (w.resolved ≤ gseq ∧ gseq < n ∧ n ≤ gseq + Config.skidMax)

/-- An error of the device strikes an instruction X of a warp (R375, R411): it is detected within the skid bound; a
corrected error and a translation structure error leave a record only (R368). A report that matches nothing has no
effect. A checksum mismatch is the Platen's own (R157). -/
def execDetectedError (slot cause pc gseq lanes : Nat) (s : State) : Out :=
  if cause = 0xC0 ∨ cause = 0xC7 then .next (s.recordOnly slot cause)
  else match s.warp slot with
    | none => .next s
    | some w =>
      if detectable cause && w.strikes gseq then
        .next (s.detectFor slot cause (BitVec.ofNat 64 pc) gseq (BitVec.ofNat 32 lanes) 0 (detectUnit cause) (w.depthAt gseq))
      else .next s

/-- A warp of a gang whose delivery at a boundary kills the gang with a cause. -/
def killsWith (cause : Nat) (w : Warp) : Bool :=
  w.atBoundary && (match oldestErr (w.det ++ w.async) with
    | none => false
    | some e =>
      if w.det.contains e then w.det.any fun x => x.cause == cause && w.absorber x.level == 0
      else e.cause == cause && (if reliability e.cause then w.absorber e.level == 0 else w.r.vec == 0))

/-- A gang whose tables hold an uncorrectable error is killed (R410). -/
def State.killTables (s : State) (g : Gang) : State :=
  let (a, b, s1) := s.reliabilityWords
  s1.killGang g.id { s1.unitErrata 0xC6 0 10 (s1.gangCtx g) (s1.rcbIndexOf (s1.gangRcb g)) 0 0 a b with forme := g.chase * 4 }

/-- A gang is killed (R407): at a boundary of a warp, by an error that no region absorbs or by a handler-bound cause where
VEC = 0; or, with cause 0xC6, by an error in the scheduler's own tables (R410). -/
def execGangKill (g cause : Nat) (s : State) : Out :=
  match s.gang g with
  | none => .fault .notEnabled
  | some x =>
    match s.warpList.find? fun y => y.2.gang == g && killsWith cause y.2 with
    | some (slot, _) => .next (s.takeQueued slot [])
    | none =>
      if cause = 0xC6 then .next (s.killTables x) else .fault .notEnabled

end Sys2Proof.Machine
end

