-- ==== Sys2Proof/Machine/Issue.lean ====
section
/-! DEFINITION. The issue opportunity (R273 to R277): fetch (R26 to R30), the checks before issue (R12, R40, R48 to R50,
R260), what stalls an instruction (R18, R93, R144, R208, R239, R274), the choice of one group or of a pair (R92, R276),
and the proof warp's turn (R404, R405). -/

namespace Sys2Proof.Machine

/-! ### Fetch -/

/-- What fetching at a PC gives. A fault carries the first word where one was read: it holds the guard (R33). -/
inductive Fetched where
  | instr (i : Instr) (len : Nat) (w0 w1 : Nat)
  | fault (f : SyncFault) (w0 : Option Nat)
  | poison
  | quad
  deriving DecidableEq, Repr, Inhabited

def causeCrossing : Nat := 0x03
def causeOutOfGrant : Nat := 0x08
def causeStaleLatch : Nat := 0x09
def causeDeferredToken : Nat := 0xA3

/-- Fetch one word: any content that it has had since the warp's LAUNCH packet was parsed (R30). -/
def State.fetchWord (s : State) (slot : Nat) (p : Place) : Nat × State :=
  match p with
  | .scr _ _ _ => (s.readLe p 4, s)
  | .hbm k =>
    let l := s.versions k 4 (((s.warp slot).map Warp.codeSince).getD 0)
    let (i, s1) := s.pick l.length
    (leNat (l.getD i []), s1)

/-- Fetch n further words of an instruction, as one number. -/
def State.fetchMore (s : State) (slot : Nat) (p : Place) : Nat → Nat × State
  | 0 => (0, s)
  | n + 1 =>
    let (x, s1) := s.fetchWord slot p
    let (y, s2) := s1.fetchMore slot (p.add 4) n
    (x + 2 ^ 32 * y, s2)

/-- A decode fault with the words it logs (R387). -/
def decodeFault (cause w0 w1 : Nat) : SyncFault := ⟨cause, 0, BitVec.ofNat 64 w0, BitVec.ofNat 64 w1, 0⟩

/-- Decode the words of an instruction. -/
def fetchedOf (x len : Nat) : Fetched :=
  let w0 := x % 2 ^ 32
  let w1 := bits x 32 32
  match decodeNat x with
  | .ok i => .instr i len w0 w1
  | .error e => .fault (decodeFault e.code w0 w1) (some w0)

/-- Fetch and decode at an address that has been translated (R26 to R28, R48). -/
def State.fetchPlace (s : State) (slot : Nat) (p : Place) (va : Nat) : Fetched × State :=
  if s.poisoned p 4 then (.poison, s)
  else
    let (w0, s1) := s.fetchWord slot p
    if isQuad w0 then (.quad, s1)
    else
      let len := lenWords w0
      let room := 8 - va % 32 / 4
      let more := min (max len 2) room - 1
      if s1.poisoned p (4 * (more + 1)) then (.poison, s1)
      else
        let (y, s2) := s1.fetchMore slot (p.add 4) more
        if room < len then (.fault (decodeFault causeCrossing w0 (y % 2 ^ 32)) (some w0), s2)
        else (fetchedOf (w0 + 2 ^ 32 * y) len, s2)

/-- Fetch at a PC: a failed translation comes before every check (R48). A PC is a multiple of 4 (R29): one that tret took
misaligned from s60 fetches nothing and raises "misaligned target" (DESIGN CHOICE, log 33). -/
def State.fetch (s : State) (slot ctx : Nat) (pc : DWord) : Fetched × State :=
  if pc.toNat % 4 ≠ 0 then (.fault (decodeFault causeMisalignedTarget 0 0) none, s)
  else match s.translate (slotQuadId slot) ctx pc .fetch with
  | (.error .poison, s1) => (.poison, s1)
  | (.error (.cause c e), s1) =>
    (.fault ⟨c, pc, BitVec.ofNat 64 kindFetch, BitVec.ofNat 64 e, flagFetch⟩ none, s1)
  | (.ok p, s1) => s1.fetchPlace slot p.place (pc.toNat % 2 ^ 57)

/-- Fetch past quads, at most n of them at one opportunity (R27). -/
def State.fetchPast (s : State) (slot ctx : Nat) (pc : DWord) : Nat → DWord × Fetched × State
  | 0 => (pc, .quad, s)
  | n + 1 =>
    match s.fetch slot ctx pc with
    | (.quad, s1) => s1.fetchPast slot ctx (pc + 4) n
    | (f, s1) => (pc, f, s1)

/-! ### Groups -/

/-- A group at an opportunity: its PC, its lanes, what it fetched. -/
structure Group where
  pc : DWord
  grp : Mask
  what : Fetched
  deriving DecidableEq, Repr, Inhabited

/-- Put lanes with a PC into a list of groups with rising PCs. -/
def addGroup (g : Group) : List Group → List Group
  | [] => [g]
  | x :: t =>
    if g.pc = x.pc then { x with grp := x.grp ||| g.grp } :: t
    else if g.pc < x.pc then g :: x :: t
    else x :: addGroup g t

/-- The groups of some lanes by PC (R274). -/
def groupsOf (r : Regs) (m : Mask) : List Group :=
  (lanesOf m).foldl (fun acc l => addGroup ⟨r.pcGet l, BitVec.ofNat 32 (2 ^ l), .quad⟩ acc) []

/-- A group's PC moves past quads (R27); its proof warp's lanes will follow. -/
def Warp.stepOver (w : Warp) (grp : Mask) (src dst : DWord) : Warp :=
  { w with
    r := w.r.setPc grp dst
    proof := w.proof.map fun p => { p with strides := p.strides ++ [⟨w.r.gseq.toNat, grp, src, dst⟩] } }

/-- The proof warp steps over the quads that its leader had stepped over when it issued an instruction. -/
def Proof.follow (p : Proof) (gseq : Nat) : Proof :=
  let now := p.strides.filter fun x => decide (x.gseq ≤ gseq)
  { p with
    r := now.foldl (fun r x => r.setPc (maskOf fun l => lane x.lanes l && r.pcGet l == x.src) x.dst) p.r
    strides := p.strides.filter fun x => decide (gseq < x.gseq) }

/-- Fetch for each group; groups that quads bring to one PC become one. -/
def State.fetchGroups (s : State) (slot ctx : Nat) : List Group → List Group × State
  | [] => ([], s)
  | g :: t =>
    let (pc, f, s1) := s.fetchPast slot ctx g.pc 16
    let s2 := if pc = g.pc then s1 else s1.modWarp slot fun w => w.stepOver g.grp g.pc pc
    let (l, s3) := s2.fetchGroups slot ctx t
    (addGroup ⟨pc, g.grp, f⟩ l, s3)

/-! ### Stalls -/

/-- The registers that an operation in flight will write. -/
def OpKind.dest : OpKind → Use
  | .load d w | .kload d w => dstUse (mwWords w) d
  | .atom op (some d) => dstUse (aopSize op / 4) d
  | .cas w64 d => writeV d.val (if w64 then 2 else 1)
  | .catom _ pd => writePd pd
  | .jload j => { jw := [j.val] }
  | .stc ri _ _ _ => (ri.map fun d => writeV d.val 1).getD {}
  | .store | .atom _ none | .arrive _ _ | .signal | .fence => {}

/-- The registers that a multi-clock result will write. -/
def Result.dest (x : Result) : Use :=
  { vw := x.vw.map fun y => y.1 / 32, sw := x.sw.map Prod.fst, pw := x.pd.toList.map Fin.val }

/-- The registers that a queued Platen operation will write: words of acc.rd, tokens (R145, R160). -/
def PlatOp.dest (o : PlatOp) : Use :=
  match o.instr with
  | .mma i => writeSo i.tk
  | .mmaRes i => writeSo i.m.tk
  | .accLd i => writeSo i.tk
  | .accRd i => writeV i.d.val (2 ^ i.nr.val)
  | _ => {}

/-- Feeder commands of a warp that have not ended (R239). -/
def State.warpCmds (s : State) (slot : Nat) (w : Warp) : List Cmd :=
  s.cmds.filter fun c => c.owner == .warp slot w.gang && !c.killed

/-- A Feeder command among the deferred work of a region (R259). -/
def Deferred.isFeed : Deferred → Bool
  | .feed _ => true
  | .mem _ => false

/-- Feeder commands issued and not ended (R239): those held for the proof warp and those deferred in a region included. -/
def State.feederInFlight (s : State) (slot : Nat) (w : Warp) : Nat :=
  (s.warpCmds slot w).length + (w.levels.map fun lv => (lv.deferred.filter Deferred.isFeed).length).sum +
    (match w.proof with
      | none => 0
      | some p => (p.lag.filterMap Lag.cmd).length)

/-- Registers with a result pending for an instruction of the leading warp (R93); words and tokens of Platen operations that a
handler's end will send again are pending in the handler too (R145, R160). -/
def State.pending (s : State) (slot : Nat) (w : Warp) : Use :=
  Use.all (((w.results.filter fun x => !x.proof).map Result.dest) ++ (w.pend.map fun o => o.kind.dest) ++
    ((w.platen ++ w.r.replayPlat).map PlatOp.dest) ++ [{ sw := w.heldTok.map Fin.val }] ++
    (((s.warpCmds slot w).filter fun c => !c.ended).map fun c => writeSo c.tok) ++
    (match w.proof with
      | none => []
      | some p => p.lag.filterMap fun e => e.cmd.map fun c => writeSo c.tok))

/-- Two lists share a number. -/
def meets (a b : List Nat) : Bool := a.any fun x => b.contains x

/-- An instruction reads or writes a register with a result pending. -/
def Use.blockedBy (u busy : Use) : Bool :=
  meets (u.vr ++ u.vw) busy.vw || meets (u.sr ++ u.sw) busy.sw || meets (u.pr ++ u.pw) busy.pw ||
    meets (u.jr ++ u.jw) busy.jw

/-- Instructions of the memory majors, fences and waits (R45, R208). -/
def isMemoryInstr : Instr → Bool
  | .ld _ | .st _ | .lds _ | .sts _ | .ldgs _ | .stgs _ | .ldk _ | .ldl _ | .stl _ | .pref _ | .atom _ | .red _ | .atoms _
  | .reds _ | .cas _ | .cass _ | .catom _ | .stc _ | .jsave _ | .jload _ | .fence _ | .barInit _ | .barArrive _ | .barWait _
  | .barTest _ | .waitc _ | .signal _ | .waitsb _ | .pause _ | .bankcfg _ | .fifoPush _ | .fifoPop _ => true
  | _ => false

def isPlatenInstr : Instr → Bool
  | .mma _ | .mmaRes _ | .accZero _ | .accRd _ | .accWr _ | .accLd _ | .accSt _ => true
  | _ => false

def isFeederInstr : Instr → Bool
  | .cpy _ | .cpyRed _ | .cpySig _ | .impStart _ => true
  | _ => false

/-- Instructions of the control majors (R45). -/
def isControlInstr : Instr → Bool
  | .bra _ | .brx _ | .call _ | .callx _ | .ret _ | .exit _ | .jopen _ | .jenter _ | .jquit _ | .jwait _ | .jfree _
  | .rgnBegin _ | .rgnKeep _ | .rgnEnd _ | .rgnAbort _ | .rgnStatus _ | .errpPost _ | .errpVec _ | .errpMask _ | .csrr _
  | .csrw _ | .trap _ | .tret _ | .migr _ | .migrHome _ | .nop _ | .tlbiVa _ | .tlbiCtx _ | .tlbiAll _ | .ctxopRoot _
  | .ctxopDrain _ => true
  | _ => false

/-- The scoreboard counter that an instruction names (R18). -/
def counterOf : Instr → Option Nat
  | .st i | .sts i | .stgs i | .stl i => if i.x.sbc.val = 0 then none else some (i.x.sbc.val - 1)
  | .red i | .reds i => if i.x.sbc.val = 0 then none else some (i.x.sbc.val - 1)
  | .catom i => if i.x.sbc.val = 0 then none else some (i.x.sbc.val - 1)
  | .stc i => if i.x.sbc.val = 0 then none else some (i.x.sbc.val - 1)
  | .barArrive i => if i.sbc.val = 0 then none else some (i.sbc.val - 1)
  | .signal i => if i.sbc.val = 0 then none else some (i.sbc.val - 1)
  | .accSt i => some i.sb.val
  | _ => none

/-- A wait on an object reads it at once: what the warp ordered before it, and its own atomics, come first (R187,
R190). -/
def readsNow : Instr → Bool
  | .barWait _ | .barTest _ | .waitc _ | .fifoPush _ | .fifoPop _ => true
  | _ => false

/-- An operation that holds such a read. -/
def MemOp.holdsReads (o : MemOp) : Bool := o.kind == .fence || o.acquires || (!o.kind.isLoad && !o.kind.isStore)

/-- Region instructions wait for every pending detection (R391, R393, R395): for all that may still detect an error. -/
def regionQuiet (w : Warp) : Bool :=
  (w.pend.all fun o => o.kind.isStore || o.kind == .fence) && w.platen.isEmpty && w.results.isEmpty && (match w.proof with
    | none => true
    | some p => p.lag.isEmpty)

/-- Windows that an instruction names (R36). -/
def usesWindow (i : Instr) : Bool :=
  match i.toRaw with
  | none => false
  | some x => x.a == 0x1C1 || x.b == 0x1C1 || x.c == 0x1C1

/-- Instructions that make requests of banks of scratch (R178, R179). -/
def usesBanks : Instr → Bool
  | .lds _ | .sts _ | .ldgs _ | .stgs _ | .atoms _ | .reds _ | .cass _ | .bankcfg _ | .fifoPush _ | .fifoPop _ => true
  | .barInit i => i.scratch
  | .barArrive i => i.scratch
  | .barWait i => i.scratch
  | .barTest i => i.scratch
  | _ => false

/-- Platen instructions with a layout record, which is read at issue after every earlier access (R151, R169). -/
def readsRecord : Instr → Bool
  | .mma _ | .mmaRes _ | .accLd _ | .accSt _ => true
  | _ => false

/-- A fence at .device or wider that has not settled: what is read through the constant cache comes after it (R20). -/
def Warp.deviceFence (w : Warp) : Bool := w.pend.any fun o => o.kind == .fence && decide (4 ≤ scopeRank o.scope)

/-- A switch of banks drains: the warp's own requests of banks come after it (R179). -/
def Warp.draining (w : Warp) : Bool := w.waits.any fun x => match x.kind with
  | .drain _ _ => true
  | _ => false

/-- A store or atomic of the warp waits for its page (R208, R344). -/
def Warp.walking (w : Warp) : Bool := w.waits.any fun x => match x.kind with
  | .walk _ _ => true
  | _ => false

/-- What holds an instruction with an active lane at issue, apart from the registers (R274). -/
def State.activeStall (s : State) (slot : Nat) (w : Warp) (i : Instr) : Bool :=
  (isFeederInstr i && (w.deviceFence || decide (Config.feederInFlight ≤ s.feederInFlight slot w))) ||
  ((counterOf i).any fun n => decide (63 ≤ w.sbCount n)) ||
  (readsNow i && w.inFlight.any MemOp.holdsReads) ||
  (w.deviceFence && usesWindow i) ||
  (readsRecord i && !(w.inFlight.isEmpty && w.platen.all fun o => !o.storing)) ||
  (w.draining && (usesBanks i || readsRecord i)) ||
  (match i with
    | .rgnBegin _ | .rgnEnd _ => !regionQuiet w
    | .rgnStatus _ => !w.levels.isEmpty && !regionQuiet w
    | .tret _ => w.r.frame.any fun f => !w.tretReady f
    | .tlbiVa _ | .tlbiCtx _ | .tlbiAll _ | .ctxopRoot _ | .ctxopDrain _ => !s.releaseReady slot w s.opSeq 4
    | _ => false)

/-- The virtual channel of a warp's traffic. -/
def State.vcOf (s : State) (w : Warp) : Nat := if s.warpClass w = 0 then 0 else 1

/-- A channel has room in its replay window. -/
def Channel.room (c : Channel) : Bool := decide (c.window.length < Config.fabricWindow)

/-- A part of a warp's that could enter its fabric channel finds the replay window full: the warp waits (R331). -/
def State.windowFull (s : State) (slot : Nat) (w : Warp) : Bool :=
  w.pend.any fun o => o.pieces.zipIdx.any fun x => needsFabric slot o.kind x.1 && !x.1.sent &&
    (x.1.place.sheet?.any fun d => !(s.chans.get (chanKey (slotSheet slot) d (s.vcOf w))).room) && s.partReady slot w o x.2 x.1

/-- An instruction that must wait at issue, apart from the registers (R274); with no active lane it waits for nothing of its
own (R34). -/
def State.unitStall (s : State) (slot : Nat) (w : Warp) (i : Instr) (act : Mask) : Bool :=
  s.windowFull slot w || (w.walking && (isMemoryInstr i || isPlatenInstr i || isFeederInstr i || isControlInstr i)) ||
  (isPlatenInstr i && decide (Config.platenQueue ≤ w.platen.length)) ||
  (act != 0 && s.activeStall slot w i)

/-! ### Checks before issue -/

/-- Registers out of grant (R12): vector registers and tiles named. -/
def Use.outOfGrant (u : Use) (vg tg : Nat) : Bool :=
  ((u.vr ++ u.vw).any fun k => decide (vg ≤ k)) || ((u.tr ++ u.tw).any fun k => decide (tg ≤ k))

/-- A latch named that a group finds invalid (R40, R43). -/
def staleLatch (r : Regs) (grp : Mask) (u : Use) : Bool :=
  u.latch.any fun k => !((r.forGroup grp).lvalid.getLsbD k)

/-- Tokens of commands deferred in the open region (R260). -/
def Deferred.token : Deferred → Option (Fin 64)
  | .mem _ => none
  | .feed c => c.tok

def Warp.deferredTokens (w : Warp) : List Nat :=
  w.levels.flatMap fun lv => lv.deferred.filterMap fun d => d.token.map Fin.val

/-- The guard that the first word of an instruction holds (R31). -/
def wordGuard (w0 : Nat) : Guard := ⟨Fin.ofNat 8 (bits w0 10 3), bits w0 13 1 == 1⟩

/-- What becomes of a group at an opportunity. -/
inductive Verdict where
  | stall
  | poison
  | fault (f : SyncFault) (act : Mask)
  | issue (i : Instr) (len : Nat)
  deriving DecidableEq, Repr, Inhabited

/-- The checks of R48 from the tenth on, R260's, and the stalls. -/
def State.verdict (s : State) (slot : Nat) (w : Warp) (busy : Use) (g : Group) : Verdict :=
  match g.what with
  | .quad => .stall
  | .poison => .poison
  | .fault f w0 => .fault f (match w0 with
    | some x => active w.r g.grp (wordGuard x)
    | none => g.grp)
  | .instr i len w0 w1 =>
    let u := useOf i
    let act := active w.r g.grp (wordGuard w0)
    if u.outOfGrant w.vgrant w.tgrant then .fault (decodeFault causeOutOfGrant w0 w1) act
    else if staleLatch w.r g.grp u then .fault (decodeFault causeStaleLatch w0 w1) act
    else if u.blockedBy busy || s.unitStall slot w i act then .stall
    else if act != 0 && meets (u.sr ++ u.sw) w.deferredTokens then .fault (.plain causeDeferredToken) act
    else .issue i len

/-! ### Pairs (R50, R91, R92, R122) -/

def Dst.isUniform : Dst → Bool
  | .s _ => true
  | _ => false

def Ty.narrow (t : Ty) : Bool := t.width != 64

def CT.narrow : CT → Bool
  | .i64 | .n64 | .f64 => false
  | _ => true

/-- Instructions of a class marked eligible. pfn has no TY, so no width, and the table of R91 does not name it as it names movp:
that it is eligible and takes one clock is the model's reading (DESIGN CHOICE, log 37). -/
def dualEligible : Instr → Bool
  | .add i | .sub i | .mul i => Ty.narrow i.m.ty && !Dst.isUniform i.d
  | .mad i | .add3 i => Ty.narrow i.m.ty && !Dst.isUniform i.d
  | .abs i | .neg i => Ty.narrow i.m.ty && !Dst.isUniform i.d
  | .addc i | .subb i => Ty.narrow i.ty && !Dst.isUniform i.d
  | .mulhi i | .mulwd i | .min i | .max i | .and i | .or i | .xor i | .andn i | .shl i | .shr i | .shrA i | .rot i
  | .bfx i => Ty.narrow i.m && !Dst.isUniform i.d
  | .madhi i | .sad i | .clamp i | .bfi i => Ty.narrow i.m && !Dst.isUniform i.d
  | .not i | .brev i | .mov i | .popc i | .clz i | .ctz i => Ty.narrow i.m && !Dst.isUniform i.d
  | .shf i => Ty.narrow i.m.ty && !Dst.isUniform i.d
  | .bfn i => !Dst.isUniform i.d
  | .bsel i => !Dst.isUniform i.d
  | .lea i => !Dst.isUniform i.d
  | .idot4 i | .idot2 i | .tacc i => !Dst.isUniform i.d
  | .setp i => Ty.narrow i.ty
  | .sel i => Ty.narrow i.ty && !Dst.isUniform i.d
  | .pfn _ | .movpTo _ | .fsetp _ | .fclass _ => true
  | .movp i => !Dst.isUniform i.d
  | .fadd _ | .fsub _ | .fmul _ | .fma _ | .fdot2 _ | .fscale _ | .fmin _ | .fmax _ | .fclamp _ | .frnd _ | .fexpo _
  | .fmant _ | .faddE _ | .fmulE _ | .cvtN _ | .cvtSr _ | .pack _ | .unpack _ => true
  | .cvt i => CT.narrow i.m.dt && CT.narrow i.m.st
  | _ => false

/-- An instruction that names a latch, as a source or as the destination b0. -/
def namesLatch (i : Instr) : Bool :=
  !(useOf i).latch.isEmpty || (match i.toRaw with
    | some x => x.d == 0x140
    | none => false)

/-- No translation that an access may take faults (R342). -/
def State.transSafe (s : State) (u ctx : Nat) (va : DWord) (n : Need) : Bool :=
  canonical va && (s.transOptions u ctx va n).all fun x => match x with
    | .ok _ | .error .poison => true
    | .error _ => false

/-- The window operand of an instruction cannot meet a fault, whichever translation its read takes: a pair is formed only then,
so that no member of a pair faults (R50). -/
def State.windowOk (s : State) (slot : Nat) (w : Warp) (i : Instr) (act : Mask) : Bool :=
  match i.toRaw with
  | none => true
  | some x =>
    if act = 0 || !(usesWindow i) then true
    else
      let n := match i with
        | .lea _ => 2
        | _ => 1
      let (base, len) := w.windows.getD (bits x.ext 17 3) (0, 0)
      let off := bits x.ext 0 17
      decide (4 * off + 4 * n ≤ len) && (List.range n).all fun k => s.transSafe (slotQuadId slot) w.ctx (vaAdd base (4 * off + 4 * k)) .read

/-- A member of a pair. -/
def State.pairable (s : State) (slot : Nat) (w : Warp) (i : Instr) (grp : Mask) : Bool :=
  dualEligible i && !namesLatch i && s.windowOk slot w i (match i.toRaw with
    | some x => active w.r grp (wordGuard x.toNat)
    | none => grp)

/-- Both members take effect in one clock: a movp that reads a predicate its fellow writes runs first. -/
def movesFirst (a b : Instr) : Bool :=
  match b with
  | .movp y => (useOf a).pw.contains y.pa.val
  | _ => false

/-! ### The choice (R276) -/

def Regs.age (r : Regs) (m : Mask) : Nat := (lanesOf m).foldl (fun a l => max a (r.ages.get l)) 0

/-- The first group: the oldest of those aged 32 or more, else the lowest PC. The groups stand in the order of their
PCs. -/
def chooseFirst (r : Regs) (l : List (Group × Verdict)) : Option (Group × Verdict) :=
  let aged := l.filter fun x => decide (32 ≤ r.age x.1.grp)
  match aged with
  | [] => l.head?
  | a :: t => some (t.foldl (fun best x => if r.age best.1.grp < r.age x.1.grp then x else best) a)

/-- Lane ages after an opportunity. -/
def Regs.aged (r : Regs) (runnable issued : Mask) : Regs :=
  { r with ages := r.live |> lanesOf |>.foldl (fun acc l =>
      acc.set l (if lane issued l || !lane runnable l then 0 else r.ages.get l + 1)) r.ages }

/-- A pair to issue with the first group, if R92 and R50 allow one. -/
def State.secondOf (s : State) (slot : Nat) (w : Warp) (l : List (Group × Verdict)) (g : Group) (i : Instr) :
    Option (Group × Instr × Nat) :=
  match (l.filter fun x => x.1.pc != g.pc).head? with
  | some (h, .issue j len) =>
    if s.pairable slot w i g.grp && s.pairable slot w j h.grp then some (h, j, len) else none
  | _ => none

/-- The instructions of an opportunity in the order in which they take effect. -/
def State.setIssue (s : State) (slot : Nat) (w : Warp) (l : List (Group × Verdict)) (g : Group) (i : Instr) (len : Nat) :
    State :=
  let runnable := l.foldl (fun m x => m ||| x.1.grp) (0 : Mask)
  let a : Slot := ⟨slot, false, g.grp, g.pc, len, i⟩
  match s.secondOf slot w l g i with
  | some (h, j, len') =>
    let b : Slot := ⟨slot, false, h.grp, h.pc, len', j⟩
    { s.modWarp slot fun y => { y with r := y.r.aged runnable (g.grp ||| h.grp) } with
      issue := if movesFirst i j then [b, a] else [a, b] }
  | none => { s.modWarp slot fun y => { y with r := y.r.aged runnable g.grp } with issue := [a] }

/-- A warp is offered issue: none when it has no runnable lane. -/
def State.offerGroups (s : State) (slot : Nat) (w : Warp) : Option State × State :=
  let (gs, s1) := s.fetchGroups slot w.ctx (groupsOf w.r (w.r.live &&& ~~~w.waiting))
  match s1.warp slot with
  | none => (none, s1)
  | some w1 =>
    let busy := s1.pending slot w1
    let l := (gs.map fun g => (g, s1.verdict slot w1 busy g)).filter fun x => x.2 != .stall
    let runnable := l.foldl (fun m x => m ||| x.1.grp) (0 : Mask)
    match chooseFirst w1.r l with
    | none => (none, s1)
    | some (g, .fault f act) =>
      let s2 := s1.modWarp slot fun y => { y with r := y.r.aged runnable g.grp }
      (some (s2.raise ⟨slot, false, g.grp, g.pc, 0, .nop ⟨⟨0, false⟩⟩⟩ act f), s1)
    | some (g, .poison) => (some (s1.detectFor slot 0xC2 g.pc w1.r.gseq.toNat g.grp g.pc 0 w1.levels.length), s1)
    | some (g, .issue i len) => (some (s1.setIssue slot w1 l g i len), s1)
    | some (_, .stall) => (none, s1)

/-- A reliability error that a handler keeps waiting must not be passed by more than the skid bound (R403); one whose
instruction could not issue is never passed. -/
def Warp.overdue (w : Warp) : Option AsyncErr :=
  if w.r.inHandler then
    (w.det ++ w.async).find? fun e => reliability e.cause && (decide (Config.skidMax ≤ w.skid e) || decide (w.r.gseq.toNat ≤ e.gseq))
  else none

/-- A resident warp that may not issue now: its gang is stopped; errors wait for its boundary; an stc awaits its queue
pointer; operations are too far behind for the skid bound; its proof warp is (R307, R371, R373, R375, R404, R405). -/
def State.barred (s : State) (w : Warp) : Bool :=
  let n := w.r.gseq.toNat
  w.stopped || !((s.gang w.gang).any fun g => g.phase == .running || g.phase == .stopping) ||
  (!w.r.inHandler && !(w.async.isEmpty && w.det.isEmpty)) ||
  (w.pend.any fun o => o.isStc || decide (o.gseq + Config.skidMax ≤ n)) ||
  (w.platen.any fun o => decide (o.gseq + Config.skidMax ≤ n)) ||
  (match w.proof with
    | none => false
    | some p => decide (256 ≤ p.lag.length) ||
        decide (64 ≤ p.values.length + (w.pend.filter fun o => o.kind.returns).length))

/-- The leading warp of a slot is offered issue. -/
def State.offerLeader (s : State) (slot : Nat) : Option State × State :=
  match s.warp slot with
  | none => (none, s)
  | some w =>
    match w.overdue with
    | some e => (some (s.killGang w.gang (s.asyncErrata slot w e flagUndelivered 0)), s)
    | none => if s.barred w then (none, s) else s.offerGroups slot w

/-! ### The proof warp's turn (R404, R405) -/

/-- A wait of the leader that ends when the proof warp has issued the instruction: a comparison's, or an rgn.end's. -/
def Lag.ends (e : Lag) (x : Wait) : Bool :=
  e.op.isSome || (match x.kind with
    | .proofEnd _ => true
    | _ => false)

/-- Operations that the proof warp has compared and whose values it has not been given. -/
def Warp.owed (w : Warp) (e : Lag) : List MemOp := w.pend.filter fun o => o.kind.compared && o.kind.returns && decide (o.gseq < e.gseq)

/-- Whether the leader has what its proof warp's next instruction takes, and the proof warp's own results allow it. -/
def proofReady (w : Warp) (e : Lag) : Bool :=
  (w.waits.all fun x => x.isJ || x.gseq != e.gseq || e.ends x || x.len == 0) &&
  (w.pend.all fun o => o.gseq != e.gseq || !o.kind.returns) &&
  (w.platen.all fun o => o.gseq != e.gseq || (match o.instr with
    | .accRd _ => false
    | _ => true)) &&
  ((w.owed e).all fun o => !o.isStc) &&
  !((useOf e.instr).blockedBy (.all (((w.results.filter Result.proof).map Result.dest) ++ (w.owed e).map fun o => o.kind.dest)))

/-- The proof warp takes its leader's trap. -/
def State.proofTrap (s : State) (slot : Nat) (e : Lag) : State :=
  let c := (e.compared).getD ⟨0, 0, [], []⟩
  let t : TrapInfo :=
    { cause := (c.words.getD 1 0).toNat
      sync := if e.arrive then some ((c.words.getD 2 0).extractLsb' 0 32, c.lanes, c.pc) else none
      laddr := c.words.getD 0 0, flags := 0, unit := 1, pc := 0, gseq := e.gseq, skid := 0, lanes := 0, w0 := 0, w1 := 0
      index := 0, time := s.time, extra := [] }
  s.modWarp slot fun w => { w with proof := w.proof.map fun p =>
    { p with r := { p.r with vec := e.pc }.enter e.lanes t s.time [], lag := p.lag.drop 1 } }

/-- The proof warp's own group for its leader's instruction (R405, R406): the lanes of the leader's group whose own PC is that of
the lowest of them. Where its lanes have strayed, the next comparison finds other lanes or another PC. -/
def Warp.proofSlot (w : Warp) (slot : Nat) (e : Lag) (i : Instr) : Slot :=
  match w.proof, lowest e.lanes with
  | some p, some l =>
    let pc := p.r.pcGet l
    ⟨slot, true, maskOf fun k => lane e.lanes k && p.r.pcGet k == pc, pc, e.len, i⟩
  | _, _ => ⟨slot, true, e.lanes, e.pc, e.len, i⟩

/-- The proof warp ages its lanes at its own opportunities (R276, R404): all but those that issue are runnable, unless their
leader's wait. -/
def Warp.ageProof (w : Warp) (issued : Mask) : Warp :=
  { w with proof := w.proof.map fun p => { p with r := p.r.aged (p.r.live &&& ~~~w.waiting) issued } }

/-- The proof warp of a slot is offered issue: it issues what its leader has issued, in that order. -/
def State.offerProof (s : State) (slot : Nat) : Option State × State :=
  match s.warp slot with
  | none => (none, s)
  | some w0 =>
    match w0.proof.bind fun p => p.lag.head? with
    | none => (none, s)
    | some e =>
      let w := { w0 with proof := w0.proof.map fun p => p.follow e.gseq }
      if w.stopped || !((s.gang w.gang).any fun g => g.phase == .running || g.phase == .stopping) || !proofReady w e then
        (none, s)
      else match e.instr with
        | .takeTrap _ => (some ((s.setWarp slot w).proofTrap slot e), s)
        | i => (some ({ s with issue := [w.proofSlot slot e i] }.setWarp slot (w.ageProof (w.proofSlot slot e i).grp)), s)

/-- Candidate k of a quadrant: the leading warps of its 17 slots, then their proof warps. -/
def State.offer (s : State) (q k : Nat) : Option State × State :=
  if k < 17 then s.offerLeader (q * 17 + k) else s.offerProof (q * 17 + (k - 17))

/-- Round robin over the slots (R275, R404). -/
def State.offerFrom (s : State) (q : Nat) : List Nat → State
  | [] => s
  | k :: t =>
    match s.offer q k with
    | (some s1, _) => { s1 with rrSlot := s1.rrSlot.set q k }
    | (none, s1) => s1.offerFrom q t

/-- The quadrant offers issue to one resident warp (R275, R276): what it chooses stands in `issue`, and `step` runs it. -/
def execIssueOpportunity (q : Nat) (s : State) : Out :=
  if Config.formes * Config.quadsPerForme ≤ q then .fault .notEnabled
  else
    let first := s.rrSlot.get q + 1
    let s1 := s.settleQuad q
    .next ({ s1 with issue := [] }.offerFrom q ((List.range 34).map fun i => (first + i) % 34))

/-! ### Around an issued instruction: unreadable registers (R411) and pairs (R43) -/

/-- A register with an uncorrectable error that an instruction reads in an active lane. -/
def Warp.readsBad (w : Warp) (u : Use) (act : Mask) : Bool :=
  (w.badV.any fun x => u.vr.contains (x / 32) && lane act (x % 32)) || meets w.badS u.sr || meets w.badP u.pr ||
    meets w.badJ u.jr || w.r.badL.any fun x => u.latch.contains (x / 32) && lane act (x % 32)

/-- What an instruction overwrites whole loses its error. -/
def Warp.clearBad (w : Warp) (u : Use) (act : Mask) : Warp :=
  if w.badV.isEmpty && w.badS.isEmpty && w.badP.isEmpty && w.badJ.isEmpty then w
  else if act = 0 then w
  else
    { w with
      badV := w.badV.filter fun x => !(u.vw.contains (x / 32) && lane act (x % 32))
      badS := w.badS.filter fun x => !u.sw.contains x
      badP := w.badP.filter fun x => !(u.pw.contains x && act == BitVec.allOnes 32)
      badJ := w.badJ.filter fun x => !(u.jw.contains x && !u.jr.contains x) }

/-- After an instruction of a leading warp has issued: 0xC1 for the registers it could not read. -/
def State.afterIssue (s : State) (sl : Slot) (before : Warp) : State :=
  let u := useOf sl.instr
  let act := match sl.instr.toRaw with
    | some x => active before.r sl.grp (wordGuard x.toNat)
    | none => sl.grp
  match s.warp sl.w with
  | none => s
  | some w =>
    if sl.proof || w.r.gseq = before.r.gseq then s
    else
      let s1 := s.modWarp sl.w fun y => y.clearBad u act
      if before.readsBad u act then
        s1.detectFor sl.w 0xC1 sl.pc before.r.gseq.toNat act 0 0 before.levels.length
      else s1

/-- After a pair every latch is invalid and the recorded mask is empty (R43). -/
def State.afterPair (s : State) (slot : Nat) : State :=
  s.modWarp slot fun w => { w with r := { w.r.dropLatches with lmask := 0 } }

end Sys2Proof.Machine
end

