-- ==== Sys2Proof/Machine/Migrate.lean ====
section
/-! DEFINITION. Migration of warps (R202, R285, R308 to R312) and the fabric queues between sheets (R331, R332). -/

namespace Sys2Proof.Machine

/-! ### migr, migr.home (R308, R309) -/

def causeMigrateState : Nat := 0x64

/-- "migrate state" (R308). -/
def Warp.cannotMigrate (w : Warp) : Bool :=
  decide (0 < w.tgrant) || w.proof.isSome || !w.arrivals.isEmpty ||
    w.pend.any fun o => match o.kind with
      | .arrive _ _ => o.pieces.any fun p => !p.done && p.place.sheet?.isNone
      | _ => false

/-- Waits that a migration keeps: those at a jwait, and those of instructions that have issued and not completed. -/
def Wait.travels (x : Wait) : Bool :=
  match x.kind with
  | .jwait _ | .drain _ _ | .ops _ => true
  | _ => false

/-- Every live lane is held (R309): the issuing group behind the migr after its arrival, the others where they are. -/
def Warp.holdAll (w : Warp) (grp : Mask) (gseq t : Nat) : Warp :=
  { w with waits := (w.waits.filter Wait.travels) ++
      [⟨grp, .migrating t none, 2, gseq⟩, ⟨w.r.live &&& ~~~w.jwaiting &&& ~~~grp, .migrating t none, 0, gseq⟩] }

/-- A migration to sheet t begins. -/
def State.beginMigration (s : State) (sl : Slot) (r : Regs) (t : Nat) : State :=
  (s.finish sl r).modWarp sl.w fun w => { w with r := w.r.setPc sl.grp sl.pc }.holdAll sl.grp r.gseq.toNat t

/-- The checks that migr and migr.home share, in their order. -/
def State.migrateChecks (s : State) (sl : Slot) (w : Warp) (r : Regs) (act : Mask) (k : State) : State :=
  if sl.proof then s.finish sl r
  else if !w.levels.isEmpty then s.raise sl act (.plain causeForbidden)
  else if w.cannotMigrate then s.raise sl act (.plain causeMigrateState)
  else k

def execMigr (i : MigrI) (s : State) : Out :=
  s.withActive i.g fun s1 sl w r act =>
    s1.migrateChecks sl w r act
      (let va := r.sget i.a.val
      match s1.translate (slotQuadId sl.w) w.ctx va .valid with
      | (.error .poison, s2) => s2.stopAccess sl w r act (.poison va)
      | (.error (.cause c e), s2) =>
        s2.raise sl act ⟨c, va, BitVec.ofNat 64 kindLoad, BitVec.ofNat 64 e, 0⟩
      | (.ok p, s2) => s2.beginMigration sl r p.sheet)

def execMigrHome (i : PlainI) (s : State) : Out :=
  s.withActive i.g fun s1 sl w r act => s1.migrateChecks sl w r act (s1.beginMigration sl r (slotSheet w.home))

/-! ### The fabric (R331, R332) -/

/-- What a warp may send to a sheet now: parts that are ready and have not been sent. -/
def State.toSend (s : State) (slot : Nat) (w : Warp) (dst : Nat) : List (Nat × Nat × Nat) :=
  w.pend.flatMap fun o => o.pieces.zipIdx.filterMap fun p =>
    if needsFabric slot o.kind p.1 && !p.1.sent && p.1.place.sheet? == some dst && s.partReady slot w o p.2 p.1 then
      some (slot, o.id, p.2) else none

/-- Put an entry into a channel's window. -/
def Channel.push (c : Channel) (f : Freight) : Channel :=
  { c with window := c.window ++ [(c.nextSeq, f)], nextSeq := c.nextSeq + 1 }

/-- Number some parts and put them into their channel, as far as its window has room. -/
def State.pushParts (s : State) (key : Nat) : List (Nat × Nat × Nat) → State
  | [] => s
  | (slot, op, k) :: t =>
    if (s.chans.get key).room then
      ({ s with chans := s.chans.modify key fun c => c.push (.piece slot op k) }.setPart slot op k fun p =>
        { p with sent := true }).pushParts key t
    else s

/-- What the warps of a sheet have to send on a channel enters its window. -/
def State.pump (s : State) (src dst vc : Nat) : State :=
  s.pushParts (chanKey src dst vc) ((s.warpList.filter fun x => slotSheet x.1 == src && s.vcOf x.2 == vc).flatMap fun x =>
    s.toSend x.1 x.2 dst)

/-- The departure number of a migrating warp. -/
def Warp.departure (w : Warp) : Option Nat :=
  w.waits.findSome? fun x => match x.kind with
    | .migrating _ d => d
    | _ => none

/-- An entry still stands for something: the part waits to be performed on that sheet, or the warp's departure has not
been cancelled. -/
def State.stands (s : State) (dst : Nat) (f : Freight) : Bool :=
  match f with
  | .piece slot op k => (s.partOf slot op k).any fun x => !x.2.2.done && x.2.2.place.sheet? == some dst
  | .warp slot d => ((s.warp slot).bind Warp.departure) == some d
  | .post id => s.posts.any fun x => x.id == id

/-- The landing slots of a sheet (R285). -/
def landingSlots (t : Nat) : List Nat :=
  (List.range (Config.formesPerSheet * Config.quadsPerForme)).map fun k =>
    (t * (Config.formesPerSheet * Config.quadsPerForme) + k) * 17 + Config.landingSlot

/-- A slot in which no warp stands. -/
def State.empty (s : State) (slot : Nat) : Bool := (s.warp slot).isNone

/-- Whether an entry is a warp that needs a landing slot. -/
def State.needsLanding (s : State) (dst : Nat) (f : Freight) : Option Nat :=
  match f with
  | .piece _ _ _ | .post _ => none
  | .warp slot d => if (s.warp slot).any fun w => slotSheet w.home != dst then some d else none

/-- The channels toward a sheet. -/
def channelsInto (dst : Nat) : List Nat := (List.range 4).flatMap fun src => [chanKey src dst 0, chanKey src dst 1]

/-- A landing slot is left for a departure: the receiver holds no more warps than there are free slots, and no older
departure waits for one (R285). -/
def State.landingRoom (s : State) (dst d : Nat) : Bool :=
  let held := ((channelsInto dst).flatMap fun k => (s.chans.get k).queue.filterMap fun e => s.needsLanding dst e.2).length
  let older := (channelsInto dst).any fun k => (s.chans.get k).window.any fun e =>
    s.stands dst e.2 && ((s.needsLanding dst e.2).any fun x => decide (x < d))
  decide (held < ((landingSlots dst).filter s.empty).length) && !older

/-- A receiving queue has an entry free for a virtual channel (R331, R332): of its 256 entries VC1 takes at most 224, and of
those no entry that VC0 could be in need of, so that class-0 traffic finds its 32 reserved entries whatever VC1 holds. -/
def State.entryFree (s : State) (src dst vc : Nat) : Bool :=
  let n (v : Nat) : Nat := (s.chans.get (chanKey src dst v)).queue.length
  decide (n 0 + n 1 < Config.fabricEntries) &&
    (vc == 0 || decide (n 1 + max (n 0) Config.fabricReserved < Config.fabricEntries))

/-- Whether the receiver takes an entry. -/
def State.takes (s : State) (src dst vc : Nat) (f : Freight) : Bool :=
  s.entryFree src dst vc && (match s.needsLanding dst f with
    | none => true
    | some d => s.landingRoom dst d)

/-- An entry has been acknowledged; one that still stands joins the receiving queue. -/
def Channel.accept (c : Channel) (e : Nat × Freight) (keep : Bool) : Channel :=
  { c with
    window := c.window.filter fun x => x.1 != e.1
    cursor := e.1 + 1
    expect := e.1 + 1
    queue := if keep then c.queue ++ [e] else c.queue
    refused := false, backoff := 0, wait := 0 }

/-- An entry has been refused: its sender waits, twice as long as after the last refusal (R332). -/
def Channel.refuse (c : Channel) (least most : Nat) : Channel :=
  let b := if c.backoff = 0 then least else min (2 * c.backoff) most
  { c with refused := true, backoff := b, wait := b }

/-- The key of a warp that has left a landing slot and has not landed: no slot (R310). -/
def transitKey (d : Nat) : Nat := slotId Config.formes 0 0 + 1 + d

/-- A warp whose departure from a landing slot has been taken leaves that slot (R285, R310); its general slot stays
reserved. -/
def State.freeLanding (s : State) (key : Nat) (f : Freight) : State :=
  match f with
  | .piece _ _ _ | .post _ => s
  | .warp slot d =>
    match s.warp slot with
    | none => s
    | some w =>
      if slot = w.home then s
      else { (s.dropWarp slot).setWarp (transitKey d) w with
        chans := s.chans.modify key fun c => { c with queue := c.queue.map fun e => if e.2 = f then (e.1, .warp (transitKey d) d) else e } }

/-- The next entry of a channel arrives at the receiving queue (R331, R332). -/
def execFabricEntry (src dst vc : Nat) (s0 : State) : Out :=
  if src = dst ∨ 4 ≤ src ∨ 4 ≤ dst ∨ 2 ≤ vc then .fault .notEnabled
  else
    let s := s0.pump src dst vc
    let key := chanKey src dst vc
    let c := s.chans.get key
    if c.refused then .fault .notEnabled
    else match c.window.find? fun e => e.1 == c.cursor with
      | none => .fault .notEnabled
      | some e =>
        let keep := decide (c.expect ≤ e.1) && s.stands dst e.2
        if !keep || s.takes src dst vc e.2 then
          .next ({ s with chans := s.chans.set key (c.accept e keep) }.freeLanding key (if keep then e.2 else .piece 0 0 0))
        else .next { s with chans := s.chans.set key (c.refuse s.backoffMin s.backoffMax) }

/-- The back-off of a refused entry has passed: the sender sends again, in order, from that entry (R332). -/
def execFabricResend (src dst vc : Nat) (s : State) : Out :=
  let key := chanKey src dst vc
  let c := s.chans.get key
  if src < 4 ∧ dst < 4 ∧ vc < 2 ∧ c.refused ∧ c.wait = 0 then
    .next { s with chans := s.chans.set key { c with refused := false } }
  else .fault .notEnabled

/-! ### Departure and arrival (R202, R309 to R311) -/

/-- The sheet a warp is migrating to, when it has not departed. -/
def Warp.leavingFor (w : Warp) : Option Nat :=
  w.waits.findSome? fun x => match x.kind with
    | .migrating t none => some t
    | _ => none

/-- Everything the warp issued before has been completed, and a release at .device may be performed (R202, R309). -/
def State.departReady (s : State) (slot : Nat) (w : Warp) : Bool :=
  s.releaseReady slot w s.opSeq 4 && w.pend.isEmpty && w.platen.isEmpty && w.results.isEmpty && (s.warpCmds slot w).isEmpty &&
    w.waits.all fun x => match x.kind with
      | .jwait _ | .migrating _ _ => true
      | _ => false

/-- The lanes held by a migration go on: those with a length behind the migr. -/
def Warp.letGo (w : Warp) : Warp :=
  w.waits.foldl (fun a x => match x.kind with
    | .migrating _ _ => if x.len = 0 then { a with waits := a.waits.filter fun y => y != x } else a.endWait x
    | _ => a) w

/-- The departure of a migrating warp is numbered. -/
def Warp.depart (w : Warp) (d : Nat) : Warp :=
  { w with waits := w.waits.map fun x => match x.kind with
      | .migrating t _ => { x with kind := .migrating t (some d) }
      | _ => x }

/-- An acquire at .device drops what the warp's new forme and its constant cache hold (R20, R202). -/
def State.acquireDevice (s : State) (slot : Nat) : State :=
  (s.acquire slot 4).constFence slot s.opSeq 4

/-- The warp departs, as a release at .device; a migration to where it stands is a fence (R310). -/
def execMigrationDeparture (slot : Nat) (s0 : State) : Out :=
  let s := s0.settle slot
  match s.warp slot with
  | none => .fault .notEnabled
  | some w =>
    match w.leavingFor with
    | none => .fault .notEnabled
    | some t =>
      if !s.departReady slot w then .fault .notEnabled
      else if t = slotSheet slot then .next ((s.modWarp slot Warp.letGo).acquireDevice slot)
      else
        let key := chanKey (slotSheet slot) t (s.vcOf w)
        if !(s.chans.get key).room then .fault .notEnabled
        else
          let (d, s1) := s.fresh
          .next ({ s1 with chans := s1.chans.modify key fun c => c.push (.warp slot d) }.modWarp slot fun x => x.depart d)

/-- Feeders that some registered RCB reserves (R263). -/
def State.reservedFeeders (s : State) : List Nat :=
  (List.range 16).filter fun f => s.rcbs.any fun x => bits x.ovr 4 1 == 1 && bits x.feeders f 1 == 1

/-- The Feeders that an RCB may use (R252, R263). -/
def State.allowedFeeders (s : State) (rcb : Nat) : List Nat :=
  let own := s.feedersOf rcb
  let mine := (List.range 16).filter fun f => bits own f 1 == 1
  if own = 0 then (List.range 16).filter fun f => !s.reservedFeeders.contains f else mine

/-- The Feeder assigned to a warp on a sheet (R238): the device's choice. -/
def State.assignFeeder (s : State) (rcb sheet : Nat) : Nat × State :=
  let here (f : Nat) : Bool := f / 4 == sheet
  let mine := (s.allowedFeeders rcb).filter here
  let l := if mine.isEmpty then (List.range 16).filter fun f => here f && !s.reservedFeeders.contains f else mine
  let (k, s1) := s.pick l.length
  (l.getD k (4 * sheet), s1)

/-- A warp stands in its new slot (R311). -/
def Warp.land (w : Warp) (feeder : Nat) : Warp :=
  let w1 := w.letGo
  { w1 with r := { w1.r.dropLatches with ages := [] }, feeder := feeder }

/-- The queue that holds a departed warp at its head. -/
def State.arrivalKey (s : State) (slot d : Nat) : Option Nat :=
  (s.chans.map Prod.fst).find? fun k => match (s.chans.get k).queue.head? with
    | some e => e.2 == .warp slot d
    | none => false

/-- The warp arrives in a slot of its target sheet: its general slot when that is its home, else an empty landing slot
(R285, R310). -/
def execMigrationArrival (slot into : Nat) (s : State) : Out :=
  match s.warp slot with
  | none => .fault .notEnabled
  | some w =>
    match w.departure.bind fun d => s.arrivalKey slot d with
    | none => .fault .notEnabled
    | some key =>
      let t := key / 2 % 4
      let fits := if slotSheet w.home = t then into == w.home
        else slotSheet into == t && slotNum into == Config.landingSlot && s.empty into
      if !fits then .fault .notEnabled
      else
        let (f, s1) := s.assignFeeder (s.warpRcb w) t
        let s2 := { s1 with chans := s1.chans.modify key fun c => { c with queue := c.queue.drop 1 } }
        .next (((s2.dropWarp slot).setWarp into (w.land f)).acquireDevice into)

/-- A pre-emption cancels a departure that is being refused (R312): the warp stays, its issuing lanes at the migr. -/
def Warp.cancelDeparture (w : Warp) : Warp :=
  { w with waits := w.waits.filter fun x => match x.kind with
      | .migrating _ _ => false
      | _ => true }

/-- A warp's departure has been refused and not been taken since. -/
def State.refusedDeparture (s : State) (slot : Nat) (w : Warp) : Bool :=
  w.departure.any fun d => s.chans.any fun c => c.2.backoff != 0 && (match c.2.window.find? fun e => e.1 == c.2.cursor with
    | some e => e.2 == .warp slot d
    | none => false)

end Sys2Proof.Machine
end

