-- ==== Sys2Proof/Machine/Regions.lean ====
section
/-! DEFINITION. The region instructions (R388 to R400): levels, kept state, the galley, the release. Rollback is in
Ops.lean. -/

namespace Sys2Proof.Machine

/-- The group holds every live lane, and its guard is true in one (R143, R388). -/
def wholeGroup (r : Regs) (grp act : Mask) : Bool := (r.live &&& ~~~grp) == 0 && act != 0

/-- The checks of a region instruction but rgn.status (R388, R400): inside a handler it is forbidden, then its group is
judged. -/
def regionFault (inHandler : Bool) (r : Regs) (grp act : Mask) : Option SyncFault :=
  if inHandler && act != 0 then some (.plain causeForbidden)
  else if !wholeGroup r grp act then some (.plain causeRegionGroup)
  else none

/-- Run rgn.begin, rgn.keep or rgn.end on its leading warp, checked. The proof warp only passes it (R405). -/
def State.region (s : State) (g : Guard) (f : State → Slot → Warp → Regs → Mask → State) : Out :=
  s.onSlot fun s1 sl w r =>
    let act := active r sl.grp g
    .next (if sl.proof then s1.finish sl r
      else match regionFault r.inHandler r sl.grp act with
        | some e => s1.raise sl act e
        | none => f s1 sl w r act)

/-! ### rgn.begin (R391, R396) -/

/-- Banks of a forme that resident blocks hold, with those of suspended gangs given back (R177, R328). -/
def State.heldBanks (s : State) (forme : Nat) : List Nat :=
  s.gangs.flatMap fun g => if g.phase == .suspended then []
    else g.blocks.flatMap fun b => if b.forme == forme && !b.released then b.banks else []

/-- Galleys that a bank of a forme holds (R181). -/
def State.galleysIn (s : State) (forme bank : Nat) : Nat :=
  (s.warpList.filter fun x => slotForme x.1 == forme && !x.2.levels.isEmpty && x.2.galley == bank).length

/-- The banks of a forme's L1 pool in which one more galley of 8 KiB has room (R181, R396). -/
def State.galleyRoom (s : State) (forme : Nat) : List Nat :=
  let held := s.heldBanks forme
  (List.range Config.banksPerForme).filter fun b => !held.contains b && decide (8192 * (s.galleysIn forme b + 1) ≤ Config.bankBytes)

/-- The instructions that have issued can detect no error any more (R391, R393, R395). -/
def Warp.resolve (w : Warp) : Warp := { w with resolved := w.r.gseq.toNat }

/-- Open a level. -/
def Warp.openLevel (w : Warp) (label : DWord) (gseq retry bank : Nat) : Warp :=
  let lv : Level :=
    { label := label, start := gseq, retry := retry, kv := [], ks := [], kp := [], kj := [], kt := [], held := [], deferred := [], badKept := false }
  if w.levels.isEmpty then { w with levels := [lv], galley := bank, lastCause := 0, rolls := 0, soft := false }
  else { w with levels := lv :: w.levels }

def execRgnBegin (i : RgnBeginI) (s : State) : Out :=
  s.region i.g fun s1 sl w r act =>
    if 4 ≤ w.levels.length then s1.raise sl act (.plain causeRegionNesting)
    else
      let room := s1.galleyRoom (slotForme sl.w)
      if w.levels.isEmpty && room.isEmpty then s1.raise sl act (galleyFull 0)
      else
        let (k, s2) := if w.levels.isEmpty then s1.pick room.length else (0, s1)
        (s2.finish sl r).modWarp sl.w fun y => (y.openLevel (relTarget sl.pc i.loff) r.gseq.toNat i.retry.val (room.getD k 0)).resolve

/-! ### rgn.keep (R392) -/

/-- Replace or add an item. -/
def keepItem {α : Type} (l : List (Nat × α)) (k : Nat) (x : α) : List (Nat × α) := (l.filter fun y => y.1 != k) ++ [(k, x)]

def keepItems {α : Type} (l : List (Nat × α)) (ks : List Nat) (f : Nat → α) : List (Nat × α) :=
  ks.foldl (fun acc k => keepItem acc k (f k)) l

/-- A tile's elements. -/
def tileOf (tiles : SMap Word) (t : Nat) : SMap Word :=
  (tiles.filter fun x => x.1 / 4096 == t).map fun x => (x.1 % 4096, x.2)

/-- The level after a keep. -/
def Level.keep (lv : Level) (r : Regs) (tiles : SMap Word) (u : Use) : Level :=
  { lv with
    kv := keepItems lv.kv u.vr fun k => lanes32.map fun l => r.vget k l
    ks := keepItems lv.ks u.sr r.sget
    kp := keepItems lv.kp (u.pr.filter fun k => k != 0) r.pget
    kj := keepItems lv.kj u.jr r.jget
    kt := keepItems lv.kt u.tr (tileOf tiles) }

/-- What a keep names, its guard apart. -/
def keepUse (i : RgnKeepI) : Use :=
  { vr := span i.vfirst.val i.vnum.val, sr := span i.sfirst.val i.snum.val
    pr := (List.range 8).filter fun k => i.pmask.getLsbD k
    jr := (List.range 16).filter fun k => i.jmask.getLsbD k
    tr := (i.tile0.toList ++ i.tile1.toList).map Fin.val }

/-- Spare tile slots in use in a quadrant (R6, R396). -/
def State.spareUsed (s : State) (q : Nat) : Nat :=
  (s.warpList.filter fun x => slotQuadId x.1 == q).foldl (fun a x => a + x.2.keptTiles) 0

def execRgnKeep (i : RgnKeepI) (s : State) : Out :=
  s.region i.g fun s1 sl w r act =>
    let w1 := w.modInner fun lv => lv.keep r w.tiles (keepUse i)
    if w.levels.isEmpty then s1.raise sl act (.plain causeRegionNesting)
    else if Config.galleyEntries < w1.withLag.galleyUsed then s1.raise sl act (galleyFull 2)
    else if Config.spareTiles < s1.spareUsed (slotQuadId sl.w) + w1.keptTiles - w.keptTiles then
      s1.raise sl act (galleyFull 3)
    else (s1.setWarp sl.w w1).finish sl r

/-! ### rgn.end (R393, R397, R398) -/

/-- Merge an inner level's entry into the enclosing level: into the newest entry of its block when both are plain. -/
def Level.mergeHeld (lv : Level) (h : Held) : Level :=
  let inner := h.bytes.map Prod.fst
  match if h.strong.isNone then lv.shared h.gs h.block inner else none with
  | some x =>
    { lv with held := lv.held.map fun y => if y = x then
        { y with bytes := (y.bytes.filter fun b => !inner.contains b.1) ++ h.bytes
                 bad := (y.bad.filter fun b => !inner.contains b) ++ h.bad } else y }
  | none => { lv with held := lv.held ++ [h] }

/-- Close the innermost of several levels. -/
def Level.absorb (outer inner : Level) : Level :=
  { inner.held.foldl Level.mergeHeld outer with deferred := outer.deferred ++ inner.deferred }

/-- The bytes of an entry as runs of rising addresses: the offset and the bytes. -/
def heldRuns (l : List (Nat × Byte)) : List (Nat × List Byte) :=
  (List.range 64).foldl (fun acc o =>
    match l.find? fun x => x.1 == o with
    | none => acc
    | some (_, b) => match acc.getLast? with
      | some (o', bs) => if o' + bs.length = o then acc.dropLast ++ [(o', bs ++ [b])] else acc ++ [(o, [b])]
      | none => [(o, [b])]) []

/-- Translate a held entry again (R343, R393): the piece of each run. -/
def State.heldPieces (s : State) (slot : Nat) (w : Warp) (h : Held) :
    List (Nat × List Byte) → Except MemStop (List Piece) × State
  | [] => (.ok [], s)
  | (o, bs) :: t =>
    let a := h.block * 64 + o
    let place := if h.gs then s.access slot w .gang 1 .write kindStore [(0, (a : Int))]
      else s.translateAll (slotQuadId slot) w.ctx .write kindStore [(0, BitVec.ofNat 64 a, bs.length)]
    match place with
    | (.error e, s1) => (.error e, s1)
    | (.ok ps, s1) =>
      match s1.heldPieces slot w h t with
      | (.error e, s2) => (.error e, s2)
      | (.ok l, s2) =>
        (.ok ((ps.map fun p => { p.piece with va := BitVec.ofNat 64 a, size := bs.length, data := leNat bs }) ++ l), s2)

/-- The fence of a .sc access that a region has held (R192, R397). -/
def State.strongFence (s : State) (sl : Slot) (r : Regs) (act : Mask) (x : Option (Ord × Scope)) : List MemOp × State :=
  match x with
  | some (.sc, scope) =>
    let (id, s1) := s.fresh
    ([fenceOp id .sc scope sl.pc r.gseq.toNat act 0], s1)
  | _ => ([], s)

/-- The stores of the release, in the order in which the entries were created: each a release, so that they are performed
in that order, a .sc store behind its fence (R204, R397). -/
def State.releaseOps (s : State) (sl : Slot) (w : Warp) (r : Regs) (act : Mask) :
    List Held → Except MemStop (List MemOp) × State
  | [] => (.ok [], s)
  | h :: t =>
    match s.heldPieces sl.w w h (heldRuns h.bytes) with
    | (.error e, s1) => (.error e, s1)
    | (.ok ps, s1) =>
      let (strong, sf) := s1.strongFence sl r act h.strong
      let (id, s2) := sf.fresh
      match s2.releaseOps sl w r act t with
      | (.error e, s3) => (.error e, s3)
      | (.ok l, s3) =>
        let op : MemOp :=
          { id := id, kind := .store, pieces := ps, ord := .rel, scope := .device, sbc := 0, cp := 0, uncached := false
            pc := sl.pc, gseq := r.gseq.toNat, lanes := act, depth := 0 }
        (.ok (strong ++ op :: l), s3)

/-- Translate a deferred operation's parts again (R235, R343); work in scratch has nothing to translate. The parts of a
catom are paired again (R224). -/
def State.retranslate (s : State) (u ctx : Nat) (pt : Option PairT) : List Piece → Except MemStop (List Piece) × State
  | [] => (.ok [], s)
  | p :: t =>
    let second := match pt with
      | some x => [(p.lane, p.va2, pairLoSize x)]
      | none => []
    let first := match p.place with
      | .hbm _ => [(p.lane, p.va, p.size)]
      | .scr _ _ _ => []
    match s.translateAll u ctx .readWrite kindAtomic (first ++ second) with
    | (.error e, s1) => (.error e, s1)
    | (.ok l, s1) =>
      let p1 : Except MemStop Piece := match l with
        | hi :: lo :: _ =>
          if splitHome hi lo (p.va2 - p.va).toNat then .error (memFault causeSplitHome (p.va.toNat : Int) kindAtomic)
          else .ok { p with place := hi.place, place2 := lo.place }
        | [q] => .ok { p with place := q.place, place2 := q.place }
        | [] => .ok p
      match p1 with
      | .error e => (.error e, s1)
      | .ok p2 =>
        match s1.retranslate u ctx pt t with
        | (.error e, s2) => (.error e, s2)
        | (.ok l', s2) => (.ok (p2 :: l'), s2)

/-- Deferred memory instructions are translated again at the release; a Feeder translates its command's chunks when it
moves them (R343). -/
def State.redeferred (s : State) (u ctx : Nat) : List Deferred → Except MemStop (List Deferred) × State
  | [] => (.ok [], s)
  | .feed c :: t =>
    match s.redeferred u ctx t with
    | (.error e, s1) => (.error e, s1)
    | (.ok l, s1) => (.ok (.feed c :: l), s1)
  | .mem op :: t =>
    let pt := match op.kind with
      | .catom x _ => some x
      | _ => none
    match s.retranslate u ctx pt op.pieces with
    | (.error e, s1) => (.error e, s1)
    | (.ok ps, s1) =>
      match s1.redeferred u ctx t with
      | (.error e, s2) => (.error e, s2)
      | (.ok l, s2) => (.ok (.mem { op with pieces := ps } :: l), s2)

/-- Send the deferred work in issue order (R235, R398): each operation a release at .device, so that it follows what came
before, a .sc one behind its fence; commands go to their Feeders. -/
def State.sendDeferred (s : State) (sl : Slot) (r : Regs) (act : Mask) : List Deferred → State
  | [] => s
  | .mem op :: t =>
    let (fence, s1) := s.strongFence sl r act (some (op.ord, op.scope))
    let (id, s2) := s1.fresh
    (s2.modWarp sl.w fun w =>
      { w with pend := w.pend ++ fence ++ [{ op with id := id, ord := .rel, scope := .device, sbc := 0, depth := 0 }] }).sendDeferred
      sl r act t
  | .feed c :: t =>
    let (id, s1) := s.fresh
    { s1 with cmds := s1.cmds ++ [{ c with id := id }] }.sendDeferred sl r act t

/-- The operations of a warp numbered from n on. -/
def State.opsFrom (s : State) (slot n : Nat) : List (Nat × Nat) :=
  (((s.warp slot).map fun w => w.pend).getD []).filterMap fun o => if n ≤ o.id then some (slot, o.id) else none

/-- The outermost rgn.end (R393): every held store and deferred memory instruction is translated, then held stores, deferred
work and the fence are on their way in that order. -/
def State.releaseRegion (s : State) (sl : Slot) (w : Warp) (r : Regs) (act : Mask) (lv : Level) : Except MemStop State × State :=
  match s.releaseOps sl w r act lv.held with
  | (.error e, s1) => (.error e, s1)
  | (.ok ops, s1) =>
    match s1.redeferred (slotQuadId sl.w) w.ctx lv.deferred with
    | (.error e, s2) => (.error e, s2)
    | (.ok work, s2) =>
      let s3 := s2.modWarp sl.w fun y => { y with pend := y.pend ++ ops, levels := [] }
      let (id, s4) := (s3.sendDeferred sl r act work).fresh
      (.ok (s4.modWarp sl.w fun y => { y with pend := y.pend ++ [fenceOp id .rel .device sl.pc r.gseq.toNat act 0] }), s2)

/-- The region's end on its levels: the release, or the innermost level joins the enclosing one. A poisoned held store is
consumed by the release, which then is not made (R374, R393). -/
def State.closeLevel (s : State) (sl : Slot) (w : Warp) (r : Regs) (act : Mask) : Except MemStop State × State :=
  match w.levels with
  | [] => (.error (.fault (.plain causeRegionNesting)), s)
  | [lv] =>
    match lv.held.find? fun h => !h.bad.isEmpty with
    | some h => (.error (.poison (BitVec.ofNat 64 (h.block * 64))), s)
    | none => s.releaseRegion sl w r act lv
  | inner :: outer :: t => (.ok (s.modWarp sl.w fun y => { y with levels := outer.absorb inner :: t }), s)

/-- Once its work has been performed, the group goes on behind the outermost rgn.end (R393, R417): `n` is the number of the
first operation of the release. -/
def State.awaitRelease (s : State) (slot n : Nat) (grp : Mask) (gseq : Nat) : State :=
  let ids := s.opsFrom slot n
  s.modWarp slot fun y => { y.resolve with waits := if ids.isEmpty then y.waits else y.waits ++ [⟨grp, .ops ids, 0, gseq⟩] }

/-- rgn.end on a leader without a proof warp. -/
def State.endAlone (s : State) (sl : Slot) (w : Warp) (r : Regs) (act : Mask) : State :=
  match s.closeLevel sl w r act with
  | (.error e, s1) => s1.stopAccess sl w r act e
  | (.ok s1, _) => (s1.finish sl r).awaitRelease sl.w s.opSeq sl.grp r.gseq.toNat

/-- A leader's rgn.end that waits until its proof warp has issued it. -/
def Warp.endsWith (w : Warp) (gseq : Nat) : Option Wait :=
  w.waits.find? fun x => match x.kind with
    | .proofEnd _ => x.gseq == gseq
    | _ => false

def Wait.endAct (x : Wait) : Mask :=
  match x.kind with
  | .proofEnd a => a
  | _ => 0

/-- The proof warp issues rgn.end: its leader's takes effect, or stops as the leader's own would (R393). -/
def State.endBoth (s : State) (sl : Slot) (w : Warp) (r : Regs) : State :=
  match w.endsWith r.gseq.toNat with
  | none => s.finish sl r
  | some x =>
    let lead : Slot := { sl with proof := false, grp := x.lanes }
    match s.closeLevel lead w { w.r with gseq := BitVec.ofNat 64 x.gseq } x.endAct with
    | (.error (.moving _), s1) => s1
    | (.error e, s1) => s1.stopAccess lead w { w.r with gseq := BitVec.ofNat 64 x.gseq } x.endAct e
    | (.ok s1, _) => ((s1.finish sl r).modWarp sl.w fun y => y.endWait x).awaitRelease sl.w s.opSeq x.lanes x.gseq

def execRgnEnd (i : PlainI) (s : State) : Out :=
  s.onSlot fun s1 sl w r =>
    let act := active r sl.grp i.g
    .next (if sl.proof then s1.endBoth sl w r
      else match regionFault r.inHandler r sl.grp act with
        | some e => s1.raise sl act e
        | none =>
          if w.levels.isEmpty then s1.raise sl act (.plain causeRegionNesting)
          else if w.proof.isSome then s1.holdAt sl r sl.grp (.proofEnd act)
          else s1.endAlone sl w r act)

/-! ### rgn.abort (R394), rgn.status (R395) -/

/-- Leave the handler without tret: the frame and the replay queue are discarded. -/
def Warp.dropFrame (w : Warp) : Warp := { w with r := { w.r with frame := none } }

/-- An error of cause 0xF0 + n for the rgn.abort. -/
def abortErr (s : State) (sl : Slot) (w : Warp) (r : Regs) (act : Mask) (n : Nat) : AsyncErr :=
  { cause := 0xF0 + n, pc := sl.pc, gseq := r.gseq.toNat, lanes := act, laddr := 0, w0 := 0, w1 := 0, unit := 0, index := 0
    level := w.levels.length, time := s.time, soft := true }

def execRgnAbort (i : TrapI) (s : State) : Out :=
  s.onSlot fun s1 sl w r =>
    let act := active r sl.grp i.g
    .next (if sl.proof then s1.finish sl r
      else if !wholeGroup r sl.grp act then s1.raise sl act (.plain causeRegionGroup)
      else
        let s2 := s1.modWarp sl.w Warp.dropFrame
        let r1 := { r with frame := none }
        if w.levels.isEmpty then s2.raise sl act (.plain causeRegionNesting)
        else (s2.finish sl r1).detect sl.w (abortErr s2 sl w r act (r.small i.n)))

def execRgnStatus (i : RgnStatusI) (s : State) : Out :=
  s.withActive i.g fun s1 sl w r act =>
    if sl.proof then s1.takeValues sl r
    else
      let x : Writes := ⟨[], [(i.d.val, w.rgn)], [], []⟩
      let _ := act
      (s1.finish sl (r.deliver r.gseq.toNat x)).modWarp sl.w fun y =>
        (if w.levels.isEmpty then y else y.resolve).giveValues r.gseq.toNat x

end Sys2Proof.Machine
end

