-- ==== Sys2Proof/Machine/Compositor.lean ====
section
/-! DEFINITION. The Compositor: what fits where (R263, R270), the order of placement (R271, R326), the launch of a gang and
its relaunch (R11, R268, R408), the end of warps, blocks and gangs (R272, R295), the watchdogs (R265, R266). -/

namespace Sys2Proof.Machine

/-! ### What is free (R6, R7, R263, R270) -/

/-- The blocks that hold resources, each with its gang's launch record. -/
def State.heldBlocks (s : State) : List (LaunchRec × Block) :=
  s.gangs.flatMap fun g =>
    if g.phase == .suspended then []
    else match (s.work g.launch).bind Work.launch with
      | none => []
      | some l => (g.blocks.filter fun b => !b.released).map fun b => (l, b)

/-- The general slots of a list that lie in a quadrant of the package. -/
def inQuad (q : Nat) (l : List Nat) : List Nat := l.filter fun x => slotQuadId x == q

/-- The general slots of a quadrant that no block holds. -/
def State.freeSlots (s : State) (q : Nat) : List Nat :=
  let used := s.heldBlocks.flatMap fun x => inQuad q (x.2.slots ++ x.2.twins)
  ((List.range Config.slotsPerQuad).map fun k => q * 17 + k).filter fun x => !used.contains x

/-- Vector registers of a quadrant's general slots that no block holds. -/
def State.freeRegs (s : State) (q : Nat) : Nat :=
  Config.generalVRegs - s.heldBlocks.foldl (fun a x => a + x.1.vgrant * (inQuad q (x.2.slots ++ x.2.twins)).length) 0

/-- Tiles of a quadrant that no block holds. -/
def State.freeTiles (s : State) (q : Nat) : Nat :=
  Config.tilesPerQuad - s.heldBlocks.foldl (fun a x => a + x.1.tg * (inQuad q x.2.slots).length) 0

/-- The banks that a block of n bytes of scratch needs (R270). -/
def banksFor (scratch : Nat) : Nat := (scratch + Config.bankBytes - 1) / Config.bankBytes

/-- The banks of a forme that a new block may take. -/
def State.freeBanks (s : State) (forme : Nat) : List Nat :=
  let held := s.heldBanks forme
  (List.range Config.banksPerForme).filter fun b => !held.contains b && s.galleysIn forme b == 0

/-! ### Fitting a block (R270) -/

/-- Where a block's parts go: its slots, the slots of its proof warps, its banks. -/
structure Site where
  forme : Nat
  slots : List Nat
  twins : List Nat
  banks : List Nat
  deriving DecidableEq, Repr, Inhabited

/-- As many as n warps in one quadrant: pairs of a leader's slot and its proof warp's, from the free slots. -/
def quadFill (chk : Bool) (vg tg : Nat) : Nat → List Nat → Nat → Nat → List (Nat × Nat)
  | 0, _, _, _ => []
  | n + 1, free, regs, tiles =>
    if tiles < tg then []
    else match chk, free with
      | false, a :: t => if regs < vg then [] else (a, a) :: quadFill chk vg tg n t (regs - vg) (tiles - tg)
      | true, a :: b :: t => if regs < 2 * vg then [] else (a, b) :: quadFill chk vg tg n t (regs - 2 * vg) (tiles - tg)
      | _, _ => []

/-- Fill the quadrants of a forme in turn with n warps. -/
def State.formeFill (s : State) (chk : Bool) (l : LaunchRec) (n : Nat) : List Nat → List (Nat × Nat)
  | [] => []
  | q :: t =>
    let here := quadFill chk l.vgrant l.tg n (s.freeSlots q) (s.freeRegs q) (s.freeTiles q)
    here ++ s.formeFill chk l (n - here.length) t

/-- The given slots, each with a free slot of its quadrant for its proof warp. -/
def State.pairSlots (s : State) (chk : Bool) (want : List Nat) : List (Nat × Nat) :=
  want.foldl (fun acc a =>
    let other := (s.freeSlots (slotQuadId a)).find? fun b => !want.contains b && acc.all fun x => x.2 != b
    acc ++ [(a, if chk then other.getD a else a)]) []

/-- Whether pairs of slots fit the quadrants of a forme. -/
def State.pairsFit (s : State) (chk : Bool) (l : LaunchRec) (forme : Nat) (ps : List (Nat × Nat)) : Bool :=
  (ps.all fun x => slotForme x.1 == forme && (s.freeSlots (slotQuadId x.1)).contains x.1 && (!chk || x.1 != x.2)) &&
  decide ((ps.map Prod.fst).Nodup) &&
  (List.range Config.quadsPerForme).all fun k =>
    let q := forme * 4 + k
    let n := (inQuad q (ps.map Prod.fst)).length
    decide (n * l.vgrant * (if chk then 2 else 1) ≤ s.freeRegs q ∧ n * l.tg ≤ s.freeTiles q)

/-- A site for a block on a forme: its warps in the slots `want`, or where they first fit. -/
def State.site (s : State) (chk : Bool) (l : LaunchRec) (forme : Nat) (want : List Nat) : Option Site :=
  let need := banksFor l.scratch
  let free := s.freeBanks forme
  if free.length < need then none
  else
    let ps := if want.isEmpty then s.formeFill chk l l.wpb ((List.range 4).map fun k => forme * 4 + k) else s.pairSlots chk want
    if ps.length = l.wpb && s.pairsFit chk l forme ps then
      some ⟨forme, ps.map Prod.fst, if chk then ps.map Prod.snd else [], free.take need⟩
    else none

/-! ### Budgets (R263) -/

/-- What blocks use: formes, warp slots, tiles, banks. -/
structure Use4 where
  formes : List Nat
  warps : Nat
  tiles : Nat
  banks : Nat
  deriving DecidableEq, Repr, Inhabited

def Use4.add (a : Use4) (tg : Nat) (x : Site) : Use4 :=
  { formes := if a.formes.contains x.forme then a.formes else x.forme :: a.formes
    warps := a.warps + x.slots.length + x.twins.length
    tiles := a.tiles + tg * x.slots.length
    banks := a.banks + x.banks.length }

/-- A block's site. -/
def Block.at (b : Block) : Site := ⟨b.forme, b.slots, b.twins, b.banks⟩

/-- What the resident gangs of a subtree use. -/
def State.usedUnder (s : State) (node : Nat) : Use4 :=
  (s.gangs.filter fun g => g.phase != .suspended && s.under (s.gangRcb g) node).foldl (fun a g =>
    let tg := (((s.work g.launch).bind Work.launch).map LaunchRec.tg).getD 0
    (g.blocks.filter fun b => !b.released).foldl (fun b x => b.add tg x.at) a) ⟨[], 0, 0, 0⟩

/-- Some more blocks keep under every cap on the path of an RCB. -/
def State.budgetOk (s : State) (rcb tg : Nat) (new : List Site) : Bool :=
  (s.path rcb).all fun x =>
    let u := new.foldl (fun a y => a.add tg y) (s.usedUnder x.id)
    (bits x.ovr 0 1 == 0 || decide (u.formes.length ≤ x.formes)) && (bits x.ovr 1 1 == 0 || decide (u.warps ≤ x.warps)) &&
    (bits x.ovr 2 1 == 0 || decide (u.tiles ≤ x.tiles)) && (bits x.ovr 3 1 == 0 || decide (u.banks ≤ x.banks))

/-! ### Fitting a gang -/

/-- The ways to choose n members of a list, in order. -/
def chooseN {α : Type} : Nat → List α → List (List α)
  | 0, _ => [[]]
  | _ + 1, [] => []
  | n + 1, x :: t => ((chooseN n t).map fun l => x :: l) ++ chooseN (n + 1) t

/-- Cut a list into n pieces of m. -/
def cutList (m : Nat) : Nat → List Nat → List (List Nat)
  | 0, _ => []
  | n + 1, l => l.take m :: cutList m n (l.drop m)

/-- Sites for n blocks on distinct formes of a chase, none of them in `avoid`, that keep within the budgets and leave room for
what `ok` asks (R270, R272). -/
def State.sitesOn (s : State) (rcb : Nat) (l : LaunchRec) (chk : Bool) (n chase : Nat) (avoid : List Nat) (ok : List Site → Bool) :
    Option (List Site) :=
  let formes := ((List.range 4).map fun k => chase * 4 + k).filter fun f => !avoid.contains f
  (chooseN n (formes.filterMap fun f => s.site chk l f [])).find? fun c => s.budgetOk rcb l.tg c && ok c

/-- Sites in the given slots: those of the blocks one after another. -/
def State.sitesAt (s : State) (rcb : Nat) (l : LaunchRec) (chk : Bool) (n : Nat) (chase : Option Nat) (avoid want : List Nat)
    (ok : List Site → Bool) : Option (List Site) :=
  let parts := cutList l.wpb n want
  let sites := parts.filterMap fun p => p.head?.bind fun a => s.site chk l (slotForme a) p
  let formes := sites.map Site.forme
  if want.length = n * l.wpb && sites.length == n && decide (formes.Nodup) && (formes.all fun f => !avoid.contains f) &&
      (formes.all fun f => f / 4 == chase.getD ((formes.head?.getD 0) / 4)) && s.budgetOk rcb l.tg sites && ok sites then some sites
  else none

/-- What the Compositor is to place: the next gang of a record, or a killed gang of it again. -/
structure Job where
  work : Work
  again : Option Gang
  deriving DecidableEq, Repr

/-- Sites for a job, in the slots `want` or where it first fits: for every block of a new gang, on any chase; for the blocks that
a killed gang has released, on its chase and clear of those it holds (R270, R272). -/
def State.jobSites (s : State) (j : Job) (want : List Nat) (ok : List Site → Bool) : Option (List Site) :=
  j.work.launch.bind fun l =>
    match j.again with
    | none =>
      let chk := s.checkedOf j.work.rcbId
      if want.isEmpty then (List.range (Config.formes / 4)).findSome? fun c => s.sitesOn j.work.rcbId l chk l.bpg c [] ok
      else s.sitesAt j.work.rcbId l chk l.bpg none [] want ok
    | some g =>
      let lost := (g.blocks.filter Block.released).length
      let avoid := (g.blocks.filter fun b => !b.released).map Block.forme
      if want.isEmpty then s.sitesOn j.work.rcbId l g.checked lost g.chase avoid ok
      else s.sitesAt j.work.rcbId l g.checked lost (some g.chase) avoid want ok

/-! ### The order of placement (R271, R321, R326, R329) -/

/-- The record's next gang is the one to place: earlier records of its queue are wholly placed, and no gang of it waits
for its relaunch or is suspended (R273, R326). -/
def State.due (s : State) (w : Work) : Bool :=
  w.unplaced && (s.works.all fun x => x.queue != w.queue || decide (w.id ≤ x.id) || !x.unplaced) &&
    s.gangs.all fun g => g.launch != w.id || (g.phase != .waitRelaunch && g.phase != .suspended)

/-- The state without some gangs: what would be free without them. -/
def State.without (s : State) (out : Gang → Bool) : State :=
  let ids := (s.gangs.filter out).map Gang.id
  { s with gangs := s.gangs.filter fun g => !out g
           warps := s.warps.filter fun x => (x.2.map fun w => !ids.contains w.gang).getD true }

/-- The class of a gang. -/
def State.gangClass (s : State) (g : Gang) : Nat := s.classOf (s.gangRcb g)

/-- Work of class 0 within a reservation (R326): a node of class 0 sets RSV = 1. -/
def State.reserved (s : State) (rcb : Nat) : Bool :=
  s.classOf rcb == 0 && ((s.nodeOf rcb 9).map fun x => x.rsv && s.classOf x.id == 0).getD false

/-- A job fits. -/
def State.fitsNow (s : State) (j : Job) : Bool := (s.jobSites j [] fun _ => true).isSome

/-- The jobs that the Compositor could turn to. -/
def State.jobs (s : State) : List Job :=
  ((s.gangs.filter fun g => g.phase == .waitRelaunch).filterMap fun g => (s.work g.launch).map fun w => ⟨w, some g⟩) ++
    (s.works.filter s.due).map fun w => ⟨w, none⟩

/-- A gang of a reserving subtree does not fit, and would without gangs of lower classes (R326). -/
def State.claims (s : State) (j : Job) : Bool :=
  s.reserved j.work.rcbId && !s.fitsNow j && (s.without fun g => s.gangClass g != 0).fitsNow j

/-- Of two gangs the one to pre-empt first: the lower class, then the one placed last (R326). -/
def State.stopsFirst (s : State) (a b : Gang) : Bool :=
  decide (s.gangClass b < s.gangClass a) || (s.gangClass a == s.gangClass b && decide (b.order < a.order))

/-- The gang to pre-empt next: never one of class 0; a gang that waits for its relaunch holds what its blocks hold (R272). -/
def State.victim (s : State) : Option Gang :=
  (s.gangs.filter fun g => (g.phase == .running || (g.phase == .waitRelaunch && g.blocks.any fun b => !b.released)) &&
      s.gangClass g != 0).foldl
    (fun best g => match best with
      | none => some g
      | some b => if s.stopsFirst g b then some g else some b) none

/-- The state in which a claim fits, without the gangs that are pre-empted for it. -/
def State.clearedFor (s : State) (j : Job) : Nat → State
  | 0 => s
  | n + 1 =>
    if s.fitsNow j then s
    else match s.victim with
      | none => s
      | some g => (s.without fun x => x.id == g.id).clearedFor j n

/-- The state with a gang of a record on some sites. -/
def State.withSites (s : State) (w : Work) (l : LaunchRec) (sites : List Site) : State :=
  { s with gangs := s.gangs ++ [{ (default : Gang) with id := s.opSeq, launch := w.id, blocks := sites.map fun x =>
      { (default : Block) with forme := x.forme, banks := x.banks, slots := x.slots, twins := x.twins, bytes := l.scratch } }] }

/-- Work of a class below 0 on some sites leaves every claim what it needs (R271, R326): the claim still fits where room is being
made for it. -/
def State.leavesRoom (s : State) (w : Work) (sites : List Site) : Bool :=
  s.classOf w.rcbId == 0 || (match w.launch with
    | none => true
    | some l => (s.jobs.filter s.claims).all fun j =>
        (((s.without fun g => g.phase == .stopping).clearedFor j s.gangs.length).withSites w l sites).fitsNow j)

/-- Sites where a job may be placed. -/
def State.sitesFor (s : State) (j : Job) (want : List Nat) : Option (List Site) := s.jobSites j want (s.leavesRoom j.work)

/-- The record's next gang may be placed. -/
def State.fits (s : State) (w : Work) : Bool := (s.sitesFor ⟨w, none⟩ []).isSome

/-- The gang that a suspended gang makes room for has not been placed, or not again. -/
def State.yields (s : State) (g : Gang) : Bool :=
  g.yieldTo.any fun x => ((s.work x.1).any fun w => w.unplaced && w.next == x.2) ||
    s.gangs.any fun y => y.launch == x.1 && y.lin == x.2 && y.phase == .waitRelaunch

/-- The galleys of a suspended gang in a bank have room there again. -/
def State.savedGalley (s : State) (g : Gang) (forme bank : Nat) : Bool :=
  !(s.heldBanks forme).contains bank && decide (s.galleysIn forme bank +
    (g.saved.filter fun x => slotForme x.1 == forme && !x.2.levels.isEmpty && x.2.galley == bank).length ≤ Config.bankBytes / 8192)

/-- The warps of a suspended gang can stand where they stood (R329): slots, registers, tiles, spare tile slots, banks, galleys,
budgets. -/
def State.roomFor (s : State) (g : Gang) : Bool :=
  match (s.work g.launch).bind Work.launch with
  | none => false
  | some l =>
    let live := g.blocks.filter fun b => !b.released
    (g.saved.all fun x => s.empty x.1) &&
    (live.all fun b =>
      ((b.slots ++ b.twins).all fun a => (s.freeSlots (slotQuadId a)).contains a) &&
      ((List.range 4).all fun k =>
        let q := b.forme * 4 + k
        decide (l.vgrant * (inQuad q (b.slots ++ b.twins)).length ≤ s.freeRegs q ∧
                l.tg * (inQuad q b.slots).length ≤ s.freeTiles q)) &&
      (let held := s.heldBanks b.forme
       b.banks.all fun k => !held.contains k && s.galleysIn b.forme k == 0)) &&
    (g.saved.all fun x => x.2.levels.isEmpty || s.savedGalley g (slotForme x.1) x.2.galley) &&
    ((g.saved.map fun x => slotQuadId x.1).all fun q => decide (s.spareUsed q +
      (g.saved.filter fun x => slotQuadId x.1 == q).foldl (fun a x => a + x.2.keptTiles) 0 ≤ Config.spareTiles)) &&
    s.budgetOk (s.gangRcb g) l.tg (live.map Block.at)

/-- A suspended gang that may resume now, the lower of its record first (R273, R326, R329). -/
def State.resumable (s : State) (g : Gang) : Bool :=
  g.phase == .suspended && !s.yields g && s.roomFor g &&
    ((s.work g.launch).all fun w => s.leavesRoom w ((g.blocks.filter fun b => !b.released).map Block.at)) &&
    s.gangs.all fun x => x.launch != g.launch || x.phase != .suspended || decide (g.lin ≤ x.lin)

/-- The record that the Compositor serves next: one of the highest class among those whose next gang fits, in round robin;
none where a suspended gang of the same or a higher class resumes first (R271, R329). -/
def State.nextWork (s : State) : Option Work :=
  let ready := s.works.filter fun w => s.due w && s.fits w
  let best := ready.foldl (fun m w => min m (s.classOf w.rcbId)) 4
  let l := ready.filter fun w => s.classOf w.rcbId == best
  if s.gangs.any fun g => decide (s.gangClass g ≤ best) && s.resumable g then none
  else ((l.filter fun w => decide (s.compRR < w.id)) ++ l.filter fun w => decide (w.id ≤ s.compRR)).head?

/-! ### Launch (R11, R268) -/

/-- The registers of a warp at launch. -/
def Regs.launch (pc : DWord) (priv : Nat) : Regs :=
  { v := [], s := SMap.set [] 63 (BitVec.ofNat 64 priv), p := [], j := [], latch := [], lvalid := 0, lmask := 0, badL := []
    pc := (List.range 32).foldl (fun acc l => acc.set l pc) [], live := BitVec.allOnes 32, ages := [], gseq := 0, bankconf := 0
    fpflags := 0, vec := 0, tmask := 0, frame := none }

/-- Warp n of a block of gang `lin` at its launch. -/
def Warp.start (l : LaunchRec) (chk : Bool) (gang lin ctx block n slot feeder : Nat) : Warp :=
  let r := Regs.launch l.entry l.priv
  { gang := gang, block := block, num := n, ctx := ctx, home := slot, vgrant := l.vgrant, tgrant := l.tg, priv := l.priv
    privBase := l.privBase + BitVec.ofNat 64 (32 * l.priv * (l.wpb * (l.bpg * lin + block) + n))
    gx := lin % l.gx, gy := lin / l.gx % l.gy, gz := lin / l.gx / l.gy, windows := l.windows
    r := r, tiles := [], waits := [], pend := [], results := [], platen := [], platHeld := false, heldTok := [], arrivals := []
    feeder := feeder, async := [], det := [], levels := [], galley := 0, lastCause := 0, rolls := 0, soft := false, codeSince := 0, constSince := 0, constSeq := 0, constOwn := 0
    badV := [], badS := [], badP := [], badJ := [], badT := [], proof := if chk then some ⟨r, [], [], []⟩ else none, resolved := 0, stopped := false }

/-- The warp fetches what the memory has held since its LAUNCH packet was parsed, and reads constant windows from its placement
on (R20, R30). -/
def Warp.since (w : Warp) (s : State) (parsed : Nat) : Warp :=
  { w with codeSince := parsed, constSince := s.past.length, constSeq := s.opSeq, constOwn := 0 }

/-- A block at its launch: its scratch reads zero and every bank is a scratchpad (R174, R177). -/
def Block.start (l : LaunchRec) (x : Site) : Block :=
  { forme := x.forme, banks := x.banks, modes := x.banks.map fun _ => .scratch, bytes := l.scratch, scratch := [], poison := []
    fifos := [], slots := x.slots, twins := x.twins, released := false }

/-- The warps of one block take their slots. -/
def State.startBlock (s : State) (w : Work) (l : LaunchRec) (chk : Bool) (gang lin block : Nat) (slots : List Nat) : State :=
  slots.zipIdx.foldl (fun a x =>
    let (f, a1) := a.assignFeeder w.rcbId (slotSheet x.1)
    a1.setWarp x.1 ((Warp.start l chk gang lin w.ctx block x.2 x.1 f).since a1 w.since)) s

/-- The warps of every block of a gang take their slots. -/
def State.startGang (s : State) (w : Work) (l : LaunchRec) (chk : Bool) (gang lin : Nat) (sites : List Site) : State :=
  sites.zipIdx.foldl (fun a x => a.startBlock w l chk gang lin x.2 x.1.slots) s

/-- Place the next gang of a record. -/
def State.placeGang (s : State) (w : Work) (l : LaunchRec) (sites : List Site) : State :=
  let chk := s.checkedOf w.rcbId
  let (id, s1) := s.fresh
  let g : Gang :=
    { id := id, launch := w.id, lin := w.next, chase := ((sites.head?.map Site.forme).getD 0) / 4
      blocks := sites.map (Block.start l), phase := .running, acks := [], saved := [], order := id, since := s.time, stopAt := 0
      saveTime := 0, yieldTo := none, relaunches := 0, checked := chk }
  let s2 := { s1 with gangs := s1.gangs ++ [g], compRR := w.id }.modWork w.id fun x => { x with next := x.next + 1 }
  s2.startGang w l chk id w.next sites

/-- The Compositor places the next gang of a launch record, in the slots given or where it first fits (R270, R271). -/
def execGangPlacement (launch : Nat) (slots : List Nat) (s : State) : Out :=
  match s.nextWork with
  | none => .fault .notEnabled
  | some w =>
    if w.id != launch then .fault .notEnabled
    else match w.launch.bind fun l => (s.sitesFor ⟨w, none⟩ slots).map fun x => (l, x) with
      | none => .fault .notEnabled
      | some (l, sites) => .next (s.placeGang w l sites)

/-- Give sites to the blocks of a gang that had been released; the others start again where they are. -/
def refill (l : LaunchRec) : List Block → List Site → List Block
  | [], _ => []
  | b :: t, sites =>
    if !b.released then Block.start l b.at :: refill l t sites
    else match sites with
      | [] => b :: refill l t []
      | x :: u => Block.start l x :: refill l t u

/-- A killed gang is placed again, every block starting again (R272, R408). -/
def execGangRelaunch (gang : Nat) (slots : List Nat) (s : State) : Out :=
  match s.gang gang with
  | none => .fault .notEnabled
  | some g =>
    match s.work g.launch with
    | none => .fault .notEnabled
    | some w => match w.launch with
      | none => .fault .notEnabled
      | some l =>
        match s.sitesFor ⟨w, some g⟩ slots with
        | none => .fault .notEnabled
        | some x =>
          if g.phase != .waitRelaunch || s.yields g then .fault .notEnabled
          else
            let blocks := refill l g.blocks x
            let s1 := s.modGang gang fun y => { y with
              blocks := blocks, phase := .running, since := s.time, relaunches := y.relaunches + 1 }
            .next (s1.startGang w l g.checked gang g.lin (blocks.map Block.at))

/-! ### The end of warps, blocks and gangs (R272, R295) -/

/-- Everything the warp issued has ended. -/
def State.retireReady (s : State) (slot : Nat) (w : Warp) : Bool :=
  w.r.live == 0 && !w.stopped && w.pend.isEmpty && w.platen.isEmpty && w.results.isEmpty && w.det.isEmpty &&
    (w.r.inHandler || w.async.isEmpty) && (s.warpCmds slot w).isEmpty && (match w.proof with
      | none => true
      | some p => p.lag.isEmpty)

/-- The asynchronous errors left by a warp that retires in its handler: each leaves a record; one that kills, kills. -/
def State.leaveErrors (s : State) (slot : Nat) (w : Warp) : State :=
  let kills (e : AsyncErr) : Bool := reliability e.cause || e.cause == 0xA4
  let s1 := (w.async.filter fun e => !kills e).foldl (fun a e => a.post (a.asyncErrata slot w e flagUndelivered 0)) s
  match w.async.filter kills with
  | [] => s1
  | e :: t =>
    let s2 := t.foldl (fun a x => a.post (a.asyncErrata slot w x flagUndelivered 0)) s1
    s2.killGang w.gang (s2.asyncErrata slot w e flagUndelivered 0)

/-- A block whose last warp has retired gives back what it holds. -/
def State.releaseBlock (s : State) (gang block : Nat) : State :=
  if s.warpList.any fun x => x.2.gang == gang && x.2.block == block then s
  else s.modGang gang fun g => g.modBlock block fun b => { b with scratch := [], poison := [], fifos := [], released := true }

/-- A gang whose last block has been released is finished. -/
def State.finishGang (s : State) (gang : Nat) : State :=
  match s.gang gang with
  | none => s
  | some g =>
    if g.blocks.all Block.released then
      { s with gangs := s.gangs.filter fun x => x.id != gang }.modWork g.launch fun w => { w with finished := w.finished + 1 }
    else s

/-- A warp whose last lane has exited retires. -/
def execWarpRetire (slot : Nat) (s0 : State) : Out :=
  let s := s0.settle slot
  match s.warp slot with
  | none => .fault .notEnabled
  | some w =>
    if !s.retireReady slot w then .fault .notEnabled
    else
      let s1 := s.leaveErrors slot w
      .next (match s1.warp slot with
        | none => s1
        | some _ => ((s1.dropWarp slot).releaseBlock w.gang w.block).finishGang w.gang)

/-! ### Watchdogs (R265, R266) -/

/-- A region control block's watchdog runs while one of its gangs is resident and not suspended (R265). -/
def State.rcbRuns (s : State) (x : Rcb) : Bool :=
  s.gangs.any fun g => g.phase != .suspended && s.under (s.gangRcb g) x.id

/-- The timer of a node that sets a limit has reached it, and has not acted since; or a gang of the subtree has become
resident after it acted. -/
def State.expired (s : State) (x : Rcb) : Bool :=
  bits x.ovr 6 1 == 1 && x.wdog != 0 && decide (1000 * x.wdog ≤ x.timer) && (!x.spent || s.rcbRuns x)

/-- A watchdog timer expires: its fault domain is killed. -/
def execWatchdogExpiry (rcb : Nat) (s : State) : Out :=
  match s.rcb rcb with
  | none => .fault .notEnabled
  | some x =>
    if !s.expired x then .fault .notEnabled
    else
      let s1 := { s with rcbs := s.rcbs.map fun (y : Rcb) => if y.id = rcb then { y with spent := true } else y }
      let s2 := s1.post (s1.unitErrata 0xE0 3 11 x.ctx x.index 0 0 0 0)
      .next (s2.killDomain (s2.domainOf rcb))

end Sys2Proof.Machine
end

