-- ==== Sys2Proof/Machine/Layout.lean ====
section
/-! DEFINITION. Layout records (R149 to R151) and the bytes that the Platen and the Feeders reach through them (R150,
R152, R169, R174, R208). -/

namespace Sys2Proof.Machine

def causeMalformedLayout : Nat := 0xA1
def causePartialGroup : Nat := 0xA0

/-! ### Records -/

/-- The alignment of an element. -/
def fmtAlign (fmt : Nat) : Nat := if fmt = 9 then 1 else fmtBytes fmt

/-- The fields of a record from its 32 bytes (R149). -/
def LRec.ofNat (x : Nat) : LRec :=
  { base := BitVec.ofNat 64 (bits x 0 64), fmt := bits x 64 4, space := bits x 68 2
    ext := (List.range 4).map fun i => bits x (96 + 16 * i) 16
    str := (List.range 4).map fun i => toSigned (bits x (160 + 24 * i) 24) 24 }

/-- A record's own checks (R149, R150). -/
def LRec.ok (x : Nat) : Bool :=
  let r := LRec.ofNat x
  decide (r.fmt ≤ 10) && r.space != 3 && bits x 70 26 == 0 && r.ext.all (fun e => e != 0) &&
    (if r.space = 0 then canonical r.base else decide (r.base.toNat < 2 ^ 32)) &&
    r.base.toNat % fmtAlign r.fmt == 0 && r.str.all (fun s => s % fmtAlign r.fmt == 0) &&
    (r.fmt != 6 || (r.st 0 == 0 && r.e 0 % 2 == 0))

/-- Read and check a record through the constant cache of a warp (R151, R242). -/
def State.readRecord (s : State) (slot : Nat) (w : Warp) (va : DWord) : Except MemStop LRec × State :=
  if va.toNat % 32 ≠ 0 then (.error (.fault (.plain causeMalformedLayout)), s)
  else match s.constWords slot w.ctx va 8 with
    | (.error (c, e, a), s1) => (.error (.fault ⟨c, a, BitVec.ofNat 64 kindLoad, BitVec.ofNat 64 e, 0⟩), s1)
    | (.ok (_, true), s1) => (.error (.poison va), s1)
    | (.ok (x, false), s1) =>
      (if LRec.ok x then .ok (LRec.ofNat x) else .error (.fault (.plain causeMalformedLayout)), s1)

/-- Several records in order. DESIGN CHOICE (log 45): of several bad records of one instruction the first in the order A, B,
SA, SB raises its cause (R151). -/
def State.readRecords (s : State) (slot : Nat) (w : Warp) : List DWord → Except MemStop (List LRec) × State
  | [] => (.ok [], s)
  | a :: t =>
    match s.readRecord slot w a with
    | (.error e, s1) => (.error e, s1)
    | (.ok r, s1) =>
      match s1.readRecords slot w t with
      | (.error e, s2) => (.error e, s2)
      | (.ok l, s2) => (.ok (r :: l), s2)

/-! ### Bytes -/

/-- A page translated for one step of an engine. -/
structure PageMap where
  half : Nat
  phys : Phys
  deriving DecidableEq, Repr, Inhabited

/-- The part of a page that an address lies in: before or behind the end of a sheet's HBM4 (R340). -/
def halfOf (a : Int) : Nat := 2 * pageNo a + (if wrap a 64 % 2 ^ 16 < frameEnd then 0 else 1)

/-- Translate the distinct pages of a list of global addresses, in order: each page once per step, but for the end of a sheet's
HBM4. A page that is moving holds what would write to it (R344). -/
def State.mapPages (s : State) (u ctx : Nat) (n : Need) : List PageMap → List Int → Except MemStop (List PageMap) × State
  | acc, [] => (.ok acc, s)
  | acc, a :: t =>
    if acc.any fun m => m.half == halfOf a then s.mapPages u ctx n acc t
    else
      let va := BitVec.ofNat 64 (wrap a 64)
      match s.translate u ctx va n with
      | (.error .poison, s1) => (.error (.poison va), s1)
      | (.error (.cause c e), s1) =>
        (.error (.fault ⟨c, va, BitVec.ofNat 64 kindEngine, BitVec.ofNat 64 e, 0⟩), s1)
      | (.ok p, s1) =>
        if p.mig && n != .read then (.error (.moving va), s1)
        else s1.mapPages u ctx n (⟨halfOf a, { p with pa := p.pa - wrap a 64 % 2 ^ 16 }⟩ :: acc) t

/-- The place of a byte on pages that are mapped. An interleaved page keeps its sheet over 256 KiB, so over a page. -/
def placeOn (m : List PageMap) (a : Int) : Place :=
  match m.find? fun x => x.half == halfOf a with
  | none => .hbm 0
  | some x => .hbm (hbmKey x.phys.sheet (x.phys.pa + wrap a 64 % 2 ^ 16))

/-- Where n-byte elements of global memory lie: each address in order (R150, R208, R343). -/
def State.globalPlaces (s : State) (u ctx : Nat) (n : Need) (size : Nat) (l : List Int) : Except MemStop (List Place) × State :=
  match l.find? fun a => !canonical (BitVec.ofNat 64 (wrap a 64)) with
  | some a => (.error (memFault causeNonCanonical a kindEngine), s)
  | none =>
    match s.mapPages u ctx n [] (l.flatMap fun a => if size = 2 ∧ a % 2 ≠ 0 then [a, a + 1] else [a]) with
    | (.error e, s1) => (.error e, s1)
    | (.ok m, s1) => (.ok (l.map (placeOn m)), s1)

/-- Where n-byte elements of scratch lie, for a warp (R174, R208). -/
def State.scratchPlaces (s : State) (slot : Nat) (w : Warp) (sp : Space) (size : Nat) (l : List Int) :
    Except MemStop (List Place) :=
  if w.away slot then .error (memFault causeScratchAway ((l.head?).getD 0) kindEngine)
  else match l.findSome? fun a => if a < 0 ∨ 2 ^ 32 ≤ a then some (memFault causeScratchBound a kindEngine)
      else s.checkBound slot w sp size kindEngine a with
    | some e => .error e
    | none => .ok (l.map fun a =>
        let (b, o) := scratchTarget sp w a.toNat
        .scr w.gang b o)

/-- Where the elements of an engine's step lie: each address of n bytes, in order (R150, R174, R208). -/
def State.engineParts (s : State) (slot : Nat) (w : Warp) (sp : Space) (n : Need) (size : Nat) (l : List Int) :
    Except MemStop (List Place) × State :=
  match sp with
  | .global => s.globalPlaces (slotQuadId slot) w.ctx n size l
  | _ => (s.scratchPlaces slot w sp size l, s)

/-- The byte that an engine acting for a warp reads: the galley's, a store that the warp may see, or the home's (R169,
R187, R196). -/
def State.engineByte (s : State) (w : Warp) (vis : List (Nat × Piece)) (sp : Space) (a : Int) (p : Place) : Byte :=
  match (if sp = .block then none else w.withLag.forward (sp = .gang) (wrap a 64)) with
  | some b => b
  | none => (newestByte vis p).getD (s.byte p)

/-- The value of n bytes; none where poisoned bytes are reached. -/
def State.engineValue (s : State) (w : Warp) (vis : List (Nat × Piece)) (sp : Space) (n : Nat) (a : Int) (p : Place) :
    Option Nat :=
  if s.poisoned p n || (sp != .block && (List.range n).any fun i => w.withLag.forwardBad (sp = .gang) (wrap (a + (i : Nat)) 64)) then
    none
  else some (leNat ((List.range n).map fun i => s.engineByte w vis sp (a + (i : Nat)) (p.add i)))

/-- Read the elements of a step of the Platen; a scale pair at the end of a page is read byte by byte. -/
def State.gather (s : State) (slot : Nat) (w : Warp) (rc : LRec) (l : List Int) : Except MemStop (List Nat) × State :=
  let n := fmtBytes rc.fmt
  let vis := s.visible slot
  let (byteList, m) := if rc.fmt = 9 then (l.flatMap fun a => [a, a + 1], 1) else (l, n)
  match s.engineParts slot w rc.sp .read m byteList with
  | (.error e, s1) => (.error e, s1)
  | (.ok ps, s1) =>
    let vals := (byteList.zip ps).map fun x => s1.engineValue w vis rc.sp m x.1 x.2
    match (byteList.zip vals).find? fun x => x.2.isNone with
    | some x => (.error (.poison (BitVec.ofNat 64 (wrap x.1 64))), s1)
    | none =>
      let v := vals.map fun x => x.getD 0
      (.ok (if rc.fmt = 9 then (List.range l.length).map fun i => v.getD (2 * i) 0 + 256 * v.getD (2 * i + 1) 0 else v), s1)

/-- The block and unit of a scratch byte (R175). -/
def unitOf (sp : Space) (w : Warp) (a : Int) : Nat × Nat :=
  let (b, o) := scratchTarget sp w a.toNat
  (b, o / 64)

/-- What one wave of accesses adds to `sr.bankconf` (R152, R176). -/
def State.waveConflicts (s : State) (slot : Nat) (w : Warp) (sp : Space) (l : List Int) : Nat :=
  s.bankConflicts slot w sp (l.map fun a => (0, a))

/-- The conflicts of a step: rows in waves of 16. -/
def State.stepConflicts (s : State) (slot : Nat) (w : Warp) (sp : Space) (rows : List (List Int)) : Nat :=
  (List.range 4).foldl (fun acc k => acc + s.waveConflicts slot w sp ((rows.drop (16 * k)).take 16).flatten) 0

end Sys2Proof.Machine
end

