-- ==== Sys2Proof/Machine/Platen.lean ====
section
/-! DEFINITION. The Platen (R143 to R171): issue into the queue of a warp, and the sequencer's steps. -/

namespace Sys2Proof.Machine

/-! ### Formats -/

/-- The FMT code of an operand format of mma (R162, R163). -/
def mfFmt : MF → Nat
  | .bf16 => 0
  | .f16 => 1
  | .e4m3 => 2
  | .e5m2 => 3
  | .i8 => 4
  | .n8 => 5
  | .e2m1 => 6

/-- k indices of one group (R153). -/
def mfGroup : MF → Nat
  | .bf16 | .f16 => 16
  | .e2m1 => 64
  | _ => 32

def mfInt : MF → Bool
  | .i8 | .n8 => true
  | _ => false

/-- The exact value of an element under its scale entry, if it has one (R79, R82, R164). -/
def mfValue (f : MF) (scale : Option Nat) (code : Nat) : FV :=
  match f, scale with
  | .bf16, _ => bf16.decode code
  | .f16, _ => f16.decode code
  | .e4m3, none => e4m3.decode code
  | .e5m2, none => e5m2.decode code
  | .e4m3, some s => blockValue .e4m3 s 0 code
  | .e5m2, some s => blockValue .e5m2 s 0 code
  | .e2m1, some s => blockValue .e2m1 (s % 256) (s / 256) code
  | _, _ => .zero false

def mfIntValue (f : MF) (code : Nat) : Int :=
  match f with
  | .i8 => toSigned code 8
  | _ => (code : Int)

/-- FMT and element width of the formats of acc (R165, R168). -/
def afFmt : AF → Nat
  | .f32 => 7
  | .f16 => 1
  | .bf16 => 0
  | .e4m3 => 2
  | .e5m2 => 3
  | .i32 => 8

def afBits : AF → Nat
  | .f32 | .i32 => 32
  | .f16 | .bf16 => 16
  | .e4m3 | .e5m2 => 8

/-- A value going into a tile (R165): widened exactly, a NaN canonical. -/
def intoTile (f : AF) (code : Nat) : Word :=
  let wide (x : Fmt) : Word := BitVec.ofNat 32 (f32.deliver .rn (x.decode code)).code
  match f with
  | .i32 => BitVec.ofNat 32 code
  | .f32 => wide f32
  | .f16 => wide f16
  | .bf16 => wide bf16
  | .e4m3 => wide e4m3
  | .e5m2 => wide e5m2

/-- A value to an 8-bit format with the canonical NaN, sign + (R75, R77). -/
def to8Plus (e5 : Bool) (md : RM) (ovf : Bool) (v : FV) : Nat :=
  let f := narrow8 e5
  let c := (to8 e5 md ovf v).code
  if (f.decode c).isNan then (if e5 then 0x7E else 0x7F) else c

/-- A value coming out of a tile (R165); `r` is the residual with .sum. -/
def outOfTile (f : AF) (md : RM) (ovf : Bool) (c : Word) (r : Option Word) : Nat :=
  let cv := f32.decode c.toNat
  let v : FV := match r with
    | none => cv
    | some y =>
      if cv.isFinite then
        let rv := f32.decode y.toNat
        if rv.isNan then rv else (FV.add md cv rv).getD quietNan
      else cv
  match f with
  | .i32 => c.toNat
  | .f32 => (f32.deliver md v).code
  | .f16 => (f16.deliver md v).code
  | .bf16 => (bf16.deliver md v).code
  | .e4m3 => to8Plus false md ovf v
  | .e5m2 => to8Plus true md ovf v

/-! ### Tiles -/

/-- The n words of a sorted map from key k on. -/
def denseFrom : Nat → Nat → SMap Word → List Word
  | 0, _, _ => []
  | n + 1, k, [] => 0 :: denseFrom n (k + 1) []
  | n + 1, k, (k', v) :: t => if k = k' then v :: denseFrom n (k + 1) t else 0 :: denseFrom n (k + 1) ((k', v) :: t)

/-- The 4,096 elements of a tile, row by row (R147). -/
def tileWords (tiles : SMap Word) (t : Nat) : List Word :=
  denseFrom 4096 (t * 4096) (tiles.filter fun x => x.1 / 4096 == t)

/-- Give a tile all its elements. -/
def setTile (tiles : SMap Word) (t : Nat) (l : List Word) : SMap Word :=
  (tiles.filter fun x => decide (x.1 / 4096 < t)) ++
    ((l.take 4096).zipIdx.filterMap fun x => if x.1 = 0 then none else some (t * 4096 + x.2, x.1)) ++
    (tiles.filter fun x => decide (t < x.1 / 4096))

/-- Cut a list into rows of n. -/
def rowsOf {α : Type} (n : Nat) : Nat → List α → List (List α)
  | 0, _ => []
  | k + 1, l => l.take n :: rowsOf n k (l.drop n)

def notFinite (x : Word) : Bool := !(f32.decode x.toNat).isFinite

/-- Some element of a tile is not finite (R147). -/
def tileNF (tiles : SMap Word) (t : Nat) : Bool := tiles.any fun x => x.1 / 4096 == t && notFinite x.2

/-! ### Issue (R143, R144, R151) -/

/-- What an operation must be given before it is accepted. -/
structure PlatReq where
  g : Guard
  recs : List (Fin 64)
  ok : List LRec → Bool
  forbid : List LRec → Bool
  src : Regs → Mask → SMap Word
  compared : Bool

/-- The registers that acc.wr captures (R167): register i of lane l at key 32·i + l. -/
def captured (r : Regs) (i : AccWrI) (act : Mask) : SMap Word :=
  (List.range (2 ^ i.nr.val)).foldl (fun acc k => (lanesOf act).foldl (fun a l => a.set (32 * k + l) (r.vget (i.a.val + k) l)) acc)
    []

/-- The words of captured registers, for comparison (R171). -/
def capturedWords (src : SMap Word) : List DWord := src.map fun x => BitVec.ofNat 64 (x.1 * 2 ^ 32 + x.2.toNat)

/-- A queued operation. -/
def platOp (sl : Slot) (w : Warp) (r : Regs) (act : Mask) (id : Nat) (recs : List LRec) (src : SMap Word) : PlatOp :=
  let chk := match sl.instr with
    | .mma i => i.ck || w.proof.isSome
    | .mmaRes i => i.m.ck || w.proof.isSome
    | _ => false
  { id := id, instr := sl.instr, act := act, recs := recs, src := src, next := 0, chk := chk, skip := false, sums := [], hurt := [], pc := sl.pc
    gseq := r.gseq.toNat, depth := w.levels.length }

/-- A poisoned record (R374): detected for the instruction, which does not issue. -/
def State.stayPoisoned (s : State) (sl : Slot) (w : Warp) (r : Regs) (act : Mask) (va : DWord) (unit : Nat) : State :=
  s.detectFor sl.w 0xC2 sl.pc r.gseq.toNat act va unit w.levels.length

/-- The number of a Platen operation. An acc.st takes the numbers of its four steps' stores with it, so that they keep its
place in the issue order (R168). -/
def State.freshFor (s : State) (i : Instr) : Nat × State :=
  let (id, s1) := s.fresh
  match i with
  | .accSt _ => (id, { s1 with opSeq := s1.opSeq + 4 })
  | _ => (id, s1)

/-- Accept a Platen instruction on its leading warp. DESIGN CHOICE (log 45): a malformed record goes before the region's
refusal of its space (R151, R170). -/
def State.leadPlaten (s : State) (sl : Slot) (w : Warp) (r : Regs) (act : Mask) (q : PlatReq) : State :=
  match s.readRecords sl.w w (q.recs.map fun k => r.sget k.val) with
  | (.error (.poison va), s1) => s1.stayPoisoned sl w r act va 2
  | (.error (.fault f), s1) => s1.raise sl act f
  | (.error (.moving _), s1) => s1
  | (.ok recs, s1) =>
    if !q.ok recs then s1.raise sl act (.plain causeMalformedLayout)
    else if !w.levels.isEmpty && q.forbid recs then s1.raise sl act (.plain causeForbidden)
    else
      let (id, s2) := s1.freshFor sl.instr
      let src := q.src r act
      (s2.finishWith sl r fun y =>
        if q.compared then { sl.lag y with compared := some (comparedOf sl.pc act [] (capturedWords src)) } else sl.lag y).modWarp
        sl.w fun y => { y with platen := y.platen ++ [platOp sl y r act id recs src] }

/-- A mismatch of a compared acc.wr drops it from the queue (R406). -/
def State.proofPlaten (s : State) (sl : Slot) (r : Regs) (act : Mask) (q : PlatReq) : State :=
  if q.compared then
    let mine := comparedOf sl.pc act [] (capturedWords (q.src r act))
    let good := match ((s.warp sl.w).bind Warp.proof).bind fun p => p.lag.head? with
      | some e => e.compared == some mine
      | none => true
    let s1 := s.compareProof sl r mine
    if good then s1 else s1.modWarp sl.w fun w => { w with platen := w.platen.filter fun o => o.gseq != r.gseq.toNat }
  else s.takeValues sl r

/-- A Platen instruction (R143): its group is whole, then its records are read and checked. -/
def State.platenInstr (s : State) (q : PlatReq) : Out :=
  s.onSlot fun s1 sl w r =>
    let act := active r sl.grp q.g
    .next (if sl.proof then s1.proofPlaten sl r act q
      else if !wholeGroup r sl.grp act then s1.raise sl act (.plain causePartialGroup)
      else s1.leadPlaten sl w r act q)

/-- No record, no registers. -/
def PlatReq.plain (g : Guard) : PlatReq :=
  { g := g, recs := [], ok := fun _ => true, forbid := fun _ => false, src := fun _ _ => [], compared := false }

/-- The requirements of mma on its records (R163). -/
def mmaOk (i : MmaI) (l : List LRec) : Bool :=
  match l with
  | a :: b :: sc =>
    a.fmt == mfFmt i.af && b.fmt == mfFmt i.bf && a.spanJ == 64 && b.spanJ == 64 && a.spanK == b.spanK &&
      a.spanK % mfGroup i.af == 0 && decide (a.spanK ≤ 65536) &&
      sc.all fun x => x.fmt == (if i.af = .e2m1 then 9 else 10) && x.spanK * 32 == a.spanK && x.spanJ == 64
  | _ => false

def mmaReq (i : MmaI) : PlatReq :=
  { PlatReq.plain i.g with
    recs := [i.sa, i.sb] ++ (match i.scale with
      | some (x, y) => [x, y]
      | none => [])
    ok := mmaOk i }

def execMma (i : MmaI) (s : State) : Out := s.platenInstr (mmaReq i)
def execMmaRes (i : MmaResI) (s : State) : Out := s.platenInstr (mmaReq i.m)
def execAccZero (i : AccZeroI) (s : State) : Out := s.platenInstr (.plain i.g)
def execAccRd (i : AccRdI) (s : State) : Out := s.platenInstr (.plain i.g)
def execAccWr (i : AccWrI) (s : State) : Out :=
  s.platenInstr { PlatReq.plain i.g with src := fun r act => captured r i act, compared := true }

/-- The record of acc.ld and acc.st (R168). -/
def accOk (f : AF) (l : List LRec) : Bool :=
  match l with
  | [x] => x.fmt == afFmt f && x.spanK == 64 && x.spanJ == 64
  | _ => false

def execAccLd (i : AccLdI) (s : State) : Out :=
  s.platenInstr { PlatReq.plain i.g with recs := [i.lrec], ok := accOk i.ft }
def execAccSt (i : AccStI) (s : State) : Out :=
  s.platenInstr { PlatReq.plain i.g with
    recs := [i.lrec], ok := accOk i.ft, forbid := fun l => l.any fun x => x.space != 1 }

/-! ### Steps (R153 to R158) -/

/-- What a step of an operation computes: the warp's tiles after it, words of vector registers, stores, a skip of the
comparison, bank conflicts. -/
structure StepRes where
  tiles : SMap Word
  vw : List (Nat × Word)
  skip : Bool
  conf : Nat
  stores : List (Int × Nat)
  sums : List ColSum
  deriving DecidableEq, Repr, Inhabited

/-- The addresses of a group of k indices, row by row. -/
def LRec.rows (rc : LRec) (k0 n : Nat) : List (List (Int × Nat)) :=
  (List.range 64).map fun j => (List.range n).map fun k => rc.addr (k0 + k) j

/-- Codes of elements from the bytes read: nibbles for E2M1. -/
def elemCodes (rc : LRec) (l : List (Int × Nat)) (v : List Nat) : List Nat :=
  if rc.fmt = 6 then (l.zip v).map fun x => bits x.2 (4 * x.1.2) 4 else v

/-- The addresses that stand for the bytes of an element in the count of units: of a scale pair, aligned to one byte,
both (R152, R176). -/
def LRec.touched (rc : LRec) (a : Int) : List Int := if rc.fmt = 9 then [a, a + 1] else [a]

/-- Read one operand of a step: rows of codes, and its bank conflicts. -/
def State.operandRows (s : State) (slot : Nat) (w : Warp) (rc : LRec) (k0 n : Nat) :
    Except MemStop (List (List Nat) × Nat) × State :=
  let rows := rc.rows k0 n
  match s.gather slot w rc (rows.flatten.map Prod.fst) with
  | (.error e, s1) => (.error e, s1)
  | (.ok v, s1) =>
    (.ok (rowsOf n 64 (elemCodes rc rows.flatten v), s1.stepConflicts slot w rc.sp (rows.map fun r => r.flatMap (rc.touched ∘ Prod.fst))), s1)

/-- Read every operand of an mma step: A, B and, with .sc, their scales. -/
def State.mmaOperands (s : State) (slot : Nat) (w : Warp) (i : MmaI) (g : Nat) :
    List LRec → Except MemStop (List (List (List Nat) × Nat)) × State
  | [] => (.ok [], s)
  | rc :: t =>
    let n := if rc.fmt = 9 ∨ rc.fmt = 10 then (mfGroup i.af + 31) / 32 else mfGroup i.af
    let k0 := if rc.fmt = 9 ∨ rc.fmt = 10 then g * mfGroup i.af / 32 else g * mfGroup i.af
    match s.operandRows slot w rc k0 n with
    | (.error e, s1) => (.error e, s1)
    | (.ok x, s1) =>
      match s1.mmaOperands slot w i g t with
      | (.error e, s2) => (.error e, s2)
      | (.ok l, s2) => (.ok (x :: l), s2)

/-- The values of one row of an operand under its scales. -/
def rowValues (f : MF) (scales : Option (List Nat)) (row : List Nat) : List FV :=
  row.zipIdx.map fun x => mfValue f (scales.map fun l => l.getD (x.2 / 32) 0) x.1

/-- The exact sum of the products of two rows; none when it is invalid or a NaN enters. -/
def dot (a b : List FV) : Option FV :=
  match (a.zip b).map fun x => if x.1.isNan || x.2.isNan then none else FV.mul x.1 x.2 with
  | [] => some (.zero false)
  | x :: t => t.foldl (fun acc y => acc.bind fun u => y.bind fun v => FV.add .rn u v) x

/-- One element's update (R153): the new main element, the new residual, whether G or c1 is not finite. -/
def accumulate (res : Bool) (g : Option FV) (c r : Word) : Word × Word × Bool :=
  let cv := f32.decode c.toNat
  let x := if cv.isNan then none else g.bind fun y => FV.add .rn cv y
  let c1 := match x with
    | none => f32.nanCode
    | some y => (f32.deliver .rn y).code
  let bad := (match g with
    | some y => !y.isFinite
    | none => true) || !(f32.decode c1).isFinite
  let r1 : Nat :=
    if !res then r.toNat
    else match x, f32.decode c1 with
      | some (.fin m e), .fin n k =>
        let (a, b) := addDyadic m e (-n) k
        f32.sumCanon [f32.decode r.toNat, if a = 0 then .zero false else .fin a b]
      | some (.fin m e), .zero _ => f32.sumCanon [f32.decode r.toNat, .fin m e]
      | some (.zero _), .zero _ => f32.sumCanon [f32.decode r.toNat, .zero false]
      | _, _ => 0
  (BitVec.ofNat 32 c1, BitVec.ofNat 32 r1, bad)

/-- One element's update in integers. -/
def accumulateInt (g : Int) (c : Word) : Word := BitVec.ofNat 32 (wrap ((c.toNat : Int) + g) 32)

/-! ### The column checksum (R157) -/

/-- A finite value as a dyadic. -/
def FV.dyadic : FV → Int × Int
  | .fin m e => (m, e)
  | _ => (0, 0)
def dyAdd (x y : Int × Int) : Int × Int := addDyadic x.1 x.2 y.1 y.2
def dyMul (x y : Int × Int) : Int × Int := (x.1 * y.1, x.2 + y.2)
def dyAbs (x : Int × Int) : Int × Int := ((x.1.natAbs : Int), x.2)
/-- x < y. -/
def dyLt (x y : Int × Int) : Bool := decide (0 < (dyAdd y (-x.1, x.2)).1)

/-- The sums of the columns of some rows. -/
def addRows (n : Nat) (rows : List (List (Int × Int))) : List (Int × Int) :=
  rows.foldl (fun acc r => (acc.zip r).map fun x => dyAdd x.1 x.2) (List.replicate n (0, 0))

/-- The checker's columns after a group: `a` are the rows of A, `b` those of B, one for each column of the tile, and `g` the
group sums that the step applies. -/
def colSums (a b g : List (List (Int × Int))) (old : List ColSum) : List ColSum :=
  let k := ((b.head?).getD []).length
  let ca := addRows k a
  let ma := addRows k (a.map fun r => r.map dyAbs)
  let d := addRows 64 g
  (b.zip d).zipIdx.map fun x =>
    let was : ColSum := old.getD x.2 default
    { p := dyAdd was.p ((ca.zip x.1.1).foldl (fun acc y => dyAdd acc (dyMul y.1 y.2)) (0, 0))
      d := dyAdd was.d x.1.2
      m := dyAdd was.m ((ma.zip x.1.1).foldl (fun acc y => dyAdd acc (dyMul y.1 (dyAbs y.2))) (0, 0)) }

/-- The error that a column shows: P − D. -/
def ColSum.diff (x : ColSum) : Int × Int := dyAdd x.p (-x.d.1, x.d.2)

/-- An error in a column that is always a mismatch: above 2^−14·M; of integers any, modulo 2^32. -/
def ColSum.sure (int : Bool) (x : ColSum) : Bool :=
  if int then (x.diff.1 * 2 ^ x.diff.2.toNat) % 2 ^ 32 != 0 else dyLt (x.m.1, x.m.2 - 14) (dyAbs x.diff)

/-- An error in a column below that bound: the checker's own roundings decide. -/
def ColSum.perhaps (int : Bool) (x : ColSum) : Bool := !int && x.diff.1 != 0

/-- The end of a checked operation: "Platen checksum mismatch" is detected for it (R157). -/
def State.checkSums (s : State) (slot : Nat) (o : PlatOp) : State :=
  let int := match o.instr with
    | .mma i => mfInt i.af
    | .mmaRes i => mfInt i.m.af
    | _ => false
  let fail (t : State) : State := t.detectFor slot 0xC4 o.pc o.gseq o.act 0 2 o.depth
  if o.sums.any (ColSum.sure int) then fail s
  else if o.sums.any (ColSum.perhaps int) then
    let (k, s1) := s.pick 2
    if k = 1 then fail s1 else s1
  else s

/-- A group sum with the errors that strike it. -/
def hurtSum (hurt : List (Nat × Int × Int)) (e : Nat) (g : Option FV) : Option FV :=
  hurt.foldl (fun acc x => if x.1 = e then acc.bind (FV.add .rn (if x.2.1 = 0 then .zero false else .fin x.2.1 x.2.2)) else acc) g

/-- One group of an mma over the whole tile; `o` holds the checker's columns so far. -/
def mmaGroup (o : PlatOp) (i : MmaI) (res : Option (Fin 8)) (ops : List (List (List Nat) × Nat)) (tiles : SMap Word) :
    StepRes :=
  let a := ((ops[0]?).getD default).1
  let b := ((ops[1]?).getD default).1
  let conf := ops.foldl (fun n x => n + x.2) 0
  let c := rowsOf 64 64 (tileWords tiles i.d.val)
  if mfInt i.af then
    let av := a.map fun x => x.map (mfIntValue i.af)
    let bv := b.map fun x => x.map (mfIntValue i.bf)
    let g := av.zipIdx.map fun x => bv.zipIdx.map fun y =>
      ((x.1.zip y.1).map fun z => z.1 * z.2).foldl (· + ·) 0 +
        o.hurt.foldl (fun n z => if z.1 = 64 * x.2 + y.2 then n + z.2.1 * 2 ^ z.2.2.toNat else n) 0
    let l := ((g.zip c).map fun x => (x.1.zip x.2).map fun y => accumulateInt y.1 y.2).flatten
    let dy (l : List (List Int)) : List (List (Int × Int)) := l.map fun x => x.map fun y => (y, 0)
    let sums1 := if o.chk then colSums (dy av) (dy bv) (dy g) o.sums else []
    { tiles := setTile tiles i.d.val l, vw := [], skip := false, conf := conf, stores := [], sums := sums1 }
  else
    let sa := (ops[2]?).map Prod.fst
    let sb := (ops[3]?).map Prod.fst
    let av := a.zipIdx.map fun x => rowValues i.af (sa.map fun l => l.getD x.2 []) x.1
    let bv := b.zipIdx.map fun x => rowValues i.bf (sb.map fun l => l.getD x.2 []) x.1
    let r := match res with
      | some t => rowsOf 64 64 (tileWords tiles t.val)
      | none => c
    let g := av.zipIdx.map fun x => bv.zipIdx.map fun y => hurtSum o.hurt (64 * x.2 + y.2) (dot x.1 y.1)
    let out := ((g.zip (c.zip r)).map fun x => (x.1.zip (x.2.1.zip x.2.2)).map fun y =>
      accumulate res.isSome y.1 y.2.1 y.2.2).flatten
    let t1 := setTile tiles i.d.val (out.map fun x => x.1)
    let bad := (out.any fun x => x.2.2) || (av.any fun x => x.any fun y => !y.isFinite) ||
      (bv.any fun x => x.any fun y => !y.isFinite)
    let dy (l : List (List FV)) : List (List (Int × Int)) := l.map fun x => x.map FV.dyadic
    let sums1 := if o.chk then
        colSums (dy av) (dy bv) (dy (g.map fun x => x.map fun y => y.getD (.zero false))) o.sums
      else []
    { tiles := match res with
        | some t => setTile t1 t.val (out.map fun x => x.2.1)
        | none => t1
      vw := [], skip := bad, conf := conf, stores := [], sums := sums1 }

/-- A step of mma. -/
def State.mmaStep (s : State) (slot : Nat) (w : Warp) (o : PlatOp) (i : MmaI) (res : Option (Fin 8)) :
    Except MemStop StepRes × State :=
  match s.mmaOperands slot w i o.next o.recs with
  | (.error e, s1) => (.error e, s1)
  | (.ok ops, s1) => (.ok (mmaGroup o i res ops w.tiles), s1)

/-- The elements of a register of acc.rd and acc.wr. -/
def perReg (f : AF) : Nat := 32 / afBits f

/-- acc.rd: the words of its registers in the active lanes (R167). -/
def accRdWords (i : AccRdI) (act : Mask) (tiles : SMap Word) : List (Nat × Word) :=
  (lanesOf act).flatMap fun l => (List.range (2 ^ i.nr.val)).map fun k =>
    ((i.d.val + k) * 32 + l, BitVec.ofNat 32 ((List.range (perReg i.ft)).foldl (fun acc j =>
      let e := (32 * i.rh.val + l) * 64 + i.col.val + k * perReg i.ft + j
      acc + 2 ^ (afBits i.ft * j) * outOfTile i.ft i.rm i.ovf (tiles.get (i.a.val * 4096 + e))
        (i.sum.map fun t => tiles.get (t.val * 4096 + e))) 0))

/-- acc.wr: the tile after its rows are written (R167). -/
def accWrTiles (i : AccWrI) (act : Mask) (src tiles : SMap Word) : SMap Word :=
  (lanesOf act).foldl (fun acc l => (List.range (2 ^ i.nr.val)).foldl (fun a k => (List.range (perReg i.ft)).foldl (fun b j =>
    b.set (i.d.val * 4096 + (32 * i.rh.val + l) * 64 + i.col.val + k * perReg i.ft + j)
      (intoTile i.ft (bits (src.get (32 * k + l)).toNat (afBits i.ft * j) (afBits i.ft)))) a) acc) tiles

/-- A step of acc.ld: 16 rows. -/
def State.accLdStep (s : State) (slot : Nat) (w : Warp) (o : PlatOp) (i : AccLdI) : Except MemStop StepRes × State :=
  let rc := (o.recs.head?).getD default
  let rows := rc.rows16 o.next
  match s.gather slot w rc rows.flatten with
  | (.error e, s1) => (.error e, s1)
  | (.ok v, s1) =>
    let old := tileWords w.tiles i.d.val
    (.ok { tiles := setTile w.tiles i.d.val (old.take (1024 * o.next) ++ v.map (intoTile i.ft) ++ old.drop (1024 * (o.next + 1)))
           vw := [], skip := false, conf := s1.waveConflicts slot w rc.sp rows.flatten, stores := [], sums := [] }, s1)

/-- A step of acc.st: 16 rows, in rising rows and columns. -/
def accStStep (s : State) (slot : Nat) (w : Warp) (o : PlatOp) (i : AccStI) : StepRes :=
  let rc := (o.recs.head?).getD default
  let rows := rc.rows16 o.next
  let c := ((tileWords w.tiles i.a.val).drop (1024 * o.next)).take 1024
  let r := match i.sum with
    | some t => (((tileWords w.tiles t.val).drop (1024 * o.next)).take 1024).map some
    | none => c.map fun _ => none
  let vals := (c.zip r).map fun x => outOfTile i.ft i.rm i.ovf x.1 x.2
  { tiles := w.tiles, vw := [], skip := false, conf := s.waveConflicts slot w rc.sp rows.flatten
    stores := rows.flatten.zip vals, sums := [] }

/-- The steps of an operation (R155). -/
def PlatOp.steps (o : PlatOp) : Nat :=
  match o.instr with
  | .mma i => ((o.recs.head?).getD default).spanK / mfGroup i.af
  | .mmaRes i => ((o.recs.head?).getD default).spanK / mfGroup i.m.af
  | .accLd _ | .accSt _ => 4
  | _ => 1

/-- Gather and compute one step of an operation. -/
def State.platStep (s : State) (slot : Nat) (w : Warp) (o : PlatOp) : Except MemStop StepRes × State :=
  let simple (t : SMap Word) (vw : List (Nat × Word)) : Except MemStop StepRes × State :=
    (.ok { tiles := t, vw := vw, skip := false, conf := 0, stores := [], sums := [] }, s)
  match o.instr with
  | .mma i => s.mmaStep slot w o i none
  | .mmaRes i => s.mmaStep slot w o i.m (some i.r)
  | .accZero i => simple (setTile w.tiles i.d.val []) []
  | .accRd i => simple w.tiles (accRdWords i (o.act &&& w.r.live) w.tiles)
  | .accWr i => simple (accWrTiles i o.act o.src w.tiles) []
  | .accLd i => s.accLdStep slot w o i
  | .accSt i => (.ok (accStStep s slot w o i), s)
  | _ => simple w.tiles []

/-- The elements of a tile that acc.rd and acc.wr name in some lanes: key tile·4096 + e. -/
def inRows (t rh col n : Nat) (act : Mask) (e : Nat) : Bool :=
  e / 4096 == t && decide (32 * rh ≤ e % 4096 / 64 ∧ e % 4096 / 64 < 32 * rh + 32) && lane act (e % 4096 / 64 - 32 * rh) &&
    decide (col ≤ e % 64 ∧ e % 64 < col + n)

/-- An element that the operation's next step reads (R148). -/
def PlatOp.readsElem (o : PlatOp) (e : Nat) : Bool :=
  let tile (t : Option (Fin 8)) : Bool := t.any fun x => x.val == e / 4096
  match o.instr with
  | .mma i => e / 4096 == i.d.val
  | .mmaRes i => e / 4096 == i.m.d.val || e / 4096 == i.r.val
  | .accRd i => (some i.a :: [i.sum]).any fun t => tile t && inRows (e / 4096) i.rh.val i.col.val (2 ^ i.nr.val * perReg i.ft) o.act e
  | .accSt i => (some i.a :: [i.sum]).any fun t => tile t && e % 4096 / 1024 == o.next
  | _ => false

/-- An element that the operation's next step overwrites unread: its error is gone (R148). -/
def PlatOp.overwrites (o : PlatOp) (e : Nat) : Bool :=
  match o.instr with
  | .accZero i => e / 4096 == i.d.val
  | .accWr i => inRows i.d.val i.rh.val i.col.val (2 ^ i.nr.val * perReg i.ft) o.act e
  | .accLd i => e / 4096 == i.d.val && e % 4096 / 1024 == o.next
  | _ => false

/-- The tiles that a step reads and writes. -/
def PlatOp.use (o : PlatOp) : Use := useOf o.instr

/-! ### The end of an operation -/

/-- The token of an operation. -/
def PlatOp.token (o : PlatOp) : Option (Fin 64) :=
  match o.instr with
  | .mma i => i.tk
  | .mmaRes i => i.m.tk
  | .accLd i => i.tk
  | _ => none

/-- The completion word (R160). -/
def PlatOp.word (o : PlatOp) (tiles : SMap Word) : DWord :=
  let nf := o.use.tw.any fun t => tileNF tiles t
  BitVec.ofNat 64 (o.next % 2 ^ 16 + 2 ^ 16 * o.chk.toNat + 2 ^ 17 * (o.chk && o.skip).toNat + 2 ^ 18 * nf.toNat)

/-- The stores of an acc.st step go into flight as plain stores of the warp (R168). -/
def State.platStores (s : State) (slot : Nat) (w : Warp) (o : PlatOp) (l : List (Int × Nat)) : Except MemStop MemOp × State :=
  match o.instr with
  | .accSt i =>
    let rc := (o.recs.head?).getD default
    let n := fmtBytes rc.fmt
    match s.engineParts slot w rc.sp .write n (l.map Prod.fst) with
    | (.error e, s1) => (.error e, s1)
    | (.ok ps, s1) =>
      let pieces := (l.zip ps).map fun x => ({ Part.piece ⟨0, x.2, BitVec.ofNat 64 (wrap x.1.1 64), n, false, true⟩ with
        data := x.1.2 % 2 ^ (8 * n) } : Piece)
      let (p1, s2) := s1.chooseLocal pieces
      (.ok { id := o.id + 1 + o.next, kind := .store, pieces := p1, ord := .plain, scope := .warp, sbc := i.sb.val + 1, cp := 0
             uncached := false, pc := o.pc, gseq := o.gseq, lanes := o.act, depth := o.depth }, s2)
  | _ => (.error (.fault (.plain 0)), s)

/-- Apply a step: tiles, registers, conflicts; the last step ends the operation. -/
def State.platApply (s : State) (slot : Nat) (o : PlatOp) (x : StepRes) (op : Option MemOp) : State :=
  let o1 := { o with next := o.next + 1, skip := o.skip || x.skip, sums := x.sums, hurt := [] }
  let last := decide (o.steps ≤ o1.next)
  let s1 := s.modWarp slot fun w =>
    let w1 := { w with
      tiles := x.tiles
      r := { w.r.writeV x.vw with bankconf := w.r.bankconf + BitVec.ofNat 64 x.conf }
      pend := op.toList.foldl (fun l x => insertOp x l) w.pend
      badT := w.badT.filter fun e => !o.overwrites e
      platen := if last then w.platen.filter (fun y => y.id != o.id) else w.platen.map fun y => if y.id = o.id then o1 else y }
    if !last then w1
    else
      let sw : List (Nat × DWord) := (o.token.map fun t => (t.val, o1.word x.tiles)).toList
      let out : Writes := ⟨x.vw, sw, [], []⟩
      let w2 := { w1 with r := w1.r.deliver o.gseq ⟨[], sw, [], []⟩ }
      if x.vw.isEmpty && sw.isEmpty then w2 else w2.giveValues o.gseq out
  let s2 := s1.stampStores slot
  if !(last && o1.chk) then s2
  else if o1.skip then { s2 with skip := s2.skip.modify (slotQuadId slot) fun n => n + 1 }
  else s2.checkSums slot o1

/-- Poisoned operand bytes (R374): no update, no token; the operation ends and the token stays held. -/
def State.platPoison (s : State) (slot : Nat) (o : PlatOp) (va : DWord) : State :=
  (s.modWarp slot fun w =>
    { w with platen := w.platen.filter (fun y => y.id != o.id), heldTok := w.heldTok ++ o.token.toList }).detectFor slot 0xC2
    o.pc o.gseq o.act va 2 o.depth

/-- An operand access that faults (R156): the operations wait in the replay queue; the fault is asynchronous. -/
def State.platFault (s : State) (slot : Nat) (o : PlatOp) (f : SyncFault) : State :=
  (s.modWarp slot fun w => match w.r.frame with
    | some fr =>
      { w with platen := []
               r := { w.r with frame := some { fr with
                 replay := w.platen.foldl (fun l y => insertReplay (.plat y) l) fr.replay } } }
    | none => { w with platHeld := true }).queueAsync slot
    { cause := f.cause, pc := o.pc, gseq := o.gseq, lanes := o.act, laddr := f.laddr, w0 := f.w0, w1 := f.w1, unit := 2, index := 0
      level := o.depth, time := s.time, soft := false }

/-- An accumulator element with an uncorrectable error that a step reads is detected (R148, R411). -/
def State.platEcc (s : State) (slot : Nat) (w : Warp) (o : PlatOp) : State :=
  if w.badT.any o.readsElem then
    (if w.detected o.gseq then s else s.detectFor slot 0xC5 o.pc o.gseq o.act 0 2 o.depth)
  else s

/-- One step of an operation: none where the page of a store is moving. -/
def State.platRun (s : State) (slot : Nat) (w : Warp) (o : PlatOp) : Option State :=
  match s.platStep slot w o with
  | (.error (.fault f), s1) => some (s1.platFault slot o f)
  | (.error (.poison va), s1) => some (s1.platPoison slot o va)
  | (.error (.moving _), _) => none
  | (.ok x, s1) =>
    if x.stores.isEmpty then some ((s1.platApply slot o x none).platEcc slot w o)
    else match s1.platStores slot w o x.stores with
      | (.error (.fault f), s2) => some (s2.platFault slot o f)
      | (.error (.poison va), s2) => some (s2.platPoison slot o va)
      | (.error (.moving _), _) => none
      | (.ok op, s2) => some ((s2.platApply slot o x (some op)).platEcc slot w o)

/-- An operation whose steps read operands in memory (R169). -/
def PlatOp.gathers (o : PlatOp) : Bool :=
  match o.instr with
  | .mma _ | .mmaRes _ | .accLd _ => true
  | _ => false

/-- The operation of a warp whose next step can be made: the oldest, the operations of its replay queue before it, once its
proof warp has compared it and, where it reads memory, once every earlier access of the warp has been performed (R145, R169,
R171). -/
def State.platReady (s : State) (w : Warp) : Option PlatOp :=
  match w.platen with
  | [] => none
  | o :: _ =>
    let running := (s.gang w.gang).any fun g => g.phase == .running || g.phase == .stopping
    let compared := match w.proof, o.instr with
      | some p, .accWr _ => p.lag.all fun e => e.gseq != o.gseq
      | _, _ => true
    if running && !w.platHeld && w.r.replayPlat.isEmpty && compared &&
      (!o.gathers || w.inFlight.all fun x => decide (o.id < x.id)) then some o else none

/-- The Platen of a warp's gang has been asked to stop and has acknowledged (R328). -/
def State.platStopped (s : State) (slot : Nat) (w : Warp) : Bool :=
  (s.gang w.gang).any fun g => g.acks.contains (.platen slot)

/-- The warps of a quadrant whose Platen queue has a ready step, in round robin after the one served last. -/
def State.platWarps (s : State) (q : Nat) : List (Nat × Warp × PlatOp) :=
  let first := s.platRR.get q + 1
  ((List.range 17).map fun k => q * 17 + (first + k) % 17).filterMap fun slot =>
    (s.warp slot).bind fun w => if s.platStopped slot w then none else (s.platReady w).map fun o => (slot, w, o)

/-- Candidates by class, the highest first, and in the order of the round robin within a class (R146). -/
def State.byClass (s : State) (l : List (Nat × Warp × PlatOp)) : List (Nat × Warp × PlatOp) :=
  (List.range 4).flatMap fun c => l.filter fun x => s.warpClass x.2.1 == c

/-- One step of the Platen of a quadrant (R146, R155). -/
def execPlatenStep (q : Nat) (s0 : State) : Out :=
  let s := s0.settleQuad q
  match (s.byClass (s.platWarps q)).findSome? fun x => (s.platRun x.1 x.2.1 x.2.2).map fun t => (x.1, t) with
  | none => .fault .notEnabled
  | some (slot, t) => .next { t with platRR := t.platRR.set q (slotNum slot) }

end Sys2Proof.Machine
end

