-- ==== Sys2Proof/Machine/Reduce.lean ====
section
/-! DEFINITION. The reduction modes of the Feeders (R249) and the absent blocks of their streams (R250). Elements are
numbers: f32, bf16 and i32 codes, or a pair of f32 with the main word low. Local formats carry the BFMT codes of R252:
0 f32, 1 bf16, 2 i32, 3 pair. -/

namespace Sys2Proof.Machine

/-- Element size of a local or wire format (R254). -/
def bfmtBytes (b : Nat) : Nat :=
  match b with
  | 1 => 2
  | 3 => 8
  | _ => 4

/-- The wire format of a reduction mode from the sender's format (R249). -/
def wireFmt (rop b : Nat) : Nat :=
  match rop with
  | 0 => b
  | 2 => 1
  | 3 => 3
  | 6 => 2
  | _ => 0

/-- The local formats a reduction mode permits (R249). -/
def ropFits (rop b : Nat) : Bool :=
  match rop with
  | 0 => true
  | 2 => b == 0 || b == 1
  | 3 => b == 0 || b == 3
  | 6 => b == 2
  | _ => b == 0

/-- An f32 code narrowed to bf16, and a bf16 code widened, NaNs canonical (R75, R249). -/
def toBf16 (x : Nat) : Nat := (bf16.deliver .rn (f32.decode x)).code
def ofBf16 (x : Nat) : Nat := (f32.deliver .rn (bf16.decode x)).code

/-- x − s for a sum x and what it rounded to; zero where both are. -/
def residue (x s : FV) : FV :=
  match x, s with
  | .fin m e, .fin n g =>
    let (a, b) := addDyadic m e (-n) g
    if a = 0 then .zero false else .fin a b
  | .fin m e, .zero _ => .fin m e
  | _, _ => .zero false

/-- The hop of .sum.cmp (R249). -/
def hop (a b : Nat) : Nat :=
  let ma := f32.decode (a % 2 ^ 32)
  let mb := f32.decode (b % 2 ^ 32)
  if ma.isNan || mb.isNan then f32.nanCode
  else match FV.add .rn ma mb with
    | none => f32.nanCode
    | some x =>
      let s := (f32.deliver .rn x).code
      if (f32.decode s).isFinite then
        s + 2 ^ 32 * f32.sumCanon [f32.decode (a / 2 ^ 32), f32.decode (b / 2 ^ 32), residue x (f32.decode s)]
      else s

/-- An f32 from a pair (R249). -/
def unpair (p : Nat) : Nat :=
  let m := f32.decode (p % 2 ^ 32)
  if m.isFinite then f32.sumCanon [m, f32.decode (p / 2 ^ 32)] else (f32.deliver .rn m).code

/-- A local element as it goes on the wire (R249). -/
def toWire (rop b x : Nat) : Nat := if rop = 2 ∧ b = 0 then toBf16 x else x

/-- A wire element in a local format, where nothing is combined (R250). -/
def fromWire (rop b x : Nat) : Nat :=
  if rop = 2 ∧ b = 0 then ofBf16 x else if rop = 3 ∧ b = 0 then unpair x else x

/-- A local element in another local format, where nothing is combined (R250). -/
def convLocal (a b x : Nat) : Nat :=
  if a = b then x
  else match a, b with
    | 3, 0 => unpair x
    | 1, 0 => ofBf16 x
    | 0, 1 => toBf16 x
    | _, _ => x

/-- A local element d combined with a wire element s (R249): an f32 under .sum.bf16w, a pair under .sum.cmp. -/
def joined (rop b d s : Nat) : Nat :=
  match rop with
  | 1 => f32.addCanon (f32.decode d) (f32.decode s)
  | 2 => f32.addCanon (if b = 1 then bf16.decode d else f32.decode d) (bf16.decode s)
  | 3 => hop d s
  | 4 => f32.minmaxCanon true d s
  | 5 => f32.minmaxCanon false d s
  | 6 => (d + s) % 2 ^ 32
  | _ => s

/-- A combined element on the wire, and in a local format. -/
def joinedWire (rop y : Nat) : Nat := if rop = 2 then toBf16 y else y
def joinedLocal (rop b y : Nat) : Nat :=
  if rop = 2 ∧ b = 1 then toBf16 y else if rop = 3 ∧ b = 0 then unpair y else y

/-- Cut a list into pieces of n, at most k. -/
def piecesOf {α : Type} (n : Nat) : Nat → List α → List (List α)
  | 0, _ => []
  | k + 1, l => if l.isEmpty then [] else l.take n :: piecesOf n k (l.drop n)

/-- An element with its poison. -/
abbrev Elem := Nat × Bool

/-- Whether each element lies in a present block of 128 bytes (R250); a poisoned element is not known to be zero. -/
def presence (size : Nat) (l : List Elem) : List Bool :=
  (piecesOf (128 / size) l.length l).flatMap fun b => b.map fun _ => b.any fun x => x.1 != 0 || x.2

/-- What a combination writes locally, in format `b`, and what it sends: the element as a local and as a wire element.
The first is none where both operands are absent (R250). -/
def combineOne (rop a b : Nat) (d s : Elem) (dp sp : Bool) : Option Elem × Elem :=
  if dp && sp then
    let y := joined rop a d.1 s.1
    (some (joinedLocal rop b y, d.2 || s.2), (joinedWire rop y, d.2 || s.2))
  else if sp then (some (fromWire rop b s.1, s.2), s)
  else if dp then (some (convLocal a b d.1, d.2), (toWire rop a d.1, d.2))
  else (none, (0, false))

/-- Combine local elements of format a with wire elements; both streams start at a block (R250, R251). -/
def combineAll (rop a b : Nat) (d s : List Elem) : List (Option Elem × Elem) :=
  ((d.zip (presence (bfmtBytes a) d)).zip (s.zip (presence (bfmtBytes (wireFmt rop a)) s))).map fun x =>
    combineOne rop a b x.1.1 x.2.1 x.1.2 x.2.2

end Sys2Proof.Machine
end

