-- ==== Sys2Proof/Machine/Feeder.lean ====
section
/-! DEFINITION. The Feeders (R198, R199, R238 to R260): the issue of cpy and imp.start, the end of a command, and the
chunks of copies. -/

namespace Sys2Proof.Machine

/-! ### Layout records of a copy (R245, R246, R249) -/

def LRec.count (r : LRec) : Nat := r.spanK * r.spanJ

/-- The local format of a layout record under a reduction. -/
def lrecBfmt (rop : Nat) (r : LRec) : Nat :=
  match r.fmt with
  | 0 => 1
  | 8 => 2
  | _ => if rop = 3 then 3 else 0

/-- The formats fit the instruction. -/
def copyFormats (k : CmdKind) (d s : LRec) : Bool :=
  match k with
  | .red rop =>
    let fits (r : LRec) : Bool := (r.fmt == 0 || r.fmt == 7 || r.fmt == 8) && ropFits rop (lrecBfmt rop r)
    fits d && fits s && (rop != 3 || d.count % 2 == 0)
  | _ => fmtBytes d.fmt == fmtBytes s.fmt

/-- The records of a copy fit each other (R245). -/
def copyOk (k : CmdKind) (d s : LRec) : Bool :=
  d.count == s.count && d.fmt != 6 && s.fmt != 6 && decide (d.count * fmtBytes d.fmt < 2 ^ 40) &&
    decide (s.count * fmtBytes s.fmt < 2 ^ 40) && copyFormats k d s

/-! ### Descriptors (R252) -/

def causeMalformedDesc : Nat := 0xA2

/-- Byte i of a record of bytes. -/
def byteOf (x i : Nat) : Nat := bits x (8 * i) 8

/-- The fields of a descriptor from its 128 bytes. -/
def Desc.ofNat (x : Nat) : Desc :=
  { prog := BitVec.ofNat 64 x, nstep := bits x 64 16, feeder := bits x 80 4, tag := bits x 88 8
    rank := [byteOf x 12, bits x 128 16], size := [byteOf x 13, bits x 144 16], timeout := bits x 160 32
    peers := BitVec.ofNat 64 (bits x 192 64), feed := (List.range 16).map fun i => byteOf x (32 + i) % 16
    buf := (List.range 8).map fun i => BitVec.ofNat 64 (bits x (384 + 64 * i) 64)
    bfmt := (List.range 8).map fun i => byteOf x (112 + i) % 4 }

/-- A descriptor's own checks. -/
def Desc.ok (x : Nat) : Bool :=
  let d := Desc.ofNat x
  let n (l : List Nat) (i : Nat) : Nat := l.getD i 0
  d.prog.toNat % 32 == 0 && d.nstep != 0 && bits x 84 4 == 0 && bits x 112 16 == 0 &&
    decide (1 ≤ n d.size 0 ∧ n d.size 0 ≤ 16 ∧ n d.rank 0 < n d.size 0) &&
    decide (1 ≤ n d.size 1 ∧ n d.rank 1 < n d.size 1) && d.peers.toNat % 32 == 0 &&
    ((n d.size 1 == 1) == (d.peers == 0)) && ((List.range 16).all fun i => byteOf x (32 + i) < 16) &&
    n d.feed (n d.rank 0) == d.feeder && ((List.range 8).all fun i => byteOf x (112 + i) < 4) && bits x 960 64 == 0

/-- A feature bit is accepted and locked (R354, R356). -/
def State.feature (s : State) (i : Nat) : Bool :=
  s.featLock == 1 && bits (s.featAccept.getD (i / 64) 0).toNat (i % 64) 1 == 1

/-- A descriptor that an RCB may start (R252, R356). -/
def State.descOk (s : State) (rcb x : Nat) : Bool :=
  Desc.ok x && s.feature 8 && (s.allowedFeeders rcb).contains (Desc.ofNat x).feeder

/-- A program at its first step. -/
def ImpState.start (d : Desc) : ImpState :=
  { desc := d, step := 0, cur := none, ctr := [0, 0, 0, 0], loops := [], begun := false, outNo := none, sent := 0, grant := none
    ins := [], idle := 0, offers := [], lastOut := [], aborts := [] }

/-! ### Issue (R241, R242, R259) -/

/-- The checks of a barrier that a copy is tied to, and where it lies. -/
def State.tieCheck (s : State) (slot : Nat) (w : Warp) (scratch : Bool) (va : DWord) : Except MemStop Place × State :=
  if scratch then
    match s.access slot w .block 16 .readWrite kindLoad [(0, (va.toNat : Int))] with
    | (.ok (p :: _), s1) => (.ok p.place, s1)
    | (.ok [], s1) => (.error (memFault causeScratchBound va.toNat kindLoad), s1)
    | (.error e, s1) => (.error e, s1)
  else match checkForm .global 16 kindLoad va.toNat with
    | some e => (.error e, s)
    | none => match s.translate (slotQuadId slot) w.ctx va .readWrite with
      | (.error .poison, s1) => (.error (.poison va), s1)
      | (.error (.cause c e), s1) => (.error (.fault ⟨c, va, BitVec.ofNat 64 kindLoad, BitVec.ofNat 64 e, 0⟩), s1)
      | (.ok p, s1) => (.ok p.place, s1)

/-- The checks of a word or record in global memory of which a command writes n bytes. -/
def State.wordCheck (s : State) (u ctx : Nat) (n : Nat) (need : Need) (kind : Nat) (va : DWord) : Option MemStop × State :=
  match checkForm .global n kind va.toNat with
  | some e => (some e, s)
  | none => match s.translate u ctx va need with
    | (.error .poison, s1) => (some (.poison va), s1)
    | (.error (.cause c e), s1) => (some (.fault ⟨c, va, BitVec.ofNat 64 kind, BitVec.ofNat 64 e, 0⟩), s1)
    | (.ok _, s1) => (none, s1)

/-- As `wordCheck` where the address may be absent. -/
def State.wordCheck? (s : State) (u ctx n : Nat) (need : Need) (kind : Nat) : Option DWord → Option MemStop × State
  | none => (none, s)
  | some va => s.wordCheck u ctx n need kind va

/-- A command of a warp with nothing in it yet. -/
def State.newCmd (s : State) (sl : Slot) (w : Warp) (r : Regs) (act : Mask) (kind : CmdKind) (scope : Scope)
    (tok : Option (Fin 64)) (cr : Option DWord) : Cmd :=
  { id := 0, owner := .warp sl.w w.gang, feeder := w.feeder, cls := s.warpClass w, ctx := w.ctx, gang := w.gang
    block := w.block, forme := slotForme sl.w, rcb := s.warpRcb w, kind := kind, src := default, dst := default, tie := none
    tieVa := 0, scope := scope, tok := tok, cr := cr, bytes := 0, imp := none, pc := sl.pc, gseq := r.gseq.toNat, lanes := act
    suspended := false, killed := false, tiedErr := false, sigged := false, owed := none }

/-- The tie of a command, checked. -/
def State.withTie (s : State) (slot : Nat) (w : Warp) (r : Regs) (i : CpyI) (c : Cmd) : Except MemStop Cmd × State :=
  match i.bar with
  | none => (.ok c, s)
  | some (k, scratch) =>
    let va := objAddress scratch (r.sget k.val)
    match s.tieCheck slot w scratch va with
    | (.error e, s1) => (.error e, s1)
    | (.ok p, s1) => (.ok { c with tie := some p, tieVa := va }, s1)

/-- The command of cpy, cpy.red or cpy.sig, its checks made (R242, R243): records, barrier, counter, completion
record. -/
def State.buildCopy (s : State) (sl : Slot) (w : Warp) (r : Regs) (act : Mask) (i : CpyI) (kind : CmdKind) :
    Except MemStop Cmd × State :=
  let cr := i.cr.map fun k => r.sget k.val
  let ctr : Option DWord := match kind with
    | .sig a _ => some a
    | _ => none
  match s.readRecords sl.w w [r.sget i.dst.val, r.sget i.src.val] with
  | (.error e, s1) => (.error e, s1)
  | (.ok recs, s1) =>
    let d := recs.getD 0 default
    let a := recs.getD 1 default
    if !copyOk kind d a then (.error (.fault (.plain causeMalformedLayout)), s1)
    else if w.away sl.w && (d.space != 0 || a.space != 0) then (.error (.fault (.plain causeScratchAway)), s1)
    else match s1.withTie sl.w w r i { s1.newCmd sl w r act kind i.scope i.tk cr with dst := d, src := a } with
      | (.error e, s2) => (.error e, s2)
      | (.ok c, s2) =>
        match s2.wordCheck? (slotQuadId sl.w) w.ctx 8 .readWrite kindLoad ctr with
        | (some e, s3) => (.error e, s3)
        | (none, s3) =>
          match s3.wordCheck? (slotQuadId sl.w) w.ctx 16 .write kindStore cr with
          | (some e, s4) => (.error e, s4)
          | (none, s4) => (.ok c, s4)

/-- The command of imp.start, its checks made (R242, R252). -/
def State.buildImp (s : State) (sl : Slot) (w : Warp) (r : Regs) (act : Mask) (i : ImpI) : Except MemStop Cmd × State :=
  let va := r.sget i.desc.val
  let cr := i.cr.map fun k => r.sget k.val
  if va.toNat % 64 ≠ 0 then (.error (.fault (.plain causeMalformedDesc)), s)
  else match s.constWords sl.w w.ctx va 32 with
    | (.error (c, e, a), s1) => (.error (.fault ⟨c, a, BitVec.ofNat 64 kindLoad, BitVec.ofNat 64 e, 0⟩), s1)
    | (.ok (_, true), s1) => (.error (.poison va), s1)
    | (.ok (x, false), s1) =>
      if !s1.descOk (s1.warpRcb w) x then (.error (.fault (.plain causeMalformedDesc)), s1)
      else match s1.wordCheck? (slotQuadId sl.w) w.ctx 16 .write kindStore cr with
        | (some e, s2) => (.error e, s2)
        | (none, s2) =>
          (.ok { s2.newCmd sl w r act .imp i.scope i.tk cr with
            feeder := (Desc.ofNat x).feeder, imp := some (.start (Desc.ofNat x)) }, s2)

/-- Accept a command of a leading warp: deferred inside a region (R259, R398), held until its proof warp has issued the
same (R406), or given to its Feeder. -/
def State.acceptCmd (s : State) (sl : Slot) (w : Warp) (r : Regs) (act : Mask) (words : List DWord) (c : Cmd) : State :=
  let mine := comparedOf sl.pc act [] words
  if !w.levels.isEmpty && decide (Config.deferredMax ≤ w.withLag.deferredUsed) then s.raise sl act (galleyFull 4)
  else
    let (id, s1) := s.fresh
    let c1 := { c with id := id }
    let keep := if w.levels.isEmpty then Keep.perform else Keep.defer
    if w.proof.isSome then
      s1.finishWith sl r fun y => { sl.lag y with compared := some mine, cmd := some c1, keep := keep }
    else
      let s2 := s1.finish sl r
      if w.levels.isEmpty then { s2 with cmds := s2.cmds ++ [c1] }
      else s2.modWarp sl.w fun y => y.modInner fun lv => { lv with deferred := lv.deferred ++ [.feed c1] }

/-- A Feeder instruction (R241, R242). -/
def State.feederInstr (s : State) (g : Guard) (words : Regs → List DWord)
    (build : State → Slot → Warp → Regs → Mask → Except MemStop Cmd × State) : Out :=
  s.onSlot fun s1 sl w r =>
    let act := active r sl.grp g
    .next (if sl.proof then s1.compareProof sl r (comparedOf sl.pc act [] (words r))
      else if !wholeGroup r sl.grp act then s1.raise sl act (.plain causePartialGroup)
      else match build s1 sl w r act with
        | (.error (.fault f), s2) => s2.raise sl act f
        | (.error (.poison va), s2) => s2.stayPoisoned sl w r act va 3
        | (.error (.moving _), s2) => s2
        | (.ok c, s2) => s2.acceptCmd sl w r act (words r) c)

/-- The scalars of a copy that the proof warp compares. -/
def cpyWords (i : CpyI) (r : Regs) : List DWord :=
  [r.sget i.dst.val, r.sget i.src.val] ++ ((i.bar.toList.map fun x => r.sget x.1.val) ++ (i.cr.toList.map fun k => r.sget k.val))

/-- ROP of a reduction (R249). -/
def ropCode : Rop → Nat
  | .sumF32 => 1
  | .sumBf16w => 2
  | .sumCmp => 3
  | .max => 4
  | .min => 5
  | .sumI32 => 6

def execCpy (i : CpyI) (s : State) : Out :=
  s.feederInstr i.g (cpyWords i) fun s1 sl w r act => s1.buildCopy sl w r act i .copy

def execCpyRed (i : CpyRedI) (s : State) : Out :=
  s.feederInstr i.c.g (cpyWords i.c) fun s1 sl w r act => s1.buildCopy sl w r act i.c (.red (ropCode i.rop))

/-- The value that cpy.sig adds. -/
def sigValue (i : CpySigI) (r : Regs) : DWord := BitVec.ofNat 64 ((⟨r, 0, 0, 0⟩ : Rd).dword i.value 0)

def execCpySig (i : CpySigI) (s : State) : Out :=
  s.feederInstr i.c.g (fun r => cpyWords i.c r ++ [r.sget i.ctr.val, sigValue i r]) fun s1 sl w r act =>
    s1.buildCopy sl w r act i.c (.sig (r.sget i.ctr.val) (sigValue i r))

def execImpStart (i : ImpI) (s : State) : Out :=
  s.feederInstr i.g (fun r => [r.sget i.desc.val] ++ (i.cr.toList.map fun k => r.sget k.val)) fun s1 sl w r act =>
    s1.buildImp sl w r act i

/-! ### The end of a command (R243, R244, R324) -/

def causeFeederFailed : Nat := 0xA4

/-- The record of a failed command of a packet (R244, R387). -/
def State.failRecord (s : State) (c : Cmd) (word : Nat) (laddr : DWord) : Errata :=
  { s.unitErrata causeFeederFailed 5 3 c.ctx (s.rcbIndexOf c.rcb) c.feeder laddr (BitVec.ofNat 64 word) (c.cr.getD 0) with
    flags := flagAsync, gseq := c.gseq, lanes := c.lanes, forme := c.forme }

/-- The asynchronous error of a failed command (R244). -/
def State.failError (s : State) (c : Cmd) (word : Nat) (laddr : DWord) : AsyncErr :=
  { cause := causeFeederFailed, pc := 0, gseq := c.gseq, lanes := c.lanes, laddr := laddr, w0 := BitVec.ofNat 64 word
    w1 := c.cr.getD 0, unit := 3, index := c.feeder, level := 0, time := s.time, soft := false }

/-- A failed command of a warp (R244): an asynchronous error, or, with every lane exited, the kill of its gang. -/
def State.failWarp (s : State) (c : Cmd) (slot gang : Nat) (word : Nat) (laddr : DWord) : State :=
  match s.ownerWarp slot gang with
  | none => s
  | some w =>
    if w.r.live = 0 then s.killGang gang (s.asyncErrata slot w (s.failError c word laddr) flagUndelivered 0)
    else s.queueFor slot gang (s.failError c word laddr)

/-- A command of a packet ends (R321, R324): its work has completed, or it is dropped and its queue halts. -/
def State.endWork (s : State) (c : Cmd) (q work status word : Nat) (laddr : DWord) : State :=
  if status = 0 then s.modWork work fun x => { x with finished := 1 }
  else
    let s1 := { s with works := s.works.filter fun x => x.id != work }
    if 0x10 ≤ status then (s1.post (s1.failRecord c word laddr)).haltQueue q causeFeederFailed else s1

/-- The values that the end of a command gives its warp: the completion word in the token. -/
def Cmd.tokenWrite (c : Cmd) (word : Nat) : List (Nat × DWord) := (c.tok.map fun t => (t.val, BitVec.ofNat 64 word)).toList

/-- A token is written, whether its warp is resident or saved, and a resident warp acquires (R198, R243). -/
def State.writeToken (s : State) (c : Cmd) (slot gang : Nat) (word : Nat) : State :=
  let sw := c.tokenWrite word
  let s1 := s.modOwner slot gang fun w =>
    let w1 := { w with r := w.r.deliver c.gseq ⟨[], sw, [], []⟩ }
    if sw.isEmpty then w1 else w1.giveValues c.gseq ⟨[], sw, [], []⟩
  match (s1.warp slot).filter fun w => w.gang == gang with
  | none => s1
  | some w => s1.acquire slot (s1.reach w (effectiveScope .global c.scope))

/-- A command whose record has been written is gone; its failure, if it is one, is delivered (R243, R244). -/
def State.closeCmd (s : State) (c : Cmd) (o : Owed) : State :=
  let s1 := { s with cmds := s.cmds.filter fun x => x.id != c.id }
  match c.owner with
  | .queue q work => s1.endWork c q work o.status o.word o.laddr
  | .warp slot gang => if 0x10 ≤ o.status then s1.failWarp c slot gang o.word o.laddr else s1

/-- A completion record is written, that of a suspended command or of one that ends; none while its page is moving. -/
def State.payRecord (s : State) (c : Cmd) (o : Owed) : Option State :=
  (s.writeCompletion c o.word).map fun t =>
    if o.status = 1 then t.modCmd c.id fun x => { x with owed := none } else t.closeCmd c o

/-- A completion record is written, or held up by its page (R344). -/
def State.oweRecord (s : State) (c : Cmd) (o : Owed) : State :=
  match s.payRecord c o with
  | some t => t
  | none => s.modCmd c.id fun x => { x with owed := some o, imp := if o.status = 1 then x.imp else none }

/-- A command ends: the token, then the completion record, then the failure if it is one (R243, R244). -/
def State.endCmd (s : State) (c : Cmd) (status step bytes : Nat) (laddr : DWord) : State :=
  let o : Owed := ⟨status, completionWord status step bytes, laddr⟩
  match c.owner with
  | .queue _ _ => s.oweRecord c o
  | .warp slot gang => (if status = 2 then s else s.writeToken c slot gang o.word).oweRecord c o

/-- STATUS of a fault on the data that a command moves (R243, R336). -/
def statusOf (cause : Nat) : Nat :=
  if cause = causePermission then 0x11 else if cause = causeMalformedPage then 0x14 else if cause = causeNonCanonical then 0x15
  else if cause = causeTranslation then 0x10 else 0x12

/-- STATUS 0x13: a page table entry that the command needed was poisoned. -/
def statusPoison : Nat := 0x13

/-! ### The elements of a chunk -/

/-- The elements of a command's data: how many bytes each has, in how many parts it is read and written (a scale pair byte by
byte; a pair of .sum.cmp word by word), and the space. -/
structure Side where
  sp : Space
  part : Nat
  parts : Nat
  deriving DecidableEq, Repr, Inhabited

def LRec.side (rc : LRec) (rop : Nat) : Side :=
  if rc.fmt = 9 then ⟨rc.sp, 1, 2⟩ else if rop = 3 then ⟨rc.sp, 4, 2⟩ else ⟨rc.sp, fmtBytes rc.fmt, 1⟩

/-- The addresses of the parts of element t of copy order (R245). -/
def LRec.copyAddrs (rc : LRec) (rop t : Nat) : List Int :=
  let at_ (i : Nat) : Int := (rc.addr (i % rc.spanK) (i / rc.spanK)).1
  if rc.fmt = 9 then [at_ t, at_ t + 1] else if rop = 3 then [at_ (2 * t), at_ (2 * t + 1)] else [at_ t]

/-- Where parts of a command's data lie. -/
def State.cmdPlaces (s : State) (c : Cmd) (d : Side) (n : Need) (l : List Int) : Except MemStop (List Place) × State :=
  match d.sp, c.owner with
  | .global, _ => s.globalPlaces c.mmu c.ctx n d.part l
  | sp, .warp slot _ => (match s.warp slot with
    | none => .error (memFault causeScratchBound ((l.head?).getD 0) kindEngine)
    | some w => s.scratchPlaces slot w sp d.part l, s)
  | _, .queue _ _ => (.error (memFault causeScratchBound ((l.head?).getD 0) kindEngine), s)

/-- The elements at some places, each of `parts` parts. -/
def State.readElems (s : State) (d : Side) (l : List Place) : List Elem :=
  (piecesOf d.parts l.length l).map fun ps =>
    (ps.foldr (fun p acc => s.readLe p d.part + 2 ^ (8 * d.part) * acc) 0, ps.any fun p => s.poisoned p d.part)

/-- Write one element's parts at their homes; an element with poison leaves its words poisoned (R374). -/
def State.writeElem (s : State) (forme : Nat) (d : Side) (ps : List Place) (x : Elem) : State :=
  ps.zipIdx.foldl (fun a p =>
    let a1 := a.store forme p.1 (bits x.1 (8 * d.part * p.2) (8 * d.part)) d.part
    if x.2 then a1.setPoison p.1 d.part else a1) s

/-- Write elements in copy order; `none` leaves its element as it is. -/
def State.writeElems (s : State) (forme : Nat) (d : Side) (ps : List Place) (l : List (Option Elem)) : State :=
  ((piecesOf d.parts ps.length ps).zip l).foldl (fun a x => match x.2 with
    | none => a
    | some e => a.writeElem forme d x.1 e) s

/-! ### Chunks of a copy (R240, R246 to R251) -/

/-- The reduction mode of a command; 0 for a plain copy. -/
def Cmd.rop (c : Cmd) : Nat :=
  match c.kind with
  | .red r => r
  | _ => 0

/-- Bytes of one element of the destination stream, and how many there are. -/
def Cmd.elemBytes (c : Cmd) : Nat := let d := c.dst.side c.rop; d.part * d.parts
def Cmd.elems (c : Cmd) : Nat := if c.rop = 3 then c.dst.count / 2 else c.dst.count

/-- The first element of the next chunk and how many it has (R251). -/
def Cmd.nextChunk (c : Cmd) : Nat × Nat :=
  let t := c.bytes / c.elemBytes
  (t, min (Config.chunkBytes / c.elemBytes) (c.elems - t))

/-- One element of a reduction: read, combined and written in one step (R247); and whether what was read was zero. -/
def State.redOne (s : State) (c : Cmd) (dd : Side) (dPresent : Bool) (ps : List Place) (x : Elem) (xPresent : Bool) : State × Bool :=
  let b := lrecBfmt c.rop c.dst
  let d := (s.readElems dd ps).headD (0, false)
  (match (combineOne c.rop b b d x dPresent xPresent).1 with
    | none => s
    | some e => s.writeElem c.forme dd ps e, d.1 == 0 && !d.2)

/-- The elements of one block of the destination, present or absent, one after another; and whether all were read as zero. -/
def State.redBlock (s : State) (c : Cmd) (dd : Side) (dPresent : Bool) (l : List (List Place × Elem × Bool)) : State × Bool :=
  l.foldl (fun a x =>
    let (s1, z) := a.1.redOne c dd dPresent x.1 x.2.1 x.2.2
    (s1, a.2 && z)) (s, true)

/-- The elements of a reduction, by blocks of the destination's stream: a block all of whose elements are read as zero is
absent (R247, R250). -/
def State.reduce (s : State) (c : Cmd) (dd : Side) (dp : List Place) (src : List Elem) : State :=
  let wire := src.map fun x => (toWire c.rop (lrecBfmt c.rop c.src) x.1, x.2)
  let there := presence (bfmtBytes (wireFmt c.rop (lrecBfmt c.rop c.src))) wire
  let l := (piecesOf dd.parts dp.length dp).zip (wire.zip there)
  (piecesOf (128 / c.elemBytes) l.length l).foldl (fun a block =>
    let (s1, zero) := a.redBlock c dd false block
    if zero then s1 else (a.redBlock c dd true block).1) s

/-- The bytes that a chunk reads and writes are moved. -/
def State.moveChunk (s : State) (c : Cmd) : Except MemStop State × State :=
  let (t, n) := c.nextChunk
  let sd := c.src.side c.rop
  let dd := c.dst.side c.rop
  let addrs (rc : LRec) : List Int := (List.range n).flatMap fun i => rc.copyAddrs c.rop (t + i)
  match s.cmdPlaces c sd .read (addrs c.src) with
  | (.error e, s1) => (.error e, s1)
  | (.ok sp, s1) =>
    match s1.cmdPlaces c dd (if c.rop = 0 then .write else .readWrite) (addrs c.dst) with
    | (.error e, s2) => (.error e, s2)
    | (.ok dp, s2) =>
      if dp.any s2.isMoving then (.error (.moving 0), s2)
      else
        let src := s2.readElems sd sp
        (.ok (if c.rop = 0 then s2.writeElems c.forme dd dp (src.map some) else s2.reduce c dd dp src), s2)

/-- n bytes of a tied copy are performed, one after another (R226, R248). -/
def Barrier.landBytes (b : Barrier) (n : Nat) : Barrier :=
  if b.pending = 0 ∧ 1 ≤ b.pbytes ∧ b.pbytes ≤ n then (b.land b.pbytes).land (n - b.pbytes) else b.land n

/-- An error for the warp that issued a command (R248, R374, R411): a saved warp keeps it until it resumes (R329). -/
def State.cmdError (s : State) (c : Cmd) (cause : Nat) (va : DWord) : State :=
  match c.owner with
  | .queue _ _ => s
  | .warp slot gang =>
    let e : AsyncErr := { cause := cause, pc := c.pc, gseq := c.gseq, lanes := c.lanes, laddr := va, w0 := 0, w1 := 0, unit := 3
                          index := c.feeder, level := 0, time := s.time, soft := false }
    if !reliability cause then s.queueFor slot gang e
    else match s.ownerWarp slot gang with
      | none => s
      | some w =>
        if w.detected c.gseq then s
        else
          let (x, y, s1) := s.reliabilityWords
          if (s1.warp slot).any fun v => v.gang == gang then s1.detect slot { e with w0 := x, w1 := y }
          else s1.modOwner slot gang fun v => { v with det := v.det ++ [{ e with w0 := x, w1 := y }] }

/-- The tied barrier's place now; none where its page is moving. -/
def State.tiePlace (s : State) (c : Cmd) (p : Place) : Except Nat (Option Place) × State :=
  match p with
  | .scr _ _ _ => (.ok (some p), s)
  | .hbm _ => match s.translate c.mmu c.ctx c.tieVa .readWrite with
    | (.error (.cause k _), s1) => (.error k, s1)
    | (.error .poison, s1) => (.error 0xC2, s1)
    | (.ok x, s1) => (.ok (if x.mig || s1.isMoving x.place then none else some x.place), s1)

/-- 0x81, or why a tied barrier cannot be reached, delivered once (R248). -/
def State.tieError (s : State) (c : Cmd) (cause : Nat) : State :=
  if c.tiedErr then s else (s.modCmd c.id fun x => { x with tiedErr := true }).cmdError c cause c.tieVa

/-- Subtract bytes at a tied barrier (R248): a malformed object is left, and 0x81 delivered once. -/
def State.landAt (s : State) (c : Cmd) (p : Place) (n : Nat) : State :=
  if s.poisoned p 16 then s.cmdError c 0xC8 c.tieVa
  else match Barrier.parse (s.readLe p 16) with
    | some b => s.putBarrier c.forme p b (b.landBytes n)
    | none => s.tieError c causeMalformedBarrier

/-- What became of an addition to a counter. -/
inductive Added where
  | done
  | poisoned
  | failed (e : NoTrans)
  deriving DecidableEq, Repr, Inhabited

/-- Add to the counter at a place. -/
def State.addAt (s : State) (forme : Nat) (p : Place) (x : Nat) : Added × State :=
  if s.poisoned p 8 then (.poisoned, s) else (.done, s.store forme p ((s.readLe p 8 + x) % 2 ^ 64) 8)

/-! ### Posted atomics between sheets (R331) -/

/-- The sheet that a command's Feeder stands on, and the virtual channel of its traffic. -/
def Cmd.sheet (c : Cmd) : Nat := c.feeder / 4
def Cmd.vc (c : Cmd) : Nat := if c.cls = 0 then 0 else 1

/-- A posted atomic to a home on another sheet: it has yet to enter its fabric channel. -/
def State.givePost (s : State) (c : Cmd) (why : PostFor) (va : DWord) (x : Nat) : State :=
  let (id, s1) := s.fresh
  { s1 with posts := s1.posts ++ [⟨id, c.id, why, va, x⟩] }

/-- The posts of a command that have not been performed. -/
def State.postsOf (s : State) (id : Nat) : List Post := s.posts.filter fun x => x.cmd == id

/-- A post has entered a channel and not left its receiving queue. -/
def State.postSent (s : State) (id : Nat) : Bool :=
  s.chans.any fun c => (c.2.window.any fun e => e.2 == .post id) || c.2.queue.any fun e => e.2 == .post id

/-- A Feeder waits while a post of one of its commands has not entered its channel: the window is full (R331), or the page
that it goes to is moving. -/
def State.feederBlocked (s : State) (f : Nat) : Bool :=
  s.posts.any fun x => !s.postSent x.id && ((s.cmd x.cmd).any fun c => c.feeder == f)

/-- The tie of a chunk of n bytes; none where its barrier's page is moving. -/
def State.tieChunk (s : State) (c : Cmd) (n : Nat) : Option State :=
  match c.tie with
  | none => some s
  | some p => match s.tiePlace c p with
    | (.error k, s1) => some (s1.tieError c k)
    | (.ok none, _) => none
    | (.ok (some q), s1) =>
      some (if q.sheet?.all fun t => t == c.sheet then s1.landAt c q n else s1.givePost c .tie c.tieVa n)

/-- Add to a counter (R232, R248): the outcome, or none of one yet where the addition travels to another sheet. None where the
page is moving. -/
def State.addCounter (s : State) (c : Cmd) (why : PostFor) (va x : DWord) : Option (Option Added × State) :=
  match s.translate c.mmu c.ctx va .readWrite with
  | (.error e, s1) => some (some (.failed e), s1)
  | (.ok p, s1) =>
    if p.mig || s1.isMoving p.place then none
    else if p.sheet = c.sheet then
      let (y, s2) := s1.addAt c.forme p.place x.toNat
      some (some y, s2)
    else some (none, s1.givePost c why va x.toNat)

/-- What became of the signal of cpy.sig. -/
def State.signalled (s : State) (c : Cmd) (va : DWord) : Added → State
  | .done => s
  | .failed (.cause k _) => s.cmdError c k va
  | .poisoned | .failed .poison => s.cmdError c 0xC2 va

/-- A copy all of whose bytes are written ends, after its signal, once its posts have been performed (R248). -/
def State.finishCopy (s : State) (c : Cmd) : Option State :=
  if !(s.postsOf c.id).isEmpty then none
  else match c.kind with
    | .sig va x =>
      if c.sigged then some (s.endCmd c 0 0 c.bytes 0)
      else (s.addCounter c .sig va x).map fun y => match y.1 with
        | none => y.2.modCmd c.id fun z => { z with sigged := true }
        | some a => (y.2.signalled c va a).endCmd c 0 0 c.bytes 0
    | _ => some (s.endCmd c 0 0 c.bytes 0)

/-- A failed copy ends once its posts have been performed. -/
def State.failCopy (s : State) (c : Cmd) (status : Nat) (va : DWord) : Option State :=
  if (s.postsOf c.id).isEmpty then some (s.endCmd c status 0 c.bytes va) else none

/-- One chunk of a copy, or its end after the last: none while a page is moving or a post is on its way. -/
def State.runChunk (s : State) (c : Cmd) : Option State :=
  let total := c.elems * c.elemBytes
  if total ≤ c.bytes then s.finishCopy c
  else
    let (_, n) := c.nextChunk
    let len := n * c.elemBytes
    match s.moveChunk c with
    | (.error (.moving _), _) => none
    | (.error (.poison va), s1) => s1.failCopy c statusPoison va
    | (.error (.fault f), s1) => s1.failCopy c (statusOf f.cause) f.laddr
    | (.ok s1, _) => (s1.tieChunk c len).map fun s2 =>
        let s3 := s2.modCmd c.id fun x => { x with bytes := c.bytes + len }
        if c.bytes + len < total then s3 else (s3.finishCopy { c with bytes := c.bytes + len }).getD s3

/-! ### Which command a Feeder serves (R198, R199, R240) -/

/-- The addresses between which a record's elements lie. -/
def LRec.range (rc : LRec) : Int × Int :=
  let ends := (List.range 4).map fun i => ((rc.e i : Int) - 1) * (if rc.fmt = 6 ∧ i = 0 then 0 else rc.st i)
  ((rc.base.toNat : Int) + ends.foldl (fun a x => a + min 0 x) 0,
   (rc.base.toNat : Int) + ends.foldl (fun a x => a + max 0 x) 0 + fmtBytes rc.fmt)

/-- A record's range as one of global memory, or of the gang's scratch (R174). -/
def LRec.footprint (rc : LRec) (block : Nat) : Bool × Int × Int :=
  let (a, b) := rc.range
  if rc.space = 0 then (true, a, b) else if rc.space = 1 then (false, a + block * 2 ^ 19, b + block * 2 ^ 19) else (false, a, b)

def rangesMeet (x y : Bool × Int × Int) : Bool := x.1 == y.1 && decide (x.2.1 < y.2.2 ∧ y.2.1 < x.2.2)

/-- Two copies of a warp that must complete in issue order (R199). -/
def Cmd.conflicts (a b : Cmd) : Bool :=
  let d (c : Cmd) := c.dst.footprint c.block
  let r (c : Cmd) := c.src.footprint c.block
  a.imp.isNone && b.imp.isNone && (rangesMeet (d a) (r b) || rangesMeet (r a) (d b) || rangesMeet (d a) (d b))

/-- The accesses that a warp made before a command have been performed, and so have the stores that it may have read: the
Feeder reads every byte at its home (R191, R198). -/
def State.issuedBefore (s : State) (c : Cmd) : Bool :=
  match c.owner with
  | .queue _ _ => true
  | .warp slot _ => match s.warp slot with
    | none => false
    | some w => (w.inFlight.all fun o => decide (c.id < o.id) || o.pieces.all Piece.done) && !w.storesQueued c.id &&
        s.releaseReady slot w c.id 4

/-- A command may move its next chunk, as far as other commands and its issuer go. -/
def State.cmdReady (s : State) (c : Cmd) : Bool :=
  !c.suspended && !c.killed && !c.ended && s.issuedBefore c &&
    (s.cmds.all fun x => decide (c.id ≤ x.id) || x.ended || x.owner != c.owner || !x.conflicts c) &&
    !((s.gang c.gang).any fun g => g.acks.contains (.feeder c.id))

/-- Commands in the order of a round robin after the one served last. -/
def State.feedOrder (s : State) (f : Nat) (l : List Cmd) : List Cmd :=
  let last := s.feedRR.get f
  (l.filter fun c => decide (last < c.id)) ++ (l.filter fun c => decide (c.id ≤ last))

/-- Of some commands those of the highest class. -/
def bestCmds (l : List Cmd) : List Cmd :=
  let best := l.foldl (fun m c => min m c.cls) 3
  l.filter fun c => c.cls == best

end Sys2Proof.Machine
end

