-- ==== Sys2Proof/Machine/Impose.lean ====
section
/-! DEFINITION. Imposition programs (R251 to R257): steps, their peers and offsets, transfers between the Feeders of the
package and over Ethernet, and which command a Feeder serves (R240). -/

namespace Sys2Proof.Machine

/-! ### Steps (R253, R254) -/

/-- The fields of a step. -/
structure Step where
  opc : Nat
  lc : Nat
  pm : Nat
  lvl : Nat
  rs : Nat
  rd : Nat
  cm : Nat
  peer : Nat
  rop : Nat
  sbuf : Nat
  dbuf : Nat
  sk : Int
  dk : Int
  soff : Int
  doff : Int
  count : Nat
  deriving DecidableEq, Repr, Inhabited

/-- The fields of a step's 32 bytes. -/
def Step.ofNat (x : Nat) : Step :=
  { opc := bits x 0 4, lc := bits x 4 2, pm := bits x 8 2, lvl := bits x 10 1, rs := bits x 11 1, rd := bits x 12 1
    cm := bits x 13 2, peer := bits x 16 16, rop := bits x 32 3, sbuf := bits x 40 3, dbuf := bits x 44 3
    sk := toSigned (bits x 48 8) 8, dk := toSigned (bits x 56 8) 8, soff := toSigned (bits x 64 64) 64
    doff := toSigned (bits x 128 64) 64, count := bits x 192 64 }

/-- Steps that move elements from one rank to another; those that send, and those that receive (R255). -/
def Step.transfer (f : Step) : Bool := decide (f.opc < 4)
def Step.sends (f : Step) : Bool := f.opc == 0 || f.opc == 2
def Step.receives (f : Step) : Bool := f.opc == 1 || f.opc == 2 || f.opc == 3

/-- The fields that a step's OPC does not use are zero (R253). -/
def Step.unusedZero (f : Step) : Bool :=
  let src := f.rs == 0 && f.sk == 0 && f.sbuf == 0 && f.soff == 0
  let dst := f.rd == 0 && f.dk == 0 && f.dbuf == 0 && f.doff == 0
  let peer := f.pm == 0 && f.peer == 0
  match f.opc with
  | 0 | 2 => dst
  | 1 => src
  | 3 => true
  | 4 => peer
  | 5 | 6 => peer && src
  | 7 => peer && src && dst && f.lvl == 0 && f.cm == 0 && f.rop == 0
  | _ => peer && src && dst && f.lvl == 0 && f.cm == 0 && f.rop == 0 && f.count == 0

/-- The ranges of a step's fields (R253, R255). -/
def Step.rangesOk (f : Step) (x : Nat) : Bool :=
  decide (f.opc ≤ 8) && bits x 6 2 == 0 && f.pm != 3 && f.cm != 3 && bits x 15 1 == 0 && bits x 35 5 == 0 && bits x 43 1 == 0 &&
    bits x 47 1 == 0 && f.unusedZero &&
    (if f.opc < 5 then decide (1 ≤ f.count ∧ f.count < 2 ^ 32) else f.opc != 7 || decide (f.count < 2 ^ 32)) &&
    (!f.transfer || f.pm != 0) && (if f.opc = 5 ∨ f.opc = 6 then decide (f.rop < 6) else true)

/-- Rank and size at a step's level. -/
def Desc.rankAt (d : Desc) (l : Nat) : Nat := d.rank.getD l 0
def Desc.sizeAt (d : Desc) (l : Nat) : Nat := d.size.getD l 1

/-- A step's peers and offsets (R254). -/
structure Route where
  dest : Nat
  frm : Nat
  src : Int
  dst : Int
  a : Nat
  b : Nat
  deriving DecidableEq, Repr, Inhabited

/-- An offset indexed by rank. -/
def rankTerm (use : Nat) (r n : Nat) (k cm : Int) (count size : Nat) : Int :=
  if use = 1 then ((((r : Int) + k + cm) % (n : Int)) : Int) * count * size else 0

/-- The peers and offsets of a step; none when it is malformed. -/
def routeOf (d : Desc) (ctr : List Nat) (f : Step) : Option Route :=
  let r := d.rankAt f.lvl
  let n := d.sizeAt f.lvl
  let c : Int := (ctr.getD f.lc 0 : Nat)
  let cm : Int := if f.cm = 1 then c else if f.cm = 2 then -c else 0
  let a := d.bfmt.getD f.sbuf 0
  let b := d.bfmt.getD f.dbuf 0
  let dest := if f.pm = 1 then (r + f.peer) % n else if f.pm = 2 then r ^^^ f.peer else r
  let frm := if f.pm = 1 then (((r : Int) - f.peer) % (n : Int)).toNat else dest
  if f.pm = 2 ∧ n ≤ dest then none
  else some
    { dest := dest, frm := frm, a := a, b := b
      src := ((d.buf.getD f.sbuf 0).toNat : Int) + f.soff + rankTerm f.rs r n f.sk cm f.count (bfmtBytes a)
      dst := ((d.buf.getD f.dbuf 0).toNat : Int) + f.doff + rankTerm f.rd r n f.dk cm f.count (bfmtBytes b) }

/-- The reduction mode fits the buffers (R249, R255). -/
def Step.ropOk (f : Step) (a b : Nat) : Bool :=
  match f.opc with
  | 0 => f.rop != 7 && ropFits f.rop a
  | 1 => f.rop != 7 && ropFits f.rop b
  | 2 => f.rop != 0 && f.rop != 7 && ropFits f.rop a
  | 3 => f.rop != 0 && f.rop != 7 && ropFits f.rop a && ropFits f.rop b
  | 4 => f.rop == 0 && a == b
  | 5 | 6 => true
  | _ => true

/-- A step with its route, under some loop counters; none when it is malformed. -/
def parsedAt (d : Desc) (ctr : List Nat) (x : Nat) : Option (Step × Route) :=
  let f := Step.ofNat x
  if !f.rangesOk x then none
  else (routeOf d ctr f).bind fun r =>
    if !f.ropOk r.a r.b then none
    else if (f.opc = 5 ∨ f.opc = 6) ∧ r.dst % 8 ≠ 0 then none
    else some (f, r)

/-- The running step, and an inbound step that has been given a credit. -/
def ImpState.parsed (p : ImpState) : Option (Step × Route) := p.cur.bind fun x => parsedAt p.desc p.ctr x
def InStep.parsed (e : InStep) (d : Desc) : Option (Step × Route) := parsedAt d e.ctr e.raw

/-- The wire format of a transfer step, the bytes of its elements, and its chunks (R251). -/
def wireOf (f : Step) (r : Route) : Nat := wireFmt f.rop (if f.opc = 1 then r.b else r.a)
def wireBytes (f : Step) (r : Route) : Nat := bfmtBytes (wireOf f r)
def perChunk (f : Step) (r : Route) : Nat := Config.chunkBytes / wireBytes f r
def chunkCount (f : Step) (r : Route) : Nat := (f.count + perChunk f r - 1) / perChunk f r
/-- The first element of chunk k and how many it has. -/
def chunkSpan (f : Step) (r : Route) (k : Nat) : Nat × Nat :=
  (k * perChunk f r, min (perChunk f r) (f.count - k * perChunk f r))

/-- The program goes on to a step. -/
def ImpState.goto (p : ImpState) (n : Nat) : ImpState :=
  { p with
    step := n, cur := none, begun := false, outNo := none, sent := 0, grant := none, idle := 0
    lastOut := match p.grant with
      | none => p.lastOut
      | some g => (g.peer, g.step) :: p.lastOut.filter fun x => x.1 != g.peer }

/-- The running step as an inbound step with a credit. -/
def ImpState.here (p : ImpState) : Option InStep := p.ins.head?.filter fun e => e.step == p.step && e.ctr == p.ctr

/-- The inbound steps to come that have been given a credit. -/
def ImpState.later (p : ImpState) : List InStep := if p.here.isSome then p.ins.drop 1 else p.ins

/-- The lowest chunk that has not been received. -/
def InStep.lacks (e : InStep) : Nat := ((List.range (e.recvd.length + 1)).find? fun k => !e.recvd.contains k).getD 0

/-- The lowest chunk that has not been received, at the running step. -/
def ImpState.lacks (p : ImpState) : Nat := (p.here.map InStep.lacks).getD 0

/-- The bytes of the wire stream of the running step that are done (R243). -/
def ImpState.wireDone (p : ImpState) : Nat :=
  match p.parsed with
  | none => 0
  | some (f, r) =>
    if f.opc ≤ 4 then
      min ((if f.sends || f.opc == 4 then p.sent else p.lacks) * Config.chunkBytes) (f.count * wireBytes f r)
    else 0

/-! ### Peers -/

/-- The port of peer i of level 1, or why not: a status and an address (R252). -/
def State.peerPort (s : State) (c : Cmd) (d : Desc) (i : Nat) : Except (Nat × DWord) Nat × State :=
  let va := vaAdd d.peers (32 * i)
  match s.readGlobal c.mmu c.ctx va 32 with
  | (.error (.cause k _, a), s1) => (.error (statusOf k, a), s1)
  | (.error (.poison, a), s1) => (.error (statusPoison, a), s1)
  | (.ok l, s1) =>
    let x := leNat l
    if bits x 155 5 = 0 ∧ bits x 160 96 = 0 ∧ bits x 152 3 / 2 = c.feeder / 4 then (.ok (bits x 152 3), s1)
    else (.error (0x20, 0), s1)

/-- A channel of level 0. -/
def ImpChan.is (h : ImpChan) (ctx tag src dst : Nat) : Bool := h.ctx == ctx && h.tag == tag && h.src == src && h.dst == dst

def State.impChan (s : State) (ctx tag src dst : Nat) : ImpChan :=
  (s.impChans.find? fun h => h.is ctx tag src dst).getD
    { ctx := ctx, tag := tag, src := src, dst := dst, nextOut := 0, nextIn := 0, sends := [], credits := [], cuts := [] }

def State.setImpChan (s : State) (h : ImpChan) : State :=
  { s with impChans := h :: s.impChans.filter fun x => !x.is h.ctx h.tag h.src h.dst }

/-- The channels of a program's step at level 0. -/
def State.outChan (s : State) (c : Cmd) (d : Desc) (r : Route) : ImpChan := s.impChan c.ctx d.tag c.feeder (d.feed.getD r.dest 0)
def State.inChan (s : State) (c : Cmd) (d : Desc) (r : Route) : ImpChan := s.impChan c.ctx d.tag (d.feed.getD r.frm 0) c.feeder

/-! ### Messages between packages (R251) -/

/-- A credit. -/
structure CreditMsg where
  tag : Nat
  step : Nat
  rkey : Nat
  landing : DWord
  first : Nat
  count : Nat
  deriving DecidableEq, Repr

/-- The 32 bytes of a credit, and a credit from them. -/
def CreditMsg.bytes (m : CreditMsg) : List Byte :=
  leBytes m.tag 1 ++ leBytes m.step 2 ++ leBytes 0 1 ++ leBytes m.rkey 4 ++ leBytes m.landing.toNat 8 ++ leBytes m.first 4 ++
    leBytes m.count 4 ++ leBytes 0 8
def CreditMsg.ofBytes (l : List Byte) : Option CreditMsg :=
  let x := leNat l
  if l.length = 32 ∧ bits x 24 8 = 0 ∧ bits x 192 64 = 0 then
    some ⟨bits x 0 8, bits x 8 16, bits x 32 32, BitVec.ofNat 64 (bits x 64 64), bits x 128 32, bits x 160 32⟩
  else none

/-- An abort. -/
structure AbortMsg where
  tag : Nat
  step : Nat
  status : Nat
  deriving DecidableEq, Repr

/-- The 32 bytes of an abort, and an abort from them. -/
def AbortMsg.bytes (m : AbortMsg) : List Byte := leBytes m.tag 1 ++ leBytes m.step 2 ++ leBytes m.status 1 ++ leBytes 0 28
def AbortMsg.ofBytes (l : List Byte) : Option AbortMsg :=
  let x := leNat l
  if l.length = 32 ∧ bits x 32 224 = 0 then some ⟨bits x 0 8, bits x 8 16, bits x 24 8⟩ else none

/-- The immediate of a chunk: its step, its number and the TAG. -/
def chunkImm (tag step chunk : Nat) : BitVec 32 := BitVec.ofNat 32 (step % 2 ^ 8 + chunk % 2 ^ 16 * 2 ^ 8 + tag % 2 ^ 8 * 2 ^ 24)

/-! ### The end of a program (R256, R259) -/

/-- Read the running step, once: an inbound step that has been given a credit has been read. -/
def State.fetchStep (s : State) (c : Cmd) (p : ImpState) : Except (Nat × DWord) ImpState × State :=
  match p.cur, p.here with
  | some _, _ => (.ok p, s)
  | none, some e => (.ok { p with cur := some e.raw }, s)
  | none, none =>
    match s.readGlobal c.mmu c.ctx (vaAdd p.desc.prog (32 * p.step)) 32 with
    | (.error (.cause k _, a), s1) => (.error (statusOf k, a), s1)
    | (.error (.poison, a), s1) => (.error (statusPoison, a), s1)
    | (.ok l, s1) => (.ok { p with cur := some (leNat l) }, s1)

/-- The outbound side of a step at level 0 is aborted: its transfer, or the one it would have made. -/
def ImpChan.abortOut (h : ImpChan) (p : ImpState) : ImpChan :=
  match p.outNo with
  | some n => { h with sends := h.sends.map fun t => if t.no = n then { t with aborted := true } else t }
  | none => { h with nextOut := h.nextOut + 1, sends := h.sends ++ [⟨h.nextOut, [], true⟩] }

/-- The inbound side is aborted: its sender ends when it reaches, or is in, the matched step. -/
def ImpChan.abortIn (h : ImpChan) (p : ImpState) : ImpChan :=
  let n := (p.here.map InStep.no).getD h.nextIn
  { h with
    nextIn := if p.here.isSome then h.nextIn else h.nextIn + 1
    sends := h.sends.filter fun t => t.no != n
    credits := h.credits.filter fun x => x.no != n
    cuts := h.cuts ++ [n] }

/-- The running step and its peers where it is a transfer that names them, malformed though it may be otherwise. -/
def ImpState.partners (p : ImpState) : Option (Step × Route) :=
  p.cur.bind fun x =>
    let f := Step.ofNat x
    if f.transfer && (f.pm == 1 || f.pm == 2) then (routeOf p.desc p.ctr f).map fun r => (f, r) else none

/-- Send Abort to the peers of the running step. -/
def State.sendAborts (s : State) (c : Cmd) (p : ImpState) (status : Nat) : State :=
  match p.partners with
  | none => s
  | some (f, r) =>
    if f.lvl = 0 then
      let s1 := if f.sends then s.setImpChan ((s.outChan c p.desc r).abortOut p) else s
      if f.receives then s1.setImpChan ((s1.inChan c p.desc r).abortIn p) else s1
    else
      let one (a : State) (i : Nat) : State := match a.peerPort c p.desc i with
        | (.ok port, a1) => { a1 with replies := a1.replies ++ [Reply.send port i (AbortMsg.bytes ⟨p.desc.tag, p.step, status⟩)] }
        | (.error _, a1) => a1
      let s1 := if f.sends then one s r.dest else s
      if f.receives && !(f.sends && r.frm == r.dest) then one s1 r.frm else s1

/-- The credit of an inbound step that its program does not reach is taken back: the next inbound step has its number. -/
def State.takeBack (s : State) (c : Cmd) (d : Desc) (e : InStep) : State :=
  match e.parsed d with
  | none => s
  | some (f, r) =>
    if f.lvl = 0 then
      let h := s.inChan c d r
      s.setImpChan { h with
        nextIn := if h.nextIn = e.no + 1 then e.no else h.nextIn
        credits := h.credits.filter fun x => x.no != e.no }
    else s

/-- A program ends with a status at a step: from 0x02 upward its peers are told (R256). -/
def State.endImp (s : State) (c : Cmd) (p : ImpState) (status step : Nat) (laddr : DWord) : State :=
  let s1 := if status < 2 then s
    else match s.fetchStep c p with
      | (.ok p1, s1) => s1.sendAborts c p1 status
      | (.error _, s1) => s1
  let s2 := p.later.reverse.foldl (fun a e => a.takeBack c p.desc e) s1
  s2.endCmd c status step (if status = 0 then 0 else p.wireDone) laddr

/-- A program ends at its running step. -/
def State.failImp (s : State) (c : Cmd) (p : ImpState) (status : Nat) (laddr : DWord) : State :=
  s.endImp c p status p.step laddr

/-- Keep a program's progress. -/
def State.setImp (s : State) (c : Cmd) (p : ImpState) : State := s.modCmd c.id fun x => { x with imp := some p }

/-- The program goes on to step n, or has ended normally. -/
def State.impGoto (s : State) (c : Cmd) (p : ImpState) (n : Nat) : State :=
  if p.desc.nstep ≤ n then s.endImp c p 0 p.desc.nstep 0 else s.setImp c (p.goto n)

/-! ### Elements -/

/-- How a run of n elements of a format from an address on is read and written. -/
def runSide (b : Nat) (a : Int) : Side := if a % (bfmtBytes b : Nat) = 0 then ⟨.global, bfmtBytes b, 1⟩ else ⟨.global, 1, bfmtBytes b⟩

def runAddrs (b : Nat) (a : Int) (t n : Nat) : List Int :=
  let d := runSide b a
  (List.range (n * d.parts)).map fun i => a + ((t * bfmtBytes b + i * d.part : Nat) : Int)

/-- Read n local elements; or a status and an address; none where it must wait. -/
def State.impRead (s : State) (c : Cmd) (b : Nat) (a : Int) (t n : Nat) : Except MemStop (List Elem) × State :=
  match s.globalPlaces c.mmu c.ctx .read (runSide b a).part (runAddrs b a t n) with
  | (.error e, s1) => (.error e, s1)
  | (.ok l, s1) => (.ok (s1.readElems (runSide b a) l), s1)

/-- Write local elements; `none` leaves its element. -/
def State.impWrite (s : State) (c : Cmd) (b : Nat) (a : Int) (t : Nat) (l : List (Option Elem)) : Except MemStop State × State :=
  match s.globalPlaces c.mmu c.ctx .write (runSide b a).part (runAddrs b a t l.length) with
  | (.error e, s1) => (.error e, s1)
  | (.ok ps, s1) =>
    if ps.any s1.isMoving then (.error (.moving 0), s1)
    else (.ok (s1.writeElems c.forme (runSide b a) ps l), s1)

/-- A data fault ends the program (R244); a moving page makes it wait. -/
def State.impStop (s : State) (c : Cmd) (p : ImpState) : MemStop → Option State
  | .moving _ => none
  | .poison va => some (s.failImp c p statusPoison va)
  | .fault f => some (s.failImp c p (statusOf f.cause) f.laddr)

/-! ### One chunk of a transfer -/

/-- What a chunk gives: wire elements to send, local elements to write. -/
def chunkGives (f : Step) (r : Route) (d s : List Elem) : List (Option Elem) × List Elem :=
  match f.opc with
  | 0 => ([], d.map fun x => (toWire f.rop r.a x.1, x.2))
  | 1 => (s.map fun x => some (fromWire f.rop r.b x.1, x.2), [])
  | 4 => (d.map some, [])
  | _ =>
    let l := combineAll f.rop r.a (if f.opc = 3 then r.b else r.a) d s
    (l.map Prod.fst, l.map Prod.snd)

/-- The bytes of wire elements. -/
def wireStream (size : Nat) (l : List Elem) : List Byte := l.flatMap fun x => leBytes x.1 size

/-- A chunk on the wire (R251): the bitmap of its present blocks, then those blocks. -/
def chunkPayload (size : Nat) (l : List Elem) : List Byte :=
  let bs := piecesOf 128 512 (wireStream size l)
  let there (b : List Byte) : Bool := b.any fun x => x != 0
  let map := bs.zipIdx.foldl (fun a x => if there x.1 then a + 2 ^ x.2 else a) 0
  leBytes map 64 ++ (bs.filter there).flatten

/-- The wire elements of a payload of n elements; none when it does not fit them. -/
def payloadElems (size n : Nat) (l : List Byte) : Option (List Elem) :=
  let map := leNat (l.take 64)
  let len := n * size
  let blocks := (len + 127) / 128
  let lens := (List.range blocks).map fun i => if map.testBit i then min 128 (len - 128 * i) else 0
  if l.length < 64 ∨ 2 ^ blocks ≤ map ∨ l.length ≠ 64 + lens.foldl (· + ·) 0 then none
  else
    let (out, _) := lens.zipIdx.foldl (fun (acc : List Byte × List Byte) x =>
      if x.1 = 0 then (acc.1 ++ List.replicate (min 128 (len - 128 * x.2)) 0, acc.2)
      else (acc.1 ++ acc.2.take x.1, acc.2.drop x.1)) (([] : List Byte), l.drop 64)
    some ((piecesOf size n out).map fun b => (leNat b, false))

/-- The side of a step that writes: its local elements. -/
def State.writeSide (s : State) (c : Cmd) (f : Step) (r : Route) (t : Nat) (l : List (Option Elem)) : Except MemStop State × State :=
  if f.opc = 0 ∨ f.opc = 2 then (.ok s, s) else s.impWrite c r.b r.dst t l

/-- The side of a step that reads local elements. -/
def State.readSide (s : State) (c : Cmd) (f : Step) (r : Route) (t n : Nat) : Except MemStop (List Elem) × State :=
  if f.opc = 1 then (.ok [], s) else s.impRead c r.a r.src t n

/-- Move chunk k given its incoming elements: the wire elements to send, memory written. -/
def State.chunkMove (s : State) (c : Cmd) (f : Step) (r : Route) (k : Nat) (inn : List Elem) :
    Except MemStop (List Elem × State) × State :=
  let (t, n) := chunkSpan f r k
  match s.readSide c f r t n with
  | (.error e, s1) => (.error e, s1)
  | (.ok d, s1) =>
    let (loc, out) := chunkGives f r d inn
    match s1.writeSide c f r t loc with
    | (.error e, s2) => (.error e, s2)
    | (.ok s2, s3) => (.ok (out, s2), s3)

/-- Chunk k of the running inbound step has been used. A step that sends keeps what it received, which it may have to send
again (R251). -/
def InStep.took (e : InStep) (f : Step) (k : Nat) : InStep :=
  { e with
    recvd := if e.recvd.contains k then e.recvd else e.recvd ++ [k]
    stream := if f.sends then e.stream else e.stream.filter fun x => x.1 != k }

/-- The program after chunk k has been moved. -/
def ImpState.moved (p : ImpState) (f : Step) (k : Nat) : ImpState :=
  { p with
    sent := if f.sends || f.opc == 4 then k + 1 else p.sent
    ins := match p.here with
      | some e => if f.receives then e.took f k :: p.later else p.ins
      | none => p.ins
    idle := 0 }

/-- What a finished inbound step at level 0 leaves: its transfer and its credit are used up. -/
def State.usedUp (s : State) (c : Cmd) (p : ImpState) (f : Step) (r : Route) : State :=
  match p.here with
  | none => s
  | some e =>
    if f.lvl = 0 then
      let h := s.inChan c p.desc r
      s.setImpChan { h with sends := h.sends.filter fun x => x.no != e.no, credits := h.credits.filter fun x => x.no != e.no }
    else s

/-- The program after chunk k has been moved: sent and received, or at its next step. -/
def State.chunkDone (s : State) (c : Cmd) (p : ImpState) (f : Step) (r : Route) (k : Nat) : State :=
  let p1 := p.moved f k
  let m := chunkCount f r
  let fin := if f.sends || f.opc == 4 then decide (m ≤ p1.sent) else decide (m ≤ ((p1.here.map fun e => e.recvd.length).getD 0))
  if !fin then s.setImp c p1
  else if f.receives then (s.usedUp c p1 f r).impGoto c { p1 with ins := p1.later } (p.step + 1)
  else s.impGoto c p1 (p.step + 1)

/-! ### Credits (R251) -/

/-- Where a program stands: its step, its loop counters and its open loops. -/
structure Spot where
  step : Nat
  ctr : List Nat
  loops : List (Nat × Nat × Nat)
  deriving DecidableEq, Repr

def ImpState.spot (p : ImpState) : Spot := ⟨p.step, p.ctr, p.loops⟩

/-- A step of a program's array, read ahead. -/
def State.stepAt (s : State) (c : Cmd) (d : Desc) (j : Nat) : Option Nat :=
  match s.readGlobal c.mmu c.ctx (vaAdd d.prog (32 * j)) 32 with
  | (.error _, _) => none
  | (.ok l, _) => some (leNat l)

/-- The step of the next ENDLOOP on a counter. -/
def State.findEnd (s : State) (c : Cmd) (d : Desc) (lc : Nat) : Nat → Nat → Option Nat
  | 0, _ => none
  | n + 1, j =>
    match s.stepAt c d j with
    | none => none
    | some x =>
      let f := Step.ofNat x
      if f.opc = 8 ∧ f.lc = lc then some j else s.findEnd c d lc n (j + 1)

/-- Where a LOOP leads (R255); none where it is malformed. -/
def State.afterLoop (s : State) (c : Cmd) (d : Desc) (x : Spot) (f : Step) : Option Spot :=
  if x.loops.any fun y => y.1 == f.lc then none
  else
    let ctr := x.ctr.set f.lc 0
    if f.count = 0 then (s.findEnd c d f.lc (d.nstep - (x.step + 1)) (x.step + 1)).map fun j => ⟨j + 1, ctr, x.loops⟩
    else some ⟨x.step + 1, ctr, (f.lc, x.step, f.count) :: x.loops⟩

/-- Where an ENDLOOP leads (R255); none where it is malformed. -/
def Spot.afterEndloop (x : Spot) (f : Step) : Option Spot :=
  (x.loops.find? fun y => y.1 == f.lc).map fun y =>
    let n := x.ctr.getD f.lc 0 + 1
    let ctr := x.ctr.set f.lc n
    if n < y.2.2 then ⟨y.2.1 + 1, ctr, x.loops⟩ else ⟨x.step + 1, ctr, x.loops.filter fun z => z.1 != f.lc⟩

/-- The next inbound step from a spot on, with its bytes and the loop counters: as far as some steps can be read ahead. -/
def State.nextInbound (s : State) (c : Cmd) (d : Desc) : Nat → Spot → Option (Nat × Nat × List Nat)
  | 0, _ => none
  | n + 1, x =>
    if d.nstep ≤ x.step then none
    else (s.stepAt c d x.step).bind fun w =>
      let f := Step.ofNat w
      if f.receives then some (x.step, w, x.ctr)
      else if f.opc = 7 then (s.afterLoop c d x f).bind (s.nextInbound c d n)
      else if f.opc = 8 then (x.afterEndloop f).bind (s.nextInbound c d n)
      else s.nextInbound c d n { x with step := x.step + 1 }

/-- The chunk below which a receiver may grant: less than 32,768 above the lowest it lacks (R251). -/
def InStep.grants (e : InStep) (f : Step) (r : Route) : Nat := min (chunkCount f r) (e.lacks + 32768)

/-- The first chunk wanted: neither used nor waiting to be. -/
def InStep.wants (e : InStep) : Nat :=
  let had := e.recvd ++ e.stream.map Prod.fst
  ((List.range (had.length + 1)).find? fun k => !had.contains k).getD 0

/-- An inbound step that is about to be given its first credit: numbered on its channel, or by itself at level 1. -/
def State.newIn (s : State) (c : Cmd) (d : Desc) (step raw : Nat) (ctr : List Nat) (f : Step) (r : Route) : InStep × State :=
  if f.lvl = 0 then
    let h := s.inChan c d r
    (⟨step, raw, ctr, h.nextIn, [], 0, []⟩, s.setImpChan { h with nextIn := h.nextIn + 1 })
  else
    let (id, s1) := s.fresh
    (⟨step, raw, ctr, id, [], 0, []⟩, s1)

/-- Give an inbound step's credit to its peer: the step as it stands then; or why its peer entry cannot be used. -/
def State.giveCredit (s : State) (c : Cmd) (d : Desc) (e : InStep) (f : Step) (r : Route) :
    Except (Nat × DWord) InStep × State :=
  let g := e.grants f r
  if f.lvl = 0 then
    let h := s.inChan c d r
    let cr : InCredit := { no := e.no, rop := f.rop, count := f.count, fmt := r.b, cmd := c.id, step := e.step, upto := g }
    (.ok { e with upto := g }, s.setImpChan { h with credits := cr :: h.credits.filter fun x => x.no != e.no })
  else match s.peerPort c d r.frm with
    | (.error x, s1) => (.error x, s1)
    | (.ok port, s1) =>
      let m : CreditMsg := { tag := d.tag, step := e.step, rkey := Config.creditKey c.id e.no % 2 ^ 32
                             landing := Config.creditLanding c.id e.no, first := e.wants, count := g - e.wants }
      (.ok { e with upto := g }, { s1 with replies := s1.replies ++ [Reply.send port r.frm m.bytes] })

/-- The credit that the running step owes its inbound peer: its first, a further one, or, after a resumption, a new one. -/
def State.creditNow (s : State) (c : Cmd) (p : ImpState) (f : Step) (r : Route) : Option State :=
  if !f.receives then none
  else
    let go (e : InStep) (rest : List InStep) (s1 : State) : State := match s1.giveCredit c p.desc e f r with
      | (.error x, s2) => s2.failImp c p x.1 x.2
      | (.ok e1, s2) => s2.setImp c { p with ins := e1 :: rest }
    match p.here with
    | some e => if e.upto ≤ e.lacks ∧ e.lacks < chunkCount f r then some (go e p.later s) else none
    | none =>
      let s1 := p.ins.reverse.foldl (fun a e => a.takeBack c p.desc e) s
      let (e, s2) := s1.newIn c p.desc p.step (p.cur.getD 0) p.ctr f r
      some (go e [] s2)

/-- A program that waits to send gives a credit for its next inbound step (log 48). -/
def State.creditAhead (s : State) (c : Cmd) (p : ImpState) (f : Step) : Option State :=
  if !f.sends || !p.later.isEmpty then none
  else (s.nextInbound c p.desc 65536 { p.spot with step := p.step + 1 }).bind fun x =>
    (parsedAt p.desc x.2.2 x.2.1).bind fun y =>
      let (e, s1) := s.newIn c p.desc x.1 x.2.1 x.2.2 y.1 y.2
      match s1.giveCredit c p.desc e y.1 y.2 with
      | (.error _, _) => none
      | (.ok e1, s2) => some (s2.setImp c { p with ins := p.ins ++ [e1] })

/-! ### Transfers between Feeders of the package -/

/-- Give a chunk to the transfer of a number, opened when there is none. -/
def ImpChan.give (h : ImpChan) (n : Nat) (l : List Elem) : ImpChan :=
  if h.sends.any fun t => t.no == n then
    { h with sends := h.sends.map fun t => if t.no = n then { t with chunks := t.chunks ++ [l] } else t }
  else { h with nextOut := n + 1, sends := h.sends ++ [⟨n, [l], false⟩] }

/-- Matched steps agree (R256). -/
def InCredit.fits (x : InCredit) (f : Step) (r : Route) : Bool :=
  x.rop == f.rop && x.count == f.count && (f.rop != 0 || x.fmt == r.a)

/-- A mismatch ends both programs with 0x21 at the matched steps (R256), once both are in them; one that is suspended or
killed ends, or goes on, first (R259). -/
def State.mismatch (s : State) (c : Cmd) (p : ImpState) (x : InCredit) : Option State :=
  (s.cmd x.cmd).bind fun c' => c'.imp.bind fun p' =>
    if c'.suspended || c'.killed || p'.here.all fun e => e.no != x.no || p'.step != x.step then none
    else some ((s.failImp c p 0x21 0).failImp c' p' 0x21 0)

/-- What a step finds at a peer: it must wait, its program ends, or it may go on. -/
inductive Ready (α : Type) where
  | wait
  | ends (s : State)
  | go (a : α)

/-- The incoming chunk of a step at level 0: it must be there, unless the step only sends. -/
def State.localIn (s : State) (c : Cmd) (p : ImpState) (f : Step) (r : Route) (k : Nat) : Ready (List Elem) :=
  if !f.receives then .go []
  else match p.here with
    | none => .wait
    | some e => match (s.inChan c p.desc r).sends.find? fun t => t.no == e.no with
      | none => .wait
      | some t => if t.aborted then .ends (s.failImp c p 0x22 0)
        else match t.chunks[k]? with
          | none => .wait
          | some l => .go l

/-- The number of a step's outbound transfer at level 0, when chunk k has been granted. -/
def State.localOut (s : State) (c : Cmd) (p : ImpState) (f : Step) (r : Route) (k : Nat) : Ready Nat :=
  if !f.sends then .go 0
  else
    let h := s.outChan c p.desc r
    let n := p.outNo.getD h.nextOut
    if h.cuts.contains n then .ends (s.failImp c p 0x22 0)
    else match h.credits.find? fun x => x.no == n with
      | none => .wait
      | some x =>
        if !x.fits f r then (match s.mismatch c p x with
          | none => .wait
          | some s1 => .ends s1)
        else if x.upto ≤ k then .wait else .go n

/-- One chunk of a transfer step at level 0. -/
def State.localChunk (s : State) (c : Cmd) (p : ImpState) (f : Step) (r : Route) : Option State :=
  let k := if f.sends then p.sent else p.lacks
  match s.localOut c p f r k, s.localIn c p f r k with
  | .ends s1, _ | _, .ends s1 => some s1
  | .wait, _ | _, .wait => none
  | .go n, .go inn =>
    match s.chunkMove c f r k inn with
    | (.error e, s1) => s1.impStop c p e
    | (.ok (out, s1), _) =>
      if !f.sends then some (s1.chunkDone c p f r k)
      else some ((s1.setImpChan ((s1.outChan c p.desc r).give n out)).chunkDone c { p with outNo := some n } f r k)

/-! ### Transfers over Ethernet -/

/-- The ports of a step's peers at level 1: outbound and inbound. -/
def State.portsOf (s : State) (c : Cmd) (d : Desc) (f : Step) (r : Route) : Except (Nat × DWord) (Nat × Nat) × State :=
  match if f.sends then s.peerPort c d r.dest else (.ok 0, s) with
  | (.error e, s1) => (.error e, s1)
  | (.ok o, s1) => match if f.receives then s1.peerPort c d r.frm else (.ok 0, s1) with
    | (.error e, s2) => (.error e, s2)
    | (.ok i, s2) => (.ok (o, i), s2)

/-- A chunk goes out over Ethernet; poisoned bytes do not leave the package (R373). -/
def State.sendChunk (s : State) (c : Cmd) (p : ImpState) (f : Step) (r : Route) (port k pstep : Nat) (l : List Elem) : State :=
  if l.any Prod.snd then
    let (x, y, s1) := s.reliabilityWords
    (s1.post (s1.unitErrata 0xC2 0 3 c.ctx (s1.rcbIndexOf c.rcb) c.feeder 0 x y)).failImp c p 0x23 0
  else
    { s with replies := s.replies ++ [Reply.write port r.dest (chunkImm p.desc.tag pstep k) (chunkPayload (wireBytes f r) l)] }.chunkDone
      c p f r k

/-- An outbound step takes the oldest credit that its peer has given for a step to come. -/
def ImpState.takeOffer (p : ImpState) (f : Step) (r : Route) : ImpState :=
  if f.sends && p.grant.isNone then
    match p.offers.find? fun g => g.peer == r.dest with
    | none => p
    | some g => { p with grant := some g, offers := p.offers.filter fun x => x != g }
  else p

/-- The next chunk that a step at level 1 can move, with its incoming elements: what its peers have granted and sent. -/
def wireNext (p : ImpState) (f : Step) : Option (Nat × List Elem) :=
  let granted (k : Nat) : Bool := p.grant.any fun g => decide (g.first ≤ k ∧ k < g.first + g.count)
  let stream := (p.here.map InStep.stream).getD []
  match f.opc with
  | 0 => if granted p.sent then some (p.sent, []) else none
  | 2 => if granted p.sent then stream.find? fun x => x.1 == p.sent else none
  | _ => stream.head?

/-- The status with which an abort that has been received ends the running step (R256): a mismatch ends both programs
alike. It meets the outbound side whose credit named the peer's step, or that has none and follows no step so granted; and
an inbound side that lacks chunks. -/
def ImpState.abortedBy (p : ImpState) (f : Step) (r : Route) : Option Nat :=
  let lacking := p.here.all fun e => decide (e.wants < chunkCount f r)
  (p.aborts.find? fun x =>
    (f.sends && x.1 == r.dest && (match p.grant with
      | some g => g.step == x.2.1
      | none => !p.lastOut.contains (x.1, x.2.1))) ||
    (f.receives && x.1 == r.frm && lacking)).map fun x => if x.2.2 = 0x21 then 0x21 else 0x22

/-- A credit that asks for more than the stream has does not match (R256). -/
def ImpState.overGranted (p : ImpState) (f : Step) (r : Route) : Bool :=
  p.grant.any fun g => decide (chunkCount f r < g.first + g.count)

/-- One chunk of a transfer step at level 1. -/
def State.wireChunk (s : State) (c : Cmd) (p0 : ImpState) (f : Step) (r : Route) : Option State :=
  let p := p0.takeOffer f r
  match p.abortedBy f r with
  | some status => some (s.failImp c p status 0)
  | none =>
    if p.overGranted f r then some (s.failImp c p 0x21 0)
    else match s.portsOf c p.desc f r with
      | (.error (status, a), s1) => some (s1.failImp c p status a)
      | (.ok (o, _), s1) =>
        match wireNext p f with
        | none => none
        | some (k, inn) =>
          match s1.chunkMove c f r k inn with
          | (.error e, s2) => s2.impStop c p e
          | (.ok (out, s2), _) =>
            if f.sends then some (s2.sendChunk c p f r o k ((p.grant.map Grant.step).getD 0) out)
            else some (s2.chunkDone c p f r k)

/-! ### Which command a Feeder serves -/

/-- One chunk of a program's step; none when it has none that is ready. -/
def State.impChunk (s : State) (c : Cmd) (p : ImpState) : Option State :=
  match p.parsed with
  | none => none
  | some (f, r) =>
    if f.opc = 4 then
      match s.chunkMove c f r p.sent [] with
      | (.error e, s1) => s1.impStop c p e
      | (.ok (_, s1), _) => some (s1.chunkDone c p f r p.sent)
    else if !f.transfer then none
    else if f.lvl = 0 then s.localChunk c p f r
    else s.wireChunk c p f r

/-- A chunk of a command; a program's step that has not been read is read. -/
def State.cmdChunk (s : State) (c : Cmd) : Option State :=
  if !s.cmdReady c then none
  else match c.imp with
    | none => s.runChunk c
    | some p => match s.fetchStep c p with
      | (.error _, _) => none
      | (.ok p1, s1) => s1.impChunk { c with imp := some p1 } p1

/-- The chunk that a Feeder serves next: of the highest class, in round robin (R240). -/
def State.serve (s : State) (f : Nat) : Option (Cmd × State) :=
  if s.feederBlocked f then none
  else
    let l := (s.feedOrder f (s.cmds.filter fun c => c.feeder == f)).filterMap fun c => (s.cmdChunk c).map fun t => (c, t)
    let best := l.foldl (fun m x => min m x.1.cls) 3
    (l.find? fun x => x.1.cls == best).map fun x => (x.1, { x.2 with feedRR := x.2.feedRR.set f x.1.id })

/-- A completion record that a moving page held up is written. -/
def State.payOwed (s : State) (f : Nat) : Option State :=
  s.cmds.findSome? fun c => if c.feeder = f then c.owed.bind (s.payRecord c) else none

/-- A Feeder writes a completion record that was held up, ends a copy that has been killed, or moves one chunk of a copy
(R240, R259, R344). -/
def execFeederChunk (f : Nat) (s : State) : Out :=
  match s.payOwed f with
  | some t => .next t
  | none =>
    match s.cmds.find? fun c => c.feeder == f && c.killed && !c.ended && c.imp.isNone && (s.postsOf c.id).isEmpty with
    | some c => .next (s.endCmd c 2 0 c.bytes 0)
    | none => match s.serve f with
      | none => .fault .notEnabled
      | some (c, s1) => if c.imp.isNone then .next s1 else .fault .notEnabled

/-! ### The steps of a program -/

/-- Run a step of a kind: a killed program ends, a malformed step ends its program. -/
def State.onStep (s : State) (id opc : Nat) (f : State → Cmd → ImpState → Step → Route → Out) : Out :=
  match s.cmd id with
  | none => .fault .notEnabled
  | some c => match c.imp with
    | none => .fault .notEnabled
    | some p =>
      if !(s.postsOf id).isEmpty then .fault .notEnabled
      else if c.killed then .next (s.failImp c p 2 0)
      else if c.suspended || !s.issuedBefore c || ((s.gang c.gang).any fun g => g.acks.contains (.feeder c.id)) ||
          s.feederBlocked c.feeder then .fault .notEnabled
      else match s.fetchStep c p with
        | (.error x, s1) => .next (s1.failImp c p x.1 x.2)
        | (.ok p1, s1) => match p1.parsed with
          | none => .next (s1.failImp c p1 0x20 0)
          | some (x, r) => if x.opc = opc then f (s1.setImp c p1) { c with imp := some p1 } p1 x r else .fault .notEnabled

/-- A step that moves elements: the credit that it owes, its next chunk when its Feeder serves it, or a credit for the next
inbound step. -/
def State.moveStep (s : State) (id opc : Nat) : Out :=
  s.onStep id opc fun s1 c p f r =>
    match s1.creditNow c p f r with
    | some s2 => .next s2
    | none =>
      match (s1.serve c.feeder).filter fun x => x.1.id == id with
      | some x => .next x.2
      | none => match if s1.cmdChunk c = none then s1.creditAhead c p f else none with
        | some s2 => .next s2
        | none => .fault .notEnabled

def execStepSend (id : Nat) (s : State) : Out := s.moveStep id 0
def execStepRecv (id : Nat) (s : State) : Out := s.moveStep id 1
def execStepRrs (id : Nat) (s : State) : Out := s.moveStep id 2
def execStepRrc (id : Nat) (s : State) : Out := s.moveStep id 3
def execStepCopy (id : Nat) (s : State) : Out := s.moveStep id 4

/-- What an acquire load of a WAIT's word finds. -/
def State.waitWord (s : State) (c : Cmd) (p : ImpState) (f : Step) (r : Route) : Except State Bool × State :=
  let va := BitVec.ofNat 64 (wrap r.dst 64)
  match s.translate c.mmu c.ctx va .read with
  | (.error (.cause k _), s1) => (.error (s1.failImp c p (statusOf k) va), s1)
  | (.error .poison, s1) => (.error (s1.failImp c p statusPoison va), s1)
  | (.ok x, s1) =>
    if s1.poisoned x.place 8 then (.error (s1.failImp c p statusPoison va), s1)
    else (.ok (decide (f.count ≤ s1.readLe x.place 8)), s1)

/-- A WAIT begins: it ends at once, or polls (R255). -/
def execStepWait (id : Nat) (s : State) : Out :=
  s.onStep id 5 fun s1 c p f r =>
    if p.begun then .fault .notEnabled
    else match s1.waitWord c p f r with
      | (.error s2, _) => .next s2
      | (.ok true, s2) => .next (s2.impGoto c p (p.step + 1))
      | (.ok false, s2) => .next (s2.setImp c { p with begun := true })

/-- The word that a WAIT polls has reached its value (R255). -/
def execImpositionWaitMet (id : Nat) (s : State) : Out :=
  s.onStep id 5 fun s1 c p f r =>
    if !p.begun then .fault .notEnabled
    else match s1.waitWord c p f r with
      | (.error s2, _) => .next s2
      | (.ok true, s2) => .next (s2.impGoto c p (p.step + 1))
      | (.ok false, _) => .fault .notEnabled

/-- What became of the addition of a SIGNAL. -/
def State.signalStep (s : State) (c : Cmd) (p : ImpState) (va : DWord) : Added → State
  | .done => s.impGoto c p (p.step + 1)
  | .poisoned => (s.cmdError c 0xC2 va).impGoto c p (p.step + 1)
  | .failed (.cause k _) => s.failImp c p (statusOf k) va
  | .failed .poison => s.failImp c p statusPoison va

def execStepSignal (id : Nat) (s : State) : Out :=
  s.onStep id 6 fun s1 c p f r =>
    let va := BitVec.ofNat 64 (wrap r.dst 64)
    match s1.addCounter c .step va (BitVec.ofNat 64 f.count) with
    | none => .fault .notEnabled
    | some (none, s2) => .next (s2.setImp c { p with begun := true })
    | some (some a, s2) => .next (s2.signalStep c p va a)

/-- A LOOP or ENDLOOP leads to a spot, or is malformed. -/
def State.loopTo (s : State) (c : Cmd) (p : ImpState) : Option Spot → State
  | none => s.failImp c p 0x20 0
  | some x => s.impGoto c { p with ctr := x.ctr, loops := x.loops } x.step

def execStepLoop (id : Nat) (s : State) : Out :=
  s.onStep id 7 fun s1 c p f _ => .next (s1.loopTo c p (s1.afterLoop c p.desc p.spot f))

def execStepEndloop (id : Nat) (s : State) : Out :=
  s.onStep id 8 fun s1 c p f _ => .next (s1.loopTo c p (p.spot.afterEndloop f))

/-! ### Posted atomics between sheets (R331) -/

/-- A post is performed at its home, or cannot be: nothing of it is left. -/
def State.landPost (s : State) (c : Cmd) (x : Post) (w : Except NoTrans Place) : State :=
  let s1 := { s with posts := s.posts.filter fun y => y.id != x.id }
  let (a, s2) : Added × State := match w with
    | .error e => (.failed e, s1)
    | .ok q => if x.why = .tie then (.done, s1.landAt c q x.x) else s1.addAt c.forme q x.x
  match x.why, a, c.imp with
  | .tie, .failed (.cause k _), _ => s2.tieError c k
  | .tie, .failed .poison, _ => s2.tieError c 0xC2
  | .tie, _, _ => s2
  | .sig, _, _ => s2.signalled c x.va a
  | .step, _, some p => s2.signalStep c p x.va a
  | .step, _, none => s2

/-- The channel whose receiving queue has a post at its head. -/
def State.postKey (s : State) (id : Nat) : Option Nat :=
  (s.chans.map Prod.fst).find? fun k => ((s.chans.get k).queue.head?).any fun e => e.2 == .post id

/-- The next thing that happens to a post: at the head of its receiving queue it is performed, or, when its page has moved or
moves, sent again; a post that is in no channel enters one with room, or is performed on its Feeder's own sheet. -/
def State.postStep (s : State) (id : Nat) : Out :=
  match s.posts.find? fun x => x.id == id with
  | none => .fault .notEnabled
  | some x => match s.cmd x.cmd with
    | none => .fault .notEnabled
    | some c =>
      let key := s.postKey id
      if key.isNone && s.postSent id then .fault .notEnabled
      else
        let s1 := match key with
          | none => s
          | some k => { s with chans := s.chans.modify k fun y => { y with queue := y.queue.drop 1 } }
        match s1.translate c.mmu c.ctx x.va .readWrite with
        | (.error e, s2) => .next (s2.landPost c x (.error e))
        | (.ok q, s2) =>
          let there := match key with
            | none => c.sheet
            | some k => k / 2 % 4
          let out := chanKey c.sheet q.sheet c.vc
          if q.mig || s2.isMoving q.place then if key.isSome then .next s2 else .fault .notEnabled
          else if q.sheet = there then .next (s2.landPost c x (.ok q.place))
          else if key.isSome then .next s2
          else if (s2.chans.get out).room then .next { s2 with chans := s2.chans.modify out fun y => y.push (.post id) }
          else .fault .notEnabled

/-- An atomic is performed: a part of a warp's, or a Feeder's post. -/
def execAtomicPerformed (slot op piece : Nat) (s : State) : Out :=
  if slot = engineSlot then s.postStep op else warpAtomicPerformed slot op piece s

/-! ### Messages from other packages (R251, R256) -/

/-- A message of a port that matches nothing (R251). -/
def State.dropMessage (s : State) (port : Nat) : State := { s with dropped := s.dropped.modify port fun n => n + 1 }

/-- The program that a message of another package concerns: of its TAG, with the peer behind that port. -/
def State.programOf (s : State) (port peer tag : Nat) : Option (Cmd × ImpState) :=
  s.cmds.findSome? fun c => c.imp.bind fun p =>
    if c.killed || p.desc.tag != tag || decide (p.desc.sizeAt 1 ≤ max peer 1) then none
    else match (s.peerPort c p.desc peer).1 with
      | .ok n => if n = port then some (c, p) else none
      | .error _ => none

/-- A program takes a credit: for the step that it is sending, which sends again from the first chunk wanted, or for an
outbound step to come; none when it fits no step. -/
def ImpState.credit (p : ImpState) (g : Grant) : Option ImpState :=
  if p.grant.any fun x => x.peer == g.peer && x.landing == g.landing then
    some { p with grant := some g, sent := min p.sent g.first }
  else if p.offers.any fun x => x.peer == g.peer && x.landing == g.landing then
    some { p with offers := p.offers.map fun x => if x.peer = g.peer ∧ x.landing = g.landing then g else x }
  else if g.first = 0 then some { p with offers := p.offers ++ [g] }
  else none

/-- A packet that arrives marked by ECN is answered with a congestion notification (R431). -/
def State.notify (s : State) (port : Nat) (src : Sender) : State :=
  if src.ecn then { s with replies := s.replies ++ [.cnp port src.peer] } else s

/-- A credit arrives (R251, log 48). -/
def execCredit (port : Nat) (src : Sender) (m : List Byte) (s0 : State) : Out :=
  let s := s0.notify port src
  .next (((CreditMsg.ofBytes m).bind fun x => (s.programOf port src.peer x.tag).bind fun y =>
    (y.2.credit ⟨src.peer, x.step, x.landing, x.first, x.count⟩).map fun p => s.setImp y.1 p).getD (s.dropMessage port))

/-- The chunk that the low bits of its number name among those that may still come. -/
def InStep.chunkNumber (e : InStep) (low : Nat) : Nat := e.lacks + (low + 65536 - e.lacks % 65536) % 65536

/-- An inbound step waits for a chunk of a peer: the chunk's number, the wire element's size and how many elements it has. -/
def InStep.waitsFor (e : InStep) (d : Desc) (peer step low : Nat) : Option (Nat × Nat × Nat) :=
  (e.parsed d).bind fun x =>
    let k := e.chunkNumber low
    if x.1.lvl = 1 ∧ x.2.frm = peer ∧ e.step % 256 = step ∧ k < e.upto ∧ ¬ e.recvd.contains k ∧ ¬ (e.stream.any fun y => y.1 == k) then
      some (k, wireBytes x.1 x.2, (chunkSpan x.1 x.2 k).2)
    else none

/-- A chunk arrives (R251); one that does not fit its step is a mismatch (R256). -/
def execChunk (port : Nat) (src : Sender) (m : ImmWrite) (s0 : State) : Out :=
  let s := s0.notify port src
  let x := m.imm.toNat
  let find (p : ImpState) : Option (InStep × Nat × Nat × Nat) :=
    p.ins.findSome? fun e => (e.waitsFor p.desc src.peer (bits x 0 8) (bits x 8 16)).map fun y => (e, y)
  .next (match (s.programOf port src.peer (bits x 24 8)).filter fun y => !y.1.suspended with
    | none => s.dropMessage port
    | some (c, p) => match find p with
      | none => s.dropMessage port
      | some (e, k, size, n) => match payloadElems size n m.payload with
        | none => s.setImp c { p with aborts := p.aborts ++ [(src.peer, e.step, 0x21)] }
        | some l => s.setImp c { p with
            ins := p.ins.map fun y => if y = e then { y with stream := y.stream ++ [(k, l)] } else y
            idle := if p.here = some e then 0 else p.idle })

/-- An abort (R256): its program ends in the step it shares with the peer, when it is in it or reaches it. -/
def execAbort (port : Nat) (src : Sender) (m : List Byte) (s0 : State) : Out :=
  let s := s0.notify port src
  .next (match (AbortMsg.ofBytes m).bind fun x => (s.programOf port src.peer x.tag).map fun y => (x, y) with
    | none => s.dropMessage port
    | some (x, c, p) => s.setImp c { p with aborts := p.aborts ++ [(src.peer, x.step, x.status)] })

/-- A transfer step has made no progress for TIMEOUT µs (R252). -/
def execTransferTimeout (id : Nat) (s : State) : Out :=
  match s.cmd id with
  | none => .fault .notEnabled
  | some c => match c.imp with
    | none => .fault .notEnabled
    | some p =>
      match p.parsed with
      | some (f, _) =>
        if f.transfer && p.desc.timeout != 0 && decide (1000 * p.desc.timeout ≤ p.idle) && !c.suspended && !c.killed then
          .next (s.failImp c p 0x23 0)
        else .fault .notEnabled
      | none => .fault .notEnabled

/-- The Ethernet link of a transfer step fails (R243); a link that no step uses concerns nobody. -/
def execLinkFailure (id : Nat) (s : State) : Out :=
  .next (match s.cmd id with
    | none => s
    | some c => match c.imp with
      | none => s
      | some p => match p.parsed with
        | some (f, _) => if f.transfer && f.lvl == 1 && !c.killed && !c.suspended then s.failImp c p 0x23 0 else s
        | none => s)

end Sys2Proof.Machine
end

