-- ==== Sys2Proof/Machine/Lms.lean ====
section
/-! DEFINITION. SHA-256, and the LM-OTS, LMS and HSS signatures of NIST SP 800-208 (R429). PRESUMED (log 53): the layouts and
the functions are those of the standards that R429 names. -/

namespace Sys2Proof.Machine

/-! ### SHA-256 -/

/-- The number that bytes give, most significant first, and n bytes of a number in that order. -/
def beNat (l : List Byte) : Nat := l.foldl (fun a b => 256 * a + b.toNat) 0
def beBytes (x n : Nat) : List Byte := (leBytes x n).reverse

def rotr32 (x n : Nat) : Nat := x >>> n ||| (x <<< (32 - n)) % 2 ^ 32

def shaRound : List Nat :=
  [0x428a2f98, 0x71374491, 0xb5c0fbcf, 0xe9b5dba5, 0x3956c25b, 0x59f111f1, 0x923f82a4, 0xab1c5ed5] ++
    [0xd807aa98, 0x12835b01, 0x243185be, 0x550c7dc3, 0x72be5d74, 0x80deb1fe, 0x9bdc06a7, 0xc19bf174] ++
    [0xe49b69c1, 0xefbe4786, 0x0fc19dc6, 0x240ca1cc, 0x2de92c6f, 0x4a7484aa, 0x5cb0a9dc, 0x76f988da] ++
    [0x983e5152, 0xa831c66d, 0xb00327c8, 0xbf597fc7, 0xc6e00bf3, 0xd5a79147, 0x06ca6351, 0x14292967] ++
    [0x27b70a85, 0x2e1b2138, 0x4d2c6dfc, 0x53380d13, 0x650a7354, 0x766a0abb, 0x81c2c92e, 0x92722c85] ++
    [0xa2bfe8a1, 0xa81a664b, 0xc24b8b70, 0xc76c51a3, 0xd192e819, 0xd6990624, 0xf40e3585, 0x106aa070] ++
    [0x19a4c116, 0x1e376c08, 0x2748774c, 0x34b0bcb5, 0x391c0cb3, 0x4ed8aa4a, 0x5b9cca4f, 0x682e6ff3] ++
    [0x748f82ee, 0x78a5636f, 0x84c87814, 0x8cc70208, 0x90befffa, 0xa4506ceb, 0xbef9a3f7, 0xc67178f2]

def shaStart : List Nat := [0x6a09e667, 0xbb67ae85, 0x3c6ef372, 0xa54ff53a, 0x510e527f, 0x9b05688c, 0x1f83d9ab, 0x5be0cd19]

/-- The next word of the message schedule; the words so far stand newest first. -/
def shaExtend (l : List Nat) : List Nat :=
  let x := l.getD 14 0
  let y := l.getD 1 0
  let s0 := rotr32 x 7 ^^^ rotr32 x 18 ^^^ (x >>> 3)
  let s1 := rotr32 y 17 ^^^ rotr32 y 19 ^^^ (y >>> 10)
  (l.getD 15 0 + s0 + l.getD 6 0 + s1) % 2 ^ 32 :: l

/-- The 64 words of a block's schedule. -/
def shaSchedule (block : List Byte) : List Nat :=
  let first := (List.range 16).map fun i => beNat ((block.drop (4 * i)).take 4)
  ((List.range 48).foldl (fun l _ => shaExtend l) first.reverse).reverse

/-- One round on the eight working variables. -/
def shaStep (v : List Nat) (kw : Nat × Nat) : List Nat :=
  match v with
  | [a, b, c, d, e, f, g, h] =>
    let s1 := rotr32 e 6 ^^^ rotr32 e 11 ^^^ rotr32 e 25
    let ch := (e &&& f) ^^^ ((2 ^ 32 - 1 - e) &&& g)
    let t1 := h + s1 + ch + kw.1 + kw.2
    let s0 := rotr32 a 2 ^^^ rotr32 a 13 ^^^ rotr32 a 22
    let maj := (a &&& b) ^^^ (a &&& c) ^^^ (b &&& c)
    [(t1 + s0 + maj) % 2 ^ 32, a, b, c, (d + t1) % 2 ^ 32, e, f, g]
  | _ => v

def shaBlock (h : List Nat) (block : List Byte) : List Nat :=
  let v := (shaRound.zip (shaSchedule block)).foldl shaStep h
  (h.zip v).map fun x => (x.1 + x.2) % 2 ^ 32

/-- Blocks of 64 bytes, at most n. -/
def shaBlocks : Nat → List Byte → List (List Byte)
  | 0, _ => []
  | n + 1, l => if l.isEmpty then [] else l.take 64 :: shaBlocks n (l.drop 64)

def sha256 (m : List Byte) : List Byte :=
  let padded := m ++ [0x80] ++ List.replicate ((119 - m.length % 64) % 64) 0 ++ beBytes (8 * m.length) 8
  ((shaBlocks (padded.length / 64) padded).foldl shaBlock shaStart).flatMap fun x => beBytes x 4

/-! ### LM-OTS with LMOTS_SHA256_N32_W8 -/

def otsType : Nat := 4
/-- Chains of a signature: 32 for the digest and two for the checksum. -/
def otsChains : Nat := 34

/-- The values at which the chains of a message are opened: the bytes of its digest and of their checksum. -/
def otsDigits (id : List Byte) (q : Nat) (c m : List Byte) : List Nat :=
  let d := (sha256 (id ++ beBytes q 4 ++ beBytes 0x8181 2 ++ c ++ m)).map BitVec.toNat
  d ++ (beBytes ((d.map fun x => 255 - x).sum) 2).map BitVec.toNat

/-- n steps of chain i from value j on. -/
def otsChain (id : List Byte) (q i : Nat) : Nat → Nat → List Byte → List Byte
  | 0, _, x => x
  | n + 1, j, x => otsChain id q i n (j + 1) (sha256 (id ++ beBytes q 4 ++ beBytes i 2 ++ beBytes j 1 ++ x))

/-- Chain i of some bytes. -/
def chainOf (i : Nat) (l : List Byte) : List Byte := (l.drop (32 * i)).take 32

/-- The public key that a one-time signature gives: its chains run to their ends. -/
def otsKey (id : List Byte) (q : Nat) (c y m : List Byte) : List Byte :=
  let z := (otsDigits id q c m).zipIdx.flatMap fun x => otsChain id q x.2 (255 - x.1) x.1 (chainOf x.2 y)
  sha256 (id ++ beBytes q 4 ++ beBytes 0x8080 2 ++ z)

/-- The chains of a signature, opened from their secrets. -/
def otsSign (id : List Byte) (q : Nat) (c m : List Byte) (secret : Nat → List Byte) : List Byte :=
  (otsDigits id q c m).zipIdx.flatMap fun x => otsChain id q x.2 x.1 0 (secret x.2)

/-! ### LMS -/

/-- An LMS public key: the height and type of its tree, its identifier, its root. -/
structure LmsKey where
  height : Nat
  id : List Byte
  root : List Byte
  deriving DecidableEq, Repr, Inhabited

/-- The type codes of LMS_SHA256_M32_H10 and LMS_SHA256_M32_H20. -/
def lmsType (height : Nat) : Nat := if height = 10 then 6 else 8

/-- The bytes of an LMS signature of a tree. -/
def lmsLength (height : Nat) : Nat := 4 + (4 + 32 + 32 * otsChains) + 4 + 32 * height

/-- From a node up to the root along a path. -/
def lmsClimb (id : List Byte) : Nat → List (List Byte) → List Byte → List Byte
  | _, [], x => x
  | node, p :: t, x =>
    let parent := id ++ beBytes (node / 2) 4 ++ beBytes 0x8383 2
    lmsClimb id (node / 2) t (sha256 (parent ++ if node % 2 = 1 then p ++ x else x ++ p))

/-- The hash of a leaf. -/
def lmsLeaf (id : List Byte) (node : Nat) (key : List Byte) : List Byte :=
  sha256 (id ++ beBytes node 4 ++ beBytes 0x8282 2 ++ key)

/-- An LMS signature verifies. -/
def LmsKey.verifies (k : LmsKey) (sig m : List Byte) : Bool :=
  let q := beNat (sig.take 4)
  let c := (sig.drop 8).take 32
  let y := (sig.drop 40).take (32 * otsChains)
  let rest := sig.drop (40 + 32 * otsChains)
  let path := (List.range k.height).map fun i => chainOf i (rest.drop 4)
  sig.length == lmsLength k.height && beNat ((sig.drop 4).take 4) == otsType && beNat (rest.take 4) == lmsType k.height &&
    decide (q < 2 ^ k.height) &&
    lmsClimb k.id (2 ^ k.height + q) path (lmsLeaf k.id (2 ^ k.height + q) (otsKey k.id q c y m)) == k.root

/-- A public key as bytes: the types, the identifier, the root. -/
def LmsKey.bytes (k : LmsKey) : List Byte := beBytes (lmsType k.height) 4 ++ beBytes otsType 4 ++ k.id ++ k.root

/-! ### HSS with two levels -/

/-- An HSS signature verifies under the root key: it holds the root's signature of a second key and that key's of the
message. -/
def hssVerifies (root : LmsKey) (sig m : List Byte) : Bool :=
  let n := lmsLength 10
  let first := (sig.drop 4).take n
  let pub := (sig.drop (4 + n)).take 56
  let k : LmsKey := ⟨10, (pub.drop 8).take 16, pub.drop 24⟩
  sig.length == 4 + n + 56 + n && beNat (sig.take 4) == 1 && root.verifies first pub && pub == k.bytes &&
    k.verifies (sig.drop (4 + n + 56)) m

/-! ### The device's keys -/

/-- The fused root key of firmware signatures (R429). -/
def rootKey : LmsKey := ⟨10, (List.range 16).map Config.rootKey, (List.range 32).map fun i => Config.rootKey (16 + i)⟩

/-- A firmware slot holds an image that its signature verifies; the image from the factory does (R427, R429). -/
def FwSlot.verifies (f : FwSlot) : Bool :=
  match f.code with
  | none => true
  | some (image, sig) => hssVerifies rootKey sig image

/-- SHA-256 of a slot's image (R430). -/
def FwSlot.hash (f : FwSlot) : List Byte :=
  match f.code with
  | none => (List.range 32).map Config.factoryHash
  | some (image, _) => sha256 image

/-- The signature of a message with a leaf of the attestation key (R429, R430). -/
def attest (q : Nat) (m : List Byte) : List Byte :=
  let id := (List.range 16).map Config.lmsId
  let word (f : Nat → Byte) : List Byte := (List.range 32).map f
  let c := word (Config.lmsRandom q)
  beBytes q 4 ++ beBytes otsType 4 ++ c ++ otsSign id q c m (fun i => word (Config.lmsSecret q i)) ++ beBytes (lmsType 20) 4 ++
    (List.range 20).flatMap fun i => word (Config.lmsNode (Nat.xor ((2 ^ 20 + q) / 2 ^ i) 1))

end Sys2Proof.Machine
end

