-- ==== Sys2Proof/Machine/Preempt.lean ====
section
/-! DEFINITION. Pre-emption of gangs, their resumption, time slices (R236, R259, R326 to R330), and the rebuild of the
scheduler's tables (R410). -/

namespace Sys2Proof.Machine

/-- Ask every engine of a gang to stop. -/
def State.requestStop (s : State) (gang : Nat) (yieldTo : Nat × Nat) : State :=
  s.modGang gang fun g => { g with phase := .stopping, stopAt := s.time, acks := [], yieldTo := some yieldTo }

/-- The class-0 work for which another gang must go, as if the gangs already stopping were gone (R326). -/
def State.claimant (s : State) : Option Job :=
  let t := s.without fun g => g.phase == .stopping
  t.jobs.find? t.claims

/-- The CP asks for a gang's pre-emption; a second request for it is merged with the first (R326, R328, R329). -/
def execPreemptionRequest (gang : Nat) (s : State) : Out :=
  match s.gang gang with
  | none => .fault .notEnabled
  | some g =>
    if g.phase == .stopping then .next s
    else match s.claimant with
      | none => .fault .notEnabled
      | some j => if (s.victim.map Gang.id) = some gang then
          .next (s.requestStop gang (j.work.id, (j.again.map Gang.lin).getD j.work.next)) else .fault .notEnabled

/-! ### Stopping units (R328) -/

/-- The commands of a gang's warps. -/
def State.gangCmds (s : State) (gang : Nat) : List Cmd :=
  s.cmds.filter fun c => match c.owner with
    | .warp _ g => g == gang && !c.killed && !c.ended
    | .queue _ _ => false

/-- The slots in which a gang's warps stand. -/
def State.gangSlots (s : State) (gang : Nat) : List Nat := (s.warpList.filter fun x => x.2.gang == gang).map Prod.fst

/-- Nothing in flight but what a save holds: loads, which are sent again (R236). -/
def Warp.holdable (w : Warp) : Bool := w.pend.all fun o => o.replayed || o.kind == .fence

/-- A warp may stop: at a boundary, no trap or kill before it (R329). -/
def Warp.mayStop (w : Warp) : Bool :=
  !w.stopped && w.boundary && w.holdable && (w.r.inHandler || w.async.isEmpty) && w.det.all fun e => w.absorber e.level != 0

/-- A warp stops: what its lanes wait on, but for a jwait, is issued again on resumption (R236). -/
def Warp.stop (w : Warp) : Warp :=
  { w with
    waits := w.waits.filter Wait.isJ
    stopped := true
    proof := w.proof.map fun p => { p with lag := p.lag.map w.takenOff } }

def State.stopWarp (s : State) (gang slot : Nat) : Option State :=
  let s0 := s.settle slot
  let s1 := match s0.warp slot with
    | some w => if s0.refusedDeparture slot w then s0.modWarp slot Warp.cancelDeparture else s0
    | none => s0
  let s2 := s1.flushResults slot
  match s2.warp slot with
  | none => none
  | some w => if w.gang == gang && w.mayStop then some (s2.modWarp slot Warp.stop) else none

/-- A Feeder command stops: its record says how far it is, a WAIT is performed again and a receiver grants again (R251,
R259). -/
def State.stopCmd (s : State) (gang id : Nat) : Option State :=
  match s.cmd id with
  | none => none
  | some c =>
    if c.suspended || !(s.gangCmds gang).any (fun x => x.id == id) || !(s.postsOf id).isEmpty then none
    else
      let step := (c.imp.map ImpState.step).getD 0
      let done := (c.imp.map ImpState.wireDone).getD c.bytes
      some ((s.oweRecord c ⟨1, completionWord 1 step done, 0⟩).modCmd id fun x =>
        { x with
          suspended := true
          imp := x.imp.map fun p => { p with begun := false, ins := p.ins.map fun e => { e with upto := 0 } } })

/-- An engine reaches its stopping unit and acknowledges to the Collator. -/
def execEngineStop (gang : Nat) (e : Engine) (s : State) : Out :=
  match s.gang gang with
  | none => .fault .notEnabled
  | some g =>
    if g.phase != .stopping || g.acks.contains e then .fault .notEnabled
    else
      let stopped := match e with
        | .warp slot => s.stopWarp gang slot
        | .platen slot => if (s.gangSlots gang).contains slot then some s else none
        | .feeder id => s.stopCmd gang id
        | .cp => some s
      match stopped with
      | none => .fault .notEnabled
      | some s1 => .next (s1.modGang gang fun x => { x with acks := e :: x.acks })

/-- The engines of a gang. -/
def State.engines (s : State) (gang : Nat) : List Engine :=
  ((s.gangSlots gang).flatMap fun slot => [.warp slot, .platen slot]) ++ ((s.gangCmds gang).map fun c => .feeder c.id) ++ [.cp]

/-- The Collator holds every acknowledgement: the warps are saved and the resources are free (R328). -/
def execPreemptionComplete (gang : Nat) (s0 : State) : Out :=
  let s := (s0.gangSlots gang).foldl State.settle s0
  match s.gang gang with
  | none => .fault .notEnabled
  | some g =>
    let ws := s.warpList.filter fun x => x.2.gang == gang
    if g.phase == .stopping && ((s.engines gang).all fun e => g.acks.contains e) && (ws.all fun x => x.2.stopped && x.2.holdable)
    then
      .next ((ws.foldl (fun a x => a.dropWarp x.1) s).modGang gang fun x => { x with
        phase := .suspended, acks := [], saved := ws, saveTime := s.time - x.stopAt })
    else .fault .notEnabled

/-! ### Resumption (R329) -/

/-- A warp stands again where it stood: what it had in flight is sent again. -/
def State.resumeWarp (s : State) (slot : Nat) (w : Warp) : State :=
  (s.setWarp slot { w with stopped := false, pend := [] }).reinject slot (w.pend.map Replay.mem)

/-- A suspended gang resumes: one that was waiting for its relaunch waits again. -/
def execResumption (gang : Nat) (s : State) : Out :=
  match s.gang gang with
  | none => .fault .notEnabled
  | some g =>
    if !s.resumable g then .fault .notEnabled
    else
      let q := ((s.work g.launch).map Work.queue).getD 0
      let s1 := s.modGang gang fun x => { x with
        phase := if g.saved.isEmpty then .waitRelaunch else .running
        saved := [], since := s.time, yieldTo := none }
      let s2 := (s1.modQueue q fun x => { x with times := (x.times ++ [g.saveTime]).drop (x.times.length - 15) })
      let s3 := { s2 with cmds := s2.cmds.map fun c => match c.owner with
        | .warp _ n => if n = gang then { c with suspended := false } else c
        | .queue _ _ => c }
      .next (g.saved.foldl (fun a x => a.resumeWarp x.1 x.2) s3)

/-! ### Time slices (R330) -/

/-- The longest save and restore of a queue's last 16 pre-emptions, in µs; 100 before the first. -/
def Queue.longest (q : Queue) : Nat := if q.times.isEmpty then 100 else (q.times.foldl max 0 + 999) / 1000

/-- The effective time slice of a queue in µs. -/
def Queue.efSlice (q : Queue) : Nat := if q.slice = 0 then 0 else max q.slice (2 * q.longest)

/-- Work of another queue of the same class that does not fit. -/
def State.waitingWork (s : State) (queue cls : Nat) : Option Work :=
  s.works.find? fun w => w.queue != queue && ((s.queue w.queue).map Queue.cls) == some cls && s.due w && !s.fits w

/-- A gang has run for its queue's slice while work of the queue's class waits for room. -/
def execTimeSliceExpiry (gang : Nat) (s : State) : Out :=
  match s.gang gang with
  | none => .fault .notEnabled
  | some g =>
    let no := ((s.work g.launch).map Work.queue).getD 0
    match s.queue no with
    | none => .fault .notEnabled
    | some q =>
      match s.waitingWork no q.cls with
      | none => .fault .notEnabled
      | some w =>
        if g.phase == .running && s.gangClass g != 0 && q.efSlice != 0 && decide (1000 * q.efSlice ≤ s.time - g.since) then
          .next (s.requestStop gang (w.id, w.next))
        else .fault .notEnabled

/-! ### The scheduler's tables (R410) -/

/-- The gangs that stand on a chase. -/
def State.onChase (s : State) (chase : Nat) : List Gang :=
  s.gangs.filter fun g => g.chase == chase && (g.phase == .running || g.phase == .stopping)

/-- An illegal state of a chase's scheduler: drained and rebuilt, its warps going on; or, with the warp tables lost, every
gang of the chase is killed. -/
def execSchedulerRebuild (chase : Nat) (fatal : Bool) (s : State) : Out :=
  if Config.formes / 4 ≤ chase then .fault .notEnabled
  else if fatal then
    .next ((s.onChase chase).foldl (fun a g => if (a.gang g.id).any fun x => x.phase == g.phase then a.killTables g else a) s)
  else
    let (x, y, s1) := s.reliabilityWords
    .next (s1.toManagement { s1.unitErrata 0xC6 0 10 0 0xFFFF 0 0 x y with forme := 4 * chase })

end Sys2Proof.Machine
end

