-- ==== Sys2Proof/Machine/Queues.lean ====
section
/-! DEFINITION. Queues, doorbells, packets and the command processor (R314 to R325). -/

namespace Sys2Proof.Machine

/-! ### Rings and doorbells (R315 to R318) -/

def Queue.size (q : Queue) : Nat := 2 ^ q.log2

/-- The address of the ring byte for a count. -/
def Queue.at (q : Queue) (count : Nat) : DWord := vaAdd q.ring (count % q.size)

/-- The gangs of the work that a queue accepted. -/
def State.queueGangs (s : State) (no : Nat) : List Gang :=
  s.gangs.filter fun g => ((s.work g.launch).map Work.queue) == some no

/-- A gang of the queue's work is suspended and none runs (R318). -/
def State.queueSuspended (s : State) (no : Nat) : Bool :=
  ((s.queueGangs no).any fun g => g.phase == .suspended) &&
    (s.queueGangs no).all fun g => g.phase != .running && g.phase != .stopping

/-- A packet that the queue accepted has not ended (R321). -/
def State.outstanding (s : State) (no : Nat) : Bool := s.works.any fun w => w.queue == no

/-- How a queue halts: the cause and the logged address. -/
abbrev Halt := Nat × DWord

/-- Bytes that the CP reads, as a number; or how the queue halts (R323, R374). -/
def State.cpRead (s : State) (ctx : Nat) (va : DWord) (n : Nat) : Except Halt Nat × State :=
  match s.readGlobal (dieUnit 0) ctx va n with
  | (.error (.cause _ _, a), s1) => (.error (0xE3, a), s1)
  | (.error (.poison, a), s1) => (.error (0xC2, a), s1)
  | (.ok l, s1) => (.ok (leNat l), s1)

/-- The header of the packet at HEAD. -/
def State.header (s : State) (q : Queue) : Except Halt Nat × State := s.cpRead q.ctx (q.at q.head) 8

/-- The packet at HEAD has SER = 1 and an earlier one has not ended. -/
def State.serHeld (s : State) (no : Nat) (q : Queue) : Bool :=
  q.head != q.tail && s.outstanding no && (match (s.header q).1 with
    | .ok h => bits h 8 1 == 1
    | .error _ => false)

/-- A queue waits at a FENCE or for its SER condition. -/
def State.queueWaits (s : State) (no : Nat) (q : Queue) : Bool :=
  (match q.parse with
    | some (.fence _ _ _ _) => true
    | _ => false) || s.serHeld no q

/-- STATE of a doorbell line. -/
def State.queueState (s : State) (no : Nat) (q : Queue) : Nat :=
  if q.faulted then 4
  else if s.queueSuspended no then 3
  else if s.queueWaits no q then 2
  else if q.head ≠ q.tail ∨ s.outstanding no then 1
  else 0

/-- The word at bytes 16 to 23 of a doorbell line. -/
def State.statusWord (s : State) (no : Nat) (q : Queue) : Nat :=
  s.queueState no q + 2 ^ 3 * (decide (q.slice < q.efSlice)).toNat + 2 ^ 8 * q.cause + 2 ^ 16 * (q.efSlice % 2 ^ 32)

/-- A doorbell line as it reads (R315): TAIL and CTL are written only. -/
def State.doorbellLine (s : State) (no : Nat) (q : Queue) : List Byte :=
  leBytes 0 16 ++ leBytes (s.statusWord no q) 8 ++ leBytes q.head 8 ++ leBytes 0 32

/-- A queue halts with a record of severity 5 (R323, R387). -/
def State.packetHalt (s : State) (no cause : Nat) (laddr w0 : DWord) : State :=
  match s.queue no with
  | none => s
  | some q =>
    let w : DWord × DWord × State := if reliability cause then s.reliabilityWords else (w0, BitVec.ofNat 64 q.head, s)
    let s1 := w.2.2.post (w.2.2.unitErrata cause 5 4 q.ctx 0xFFFF 0 laddr w.1 w.2.1)
    s1.modQueue no fun x => { x with faulted := true, cause := cause, parse := none }

/-- A write of TAIL (R316): the bounds are those of 64-bit counts that only grow. -/
def execTail (no : Nat) (v : DWord) (s : State) : Out :=
  match s.queue no with
  | none => .fault .notEnabled
  | some q =>
    let x := v.toNat
    if x % 32 = 0 ∧ q.tail ≤ x ∧ x ≤ q.head + q.size then .next (s.modQueue no fun y => { y with tail := x })
    else .next (s.packetHalt no 0xE4 q.doorbell v)

/-- A CTL write of RESUME (R317). -/
def execResume (no : Nat) (s : State) : Out :=
  match s.queue no with
  | none => .fault .notEnabled
  | some q => if q.faulted then .next (s.modQueue no fun y => { y with faulted := false }) else .next s

/-- A CTL write of RESET (R317). -/
def execReset (no : Nat) (s : State) : Out :=
  match s.queue no with
  | none => .fault .notEnabled
  | some q =>
    if q.faulted then .next (s.modQueue no fun y => { y with head := y.tail, cause := 0, faulted := false }) else .next s

/-! ### The CP's choice (R325) -/

/-- A queue has a packet that the CP can parse. -/
def State.parseable (s : State) (no : Nat) (q : Queue) : Bool :=
  !q.faulted && q.head != q.tail && q.parse.isNone && !s.queueSuspended no && !s.serHeld no q

/-- The queue that the CP serves next: the highest class, equal classes in round robin. -/
def State.nextQueue (s : State) : Option Nat :=
  let l := s.queues.filterMap fun x => x.2.bind fun q => if s.parseable x.1 q then some (x.1, q.cls) else none
  let best := l.foldl (fun m x => min m x.2) 4
  let c := (l.filter fun x => x.2 == best).map Prod.fst
  ((c.filter fun n => decide (s.cpRR.get best < n)) ++ c.filter fun n => decide (n ≤ s.cpRR.get best)).head?

/-- A packet is accepted: HEAD moves past it; a halt that waited for this takes effect (R321, R324). -/
def State.accept (s : State) (no len : Nat) : State :=
  s.modQueue no fun q =>
    let q1 := { q with head := q.head + 32 * len, parse := none, haltNext := none }
    match q.haltNext with
    | some c => { q1 with faulted := true, cause := c }
    | none => q1

/-- The length that a packet's table gives, in units of 32 bytes; SKIP has any (R320). -/
def packetLen (opc hdr8 : Nat) : Nat → Bool := fun len =>
  match opc with
  | 1 | 4 | 5 => len == 2
  | 2 => len == (16 + 16 * (hdr8 % 16) + 31) / 32
  | 3 | 6 => len == 1
  | _ => decide (1 ≤ len)

/-- A packet as the CP parses it. -/
structure Packet where
  q : Queue
  len : Nat
  tag : Nat
  x : Nat

/-- The whole packet at HEAD, checked as far as every packet is (R319, R320, R323). -/
def State.packet (s : State) (q : Queue) (hdr : Nat) : Except Halt Packet × State :=
  let opc := hdr % 256
  let len := bits hdr 16 16
  let here := q.at q.head
  let bad : Except Halt Packet := .error (0xE1, here)
  if len = 0 ∨ bits hdr 9 7 ≠ 0 ∨ q.tail < q.head + 32 * len ∨ q.size < q.head % q.size + 32 * len then (bad, s)
  else if opc = 7 then (.ok ⟨q, len, bits hdr 32 32, hdr⟩, s)
  else if 7 < len then (bad, s)
  else match s.cpRead q.ctx here (32 * len) with
    | (.error e, s1) => (.error e, s1)
    | (.ok x, s1) => (if packetLen opc (bits x 64 8) len then .ok ⟨q, len, bits hdr 32 32, x⟩ else bad, s1)

/-- What a packet's parse comes to. -/
abbrev Parsed := Except Halt State

/-- Parse the packet at HEAD of a queue, when the CP serves that queue and the packet is one of those asked for. -/
def State.onPacket (s : State) (no : Nat) (mine : Nat → Bool) (f : State → Packet → Option Parsed) : Out :=
  if s.nextQueue ≠ some no then .fault .notEnabled
  else match s.queue no with
    | none => .fault .notEnabled
    | some q =>
      let s0 := { s with cpRR := s.cpRR.set q.cls no }
      match s0.header q with
      | (.error e, s1) => .next (s1.packetHalt no e.1 e.2 (Config.unreadTag q.head))
      | (.ok hdr, s1) =>
        if !mine (hdr % 256) then .fault .notEnabled
        else
          let tag := BitVec.ofNat 64 (bits hdr 32 32)
          match s1.packet q hdr with
          | (.error e, s2) => .next (s2.packetHalt no e.1 e.2 tag)
          | (.ok p, s2) => match f s2 p with
            | none => .fault .notEnabled
            | some (.error e) => .next (s2.packetHalt no e.1 e.2 tag)
            | some (.ok s3) => .next s3

/-- The halt of a malformed packet. -/
def Packet.bad (p : Packet) : Option Parsed := some (.error (0xE1, p.q.at p.q.head))

/-- Field of a packet's bytes. -/
def Packet.byte (p : Packet) (i n : Nat) : Nat := bits p.x (8 * i) (8 * n)
def Packet.addr (p : Packet) (i : Nat) : DWord := BitVec.ofNat 64 (p.byte i 8)

/-- The scopes by their codes (R183). -/
def scopes : List Scope := [.warp, .block, .gang, .sheet, .device, .system]

/-- A check of bytes that the CP will write: an address that is not aligned fails it as one that does not translate (R242,
R322). -/
def State.cpCheck (s : State) (ctx : Nat) (va : DWord) (align : Nat) (n : Need) : Option Halt × State :=
  if va = 0 then (none, s)
  else if va.toNat % align ≠ 0 then (some (0xE3, va), s)
  else match s.translate (dieUnit 0) ctx va n with
    | (.error (.cause _ _), s1) => (some (0xE3, va), s1)
    | (.error .poison, s1) => (some (0xC2, va), s1)
    | (.ok _, s1) => (none, s1)

/-- Add to a counter as a posted atomic (R222, R322): none where its page is moving. -/
def State.cpAdd (s : State) (ctx : Nat) (va x : DWord) : Option (Added × State) :=
  match s.translate (dieUnit 0) ctx va .readWrite with
  | (.error e, s1) => some (.failed e, s1)
  | (.ok p, s1) =>
    if p.mig || s1.isMoving p.place then none
    else if s1.poisoned p.place 8 then some (.poisoned, s1)
    else some (.done, s1.writeLe p.place ((s1.readLe p.place 8 + x.toNat) % 2 ^ 64) 8)

/-! ### SKIP, unknown packets, SIGNAL, FENCE -/

def execSkip (no : Nat) (s : State) : Out :=
  s.onPacket no (fun o => o == 7) fun s1 p => some (.ok (s1.accept no p.len))

/-- An OPC outside R319 halts the queue before its fields are judged. -/
def execUnknownPacket (no : Nat) (s : State) : Out :=
  if s.nextQueue ≠ some no then .fault .notEnabled
  else match s.queue no with
    | none => .fault .notEnabled
    | some q => match s.header q with
      | (.error _, _) => .fault .notEnabled
      | (.ok h, s1) =>
        if 1 ≤ h % 256 ∧ h % 256 ≤ 7 then .fault .notEnabled
        else .next ({ s1 with cpRR := s1.cpRR.set q.cls no }.packetHalt no 0xE2 (q.at q.head) (BitVec.ofNat 64 (bits h 32 32)))

def execPacketSignal (no : Nat) (s : State) : Out :=
  s.onPacket no (fun o => o == 3) fun s1 p =>
    let va := p.addr 8
    if 6 ≤ p.byte 24 1 ∨ p.byte 25 7 ≠ 0 then p.bad
    else if va.toNat % 8 ≠ 0 then some (.error (0xE3, va))
    else match s1.cpAdd p.q.ctx va (p.addr 16) with
      | none => none
      | some (.done, s2) => some (.ok (s2.accept no p.len))
      | some (.failed (.cause _ _), _) => some (.error (0xE3, va))
      | some (.failed .poison, _) | some (.poisoned, _) => some (.error (0xC2, va))

/-- The counters of a FENCE packet with their thresholds. -/
def Packet.counters (p : Packet) : List (DWord × DWord) :=
  (List.range (p.byte 8 1 % 16)).map fun i => (p.addr (16 + 16 * i), p.addr (24 + 16 * i))

def execPacketFence (no : Nat) (s : State) : Out :=
  s.onPacket no (fun o => o == 2) fun s1 p =>
    let n := p.byte 8 1
    if n = 0 ∨ 12 < n ∨ 6 ≤ p.byte 9 1 ∨ p.byte 10 6 ≠ 0 ∨ p.byte (16 + 16 * n) (32 * p.len - (16 + 16 * n)) ≠ 0 ∨
        p.counters.any (fun c => c.1.toNat % 8 != 0) then p.bad
    else some (.ok (s1.modQueue no fun q => { q with parse := some (.fence (p.byte 9 1) p.len p.tag p.counters) }))

/-- Read the counters of a waiting FENCE: those not at their thresholds, or how the queue halts. -/
def State.pollFence (s : State) (ctx : Nat) : List (DWord × DWord) → Except Halt (List (DWord × DWord)) × State
  | [] => (.ok [], s)
  | c :: t =>
    match s.cpRead ctx c.1 8 with
    | (.error e, s1) => (.error e, s1)
    | (.ok v, s1) => match s1.pollFence ctx t with
      | (.error e, s2) => (.error e, s2)
      | (.ok l, s2) => (.ok (if c.2.toNat ≤ v then l else c :: l), s2)

/-- A waiting FENCE: counters reach their thresholds, one after another, and with the last the packet is accepted. -/
def execFenceThresholdMet (no : Nat) (s : State) : Out :=
  match s.queue no with
  | none => .fault .notEnabled
  | some q => match q.parse with
    | some (.fence scope len tag left) =>
      if s.queueSuspended no then .fault .notEnabled
      else match s.pollFence q.ctx left with
        | (.error e, s1) => .next (s1.packetHalt no e.1 e.2 (BitVec.ofNat 64 tag))
        | (.ok [], s1) => .next (s1.accept no len)
        | (.ok l, s1) =>
          if l = left then .fault .notEnabled
          else .next (s1.modQueue no fun x => { x with parse := some (.fence scope len tag l) })
    | _ => .fault .notEnabled

/-! ### LAUNCH (R267, R269, R321) -/

/-- The fields of a launch record from its 192 bytes. -/
def LaunchRec.ofNat (x : Nat) : LaunchRec :=
  let f (i n : Nat) : Nat := bits x (8 * i) (8 * n)
  { rcb := BitVec.ofNat 64 (f 0 8), entry := BitVec.ofNat 64 (f 8 8), gx := f 16 4, gy := f 20 4, gz := f 24 4, bpg := f 28 1
    wpb := f 29 1, tg := f 30 1, relaunch := f 31 1 == 1, vgrant := f 32 2, scratch := f 36 4, priv := f 40 4
    privBase := BitVec.ofNat 64 (f 48 8)
    windows := (List.range 8).map fun n => (BitVec.ofNat 64 (f (64 + 12 * n) 8), f (72 + 12 * n) 4) }

/-- A launch record's own checks. -/
def LaunchRec.ok (x : Nat) : Bool :=
  let l := LaunchRec.ofNat x
  let f (i n : Nat) : Nat := bits x (8 * i) (8 * n)
  canonical l.entry && l.entry.toNat % 32 == 0 && ([l.gx, l.gy, l.gz].all fun n => decide (1 ≤ n ∧ n ≤ 2 ^ 31)) &&
    decide (l.total ≤ 2 ^ 48) && decide (1 ≤ l.bpg ∧ l.bpg ≤ 4 ∧ 1 ≤ l.wpb ∧ l.wpb ≤ 16 ∧ l.tg ≤ 8 ∧ f 31 1 ≤ 1) &&
    decide (8 ≤ l.vgrant ∧ l.vgrant ≤ 256 ∧ l.vgrant % 8 = 0 ∧ l.scratch ≤ 524288 ∧ l.priv ≤ 2 ^ 24 ∧ l.priv % 16 = 0) &&
    f 34 2 == 0 && f 44 4 == 0 && f 56 8 == 0 && f 160 32 == 0 && l.privBase.toNat % 128 == 0 &&
    (l.priv != 0 || l.privBase == 0) && l.windows.all fun w => w.1.toNat % 4 == 0 && decide (w.2 ≤ 524288)

/-- A fresh piece of work of a packet. -/
def Packet.work (p : Packet) (no id rcb since : Nat) (l : Option LaunchRec) (done dval : DWord) : Work :=
  { id := id, queue := no, ctx := p.q.ctx, tag := p.tag, done := done, dval := dval, launch := l, rcbId := rcb, next := 0
    finished := 0, since := since }

/-- The CP reads and checks a launch record and hands it to the Compositor. -/
def execLaunch (no : Nat) (s : State) : Out :=
  s.onPacket no (fun o => o == 1) fun s1 p =>
    let va := p.addr 8
    let done := p.addr 16
    if va.toNat % 64 ≠ 0 ∨ p.byte 32 32 ≠ 0 then p.bad
    else match s1.cpRead p.q.ctx va 192 with
      | (.error e, _) => some (.error e)
      | (.ok x, s2) =>
        if !LaunchRec.ok x then p.bad
        else match s2.rcbAt p.q.ctx (LaunchRec.ofNat x).rcb with
          | none => p.bad
          | some r => match s2.cpCheck p.q.ctx done 8 .readWrite with
            | (some e, _) => some (.error e)
            | (none, s3) =>
              let (id, s4) := s3.fresh
              let w := p.work no id r.id s1.past.length (some (LaunchRec.ofNat x)) done (p.addr 24)
              some (.ok ({ s4 with works := s4.works ++ [w] }.accept no p.len))

/-! ### COPY, COLLECTIVE (R320, R321) -/

/-- A command of a packet with nothing in it yet. -/
def State.packetCmd (s : State) (p : Packet) (no id work rcb feeder : Nat) (scope : Scope) (cr : DWord) : Cmd :=
  { id := id, owner := .queue no work, feeder := feeder, cls := s.classOf rcb, ctx := p.q.ctx, gang := 0, block := 0
    forme := Config.formes, rcb := rcb, kind := .copy, src := default, dst := default, tie := none, tieVa := 0, scope := scope
    tok := none, cr := if cr = 0 then none else some cr, bytes := 0, imp := none, pc := 0, gseq := 0, lanes := 0
    suspended := false, killed := false, tiedErr := false, sigged := false, owed := none }

/-- The checks of the completion record and DONE, and then the work with its command. -/
def State.startCmd (s : State) (p : Packet) (no rcb feeder : Nat) (scope : Scope) (cr done dval : DWord)
    (fill : Cmd → Cmd) : Option Parsed :=
  match s.cpCheck p.q.ctx cr 16 .write with
  | (some e, _) => some (.error e)
  | (none, s1) => match s1.cpCheck p.q.ctx done 8 .readWrite with
    | (some e, _) => some (.error e)
    | (none, s2) =>
      let (work, s3) := s2.fresh
      let (id, s4) := s3.fresh
      let c := fill (s4.packetCmd p no id work rcb feeder scope cr)
      some (.ok ({ s4 with works := s4.works ++ [p.work no work rcb s4.past.length none done dval], cmds := s4.cmds ++ [c] }.accept no p.len))

/-- Read a layout record of a packet. -/
def State.packetRecord (s : State) (p : Packet) (va : DWord) : Except Halt LRec × State :=
  match s.cpRead p.q.ctx va 32 with
  | (.error e, s1) => (.error e, s1)
  | (.ok x, s1) => (if LRec.ok x then .ok (LRec.ofNat x) else .error (0xE1, p.q.at p.q.head), s1)

/-- The Feeder of a COPY: the one named, or, for 0xFF, any that R263 allows, by the device's choice. -/
def State.copyFeeder (s : State) (rcb f : Nat) : Option Nat × State :=
  let l := s.allowedFeeders rcb
  if f = 0xFF then
    let (k, s1) := s.pick l.length
    (l[k]?, s1)
  else (if l.contains f then some f else none, s)

def execPacketCopy (no : Nat) (s : State) : Out :=
  s.onPacket no (fun o => o == 4) fun s1 p =>
    let d := p.addr 16
    let a := p.addr 24
    let cr := p.addr 32
    let done := p.addr 40
    let rop := p.byte 56 1
    match s1.rcbAt p.q.ctx (p.addr 8), scopes[p.byte 57 1]? with
    | some r, some scope =>
      if d.toNat % 32 ≠ 0 ∨ a.toNat % 32 ≠ 0 ∨ cr.toNat % 16 ≠ 0 ∨ 7 ≤ rop ∨ p.byte 59 5 ≠ 0 then p.bad
      else match s1.copyFeeder r.id (p.byte 58 1) with
        | (none, _) => p.bad
        | (some f, s2) => match s2.packetRecord p d with
          | (.error e, _) => some (.error e)
          | (.ok dr, s3) => match s3.packetRecord p a with
            | (.error e, _) => some (.error e)
            | (.ok ar, s4) =>
              let kind : CmdKind := if rop = 0 then .copy else .red rop
              if !copyOk kind dr ar then p.bad
              else s4.startCmd p no r.id f scope cr done (p.addr 48) fun c => { c with kind := kind, dst := dr, src := ar }
    | _, _ => p.bad

def execCollective (no : Nat) (s : State) : Out :=
  s.onPacket no (fun o => o == 5) fun s1 p =>
    let d := p.addr 16
    let cr := p.addr 32
    let done := p.addr 40
    match s1.rcbAt p.q.ctx (p.addr 8), scopes[p.byte 56 1]? with
    | some r, some scope =>
      if d.toNat % 64 ≠ 0 ∨ p.byte 24 8 ≠ 0 ∨ cr.toNat % 16 ≠ 0 ∨ p.byte 57 7 ≠ 0 then p.bad
      else match s1.cpRead p.q.ctx d 128 with
        | (.error e, _) => some (.error e)
        | (.ok x, s2) =>
          if !s2.descOk r.id x then p.bad
          else s2.startCmd p no r.id (Desc.ofNat x).feeder scope cr done (p.addr 48) fun c =>
            { c with kind := .imp, imp := some (.start (Desc.ofNat x)) }
    | _, _ => p.bad

/-! ### RCB packets (R261, R263, R323) -/

/-- The fields of an RCB from its 128 bytes: those that the node does not set are not read. -/
def Rcb.ofNat (id ctx : Nat) (addr : DWord) (x : Nat) : Rcb :=
  let f (i n : Nat) : Nat := bits x (8 * i) (8 * n)
  let ovr := bits x 64 10
  let set (i v : Nat) : Nat := if bits ovr i 1 = 1 then v else 0
  { id := id, ctx := ctx, addr := addr, parent := BitVec.ofNat 64 (f 0 8), ovr := ovr, index := f 12 2, newdom := bits x 112 1 == 1
    cls := set 5 (bits x 120 2), checked := set 7 (bits x 122 1) == 1, rsv := set 9 (bits x 123 1) == 1, formes := set 0 (f 16 2)
    warps := set 1 (f 20 4), tiles := set 2 (f 24 4), banks := set 3 (f 28 4), feeders := set 4 (f 32 2)
    retry := set 8 (bits x 272 4), wdog := set 6 (f 40 8), timer := 0, spent := false }

/-- An RCB's own checks, and CHECKED only with its feature (R356). -/
def Rcb.ok (x : Nat) (checkedOk : Bool) : Bool :=
  let r := Rcb.ofNat 0 0 0 x
  let sets (i : Nat) : Bool := bits r.ovr i 1 == 1
  r.parent.toNat % 128 == 0 && (r.parent != 0 || r.ovr == 0x3FF) && bits x 74 22 == 0 && bits x 113 7 == 0 && bits x 124 4 == 0 &&
    bits x 144 16 == 0 && bits x 276 44 == 0 && bits x 384 640 == 0 &&
    (!sets 0 || decide (1 ≤ r.formes ∧ r.formes ≤ 512)) && (!sets 1 || decide (1 ≤ r.warps ∧ r.warps ≤ 32768)) &&
    decide (r.tiles ≤ 16384 ∧ r.banks ≤ 16384 ∧ r.wdog < 2 ^ 40) && (!r.checked || checkedOk)

/-- Every sheet keeps a Feeder that no RCB reserves. -/
def State.feedersLeft (s : State) (r : Rcb) : Bool :=
  let held := (s.reservedFeeders ++ (List.range 16).filter fun f => bits r.ovr 4 1 == 1 && bits r.feeders f 1 == 1)
  (List.range 4).all fun t => (List.range 4).any fun k => !held.contains (4 * t + k)

/-- An RCB that a packet may register. -/
def State.mayRegister (s : State) (r : Rcb) : Bool :=
  (r.parent == 0 || (s.rcbAt r.ctx r.parent).isSome) && (s.rcbAt r.ctx r.addr).isNone && decide (s.rcbs.length < Config.maxRcbs) &&
    (s.rcbs.all fun y => y.ctx != r.ctx || y.index != r.index) && s.feedersLeft r

/-- The form of an RCB packet. -/
def Packet.rcbOk (p : Packet) : Bool := p.byte 8 8 % 128 == 0 && decide (p.byte 16 1 ≤ 1) && p.byte 17 15 == 0

def execRcbRegister (no : Nat) (s : State) : Out :=
  s.onPacket no (fun o => o == 6) fun s1 p =>
    if p.byte 16 1 % 2 = 1 then none
    else if !p.rcbOk then p.bad
    else match s1.cpRead p.q.ctx (p.addr 8) 128 with
      | (.error e, _) => some (.error e)
      | (.ok x, s2) =>
        let (id, s3) := s2.fresh
        let r := Rcb.ofNat id p.q.ctx (p.addr 8) x
        if !Rcb.ok x (s2.feature 6) || !s2.mayRegister r then p.bad
        else some (.ok ({ s3 with rcbs := s3.rcbs ++ [r] }.accept no p.len))

/-- A gang of the RCB's subtree is resident or pending. -/
def State.rcbBusy (s : State) (rcb : Nat) : Bool :=
  s.works.any fun w => w.launch.isSome && s.under w.rcbId rcb && (w.unplaced || s.gangs.any fun g => g.launch == w.id)

/-- A registered RCB has registered children. -/
def State.hasChildren (s : State) (r : Rcb) : Bool := s.rcbs.any fun y => y.ctx == r.ctx && y.parent == r.addr && y.parent != 0

/-- The RCB is unregistered and its packet accepted; or the packet waits. -/
def State.unregister (s : State) (no rcb : Nat) : State :=
  if s.rcbBusy rcb then s.modQueue no fun q => { q with parse := some (.unregister rcb) }
  else { s with rcbs := s.rcbs.filter fun y => y.id != rcb }.accept no 1

/-- An RCB packet unregisters; while its subtree has a gang it stays in parse. -/
def execRcbUnregister (no : Nat) (s : State) : Out :=
  match (s.queue no).bind Queue.parse with
  | some (.unregister rcb) =>
    if s.rcbBusy rcb || s.queueSuspended no then .fault .notEnabled else .next (s.unregister no rcb)
  | _ =>
    s.onPacket no (fun o => o == 6) fun s1 p =>
      if p.byte 16 1 % 2 = 0 then none
      else if !p.rcbOk then p.bad
      else match s1.rcbAt p.q.ctx (p.addr 8) with
        | none => p.bad
        | some r => if s1.hasChildren r then p.bad else some (.ok (s1.unregister no r.id))

/-! ### Completion (R321, R322) -/

/-- The work of a packet has completed. -/
def State.complete (s : State) (w : Work) : Bool :=
  match w.launch with
  | some l => w.next == l.total && w.finished == l.total && s.gangs.all fun g => g.launch != w.id
  | none => w.finished == 1

/-- The addition to DONE failed: a record and the halt of the queue. -/
def State.doneFailed (s : State) (w : Work) (cause : Nat) (w0 w1 : DWord) : State :=
  (s.post (s.unitErrata cause 5 4 w.ctx (s.rcbIndexOf w.rcbId) 0 w.done w0 w1)).haltQueue w.queue
    (if reliability cause then cause else 0xE3)

/-- Work completes: DVAL is added to DONE. -/
def execWorkCompletionDone (id : Nat) (s : State) : Out :=
  match s.work id with
  | none => .fault .notEnabled
  | some w =>
    if !s.complete w then .fault .notEnabled
    else
      let s1 := { s with works := s.works.filter fun x => x.id != id }
      if w.done = 0 then .next s1
      else match s1.cpAdd w.ctx w.done w.dval with
        | none => .fault .notEnabled
        | some (.done, s2) => .next s2
        | some (.failed (.cause k e), s2) => .next (s2.doneFailed w k 2 (BitVec.ofNat 64 e))
        | some (.failed .poison, s2) | some (.poisoned, s2) =>
          let (x, y, s3) := s2.reliabilityWords
          .next (s3.doneFailed w 0xC2 x y)

end Sys2Proof.Machine
end

