-- ==== Sys2Proof/Machine/Manage.lean ====
section
/-! DEFINITION. Boot and firmware, the management operations, feature negotiation, attestation, RDMA, power and clocks, and
uncorrectable errors (R333, R334, R336, R354 to R356, R373, R411, R425 to R431). -/

namespace Sys2Proof.Machine

/-! ### Replies (R431) -/

/-- Answer a management message: its operation, then status 0 done, 1 refused, 2 malformed, 3 exhausted. -/
def State.answer (s : State) (port op status : Nat) : State :=
  { s with replies := s.replies ++ [.mgmt port (leBytes op 1 ++ leBytes status 1)] }

/-- A management operation: refused in recovery mode unless it is one of those marked; nothing answers before boot. -/
def State.manage (s : State) (port op : Nat) (recovery : Bool) (f : Unit → State) : Out :=
  if Config.ports ≤ port then .fault .notEnabled
  else match s.phase with
    | .off => .fault .notEnabled
    | .recovery => .next (if recovery then f () else s.answer port op 1)
    | .running => .next (f ())

/-- A set has been locked (R354). -/
def State.locked (s : State) : Bool := s.featLock == 1

/-- Some context is resident. -/
def State.anyContext (s : State) : Bool := s.ctxs.any fun x => x.2.res

/-! ### Boot (R427, R428) -/

/-- A slot that the boot ROM may start: its signature verifies and its version is not below the fuses. -/
def State.eligible (s : State) (f : FwSlot) : Bool := f.present && decide (s.fuses ≤ f.version.toNat) && f.verifies

/-- The slot that the boot ROM starts: the eligible one with the higher version. -/
def State.bootSlot (s : State) : Option Nat :=
  let a := s.slots.getD 0 ⟨false, 0, none⟩
  let b := s.slots.getD 1 ⟨false, 0, none⟩
  match s.eligible a, s.eligible b with
  | true, true => some (if a.version < b.version then 1 else 0)
  | true, false => some 0
  | false, true => some 1
  | false, false => none

/-- Where the firmware of a version puts the save regions: whole 64 KiB frames within each sheet's HBM4. -/
def saveRegions (version : DWord) : List Nat :=
  (List.range Config.sheets).map fun i =>
    2 ^ 16 * (Config.saveFrame version i % ((Config.sheetBytes - Config.saveBytes) / 2 ^ 16 + 1))

/-- The end of boot: the save regions are set aside, and the back-off limits set (R332, R427). The offer words stand. -/
def State.startFirmware (s : State) (k : Nat) : State :=
  let v := (s.slots.getD k ⟨false, 0, none⟩).version
  let b := (Config.backoff v).getD (s.backoffMin, s.backoffMax)
  { s with phase := .running, runSlot := k, saves := saveRegions v, backoffMin := b.1, backoffMax := b.2 }

/-- The boot ROM starts a slot, or the device enters recovery mode. -/
def execBoot (s : State) : Out :=
  if s.phase != .off then .fault .notEnabled
  else match s.bootSlot with
    | some k => .next (s.startFirmware k)
    | none => .next { s with phase := .recovery }

/-! ### Feature negotiation (R354, R355) -/

def execReadOfferWords (port : Nat) (s : State) : Out :=
  s.manage port 1 true fun _ =>
    { s.answer port 1 0 with replies := (s.answer port 1 0).replies ++ [.words port
      [BitVec.ofNat 64 Config.featureOffer, 0, 0, 0, BitVec.ofNat 64 Config.deviceClass, BitVec.ofNat 64 s.featLock]] }

/-- A write of a FEATURE_ACCEPT word: ignored once the set is locked. -/
def execFeatureAccept (port word : Nat) (value : DWord) (s : State) : Out :=
  s.manage port 2 false fun _ =>
    if 4 ≤ word then s.answer port 2 2
    else if s.locked then s.answer port 2 1
    else { s.answer port 2 0 with featAccept := s.featAccept.set word value }

/-- What a write of FEATURE_LOCK finds: 1 locked, or why not, in the order of the table. -/
def State.lockCode (s : State) : Nat :=
  let bit (i : Nat) : Bool := bits (s.featAccept.getD 0 0).toNat i 1 == 1
  if (s.featAccept.getD 0 0).toNat / 2 ^ 12 ≠ 0 ∨ (s.featAccept.drop 1).any (fun x => x != 0) then 2
  else if !bit 0 then 3
  else if bit 6 && !bit 5 then 4
  else 1

def execFeatureLock (port : Nat) (value : DWord) (s : State) : Out :=
  s.manage port 2 false fun _ =>
    if s.locked then s.answer port 2 1
    else if value != 1 then s.answer port 2 2
    else { s.answer port 2 (if s.lockCode = 1 then 0 else 1) with featLock := s.lockCode }

/-! ### Contexts, queues, queue pairs (R314, R333, R334) -/

/-- The fields of a context keep their ranges: ROOT is aligned to 32 within 38 bits. -/
def CtxArgsOk (a : CtxArgs) : Bool := decide (a.ctx < Config.contexts) && a.root.toNat % 32 == 0 && decide (a.root.toNat < 2 ^ 38)

def execCreateContext (port : Nat) (a : CtxArgs) (s : State) : Out :=
  s.manage port 3 false fun _ =>
    if !CtxArgsOk a then s.answer port 3 2
    else if !s.locked || (s.context a.ctx).res then s.answer port 3 1
    else { s.answer port 3 0 with
      ctxs := s.ctxs.set a.ctx { res := true, sys := a.sys, root := a.root, rhome := a.rhome.val, errq := a.errq, lost := false } }

/-- A queue or an RCB of a context remains. -/
def State.contextUsed (s : State) (c : Nat) : Bool :=
  (s.queues.any fun x => x.2.any fun q => q.ctx == c) || s.rcbs.any fun x => x.ctx == c

/-- A context is removed, with the translations held for it and the bindings to it. -/
def execRemoveContext (port ctx : Nat) (s : State) : Out :=
  s.manage port 4 false fun _ =>
    if !(s.context ctx).res || s.contextUsed ctx then s.answer port 4 1
    else { s.answer port 4 0 with
      ctxs := s.ctxs.set ctx default
      tlb := s.tlb.filter fun e => e.ctx != ctx
      mgmtErr := s.mgmtErr ++ (s.lateErrata.filter fun x => x.1 == ctx).map Prod.snd
      lateErrata := s.lateErrata.filter fun x => x.1 != ctx
      qps := s.qps.filter fun x => (x.2.map Qp.ctx) != some ctx }

/-- A queue from its control block; none when a field breaks its range. -/
def queueOf (no : Nat) (qcb : List Byte) : Option Queue :=
  let x := leNat qcb
  let log2 := bits x 64 5
  if qcb.length = 64 && bits x 0 64 % 4096 == 0 && decide (12 ≤ log2 ∧ log2 ≤ 24) && bits x 69 3 == 0 && bits x 78 2 == 0 &&
      bits x 82 14 == 0 && bits x 192 320 == 0 then
    some { ring := BitVec.ofNat 64 (bits x 0 64), log2 := log2, ctx := bits x 72 6, cls := bits x 80 2, slice := bits x 96 32
           doorbell := Config.doorbellAddress no, head := 0, tail := 0, faulted := false, cause := 0, parse := none
           haltNext := none, times := [] }
  else none

def execRegisterQueue (port : Nat) (a : QueueArgs) (s : State) : Out :=
  s.manage port 5 false fun _ =>
    if !s.locked then s.answer port 5 1
    else match a with
      | .register no qcb =>
        (match queueOf no qcb with
        | none => s.answer port 5 1
        | some q =>
          if (s.queue no).isSome || !(s.context q.ctx).res then s.answer port 5 1
          else { s.answer port 5 0 with
            queues := s.queues.set no (some q), replies := (s.answer port 5 0).replies ++ [.words port [q.doorbell]] })
      | .remove no =>
        if (s.queue no).isNone then s.answer port 5 1 else { s.answer port 5 0 with queues := s.queues.set no none }

/-- Queue pair 1 of a port is the management queue and is bound to no context. -/
def execBindQueuePair (port qpPort qp ctx : Nat) (s : State) : Out :=
  s.manage port 6 false fun _ =>
    if Config.ports ≤ qpPort ∨ Config.qpsPerPort ≤ qp ∨ qp = 1 then s.answer port 6 2
    else if !(s.context ctx).res then s.answer port 6 1
    else { s.answer port 6 0 with qps := s.qps.set (qpKey qpPort qp) (some ⟨ctx, false⟩) }

/-! ### Attestation and firmware (R428 to R430) -/

/-- The 40 bytes FWHASH and FWVER. -/
def State.runningFirmware (s : State) : List Byte :=
  match s.phase, s.slots[s.runSlot]? with
  | .running, some f => f.hash ++ leBytes f.version.toNat 8
  | _, _ => (List.range 40).map Config.noFirmware

/-- The body of a quote. -/
def State.quoteBody (s : State) (nonce : List Byte) : List Byte :=
  nonce ++ s.runningFirmware ++ leBytes Config.devId.toNat 8 ++
    (if s.locked then s.featAccept.flatMap fun x => leBytes x.toNat 8 else leBytes 0 32) ++
    leBytes Config.deviceClass 2 ++ leBytes 0 2 ++ leBytes s.leaf 4 ++ leBytes (Config.lmsLeaves - s.leaf - 1) 4 ++ leBytes 0 4

/-- A quote: the advanced leaf is in flash before its reply is given. -/
def execAttestationQuote (port : Nat) (nonce : List Byte) (s : State) : Out :=
  s.manage port 7 true fun _ =>
    if nonce.length ≠ 32 then s.answer port 7 2
    else if Config.lmsLeaves ≤ s.leaf then s.answer port 7 3
    else
      let body := s.quoteBody nonce
      { s.answer port 7 0 with
        leaf := s.leaf + 1, replies := (s.answer port 7 0).replies ++ [.quote port body (attest s.leaf body)] }

/-- An image and its signature are written to a slot, under the version that they are given (log 53). -/
def execWriteFirmwareSlot (port slot : Nat) (version : DWord) (image signature : List Byte) (s : State) : Out :=
  s.manage port 8 true fun _ =>
    if 2 ≤ slot then s.answer port 8 2
    else if s.anyContext || decide (version.toNat < s.fuses) then s.answer port 8 1
    else { s.answer port 8 0 with slots := s.slots.set slot ⟨true, version, some (image, signature)⟩ }

/-- The records held for management are handed over. -/
def execReadManagementErrata (port : Nat) (s : State) : Out :=
  s.manage port 9 true fun _ =>
    { s.answer port 9 0 with mgmtErr := [], replies := (s.answer port 9 0).replies ++ [.records port s.mgmtErr] }

/-- The anti-rollback counter advances to the running slot's version, 64 at most. -/
def execCommitFirmwareVersion (port : Nat) (s : State) : Out :=
  s.manage port 10 false fun _ =>
    if s.anyContext then s.answer port 10 1
    else { s.answer port 10 0 with
      fuses := max s.fuses (min 64 (((s.slots[s.runSlot]?).map fun f => f.version.toNat).getD 0)) }

/-- A management message keeps its layout: 64 bytes, a known operation, bytes 1 to 7 zero (R431). -/
def mgmtMessageOk (m : List Byte) : Bool :=
  m.length == 64 && decide (1 ≤ (m.headD 0).toNat ∧ (m.headD 0).toNat ≤ 10) && ((m.drop 1).take 7).all fun b => b == 0

/-- A message that breaks the layout is answered with status 2. -/
def execMalformedManagementMessage (port : Nat) (message : List Byte) (s : State) : Out :=
  if mgmtMessageOk message then .fault .notEnabled
  else s.manage port (message.headD 0).toNat true fun _ => s.answer port (message.headD 0).toNat 2

/-! ### RDMA (R336, R344, R374) -/

/-- The base die's TLB for a port: that of the port's sheet (R5, R342, R431). -/
def portUnit (port : Nat) : Nat := dieUnit (2 * (port / 2))

/-- The bytes of an access, page by page: the address and the length on each; at most n pages. -/
def pageParts : Nat → DWord → Nat → List (DWord × Nat)
  | 0, _, _ => []
  | n + 1, va, len =>
    if len = 0 then [] else (va, firstPart va len) :: pageParts n (vaAdd va (firstPart va len)) (len - firstPart va len)

/-- Translate every page of an access. -/
def State.rdmaPages (s : State) (u ctx : Nat) (n : Need) : List (DWord × Nat) → Except (NoTrans × DWord) (List (Phys × Nat)) × State
  | [] => (.ok [], s)
  | x :: t =>
    match s.translate u ctx x.1 n with
    | (.error e, s1) => (.error (e, x.1), s1)
    | (.ok p, s1) => match s1.rdmaPages u ctx n t with
      | (.error e, s2) => (.error e, s2)
      | (.ok l, s2) => (.ok ((p, x.2) :: l), s2)

/-- A remote access NAK: the queue pair enters its error state. -/
def State.nak (s : State) (port qp : Nat) : State :=
  { s with qps := s.qps.modify (qpKey port qp) fun x => x.map (fun (y : Qp) => { y with error := true })
           replies := s.replies ++ [.nak port qp] }

/-- An RDMA access that fails translation or meets poison (R336, R374). -/
def State.rdmaFailed (s : State) (port qp ctx kind : Nat) (e : NoTrans × DWord) : State :=
  match e.1 with
  | .cause c x =>
    (s.post (s.unitErrata c 0 9 ctx 0xFFFF port e.2 (BitVec.ofNat 64 kind) (BitVec.ofNat 64 x))).nak port qp
  | .poison =>
    let (x, y, s1) := s.reliabilityWords
    (s1.post (s1.unitErrata 0xC2 0 9 ctx 0xFFFF port e.2 x y)).nak port qp

/-- The queue whose doorbell line holds an address, and the offset in it. -/
def State.doorbellAt (s : State) (va : DWord) : Option (Nat × Queue × Nat) :=
  s.queues.findSome? fun x => x.2.bind fun q =>
    if q.doorbell.toNat ≤ va.toNat ∧ va.toNat < q.doorbell.toNat + 64 then some (x.1, q, va.toNat - q.doorbell.toNat) else none

/-- Field i of a doorbell line is written whole by some bytes at an offset. -/
def fieldOf (data : List Byte) (off i : Nat) : Option Nat :=
  if off ≤ 8 * i ∧ 8 * i + 8 ≤ off + data.length then some (leNat ((data.drop (8 * i - off)).take 8)) else none

/-- A write into a doorbell line (R315 to R317): TAIL, then CTL. -/
def State.ringDoorbell (s : State) (no off : Nat) (data : List Byte) : State :=
  let out (o : Out) (s : State) : State := match o with
    | .next t => t
    | _ => s
  let s1 := match fieldOf data off 0 with
    | some x => out (execTail no (BitVec.ofNat 64 x) s) s
    | none => s
  match (fieldOf data off 1).map fun x => x % 4 with
  | some 1 => out (execResume no s1) s1
  | some 2 => out (execReset no s1) s1
  | _ => s1

/-- An RDMA WRITE is performed: none where a page is moving. -/
def State.rdmaPut (s : State) (port qp ctx : Nat) (va : DWord) (data : List Byte) : Option State :=
  match s.rdmaPages (portUnit port) ctx .write (pageParts (2 * (data.length / 2 ^ 16) + 3) va data.length) with
  | (.error e, s1) => some (s1.rdmaFailed port qp ctx kindStore e)
  | (.ok l, s1) =>
    if l.any fun x => x.1.mig || s1.isMoving x.1.place then none
    else some (l.foldl (fun (a : List Byte × State) x => (a.1.drop x.2, a.2.writeBytes x.1.place (a.1.take x.2))) (data, s1)).2

/-- An RDMA READ is answered. -/
def State.rdmaGet (s : State) (port qp ctx : Nat) (va : DWord) (len : Nat) : State :=
  match s.rdmaPages (portUnit port) ctx .read (pageParts (2 * (len / 2 ^ 16) + 3) va len) with
  | (.error e, s1) => s1.rdmaFailed port qp ctx kindLoad e
  | (.ok l, s1) =>
    if l.any fun x => s1.poisoned x.1.place x.2 then s1.rdmaFailed port qp ctx kindLoad (.poison, va)
    else { s1 with replies := s1.replies ++ [.data port qp (l.flatMap fun x => s1.bytes x.1.place x.2)] }

/-- Perform an RDMA operation of a bound queue pair: none where a page is moving. -/
def State.rdmaRun (s : State) (port qp ctx : Nat) : Instr → Option State
  | .rdmaWrite _ _ va data => match s.doorbellAt va with
    | some (no, _, off) => some (s.ringDoorbell no off data)
    | none => s.rdmaPut port qp ctx va data
  | .rdmaRead _ _ va len => match s.doorbellAt va with
    | some (no, q, off) =>
      some { s with replies := s.replies ++ [.data port qp (((s.doorbellLine no q).drop off).take len)] }
    | none => some (s.rdmaGet port qp ctx va len)
  | _ => none

/-- An RDMA operation arrives: operations of one queue pair are performed in order, and one that meets a moving page is held
with those behind it until its page has moved (R316, R344). A pair that is bound to no context, or in its error state,
answers with a NAK. -/
def State.rdma (s : State) (port qp : Nat) (i : Instr) : Out :=
  if s.phase != .running || decide (Config.ports ≤ port ∨ Config.qpsPerPort ≤ qp) then .fault .notEnabled
  else match s.qps.get (qpKey port qp) with
    | none => .next (s.nak port qp)
    | some ⟨ctx, bad⟩ =>
      if bad then .next { s.nak port qp with rdmaHeld := s.rdmaHeld.filter fun x => rdmaKey x != some (qpKey port qp) }
      else match s.rdmaHeld.find? fun x => rdmaKey x == some (qpKey port qp) with
        | none => (match s.rdmaRun port qp ctx i with
          | some s1 => .next s1
          | none => .next { s with rdmaHeld := s.rdmaHeld ++ [i] })
        | some h =>
          if h = i then
            (match { s with rdmaHeld := s.rdmaHeld.erase h }.rdmaRun port qp ctx i with
            | some s1 => .next s1
            | none => .fault .notEnabled)
          else .next { s with rdmaHeld := s.rdmaHeld ++ [i] }

def execRdmaWrite (port : Nat) (src : Sender) (va : DWord) (data : List Byte) (s : State) : Out :=
  (s.notify port src).rdma port src.peer (.rdmaWrite port { src with ecn := false } va data)

def execRdmaRead (port : Nat) (src : Sender) (va : DWord) (len : Nat) (s : State) : Out :=
  (s.notify port src).rdma port src.peer (.rdmaRead port { src with ecn := false } va len)

/-! ### Power and clocks (R426, R430) -/

/-- The arithmetic clock moves by 50 MHz between 1.0 and 1.5 GHz. -/
def execClockThrottle (up : Bool) (s : State) : Out :=
  .next { s with freq := if up then min 1500 (s.freq + 50) else max 1000 (s.freq - 50) }

/-- A device-fatal record; the device halts every context. -/
def State.fatal (s : State) (unit index : Nat) : State :=
  { s.post (s.unitErrata 0xEF 4 unit 0 0xFFFF index 0 0 0) with halted := true }

/-- A die stays at its trip temperature at 1.0 GHz. -/
def execThermalTripFatal (s : State) : Out := if s.freq = 1000 then .next (s.fatal 12 0) else .fault .notEnabled

/-- Power is lost: what flash and fuses hold survives. The leaf of a quote that was being made may be skipped (R430). -/
def execPowerLoss (s0 : State) : Out :=
  let (k, s) := s0.pick 2
  .next { State.reset with
    fuses := s.fuses, slots := s.slots, leaf := if k = 1 then min (s.leaf + 1) Config.lmsLeaves else s.leaf
    agenda := s.agenda, env := s.env, elapse := s.elapse, opSeq := s.opSeq, recNo := s.recNo }

/-- A congestion notification: the port sends more slowly, which is timing. -/
def execCnpReceived (port : Nat) (s : State) : Out :=
  if Config.ports ≤ port then .fault .notEnabled else .next { s with cnp := s.cnp.modify port fun n => n + 1 }

/-! ### Uncorrectable errors (R373, R411) -/

/-- Add an item to a list of unreadable things. -/
def mark (l : List Nat) (x : Nat) : List Nat := if l.contains x then l else x :: l

/-- Change a level, numbered from the outermost, 1. -/
def Warp.modLevel (w : Warp) (k : Nat) (f : Level → Level) : Warp :=
  { w with levels := w.levels.zipIdx.map fun x => if w.levels.length - x.2 = k then f x.1 else x.1 }

/-- A protected word suffers an uncorrectable error. -/
def execUncorrectableError (p : ErrPlace) (s : State) : Out :=
  match p with
  | .hbm key => .next (s.setPoison (.hbm key) 1)
  | .scratch g b off => .next (s.setPoison (.scr g b off) 1)
  | .fifo g b bank k => .next (s.modGang g fun y => y.modBlock b fun z =>
      { z with fifos := z.fifos.modify bank fun l => l.zipIdx.map fun x => if x.2 = k then (x.1.1, true) else x.1 })
  | .vreg w r l => .next (s.modWarp w fun x => { x with badV := mark x.badV (r * 32 + l) })
  | .sreg w r => .next (s.modWarp w fun x => { x with badS := mark x.badS r })
  | .preg w r => .next (s.modWarp w fun x => { x with badP := mark x.badP r })
  | .jreg w r => .next (s.modWarp w fun x => { x with badJ := mark x.badJ r })
  | .tile w t e => .next (s.modWarp w fun x => { x with badT := mark x.badT (t * 4096 + e) })
  | .bridge n => .next (s.fatal 8 n)
  | .latch w k l => .next (s.modWarp w fun x => { x with r := { x.r with badL := mark x.r.badL (k * 32 + l) } })
  | .kept w level => .next (s.modWarp w fun x => x.modLevel level fun y => { y with badKept := true })
  | .galley w level k off => .next (s.modWarp w fun x => x.modLevel level fun y =>
      { y with held := y.held.zipIdx.map fun h => if h.2 = k ∧ (h.1.bytes.any fun b => b.1 == off) then
          { h.1 with bad := mark h.1.bad off } else h.1 })
  | .groupSum w e m x => .next (s.modWarp w fun y => match y.platen with
      | [] => y
      | o :: t => { y with platen := { o with hurt := o.hurt ++ [(e, m, x)] } :: t })
  | .l1 forme key =>
    .next (if (s.l1.get (l1Key forme key)).isSome then { s with l1bad := mark s.l1bad (l1Key forme key) } else s)

end Sys2Proof.Machine
end

