-- ==== Sys2Proof/Machine/Dispatch.lean ====
section
/-! DEFINITION. The meaning of each instruction and step, one arm per constructor. -/

namespace Sys2Proof.Machine

def exec (i : Instr) (s : State) : Host.Outcome State Fault Refusal :=
  match i with
  | .issueOpportunity a => Sys2Proof.Machine.execIssueOpportunity a s
  | .add a => Sys2Proof.Machine.execAdd a s
  | .sub a => Sys2Proof.Machine.execSub a s
  | .addc a => Sys2Proof.Machine.execAddc a s
  | .subb a => Sys2Proof.Machine.execSubb a s
  | .mul a => Sys2Proof.Machine.execMul a s
  | .mulhi a => Sys2Proof.Machine.execMulhi a s
  | .mad a => Sys2Proof.Machine.execMad a s
  | .madhi a => Sys2Proof.Machine.execMadhi a s
  | .mulwd a => Sys2Proof.Machine.execMulwd a s
  | .div a => Sys2Proof.Machine.execDiv a s
  | .rem a => Sys2Proof.Machine.execRem a s
  | .abs a => Sys2Proof.Machine.execAbs a s
  | .neg a => Sys2Proof.Machine.execNeg a s
  | .min a => Sys2Proof.Machine.execMin a s
  | .max a => Sys2Proof.Machine.execMax a s
  | .sad a => Sys2Proof.Machine.execSad a s
  | .add3 a => Sys2Proof.Machine.execAdd3 a s
  | .clamp a => Sys2Proof.Machine.execClamp a s
  | .and a => Sys2Proof.Machine.execAnd a s
  | .or a => Sys2Proof.Machine.execOr a s
  | .xor a => Sys2Proof.Machine.execXor a s
  | .not a => Sys2Proof.Machine.execNot a s
  | .andn a => Sys2Proof.Machine.execAndn a s
  | .bfn a => Sys2Proof.Machine.execBfn a s
  | .shl a => Sys2Proof.Machine.execShl a s
  | .shr a => Sys2Proof.Machine.execShr a s
  | .shrA a => Sys2Proof.Machine.execShrA a s
  | .rot a => Sys2Proof.Machine.execRot a s
  | .shf a => Sys2Proof.Machine.execShf a s
  | .bfx a => Sys2Proof.Machine.execBfx a s
  | .bfi a => Sys2Proof.Machine.execBfi a s
  | .popc a => Sys2Proof.Machine.execPopc a s
  | .clz a => Sys2Proof.Machine.execClz a s
  | .ctz a => Sys2Proof.Machine.execCtz a s
  | .brev a => Sys2Proof.Machine.execBrev a s
  | .bsel a => Sys2Proof.Machine.execBsel a s
  | .setp a => Sys2Proof.Machine.execSetp a s
  | .sel a => Sys2Proof.Machine.execSel a s
  | .pfn a => Sys2Proof.Machine.execPfn a s
  | .mov a => Sys2Proof.Machine.execMov a s
  | .movp a => Sys2Proof.Machine.execMovp a s
  | .movpTo a => Sys2Proof.Machine.execMovpTo a s
  | .sethi20 a => Sys2Proof.Machine.execSethi20 a s
  | .sethi20Pc a => Sys2Proof.Machine.execSethi20Pc a s
  | .lea a => Sys2Proof.Machine.execLea a s
  | .idot4 a => Sys2Proof.Machine.execIdot4 a s
  | .idot2 a => Sys2Proof.Machine.execIdot2 a s
  | .tacc a => Sys2Proof.Machine.execTacc a s
  | .fadd a => Sys2Proof.Machine.execFadd a s
  | .fsub a => Sys2Proof.Machine.execFsub a s
  | .fmul a => Sys2Proof.Machine.execFmul a s
  | .fma a => Sys2Proof.Machine.execFma a s
  | .fdot2 a => Sys2Proof.Machine.execFdot2 a s
  | .fscale a => Sys2Proof.Machine.execFscale a s
  | .fmin a => Sys2Proof.Machine.execFmin a s
  | .fmax a => Sys2Proof.Machine.execFmax a s
  | .fclamp a => Sys2Proof.Machine.execFclamp a s
  | .fsetp a => Sys2Proof.Machine.execFsetp a s
  | .fclass a => Sys2Proof.Machine.execFclass a s
  | .frnd a => Sys2Proof.Machine.execFrnd a s
  | .fexpo a => Sys2Proof.Machine.execFexpo a s
  | .fmant a => Sys2Proof.Machine.execFmant a s
  | .fdiv a => Sys2Proof.Machine.execFdiv a s
  | .fsqrt a => Sys2Proof.Machine.execFsqrt a s
  | .frcp a => Sys2Proof.Machine.execFrcp a s
  | .frsq a => Sys2Proof.Machine.execFrsq a s
  | .fex2 a => Sys2Proof.Machine.execFex2 a s
  | .flg2 a => Sys2Proof.Machine.execFlg2 a s
  | .fsin a => Sys2Proof.Machine.execFsin a s
  | .fcos a => Sys2Proof.Machine.execFcos a s
  | .ftanh a => Sys2Proof.Machine.execFtanh a s
  | .faddE a => Sys2Proof.Machine.execFaddE a s
  | .fmulE a => Sys2Proof.Machine.execFmulE a s
  | .fmaE a => Sys2Proof.Machine.execFmaE a s
  | .xren a => Sys2Proof.Machine.execXren a s
  | .xcmpr a => Sys2Proof.Machine.execXcmpr a s
  | .xcmp a => Sys2Proof.Machine.execXcmp a s
  | .xadd a => Sys2Proof.Machine.execXadd a s
  | .xmulW a => Sys2Proof.Machine.execXmulW a s
  | .cvt a => Sys2Proof.Machine.execCvt a s
  | .cvtN a => Sys2Proof.Machine.execCvtN a s
  | .cvtSr a => Sys2Proof.Machine.execCvtSr a s
  | .cvtBlkDecode a => Sys2Proof.Machine.execCvtBlkDecode a s
  | .cvtBlkEncode a => Sys2Proof.Machine.execCvtBlkEncode a s
  | .cvtX2 a => Sys2Proof.Machine.execCvtX2 a s
  | .unpkT3 a => Sys2Proof.Machine.execUnpkT3 a s
  | .pack a => Sys2Proof.Machine.execPack a s
  | .unpack a => Sys2Proof.Machine.execUnpack a s
  | .xlane a => Sys2Proof.Machine.execXlane a s
  | .nbr a => Sys2Proof.Machine.execNbr a s
  | .lvote a => Sys2Proof.Machine.execLvote a s
  | .mpopc a => Sys2Proof.Machine.execMpopc a s
  | .lmatch a => Sys2Proof.Machine.execLmatch a s
  | .stc a => Sys2Proof.Machine.execStc a s
  | .ld a => Sys2Proof.Machine.execLd a s
  | .st a => Sys2Proof.Machine.execSt a s
  | .lds a => Sys2Proof.Machine.execLds a s
  | .sts a => Sys2Proof.Machine.execSts a s
  | .ldgs a => Sys2Proof.Machine.execLdgs a s
  | .stgs a => Sys2Proof.Machine.execStgs a s
  | .ldk a => Sys2Proof.Machine.execLdk a s
  | .ldl a => Sys2Proof.Machine.execLdl a s
  | .stl a => Sys2Proof.Machine.execStl a s
  | .pref a => Sys2Proof.Machine.execPref a s
  | .bankcfg a => Sys2Proof.Machine.execBankcfg a s
  | .bankDrainEnd a => Sys2Proof.Machine.execBankDrainEnd a s
  | .fifoPush a => Sys2Proof.Machine.execFifoPush a s
  | .fifoPop a => Sys2Proof.Machine.execFifoPop a s
  | .atom a => Sys2Proof.Machine.execAtom a s
  | .red a => Sys2Proof.Machine.execRed a s
  | .atoms a => Sys2Proof.Machine.execAtoms a s
  | .reds a => Sys2Proof.Machine.execReds a s
  | .cas a => Sys2Proof.Machine.execCas a s
  | .cass a => Sys2Proof.Machine.execCass a s
  | .catom a => Sys2Proof.Machine.execCatom a s
  | .atomicPerformed a1 a2 a3 => Sys2Proof.Machine.execAtomicPerformed a1 a2 a3 s
  | .loadDataReturn a1 a2 a3 => Sys2Proof.Machine.execLoadDataReturn a1 a2 a3 s
  | .storePerformed a1 a2 a3 => Sys2Proof.Machine.execStorePerformed a1 a2 a3 s
  | .resultWriteback a1 a2 => Sys2Proof.Machine.execResultWriteback a1 a2 s
  | .fence a => Sys2Proof.Machine.execFence a s
  | .barInit a => Sys2Proof.Machine.execBarInit a s
  | .barArrive a => Sys2Proof.Machine.execBarArrive a s
  | .barWait a => Sys2Proof.Machine.execBarWait a s
  | .barTest a => Sys2Proof.Machine.execBarTest a s
  | .waitc a => Sys2Proof.Machine.execWaitc a s
  | .signal a => Sys2Proof.Machine.execSignal a s
  | .waitsb a => Sys2Proof.Machine.execWaitsb a s
  | .pause a => Sys2Proof.Machine.execPause a s
  | .groupWaitEnd a1 a2 => Sys2Proof.Machine.execGroupWaitEnd a1 a2 s
  | .bra a => Sys2Proof.Machine.execBra a s
  | .brx a => Sys2Proof.Machine.execBrx a s
  | .call a => Sys2Proof.Machine.execCall a s
  | .callx a => Sys2Proof.Machine.execCallx a s
  | .ret a => Sys2Proof.Machine.execRet a s
  | .exit a => Sys2Proof.Machine.execExit a s
  | .jopen a => Sys2Proof.Machine.execJopen a s
  | .jenter a => Sys2Proof.Machine.execJenter a s
  | .jquit a => Sys2Proof.Machine.execJquit a s
  | .jwait a => Sys2Proof.Machine.execJwait a s
  | .jfree a => Sys2Proof.Machine.execJfree a s
  | .jsave a => Sys2Proof.Machine.execJsave a s
  | .jload a => Sys2Proof.Machine.execJload a s
  | .mma a => Sys2Proof.Machine.execMma a s
  | .mmaRes a => Sys2Proof.Machine.execMmaRes a s
  | .accZero a => Sys2Proof.Machine.execAccZero a s
  | .accRd a => Sys2Proof.Machine.execAccRd a s
  | .accWr a => Sys2Proof.Machine.execAccWr a s
  | .accLd a => Sys2Proof.Machine.execAccLd a s
  | .accSt a => Sys2Proof.Machine.execAccSt a s
  | .platenStep a => Sys2Proof.Machine.execPlatenStep a s
  | .cpy a => Sys2Proof.Machine.execCpy a s
  | .cpyRed a => Sys2Proof.Machine.execCpyRed a s
  | .cpySig a => Sys2Proof.Machine.execCpySig a s
  | .impStart a => Sys2Proof.Machine.execImpStart a s
  | .feederChunk a => Sys2Proof.Machine.execFeederChunk a s
  | .stepSend a => Sys2Proof.Machine.execStepSend a s
  | .stepRecv a => Sys2Proof.Machine.execStepRecv a s
  | .stepRrs a => Sys2Proof.Machine.execStepRrs a s
  | .stepRrc a => Sys2Proof.Machine.execStepRrc a s
  | .stepCopy a => Sys2Proof.Machine.execStepCopy a s
  | .stepWait a => Sys2Proof.Machine.execStepWait a s
  | .stepSignal a => Sys2Proof.Machine.execStepSignal a s
  | .stepLoop a => Sys2Proof.Machine.execStepLoop a s
  | .stepEndloop a => Sys2Proof.Machine.execStepEndloop a s
  | .credit a1 a2 a3 => Sys2Proof.Machine.execCredit a1 a2 a3 s
  | .chunk a1 a2 a3 => Sys2Proof.Machine.execChunk a1 a2 a3 s
  | .abort a1 a2 a3 => Sys2Proof.Machine.execAbort a1 a2 a3 s
  | .transferTimeout a => Sys2Proof.Machine.execTransferTimeout a s
  | .rgnBegin a => Sys2Proof.Machine.execRgnBegin a s
  | .rgnKeep a => Sys2Proof.Machine.execRgnKeep a s
  | .rgnEnd a => Sys2Proof.Machine.execRgnEnd a s
  | .rgnAbort a => Sys2Proof.Machine.execRgnAbort a s
  | .rgnStatus a => Sys2Proof.Machine.execRgnStatus a s
  | .errpPost a => Sys2Proof.Machine.execErrpPost a s
  | .errpVec a => Sys2Proof.Machine.execErrpVec a s
  | .errpMask a => Sys2Proof.Machine.execErrpMask a s
  | .csrr a => Sys2Proof.Machine.execCsrr a s
  | .csrw a => Sys2Proof.Machine.execCsrw a s
  | .trap a => Sys2Proof.Machine.execTrap a s
  | .tret a => Sys2Proof.Machine.execTret a s
  | .migr a => Sys2Proof.Machine.execMigr a s
  | .migrHome a => Sys2Proof.Machine.execMigrHome a s
  | .migrationDeparture a => Sys2Proof.Machine.execMigrationDeparture a s
  | .migrationArrival a1 a2 => Sys2Proof.Machine.execMigrationArrival a1 a2 s
  | .nop a => Sys2Proof.Machine.execNop a s
  | .tlbiVa a => Sys2Proof.Machine.execTlbiVa a s
  | .tlbiCtx a => Sys2Proof.Machine.execTlbiCtx a s
  | .tlbiAll a => Sys2Proof.Machine.execTlbiAll a s
  | .ctxopRoot a => Sys2Proof.Machine.execCtxopRoot a s
  | .ctxopDrain a => Sys2Proof.Machine.execCtxopDrain a s
  | .migWalkRetry a => Sys2Proof.Machine.execMigWalkRetry a s
  | .movedNack a1 a2 a3 => Sys2Proof.Machine.execMovedNack a1 a2 a3 s
  | .takeTrap a => Sys2Proof.Machine.execTakeTrap a s
  | .detectedError a1 a2 a3 a4 a5 => Sys2Proof.Machine.execDetectedError a1 a2 a3 a4 a5 s
  | .regionRollback a => Sys2Proof.Machine.execRegionRollback a s
  | .gangKill a1 a2 => Sys2Proof.Machine.execGangKill a1 a2 s
  | .gangRelaunch a1 a2 => Sys2Proof.Machine.execGangRelaunch a1 a2 s
  | .watchdogExpiry a => Sys2Proof.Machine.execWatchdogExpiry a s
  | .gangPlacement a1 a2 => Sys2Proof.Machine.execGangPlacement a1 a2 s
  | .warpRetire a => Sys2Proof.Machine.execWarpRetire a s
  | .preemptionRequest a => Sys2Proof.Machine.execPreemptionRequest a s
  | .engineStop a1 a2 => Sys2Proof.Machine.execEngineStop a1 a2 s
  | .preemptionComplete a => Sys2Proof.Machine.execPreemptionComplete a s
  | .resumption a => Sys2Proof.Machine.execResumption a s
  | .timeSliceExpiry a => Sys2Proof.Machine.execTimeSliceExpiry a s
  | .schedulerRebuild a1 a2 => Sys2Proof.Machine.execSchedulerRebuild a1 a2 s
  | .fabricEntry a1 a2 a3 => Sys2Proof.Machine.execFabricEntry a1 a2 a3 s
  | .fabricResend a1 a2 a3 => Sys2Proof.Machine.execFabricResend a1 a2 a3 s
  | .tail a1 a2 => Sys2Proof.Machine.execTail a1 a2 s
  | .resume a => Sys2Proof.Machine.execResume a s
  | .reset a => Sys2Proof.Machine.execReset a s
  | .launch a => Sys2Proof.Machine.execLaunch a s
  | .packetFence a => Sys2Proof.Machine.execPacketFence a s
  | .packetSignal a => Sys2Proof.Machine.execPacketSignal a s
  | .packetCopy a => Sys2Proof.Machine.execPacketCopy a s
  | .collective a => Sys2Proof.Machine.execCollective a s
  | .rcbRegister a => Sys2Proof.Machine.execRcbRegister a s
  | .rcbUnregister a => Sys2Proof.Machine.execRcbUnregister a s
  | .skip a => Sys2Proof.Machine.execSkip a s
  | .unknownPacket a => Sys2Proof.Machine.execUnknownPacket a s
  | .fenceThresholdMet a => Sys2Proof.Machine.execFenceThresholdMet a s
  | .workCompletionDone a => Sys2Proof.Machine.execWorkCompletionDone a s
  | .rdmaWrite a1 a2 a3 a4 => Sys2Proof.Machine.execRdmaWrite a1 a2 a3 a4 s
  | .rdmaRead a1 a2 a3 a4 => Sys2Proof.Machine.execRdmaRead a1 a2 a3 a4 s
  | .clockThrottle a => Sys2Proof.Machine.execClockThrottle a s
  | .thermalTripFatal => Sys2Proof.Machine.execThermalTripFatal s
  | .boot => Sys2Proof.Machine.execBoot s
  | .readOfferWords a => Sys2Proof.Machine.execReadOfferWords a s
  | .featureAccept a1 a2 a3 => Sys2Proof.Machine.execFeatureAccept a1 a2 a3 s
  | .featureLock a1 a2 => Sys2Proof.Machine.execFeatureLock a1 a2 s
  | .createContext a1 a2 => Sys2Proof.Machine.execCreateContext a1 a2 s
  | .removeContext a1 a2 => Sys2Proof.Machine.execRemoveContext a1 a2 s
  | .registerQueue a1 a2 => Sys2Proof.Machine.execRegisterQueue a1 a2 s
  | .bindQueuePair a1 a2 a3 a4 => Sys2Proof.Machine.execBindQueuePair a1 a2 a3 a4 s
  | .attestationQuote a1 a2 => Sys2Proof.Machine.execAttestationQuote a1 a2 s
  | .writeFirmwareSlot a1 a2 a3 a4 a5 => Sys2Proof.Machine.execWriteFirmwareSlot a1 a2 a3 a4 a5 s
  | .readManagementErrata a => Sys2Proof.Machine.execReadManagementErrata a s
  | .commitFirmwareVersion a => Sys2Proof.Machine.execCommitFirmwareVersion a s
  | .linkFailure a => Sys2Proof.Machine.execLinkFailure a s
  | .impositionWaitMet a => Sys2Proof.Machine.execImpositionWaitMet a s
  | .uncorrectableError a => Sys2Proof.Machine.execUncorrectableError a s
  | .powerLoss => Sys2Proof.Machine.execPowerLoss s
  | .cnpReceived a => Sys2Proof.Machine.execCnpReceived a s
  | .malformedManagementMessage a1 a2 => Sys2Proof.Machine.execMalformedManagementMessage a1 a2 s

end Sys2Proof.Machine
end

