-- ==== Sys2Proof/Machine/Schedule.lean ====
section
/-! DEFINITION. What happens when nothing is asked for: the clock (R22, R265; log 5), the steps of the device's agents
that can come next (log 2), and a program placed where the fetch finds it (log 8). -/

namespace Sys2Proof.Machine

/-! ### Time -/

/-- Let clocks pass for a warp: pauses count down in clocks, repeated walks in ns (R234, R344). -/
def Warp.tick (w : Warp) (clocks ns : Nat) : Warp :=
  { w with waits := w.waits.map fun x => match x.kind with
      | .pause n => { x with kind := .pause (n - clocks) }
      | .walk va n => { x with kind := .walk va (n - ns) }
      | _ => x }

/-- The back-off of a refused fabric entry counts down (R331). -/
def Channel.tick (c : Channel) (ns : Nat) : Channel := { c with wait := c.wait - ns }

/-- The parts of a ns in which time is counted: every clock from 1.0 to 1.5 GHz in steps of 50 MHz is a whole number of them
(R426). -/
def nsParts : Nat := 3605401800

/-- Clocks pass: the cycle counters, the device timer, the watchdogs, waits and back-offs. A clock lasts 1000 / MHz ns. -/
def State.tick (s : State) (clocks : Nat) : State :=
  let t := s.tfrac + clocks * (1000 * nsParts / s.freq)
  let ns := t / nsParts
  { s with
    cycles := s.cycles.map fun c => c + clocks
    tfrac := t % nsParts
    time := s.time + ns
    warps := s.warps.map fun x => (x.1, x.2.map fun w => w.tick clocks ns)
    rcbs := s.rcbs.map fun x => if s.rcbRuns x then { x with timer := x.timer + ns } else x
    cmds := s.cmds.map fun c => if c.suspended then c else { c with imp := c.imp.map fun p => { p with idle := p.idle + ns } }
    chans := s.chans.map fun x => (x.1, x.2.tick ns) }

/-- The clocks until the next step: one, or what `elapse` says (log 2). -/
def State.pass (s : State) : State :=
  match s.elapse with
  | [] => s.tick 1
  | n :: t => { s with elapse := t }.tick (n + 1)

/-! ### The next step of an agent -/

/-- The steps that may be due for a resident warp. -/
def warpEvents (slot : Nat) (w : Warp) : List Instr :=
  (w.pend.flatMap fun o => (List.range o.pieces.length).flatMap fun k =>
    [.loadDataReturn slot o.id k, .storePerformed slot o.id k, .atomicPerformed slot o.id k, .movedNack slot o.id k]) ++
  ((List.range w.results.length).map fun k => .resultWriteback slot k) ++
  [.takeTrap slot, .regionRollback slot] ++
  (w.waits.filterMap fun x => (lowest x.lanes).map fun l => .groupWaitEnd slot l) ++
  [.bankDrainEnd slot, .migWalkRetry slot, .migrationDeparture slot, .warpRetire slot] ++
  ((w.det.map AsyncErr.cause ++ (w.async.take 1).map AsyncErr.cause).map fun c => .gangKill w.gang c) ++
  (if w.departure.isSome then [.migrationArrival slot w.home] else [])

/-- The steps that may be due for a Feeder command. -/
def cmdEvents (c : Cmd) : List Instr :=
  [.feederChunk c.feeder, .stepSend c.id, .stepRecv c.id, .stepRrs c.id, .stepRrc c.id, .stepCopy c.id, .impositionWaitMet c.id,
    .stepWait c.id, .stepSignal c.id, .stepLoop c.id, .stepEndloop c.id, .transferTimeout c.id]

/-- The steps that may be due for a queue of the command processor. -/
def queueEvents (q : Nat) : List Instr :=
  [.fenceThresholdMet q, .launch q, .packetFence q, .packetSignal q, .packetCopy q, .collective q, .rcbRegister q,
    .rcbUnregister q, .skip q, .unknownPacket q]

/-- The steps that may be due for a gang. -/
def gangEvents (s : State) (g : Gang) : List Instr :=
  match g.phase with
  | .running => [.preemptionRequest g.id, .timeSliceExpiry g.id]
  | .stopping => ((s.engines g.id).map fun e => .engineStop g.id e) ++ [.preemptionComplete g.id]
  | .suspended => [.resumption g.id]
  | .waitRelaunch => [.preemptionRequest g.id, .gangRelaunch g.id []]

/-- The channels between sheets. -/
def fabricPaths : List (Nat × Nat × Nat) :=
  (List.range 4).flatMap fun a => (List.range 4).flatMap fun b => if a = b then [] else [(a, b, 0), (a, b, 1)]

/-- The landings of departed warps: the first empty landing slot of the sheet they go to. -/
def landingEvents (s : State) : List Instr :=
  s.warpList.flatMap fun x =>
    x.2.waits.filterMap fun y => match y.kind with
      | .migrating t (some _) => ((landingSlots t).find? s.empty).map fun k => .migrationArrival x.1 k
      | _ => none

/-- Every step of the device's own agents that may be due; those that are not enabled are passed over. -/
def State.events (s : State) : List Instr :=
  (s.warpList.flatMap fun x => warpEvents x.1 x.2) ++
  (landingEvents s) ++
  (fabricPaths.flatMap fun x => [.fabricEntry x.1 x.2.1 x.2.2, .fabricResend x.1 x.2.1 x.2.2]) ++
  ((s.warpList.map fun x => slotQuadId x.1).eraseDups.map fun q => .platenStep q) ++
  (s.cmds.flatMap cmdEvents) ++
  (s.posts.map fun x => .atomicPerformed engineSlot x.id 0) ++
  (if s.lateErrata.isEmpty then [] else [.migWalkRetry engineSlot]) ++
  (s.gangs.flatMap (gangEvents s)) ++
  ((s.queues.map Prod.fst).flatMap queueEvents) ++
  (s.works.flatMap fun w => [.workCompletionDone w.id, .gangPlacement w.id []]) ++
  (s.rcbs.map fun x => .watchdogExpiry x.id) ++ s.rdmaHeld ++ [.boot]

/-- The steps that come from outside the contexts: hosts, ports, the management queue, the environment (R426; log 27). -/
def outsideStep : Instr → Bool
  | .tail _ _ | .resume _ | .reset _ | .rdmaWrite _ _ _ _ | .rdmaRead _ _ _ _ | .clockThrottle _ | .thermalTripFatal
  | .readOfferWords _ | .featureAccept _ _ _ | .featureLock _ _ | .createContext _ _ | .removeContext _ _ | .registerQueue _ _
  | .bindQueuePair _ _ _ _ | .attestationQuote _ _ | .writeFirmwareSlot _ _ _ _ _ | .readManagementErrata _
  | .commitFirmwareVersion _ | .uncorrectableError _ | .powerLoss | .cnpReceived _ | .malformedManagementMessage _ _ => true
  | _ => false

/-- The next quadrant from n on that holds a warp. -/
def State.quadFrom (s : State) (n : Nat) : Option Nat :=
  (s.warps.map fun x => slotQuadId x.1).find? fun q => decide (n ≤ q)

/-! ### A program to run -/

/-- A virtual address space of one 512 MiB page at 0, and its code at 0x1000 (R337, R338). -/
def loadTables (s : State) : State :=
  ((s.writeLe (.hbm 0x10000) 0x20001 8).writeLe (.hbm 0x20000) 0x30001 8).writeLe (.hbm 0x30000) 0x2000001F 8

/-- A root RCB that allows everything (R261). -/
def Rcb.open (id : Nat) : Rcb :=
  { id := id, ctx := 0, addr := 128, parent := 0, ovr := 0x3FF, index := 0, newdom := false, cls := 0, checked := false
    rsv := false, formes := 512, warps := 32768, tiles := 16384, banks := 16384, feeders := 0, retry := 0, wdog := 0, timer := 0
    spent := false }

/-- A launch record of one gang of one block of one warp, with the greatest grants (R267). -/
def LaunchRec.one : LaunchRec :=
  { rcb := 128, entry := 0x1000, gx := 1, gy := 1, gz := 1, bpg := 1, wpb := 1, tg := 8, relaunch := false
    vgrant := 256, scratch := 0, priv := 0, privBase := 0, windows := [] }

/-- Its launch, accepted from no queue. -/
def Work.one (id rcb : Nat) : Work :=
  { id := id, queue := 0, ctx := 0, tag := 0, done := 0, dval := 0, launch := some .one, rcbId := rcb, next := 1, finished := 0, since := 0 }

def Gang.one (id work slot : Nat) : Gang :=
  { id := id, launch := work, lin := 0, chase := 0
    blocks := [{ forme := 0, banks := [], modes := [], bytes := 0, scratch := [], poison := [], fifos := [], slots := [slot]
                 twins := [], released := false }]
    phase := .running, acks := [], saved := [], order := id, since := 0, stopAt := 0, saveTime := 0, yieldTo := none, relaunches := 0, checked := false }

/-- Load a program for a warp of context 0 in slot 0 of quadrant 0, its first instruction at 0x1000, and let that
quadrant offer issue to it next (log 8). -/
def State.load (s : State) (code : List Byte) : State :=
  let n := s.opSeq
  let t := (loadTables { s with poison := [] }).writeBytes (.hbm 0x20001000) code
  { t with
    phase := .running
    ctxs := t.ctxs.set 0 ⟨true, true, 0x10000, 0, 0, false⟩
    tlb := t.tlb.filter fun e => e.ctx != 0
    warps := t.warps.set 0 (some ((Warp.start .one false n 0 0 0 0 0 0).since t t.past.length))
    gangs := Gang.one n (n + 1) 0 :: t.gangs
    works := Work.one (n + 1) (n + 2) :: t.works
    rcbs := Rcb.open (n + 2) :: t.rcbs
    opSeq := n + 3
    rrSlot := t.rrSlot.set 0 33
    issue := []
    agenda := .issueOpportunity 0 :: t.agenda }

end Sys2Proof.Machine
end

