-- ==== Sys2Proof/Machine/Step.lean ====
section
/-! DEFINITION. One step of the machine: the step that the agenda asks for or, with none, the next of the device's own
(log 2); an issue opportunity runs the instructions it chose. -/

namespace Sys2Proof.Machine

/-- Run one instruction that the opportunity chose. -/
def runSlot (sl : Slot) (s : State) : Out :=
  match s.warp sl.w with
  | none => .fault .notEnabled
  | some w =>
    match exec sl.instr s with
    | .next s1 => .next (s1.afterIssue sl w)
    | .fault f => .fault f
    | .refused r => .refused r

/-- Run the instructions of the opportunity: none, one, or a pair (R92). -/
def runIssue (s : State) : Out :=
  match s.issue with
  | [] => .next s
  | [a] => runSlot a s
  | a :: b :: _ =>
    match runSlot a s with
    | .next s1 =>
      (match runSlot b s1 with
      | .next s2 => .next ({ s2 with issue := [] }.afterPair a.w)
      | .fault f => .fault f
      | .refused r => .refused r)
    | .fault f => .fault f
    | .refused r => .refused r

/-- One step of an agent, with the instructions it issues. -/
def runOne (i : Instr) (s : State) : Out :=
  match exec i s with
  | .next s1 => runIssue s1
  | .fault f => .fault f
  | .refused r => .refused r

/-- The first of some steps that is enabled and changes the state. -/
def firstOf (s : State) : List Instr → Option State
  | [] => none
  | i :: t =>
    match exec i s with
    | .next s1 => if s1 = s then firstOf s t else some s1
    | _ => firstOf s t

/-- With nothing on the agenda: a step of the device that is due, else an issue opportunity of the next quadrant with a
warp, else the clock. -/
def ownStep (s : State) : Out :=
  match firstOf s s.events with
  | some s1 => .next s1
  | none =>
    match s.quadFrom s.nextQuad with
    | some q => runOne (.issueOpportunity q) { s with nextQuad := q + 1 }
    | none => .next { s.pass with nextQuad := 0 }

/-- The contexts are halted: what comes from outside still acts, a step of a context cannot happen, and otherwise the
clock goes on (R426; log 27). -/
def haltedStep (s : State) : Out :=
  match s.agenda with
  | i :: t => if outsideStep i then exec i { s with agenda := t } else .fault .notEnabled
  | [] => .next s.pass

/-- One step of the machine. -/
def step (s : State) : Out :=
  if s.halted then haltedStep s
  else match s.agenda with
    | i :: t => runOne i { s with agenda := t }
    | [] => ownStep s

/-- The bytes of an instruction given as one number, 16 at most (R26). -/
def fetchBytes (w : Nat) : List Byte := leBytes w 16

/-- The state in which the next step fetches and runs the instruction whose bits are w (log 8). -/
def State.withFetchWord (s : State) (nbits w : Nat) : State :=
  { s with halted := false }.load (fetchBytes (w % 2 ^ nbits))

end Sys2Proof.Machine
end

