-- ==== Sys2Proof/Safety.lean ====
section
/-! DEFINITION. What counts as a safe state and what an instruction may change, in the terms that claims use. -/

namespace Sys2Proof.Machine

/-- Every sparse register file of a warp is in canonical form. -/
def Regs.wf (r : Regs) : Bool := r.v.wf && r.s.wf && r.p.wf && r.j.wf && r.latch.wf && r.pc.wf && r.ages.wf

/-! ### An instruction about to run -/

/-- The instruction at the head of `issue` is that of slot `sl`; its warp `w` is resident; `r` are the registers of the
side that issues, as its group finds them (R43, R404). -/
structure State.Chosen (s : State) (sl : Slot) (w : Warp) (r : Regs) : Prop where
  head : s.issue.head? = some sl
  warp : s.warp sl.w = some w
  side : (w.side sl.proof).map (fun x => x.forGroup sl.grp) = some r

/-- The state with the chosen instruction taken off. -/
def State.taken (s : State) : State := { s with issue := s.issue.tail }

/-- The window operand of an instruction reads as `x`, unpoisoned; with no window operand `x` is 0 (R19, R36). -/
def State.Reads (s : State) (sl : Slot) (w : Warp) (act : Mask) (win : Option (Nat × Nat × Nat)) (x : Nat) : Prop :=
  (act = 0 ∧ x = 0) ∨ (act ≠ 0 ∧ ∃ s2, s.taken.readWindow sl.w w win = (.ok (x, false), s2))

/-! ### What stays -/

/-- Nothing changes but one warp and, of the rest, what translation and the model's own numbering keep. -/
structure State.SameOutside (s t : State) (slot : Nat) : Prop where
  rest : t = { s with warps := t.warps, issue := s.issue.tail, tlb := t.tlb, env := t.env, opSeq := t.opSeq }
  others : ∀ k, k ≠ slot → t.warp k = s.warp k

/-- Of a warp only its registers and its pending vector results may differ; a proof warp's instruction leaves its leader's registers, a leader's those of its proof warp. -/
structure Warp.SameButRegs (w w' : Warp) (proof : Bool) : Prop where
  rest : w' = { w with r := w'.r, proof := w'.proof, results := w'.results }
  other : w'.side (!proof) = w.side (!proof)

/-- The group's lanes go on behind the instruction; every other lane keeps its PC; `sr.gseq` advances (R21, R26). -/
structure Regs.Advanced (r r' : Regs) (sl : Slot) : Prop where
  pcs : ∀ l, l < 32 → r'.pcGet l = if lane sl.grp l then sl.after else r.pcGet l
  gseq : r'.gseq = r.gseq + 1

/-! ### What a vector instruction writes -/

/-- The word of register k in lane l after the results `res` of the lanes `act` went to destination d (R36). -/
def wordAfter (r : Regs) (act : Mask) (d : Option Dst) (res : Nat → LaneRes) (k l : Nat) : Word :=
  match d with
  | some (.v k0) => if lane act l = true ∧ k0.val ≤ k then ((res l).ws[k - k0.val]?).getD (r.vget k l) else r.vget k l
  | _ => r.vget k l

/-- Scalar register k: the uniform form takes the lowest active lane's value (R37). -/
def scalarAfter (r : Regs) (act : Mask) (d : Option Dst) (res : Nat → LaneRes) (k : Nat) : DWord :=
  match d, lowest act with
  | some (.s k0), some l => if k = k0.val then (res l).sx else r.sget k
  | _, _ => r.sget k

/-- Bit l of predicate register k; p0 takes no write (R14). -/
def bitAfter (r : Regs) (act : Mask) (d : Option Dst) (pd : Option (Fin 8)) (res : Nat → LaneRes) (k l : Nat) : Bool :=
  match pd with
  | none => lane (r.pget k) l
  | some p =>
    if k = p.val ∧ k ≠ 0 ∧ lane act l = true then
      (match d, lowest act with
      | some (.s _), some l0 => (res l0).p
      | _, _ => (res l).p)
    else lane (r.pget k) l

/-- The registers r' are r with those results written and nothing else of v, s, p changed. -/
structure Written (r r' : Regs) (act : Mask) (d : Option Dst) (pd : Option (Fin 8)) (res : Nat → LaneRes) : Prop where
  v : ∀ k l, l < 32 → r'.vget k l = wordAfter r act d res k l
  s : ∀ k, r'.sget k = scalarAfter r act d res k
  p : ∀ k l, l < 32 → lane (r'.pget k) l = bitAfter r act d pd res k l

/-- Word k of the bypass latches in lane l after an instruction of the vector pipeline (R41, R42): with a vector destination or
b0 the latches of the issuing group shift and b0 takes the word written, the unchanged word of D in a lane that is not active,
or 0 there with NW; any other leaves them. -/
def latchAfter (r : Regs) (grp act : Mask) (d : Option Dst) (res : Nat → LaneRes) (k l : Nat) : Word :=
  let first (old : Word) : Word :=
    if lane grp l = false then r.latchGet k l
    else if k = 0 then (if lane act l = true then ((res l).ws.head?).getD 0 else old)
    else r.latchGet (k - 1) l
  match d with
  | some (.v k0) => first (r.vget k0.val l)
  | some .b0 => first 0
  | _ => r.latchGet k l

/-- A destination with which the latches shift (R41, R42). -/
def latchShift (d : Option Dst) : Bool :=
  match d with
  | some (.v _) | some .b0 => true
  | _ => false

/-- The latches after an instruction (R41): their words, their valid bits, and which of them cannot be read (R411). -/
structure Latched (r r' : Regs) (grp act : Mask) (d : Option Dst) (res : Nat → LaneRes) : Prop where
  words : ∀ k l, k < 4 → l < 32 → r'.latchGet k l = latchAfter r grp act d res k l
  valid : r'.lvalid = if latchShift d then (r.lvalid <<< 1) ||| 1 else r.lvalid
  bad : r'.badL = if latchShift d then (r.shiftLatches grp fun _ => 0).badL else r.badL

/-- The flags of the lanes that compute (R23). -/
def flagsOf (act : Mask) (d : Option Dst) (res : Nat → LaneRes) : Flags :=
  (accessLanes act (match d with
    | some (.s _) => true
    | _ => false)).foldl (fun a l => a ||| (res l).flags) 0

/-- A pending result as it will be written (R93). -/
def Result.deliver (x : Result) (r : Regs) : Regs :=
  let r1 := ((r.writeV x.vw).writeS x.sw).setFlags x.flags
  match x.pd with
  | none => r1
  | some p => r1.pset p.val x.act x.pm

/-- What an instruction of the vector pipeline leaves when it takes its effect: `res` is what each active lane computed,
`multi` that the results are pending (R93). -/
structure VecDone (s t : State) (sl : Slot) (w : Warp) (r : Regs) (act : Mask) (d : Option Dst) (pd : Option (Fin 8))
    (multi : Bool) (res : Nat → LaneRes) : Prop where
  outside : s.SameOutside t sl.w
  warp : ∃ w' r', t.warp sl.w = some w' ∧ w'.side sl.proof = some r' ∧ w.SameButRegs w' sl.proof ∧ r.Advanced r' sl ∧
    r' = { r with v := r'.v, s := r'.s, p := r'.p, latch := r'.latch, lvalid := r'.lvalid, badL := r'.badL, pc := r'.pc
                  gseq := r'.gseq, fpflags := r'.fpflags } ∧
    Latched r r' sl.grp act d res ∧
    if multi then
      (r'.v = r.v ∧ r'.s = r.s ∧ r'.p = r.p ∧ r'.fpflags = r.fpflags ∧
        ∃ x, w'.results = w.results ++ [x] ∧ x.act = act ∧ x.proof = sl.proof ∧ x.flags = flagsOf act d res ∧
          x.pd = pd ∧ ∀ q : Regs, Written q (x.deliver q) act d pd res)
    else
      (Written r r' act d pd res ∧ w'.results = w.results ∧
        r'.fpflags = r.fpflags ||| (flagsOf act d res).zeroExtend 64)

end Sys2Proof.Machine
end

