-- ==== Sys2Proof/Certificates/Slice0/Obligations.lean ====
section
/-! DEFINITION. The statements for the provers. -/

namespace Sys2Proof.Claims
open Sys2Proof.Machine

/-! ### Integer and logic instructions: the table of results (R88 to R110) -/

/-- One instruction of the vector pipeline as the spec's tables give it: the guard, the destination, the predicate
destination, the sources with the 64-bit positions marked, whether it takes more than one clock (R91), and what an
active lane computes from its operands. -/
structure Row where
  g : Guard
  d : Option Dst
  pd : Option (Fin 8)
  srcs : List (Src × Bool)
  multi : Bool
  res : Rd → Nat → LaneRes

/-- The value that a type gives an exact result: clamped with .sat, else modulo 2^w (R90). -/
def fit (t : Ty) (sat : Bool) (x : Int) : Int :=
  let lo : Int := if t.signed then -2 ^ (t.width - 1) else 0
  if sat then max lo (min x (lo + 2 ^ t.width - 1)) else lo + (x - lo) % 2 ^ t.width

/-- A value of a type in its word or its pair, and in a scalar: extended by the type's signedness (R67, R89). -/
def typed (t : Ty) (v : Int) : LaneRes :=
  ⟨if t.width = 64 then [BitVec.ofInt 32 v, BitVec.ofInt 32 (v / 2 ^ 32)] else [BitVec.ofInt 32 v], BitVec.ofInt 64 v,
    false, 0⟩

/-- The result of an integer instruction (R90). -/
def intRes (t : Ty) (sat : Bool) (x : Int) : LaneRes := typed t (fit t sat x)

/-- The number whose bit j, j < w, is f j. -/
def ofBits (w : Nat) (f : Nat → Bool) : Nat := (List.range w).foldl (fun a j => if f j then a + 2 ^ j else a) 0

/-- A result given bit by bit. -/
def bitRes (t : Ty) (f : Nat → Bool) : LaneRes := typed t (fit t false (ofBits t.width f))

def wide (t : Ty) : Bool := t.width == 64

/-- An integer instruction whose sources are all data positions. -/
def intOp (g : Guard) (d : Dst) (t : Ty) (sat multi : Bool) (srcs : List Src) (f : (Src → Int) → Int) : Row :=
  ⟨g, some d, none, srcs.map fun a => (a, wide t), multi, fun x l => intRes t sat (f fun a => x.int t a l)⟩

/-- The quotient and the remainder of R96: a divisor of zero, the one overflow, else truncation toward zero. -/
def quotient (t : Ty) (a b : Int) : Int :=
  if b = 0 then -1 else if t.signed ∧ a = -2 ^ (t.width - 1) ∧ b = -1 then a else Int.tdiv a b
def remainder (t : Ty) (a b : Int) : Int :=
  if b = 0 then a else if t.signed ∧ a = -2 ^ (t.width - 1) ∧ b = -1 then 0 else Int.tmod a b

/-- The integer arithmetic of R95 and R96. -/
def intRow : Instr → Option Row
  | .add i => some (intOp i.g i.d i.m.ty i.m.sat (wide i.m.ty) [i.a, i.b] fun v => v i.a + v i.b)
  | .sub i => some (intOp i.g i.d i.m.ty i.m.sat (wide i.m.ty) [i.a, i.b] fun v => v i.a - v i.b)
  | .mul i => some (intOp i.g i.d i.m.ty i.m.sat (wide i.m.ty) [i.a, i.b] fun v => v i.a * v i.b)
  | .mulhi i => some (intOp i.g i.d i.m false (wide i.m) [i.a, i.b] fun v => v i.a * v i.b / 2 ^ i.m.width)
  | .mad i => some (intOp i.g i.d i.m.ty i.m.sat (wide i.m.ty) [i.a, i.b, i.c] fun v => v i.a * v i.b + v i.c)
  | .madhi i => some (intOp i.g i.d i.m false (wide i.m) [i.a, i.b, i.c] fun v => (v i.a * v i.b + v i.c) / 2 ^ i.m.width)
  | .div i => some (intOp i.g i.d i.m false true [i.a, i.b] fun v => quotient i.m (v i.a) (v i.b))
  | .rem i => some (intOp i.g i.d i.m false true [i.a, i.b] fun v => remainder i.m (v i.a) (v i.b))
  | .abs i => some (intOp i.g i.d i.m.ty i.m.sat (wide i.m.ty) [i.a] fun v => (v i.a).natAbs)
  | .neg i => some (intOp i.g i.d i.m.ty i.m.sat (wide i.m.ty) [i.a] fun v => -v i.a)
  | .min i => some (intOp i.g i.d i.m false (wide i.m) [i.a, i.b] fun v => min (v i.a) (v i.b))
  | .max i => some (intOp i.g i.d i.m false (wide i.m) [i.a, i.b] fun v => max (v i.a) (v i.b))
  | .sad i => some (intOp i.g i.d i.m false false [i.a, i.b, i.c] fun v => ((v i.a - v i.b).natAbs : Int) + v i.c)
  | .add3 i => some (intOp i.g i.d i.m.ty i.m.sat (wide i.m.ty) [i.a, i.b, i.c] fun v => v i.a + v i.b + v i.c)
  | .clamp i => some (intOp i.g i.d i.m false (wide i.m) [i.a, i.b, i.c] fun v => min (max (v i.a) (v i.b)) (v i.c))
  | _ => none

/-- The carry chain of R97: the sum or difference modulo 2^w, and the carry or borrow as predicate bit. -/
def carryRow : Instr → Option Row
  | .addc i => some ⟨i.g, some i.d, some i.pc, [(i.a, wide i.ty), (i.b, wide i.ty)], wide i.ty, fun x l =>
      let u : Int := x.code i.a i.ty.width l + x.code i.b i.ty.width l + if i.ci && lane (x.r.pget i.pc) l then 1 else 0
      { intRes i.ty false u with p := decide (2 ^ i.ty.width ≤ u) }⟩
  | .subb i => some ⟨i.g, some i.d, some i.pc, [(i.a, wide i.ty), (i.b, wide i.ty)], wide i.ty, fun x l =>
      let u : Int := x.code i.a i.ty.width l - x.code i.b i.ty.width l - if i.ci && lane (x.r.pget i.pc) l then 1 else 0
      { intRes i.ty false u with p := decide (u < 0) }⟩
  | _ => none

/-- Byte j of a word and halfword j, signed or not. -/
def byteOf (u : Bool) (w j : Nat) : Int :=
  let b : Nat := w / 2 ^ (8 * j) % 2 ^ 8
  if u = true ∨ b < 128 then b else (b : Int) - 256
def halfOf (u : Bool) (w j : Nat) : Int :=
  let b : Nat := w / 2 ^ (16 * j) % 2 ^ 16
  if u = true ∨ b < 32768 then b else (b : Int) - 65536

/-- Exact 64-bit results: mulwd, lea and sethi20 (R95, R108, R109), and the dot products of R110. `pc` is the address of
the instruction. -/
def addressRow (pc : DWord) : Instr → Option Row
  | .mulwd i => some ⟨i.g, some i.d, none, [(i.a, false), (i.b, false)], false, fun x l =>
      intRes .n64 false (x.int i.m i.a l * x.int i.m i.b l)⟩
  | .lea i => some ⟨i.g, some i.d, none, [(i.a, true), (i.b, false), (i.c, false)], false, fun x l =>
      intRes .n64 false (x.dword i.a l + x.int (if i.m.n32 then .n32 else .i32) i.b l * 2 ^ i.m.sh.val + x.int .i32 i.c l)⟩
  | .sethi20 i => some ⟨i.g, some (.s i.sd), none, [], false, fun _ _ => intRes .n64 false (i.imm.toInt * 4096)⟩
  | .sethi20Pc i => some ⟨i.g, some (.s i.sd), none, [], false, fun _ _ => intRes .n64 false (pc.toNat + i.imm.toInt * 4096)⟩
  | .idot4 i => some ⟨i.g, some i.d, none, [(i.a, false), (i.b, false), (i.c, false)], false, fun x l =>
      let e (j : Nat) : Int := byteOf i.m.ua (x.word i.a l) j * byteOf i.m.ub (x.word i.b l) j
      intRes .i32 i.m.sat (x.int .i32 i.c l + (e 0 + e 1 + e 2 + e 3))⟩
  | .idot2 i => some ⟨i.g, some i.d, none, [(i.a, false), (i.b, false), (i.c, false)], false, fun x l =>
      let e (j : Nat) : Int := halfOf i.m.ua (x.word i.a l) j * byteOf i.m.ub (x.word i.b l) (2 * i.m.hi.toNat + j)
      intRes .i32 i.m.sat (x.int .i32 i.c l + (e 0 + e 1))⟩
  | .tacc i => some ⟨i.g, some i.d, none, [(i.a, false), (i.b, false), (i.c, false)], false, fun x l =>
      let e (j : Nat) : Int := (byteOf false (x.word i.b l) j).sign * byteOf i.m.ua (x.word i.a l) j
      intRes .i32 i.m.sat (x.int .i32 i.c l + (e 0 + e 1 + e 2 + e 3))⟩
  | _ => none

/-- The bitwise instructions and the moves, bit by bit (R98, R104, R106). -/
def bitRow : Instr → Option Row
  | .and i => some (two i.g i.d i.a i.b i.m fun a b => a && b)
  | .or i => some (two i.g i.d i.a i.b i.m fun a b => a || b)
  | .xor i => some (two i.g i.d i.a i.b i.m fun a b => a != b)
  | .andn i => some (two i.g i.d i.a i.b i.m fun a b => a && !b)
  | .not i => some ⟨i.g, some i.d, none, [(i.a, wide i.m)], wide i.m, fun x l =>
      bitRes i.m fun j => !(x.code i.a i.m.width l).testBit j⟩
  | .mov i => some ⟨i.g, some i.d, none, [(i.a, wide i.m)], wide i.m, fun x l =>
      bitRes i.m fun j => (x.code i.a i.m.width l).testBit j⟩
  | .sel i => some ⟨i.g, some i.d, none, [(i.a, wide i.ty), (i.b, wide i.ty)], wide i.ty, fun x l =>
      bitRes i.ty fun j => (if lane (x.r.pget i.pc) l then x.code i.a i.ty.width l else x.code i.b i.ty.width l).testBit j⟩
  | .brev i => some ⟨i.g, some i.d, none, [(i.a, wide i.m)], wide i.m, fun x l =>
      bitRes i.m fun j => (x.code i.a i.m.width l).testBit (i.m.width - 1 - j)⟩
  | .bfn i =>
    let t : Ty := match i.d with
      | .s _ => .n64
      | _ => .n32
    some ⟨i.g, some i.d, none, [(i.a, wide t), (i.b, wide t), (i.c, wide t)], false, fun x l =>
      let b (a : Src) (j : Nat) : Nat := ((x.code a t.width l).testBit j).toNat
      bitRes t fun j => i.m.getLsbD (b i.a j + 2 * b i.b j + 4 * b i.c j)⟩
  | _ => none
where
  two (g : Guard) (d : Dst) (a b : Src) (t : Ty) (f : Bool → Bool → Bool) : Row :=
    ⟨g, some d, none, [(a, wide t), (b, wide t)], wide t, fun x l =>
      bitRes t fun j => f ((x.code a t.width l).testBit j) ((x.code b t.width l).testBit j)⟩

/-- The shifts and the bit fields (R99, R100): n is the whole 32-bit count. -/
def shiftRow : Instr → Option Row
  | .shl i => some (by_ i fun a n => intRes i.m false (a * 2 ^ n))
  | .shr i => some (by_ i fun a n => intRes i.m false (a / 2 ^ n))
  | .shrA i => some ⟨i.g, some i.d, none, [(i.a, wide i.m), (i.b, false)], wide i.m, fun x l =>
      bitRes i.m fun j => (x.code i.a i.m.width l).testBit (min (j + x.word i.b l) (i.m.width - 1))⟩
  | .rot i => some (by_ i fun a n => bitRes i.m fun j => a.testBit ((j + i.m.width - n % i.m.width) % i.m.width))
  | .shf i => some ⟨i.g, some i.d, none, [(i.a, wide i.m.ty), (i.b, wide i.m.ty), (i.c, false)], wide i.m.ty, fun x l =>
      let w := i.m.ty.width
      let ba := x.code i.b w l * 2 ^ w + x.code i.a w l
      let n := x.word i.c l % w
      intRes i.m.ty false (if i.m.l then ba * 2 ^ n / 2 ^ w else ba / 2 ^ n : Nat)⟩
  | .bfx i => some (by_ i fun a c =>
      let s := c % 256
      let n := min (c / 256 % 256) i.m.width
      let top : Bool := i.m.signed
      bitRes i.m fun j =>
        let k := s + min j (n - 1)
        if n = 0 then false
        else if j < n ∨ top = true then (if k < i.m.width then a.testBit k else top && a.testBit (i.m.width - 1))
        else false)
  | .bfi i => some ⟨i.g, some i.d, none, [(i.a, wide i.m), (i.b, wide i.m), (i.c, false)], wide i.m, fun x l =>
      let c := x.word i.c l
      let s := c % 256
      let n := min (c / 256 % 256) i.m.width
      bitRes i.m fun j => if s ≤ j ∧ j < s + n then (x.code i.a i.m.width l).testBit (j - s)
        else (x.code i.b i.m.width l).testBit j⟩
  | _ => none
where
  by_ (i : Op2 Ty) (f : Nat → Nat → LaneRes) : Row :=
    ⟨i.g, some i.d, none, [(i.a, wide i.m), (i.b, false)], wide i.m, fun x l => f (x.code i.a i.m.width l) (x.word i.b l)⟩

/-- The counts and bsel (R101, R102): one 32-bit word. -/
def countRow : Instr → Option Row
  | .popc i => some (by_ i fun w a => ((List.range w).filter fun j => a.testBit j).length)
  | .clz i => some (by_ i fun w a => ((List.range w).takeWhile fun j => !a.testBit (w - 1 - j)).length)
  | .ctz i => some (by_ i fun w a => ((List.range w).takeWhile fun j => !a.testBit j).length)
  | .bsel i => some ⟨i.g, some i.d, none, [(i.a, false), (i.b, false), (i.c, false)], false, fun x l =>
      bitRes .i32 fun k =>
        let f := x.word i.c l / 2 ^ (8 * (k / 8)) % 256
        let byte := (x.word i.a l + 2 ^ 32 * x.word i.b l) / 2 ^ (8 * (f % 8)) % 256
        match f / 8 % 4 with
        | 0 => byte.testBit (k % 8)
        | 1 => false
        | 2 => byte.testBit 7
        | _ => true⟩
  | _ => none
where
  by_ (i : Op1 Ty) (f : Nat → Nat → Nat) : Row :=
    ⟨i.g, some i.d, none, [(i.a, wide i.m)], wide i.m, fun x l => typed .n32 (f i.m.width (x.code i.a i.m.width l))⟩

/-- Comparisons, predicate functions and moves between predicates and words (R103, R105, R107). -/
def predRow : Instr → Option Row
  | .setp i => some ⟨i.g, none, some i.pd, [(i.a, wide i.ty), (i.b, wide i.ty)], wide i.ty, fun x l =>
      let a := x.int i.ty i.a l
      let b := x.int i.ty i.b l
      let q := lane (x.r.pget i.pc) l
      let r : Bool := match i.cc with
        | .eq => a = b
        | .ne => a ≠ b
        | .lt => a < b
        | .le => a ≤ b
        | .gt => a > b
        | .ge => a ≥ b
      bit (match i.comb with
        | .none => r
        | .and => r && q
        | .or => r || q
        | .xor => r ^^ q)⟩
  | .pfn i => some ⟨i.g, none, some i.pd, [], false, fun x l =>
      let q (p : Fin 8) : Nat := (lane (x.r.pget p) l).toNat
      bit (i.lut.getLsbD (q i.pa + 2 * q i.pb + 4 * q i.pc))⟩
  | .movp i => some ⟨i.g, some i.d, none, [], false, fun x _ => typed .n32 (x.r.pget i.pa).toNat⟩
  | .movpTo i => some ⟨i.g, none, some i.pd, [(i.a, false)], false, fun x l => bit ((x.word i.a l).testBit l)⟩
  | _ => none
where
  bit (b : Bool) : LaneRes := ⟨[], 0, b, 0⟩

/-- What an instruction of a table does when its window operand, if it names one, can be read: it completes, and leaves
what `VecDone` says. -/
def Completes (i : Instr) (q : Row) (s : State) (sl : Slot) (w : Warp) (r : Regs) (x : Nat) : Prop :=
  let act := active r sl.grp q.g
  ∃ t, exec i s = .next t ∧ VecDone s t sl w r act q.d q.pd q.multi (q.res ⟨r, x, act, s.opSeq⟩)

/-- Every instruction of a table completes so, whatever its operands. -/
def RowsComplete (row : DWord → Instr → Option Row) : Prop :=
  ∀ (s : State) (sl : Slot) (w : Warp) (r : Regs) (i : Instr) (q : Row) (x : Nat),
    s.Chosen sl w r → row sl.pc i = some q → s.Reads sl w (active r sl.grp q.g) (winOf q.srcs) x →
    Completes i q s sl w r x

/-! ### Floating instructions, expansions and conversions: the tables of results (R111 to R142) -/

/-- A floating result that takes each element of its operands alone (R69, R112): one word, or two halves of one. `c k` is
the code of source k. -/
def floRow (g : Guard) (d : Dst) (ft : FT) (srcs : List Src) (multi : Bool) (f : (Nat → Nat) → FRes) : Row :=
  ⟨g, some d, none, srcs.map fun a => (a, false), multi, fun x l =>
    let one : FRes := f fun k => x.flt (fmtOf ft) (srcs.getD k (.int 16)) l
    let low : FRes := f fun k => (x.pair (fmtOf ft) (srcs.getD k (.int 16)) l).1
    let high : FRes := f fun k => (x.pair (fmtOf ft) (srcs.getD k (.int 16)) l).2
    match ft with
    | .f32 | .f16 | .bf16 => ⟨[BitVec.ofNat 32 one.code], BitVec.ofNat 64 one.code, false, one.flags⟩
    | .f16x2 | .bf16x2 => ⟨[BitVec.ofNat 32 (low.code + 2 ^ 16 * high.code)], 0, false, low.flags ||| high.flags⟩⟩

/-- One, two and three operands of the instruction's format. -/
def flo1Row (i : Op1 FM) (multi : Bool) (f : Fmt → FV → FRes) : Row :=
  floRow i.g i.d i.m.ft [i.a] multi fun c => f (fmtOf i.m.ft) ((fmtOf i.m.ft).decode (c 0))
def flo2Row (i : Op2 FM) (multi : Bool) (f : Fmt → Nat → Nat → FRes) : Row :=
  floRow i.g i.d i.m.ft [i.a, i.b] multi fun c => f (fmtOf i.m.ft) (c 0) (c 1)
def flo3Row (i : Op3 FM) (f : Fmt → Nat → Nat → Nat → FRes) : Row :=
  floRow i.g i.d i.m.ft [i.a, i.b, i.c] false fun c => f (fmtOf i.m.ft) (c 0) (c 1) (c 2)

/-- A sum, a difference or a product as R112 has it: a NaN of the inputs (R74), else the exact value rounded once. -/
def arith (f : Fmt) (md : RM) (a b : Nat) (exact : FV → FV → Option FV) : FRes :=
  match f.nanResult [f.decode a, f.decode b] with
  | some n => n
  | none => match exact (f.decode a) (f.decode b) with
    | some v => f.deliver md v
    | none => ⟨f.nanCode, NV⟩

/-- The floating instructions of R112 to R120. -/
def floatRow : Instr → Option Row
  | .fadd i => some (flo2Row i false fun f a b => arith f i.m.rm a b (FV.add i.m.rm))
  | .fsub i => some (flo2Row i false fun f a b => arith f i.m.rm a b fun x y => FV.add i.m.rm x y.negate)
  | .fmul i => some (flo2Row i false fun f a b => arith f i.m.rm a b FV.mul)
  | .fma i => some (flo3Row i (fmaF i.m.rm i.m.f5 i.m.f6))
  | .fmin i => some (flo2Row i false (minmaxF false i.m.f5))
  | .fmax i => some (flo2Row i false (minmaxF true i.m.f5))
  | .fclamp i => some (flo3Row i fun f a lo hi =>
      let x := minmaxF true i.m.f5 f a lo
      let y := minmaxF false i.m.f5 f x.code hi
      ⟨y.code, x.flags ||| y.flags⟩)
  | .frnd i => some (flo1Row i false (rndF i.m.rm i.m.f5))
  | .fexpo i => some (flo1Row i false expoF)
  | .fmant i => some (flo1Row i false mantF)
  | .fdiv i => some (flo2Row i true fun f a b => divF i.m.rm f (f.decode a) (f.decode b))
  | .fsqrt i => some (flo1Row i true (sqrtF i.m.rm))
  | .frcp i => some (flo1Row i true fun f a => divF i.m.rm f (.fin 1 0) a)
  | .frsq i => some (flo1Row i true rsqF)
  | .fex2 i => some (flo1Row i true ex2F)
  | .flg2 i => some (flo1Row i true lg2F)
  | .fsin i => some (flo1Row i true sinF)
  | .fcos i => some (flo1Row i true cosF)
  | .ftanh i => some (flo1Row i true tanhF)
  | .fscale i => some { flo1Row ⟨i.g, i.d, i.a, i.m⟩ false (fun _ _ => default) with
      srcs := [(i.a, false), (i.b, false)]
      res := fun x l => (flo1Row ⟨i.g, i.d, i.a, i.m⟩ false (scaleF i.m.rm (x.int .i32 i.b l))).res x l }
  | .fdot2 i => some ⟨i.g, some i.d, none, [(i.a, false), (i.b, false), (i.c, false)], false, fun x l =>
      let z := dot2F i.m.rm (fmtOf i.m.ft) (x.pair (fmtOf i.m.ft) i.a l) (x.pair (fmtOf i.m.ft) i.b l) (x.flt f32 i.c l)
      ⟨[BitVec.ofNat 32 z.code], BitVec.ofNat 64 z.code, false, z.flags⟩⟩
  | .fsetp i => some ⟨i.g, none, some i.pd, [(i.a, false), (i.b, false)], false, fun x l =>
      let z := compareF i.cc ((fmtOf i.ft).decode (x.flt (fmtOf i.ft) i.a l)) ((fmtOf i.ft).decode (x.flt (fmtOf i.ft) i.b l))
      ⟨[], 0, combine i.comb z.1 (lane (x.r.pget i.pc) l), z.2⟩⟩
  | .fclass i => some ⟨i.g, none, some i.pd, [(i.a, false), (i.mask, false)], false, fun x l =>
      ⟨[], 0, (x.word i.mask l).testBit (classOf (fmtOf i.ft) ((fmtOf i.ft).decode (x.flt (fmtOf i.ft) i.a l))), 0⟩⟩
  | _ => none

/-- The error-free transforms and the expansions of R123 to R132. -/
def exactRow : Instr → Option Row
  | .faddE i => some ⟨i.g, some i.d, none, [(i.a, false), (i.b, false)], false, fun x l =>
      let f := fmtX i.m
      let a := x.flt f i.a l
      let b := x.flt f i.b l
      transform f (arith f .rn a b (FV.add .rn)) (FV.add .rn (f.decode a) (f.decode b)) 1⟩
  | .fmulE i => some ⟨i.g, some i.d, none, [(i.a, false), (i.b, false)], false, fun x l =>
      let f := fmtX i.m
      let a := x.flt f i.a l
      let b := x.flt f i.b l
      transform f (arith f .rn a b FV.mul) (FV.mul (f.decode a) (f.decode b)) 1⟩
  | .fmaE i => some ⟨i.g, some i.d, none, [(i.a, false), (i.b, false), (i.c, false)], true, fun x l =>
      let f := fmtX i.m
      let a := x.flt f i.a l
      let b := x.flt f i.b l
      let c := x.flt f i.c l
      transform f (fmaF .rn false false f a b c)
        ((FV.mul (f.decode a) (f.decode b)).bind fun p => FV.add .rn p (f.decode c)) 2⟩
  | .xren i => some ⟨i.g, some (.v i.d), none, [], true, fun x l =>
      let a := readExp (fmtX i.t) .rn (x.comps (fmtX i.t) i.a (i.na + 1) l)
      deliverExp (fmtX i.t) (List.replicate (i.na + 1) .rn) a.flags (some a.v)⟩
  | .xcmpr i => some ⟨i.g, some (.v i.d), none, [], true, fun x l =>
      let a := readExp (fmtX i.t) (if i.nd = 0 then i.rm else .rn) (x.comps (fmtX i.t) i.a (i.na + 1) l)
      deliverExp (fmtX i.t) (List.replicate i.nd .rn ++ [i.rm]) a.flags (some a.v)⟩
  | .xcmp i => some ⟨i.g, none, some i.pd, [], true, fun x l =>
      let f := fmtX i.t
      let z := compareExp i.cc (readExp f .rn (x.comps f i.a (i.na + 1) l)) (readExp f .rn (x.comps f i.b (i.na + 1) l))
      ⟨[], 0, z.1, z.2⟩⟩
  | .xadd i => some ⟨i.g, some (.v i.d), none, [(i.b, false)], true, fun x l =>
      let f := fmtX i.t
      let a := readExp f .rn (x.comps f i.a (i.na + 1) l)
      let b := match i.nb.val, i.b with
        | n + 1, .v r => readExp f .rn (x.comps f r (n + 2) l)
        | _, c => readExp f .rn [f.decode (x.flt f c l)]
      deliverExp f (List.replicate (i.na + 1) .rn) (a.flags ||| b.flags) (expResult a b (FV.add .rn))⟩
  | .xmulW i => some ⟨i.g, some (.v i.d), none, [(i.b, false)], true, fun x l =>
      let f := fmtX i.t
      let a := readExp f .rn (x.comps f i.a (i.na + 1) l)
      let b := readExp f .rn [f.decode (x.flt f i.b l)]
      deliverExp f (List.replicate (i.na + 1) .rn) (a.flags ||| b.flags) (expResult a b FV.mul)⟩
  | .cvtX2 (.toX2 g d a) => some ⟨g, some (.v d), none, [(a, true)], true, fun x l => toX2 (x.dword a l)⟩
  | .cvtX2 (.toF64 g d a md) => some ⟨g, some (.v d), none, [], true, fun x l => fromX2 md (x.comps f32 a 2 l)⟩
  | _ => none

/-- The bytes of a narrow result beside the half of the destination that is kept (R135, R136, R140). -/
def keepRes (x : Rd) (d : Dst) (l : Nat) (a b : FRes) (top : Bool) : LaneRes :=
  let old := x.kept d l
  let two := a.code + 2 ^ 8 * b.code
  let word := if top then old % 2 ^ 16 + 2 ^ 16 * two else old / 2 ^ 16 * 2 ^ 16 + two
  ⟨[BitVec.ofNat 32 word], BitVec.ofNat 64 (word % 2 ^ 32), false, a.flags ||| b.flags⟩

/-- One 32-bit word. -/
def wordRes (x : Nat) (fl : Flags) : LaneRes := ⟨[BitVec.ofNat 32 x], BitVec.ofNat 64 (x % 2 ^ 32), false, fl⟩

/-- A floating result of a conversion: a word, or a pair for FP64. -/
def convRes (pair : Bool) (z : FRes) : LaneRes :=
  if pair then ⟨[BitVec.ofNat 32 z.code, BitVec.ofNat 32 (z.code / 2 ^ 32)], BitVec.ofNat 64 z.code, false, z.flags⟩
  else ⟨[BitVec.ofNat 32 z.code], BitVec.ofNat 64 z.code, false, z.flags⟩

/-- The conversions of R133 to R142. -/
def convertRow : Instr → Option Row
  | .cvt i => some ⟨i.g, some i.d, none, [(i.a, i.m.st.is64)], i.m.st.is64 || i.m.dt.is64, fun x l =>
      let v := (ctFmt i.m.st).decode (if i.m.st.is64 then x.dword i.a l else x.flt (ctFmt i.m.st) i.a l)
      match ctTy i.m.st, ctTy i.m.dt with
      | some t, some u => intRes u i.m.sat (x.int t i.a l)
      | some t, none =>
        let n := x.int t i.a l
        convRes i.m.dt.is64 (if n = 0 then ⟨0, 0⟩ else (ctFmt i.m.dt).round i.m.rm n 0)
      | none, some u => toInt u i.m.rm v
      | none, none => convRes i.m.dt.is64 (reformat (ctFmt i.m.st) (ctFmt i.m.dt) i.m.rm v)⟩
  | .cvtN i => some (match i.dir with
    | .narrow b md ovf hi => ⟨i.g, some i.d, none, [(i.a, false), (b, false)], false, fun x l =>
        let e (c : Src) : FRes := to8 i.e5m2 md ovf ((fmtX i.wf).decode (x.flt (fmtX i.wf) c l))
        keepRes x i.d l (e i.a) (e b) hi⟩
    | .widen k => ⟨i.g, some i.d, none, [(i.a, false)], false, fun x l =>
        convRes false (reformat (narrow8 i.e5m2) (fmtX i.wf) .rn
          ((narrow8 i.e5m2).decode (x.word i.a l / 2 ^ (8 * k.val) % 2 ^ 8)))⟩)
  | .cvtSr i => some (match i.dest with
    | .byte e5 b ovf hi => ⟨i.g, some i.d, none, [(i.a, false), (b, false), (i.c, false)], false, fun x l =>
        let e (c : Src) (z : Nat) : FRes := srTo (narrow8 e5) (some (e5, ovf)) (f32.decode (x.flt f32 c l)) z
        keepRes x i.d l (e i.a (x.word i.c l % 2 ^ 16)) (e b (x.word i.c l / 2 ^ 16 % 2 ^ 16)) hi⟩
    | .f16 => ⟨i.g, some i.d, none, [(i.a, false), (i.c, false)], false, fun x l =>
        convRes false (srTo f16 none (f32.decode (x.flt f32 i.a l)) (x.word i.c l % 2 ^ 16))⟩
    | .bf16 => ⟨i.g, some i.d, none, [(i.a, false), (i.c, false)], false, fun x l =>
        convRes false (srTo bf16 none (f32.decode (x.flt f32 i.a l)) (x.word i.c l % 2 ^ 16))⟩)
  | .cvtBlkDecode i => some ⟨i.g, some (.v i.d), none, [(i.a, false)], true, fun x l =>
      let k := elemBits i.nf
      let e (j : Nat) : FRes :=
        f32.deliver .rn (blockValue i.nf (x.scaleOf i.sc i.nf i.sel l).1 (x.scaleOf i.sc i.nf i.sel l).2
          (x.word i.a l / 2 ^ (k * j) % 2 ^ k))
      ⟨(List.range (32 / k)).map fun j => BitVec.ofNat 32 (e j).code, 0, false,
        (List.range (32 / k)).foldl (fun a j => a ||| (e j).flags) 0⟩⟩
  | .cvtBlkEncode i =>
    if i.auto then none
    else some ⟨i.g, some i.d, none, [], true, fun x l =>
      let k := elemBits i.nf
      let e (j : Nat) : FRes :=
        encodeElem i.nf i.rm i.ovf (x.scaleOf i.sc i.nf i.sel l).1 (x.scaleOf i.sc i.nf i.sel l).2
          (f32.decode (x.r.vget (i.a + j) l).toNat)
      wordRes ((List.range (32 / k)).foldl (fun a j => a + (e j).code * 2 ^ (k * j)) 0)
        ((List.range (32 / k)).foldl (fun a j => a ||| (e j).flags) 0)⟩
  | .pack i => some ⟨i.g, some i.d, none, [(i.a, false), (i.b, false)], false, fun x l =>
      let half (f : Fmt) (md : RM) (a : Src) : FRes := reformat f32 f md (f32.decode (x.flt f32 a l))
      let part (t u : Ty) (sat : Bool) (a : Src) : FRes := ⟨((fit u sat (x.int t a l)) % 2 ^ u.width).toNat, 0⟩
      let both (a b : FRes) : LaneRes := ⟨[BitVec.ofNat 32 (a.code + 2 ^ 16 * b.code)], 0, false, a.flags ||| b.flags⟩
      let ints (a b : FRes) : LaneRes := wordRes (a.code + 2 ^ 16 * b.code) 0
      match i.m with
      | .f16x2 md => both (half f16 md i.a) (half f16 md i.b)
      | .bf16x2 md => both (half bf16 md i.a) (half bf16 md i.b)
      | .i16x2 sat => ints (part .i32 .i16 sat i.a) (part .i32 .i16 sat i.b)
      | .n16x2 sat => ints (part .n32 .n16 sat i.a) (part .n32 .n16 sat i.b)
      | .i8 sat hi => keepRes x i.d l (part .i32 .i8 sat i.a) (part .i32 .i8 sat i.b) hi
      | .n8 sat hi => keepRes x i.d l (part .n32 .n8 sat i.a) (part .n32 .n8 sat i.b) hi⟩
  | .unpack i => some ⟨i.g, some i.d, none, [(i.a, false)], false, fun x l =>
      let half (f : Fmt) (k : Nat) : LaneRes :=
        convRes false (reformat f f32 .rn (f.decode (if k = 0 then (x.pair f i.a l).1 else (x.pair f i.a l).2)))
      match i.m with
      | .f16 k => half f16 k
      | .bf16 k => half bf16 k
      | .i16 k => typed .n32 ((halfOf false (x.word i.a l) k) % 2 ^ 32)
      | .n16 k => typed .n32 (halfOf true (x.word i.a l) k)
      | .i8 k => typed .n32 ((byteOf false (x.word i.a l) k) % 2 ^ 32)
      | .n8 k => typed .n32 (byteOf true (x.word i.a l) k)⟩
  | .unpkT3 i => some ⟨i.g, some (.v i.d), i.pd, [(i.a, false)], true, fun x l =>
      let c (j : Nat) : Nat := x.word i.a l / 2 ^ (8 * j) % 2 ^ 8
      let trit (n : Nat) : Nat := if 243 ≤ c (n / 5) then 0 else (c (n / 5) / 3 ^ (n % 5) % 3 + 255) % 256
      ⟨(List.range 5).map fun k => BitVec.ofNat 32
          (trit (4 * k) + 2 ^ 8 * trit (4 * k + 1) + 2 ^ 16 * trit (4 * k + 2) + 2 ^ 24 * trit (4 * k + 3)), 0,
        decide (243 ≤ c 0 ∨ 243 ≤ c 1 ∨ 243 ≤ c 2 ∨ 243 ≤ c 3), 0⟩⟩
  | _ => none

/-- Lane exchange, votes and matches (R299 to R304). -/
def laneRow : Instr → Option Row
  | .xlane i => some ⟨i.g, some (.v i.d), i.pd, [(i.b, false)], true, fun x l =>
      let z := xlaneSource i.mode i.seg l (x.word i.b l)
      { wordRes (x.r.vget i.a z.1).toNat 0 with p := z.2 && lane x.act z.1 }⟩
  | .nbr i => some ⟨i.g, some (.v i.d), i.pd, [(i.n, false)], true, fun x l =>
      let z := neighbour x.act i.above l (x.word i.n l)
      { wordRes (x.r.vget i.a z.1).toNat 0 with p := z.2 }⟩
  | .lvote i =>
    let q (x : Rd) : Mask := x.act &&& (if i.na then ~~~(x.r.pget i.pa) else x.r.pget i.pa)
    let into (pd : Fin 8) (f : Rd → Bool) : Row := ⟨i.g, none, some pd, [], false, fun x _ => ⟨[], 0, f x, 0⟩⟩
    some (match i.op with
    | .and pd => into pd fun x => q x = x.act
    | .or pd => into pd fun x => q x ≠ 0
    | .same pd => into pd fun x => q x = x.act ∨ q x = 0
    | .xor pd => into pd fun x => ((List.range 32).filter (lane (q x))).length % 2 = 1
    | .maskV d => ⟨i.g, some (.v d), none, [], false, fun x _ => typed .n32 (q x).toNat⟩
    | .maskS d => ⟨i.g, some (.s d), none, [], false, fun x _ => typed .n32 (q x).toNat⟩)
  | .mpopc i => some ⟨i.g, some i.d, none, [], false, fun x l =>
      let q : Mask := x.act &&& (if i.na then ~~~(x.r.pget i.pa) else x.r.pget i.pa)
      typed .n32 ((List.range 32).filter fun k => lane q k && (match i.mode with
        | .excl => decide (k < l)
        | .incl => decide (k ≤ l)
        | .tot => true)).length⟩
  | .lmatch i =>
    let same (x : Rd) (l k : Nat) : Bool := lane x.act k &&
      (if i.w64 then x.r.vpair i.a k == x.r.vpair i.a l else x.r.vget i.a k == x.r.vget i.a l)
    let pd : Option (Fin 8) := match i.mode with
      | .uni p => p
      | _ => none
    some ⟨i.g, some (.v i.d), pd, [], true, fun x l => match i.mode with
      | .grp => typed .n32 (ofBits 32 (same x l))
      | .uni _ =>
        let all := (List.range 32).all fun k => same x l k == lane x.act k
        { typed .n32 (if all then x.act.toNat else 0) with p := all }
      | .lead => typed .n32 ((((List.range 32).find? (same x l)).getD 0 : Nat))⟩
  | _ => none

/-- Every instruction of a table completes so when no flag it raises is enabled for a trap (R370): a multi-clock
instruction's flags count when its result is written, and a proof warp takes its leader's traps (R405). -/
def QuietRowsComplete (row : Instr → Option Row) : Prop :=
  ∀ (s : State) (sl : Slot) (w : Warp) (r : Regs) (i : Instr) (q : Row) (x : Nat),
    s.Chosen sl w r → row i = some q → s.Reads sl w (active r sl.grp q.g) (winOf q.srcs) x →
    (q.multi = false → sl.proof = false →
      flagsOf (active r sl.grp q.g) q.d (q.res ⟨r, x, active r sl.grp q.g, s.opSeq⟩) &&& r.tmask = 0) →
    Completes i q s sl w r x

/-! ### Instructions that change registers only (R21, R34) -/

/-- The instruction issued: of the state only the warp and what translation and numbering keep may differ, of the warp
only its registers, and these are now `r'`. -/
structure RegsDone (s t : State) (sl : Slot) (w : Warp) (r' : Regs) : Prop where
  outside : s.SameOutside t sl.w
  warp : ∃ w', t.warp sl.w = some w' ∧ w'.side sl.proof = some r' ∧ w.SameButRegs w' sl.proof ∧ w'.results = w.results

/-- The instruction issued and its group went on; of the registers only the PCs and `sr.gseq` changed. -/
structure Passed (r r' : Regs) (sl : Slot) : Prop where
  pcs : r.Advanced r' sl
  rest : r' = { r with pc := r'.pc, gseq := r'.gseq }

/-- An instruction with no effect but that it issued. -/
def OnlyIssues (i : Instr) (s : State) (sl : Slot) (w : Warp) (r : Regs) : Prop :=
  ∃ t r', exec i s = .next t ∧ RegsDone s t sl w r' ∧ Passed r r' sl

/-! ### Memory instructions at issue (R205 to R224) -/

/-- A memory instruction that goes through the checks of R208, with what it asks for. -/
def memReq : Instr → Option MemReq
  | .ld i => some (loadReq .global i)
  | .lds i => some (loadReq .block i)
  | .ldgs i => some (loadReq .gang i)
  | .ldl i => some (loadReq .priv i)
  | .ldk i => some { loadReq (.window i.win) ⟨i.g, i.d, .zero, i.idx, i.sc, false, i.w, .plain, i.x⟩ with
      kind := .kload i.d i.w, scope := .warp, cp := 0
      ea := fun x l => x.index false i.idx l * (2 ^ i.sc.val : Nat) + i.x.off }
  | .st i => some (storeReq .global i)
  | .sts i => some (storeReq .block i)
  | .stgs i => some (storeReq .gang i)
  | .stl i => some (storeReq .priv i)
  | .atom i => some (atomReq .global i)
  | .atoms i => some (atomReq .block i)
  | .red i => some (redReq .global i)
  | .reds i => some (redReq .block i)
  | .cas i => some (casReq .global i)
  | .cass i => some (casReq .block i)
  | .jsave i => some (jmemReq i .store .write kindStore)
  | .signal i => some
      { g := i.g, kind := .signal, sp := .global, size := 8, need := .readWrite, no := kindAtomic, ord := .rel
        scope := i.scope, sbc := i.sbc.val, cp := 0, uniform := true
        ea := fun x _ => ((x.r.sget i.ctr).toNat : Int), data := fun x _ => x.dword i.value 0, data2 := fun _ _ => 0 }
  | _ => none

/-- The request of an instruction that has a check of its own before those of R208, with that check passed: jload on a
set nobody waits on (R298), the barrier operations with a count of 1 to 2^24 − 1 (R228, R229). -/
def lateReq (w : Warp) (r : Regs) (act : Mask) : Instr → Option (Guard × Prop × MemReq)
  | .jload i => some (i.g, (r.jget i.j).arrived = 0, jmemReq i (.jload i.j) .read kindLoad)
  | .barInit i =>
    let n := (⟨r, 0, act, 0⟩ : Rd).word i.count 0
    some (i.g, w.levels = [] ∧ 1 ≤ n ∧ n < 2 ^ 24,
      { g := i.g, kind := .store, sp := if i.scratch then .block else .global, size := 16, need := .write, no := kindStore
        ord := .plain, scope := .warp, sbc := 0, cp := 0, uniform := true
        ea := fun y _ => (((y.r.sget i.obj).toNat % (if i.scratch then 2 ^ 32 else 2 ^ 64) : Nat) : Int)
        data := fun _ _ => n + 2 ^ 32 * n, data2 := fun _ _ => 0 })
  | .barArrive i =>
    let x : Rd := ⟨r, 0, act, 0⟩
    let l := Rd.once r act
    some (i.g, 1 ≤ x.word i.count l ∧ x.word i.count l < 2 ^ 24,
      { g := i.g, kind := .arrive (x.word i.count l) (BitVec.ofNat 64 (x.dword i.bytes l))
        sp := if i.scratch then .block else .global, size := 16, need := .readWrite, no := kindAtomic, ord := .rel
        scope := effectiveScope (if i.scratch then .block else .global) i.scope, sbc := i.sbc, cp := 0, uniform := true
        ea := fun y _ => (((y.r.sget i.obj).toNat % (if i.scratch then 2 ^ 32 else 2 ^ 64) : Nat) : Int)
        data := fun _ _ => x.word i.count l, data2 := fun _ _ => x.dword i.bytes l })
  | _ => none

/-- The addresses of a request's lanes. -/
def addresses (q : MemReq) (r : Regs) (act : Mask) : List (Nat × Int) :=
  (accessLanes act q.uniform).map fun l => (l, q.ea ⟨r, 0, act, 0⟩ l)

/-- The checks of R208 for a request, and where its parts lie. -/
def checks (s : State) (sl : Slot) (w : Warp) (r : Regs) (act : Mask) (q : MemReq) : Except MemStop (List Part) × State :=
  s.taken.access sl.w w q.sp q.size q.need q.no (addresses q r act)

/-- A leading warp's request that its proof warp, if it has one, does not hold up. -/
def Alone (sl : Slot) (w : Warp) (k : OpKind) : Prop := sl.proof = false ∧ (w.proof = none ∨ k.compared = false)

/-- No byte that the galley forwards to a request's parts is poisoned (R374). -/
def ForwardsClean (w : Warp) (q : MemReq) (r : Regs) (act : Mask) (parts : List Part) : Prop :=
  ∀ p ∈ q.pieces ⟨r, 0, act, 0⟩ w parts, p.forwardsBad w q.sp = false

/-- The operation that a request puts in flight. -/
structure InFlightOp (op : MemOp) (q : MemReq) (sl : Slot) (w : Warp) (r : Regs) (act : Mask) (parts : List Part) : Prop where
  kind : op.kind = q.kind
  order : op.ord = q.ord ∧ op.scope = effectiveScope q.sp q.scope
  names : op.sbc = q.sbc ∧ op.cp = q.cp ∧ op.pc = sl.pc ∧ op.gseq = r.gseq.toNat ∧ op.lanes = act
  parts : op.pieces.map (fun p => { p with loc := 0, seq := 0 }) = q.pieces ⟨r, 0, act, 0⟩ w parts

/-- A request with an active lane, whose every check passes, is in flight; nothing in memory changes. -/
def GoesInFlight (i : Instr) (q : MemReq) (s : State) (sl : Slot) (w : Warp) (r : Regs) (act : Mask) (parts : List Part) :
    Prop :=
  ∃ t w' op before, exec i s = .next t ∧ s.SameOutside t sl.w ∧ t.warp sl.w = some w' ∧
    w' = { w with r := w'.r, proof := w'.proof, pend := w'.pend } ∧
    w'.pend = w.pend ++ before ++ [op] ∧ (q.ord ≠ .sc → before = []) ∧
    (q.ord = .sc → ∃ n, before = [fenceOp n .sc (effectiveScope q.sp q.scope) sl.pc r.gseq.toNat act w.levels.length]) ∧
    InFlightOp op q sl w r act parts ∧ r.Advanced w'.r sl ∧
    w'.r = { r with
      pc := w'.r.pc
      gseq := w'.r.gseq
      bankconf := r.bankconf + BitVec.ofNat 64 (s.bankConflicts sl.w w q.sp (addresses q r act)) }

/-- No region is open, or the request is a load, or a store into block scratch: these take effect at once (R235, R204). -/
def NotKept (w : Warp) (q : MemReq) : Prop :=
  w.levels = [] ∨ q.kind.isLoad = true ∨ (q.kind.isStore = true ∧ q.sp = .block)

/-! ### Memory instructions inside a region (R235, R397, R398) -/

/-- The work of an instruction is kept by its region: the warp's innermost level is changed by f, nothing is in flight for
it and nothing in memory changes. -/
def KeptByRegion (i : Instr) (s : State) (sl : Slot) (w : Warp) (r : Regs) (f : Level → Level → Prop) : Prop :=
  ∃ t w' l l' rest, exec i s = .next t ∧ s.SameOutside t sl.w ∧ t.warp sl.w = some w' ∧ w.levels = l :: rest ∧
    w'.levels = l' :: rest ∧ f l l' ∧ w' = { w with r := w'.r, proof := w'.proof, levels := w'.levels } ∧
    r.Advanced w'.r sl ∧ w'.r = { r with pc := w'.r.pc, gseq := w'.r.gseq, bankconf := w'.r.bankconf }

/-- The byte that a level holds for an address is that of the highest lane that stores it (R186, R397). -/
def HoldsBytes (l l' : Level) (gs : Bool) (pieces : List Piece) : Prop :=
  ∀ a : Nat, l'.heldByte (fun _ => true) gs (a / 64) (a % 64) =
    match pieces.reverse.find? fun p => decide (p.va.toNat ≤ a ∧ a < p.va.toNat + p.size) with
    | some p => some (BitVec.ofNat 8 (p.data / 2 ^ (8 * (a - p.va.toNat))))
    | none => l.heldByte (fun _ => true) gs (a / 64) (a % 64)

/-! ### The effect of accesses on memory and registers (R186 to R224) -/

/-- The place exists: a byte of HBM4, or a byte of a placed block's scratch. -/
def PlaceExists (s : State) (p : Place) : Prop :=
  match p with
  | .hbm _ => True
  | .scr g b _ => (s.scrBlock g b).isSome = true

/-- Memory after a part of `size` bytes of the number `x` has been stored at a place: those bytes, little-endian, and
every other byte as before (R2, R212). -/
def Stored (s t : State) (p : Place) (x size : Nat) : Prop :=
  (∀ i, i < size → t.byte (p.add i) = BitVec.ofNat 8 (x / 2 ^ (8 * i))) ∧
    ∀ q, (∀ i, i < size → q ≠ p.add i) → t.byte q = s.byte q

/-- No byte of memory changes. -/
def SameMemory (s t : State) : Prop := ∀ q, t.byte q = s.byte q

/-- The destination of an access after its last part: each live lane that made it holds the words of its value; a scalar holds
that of the lane that made the access, while a lane that issued it lives (R210, R294). No other lane and register changes. -/
def DestHolds (op : MemOp) (r r' : Regs) (d : Dst) (words : Nat → List Word) (scalar : Nat → DWord) : Prop :=
  match d with
  | .v k => r'.s = r.s ∧ ∀ j m, m < 32 → r'.vget j m =
      if (∃ p ∈ op.pieces, p.lane = m) ∧ lane r.live m = true ∧ k.val ≤ j then ((words (op.laneValue m))[j - k.val]?).getD (r.vget j m)
      else r.vget j m
  | .s k => r'.v = r.v ∧ ∀ j, r'.sget j = if j = k.val ∧ (op.lanes &&& r.live ≠ 0 ∨ ∃ p ∈ op.pieces, lane r.live p.lane = true) then
      (match op.pieces with
        | p :: _ => scalar (op.laneValue p.lane)
        | [] => r.sget j)
      else r.sget j
  | .b0 => True

/-- A load's value in its words: 8 and 16 bits extended by the width, wider ones word by word (R67, R211). -/
def loadedWords (w : MW) (x : Nat) : List Word :=
  match w with
  | .n8 => [BitVec.ofNat 32 (x % 2 ^ 8)]
  | .i8 => [(BitVec.ofNat 8 x).signExtend 32]
  | .n16 => [BitVec.ofNat 32 (x % 2 ^ 16)]
  | .i16 => [(BitVec.ofNat 16 x).signExtend 32]
  | .b32 | .i32 => [BitVec.ofNat 32 x]
  | .b64 => [BitVec.ofNat 32 x, BitVec.ofNat 32 (x / 2 ^ 32)]
  | .b128 => (List.range 4).map fun j => BitVec.ofNat 32 (x / 2 ^ (32 * j))
def loadedScalar (w : MW) (x : Nat) : DWord :=
  match w with
  | .n8 => BitVec.ofNat 64 (x % 2 ^ 8)
  | .i8 => (BitVec.ofNat 8 x).signExtend 64
  | .n16 => BitVec.ofNat 64 (x % 2 ^ 16)
  | .i16 => (BitVec.ofNat 16 x).signExtend 64
  | .b32 => BitVec.ofNat 64 (x % 2 ^ 32)
  | .i32 => (BitVec.ofNat 32 x).signExtend 64
  | .b64 | .b128 => BitVec.ofNat 64 x

/-- The first n words of a number. -/
def wordsOfNat (n x : Nat) : List Word := (List.range n).map fun j => BitVec.ofNat 32 (x / 2 ^ (32 * j))

/-- What an operation leaves in the registers when its last part has returned (R211, R219, R221, R223, R298): a lane's value is that
of its parts, the lowest address first. -/
def Delivered (op : MemOp) (r r' : Regs) : Prop :=
  match op.kind with
  | .load d w | .kload d w => r'.p = r.p ∧ r'.j = r.j ∧ DestHolds op r r' d (loadedWords w) (loadedScalar w)
  | .atom a (some d) => r'.p = r.p ∧ r'.j = r.j ∧ DestHolds op r r' d (wordsOfNat (if a.is64 then 2 else 1)) (BitVec.ofNat 64)
  | .cas w64 d => r'.p = r.p ∧ r'.j = r.j ∧ DestHolds op r r' (.v d) (wordsOfNat (if w64 then 2 else 1)) (fun _ => 0)
  | .catom _ (some pd) => r'.v = r.v ∧ r'.s = r.s ∧ r'.j = r.j ∧ ∀ j m, m < 32 → (lane (r'.pget j) m = true ↔
      if j = pd.val ∧ j ≠ 0 ∧ lane op.lanes m = true ∧ lane r.live m = true then ∃ p ∈ op.pieces, p.lane = m ∧ p.got = some 1
      else lane (r.pget j) m = true)
  | .jload j => r'.v = r.v ∧ r'.s = r.s ∧ r'.p = r.p ∧ ∀ p rest, op.pieces = p :: rest → ∀ k, r'.jget k =
      if k = j.val then (if op.laneValue p.lane / 2 ^ 64 % 2 = 1 then ⟨BitVec.ofNat 32 (op.laneValue p.lane) &&& r.live, 0, 0, true⟩
        else default)
      else r.jget k
  | _ => r'.v = r.v ∧ r'.s = r.s ∧ r'.p = r.p ∧ r'.j = r.j

/-- Part k of an operation has given the value v. -/
def gotPart (o : MemOp) (k v : Nat) : MemOp := o.setPiece k fun p => { p with done := true, got := some v }

/-- What becomes of an operation in flight when part k of it, of whichever lane, has given the value v: while another part is to be
performed the registers are as before and it waits with that value; with its last part it is over, and its values are in the
registers. -/
structure PartReturned (w w' : Warp) (o : MemOp) (k v : Nat) : Prop where
  waiting : (gotPart o k v).pieces.all Piece.done = false → w'.r = w.r ∧ ∃ o', w'.pend.find? (fun y => y.id == o.id) = some o' ∧
    o' = { o with pieces := o'.pieces } ∧
    o'.pieces.map (fun p => { p with loc := 0, seq := 0 }) = (gotPart o k v).pieces.map fun p => { p with loc := 0, seq := 0 }
  last : (gotPart o k v).pieces.all Piece.done = true → (∀ y ∈ w'.pend, y.id ≠ o.id) ∧ Delivered (gotPart o k v) w.r w'.r

/-- The operation was issued in the running handler, or outside any (R236, R376). -/
def IssuedHere (w : Warp) (o : MemOp) : Prop := ∀ f, w.r.frame = some f → f.gseq ≤ o.gseq

/-- What a part updates at its home (R220 to R223, R226, R229, R232): the places, the numbers stored and their sizes. -/
def updated (s : State) (k : OpKind) (p : Piece) : Option (List (Place × Nat × Nat)) :=
  let old := s.readLe p.place p.size
  match k with
  | .atom op _ => some [(p.place, aopApply op old p.data, p.size)]
  | .cas _ _ => some (if old = p.data then [(p.place, p.data2, p.size)] else [])
  | .signal => some [(p.place, (old + p.data) % 2 ^ 64, p.size)]
  | .catom pt _ =>
    let z := catomUpdate pt old (s.readLe p.place2 (pairLoSize pt)) p.data p.data2
    some [(p.place, z.1, pairHiSize pt), (p.place2, z.2.1, pairLoSize pt)]
  | .arrive n by_ =>
    let e := old % 2 ^ 24
    let pend := old / 2 ^ 32 % 2 ^ 24
    let phase := old / 2 ^ 63 % 2
    let bytes := (old / 2 ^ 64 + by_.toNat) % 2 ^ 64
    if old / 2 ^ 24 % 2 ^ 8 = 0 ∧ old / 2 ^ 56 % 2 ^ 7 = 0 ∧ e ≠ 0 ∧ pend ≤ e ∧ n ≤ pend then
      some [(p.place, if pend = n ∧ bytes = 0 then e + 2 ^ 32 * e + 2 ^ 63 * (1 - phase)
        else e + 2 ^ 32 * (pend - n) + 2 ^ 63 * phase + 2 ^ 64 * bytes, 16)]
    else none
  | _ => none

/-- Memory after some stores one after another. -/
inductive StoredAll : State → State → List (Place × Nat × Nat) → Prop where
  | nil {s t : State} : SameMemory s t → StoredAll s t []
  | cons {s m t : State} {p : Place} {x n : Nat} {l : List (Place × Nat × Nat)} :
      Stored s m p x n → StoredAll m t l → StoredAll s t ((p, x, n) :: l)

/-! ### Control (R287 to R298) -/

/-- A transfer of control: guard, each lane's target, whether a misaligned target is a fault (R293), the link pair. -/
structure Branch where
  g : Guard
  target : Nat → DWord
  checked : Bool
  link : Option (Fin 256)

/-- A target register (R290). -/
def targetOf (r : Regs) (a : ABase) (l : Nat) : DWord :=
  match a with
  | .zero => 0
  | .s k => r.sget k
  | .v k => BitVec.ofNat 64 ((r.vget k l).toNat + 2 ^ 32 * (r.vget (k + 1) l).toNat)

def branchRow (pc : DWord) (r : Regs) : Instr → Option Branch
  | .bra i => some ⟨i.g, fun _ => pc + BitVec.ofInt 64 (4 * i.off.toInt), false, none⟩
  | .call i => some ⟨i.g, fun _ => pc + BitVec.ofInt 64 (4 * i.off.toInt), false, some i.link⟩
  | .brx i => some ⟨i.g, targetOf r i.target, true, none⟩
  | .ret i => some ⟨i.g, targetOf r i.target, true, none⟩
  | .callx i => some ⟨i.g, targetOf r i.target, true, some i.link⟩
  | _ => none

/-- The words of the registers after a call: the link pair of every active lane holds the address behind it (R291). -/
def linked (r : Regs) (act : Mask) (link : Option (Fin 256)) (back : DWord) (k l : Nat) : Word :=
  match link with
  | some d => if lane act l = true ∧ k = d.val then back.extractLsb' 0 32
    else if lane act l = true ∧ k = d.val + 1 then back.extractLsb' 32 32 else r.vget k l
  | none => r.vget k l

/-- A set instruction that keeps no lane waiting: its guard, its set, the condition under which it raises nothing and
what the set is then (R279, R296, R297). -/
def setRow (r : Regs) (act : Mask) : Instr → Option (Guard × Fin 16 × Prop × JSet)
  | .jopen i => some (i.g, i.j, (r.jget i.j).arrived = 0, ⟨act &&& (match i.mask with
      | none => BitVec.allOnes 32
      | some (.s k) => BitVec.ofNat 32 (r.sget k).toNat
      | some (.int c) => BitVec.ofInt 32 (c.val - 16)
      | some _ => 0), 0, 0, true⟩)
  | .jenter i => some (i.g, i.j, (r.jget i.j).open_ = true, { r.jget i.j with members := (r.jget i.j).members ||| act })
  | .jquit i => some (i.g, i.j, (r.jget i.j).open_ = true, { r.jget i.j with members := (r.jget i.j).members &&& ~~~act })
  | .jfree i => some (i.g, i.j, (r.jget i.j).arrived = 0, ⟨0, 0, 0, false⟩)
  | _ => none

/-- No set is ready to be released (R279): open, with waiting lanes, and every member waiting. -/
def NoneReady (r : Regs) : Prop :=
  ∀ k, k < 16 → ¬((r.jget k).open_ = true ∧ (r.jget k).arrived ≠ 0 ∧ (r.jget k).arrived = (r.jget k).members)

/-- The lanes of a warp that wait at a jwait. -/
def WaitsAtJwait (w : Warp) (l : Nat) : Prop := ∃ x ∈ w.waits, (∃ j, x.kind = .jwait j) ∧ lane x.lanes l = true

/-! ### Fences, barriers, counters, pause and banks (R177 to R180, R217, R218, R225 to R236) -/

/-- Nothing changes but one warp, the L1 copies, and what translation and the model's own numbering keep. -/
structure OnlyWarp (s t : State) (slot : Nat) : Prop where
  rest : t = { s with
    warps := t.warps, issue := s.issue.tail, tlb := t.tlb, env := t.env, opSeq := t.opSeq, l1 := t.l1, l1bad := t.l1bad }
  others : ∀ k, k ≠ slot → t.warp k = s.warp k

/-- The group goes on behind the instruction; of the registers only the PCs and `sr.gseq` change. -/
def Continues (i : Instr) (s : State) (sl : Slot) (w : Warp) (r : Regs) : Prop :=
  ∃ (t : State) (w' : Warp) (r' : Regs), exec i s = .next t ∧ OnlyWarp s t sl.w ∧ t.warp sl.w = some w' ∧
    w'.side sl.proof = some r' ∧ w'.side (!sl.proof) = w.side (!sl.proof) ∧ w' = { w with r := w'.r, proof := w'.proof } ∧
    Passed r r' sl

/-- The instruction holds its whole group: the lanes wait, their PCs name the instruction (R236, R274). -/
def HoldsGroup (i : Instr) (s : State) (sl : Slot) (w : Warp) (r : Regs) (k : WaitKind) : Prop :=
  ∃ (t : State) (w' : Warp), exec i s = .next t ∧ OnlyWarp s t sl.w ∧ t.warp sl.w = some w' ∧
    w' = { w with r := w'.r, proof := w'.proof, waits := w.waits ++ [⟨sl.grp, k, sl.len, r.gseq.toNat⟩] } ∧
    w'.r = { r with pc := w'.r.pc, gseq := r.gseq + 1 } ∧ ∀ l, l < 32 → w'.r.pcGet l = r.pcGet l

/-- The object at an address passes the checks of R208 and a strong read of it returns x now. -/
def ObjectReads (s : State) (sl : Slot) (w : Warp) (scratch : Bool) (va : DWord) (size x : Nat) : Prop :=
  ∃ p s1, s.taken.objectPart sl.w w scratch va size .read 0 = (.ok p, s1) ∧ s1.readNow sl.w w p = some x

/-- A barrier object that is not malformed, and its phase (R226). -/
def WellFormedBarrier (x : Nat) : Prop :=
  x / 2 ^ 24 % 2 ^ 8 = 0 ∧ x / 2 ^ 56 % 2 ^ 7 = 0 ∧ x % 2 ^ 24 ≠ 0 ∧ x / 2 ^ 32 % 2 ^ 24 ≤ x % 2 ^ 24
def phaseOf (x : Nat) : Nat := x / 2 ^ 63 % 2

/-- A barrier's address (R227). -/
def barAddress (r : Regs) (scratch : Bool) (k : Fin 64) : DWord :=
  if scratch then BitVec.ofNat 64 ((r.sget k).toNat % 2 ^ 32) else r.sget k

/-- Bank k of a block after a switch to mode m (R178): to its own mode nothing, else empty. -/
def BankAfter (b b' : Block) (k : Nat) (m : BankMode) : Prop :=
  b'.modes.getD k .scratch = m ∧
    (b.modes.getD k .scratch ≠ m → (b'.fifos.get k = []) ∧ ∀ o, o / 64 % b.banks.length = k → b'.scratch.get o = 0) ∧
    (b.modes.getD k .scratch = m → b'.fifos.get k = b.fifos.get k ∧
      ∀ o, o / 64 % b.banks.length = k → b'.scratch.get o = b.scratch.get o)

/-! ### Traps (R369 to R384), special registers (R21, R345 to R348), migration and translations (R308, R309, R350 to R353) -/

/-- A trap has been taken (R372, R376): the handler group of `w` stands at VEC, s60, s61 and p1 hold the resume PC, the
logged address and the active lanes, the frame holds what tret restores, loads in flight wait in the replay queue and the
group's waits are off. `sync` gives the group, the active lanes and the resume PC of a synchronous cause. -/
structure Entered (s t : State) (slot : Nat) (w : Warp) (cause : Nat) (sync : Option (Mask × Mask × DWord)) (laddr : DWord) :
    Prop where
  others : ∀ k, k ≠ slot → t.warp k = s.warp k
  warp : ∃ (w' : Warp) (f : Frame), t.warp slot = some w' ∧ w'.r.frame = some f ∧
    f.cause = cause ∧ f.group = w.r.live &&& ~~~w.jwaiting ∧ f.trapping = (sync.map fun x => x.1).getD 0 ∧
    f.s60 = w.r.sget 60 ∧ f.s61 = w.r.sget 61 ∧ f.p1 = w.r.pget 1 ∧ f.js = w.r.j ∧ f.latch = w.r.latch ∧
    f.lvalid = w.r.lvalid ∧ f.badL = w.r.badL ∧ f.lmask = w.r.lmask ∧ f.ages = w.r.ages ∧ f.live = w.r.live ∧
    (∀ l, l < 32 → lane f.group l = true → f.pcs.get l = w.r.pcGet l) ∧
    (∀ l, l < 32 → w'.r.pcGet l = if lane f.group l then w.r.vec else w.r.pcGet l) ∧
    (∀ k, w'.r.sget k = if k = 60 then (sync.map fun x => x.2.2).getD 0 else if k = 61 then laddr else w.r.sget k) ∧
    (∀ k, w'.r.pget k = if k = 1 then (sync.map fun x => x.2.1).getD 0 else w.r.pget k) ∧
    w'.r = { w.r with s := w'.r.s, p := w'.r.p, pc := w'.r.pc, lvalid := 0, frame := w'.r.frame } ∧
    w'.waits = w.waits.filter Wait.isJ ∧ w'.pend = w.pend.filter (fun o => !o.replayed) ∧
    w' = { w with
      r := w'.r, waits := w'.waits, pend := w'.pend, platen := w'.platen, platHeld := false, proof := w'.proof
      async := w'.async }

/-- The warp can take a trap at once: it is outside its handler with a handler of its own, at a boundary (R372). -/
structure CanEnter (w : Warp) : Prop where
  outside : w.r.frame = none
  vec : w.r.vec ≠ 0
  boundary : w.boundary = true
  results : w.results = []

/-- The uniform special registers below 0x80, with their widths in words (R21, R345). -/
def specialValue (s : State) (slot : Nat) (w : Warp) (r : Regs) (n : Nat) : Option (Nat × Nat) :=
  match n with
  | 0x01 => some (w.num, 1)
  | 0x02 => some (w.block, 1)
  | 0x03 => some (w.gx, 1)
  | 0x04 => some (w.gy, 1)
  | 0x05 => some (w.gz, 1)
  | 0x06 => some (slot / 68, 1)
  | 0x07 => some (slot / 17 % 4, 1)
  | 0x08 => some (slot / 68 / 128, 1)
  | 0x09 => some (s.cycles.getD (slot / 68 / 128) 0, 2)
  | 0x0A => some (s.time, 2)
  | 0x0B => some (r.gseq.toNat, 2)
  | 0x0C => some (r.bankconf.toNat, 2)
  | 0x0D => some (w.rgn.toNat, 2)
  | 0x0E => some (r.fpflags.toNat, 2)
  | 0x0F => some ((r.frame.map fun f => f.cause + 256).getD 0, 2)
  | _ => none

/-- A privileged instruction (R335): its guard. -/
def privilegedGuard : Instr → Option Guard
  | .tlbiVa i => some i.g
  | .tlbiCtx i => some i.g
  | .tlbiAll i => some i.g
  | .ctxopRoot i => some i.g
  | .ctxopDrain i => some i.g
  | .csrr i => if i.srn = 0x80 ∨ i.srn = 0x81 then some i.g else none
  | .csrw i => if i.srn = 0x80 ∨ i.srn = 0x81 then some i.g else none
  | _ => none

/-- The instruction ran and its group went on, or waits until operations in flight are done (R351, R352). -/
def OnOrWaiting (t : State) (sl : Slot) (w : Warp) (r : Regs) : Prop :=
  ∃ (w' : Warp), t.warp sl.w = some w' ∧
    ((w'.waits = w.waits ∧ Passed r w'.r sl) ∨
      ∃ kind, ((∃ l, l ≠ [] ∧ kind = .ops l) ∨ ∃ l held, (l ≠ [] ∨ held ≠ []) ∧ kind = .drained l held) ∧
        w'.waits = w.waits ++ [⟨sl.grp, kind, sl.len, r.gseq.toNat⟩] ∧ ∀ k, k < 32 → w'.r.pcGet k = r.pcGet k)

/-! ### The Platen (R143 to R171) -/

/-- What a Platen instruction must be given before it is accepted. -/
def platReq : Instr → Option PlatReq
  | .mma i => some (mmaReq i)
  | .mmaRes i => some (mmaReq i.m)
  | .accZero i => some (.plain i.g)
  | .accRd i => some (.plain i.g)
  | .accWr i => some { PlatReq.plain i.g with src := fun r act => captured r i act, compared := true }
  | .accLd i => some { PlatReq.plain i.g with recs := [i.lrec], ok := accOk i.ft }
  | .accSt i => some { PlatReq.plain i.g with
      recs := [i.lrec], ok := accOk i.ft, forbid := fun l => l.any fun x => x.space != 1 }
  | _ => none

/-- The group holds every live lane, and one of them is active (R143). -/
def WholeGroup (r : Regs) (grp act : Mask) : Prop := r.live &&& ~~~grp = 0 ∧ act ≠ 0

/-- The one operation that the Platen of a quadrant may step is `o`, of the warp w without a proof warp, outside its
handler; its records can be read, its step computes x. -/
structure PlatenRuns (s : State) (q slot : Nat) (w : Warp) (o : PlatOp) (x : StepRes) : Prop where
  only : s.platWarps q = [(slot, w, o)]
  warp : s.warp slot = some w
  side : w.proof = none ∧ w.r.frame = none ∧ w.badT = [] ∧ s.warpClass w ≤ 3
  step : ∃ s1, s.platStep slot w o = (.ok x, s1) ∧ s1.warps = s.warps
  stores : x.stores = []

/-- Element e of tile t. -/
def element (w : Warp) (t e : Nat) : Word := w.tiles.get (t * 4096 + e)

/-- Of the tiles only the listed ones change, and element e of tile t, e < 4096, is then f t e. -/
def TilesAfter (w w' : Warp) (l : List Nat) (f : Nat → Nat → Word) : Prop :=
  ∀ t e, e < 4096 → element w' t e = if t ∈ l then f t e else element w t e

/-- The sum of the products of two rows of integers. -/
def intDot (f g : MF) (a b : List Nat) : Int := ((a.zip b).map fun x => mfIntValue f x.1 * mfIntValue g x.2).sum

/-! ### Feeder commands and imposition programs (R238 to R260) -/

/-- A Feeder instruction: its guard and the command it builds once its checks have passed (R241, R242). -/
def feederRow : Instr → Option (Guard × (State → Slot → Warp → Regs → Mask → Except MemStop Cmd × State))
  | .cpy i => some (i.g, fun s sl w r act => s.buildCopy sl w r act i .copy)
  | .cpyRed i => some (i.c.g, fun s sl w r act => s.buildCopy sl w r act i.c (.red (ropCode i.rop)))
  | .cpySig i => some (i.c.g, fun s sl w r act =>
      s.buildCopy sl w r act i.c (.sig (r.sget i.ctr) (BitVec.ofNat 64 ((⟨r, 0, 0, 0⟩ : Rd).dword i.value 0))))
  | .impStart i => some (i.g, fun s sl w r act => s.buildImp sl w r act i)
  | _ => none

/-- What a command of a copy holds (R241, R243). -/
def CopyCommand (s : State) (sl : Slot) (w : Warp) (r : Regs) (i : CpyI) (c : Cmd) : Prop :=
  c.owner = .warp sl.w w.gang ∧ c.tok = i.tk ∧ c.cr = i.cr.map (fun k => r.sget k) ∧ c.bytes = 0 ∧ c.killed = false ∧
    c.suspended = false ∧ c.feeder = w.feeder ∧ c.ctx = w.ctx ∧ c.scope = i.scope ∧ c.gseq = r.gseq.toNat ∧
    ∃ s1, s.taken.readRecords sl.w w [r.sget i.dst, r.sget i.src] = (.ok [c.dst, c.src], s1)

/-- An address lies in its space: in the private bytes of a lane, in its window, or in the scratch of its block, in a bank in
scratch mode (R19, R173, R174, R179). -/
def Bounded (s : State) (slot : Nat) (w : Warp) (sp : Space) (size : Nat) (a : Int) : Prop :=
  let o := a.toNat
  match sp with
  | .global => True
  | .priv => o + size ≤ w.priv
  | .window k => o + size ≤ (w.windows.getD k.val (0, 0)).2
  | sp => ∃ x, s.scratchBlock slot w (scratchTarget sp w o).1 = some x ∧ (scratchTarget sp w o).2 + size ≤ x.bytes ∧
      x.unitMode (scratchTarget sp w o).2 = .scratch

/-- A word of n bytes that a command of a warp names is canonical, aligned and translated as asked (R242, R243), which leaves s'. -/
def WordPasses (s s' : State) (sl : Slot) (w : Warp) (n : Nat) (need : Need) (va : Option DWord) : Prop :=
  match va with
  | none => s' = s
  | some a => canonical a = true ∧ a.toNat % n = 0 ∧ ∃ p, s.translate (slotQuadId sl.w) w.ctx a need = (.ok p, s')

/-- The barrier that a copy is tied to passes its checks (R226, R242): it lies at `tie`. -/
def TiePasses (s s' : State) (sl : Slot) (w : Warp) (r : Regs) (bar : Option (Fin 64 × Bool)) (tie : Option Place) (va : DWord) : Prop :=
  match bar with
  | none => tie = none ∧ va = 0 ∧ s' = s
  | some (k, false) => va = r.sget k ∧ canonical va = true ∧ va.toNat % 16 = 0 ∧
      ∃ p, s.translate (slotQuadId sl.w) w.ctx va .readWrite = (.ok p, s') ∧ tie = some p.place
  | some (k, true) => va = BitVec.ofNat 64 ((r.sget k).toNat % 2 ^ 32) ∧ va.toNat % 16 = 0 ∧ w.home = sl.w ∧
      Bounded s sl.w w .block 16 va.toNat ∧ tie = some (.scr w.gang w.block va.toNat) ∧ s' = s

/-- A copy's instruction: its fields, what it does and the counter it signals (R241). -/
def copyRow (r : Regs) : Instr → Option (CpyI × CmdKind × Option DWord)
  | .cpy i => some (i, .copy, none)
  | .cpyRed i => some (i.c, .red (ropCode i.rop), none)
  | .cpySig i => some (i.c, .sig (r.sget i.ctr) (BitVec.ofNat 64 ((⟨r, 0, 0, 0⟩ : Rd).dword i.value 0)), some (r.sget i.ctr))
  | _ => none

/-- The instruction gives one command, of which f holds: to its Feeder, or, inside a region, to the deferred work of the innermost
level (R259); the group goes on and nothing else changes. -/
def GivesCommand (i : Instr) (s : State) (sl : Slot) (w : Warp) (r : Regs) (f : Cmd → Prop) : Prop :=
  ∃ (t : State) (w' : Warp) (c : Cmd), exec i s = .next t ∧ t.warp sl.w = some w' ∧ Passed r w'.r sl ∧
    (∀ k, k ≠ sl.w → t.warp k = s.warp k) ∧ SameMemory s t ∧ f c ∧ c.owner = .warp sl.w w.gang ∧ c.ctx = w.ctx ∧
    c.gseq = r.gseq.toNat ∧ c.bytes = 0 ∧ c.killed = false ∧ c.suspended = false ∧
    (w.levels = [] → t.cmds = s.cmds ++ [c] ∧ w' = { w with r := w'.r, proof := w'.proof }) ∧
    ∀ l rest, w.levels = l :: rest → t.cmds = s.cmds ∧
      w' = { w with r := w'.r, proof := w'.proof, levels := { l with deferred := l.deferred ++ [.feed c] } :: rest }

/-- Command c runs step (f, r) of its program p0, with nothing that holds it up; with that step read the program is p and the state
is s1. -/
structure AtStep (s s1 : State) (id : Nat) (c : Cmd) (p0 p : ImpState) (f : Step) (r : Route) : Prop where
  cmd : s.cmd id = some c
  only : ∀ x ∈ s.cmds, x.id = id → x = c
  imp : c.imp = some p0
  free : c.killed = false ∧ c.suspended = false
  issued : s.issuedBefore c = true
  going : ((s.gang c.gang).any fun g => g.acks.contains (.feeder c.id)) = false
  posts : s.postsOf id = [] ∧ s.feederBlocked c.feeder = false
  fetched : ∃ s', s.fetchStep c p0 = (.ok p, s') ∧ s1 = s'.setImp c p
  step : p.parsed = some (f, r)

/-- The only command of its Feeder, which can serve it. -/
structure AloneOnFeeder (s : State) (c : Cmd) : Prop where
  only : ∀ x ∈ s.cmds, x.feeder = c.feeder → x = c
  ready : s.cmdReady c = true
  cls : c.cls ≤ 3

/-- With step n a program does not end, or it has no completion record to write. -/
def EndsPlainly (c : Cmd) (p : ImpState) (n : Nat) : Prop := c.cr = none ∨ n < p.desc.nstep

/-- The step of a program that moves chunks, by its OPC (R253). -/
def moveInstr (opc id : Nat) : Option Instr :=
  match opc with
  | 0 => some (.stepSend id)
  | 1 => some (.stepRecv id)
  | 2 => some (.stepRrs id)
  | 3 => some (.stepRrc id)
  | 4 => some (.stepCopy id)
  | _ => none

/-- Chunk k of a step may move (R251, R255, R256). Outbound it is the next to send and granted by the peer: at level 0 under the
credit of the matched step, number n on its channel, which agrees; at level 1 through port o. Inbound its elements `inn` are there:
given by the matched step, or received. Looking up the peers' entries leaves s0. -/
structure ChunkReady (s s0 : State) (c : Cmd) (p : ImpState) (f : Step) (r : Route) (k n o : Nat) (inn : List (Nat × Bool)) : Prop where
  copies : f.opc = 4 → k = p.sent ∧ s0 = s
  sends : f.sends = true → k = p.sent
  alone : f.receives = false → inn = []
  waits : f.receives = true → ∃ e, p.here = some e ∧ (e.lacks < e.upto ∨ chunkCount f r ≤ e.lacks) ∧ (f.sends = false → f.lvl = 0 → k = e.lacks)
  out0 : f.opc < 4 → f.lvl = 0 → s0 = s ∧ (f.sends = true → n = p.outNo.getD (s.outChan c p.desc r).nextOut ∧
    n ∉ (s.outChan c p.desc r).cuts ∧
    ∃ x, (s.outChan c p.desc r).credits.find? (fun y => y.no == n) = some x ∧ x.fits f r = true ∧ k < x.upto)
  in0 : f.lvl = 0 → f.receives = true → ∃ e t, p.here = some e ∧ (s.inChan c p.desc r).sends.find? (fun y => y.no == e.no) = some t ∧
    t.aborted = false ∧ t.chunks[k]? = some inn
  out1 : f.opc < 4 → f.lvl = 1 → p.aborts = [] ∧ (∀ g, p.grant = some g → g.first + g.count ≤ chunkCount f r) ∧
    (f.sends = true → ∃ g, p.grant = some g ∧ g.first ≤ k ∧ k < g.first + g.count) ∧
    ∃ s', (if f.sends then s.peerPort c p.desc r.dest = (.ok o, s') else s' = s) ∧
      if f.receives then ∃ i, s'.peerPort c p.desc r.frm = (.ok i, s0) else s0 = s'
  in1 : f.lvl = 1 → f.receives = true → ∃ e, p.here = some e ∧
    (if f.sends then e.stream.find? (fun x => x.1 == k) else e.stream.head?) = some (k, inn)

/-- Element j of some elements of the parts of d at some places: its value. -/
def elemAt (s : State) (d : Side) (l : List Place) (j : Nat) : Nat :=
  ((List.range d.parts).map fun i => s.readLe (l.getD (j * d.parts + i) (.hbm 0)) d.part * 2 ^ (8 * d.part * i)).sum

/-- The program of command c is at step n, with counters `ctr` and open loops `loops`, or, at its end, has ended. -/
def GoesTo (t : State) (id : Nat) (p : ImpState) (n : Nat) (ctr : List Nat) (loops : List (Nat × Nat × Nat)) : Prop :=
  if p.desc.nstep ≤ n then t.cmd id = none
  else ∃ c' p', t.cmd id = some c' ∧ c'.imp = some p' ∧ p'.step = n ∧ p'.cur = none ∧ p'.ctr = ctr ∧ p'.loops = loops ∧
    p'.desc = p.desc

/-- A command of a warp has ended with a status of failure (R243, R244): its token holds the completion word and the warp
has "Feeder command failed" queued. -/
def Fails (s t : State) (c : Cmd) (slot : Nat) (w : Warp) (word : Nat) : Prop :=
  t.cmd c.id = none ∧ ∃ w' e, t.warp slot = some w' ∧ w'.async = w.async ++ [e] ∧ e.cause = 0xA4 ∧ e.gseq = c.gseq ∧
    e.w0 = BitVec.ofNat 64 word ∧ e.unit = 3 ∧ e.index = c.feeder ∧ e.time = s.time ∧
    ∀ k, c.tok = some k → w'.r.sget k = BitVec.ofNat 64 word

/-- Two places share no byte of their n bytes. -/
def Apart (n : Nat) (p q : Place) : Prop := ∀ i j, i < n → j < n → p.add i ≠ q.add j

/-! ### Regions (R388 to R403) -/

/-- A region instruction's group, as R388 asks for it, outside a handler. -/
def RegionGroup (r : Regs) (grp act : Mask) : Prop := WholeGroup r grp act ∧ r.frame = none

/-- The instruction passed and, of the warp beside its registers, only the levels with what they count, and the number below
which no error can be detected, may have changed. -/
def RegionPassed (i : Instr) (s : State) (sl : Slot) (w : Warp) (r : Regs) (w' : Warp) : Prop :=
  ∃ (t : State), exec i s = .next t ∧ s.SameOutside t sl.w ∧ t.warp sl.w = some w' ∧ Passed r w'.r sl ∧
    w' = { w with
      r := w'.r, proof := w'.proof, levels := w'.levels, galley := w'.galley, resolved := w'.resolved, lastCause := w'.lastCause
      rolls := w'.rolls, soft := w'.soft }

/-- What the warp counts of its levels has not changed. -/
def SameCounts (w w' : Warp) : Prop := w'.galley = w.galley ∧ w'.lastCause = w.lastCause ∧ w'.rolls = w.rolls ∧ w'.soft = w.soft

/-- An operation as an instruction gave it, its number and order apart. -/
def MemOp.given (o : MemOp) : OpKind × List Piece × Mask := (o.kind, o.pieces, o.lanes)

/-- The memory instructions of deferred work, and its Feeder commands. -/
def memWork (l : List Deferred) : List MemOp := l.filterMap fun d => match d with
  | .mem o => some o
  | .feed _ => none
def feedWork (l : List Deferred) : List Cmd := l.filterMap fun d => match d with
  | .mem _ => none
  | .feed c => some c

/-! ### Gangs, queues, management (R261 to R273, R308 to R336, R354 to R356, R407 to R411, R425 to R431) -/

/-- A warp stands in a slot as it does at its launch: warp n of block b of gang g of a launch record (R11, R268). -/
def Launched (t : State) (g : Gang) (l : LaunchRec) (ctx b n slot : Nat) : Prop :=
  ∃ (w : Warp), t.warp slot = some w ∧ w.gang = g.id ∧ w.block = b ∧ w.num = n ∧ w.ctx = ctx ∧ w.home = slot ∧
    w.vgrant = l.vgrant ∧ w.tgrant = l.tg ∧ w.priv = l.priv ∧ w.gx = g.lin % l.gx ∧ w.gy = g.lin / l.gx % l.gy ∧
    w.gz = g.lin / l.gx / l.gy ∧ w.windows = l.windows ∧ w.tiles = [] ∧ w.r.live = BitVec.allOnes 32 ∧ w.r.frame = none ∧
    w.r.vec = 0 ∧ w.r.tmask = 0 ∧ w.r.gseq = 0 ∧ (∀ k, k < 32 → w.r.pcGet k = l.entry) ∧ (∀ k m, w.r.vget k m = 0) ∧
    (∀ k, w.r.sget k = if k = 63 then BitVec.ofNat 64 l.priv else 0) ∧ (∀ k, k ≠ 0 → w.r.pget k = 0) ∧
    ∀ k, w.r.jget k = default

/-- No warp of a gang stands in any slot. -/
def NoWarps (t : State) (gang : Nat) : Prop := ∀ k w, t.warp k = some w → w.gang ≠ gang

/-- The CP serves queue `no`, its packet p passes the checks of every packet, and no halt waits (R319 to R325). -/
structure Parses (s : State) (no : Nat) (q : Queue) (p : Packet) (s2 : State) (opc : Nat) : Prop where
  served : s.nextQueue = some no
  queue : s.queue no = some q
  free : q.haltNext = none
  packet : ∃ hdr s1, { s with cpRR := s.cpRR.set q.cls no }.header q = (.ok hdr, s1) ∧ hdr % 256 = opc ∧ s1.packet q hdr = (.ok p, s2)

/-- HEAD has moved past the packet (R321). -/
def Accepted (t : State) (no : Nat) (q : Queue) (p : Packet) : Prop :=
  t.queue no = some { q with head := q.head + 32 * p.len, parse := none }

/-- A queue has halted in FAULTED with a cause (R323). -/
def Halts (t : State) (no : Nat) (q : Queue) (cause : Nat) : Prop :=
  t.queue no = some { q with faulted := true, cause := cause, parse := none }

/-- The work that a packet left. -/
def WorkOf (w : Work) (no : Nat) (p : Packet) (q : Queue) (rcb : Nat) (l : Option LaunchRec) (done dval : DWord) : Prop :=
  w.queue = no ∧ w.ctx = q.ctx ∧ w.tag = p.tag ∧ w.rcbId = rcb ∧ w.launch = l ∧ w.done = done ∧ w.dval = dval ∧ w.next = 0 ∧
    w.finished = 0

/-- The instruction that takes a packet of an OPC from a queue (R319). -/
def packetInstr (opc no : Nat) : Option Instr :=
  match opc with
  | 1 => some (.launch no)
  | 2 => some (.packetFence no)
  | 3 => some (.packetSignal no)
  | 4 => some (.packetCopy no)
  | 5 => some (.collective no)
  | 6 => some (.rcbRegister no)
  | 7 => some (.skip no)
  | _ => none

/-- A management operation has been answered with a status, and with more replies (R431). -/
def answered (s : State) (port op status : Nat) (more : List Reply) : List Reply :=
  s.replies ++ [.mgmt port [BitVec.ofNat 8 op, BitVec.ofNat 8 status]] ++ more

/-- The management operations that a device in recovery mode refuses, with their numbers (R428, R431). -/
def notInRecovery : Instr → Option (Nat × Nat)
  | .featureAccept port _ _ => some (port, 2)
  | .featureLock port _ => some (port, 2)
  | .createContext port _ => some (port, 3)
  | .removeContext port _ => some (port, 4)
  | .registerQueue port _ => some (port, 5)
  | .bindQueuePair port _ _ _ => some (port, 6)
  | .commitFirmwareVersion port => some (port, 10)
  | _ => none

/-- A context record as a management message gives it (R333). -/
def contextOf (a : CtxArgs) : Ctx := { res := true, sys := a.sys, root := a.root, rhome := a.rhome.val, errq := a.errq, lost := false }

/-! ### Encodings and steps -/

/-- The words of an instruction, the first least significant (R26). -/
def word1 (l : List Nat) : Nat := l.foldr (fun w a => w + 2 ^ 32 * a) 0

/-- No guard. -/
def always : Guard := ⟨0, false⟩

/-- Only one warp stands in quadrant q, in slot `slot`, outside its handler; nothing of it or of any other warp is in flight, no
lane of it waits, and it may issue. -/
structure Quiet (s : State) (q slot : Nat) (w : Warp) : Prop where
  place : q < 2048 ∧ slot / 17 = q
  warp : s.warp slot = some w
  alone : ∀ k, k / 17 = q → k ≠ slot → s.warp k = none
  settled : (∀ x ∈ s.warpList, x.2.pend = []) ∧ s.cmds = []
  empty : w.results = [] ∧ w.platen = [] ∧ w.heldTok = [] ∧ w.waits = [] ∧ w.levels = [] ∧ w.async = [] ∧ w.det = [] ∧
    w.pend = [] ∧ w.proof = none ∧ w.r.frame = none
  runs : w.stopped = false ∧ ∃ g, s.gang w.gang = some g ∧ g.phase = .running

/-- A PC names a word of HBM4 memory at `key` whose fetch block is not poisoned and has not been written since the warp's LAUNCH
packet was parsed, so that a fetch finds its present words (R28, R30); the translation leaves s1. -/
structure CodeAt (s s1 : State) (slot : Nat) (w : Warp) (pc : DWord) (key : Nat) : Prop where
  aligned : pc.toNat % 4 = 0
  place : ∃ p, s.translate (slotQuadId slot) w.ctx pc .fetch = (.ok p, s1) ∧ p.place = .hbm key
  offset : key % 32 = pc.toNat % 32
  clean : ∀ n, n ≤ 16 → s.poisoned (.hbm key) n = false
  settled : ∀ h ∈ s.past.take (s.past.length - w.codeSince),
    h.key + h.old.length ≤ key / 32 * 32 ∨ key / 32 * 32 + 32 ≤ h.key

/-- The first word of the instruction at a place, and the words from there on that are fetched: no further than its block. -/
def firstWord (s : State) (key : Nat) : Nat := s.readLe (.hbm key) 4
def blockWords (s : State) (key : Nat) : Nat :=
  s.readLe (.hbm key) (4 * min (max (lenWords (firstWord s key)) 2) (8 - key % 32 / 4))

/-- The words at a PC are those of instruction i, in one fetch block, and pass the checks that the warp's state decides for the
lanes m (R12, R28, R40). -/
structure Fetches (s s1 : State) (slot : Nat) (w : Warp) (m : Mask) (pc : DWord) (i : Instr) (len : Nat) : Prop where
  word : ∃ key, CodeAt s s1 slot w pc key ∧ isQuad (firstWord s key) = false ∧ len = lenWords (firstWord s key) ∧
    decodeNat (blockWords s key) = .ok i
  block : pc.toNat % 32 / 4 + len ≤ 8
  granted : (useOf i).outOfGrant w.vgrant w.tgrant = false
  latched : staleLatch w.r m (useOf i) = false

/-- An issue opportunity of the quadrant raises a cause for all live lanes of its warp, before issue: nothing is chosen, and the
warp, its lane ages apart, enters its handler (R48). -/
def OpportunityRaises (s : State) (q slot : Nat) (w : Warp) (pc : DWord) (cause : Nat) (act : Mask) (laddr : DWord) : Prop :=
  ∃ (t : State) (w1 : Warp), exec (.issueOpportunity q) s = .next t ∧ t.issue = [] ∧
    w1 = { w with r := { w.r with ages := w1.r.ages } } ∧ Entered s t slot w1 cause (some (w.r.live, act, pc)) laddr

/-! ### Statements that stand together in an obligation -/

open Sys2Proof Sys2Proof.Machine

/-- R205, R208: outside a region, a memory instruction of its leading warp with an active lane, whose checks pass, puts its
accesses in flight; memory is as before and, of the registers, only the PCs, `sr.gseq` and `sr.bankconf` change. -/
def MemoryRequestsGoInFlight : Prop :=
  ∀ (s : State) (sl : Slot) (w : Warp) (r : Regs) (i : Instr) (q : MemReq) (parts : List Part) (s1 : State),
    s.Chosen sl w r → memReq i = some q → active r sl.grp q.g ≠ 0 → Alone sl w q.kind → NotKept w q →
    checks s sl w r (active r sl.grp q.g) q = (.ok parts, s1) → ForwardsClean w q r (active r sl.grp q.g) parts →
    GoesInFlight i q s sl w r (active r sl.grp q.g) parts

/-- R228, R229, R298: the same of bar.init, bar.arrive and jload, once their own check has passed. -/
def BarrierAndSetAccessesGoInFlight : Prop :=
  ∀ (s : State) (sl : Slot) (w : Warp) (r : Regs) (i : Instr) (act : Mask) (g : Guard) (c : Prop) (q : MemReq)
    (parts : List Part) (s1 : State),
    s.Chosen sl w r → lateReq w r act i = some (g, c, q) → act = active r sl.grp g → act ≠ 0 → c → Alone sl w q.kind →
    NotKept w q → checks s sl w r act q = (.ok parts, s1) → ForwardsClean w q r act parts →
    GoesInFlight i q s sl w r act parts

/-- R207, R208: an access that fails a check raises its fault and has no other effect; one that passes lies, in global memory, at
canonical addresses, elsewhere at addresses from 0 to 2^32 − 1, and is aligned to its size. -/
def FailedChecksRaise : Prop :=
  (∀ (s : State) (sl : Slot) (w : Warp) (r : Regs) (i : Instr) (q : MemReq) (f : SyncFault) (s1 : State),
    s.Chosen sl w r → memReq i = some q → active r sl.grp q.g ≠ 0 → sl.proof = false →
    (w.levels = [] ∨ q.kind.forbidden = false) →
    checks s sl w r (active r sl.grp q.g) q = (.error (.fault f), s1) →
    exec i s = .next (s1.raise sl (active r sl.grp q.g) f)) ∧
  ∀ (s s1 : State) (sl : Slot) (w : Warp) (r : Regs) (q : MemReq) (act : Mask) (parts : List Part) (x : Nat × Int),
    checks s sl w r act q = (.ok parts, s1) → x ∈ addresses q r act →
    (if q.sp = .global then -2 ^ 56 ≤ toSigned (wrap x.2 64) 64 ∧ toSigned (wrap x.2 64) 64 < 2 ^ 56
      else 0 ≤ x.2 ∧ x.2 < 2 ^ 32) ∧ x.2 % q.size = 0

/-- A memory instruction of a leading warp raises a cause for the address a and has no other effect. -/
def AccessRaises (i : Instr) (q : MemReq) (s : State) (sl : Slot) (r : Regs) (cause : Nat) (a : Int) : Prop :=
  ∃ f, f.cause = cause ∧ f.laddr = BitVec.ofInt 64 a ∧ exec i s = .next (s.taken.raise sl (active r sl.grp q.g) f)

/-- The bound cause of a space other than global memory (R207). -/
def boundCause : Space → Nat
  | .priv => 0x29
  | .window _ => 0x28
  | _ => 0x24

/-- An address of a space is of the right form: canonical or of 32 bits, and aligned (R207, R208). -/
def Formed (sp : Space) (size : Nat) (a : Int) : Prop :=
  (if sp = .global then canonical (BitVec.ofInt 64 a) = true else 0 ≤ a ∧ a < 2 ^ 32) ∧ a % size = 0

/-- R207, R208, R19, R173, R174, R179, R310: which cause a failed check raises, and its address: "scratch away from home" before
all; then "non-canonical address" or the bound cause of the space, and "misaligned access", for the lowest lane whose address is not
of the right form; then the bound cause or "bank mode" for the lowest lane whose address is out of its space; then the cause of
the lowest part that cannot be translated. -/
def FailedChecksNameTheirCause : Prop :=
  ∀ (s : State) (sl : Slot) (w : Warp) (r : Regs) (i : Instr) (q : MemReq) (before after : List (Nat × Int)) (l : Nat) (a : Int),
    s.Chosen sl w r → memReq i = some q → active r sl.grp q.g ≠ 0 → sl.proof = false →
    (w.levels = [] ∨ q.kind.forbidden = false) →
    addresses q r (active r sl.grp q.g) = before ++ (l, a) :: after →
    let scratch := q.sp = .block ∨ q.sp = .gang
    (scratch → w.home ≠ sl.w → before = [] → AccessRaises i q s sl r 0x25 a) ∧
    ((scratch → w.home = sl.w) → (∀ x ∈ before, Formed q.sp q.size x.2) →
      (q.sp = .global → canonical (BitVec.ofInt 64 a) = false → AccessRaises i q s sl r 0x22 a) ∧
      (q.sp ≠ .global → ¬(0 ≤ a ∧ a < 2 ^ 32) → AccessRaises i q s sl r (boundCause q.sp) a) ∧
      ((if q.sp = .global then canonical (BitVec.ofInt 64 a) = true else 0 ≤ a ∧ a < 2 ^ 32) →
        a % q.size ≠ 0 → AccessRaises i q s sl r 0x23 a)) ∧
    ((scratch → w.home = sl.w) → (∀ x ∈ addresses q r (active r sl.grp q.g), Formed q.sp q.size x.2) →
      (∀ x ∈ before, Bounded s sl.w w q.sp q.size x.2) →
      (q.sp = .priv → w.priv < a.toNat + q.size → AccessRaises i q s sl r 0x29 a) ∧
      (∀ k, q.sp = .window k → (w.windows.getD k.val (0, 0)).2 < a.toNat + q.size →
        AccessRaises i q s sl r 0x28 ((w.windows.getD k.val (0, 0)).1.toNat + a)) ∧
      (scratch → (∀ x, s.scratchBlock sl.w w (scratchTarget q.sp w a.toNat).1 = some x →
        x.bytes < (scratchTarget q.sp w a.toNat).2 + q.size) → AccessRaises i q s sl r 0x24 a) ∧
      (∀ x, scratch → s.scratchBlock sl.w w (scratchTarget q.sp w a.toNat).1 = some x →
        (scratchTarget q.sp w a.toNat).2 + q.size ≤ x.bytes → x.unitMode (scratchTarget q.sp w a.toNat).2 ≠ .scratch →
        AccessRaises i q s sl r 0x26 a)) ∧
    ∀ c e s1, q.sp = .global → before = [] → (∀ x ∈ addresses q r (active r sl.grp q.g), Formed q.sp q.size x.2) →
      s.taken.translate (slotQuadId sl.w) w.ctx (BitVec.ofInt 64 a) q.need = (.error (.cause c e), s1) →
      ∃ f, f.cause = c ∧ f.laddr = BitVec.ofInt 64 a ∧ exec i s = .next (s1.raise sl (active r sl.grp q.g) f)

/-- R400, R294, R228: inside a region, an atomic that returns, a catom with a predicate, stc, exit and bar.init raise
"forbidden in region" and have no other effect. -/
def ForbiddenInsideRegion : Prop :=
  ∀ (s : State) (sl : Slot) (w : Warp) (r : Regs) (i : Instr) (g : Guard),
    s.Chosen sl w r → sl.proof = false → w.levels ≠ [] →
    (match i with
      | .atom j => g = j.g
      | .atoms j => g = j.g
      | .cas j => g = j.g
      | .cass j => g = j.g
      | .catom j => g = j.g ∧ j.pd ≠ none
      | .stc j => g = j.g
      | .exit j => g = j.g
      | .barInit j => g = j.g
      | _ => False) →
    active r sl.grp g ≠ 0 →
    exec i s = .next (s.taken.raise sl (active r sl.grp g) ⟨0x65, 0, 0, 0, 0⟩)

/-- R235, R397: inside a region a store to global, private or gang-scratch memory is held in the galley: later loads of
the warp find its bytes there, memory is as before. -/
def StoresInsideRegionAreHeld : Prop :=
  ∀ (s : State) (sl : Slot) (w : Warp) (r : Regs) (i : Instr) (q : MemReq) (parts : List Part) (s1 : State),
    s.Chosen sl w r → memReq i = some q → active r sl.grp q.g ≠ 0 → sl.proof = false → w.proof = none → w.levels ≠ [] →
    q.kind = .store → q.sp ≠ .block →
    checks s sl w r (active r sl.grp q.g) q = (.ok parts, s1) →
    w.galleyUsed + 16 * parts.length ≤ 128 →
    (∀ l ∈ w.levels, ∀ h ∈ l.held, h.id < s1.opSeq) →
    KeptByRegion i s sl w r fun l l' =>
      HoldsBytes l l' (q.sp = .gang) (q.pieces ⟨r, 0, active r sl.grp q.g, 0⟩ w parts) ∧ l'.deferred = l.deferred ∧
        l' = { l with held := l'.held }

/-- R235, R398: inside a region an atomic without a result, an arrival and a signal are deferred to its release. -/
def AtomicsInsideRegionAreDeferred : Prop :=
  ∀ (s : State) (sl : Slot) (w : Warp) (r : Regs) (i : Instr) (act : Mask) (q : MemReq) (parts : List Part) (s1 : State),
    s.Chosen sl w r →
    (memReq i = some q ∨ ∃ c, lateReq w r act i = some (q.g, c, q) ∧ c) → act = active r sl.grp q.g → act ≠ 0 →
    sl.proof = false → w.proof = none → w.levels ≠ [] → q.kind.deferred = true → w.deferredUsed < 32 →
    checks s sl w r act q = (.ok parts, s1) →
    KeptByRegion i s sl w r fun l l' =>
      ∃ op, l' = { l with deferred := l.deferred ++ [.mem op] } ∧ InFlightOp op q sl w r act parts

/-- R216: pref only issues, whatever its addresses: no register and no byte of memory changes, and it raises nothing. -/
def PrefetchChangesNothing : Prop :=
  ∀ (s : State) (sl : Slot) (w : Warp) (r : Regs) (i : PrefI), s.Chosen sl w r →
    ∃ (t : State) (w' : Warp) (r' : Regs), exec (.pref i) s = .next t ∧ OnlyWarp s t sl.w ∧ t.warp sl.w = some w' ∧
      w'.side sl.proof = some r' ∧ w.SameButRegs w' sl.proof ∧ w'.results = w.results ∧ Passed r r' sl

/-- R305 to R307: stc outside a region whose queue pointer passes its checks holds its group until the pointer, which it
will advance by its number of active lanes, has been updated. -/
def StcHoldsItsGroup : Prop :=
  ∀ (s : State) (sl : Slot) (w : Warp) (r : Regs) (i : StcI) (p : Part) (s1 : State) (l0 : Nat),
    let act := active r sl.grp i.g
    s.Chosen sl w r → sl.proof = false → w.proof = none → w.levels = [] → lowest act = some l0 →
    s.taken.access sl.w w .global 8 .readWrite 2 [(l0, ((r.sget i.q).toNat : Int))] = (.ok [p], s1) →
    ∃ (t : State) (w' : Warp) (op : MemOp), exec (.stc i) s = .next t ∧ s.SameOutside t sl.w ∧ t.warp sl.w = some w' ∧
      w' = { w with r := w'.r, proof := w'.proof, pend := w.pend ++ [op]
                    waits := w.waits ++ [⟨sl.grp, .ops [(sl.w, op.id)], sl.len, r.gseq.toNat⟩] } ∧
      w'.r = { r with pc := w'.r.pc, gseq := r.gseq + 1 } ∧ (∀ l, l < 32 → w'.r.pcGet l = r.pcGet l) ∧
      op.pieces = [{ p.piece with data := (lanesOf act).length }] ∧
      op.kind = .stc i.ri i.w (r.sget i.base + BitVec.ofInt 64 i.x.off)
        ((lanesOf act).map fun l => (l, (⟨r, 0, act, 0⟩ : Rd).storeData i.data (mwBytes i.w) l))

/-- R305, R306: the update of an stc's queue pointer: the pointer advances by the number of its lanes, lane by lane the
slots from the old value on are taken, and the element stores go in flight to them. -/
def StcTakesConsecutiveSlots : Prop :=
  ∀ (s0 : State) (slot op : Nat) (w : Warp) (o : MemOp) (p : Piece) (ri : Option (Fin 256)) (mw : MW) (base : DWord)
    (elems : List (Nat × Nat)) (parts : List Part) (s2 : State),
    let s := s0.settle slot
    let q0 := s0.readLe p.place p.size
    slot < engineSlot → s.partOf slot op 0 = some (w, o, p) → o.pieces = [p] → o.kind = .stc ri mw base elems → p.done = false →
    s.canPerform slot w o 0 p = true → s0.poisoned p.place p.size = false → PlaceExists s0 p.place → w.proof = none →
    w.r.frame = none → (∀ x ∈ elems, x.1 < 32 ∧ lane w.r.live x.1 = true) → (elems.map Prod.fst).Nodup →
    (s.performPart slot w o 0 p).1.stcParts slot w mw (stcElements mw base elems q0) = (.ok parts, s2) →
    ∃ (t : State) (w' : Warp) (st : MemOp), exec (.atomicPerformed slot op 0) s0 = .next t ∧
      Stored s0 t p.place ((q0 + p.data) % 2 ^ 64) p.size ∧ t.warp slot = some w' ∧ st ∈ w'.pend ∧ st.kind = .store ∧
      st.pieces.map (fun x => (x.va, x.data)) = (parts.zip elems).map (fun x => (x.1.va, x.2.2 % 2 ^ (8 * x.1.size))) ∧
      ∀ d, ri = some d → ∀ k x, elems[k]? = some x → w'.r.vget d x.1 = BitVec.ofNat 32 (q0 + k)

/-- R34: with no active lane, an instruction only issues: its group goes on and nothing else changes. -/
def NoActiveLaneOnlyIssues : Prop :=
  ∀ (s : State) (sl : Slot) (w : Warp) (r : Regs) (i : Instr) (g : Guard),
    s.Chosen sl w r →
    ((∃ q, memReq i = some q ∧ g = q.g) ∨ (∃ c q, lateReq w r 0 i = some (g, c, q)) ∨
      (∃ b, branchRow sl.pc r i = some b ∧ g = b.g) ∨ (∃ j c x, setRow r 0 i = some (g, j, c, x)) ∨
      (match i with
        | .jwait j => g = j.g
        | .exit j => g = j.g
        | .fence j => g = j.g
        | .barWait j => g = j.g
        | .barTest j => g = j.g
        | .waitc j => g = j.g
        | .waitsb j => g = j.g
        | .pause j => g = j.g
        | .bankcfg j => g = j.g
        | .fifoPush j => g = j.g
        | .fifoPop j => g = j.g
        | .catom j => g = j.g
        | _ => False)) →
    active r sl.grp g = 0 → OnlyIssues i s sl w r

/-- R293: a target that is no multiple of 4 raises "misaligned target" at the transfer, which has no other effect. -/
def MisalignedTargetsRaise : Prop :=
  ∀ (s : State) (sl : Slot) (w : Warp) (r : Regs) (i : Instr) (b : Branch),
    s.Chosen sl w r → sl.proof = false → branchRow sl.pc r i = some b → b.checked = true →
    (∃ l, l < 32 ∧ lane (active r sl.grp b.g) l = true ∧ (b.target l).toNat % 4 ≠ 0) →
    ∃ f, f.cause = 0x0A ∧ f.laddr = 0 ∧ exec i s = .next (s.taken.raise sl (active r sl.grp b.g) f)

/-- R281: a jwait that would leave every live lane waiting with no set to release raises "orphaned rejoin"; R279: on a
free set, by a lane that is no member, or at another meeting point it raises the fault of that check. -/
def JwaitChecks : Prop :=
  ∀ (s : State) (sl : Slot) (w : Warp) (r : Regs) (i : JsetI),
    let act := active r sl.grp i.g
    let x := r.jget i.j
    s.Chosen sl w r → sl.proof = false → act ≠ 0 →
    (x.open_ = false → exec (.jwait i) s = .next (s.taken.raise sl act ⟨0x63, 0, 0, 0, 0⟩)) ∧
    (x.open_ = true → act &&& ~~~x.members ≠ 0 → exec (.jwait i) s = .next (s.taken.raise sl act ⟨0x62, 0, 0, 0, 0⟩)) ∧
    (x.open_ = true → act &&& ~~~x.members = 0 → x.arrived ≠ 0 → sl.pc ≠ x.meet →
      exec (.jwait i) s = .next (s.taken.raise sl act ⟨0x60, 0, 0, 0, 0⟩))

/-- R280: the release check: on a ready set the lanes of ARRIVED stop waiting and go on at MEET, behind the jwait; the set is
empty of arrivals and stays open, the latches are invalid; every other wait, set and lane stays as it is. -/
def ReleaseFreesWaitingLanes : Prop :=
  ∀ (w : Warp), ¬NoneReady w.r →
    let ready (k : Nat) : Prop := (w.r.jget k).open_ = true ∧ (w.r.jget k).arrived ≠ 0 ∧ (w.r.jget k).arrived = (w.r.jget k).members
    let freed (k : Fin 16) (l : Nat) : Prop := ready k ∧ lane (w.r.jget k).arrived l = true
    w.release = { w with r := w.release.r, waits := w.release.waits } ∧
    (∀ x, x ∈ w.release.waits ↔
      (x ∈ w.waits ∧ ¬∃ j : Fin 16, x.kind = .jwait j ∧ ready j) ∨
        ∃ y ∈ w.waits, ∃ j : Fin 16, y.kind = .jwait j ∧ ready j ∧ x.lanes ≠ 0 ∧
          x = { y with lanes := y.lanes &&& ~~~(w.r.jget j).arrived }) ∧
    (∀ k, k < 16 → (ready k → w.release.r.jget k = { w.r.jget k with arrived := 0 }) ∧
      (¬ready k → w.release.r.jget k = w.r.jget k)) ∧
    w.release.r = { w.r with j := w.release.r.j, pc := w.release.r.pc, lvalid := 0 } ∧
    (∀ l, l < 32 → (∀ k, ¬freed k l) → w.release.r.pcGet l = w.r.pcGet l) ∧
    ∀ (k : Fin 16) (l len : Nat), l < 32 → freed k l → (∀ m, freed m l → m = k) →
      (∃ x ∈ w.waits, x.kind = .jwait k ∧ x.lanes &&& (w.r.jget k).arrived ≠ 0) →
      (∀ x ∈ w.waits, x.kind = .jwait k → x.lanes &&& (w.r.jget k).arrived ≠ 0 → x.len = len) →
      w.release.r.pcGet l = (w.r.jget k).meet + BitVec.ofNat 64 (4 * len)

/-- R294: exit outside a region retires its lanes, which quit every open set; the sets this makes ready release. -/
def ExitRetiresLanes : Prop :=
  ∀ (s : State) (sl : Slot) (w : Warp) (r : Regs) (i : PlainI),
    let act := active r sl.grp i.g
    s.Chosen sl w r → sl.proof = false → act ≠ 0 → w.levels = [] → r.j.wf = true →
    ((∃ l, l < 32 ∧ lane r.live l = true ∧ lane act l = false ∧ ¬WaitsAtJwait w l) ∨ r.live &&& ~~~act = 0 ∨
      ∃ k, k < 16 ∧ (r.jget k).open_ = true ∧ (r.jget k).arrived ≠ 0 ∧
        (r.jget k).arrived = (r.jget k).members &&& ~~~act) →
    ∃ (t : State) (w1 : Warp), exec (.exit i) s = .next t ∧ s.SameOutside t sl.w ∧ t.warp sl.w = some w1.release ∧
      w1 = { w with r := w1.r, proof := w1.proof } ∧ r.Advanced w1.r sl ∧
      w1.r = { r with j := w1.r.j, live := r.live &&& ~~~act, pc := w1.r.pc, gseq := w1.r.gseq } ∧
      ∀ k, w1.r.jget k = { r.jget k with members := (r.jget k).members &&& ~~~act }

/-- R230: bar.wait on a well-formed object: the group goes on at once where the phase differs from bit 0 of par, and is
held otherwise. -/
def BarWaitHoldsUntilThePhase : Prop :=
  ∀ (s : State) (sl : Slot) (w : Warp) (r : Regs) (i : BarWaitI) (x : Nat),
    let act := active r sl.grp i.g
    let va := barAddress r i.scratch i.obj
    let par := (⟨r, 0, act, 0⟩ : Rd).word i.par 0 % 2
    s.Chosen sl w r → sl.proof = false → act ≠ 0 → ObjectReads s sl w i.scratch va 16 x → WellFormedBarrier x →
    (phaseOf x ≠ par → Continues (.barWait i) s sl w r) ∧
    (phaseOf x = par → ∃ sc, HoldsGroup (.barWait i) s sl w r (.barWait va i.scratch (par == 1) sc act))

/-- R230: bar.test writes 1 in every active lane where the phase differs from bit 0 of par, else 0. -/
def BarTestWritesThePhase : Prop :=
  ∀ (s : State) (sl : Slot) (w : Warp) (r : Regs) (i : BarTestI) (x : Nat),
    let act := active r sl.grp i.g
    let va := barAddress r i.scratch i.obj
    let par := (⟨r, 0, act, 0⟩ : Rd).word i.par 0 % 2
    s.Chosen sl w r → sl.proof = false → act ≠ 0 → ObjectReads s sl w i.scratch va 16 x → WellFormedBarrier x →
    ∃ (t : State) (w' : Warp), exec (.barTest i) s = .next t ∧ OnlyWarp s t sl.w ∧ t.warp sl.w = some w' ∧
      w' = { w with r := w'.r, proof := w'.proof } ∧ r.Advanced w'.r sl ∧
      w'.r = { r with p := w'.r.p, pc := w'.r.pc, gseq := w'.r.gseq } ∧
      ∀ k l, l < 32 → lane (w'.r.pget k) l =
        if k = i.pd.val ∧ k ≠ 0 ∧ lane act l = true then decide (phaseOf x ≠ par) else lane (r.pget k) l

/-- R231: waitc goes on at once where the counter is at least the value, unsigned, and is held otherwise. -/
def WaitcComparesUnsigned : Prop :=
  ∀ (s : State) (sl : Slot) (w : Warp) (r : Regs) (i : WaitcI) (x : Nat),
    let act := active r sl.grp i.g
    let value := (⟨r, 0, act, 0⟩ : Rd).dword i.value 0
    s.Chosen sl w r → sl.proof = false → act ≠ 0 → ObjectReads s sl w false (r.sget i.ctr) 8 x →
    (value ≤ x → Continues (.waitc i) s sl w r) ∧
    (x < value → ∃ sc, HoldsGroup (.waitc i) s sl w r (.waitc (r.sget i.ctr) value sc act))

/-- R233, R234: waitsb goes on where the counter is at most n, pause where its count is 0; else they hold the group, pause
for at most 4,095 clocks. -/
def WaitsbAndPauseHold : Prop :=
  ∀ (s : State) (sl : Slot) (w : Warp) (r : Regs), s.Chosen sl w r → sl.proof = false →
    (∀ i : WaitsbI, active r sl.grp i.g ≠ 0 →
      let n := (⟨r, 0, active r sl.grp i.g, 0⟩ : Rd).word i.n 0
      (w.sbCount i.sb ≤ n → Continues (.waitsb i) s sl w r) ∧
      (n < w.sbCount i.sb → HoldsGroup (.waitsb i) s sl w r (.waitsb i.sb n))) ∧
    ∀ i : PauseI, active r sl.grp i.g ≠ 0 →
      let n := (⟨r, 0, active r sl.grp i.g, 0⟩ : Rd).word i.n (Rd.once r (active r sl.grp i.g))
      (n = 0 → Continues (.pause i) s sl w r) ∧
      (n ≠ 0 → HoldsGroup (.pause i) s sl w r (.pause (min n 4095)))

/-- R369, R372, R376: every handler-bound cause that meets a warp at a boundary outside its handler, with VEC other than
0, is a trap; the boundary has room for what the trap adds to the replay queue (R378). -/
def HandlerIsEntered : Prop :=
  ∀ (s : State) (slot : Nat) (w : Warp) (t : TrapInfo), s.warp slot = some w → CanEnter w →
    w.boundaryWith t.extra = true → Entered s (s.takeTrap slot t) slot w t.cause t.sync t.laddr

/-- R379: trap n enters the handler with cause 0xF0 + n; it resumes behind the trap. -/
def TrapInstructionEnters : Prop :=
  ∀ (s : State) (sl : Slot) (w : Warp) (i : TrapI) (r : Regs),
    let act := active r sl.grp i.g
    s.Chosen sl w r → sl.proof = false → act ≠ 0 → CanEnter w →
    ∃ t, exec (.trap i) s = .next t ∧
      Entered s t sl.w w (0xF0 + (⟨r, 0, 0, 0⟩ : Rd).word i.n 0 % 16) (some (sl.grp, act, sl.after)) 0

/-- R373: at a boundary the warp takes its oldest queued asynchronous error: no trapping lanes, resume PC 0, p1 0. -/
def QueuedErrorsAreTaken : Prop :=
  ∀ (s : State) (slot : Nat) (w : Warp) (e : AsyncErr) (rest : List AsyncErr),
    s.warp slot = some w → CanEnter w → w.stopped = false → w.async = e :: rest → (∀ x ∈ w.det, e.time < x.time) →
    (∀ x ∈ rest, e.time ≤ x.time) → e.cause < 0xC0 ∨ 0xE0 ≤ e.cause →
    ∃ t w', exec (.takeTrap slot) s = .next t ∧ Entered s t slot w e.cause none e.laddr ∧ t.warp slot = some w' ∧
      w'.async = rest

/-- R93: a pending result is written with its flags; R370: an enabled flag among them queues an arithmetic error, the cause
of the lowest such flag, every flag of the instruction in W0. -/
def PendingResultsAreWritten : Prop :=
  ∀ (s : State) (slot k : Nat) (w : Warp) (r : Regs) (x : Result),
    s.warp slot = some w → w.results[k]? = some x → w.side x.proof = some r →
    ∃ t, exec (.resultWriteback slot k) s = .next t ∧
      ((x.proof = true ∨ x.flags &&& r.tmask = 0) →
        ∃ w', t.warp slot = some w' ∧ w'.side x.proof = some (x.deliver r) ∧ w'.results = w.results.filter (fun y => y != x) ∧
          w' = { w with r := w'.r, proof := w'.proof, results := w'.results } ∧ t = { s with warps := t.warps }) ∧
      (∀ j, j < 6 → x.proof = false → r.frame = none → (x.flags &&& r.tmask).getLsbD j = true →
        (∀ m, m < j → (x.flags &&& r.tmask).getLsbD m = false) →
        ∃ w' e, t.warp slot = some w' ∧ w'.r = x.deliver r ∧ w'.async = w.async ++ [e] ∧ e.cause = 0x40 + j ∧
          e.w0 = x.flags.zeroExtend 64 ∧ e.pc = x.pc ∧ e.gseq = x.gseq ∧ e.lanes = x.act)

/-- R370: a one-clock floating instruction or conversion that sets an enabled flag outside a handler writes its results and
queues the arithmetic error of the lowest such flag. -/
def EnabledFlagsQueueAnError : Prop :=
  ∀ (s : State) (sl : Slot) (w : Warp) (r : Regs) (i : Instr) (q : Row) (x j : Nat),
    let act := active r sl.grp q.g
    let res := q.res ⟨r, x, act, s.opSeq⟩
    let set := flagsOf act q.d res
    s.Chosen sl w r → (floatRow i = some q ∨ exactRow i = some q ∨ convertRow i = some q) →
    s.Reads sl w act (winOf q.srcs) x → q.multi = false → sl.proof = false → r.frame = none → j < 6 →
    (set &&& r.tmask).getLsbD j = true → (∀ m, m < j → (set &&& r.tmask).getLsbD m = false) →
    ∃ (t : State) (w' : Warp) (e : AsyncErr), exec i s = .next t ∧ s.SameOutside t sl.w ∧ t.warp sl.w = some w' ∧
      r.Advanced w'.r sl ∧ Written r w'.r act q.d q.pd res ∧ w'.r.fpflags = r.fpflags ||| set.zeroExtend 64 ∧
      w'.async = w.async ++ [e] ∧ e.cause = 0x40 + j ∧ e.w0 = set.zeroExtend 64 ∧ e.pc = sl.pc ∧ e.lanes = act

/-- R347: csrr writes a special register's value into a scalar, or its words into the active lanes; sr.laneid is each
lane's number. -/
def CsrrReadsSpecialRegisters : Prop :=
  ∀ (s : State) (sl : Slot) (w : Warp) (r : Regs) (i : CsrrI),
    let act := active r sl.grp i.g
    let value (f : Nat → Nat) (n : Nat) : Prop :=
      ∃ t r', exec (.csrr i) s = .next t ∧ RegsDone s t sl w r' ∧ r.Advanced r' sl ∧
        r' = { r with v := r'.v, s := r'.s, pc := r'.pc, gseq := r'.gseq } ∧
        match i.d with
        | .s k => (∀ j, r'.sget j = if j = k.val then BitVec.ofNat 64 (f 0) else r.sget j) ∧ r'.v = r.v
        | .v k => (∀ j l, l < 32 → r'.vget j l = if lane act l = true ∧ k.val ≤ j ∧ j < k.val + n
            then BitVec.ofNat 32 (f l / 2 ^ (32 * (j - k.val))) else r.vget j l) ∧ r'.s = r.s
        | .b0 => True
    s.Chosen sl w r → sl.proof = false → act ≠ 0 → i.d ≠ .b0 → (∀ f, r.frame = some f → f.gseq ≤ r.gseq.toNat) →
    (∀ z, specialValue s sl.w w r i.srn.toNat = some z → value (fun _ => z.1) z.2) ∧
    (i.srn = 0 → (∃ k, i.d = .v k) → value (fun l => l) 1)

/-- R348: csrw writes sr.bankconf whole, the six flags of sr.fpflags, and, privileged, sr.skip of the quadrant; any
other number raises "special register". -/
def CsrwWritesSpecialRegisters : Prop :=
  ∀ (s : State) (sl : Slot) (w : Warp) (r : Regs) (i : CsrwI) (x : Nat),
    let act := active r sl.grp i.g
    let value : DWord := BitVec.ofNat 64 ((⟨r, x, act, 0⟩ : Rd).dword i.a 0)
    s.Chosen sl w r → sl.proof = false → act ≠ 0 → s.Reads sl w act (winOf [(i.a, true)]) x →
    (i.srn = 0x0C → ∃ t r', exec (.csrw i) s = .next t ∧ RegsDone s t sl w r' ∧ r.Advanced r' sl ∧
      r' = { r with pc := r'.pc, gseq := r'.gseq, bankconf := value }) ∧
    (i.srn = 0x0E → ∃ t r', exec (.csrw i) s = .next t ∧ RegsDone s t sl w r' ∧ r.Advanced r' sl ∧
      r' = { r with pc := r'.pc, gseq := r'.gseq, fpflags := value &&& 0x3F }) ∧
    (i.srn = 0x81 → s.privileged w = true → ∃ t w', exec (.csrw i) s = .next t ∧ t.warp sl.w = some w' ∧
      Passed r w'.r sl ∧ ∀ q, t.skip.get q = if q = sl.w / 17 then value else s.skip.get q) ∧
    (i.srn ≠ 0x0C → i.srn ≠ 0x0E → i.srn ≠ 0x80 → i.srn ≠ 0x81 →
      exec (.csrw i) s = .next (s.taken.raise sl act ⟨0xE5, 0, 0, 0, 0⟩))

/-- R46, R379: nop only issues. -/
def NopOnlyIssues : Prop :=
  ∀ (s : State) (sl : Slot) (w : Warp) (r : Regs) (i : PlainI), s.Chosen sl w r → OnlyIssues (.nop i) s sl w r

/-- R143: a Platen instruction whose group lacks a live lane, or has no active lane, raises "partial group". -/
def PartialGroupsRaise : Prop :=
  ∀ (s : State) (sl : Slot) (w : Warp) (r : Regs) (i : Instr) (q : PlatReq),
    s.Chosen sl w r → sl.proof = false → platReq i = some q → ¬WholeGroup r sl.grp (active r sl.grp q.g) →
    exec i s = .next (s.taken.raise sl (active r sl.grp q.g) ⟨0xA0, 0, 0, 0, 0⟩)

/-- R255: LOOP opens its loop with its counter at 0, or passes behind the next ENDLOOP on the counter when its count is
0; ENDLOOP counts and goes back to behind its LOOP until the trips are made. -/
def LoopStepsCount : Prop :=
  ∀ (s s1 : State) (id : Nat) (c : Cmd) (p0 p : ImpState) (f : Step) (r : Route), AtStep s s1 id c p0 p f r →
    (f.opc = 7 → (∀ x ∈ p.loops, x.1 ≠ f.lc) → f.count ≠ 0 → EndsPlainly c p (p.step + 1) →
      ∃ t, exec (.stepLoop id) s = .next t ∧ SameMemory s t ∧
        GoesTo t id p (p.step + 1) (p.ctr.set f.lc 0) ((f.lc, p.step, f.count) :: p.loops)) ∧
    (∀ j, f.opc = 7 → (∀ x ∈ p.loops, x.1 ≠ f.lc) → f.count = 0 → EndsPlainly c p (j + 1) →
      s1.findEnd c p.desc f.lc (p.desc.nstep - (p.step + 1)) (p.step + 1) = some j →
      ∃ t, exec (.stepLoop id) s = .next t ∧ SameMemory s t ∧ GoesTo t id p (j + 1) (p.ctr.set f.lc 0) p.loops) ∧
    ∀ j trips rest, f.opc = 8 → p.loops = (f.lc, j, trips) :: rest → (∀ x ∈ rest, x.1 ≠ f.lc) →
      let n := p.ctr.getD f.lc 0 + 1
      (n < trips → EndsPlainly c p (j + 1) →
        ∃ t, exec (.stepEndloop id) s = .next t ∧ SameMemory s t ∧ GoesTo t id p (j + 1) (p.ctr.set f.lc n) p.loops) ∧
      (trips ≤ n → EndsPlainly c p (p.step + 1) →
        ∃ t, exec (.stepEndloop id) s = .next t ∧ SameMemory s t ∧ GoesTo t id p (p.step + 1) (p.ctr.set f.lc n) rest)

/-- R255, R331: WAIT goes on when its word is at least its count, unsigned, and polls until then; SIGNAL adds its count to its
word modulo 2^64, at once on its Feeder's own sheet, and as a post, for which the step waits, on another. -/
def WaitAndSignalSteps : Prop :=
  ∀ (s s1 : State) (id : Nat) (c : Cmd) (p0 p : ImpState) (f : Step) (r : Route) (x : Phys) (s2 : State) (n : Need),
    let va := BitVec.ofNat 64 (wrap r.dst 64)
    AtStep s s1 id c p0 p f r → EndsPlainly c p (p.step + 1) → s1.translate c.mmu c.ctx va n = (.ok x, s2) →
    s.poisoned x.place 8 = false →
    (f.opc = 5 → n = .read → p.begun = false →
      (f.count ≤ s.readLe x.place 8 →
        ∃ t, exec (.stepWait id) s = .next t ∧ SameMemory s t ∧ GoesTo t id p (p.step + 1) p.ctr p.loops) ∧
      (s.readLe x.place 8 < f.count → ∃ t c', exec (.stepWait id) s = .next t ∧ SameMemory s t ∧ t.cmd id = some c' ∧
        c'.imp = some { p with begun := true })) ∧
    (f.opc = 5 → n = .read → p.begun = true → f.count ≤ s.readLe x.place 8 →
      ∃ t, exec (.impositionWaitMet id) s = .next t ∧ SameMemory s t ∧ GoesTo t id p (p.step + 1) p.ctr p.loops) ∧
    (f.opc = 6 → n = .readWrite → x.mig = false → s2.isMoving x.place = false → PlaceExists s x.place →
      (x.sheet = c.feeder / 4 → ∃ t, exec (.stepSignal id) s = .next t ∧ GoesTo t id p (p.step + 1) p.ctr p.loops ∧
        Stored s t x.place ((s.readLe x.place 8 + f.count) % 2 ^ 64) 8) ∧
      (x.sheet ≠ c.feeder / 4 → ∃ t n c', exec (.stepSignal id) s = .next t ∧ SameMemory s t ∧
        t.posts = s.posts ++ [⟨n, id, .step, va, f.count % 2 ^ 64⟩] ∧ t.cmd id = some c' ∧ c'.imp = some { p with begun := true }))

/-- R251: the first credit of an inbound step of level 0, for what its channel's next inbound step is: as many chunks as may be
granted, and what must agree with the matched step. -/
def InboundStepsGiveCredit : Prop :=
  ∀ (s s1 : State) (id : Nat) (c : Cmd) (p0 p : ImpState) (f : Step) (r : Route) (i : Instr),
    AtStep s s1 id c p0 p f r → moveInstr f.opc id = some i → f.receives = true → f.lvl = 0 → p.ins = [] →
    ∃ t c' p' e x, exec i s = .next t ∧ SameMemory s t ∧ t.cmd id = some c' ∧ c'.imp = some p' ∧ p'.ins = [e] ∧
      p' = { p with ins := [e] } ∧ e.step = p.step ∧ e.no = (s.inChan c p.desc r).nextIn ∧ e.recvd = [] ∧
      e.upto = min (chunkCount f r) 32768 ∧ x ∈ (t.inChan c p.desc r).credits ∧
      x = ⟨e.no, f.rop, f.count, r.b, id, p.step, e.upto⟩ ∧ (t.inChan c p.desc r).nextIn = e.no + 1

/-- R240, R255: a step that moves elements and owes no credit makes its next chunk when its Feeder serves it. -/
def TransferStepsAreServed : Prop :=
  ∀ (s s1 : State) (id : Nat) (c : Cmd) (p0 p : ImpState) (f : Step) (r : Route) (i : Instr) (d : Cmd) (u : State),
    AtStep s s1 id c p0 p f r → moveInstr f.opc id = some i →
    (f.receives = true → ∃ e, p.here = some e ∧ (e.lacks < e.upto ∨ chunkCount f r ≤ e.lacks)) →
    s1.serve c.feeder = some (d, u) → d.id = id → exec i s = .next u

/-- R251, R255, R256: a transfer step or a COPY alone on its Feeder, of which a chunk may move, moves it: the local elements it writes
are at their places and no other byte changes; what it sends is the next chunk of its transfer at level 0, a write with immediate at
level 1; and the program is behind the chunk, or, with the last, at its next step. -/
def TransferStepsMoveChunks : Prop :=
  ∀ (s s1 s0 s2 s3 : State) (id : Nat) (c : Cmd) (p0 p : ImpState) (f : Step) (r : Route) (i : Instr) (k n o : Nat)
    (inn : List (Nat × Bool)) (ps pd : List Place),
    let sd := runSide r.a r.src
    let dd := runSide r.b r.dst
    let d := if f.opc = 1 then [] else s2.readElems sd ps
    let loc := (chunkGives f r d inn).1
    let out := (chunkGives f r d inn).2
    let before := (((s.outChan c p.desc r).sends.find? fun x => x.no == n).map Transfer.chunks).getD []
    AtStep s s1 id c p0 p f r → AloneOnFeeder s c → moveInstr f.opc id = some i → EndsPlainly c p (p.step + 1) →
    ChunkReady s1 s0 c p f r k n o inn →
    (if f.opc = 1 then s2 = s0
      else s0.globalPlaces c.mmu c.ctx .read sd.part (runAddrs r.a r.src (chunkSpan f r k).1 (chunkSpan f r k).2) = (.ok ps, s2)) →
    (if f.opc = 0 ∨ f.opc = 2 then pd = [] ∧ s3 = s2
      else s2.globalPlaces c.mmu c.ctx .write dd.part (runAddrs r.b r.dst (chunkSpan f r k).1 loc.length) = (.ok pd, s3)) →
    (f.opc ≠ 2 → pd.length = loc.length * dd.parts) → pd.Pairwise (Apart dd.part) → (∀ q ∈ pd, s3.isMoving q = false ∧ PlaceExists s q) →
    (f.lvl = 1 → ∀ x ∈ out, x.2 = false) →
    ∃ t, exec i s = .next t ∧
      (f.opc ≠ 0 → f.opc ≠ 2 → (∀ j, j < loc.length → elemAt t dd pd j =
          match loc.getD j none with
          | some x => x.1 % 2 ^ (8 * dd.part * dd.parts)
          | none => elemAt s dd pd j)) ∧
      (∀ q, (∀ x ∈ pd, ∀ j, j < dd.part → q ≠ x.add j) → t.byte q = s.byte q) ∧
      (f.sends = true → f.lvl = 0 → (f.receives = true → p.desc.feed.getD r.dest 0 ≠ c.feeder) →
        ∃ x ∈ (t.outChan c p.desc r).sends, x.no = n ∧ x.chunks = before ++ [out]) ∧
      (f.sends = true → f.lvl = 1 → ∃ g, p.grant = some g ∧ t.replies = s.replies ++
        [.write o r.dest (chunkImm p.desc.tag g.step k) (chunkPayload (wireBytes f r) out)]) ∧
      let more := ∃ c' p', t.cmd id = some c' ∧ c'.imp = some p' ∧ p'.step = p.step ∧ p'.cur = p.cur ∧ p'.ctr = p.ctr ∧
        (f.receives = false ∨ f.sends = true → p'.sent = k + 1) ∧
        (f.receives = true → ∃ e e', p.here = some e ∧ p'.here = some e' ∧ ∀ j, j ∈ e'.recvd ↔ j = k ∨ j ∈ e.recvd)
      let last := GoesTo t id p (p.step + 1) p.ctr p.loops
      (f.receives = false ∨ f.sends = true → if k + 1 < chunkCount f r then more else last) ∧
      ∀ e, f.receives = true → f.sends = false → p.here = some e → k ∉ e.recvd →
        if e.recvd.length + 1 < chunkCount f r then more else last

/-- R255: a COPY step alone on its Feeder, over 4-byte elements in unpoisoned aligned global memory, copies its elements
in one chunk. -/
def CopyStepsMoveElements : Prop :=
  ∀ (s s1 : State) (id : Nat) (c : Cmd) (p0 p : ImpState) (f : Step) (r : Route) (ps pd : List Place) (s2 s3 : State),
    AtStep s s1 id c p0 p f r → AloneOnFeeder s c → EndsPlainly c p (p.step + 1) → f.opc = 4 → r.a = 0 → r.b = 0 → f.rop = 0 →
    r.src % 4 = 0 → r.dst % 4 = 0 → p.sent = 0 → f.count ≤ 16384 →
    s1.globalPlaces c.mmu c.ctx .read 4 ((List.range f.count).map fun k => r.src + 4 * k) = (.ok ps, s2) →
    s2.globalPlaces c.mmu c.ctx .write 4 ((List.range f.count).map fun k => r.dst + 4 * k) = (.ok pd, s3) →
    ps.length = f.count → pd.length = f.count → pd.Pairwise (Apart 4) →
    (∀ q ∈ pd, s3.isMoving q = false ∧ PlaceExists s q) → (∀ q ∈ ps, s.poisoned q 4 = false) →
    ∃ t, exec (.stepCopy id) s = .next t ∧ GoesTo t id p (p.step + 1) p.ctr p.loops ∧
      (∀ k, k < f.count → t.readLe (pd.getD k (.hbm 0)) 4 = s.readLe (ps.getD k (.hbm 0)) 4) ∧
      ∀ q, (∀ x ∈ pd, ∀ j, j < 4 → q ≠ x.add j) → t.byte q = s.byte q

/-- The state in which a packet of a port has been answered with a congestion notification, where ECN marked it (R431). -/
def noted (s : State) (port peer : Nat) (ecn : Bool) : State :=
  { s with replies := s.replies ++ if ecn then [.cnp port peer] else [] }

/-- A message is dropped and counted at its port (R251). -/
def Drops (i : Instr) (s u : State) (port : Nat) : Prop :=
  ∃ t, exec i s = .next t ∧ t = { u with dropped := t.dropped } ∧
    ∀ k, t.dropped.get k = s.dropped.get k + if k = port then 1 else 0

/-- A message changes the program of a command, and nothing else. -/
def Takes (i : Instr) (s u : State) (c : Cmd) (p : ImpState) : Prop :=
  ∃ t c', exec i s = .next t ∧ t = { u with cmds := t.cmds } ∧ t.cmd c.id = some c' ∧ c'.imp = some p ∧
    ∀ k, k ≠ c.id → t.cmd k = s.cmd k

/-- R251, R256: the layouts of Credit and Abort. A message that is malformed, or that no program with its TAG behind its port awaits,
is dropped and counted. A credit sets what its sender may send, or is kept for an outbound step to come (log 48); a chunk that may
come joins its step's stream, and one that does not fit it is a mismatch; an abort is noted for its program. -/
def MessagesReachTheirProgram : Prop :=
  (∀ m : CreditMsg, m.tag < 2 ^ 8 → m.step < 2 ^ 16 → m.rkey < 2 ^ 32 → m.first < 2 ^ 32 → m.count < 2 ^ 32 →
    CreditMsg.ofBytes (leBytes m.tag 1 ++ leBytes m.step 2 ++ [0] ++ leBytes m.rkey 4 ++ leBytes m.landing.toNat 8 ++
      leBytes m.first 4 ++ leBytes m.count 4 ++ List.replicate 8 0) = some m) ∧
  (∀ m : AbortMsg, m.tag < 2 ^ 8 → m.step < 2 ^ 16 → m.status < 2 ^ 8 →
    AbortMsg.ofBytes (leBytes m.tag 1 ++ leBytes m.step 2 ++ leBytes m.status 1 ++ List.replicate 28 0) = some m) ∧
  ∀ (s : State) (port peer : Nat) (ecn : Bool),
    let u := noted s port peer ecn
    (∀ l, (∀ m, CreditMsg.ofBytes l = some m → u.programOf port peer m.tag = none) → Drops (.credit port ⟨peer, ecn⟩ l) s u port) ∧
    (∀ l m c p, CreditMsg.ofBytes l = some m → u.programOf port peer m.tag = some (c, p) → c ∈ s.cmds →
      let g : Grant := ⟨peer, m.step, m.landing, m.first, m.count⟩
      (∀ x, p.grant = some x → x.peer = peer → x.landing = m.landing →
        Takes (.credit port ⟨peer, ecn⟩ l) s u c { p with grant := some g, sent := min p.sent m.first }) ∧
      (p.grant = none → (∀ x ∈ p.offers, x.peer ≠ peer ∨ x.landing ≠ m.landing) →
        (m.first = 0 → Takes (.credit port ⟨peer, ecn⟩ l) s u c { p with offers := p.offers ++ [g] }) ∧
        (m.first ≠ 0 → Drops (.credit port ⟨peer, ecn⟩ l) s u port))) ∧
    (∀ imm data, u.programOf port peer (imm.toNat / 2 ^ 24) = none → Drops (.chunk port ⟨peer, ecn⟩ ⟨imm, data⟩) s u port) ∧
    (∀ imm data c p before e after f r, u.programOf port peer (imm.toNat / 2 ^ 24) = some (c, p) → c ∈ s.cmds → c.suspended = false →
      p.ins = before ++ e :: after → (∀ b ∈ before, b.waitsFor p.desc peer (imm.toNat % 2 ^ 8) (imm.toNat / 2 ^ 8 % 2 ^ 16) = none) →
      parsedAt p.desc e.ctr e.raw = some (f, r) → f.lvl = 1 → r.frm = peer → e.step % 2 ^ 8 = imm.toNat % 2 ^ 8 →
      let low := imm.toNat / 2 ^ 8 % 2 ^ 16
      let k := e.lacks + (low + 65536 - e.lacks % 65536) % 65536
      k < e.upto → k ∉ e.recvd → (∀ x ∈ e.stream, x.1 ≠ k) →
      (∀ l, payloadElems (wireBytes f r) (chunkSpan f r k).2 data = some l →
        Takes (.chunk port ⟨peer, ecn⟩ ⟨imm, data⟩) s u c { p with
          ins := p.ins.map fun y => if y = e then { y with stream := y.stream ++ [(k, l)] } else y
          idle := if p.here = some e then 0 else p.idle }) ∧
      (payloadElems (wireBytes f r) (chunkSpan f r k).2 data = none →
        Takes (.chunk port ⟨peer, ecn⟩ ⟨imm, data⟩) s u c { p with aborts := p.aborts ++ [(peer, e.step, 0x21)] })) ∧
    (∀ l, (∀ m, AbortMsg.ofBytes l = some m → u.programOf port peer m.tag = none) → Drops (.abort port ⟨peer, ecn⟩ l) s u port) ∧
    ∀ l m c p, AbortMsg.ofBytes l = some m → u.programOf port peer m.tag = some (c, p) → c ∈ s.cmds →
      Takes (.abort port ⟨peer, ecn⟩ l) s u c { p with aborts := p.aborts ++ [(peer, m.step, m.status)] }

/-- R243, R244, R252, R256: a transfer step without progress for its timeout, and a step at level 1 whose link
fails, end their program with status 0x23. -/
def TransfersThatFailEndTheProgram : Prop :=
  ∀ (s : State) (id slot g : Nat) (c : Cmd) (p : ImpState) (f : Step) (r : Route) (w : Warp),
    s.cmd id = some c → c.imp = some p → p.parsed = some (f, r) → c.killed = false → c.suspended = false →
    c.owner = .warp slot g → s.warp slot = some w → w.gang = g → w.r.frame = none → w.r.live ≠ 0 → c.cr = none → f.opc < 4 →
    let word := 0x23 + 2 ^ 8 * p.step + 2 ^ 24 * p.wireDone
    (p.desc.timeout ≠ 0 → 1000 * p.desc.timeout ≤ p.idle →
      ∃ t, exec (.transferTimeout id) s = .next t ∧ Fails s t c slot w word) ∧
    (f.lvl = 1 → ∃ t, exec (.linkFailure id) s = .next t ∧ Fails s t c slot w word)

/-- R241 to R243, R245: a copy's instruction by the whole group whose records fit each other and lie where it can reach, and whose
barrier, counter and completion record pass their checks, gives one command. -/
def CopiesAreAccepted : Prop :=
  ∀ (s s1 s2 s3 s4 : State) (sl : Slot) (w : Warp) (r : Regs) (i : Instr) (j : CpyI) (kind : CmdKind) (ctr : Option DWord) (d a : LRec)
    (tie : Option Place) (va : DWord),
    s.Chosen sl w r → sl.proof = false → w.proof = none → (w.levels = [] ∨ w.deferredUsed < 32) → copyRow r i = some (j, kind, ctr) →
    WholeGroup r sl.grp (active r sl.grp j.g) →
    s.taken.readRecords sl.w w [r.sget j.dst, r.sget j.src] = (.ok [d, a], s1) → copyOk kind d a = true →
    (w.home = sl.w ∨ (d.space = 0 ∧ a.space = 0)) → TiePasses s1 s2 sl w r j.bar tie va →
    WordPasses s2 s3 sl w 8 .readWrite ctr → WordPasses s3 s4 sl w 16 .write (j.cr.map fun k => r.sget k) →
    GivesCommand i s sl w r fun c => c.kind = kind ∧ c.feeder = w.feeder ∧ c.dst = d ∧ c.src = a ∧ c.tie = tie ∧ c.tieVa = va ∧
      c.scope = j.scope ∧ c.tok = j.tk ∧ c.cr = j.cr.map (fun k => r.sget k) ∧ c.imp = none

/-- R241 to R243, R252: imp.start by the whole group, whose descriptor is well-formed and allowed and whose completion record passes its
checks, gives its Feeder one program, at its first step. -/
def ProgramsAreAccepted : Prop :=
  ∀ (s s1 s2 : State) (sl : Slot) (w : Warp) (r : Regs) (i : ImpI) (x : Nat),
    s.Chosen sl w r → sl.proof = false → w.proof = none → (w.levels = [] ∨ w.deferredUsed < 32) →
    WholeGroup r sl.grp (active r sl.grp i.g) → (r.sget i.desc).toNat % 64 = 0 →
    s.taken.constWords sl.w w.ctx (r.sget i.desc) 32 = (.ok (x, false), s1) → Desc.ok x = true → s.feature 8 = true →
    (Desc.ofNat x).feeder ∈ s.allowedFeeders (s.warpRcb w) → WordPasses s1 s2 sl w 16 .write (i.cr.map fun k => r.sget k) →
    GivesCommand (.impStart i) s sl w r fun c => c.kind = .imp ∧ c.feeder = (Desc.ofNat x).feeder ∧ c.scope = i.scope ∧ c.tok = i.tk ∧
      c.cr = i.cr.map (fun k => r.sget k) ∧ ∃ p, c.imp = some p ∧ p.desc = Desc.ofNat x ∧ p.step = 0 ∧ p.cur = none ∧
        p.ctr = [0, 0, 0, 0] ∧ p.loops = [] ∧ p.sent = 0 ∧ p.ins = [] ∧ p.grant = none

/-- R26 to R28, R275, R276: the instruction at the PC of all live lanes is chosen. -/
def OneGroupIssues : Prop :=
  ∀ (s s1 : State) (q slot : Nat) (w : Warp) (pc : DWord) (i : Instr) (len : Nat), Quiet s q slot w → w.r.live ≠ 0 →
    (∀ l, l < 32 → lane w.r.live l = true → w.r.pcGet l = pc) → Fetches s s1 slot w w.r.live pc i len →
    ∃ (t : State) (w' : Warp), exec (.issueOpportunity q) s = .next t ∧ t.issue = [⟨slot, false, w.r.live, pc, len, i⟩] ∧
      t.warp slot = some w' ∧ w' = { w with r := w'.r } ∧ w'.r = { w.r with ages := w'.r.ages } ∧
      (∀ k, k ≠ slot → t.warp k = s.warp k) ∧ SameMemory s t

/-- R48, R12, R28, R40: a fetch that fails translation raises that cause; then, in this order, an instruction that crosses its
fetch block, words that decode to no instruction, a register out of grant and a stale latch raise theirs, whatever the guard. A
PC that is no multiple of 4 raises 0x0A (the model's choice: log 33). -/
def DecodeChecksRaise : Prop :=
  ∀ (s s1 : State) (q slot : Nat) (w : Warp) (pc : DWord) (key : Nat), Quiet s q slot w → CanEnter w → w.r.live ≠ 0 →
    (∀ l, l < 32 → lane w.r.live l = true → w.r.pcGet l = pc) →
    let act := active w.r w.r.live (wordGuard (firstWord s key))
    let len := lenWords (firstWord s key)
    let here := CodeAt s s1 slot w pc key ∧ isQuad (firstWord s key) = false
    (∀ c e, pc.toNat % 4 = 0 → s.translate (slotQuadId slot) w.ctx pc .fetch = (.error (.cause c e), s1) →
      OpportunityRaises s q slot w pc c w.r.live pc) ∧
    (here → 8 < pc.toNat % 32 / 4 + len → OpportunityRaises s q slot w pc 0x03 act 0) ∧
    (∀ e, here → pc.toNat % 32 / 4 + len ≤ 8 → decodeNat (blockWords s key) = .error e →
      OpportunityRaises s q slot w pc e.code act 0) ∧
    (∀ i, here → pc.toNat % 32 / 4 + len ≤ 8 → decodeNat (blockWords s key) = .ok i →
      ((useOf i).outOfGrant w.vgrant w.tgrant = true → OpportunityRaises s q slot w pc 0x08 act 0) ∧
      ((useOf i).outOfGrant w.vgrant w.tgrant = false → staleLatch w.r w.r.live (useOf i) = true →
        OpportunityRaises s q slot w pc 0x09 act 0)) ∧
    (pc.toNat % 4 ≠ 0 → OpportunityRaises s q slot w pc 0x0A w.r.live 0)

/-- R27: a quad at the PC of all live lanes is not issued: their PC advances by 4, with no other effect, and the instruction
behind it is chosen. -/
def QuadsAreSteppedOver : Prop :=
  ∀ (s s1 s2 : State) (q slot : Nat) (w : Warp) (pc : DWord) (key : Nat) (i : Instr) (len : Nat),
    Quiet s q slot w → w.r.live ≠ 0 → (∀ l, l < 32 → lane w.r.live l = true → w.r.pcGet l = pc) →
    CodeAt s s1 slot w pc key → firstWord s key = 3 → Fetches s1 s2 slot w w.r.live (pc + 4) i len →
    ∃ (t : State) (w' : Warp), exec (.issueOpportunity q) s = .next t ∧
      t.issue = [⟨slot, false, w.r.live, pc + 4, len, i⟩] ∧ t.warp slot = some w' ∧ w' = { w with r := w'.r } ∧
      w'.r = { w.r with pc := w'.r.pc, ages := w'.r.ages } ∧
      (∀ l, l < 32 → w'.r.pcGet l = if lane w.r.live l then pc + 4 else w.r.pcGet l) ∧
      (∀ k, k ≠ slot → t.warp k = s.warp k) ∧ SameMemory s t

/-- R92, R276: two groups of young lanes whose instructions are both of an eligible class and name neither a latch nor a constant
window are chosen together; a movp that reads a predicate its fellow writes takes effect first, both being of one clock. -/
def EligibleGroupsIssueTogether : Prop :=
  ∀ (s s1 s2 : State) (q slot : Nat) (w : Warp) (m : Mask) (a b : DWord) (i j : Instr) (la lb : Nat),
    Quiet s q slot w → m &&& ~~~w.r.live = 0 → m ≠ 0 → w.r.live &&& ~~~m ≠ 0 → a < b →
    (∀ l, l < 32 → lane w.r.live l = true → w.r.pcGet l = if lane m l then a else b) → (∀ l, w.r.ages.get l < 32) →
    Fetches s s1 slot w m a i la → Fetches s1 s2 slot w (w.r.live &&& ~~~m) b j lb →
    (∀ x, x = i ∨ x = j → dualEligible x = true ∧ namesLatch x = false ∧ usesWindow x = false) →
    let x : Slot := ⟨slot, false, m, a, la, i⟩
    let y : Slot := ⟨slot, false, w.r.live &&& ~~~m, b, lb, j⟩
    ∃ (t : State) (w' : Warp), exec (.issueOpportunity q) s = .next t ∧
      t.issue = (if movesFirst i j then [y, x] else [x, y]) ∧ t.warp slot = some w' ∧ w' = { w with r := w'.r } ∧
      w'.r = { w.r with ages := w'.r.ages }

/-- R391, R396: rgn.begin opens a level inside those that are open: its label is relative to it, it has the retries asked for
and keeps nothing yet; the outermost takes the room of a galley. -/
def RegionBeginOpensALevel : Prop :=
  ∀ (s : State) (sl : Slot) (w : Warp) (r : Regs) (i : RgnBeginI),
    s.Chosen sl w r → sl.proof = false → RegionGroup r sl.grp (active r sl.grp i.g) → w.levels.length < 4 →
    (w.levels ≠ [] ∨ s.galleyRoom (sl.w / 68) ≠ []) →
    ∃ (w' : Warp) (l : Level), RegionPassed (.rgnBegin i) s sl w r w' ∧ w'.levels = l :: w.levels ∧
      (w.levels ≠ [] → SameCounts w w') ∧
      (w.levels = [] → w'.galley ∈ s.galleyRoom (sl.w / 68) ∧ w'.lastCause = 0 ∧ w'.rolls = 0 ∧ w'.soft = false) ∧
      l.label = sl.pc + BitVec.ofInt 64 (4 * i.loff.toInt) ∧ l.retry = i.retry.val ∧ l.held = [] ∧ l.deferred = [] ∧
      l.kv = [] ∧ l.ks = [] ∧ l.kp = [] ∧ l.kj = [] ∧ l.kt = []

/-- R392: rgn.keep adds the values of the registers it names to its level; what the level kept of others stays. -/
def RegionKeepKeepsValues : Prop :=
  ∀ (s : State) (sl : Slot) (w : Warp) (r : Regs) (i : RgnKeepI) (l : Level) (rest : List Level),
    s.Chosen sl w r → sl.proof = false → RegionGroup r sl.grp (active r sl.grp i.g) → w.levels = l :: rest →
    let w1 := w.modInner fun lv => lv.keep r w.tiles (keepUse i)
    w1.withLag.galleyUsed ≤ 128 → s.spareUsed (sl.w / 17) + w1.keptTiles - w.keptTiles ≤ 2 →
    ∃ (w' : Warp) (l' : Level), RegionPassed (.rgnKeep i) s sl w r w' ∧ SameCounts w w' ∧ w'.levels = l' :: rest ∧
      l'.held = l.held ∧ l'.deferred = l.deferred ∧ l'.label = l.label ∧ l'.retry = l.retry ∧
      (∀ k, (l'.ks.find? fun x => x.1 == k).map Prod.snd =
        if i.sfirst.val ≤ k ∧ k < i.sfirst.val + i.snum.val then some (r.sget k) else (l.ks.find? fun x => x.1 == k).map Prod.snd) ∧
      (∀ k, (l'.kv.find? fun x => x.1 == k).map Prod.snd =
        if i.vfirst.val ≤ k ∧ k < i.vfirst.val + i.vnum.val then some ((List.range 32).map fun m => r.vget k m)
        else (l.kv.find? fun x => x.1 == k).map Prod.snd) ∧
      (∀ k, k < 8 → (l'.kp.find? fun x => x.1 == k).map Prod.snd =
        if k ≠ 0 ∧ i.pmask.getLsbD k = true then some (r.pget k) else (l.kp.find? fun x => x.1 == k).map Prod.snd) ∧
      (∀ k, k < 16 → (l'.kj.find? fun x => x.1 == k).map Prod.snd =
        if i.jmask.getLsbD k = true then some (r.jget k) else (l.kj.find? fun x => x.1 == k).map Prod.snd) ∧
      ∀ k : Fin 8, if i.tile0 = some k ∨ i.tile1 = some k
        then ∃ m, (l'.kt.find? fun x => x.1 == k.val).map Prod.snd = some m ∧ ∀ e, e < 4096 → m.get e = element w k e
        else (l'.kt.find? fun x => x.1 == k.val).map Prod.snd = (l.kt.find? fun x => x.1 == k.val).map Prod.snd

/-- R393, R397, R398: the outermost rgn.end of a warp without a proof warp sends the held stores, in the order of their entries,
then the deferred memory instructions and commands, in issue order, then a release fence at .device, closes the level and holds
its group until all of these have been performed. An inner rgn.end gives its stores and its deferred work to the enclosing level.
A leader's rgn.end waits until its proof warp has issued it. -/
def RegionEndReleases : Prop :=
  ∀ (s : State) (sl : Slot) (w : Warp) (r : Regs) (i : PlainI) (l : Level),
    s.Chosen sl w r → sl.proof = false → RegionGroup r sl.grp (active r sl.grp i.g) → (∀ o ∈ w.pend, o.id < s.opSeq) →
    (∀ ops work s1 s2, w.proof = none → w.levels = [l] → (∀ h ∈ l.held, h.bad = []) →
      (∀ o ∈ memWork l.deferred, o.kind ≠ .fence) →
      s.taken.releaseOps sl w r (active r sl.grp i.g) l.held = (.ok ops, s1) →
      s1.redeferred (slotQuadId sl.w) w.ctx l.deferred = (.ok work, s2) →
      ∃ (t : State) (w' : Warp) (f : MemOp) (rest : List MemOp) (cs : List Cmd), exec (.rgnEnd i) s = .next t ∧
        t.warp sl.w = some w' ∧ (∀ k, k ≠ sl.w → t.warp k = s.warp k) ∧ SameMemory s t ∧ Passed r w'.r sl ∧
        w' = { w with r := w'.r, levels := [], pend := w.pend ++ ops ++ rest ++ [f], waits := w'.waits, resolved := w'.r.gseq.toNat } ∧
        w'.waits = w.waits ++ [⟨sl.grp, .ops ((ops ++ rest ++ [f]).map fun o => (sl.w, o.id)), 0, r.gseq.toNat⟩] ∧
        f.kind = .fence ∧ f.ord = .rel ∧ f.scope = .device ∧ (ops.filter fun o => o.kind == .store).length = l.held.length ∧
        (∀ o ∈ ops, (o.kind = .store ∧ o.ord = .rel ∧ o.scope = .device) ∨ (o.kind = .fence ∧ o.ord = .sc)) ∧
        (rest.filter fun o => o.kind != .fence).map MemOp.given = (memWork work).map MemOp.given ∧
        (∀ o ∈ rest, (o.ord = .rel ∧ o.scope = .device) ∨ (o.kind = .fence ∧ o.ord = .sc)) ∧
        t.cmds = s.cmds ++ cs ∧ cs.map (fun c => { c with id := 0 }) = (feedWork work).map fun c => { c with id := 0 }) ∧
    (∀ outer rest, w.proof = none → w.levels = l :: outer :: rest →
      ∃ (w' : Warp) (o' : Level), RegionPassed (.rgnEnd i) s sl w r w' ∧ SameCounts w w' ∧ w'.levels = o' :: rest ∧
        o'.deferred = outer.deferred ++ l.deferred ∧ o' = { outer with held := o'.held, deferred := o'.deferred } ∧
        ∀ gs b k, o'.heldByte (fun _ => true) gs b k =
          ((l.heldByte (fun _ => true) gs b k).or (outer.heldByte (fun _ => true) gs b k))) ∧
    (w.levels ≠ [] → w.proof ≠ none → HoldsGroup (.rgnEnd i) s sl w r (.proofEnd (active r sl.grp i.g)))

/-- R394: rgn.abort n is a detected error of cause 0xF0 + n of its warp, which leaves its handler if it is in one; R395:
rgn.status reads sr.rgn. -/
def RegionAbortAndStatus : Prop :=
  ∀ (s : State) (sl : Slot) (w : Warp) (r : Regs), s.Chosen sl w r → sl.proof = false →
    (∀ i : TrapI, WholeGroup r sl.grp (active r sl.grp i.g) → w.levels ≠ [] →
      ∃ (t : State) (w' : Warp) (e : AsyncErr), exec (.rgnAbort i) s = .next t ∧ t.warp sl.w = some w' ∧ w'.det = w.det ++ [e] ∧
        w'.r.frame = none ∧ w'.levels = w.levels ∧ e.cause = 0xF0 + (⟨r, 0, 0, 0⟩ : Rd).word i.n 0 % 16 ∧ e.soft = true ∧
        e.pc = sl.pc ∧ e.level = w.levels.length ∧ SameMemory s t) ∧
    ∀ i : RgnStatusI, active r sl.grp i.g ≠ 0 → (∀ f, r.frame = some f → f.gseq ≤ r.gseq.toNat) →
      ∃ (t : State) (w' : Warp), exec (.rgnStatus i) s = .next t ∧ s.SameOutside t sl.w ∧ t.warp sl.w = some w' ∧
        w' = { w with r := w'.r, proof := w'.proof, resolved := w'.resolved } ∧ r.Advanced w'.r sl ∧
        w'.r = { r with s := w'.r.s, pc := w'.r.pc, gseq := w'.r.gseq } ∧
        ∀ k, w'.r.sget k = if k = i.d.val then w.rgn else r.sget k

/-- R388, R389, R391 to R393, R400: a region instruction inside a handler, by a group that is not whole, with no level open,
or as the fifth level, raises the fault of that check. -/
def RegionChecksRaise : Prop :=
  ∀ (s : State) (sl : Slot) (w : Warp) (r : Regs) (i : Instr) (g : Guard),
    s.Chosen sl w r → sl.proof = false →
    (match i with
      | .rgnBegin j => g = j.g
      | .rgnKeep j => g = j.g
      | .rgnEnd j => g = j.g
      | _ => False) →
    let act := active r sl.grp g
    (r.frame ≠ none → act ≠ 0 → exec i s = .next (s.taken.raise sl act ⟨0x65, 0, 0, 0, 0⟩)) ∧
    (r.frame = none ∨ act = 0 → ¬WholeGroup r sl.grp act → exec i s = .next (s.taken.raise sl act ⟨0x68, 0, 0, 0, 0⟩)) ∧
    (RegionGroup r sl.grp act → (w.levels = [] ∧ ∀ j, i ≠ .rgnBegin j) ∨ (4 ≤ w.levels.length ∧ ∃ j, i = .rgnBegin j) →
      exec i s = .next (s.taken.raise sl act ⟨0x67, 0, 0, 0, 0⟩))

/-- R401: an error detected for an instruction of the one open level, with a retry left, rolls the warp back: every live
lane is at the label, kept scalars have their kept values, other registers their present ones, the galley is empty and a
retry is used up. -/
def RollbackRestoresKeptState : Prop :=
  ∀ (s : State) (slot : Nat) (w : Warp) (e : AsyncErr) (l : Level),
    s.warp slot = some w → w.det = [e] → w.async = [] → w.r.frame = none → w.stopped = false → w.boundary = true →
    w.platen = [] → w.results = [] → w.levels = [l] → 1 ≤ e.level → 0 < l.retry → l.kv = [] → l.kp = [] → l.kt = [] →
    l.badKept = false → (∀ h ∈ l.held, h.bad = []) → (l.ks.map Prod.fst).Nodup →
    ∃ (t : State) (w' : Warp), exec (.regionRollback slot) s = .next t ∧ t.warp slot = some w' ∧
      w'.levels = [{ l with retry := l.retry - 1, held := [], deferred := [] }] ∧ w'.det = [] ∧ w'.waits = [] ∧
      w'.lastCause = e.cause ∧ w'.rolls = min 255 (w.rolls + 1) ∧ w'.r.v = w.r.v ∧ w'.tiles = w.tiles ∧
      (∀ k, k ∈ w'.badS ↔ k ∈ w.badS ∧ ∀ x ∈ l.ks, x.1 ≠ k) ∧
      (∀ k, k < 32 → w'.r.pcGet k = if lane w.r.live k then l.label else w.r.pcGet k) ∧
      (∀ k, w'.r.sget k = ((l.ks.find? fun x => x.1 == k).map Prod.snd).getD (w.r.sget k)) ∧
      ∀ k, k ≠ slot → t.warp k = s.warp k

/-- R375, R391, R393, R395, R411: an error that strikes an instruction is detected for it within the skid bound, at the
levels that were open when it issued; outside the bound, or for an instruction whose detection a region instruction has waited
for, it has no effect. -/
def DetectedErrorsWaitForTheBoundary : Prop :=
  ∀ (s : State) (slot pc gseq lanes : Nat) (w : Warp) (c : Nat), s.warp slot = some w → w.r.frame = none →
    c = 0xC1 ∨ c = 0xC2 ∨ c = 0xC3 ∨ c = 0xC5 ∨ c = 0xC8 →
    (w.resolved ≤ gseq → gseq < w.r.gseq.toNat → w.r.gseq.toNat ≤ gseq + 256 →
      ∃ (t : State) (w' : Warp) (e : AsyncErr), exec (.detectedError slot c pc gseq lanes) s = .next t ∧
        t.warp slot = some w' ∧ w' = { w with det := w.det ++ [e] } ∧ e.cause = c ∧ e.gseq = gseq ∧
        e.level = (w.levels.filter fun l => decide (l.start < gseq)).length ∧ SameMemory s t) ∧
    (¬(w.resolved ≤ gseq ∧ gseq < w.r.gseq.toNat ∧ w.r.gseq.toNat ≤ gseq + 256) → exec (.detectedError slot c pc gseq lanes) s = .next s)

/-! ### Words that are no instruction (R44 to R48) -/

/-- The lengths in words that a major permits (R44), 96 bits where an operand field names the literal or the window (R39), and of
rgn each minor (R390); none for a major that is not assigned (R45). -/
def majorLengths (op minor : Nat) : Option (List Nat) :=
  if (1 ≤ op ∧ op ≤ 0x2D ∧ op ≠ 0x26) ∨ (0x40 ≤ op ∧ op ≤ 0x56) ∨ (0x70 ≤ op ∧ op ≤ 0x77) ∨ (0x80 ≤ op ∧ op ≤ 0x87) ∨
      (0x90 ≤ op ∧ op ≤ 0x94) ∨ op = 0xF9 then some [2, 3]
  else if op = 0x26 ∨ op ∈ [0xC0, 0xC2, 0xC4, 0xC5] ∨ (0xD0 ≤ op ∧ op ≤ 0xDC) ∨ op = 0xF8 ∨ (0xFA ≤ op ∧ op ≤ 0xFE) then some [2]
  else if op = 0x95 ∨ (0xA0 ≤ op ∧ op ≤ 0xB2) ∨ op ∈ [0xC1, 0xC3, 0xF1] then some [2, 4]
  else if op = 0xF0 then some (if minor < 2 then [4] else [2])
  else if op ∈ [0xE0, 0xE1, 0xE8, 0xE9] then some [4]
  else none

/-- The minor opcode (R31, R32) and how many a major has, from 0 on (R46). -/
def minorOf (x : Nat) : Nat := if 0xA0 ≤ x / 4 % 256 ∧ x / 4 % 256 < 0xC0 then x / 2 ^ 54 % 4 else x / 2 ^ 51 % 32
def minors (op : Nat) : Nat :=
  match op with
  | 0x17 | 0x26 | 0xB1 | 0xE0 | 0xFA | 0xFB | 0xFE => 2
  | 0x94 | 0xE8 | 0xFD => 3
  | 0x90 | 0xC1 => 4
  | 0x92 | 0xE1 | 0xF0 => 5
  | 0x21 => 6
  | 0x46 => 14
  | _ => 1

/-- An operand field names the literal or the constant window. -/
def namesExt (x : Nat) : Prop := ∃ k ∈ [15, 24, 33, 42], x / 2 ^ k % 512 = 448 ∨ x / 2 ^ k % 512 = 449

/-- The length of a word is one that its major does not permit. -/
def BadLength (x : Nat) (l : List Nat) : Prop := lenWords x ∉ l ∨ (lenWords x = 3 ∧ ¬namesExt x)

/-- R26, R44 to R46, R48, R390: words with LEN 0b11, with a major that is not assigned, with a minor that their major does not have, or
of a length that it does not permit are refused, in this order, with the cause of the check that fails. -/
def ReservedWordsAreRefused : Prop :=
  ∀ x : Nat,
    (x % 4 = 3 → decodeNat x = .error .illegalLength) ∧
    (x % 4 ≠ 3 → majorLengths (x / 4 % 256) (minorOf x) = none → decodeNat x = .error .undefinedOpcode) ∧
    ∀ l, x % 4 ≠ 3 → majorLengths (x / 4 % 256) (minorOf x) = some l →
      (minors (x / 4 % 256) ≤ minorOf x → decodeNat x = .error .undefinedMinor) ∧
      (minorOf x < minors (x / 4 % 256) → BadLength x l → decodeNat x = .error .illegalLength)

end Sys2Proof.Claims

open Sys2Proof Sys2Proof.Machine Sys2Proof.Claims

/-- Words of the spec's worked encodings, written out, decode to the instructions they stand for (R31 to R47); a nop with a bit of
M, of a source or of its destination set, and an errp with OPR 3, are refused by name (R31, R35, R47, R48). -/
def Obligations.WorkedWordsDecode : Prop :=
  decodeNat (word1 [0x0302AD00, 0x00000204]) =
    .ok (.fadd ⟨⟨3, true⟩, .v 5, .v 3, .s 2, ⟨.f32, .rn, false, false⟩⟩) ∧
  decodeNat (word1 [0x08040109, 0x00000380, 0x3DCCCCCD]) =
    .ok (.fmul ⟨always, .v 8, .v 8, .lit 0x3DCCCCCD, ⟨.f32, .rn, false, false⟩⟩) ∧
  decodeNat (word1 [0x34828098, 0x00080012]) = .ok (.sethi20Pc ⟨always, 5, 0x01234⟩) ∧
  decodeNat (word1 [0x07010084, 0x20100720]) = .ok (.setp ⟨always, 2, .v 7, .int 16, .lt, .i32, .and, 1⟩) ∧
  decodeNat (word1 [0x04018280, 0x9401000F]) =
    .ok (.ld ⟨always, .v 3, .s 4, .v 7, 2, false, .b32, .acq, ⟨false, 64, 0, .device, 0⟩⟩) ∧
  decodeNat (word1 [0x02020240, 0x00180322]) = .ok (.xlane ⟨always, 4, 2, .int 17, .flip, 0, none⟩) ∧
  decodeNat (word1 [0x04000382, 0x0008060B, 0x04240000, 0]) =
    .ok (.mmaRes ⟨⟨always, 0, 4, 5, .bf16, .bf16, false, none, some 9⟩, 1⟩) ∧
  decodeNat (word1 [0xFA000340, 0x0000FFFF]) = .ok (.bra ⟨always, 0xFFFFFA⟩) ∧
  decodeNat (word1 [0x930003E8, 0x00000001]) = .ok (.trap ⟨always, .int 19⟩) ∧
  decodeNat 3 = .error .illegalLength ∧
  decodeNat (word1 [0x000003F0, 0x01000000]) = .error .reservedModifier ∧
  decodeNat (word1 [0x000003C4, 0x03000000]) = .error .illegalModifier ∧
  decodeNat (word1 [0x010003F0, 0]) = .error .illegalOperand ∧
  decodeNat (word1 [0x000083F0, 0]) = .error .reservedField

/-- Decode and encode agree: the decoder reads every well-formed instruction back from its words, and what it reads is
well-formed. R44 to R46, R48: words whose major, minor or length is not assigned are refused by name. -/
def Obligations.EncodeThenDecode : Prop := ReservedWordsAreRefused ∧
  (∀ (i : Instr) (x : Nat), i.wf = true → encode i = some x → decodeNat x = .ok i) ∧
  (∀ i : Instr, i.wf = true → ∃ x, encode i = some x) ∧
  ∀ (i : Instr) (x : Nat), decodeNat x = .ok i → i.wf = true

/-- R26 to R28, R275, R276: a quadrant whose one warp has every live lane at one PC offers it issue: the instruction decoded there
is chosen for these lanes, and nothing else of the warp but its lane ages changes. R48: where the words there fail a check, or
the fetch fails, its cause is raised instead. R27: a quad there is stepped over. R92: of two groups of eligible instructions both
are chosen. -/
def Obligations.OpportunityChoosesTheDecoded : Prop :=
  OneGroupIssues ∧ DecodeChecksRaise ∧ QuadsAreSteppedOver ∧ EligibleGroupsIssueTogether

/-- A step runs what is chosen: when the agenda asks for an issue opportunity that chooses one instruction i, the step is exec of i
at the state in which it was chosen, with the check of unreadable registers behind it (R411), which finds nothing where nothing is
unreadable; of a pair the step runs both, after which every latch is invalid and the recorded mask empty (R43, R92). Any other step
of the agenda is exec of that step. -/
def Obligations.StepRunsTheChosen : Prop :=
  ∀ (s s1 : State) (i : Instr) (rest : List Instr), s.halted = false → s.agenda = i :: rest →
    exec i { s with agenda := rest } = .next s1 →
    (s1.issue = [] → step s = .next s1) ∧
    (∀ sl w t, s1.issue = [sl] → s1.warp sl.w = some w → exec sl.instr s1 = .next t →
      step s = .next (t.afterIssue sl w) ∧ (w.badV = [] → w.badS = [] → w.badP = [] → w.badJ = [] → w.r.badL = [] →
        (∀ y, t.warp sl.w = some y → y.badV = [] ∧ y.badS = [] ∧ y.badP = [] ∧ y.badJ = []) →
        ∀ k, (t.afterIssue sl w).warp k = t.warp k)) ∧
    ∀ a b w v t u x, s1.issue = [a, b] → s1.warp a.w = some w → exec a.instr s1 = .next t →
      (t.afterIssue a w).warp b.w = some v → exec b.instr (t.afterIssue a w) = .next u →
      (u.afterIssue b v).warp a.w = some x →
      ∃ z, step s = .next z ∧ z.issue = [] ∧ z.warp a.w = some { x with r := { x.r with lvalid := 0, lmask := 0 } } ∧
        ∀ k, k ≠ a.w → z.warp k = (u.afterIssue b v).warp k

/-- R333, R354, R426, R431: after reset no context is resident, no feature is accepted, nothing is locked, no queue, work or
warp exists, the clock is 1.5 GHz; memory is in canonical form with nothing listed. -/
def Obligations.ResetState : Prop :=
  State.reset.featAccept = [0, 0, 0, 0] ∧ State.reset.featLock = 0 ∧ (∀ c, (State.reset.context c).res = false) ∧
    (∀ q, State.reset.queue q = none) ∧ (∀ k, State.reset.warp k = none) ∧ State.reset.works = [] ∧ State.reset.rcbs = [] ∧
    State.reset.phase = .off ∧ State.reset.freq = 1500 ∧ State.reset.halted = false ∧ Memory.wf State.reset ∧
    ∀ a, State.reset.byte (.hbm a) = 0

/-- Every step keeps memory in canonical form. -/
def Obligations.StepKeepsMemoryCanonical : Prop :=
  ∀ (s t : State), Memory.wf s → step s = .next t → Memory.wf t

/-- R88 to R97, R109, R110: integer arithmetic, carry chains, address forms and dot products: for every operand form, the
result that the table gives, and nothing else. R40 to R43: a vector result shifts the latches of the group's lanes and goes into
b0, with NW into b0 alone. -/
def Obligations.IntegerArithmeticCompletes : Prop :=
  RowsComplete (fun _ => intRow) ∧ RowsComplete (fun _ => carryRow) ∧ RowsComplete addressRow

/-- R98 to R107: bitwise operations, shifts, bit fields, counts, comparisons and predicate functions, with the latches after each
(R41, R42). -/
def Obligations.BitAndPredicateInstructionsComplete : Prop :=
  RowsComplete (fun _ => bitRow) ∧ RowsComplete (fun _ => shiftRow) ∧ RowsComplete (fun _ => countRow) ∧
    RowsComplete (fun _ => predRow)

/-- R111 to R132: floating instructions, error-free transforms and expansions, with the latches after each (R41, R42). -/
def Obligations.FloatingInstructionsComplete : Prop := QuietRowsComplete floatRow ∧ QuietRowsComplete exactRow

/-- R133 to R142, R299 to R304: conversions, packing, lane exchange, votes and matches, with the latches after each (R41,
R42). -/
def Obligations.ConversionsAndLanesComplete : Prop := QuietRowsComplete convertRow ∧ QuietRowsComplete laneRow

/-- R139: cvt.blk with AUTO: each block's elements are encoded under the scale that its active elements choose; the scale
goes into byte SEL of the scale register in the block's first lane, the special byte of E2M1 in its second. -/
def Obligations.AutoScaleEncodes : Prop :=
  ∀ (s : State) (sl : Slot) (w : Warp) (r : Regs) (i : CvtBlkEncI) (d : Fin 256),
    let act := active r sl.grp i.g
    let n := if i.nf = .e2m1 then 4 else 8
    let x : Rd := ⟨r, 0, act, s.opSeq⟩
    let chosen (l : Nat) : Nat × Nat × Bool := autoScale i.nf (x.blockElems i.a i.nf l)
    let element (l j : Nat) : FRes :=
      encodeElem i.nf i.rm i.ovf (chosen l).1 (chosen l).2.1 (f32.decode (r.vget (i.a + j) l).toNat)
    let per := 32 / elemBits i.nf
    let byteIn (old : Word) (b : Nat) : Word := BitVec.ofNat 32
      (old.toNat - old.toNat / 2 ^ (8 * i.sel.val) % 2 ^ 8 * 2 ^ (8 * i.sel.val) + b * 2 ^ (8 * i.sel.val))
    let blockActive (l : Nat) : Bool := (List.range n).any fun k => lane act (l / n * n + k)
    s.Chosen sl w r → i.auto = true → i.d = .v d → d ≠ i.sc →
    ∃ (t : State) (w' : Warp) (r' : Regs) (z : Result), exec (.cvtBlkEncode i) s = .next t ∧ s.SameOutside t sl.w ∧
      t.warp sl.w = some w' ∧ w'.side sl.proof = some r' ∧ w.SameButRegs w' sl.proof ∧ r.Advanced r' sl ∧
      w'.results = w.results ++ [z] ∧ r'.v = r.v ∧ r'.s = r.s ∧ r'.p = r.p ∧ z.act = act ∧
      ∀ (q : Regs) (k l : Nat), l < 32 → (z.deliver q).vget k l =
        if k = d.val ∧ lane act l = true then
          BitVec.ofNat 32 ((List.range per).foldl (fun a j => a + (element l j).code * 2 ^ (elemBits i.nf * j)) 0)
        else if k = i.sc.val ∧ blockActive l = true ∧ l % n = 0 then byteIn (r.vget k l) (chosen l).1
        else if k = i.sc.val ∧ blockActive l = true ∧ i.nf = .e2m1 ∧ l % n = 1 then byteIn (r.vget k l) (chosen l).2.1
        else q.vget k l

/-- R205, R208, R228, R229, R298: memory instructions, barrier operations and set loads go in flight. -/
def Obligations.MemoryInstructionsGoInFlight : Prop := MemoryRequestsGoInFlight ∧ BarrierAndSetAccessesGoInFlight

/-- R207, R208, R400: an access that fails a check, or that no region may hold, raises its fault, the check's own cause, and does
nothing else. -/
def Obligations.AccessChecksRaise : Prop := FailedChecksRaise ∧ FailedChecksNameTheirCause ∧ ForbiddenInsideRegion

/-- R235, R397, R398: inside a region stores are held and atomics without a result deferred. -/
def Obligations.AccessesInsideRegionsAreKept : Prop := StoresInsideRegionAreHeld ∧ AtomicsInsideRegionAreDeferred

/-- R209, R211: a load's part, of whichever lane, returns its bytes. Memory is as before; where the bytes come from memory, the part
gives them, and with the operation's last part each lane's destination holds its value at its width. -/
def Obligations.LoadsReturnMemory : Prop :=
  ∀ (s0 : State) (slot op k : Nat) (w : Warp) (o : MemOp) (p : Piece),
    let s := s0.settle slot
    s.partOf slot op k = some (w, o, p) → o.kind.isLoad = true → w.stopped = false → s.canPerform slot w o k p = true →
    s.poisoned p.place p.size = false → s.l1Poisoned (slotForme slot) p = false →
    ∃ t, exec (.loadDataReturn slot op k) s0 = .next t ∧ SameMemory s0 t ∧
      (IssuedHere w o → (∀ i, i < p.size → s.overlayByte slot w o p i = none) → (∀ d m, o.kind ≠ .kload d m) →
        s.l1Copy (slotForme slot) p = none → 0 < p.size →
        ∃ w', t.warp slot = some w' ∧ PartReturned w w' o k (s.readLe p.place p.size))

/-- R212, R195: a store's part is performed: its bytes, and no others, change. -/
def Obligations.StoresChangeTheirBytes : Prop :=
  ∀ (s0 : State) (slot op k : Nat) (w : Warp) (o : MemOp) (p : Piece),
    let s := s0.settle slot
    s.partOf slot op k = some (w, o, p) → o.kind = .store → s.canPerform slot w o k p = true → PlaceExists s0 p.place →
    ∃ t, exec (.storePerformed slot op k) s0 = .next t ∧ Stored s0 t p.place p.data p.size

/-- R219 to R223, R229, R232: an atomic, an arrival or a signal is performed in whichever lane: its words change as its rule says, no
other byte does, and the value it returns is that before; a catom's is whether its error was not exact. -/
def Obligations.AtomicsUpdateTheirWords : Prop :=
  ∀ (s0 : State) (slot op k : Nat) (w : Warp) (o : MemOp) (p : Piece) (l : List (Place × Nat × Nat)),
    let s := s0.settle slot
    slot ≠ engineSlot → s.partOf slot op k = some (w, o, p) → s.canPerform slot w o k p = true → updated s0 o.kind p = some l →
    PlaceExists s0 p.place → PlaceExists s0 p.place2 → s0.poisoned p.place p.size = false →
    (∀ pt pd, o.kind = .catom pt pd → s0.poisoned p.place2 (pairLoSize pt) = false ∧
      (w.r.tmask.getLsbD 5 = false ∨ w.r.frame = none ∨ w.async.length < 4)) →
    (∀ n b, o.kind = .arrive n b → p.size = 16) → (∀ b d, o.kind = .cas b d → 0 < p.size) →
    ∃ t, exec (.atomicPerformed slot op k) s0 = .next t ∧ StoredAll s0 t l ∧
      (IssuedHere w o → ∃ w', t.warp slot = some w' ∧
        PartReturned w w' o k (match o.kind with
          | .catom pt _ => (catomUpdate pt (s0.readLe p.place p.size) (s0.readLe p.place2 (pairLoSize pt)) p.data p.data2).2.2.toNat
          | _ => s0.readLe p.place p.size))

/-- R222, R224: a catom outside a region whose words pass their checks and share a home is in flight, both words of each
lane in one part; memory is as before. -/
def Obligations.CatomGoesInFlight : Prop :=
  ∀ (s : State) (sl : Slot) (w : Warp) (r : Regs) (i : CatomI) (hi lo : List Part) (s1 s2 : State),
    let act := active r sl.grp i.g
    let x : Rd := ⟨r, 0, act, 0⟩
    let q := catomReq i
    let his := (lanesOf act).map fun l => (l, q.ea x l)
    let los := (lanesOf act).map fun l => (l, ((wrap (q.ea x l) 64 + catomDelta x i l : Nat) : Int))
    s.Chosen sl w r → act ≠ 0 → Alone sl w q.kind → w.levels = [] →
    (∀ y ∈ his, checkForm .global q.size 2 y.2 = none) → (∀ y ∈ los, checkForm .global (pairLoSize i.pt) 2 y.2 = none) →
    s.taken.access sl.w w .global q.size .readWrite 2 his = (.ok hi, s1) →
    s1.access sl.w w .global (pairLoSize i.pt) .readWrite 2 los = (.ok lo, s2) →
    (∀ p ∈ hi.zip lo, splitHome p.1 p.2 (catomDelta x i p.1.lane) = false) →
    ∃ (t : State) (w' : Warp) (op : MemOp) (before : List MemOp), exec (.catom i) s = .next t ∧ s.SameOutside t sl.w ∧
      t.warp sl.w = some w' ∧ w' = { w with r := w'.r, proof := w'.proof, pend := w.pend ++ before ++ [op] } ∧
      (i.ord ≠ .sc → before = []) ∧ (∀ f ∈ before, f.kind = .fence ∧ f.ord = .sc) ∧ Passed r w'.r sl ∧
      op.kind = .catom i.pt i.pd ∧ op.ord = i.ord ∧ op.lanes = act ∧
      op.pieces = (hi.zip lo).map fun p => { p.1.piece with
        place2 := p.2.place, va2 := p.2.va, data := (r.vget i.d p.1.lane).toNat, data2 := (r.vget (i.d + 1) p.1.lane).toNat }

/-- R34, R216, R46: what changes no register and no memory. -/
def Obligations.InstructionsThatOnlyIssue : Prop := NoActiveLaneOnlyIssues ∧ PrefetchChangesNothing ∧ NopOnlyIssues

/-- R305 to R307: stc takes consecutive slots of its queue. -/
def Obligations.StcPushesConsecutively : Prop := StcHoldsItsGroup ∧ StcTakesConsecutiveSlots

/-- R203, R344: a store or atomic whose page has moved away is not performed: its part is translated again and goes to
where the page is now; memory is as before. R344: a held store's walk is repeated every microsecond while the page
moves. -/
def Obligations.MovedAccessesAreSentAgain : Prop :=
  (∀ (s0 : State) (slot op k : Nat) (w : Warp) (o : MemOp) (p : Piece) (x : Place) (s1 : State),
    let s := s0.settle slot
    s.partOf slot op k = some (w, o, p) → o.kind.isLoad = false → (∀ a b, o.kind ≠ .catom a b) →
    s.partReady slot w o k p = true → s.isMoving p.place = true → needsFabric slot o.kind p = false → p.sent = false →
    s.relocate (slotQuadId slot) w.ctx o.kind p.va = (.ok (some x), s1) →
    ∃ t, exec (.movedNack slot op k) s0 = .next t ∧ SameMemory s0 t ∧
      ∃ w' o', t.warp slot = some w' ∧ w'.pend.find? (fun y => y.id == op) = some o' ∧
        o'.pieces[k]? = some { p with place := x, place2 := x, sent := false }) ∧
  ∀ (s : State) (slot : Nat) (w : Warp) (x : Wait) (va : DWord), s.warp slot = some w → w.waits = [x] → x.kind = .walk va 0 →
    ((∀ e, s.walk w.ctx va = .ok e → pteMig e.leaf.toNat = true) → (∃ e, s.walk w.ctx va = .ok e) →
      exec (.migWalkRetry slot) s = .next (s.setWarp slot { w with waits := [{ x with kind := .walk va 1000 }] })) ∧
    ((∀ e, s.walk w.ctx va = .ok e → pteMig e.leaf.toNat = false) →
      exec (.migWalkRetry slot) s = .next (s.setWarp slot { w with waits := [] }))

/-- R288 to R291: a transfer of control whose targets are multiples of 4: the active lanes take their targets, the other
lanes of the group go on behind it, calls write the link pair, and nothing else changes. -/
def Obligations.BranchesTransferControl : Prop :=
  ∀ (s : State) (sl : Slot) (w : Warp) (r : Regs) (i : Instr) (b : Branch),
    s.Chosen sl w r → branchRow sl.pc r i = some b →
    (b.checked = true → ∀ l, l < 32 → lane (active r sl.grp b.g) l = true → (b.target l).toNat % 4 = 0) →
    ∃ t r', exec i s = .next t ∧ RegsDone s t sl w r' ∧ r' = { r with v := r'.v, pc := r'.pc, gseq := r.gseq + 1 } ∧
      (∀ l, l < 32 → r'.pcGet l = if lane (active r sl.grp b.g) l then b.target l
        else if lane sl.grp l then sl.after else r.pcGet l) ∧
      ∀ k l, l < 32 → r'.vget k l = linked r (active r sl.grp b.g) b.link sl.after k l

/-- R293, R279, R143, R388 to R393: the checks of transfers, jwait, Platen and region instructions raise their faults. -/
def Obligations.ControlChecksRaise : Prop := MisalignedTargetsRaise ∧ JwaitChecks ∧ PartialGroupsRaise ∧ RegionChecksRaise

/-- R279, R296, R297: jopen, jenter, jquit and jfree change their set, and, when no set is then ready, nothing else. -/
def Obligations.SetInstructionsChangeTheirSet : Prop :=
  ∀ (s : State) (sl : Slot) (w : Warp) (r : Regs) (i : Instr) (act : Mask) (g : Guard) (j : Fin 16) (c : Prop) (x : JSet),
    s.Chosen sl w r → setRow r act i = some (g, j, c, x) → act = active r sl.grp g → act ≠ 0 → c →
    ((∃ q, i = .jquit q) → NoneReady (r.jset j x)) →
    ∃ t r', exec i s = .next t ∧ RegsDone s t sl w r' ∧ r.Advanced r' sl ∧
      r' = { r with j := r'.j, pc := r'.pc, gseq := r'.gseq } ∧ ∀ k, r'.jget k = if k = j.val then x else r.jget k

/-- R279, R280: jwait by members of an open set, at its meeting point: the active lanes arrive and wait at the jwait; the
release check follows. -/
def Obligations.JwaitArrivesAndWaits : Prop :=
  ∀ (s : State) (sl : Slot) (w : Warp) (r : Regs) (i : JsetI),
    let act := active r sl.grp i.g
    let x := r.jget i.j
    let y : JSet := { x with arrived := x.arrived ||| act, meet := if x.arrived = 0 then sl.pc else x.meet }
    s.Chosen sl w r → sl.proof = false → act ≠ 0 → x.open_ = true → act &&& ~~~x.members = 0 →
    (x.arrived = 0 ∨ sl.pc = x.meet) →
    ((∃ l, l < 32 ∧ lane r.live l = true ∧ lane act l = false ∧ ¬WaitsAtJwait w l) ∨ ¬NoneReady (r.jset i.j y)) →
    ∃ (t : State) (w1 : Warp), exec (.jwait i) s = .next t ∧ s.SameOutside t sl.w ∧ t.warp sl.w = some w1.release ∧
      w1 = { w with r := w1.r, proof := w1.proof, waits := w.waits ++ [⟨act, .jwait i.j, sl.len, r.gseq.toNat⟩] } ∧
      w1.r = { r with j := w1.r.j, pc := w1.r.pc, gseq := r.gseq + 1 } ∧
      (∀ l, l < 32 → w1.r.pcGet l = if lane sl.grp l && !lane act l then sl.after else r.pcGet l) ∧
      ∀ k, w1.r.jget k = if k = i.j.val then y else r.jget k

/-- R280, R294: the release of ready sets, and exit. -/
def Obligations.LanesLeaveTheirSets : Prop := ReleaseFreesWaitingLanes ∧ ExitRetiresLanes

/-- R225: outside a region a fence of a leading warp goes in flight; inside one only its acquire part does, its release
part being the release's (R204); a fence that only releases just issues there. -/
def Obligations.FencesGoInFlight : Prop :=
  ∀ (s : State) (sl : Slot) (w : Warp) (r : Regs) (i : FenceI),
    let act := active r sl.grp i.g
    let acquires := i.ord = .acq ∨ i.ord = .ar ∨ i.ord = .sc
    s.Chosen sl w r → sl.proof = false → act ≠ 0 →
    (w.levels ≠ [] → ¬acquires → ∃ (t : State) (w' : Warp), exec (.fence i) s = .next t ∧ s.SameOutside t sl.w ∧
      t.warp sl.w = some w' ∧ Passed r w'.r sl ∧
      w' = { w with r := w'.r, proof := w'.proof, constSince := w'.constSince, constSeq := w'.constSeq, constOwn := w'.constOwn }) ∧
    (w.levels = [] ∨ acquires →
      ∃ (t : State) (w' : Warp) (f : MemOp), exec (.fence i) s = .next t ∧ s.SameOutside t sl.w ∧ t.warp sl.w = some w' ∧
        w' = { w with r := w'.r, proof := w'.proof, pend := w.pend ++ [f] } ∧ Passed r w'.r sl ∧ f.kind = .fence ∧
        f.pieces = [] ∧ f.ord = (if w.levels = [] then i.ord else .acq) ∧
        f.scope = (if i.scope = .gang then .device else i.scope))

/-- R226, R230: bar.wait and bar.test. -/
def Obligations.BarriersWaitAndTest : Prop := BarWaitHoldsUntilThePhase ∧ BarTestWritesThePhase

/-- R231, R233, R234: waitc, waitsb and pause. -/
def Obligations.WaitsHoldTheGroup : Prop := WaitcComparesUnsigned ∧ WaitsbAndPauseHold

/-- R217: bankcfg outside a region, at home, on banks of the grant, waits for the banks to drain; R178: the drain over,
each bank is in the mode asked for, empty if that is another than before. -/
def Obligations.BankcfgDrainsAndSwitches : Prop :=
  (∀ (s : State) (sl : Slot) (w : Warp) (r : Regs) (i : BankcfgI) (b : Block),
    let act := active r sl.grp i.g
    let first := (⟨r, 0, act, 0⟩ : Rd).word i.first 0
    let count := (⟨r, 0, act, 0⟩ : Rd).word i.count 0
    s.Chosen sl w r → sl.proof = false → act ≠ 0 → w.levels = [] → w.home = sl.w → s.scrBlock w.gang w.block = some b →
    count ≠ 0 → first + count ≤ b.banks.length →
    HoldsGroup (.bankcfg i) s sl w r (.drain ((List.range count).map fun k => first + k) i.mode)) ∧
  ∀ (s : State) (slot : Nat) (w : Warp) (b : Block) (l : List Nat) (m : BankMode) (lanes : Mask) (len n : Nat),
    s.warp slot = some w → w.waits = [⟨lanes, .drain l m, len, n⟩] → s.scrBlock w.gang w.block = some b →
    s.banksIdle w.gang w.block b.banks.length l = true → (∀ o ∈ w.platen, o.usesScratch = false) → b.modes.length = b.banks.length →
    (∀ k ∈ l, k < b.banks.length) →
    ∃ (t : State) (w' : Warp) (b' : Block), exec (.bankDrainEnd slot) s = .next t ∧ t.warp slot = some w' ∧
      w' = { w with r := w'.r, waits := [] } ∧
      (∀ k, k < 32 → lane lanes k = true → (∀ j, lane lanes j = true → w.r.pcGet j = w.r.pcGet k) →
        w'.r.pcGet k = w.r.pcGet k + BitVec.ofNat 64 (4 * len)) ∧
      t.scrBlock w.gang w.block = some b' ∧ (∀ k ∈ l, BankAfter b b' k m) ∧
      (∀ k, k < b.banks.length → k ∉ l → b'.modes.getD k .scratch = b.modes.getD k .scratch ∧ b'.fifos.get k = b.fifos.get k) ∧
      ∀ a, t.byte (.hbm a) = s.byte (.hbm a)

/-- R218: a push with room appends one entry per active lane, lowest first; a pop with enough entries takes them, oldest
to the lowest lane. -/
def Obligations.FifoMovesEntries : Prop :=
  ∀ (s : State) (sl : Slot) (w : Warp) (r : Regs) (b : Block),
    s.Chosen sl w r → sl.proof = false → w.levels = [] → w.home = sl.w → s.scrBlock w.gang w.block = some b →
    (∀ i : FifoPushI,
      let act := active r sl.grp i.g
      let bank := (⟨r, 0, act, 0⟩ : Rd).word i.bank 0
      act ≠ 0 → bank < b.banks.length → b.modes.getD bank .scratch = .fifo →
      (b.fifos.get bank).length + (lanesOf act).length ≤ 4096 → s.pushReady sl.w w = true →
      ∃ t b', exec (.fifoPush i) s = .next t ∧ t.scrBlock w.gang w.block = some b' ∧
        b'.fifos.get bank = b.fifos.get bank ++
          (lanesOf act).map (fun l => (BitVec.ofNat 32 ((⟨r, 0, act, 0⟩ : Rd).word i.data l), false)) ∧
        (∀ k, k ≠ bank → b'.fifos.get k = b.fifos.get k) ∧ SameMemory s t ∧
        ∃ w', t.warp sl.w = some w' ∧ Passed r w'.r sl) ∧
    ∀ i : FifoPopI,
      let act := active r sl.grp i.g
      let bank := (⟨r, 0, act, 0⟩ : Rd).word i.bank 0
      act ≠ 0 → bank < b.banks.length → b.modes.getD bank .scratch = .fifo →
      (lanesOf act).length ≤ (b.fifos.get bank).length → (∀ e ∈ b.fifos.get bank, e.2 = false) →
      ∃ t b' w', exec (.fifoPop i) s = .next t ∧ t.scrBlock w.gang w.block = some b' ∧
        b'.fifos.get bank = (b.fifos.get bank).drop (lanesOf act).length ∧
        (∀ k, k ≠ bank → b'.fifos.get k = b.fifos.get k) ∧ SameMemory s t ∧ t.warp sl.w = some w' ∧
        r.Advanced w'.r sl ∧
        ∀ k l, l < 32 → w'.r.vget k l = if k = i.d.val ∧ lane act l = true
          then (((b.fifos.get bank)[((lanesOf act).filter (fun m => m < l)).length]?).map Prod.fst).getD 0 else r.vget k l

/-- R230, R231, R233, R234: a wait ends when what it awaits is there: the phase, the counter, the scoreboard count, the
clocks; its lanes go on behind the instruction. -/
def Obligations.GroupWaitsEnd : Prop :=
  ∀ (s : State) (slot l : Nat) (w : Warp) (x : Wait) (p : Part) (s1 : State) (y : Nat),
    s.warp slot = some w → w.waits = [x] → l < 32 → lane x.lanes l = true →
    (match x.kind with
      | .pause n => n = 0
      | .waitsb k n => w.sbCount k ≤ n
      | .waitc va value _ _ => s.objectPart slot w false va 8 .read 0 = (.ok p, s1) ∧ s1.readNow slot w p = some y ∧ value ≤ y
      | .barWait va sc par _ _ => s.objectPart slot w sc va 16 .read 0 = (.ok p, s1) ∧ s1.readNow slot w p = some y ∧
          WellFormedBarrier y ∧ phaseOf y ≠ par.toNat
      | _ => False) →
    ∃ (t : State) (w' : Warp), exec (.groupWaitEnd slot l) s = .next t ∧ t.warp slot = some w' ∧
      w' = { w with r := w'.r, waits := [] } ∧ w'.r = { w.r with pc := w'.r.pc } ∧ SameMemory s t ∧
      (∀ k, k < 32 → lane x.lanes k = false → w'.r.pcGet k = w.r.pcGet k) ∧
      ((∀ j k, lane x.lanes j = true → lane x.lanes k = true → w.r.pcGet j = w.r.pcGet k) →
        w'.r.pcGet l = w.r.pcGet l + BitVec.ofNat 64 (4 * x.len))

/-- R369 to R379: traps. -/
def Obligations.TrapsEnterTheHandler : Prop := HandlerIsEntered ∧ TrapInstructionEnters ∧ QueuedErrorsAreTaken

/-- R381: tret by the whole handler group restores what the trap saved; the trapping lanes go to s60, the others of the
group to where they were. R382: outside a handler it raises "tret outside handler"; a group
that lacks a live lane of the handler group that waits at no jwait makes it a double fault with W0 = 0x6B, which kills the
gang. -/
def Obligations.TretRestores : Prop :=
  ∀ (s : State) (sl : Slot) (w : Warp) (r : Regs) (i : PlainI),
    let act := active r sl.grp i.g
    s.Chosen sl w r → sl.proof = false → act ≠ 0 →
    (r.frame = none → exec (.tret i) s = .next (s.taken.raise sl act ⟨0x6A, 0, 0, 0, 0⟩)) ∧
    (∀ f, r.frame = some f → f.group &&& r.live &&& ~~~w.jwaiting &&& ~~~sl.grp ≠ 0 →
      ∃ e : Errata, exec (.tret i) s = .next (s.taken.killGang w.gang e) ∧ e.cause = 0x69 ∧ e.w0 = 0x6B) ∧
    ∀ f, r.frame = some f → f.group &&& r.live &&& ~~~w.jwaiting &&& ~~~sl.grp = 0 → f.replay = [] → w.async = [] →
      w.det = [] → w.boundary = true →
      (∀ l, l < 32 → lane sl.grp l = true → lane (f.group &&& r.live) l = true) →
      ∃ (t : State) (w' : Warp), exec (.tret i) s = .next t ∧ s.SameOutside t sl.w ∧ t.warp sl.w = some w' ∧
        w' = { w with r := w'.r, proof := w'.proof } ∧
        w'.r = { r with
          s := w'.r.s, p := w'.r.p, j := w'.r.j, pc := w'.r.pc, latch := f.latch, lvalid := f.lvalid, lmask := f.lmask
          badL := f.badL, ages := f.ages, gseq := r.gseq + 1, frame := none } ∧
        (∀ k, w'.r.sget k = if k = 60 then f.s60 else if k = 61 then f.s61 else r.sget k) ∧
        (∀ k, w'.r.pget k = if k = 1 then f.p1 else r.pget k) ∧
        (∀ l, l < 32 → w'.r.pcGet l = if lane (f.group &&& r.live) l then
          (if lane f.trapping l then r.sget 60 else f.pcs.get l) else r.pcGet l) ∧
        (w.jwaiting = 0 → f.js.wf = true → ∀ k, w'.r.jget k = { SMap.get f.js k with arrived := 0 })

/-- R384: errp.post posts its record and raises no trap; .vec and .mask set VEC and TMASK and give the old value. -/
def Obligations.ErrpSetsTrapState : Prop :=
  ∀ (s : State) (sl : Slot) (w : Warp) (r : Regs), s.Chosen sl w r →
    (∀ i : ErrpPostI, sl.proof = false → active r sl.grp i.g ≠ 0 →
      ∃ (u : State) (r' : Regs) (e : Errata), exec (.errpPost i) s = .next (u.post e) ∧ RegsDone s u sl w r' ∧
        Passed r r' sl ∧ e.cause = 0xF0 + (⟨r, 0, 0, 0⟩ : Rd).word i.n 0 % 16 ∧ e.sev = 0 ∧ e.unit = 0 ∧
        e.pc = sl.pc ∧ e.laddr = 0 ∧ e.w0 = r.sget i.w0 ∧ e.w1 = r.sget i.w1 ∧ e.flags / 16 % 2 = 1 ∧ e.ctx = w.ctx) ∧
    (∀ i : ErrpSetI, active r sl.grp i.g ≠ 0 →
      let x := (⟨r, 0, active r sl.grp i.g, 0⟩ : Rd).dword i.a 0
      x % 4 = 0 → x < 2 ^ 56 ∨ 2 ^ 64 - 2 ^ 56 ≤ x → x < 2 ^ 64 →
      ∃ t r', exec (.errpVec i) s = .next t ∧ RegsDone s t sl w r' ∧ r.Advanced r' sl ∧
        r' = { r with s := r'.s, pc := r'.pc, gseq := r'.gseq, vec := BitVec.ofNat 64 x } ∧
        ∀ k, r'.sget k = if (∃ d, i.d = some d ∧ k = d.val) then r.vec else r.sget k) ∧
    ∀ i : ErrpSetI, active r sl.grp i.g ≠ 0 →
      ∃ t r', exec (.errpMask i) s = .next t ∧ RegsDone s t sl w r' ∧ r.Advanced r' sl ∧
        r' = { r with s := r'.s, pc := r'.pc, gseq := r'.gseq
                      tmask := BitVec.ofNat 6 ((⟨r, 0, active r sl.grp i.g, 0⟩ : Rd).word i.a 0) } ∧
        ∀ k, r'.sget k = if (∃ d, i.d = some d ∧ k = d.val) then r.tmask.zeroExtend 64 else r.sget k

/-- R93, R370: results, sticky flags and arithmetic errors. -/
def Obligations.ResultsAreWrittenWithTheirFlags : Prop := PendingResultsAreWritten ∧ EnabledFlagsQueueAnError

/-- R345 to R348: csrr and csrw. -/
def Obligations.SpecialRegistersReadAndWrite : Prop := CsrrReadsSpecialRegisters ∧ CsrwWritesSpecialRegisters

/-- R335: a privileged instruction of a context that is not a system context raises "privileged instruction", whatever
its guard. -/
def Obligations.PrivilegedInstructionsRaise : Prop :=
  ∀ (s : State) (sl : Slot) (w : Warp) (r : Regs) (i : Instr) (g : Guard),
    s.Chosen sl w r → sl.proof = false → privilegedGuard i = some g → (s.context w.ctx).sys = false →
    exec i s = .next (s.taken.raise sl (active r sl.grp g) ⟨0xE6, 0, 0, 0, 0⟩)

/-- R350 to R353: in a system context, outside a region, with an active lane and a resident context, tlbi and ctxop drop
the translations and change the root they name; the group goes on once what they wait for is done. -/
def Obligations.TranslationsAreDropped : Prop :=
  ∀ (s : State) (sl : Slot) (w : Warp) (r : Regs),
    s.Chosen sl w r → sl.proof = false → s.privileged w = true → w.levels = [] →
    (∀ i : TlbiVaI, active r sl.grp i.g ≠ 0 → (r.sget i.c).toNat < 64 → (s.context (r.sget i.c).toNat).res = true →
      (r.sget i.v).toNat < 2 ^ 56 ∨ 2 ^ 64 - 2 ^ 56 ≤ (r.sget i.v).toNat → s.moving = [] → i.mv = false →
      ∃ t, exec (.tlbiVa i) s = .next t ∧ OnOrWaiting t sl w r ∧ SameMemory s t ∧
        t.tlb = s.tlb.filter fun e => !e.covers (r.sget i.c).toNat ((r.sget i.v).toNat % 2 ^ 57)) ∧
    (∀ i : TlbiVaI, active r sl.grp i.g ≠ 0 → (r.sget i.c).toNat < 64 → (s.context (r.sget i.c).toNat).res = true →
      (r.sget i.v).toNat < 2 ^ 56 ∨ 2 ^ 64 - 2 ^ 56 ≤ (r.sget i.v).toNat → i.mv = true →
      ∃ t, exec (.tlbiVa i) s = .next t ∧ OnOrWaiting t sl w r ∧ SameMemory s t ∧
        (∀ e, s.walk (r.sget i.c).toNat (r.sget i.v) = .ok e → e ∈ t.moving) ∧
        t.tlb = s.tlb.filter fun e => !e.covers (r.sget i.c).toNat ((r.sget i.v).toNat % 2 ^ 57)) ∧
    (∀ i : TlbiCtxI, active r sl.grp i.g ≠ 0 → (r.sget i.c).toNat < 64 → (s.context (r.sget i.c).toNat).res = true →
      i.mv = false →
      ∃ t, exec (.tlbiCtx i) s = .next t ∧ OnOrWaiting t sl w r ∧ SameMemory s t ∧ t.ctxs = s.ctxs ∧
        t.tlb = s.tlb.filter fun e => e.ctx != (r.sget i.c).toNat) ∧
    (∀ i : TlbiAllI, active r sl.grp i.g ≠ 0 → i.mv = false →
      ∃ t, exec (.tlbiAll i) s = .next t ∧ OnOrWaiting t sl w r ∧ SameMemory s t ∧ t.ctxs = s.ctxs ∧ t.tlb = []) ∧
    (∀ i : CtxRootI, active r sl.grp i.g ≠ 0 → (r.sget i.c).toNat < 64 → (s.context (r.sget i.c).toNat).res = true →
      (r.sget i.r).toNat / 4 % 8 = 0 → (r.sget i.r).toNat < 2 ^ 38 →
      ∃ t, exec (.ctxopRoot i) s = .next t ∧ OnOrWaiting t sl w r ∧ SameMemory s t ∧
        t.tlb = s.tlb.filter (fun e => e.ctx != (r.sget i.c).toNat) ∧
        ∀ c, t.context c = if c = (r.sget i.c).toNat then
          { s.context c with root := BitVec.ofNat 64 ((r.sget i.r).toNat / 32 * 32), rhome := (r.sget i.r).toNat % 4 }
          else s.context c) ∧
    ∀ i : CtxI, active r sl.grp i.g ≠ 0 → (r.sget i.c).toNat < 64 → (s.context (r.sget i.c).toNat).res = true →
      ∃ t, exec (.ctxopDrain i) s = .next t ∧ OnOrWaiting t sl w r ∧ SameMemory s t ∧ t.ctxs = s.ctxs ∧ t.tlb = s.tlb

/-- R308, R309: migr and migr.home of a warp that may migrate hold every live lane until the warp has arrived; nothing else
changes. -/
def Obligations.MigrationHoldsTheWarp : Prop :=
  ∀ (s : State) (sl : Slot) (w : Warp) (r : Regs) (i : Instr) (g : Guard) (sheet : Nat),
    s.Chosen sl w r → sl.proof = false → w.levels = [] → w.tgrant = 0 → w.proof = none → w.arrivals = [] → w.pend = [] →
    active r sl.grp g ≠ 0 →
    ((∃ j, i = .migrHome j ∧ g = j.g ∧ sheet = w.home / 68 / 128) ∨
      (∃ j p s1, i = .migr j ∧ g = j.g ∧ s.taken.translate (slotQuadId sl.w) w.ctx (r.sget j.a) .valid = (.ok p, s1) ∧ sheet = p.sheet)) →
    ∃ (t : State) (w' : Warp), exec i s = .next t ∧ s.SameOutside t sl.w ∧ t.warp sl.w = some w' ∧
      w' = { w with r := w'.r, waits := w'.waits } ∧ w'.r = { r with pc := w'.r.pc, gseq := r.gseq + 1 } ∧
      (∀ l, l < 32 → lane sl.grp l = false → w'.r.pcGet l = r.pcGet l) ∧
      (∀ l, l < 32 → lane sl.grp l = true → w'.r.pcGet l = sl.pc) ∧
      ∀ l, l < 32 → lane sl.grp l = true ∨ (lane r.live l = true ∧ lane w.jwaiting l = false) →
        ∃ x ∈ w'.waits, x.kind = .migrating sheet none ∧ lane x.lanes l = true

/-- R143, R144, R151: a Platen instruction by the whole group, whose records pass, joins the warp's queue; registers,
tiles and memory are as before. -/
def Obligations.PlatenInstructionsQueue : Prop :=
  ∀ (s : State) (sl : Slot) (w : Warp) (r : Regs) (i : Instr) (q : PlatReq) (recs : List LRec) (s1 : State),
    s.Chosen sl w r → sl.proof = false → sl.instr = i → platReq i = some q →
    WholeGroup r sl.grp (active r sl.grp q.g) →
    s.taken.readRecords sl.w w (q.recs.map fun k => r.sget k) = (.ok recs, s1) → q.ok recs = true →
    (w.levels = [] ∨ q.forbid recs = false) →
    ∃ (t : State) (w' : Warp) (o : PlatOp), exec i s = .next t ∧ t.warp sl.w = some w' ∧ Passed r w'.r sl ∧
      w' = { w with r := w'.r, proof := w'.proof, platen := w.platen ++ [o] } ∧
      (∀ k, k ≠ sl.w → t.warp k = s.warp k) ∧ SameMemory s t ∧
      o.instr = i ∧ o.act = active r sl.grp q.g ∧ o.recs = recs ∧ o.next = 0 ∧ o.pc = sl.pc ∧ o.gseq = r.gseq.toNat ∧
      ∀ j, i = .accWr j → ∀ k l, k < 2 ^ j.nr.val → l < 32 → lane o.act l = true →
        o.src.get (32 * k + l) = r.vget (j.a + k) l

/-- R155, R161, R167: the steps of the Platen: acc.zero clears its tile; acc.wr and acc.rd move words between registers
and tile rows, 32-bit integers unchanged; an integer mma adds each sum of products modulo 2^32. -/
def Obligations.PlatenStepsChangeTheirTile : Prop :=
  ∀ (s0 : State) (q slot : Nat) (w : Warp) (o : PlatOp) (x : StepRes), PlatenRuns (s0.settleQuad q) q slot w o x →
    ∃ (t : State) (w' : Warp), exec (.platenStep q) s0 = .next t ∧ t.warp slot = some w' ∧ SameMemory s0 t ∧
      (o.next + 1 < o.steps → w'.platen = w.platen.map fun y => if y.id = o.id then { o with next := o.next + 1, skip := o.skip || x.skip, sums := x.sums, hurt := [] } else y) ∧
      (o.steps ≤ o.next + 1 → w'.platen = w.platen.filter fun y => y.id != o.id) ∧
      (∀ i, o.instr = .accZero i → w'.r.v = w.r.v ∧ TilesAfter w w' [i.d.val] fun _ _ => 0) ∧
      (∀ i, o.instr = .accRd i → i.ft = .i32 → i.sum = none → i.nr = 0 → w'.tiles = w.tiles ∧
        ∀ k l, l < 32 → w'.r.vget k l = if k = i.d.val ∧ lane o.act l = true ∧ lane w.r.live l = true
          then element w i.a ((32 * i.rh.val + l) * 64 + i.col.val) else w.r.vget k l) ∧
      (∀ i, o.instr = .accWr i → i.ft = .i32 → i.nr = 0 → i.col.val < 64 → i.rh.val < 2 → w'.r.v = w.r.v ∧
        TilesAfter w w' [i.d.val] fun t e =>
          if e % 64 = i.col.val ∧ e / 64 / 32 = i.rh.val ∧ lane o.act (e / 64 % 32) = true
          then o.src.get (e / 64 % 32) else element w t e) ∧
      (∀ i ops s1, o.instr = .mma i → o.hurt = [] → mfInt i.af = true → mfInt i.bf = true →
        (s0.settleQuad q).mmaOperands slot w i o.next o.recs = (.ok ops, s1) →
        (∀ l ∈ ops, l.1.length = 64) → 2 ≤ ops.length → w'.r.v = w.r.v ∧
        TilesAfter w w' [i.d.val] fun t e =>
          element w t e + BitVec.ofInt 32 (intDot i.af i.bf (((ops.getD 0 default).1).getD (e / 64) [])
            (((ops.getD 1 default).1).getD (e % 64) [])))

/-- R165: a BF16 code that is no NaN goes into a tile as the FP32 value of its high half; FP32 codes and 32-bit integers
go in and out unchanged; a NaN goes in canonical. -/
def Obligations.TileConversionsAreExact : Prop :=
  (∀ c, c < 2 ^ 16 → ¬(0x7F80 < c % 2 ^ 15) → intoTile .bf16 c = BitVec.ofNat 32 (c * 2 ^ 16)) ∧
  (∀ c, c < 2 ^ 16 → 0x7F80 < c % 2 ^ 15 → intoTile .bf16 c = 0x7FC00000) ∧
  (∀ c, c < 2 ^ 32 → ¬(0x7F800000 < c % 2 ^ 31) → intoTile .f32 c = BitVec.ofNat 32 c) ∧
  (∀ (c : Word) md ovf, ¬(0x7F800000 < c.toNat % 2 ^ 31) → outOfTile .f32 md ovf c none = c.toNat) ∧
  (∀ c, intoTile .i32 c = BitVec.ofNat 32 c) ∧ ∀ (c : Word) md ovf, outOfTile .i32 md ovf c none = c.toNat

/-- R241 to R243, R245, R252: a Feeder instruction by the whole group, whose checks pass, gives its Feeder one command; nothing else
changes but that the group goes on. -/
def Obligations.FeederInstructionsGiveCommands : Prop := CopiesAreAccepted ∧ ProgramsAreAccepted ∧
  ∀ (s : State) (sl : Slot) (w : Warp) (r : Regs) (i : Instr) (g : Guard)
    (b : State → Slot → Warp → Regs → Mask → Except MemStop Cmd × State) (c : Cmd) (s1 : State),
    s.Chosen sl w r → sl.proof = false → w.proof = none → w.levels = [] → feederRow i = some (g, b) →
    WholeGroup r sl.grp (active r sl.grp g) → b s.taken sl w r (active r sl.grp g) = (.ok c, s1) →
    (∃ t n r', exec i s = .next t ∧ t.cmds = s.cmds ++ [{ c with id := n }] ∧ (∃ w', t.warp sl.w = some w' ∧ w'.r = r') ∧
      Passed r r' sl ∧ (∀ k, k ≠ sl.w → t.warp k = s.warp k) ∧ SameMemory s t) ∧
    (∀ j, i = .cpy j → CopyCommand s sl w r j c ∧ c.kind = .copy) ∧
    (∀ j, i = .cpyRed j → CopyCommand s sl w r j.c c ∧ c.kind = .red (ropCode j.rop)) ∧
    (∀ j, i = .cpySig j → CopyCommand s sl w r j.c c ∧
      c.kind = .sig (r.sget j.ctr) (BitVec.ofNat 64 ((⟨r, 0, 0, 0⟩ : Rd).dword j.value 0))) ∧
    ∀ j, i = .impStart j → c.kind = .imp ∧ c.tok = j.tk ∧ c.cr = j.cr.map (fun k => r.sget k) ∧ c.bytes = 0

/-- R240, R246 to R248: a chunk of a copy or a reduction alone on its Feeder, whose places are apart, is moved: no byte outside its
destination and its tied barrier changes, and the command is behind the chunk, or, its last chunk moved and no signal or record to come, has ended. A copy's
elements are those of its source, bit for bit; a tied barrier whose phase has arrivals pending has as many bytes less to come. -/
def Obligations.CopyChunksMoveBytes : Prop :=
  ∀ (s : State) (c : Cmd) (ps pd : List Place) (s1 s2 : State),
    let sd := c.src.side c.rop
    let dd := c.dst.side c.rop
    let len := c.nextChunk.2 * c.elemBytes
    let addrs (rc : LRec) : List Int := (List.range c.nextChunk.2).flatMap fun k => rc.copyAddrs c.rop (c.nextChunk.1 + k)
    s.cmd c.id = some c → (∀ x ∈ s.cmds, x.id = c.id → x = c) → AloneOnFeeder s c → c.imp = none → c.owed = none →
    s.postsOf c.id = [] → s.feederBlocked c.feeder = false → c.bytes < c.elems * c.elemBytes → 0 < c.elemBytes →
    s.cmdPlaces c sd .read (addrs c.src) = (.ok ps, s1) →
    s1.cmdPlaces c dd (if c.rop = 0 then .write else .readWrite) (addrs c.dst) = (.ok pd, s2) →
    (∀ p ∈ pd, s2.isMoving p = false ∧ PlaceExists s p) → pd.Pairwise (Apart dd.part) →
    ps.length = c.nextChunk.2 * sd.parts → pd.length = c.nextChunk.2 * dd.parts →
    (∀ p, c.tie = some p → p.sheet? = none ∧ PlaceExists s p ∧ s.poisoned p 16 = false ∧ WellFormedBarrier (s.readLe p 16) ∧
      s.readLe p 16 / 2 ^ 32 % 2 ^ 24 ≠ 0 ∧ ∀ q ∈ pd, ∀ i j, i < 16 → j < dd.part → p.add i ≠ q.add j) →
    ((∀ a x, c.kind ≠ .sig a x) ∧ c.cr = none ∨ c.bytes + len < c.elems * c.elemBytes) →
    ∃ t, exec (.feederChunk c.feeder) s = .next t ∧
      (c.rop = 0 → sd.part * sd.parts = dd.part * dd.parts → (∀ p ∈ ps, s.poisoned p sd.part = false) →
        ∀ j, j < c.nextChunk.2 → elemAt t dd pd j = elemAt s sd ps j) ∧
      (∀ p, c.tie = some p → t.readLe p 16 = s.readLe p 16 % 2 ^ 64 + 2 ^ 64 * ((s.readLe p 16 / 2 ^ 64 + 2 ^ 64 - len % 2 ^ 64) % 2 ^ 64)) ∧
      (∀ q, (∀ p ∈ pd, ∀ j, j < dd.part → q ≠ p.add j) → (∀ p, c.tie = some p → ∀ j, j < 16 → q ≠ p.add j) → t.byte q = s.byte q) ∧
      (c.bytes + len < c.elems * c.elemBytes → t.cmd c.id = some { c with bytes := c.bytes + len }) ∧
      (c.elems * c.elemBytes ≤ c.bytes + len → t.cmds = s.cmds.filter fun x => x.id != c.id) ∧
      ∀ k, k ≠ c.id → t.cmd k = s.cmd k

/-- R255: LOOP, ENDLOOP, WAIT and SIGNAL. -/
def Obligations.ImpositionStepsRun : Prop := LoopStepsCount ∧ WaitAndSignalSteps

/-- R240, R255: the steps that move elements. -/
def Obligations.TransferStepsMoveElements : Prop :=
  InboundStepsGiveCredit ∧ TransferStepsAreServed ∧ TransferStepsMoveChunks ∧ CopyStepsMoveElements

/-- R243, R251, R252, R256: messages between Feeders, and transfers that fail. -/
def Obligations.MessagesAndFailures : Prop := MessagesReachTheirProgram ∧ TransfersThatFailEndTheProgram

/-- R391, R392: rgn.begin and rgn.keep. -/
def Obligations.RegionsOpenAndKeep : Prop := RegionBeginOpensALevel ∧ RegionKeepKeepsValues

/-- R393 to R395, R397, R398: rgn.end, rgn.abort and rgn.status. -/
def Obligations.RegionsEndAndAbort : Prop := RegionEndReleases ∧ RegionAbortAndStatus

/-- R375, R401 to R403, R411: detected errors and the rollback. -/
def Obligations.ErrorsRollBack : Prop := RollbackRestoresKeptState ∧ DetectedErrorsWaitForTheBoundary

/-- R11, R268, R270, R271: the next gang of the record that the Compositor serves is placed at its sites: its warps stand
there as at launch; the record goes on to its next gang. R272, R408: a killed gang of which no block was released starts
again where it was. -/
def Obligations.GangsArePlaced : Prop :=
  (∀ (s : State) (w : Work) (l : LaunchRec) (slots : List Nat) (sites : List Site),
    s.nextWork = some w → w.launch = some l → s.sitesFor ⟨w, none⟩ slots = some sites → (sites.flatMap Site.slots).Nodup →
    ∃ (t : State) (g : Gang), exec (.gangPlacement w.id slots) s = .next t ∧ t.gangs = s.gangs ++ [g] ∧ g.launch = w.id ∧
      g.lin = w.next ∧ g.phase = .running ∧ g.blocks = sites.map (Block.start l) ∧ t.hbm = s.hbm ∧
      t.works = s.works.map (fun x => if x.id = w.id then { x with next := x.next + 1 } else x) ∧
      (∀ b n x slot, sites[b]? = some x → x.slots[n]? = some slot → Launched t g l w.ctx b n slot) ∧
      ∀ k, k ∉ sites.flatMap Site.slots → t.warp k = s.warp k) ∧
  ∀ (s : State) (gang : Nat) (g : Gang) (w : Work) (l : LaunchRec),
    s.gang gang = some g → g.phase = .waitRelaunch → s.work g.launch = some w → w.launch = some l →
    (∀ b ∈ g.blocks, b.released = false) → s.sitesFor ⟨w, some g⟩ [] = some [] → s.yields g = false →
    (g.blocks.flatMap Block.slots).Nodup →
    ∃ (t : State) (g' : Gang), exec (.gangRelaunch gang []) s = .next t ∧ t.gang gang = some g' ∧
      g' = { g with blocks := g.blocks.map (fun b => Block.start l b.at), phase := .running, since := s.time
                    relaunches := g.relaunches + 1 } ∧ t.works = s.works ∧ t.hbm = s.hbm ∧
      ∀ b n x slot, g.blocks[b]? = some x → x.slots[n]? = some slot → Launched t g' l w.ctx b n slot

/-- R407 to R410, R272, R265, R266: a killed gang leaves no warp; it waits for its relaunch or is gone. A warp whose
lanes have all exited retires; the last warp of the last block ends its gang. A watchdog that expires kills its fault
domain, whose queues halt with 0xE0. -/
def Obligations.GangsEnd : Prop :=
  (∀ (s : State) (g : Nat) (x : Gang) (w : Work), s.gang g = some x → s.work x.launch = some w → w.launch ≠ none →
    s.under w.rcbId (s.domainOf w.rcbId) = true → (∀ y ∈ s.warpList, y.2.gang = g → killsWith 0xC6 y.2 = false) →
    ∃ t, exec (.gangKill g 0xC6) s = .next t ∧ NoWarps t g ∧
      (s.mayRelaunch x = true → ∃ x', t.gang g = some x' ∧ x'.phase = .waitRelaunch ∧ x'.relaunches = x.relaunches) ∧
      (s.mayRelaunch x = false → t.gang g = none)) ∧
  (∀ (s : State) (g slot : Nat) (x : Gang) (w : Warp) (e : AsyncErr) (rest : List AsyncErr), s.gang g = some x →
    s.warpList.find? (fun y => y.2.gang == g && killsWith e.cause y.2) = some (slot, w) → s.warp slot = some w →
    w.det = [] → w.async = e :: rest → w.r.frame = none → w.r.vec = 0 → w.boundary = true → reliability e.cause = false →
    ∃ t, exec (.gangKill g e.cause) s = .next t ∧ NoWarps t g) ∧
  (∀ (s0 : State) (slot : Nat) (w : Warp) (g : Gang),
    let s := s0.settle slot
    s.warp slot = some w → s.retireReady slot w = true → w.async = [] → s.gang w.gang = some g →
    ∃ t, exec (.warpRetire slot) s0 = .next t ∧ t.warp slot = none ∧ (∀ k, k ≠ slot → t.warp k = s.warp k) ∧ t.hbm = s.hbm ∧
      ((∀ x ∈ (s.dropWarp slot).warpList, x.2.gang ≠ w.gang) →
        (∀ k b, g.blocks[k]? = some b → k ≠ w.block → b.released = true) →
        t.gang w.gang = none ∧ ∀ x, s.work g.launch = some x → t.work g.launch = some { x with finished := x.finished + 1 })) ∧
  ∀ (s : State) (id : Nat) (x : Rcb), s.rcb id = some x → s.expired x = true →
    ∃ t, exec (.watchdogExpiry id) s = .next t ∧
      (∀ w ∈ s.works, w.launch ≠ none → s.under w.rcbId (s.domainOf id) = true →
        (w.unplaced = true ∨ ∃ g ∈ s.gangs, g.launch = w.id) → (∀ y ∈ t.works, y.id ≠ w.id) ∧ (∀ g ∈ s.gangs, g.launch = w.id → t.gang g.id = none ∧ NoWarps t g.id) ∧
        ∀ q, s.queue w.queue = some q →
          ∃ q', t.queue w.queue = some q' ∧ ((q'.faulted = true ∧ q'.cause = 0xE0) ∨ q'.haltNext = some 0xE0)) ∧
      ∀ y, t.rcb id = some y → y.spent = true

/-- R326 to R330, R410: a request stops a running gang; an engine that has stopped acknowledges; when all have, the
gang's warps are saved and gone; a gang that may resume stands again where it stood. A scheduler rebuilt without loss
changes nothing but the record it posts; one that has lost its tables kills the gangs of its chase. -/
def Obligations.GangsStopAndResume : Prop :=
  (∀ (s : State) (gang : Nat) (g : Gang), s.gang gang = some g →
    (g.phase = .stopping → exec (.preemptionRequest gang) s = .next s) ∧
    (∀ j, g.phase = .running → s.claimant = some j → s.victim.map Gang.id = some gang →
      ∃ t, exec (.preemptionRequest gang) s = .next t ∧ t = { s with gangs := t.gangs } ∧
        t.gang gang = some { g with phase := .stopping, stopAt := s.time, acks := [], yieldTo := some (j.work.id, (j.again.map Gang.lin).getD j.work.next) }) ∧
    (∀ no q w x, s.work g.launch = some x → x.queue = no → s.queue no = some q → s.waitingWork no q.cls = some w →
      g.phase = .running → s.gangClass g ≠ 0 → q.efSlice ≠ 0 → 1000 * q.efSlice ≤ s.time - g.since →
      ∃ t, exec (.timeSliceExpiry gang) s = .next t ∧ t = { s with gangs := t.gangs } ∧
        t.gang gang = some { g with phase := .stopping, stopAt := s.time, acks := [], yieldTo := some (w.id, w.next) })) ∧
  (∀ (s0 : State) (gang : Nat) (g : Gang), s0.gang gang = some g → g.phase = .stopping →
    (g.acks.contains .cp = false → ∃ t, exec (.engineStop gang .cp) s0 = .next t ∧ t = { s0 with gangs := t.gangs } ∧
      t.gang gang = some { g with acks := .cp :: g.acks }) ∧
    (∀ slot w, let s := s0.settle slot
      g.acks.contains (.warp slot) = false → s.warp slot = some w → w.gang = gang → s.refusedDeparture slot w = false →
      w.results = [] → w.mayStop = true →
      ∃ t, exec (.engineStop gang (.warp slot)) s0 = .next t ∧ t.gang gang = some { g with acks := .warp slot :: g.acks } ∧
        t.warp slot = some { w with waits := w.waits.filter Wait.isJ, stopped := true
                                    proof := w.proof.map fun p => { p with lag := p.lag.map w.takenOff } } ∧
        ∀ k, k ≠ slot → t.warp k = s.warp k) ∧
    (∀ id c, g.acks.contains (.feeder id) = false → s0.cmd id = some c → c ∈ s0.gangCmds gang → c.suspended = false →
      c.cr = none → s0.postsOf id = [] →
      ∃ t, exec (.engineStop gang (.feeder id)) s0 = .next t ∧ t = { s0 with gangs := t.gangs, cmds := t.cmds } ∧
        t.cmd id = some { c with suspended := true, imp := c.imp.map fun p => { p with
          begun := false, ins := p.ins.map fun e => { e with upto := 0 } } } ∧ t.gang gang = some { g with acks := .feeder id :: g.acks })) ∧
  (∀ (s0 : State) (gang : Nat) (g : Gang),
    let s := (s0.gangSlots gang).foldl State.settle s0
    let ws := s.warpList.filter fun x => x.2.gang == gang
    s.gang gang = some g → g.phase = .stopping → (∀ e ∈ s.engines gang, g.acks.contains e = true) →
    (∀ x ∈ ws, x.2.stopped = true ∧ x.2.holdable = true) →
    ∃ t, exec (.preemptionComplete gang) s0 = .next t ∧ NoWarps t gang ∧ t.hbm = s.hbm ∧
      t.gang gang = some { g with phase := .suspended, acks := [], saved := ws, saveTime := s.time - g.stopAt }) ∧
  (∀ (s : State) (gang : Nat) (g : Gang), s.gang gang = some g → s.resumable g = true →
    (∀ x ∈ g.saved, x.2.pend = []) → (g.saved.map Prod.fst).Nodup →
    ∃ t, exec (.resumption gang) s = .next t ∧ t.hbm = s.hbm ∧
      t.gang gang = some { g with
        phase := if g.saved.isEmpty then .waitRelaunch else .running, saved := [], since := s.time, yieldTo := none } ∧
      (∀ x ∈ g.saved, t.warp x.1 = some { x.2 with stopped := false }) ∧
      ∀ k, k ∉ g.saved.map Prod.fst → t.warp k = s.warp k) ∧
  ∀ (s : State) (chase : Nat), chase < 128 →
    (∃ t e, exec (.schedulerRebuild chase false) s = .next t ∧ t = { s with mgmtErr := s.mgmtErr ++ [e], recNo := t.recNo } ∧
      e.cause = 0xC6 ∧ e.sev = 0) ∧
    ((s.gangs.map Gang.id).Nodup → ∃ t, exec (.schedulerRebuild chase true) s = .next t ∧
      ∀ g ∈ s.gangs, g.chase = chase → g.phase = .running ∨ g.phase = .stopping → NoWarps t g.id)

/-- R331, R332: the next entry of a fabric channel joins the receiver's queue when it is taken, and a warp that it takes from a
landing slot leaves that slot free (R285, R310); refused, its sender waits, twice as long as after the last refusal, and then sends
again. R309 to R311: a warp that is ready departs with a number;
it arrives in its slot with its registers, its latches invalid, behind its migr. -/
def Obligations.FabricAndMigration : Prop :=
  (∀ (s0 : State) (src dst vc : Nat) (e : Nat × Freight),
    let key := (src * 4 + dst) * 2 + vc
    let s := s0.pump src dst vc
    let c := s.chans.get key
    src ≠ dst → src < 4 → dst < 4 → vc < 2 → c.refused = false → c.window.find? (fun x => x.1 == c.cursor) = some e →
    c.expect ≤ e.1 → s.stands dst e.2 = true →
    let taken := { c with
      window := c.window.filter (fun x => x.1 != e.1), cursor := e.1 + 1, expect := e.1 + 1, queue := c.queue ++ [e]
      refused := false, backoff := 0, wait := 0 }
    ∃ t, exec (.fabricEntry src dst vc) s0 = .next t ∧ (∀ k, k ≠ key → t.chans.get k = s.chans.get k) ∧
      (s.takes src dst vc e.2 = true → (∀ k d w, e.2 = .warp k d → s.warp k = some w → k = w.home) →
        t = { s with chans := t.chans } ∧ t.chans.get key = taken) ∧
      (∀ k d w, s.takes src dst vc e.2 = true → e.2 = .warp k d → s.warp k = some w → k ≠ w.home → k ≠ 34817 + d →
        t = { s with chans := t.chans, warps := t.warps } ∧ t.warp k = none ∧ t.warp (34817 + d) = some w ∧
        (∀ n, n ≠ k → n ≠ 34817 + d → t.warp n = s.warp n) ∧
        t.chans.get key = { taken with queue := (t.chans.get key).queue } ∧
        (t.chans.get key).queue.getLast? = some (e.1, .warp (34817 + d) d)) ∧
      (s.takes src dst vc e.2 = false →
        let b := if c.backoff = 0 then s.backoffMin else min (2 * c.backoff) s.backoffMax
        t = { s with chans := t.chans } ∧ t.chans.get key = { c with refused := true, backoff := b, wait := b })) ∧
  (∀ (s : State) (src dst vc : Nat),
    let key := (src * 4 + dst) * 2 + vc
    src < 4 → dst < 4 → vc < 2 → (s.chans.get key).refused = true → (s.chans.get key).wait = 0 →
    ∃ t, exec (.fabricResend src dst vc) s = .next t ∧ t = { s with chans := t.chans } ∧
      t.chans.get key = { s.chans.get key with refused := false } ∧ ∀ k, k ≠ key → t.chans.get k = s.chans.get k) ∧
  (∀ (s0 : State) (slot sheet : Nat) (w : Warp),
    let s := s0.settle slot
    let key := (slot / 68 / 128 * 4 + sheet) * 2 + s.vcOf w
    s.warp slot = some w → w.leavingFor = some sheet → s.departReady slot w = true →
    (sheet = slot / 68 / 128 → ∃ t, exec (.migrationDeparture slot) s0 = .next t ∧
      t.warp slot = some { w.letGo with constSince := s.past.length, constSeq := s.opSeq, constOwn := s.opSeq } ∧ t.chans = s.chans) ∧
    (sheet ≠ slot / 68 / 128 → (s.chans.get key).room = true →
      ∃ t d, exec (.migrationDeparture slot) s0 = .next t ∧ t.warp slot = some (w.depart d) ∧
        t.chans.get key = { s.chans.get key with
          window := (s.chans.get key).window ++ [((s.chans.get key).nextSeq, .warp slot d)]
          nextSeq := (s.chans.get key).nextSeq + 1 })) ∧
  ∀ (s : State) (slot into d key : Nat) (w : Warp),
    let sheet := key / 2 % 4
    s.warp slot = some w → w.departure = some d → s.arrivalKey slot d = some key → into ≠ slot →
    (w.home / 68 / 128 = sheet → into = w.home) →
    (w.home / 68 / 128 ≠ sheet → into / 68 / 128 = sheet ∧ into % 17 = 16 ∧ s.warp into = none) →
    ∃ (t : State) (w' : Warp), exec (.migrationArrival slot into) s = .next t ∧ t.warp slot = none ∧ t.warp into = some w' ∧
      w' = { w.letGo with r := w'.r, feeder := w'.feeder, constSince := w'.constSince, constSeq := w'.constSeq, constOwn := w'.constOwn } ∧
      w'.constSince = s.past.length ∧
      w'.r = { w.letGo.r with lvalid := 0, ages := [] } ∧ (∀ k, k ≠ slot → k ≠ into → t.warp k = s.warp k) ∧
      (s.chans.get key).queue.drop 1 = (t.chans.get key).queue ∧ t.hbm = s.hbm

/-- R316, R317: a TAIL that is a multiple of 32, not below the last and not past HEAD plus the ring's size is taken; any
other halts the queue with 0xE4. RESUME and RESET act on a faulted queue and on no other. R321, R322: work that has
completed adds DVAL to DONE and is over. -/
def Obligations.DoorbellsAndCompletion : Prop :=
  (∀ (s : State) (no : Nat) (q : Queue) (v : DWord), s.queue no = some q →
    let ok := v.toNat % 32 = 0 ∧ q.tail ≤ v.toNat ∧ v.toNat ≤ q.head + 2 ^ q.log2
    (ok → ∃ t, exec (.tail no v) s = .next t ∧ t = { s with queues := t.queues } ∧
      ∀ k, t.queue k = if k = no then some { q with tail := v.toNat } else s.queue k) ∧
    (¬ok → ∃ t, exec (.tail no v) s = .next t ∧ Halts t no q 0xE4) ∧
    (q.faulted = true → ∃ t, exec (.resume no) s = .next t ∧ t = { s with queues := t.queues } ∧
      ∀ k, t.queue k = if k = no then some { q with faulted := false } else s.queue k) ∧
    (q.faulted = true → ∃ t, exec (.reset no) s = .next t ∧ t = { s with queues := t.queues } ∧
      ∀ k, t.queue k = if k = no then some { q with head := q.tail, cause := 0, faulted := false } else s.queue k) ∧
    (q.faulted = false → exec (.resume no) s = .next s ∧ exec (.reset no) s = .next s)) ∧
  ∀ (s : State) (id : Nat) (w : Work),
    let u := { s with works := s.works.filter fun x => x.id != id }
    s.work id = some w → s.complete w = true →
    (w.done = 0 → exec (.workCompletionDone id) s = .next u) ∧
    ∀ p s1, w.done ≠ 0 → u.translate (dieUnit 0) w.ctx w.done .readWrite = (.ok p, s1) → p.mig = false → s1.isMoving p.place = false →
      s1.poisoned p.place 8 = false → PlaceExists s p.place →
      ∃ t, exec (.workCompletionDone id) s = .next t ∧ t.works = u.works ∧
        Stored s t p.place ((s.readLe p.place 8 + w.dval.toNat) % 2 ^ 64) 8

/-- R319 to R325: packets. SKIP and SIGNAL are accepted at once; FENCE waits for its counters; LAUNCH, COPY and
COLLECTIVE leave work; RCB packets register and unregister; an unknown OPC and a packet that breaks a check halt their
queue, a counter or a DONE that is not aligned with 0xE3 (the model's reading of R322 and R323: log 50). -/
def Obligations.PacketsAreTaken : Prop :=
  (∀ (s : State) (no : Nat) (q : Queue) (p : Packet) (s2 : State),
    (Parses s no q p s2 7 → ∃ t, exec (.skip no) s = .next t ∧ Accepted t no q p ∧ t = { s2 with queues := t.queues }) ∧
    (∀ x s3, Parses s no q p s2 3 → (p.addr 8).toNat % 8 = 0 → p.byte 24 1 < 6 → p.byte 25 7 = 0 →
      s2.translate (dieUnit 0) q.ctx (p.addr 8) .readWrite = (.ok x, s3) → x.mig = false → s3.isMoving x.place = false →
      s3.poisoned x.place 8 = false → p.q = q → PlaceExists s x.place →
      ∃ t, exec (.packetSignal no) s = .next t ∧ Accepted t no q p ∧
        Stored s t x.place ((s.readLe x.place 8 + (p.addr 16).toNat) % 2 ^ 64) 8) ∧
    (Parses s no q p s2 3 → p.byte 24 1 < 6 → p.byte 25 7 = 0 → (p.addr 8).toNat % 8 ≠ 0 →
      ∃ t, exec (.packetSignal no) s = .next t ∧ Halts t no q 0xE3) ∧
    (∀ x r s3, Parses s no q p s2 1 → p.q = q → (p.addr 8).toNat % 64 = 0 → p.byte 32 32 = 0 →
      s2.cpRead q.ctx (p.addr 8) 192 = (.ok x, s3) → LaunchRec.ok x = true → s3.rcbAt q.ctx (LaunchRec.ofNat x).rcb = some r →
      (p.addr 16).toNat % 8 ≠ 0 → ∃ t, exec (.launch no) s = .next t ∧ Halts t no q 0xE3) ∧
    (Parses s no q p s2 2 → 1 ≤ p.byte 8 1 → p.byte 8 1 ≤ 12 → p.byte 9 1 < 6 → p.byte 10 6 = 0 →
      p.byte (16 + 16 * p.byte 8 1) (32 * p.len - (16 + 16 * p.byte 8 1)) = 0 → (∀ c ∈ p.counters, c.1.toNat % 8 = 0) →
      ∃ t, exec (.packetFence no) s = .next t ∧
        t.queue no = some { q with parse := some (.fence (p.byte 9 1) p.len p.tag p.counters) } ∧
        p.counters = (List.range (p.byte 8 1)).map fun k => (p.addr (16 + 16 * k), p.addr (24 + 16 * k))) ∧
    (∀ x r s3 s4, Parses s no q p s2 1 → p.q = q → (p.addr 8).toNat % 64 = 0 → (p.addr 16).toNat % 8 = 0 → p.byte 32 32 = 0 →
      s2.cpRead q.ctx (p.addr 8) 192 = (.ok x, s3) → LaunchRec.ok x = true → s3.rcbAt q.ctx (LaunchRec.ofNat x).rcb = some r →
      s3.cpCheck q.ctx (p.addr 16) 8 .readWrite = (none, s4) →
      ∃ t w, exec (.launch no) s = .next t ∧ Accepted t no q p ∧ t.works = s.works ++ [w] ∧ t.gangs = s.gangs ∧
        WorkOf w no p q r.id (some (LaunchRec.ofNat x)) (p.addr 16) (p.addr 24)) ∧
    (∀ r sc d a s3 s4 s5 s6, Parses s no q p s2 4 → p.q = q → s2.rcbAt q.ctx (p.addr 8) = some r →
      scopes[p.byte 57 1]? = some sc → (p.addr 16).toNat % 32 = 0 → (p.addr 24).toNat % 32 = 0 → (p.addr 32).toNat % 16 = 0 →
      (p.addr 40).toNat % 8 = 0 → p.byte 56 1 < 7 → p.byte 58 1 ≠ 0xFF → p.byte 59 5 = 0 →
      p.byte 58 1 ∈ s2.allowedFeeders r.id → s2.packetRecord p (p.addr 16) = (.ok d, s3) →
      s3.packetRecord p (p.addr 24) = (.ok a, s4) →
      copyOk (if p.byte 56 1 = 0 then .copy else .red (p.byte 56 1)) d a = true →
      s4.cpCheck q.ctx (p.addr 32) 16 .write = (none, s5) → s5.cpCheck q.ctx (p.addr 40) 8 .readWrite = (none, s6) →
      ∃ t w c, exec (.packetCopy no) s = .next t ∧ Accepted t no q p ∧ t.works = s.works ++ [w] ∧ t.cmds = s.cmds ++ [c] ∧
        WorkOf w no p q r.id none (p.addr 40) (p.addr 48) ∧ c.owner = .queue no w.id ∧ c.feeder = p.byte 58 1 ∧ c.rcb = r.id ∧
        c.scope = sc ∧ c.dst = d ∧ c.src = a ∧ c.kind = (if p.byte 56 1 = 0 then .copy else .red (p.byte 56 1)) ∧ c.bytes = 0) ∧
    (∀ r sc x s3 s4 s5, Parses s no q p s2 5 → p.q = q → s2.rcbAt q.ctx (p.addr 8) = some r →
      scopes[p.byte 56 1]? = some sc → (p.addr 16).toNat % 64 = 0 → p.byte 24 8 = 0 → (p.addr 32).toNat % 16 = 0 →
      (p.addr 40).toNat % 8 = 0 → p.byte 57 7 = 0 → s2.cpRead q.ctx (p.addr 16) 128 = (.ok x, s3) →
      s3.descOk r.id x = true →
      s3.cpCheck q.ctx (p.addr 32) 16 .write = (none, s4) → s4.cpCheck q.ctx (p.addr 40) 8 .readWrite = (none, s5) →
      ∃ t w c, exec (.collective no) s = .next t ∧ Accepted t no q p ∧ t.works = s.works ++ [w] ∧ t.cmds = s.cmds ++ [c] ∧
        WorkOf w no p q r.id none (p.addr 40) (p.addr 48) ∧ c.owner = .queue no w.id ∧ c.feeder = (Desc.ofNat x).feeder ∧
        c.rcb = r.id ∧ c.scope = sc ∧ c.kind = .imp ∧ c.imp = some (.start (Desc.ofNat x))) ∧
    (∀ x s3, Parses s no q p s2 6 → p.q = q → p.byte 16 1 = 0 → p.byte 8 8 % 128 = 0 → p.byte 17 15 = 0 →
      s2.cpRead q.ctx (p.addr 8) 128 = (.ok x, s3) → Rcb.ok x (s3.feature 6) = true →
      s3.mayRegister (Rcb.ofNat s3.opSeq q.ctx (p.addr 8) x) = true →
      ∃ t, exec (.rcbRegister no) s = .next t ∧ Accepted t no q p ∧
        t.rcbs = s.rcbs ++ [Rcb.ofNat s3.opSeq q.ctx (p.addr 8) x]) ∧
    (∀ r, Parses s no q p s2 6 → p.q = q → q.parse = none → p.len = 1 → p.byte 16 1 = 1 → p.byte 8 8 % 128 = 0 →
      p.byte 17 15 = 0 → s2.rcbAt q.ctx (p.addr 8) = some r → s2.hasChildren r = false →
      (s2.rcbBusy r.id = false → ∃ t, exec (.rcbUnregister no) s = .next t ∧ Accepted t no q p ∧
        t.rcbs = s.rcbs.filter fun y => y.id != r.id) ∧
      (s2.rcbBusy r.id = true → ∃ t, exec (.rcbUnregister no) s = .next t ∧ t.rcbs = s.rcbs ∧
        t.queue no = some { q with parse := some (.unregister r.id) }))) ∧
  (∀ (s : State) (no : Nat) (q : Queue), s.queue no = some q →
    (∀ scope len tag c v s1, q.parse = some (.fence scope len tag [c]) → s.queueSuspended no = false → q.haltNext = none →
      s.cpRead q.ctx c.1 8 = (.ok v, s1) → c.2.toNat ≤ v →
      ∃ t, exec (.fenceThresholdMet no) s = .next t ∧ t = { s1 with queues := t.queues } ∧
        t.queue no = some { q with head := q.head + 32 * len, parse := none }) ∧
    (∀ hdr s1, s.nextQueue = some no → s.header q = (.ok hdr, s1) → hdr % 256 = 0 ∨ 7 < hdr % 256 →
      ∃ t, exec (.unknownPacket no) s = .next t ∧ Halts t no q 0xE2) ∧
    ∀ hdr s1 s2 e i, s.nextQueue = some no → { s with cpRR := s.cpRR.set q.cls no }.header q = (.ok hdr, s1) →
      packetInstr (hdr % 256) no = some i → s1.packet q hdr = (.error e, s2) →
      ∃ t, exec i s = .next t ∧ Halts t no q e.1)

/-- R354 to R356, R314, R333, R334, R427 to R431: boot and the management operations of a port. -/
def Obligations.ManagementAnswers : Prop :=
  (∀ (s : State), s.phase = .off →
    (s.bootSlot = none → exec .boot s = .next { s with phase := .recovery }) ∧
    ∀ k, s.bootSlot = some k → ∃ t, exec .boot s = .next t ∧
      t = { s with phase := .running, runSlot := k, saves := t.saves, backoffMin := t.backoffMin, backoffMax := t.backoffMax } ∧
      t.saves.length = 4 ∧ ∀ x ∈ t.saves, x % 2 ^ 16 = 0 ∧ x + 280 * 2 ^ 20 ≤ Config.sheetBytes) ∧
  (∀ (s : State) (i : Instr) (port op : Nat), port < 8 → s.phase = .recovery → notInRecovery i = some (port, op) →
    exec i s = .next { s with replies := answered s port op 1 [] }) ∧
  (∀ (s : State) (port : Nat), port < 8 → s.phase ≠ .off →
    (exec (.readOfferWords port) s = .next { s with
      replies := answered s port 1 0 [.words port [0xFFF, 0, 0, 0, 0x0108, BitVec.ofNat 64 s.featLock]] }) ∧
    (exec (.readManagementErrata port) s = .next { s with
      mgmtErr := [], replies := answered s port 9 0 [.records port s.mgmtErr] }) ∧
    (∀ m : List Byte, (m.length ≠ 64 ∨ (m.headD 0).toNat = 0 ∨ 10 < (m.headD 0).toNat ∨ ∃ b ∈ (m.drop 1).take 7, b ≠ 0) →
      exec (.malformedManagementMessage port m) s = .next { s with replies := answered s port (m.headD 0).toNat 2 [] }) ∧
    (∀ n, n.length = 32 → s.leaf < 2 ^ 20 → s.featAccept.length = 4 → ∃ body sig, exec (.attestationQuote port n) s = .next { s with
      leaf := s.leaf + 1, replies := answered s port 7 0 [.quote port body sig] } ∧ body.take 32 = n ∧ body.length = 128 ∧
      leNat ((body.drop 116).take 4) = s.leaf ∧ leNat ((body.drop 120).take 4) = 2 ^ 20 - 1 - s.leaf) ∧
    (∀ n, n.length = 32 → 2 ^ 20 ≤ s.leaf →
      exec (.attestationQuote port n) s = .next { s with replies := answered s port 7 3 [] }) ∧
    (∀ slot v image sig, slot < 2 → s.anyContext = false → s.fuses ≤ v.toNat →
      exec (.writeFirmwareSlot port slot v image sig) s = .next { s with
        slots := s.slots.set slot ⟨true, v, some (image, sig)⟩, replies := answered s port 8 0 [] })) ∧
  ∀ (s : State) (port : Nat), port < 8 → s.phase = .running →
    (∀ word v, word < 4 → s.featLock ≠ 1 → exec (.featureAccept port word v) s = .next { s with
      featAccept := s.featAccept.set word v, replies := answered s port 2 0 [] }) ∧
    (∀ word v, word < 4 → s.featLock = 1 →
      exec (.featureAccept port word v) s = .next { s with replies := answered s port 2 1 [] }) ∧
    (∀ x y z u, s.featAccept = [x, y, z, u] → s.featLock ≠ 1 →
      let code := if 2 ^ 12 ≤ x.toNat ∨ y ≠ 0 ∨ z ≠ 0 ∨ u ≠ 0 then 2
        else if x.toNat % 2 = 0 then 3
        else if x.toNat / 2 ^ 6 % 2 = 1 ∧ x.toNat / 2 ^ 5 % 2 = 0 then 4
        else 1
      exec (.featureLock port 1) s = .next { s with
        featLock := code, replies := answered s port 2 (if code = 1 then 0 else 1) [] }) ∧
    (∀ a : CtxArgs, s.featLock = 1 → a.ctx < 64 → a.root.toNat % 32 = 0 → a.root.toNat < 2 ^ 38 → (s.context a.ctx).res = false →
      ∃ t, exec (.createContext port a) s = .next t ∧ t = { s with ctxs := t.ctxs, replies := answered s port 3 0 [] } ∧
        ∀ c, t.context c = if c = a.ctx then contextOf a else s.context c) ∧
    (∀ c, (s.context c).res = true → s.contextUsed c = false →
      ∃ t, exec (.removeContext port c) s = .next t ∧ t.replies = answered s port 4 0 [] ∧ (t.context c).res = false ∧
        (∀ k, k ≠ c → t.context k = s.context k) ∧ t.tlb = s.tlb.filter (fun e => e.ctx != c) ∧ t.hbm = s.hbm) ∧
    (∀ no qcb q, s.featLock = 1 → queueOf no qcb = some q → s.queue no = none → (s.context q.ctx).res = true →
      ∃ t, exec (.registerQueue port (.register no qcb)) s = .next t ∧
        t = { s with queues := t.queues, replies := answered s port 5 0 [.words port [q.doorbell]] } ∧
        q.head = 0 ∧ q.tail = 0 ∧ q.faulted = false ∧ ∀ k, t.queue k = if k = no then some q else s.queue k) ∧
    (∀ no q, s.featLock = 1 → s.queue no = some q → ∃ t, exec (.registerQueue port (.remove no)) s = .next t ∧
      t = { s with queues := t.queues, replies := answered s port 5 0 [] } ∧
      ∀ k, t.queue k = if k = no then none else s.queue k) ∧
    (∀ p qp c, p < 8 → qp < 4096 → qp ≠ 1 → (s.context c).res = true →
      ∃ t, exec (.bindQueuePair port p qp c) s = .next t ∧ t = { s with qps := t.qps, replies := answered s port 6 0 [] } ∧
        ∀ k, t.qps.get k = if k = p * 4096 + qp then some ⟨c, false⟩ else s.qps.get k) ∧
    ∀ f, s.anyContext = false → s.slots[s.runSlot]? = some f →
      exec (.commitFirmwareVersion port) s = .next { s with
        fuses := max s.fuses (min 64 f.version.toNat), replies := answered s port 10 0 [] }

/-- R334, R336: an RDMA operation of a queue pair bound to a context reads and writes that context's memory; of a pair
bound to none it is answered with a NAK; a write of TAIL into a doorbell line rings it. R431: where its packet is marked for
congestion, a notification is sent first. -/
def Obligations.RdmaReachesItsContext : Prop :=
  ∀ (s : State) (port qp : Nat) (ecn : Bool) (va : DWord), s.phase = .running → port < 8 → qp < 4096 →
    let sent := s.replies ++ if ecn then [.cnp port qp] else []
    (s.qps.get (port * 4096 + qp) = none →
      ∀ i, (∃ d, i = .rdmaWrite port ⟨qp, ecn⟩ va d) ∨ (∃ n, i = .rdmaRead port ⟨qp, ecn⟩ va n) →
      ∃ t, exec i s = .next t ∧ t.replies = sent ++ [.nak port qp] ∧ t = { s with qps := t.qps, replies := t.replies }) ∧
    ∀ ctx, s.qps.get (port * 4096 + qp) = some ⟨ctx, false⟩ →
      (∀ x ∈ s.rdmaHeld, rdmaKey x ≠ some (port * 4096 + qp)) →
      (∀ data p s1, s.doorbellAt va = none → data ≠ [] → firstPart va data.length = data.length →
        s.translate (portUnit port) ctx va .write = (.ok p, s1) → p.mig = false → s1.isMoving p.place = false →
        PlaceExists s p.place →
        ∃ t, exec (.rdmaWrite port ⟨qp, ecn⟩ va data) s = .next t ∧ t.replies = sent ∧ Stored s t p.place (leNat data) data.length) ∧
      (∀ len p s1, s.doorbellAt va = none → 0 < len → firstPart va len = len →
        s.translate (portUnit port) ctx va .read = (.ok p, s1) → s.poisoned p.place len = false →
        ∃ t, exec (.rdmaRead port ⟨qp, ecn⟩ va len) s = .next t ∧ SameMemory s t ∧
          t.replies = sent ++ [.data port qp ((List.range len).map fun k => s.byte (p.place.add k))]) ∧
      (∀ data p s1, s.doorbellAt va = none → data ≠ [] → firstPart va data.length = data.length →
        s.translate (portUnit port) ctx va .write = (.ok p, s1) → p.mig = true ∨ s1.isMoving p.place = true →
        exec (.rdmaWrite port ⟨qp, ecn⟩ va data) s =
          .next { s with replies := sent, rdmaHeld := s.rdmaHeld ++ [.rdmaWrite port ⟨qp, false⟩ va data] }) ∧
      ∀ no q x, s.doorbellAt va = some (no, q, 0) → s.queue no = some q → x < 2 ^ 64 →
        exec (.rdmaWrite port ⟨qp, ecn⟩ va (leBytes x 8)) s = exec (.tail no (BitVec.ofNat 64 x)) { s with replies := sent }

/-- R411, R426, R427: the clock moves by 50 MHz within its range; a die that stays at its trip temperature at
1.0 GHz halts every context (what comes from outside still acts and no step of a context does: log 27); power loss leaves the reset state but for what flash and fuses hold; an uncorrectable error
marks the word it strikes. -/
def Obligations.PowerAndErrors : Prop :=
  ∀ (s : State),
    (exec (.clockThrottle true) s = .next { s with freq := min 1500 (s.freq + 50) }) ∧
    (exec (.clockThrottle false) s = .next { s with freq := max 1000 (s.freq - 50) }) ∧
    (s.freq = 1000 → ∃ t, exec .thermalTripFatal s = .next t ∧ t.halted = true ∧ t.agenda = s.agenda) ∧
    (∀ i rest, s.halted = true → s.agenda = i :: rest →
      step s = if outsideStep i = true then exec i { s with agenda := rest } else .fault .notEnabled) ∧
    (s.halted = true → s.agenda = [] → step s = .next s.pass) ∧
    (s.leaf ≤ 2 ^ 20 → ∃ t, exec .powerLoss s = .next t ∧ t.fuses = s.fuses ∧ t.slots = s.slots ∧ s.leaf ≤ t.leaf ∧
      t.leaf ≤ s.leaf + 1 ∧ t.leaf ≤ 2 ^ 20 ∧ t.phase = .off ∧
      t.hbm = [] ∧ t.warps = [] ∧ t.gangs = [] ∧ t.queues = [] ∧ t.ctxs = [] ∧ t.featLock = 0 ∧ t.time = 0) ∧
    (∀ port, port < 8 → ∃ t, exec (.cnpReceived port) s = .next t ∧ t = { s with cnp := t.cnp }) ∧
    (∀ key, ∃ t, exec (.uncorrectableError (.hbm key)) s = .next t ∧ SameMemory s t ∧ t.poisoned (.hbm key) 1 = true ∧
      ∀ k, k / 8 ≠ key / 8 → t.poisoned (.hbm k) 1 = s.poisoned (.hbm k) 1) ∧
    (∀ g b o x, s.scrBlock g b = some x → ∃ t, exec (.uncorrectableError (.scratch g b o)) s = .next t ∧ SameMemory s t ∧
      t.poisoned (.scr g b o) 1 = true) ∧
    (∀ w k l x, s.warp w = some x → ∃ t, exec (.uncorrectableError (.vreg w k l)) s = .next t ∧
      ∃ y, t.warp w = some y ∧ y = { x with badV := y.badV } ∧ k * 32 + l ∈ y.badV) ∧
    (∀ w k x, s.warp w = some x → ∃ t, exec (.uncorrectableError (.sreg w k)) s = .next t ∧
      ∃ y, t.warp w = some y ∧ y = { x with badS := y.badS } ∧ k ∈ y.badS) ∧
    (∀ w k x, s.warp w = some x → ∃ t, exec (.uncorrectableError (.preg w k)) s = .next t ∧
      ∃ y, t.warp w = some y ∧ y = { x with badP := y.badP } ∧ k ∈ y.badP) ∧
    (∀ w k x, s.warp w = some x → ∃ t, exec (.uncorrectableError (.jreg w k)) s = .next t ∧
      ∃ y, t.warp w = some y ∧ y = { x with badJ := y.badJ } ∧ k ∈ y.badJ) ∧
    (∀ w n e x, s.warp w = some x → ∃ t, exec (.uncorrectableError (.tile w n e)) s = .next t ∧
      ∃ y, t.warp w = some y ∧ y = { x with badT := y.badT } ∧ n * 4096 + e ∈ y.badT) ∧
    (∀ g b bank k x v, s.scrBlock g b = some x → (x.fifos.get bank)[k]? = some v →
      ∃ t y, exec (.uncorrectableError (.fifo g b bank k)) s = .next t ∧ SameMemory s t ∧ t.scrBlock g b = some y ∧
        y.fifos.get bank = (x.fifos.get bank).set k (v.1, true)) ∧
    (∀ w k l x, s.warp w = some x → ∃ t y, exec (.uncorrectableError (.latch w k l)) s = .next t ∧ t.warp w = some y ∧
      y = { x with r := { x.r with badL := y.r.badL } } ∧ k * 32 + l ∈ y.r.badL) ∧
    (∀ w x l rest, s.warp w = some x → x.levels = l :: rest →
      ∃ t y, exec (.uncorrectableError (.kept w x.levels.length)) s = .next t ∧ t.warp w = some y ∧
        y = { x with levels := { l with badKept := true } :: rest }) ∧
    (∀ w x l rest h b, s.warp w = some x → x.levels = l :: rest → l.held = [h] → b ∈ h.bytes →
      ∃ t y h', exec (.uncorrectableError (.galley w x.levels.length 0 b.1)) s = .next t ∧ t.warp w = some y ∧
        y = { x with levels := { l with held := [h'] } :: rest } ∧ h' = { h with bad := h'.bad } ∧ b.1 ∈ h'.bad) ∧
    (∀ w x o rest e m k, s.warp w = some x → x.platen = o :: rest →
      ∃ t y, exec (.uncorrectableError (.groupSum w e m k)) s = .next t ∧ t.warp w = some y ∧
        y = { x with platen := { o with hurt := o.hurt ++ [(e, m, k)] } :: rest }) ∧
    (∀ forme key, ∃ t, exec (.uncorrectableError (.l1 forme key)) s = .next t ∧ t = { s with l1bad := t.l1bad }) ∧
    ∀ n, ∃ t, exec (.uncorrectableError (.bridge n)) s = .next t ∧ t.halted = true
end

