-- ==== Sys2Proof/Laws/Map.lean ====
section
/-! SUPPORT. The laws of the sparse map: a read after a write, the canonical form, and runs of writes. -/

namespace Sys2Proof

variable {β : Type} [Inhabited β] [DecidableEq β]

omit [DecidableEq β] in
@[simp] theorem SMap.get_nil (k : Nat) : SMap.get ([] : SMap β) k = default := rfl

omit [DecidableEq β] in
theorem SMap.get_cons (m : SMap β) (k k' : Nat) (v : β) :
    SMap.get ((k', v) :: m) k = if k = k' then v else m.get k := rfl

omit [DecidableEq β] in
theorem SMap.get_erase (m : SMap β) (k k' : Nat) : (m.erase k).get k' = if k' = k then default else m.get k' := by
  induction m with
  | nil => simp [SMap.erase]
  | cons x t ih =>
    obtain ⟨a, v⟩ := x
    have e : SMap.erase ((a, v) :: t) k = if a = k then SMap.erase t k else (a, v) :: SMap.erase t k := by
      by_cases h : a = k <;> simp [SMap.erase, h]
    rw [e]
    by_cases h : a = k
    · subst h; rw [if_pos rfl, ih, SMap.get_cons]
      by_cases h1 : k' = a <;> simp [h1]
    · rw [if_neg h, SMap.get_cons, ih, SMap.get_cons]
      by_cases h1 : k' = a <;> by_cases h2 : k' = k <;> simp_all

/-- A read after a write: the value written at its key, every other key as before. It holds of every map. -/
theorem SMap.get_set (m : SMap β) (k k' : Nat) (v : β) : (m.set k v).get k' = if k' = k then v else m.get k' := by
  induction m with
  | nil =>
    by_cases h : v = default <;> by_cases h1 : k' = k <;> simp [SMap.set, SMap.get_cons, h, h1]
  | cons x t ih =>
    obtain ⟨a, w⟩ := x
    simp only [SMap.set]
    split
    · split
      · rename_i h; rw [SMap.get_erase]; simp [h]
      · simp only [SMap.get_cons]
    · split
      · rename_i h; subst h
        split
        · rename_i h; rw [SMap.get_erase, SMap.get_cons]; by_cases h1 : k' = k <;> simp [h, h1]
        · simp only [SMap.get_cons]; by_cases h1 : k' = k <;> simp [h1]
      · simp only [SMap.get_cons, ih]
        by_cases h1 : k' = a <;> by_cases h2 : k' = k <;> simp_all

@[simp] theorem SMap.get_set_self (m : SMap β) (k : Nat) (v : β) : (m.set k v).get k = v := by simp [SMap.get_set]

theorem SMap.get_set_ne (m : SMap β) {k k' : Nat} (v : β) (h : k' ≠ k) : (m.set k v).get k' = m.get k' := by
  simp [SMap.get_set, h]

theorem SMap.wfFrom_mono {lo lo' : Nat} {m : SMap β} (h : lo' ≤ lo) (w : SMap.wfFrom lo m = true) :
    SMap.wfFrom lo' m = true := by
  cases m with
  | nil => rfl
  | cons x t =>
    obtain ⟨a, v⟩ := x
    simp only [SMap.wfFrom, Bool.and_eq_true, decide_eq_true_eq] at w ⊢
    exact ⟨⟨by omega, w.1.2⟩, w.2⟩

theorem SMap.wfFrom_erase (m : SMap β) (k lo : Nat) (w : SMap.wfFrom lo m = true) :
    SMap.wfFrom lo (m.erase k) = true := by
  induction m generalizing lo with
  | nil => rfl
  | cons x t ih =>
    obtain ⟨a, v⟩ := x
    simp only [SMap.wfFrom, Bool.and_eq_true, decide_eq_true_eq] at w
    by_cases h : a = k
    · have e : SMap.erase ((a, v) :: t) k = SMap.erase t k := by simp [SMap.erase, h]
      rw [e]; exact SMap.wfFrom_mono (by omega) (ih _ w.2)
    · have e : SMap.erase ((a, v) :: t) k = (a, v) :: SMap.erase t k := by simp [SMap.erase, h]
      rw [e]; simp only [SMap.wfFrom, Bool.and_eq_true, decide_eq_true_eq]
      exact ⟨w.1, ih _ w.2⟩

theorem SMap.wfFrom_set (m : SMap β) (k lo : Nat) (v : β) (hk : lo ≤ k) (w : SMap.wfFrom lo m = true) :
    SMap.wfFrom lo (m.set k v) = true := by
  induction m generalizing lo with
  | nil =>
    simp only [SMap.set]
    split
    · rfl
    · simp [SMap.wfFrom, *]
  | cons x t ih =>
    obtain ⟨a, u⟩ := x
    have w0 := w
    simp only [SMap.wfFrom, Bool.and_eq_true, decide_eq_true_eq] at w
    simp only [SMap.set]
    split
    · split
      · exact SMap.wfFrom_erase _ _ _ w0
      · simp only [SMap.wfFrom, Bool.and_eq_true, decide_eq_true_eq]
        exact ⟨⟨hk, by assumption⟩, ⟨by omega, w.1.2⟩, w.2⟩
    · split
      · split
        · exact SMap.wfFrom_mono (by omega) (SMap.wfFrom_erase _ _ _ w.2)
        · simp only [SMap.wfFrom, Bool.and_eq_true, decide_eq_true_eq]
          rename_i h _; subst h
          exact ⟨⟨hk, by assumption⟩, w.2⟩
      · simp only [SMap.wfFrom, Bool.and_eq_true, decide_eq_true_eq]
        exact ⟨w.1, ih _ (by omega) w.2⟩

/-- A write keeps the canonical form. -/
theorem SMap.wf_set (m : SMap β) (k : Nat) (v : β) (w : m.wf = true) : (m.set k v).wf = true :=
  SMap.wfFrom_set m k 0 v (Nat.zero_le _) w

/-- A run of writes keeps the canonical form. -/
theorem SMap.wf_foldl_set {α : Type} (l : List α) (f : α → Nat) (g : α → β) (m : SMap β) (w : m.wf = true) :
    (l.foldl (fun acc x => acc.set (f x) (g x)) m).wf = true := by
  induction l generalizing m with
  | nil => exact w
  | cons x t ih => exact ih _ (SMap.wf_set _ _ _ w)

/-- A run of writes leaves the keys that none of them names. -/
theorem SMap.get_foldl_set_ne {α : Type} (l : List α) (f : α → Nat) (g : α → β) (m : SMap β) (k : Nat)
    (h : ∀ x ∈ l, f x ≠ k) : (l.foldl (fun acc x => acc.set (f x) (g x)) m).get k = m.get k := by
  induction l generalizing m with
  | nil => rfl
  | cons x t ih =>
    rw [List.foldl_cons, ih _ fun y hy => h y (List.mem_cons_of_mem _ hy)]
    exact SMap.get_set_ne _ _ fun e => h x List.mem_cons_self e.symm

/-- A run of writes that all give one key the same value leaves it there, if one of them names it. -/
theorem SMap.get_foldl_set_eq {α : Type} (l : List α) (f : α → Nat) (g : α → β) (m : SMap β) (k : Nat) (v : β)
    (h : ∀ x ∈ l, f x = k → g x = v) (e : ∃ x ∈ l, f x = k) :
    (l.foldl (fun acc x => acc.set (f x) (g x)) m).get k = v := by
  induction l generalizing m with
  | nil => obtain ⟨x, hx, _⟩ := e; cases hx
  | cons x t ih =>
    rw [List.foldl_cons]
    by_cases he : ∃ y ∈ t, f y = k
    · exact ih _ (fun y hy => h y (List.mem_cons_of_mem _ hy)) he
    · obtain ⟨y, hy, hk⟩ := e
      rw [SMap.get_foldl_set_ne t f g _ k fun z hz hzk => he ⟨z, hz, hzk⟩]
      rcases List.mem_cons.1 hy with rfl | hm
      · rw [← hk, SMap.get_set_self]; exact h _ List.mem_cons_self hk
      · exact absurd ⟨_, hm, hk⟩ he

end Sys2Proof
end

