-- ==== Sys2Proof/Laws/State.lean ====
section
/-! SUPPORT. One lemma per field for each update of a record: of the state, of a warp's registers, of a warp. -/

namespace Sys2Proof.Machine

/-! ### Updates of the state -/

@[simp] theorem State.setWarp_time (s : State) (k : Nat) (w : Warp) : (s.setWarp k w).time = s.time := rfl
@[simp] theorem State.setWarp_tfrac (s : State) (k : Nat) (w : Warp) : (s.setWarp k w).tfrac = s.tfrac := rfl
@[simp] theorem State.setWarp_cycles (s : State) (k : Nat) (w : Warp) : (s.setWarp k w).cycles = s.cycles := rfl
@[simp] theorem State.setWarp_freq (s : State) (k : Nat) (w : Warp) : (s.setWarp k w).freq = s.freq := rfl
@[simp] theorem State.setWarp_halted (s : State) (k : Nat) (w : Warp) : (s.setWarp k w).halted = s.halted := rfl
@[simp] theorem State.setWarp_phase (s : State) (k : Nat) (w : Warp) : (s.setWarp k w).phase = s.phase := rfl
@[simp] theorem State.setWarp_fuses (s : State) (k : Nat) (w : Warp) : (s.setWarp k w).fuses = s.fuses := rfl
@[simp] theorem State.setWarp_slots (s : State) (k : Nat) (w : Warp) : (s.setWarp k w).slots = s.slots := rfl
@[simp] theorem State.setWarp_runSlot (s : State) (k : Nat) (w : Warp) : (s.setWarp k w).runSlot = s.runSlot := rfl
@[simp] theorem State.setWarp_leaf (s : State) (k : Nat) (w : Warp) : (s.setWarp k w).leaf = s.leaf := rfl
@[simp] theorem State.setWarp_featAccept (s : State) (k : Nat) (w : Warp) : (s.setWarp k w).featAccept = s.featAccept := rfl
@[simp] theorem State.setWarp_featLock (s : State) (k : Nat) (w : Warp) : (s.setWarp k w).featLock = s.featLock := rfl
@[simp] theorem State.setWarp_backoffMin (s : State) (k : Nat) (w : Warp) : (s.setWarp k w).backoffMin = s.backoffMin := rfl
@[simp] theorem State.setWarp_backoffMax (s : State) (k : Nat) (w : Warp) : (s.setWarp k w).backoffMax = s.backoffMax := rfl
@[simp] theorem State.setWarp_saves (s : State) (k : Nat) (w : Warp) : (s.setWarp k w).saves = s.saves := rfl
@[simp] theorem State.setWarp_hbm (s : State) (k : Nat) (w : Warp) : (s.setWarp k w).hbm = s.hbm := rfl
@[simp] theorem State.setWarp_past (s : State) (k : Nat) (w : Warp) : (s.setWarp k w).past = s.past := rfl
@[simp] theorem State.setWarp_poison (s : State) (k : Nat) (w : Warp) : (s.setWarp k w).poison = s.poison := rfl
@[simp] theorem State.setWarp_moving (s : State) (k : Nat) (w : Warp) : (s.setWarp k w).moving = s.moving := rfl
@[simp] theorem State.setWarp_l1 (s : State) (k : Nat) (w : Warp) : (s.setWarp k w).l1 = s.l1 := rfl
@[simp] theorem State.setWarp_l1bad (s : State) (k : Nat) (w : Warp) : (s.setWarp k w).l1bad = s.l1bad := rfl
@[simp] theorem State.setWarp_tlb (s : State) (k : Nat) (w : Warp) : (s.setWarp k w).tlb = s.tlb := rfl
@[simp] theorem State.setWarp_ctxs (s : State) (k : Nat) (w : Warp) : (s.setWarp k w).ctxs = s.ctxs := rfl
@[simp] theorem State.setWarp_qps (s : State) (k : Nat) (w : Warp) : (s.setWarp k w).qps = s.qps := rfl
@[simp] theorem State.setWarp_mgmtErr (s : State) (k : Nat) (w : Warp) : (s.setWarp k w).mgmtErr = s.mgmtErr := rfl
@[simp] theorem State.setWarp_lateErrata (s : State) (k : Nat) (w : Warp) : (s.setWarp k w).lateErrata = s.lateErrata := rfl
@[simp] theorem State.setWarp_replies (s : State) (k : Nat) (w : Warp) : (s.setWarp k w).replies = s.replies := rfl
@[simp] theorem State.setWarp_rdmaHeld (s : State) (k : Nat) (w : Warp) : (s.setWarp k w).rdmaHeld = s.rdmaHeld := rfl
@[simp] theorem State.setWarp_dropped (s : State) (k : Nat) (w : Warp) : (s.setWarp k w).dropped = s.dropped := rfl
@[simp] theorem State.setWarp_cnp (s : State) (k : Nat) (w : Warp) : (s.setWarp k w).cnp = s.cnp := rfl
@[simp] theorem State.setWarp_queues (s : State) (k : Nat) (w : Warp) : (s.setWarp k w).queues = s.queues := rfl
@[simp] theorem State.setWarp_rcbs (s : State) (k : Nat) (w : Warp) : (s.setWarp k w).rcbs = s.rcbs := rfl
@[simp] theorem State.setWarp_works (s : State) (k : Nat) (w : Warp) : (s.setWarp k w).works = s.works := rfl
@[simp] theorem State.setWarp_gangs (s : State) (k : Nat) (w : Warp) : (s.setWarp k w).gangs = s.gangs := rfl
@[simp] theorem State.setWarp_cmds (s : State) (k : Nat) (w : Warp) : (s.setWarp k w).cmds = s.cmds := rfl
@[simp] theorem State.setWarp_impChans (s : State) (k : Nat) (w : Warp) : (s.setWarp k w).impChans = s.impChans := rfl
@[simp] theorem State.setWarp_posts (s : State) (k : Nat) (w : Warp) : (s.setWarp k w).posts = s.posts := rfl
@[simp] theorem State.setWarp_chans (s : State) (k : Nat) (w : Warp) : (s.setWarp k w).chans = s.chans := rfl
@[simp] theorem State.setWarp_skip (s : State) (k : Nat) (w : Warp) : (s.setWarp k w).skip = s.skip := rfl
@[simp] theorem State.setWarp_rrSlot (s : State) (k : Nat) (w : Warp) : (s.setWarp k w).rrSlot = s.rrSlot := rfl
@[simp] theorem State.setWarp_platRR (s : State) (k : Nat) (w : Warp) : (s.setWarp k w).platRR = s.platRR := rfl
@[simp] theorem State.setWarp_feedRR (s : State) (k : Nat) (w : Warp) : (s.setWarp k w).feedRR = s.feedRR := rfl
@[simp] theorem State.setWarp_compRR (s : State) (k : Nat) (w : Warp) : (s.setWarp k w).compRR = s.compRR := rfl
@[simp] theorem State.setWarp_cpRR (s : State) (k : Nat) (w : Warp) : (s.setWarp k w).cpRR = s.cpRR := rfl
@[simp] theorem State.setWarp_recNo (s : State) (k : Nat) (w : Warp) : (s.setWarp k w).recNo = s.recNo := rfl
@[simp] theorem State.setWarp_agenda (s : State) (k : Nat) (w : Warp) : (s.setWarp k w).agenda = s.agenda := rfl
@[simp] theorem State.setWarp_env (s : State) (k : Nat) (w : Warp) : (s.setWarp k w).env = s.env := rfl
@[simp] theorem State.setWarp_elapse (s : State) (k : Nat) (w : Warp) : (s.setWarp k w).elapse = s.elapse := rfl
@[simp] theorem State.setWarp_opSeq (s : State) (k : Nat) (w : Warp) : (s.setWarp k w).opSeq = s.opSeq := rfl
@[simp] theorem State.setWarp_nextQuad (s : State) (k : Nat) (w : Warp) : (s.setWarp k w).nextQuad = s.nextQuad := rfl
@[simp] theorem State.setWarp_issue (s : State) (k : Nat) (w : Warp) : (s.setWarp k w).issue = s.issue := rfl

@[simp] theorem State.dropWarp_time (s : State) (k : Nat) : (s.dropWarp k).time = s.time := rfl
@[simp] theorem State.dropWarp_tfrac (s : State) (k : Nat) : (s.dropWarp k).tfrac = s.tfrac := rfl
@[simp] theorem State.dropWarp_cycles (s : State) (k : Nat) : (s.dropWarp k).cycles = s.cycles := rfl
@[simp] theorem State.dropWarp_freq (s : State) (k : Nat) : (s.dropWarp k).freq = s.freq := rfl
@[simp] theorem State.dropWarp_halted (s : State) (k : Nat) : (s.dropWarp k).halted = s.halted := rfl
@[simp] theorem State.dropWarp_phase (s : State) (k : Nat) : (s.dropWarp k).phase = s.phase := rfl
@[simp] theorem State.dropWarp_fuses (s : State) (k : Nat) : (s.dropWarp k).fuses = s.fuses := rfl
@[simp] theorem State.dropWarp_slots (s : State) (k : Nat) : (s.dropWarp k).slots = s.slots := rfl
@[simp] theorem State.dropWarp_runSlot (s : State) (k : Nat) : (s.dropWarp k).runSlot = s.runSlot := rfl
@[simp] theorem State.dropWarp_leaf (s : State) (k : Nat) : (s.dropWarp k).leaf = s.leaf := rfl
@[simp] theorem State.dropWarp_featAccept (s : State) (k : Nat) : (s.dropWarp k).featAccept = s.featAccept := rfl
@[simp] theorem State.dropWarp_featLock (s : State) (k : Nat) : (s.dropWarp k).featLock = s.featLock := rfl
@[simp] theorem State.dropWarp_backoffMin (s : State) (k : Nat) : (s.dropWarp k).backoffMin = s.backoffMin := rfl
@[simp] theorem State.dropWarp_backoffMax (s : State) (k : Nat) : (s.dropWarp k).backoffMax = s.backoffMax := rfl
@[simp] theorem State.dropWarp_saves (s : State) (k : Nat) : (s.dropWarp k).saves = s.saves := rfl
@[simp] theorem State.dropWarp_hbm (s : State) (k : Nat) : (s.dropWarp k).hbm = s.hbm := rfl
@[simp] theorem State.dropWarp_past (s : State) (k : Nat) : (s.dropWarp k).past = s.past := rfl
@[simp] theorem State.dropWarp_poison (s : State) (k : Nat) : (s.dropWarp k).poison = s.poison := rfl
@[simp] theorem State.dropWarp_moving (s : State) (k : Nat) : (s.dropWarp k).moving = s.moving := rfl
@[simp] theorem State.dropWarp_l1 (s : State) (k : Nat) : (s.dropWarp k).l1 = s.l1 := rfl
@[simp] theorem State.dropWarp_l1bad (s : State) (k : Nat) : (s.dropWarp k).l1bad = s.l1bad := rfl
@[simp] theorem State.dropWarp_tlb (s : State) (k : Nat) : (s.dropWarp k).tlb = s.tlb := rfl
@[simp] theorem State.dropWarp_ctxs (s : State) (k : Nat) : (s.dropWarp k).ctxs = s.ctxs := rfl
@[simp] theorem State.dropWarp_qps (s : State) (k : Nat) : (s.dropWarp k).qps = s.qps := rfl
@[simp] theorem State.dropWarp_mgmtErr (s : State) (k : Nat) : (s.dropWarp k).mgmtErr = s.mgmtErr := rfl
@[simp] theorem State.dropWarp_lateErrata (s : State) (k : Nat) : (s.dropWarp k).lateErrata = s.lateErrata := rfl
@[simp] theorem State.dropWarp_replies (s : State) (k : Nat) : (s.dropWarp k).replies = s.replies := rfl
@[simp] theorem State.dropWarp_rdmaHeld (s : State) (k : Nat) : (s.dropWarp k).rdmaHeld = s.rdmaHeld := rfl
@[simp] theorem State.dropWarp_dropped (s : State) (k : Nat) : (s.dropWarp k).dropped = s.dropped := rfl
@[simp] theorem State.dropWarp_cnp (s : State) (k : Nat) : (s.dropWarp k).cnp = s.cnp := rfl
@[simp] theorem State.dropWarp_queues (s : State) (k : Nat) : (s.dropWarp k).queues = s.queues := rfl
@[simp] theorem State.dropWarp_rcbs (s : State) (k : Nat) : (s.dropWarp k).rcbs = s.rcbs := rfl
@[simp] theorem State.dropWarp_works (s : State) (k : Nat) : (s.dropWarp k).works = s.works := rfl
@[simp] theorem State.dropWarp_gangs (s : State) (k : Nat) : (s.dropWarp k).gangs = s.gangs := rfl
@[simp] theorem State.dropWarp_cmds (s : State) (k : Nat) : (s.dropWarp k).cmds = s.cmds := rfl
@[simp] theorem State.dropWarp_impChans (s : State) (k : Nat) : (s.dropWarp k).impChans = s.impChans := rfl
@[simp] theorem State.dropWarp_posts (s : State) (k : Nat) : (s.dropWarp k).posts = s.posts := rfl
@[simp] theorem State.dropWarp_chans (s : State) (k : Nat) : (s.dropWarp k).chans = s.chans := rfl
@[simp] theorem State.dropWarp_skip (s : State) (k : Nat) : (s.dropWarp k).skip = s.skip := rfl
@[simp] theorem State.dropWarp_rrSlot (s : State) (k : Nat) : (s.dropWarp k).rrSlot = s.rrSlot := rfl
@[simp] theorem State.dropWarp_platRR (s : State) (k : Nat) : (s.dropWarp k).platRR = s.platRR := rfl
@[simp] theorem State.dropWarp_feedRR (s : State) (k : Nat) : (s.dropWarp k).feedRR = s.feedRR := rfl
@[simp] theorem State.dropWarp_compRR (s : State) (k : Nat) : (s.dropWarp k).compRR = s.compRR := rfl
@[simp] theorem State.dropWarp_cpRR (s : State) (k : Nat) : (s.dropWarp k).cpRR = s.cpRR := rfl
@[simp] theorem State.dropWarp_recNo (s : State) (k : Nat) : (s.dropWarp k).recNo = s.recNo := rfl
@[simp] theorem State.dropWarp_agenda (s : State) (k : Nat) : (s.dropWarp k).agenda = s.agenda := rfl
@[simp] theorem State.dropWarp_env (s : State) (k : Nat) : (s.dropWarp k).env = s.env := rfl
@[simp] theorem State.dropWarp_elapse (s : State) (k : Nat) : (s.dropWarp k).elapse = s.elapse := rfl
@[simp] theorem State.dropWarp_opSeq (s : State) (k : Nat) : (s.dropWarp k).opSeq = s.opSeq := rfl
@[simp] theorem State.dropWarp_nextQuad (s : State) (k : Nat) : (s.dropWarp k).nextQuad = s.nextQuad := rfl
@[simp] theorem State.dropWarp_issue (s : State) (k : Nat) : (s.dropWarp k).issue = s.issue := rfl

@[simp] theorem State.modGang_time (s : State) (k : Nat) (f : Gang → Gang) : (s.modGang k f).time = s.time := rfl
@[simp] theorem State.modGang_tfrac (s : State) (k : Nat) (f : Gang → Gang) : (s.modGang k f).tfrac = s.tfrac := rfl
@[simp] theorem State.modGang_cycles (s : State) (k : Nat) (f : Gang → Gang) : (s.modGang k f).cycles = s.cycles := rfl
@[simp] theorem State.modGang_freq (s : State) (k : Nat) (f : Gang → Gang) : (s.modGang k f).freq = s.freq := rfl
@[simp] theorem State.modGang_halted (s : State) (k : Nat) (f : Gang → Gang) : (s.modGang k f).halted = s.halted := rfl
@[simp] theorem State.modGang_phase (s : State) (k : Nat) (f : Gang → Gang) : (s.modGang k f).phase = s.phase := rfl
@[simp] theorem State.modGang_fuses (s : State) (k : Nat) (f : Gang → Gang) : (s.modGang k f).fuses = s.fuses := rfl
@[simp] theorem State.modGang_slots (s : State) (k : Nat) (f : Gang → Gang) : (s.modGang k f).slots = s.slots := rfl
@[simp] theorem State.modGang_runSlot (s : State) (k : Nat) (f : Gang → Gang) : (s.modGang k f).runSlot = s.runSlot := rfl
@[simp] theorem State.modGang_leaf (s : State) (k : Nat) (f : Gang → Gang) : (s.modGang k f).leaf = s.leaf := rfl
@[simp] theorem State.modGang_featAccept (s : State) (k : Nat) (f : Gang → Gang) : (s.modGang k f).featAccept = s.featAccept := rfl
@[simp] theorem State.modGang_featLock (s : State) (k : Nat) (f : Gang → Gang) : (s.modGang k f).featLock = s.featLock := rfl
@[simp] theorem State.modGang_backoffMin (s : State) (k : Nat) (f : Gang → Gang) : (s.modGang k f).backoffMin = s.backoffMin := rfl
@[simp] theorem State.modGang_backoffMax (s : State) (k : Nat) (f : Gang → Gang) : (s.modGang k f).backoffMax = s.backoffMax := rfl
@[simp] theorem State.modGang_saves (s : State) (k : Nat) (f : Gang → Gang) : (s.modGang k f).saves = s.saves := rfl
@[simp] theorem State.modGang_hbm (s : State) (k : Nat) (f : Gang → Gang) : (s.modGang k f).hbm = s.hbm := rfl
@[simp] theorem State.modGang_past (s : State) (k : Nat) (f : Gang → Gang) : (s.modGang k f).past = s.past := rfl
@[simp] theorem State.modGang_poison (s : State) (k : Nat) (f : Gang → Gang) : (s.modGang k f).poison = s.poison := rfl
@[simp] theorem State.modGang_moving (s : State) (k : Nat) (f : Gang → Gang) : (s.modGang k f).moving = s.moving := rfl
@[simp] theorem State.modGang_l1 (s : State) (k : Nat) (f : Gang → Gang) : (s.modGang k f).l1 = s.l1 := rfl
@[simp] theorem State.modGang_l1bad (s : State) (k : Nat) (f : Gang → Gang) : (s.modGang k f).l1bad = s.l1bad := rfl
@[simp] theorem State.modGang_tlb (s : State) (k : Nat) (f : Gang → Gang) : (s.modGang k f).tlb = s.tlb := rfl
@[simp] theorem State.modGang_ctxs (s : State) (k : Nat) (f : Gang → Gang) : (s.modGang k f).ctxs = s.ctxs := rfl
@[simp] theorem State.modGang_qps (s : State) (k : Nat) (f : Gang → Gang) : (s.modGang k f).qps = s.qps := rfl
@[simp] theorem State.modGang_mgmtErr (s : State) (k : Nat) (f : Gang → Gang) : (s.modGang k f).mgmtErr = s.mgmtErr := rfl
@[simp] theorem State.modGang_lateErrata (s : State) (k : Nat) (f : Gang → Gang) : (s.modGang k f).lateErrata = s.lateErrata := rfl
@[simp] theorem State.modGang_replies (s : State) (k : Nat) (f : Gang → Gang) : (s.modGang k f).replies = s.replies := rfl
@[simp] theorem State.modGang_rdmaHeld (s : State) (k : Nat) (f : Gang → Gang) : (s.modGang k f).rdmaHeld = s.rdmaHeld := rfl
@[simp] theorem State.modGang_dropped (s : State) (k : Nat) (f : Gang → Gang) : (s.modGang k f).dropped = s.dropped := rfl
@[simp] theorem State.modGang_cnp (s : State) (k : Nat) (f : Gang → Gang) : (s.modGang k f).cnp = s.cnp := rfl
@[simp] theorem State.modGang_queues (s : State) (k : Nat) (f : Gang → Gang) : (s.modGang k f).queues = s.queues := rfl
@[simp] theorem State.modGang_rcbs (s : State) (k : Nat) (f : Gang → Gang) : (s.modGang k f).rcbs = s.rcbs := rfl
@[simp] theorem State.modGang_works (s : State) (k : Nat) (f : Gang → Gang) : (s.modGang k f).works = s.works := rfl
@[simp] theorem State.modGang_warps (s : State) (k : Nat) (f : Gang → Gang) : (s.modGang k f).warps = s.warps := rfl
@[simp] theorem State.modGang_cmds (s : State) (k : Nat) (f : Gang → Gang) : (s.modGang k f).cmds = s.cmds := rfl
@[simp] theorem State.modGang_impChans (s : State) (k : Nat) (f : Gang → Gang) : (s.modGang k f).impChans = s.impChans := rfl
@[simp] theorem State.modGang_posts (s : State) (k : Nat) (f : Gang → Gang) : (s.modGang k f).posts = s.posts := rfl
@[simp] theorem State.modGang_chans (s : State) (k : Nat) (f : Gang → Gang) : (s.modGang k f).chans = s.chans := rfl
@[simp] theorem State.modGang_skip (s : State) (k : Nat) (f : Gang → Gang) : (s.modGang k f).skip = s.skip := rfl
@[simp] theorem State.modGang_rrSlot (s : State) (k : Nat) (f : Gang → Gang) : (s.modGang k f).rrSlot = s.rrSlot := rfl
@[simp] theorem State.modGang_platRR (s : State) (k : Nat) (f : Gang → Gang) : (s.modGang k f).platRR = s.platRR := rfl
@[simp] theorem State.modGang_feedRR (s : State) (k : Nat) (f : Gang → Gang) : (s.modGang k f).feedRR = s.feedRR := rfl
@[simp] theorem State.modGang_compRR (s : State) (k : Nat) (f : Gang → Gang) : (s.modGang k f).compRR = s.compRR := rfl
@[simp] theorem State.modGang_cpRR (s : State) (k : Nat) (f : Gang → Gang) : (s.modGang k f).cpRR = s.cpRR := rfl
@[simp] theorem State.modGang_recNo (s : State) (k : Nat) (f : Gang → Gang) : (s.modGang k f).recNo = s.recNo := rfl
@[simp] theorem State.modGang_agenda (s : State) (k : Nat) (f : Gang → Gang) : (s.modGang k f).agenda = s.agenda := rfl
@[simp] theorem State.modGang_env (s : State) (k : Nat) (f : Gang → Gang) : (s.modGang k f).env = s.env := rfl
@[simp] theorem State.modGang_elapse (s : State) (k : Nat) (f : Gang → Gang) : (s.modGang k f).elapse = s.elapse := rfl
@[simp] theorem State.modGang_opSeq (s : State) (k : Nat) (f : Gang → Gang) : (s.modGang k f).opSeq = s.opSeq := rfl
@[simp] theorem State.modGang_nextQuad (s : State) (k : Nat) (f : Gang → Gang) : (s.modGang k f).nextQuad = s.nextQuad := rfl
@[simp] theorem State.modGang_issue (s : State) (k : Nat) (f : Gang → Gang) : (s.modGang k f).issue = s.issue := rfl

theorem State.modWarp_some {s : State} {k : Nat} {w : Warp} (f : Warp → Warp) (h : s.warp k = some w) :
    s.modWarp k f = s.setWarp k (f w) := by simp [State.modWarp, h]
theorem State.modWarp_none {s : State} {k : Nat} (f : Warp → Warp) (h : s.warp k = none) : s.modWarp k f = s := by
  simp [State.modWarp, h]

@[simp] theorem State.modWarp_time (s : State) (k : Nat) (f : Warp → Warp) : (s.modWarp k f).time = s.time := by
  simp only [State.modWarp]; split <;> rfl
@[simp] theorem State.modWarp_tfrac (s : State) (k : Nat) (f : Warp → Warp) : (s.modWarp k f).tfrac = s.tfrac := by
  simp only [State.modWarp]; split <;> rfl
@[simp] theorem State.modWarp_cycles (s : State) (k : Nat) (f : Warp → Warp) : (s.modWarp k f).cycles = s.cycles := by
  simp only [State.modWarp]; split <;> rfl
@[simp] theorem State.modWarp_freq (s : State) (k : Nat) (f : Warp → Warp) : (s.modWarp k f).freq = s.freq := by
  simp only [State.modWarp]; split <;> rfl
@[simp] theorem State.modWarp_halted (s : State) (k : Nat) (f : Warp → Warp) : (s.modWarp k f).halted = s.halted := by
  simp only [State.modWarp]; split <;> rfl
@[simp] theorem State.modWarp_phase (s : State) (k : Nat) (f : Warp → Warp) : (s.modWarp k f).phase = s.phase := by
  simp only [State.modWarp]; split <;> rfl
@[simp] theorem State.modWarp_fuses (s : State) (k : Nat) (f : Warp → Warp) : (s.modWarp k f).fuses = s.fuses := by
  simp only [State.modWarp]; split <;> rfl
@[simp] theorem State.modWarp_slots (s : State) (k : Nat) (f : Warp → Warp) : (s.modWarp k f).slots = s.slots := by
  simp only [State.modWarp]; split <;> rfl
@[simp] theorem State.modWarp_runSlot (s : State) (k : Nat) (f : Warp → Warp) : (s.modWarp k f).runSlot = s.runSlot := by
  simp only [State.modWarp]; split <;> rfl
@[simp] theorem State.modWarp_leaf (s : State) (k : Nat) (f : Warp → Warp) : (s.modWarp k f).leaf = s.leaf := by
  simp only [State.modWarp]; split <;> rfl
@[simp] theorem State.modWarp_featAccept (s : State) (k : Nat) (f : Warp → Warp) : (s.modWarp k f).featAccept = s.featAccept := by
  simp only [State.modWarp]; split <;> rfl
@[simp] theorem State.modWarp_featLock (s : State) (k : Nat) (f : Warp → Warp) : (s.modWarp k f).featLock = s.featLock := by
  simp only [State.modWarp]; split <;> rfl
@[simp] theorem State.modWarp_backoffMin (s : State) (k : Nat) (f : Warp → Warp) : (s.modWarp k f).backoffMin = s.backoffMin := by
  simp only [State.modWarp]; split <;> rfl
@[simp] theorem State.modWarp_backoffMax (s : State) (k : Nat) (f : Warp → Warp) : (s.modWarp k f).backoffMax = s.backoffMax := by
  simp only [State.modWarp]; split <;> rfl
@[simp] theorem State.modWarp_saves (s : State) (k : Nat) (f : Warp → Warp) : (s.modWarp k f).saves = s.saves := by
  simp only [State.modWarp]; split <;> rfl
@[simp] theorem State.modWarp_hbm (s : State) (k : Nat) (f : Warp → Warp) : (s.modWarp k f).hbm = s.hbm := by
  simp only [State.modWarp]; split <;> rfl
@[simp] theorem State.modWarp_past (s : State) (k : Nat) (f : Warp → Warp) : (s.modWarp k f).past = s.past := by
  simp only [State.modWarp]; split <;> rfl
@[simp] theorem State.modWarp_poison (s : State) (k : Nat) (f : Warp → Warp) : (s.modWarp k f).poison = s.poison := by
  simp only [State.modWarp]; split <;> rfl
@[simp] theorem State.modWarp_moving (s : State) (k : Nat) (f : Warp → Warp) : (s.modWarp k f).moving = s.moving := by
  simp only [State.modWarp]; split <;> rfl
@[simp] theorem State.modWarp_l1 (s : State) (k : Nat) (f : Warp → Warp) : (s.modWarp k f).l1 = s.l1 := by
  simp only [State.modWarp]; split <;> rfl
@[simp] theorem State.modWarp_l1bad (s : State) (k : Nat) (f : Warp → Warp) : (s.modWarp k f).l1bad = s.l1bad := by
  simp only [State.modWarp]; split <;> rfl
@[simp] theorem State.modWarp_tlb (s : State) (k : Nat) (f : Warp → Warp) : (s.modWarp k f).tlb = s.tlb := by
  simp only [State.modWarp]; split <;> rfl
@[simp] theorem State.modWarp_ctxs (s : State) (k : Nat) (f : Warp → Warp) : (s.modWarp k f).ctxs = s.ctxs := by
  simp only [State.modWarp]; split <;> rfl
@[simp] theorem State.modWarp_qps (s : State) (k : Nat) (f : Warp → Warp) : (s.modWarp k f).qps = s.qps := by
  simp only [State.modWarp]; split <;> rfl
@[simp] theorem State.modWarp_mgmtErr (s : State) (k : Nat) (f : Warp → Warp) : (s.modWarp k f).mgmtErr = s.mgmtErr := by
  simp only [State.modWarp]; split <;> rfl
@[simp] theorem State.modWarp_lateErrata (s : State) (k : Nat) (f : Warp → Warp) : (s.modWarp k f).lateErrata = s.lateErrata := by
  simp only [State.modWarp]; split <;> rfl
@[simp] theorem State.modWarp_replies (s : State) (k : Nat) (f : Warp → Warp) : (s.modWarp k f).replies = s.replies := by
  simp only [State.modWarp]; split <;> rfl
@[simp] theorem State.modWarp_rdmaHeld (s : State) (k : Nat) (f : Warp → Warp) : (s.modWarp k f).rdmaHeld = s.rdmaHeld := by
  simp only [State.modWarp]; split <;> rfl
@[simp] theorem State.modWarp_dropped (s : State) (k : Nat) (f : Warp → Warp) : (s.modWarp k f).dropped = s.dropped := by
  simp only [State.modWarp]; split <;> rfl
@[simp] theorem State.modWarp_cnp (s : State) (k : Nat) (f : Warp → Warp) : (s.modWarp k f).cnp = s.cnp := by
  simp only [State.modWarp]; split <;> rfl
@[simp] theorem State.modWarp_queues (s : State) (k : Nat) (f : Warp → Warp) : (s.modWarp k f).queues = s.queues := by
  simp only [State.modWarp]; split <;> rfl
@[simp] theorem State.modWarp_rcbs (s : State) (k : Nat) (f : Warp → Warp) : (s.modWarp k f).rcbs = s.rcbs := by
  simp only [State.modWarp]; split <;> rfl
@[simp] theorem State.modWarp_works (s : State) (k : Nat) (f : Warp → Warp) : (s.modWarp k f).works = s.works := by
  simp only [State.modWarp]; split <;> rfl
@[simp] theorem State.modWarp_gangs (s : State) (k : Nat) (f : Warp → Warp) : (s.modWarp k f).gangs = s.gangs := by
  simp only [State.modWarp]; split <;> rfl
@[simp] theorem State.modWarp_cmds (s : State) (k : Nat) (f : Warp → Warp) : (s.modWarp k f).cmds = s.cmds := by
  simp only [State.modWarp]; split <;> rfl
@[simp] theorem State.modWarp_impChans (s : State) (k : Nat) (f : Warp → Warp) : (s.modWarp k f).impChans = s.impChans := by
  simp only [State.modWarp]; split <;> rfl
@[simp] theorem State.modWarp_posts (s : State) (k : Nat) (f : Warp → Warp) : (s.modWarp k f).posts = s.posts := by
  simp only [State.modWarp]; split <;> rfl
@[simp] theorem State.modWarp_chans (s : State) (k : Nat) (f : Warp → Warp) : (s.modWarp k f).chans = s.chans := by
  simp only [State.modWarp]; split <;> rfl
@[simp] theorem State.modWarp_skip (s : State) (k : Nat) (f : Warp → Warp) : (s.modWarp k f).skip = s.skip := by
  simp only [State.modWarp]; split <;> rfl
@[simp] theorem State.modWarp_rrSlot (s : State) (k : Nat) (f : Warp → Warp) : (s.modWarp k f).rrSlot = s.rrSlot := by
  simp only [State.modWarp]; split <;> rfl
@[simp] theorem State.modWarp_platRR (s : State) (k : Nat) (f : Warp → Warp) : (s.modWarp k f).platRR = s.platRR := by
  simp only [State.modWarp]; split <;> rfl
@[simp] theorem State.modWarp_feedRR (s : State) (k : Nat) (f : Warp → Warp) : (s.modWarp k f).feedRR = s.feedRR := by
  simp only [State.modWarp]; split <;> rfl
@[simp] theorem State.modWarp_compRR (s : State) (k : Nat) (f : Warp → Warp) : (s.modWarp k f).compRR = s.compRR := by
  simp only [State.modWarp]; split <;> rfl
@[simp] theorem State.modWarp_cpRR (s : State) (k : Nat) (f : Warp → Warp) : (s.modWarp k f).cpRR = s.cpRR := by
  simp only [State.modWarp]; split <;> rfl
@[simp] theorem State.modWarp_recNo (s : State) (k : Nat) (f : Warp → Warp) : (s.modWarp k f).recNo = s.recNo := by
  simp only [State.modWarp]; split <;> rfl
@[simp] theorem State.modWarp_agenda (s : State) (k : Nat) (f : Warp → Warp) : (s.modWarp k f).agenda = s.agenda := by
  simp only [State.modWarp]; split <;> rfl
@[simp] theorem State.modWarp_env (s : State) (k : Nat) (f : Warp → Warp) : (s.modWarp k f).env = s.env := by
  simp only [State.modWarp]; split <;> rfl
@[simp] theorem State.modWarp_elapse (s : State) (k : Nat) (f : Warp → Warp) : (s.modWarp k f).elapse = s.elapse := by
  simp only [State.modWarp]; split <;> rfl
@[simp] theorem State.modWarp_opSeq (s : State) (k : Nat) (f : Warp → Warp) : (s.modWarp k f).opSeq = s.opSeq := by
  simp only [State.modWarp]; split <;> rfl
@[simp] theorem State.modWarp_nextQuad (s : State) (k : Nat) (f : Warp → Warp) : (s.modWarp k f).nextQuad = s.nextQuad := by
  simp only [State.modWarp]; split <;> rfl
@[simp] theorem State.modWarp_issue (s : State) (k : Nat) (f : Warp → Warp) : (s.modWarp k f).issue = s.issue := by
  simp only [State.modWarp]; split <;> rfl

/-! ### Updates of a warp's registers -/

@[simp] theorem Regs.vset_s (r : Regs) (k l : Nat) (x : Word) : (r.vset k l x).s = r.s := rfl
@[simp] theorem Regs.vset_p (r : Regs) (k l : Nat) (x : Word) : (r.vset k l x).p = r.p := rfl
@[simp] theorem Regs.vset_j (r : Regs) (k l : Nat) (x : Word) : (r.vset k l x).j = r.j := rfl
@[simp] theorem Regs.vset_latch (r : Regs) (k l : Nat) (x : Word) : (r.vset k l x).latch = r.latch := rfl
@[simp] theorem Regs.vset_lvalid (r : Regs) (k l : Nat) (x : Word) : (r.vset k l x).lvalid = r.lvalid := rfl
@[simp] theorem Regs.vset_lmask (r : Regs) (k l : Nat) (x : Word) : (r.vset k l x).lmask = r.lmask := rfl
@[simp] theorem Regs.vset_pc (r : Regs) (k l : Nat) (x : Word) : (r.vset k l x).pc = r.pc := rfl
@[simp] theorem Regs.vset_live (r : Regs) (k l : Nat) (x : Word) : (r.vset k l x).live = r.live := rfl
@[simp] theorem Regs.vset_ages (r : Regs) (k l : Nat) (x : Word) : (r.vset k l x).ages = r.ages := rfl
@[simp] theorem Regs.vset_gseq (r : Regs) (k l : Nat) (x : Word) : (r.vset k l x).gseq = r.gseq := rfl
@[simp] theorem Regs.vset_badL (r : Regs) (k l : Nat) (x : Word) : (r.vset k l x).badL = r.badL := rfl
@[simp] theorem Regs.vset_bankconf (r : Regs) (k l : Nat) (x : Word) : (r.vset k l x).bankconf = r.bankconf := rfl
@[simp] theorem Regs.vset_fpflags (r : Regs) (k l : Nat) (x : Word) : (r.vset k l x).fpflags = r.fpflags := rfl
@[simp] theorem Regs.vset_vec (r : Regs) (k l : Nat) (x : Word) : (r.vset k l x).vec = r.vec := rfl
@[simp] theorem Regs.vset_tmask (r : Regs) (k l : Nat) (x : Word) : (r.vset k l x).tmask = r.tmask := rfl
@[simp] theorem Regs.vset_frame (r : Regs) (k l : Nat) (x : Word) : (r.vset k l x).frame = r.frame := rfl

@[simp] theorem Regs.sset_v (r : Regs) (k : Nat) (x : DWord) : (r.sset k x).v = r.v := rfl
@[simp] theorem Regs.sset_p (r : Regs) (k : Nat) (x : DWord) : (r.sset k x).p = r.p := rfl
@[simp] theorem Regs.sset_j (r : Regs) (k : Nat) (x : DWord) : (r.sset k x).j = r.j := rfl
@[simp] theorem Regs.sset_latch (r : Regs) (k : Nat) (x : DWord) : (r.sset k x).latch = r.latch := rfl
@[simp] theorem Regs.sset_lvalid (r : Regs) (k : Nat) (x : DWord) : (r.sset k x).lvalid = r.lvalid := rfl
@[simp] theorem Regs.sset_lmask (r : Regs) (k : Nat) (x : DWord) : (r.sset k x).lmask = r.lmask := rfl
@[simp] theorem Regs.sset_pc (r : Regs) (k : Nat) (x : DWord) : (r.sset k x).pc = r.pc := rfl
@[simp] theorem Regs.sset_live (r : Regs) (k : Nat) (x : DWord) : (r.sset k x).live = r.live := rfl
@[simp] theorem Regs.sset_ages (r : Regs) (k : Nat) (x : DWord) : (r.sset k x).ages = r.ages := rfl
@[simp] theorem Regs.sset_gseq (r : Regs) (k : Nat) (x : DWord) : (r.sset k x).gseq = r.gseq := rfl
@[simp] theorem Regs.sset_badL (r : Regs) (k : Nat) (x : DWord) : (r.sset k x).badL = r.badL := rfl
@[simp] theorem Regs.sset_bankconf (r : Regs) (k : Nat) (x : DWord) : (r.sset k x).bankconf = r.bankconf := rfl
@[simp] theorem Regs.sset_fpflags (r : Regs) (k : Nat) (x : DWord) : (r.sset k x).fpflags = r.fpflags := rfl
@[simp] theorem Regs.sset_vec (r : Regs) (k : Nat) (x : DWord) : (r.sset k x).vec = r.vec := rfl
@[simp] theorem Regs.sset_tmask (r : Regs) (k : Nat) (x : DWord) : (r.sset k x).tmask = r.tmask := rfl
@[simp] theorem Regs.sset_frame (r : Regs) (k : Nat) (x : DWord) : (r.sset k x).frame = r.frame := rfl

@[simp] theorem Regs.jset_v (r : Regs) (k : Nat) (x : JSet) : (r.jset k x).v = r.v := rfl
@[simp] theorem Regs.jset_s (r : Regs) (k : Nat) (x : JSet) : (r.jset k x).s = r.s := rfl
@[simp] theorem Regs.jset_p (r : Regs) (k : Nat) (x : JSet) : (r.jset k x).p = r.p := rfl
@[simp] theorem Regs.jset_latch (r : Regs) (k : Nat) (x : JSet) : (r.jset k x).latch = r.latch := rfl
@[simp] theorem Regs.jset_lvalid (r : Regs) (k : Nat) (x : JSet) : (r.jset k x).lvalid = r.lvalid := rfl
@[simp] theorem Regs.jset_lmask (r : Regs) (k : Nat) (x : JSet) : (r.jset k x).lmask = r.lmask := rfl
@[simp] theorem Regs.jset_pc (r : Regs) (k : Nat) (x : JSet) : (r.jset k x).pc = r.pc := rfl
@[simp] theorem Regs.jset_live (r : Regs) (k : Nat) (x : JSet) : (r.jset k x).live = r.live := rfl
@[simp] theorem Regs.jset_ages (r : Regs) (k : Nat) (x : JSet) : (r.jset k x).ages = r.ages := rfl
@[simp] theorem Regs.jset_gseq (r : Regs) (k : Nat) (x : JSet) : (r.jset k x).gseq = r.gseq := rfl
@[simp] theorem Regs.jset_badL (r : Regs) (k : Nat) (x : JSet) : (r.jset k x).badL = r.badL := rfl
@[simp] theorem Regs.jset_bankconf (r : Regs) (k : Nat) (x : JSet) : (r.jset k x).bankconf = r.bankconf := rfl
@[simp] theorem Regs.jset_fpflags (r : Regs) (k : Nat) (x : JSet) : (r.jset k x).fpflags = r.fpflags := rfl
@[simp] theorem Regs.jset_vec (r : Regs) (k : Nat) (x : JSet) : (r.jset k x).vec = r.vec := rfl
@[simp] theorem Regs.jset_tmask (r : Regs) (k : Nat) (x : JSet) : (r.jset k x).tmask = r.tmask := rfl
@[simp] theorem Regs.jset_frame (r : Regs) (k : Nat) (x : JSet) : (r.jset k x).frame = r.frame := rfl

@[simp] theorem Regs.setPc_v (r : Regs) (m : Mask) (a : DWord) : (r.setPc m a).v = r.v := rfl
@[simp] theorem Regs.setPc_s (r : Regs) (m : Mask) (a : DWord) : (r.setPc m a).s = r.s := rfl
@[simp] theorem Regs.setPc_p (r : Regs) (m : Mask) (a : DWord) : (r.setPc m a).p = r.p := rfl
@[simp] theorem Regs.setPc_j (r : Regs) (m : Mask) (a : DWord) : (r.setPc m a).j = r.j := rfl
@[simp] theorem Regs.setPc_latch (r : Regs) (m : Mask) (a : DWord) : (r.setPc m a).latch = r.latch := rfl
@[simp] theorem Regs.setPc_lvalid (r : Regs) (m : Mask) (a : DWord) : (r.setPc m a).lvalid = r.lvalid := rfl
@[simp] theorem Regs.setPc_lmask (r : Regs) (m : Mask) (a : DWord) : (r.setPc m a).lmask = r.lmask := rfl
@[simp] theorem Regs.setPc_live (r : Regs) (m : Mask) (a : DWord) : (r.setPc m a).live = r.live := rfl
@[simp] theorem Regs.setPc_ages (r : Regs) (m : Mask) (a : DWord) : (r.setPc m a).ages = r.ages := rfl
@[simp] theorem Regs.setPc_gseq (r : Regs) (m : Mask) (a : DWord) : (r.setPc m a).gseq = r.gseq := rfl
@[simp] theorem Regs.setPc_badL (r : Regs) (m : Mask) (a : DWord) : (r.setPc m a).badL = r.badL := rfl
@[simp] theorem Regs.setPc_bankconf (r : Regs) (m : Mask) (a : DWord) : (r.setPc m a).bankconf = r.bankconf := rfl
@[simp] theorem Regs.setPc_fpflags (r : Regs) (m : Mask) (a : DWord) : (r.setPc m a).fpflags = r.fpflags := rfl
@[simp] theorem Regs.setPc_vec (r : Regs) (m : Mask) (a : DWord) : (r.setPc m a).vec = r.vec := rfl
@[simp] theorem Regs.setPc_tmask (r : Regs) (m : Mask) (a : DWord) : (r.setPc m a).tmask = r.tmask := rfl
@[simp] theorem Regs.setPc_frame (r : Regs) (m : Mask) (a : DWord) : (r.setPc m a).frame = r.frame := rfl

@[simp] theorem Regs.writeV_s (r : Regs) (l : List (Nat × Word)) : (r.writeV l).s = r.s := rfl
@[simp] theorem Regs.writeV_p (r : Regs) (l : List (Nat × Word)) : (r.writeV l).p = r.p := rfl
@[simp] theorem Regs.writeV_j (r : Regs) (l : List (Nat × Word)) : (r.writeV l).j = r.j := rfl
@[simp] theorem Regs.writeV_latch (r : Regs) (l : List (Nat × Word)) : (r.writeV l).latch = r.latch := rfl
@[simp] theorem Regs.writeV_lvalid (r : Regs) (l : List (Nat × Word)) : (r.writeV l).lvalid = r.lvalid := rfl
@[simp] theorem Regs.writeV_lmask (r : Regs) (l : List (Nat × Word)) : (r.writeV l).lmask = r.lmask := rfl
@[simp] theorem Regs.writeV_pc (r : Regs) (l : List (Nat × Word)) : (r.writeV l).pc = r.pc := rfl
@[simp] theorem Regs.writeV_live (r : Regs) (l : List (Nat × Word)) : (r.writeV l).live = r.live := rfl
@[simp] theorem Regs.writeV_ages (r : Regs) (l : List (Nat × Word)) : (r.writeV l).ages = r.ages := rfl
@[simp] theorem Regs.writeV_gseq (r : Regs) (l : List (Nat × Word)) : (r.writeV l).gseq = r.gseq := rfl
@[simp] theorem Regs.writeV_badL (r : Regs) (l : List (Nat × Word)) : (r.writeV l).badL = r.badL := rfl
@[simp] theorem Regs.writeV_bankconf (r : Regs) (l : List (Nat × Word)) : (r.writeV l).bankconf = r.bankconf := rfl
@[simp] theorem Regs.writeV_fpflags (r : Regs) (l : List (Nat × Word)) : (r.writeV l).fpflags = r.fpflags := rfl
@[simp] theorem Regs.writeV_vec (r : Regs) (l : List (Nat × Word)) : (r.writeV l).vec = r.vec := rfl
@[simp] theorem Regs.writeV_tmask (r : Regs) (l : List (Nat × Word)) : (r.writeV l).tmask = r.tmask := rfl
@[simp] theorem Regs.writeV_frame (r : Regs) (l : List (Nat × Word)) : (r.writeV l).frame = r.frame := rfl

@[simp] theorem Regs.writeS_v (r : Regs) (l : List (Nat × DWord)) : (r.writeS l).v = r.v := rfl
@[simp] theorem Regs.writeS_p (r : Regs) (l : List (Nat × DWord)) : (r.writeS l).p = r.p := rfl
@[simp] theorem Regs.writeS_j (r : Regs) (l : List (Nat × DWord)) : (r.writeS l).j = r.j := rfl
@[simp] theorem Regs.writeS_latch (r : Regs) (l : List (Nat × DWord)) : (r.writeS l).latch = r.latch := rfl
@[simp] theorem Regs.writeS_lvalid (r : Regs) (l : List (Nat × DWord)) : (r.writeS l).lvalid = r.lvalid := rfl
@[simp] theorem Regs.writeS_lmask (r : Regs) (l : List (Nat × DWord)) : (r.writeS l).lmask = r.lmask := rfl
@[simp] theorem Regs.writeS_pc (r : Regs) (l : List (Nat × DWord)) : (r.writeS l).pc = r.pc := rfl
@[simp] theorem Regs.writeS_live (r : Regs) (l : List (Nat × DWord)) : (r.writeS l).live = r.live := rfl
@[simp] theorem Regs.writeS_ages (r : Regs) (l : List (Nat × DWord)) : (r.writeS l).ages = r.ages := rfl
@[simp] theorem Regs.writeS_gseq (r : Regs) (l : List (Nat × DWord)) : (r.writeS l).gseq = r.gseq := rfl
@[simp] theorem Regs.writeS_badL (r : Regs) (l : List (Nat × DWord)) : (r.writeS l).badL = r.badL := rfl
@[simp] theorem Regs.writeS_bankconf (r : Regs) (l : List (Nat × DWord)) : (r.writeS l).bankconf = r.bankconf := rfl
@[simp] theorem Regs.writeS_fpflags (r : Regs) (l : List (Nat × DWord)) : (r.writeS l).fpflags = r.fpflags := rfl
@[simp] theorem Regs.writeS_vec (r : Regs) (l : List (Nat × DWord)) : (r.writeS l).vec = r.vec := rfl
@[simp] theorem Regs.writeS_tmask (r : Regs) (l : List (Nat × DWord)) : (r.writeS l).tmask = r.tmask := rfl
@[simp] theorem Regs.writeS_frame (r : Regs) (l : List (Nat × DWord)) : (r.writeS l).frame = r.frame := rfl

@[simp] theorem Regs.setFlags_v (r : Regs) (x : Flags) : (r.setFlags x).v = r.v := rfl
@[simp] theorem Regs.setFlags_s (r : Regs) (x : Flags) : (r.setFlags x).s = r.s := rfl
@[simp] theorem Regs.setFlags_p (r : Regs) (x : Flags) : (r.setFlags x).p = r.p := rfl
@[simp] theorem Regs.setFlags_j (r : Regs) (x : Flags) : (r.setFlags x).j = r.j := rfl
@[simp] theorem Regs.setFlags_latch (r : Regs) (x : Flags) : (r.setFlags x).latch = r.latch := rfl
@[simp] theorem Regs.setFlags_lvalid (r : Regs) (x : Flags) : (r.setFlags x).lvalid = r.lvalid := rfl
@[simp] theorem Regs.setFlags_lmask (r : Regs) (x : Flags) : (r.setFlags x).lmask = r.lmask := rfl
@[simp] theorem Regs.setFlags_pc (r : Regs) (x : Flags) : (r.setFlags x).pc = r.pc := rfl
@[simp] theorem Regs.setFlags_live (r : Regs) (x : Flags) : (r.setFlags x).live = r.live := rfl
@[simp] theorem Regs.setFlags_ages (r : Regs) (x : Flags) : (r.setFlags x).ages = r.ages := rfl
@[simp] theorem Regs.setFlags_gseq (r : Regs) (x : Flags) : (r.setFlags x).gseq = r.gseq := rfl
@[simp] theorem Regs.setFlags_badL (r : Regs) (x : Flags) : (r.setFlags x).badL = r.badL := rfl
@[simp] theorem Regs.setFlags_bankconf (r : Regs) (x : Flags) : (r.setFlags x).bankconf = r.bankconf := rfl
@[simp] theorem Regs.setFlags_vec (r : Regs) (x : Flags) : (r.setFlags x).vec = r.vec := rfl
@[simp] theorem Regs.setFlags_tmask (r : Regs) (x : Flags) : (r.setFlags x).tmask = r.tmask := rfl
@[simp] theorem Regs.setFlags_frame (r : Regs) (x : Flags) : (r.setFlags x).frame = r.frame := rfl

@[simp] theorem Regs.dropLatches_v (r : Regs)  : (r.dropLatches).v = r.v := rfl
@[simp] theorem Regs.dropLatches_s (r : Regs)  : (r.dropLatches).s = r.s := rfl
@[simp] theorem Regs.dropLatches_p (r : Regs)  : (r.dropLatches).p = r.p := rfl
@[simp] theorem Regs.dropLatches_j (r : Regs)  : (r.dropLatches).j = r.j := rfl
@[simp] theorem Regs.dropLatches_latch (r : Regs)  : (r.dropLatches).latch = r.latch := rfl
@[simp] theorem Regs.dropLatches_lmask (r : Regs)  : (r.dropLatches).lmask = r.lmask := rfl
@[simp] theorem Regs.dropLatches_pc (r : Regs)  : (r.dropLatches).pc = r.pc := rfl
@[simp] theorem Regs.dropLatches_live (r : Regs)  : (r.dropLatches).live = r.live := rfl
@[simp] theorem Regs.dropLatches_ages (r : Regs)  : (r.dropLatches).ages = r.ages := rfl
@[simp] theorem Regs.dropLatches_gseq (r : Regs)  : (r.dropLatches).gseq = r.gseq := rfl
@[simp] theorem Regs.dropLatches_badL (r : Regs)  : (r.dropLatches).badL = r.badL := rfl
@[simp] theorem Regs.dropLatches_bankconf (r : Regs)  : (r.dropLatches).bankconf = r.bankconf := rfl
@[simp] theorem Regs.dropLatches_fpflags (r : Regs)  : (r.dropLatches).fpflags = r.fpflags := rfl
@[simp] theorem Regs.dropLatches_vec (r : Regs)  : (r.dropLatches).vec = r.vec := rfl
@[simp] theorem Regs.dropLatches_tmask (r : Regs)  : (r.dropLatches).tmask = r.tmask := rfl
@[simp] theorem Regs.dropLatches_frame (r : Regs)  : (r.dropLatches).frame = r.frame := rfl

@[simp] theorem Regs.shiftLatches_v (r : Regs) (m : Mask) (x : Nat → Word) : (r.shiftLatches m x).v = r.v := rfl
@[simp] theorem Regs.shiftLatches_s (r : Regs) (m : Mask) (x : Nat → Word) : (r.shiftLatches m x).s = r.s := rfl
@[simp] theorem Regs.shiftLatches_p (r : Regs) (m : Mask) (x : Nat → Word) : (r.shiftLatches m x).p = r.p := rfl
@[simp] theorem Regs.shiftLatches_j (r : Regs) (m : Mask) (x : Nat → Word) : (r.shiftLatches m x).j = r.j := rfl
@[simp] theorem Regs.shiftLatches_lmask (r : Regs) (m : Mask) (x : Nat → Word) : (r.shiftLatches m x).lmask = r.lmask := rfl
@[simp] theorem Regs.shiftLatches_pc (r : Regs) (m : Mask) (x : Nat → Word) : (r.shiftLatches m x).pc = r.pc := rfl
@[simp] theorem Regs.shiftLatches_live (r : Regs) (m : Mask) (x : Nat → Word) : (r.shiftLatches m x).live = r.live := rfl
@[simp] theorem Regs.shiftLatches_ages (r : Regs) (m : Mask) (x : Nat → Word) : (r.shiftLatches m x).ages = r.ages := rfl
@[simp] theorem Regs.shiftLatches_gseq (r : Regs) (m : Mask) (x : Nat → Word) : (r.shiftLatches m x).gseq = r.gseq := rfl
@[simp] theorem Regs.shiftLatches_bankconf (r : Regs) (m : Mask) (x : Nat → Word) : (r.shiftLatches m x).bankconf = r.bankconf := rfl
@[simp] theorem Regs.shiftLatches_fpflags (r : Regs) (m : Mask) (x : Nat → Word) : (r.shiftLatches m x).fpflags = r.fpflags := rfl
@[simp] theorem Regs.shiftLatches_vec (r : Regs) (m : Mask) (x : Nat → Word) : (r.shiftLatches m x).vec = r.vec := rfl
@[simp] theorem Regs.shiftLatches_tmask (r : Regs) (m : Mask) (x : Nat → Word) : (r.shiftLatches m x).tmask = r.tmask := rfl
@[simp] theorem Regs.shiftLatches_frame (r : Regs) (m : Mask) (x : Nat → Word) : (r.shiftLatches m x).frame = r.frame := rfl

@[simp] theorem Regs.pset_v (r : Regs) (k : Nat) (a m : Mask) : (r.pset k a m).v = r.v := by
  simp only [Regs.pset]; split <;> rfl
@[simp] theorem Regs.pset_s (r : Regs) (k : Nat) (a m : Mask) : (r.pset k a m).s = r.s := by
  simp only [Regs.pset]; split <;> rfl
@[simp] theorem Regs.pset_j (r : Regs) (k : Nat) (a m : Mask) : (r.pset k a m).j = r.j := by
  simp only [Regs.pset]; split <;> rfl
@[simp] theorem Regs.pset_latch (r : Regs) (k : Nat) (a m : Mask) : (r.pset k a m).latch = r.latch := by
  simp only [Regs.pset]; split <;> rfl
@[simp] theorem Regs.pset_lvalid (r : Regs) (k : Nat) (a m : Mask) : (r.pset k a m).lvalid = r.lvalid := by
  simp only [Regs.pset]; split <;> rfl
@[simp] theorem Regs.pset_lmask (r : Regs) (k : Nat) (a m : Mask) : (r.pset k a m).lmask = r.lmask := by
  simp only [Regs.pset]; split <;> rfl
@[simp] theorem Regs.pset_pc (r : Regs) (k : Nat) (a m : Mask) : (r.pset k a m).pc = r.pc := by
  simp only [Regs.pset]; split <;> rfl
@[simp] theorem Regs.pset_live (r : Regs) (k : Nat) (a m : Mask) : (r.pset k a m).live = r.live := by
  simp only [Regs.pset]; split <;> rfl
@[simp] theorem Regs.pset_ages (r : Regs) (k : Nat) (a m : Mask) : (r.pset k a m).ages = r.ages := by
  simp only [Regs.pset]; split <;> rfl
@[simp] theorem Regs.pset_gseq (r : Regs) (k : Nat) (a m : Mask) : (r.pset k a m).gseq = r.gseq := by
  simp only [Regs.pset]; split <;> rfl
@[simp] theorem Regs.pset_badL (r : Regs) (k : Nat) (a m : Mask) : (r.pset k a m).badL = r.badL := by
  simp only [Regs.pset]; split <;> rfl
@[simp] theorem Regs.pset_bankconf (r : Regs) (k : Nat) (a m : Mask) : (r.pset k a m).bankconf = r.bankconf := by
  simp only [Regs.pset]; split <;> rfl
@[simp] theorem Regs.pset_fpflags (r : Regs) (k : Nat) (a m : Mask) : (r.pset k a m).fpflags = r.fpflags := by
  simp only [Regs.pset]; split <;> rfl
@[simp] theorem Regs.pset_vec (r : Regs) (k : Nat) (a m : Mask) : (r.pset k a m).vec = r.vec := by
  simp only [Regs.pset]; split <;> rfl
@[simp] theorem Regs.pset_tmask (r : Regs) (k : Nat) (a m : Mask) : (r.pset k a m).tmask = r.tmask := by
  simp only [Regs.pset]; split <;> rfl
@[simp] theorem Regs.pset_frame (r : Regs) (k : Nat) (a m : Mask) : (r.pset k a m).frame = r.frame := by
  simp only [Regs.pset]; split <;> rfl

@[simp] theorem Regs.forGroup_v (r : Regs) (m : Mask) : (r.forGroup m).v = r.v := by
  simp only [Regs.forGroup]; split <;> rfl
@[simp] theorem Regs.forGroup_s (r : Regs) (m : Mask) : (r.forGroup m).s = r.s := by
  simp only [Regs.forGroup]; split <;> rfl
@[simp] theorem Regs.forGroup_p (r : Regs) (m : Mask) : (r.forGroup m).p = r.p := by
  simp only [Regs.forGroup]; split <;> rfl
@[simp] theorem Regs.forGroup_j (r : Regs) (m : Mask) : (r.forGroup m).j = r.j := by
  simp only [Regs.forGroup]; split <;> rfl
@[simp] theorem Regs.forGroup_latch (r : Regs) (m : Mask) : (r.forGroup m).latch = r.latch := by
  simp only [Regs.forGroup]; split <;> rfl
@[simp] theorem Regs.forGroup_pc (r : Regs) (m : Mask) : (r.forGroup m).pc = r.pc := by
  simp only [Regs.forGroup]; split <;> rfl
@[simp] theorem Regs.forGroup_live (r : Regs) (m : Mask) : (r.forGroup m).live = r.live := by
  simp only [Regs.forGroup]; split <;> rfl
@[simp] theorem Regs.forGroup_ages (r : Regs) (m : Mask) : (r.forGroup m).ages = r.ages := by
  simp only [Regs.forGroup]; split <;> rfl
@[simp] theorem Regs.forGroup_gseq (r : Regs) (m : Mask) : (r.forGroup m).gseq = r.gseq := by
  simp only [Regs.forGroup]; split <;> rfl
@[simp] theorem Regs.forGroup_badL (r : Regs) (m : Mask) : (r.forGroup m).badL = r.badL := by
  simp only [Regs.forGroup]; split <;> rfl
@[simp] theorem Regs.forGroup_bankconf (r : Regs) (m : Mask) : (r.forGroup m).bankconf = r.bankconf := by
  simp only [Regs.forGroup]; split <;> rfl
@[simp] theorem Regs.forGroup_fpflags (r : Regs) (m : Mask) : (r.forGroup m).fpflags = r.fpflags := by
  simp only [Regs.forGroup]; split <;> rfl
@[simp] theorem Regs.forGroup_vec (r : Regs) (m : Mask) : (r.forGroup m).vec = r.vec := by
  simp only [Regs.forGroup]; split <;> rfl
@[simp] theorem Regs.forGroup_tmask (r : Regs) (m : Mask) : (r.forGroup m).tmask = r.tmask := by
  simp only [Regs.forGroup]; split <;> rfl
@[simp] theorem Regs.forGroup_frame (r : Regs) (m : Mask) : (r.forGroup m).frame = r.frame := by
  simp only [Regs.forGroup]; split <;> rfl

/-! ### Updates of a warp -/

@[simp] theorem Warp.setSide_gang (w : Warp) (b : Bool) (r : Regs) : (w.setSide b r).gang = w.gang := by
  cases b <;> rfl
@[simp] theorem Warp.setSide_block (w : Warp) (b : Bool) (r : Regs) : (w.setSide b r).block = w.block := by
  cases b <;> rfl
@[simp] theorem Warp.setSide_num (w : Warp) (b : Bool) (r : Regs) : (w.setSide b r).num = w.num := by
  cases b <;> rfl
@[simp] theorem Warp.setSide_ctx (w : Warp) (b : Bool) (r : Regs) : (w.setSide b r).ctx = w.ctx := by
  cases b <;> rfl
@[simp] theorem Warp.setSide_home (w : Warp) (b : Bool) (r : Regs) : (w.setSide b r).home = w.home := by
  cases b <;> rfl
@[simp] theorem Warp.setSide_vgrant (w : Warp) (b : Bool) (r : Regs) : (w.setSide b r).vgrant = w.vgrant := by
  cases b <;> rfl
@[simp] theorem Warp.setSide_tgrant (w : Warp) (b : Bool) (r : Regs) : (w.setSide b r).tgrant = w.tgrant := by
  cases b <;> rfl
@[simp] theorem Warp.setSide_priv (w : Warp) (b : Bool) (r : Regs) : (w.setSide b r).priv = w.priv := by
  cases b <;> rfl
@[simp] theorem Warp.setSide_privBase (w : Warp) (b : Bool) (r : Regs) : (w.setSide b r).privBase = w.privBase := by
  cases b <;> rfl
@[simp] theorem Warp.setSide_gx (w : Warp) (b : Bool) (r : Regs) : (w.setSide b r).gx = w.gx := by
  cases b <;> rfl
@[simp] theorem Warp.setSide_gy (w : Warp) (b : Bool) (r : Regs) : (w.setSide b r).gy = w.gy := by
  cases b <;> rfl
@[simp] theorem Warp.setSide_gz (w : Warp) (b : Bool) (r : Regs) : (w.setSide b r).gz = w.gz := by
  cases b <;> rfl
@[simp] theorem Warp.setSide_windows (w : Warp) (b : Bool) (r : Regs) : (w.setSide b r).windows = w.windows := by
  cases b <;> rfl
@[simp] theorem Warp.setSide_tiles (w : Warp) (b : Bool) (r : Regs) : (w.setSide b r).tiles = w.tiles := by
  cases b <;> rfl
@[simp] theorem Warp.setSide_waits (w : Warp) (b : Bool) (r : Regs) : (w.setSide b r).waits = w.waits := by
  cases b <;> rfl
@[simp] theorem Warp.setSide_pend (w : Warp) (b : Bool) (r : Regs) : (w.setSide b r).pend = w.pend := by
  cases b <;> rfl
@[simp] theorem Warp.setSide_results (w : Warp) (b : Bool) (r : Regs) : (w.setSide b r).results = w.results := by
  cases b <;> rfl
@[simp] theorem Warp.setSide_platen (w : Warp) (b : Bool) (r : Regs) : (w.setSide b r).platen = w.platen := by
  cases b <;> rfl
@[simp] theorem Warp.setSide_platHeld (w : Warp) (b : Bool) (r : Regs) : (w.setSide b r).platHeld = w.platHeld := by
  cases b <;> rfl
@[simp] theorem Warp.setSide_heldTok (w : Warp) (b : Bool) (r : Regs) : (w.setSide b r).heldTok = w.heldTok := by
  cases b <;> rfl
@[simp] theorem Warp.setSide_arrivals (w : Warp) (b : Bool) (r : Regs) : (w.setSide b r).arrivals = w.arrivals := by
  cases b <;> rfl
@[simp] theorem Warp.setSide_feeder (w : Warp) (b : Bool) (r : Regs) : (w.setSide b r).feeder = w.feeder := by
  cases b <;> rfl
@[simp] theorem Warp.setSide_async (w : Warp) (b : Bool) (r : Regs) : (w.setSide b r).async = w.async := by
  cases b <;> rfl
@[simp] theorem Warp.setSide_det (w : Warp) (b : Bool) (r : Regs) : (w.setSide b r).det = w.det := by
  cases b <;> rfl
@[simp] theorem Warp.setSide_levels (w : Warp) (b : Bool) (r : Regs) : (w.setSide b r).levels = w.levels := by
  cases b <;> rfl
@[simp] theorem Warp.setSide_galley (w : Warp) (b : Bool) (r : Regs) : (w.setSide b r).galley = w.galley := by
  cases b <;> rfl
@[simp] theorem Warp.setSide_lastCause (w : Warp) (b : Bool) (r : Regs) : (w.setSide b r).lastCause = w.lastCause := by
  cases b <;> rfl
@[simp] theorem Warp.setSide_rolls (w : Warp) (b : Bool) (r : Regs) : (w.setSide b r).rolls = w.rolls := by
  cases b <;> rfl
@[simp] theorem Warp.setSide_soft (w : Warp) (b : Bool) (r : Regs) : (w.setSide b r).soft = w.soft := by
  cases b <;> rfl
@[simp] theorem Warp.setSide_codeSince (w : Warp) (b : Bool) (r : Regs) : (w.setSide b r).codeSince = w.codeSince := by
  cases b <;> rfl
@[simp] theorem Warp.setSide_constSince (w : Warp) (b : Bool) (r : Regs) : (w.setSide b r).constSince = w.constSince := by
  cases b <;> rfl
@[simp] theorem Warp.setSide_constSeq (w : Warp) (b : Bool) (r : Regs) : (w.setSide b r).constSeq = w.constSeq := by
  cases b <;> rfl
@[simp] theorem Warp.setSide_constOwn (w : Warp) (b : Bool) (r : Regs) : (w.setSide b r).constOwn = w.constOwn := by
  cases b <;> rfl
@[simp] theorem Warp.setSide_badV (w : Warp) (b : Bool) (r : Regs) : (w.setSide b r).badV = w.badV := by
  cases b <;> rfl
@[simp] theorem Warp.setSide_badS (w : Warp) (b : Bool) (r : Regs) : (w.setSide b r).badS = w.badS := by
  cases b <;> rfl
@[simp] theorem Warp.setSide_badP (w : Warp) (b : Bool) (r : Regs) : (w.setSide b r).badP = w.badP := by
  cases b <;> rfl
@[simp] theorem Warp.setSide_badJ (w : Warp) (b : Bool) (r : Regs) : (w.setSide b r).badJ = w.badJ := by
  cases b <;> rfl
@[simp] theorem Warp.setSide_badT (w : Warp) (b : Bool) (r : Regs) : (w.setSide b r).badT = w.badT := by
  cases b <;> rfl
@[simp] theorem Warp.setSide_resolved (w : Warp) (b : Bool) (r : Regs) : (w.setSide b r).resolved = w.resolved := by
  cases b <;> rfl
@[simp] theorem Warp.setSide_stopped (w : Warp) (b : Bool) (r : Regs) : (w.setSide b r).stopped = w.stopped := by
  cases b <;> rfl

@[simp] theorem Warp.follow_gang (w : Warp) (sl : Slot) (e : Lag) : (w.follow sl e).gang = w.gang := by
  simp only [Warp.follow]; split
  · rfl
  · split <;> rfl
@[simp] theorem Warp.follow_block (w : Warp) (sl : Slot) (e : Lag) : (w.follow sl e).block = w.block := by
  simp only [Warp.follow]; split
  · rfl
  · split <;> rfl
@[simp] theorem Warp.follow_num (w : Warp) (sl : Slot) (e : Lag) : (w.follow sl e).num = w.num := by
  simp only [Warp.follow]; split
  · rfl
  · split <;> rfl
@[simp] theorem Warp.follow_ctx (w : Warp) (sl : Slot) (e : Lag) : (w.follow sl e).ctx = w.ctx := by
  simp only [Warp.follow]; split
  · rfl
  · split <;> rfl
@[simp] theorem Warp.follow_home (w : Warp) (sl : Slot) (e : Lag) : (w.follow sl e).home = w.home := by
  simp only [Warp.follow]; split
  · rfl
  · split <;> rfl
@[simp] theorem Warp.follow_vgrant (w : Warp) (sl : Slot) (e : Lag) : (w.follow sl e).vgrant = w.vgrant := by
  simp only [Warp.follow]; split
  · rfl
  · split <;> rfl
@[simp] theorem Warp.follow_tgrant (w : Warp) (sl : Slot) (e : Lag) : (w.follow sl e).tgrant = w.tgrant := by
  simp only [Warp.follow]; split
  · rfl
  · split <;> rfl
@[simp] theorem Warp.follow_priv (w : Warp) (sl : Slot) (e : Lag) : (w.follow sl e).priv = w.priv := by
  simp only [Warp.follow]; split
  · rfl
  · split <;> rfl
@[simp] theorem Warp.follow_privBase (w : Warp) (sl : Slot) (e : Lag) : (w.follow sl e).privBase = w.privBase := by
  simp only [Warp.follow]; split
  · rfl
  · split <;> rfl
@[simp] theorem Warp.follow_gx (w : Warp) (sl : Slot) (e : Lag) : (w.follow sl e).gx = w.gx := by
  simp only [Warp.follow]; split
  · rfl
  · split <;> rfl
@[simp] theorem Warp.follow_gy (w : Warp) (sl : Slot) (e : Lag) : (w.follow sl e).gy = w.gy := by
  simp only [Warp.follow]; split
  · rfl
  · split <;> rfl
@[simp] theorem Warp.follow_gz (w : Warp) (sl : Slot) (e : Lag) : (w.follow sl e).gz = w.gz := by
  simp only [Warp.follow]; split
  · rfl
  · split <;> rfl
@[simp] theorem Warp.follow_windows (w : Warp) (sl : Slot) (e : Lag) : (w.follow sl e).windows = w.windows := by
  simp only [Warp.follow]; split
  · rfl
  · split <;> rfl
@[simp] theorem Warp.follow_r (w : Warp) (sl : Slot) (e : Lag) : (w.follow sl e).r = w.r := by
  simp only [Warp.follow]; split
  · rfl
  · split <;> rfl
@[simp] theorem Warp.follow_tiles (w : Warp) (sl : Slot) (e : Lag) : (w.follow sl e).tiles = w.tiles := by
  simp only [Warp.follow]; split
  · rfl
  · split <;> rfl
@[simp] theorem Warp.follow_waits (w : Warp) (sl : Slot) (e : Lag) : (w.follow sl e).waits = w.waits := by
  simp only [Warp.follow]; split
  · rfl
  · split <;> rfl
@[simp] theorem Warp.follow_pend (w : Warp) (sl : Slot) (e : Lag) : (w.follow sl e).pend = w.pend := by
  simp only [Warp.follow]; split
  · rfl
  · split <;> rfl
@[simp] theorem Warp.follow_results (w : Warp) (sl : Slot) (e : Lag) : (w.follow sl e).results = w.results := by
  simp only [Warp.follow]; split
  · rfl
  · split <;> rfl
@[simp] theorem Warp.follow_platen (w : Warp) (sl : Slot) (e : Lag) : (w.follow sl e).platen = w.platen := by
  simp only [Warp.follow]; split
  · rfl
  · split <;> rfl
@[simp] theorem Warp.follow_platHeld (w : Warp) (sl : Slot) (e : Lag) : (w.follow sl e).platHeld = w.platHeld := by
  simp only [Warp.follow]; split
  · rfl
  · split <;> rfl
@[simp] theorem Warp.follow_heldTok (w : Warp) (sl : Slot) (e : Lag) : (w.follow sl e).heldTok = w.heldTok := by
  simp only [Warp.follow]; split
  · rfl
  · split <;> rfl
@[simp] theorem Warp.follow_arrivals (w : Warp) (sl : Slot) (e : Lag) : (w.follow sl e).arrivals = w.arrivals := by
  simp only [Warp.follow]; split
  · rfl
  · split <;> rfl
@[simp] theorem Warp.follow_feeder (w : Warp) (sl : Slot) (e : Lag) : (w.follow sl e).feeder = w.feeder := by
  simp only [Warp.follow]; split
  · rfl
  · split <;> rfl
@[simp] theorem Warp.follow_async (w : Warp) (sl : Slot) (e : Lag) : (w.follow sl e).async = w.async := by
  simp only [Warp.follow]; split
  · rfl
  · split <;> rfl
@[simp] theorem Warp.follow_det (w : Warp) (sl : Slot) (e : Lag) : (w.follow sl e).det = w.det := by
  simp only [Warp.follow]; split
  · rfl
  · split <;> rfl
@[simp] theorem Warp.follow_levels (w : Warp) (sl : Slot) (e : Lag) : (w.follow sl e).levels = w.levels := by
  simp only [Warp.follow]; split
  · rfl
  · split <;> rfl
@[simp] theorem Warp.follow_galley (w : Warp) (sl : Slot) (e : Lag) : (w.follow sl e).galley = w.galley := by
  simp only [Warp.follow]; split
  · rfl
  · split <;> rfl
@[simp] theorem Warp.follow_lastCause (w : Warp) (sl : Slot) (e : Lag) : (w.follow sl e).lastCause = w.lastCause := by
  simp only [Warp.follow]; split
  · rfl
  · split <;> rfl
@[simp] theorem Warp.follow_rolls (w : Warp) (sl : Slot) (e : Lag) : (w.follow sl e).rolls = w.rolls := by
  simp only [Warp.follow]; split
  · rfl
  · split <;> rfl
@[simp] theorem Warp.follow_soft (w : Warp) (sl : Slot) (e : Lag) : (w.follow sl e).soft = w.soft := by
  simp only [Warp.follow]; split
  · rfl
  · split <;> rfl
@[simp] theorem Warp.follow_codeSince (w : Warp) (sl : Slot) (e : Lag) : (w.follow sl e).codeSince = w.codeSince := by
  simp only [Warp.follow]; split
  · rfl
  · split <;> rfl
@[simp] theorem Warp.follow_constSince (w : Warp) (sl : Slot) (e : Lag) : (w.follow sl e).constSince = w.constSince := by
  simp only [Warp.follow]; split
  · rfl
  · split <;> rfl
@[simp] theorem Warp.follow_constSeq (w : Warp) (sl : Slot) (e : Lag) : (w.follow sl e).constSeq = w.constSeq := by
  simp only [Warp.follow]; split
  · rfl
  · split <;> rfl
@[simp] theorem Warp.follow_constOwn (w : Warp) (sl : Slot) (e : Lag) : (w.follow sl e).constOwn = w.constOwn := by
  simp only [Warp.follow]; split
  · rfl
  · split <;> rfl
@[simp] theorem Warp.follow_badV (w : Warp) (sl : Slot) (e : Lag) : (w.follow sl e).badV = w.badV := by
  simp only [Warp.follow]; split
  · rfl
  · split <;> rfl
@[simp] theorem Warp.follow_badS (w : Warp) (sl : Slot) (e : Lag) : (w.follow sl e).badS = w.badS := by
  simp only [Warp.follow]; split
  · rfl
  · split <;> rfl
@[simp] theorem Warp.follow_badP (w : Warp) (sl : Slot) (e : Lag) : (w.follow sl e).badP = w.badP := by
  simp only [Warp.follow]; split
  · rfl
  · split <;> rfl
@[simp] theorem Warp.follow_badJ (w : Warp) (sl : Slot) (e : Lag) : (w.follow sl e).badJ = w.badJ := by
  simp only [Warp.follow]; split
  · rfl
  · split <;> rfl
@[simp] theorem Warp.follow_badT (w : Warp) (sl : Slot) (e : Lag) : (w.follow sl e).badT = w.badT := by
  simp only [Warp.follow]; split
  · rfl
  · split <;> rfl
@[simp] theorem Warp.follow_resolved (w : Warp) (sl : Slot) (e : Lag) : (w.follow sl e).resolved = w.resolved := by
  simp only [Warp.follow]; split
  · rfl
  · split <;> rfl
@[simp] theorem Warp.follow_stopped (w : Warp) (sl : Slot) (e : Lag) : (w.follow sl e).stopped = w.stopped := by
  simp only [Warp.follow]; split
  · rfl
  · split <;> rfl

end Sys2Proof.Machine
end

