-- ==== Sys2Proof/Laws/Memory.lean ====
section
/-! SUPPORT. Memory: every operation keeps the canonical form; a read after a write; what a write leaves alone. -/

namespace Sys2Proof.Machine

/-! ### The canonical form -/

theorem Memory.wf_reset : Memory.wf State.reset := rfl

theorem Memory.wf_of_hbm {s t : State} (e : t.hbm = s.hbm) (h : Memory.wf s) : Memory.wf t := by
  unfold Memory.wf; rw [e]; exact h

theorem Memory.wf_setByte {s : State} (p : Place) (x : Byte) (h : Memory.wf s) : Memory.wf (s.setByte p x) := by
  cases p with
  | hbm k => exact SMap.wf_set _ _ _ h
  | scr _ _ _ => exact h

theorem Memory.wf_putBytes {s : State} (p : Place) (l : List Byte) (h : Memory.wf s) : Memory.wf (s.putBytes p l) := by
  induction l generalizing s p with
  | nil => exact h
  | cons x t ih => exact ih _ (Memory.wf_setByte p x h)

/-- Marking words poisoned changes no byte of HBM4. -/
@[simp] theorem State.setPoison_hbm (s : State) (p : Place) (n : Nat) : (s.setPoison p n).hbm = s.hbm := by cases p <;> rfl

@[simp] theorem State.clearPoison_hbm (s : State) (p : Place) (n : Nat) : (s.clearPoison p n).hbm = s.hbm := by
  cases p
  · unfold State.clearPoison; dsimp only; split <;> rfl
  · rfl

theorem Memory.wf_setPoison {s : State} (p : Place) (n : Nat) (h : Memory.wf s) : Memory.wf (s.setPoison p n) :=
  Memory.wf_of_hbm (s.setPoison_hbm p n) h

theorem Memory.wf_clearPoison {s : State} (p : Place) (n : Nat) (h : Memory.wf s) : Memory.wf (s.clearPoison p n) :=
  Memory.wf_of_hbm (s.clearPoison_hbm p n) h

@[simp] theorem State.keepPast_hbm (s : State) (p : Place) (n : Nat) : (s.keepPast p n).hbm = s.hbm := by cases p <;> rfl
@[simp] theorem State.keepPast_gangs (s : State) (p : Place) (n : Nat) : (s.keepPast p n).gangs = s.gangs := by cases p <;> rfl

/-- Keeping what a write replaces changes no byte. -/
@[simp] theorem State.keepPast_byte (s : State) (p q : Place) (n : Nat) : (s.keepPast p n).byte q = s.byte q := by
  cases p <;> cases q <;> rfl

theorem Memory.wf_writeBytes {s : State} (p : Place) (l : List Byte) (h : Memory.wf s) : Memory.wf (s.writeBytes p l) :=
  Memory.wf_clearPoison _ _ (Memory.wf_putBytes _ _ (Memory.wf_of_hbm (s.keepPast_hbm p _) h))

theorem Memory.wf_writeLe {s : State} (p : Place) (x n : Nat) (h : Memory.wf s) : Memory.wf (s.writeLe p x n) :=
  Memory.wf_writeBytes _ _ h

@[simp] theorem State.refreshL1_hbm (s : State) (f k n : Nat) : (s.refreshL1 f k n).hbm = s.hbm := by
  unfold State.refreshL1; split <;> rfl

@[simp] theorem State.refreshHome_hbm (s : State) (f : Nat) (p : Place) (n : Nat) : (s.refreshHome f p n).hbm = s.hbm := by
  cases p
  · exact State.refreshL1_hbm _ _ _ _
  · rfl

@[simp] theorem State.refreshSheet_hbm (s : State) (f : Nat) (p : Place) (n : Nat) : (s.refreshSheet f p n).hbm = s.hbm := by
  cases p <;> rfl

theorem Memory.wf_refreshSheet {s : State} (f : Nat) (p : Place) (n : Nat) (h : Memory.wf s) : Memory.wf (s.refreshSheet f p n) :=
  Memory.wf_of_hbm (s.refreshSheet_hbm f p n) h

theorem Memory.wf_store {s : State} (f : Nat) (p : Place) (x n : Nat) (h : Memory.wf s) : Memory.wf (s.store f p x n) :=
  Memory.wf_of_hbm (State.refreshHome_hbm _ _ _ _) (Memory.wf_writeLe p x n h)

@[simp] theorem State.phaseDone_hbm (s : State) (p : Place) : (s.phaseDone p).hbm = s.hbm := by cases p <;> rfl

theorem Memory.wf_putBarrier {s : State} (f : Nat) (p : Place) (a b : Barrier) (h : Memory.wf s) :
    Memory.wf (s.putBarrier f p a b) := by
  unfold State.putBarrier
  dsimp only
  split
  · exact Memory.wf_store _ _ _ _ h
  · exact Memory.wf_of_hbm (State.phaseDone_hbm _ _) (Memory.wf_store _ _ _ _ h)

/-- Performing any part of an access keeps the canonical form. -/
theorem Memory.wf_perform {s : State} (f : Nat) (k : OpKind) (p : Piece) (h : Memory.wf s) :
    Memory.wf (s.perform f k p).s := by
  unfold State.perform
  cases k <;> dsimp only
  case arrive => repeat' split
                 all_goals first
                   | exact h
                   | exact Memory.wf_putBarrier _ _ _ _ h
  case catom => split
                · exact h
                · exact Memory.wf_store _ _ _ _ (Memory.wf_store _ _ _ _ h)
  all_goals (try split) <;> (try split)
  all_goals first
    | exact h
    | exact Memory.wf_store _ _ _ _ h
    | exact Memory.wf_refreshSheet _ _ _ (Memory.wf_store _ _ _ _ h)
    | exact Memory.wf_of_hbm (State.refreshHome_hbm _ _ _ _) h

/-! ### A read after a write (R2) -/

@[simp] theorem Place.add_hbm (k n : Nat) : (Place.hbm k).add n = .hbm (k + n) := rfl
@[simp] theorem Place.add_scr (g b o n : Nat) : (Place.scr g b o).add n = .scr g b (o + n) := rfl
theorem Place.add_add (p : Place) (m n : Nat) : (p.add m).add n = p.add (m + n) := by cases p <;> simp [Nat.add_assoc]
@[simp] theorem Place.add_zero (p : Place) : p.add 0 = p := by cases p <;> rfl
theorem Place.add_inj {p : Place} {m n : Nat} (h : p.add m = p.add n) : m = n := by cases p <;> simp at h <;> exact h

theorem State.gang_modGang (s : State) (g k : Nat) (f : Gang → Gang) (hf : ∀ x, (f x).id = x.id) :
    (s.modGang g f).gang k = if k = g then (s.gang k).map f else s.gang k := by
  unfold State.gang State.modGang
  dsimp only
  induction s.gangs with
  | nil => simp
  | cons x t ih =>
    have hid : (if (x.id == g) = true then f x else x).id = x.id := by split <;> simp [hf]
    by_cases hk : x.id = k
    · rw [List.map_cons, List.find?_cons_of_pos (by rw [hid, hk]; exact beq_self_eq_true k), List.find?_cons_of_pos (by simp [hk])]
      by_cases hg : k = g <;> simp [hk, hg]
    · rw [List.map_cons, List.find?_cons_of_neg (by rw [hid]; simp [hk]), List.find?_cons_of_neg (by simp [hk])]
      exact ih

@[simp] theorem Gang.modBlock_id (g : Gang) (b : Nat) (f : Block → Block) : (g.modBlock b f).id = g.id := rfl

theorem Gang.block_modBlock (g : Gang) (b k : Nat) (f : Block → Block) :
    (g.modBlock b f).block? k = if k = b then (g.block? k).map f else g.block? k := by
  unfold Gang.block? Gang.modBlock
  by_cases h : k = b
  · subst h
    cases hk : g.blocks[k]? <;> simp [hk]
  · cases hk : g.blocks[k]? <;> simp [hk, h]

/-- A block after a change that leaves `released` alone. -/
theorem State.scrBlock_modBlock (s : State) (g b h c : Nat) (f : Block → Block) (hf : ∀ x, (f x).released = x.released) :
    (s.modGang g fun y => y.modBlock b f).scrBlock h c =
      if h = g ∧ c = b then (s.scrBlock h c).map f else s.scrBlock h c := by
  unfold State.scrBlock
  rw [State.gang_modGang _ _ _ (fun y => y.modBlock b f) (fun x => rfl)]
  by_cases e : h = g
  · subst e
    cases hg : s.gang h with
    | none => simp
    | some x =>
      simp only [if_true, Option.map_some, Option.bind_some, Gang.block_modBlock, true_and]
      by_cases e2 : c = b
      · subst e2
        cases hb : x.block? c with
        | none => simp
        | some y => by_cases hr : y.released = true <;> simp [Option.filter, hf, hr]
      · simp [e2]
  · simp [e]

/-- The block of a place of scratch stands, or the place is one of HBM4. -/
def State.places (s : State) (p : Place) : Prop :=
  match p with
  | .hbm _ => True
  | .scr g b _ => (s.scrBlock g b).isSome = true

/-- A byte that is written reads back where its place exists. -/
theorem State.byte_setByte_self {s : State} {p : Place} (x : Byte) (h : s.places p) : (s.setByte p x).byte p = x := by
  cases p with
  | hbm k => simp [State.byte, State.setByte]
  | scr g b o =>
    unfold State.byte State.setByte
    dsimp only
    rw [State.scrBlock_modBlock _ _ _ _ _ (fun z => { z with scratch := z.scratch.set o x }) (fun y => rfl), if_pos ⟨rfl, rfl⟩]
    obtain ⟨y, hy⟩ := Option.isSome_iff_exists.mp h
    simp [hy]

/-- Every other byte is as before. -/
theorem State.byte_setByte_ne {s : State} {p q : Place} (x : Byte) (h : q ≠ p) : (s.setByte p x).byte q = s.byte q := by
  cases p with
  | hbm k =>
    cases q with
    | hbm j => exact SMap.get_set_ne _ _ fun e => h (by rw [e])
    | scr _ _ _ => rfl
  | scr g b o =>
    cases q with
    | hbm j => rfl
    | scr k c i =>
      unfold State.byte State.setByte
      dsimp only
      rw [State.scrBlock_modBlock _ _ _ _ _ (fun z => { z with scratch := z.scratch.set o x }) (fun y => rfl)]
      split
      · rename_i e
        cases hb : s.scrBlock k c with
        | none => rfl
        | some y =>
          simp only [Option.map_some, Option.getD_some]
          exact SMap.get_set_ne _ _ fun e2 => h (by rw [e.1, e.2, e2])
      · rfl

@[simp] theorem State.clearPoison_byte (s : State) (p q : Place) (n : Nat) : (s.clearPoison p n).byte q = s.byte q := by
  cases p with
  | hbm k => unfold State.clearPoison; dsimp only; split <;> cases q <;> rfl
  | scr g b o =>
    cases q with
    | hbm j => rfl
    | scr h c i =>
      unfold State.byte State.clearPoison
      dsimp only
      rw [State.scrBlock_modBlock]
      rotate_left
      · intro y; split <;> rfl
      split
      · cases s.scrBlock h c with
        | none => rfl
        | some y => simp only [Option.map_some, Option.getD_some]; split <;> rfl
      · rfl

theorem State.byte_putBytes_ne {s : State} {p q : Place} {l : List Byte} (h : ∀ i, i < l.length → q ≠ p.add i) :
    (s.putBytes p l).byte q = s.byte q := by
  induction l generalizing s p with
  | nil => rfl
  | cons x t ih =>
    have h0 : q ≠ p := by simpa using h 0 (by simp)
    rw [State.putBytes, ih (fun i hi => by rw [Place.add_add, Nat.add_comm]; exact h (i + 1) (by simpa using hi)),
      State.byte_setByte_ne x h0]

theorem State.places_add {s : State} {p : Place} (n : Nat) (h : s.places p) : s.places (p.add n) := by cases p <;> exact h

theorem State.places_setByte {s : State} {p q : Place} (x : Byte) (h : s.places p) : (s.setByte q x).places p := by
  cases p with
  | hbm _ => trivial
  | scr g b o =>
    cases q with
    | hbm k => exact h
    | scr g' b' o' =>
      unfold State.places State.setByte at *
      dsimp only at *
      rw [State.scrBlock_modBlock _ _ _ _ _ (fun z => { z with scratch := z.scratch.set o' x }) (fun y => rfl)]
      split
      · simpa using h
      · exact h

theorem State.byte_putBytes {s : State} {p : Place} {l : List Byte} (hp : s.places p) {i : Nat} (hi : i < l.length) :
    (s.putBytes p l).byte (p.add i) = l[i] := by
  induction l generalizing s p i with
  | nil => simp at hi
  | cons x t ih =>
    cases i with
    | zero =>
      rw [State.putBytes, State.byte_putBytes_ne, Place.add_zero, State.byte_setByte_self x hp]
      · rfl
      · intro i _ e
        rw [Place.add_add] at e
        have := Place.add_inj e
        omega
    | succ i =>
      have := ih (s := s.setByte p x) (p := p.add 1) (State.places_setByte x (State.places_add 1 hp)) (i := i) (by simpa using hi)
      rw [Place.add_add, Nat.add_comm 1 i] at this
      exact this

theorem State.places_keepPast (s : State) (p q : Place) (n : Nat) : (s.keepPast p n).places q = s.places q := by
  cases p <;> rfl

/-- Bytes written read back; every other byte is as before. -/
theorem State.byte_writeBytes {s : State} {p : Place} {l : List Byte} (hp : s.places p) {i : Nat} (hi : i < l.length) :
    (s.writeBytes p l).byte (p.add i) = l[i] := by
  rw [State.writeBytes, State.clearPoison_byte, State.byte_putBytes (by rw [State.places_keepPast]; exact hp) hi]

theorem State.byte_writeBytes_ne {s : State} {p q : Place} {l : List Byte} (h : ∀ i, i < l.length → q ≠ p.add i) :
    (s.writeBytes p l).byte q = s.byte q := by
  rw [State.writeBytes, State.clearPoison_byte, State.byte_putBytes_ne h, State.keepPast_byte]

@[simp] theorem State.refreshHome_byte (s : State) (f : Nat) (p q : Place) (n : Nat) : (s.refreshHome f p n).byte q = s.byte q := by
  cases p with
  | hbm k => unfold State.refreshHome State.refreshL1; dsimp only; split <;> cases q <;> rfl
  | scr _ _ _ => rfl

/-! ### Several bytes as a number (R2) -/

@[simp] theorem leBytes_length (x n : Nat) : (leBytes x n).length = n := by
  induction n generalizing x with
  | zero => rfl
  | succ n ih => simp [leBytes, ih]

theorem leBytes_get (x n i : Nat) (h : i < (leBytes x n).length) : (leBytes x n)[i] = BitVec.ofNat 8 (x / 2 ^ (8 * i)) := by
  induction n generalizing x i with
  | zero => simp [leBytes] at h
  | succ n ih =>
    cases i with
    | zero => simp [leBytes]
    | succ i =>
      have h' : i < (leBytes (x / 256) n).length := by simpa [leBytes] using h
      have := ih (x / 256) i h'
      simp only [leBytes, List.getElem_cons_succ]
      rw [this, Nat.div_div_eq_div_mul, show 256 * 2 ^ (8 * i) = 2 ^ (8 * (i + 1)) by rw [show 8 * (i + 1) = 8 + 8 * i by omega, Nat.pow_add]]

theorem leNat_leBytes (x n : Nat) : leNat (leBytes x n) = x % 2 ^ (8 * n) := by
  induction n generalizing x with
  | zero => simp [leBytes, leNat, Nat.mod_one]
  | succ n ih =>
    rw [leBytes, leNat, ih, show 2 ^ (8 * (n + 1)) = 256 * 2 ^ (8 * n) by rw [show 8 * (n + 1) = 8 + 8 * n by omega, Nat.pow_add],
      Nat.mod_mul]
    simp

/-- After a write of n bytes of a number, byte i of the place holds bits 8i to 8i + 7. -/
theorem State.byte_writeLe {s : State} {p : Place} (hp : s.places p) (x : Nat) {n i : Nat} (hi : i < n) :
    (s.writeLe p x n).byte (p.add i) = BitVec.ofNat 8 (x / 2 ^ (8 * i)) := by
  rw [State.writeLe, State.byte_writeBytes hp (by simpa using hi), leBytes_get]

theorem State.byte_writeLe_ne {s : State} {p q : Place} (x n : Nat) (h : ∀ i, i < n → q ≠ p.add i) :
    (s.writeLe p x n).byte q = s.byte q := State.byte_writeBytes_ne (by simpa using h)

/-- A number written reads back, modulo the width. -/
theorem State.readLe_writeLe {s : State} {p : Place} (hp : s.places p) (x n : Nat) :
    (s.writeLe p x n).readLe p n = x % 2 ^ (8 * n) := by
  rw [State.readLe, ← leNat_leBytes]
  congr 1
  refine List.ext_getElem (by simp [State.bytes]) fun i h1 h2 => ?_
  have hi : i < n := by simpa [State.bytes] using h1
  simp only [State.bytes, List.getElem_map, List.getElem_range]
  rw [State.byte_writeLe hp x hi, leBytes_get]

/-- A store of a part: its bytes, and every other byte as before. -/
theorem State.byte_store {s : State} {p : Place} (f : Nat) (hp : s.places p) (x : Nat) {n i : Nat} (hi : i < n) :
    (s.store f p x n).byte (p.add i) = BitVec.ofNat 8 (x / 2 ^ (8 * i)) := by
  rw [State.store, State.refreshHome_byte, State.byte_writeLe hp x hi]

theorem State.byte_store_ne {s : State} {p q : Place} (f x n : Nat) (h : ∀ i, i < n → q ≠ p.add i) :
    (s.store f p x n).byte q = s.byte q := by
  rw [State.store, State.refreshHome_byte, State.byte_writeLe_ne x n h]

end Sys2Proof.Machine
end

