-- ==== Sys2Proof/Laws/Warp.lean ====
section
/-! SUPPORT. Reading back what was written: warps, registers, lane masks; running the chosen instruction. -/

namespace Sys2Proof.Machine

/-! ### Warps -/

theorem State.warp_setWarp (s : State) (k k' : Nat) (w : Warp) :
    (s.setWarp k w).warp k' = if k' = k then some w else s.warp k' := by
  simp only [State.warp, State.setWarp, SMap.get_set]

@[simp] theorem State.warp_setWarp_self (s : State) (k : Nat) (w : Warp) : (s.setWarp k w).warp k = some w := by
  simp [State.warp_setWarp]

theorem State.warp_setWarp_ne (s : State) {k k' : Nat} (w : Warp) (h : k' ≠ k) : (s.setWarp k w).warp k' = s.warp k' := by
  simp [State.warp_setWarp, h]

theorem State.warp_modWarp (s : State) (k k' : Nat) (f : Warp → Warp) :
    (s.modWarp k f).warp k' = if k' = k then (s.warp k).map f else s.warp k' := by
  cases h : s.warp k with
  | none =>
    rw [State.modWarp_none f h]
    by_cases e : k' = k
    · subst e; simp [h]
    · simp [e]
  | some w => rw [State.modWarp_some f h, State.warp_setWarp]; simp

@[simp] theorem Warp.side_setSide_self {w : Warp} {b : Bool} {r0 : Regs} (r : Regs) (h : w.side b = some r0) :
    (w.setSide b r).side b = some r := by
  cases b with
  | false => rfl
  | true =>
    simp only [Warp.side, if_true, Option.map_eq_some_iff] at h
    obtain ⟨p, hp, _⟩ := h
    simp [Warp.side, Warp.setSide, hp]

@[simp] theorem Warp.side_setSide_other (w : Warp) (b : Bool) (r : Regs) : (w.setSide b r).side (!b) = w.side (!b) := by
  cases b with
  | false => rfl
  | true => rfl

@[simp] theorem Warp.side_follow (w : Warp) (sl : Slot) (e : Lag) (b : Bool) : (w.follow sl e).side b = w.side b := by
  cases h : w.proof with
  | none => simp [Warp.follow, h]
  | some p => cases b <;> cases hp : sl.proof <;> simp [Warp.follow, Warp.side, h, hp]

/-! ### Lane masks -/

theorem mem_lanesOf {m : Mask} {l : Nat} : l ∈ lanesOf m ↔ l < 32 ∧ lane m l = true := by
  simp [lanesOf, lanes32]

@[simp] theorem lane_zero (l : Nat) : lane 0 l = false := by simp [lane]

theorem lanesOf_zero : lanesOf 0 = [] := by simp [lanesOf, lane]

theorem maskOf_lane (f : Nat → Bool) {l : Nat} (h : l < 32) : lane (maskOf f) l = f l := by
  have key : ∀ n, n ≤ 32 → ∀ l, l < 32 → (((List.range n).foldl (fun acc l => if f l then acc + 2 ^ l else acc) 0).testBit l
      = (decide (l < n) && f l)) ∧ ((List.range n).foldl (fun acc l => if f l then acc + 2 ^ l else acc) 0) < 2 ^ n := by
    intro n hn
    induction n with
    | zero => intro l hl; simp
    | succ n ih =>
      intro l hl
      obtain ⟨h1, h2⟩ := ih (by omega) l hl
      rw [List.range_succ, List.foldl_append, List.foldl_cons, List.foldl_nil]
      generalize ((List.range n).foldl (fun acc l => if f l then acc + 2 ^ l else acc) 0) = a at h1 h2
      by_cases hf : f n
      · rw [if_pos hf, Nat.add_comm]
        have hlt : 2 ^ n + a < 2 ^ (n + 1) := by rw [Nat.pow_succ]; omega
        refine ⟨?_, hlt⟩
        rcases Nat.lt_trichotomy l n with h3 | h3 | h3
        · rw [Nat.testBit_two_pow_add_gt h3, h1]; simp [h3, Nat.lt_succ_of_lt h3]
        · subst h3; rw [Nat.testBit_two_pow_add_eq, h1]; simp [hf]
        · rw [Nat.testBit_lt_two_pow (Nat.lt_of_lt_of_le hlt (Nat.pow_le_pow_right (by omega) h3))]
          simp [Nat.not_lt.2 h3]
      · rw [if_neg hf]
        refine ⟨?_, by rw [Nat.pow_succ]; omega⟩
        rw [h1]
        rcases Nat.lt_trichotomy l n with h3 | h3 | h3
        · simp [h3, Nat.lt_succ_of_lt h3]
        · subst h3; simp [hf]
        · simp [Nat.not_lt.2 (Nat.le_of_lt h3), Nat.not_lt.2 (show n + 1 ≤ l from h3)]
  obtain ⟨h1, h2⟩ := key 32 (Nat.le_refl _) l h
  unfold lane maskOf lanes32
  rw [BitVec.getLsbD_ofNat]
  simp [h, h1]

/-! ### The lowest lane -/

theorem lowest_mem {m : Mask} {l : Nat} (h : lowest m = some l) : l < 32 ∧ lane m l = true := by
  have h1 := List.mem_of_find?_eq_some h
  have h2 := List.find?_some h
  exact ⟨by simpa [lanes32] using h1, h2⟩

theorem lowest_eq_none {m : Mask} (h : lowest m = none) (l : Nat) (hl : l < 32) : lane m l = false := by
  have := List.find?_eq_none.1 h l (by simpa [lanes32] using hl)
  simpa using this

/-! ### Registers -/

theorem Regs.pcGet_setPc (r : Regs) (m : Mask) (a : DWord) {l : Nat} (h : l < 32) :
    (r.setPc m a).pcGet l = if lane m l then a else r.pcGet l := by
  unfold Regs.pcGet Regs.setPc
  by_cases e : lane m l = true
  · rw [if_pos e]
    exact SMap.get_foldl_set_eq (lanesOf m) id (fun _ => a) r.pc l a (fun _ _ _ => rfl) ⟨l, mem_lanesOf.2 ⟨h, e⟩, rfl⟩
  · rw [if_neg e]
    exact SMap.get_foldl_set_ne (lanesOf m) id (fun _ => a) r.pc l fun x hx hxl =>
      e (by have := (mem_lanesOf.1 hx).2; simp only [id] at hxl; rwa [hxl] at this)

theorem Regs.sget_sset (r : Regs) (k k' : Nat) (x : DWord) : (r.sset k x).sget k' = if k' = k then x else r.sget k' := by
  simp only [Regs.sget, Regs.sset, SMap.get_set]

/-- p0 reads as all ones (R14). -/
@[simp] theorem Regs.pget_zero (r : Regs) : r.pget 0 = BitVec.allOnes 32 := by simp [Regs.pget]

theorem Regs.lane_pget_pset (r : Regs) (k k' : Nat) (act m : Mask) (l : Nat) :
    lane ((r.pset k act m).pget k') l =
      if k' = k ∧ k ≠ 0 ∧ lane act l = true then lane m l else lane (r.pget k') l := by
  by_cases h0 : k = 0
  · subst h0; simp [Regs.pset]
  · simp only [Regs.pset, h0, if_false]
    by_cases h1 : k' = k
    · subst h1
      simp only [Regs.pget, h0, if_false, SMap.get_set_self, lane, BitVec.getLsbD_or, BitVec.getLsbD_and, BitVec.getLsbD_not]
      by_cases ha : act.getLsbD l = true
      · simp [ha, h0]
      · have : act.getLsbD l = false := by simpa using ha
        simp only [this]
        by_cases hl : l < 32
        · simp [hl]
        · have : (r.p.get k').getLsbD l = false := by apply BitVec.getLsbD_of_ge; omega
          simp [this]
    · have : ¬ (k' = k ∧ k ≠ 0 ∧ lane act l = true) := fun h => h1 h.1
      rw [if_neg this]
      simp only [Regs.pget, SMap.get_set_ne _ _ h1]

/-! ### The chosen instruction -/

/-- What `onSlot` does with an instruction that has been chosen. -/
theorem State.onSlot_chosen {s : State} {sl : Slot} {w : Warp} {r : Regs} (h : s.Chosen sl w r)
    (f : State → Slot → Warp → Regs → Out) : s.onSlot f = f s.taken sl w r := by
  obtain ⟨h1, h2, h3⟩ := h
  cases hi : s.issue with
  | nil => simp [hi] at h1
  | cons a t =>
    simp only [hi, List.head?_cons, Option.some.injEq] at h1
    subst h1
    have h4 : State.warp { s with issue := t } a.w = some w := h2
    cases hs : w.side a.proof with
    | none => simp [hs] at h3
    | some r0 =>
      simp only [hs, Option.map_some, Option.some.injEq] at h3
      simp [State.onSlot, hi, h4, hs, h3, State.taken]

/-- An instruction completes on its group: every next state of `finish`. -/
theorem State.finishWith_chosen {s : State} {sl : Slot} {w : Warp} (h : s.warp sl.w = some w) (r' : Regs)
    (e : Warp → Lag) : s.finishWith sl r' e =
      s.setWarp sl.w ((w.follow sl (e w)).setSide sl.proof { r'.setPc sl.grp sl.after with gseq := r'.gseq + 1 }) :=
  State.modWarp_some _ h

end Sys2Proof.Machine
end

