-- ==== Sys2Proof/Laws/Window.lean ====
section
/-! SUPPORT. What translation and reads through a constant window change: held table entries and the device's choices, nothing
else. -/

namespace Sys2Proof.Machine

/-- What a translation or a read through a constant window may change. -/
def State.Cached (s t : State) : Prop := t = { s with tlb := t.tlb, env := t.env }

theorem State.Cached.refl (s : State) : s.Cached s := rfl

theorem State.Cached.trans {s t u : State} (h : s.Cached t) (g : t.Cached u) : s.Cached u := by
  unfold State.Cached at *
  rw [g, h]

/-- The new held entries and choices. -/
theorem State.Cached.eq {s t : State} (h : s.Cached t) : ∃ a b, t = { s with tlb := a, env := b } := ⟨_, _, h⟩

theorem State.Cached.warp {s t : State} (h : s.Cached t) (k : Nat) : t.warp k = s.warp k := by
  rw [h]; rfl

theorem State.pick_cached (s : State) (n : Nat) : s.Cached (s.pick n).2 := by
  unfold State.pick; split
  · rfl
  · split <;> rfl

theorem State.holdLeaf_cached (s : State) (u cap : Nat) (t : TlbEntry) : s.Cached (s.holdLeaf u cap t) := by
  unfold State.holdLeaf
  simp only
  split
  · rfl
  · exact (State.pick_cached s _).trans rfl

/-- What an access leaves held changes nothing else (R342). -/
theorem State.holdFor_cached (s : State) (u c : Nat) (va : DWord) (x : Except NoTrans TlbEntry) : s.Cached (s.holdFor u c va x) := by
  unfold State.holdFor
  simp only
  generalize hs : ({ s with tlb := _ } : State) = s1
  have h1 : s.Cached s1 := by rw [← hs]; rfl
  split
  · exact h1
  · split
    · exact h1
    · split
      · exact (h1.trans (State.holdLeaf_cached ..)).trans (State.holdLeaf_cached ..)
      · exact h1.trans (State.holdLeaf_cached ..)

/-- Translation changes the held entries and consumes choices of the device, nothing else (R341, R342). -/
theorem State.translate_cached (s : State) (u c : Nat) (va : DWord) (n : Need) : s.Cached (s.translate u c va n).2 := by
  unfold State.translate
  split
  · rfl
  · exact (State.pick_cached s _).trans (State.holdFor_cached ..)

theorem State.constBytes_cached (s : State) (slot : Nat) (w : Warp) (p : Place) (va n : Nat) :
    s.Cached (s.constBytes slot w p va n).2 := by
  unfold State.constBytes
  exact State.pick_cached s _

theorem State.constWord_cached (s : State) (slot c : Nat) (va : DWord) : s.Cached (s.constWord slot c va).2 := by
  have h0 := State.translate_cached s (slotQuadId slot) c va .read
  unfold State.constWord
  split
  · rename_i h; rw [h] at h0; exact h0
  · rename_i s1 h; rw [h] at h0
    split
    · exact h0
    · split
      · exact h0
      · simp only
        exact State.Cached.trans (t := s1) h0 (State.constBytes_cached ..)

theorem State.constWords_cached (slot c n : Nat) : ∀ (s : State) (va : DWord), s.Cached (s.constWords slot c va n).2 := by
  induction n with
  | zero => intro s va; rfl
  | succ n ih =>
    intro s va
    have h0 := State.constWord_cached s slot c va
    unfold State.constWords
    split
    · rename_i h; rw [h] at h0; exact h0
    · rename_i s1 h; rw [h] at h0
      have h1 := h0.trans (ih s1 (vaAdd va 4))
      split
      · rename_i h2; rw [h2] at h1; exact h1
      · rename_i h2; rw [h2] at h1; exact h1
    · rename_i s1 h; rw [h] at h0
      have h1 := h0.trans (ih s1 (vaAdd va 4))
      split
      · rename_i h2; rw [h2] at h1; exact h1
      · rename_i h2; rw [h2] at h1; exact h1

theorem State.readWindow_cached (s : State) (slot : Nat) (w : Warp) (win : Option (Nat × Nat × Nat)) :
    s.Cached (s.readWindow slot w win).2 := by
  unfold State.readWindow
  rcases win with _ | ⟨k, off, n⟩
  · rfl
  · simp only
    split
    · rfl
    · have h := State.constWords_cached slot w.ctx n s (vaAdd (w.windows.getD k (0, 0)).1 (4 * off))
      split
      · rename_i h1; rw [h1] at h; exact h
      · rename_i h1; rw [h1] at h; exact h

/-- The window operand of an instruction that can read it. -/
theorem State.Reads.operandWindow {s : State} {sl : Slot} {w : Warp} {act : Mask} {win : Option (Nat × Nat × Nat)} {x : Nat}
    (h : s.Reads sl w act win x) :
    ∃ s2, s.taken.operandWindow sl w act win = (.ok x, s2) ∧ s.taken.Cached s2 := by
  rcases h with ⟨h1, h2⟩ | ⟨h1, s2, h2⟩
  · exact ⟨_, by simp [State.operandWindow, h1, h2], .refl _⟩
  · have h3 := State.readWindow_cached s.taken sl.w w win
    rw [h2] at h3
    exact ⟨s2, by rw [State.operandWindow, if_neg h1, h2]; rfl, h3⟩

end Sys2Proof.Machine
end

