-- ==== Sys2Proof/Laws/Ops.lean ====
section
/-! SUPPORT. The shared operations keep memory canonical: records, commands, the kill of gangs and domains, results, traps,
detected errors. -/

namespace Sys2Proof.Machine

theorem Memory.wf_foldl {α : Type} (f : State → α → State) (hf : ∀ a x, Memory.wf a → Memory.wf (f a x)) {s : State} (l : List α)
    (h : Memory.wf s) : Memory.wf (l.foldl f s) := by
  induction l generalizing s with
  | nil => exact h
  | cons x t ih => exact ih (hf _ _ h)

/-! ### Translation, records (R341, R386) -/

theorem State.Cached.hbm {s t : State} (h : s.Cached t) : t.hbm = s.hbm := by rw [h]

@[simp] theorem State.pick_hbm (s : State) (n : Nat) : (s.pick n).2.hbm = s.hbm := (s.pick_cached n).hbm

@[simp] theorem State.translate_hbm (s : State) (u c : Nat) (va : DWord) (n : Need) : (s.translate u c va n).2.hbm = s.hbm :=
  (s.translate_cached u c va n).hbm

theorem State.readPage_cached (s : State) (u c : Nat) (va : DWord) (n : Nat) : s.Cached (s.readPage u c va n).2 := by
  have h := s.translate_cached u c va .read
  unfold State.readPage
  split
  · exact .refl s
  · split
    · rename_i e; rw [e] at h; exact h
    · rename_i e; rw [e] at h; exact h

theorem State.readGlobal_cached (s : State) (u c : Nat) (va : DWord) (n : Nat) : s.Cached (s.readGlobal u c va n).2 := by
  have h1 := s.readPage_cached u c va (firstPart va n)
  unfold State.readGlobal
  dsimp only
  split
  · rename_i e; rw [e] at h1; exact h1
  · rename_i l s1 e
    rw [e] at h1
    have h2 := h1.trans (s1.readPage_cached u c (vaAdd va (firstPart va n)) (n - firstPart va n))
    split
    · rename_i e2; rw [e2] at h2; exact h2
    · rename_i e2; rw [e2] at h2; exact h2

@[simp] theorem State.readGlobal_hbm (s : State) (u c : Nat) (va : DWord) (n : Nat) : (s.readGlobal u c va n).2.hbm = s.hbm :=
  (s.readGlobal_cached u c va n).hbm

theorem Memory.wf_writeGlobal {s : State} (u c : Nat) (va : DWord) (l : List Byte) (h : Memory.wf s) :
    Memory.wf (s.writeGlobal u c va l).2 := by
  have := State.translate_hbm s u c va .write
  unfold State.writeGlobal
  split
  · rename_i e; rw [e] at this; exact Memory.wf_of_hbm this h
  · rename_i e; rw [e] at this
    split
    · exact Memory.wf_of_hbm this h
    · exact Memory.wf_writeBytes _ _ (Memory.wf_of_hbm this h)

@[simp] theorem State.toManagement_hbm (s : State) (e : Errata) : (s.toManagement e).hbm = s.hbm := rfl
@[simp] theorem State.setLost_hbm (s : State) (c : Nat) (b : Bool) : (s.setLost c b).hbm = s.hbm := rfl

theorem Memory.wf_tryPost {s t : State} (c : Nat) (e : Errata) (h : Memory.wf s) (ht : s.tryPost c e = some t) : Memory.wf t := by
  have write {a b : State} {o : Wrote} (u c : Nat) (va : DWord) (l : List Byte) (ha : Memory.wf a)
      (hb : a.writeGlobal u c va l = (o, b)) : Memory.wf b := by
    have := Memory.wf_writeGlobal u c va l ha
    rw [hb] at this; exact this
  unfold State.tryPost at ht
  dsimp only at ht
  split at ht
  · cases ht; exact h
  · have hr := s.readGlobal_hbm (dieUnit 0) c (s.context c).errq 64
    split at ht
    · rename_i e1; rw [e1] at hr; cases ht; exact Memory.wf_of_hbm (s := s) hr h
    · rename_i e1; rw [e1] at hr
      have h1 := Memory.wf_of_hbm (s := s) hr h
      split at ht
      · cases ht; exact h1
      · split at ht
        · split at ht
          · cases ht
          · rename_i e2; cases ht; have h2 := write _ _ _ _ h1 e2; exact h2
          · rename_i e2
            have h2 := write _ _ _ _ h1 e2
            split at ht
            · cases ht
            · rename_i e3; cases ht; have h3 := write _ _ _ _ h2 e3; exact h3
            · rename_i e3; cases ht; have h3 := write _ _ _ _ h2 e3; exact h3
        · split at ht
          · cases ht
          · rename_i e2; cases ht; have h2 := write _ _ _ _ h1 e2; exact h2
          · rename_i e2; cases ht; have h2 := write _ _ _ _ h1 e2; exact h2

theorem Memory.wf_postTo {s : State} (c : Nat) (e : Errata) (h : Memory.wf s) : Memory.wf (s.postTo c e) := by
  unfold State.postTo
  split
  · rename_i t ht
    split at ht
    · cases ht
    · exact Memory.wf_tryPost c e h ht
  · exact h

/-- Posting a record writes at most the record and the header of a queue. -/
theorem Memory.wf_post {s : State} (e : Errata) (h : Memory.wf s) : Memory.wf (s.post e) := by
  unfold State.post
  split
  · exact Memory.wf_foldl _ (fun a c ha => Memory.wf_postTo _ _ ha) _ h
  · exact Memory.wf_postTo _ _ h

@[simp] theorem State.reliabilityWords_hbm (s : State) : s.reliabilityWords.2.2.hbm = s.hbm := rfl

/-! ### Commands, gangs, domains (R243, R266, R407) -/

theorem Memory.wf_writeCompletion {s t : State} (c : Cmd) (x : Nat) (h : Memory.wf s) (ht : s.writeCompletion c x = some t) :
    Memory.wf t := by
  unfold State.writeCompletion at ht
  split at ht
  · cases ht; exact h
  · rename_i a _
    have := Memory.wf_writeGlobal c.mmu c.ctx a (leBytes x 8 ++ leBytes s.time 8) h
    split at ht
    · rename_i e; rw [e] at this; cases ht; exact this
    · cases ht
    · rename_i e; rw [e] at this; cases ht; exact Memory.wf_post _ this
    · rename_i e; rw [e] at this; cases ht; exact Memory.wf_post _ this

@[simp] theorem State.modQueue_hbm (s : State) (q : Nat) (f : Queue → Queue) : (s.modQueue q f).hbm = s.hbm := by
  unfold State.modQueue; split <;> rfl
@[simp] theorem State.modWork_hbm (s : State) (k : Nat) (f : Work → Work) : (s.modWork k f).hbm = s.hbm := rfl
@[simp] theorem State.haltQueue_hbm (s : State) (q c : Nat) : (s.haltQueue q c).hbm = s.hbm := State.modQueue_hbm _ _ _

theorem Memory.wf_performLane {s : State} (f : Nat) (o : MemOp) (l : Nat) (h : Memory.wf s) : Memory.wf (s.performLane f o l) := by
  refine Memory.wf_foldl _ (fun a p ha => ?_) _ h
  split
  · exact Memory.wf_perform _ _ _ ha
  · exact ha

theorem Memory.wf_settleKilled {s : State} (f : Nat) (o : MemOp) (h : Memory.wf s) : Memory.wf (s.settleKilled f o) := by
  unfold State.settleKilled
  split
  all_goals first
    | exact h
    | refine Memory.wf_foldl _ (fun a l ha => ?_) _ h
      have h1 : Memory.wf (a.pick 2).2 := Memory.wf_of_hbm (a.pick_hbm 2) ha
      dsimp only
      split
      · exact Memory.wf_performLane _ _ _ ha
      · split
        · exact Memory.wf_performLane _ _ _ h1
        · exact h1

theorem Memory.wf_settleAll {s : State} (k : Nat) (l : List MemOp) (h : Memory.wf s) : Memory.wf (s.settleAll k l) :=
  Memory.wf_foldl _ (fun _ _ ha => Memory.wf_settleKilled _ _ ha) _ h

theorem Memory.wf_landStore {s : State} (x : Readable) (h : Memory.wf s) : Memory.wf (s.landStore x) := by
  unfold State.landStore
  split
  · exact h
  · exact Memory.wf_of_hbm (State.modWarp_hbm _ _ _) (Memory.wf_perform _ _ _ h)

theorem Memory.wf_landReadables {s : State} (l : List (Nat × Warp)) (h : Memory.wf s) : Memory.wf (s.landReadables l) := by
  unfold State.landReadables
  split
  · exact Memory.wf_foldl _ (fun _ _ ha => Memory.wf_landStore _ ha) _ h
  · exact h

theorem Memory.wf_discardGang {s : State} (g : Nat) (h : Memory.wf s) : Memory.wf (s.discardGang g) := by
  unfold State.discardGang
  dsimp only
  refine Memory.wf_of_hbm rfl (Memory.wf_foldl (fun a (x : Nat × Warp) => a.dropWarp x.1) (fun a x ha => ha) _ ?_)
  exact Memory.wf_foldl _ (fun a x ha => Memory.wf_settleAll _ _ ha) _ (Memory.wf_landReadables _ h)

theorem Memory.wf_killDomain {s : State} (d : Nat) (h : Memory.wf s) : Memory.wf (s.killDomain d) := by
  unfold State.killDomain
  dsimp only
  refine Memory.wf_foldl (fun a (w : Work) => a.haltQueue w.queue 0xE0)
    (fun a x ha => Memory.wf_of_hbm (State.haltQueue_hbm _ _ _) ha) _ ?_
  exact Memory.wf_foldl _ (fun a x ha => Memory.wf_discardGang _ ha) _ h

/-- The kill of a gang settles its accesses and posts a record. -/
theorem Memory.wf_killGang {s : State} (g : Nat) (e : Errata) (h : Memory.wf s) : Memory.wf (s.killGang g e) := by
  unfold State.killGang
  split
  · exact h
  · dsimp only
    split
    · exact Memory.wf_post _ (Memory.wf_discardGang _ h)
    · exact Memory.wf_killDomain _ (Memory.wf_post _ (Memory.wf_discardGang _ h))

/-! ### Results and traps (R93, R372) -/

theorem Memory.wf_queueAsync {s : State} (k : Nat) (e : AsyncErr) (h : Memory.wf s) : Memory.wf (s.queueAsync k e) := by
  unfold State.queueAsync
  split
  · exact h
  · split
    · split
      · exact Memory.wf_killGang _ _ h
      · exact Memory.wf_post _ h
    · exact h

theorem Memory.wf_writeResult {s : State} (k : Nat) (x : Result) (h : Memory.wf s) : Memory.wf (s.writeResult k x) := by
  unfold State.writeResult
  split
  · exact h
  · dsimp only
    split
    · exact h
    · split
      · exact h
      · split
        · exact h
        · exact Memory.wf_queueAsync _ _ h

theorem Memory.wf_flushResults {s : State} (k : Nat) (h : Memory.wf s) : Memory.wf (s.flushResults k) := by
  unfold State.flushResults
  split
  · exact h
  · exact Memory.wf_foldl _ (fun a x ha => Memory.wf_writeResult _ _ ha) _ h

theorem Memory.wf_enterHandler {s : State} (k : Nat) (t : TrapInfo) (h : Memory.wf s) : Memory.wf (s.enterHandler k t) := by
  unfold State.enterHandler
  dsimp only
  split
  · exact Memory.wf_flushResults _ h
  · exact Memory.wf_post _ (Memory.wf_flushResults _ h)

/-- A trap, the kill that takes its place, or nothing. -/
theorem Memory.wf_takeTrap {s : State} (k : Nat) (t : TrapInfo) (h : Memory.wf s) : Memory.wf (s.takeTrap k t) := by
  unfold State.takeTrap
  split
  · exact h
  · split
    · exact Memory.wf_killGang _ _ h
    · split
      · exact h
      · split
        · exact Memory.wf_killGang _ _ h
        · exact Memory.wf_enterHandler _ _ h

theorem Memory.wf_raiseAt {s : State} (sl : Slot) (m : Mask) (f : SyncFault) (r : DWord) (x : List Replay) (h : Memory.wf s) :
    Memory.wf (s.raiseAt sl m f r x) := Memory.wf_takeTrap _ _ h

theorem Memory.wf_raise {s : State} (sl : Slot) (m : Mask) (f : SyncFault) (h : Memory.wf s) : Memory.wf (s.raise sl m f) :=
  Memory.wf_raiseAt _ _ _ _ _ h

/-! ### Detected errors (R375, R401) -/

theorem Memory.wf_detect {s : State} (k : Nat) (e : AsyncErr) (h : Memory.wf s) : Memory.wf (s.detect k e) := by
  unfold State.detect
  split
  · exact h
  · split
    · exact Memory.wf_queueAsync _ _ h
    · split
      · exact h
      · exact Memory.wf_queueAsync _ _ h

theorem Memory.wf_detectFor {s : State} (k c : Nat) (pc : DWord) (g : Nat) (m : Mask) (a : DWord) (u l : Nat) (h : Memory.wf s) :
    Memory.wf (s.detectFor k c pc g m a u l) := Memory.wf_detect _ _ h

theorem Memory.wf_deliverDetected {s : State} (k : Nat) (h : Memory.wf s) : Memory.wf (s.deliverDetected k) := by
  unfold State.deliverDetected
  split
  · exact h
  · split
    · exact h
    · dsimp only
      split
      · exact Memory.wf_killGang _ _ (Memory.wf_foldl _ (fun a x ha => Memory.wf_post _ ha) _ h)
      · split
        · exact h
        · split
          · exact Memory.wf_flushResults _ h
          · exact Memory.wf_foldl _ (fun a x ha => Memory.wf_post _ ha) _ (Memory.wf_flushResults _ h)

theorem Memory.wf_takeQueued {s : State} (k : Nat) (x : List Replay) (h : Memory.wf s) : Memory.wf (s.takeQueued k x) := by
  unfold State.takeQueued
  split
  · exact h
  · split
    · exact h
    · split
      · exact h
      · split
        · exact Memory.wf_deliverDetected _ h
        · split
          · exact Memory.wf_deliverDetected _ (Memory.wf_of_hbm (State.modWarp_hbm _ _ _) h)
          · exact Memory.wf_takeTrap _ _ (Memory.wf_of_hbm (State.modWarp_hbm _ _ _) h)

/-! ### The end of an instruction -/

@[simp] theorem State.finishWith_hbm (s : State) (sl : Slot) (r : Regs) (e : Warp → Lag) : (s.finishWith sl r e).hbm = s.hbm :=
  State.modWarp_hbm _ _ _
@[simp] theorem State.finish_hbm (s : State) (sl : Slot) (r : Regs) : (s.finish sl r).hbm = s.hbm := State.modWarp_hbm _ _ _
@[simp] theorem State.holdAt_hbm (s : State) (sl : Slot) (r : Regs) (m : Mask) (k : WaitKind) : (s.holdAt sl r m k).hbm = s.hbm :=
  State.modWarp_hbm _ _ _

end Sys2Proof.Machine
end

