-- ==== Sys2Proof/Laws/PerInstr.lean ====
section
/-! SUPPORT. One lemma per instruction about its encoding. -/

namespace Sys2Proof.Laws.Encoding

/-- The fields that every form has keep their ranges: two to four words, an opcode of eight bits, a guard (R26, R28, R31). -/
def Head (r : Raw) : Prop := (2 ≤ r.len ∧ r.len ≤ 4) ∧ r.op < 256 ∧ r.g < 8 ∧ r.gn < 2 ∧ r.nw < 2

/-- An instruction of the stream has such fields; a step of another agent has none. -/
def Statement (i : Instr) : Prop := ∀ r, i.toRaw = some r → Head r

theorem head_enc64 {op : Nat} (h : op < 256) (g : Guard) (sub m d a b c : Nat) : Head (enc64 op g sub m d a b c) := by
  refine ⟨⟨Nat.le_refl 2, by show 2 ≤ 4; decide⟩, h, g.p.isLt, ?_, Nat.two_pos⟩
  show g.neg.toNat < 2
  cases g.neg <;> decide

theorem head_enc128 {op : Nat} (h : op < 256) (g : Guard) (sub m d a b c x : Nat) : Head (enc128 op g sub m d a b c x) :=
  ⟨⟨by show 2 ≤ 4; decide, Nat.le_refl 4⟩, (head_enc64 h g sub m d a b c).2⟩

theorem head_encLong {op : Nat} (h : op < 256) (l : Bool) (g : Guard) (sub m d a b c x : Nat) :
    Head (encLong l op g sub m d a b c x) := by
  unfold encLong
  split
  · exact head_enc128 h ..
  · exact head_enc64 h ..

theorem head_withSrcs {r : Raw} (h : Head r) (l : List Src) : Head (r.withSrcs l) := by
  unfold Raw.withSrcs
  split
  · exact ⟨⟨by show 2 ≤ 3; decide, by show 3 ≤ 4; decide⟩, h.2⟩
  · exact h

theorem head_withDst {r : Raw} (h : Head r) (d : Dst) : Head (r.withDst d) := by
  refine ⟨h.1, h.2.1, h.2.2.1, h.2.2.2.1, ?_⟩
  show d.nwBit < 2
  cases d <;> simp [Dst.nwBit]

theorem head_enc1 {op : Nat} (h : op < 256) (sub m : Nat) (g : Guard) (d : Dst) (a : Src) : Head (enc1 op sub m g d a) :=
  head_withSrcs (head_withDst (head_enc64 h ..) d) _
theorem head_enc2 {op : Nat} (h : op < 256) (sub m : Nat) (g : Guard) (d : Dst) (a b : Src) (c : Nat) :
    Head (enc2 op sub m g d a b c) := head_withSrcs (head_withDst (head_enc64 h ..) d) _
theorem head_enc3 {op : Nat} (h : op < 256) (sub m : Nat) (g : Guard) (d : Dst) (a b c : Src) :
    Head (enc3 op sub m g d a b c) := head_withSrcs (head_withDst (head_enc64 h ..) d) _

theorem head_encMem {op : Nat} (h : op < 256) (sub2 : Nat) (g : Guard) (m d a b : Nat) (x : Ext) :
    Head (encMem op sub2 g m d a b x) := by
  unfold encMem
  split
  · exact head_enc128 h ..
  · exact head_enc64 h ..

theorem issueOpportunity (q : Nat) : Statement (.issueOpportunity q) := by
  intro _ h; cases h
theorem add (i : Op2 IntM) : Statement (.add i) := by
  intro _ h; cases h; exact head_enc2 (by decide) ..
theorem sub (i : Op2 IntM) : Statement (.sub i) := by
  intro _ h; cases h; exact head_enc2 (by decide) ..
theorem addc (i : CarryI) : Statement (.addc i) := by
  intro _ h; cases h; exact head_enc2 (by decide) ..
theorem subb (i : CarryI) : Statement (.subb i) := by
  intro _ h; cases h; exact head_enc2 (by decide) ..
theorem mul (i : Op2 IntM) : Statement (.mul i) := by
  intro _ h; cases h; exact head_enc2 (by decide) ..
theorem mulhi (i : Op2 Ty) : Statement (.mulhi i) := by
  intro _ h; cases h; exact head_enc2 (by decide) ..
theorem mad (i : Op3 IntM) : Statement (.mad i) := by
  intro _ h; cases h; exact head_enc3 (by decide) ..
theorem madhi (i : Op3 Ty) : Statement (.madhi i) := by
  intro _ h; cases h; exact head_enc3 (by decide) ..
theorem mulwd (i : Op2 Ty) : Statement (.mulwd i) := by
  intro _ h; cases h; exact head_enc2 (by decide) ..
theorem div (i : Op2 Ty) : Statement (.div i) := by
  intro _ h; cases h; exact head_enc2 (by decide) ..
theorem rem (i : Op2 Ty) : Statement (.rem i) := by
  intro _ h; cases h; exact head_enc2 (by decide) ..
theorem abs (i : Op1 IntM) : Statement (.abs i) := by
  intro _ h; cases h; exact head_enc1 (by decide) ..
theorem neg (i : Op1 IntM) : Statement (.neg i) := by
  intro _ h; cases h; exact head_enc1 (by decide) ..
theorem min (i : Op2 Ty) : Statement (.min i) := by
  intro _ h; cases h; exact head_enc2 (by decide) ..
theorem max (i : Op2 Ty) : Statement (.max i) := by
  intro _ h; cases h; exact head_enc2 (by decide) ..
theorem sad (i : Op3 Ty) : Statement (.sad i) := by
  intro _ h; cases h; exact head_enc3 (by decide) ..
theorem add3 (i : Op3 IntM) : Statement (.add3 i) := by
  intro _ h; cases h; exact head_enc3 (by decide) ..
theorem clamp (i : Op3 Ty) : Statement (.clamp i) := by
  intro _ h; cases h; exact head_enc3 (by decide) ..
theorem and (i : Op2 Ty) : Statement (.and i) := by
  intro _ h; cases h; exact head_enc2 (by decide) ..
theorem or (i : Op2 Ty) : Statement (.or i) := by
  intro _ h; cases h; exact head_enc2 (by decide) ..
theorem xor (i : Op2 Ty) : Statement (.xor i) := by
  intro _ h; cases h; exact head_enc2 (by decide) ..
theorem not (i : Op1 Ty) : Statement (.not i) := by
  intro _ h; cases h; exact head_enc1 (by decide) ..
theorem andn (i : Op2 Ty) : Statement (.andn i) := by
  intro _ h; cases h; exact head_enc2 (by decide) ..
theorem bfn (i : Op3 (BitVec 8)) : Statement (.bfn i) := by
  intro _ h; cases h; exact head_enc3 (by decide) ..
theorem shl (i : Op2 Ty) : Statement (.shl i) := by
  intro _ h; cases h; exact head_enc2 (by decide) ..
theorem shr (i : Op2 Ty) : Statement (.shr i) := by
  intro _ h; cases h; exact head_enc2 (by decide) ..
theorem shrA (i : Op2 Ty) : Statement (.shrA i) := by
  intro _ h; cases h; exact head_enc2 (by decide) ..
theorem rot (i : Op2 Ty) : Statement (.rot i) := by
  intro _ h; cases h; exact head_enc2 (by decide) ..
theorem shf (i : Op3 ShfM) : Statement (.shf i) := by
  intro _ h; cases h; exact head_enc3 (by decide) ..
theorem bfx (i : Op2 Ty) : Statement (.bfx i) := by
  intro _ h; cases h; exact head_enc2 (by decide) ..
theorem bfi (i : Op3 Ty) : Statement (.bfi i) := by
  intro _ h; cases h; exact head_enc3 (by decide) ..
theorem popc (i : Op1 Ty) : Statement (.popc i) := by
  intro _ h; cases h; exact head_enc1 (by decide) ..
theorem clz (i : Op1 Ty) : Statement (.clz i) := by
  intro _ h; cases h; exact head_enc1 (by decide) ..
theorem ctz (i : Op1 Ty) : Statement (.ctz i) := by
  intro _ h; cases h; exact head_enc1 (by decide) ..
theorem brev (i : Op1 Ty) : Statement (.brev i) := by
  intro _ h; cases h; exact head_enc1 (by decide) ..
theorem bsel (i : Op3 Unit) : Statement (.bsel i) := by
  intro _ h; cases h; exact head_enc3 (by decide) ..
theorem setp (i : SetpI) : Statement (.setp i) := by
  intro _ h; cases h; exact head_withSrcs (head_enc64 (by decide) ..) _
theorem sel (i : SelI) : Statement (.sel i) := by
  intro _ h; cases h; exact head_enc2 (by decide) ..
theorem pfn (i : PfnI) : Statement (.pfn i) := by
  intro _ h; cases h; exact head_enc64 (by decide) ..
theorem mov (i : Op1 Ty) : Statement (.mov i) := by
  intro _ h; cases h; exact head_enc1 (by decide) ..
theorem movp (i : MovpI) : Statement (.movp i) := by
  intro _ h; cases h; exact head_withDst (head_enc64 (by decide) ..) _
theorem movpTo (i : MovpToI) : Statement (.movpTo i) := by
  intro _ h; cases h; exact head_withSrcs (head_enc64 (by decide) ..) _
theorem sethi20 (i : SethiI) : Statement (.sethi20 i) := by
  intro _ h; cases h; exact head_enc64 (by decide) ..
theorem sethi20Pc (i : SethiI) : Statement (.sethi20Pc i) := by
  intro _ h; cases h; exact head_enc64 (by decide) ..
theorem lea (i : Op3 LeaM) : Statement (.lea i) := by
  intro _ h; cases h; exact head_enc3 (by decide) ..
theorem idot4 (i : Op3 DotM) : Statement (.idot4 i) := by
  intro _ h; cases h; exact head_enc3 (by decide) ..
theorem idot2 (i : Op3 DotM) : Statement (.idot2 i) := by
  intro _ h; cases h; exact head_enc3 (by decide) ..
theorem tacc (i : Op3 DotM) : Statement (.tacc i) := by
  intro _ h; cases h; exact head_enc3 (by decide) ..
theorem fadd (i : Op2 FM) : Statement (.fadd i) := by
  intro _ h; cases h; exact head_enc2 (by decide) ..
theorem fsub (i : Op2 FM) : Statement (.fsub i) := by
  intro _ h; cases h; exact head_enc2 (by decide) ..
theorem fmul (i : Op2 FM) : Statement (.fmul i) := by
  intro _ h; cases h; exact head_enc2 (by decide) ..
theorem fma (i : Op3 FM) : Statement (.fma i) := by
  intro _ h; cases h; exact head_enc3 (by decide) ..
theorem fdot2 (i : Op3 FM) : Statement (.fdot2 i) := by
  intro _ h; cases h; exact head_enc3 (by decide) ..
theorem fscale (i : Op2 FM) : Statement (.fscale i) := by
  intro _ h; cases h; exact head_enc2 (by decide) ..
theorem fmin (i : Op2 FM) : Statement (.fmin i) := by
  intro _ h; cases h; exact head_enc2 (by decide) ..
theorem fmax (i : Op2 FM) : Statement (.fmax i) := by
  intro _ h; cases h; exact head_enc2 (by decide) ..
theorem fclamp (i : Op3 FM) : Statement (.fclamp i) := by
  intro _ h; cases h; exact head_enc3 (by decide) ..
theorem fsetp (i : FsetpI) : Statement (.fsetp i) := by
  intro _ h; cases h; exact head_withSrcs (head_enc64 (by decide) ..) _
theorem fclass (i : FclassI) : Statement (.fclass i) := by
  intro _ h; cases h; exact head_withSrcs (head_enc64 (by decide) ..) _
theorem frnd (i : Op1 FM) : Statement (.frnd i) := by
  intro _ h; cases h; exact head_enc1 (by decide) ..
theorem fexpo (i : Op1 FM) : Statement (.fexpo i) := by
  intro _ h; cases h; exact head_enc1 (by decide) ..
theorem fmant (i : Op1 FM) : Statement (.fmant i) := by
  intro _ h; cases h; exact head_enc1 (by decide) ..
theorem fdiv (i : Op2 FM) : Statement (.fdiv i) := by
  intro _ h; cases h; exact head_enc2 (by decide) ..
theorem fsqrt (i : Op1 FM) : Statement (.fsqrt i) := by
  intro _ h; cases h; exact head_enc1 (by decide) ..
theorem frcp (i : Op1 FM) : Statement (.frcp i) := by
  intro _ h; cases h; exact head_enc1 (by decide) ..
theorem frsq (i : Op1 FM) : Statement (.frsq i) := by
  intro _ h; cases h; exact head_enc1 (by decide) ..
theorem fex2 (i : Op1 FM) : Statement (.fex2 i) := by
  intro _ h; cases h; exact head_enc1 (by decide) ..
theorem flg2 (i : Op1 FM) : Statement (.flg2 i) := by
  intro _ h; cases h; exact head_enc1 (by decide) ..
theorem fsin (i : Op1 FM) : Statement (.fsin i) := by
  intro _ h; cases h; exact head_enc1 (by decide) ..
theorem fcos (i : Op1 FM) : Statement (.fcos i) := by
  intro _ h; cases h; exact head_enc1 (by decide) ..
theorem ftanh (i : Op1 FM) : Statement (.ftanh i) := by
  intro _ h; cases h; exact head_enc1 (by decide) ..
theorem faddE (i : Op2 XT) : Statement (.faddE i) := by
  intro _ h; cases h; exact head_enc2 (by decide) ..
theorem fmulE (i : Op2 XT) : Statement (.fmulE i) := by
  intro _ h; cases h; exact head_enc2 (by decide) ..
theorem fmaE (i : Op3 XT) : Statement (.fmaE i) := by
  intro _ h; cases h; exact head_enc3 (by decide) ..
theorem xren (i : XrenI) : Statement (.xren i) := by
  intro _ h; cases h; exact head_enc64 (by decide) ..
theorem xcmpr (i : XcmprI) : Statement (.xcmpr i) := by
  intro _ h; cases h; exact head_enc64 (by decide) ..
theorem xcmp (i : XcmpI) : Statement (.xcmp i) := by
  intro _ h; cases h; exact head_enc64 (by decide) ..
theorem xadd (i : XaddI) : Statement (.xadd i) := by
  intro _ h; cases h; exact head_withSrcs (head_enc64 (by decide) ..) _
theorem xmulW (i : XmulI) : Statement (.xmulW i) := by
  intro _ h; cases h; exact head_withSrcs (head_enc64 (by decide) ..) _
theorem cvt (i : Op1 CvtM) : Statement (.cvt i) := by
  intro _ h; cases h; exact head_withSrcs (head_withDst (head_enc64 (by decide) ..) _) _
theorem cvtN (i : CvtNI) : Statement (.cvtN i) := by
  intro r h
  simp only [Instr.toRaw, Option.some.injEq] at h
  subst h
  split
  all_goals first
    | exact head_enc1 (by decide) ..
    | exact head_enc2 (by decide) ..
    | exact head_enc3 (by decide) ..
    | exact head_enc64 (by decide) ..
    | exact head_withSrcs (head_withDst (head_enc64 (by decide) ..) _) _
    | exact head_withSrcs (head_enc64 (by decide) ..) _
theorem cvtSr (i : CvtSrI) : Statement (.cvtSr i) := by
  intro r h
  simp only [Instr.toRaw, Option.some.injEq] at h
  subst h
  split
  all_goals first
    | exact head_enc1 (by decide) ..
    | exact head_enc2 (by decide) ..
    | exact head_enc3 (by decide) ..
    | exact head_enc64 (by decide) ..
    | exact head_withSrcs (head_withDst (head_enc64 (by decide) ..) _) _
    | exact head_withSrcs (head_enc64 (by decide) ..) _
theorem cvtBlkDecode (i : CvtBlkDecI) : Statement (.cvtBlkDecode i) := by
  intro _ h; cases h; exact head_enc64 (by decide) ..
theorem cvtBlkEncode (i : CvtBlkEncI) : Statement (.cvtBlkEncode i) := by
  intro _ h; cases h; exact head_withDst (head_enc64 (by decide) ..) _
theorem cvtX2 (i : CvtX2I) : Statement (.cvtX2 i) := by
  intro r h
  simp only [Instr.toRaw, Option.some.injEq] at h
  subst h
  split
  all_goals first
    | exact head_enc1 (by decide) ..
    | exact head_enc2 (by decide) ..
    | exact head_enc3 (by decide) ..
    | exact head_enc64 (by decide) ..
    | exact head_withSrcs (head_withDst (head_enc64 (by decide) ..) _) _
    | exact head_withSrcs (head_enc64 (by decide) ..) _
theorem unpkT3 (i : UnpkI) : Statement (.unpkT3 i) := by
  intro _ h; cases h; exact head_enc64 (by decide) ..
theorem pack (i : Op2 PackP) : Statement (.pack i) := by
  intro _ h; cases h; exact head_enc2 (by decide) ..
theorem unpack (i : Op1 UnpackP) : Statement (.unpack i) := by
  intro _ h; cases h; exact head_enc1 (by decide) ..
theorem xlane (i : XlaneI) : Statement (.xlane i) := by
  intro _ h; cases h; exact head_withSrcs (head_enc64 (by decide) ..) _
theorem nbr (i : NbrI) : Statement (.nbr i) := by
  intro _ h; cases h; exact head_withSrcs (head_enc64 (by decide) ..) _
theorem lvote (i : LvoteI) : Statement (.lvote i) := by
  intro r h
  simp only [Instr.toRaw, Option.some.injEq] at h
  subst h
  split
  all_goals first
    | exact head_enc1 (by decide) ..
    | exact head_enc2 (by decide) ..
    | exact head_enc3 (by decide) ..
    | exact head_enc64 (by decide) ..
    | exact head_withSrcs (head_withDst (head_enc64 (by decide) ..) _) _
    | exact head_withSrcs (head_enc64 (by decide) ..) _
theorem mpopc (i : MpopcI) : Statement (.mpopc i) := by
  intro _ h; cases h; exact head_enc64 (by decide) ..
theorem lmatch (i : LmatchI) : Statement (.lmatch i) := by
  intro r h
  simp only [Instr.toRaw, Option.some.injEq] at h
  subst h
  split
  all_goals first
    | exact head_enc1 (by decide) ..
    | exact head_enc2 (by decide) ..
    | exact head_enc3 (by decide) ..
    | exact head_enc64 (by decide) ..
    | exact head_withSrcs (head_withDst (head_enc64 (by decide) ..) _) _
    | exact head_withSrcs (head_enc64 (by decide) ..) _
theorem stc (i : StcI) : Statement (.stc i) := by
  intro _ h; cases h; exact head_encLong (by decide) ..
theorem ld (i : LoadI) : Statement (.ld i) := by
  intro _ h; cases h; exact head_encMem (by decide) ..
theorem st (i : StoreI) : Statement (.st i) := by
  intro _ h; cases h; exact head_encMem (by decide) ..
theorem lds (i : LoadI) : Statement (.lds i) := by
  intro _ h; cases h; exact head_encMem (by decide) ..
theorem sts (i : StoreI) : Statement (.sts i) := by
  intro _ h; cases h; exact head_encMem (by decide) ..
theorem ldgs (i : LoadI) : Statement (.ldgs i) := by
  intro _ h; cases h; exact head_encMem (by decide) ..
theorem stgs (i : StoreI) : Statement (.stgs i) := by
  intro _ h; cases h; exact head_encMem (by decide) ..
theorem ldk (i : LdkI) : Statement (.ldk i) := by
  intro _ h; cases h; exact head_encMem (by decide) ..
theorem ldl (i : LoadI) : Statement (.ldl i) := by
  intro _ h; cases h; exact head_encMem (by decide) ..
theorem stl (i : StoreI) : Statement (.stl i) := by
  intro _ h; cases h; exact head_encMem (by decide) ..
theorem pref (i : PrefI) : Statement (.pref i) := by
  intro _ h; cases h; exact head_encMem (by decide) ..
theorem bankcfg (i : BankcfgI) : Statement (.bankcfg i) := by
  intro _ h; cases h; exact head_encLong (by decide) ..
theorem bankDrainEnd (w : Nat) : Statement (.bankDrainEnd w) := by
  intro _ h; cases h
theorem fifoPush (i : FifoPushI) : Statement (.fifoPush i) := by
  intro _ h; cases h; exact head_encLong (by decide) ..
theorem fifoPop (i : FifoPopI) : Statement (.fifoPop i) := by
  intro _ h; cases h; exact head_encLong (by decide) ..
theorem atom (i : AtomI) : Statement (.atom i) := by
  intro _ h; cases h; exact head_encMem (by decide) ..
theorem red (i : RedI) : Statement (.red i) := by
  intro _ h; cases h; exact head_encMem (by decide) ..
theorem atoms (i : AtomI) : Statement (.atoms i) := by
  intro _ h; cases h; exact head_encMem (by decide) ..
theorem reds (i : RedI) : Statement (.reds i) := by
  intro _ h; cases h; exact head_encMem (by decide) ..
theorem cas (i : CasI) : Statement (.cas i) := by
  intro _ h; cases h; exact head_encMem (by decide) ..
theorem cass (i : CasI) : Statement (.cass i) := by
  intro _ h; cases h; exact head_encMem (by decide) ..
theorem catom (i : CatomI) : Statement (.catom i) := by
  intro _ h; cases h; exact head_encMem (by decide) ..
theorem atomicPerformed (w op piece : Nat) : Statement (.atomicPerformed w op piece) := by
  intro _ h; cases h
theorem loadDataReturn (w op piece : Nat) : Statement (.loadDataReturn w op piece) := by
  intro _ h; cases h
theorem storePerformed (w op piece : Nat) : Statement (.storePerformed w op piece) := by
  intro _ h; cases h
theorem resultWriteback (w k : Nat) : Statement (.resultWriteback w k) := by
  intro _ h; cases h
theorem fence (i : FenceI) : Statement (.fence i) := by
  intro _ h; cases h; exact head_enc64 (by decide) ..
theorem barInit (i : BarInitI) : Statement (.barInit i) := by
  intro _ h; cases h; exact head_encLong (by decide) ..
theorem barArrive (i : BarArriveI) : Statement (.barArrive i) := by
  intro _ h; cases h; exact head_encLong (by decide) ..
theorem barWait (i : BarWaitI) : Statement (.barWait i) := by
  intro _ h; cases h; exact head_encLong (by decide) ..
theorem barTest (i : BarTestI) : Statement (.barTest i) := by
  intro _ h; cases h; exact head_encLong (by decide) ..
theorem waitc (i : WaitcI) : Statement (.waitc i) := by
  intro _ h; cases h; exact head_enc64 (by decide) ..
theorem signal (i : SignalI) : Statement (.signal i) := by
  intro _ h; cases h; exact head_encLong (by decide) ..
theorem waitsb (i : WaitsbI) : Statement (.waitsb i) := by
  intro _ h; cases h; exact head_enc64 (by decide) ..
theorem pause (i : PauseI) : Statement (.pause i) := by
  intro _ h; cases h; exact head_enc64 (by decide) ..
theorem groupWaitEnd (w lane : Nat) : Statement (.groupWaitEnd w lane) := by
  intro _ h; cases h
theorem bra (i : BraI) : Statement (.bra i) := by
  intro _ h; cases h; exact head_enc64 (by decide) ..
theorem brx (i : JumpI) : Statement (.brx i) := by
  intro _ h; cases h; exact head_enc64 (by decide) ..
theorem call (i : CallI) : Statement (.call i) := by
  intro _ h; cases h; exact head_enc64 (by decide) ..
theorem callx (i : CallxI) : Statement (.callx i) := by
  intro _ h; cases h; exact head_enc64 (by decide) ..
theorem ret (i : JumpI) : Statement (.ret i) := by
  intro _ h; cases h; exact head_enc64 (by decide) ..
theorem exit (i : PlainI) : Statement (.exit i) := by
  intro _ h; cases h; exact head_enc64 (by decide) ..
theorem jopen (i : JopenI) : Statement (.jopen i) := by
  intro _ h; cases h; exact head_enc64 (by decide) ..
theorem jenter (i : JsetI) : Statement (.jenter i) := by
  intro _ h; cases h; exact head_enc64 (by decide) ..
theorem jquit (i : JsetI) : Statement (.jquit i) := by
  intro _ h; cases h; exact head_enc64 (by decide) ..
theorem jwait (i : JsetI) : Statement (.jwait i) := by
  intro _ h; cases h; exact head_enc64 (by decide) ..
theorem jfree (i : JsetI) : Statement (.jfree i) := by
  intro _ h; cases h; exact head_enc64 (by decide) ..
theorem jsave (i : JmemI) : Statement (.jsave i) := by
  intro _ h; cases h; exact head_enc64 (by decide) ..
theorem jload (i : JmemI) : Statement (.jload i) := by
  intro _ h; cases h; exact head_enc64 (by decide) ..
theorem mma (i : MmaI) : Statement (.mma i) := by
  intro _ h; cases h; exact head_enc128 (by decide) ..
theorem mmaRes (i : MmaResI) : Statement (.mmaRes i) := by
  intro _ h; cases h; exact head_enc128 (by decide) ..
theorem accZero (i : AccZeroI) : Statement (.accZero i) := by
  intro _ h; cases h; exact head_enc128 (by decide) ..
theorem accRd (i : AccRdI) : Statement (.accRd i) := by
  intro _ h; cases h; exact head_enc128 (by decide) ..
theorem accWr (i : AccWrI) : Statement (.accWr i) := by
  intro _ h; cases h; exact head_enc128 (by decide) ..
theorem accLd (i : AccLdI) : Statement (.accLd i) := by
  intro _ h; cases h; exact head_enc128 (by decide) ..
theorem accSt (i : AccStI) : Statement (.accSt i) := by
  intro _ h; cases h; exact head_enc128 (by decide) ..
theorem platenStep (q : Nat) : Statement (.platenStep q) := by
  intro _ h; cases h
theorem cpy (i : CpyI) : Statement (.cpy i) := by
  intro _ h; cases h; exact head_enc128 (by decide) ..
theorem cpyRed (i : CpyRedI) : Statement (.cpyRed i) := by
  intro _ h; cases h; exact head_enc128 (by decide) ..
theorem cpySig (i : CpySigI) : Statement (.cpySig i) := by
  intro _ h; cases h; exact head_enc128 (by decide) ..
theorem impStart (i : ImpI) : Statement (.impStart i) := by
  intro _ h; cases h; exact head_enc128 (by decide) ..
theorem feederChunk (f : Nat) : Statement (.feederChunk f) := by
  intro _ h; cases h
theorem stepSend (cmd : Nat) : Statement (.stepSend cmd) := by
  intro _ h; cases h
theorem stepRecv (cmd : Nat) : Statement (.stepRecv cmd) := by
  intro _ h; cases h
theorem stepRrs (cmd : Nat) : Statement (.stepRrs cmd) := by
  intro _ h; cases h
theorem stepRrc (cmd : Nat) : Statement (.stepRrc cmd) := by
  intro _ h; cases h
theorem stepCopy (cmd : Nat) : Statement (.stepCopy cmd) := by
  intro _ h; cases h
theorem stepWait (cmd : Nat) : Statement (.stepWait cmd) := by
  intro _ h; cases h
theorem stepSignal (cmd : Nat) : Statement (.stepSignal cmd) := by
  intro _ h; cases h
theorem stepLoop (cmd : Nat) : Statement (.stepLoop cmd) := by
  intro _ h; cases h
theorem stepEndloop (cmd : Nat) : Statement (.stepEndloop cmd) := by
  intro _ h; cases h
theorem credit (port : Nat) (src : Sender) (m : List Byte) : Statement (.credit port src m) := by
  intro _ h; cases h
theorem chunk (port : Nat) (src : Sender) (m : ImmWrite) : Statement (.chunk port src m) := by
  intro _ h; cases h
theorem abort (port : Nat) (src : Sender) (m : List Byte) : Statement (.abort port src m) := by
  intro _ h; cases h
theorem transferTimeout (cmd : Nat) : Statement (.transferTimeout cmd) := by
  intro _ h; cases h
theorem rgnBegin (i : RgnBeginI) : Statement (.rgnBegin i) := by
  intro _ h; cases h; exact head_enc128 (by decide) ..
theorem rgnKeep (i : RgnKeepI) : Statement (.rgnKeep i) := by
  intro _ h; cases h; exact head_enc128 (by decide) ..
theorem rgnEnd (i : PlainI) : Statement (.rgnEnd i) := by
  intro _ h; cases h; exact head_enc64 (by decide) ..
theorem rgnAbort (i : TrapI) : Statement (.rgnAbort i) := by
  intro _ h; cases h; exact head_enc64 (by decide) ..
theorem rgnStatus (i : RgnStatusI) : Statement (.rgnStatus i) := by
  intro _ h; cases h; exact head_enc64 (by decide) ..
theorem errpPost (i : ErrpPostI) : Statement (.errpPost i) := by
  intro _ h; cases h; exact head_encLong (by decide) ..
theorem errpVec (i : ErrpSetI) : Statement (.errpVec i) := by
  intro _ h; cases h; exact head_encLong (by decide) ..
theorem errpMask (i : ErrpSetI) : Statement (.errpMask i) := by
  intro _ h; cases h; exact head_encLong (by decide) ..
theorem csrr (i : CsrrI) : Statement (.csrr i) := by
  intro _ h; cases h; exact head_enc64 (by decide) ..
theorem csrw (i : CsrwI) : Statement (.csrw i) := by
  intro _ h; cases h; exact head_withSrcs (head_enc64 (by decide) ..) _
theorem trap (i : TrapI) : Statement (.trap i) := by
  intro _ h; cases h; exact head_enc64 (by decide) ..
theorem tret (i : PlainI) : Statement (.tret i) := by
  intro _ h; cases h; exact head_enc64 (by decide) ..
theorem migr (i : MigrI) : Statement (.migr i) := by
  intro _ h; cases h; exact head_enc64 (by decide) ..
theorem migrHome (i : PlainI) : Statement (.migrHome i) := by
  intro _ h; cases h; exact head_enc64 (by decide) ..
theorem migrationDeparture (w : Nat) : Statement (.migrationDeparture w) := by
  intro _ h; cases h
theorem migrationArrival (w slot : Nat) : Statement (.migrationArrival w slot) := by
  intro _ h; cases h
theorem nop (i : PlainI) : Statement (.nop i) := by
  intro _ h; cases h; exact head_enc64 (by decide) ..
theorem tlbiVa (i : TlbiVaI) : Statement (.tlbiVa i) := by
  intro _ h; cases h; exact head_enc64 (by decide) ..
theorem tlbiCtx (i : TlbiCtxI) : Statement (.tlbiCtx i) := by
  intro _ h; cases h; exact head_enc64 (by decide) ..
theorem tlbiAll (i : TlbiAllI) : Statement (.tlbiAll i) := by
  intro _ h; cases h; exact head_enc64 (by decide) ..
theorem ctxopRoot (i : CtxRootI) : Statement (.ctxopRoot i) := by
  intro _ h; cases h; exact head_enc64 (by decide) ..
theorem ctxopDrain (i : CtxI) : Statement (.ctxopDrain i) := by
  intro _ h; cases h; exact head_enc64 (by decide) ..
theorem migWalkRetry (w : Nat) : Statement (.migWalkRetry w) := by
  intro _ h; cases h
theorem movedNack (w op piece : Nat) : Statement (.movedNack w op piece) := by
  intro _ h; cases h
theorem takeTrap (w : Nat) : Statement (.takeTrap w) := by
  intro _ h; cases h
theorem detectedError (w cause pc gseq lanes : Nat) : Statement (.detectedError w cause pc gseq lanes) := by
  intro _ h; cases h
theorem regionRollback (w : Nat) : Statement (.regionRollback w) := by
  intro _ h; cases h
theorem gangKill (gang cause : Nat) : Statement (.gangKill gang cause) := by
  intro _ h; cases h
theorem gangRelaunch (gang : Nat) (slots : List Nat) : Statement (.gangRelaunch gang slots) := by
  intro _ h; cases h
theorem watchdogExpiry (rcb : Nat) : Statement (.watchdogExpiry rcb) := by
  intro _ h; cases h
theorem gangPlacement (launch : Nat) (slots : List Nat) : Statement (.gangPlacement launch slots) := by
  intro _ h; cases h
theorem warpRetire (w : Nat) : Statement (.warpRetire w) := by
  intro _ h; cases h
theorem preemptionRequest (gang : Nat) : Statement (.preemptionRequest gang) := by
  intro _ h; cases h
theorem engineStop (gang : Nat) (e : Engine) : Statement (.engineStop gang e) := by
  intro _ h; cases h
theorem preemptionComplete (gang : Nat) : Statement (.preemptionComplete gang) := by
  intro _ h; cases h
theorem resumption (gang : Nat) : Statement (.resumption gang) := by
  intro _ h; cases h
theorem timeSliceExpiry (gang : Nat) : Statement (.timeSliceExpiry gang) := by
  intro _ h; cases h
theorem schedulerRebuild (chase : Nat) (fatal : Bool) : Statement (.schedulerRebuild chase fatal) := by
  intro _ h; cases h
theorem fabricEntry (src dst vc : Nat) : Statement (.fabricEntry src dst vc) := by
  intro _ h; cases h
theorem fabricResend (src dst vc : Nat) : Statement (.fabricResend src dst vc) := by
  intro _ h; cases h
theorem tail (queue : Nat) (value : DWord) : Statement (.tail queue value) := by
  intro _ h; cases h
theorem resume (queue : Nat) : Statement (.resume queue) := by
  intro _ h; cases h
theorem reset (queue : Nat) : Statement (.reset queue) := by
  intro _ h; cases h
theorem launch (queue : Nat) : Statement (.launch queue) := by
  intro _ h; cases h
theorem packetFence (queue : Nat) : Statement (.packetFence queue) := by
  intro _ h; cases h
theorem packetSignal (queue : Nat) : Statement (.packetSignal queue) := by
  intro _ h; cases h
theorem packetCopy (queue : Nat) : Statement (.packetCopy queue) := by
  intro _ h; cases h
theorem collective (queue : Nat) : Statement (.collective queue) := by
  intro _ h; cases h
theorem rcbRegister (queue : Nat) : Statement (.rcbRegister queue) := by
  intro _ h; cases h
theorem rcbUnregister (queue : Nat) : Statement (.rcbUnregister queue) := by
  intro _ h; cases h
theorem skip (queue : Nat) : Statement (.skip queue) := by
  intro _ h; cases h
theorem unknownPacket (queue : Nat) : Statement (.unknownPacket queue) := by
  intro _ h; cases h
theorem fenceThresholdMet (queue : Nat) : Statement (.fenceThresholdMet queue) := by
  intro _ h; cases h
theorem workCompletionDone (work : Nat) : Statement (.workCompletionDone work) := by
  intro _ h; cases h
theorem rdmaWrite (port : Nat) (src : Sender) (va : DWord) (data : List Byte) : Statement (.rdmaWrite port src va data) := by
  intro _ h; cases h
theorem rdmaRead (port : Nat) (src : Sender) (va : DWord) (len : Nat) : Statement (.rdmaRead port src va len) := by
  intro _ h; cases h
theorem clockThrottle (up : Bool) : Statement (.clockThrottle up) := by
  intro _ h; cases h
theorem thermalTripFatal : Statement .thermalTripFatal := by
  intro _ h; cases h
theorem boot : Statement .boot := by
  intro _ h; cases h
theorem readOfferWords (port : Nat) : Statement (.readOfferWords port) := by
  intro _ h; cases h
theorem featureAccept (port word : Nat) (value : DWord) : Statement (.featureAccept port word value) := by
  intro _ h; cases h
theorem featureLock (port : Nat) (value : DWord) : Statement (.featureLock port value) := by
  intro _ h; cases h
theorem createContext (port : Nat) (a : CtxArgs) : Statement (.createContext port a) := by
  intro _ h; cases h
theorem removeContext (port ctx : Nat) : Statement (.removeContext port ctx) := by
  intro _ h; cases h
theorem registerQueue (port : Nat) (a : QueueArgs) : Statement (.registerQueue port a) := by
  intro _ h; cases h
theorem bindQueuePair (port qpPort qp ctx : Nat) : Statement (.bindQueuePair port qpPort qp ctx) := by
  intro _ h; cases h
theorem attestationQuote (port : Nat) (nonce : List Byte) : Statement (.attestationQuote port nonce) := by
  intro _ h; cases h
theorem writeFirmwareSlot (port slot : Nat) (version : DWord) (image signature : List Byte) :
    Statement (.writeFirmwareSlot port slot version image signature) := by
  intro _ h; cases h
theorem readManagementErrata (port : Nat) : Statement (.readManagementErrata port) := by
  intro _ h; cases h
theorem commitFirmwareVersion (port : Nat) : Statement (.commitFirmwareVersion port) := by
  intro _ h; cases h
theorem linkFailure (cmd : Nat) : Statement (.linkFailure cmd) := by
  intro _ h; cases h
theorem impositionWaitMet (cmd : Nat) : Statement (.impositionWaitMet cmd) := by
  intro _ h; cases h
theorem uncorrectableError (p : ErrPlace) : Statement (.uncorrectableError p) := by
  intro _ h; cases h
theorem powerLoss : Statement .powerLoss := by
  intro _ h; cases h
theorem cnpReceived (port : Nat) : Statement (.cnpReceived port) := by
  intro _ h; cases h
theorem malformedManagementMessage (port : Nat) (message : List Byte) :
    Statement (.malformedManagementMessage port message) := by
  intro _ h; cases h

end Sys2Proof.Laws.Encoding
end

