-- ==== Sys2Proof/Laws/Vec.lean ====
section
/-! SUPPORT. What an instruction of the vector pipeline does, said once for all of them. -/

namespace Sys2Proof.Machine

/-- The words that a vector destination takes from the lanes of a mask. -/
theorem vecWrites_get (m : SMap Word) (k0 : Fin 256) (act : Mask) (res : Nat → LaneRes) (k l : Nat) (hl : l < 32) :
    ((vecWrites (some (.v k0)) ((lanesOf act).map fun l => (l, res l))).foldl (fun acc x => acc.set x.1 x.2) m).get (k * 32 + l) =
      if lane act l = true ∧ k0.val ≤ k then ((res l).ws[k - k0.val]?).getD (m.get (k * 32 + l)) else m.get (k * 32 + l) := by
  have mem : ∀ x, x ∈ vecWrites (some (.v k0)) ((lanesOf act).map fun l => (l, res l)) ↔
      ∃ a, (a < 32 ∧ lane act a = true) ∧ ∃ y ∈ (res a).ws.zipIdx, ((k0.val + y.2) * 32 + a, y.1) = x := by
    intro x
    simp only [vecWrites, List.mem_flatMap, List.mem_map]
    constructor
    · rintro ⟨_, ⟨a, ha, rfl⟩, y, hy, rfl⟩; exact ⟨a, mem_lanesOf.1 ha, y, hy, rfl⟩
    · rintro ⟨a, ha, y, hy, rfl⟩; exact ⟨_, ⟨a, mem_lanesOf.2 ha, rfl⟩, y, hy, rfl⟩
  have key : ∀ a, a < 32 → ∀ j, (k0.val + j) * 32 + a = k * 32 + l → a = l ∧ k0.val + j = k := by
    intro a ha j h; omega
  split
  · rename_i hc
    cases hw : (res l).ws[k - k0.val]? with
    | none =>
      rw [Option.getD_none]
      refine SMap.get_foldl_set_ne _ _ _ _ _ fun x hx hk => ?_
      obtain ⟨a, ⟨ha, _⟩, y, hy, rfl⟩ := (mem x).1 hx
      obtain ⟨h1, h2⟩ := key a ha y.2 hk
      subst h1
      have := List.mk_mem_zipIdx_iff_getElem?.1 hy
      rw [show y.2 = k - k0.val by omega, hw] at this
      cases this
    | some x =>
      rw [Option.getD_some]
      refine SMap.get_foldl_set_eq _ _ _ _ _ _ (fun z hz hk => ?_) ?_
      · obtain ⟨a, ⟨ha, _⟩, y, hy, rfl⟩ := (mem z).1 hz
        obtain ⟨h1, h2⟩ := key a ha y.2 hk
        subst h1
        have := List.mk_mem_zipIdx_iff_getElem?.1 hy
        rw [show y.2 = k - k0.val by omega, hw] at this
        exact (Option.some.inj this).symm
      · refine ⟨((k0.val + (k - k0.val)) * 32 + l, x), (mem _).2 ⟨l, ⟨hl, hc.1⟩, (x, k - k0.val), ?_, rfl⟩, ?_⟩
        · exact List.mk_mem_zipIdx_iff_getElem?.2 hw
        · simp only; omega
  · rename_i hc
    refine SMap.get_foldl_set_ne _ _ _ _ _ fun x hx hk => hc ?_
    obtain ⟨a, ⟨ha, hact⟩, y, hy, rfl⟩ := (mem x).1 hx
    obtain ⟨h1, h2⟩ := key a ha y.2 hk
    subst h1
    exact ⟨hact, by omega⟩

/-- The table of the lanes that compute. -/
theorem VecOp.table_eq (o : VecOp) (x : Rd) : o.table x =
    (accessLanes x.act (match o.d with
      | some (.s _) => true
      | _ => false)).map fun l => (l, o.f x l) := by
  unfold VecOp.table accessLanes
  rcases o.d with _ | (_ | _ | _)
  · rfl
  · rfl
  · simp only [if_true]; cases lowest x.act <;> rfl
  · rfl

theorem VecOp.flags_eq (o : VecOp) (x : Rd) : allFlags (o.table x) = flagsOf x.act o.d (o.f x) := by
  rw [VecOp.table_eq]
  unfold allFlags flagsOf
  exact List.foldl_map ..

/-- The writes of one instruction. -/
theorem VecOp.written (o : VecOp) (x : Rd) (r r1 : Regs) (he : o.extra x = [])
    (hv : r1.v = r.v) (hs : r1.s = r.s) (hp : r1.p = r.p) (fl : Flags) :
    Written r (match o.pd with
      | none => (((r1.writeV (vecWrites o.d (o.table x) ++ o.extra x)).writeS (scalarWrites o.d (o.table x))).setFlags fl)
      | some p => (((r1.writeV (vecWrites o.d (o.table x) ++ o.extra x)).writeS (scalarWrites o.d (o.table x))).setFlags fl).pset
          p.val x.act (predBits o.d x.act (o.table x))) x.act o.d o.pd (o.f x) := by
  have hv' : ∀ k l, l < 32 → (r1.writeV (vecWrites o.d (o.table x) ++ o.extra x)).vget k l = wordAfter r x.act o.d (o.f x) k l := by
    intro k l hl
    simp only [he, List.append_nil, Regs.vget, Regs.writeV, hv, wordAfter, VecOp.table]
    rcases hd : o.d with _ | (k0 | k0 | _)
    · rfl
    · exact vecWrites_get r.v k0 x.act (o.f x) k l hl
    · rfl
    · rfl
  have hs' : ∀ k, (r1.writeS (scalarWrites o.d (o.table x))).sget k = scalarAfter r x.act o.d (o.f x) k := by
    intro k
    simp only [Regs.sget, Regs.writeS, hs, scalarAfter, VecOp.table]
    rcases hd : o.d with _ | (k0 | k0 | _)
    · rfl
    · rfl
    · simp only
      cases hlow : lowest x.act with
      | none => rfl
      | some l =>
        simp only [scalarWrites, List.map_cons, List.map_nil, List.foldl_cons, List.foldl_nil, SMap.get_set]
    · rfl
  have hb : ∀ l, l < 32 → lane x.act l = true → lane (predBits o.d x.act (o.table x)) l =
      (match o.d, lowest x.act with
      | some (.s _), some l0 => (o.f x l0).p
      | _, _ => (o.f x l).p) := by
    intro l hl ha
    have gen : lane (maskOf fun l => ((lanesOf x.act).map fun l => (l, o.f x l)).any fun y => y.1 == l && y.2.p) l = (o.f x l).p := by
      rw [maskOf_lane _ hl, List.any_map, Bool.eq_iff_iff, List.any_eq_true]
      constructor
      · rintro ⟨a, ha', h⟩
        simp only [Function.comp, Bool.and_eq_true, beq_iff_eq] at h
        obtain ⟨rfl, h⟩ := h; exact h
      · intro h; exact ⟨l, mem_lanesOf.2 ⟨hl, ha⟩, by simpa using h⟩
    unfold predBits VecOp.table
    rcases hd : o.d with _ | (k0 | k0 | _)
    · exact gen
    · exact gen
    · simp only
      cases hlow : lowest x.act with
      | none => rw [lowest_eq_none hlow l hl] at ha; cases ha
      | some l0 =>
        simp only [List.any_cons, List.any_nil, Bool.or_false]
        cases (o.f x l0).p
        · simp [lane]
        · simp [ha]
    · exact gen
  have hpg : ∀ k, (((r1.writeV (vecWrites o.d (o.table x) ++ o.extra x)).writeS (scalarWrites o.d (o.table x))).setFlags fl).pget k = r.pget k := by
    intro k; simp [Regs.pget, hp]
  cases hd : o.pd with
  | none =>
    refine ⟨fun k l hl => hv' k l hl, fun k => ?_, fun k l _ => ?_⟩
    · rw [← hs' k]; rfl
    · simp only [hpg]; rfl
  | some p =>
    refine ⟨fun k l hl => ?_, fun k => ?_, fun k l hl => ?_⟩
    · rw [← hv' k l hl]; simp only [Regs.vget, Regs.pset_v]; rfl
    · rw [← hs' k]; simp only [Regs.sget, Regs.pset_s]; rfl
    · simp only
      rw [Regs.lane_pget_pset, hpg]
      unfold bitAfter
      by_cases hc : k = p.val ∧ p.val ≠ 0 ∧ lane x.act l = true
      · have hc' : k = p.val ∧ k ≠ 0 ∧ lane x.act l = true := ⟨hc.1, by omega, hc.2.2⟩
        rw [if_pos hc, hb l hl hc.2.2]
        simp only [if_pos hc'] <;> rfl
      · have hc' : ¬ (k = p.val ∧ k ≠ 0 ∧ lane x.act l = true) := fun h => hc ⟨h.1, by omega, h.2.2⟩
        rw [if_neg hc]
        simp only [if_neg hc']

/-- What a completed write-back leaves outside the warp and in it. -/
theorem State.setWarp_outside {s s2 : State} {slot : Nat} (h : s.taken.Cached s2) (w : Warp) (n : Nat) :
    s.SameOutside ({ s2 with opSeq := n }.setWarp slot w) slot := by
  obtain ⟨a, b, rfl⟩ := h.eq
  exact ⟨rfl, fun k hk => State.warp_setWarp_ne _ _ hk⟩

/-! ### The latches (R41) -/

/-- Writing the shifted words of some lanes: each lane's four words. -/
theorem shift_get (r : Regs) (x : Nat → Word) (ls : List Nat) (m : SMap Word) (k l : Nat) (hk : k < 4) (hl : l < 32)
    (hls : ∀ a ∈ ls, a < 32) :
    (ls.foldl (fun acc l => (((acc.set (96 + l) (r.latchGet 2 l)).set (64 + l) (r.latchGet 1 l)).set (32 + l)
      (r.latchGet 0 l)).set l (x l)) m).get (k * 32 + l) =
      if l ∈ ls then (if k = 0 then x l else r.latchGet (k - 1) l) else m.get (k * 32 + l) := by
  induction ls generalizing m with
  | nil => rfl
  | cons a t ih =>
    have ha : a < 32 := hls a (by simp)
    rw [List.foldl_cons, ih _ fun b hb => hls b (by simp [hb])]
    by_cases ht : l ∈ t
    · simp [ht]
    · simp only [if_neg ht, List.mem_cons, SMap.get_set]
      by_cases h : l = a
      · subst h
        rcases (by omega : k = 0 ∨ k = 1 ∨ k = 2 ∨ k = 3) with rfl | rfl | rfl | rfl
        · simp
        · rw [if_neg (by omega), if_pos (by omega)]; simp
        · rw [if_neg (by omega), if_neg (by omega), if_pos (by omega)]; simp
        · rw [if_neg (by omega), if_neg (by omega), if_neg (by omega), if_pos (by omega)]; simp
      · rw [if_neg (by omega), if_neg (by omega), if_neg (by omega), if_neg (by omega), if_neg fun e => e.elim h ht]

/-- The words of a shifted latch. -/
theorem Regs.latchGet_shift (r : Regs) (grp : Mask) (x : Nat → Word) {k l : Nat} (hk : k < 4) (hl : l < 32) :
    (r.shiftLatches grp x).latchGet k l =
      if lane grp l = true then (if k = 0 then x l else r.latchGet (k - 1) l) else r.latchGet k l := by
  have h := shift_get r x (lanesOf grp) r.latch k l hk hl fun a ha => (mem_lanesOf.1 ha).1
  have e : (r.shiftLatches grp x).latchGet k l = (r.shiftLatches grp x).latch.get (k * 32 + l) := rfl
  have e' : r.latchGet k l = r.latch.get (k * 32 + l) := rfl
  rw [e, Regs.shiftLatches, e', h]
  by_cases hg : lane grp l = true
  · rw [if_pos (mem_lanesOf.2 ⟨hl, hg⟩), if_pos hg]
  · rw [if_neg fun hm => hg (mem_lanesOf.1 hm).2, if_neg hg]

/-- The word of a lane in the table of some lanes. -/
theorem find_lane (res : Nat → LaneRes) (ls : List Nat) (l : Nat) :
    ((ls.map fun a => (a, res a)).find? fun y => y.1 == l) = if l ∈ ls then some (l, res l) else none := by
  induction ls with
  | nil => rfl
  | cons a t ih =>
    by_cases h : a = l
    · subst h; simp
    · rw [List.map_cons, List.find?_cons_of_neg (by simpa using h), ih]
      simp [show l ≠ a from fun e => h e.symm]

/-- An instruction that shifts the latches changes nothing else (R41). -/
theorem Regs.latchesAfter_eq (r : Regs) (grp : Mask) (d : Option Dst) (tab : List (Nat × LaneRes)) :
    ∃ la lv lb, r.latchesAfter grp d tab = { r with latch := la, lvalid := lv, badL := lb } := by
  match d with
  | some (.v k) => exact ⟨(r.shiftLatches grp (latchWord r (.v k) tab)).latch, _, _, rfl⟩
  | some .b0 => exact ⟨(r.shiftLatches grp (latchWord r .b0 tab)).latch, _, _, rfl⟩
  | some (.s _) => exact ⟨r.latch, r.lvalid, r.badL, rfl⟩
  | none => exact ⟨r.latch, r.lvalid, r.badL, rfl⟩

/-- What the latches hold after an instruction. -/
theorem VecOp.latched (o : VecOp) (x : Rd) (r : Regs) (grp : Mask) : Latched r (r.latchesAfter grp o.d (o.table x)) grp x.act o.d (o.f x) := by
  have main (d : Dst) (hd : o.d = some d) (old : Nat → Word) (h0 : ∀ tab l, latchWord r d tab l =
      match tab.find? fun y => y.1 == l with
      | some y => (y.2.ws.head?).getD 0
      | none => old l) (hv : o.table x = (lanesOf x.act).map fun l => (l, o.f x l)) (k l : Nat) (hk : k < 4) (hl : l < 32) :
      (r.shiftLatches grp (latchWord r d (o.table x))).latchGet k l =
        if lane grp l = false then r.latchGet k l
        else if k = 0 then (if lane x.act l = true then ((o.f x l).ws.head?).getD 0 else old l)
        else r.latchGet (k - 1) l := by
    rw [Regs.latchGet_shift r grp _ hk hl]
    cases hg : lane grp l
    · rfl
    · simp only [if_true, Bool.true_eq_false, if_false]
      by_cases hk0 : k = 0
      · simp only [if_pos hk0]
        rw [h0, hv, find_lane]
        by_cases ha : lane x.act l = true
        · simp [ha, mem_lanesOf.2 ⟨hl, ha⟩]
        · rw [if_neg fun hm => ha (mem_lanesOf.1 hm).2, if_neg ha]
      · simp only [if_neg hk0]
  rcases hd : o.d with _ | (k0 | k0 | _)
  · exact ⟨fun k l _ _ => rfl, rfl, rfl⟩
  · refine ⟨fun k l hk hl => ?_, rfl, rfl⟩
    exact main (.v k0) hd (fun l => r.vget k0.val l) (fun _ _ => rfl) (by simp [VecOp.table, hd]) k l hk hl
  · exact ⟨fun k l _ _ => rfl, rfl, rfl⟩
  · refine ⟨fun k l hk hl => ?_, rfl, rfl⟩
    exact main .b0 hd (fun _ => 0) (fun _ _ => rfl) (by simp [VecOp.table, hd]) k l hk hl

/-- The registers after a one-clock instruction differ in v, s, p, the latches and the flags alone. -/
theorem Regs.vecAfter_eq (r : Regs) (grp act : Mask) (d : Option Dst) (pd : Option (Fin 8)) (tab : List (Nat × LaneRes))
    (extra : List (Nat × Word)) : ∃ v s p, r.vecAfter grp act d pd tab extra =
      { r with v := v, s := s, p := p, latch := (r.latchesAfter grp d tab).latch, lvalid := (r.latchesAfter grp d tab).lvalid,
               badL := (r.latchesAfter grp d tab).badL, fpflags := r.fpflags ||| (allFlags tab).zeroExtend 64 } := by
  unfold Regs.vecAfter
  obtain ⟨la, lv, lb, h⟩ := Regs.latchesAfter_eq r grp d tab
  rw [h]
  cases pd with
  | none => exact ⟨_, _, _, rfl⟩
  | some p =>
    simp only [Regs.pset]
    split
    · exact ⟨_, _, _, rfl⟩
    · exact ⟨_, _, _, rfl⟩

/-- The end of an instruction: its side of the warp gets the registers, the group's PCs and `sr.gseq` move on. -/
theorem State.finish_done {s : State} {sl : Slot} {w : Warp} {r0 : Regs} (r1 : Regs) (h : s.warp sl.w = some w)
    (hr : w.side sl.proof = some r0) :
    ∃ r2 p2, s.finish sl r1 = s.setWarp sl.w { w with r := r2, proof := p2 } ∧
      ({ w with r := r2, proof := p2 } : Warp).side sl.proof = some { r1.setPc sl.grp sl.after with gseq := r1.gseq + 1 } ∧
      ({ w with r := r2, proof := p2 } : Warp).side (!sl.proof) = w.side (!sl.proof) := by
  have e : ∃ r2 p2, ((w.follow sl (sl.lag w)).setSide sl.proof { r1.setPc sl.grp sl.after with gseq := r1.gseq + 1 }) =
      { w with r := r2, proof := p2 } := by
    cases hp : sl.proof <;> cases hpw : w.proof <;> simp only [Warp.setSide, Warp.follow, hp, hpw] <;> exact ⟨_, _, rfl⟩
  obtain ⟨r2, p2, e⟩ := e
  refine ⟨r2, p2, ?_, ?_, ?_⟩
  · rw [← e]; exact State.finishWith_chosen h r1 sl.lag
  · rw [← e]; exact Warp.side_setSide_self (r0 := r0) _ (by rw [Warp.side_follow]; exact hr)
  · rw [← e]; exact (Warp.side_setSide_other _ _ _).trans (Warp.side_follow _ _ _ _)

theorem Regs.advanced_finish {r r1 : Regs} (sl : Slot) (hp : r1.pc = r.pc) (hg : r1.gseq = r.gseq) :
    r.Advanced { r1.setPc sl.grp sl.after with gseq := r1.gseq + 1 } sl where
  pcs := fun l hl => by
    have h := Regs.pcGet_setPc r1 sl.grp sl.after hl
    unfold Regs.pcGet at h ⊢
    rw [h, hp]
  gseq := congrArg (· + 1) hg

/-- Every instruction of the vector pipeline: it completes, writes what its lanes computed, and changes nothing else. -/
theorem State.vec_done {s : State} {sl : Slot} {w : Warp} {r : Regs} {x : Nat} (o : VecOp) (h : s.Chosen sl w r)
    (hx : s.Reads sl w (active r sl.grp o.g) o.win x)
    (he : o.extra ⟨r, x, active r sl.grp o.g, s.opSeq⟩ = [])
    (hq : o.multi = false → sl.proof = false →
      flagsOf (active r sl.grp o.g) o.d (o.f ⟨r, x, active r sl.grp o.g, s.opSeq⟩) &&& r.tmask = 0) :
    ∃ t, s.vec o = .next t ∧ VecDone s t sl w r (active r sl.grp o.g) o.d o.pd o.multi
      (o.f ⟨r, x, active r sl.grp o.g, s.opSeq⟩) := by
  obtain ⟨s2, h1, h2⟩ := hx.operandWindow
  have hseq : s2.opSeq = s.opSeq := by rw [h2]; rfl
  have hw2 : s2.warp sl.w = some w := (h2.warp _).trans h.warp
  rw [State.vec, State.onSlot_chosen h]
  simp only [h1, hseq]
  refine ⟨_, rfl, ?_⟩
  generalize ha : active r sl.grp o.g = act at *
  generalize hX : (⟨r, x, act, s.opSeq⟩ : Rd) = X at *
  have hXact : X.act = act := by rw [← hX]
  obtain ⟨n, hn⟩ : ∃ n, (if o.free = true then { s2 with opSeq := s.opSeq + 1 } else s2) = { s2 with opSeq := n } := by
    cases o.free
    · exact ⟨s2.opSeq, rfl⟩
    · exact ⟨_, rfl⟩
  rw [hn]
  have hw3 : State.warp { s2 with opSeq := n } sl.w = some w := hw2
  obtain ⟨r0, hr0⟩ : ∃ r0, w.side sl.proof = some r0 := by
    have := h.side
    cases hs : w.side sl.proof with
    | none => simp [hs] at this
    | some r0 => exact ⟨r0, rfl⟩
  have hL : Latched r (r.latchesAfter sl.grp o.d (o.table X)) sl.grp act o.d (o.f X) := hXact ▸ VecOp.latched o X r sl.grp
  have latched (r' : Regs) (h1 : r'.latch = (r.latchesAfter sl.grp o.d (o.table X)).latch)
      (h2 : r'.lvalid = (r.latchesAfter sl.grp o.d (o.table X)).lvalid) (h3 : r'.badL = (r.latchesAfter sl.grp o.d (o.table X)).badL) :
      Latched r r' sl.grp act o.d (o.f X) :=
    ⟨fun k l hk hl => by rw [← hL.words k l hk hl]; simp only [Regs.latchGet, h1], h2.trans hL.valid, h3.trans hL.bad⟩
  unfold State.vecDone
  by_cases hm : o.multi = true
  · simp only [if_pos hm]
    obtain ⟨la, lv, lb, hl⟩ := Regs.latchesAfter_eq r sl.grp o.d (o.table X)
    rw [hl] at latched ⊢
    obtain ⟨r2, p2, e1, e2, e4⟩ := State.finish_done { r with latch := la, lvalid := lv, badL := lb } hw3 hr0
    rw [e1, State.modWarp_some _ (State.warp_setWarp_self _ _ _)]
    refine ⟨?_, _, _, State.warp_setWarp_self _ _ _, e2, ⟨?_, e4⟩, ?_, ?_, latched _ rfl rfl rfl, ?_⟩
    · obtain ⟨a, b, rfl⟩ := h2.eq
      exact ⟨rfl, fun k hk => by rw [State.warp_setWarp_ne _ _ hk, State.warp_setWarp_ne _ _ hk]; rfl⟩
    · rfl
    · exact Regs.advanced_finish sl rfl rfl
    · rfl
    · rw [if_pos hm]
      refine ⟨rfl, rfl, rfl, rfl, pendingResult sl r X.act o.d o.pd (o.table X) (o.extra X), ?_, hXact, rfl, ?_, rfl, ?_⟩
      · rfl
      · rw [← hXact]; exact VecOp.flags_eq o X
      · intro q
        rw [← hXact]
        exact VecOp.written o X q q he rfl rfl rfl _
  · have hm' : o.multi = false := by simpa using hm
    have hfl : ∀ t, State.trapFlags t sl r X.act (allFlags (o.table X)) = t := by
      intro t
      unfold State.trapFlags
      split
      · rfl
      · rename_i hp
        have hq' := hq hm' (by simpa using hp)
        rw [VecOp.flags_eq, hXact]
        have : ∀ p g a lv ti, arithErr r (flagsOf act o.d (o.f X)) p g a lv ti = none := by
          intro p g a lv ti
          simp only [arithErr, enabledFlags, hq']
          rfl
        simp only [this]
    simp only [hm', Bool.false_eq_true, if_false, hfl]
    obtain ⟨la0, lv0, lb0, hl⟩ := Regs.latchesAfter_eq r sl.grp o.d (o.table X)
    have hW : Written r (r.vecAfter sl.grp X.act o.d o.pd (o.table X) (o.extra X)) X.act o.d o.pd (o.f X) :=
      VecOp.written o X r (r.latchesAfter sl.grp o.d (o.table X)) he (by rw [hl]) (by rw [hl]) (by rw [hl])
        (allFlags (o.table X))
    obtain ⟨v, s', p, hR⟩ := Regs.vecAfter_eq r sl.grp X.act o.d o.pd (o.table X) (o.extra X)
    rw [VecOp.flags_eq, hXact] at hR
    rw [hXact] at hW ⊢
    rw [hR] at hW ⊢
    generalize hT : r.latchesAfter sl.grp o.d (o.table X) = T at *
    obtain ⟨r2, p2, e1, e2, e4⟩ := State.finish_done
      { r with v := v, s := s', p := p, latch := T.latch, lvalid := T.lvalid, badL := T.badL
               fpflags := r.fpflags ||| (flagsOf act o.d (o.f X)).zeroExtend 64 } hw3 hr0
    rw [e1]
    refine ⟨State.setWarp_outside h2 _ n, _, _, State.warp_setWarp_self _ _ _, e2, ⟨?_, e4⟩, ?_, rfl, latched _ rfl rfl rfl, ?_⟩
    · rfl
    · exact Regs.advanced_finish sl rfl rfl
    · rw [if_neg (by simp)]
      exact ⟨⟨hW.v, hW.s, hW.p⟩, rfl, rfl⟩

end Sys2Proof.Machine
end

