-- ==== Sys2Proof/Tests/Slice0.lean ====
section
/-! SUPPORT. Tests: ill-formed terms that the well-formedness check refuses, words of the spec's encodings that decode,
values of single instructions, and for each statement states and operands that meet its hypotheses. -/

namespace Sys2Proof.Tests

open Sys2Proof Sys2Proof.Machine Sys2Proof.Claims

set_option Elab.async false

/-- Sources; the extension of a 64-bit form and of a strong 128-bit one. -/
def v (k : Fin 256) : Src := .v k
def sc (k : Fin 64) : Src := .s k
def short (o : Int) : Ext := ⟨false, o, 0, .device, 0⟩
def long (o : Int) (c : Scope) : Ext := ⟨true, o, 0, c, 0⟩

/-! ### Single steps: the values of the spec's worked cases -/

/-- A device with one warp of context 0 in slot 0, loaded as log 8 says; nothing is on its agenda. -/
def base : State := { State.reset.load [] with agenda := [], issue := [] }
/-- That warp. -/
def w0 : Warp := (base.warp 0).getD default
/-- The instruction i is chosen for all 32 lanes of the warp. -/
def slot (i : Instr) : Slot := ⟨0, false, BitVec.allOnes 32, 0x1000, 2, i⟩
/-- State s with its warp changed and i chosen. -/
def put (s : State) (f : Warp → Warp) (i : Instr) : State := { s with warps := [(0, some (f w0))], issue := [slot i] }
def ready (f : Warp → Warp) (i : Instr) : State := put base f i
/-- A warp with words in some vector registers, the same in every lane. -/
def regs (l : List (Nat × Word)) (w : Warp) : Warp :=
  { w with r := { w.r with v := l.foldl (fun m x => (List.range 32).foldl (fun a j => a.set (x.1 * 32 + j) x.2) m) w.r.v } }
def sregs (l : List (Nat × DWord)) (w : Warp) : Warp := { w with r := { w.r with s := l.foldl (fun m x => m.set x.1 x.2) w.r.s } }
/-- The warp after an instruction, its pending results written. -/
def after (f : Warp → Warp) (i : Instr) : Option Regs :=
  match exec i (ready f i) with
  | .next t => (t.warp 0).map fun w => w.results.foldl (fun r x => x.deliver r) w.r
  | _ => none
/-- Words of lane 0 after an instruction of lane 0 alone, with the sticky flags. -/
def val (i : Instr) (l : List (Nat × Word)) (ks : List Nat) : Option (List Word × DWord) :=
  let f (w : Warp) : Warp := { w with r := { w.r with v := l.foldl (fun m x => m.set (x.1 * 32) x.2) w.r.v } }
  match exec i { base with warps := [(0, some (f w0))], issue := [{ slot i with grp := 1 }] } with
  | .next t => (t.warp 0).map fun w =>
    let r := w.results.foldl (fun r x => x.deliver r) w.r
    (ks.map fun k => r.vget k 0, r.fpflags)
  | _ => none
def plainF (f : FT) (m : RM) : FM := ⟨f, m, false, false⟩

/-! ### Ill-formed terms: one for each check, beside a term that passes it -/

/-- Sources and destinations of the integer instructions (R36, R37, R42, R88, R89). -/
theorem wf_refuses_integer : ([
    Instr.add ⟨always, .v 1, v 3, v 4, ⟨.i64, false⟩⟩,           -- odd destination pair
    .add ⟨always, .v 2, v 3, v 4, ⟨.i64, false⟩⟩,                -- odd source pair
    .add ⟨always, .s 1, v 3, sc 4, ⟨.i32, false⟩⟩,               -- uniform form with a vector source
    .add ⟨always, .b0, v 2, v 4, ⟨.i64, false⟩⟩,                 -- NW with a 64-bit result
    .add ⟨always, .v 1, .flt 3, v 4, ⟨.i32, false⟩⟩,             -- floating constant in an integer position
    .add ⟨always, .v 1, .lit 1, .lit 2, ⟨.i32, false⟩⟩,          -- two literals
    .add ⟨always, .v 1, .lit 256, v 4, ⟨.i8, false⟩⟩,            -- a literal that does not fit
    .add3 ⟨always, .v 1, v 1, v 2, .b 1, ⟨.i64, false⟩⟩,         -- odd latch pair
    .mulhi ⟨always, .v 1, v 1, v 2, .i16⟩,                       -- a type that mulhi lacks
    .mulwd ⟨always, .v 1, v 1, v 2, .i32⟩,                       -- its result is a pair
    .mulwd ⟨always, .v 2, v 1, v 2, .i64⟩,
    .madhi ⟨always, .v 2, v 1, v 2, v 3, .n8⟩,
    .div ⟨always, .v 2, v 1, v 2, .i8⟩,
    .sad ⟨always, .v 2, v 2, v 2, v 4, .i64⟩,
    .abs ⟨always, .v 2, v 1, ⟨.n32, false⟩⟩,                     -- an unsigned type
    .neg ⟨always, .v 2, v 1, ⟨.n32, true⟩⟩,                      -- saturation of an unsigned negation
    .and ⟨always, .v 2, v 1, v 1, .i16⟩,
    .popc ⟨always, .v 2, v 1, .i64⟩,
    .addc ⟨always, .v 2, v 1, v 1, 1, .i16, false⟩,
    .bfn ⟨always, .s 2, sc 1, v 1, sc 1, 0⟩,
    .shl ⟨always, .v 3, v 2, v 1, .i64⟩,
    .shf ⟨always, .v 2, v 2, v 1, v 1, ⟨.i64, false⟩⟩,
    .bfi ⟨always, .v 2, v 1, v 1, .flt 0, .i32⟩,
    .bsel ⟨always, .s 2, v 1, v 1, v 1, ()⟩,
    .setp ⟨always, 1, v 1, v 2, .lt, .i32, .none, 3⟩,            -- a predicate that nothing uses
    .sel ⟨always, .v 1, v 1, v 2, 1, .i16⟩,
    .movpTo ⟨always, 1, .flt 2⟩,
    .lea ⟨always, .v 2, v 1, v 2, .int 16, ⟨false, 0⟩⟩,
    .idot4 ⟨always, .v 2, v 1, v 2, v 3, ⟨false, true, false, false⟩⟩,
    .tacc ⟨always, .v 2, v 1, v 2, v 3, ⟨false, false, false, true⟩⟩
  ].all fun i => !i.wf) = true := by decide +kernel

/-- Floating instructions, expansions and conversions (R111 to R142). -/
theorem wf_refuses_floating : ([
    Instr.fadd ⟨always, .s 1, v 1, v 2, ⟨.f32, .rn, false, false⟩⟩,      -- no uniform form
    .fadd ⟨always, .v 1, v 1, v 2, ⟨.f32, .rn, true, false⟩⟩,            -- F5
    .fadd ⟨always, .v 1, v 1, .lit 65536, ⟨.f16, .rn, false, false⟩⟩,    -- a literal above 16 bits
    .fmin ⟨always, .v 1, v 1, v 2, ⟨.f32, .rz, false, false⟩⟩,           -- a rounding mode
    .fdot2 ⟨always, .v 1, v 1, v 2, v 3, ⟨.f16, .rn, false, false⟩⟩,     -- a lone format
    .fexpo ⟨always, .v 1, v 1, ⟨.f16x2, .rn, false, false⟩⟩,
    .fsin ⟨always, .v 1, v 1, ⟨.f32, .rp, false, false⟩⟩,
    .fscale ⟨always, .v 1, v 1, .flt 1, ⟨.f32, .rn, false, false⟩⟩,
    .fsetp ⟨always, 1, v 1, v 2, .lt, .bf16x2, .none, 0⟩,
    .fsetp ⟨always, 1, v 1, v 2, .lt, .f32, .none, 2⟩,
    .fclass ⟨always, 1, v 1, .flt 2, .f32⟩,
    .faddE ⟨always, .v 1, v 1, v 2, .f32⟩,                               -- odd pair
    .fmaE ⟨always, .v 2, v 1, v 2, v 3, .f32⟩,                           -- not a multiple of 4
    .xren ⟨always, 2, 2, .f32, 0⟩,                                       -- length 1
    .xren ⟨always, 2, 3, .f32, 1⟩,
    .xcmpr ⟨always, 2, 2, .f32, 1, 1, .rn⟩,                              -- no shorter
    .xcmp ⟨always, 2, 2, 3, .f32, 1, .lt⟩,
    .xadd ⟨always, 2, 2, v 3, .f32, 1, 1⟩,
    .xadd ⟨always, 2, 2, sc 2, .f32, 1, 1⟩,
    .xmulW ⟨always, 2, 2, .lit 65536, .f16, 1⟩,
    .cvt ⟨always, .v 2, v 2, ⟨.f32, .f32, .rn, false⟩⟩,                  -- equal types
    .cvt ⟨always, .v 2, v 2, ⟨.f32, .f16, .rz, false⟩⟩,                  -- a mode where nothing rounds
    .cvt ⟨always, .v 2, v 2, ⟨.i32, .f32, .rz, true⟩⟩,                   -- saturation of a floating source
    .cvt ⟨always, .v 3, v 2, ⟨.f64, .f32, .rn, false⟩⟩,
    .cvt ⟨always, .v 2, .int 17, ⟨.f32, .f64, .rn, false⟩⟩,              -- a constant in an FP64 position
    .cvtN ⟨always, .v 2, .int 17, false, .f32, .widen 0⟩,
    .cvtSr ⟨always, .s 2, v 1, v 2, .f16⟩,
    .cvtBlkDecode ⟨always, 2, v 2, 3, .e4m3, 0⟩,
    .cvtBlkEncode ⟨always, .v 2, 2, 3, .e4m3, 0, false, .rn, false⟩,
    .cvtBlkEncode ⟨always, .v 2, 8, 3, .e2m1, 0, false, .rn, true⟩,
    .cvtBlkEncode ⟨always, .b0, 8, 3, .e2m1, 0, true, .rn, false⟩,
    .cvtX2 (.toX2 always 3 (v 2)),
    .unpkT3 ⟨always, 2, .int 16, none⟩,
    .pack ⟨always, .v 2, v 1, .flt 1, .i8 false false⟩,
    .unpack ⟨always, .s 2, v 1, .i8 1⟩,
    .xlane ⟨always, 2, 2, .flt 1, .idx, 0, none⟩,
    .nbr ⟨always, 2, 2, .flt 1, true, none⟩,
    .mpopc ⟨always, .s 2, 1, .excl, false⟩,
    .lmatch ⟨always, 2, 3, true, .grp⟩
  ].all fun i => !i.wf) = true := by decide +kernel

/-- Memory, synchronization, control and system instructions (R184, R205 to R234, R290 to R298, R345 to R348). -/
theorem wf_refuses_other : ([
    Instr.ld ⟨always, .v 1, .v 3, .zero, 0, false, .b32, .plain, short 0⟩,     -- odd base pair
    .ld ⟨always, .v 1, .v 2, .s 3, 0, true, .b32, .plain, short 0⟩,            -- index pair of a scalar
    .ld ⟨always, .v 2, .v 2, .zero, 0, false, .b128, .plain, short 0⟩,         -- destination of four words
    .ld ⟨always, .s 1, .v 2, .zero, 0, false, .b32, .plain, short 0⟩,          -- scalar from a lane's address
    .ld ⟨always, .v 1, .v 2, .zero, 0, false, .b32, .rel, short 0⟩,            -- a releasing load
    .ld ⟨always, .v 1, .v 2, .zero, 0, false, .b32, .plain, short 2048⟩,
    .ld ⟨always, .v 1, .v 2, .zero, 0, false, .b32, .plain, long 8388608 .warp⟩,
    .ld ⟨always, .v 1, .v 2, .zero, 0, false, .b32, .plain, long 0 .sheet⟩,    -- scope of a weak access
    .ldl ⟨always, .v 1, .v 2, .zero, 0, false, .b32, .rlx, short 0⟩,           -- a strong private access
    .ldk ⟨always, .v 1, 0, .zero, 0, .b32, long 0 .device⟩,
    .st ⟨always, v 1, .v 2, .zero, 0, false, .i32, .plain, short 0⟩,           -- a width that stores lack
    .st ⟨always, v 1, .v 2, .zero, 0, false, .b64, .plain, short 0⟩,
    .st ⟨always, v 1, .v 2, .zero, 0, false, .b32, .acq, short 0⟩,
    .atom ⟨always, .v 1, .v 2, .zero, .addI64, .rlx, short 0⟩,
    .atom ⟨always, .v 1, .v 2, .zero, .addI32, .plain, short 0⟩,
    .red ⟨always, v 1, .v 2, .zero, .addI32, .acq, short 0⟩,
    .cas ⟨always, 2, .v 2, .zero, true, .rlx, short 0⟩,
    .catom ⟨always, 3, .v 2, .s 4, .f32, none, .rlx, short 0⟩,
    .catom ⟨always, 2, .v 2, .zero, .f32, none, .rlx, short 0⟩,
    .stc ⟨always, none, 1, 2, v 1, .b128, short 0⟩,
    .bankcfg ⟨always, v 1, .int 17, .fifo, false⟩,
    .fifoPush ⟨always, v 1, v 2, false⟩,
    .fence ⟨always, .plain, .device⟩,
    .barInit ⟨always, 4, v 1, false, .device, false⟩,
    .barArrive ⟨always, 4, .int 17, .int 16, false, .device, false, 5⟩,        -- a counter in a 64-bit form
    .barWait ⟨always, 4, v 1, false, .device, false⟩,
    .signal ⟨always, 4, v 1, .device, false, 0⟩,
    .waitc ⟨always, 4, .lit 5, .device⟩,
    .brx ⟨always, .zero⟩,
    .ret ⟨always, .v 3⟩,
    .call ⟨always, 3, 0⟩,
    .jopen ⟨always, 3, some (v 1)⟩,
    .jsave ⟨always, 3, 4, v 1⟩,
    .mma ⟨always, 0, 4, 5, .bf16, .f16, false, none, none⟩,                    -- formats that do not go together
    .mma ⟨always, 0, 4, 5, .e2m1, .e2m1, false, none, none⟩,                   -- no scales
    .mmaRes ⟨⟨always, 1, 4, 5, .bf16, .bf16, false, none, none⟩, 1⟩,           -- one tile twice
    .mmaRes ⟨⟨always, 1, 4, 5, .i8, .i8, false, none, none⟩, 2⟩,
    .accRd ⟨always, 1, 0, none, .f32, .rz, false, 0, 0, 0⟩,
    .accRd ⟨always, 1, 0, none, .f16, .rn, false, 0, 0, 1⟩,                    -- column no multiple of 2
    .accWr ⟨always, 1, 0, .f32, 0, 4, 63⟩,                                     -- past column 63
    .accSt ⟨always, 1, 4, none, .f32, .rn, true, 0⟩,
    .cpySig ⟨⟨always, 1, 2, none, .device, none, none⟩, 4, .lit 1⟩,
    .rgnKeep ⟨always, 1, 0, 0, 0, 0, 0, none, none⟩,
    .rgnKeep ⟨always, 0, 0, 60, 5, 0, 0, none, none⟩,
    .rgnKeep ⟨always, 0, 0, 0, 0, 1, 0, none, none⟩,
    .rgnKeep ⟨always, 0, 0, 0, 0, 0, 0, some 1, some 1⟩,
    .trap ⟨always, .int 32⟩,                                                   -- the constant 16
    .errpVec ⟨always, none, .int 16, false⟩,
    .csrr ⟨always, .v 1, 0x0A⟩,
    .csrr ⟨always, .b0, 0⟩,
    .csrw ⟨always, 0x0C, v 1⟩,
    .boot                                                                      -- no instruction of the stream
  ].all fun i => !i.wf) = true := by decide +kernel

/-- Neighbours of the terms above that pass. -/
theorem wf_accepts : ([
    Instr.add ⟨always, .v 2, v 2, v 4, ⟨.i64, true⟩⟩,
    .add ⟨always, .s 1, .lit 255, sc 4, ⟨.i8, false⟩⟩,
    .add ⟨always, .b0, .lit 1, .lit 1, ⟨.i32, false⟩⟩,
    .neg ⟨always, .v 2, v 1, ⟨.i32, true⟩⟩,
    .setp ⟨always, 1, v 1, v 2, .lt, .i32, .and, 3⟩,
    .fmin ⟨always, .v 1, v 1, v 2, ⟨.f32, .rn, true, false⟩⟩,
    .fadd ⟨always, .v 1, v 1, .lit 65535, ⟨.f16, .rz, false, false⟩⟩,
    .xadd ⟨always, 2, 2, v 4, .f32, 1, 1⟩,
    .cvt ⟨always, .v 2, v 2, ⟨.f16, .f32, .rz, false⟩⟩,
    .ld ⟨always, .v 4, .v 2, .v 6, 3, true, .b128, .acq, long (-8388608) .sheet⟩,
    .ld ⟨always, .s 1, .s 2, .zero, 0, false, .b32, .plain, short 2047⟩,
    .atom ⟨always, .v 2, .v 2, .zero, .addI64, .sc, short (-2048)⟩,
    .mma ⟨always, 0, 4, 5, .e2m1, .e2m1, false, some (6, 7), none⟩,
    .accWr ⟨always, 1, 0, .f32, 0, 4, 48⟩,
    .rgnKeep ⟨always, 0, 256, 0, 64, 254, 0, some 1, none⟩,
    .trap ⟨always, .int 31⟩,
    .csrr ⟨always, .v 2, 0x0A⟩
  ].all Instr.wf) = true := by decide +kernel

/-! ### Words of the spec's worked encodings, one family at a time (R31 to R47 and the entries' own examples) -/

theorem test_decode_integer :
    decodeNat (word1 [0xC10500A9, 0x0000283B, 0x00020009]) =
      .ok (.tacc ⟨always, .v 10, .win 1 9, v 29, v 10, ⟨false, false, false, false⟩⟩) := by decide +kernel
theorem test_decode_predicate :
    decodeNat (word1 [0x0202008C, 0x99000006]) = .ok (.pfn ⟨always, 4, 2, 3, 0, 0x99⟩) := by decide +kernel
theorem test_decode_packed : decodeNat (word1 [0x0B05010C, 0x0406C018]) =
    .ok (.fma ⟨always, .v 10, v 11, v 12, .flt 0, ⟨.bf16x2, .rn, false, false⟩⟩) := by decide +kernel
theorem test_decode_exact :
    decodeNat (word1 [0x010401C0, 0x00000004]) = .ok (.faddE ⟨always, .v 8, v 1, v 2, .f32⟩) := by decide +kernel
theorem test_decode_vote :
    decodeNat (word1 [0x06030248, 0x00000000]) = .ok (.lvote ⟨always, .and 6, 6, false⟩) := by decide +kernel
theorem test_decode_store : decodeNat (word1 [0x04010284, 0x143F8003]) =
    .ok (.st ⟨always, v 2, .s 4, .v 1, 2, false, .b32, .plain, ⟨false, -32, 0, .device, 0⟩⟩) := by decide +kernel
theorem test_decode_catom : decodeNat (word1 [0x0C090AC0, 0x01000A0C]) =
    .ok (.catom ⟨⟨2, false⟩, 18, .v 12, .s 6, .bf16, none, .rlx, ⟨false, 2, 0, .device, 0⟩⟩) := by decide +kernel
theorem test_decode_wait :
    decodeNat (word1 [0x0B000308, 0x04000323]) = .ok (.waitc ⟨always, 11, .int 17, .device⟩) := by decide +kernel
theorem test_decode_call : decodeNat (word1 [0x40030348, 0]) = .ok (.call ⟨always, 6, 64⟩) := by decide +kernel
theorem test_decode_platen : decodeNat (word1 [0x04000382, 0x0008060B, 0x04240000, 0]) =
    .ok (.mmaRes ⟨⟨always, 0, 4, 5, .bf16, .bf16, false, none, some 9⟩, 1⟩) := by decide +kernel
theorem test_decode_feeder : decodeNat (word1 [0x058203A2, 0x0316460D, 0x041C0109, 0]) =
    .ok (.cpySig ⟨⟨always, 4, 5, some (6, false), .sheet, some 9, none⟩, 7, .int 17⟩) := by decide +kernel
theorem test_decode_imposition : decodeNat (word1 [0x008883A6, 0x04000000, 0, 0]) =
    .ok (.impStart ⟨always, 17, .device, none, none⟩) := by decide +kernel
theorem test_decode_region : decodeNat (word1 [0x000003C2, 0x00080000, 0x01401008, 0x02004004]) =
    .ok (.rgnKeep ⟨always, 8, 8, 32, 2, 0x10, 0x100, some 0, none⟩) := by decide +kernel
theorem test_decode_system :
    decodeNat (word1 [0x040003F4, 0x0000020B]) = .ok (.tlbiVa ⟨always, 4, 5, false⟩) ∧
    decodeNat (word1 [0x008503E0, 0x0A000000]) = .ok (.csrr ⟨always, .s 10, 0x0A⟩) ∧
    decodeNat (word1 [0x040003C4, 0x01000001]) = .ok (.errpVec ⟨always, none, sc 4, false⟩) ∧
    decodeNat (word1 [0x000003E8, 0x00080000]) = .ok (.tret ⟨always⟩) := by decide +kernel

theorem test_add_wraps : val (.add ⟨always, .v 1, v 2, v 3, ⟨.i32, false⟩⟩) [(2, 0x7FFFFFFF), (3, 1)] [1] =
    some ([0x80000000], 0) := by decide +kernel
theorem test_add_saturates : val (.add ⟨always, .v 1, v 2, v 3, ⟨.i32, true⟩⟩) [(2, 0x7FFFFFFF), (3, 1)] [1] =
    some ([0x7FFFFFFF], 0) := by decide +kernel
theorem test_abs_lowest : val (.abs ⟨always, .v 1, v 2, ⟨.i32, false⟩⟩) [(2, 0x80000000)] [1] = some ([0x80000000], 0) ∧
    val (.abs ⟨always, .v 1, v 2, ⟨.i32, true⟩⟩) [(2, 0x80000000)] [1] = some ([0x7FFFFFFF], 0) := by decide +kernel
theorem test_div_truncates : val (.div ⟨always, .v 1, v 2, v 3, .i32⟩) [(2, 0xFFFFFFF9), (3, 2)] [1] =
    some ([0xFFFFFFFD], 0) := by decide +kernel
theorem test_div_by_zero : val (.div ⟨always, .v 1, v 2, v 3, .i32⟩) [(2, 5)] [1] = some ([0xFFFFFFFF], 0) ∧
    val (.rem ⟨always, .v 1, v 2, v 3, .i32⟩) [(2, 5)] [1] = some ([5], 0) := by decide +kernel
theorem test_div_overflow : val (.div ⟨always, .v 1, v 2, v 3, .i32⟩) [(2, 0x80000000), (3, 0xFFFFFFFF)] [1] =
    some ([0x80000000], 0) := by decide +kernel
theorem test_rem_overflow : val (.rem ⟨always, .v 1, v 2, v 3, .i32⟩) [(2, 0x80000000), (3, 0xFFFFFFFF)] [1] =
    some ([0], 0) := by decide +kernel
theorem test_mulhi : val (.mulhi ⟨always, .v 1, v 2, v 2, .n32⟩) [(2, 0xFFFFFFFF)] [1] = some ([0xFFFFFFFE], 0) := by
  decide +kernel
theorem test_tacc : val (.tacc ⟨always, .v 1, v 2, v 3, v 4, ⟨false, false, false, false⟩⟩)
    [(2, 0xD81EEC0A), (3, 0x0500FF01), (4, 100)] [1] = some ([90], 0) := by decide +kernel
theorem test_fadd_nan : val (.fmin ⟨always, .v 1, v 2, v 3, plainF .f32 .rn⟩) [(2, 0x7F800001), (3, 0x3F800000)] [1] =
    some ([0x7FC00001], 0x10) := by decide +kernel
theorem test_fmin_zeros : val (.fmin ⟨always, .v 1, v 2, v 3, plainF .f32 .rn⟩) [(3, 0x80000000)] [1] =
    some ([0x80000000], 0) := by decide +kernel
theorem test_fdot2 : val (.fdot2 ⟨always, .v 1, v 2, v 2, v 3, plainF .bf16x2 .rn⟩) [(2, 0x39803F80), (3, 0x33800000)] [1] =
    some ([0x3F800001], 0) := by decide +kernel
theorem test_fsin : val (.fsin ⟨always, .v 1, v 2, plainF .f32 .rn⟩) [(2, 0x3E800000)] [1] = some ([0x3F3504F3], 1) := by
  decide +kernel
theorem test_fsin_whole_turn : val (.fsin ⟨always, .v 1, v 2, plainF .f32 .rn⟩) [(2, 0xC0000000)] [1] =
    some ([0x80000000], 0) := by decide +kernel
theorem test_fcos_half : val (.fcos ⟨always, .v 1, v 2, plainF .f32 .rn⟩) [(2, 0x3F000000)] [1] =
    some ([0], 0) := by decide +kernel
theorem test_fadd_e : val (.faddE ⟨always, .v 4, v 2, v 3, .f32⟩) [(2, 0x3F800000), (3, 0x33800000)] [4, 5] =
    some ([0x3F800000, 0x33800000], 1) := by decide +kernel
theorem test_fadd_e_overflow : val (.faddE ⟨always, .v 4, v 2, v 2, .f32⟩) [(2, 0x7F7FFFFF)] [4, 5] =
    some ([0x7F800000, 0x7FC00000], 5) := by decide +kernel
theorem test_fmul_e : val (.fmulE ⟨always, .v 4, v 2, v 2, .f32⟩) [(2, 0x3F800001)] [4, 5] =
    some ([0x3F800002, 0x28800000], 1) := by decide +kernel
theorem test_fma_e : val (.fmaE ⟨always, .v 4, v 2, v 2, v 3, .f32⟩) [(2, 0x3F800001), (3, 0x27800001)] [4, 5, 6] =
    some ([0x3F800002, 0x28A00000, 0x1C000000], 1) := by decide +kernel
theorem test_xcmpr_modes : val (.xcmpr ⟨always, 6, 2, .f32, 1, 0, .rn⟩) [(2, 0x3F800000), (3, 0xB0800000)] [6] =
    some ([0x3F800000], 1) ∧ val (.xcmpr ⟨always, 6, 2, .f32, 1, 0, .rz⟩) [(2, 0x3F800000), (3, 0xB0800000)] [6] =
    some ([0x3F7FFFFF], 1) := by decide +kernel
theorem test_xmul_w : val (.xmulW ⟨always, 6, 2, v 4, .f32, 1⟩) [(2, 0x3F800000), (3, 0x30800000), (4, 0x40400000)] [6, 7] =
    some ([0x40400000, 0x31400000], 0) := by decide +kernel
theorem test_cvt_truncates : val (.cvt ⟨always, .v 1, v 2, ⟨.i32, .f32, .rz, false⟩⟩) [(2, 0xC06CCCCD)] [1] =
    some ([0xFFFFFFFD], 1) := by decide +kernel
theorem test_cvt_clamps : val (.cvt ⟨always, .v 1, v 2, ⟨.i32, .f32, .rz, false⟩⟩) [(2, 0x50DF8476)] [1] =
    some ([0x7FFFFFFF], 0x10) := by decide +kernel
theorem test_cvt_n : val (.cvtN ⟨always, .v 1, v 2, false, .f32, .narrow (v 3) .rn false false⟩)
    [(1, 0xABCD0000), (2, 0x43960000), (3, 0x43E60000)] [1] = some ([0xABCD7E79], 1) := by decide +kernel
theorem test_cvt_n_overflow : val (.cvtN ⟨always, .v 1, v 2, false, .f32, .narrow (v 3) .rn true false⟩)
    [(2, 0x43EB0000)] [1] = some ([0x007F], 5) := by decide +kernel
theorem test_cvt_sr : val (.cvtSr ⟨always, .v 1, v 2, v 3, .bf16⟩) [(2, 0x3F802000), (3, 0x1FFF)] [1] = some ([0x3F81], 1) ∧
    val (.cvtSr ⟨always, .v 1, v 2, v 3, .bf16⟩) [(2, 0x3F802000), (3, 0x2000)] [1] = some ([0x3F80], 1) := by decide +kernel
theorem test_unpk_t3 : val (.unpkT3 ⟨always, 8, v 2, none⟩) [(2, 0x01F5A700)] [8, 9, 10, 11, 12] =
    some ([0xFFFFFFFF, 0xFF0001FF, 0x000001FF, 0, 0xFFFFFFFF], 0) := by decide +kernel
/-- R28, R102: sign and constant selectors. -/
theorem test_bsel : val (.bsel ⟨always, .v 1, v 2, v 3, v 4, ()⟩) [(2, 0x88000011), (3, 0x55), (4, 0x1B081304)] [1] =
    some ([0xFF00FF55], 0) := by decide +kernel
theorem test_scalar_form : (after (sregs [(3, 0xFFFFFFFF)]) (.add ⟨always, .s 2, sc 3, .int 17, ⟨.i32, false⟩⟩)).map
    (fun r => r.sget 2) = some 0 := by decide +kernel
theorem test_false_guard : val (.add ⟨⟨1, false⟩, .v 1, v 2, v 3, ⟨.i32, false⟩⟩) [(1, 7), (2, 1)] [1] = some ([7], 0) := by
  decide +kernel
theorem test_lvote : (after id (.lvote ⟨always, .maskS 4, 0, false⟩)).map (fun r => r.sget 4) = some 0xFFFFFFFF := by
  decide +kernel
theorem test_call_links : (after id (.call ⟨always, 6, 64⟩)).map (fun r => (r.pcGet 31, r.vget 6 31, r.vget 7 31)) =
    some (0x1100, 0x1008, 0) := by decide +kernel
theorem test_laneid : (after id (.csrr ⟨always, .v 3, 0⟩)).map (fun r => (r.vget 3 0, r.vget 3 31)) = some (0, 31) := by
  decide +kernel
/-- R41, R42: b0 takes the word, b1 the old b0. -/
theorem test_latch_shift : (after (fun w => { w with r := { w.r with latch := [(5, 7)], lvalid := 1, lmask := BitVec.allOnes 32 } })
    (.add ⟨always, .b0, .int 17, .int 18, ⟨.i32, false⟩⟩)).map (fun r => (r.latchGet 0 5, r.latchGet 1 5, r.lvalid)) =
    some (3, 7, 3) := by decide +kernel

/-- FIPS 180-4, the hash of "abc" (R429 names the hash of the firmware). -/
theorem test_sha256 : beNat (sha256 [0x61, 0x62, 0x63]) =
    0xba7816bf8f01cfea414140de5dae2223b00361a396177a9cb410ff61f20015ad := by decide +kernel

/-! ### Witnesses: for each statement, states and operands that meet its hypotheses -/

theorem chosen (s : State) (f : Warp → Warp) (i : Instr) :
    (put s f i).Chosen (slot i) (f w0) ((f w0).r.forGroup (BitVec.allOnes 32)) := ⟨rfl, rfl, rfl⟩

/-- A result that is an ok which meets a test. -/
def okAnd {ε α σ : Type} (x : Except ε α × σ) (q : α → Bool) : Bool :=
  match x.1 with
  | .ok p => q p
  | .error _ => false

theorem okAnd_of {ε α σ : Type} {x : Except ε α × σ} {q : α → Bool} (h : okAnd x q = true) :
    ∃ p, x = (.ok p, x.2) ∧ q p = true := by
  rcases x with ⟨_ | p, b⟩
  · simp [okAnd] at h
  · exact ⟨p, rfl, h⟩

/-- A result that is a fault. -/
def faults {α σ : Type} (x : Except MemStop α × σ) (f : SyncFault) : Bool :=
  match x.1 with
  | .error (.fault g) => decide (g = f)
  | _ => false

theorem faults_of {α σ : Type} {x : Except MemStop α × σ} {f : SyncFault} (h : faults x f = true) :
    x = (.error (.fault f), x.2) := by
  rcases x with ⟨(e | e | e) | p, b⟩ <;> simp [faults] at h
  rw [h]

/-- The hypotheses of a table's instruction: it has a row and its window operand reads. -/
def RowReady (row : Instr → Option Row) : Prop :=
  ∃ (s : State) (sl : Slot) (w : Warp) (r : Regs) (i : Instr) (q : Row) (x : Nat),
    s.Chosen sl w r ∧ row i = some q ∧ active r sl.grp q.g ≠ 0 ∧ s.Reads sl w (active r sl.grp q.g) (winOf q.srcs) x

theorem rowReady {row : Instr → Option Row} (i : Instr) (q : Row) (h : row i = some q)
    (ha : active ((id w0).r.forGroup (BitVec.allOnes 32)) (BitVec.allOnes 32) q.g ≠ 0) (hw : winOf q.srcs = none) :
    RowReady row :=
  ⟨_, _, _, _, i, q, 0, chosen base id i, h, ha, .inr ⟨ha, (ready id i).taken, by rw [hw]; rfl⟩⟩

theorem wit_intRow : RowReady intRow :=
  rowReady (.div ⟨always, .v 2, v 4, .int 0, .i64⟩) _ rfl (by decide +kernel) rfl
/-- With NW the result goes into b0 alone (R42). -/
theorem wit_intRow_latch : RowReady intRow :=
  rowReady (.sub ⟨always, .b0, .b 3, .int 17, ⟨.i32, false⟩⟩) _ rfl (by decide +kernel) rfl
theorem wit_carryRow : RowReady carryRow :=
  rowReady (.addc ⟨always, .v 2, v 4, .int 47, 1, .n32, true⟩) _ rfl (by decide +kernel) rfl
theorem wit_addressRow : RowReady (addressRow 0x1000) :=
  rowReady (.sethi20Pc ⟨always, 63, 0xFFFFF⟩) _ rfl (by decide +kernel) rfl
theorem wit_bitRow : RowReady bitRow :=
  rowReady (.bfn ⟨always, .v 255, v 0, .lit 0xFFFFFFFF, v 2, 0xFF⟩) _ rfl (by decide +kernel) rfl
theorem wit_shiftRow : RowReady shiftRow :=
  rowReady (.shl ⟨always, .v 2, v 0, .int 47, .i32⟩) _ rfl (by decide +kernel) rfl
theorem wit_countRow : RowReady countRow :=
  rowReady (.clz ⟨always, .v 2, v 0, .n64⟩) _ rfl (by decide +kernel) rfl
theorem wit_predRow : RowReady predRow :=
  rowReady (.setp ⟨always, 7, v 0, .int 16, .ge, .n32, .xor, 7⟩) _ rfl (by decide +kernel) rfl

/-- A window operand reads: window 1 is bound to 256 bytes at 0x2000 (R19). -/
theorem wit_window : ∃ (s : State) (sl : Slot) (w : Warp) (r : Regs) (i : Instr) (q : Row) (x : Nat),
    s.Chosen sl w r ∧ intRow i = some q ∧ (winOf q.srcs).isSome = true ∧ active r sl.grp q.g ≠ 0 ∧
      s.Reads sl w (active r sl.grp q.g) (winOf q.srcs) x := by
  let f (w : Warp) : Warp := { w with windows := [(0, 0), (0x2000, 256)] }
  let i : Instr := .add ⟨always, .v 2, v 4, .win 1 63, ⟨.i32, false⟩⟩
  have h : okAnd ((ready f i).taken.readWindow 0 (f w0) (some (1, 63, 1))) (fun p => decide (p.2 = false)) = true := by
    decide +kernel
  obtain ⟨p, hp, h2⟩ := okAnd_of h
  obtain ⟨x, b⟩ := p
  simp only [decide_eq_true_eq] at h2
  subst h2
  exact ⟨_, _, _, _, i, _, x, chosen base f i, rfl, rfl, by decide +kernel, .inr ⟨by decide +kernel, _, hp⟩⟩

/-- The same with no flag enabled for a trap: TMASK is 0. -/
def QuietReady (row : Instr → Option Row) : Prop :=
  ∃ (s : State) (sl : Slot) (w : Warp) (r : Regs) (i : Instr) (q : Row) (x : Nat),
    s.Chosen sl w r ∧ row i = some q ∧ s.Reads sl w (active r sl.grp q.g) (winOf q.srcs) x ∧
    (q.multi = false → sl.proof = false →
      flagsOf (active r sl.grp q.g) q.d (q.res ⟨r, x, active r sl.grp q.g, s.opSeq⟩) &&& r.tmask = 0)

theorem quietReady {row : Instr → Option Row} (i : Instr) (q : Row) (h : row i = some q)
    (ha : active ((id w0).r.forGroup (BitVec.allOnes 32)) (BitVec.allOnes 32) q.g ≠ 0) (hw : winOf q.srcs = none) :
    QuietReady row :=
  ⟨_, _, _, _, i, q, 0, chosen base id i, h, .inr ⟨ha, (ready id i).taken, by rw [hw]; rfl⟩, fun _ _ => by
    show _ &&& (0 : BitVec 6) = 0
    simp⟩

theorem wit_floatRow : QuietReady floatRow :=
  quietReady (.fadd ⟨always, .v 2, v 4, .flt 3, plainF .f32 .rn⟩) _ rfl (by decide +kernel) rfl
theorem wit_exactRow : QuietReady exactRow :=
  quietReady (.fmaE ⟨always, .v 4, v 4, .flt 3, v 1, .f32⟩) _ rfl (by decide +kernel) rfl
theorem wit_convertRow : QuietReady convertRow :=
  quietReady (.cvt ⟨always, .v 4, v 4, ⟨.i32, .f32, .rz, false⟩⟩) _ rfl (by decide +kernel) rfl
theorem wit_laneRow : QuietReady laneRow :=
  quietReady (.xlane ⟨always, 4, 4, .int 47, .idx, 5, some 1⟩) _ rfl (by decide +kernel) rfl

theorem wit_AutoScaleEncodes : ∃ (s : State) (sl : Slot) (w : Warp) (r : Regs) (i : CvtBlkEncI) (d : Fin 256),
    s.Chosen sl w r ∧ i.auto = true ∧ i.d = .v d ∧ d ≠ i.sc ∧ active r sl.grp i.g ≠ 0 :=
  ⟨_, _, _, _, ⟨always, .v 2, 8, 3, .e2m1, 3, true, .rn, false⟩, 2, chosen base id .boot, rfl, rfl, by decide, by decide +kernel⟩

/-! Encodings and steps -/

theorem wit_EncodeThenDecode : ∃ (i : Instr) (x : Nat), i.wf = true ∧ encode i = some x ∧ decodeNat x = .ok i :=
  ⟨.nop ⟨always⟩, 0x3F0, by decide +kernel, by decide +kernel, by decide +kernel⟩

/-- Every check of a word: LEN 0b11; an unassigned major; a minor that errp lacks; a LEN that exit lacks; 96 bits with no literal. -/
theorem wit_ReservedWordsAreRefused : ∃ (x y : Nat) (a b c : Nat × List Nat), x % 4 = 3 ∧ y % 4 ≠ 3 ∧
    majorLengths (y / 4 % 256) (minorOf y) = none ∧
    (∀ z ∈ [a, b, c], z.1 % 4 ≠ 3 ∧ majorLengths (z.1 / 4 % 256) (minorOf z.1) = some z.2) ∧
    minors (a.1 / 4 % 256) ≤ minorOf a.1 ∧ (∀ z ∈ [b, c], minorOf z.1 < minors (z.1 / 4 % 256) ∧ BadLength z.1 z.2) :=
  ⟨3, 0, (0xFE * 4 + 2 * 2 ^ 51, [2]), (0xFD * 4 + 1, [2]), (0x01 * 4 + 1, [2, 3]), by decide, by decide, by decide, by decide, by decide,
    by unfold BadLength namesExt; decide⟩

/-- The loaded machine with bytes at 0x1000 and its warp changed. -/
def code (l : List Byte) (f : Warp → Warp) : State :=
  { State.reset.load l with
    agenda := [], issue := [], gangs := [Gang.one 0 1 0], warps := [(0, some (f w0))]
    cmds := [], past := [] }
def nopCode : List Byte := [0xF0, 3, 0, 0, 0, 0, 0, 0]
def nops : State := code nopCode id

theorem code_alone (l : List Byte) (f : Warp → Warp) (k : Nat) (h : k ≠ 0) : (code l f).warp k = none := by
  simp only [code, State.warp, SMap.get]
  rw [if_neg h]
  rfl

/-- What keeps the one warp of such a machine from issuing: nothing. -/
def idleWarp (w : Warp) : Bool :=
  w.results.isEmpty && w.platen.isEmpty && w.heldTok.isEmpty && w.waits.isEmpty && w.levels.isEmpty && w.async.isEmpty && w.det.isEmpty &&
    w.pend.isEmpty && decide (w.proof = none) && decide (w.r.frame = none) && !w.stopped && decide (w.gang = 0)

theorem quiet_of {l : List Byte} {f : Warp → Warp} (h : idleWarp (f w0) = true) : Quiet (code l f) 0 0 (f w0) := by
  simp only [idleWarp, Bool.and_eq_true, List.isEmpty_iff, decide_eq_true_eq, Bool.not_eq_true'] at h
  obtain ⟨⟨⟨⟨⟨⟨⟨⟨⟨⟨⟨h1, h2⟩, h3⟩, h4⟩, h5⟩, h6⟩, h7⟩, h8⟩, h9⟩, ha⟩, hb⟩, hc⟩ := h
  refine ⟨by decide, rfl, fun k _ h => code_alone l f k h, ⟨?_, rfl⟩, ⟨h1, h2, h3, h4, h5, h6, h7, h8, h9, ha⟩, hb,
    Gang.one 0 1 0, ?_, rfl⟩
  · intro x hx
    have hx' : x ∈ [((0 : Nat), f w0)] := hx
    simp only [List.mem_singleton] at hx'
    subst hx'
    exact h8
  · rw [hc]; rfl

/-- The code of slot 0 at a PC stands at `key`. -/
def codeAt (s : State) (w : Warp) (pc : DWord) (key : Nat) : Bool :=
  decide (pc.toNat % 4 = 0 ∧ key % 32 = pc.toNat % 32 ∧ s.poison = [] ∧ s.past = []) &&
    okAnd (s.translate (slotQuadId 0) w.ctx pc .fetch) fun p => decide (p.place = .hbm key)
theorem codeAt_of {s : State} {w : Warp} {pc : DWord} {key : Nat} (h : codeAt s w pc key = true) :
    CodeAt s (s.translate (slotQuadId 0) w.ctx pc .fetch).2 0 w pc key := by
  simp only [codeAt, Bool.and_eq_true, decide_eq_true_eq] at h
  obtain ⟨⟨h1, h2, h3, h4⟩, h5⟩ := h
  obtain ⟨p, hp, h6⟩ := okAnd_of h5
  refine ⟨h1, ⟨p, hp, of_decide_eq_true h6⟩, h2, ?_, ?_⟩
  · intro n _
    simp [State.poisoned, h3]
  · simp [h4]

/-- An instruction whose words stand at 0x1000 + k. -/
def fetchesAt (s : State) (w : Warp) (m : Mask) (k : Nat) (i : Instr) (len : Nat) : Bool :=
  codeAt s w (BitVec.ofNat 64 (0x1000 + k)) (0x20001000 + k) && !isQuad (firstWord s (0x20001000 + k)) &&
    decide (len = lenWords (firstWord s (0x20001000 + k))) && decide (decodeNat (blockWords s (0x20001000 + k)) = .ok i) &&
    decide ((BitVec.ofNat 64 (0x1000 + k) : DWord).toNat % 32 / 4 + len ≤ 8) && !(useOf i).outOfGrant w.vgrant w.tgrant &&
    !staleLatch w.r m (useOf i)
theorem fetches_of {s : State} {w : Warp} {m : Mask} {k : Nat} {i : Instr} {len : Nat} (h : fetchesAt s w m k i len = true) :
    Fetches s (s.translate (slotQuadId 0) w.ctx (BitVec.ofNat 64 (0x1000 + k)) .fetch).2 0 w m (BitVec.ofNat 64 (0x1000 + k)) i len := by
  simp only [fetchesAt, Bool.and_eq_true, decide_eq_true_eq, Bool.not_eq_true'] at h
  obtain ⟨⟨⟨⟨⟨⟨h1, h2⟩, h3⟩, h4⟩, h5⟩, h6⟩, h7⟩ := h
  exact ⟨⟨_, codeAt_of h1, h2, h3, h4⟩, h5, h6, h7⟩

theorem wit_OneGroupIssues : ∃ (s s1 : State) (q slot : Nat) (w : Warp) (pc : DWord) (i : Instr) (len : Nat),
    Quiet s q slot w ∧ w.r.live ≠ 0 ∧ (∀ l, l < 32 → lane w.r.live l = true → w.r.pcGet l = pc) ∧ Fetches s s1 slot w w.r.live pc i len :=
  ⟨nops, _, 0, 0, w0, 0x1000, .nop ⟨always⟩, 2, quiet_of (by decide +kernel), by decide +kernel, by decide +kernel,
    fetches_of (k := 0) (by decide +kernel)⟩

/-- The warp at another PC, with a handler. -/
def from_ (pc : DWord) (w : Warp) : Warp :=
  { w with r := { w.r with vec := 0x8000, pc := (List.range 32).foldl (fun m k => m.set k pc) [] } }
/-- A warp that may enter its handler stands at the word of a state's code. -/
def atWordOf (l : List Byte) (f : Warp → Warp) (k : Nat) (x : State → Warp → Bool) : Bool :=
  idleWarp (f w0) && decide ((f w0).r.vec ≠ 0) && (f w0).boundary && decide ((f w0).r.live ≠ 0) &&
    (List.range 32).all (fun j => (f w0).r.pcGet j == BitVec.ofNat 64 (0x1000 + k)) && x (code l f) (f w0)
/-- What the hypotheses of DecodeChecksRaise share. -/
def AtWord (x : State → Warp → DWord → Prop) : Prop :=
  ∃ (s : State) (q slot : Nat) (w : Warp) (pc : DWord), Quiet s q slot w ∧ CanEnter w ∧ w.r.live ≠ 0 ∧
    (∀ l, l < 32 → lane w.r.live l = true → w.r.pcGet l = pc) ∧ slot = 0 ∧ x s w pc
theorem atWord_of {l : List Byte} {f : Warp → Warp} {k : Nat} {x : State → Warp → Bool} {y : State → Warp → DWord → Prop}
    (h : atWordOf l f k x = true) (hy : x (code l f) (f w0) = true → y (code l f) (f w0) (BitVec.ofNat 64 (0x1000 + k))) : AtWord y := by
  simp only [atWordOf, Bool.and_eq_true, decide_eq_true_eq, List.all_eq_true, List.mem_range, beq_iff_eq] at h
  obtain ⟨⟨⟨⟨⟨h1, h2⟩, h3⟩, h4⟩, h5⟩, h6⟩ := h
  have q := quiet_of (l := l) h1
  exact ⟨code l f, 0, 0, f w0, _, q, ⟨q.empty.2.2.2.2.2.2.2.2.2, h2, h3, q.empty.1⟩, h4, fun j hj _ => h5 j hj, rfl, hy h6⟩

/-- The cause of a failed translation. -/
def causes {α σ : Type} (x : Except NoTrans α × σ) : Bool :=
  match x.1 with
  | .error (.cause _ _) => true
  | _ => false
theorem causes_of {α σ : Type} {x : Except NoTrans α × σ} (h : causes x = true) : ∃ c e s, x = (.error (.cause c e), s) := by
  rcases x with ⟨(⟨c, e⟩ | _) | p, b⟩ <;> simp [causes] at h
  exact ⟨c, e, b, rfl⟩
/-- A PC that nothing maps. -/
theorem wit_DecodeChecksRaise_fetch : AtWord fun s w pc => pc.toNat % 4 = 0 ∧
    ∃ c e s1, s.translate (slotQuadId 0) w.ctx pc .fetch = (.error (.cause c e), s1) :=
  atWord_of (l := []) (f := from_ 0x80001000) (k := 0x80000000)
    (x := fun s w => causes (s.translate (slotQuadId 0) w.ctx (BitVec.ofNat 64 (0x1000 + 0x80000000)) .fetch)) (by decide +kernel)
    fun h => ⟨by decide, causes_of h⟩
/-- The word at 0x1000 + k is there and is no quad. -/
def Here (s : State) (w : Warp) (pc : DWord) (key : Nat) : Prop := (∃ s1, CodeAt s s1 0 w pc key) ∧ isQuad (firstWord s key) = false
def here (k : Nat) (y : State → Warp → Bool) (s : State) (w : Warp) : Bool :=
  codeAt s w (BitVec.ofNat 64 (0x1000 + k)) (0x20001000 + k) && !isQuad (firstWord s (0x20001000 + k)) && y s w
theorem here_of {s : State} {w : Warp} {k : Nat} {y : State → Warp → Bool} (h : here k y s w = true) :
    Here s w (BitVec.ofNat 64 (0x1000 + k)) (0x20001000 + k) ∧ y s w = true := by
  simp only [here, Bool.and_eq_true, Bool.not_eq_true'] at h
  exact ⟨⟨⟨_, codeAt_of h.1.1⟩, h.1.2⟩, h.2⟩
/-- nop in the last word of a block. -/
theorem wit_DecodeChecksRaise_block : AtWord fun s w pc => ∃ key, Here s w pc key ∧ 8 < pc.toNat % 32 / 4 + lenWords (firstWord s key) :=
  atWord_of (l := List.replicate 28 0 ++ nopCode) (f := from_ 0x101C) (k := 28)
    (x := here 28 fun s _ => decide (8 < 7 + lenWords (firstWord s (0x20001000 + 28)))) (by decide +kernel)
    fun h => ⟨_, (here_of h).1, of_decide_eq_true (here_of h).2⟩
/-- nop with a bit of its destination set. -/
theorem wit_DecodeChecksRaise_decode : AtWord fun s w pc => ∃ key e, Here s w pc key ∧
    pc.toNat % 32 / 4 + lenWords (firstWord s key) ≤ 8 ∧ decodeNat (blockWords s key) = .error e :=
  atWord_of (l := [0xF0, 0x83, 0, 0, 0, 0, 0, 0]) (f := from_ 0x1000) (k := 0)
    (x := here 0 fun s _ => decide (lenWords (firstWord s (0x20001000 + 0)) ≤ 8 ∧
      decodeNat (blockWords s (0x20001000 + 0)) = .error .reservedField)) (by decide +kernel)
    fun h => ⟨_, _, (here_of h).1, by simpa using (of_decide_eq_true (here_of h).2).1, (of_decide_eq_true (here_of h).2).2⟩
/-- add into v16 with a grant of 16 registers; add of b0, which is not valid. -/
def addTo (d : Dst) (a : Src) : Instr := .add ⟨always, d, a, v 1, ⟨.i32, false⟩⟩
theorem wit_DecodeChecksRaise_registers (latch : Bool) : AtWord fun s w pc => ∃ key i, Here s w pc key ∧
    pc.toNat % 32 / 4 + lenWords (firstWord s key) ≤ 8 ∧ decodeNat (blockWords s key) = .ok i ∧
    if latch then (useOf i).outOfGrant w.vgrant w.tgrant = false ∧ staleLatch w.r w.r.live (useOf i) = true
    else (useOf i).outOfGrant w.vgrant w.tgrant = true := by
  have go (i : Instr) (n : Nat) (b : Bool) (h : atWordOf (leBytes n 8) (fun w => { from_ 0x1000 w with vgrant := 16 }) 0 (here 0 fun s w =>
      decide (lenWords (firstWord s (0x20001000 + 0)) ≤ 8 ∧ decodeNat (blockWords s (0x20001000 + 0)) = .ok i) &&
      if b then decide ((useOf i).outOfGrant w.vgrant w.tgrant = false ∧ staleLatch w.r w.r.live (useOf i) = true)
      else (useOf i).outOfGrant w.vgrant w.tgrant) = true) : AtWord fun s w pc => ∃ key i, Here s w pc key ∧
      pc.toNat % 32 / 4 + lenWords (firstWord s key) ≤ 8 ∧ decodeNat (blockWords s key) = .ok i ∧
      if b then (useOf i).outOfGrant w.vgrant w.tgrant = false ∧ staleLatch w.r w.r.live (useOf i) = true
      else (useOf i).outOfGrant w.vgrant w.tgrant = true := by
    refine atWord_of h fun h => ?_
    obtain ⟨h1, h2⟩ := here_of h
    simp only [Bool.and_eq_true, decide_eq_true_eq] at h2
    exact ⟨_, i, h1, by simpa using h2.1.1, h2.1.2, by cases b <;> simpa using h2.2⟩
  cases latch
  · exact go (addTo (.v 16) (v 2)) ((encode (addTo (.v 16) (v 2))).getD 0) false (by decide +kernel)
  · exact go (addTo (.v 15) (.b 0)) ((encode (addTo (.v 15) (.b 0))).getD 0) true (by decide +kernel)
theorem wit_DecodeChecksRaise_aligned : AtWord fun _ _ pc => pc.toNat % 4 ≠ 0 :=
  atWord_of (l := nopCode) (f := from_ 0x1002) (k := 2) (x := fun _ _ => true) (by decide +kernel) fun _ => by decide

/-- A quad, then nop. -/
theorem wit_QuadsAreSteppedOver : ∃ (s s1 s2 : State) (q slot : Nat) (w : Warp) (pc : DWord) (key : Nat) (i : Instr) (len : Nat),
    Quiet s q slot w ∧ w.r.live ≠ 0 ∧ (∀ l, l < 32 → lane w.r.live l = true → w.r.pcGet l = pc) ∧
    CodeAt s s1 slot w pc key ∧ firstWord s key = 3 ∧ Fetches s1 s2 slot w w.r.live (pc + 4) i len := by
  let s := code ([3, 0, 0, 0] ++ nopCode) id
  have h : idleWarp w0 && codeAt s w0 (BitVec.ofNat 64 0x1000) 0x20001000 && decide (firstWord s 0x20001000 = 3) &&
      fetchesAt (s.translate (slotQuadId 0) w0.ctx (BitVec.ofNat 64 0x1000) .fetch).2 w0 w0.r.live 4 (.nop ⟨always⟩) 2 = true := by
    decide +kernel
  simp only [Bool.and_eq_true, decide_eq_true_eq] at h
  exact ⟨s, _, _, 0, 0, w0, 0x1000, _, _, 2, quiet_of h.1.1.1, by decide +kernel, by decide +kernel, codeAt_of h.1.1.2, h.1.2, fetches_of h.2⟩

/-- Lane 0 at an add, the others behind it at a sub. -/
theorem wit_EligibleGroupsIssueTogether : ∃ (s s1 s2 : State) (q slot : Nat) (w : Warp) (m : Mask) (a b : DWord) (i j : Instr) (la lb : Nat),
    Quiet s q slot w ∧ m &&& ~~~w.r.live = 0 ∧ m ≠ 0 ∧ w.r.live &&& ~~~m ≠ 0 ∧ a < b ∧
    (∀ l, l < 32 → lane w.r.live l = true → w.r.pcGet l = if lane m l then a else b) ∧ (∀ l, w.r.ages.get l < 32) ∧
    Fetches s s1 slot w m a i la ∧ Fetches s1 s2 slot w (w.r.live &&& ~~~m) b j lb ∧
    ∀ x, x = i ∨ x = j → dualEligible x = true ∧ namesLatch x = false ∧ usesWindow x = false := by
  let i : Instr := .pfn ⟨always, 1, 2, 3, 4, 0⟩
  let j : Instr := .movp ⟨always, .v 1, 1⟩
  let f (w : Warp) : Warp := { w with r := { w.r with pc := w.r.pc.set 0 0x1000 |> fun m => (List.range 31).foldl (fun m k => m.set (k + 1) 0x1008) m } }
  let s := code (leBytes ((encode i).getD 0) 8 ++ leBytes ((encode j).getD 0) 8) f
  have h : idleWarp (f w0) && fetchesAt s (f w0) 1 0 i 2 &&
      fetchesAt (s.translate (slotQuadId 0) (f w0).ctx (BitVec.ofNat 64 0x1000) .fetch).2 (f w0) ((f w0).r.live &&& ~~~1) 8 j 2 &&
      decide ((f w0).r.ages = []) = true := by decide +kernel
  simp only [Bool.and_eq_true, decide_eq_true_eq] at h
  refine ⟨s, _, _, 0, 0, f w0, 1, 0x1000, 0x1008, i, j, 2, 2, quiet_of h.1.1.1, by decide +kernel, by decide, by decide +kernel, by decide,
    by decide +kernel, ?_, fetches_of h.1.1.2, fetches_of h.1.2, by rintro x (rfl | rfl) <;> decide +kernel⟩
  intro l
  rw [h.2]
  exact (by decide : (0 : Nat) < 32)

/-- A step issues one instruction, which runs. -/
def issuesOne (x : Out) : Bool :=
  match x with
  | .next u => (match u.issue with
    | [sl] => (match u.warp sl.w, exec sl.instr u with
      | some _, .next _ => true
      | _, _ => false)
    | _ => false)
  | _ => false

theorem issuesOne_of {x : Out} (h : issuesOne x = true) : ∃ s1 sl w t, x = .next s1 ∧ s1.issue = [sl] ∧
    s1.warp sl.w = some w ∧ exec sl.instr s1 = .next t := by
  unfold issuesOne at h
  split at h
  · rename_i u
    split at h
    · rename_i sl hs
      split at h
      · rename_i w t h1 h2
        exact ⟨u, sl, w, t, rfl, hs, h1, h2⟩
      · simp at h
    · simp at h
  · simp at h

theorem wit_StepRunsTheChosen : ∃ (s s1 : State) (i : Instr) (rest : List Instr), s.halted = false ∧ s.agenda = i :: rest ∧
    exec i { s with agenda := rest } = .next s1 ∧
    ∃ sl w t, s1.issue = [sl] ∧ s1.warp sl.w = some w ∧ exec sl.instr s1 = .next t := by
  have h : issuesOne (exec (.issueOpportunity 0) { { nops with agenda := [.issueOpportunity 0] } with agenda := [] }) = true := by
    decide +kernel
  obtain ⟨s1, sl, w, t, h1, h2⟩ := issuesOne_of h
  exact ⟨{ nops with agenda := [.issueOpportunity 0] }, s1, _, _, by decide +kernel, rfl, h1, sl, w, t, h2⟩

/-- The other form: a step of the agenda that issues nothing. -/
theorem wit_StepRunsTheChosen_other : ∃ (s s1 : State) (i : Instr) (rest : List Instr), s.halted = false ∧
    s.agenda = i :: rest ∧ exec i { s with agenda := rest } = .next s1 ∧ s1.issue = [] :=
  ⟨{ State.reset with agenda := [.clockThrottle true] }, { State.reset with freq := 1500 }, _, _, rfl, rfl, rfl, rfl⟩

/-- A step that issues a pair, both of which run. -/
def issuesTwo (x : Out) : Bool :=
  match x with
  | .next u => (match u.issue with
    | [a, b] => (match u.warp a.w, exec a.instr u with
      | some w, .next t => (match (t.afterIssue a w).warp b.w, exec b.instr (t.afterIssue a w) with
        | some v, .next t2 => ((t2.afterIssue b v).warp a.w).isSome
        | _, _ => false)
      | _, _ => false)
    | _ => false)
  | _ => false
theorem test_pair_issues : issuesTwo (exec (.issueOpportunity 0) (code (leBytes ((encode (.pfn ⟨always, 1, 2, 3, 4, 0⟩)).getD 0) 8 ++
    leBytes ((encode (.movp ⟨always, .v 1, 1⟩)).getD 0) 8) fun w =>
      { w with r := { w.r with pc := (List.range 31).foldl (fun m k => m.set (k + 1) 0x1008) (w.r.pc.set 0 0x1000) } })) = true := by
  decide +kernel

theorem wit_StepKeepsMemoryCanonical : ∃ s t : State, Memory.wf s ∧ s.hbm ≠ [] ∧ step s = .next t := by
  have h : nops.hbm.wf = true := by decide +kernel
  refine ⟨{ nops with halted := true, agenda := [] }, State.pass { nops with halted := true, agenda := [] }, h, ?_, ?_⟩
  rotate_left
  · simp [step, haltedStep]
  show nops.hbm ≠ []
  decide +kernel

/-! Memory instructions -/

/-- A result that is some fault. -/
def isFault {α σ : Type} (x : Except MemStop α × σ) : Bool :=
  match x.1 with
  | .error (.fault _) => true
  | _ => false

theorem isFault_of {α σ : Type} {x : Except MemStop α × σ} (h : isFault x = true) :
    ∃ f, x = (.error (.fault f), x.2) := by
  rcases x with ⟨(e | e | e) | p, b⟩ <;> simp [isFault] at h
  exact ⟨e, rfl⟩

theorem some_of {α : Type} [Inhabited α] {x : Option α} (h : x.isSome = true) : x = some (x.getD default) := by
  cases x
  · simp at h
  · rfl

def A : Mask := BitVec.allOnes 32
/-- The registers that a group of all lanes finds. -/
def R (f : Warp → Warp) : Regs := (f w0).r.forGroup A
/-- Every lane's scalar base: the last word of the page that the program holds. -/
def last (w : Warp) : Warp :=
  let w1 := sregs [(4, 0x1FFFFFFC), (5, 0xFFFFFF), (6, 0x2000), (7, 0x2040)] w
  { w1 with r := { w1.r with p := [(1, 1), (2, 0xFF)] } }
def ldI : LoadI := ⟨always, .s 8, .s 4, .zero, 0, false, .b32, .plain, short 0⟩
def stI : StoreI := ⟨⟨1, false⟩, sc 5, .s 6, .zero, 0, false, .b32, .plain, short 0⟩
def redI : RedI := ⟨always, sc 5, .s 6, .zero, .addI32, .rlx, short 0⟩

/-- Outside a region nothing is forwarded. -/
theorem forwardsClean {w : Warp} {q : MemReq} {r : Regs} {act : Mask} {parts : List Part} (h : w.levels = []) :
    ForwardsClean w q r act parts := by
  intro p hp
  simp only [MemReq.pieces, h, List.isEmpty_nil, Bool.not_true, Bool.and_false, Bool.false_and, Bool.false_eq_true, if_false,
    List.mem_map] at hp
  obtain ⟨x, -, rfl⟩ := hp
  simp [Piece.forwardsBad]

theorem wit_MemoryRequestsGoInFlight : ∃ (s : State) (sl : Slot) (w : Warp) (r : Regs) (i : Instr) (q : MemReq)
    (parts : List Part) (s1 : State), s.Chosen sl w r ∧ memReq i = some q ∧ active r sl.grp q.g ≠ 0 ∧ Alone sl w q.kind ∧
    NotKept w q ∧ checks s sl w r (active r sl.grp q.g) q = (.ok parts, s1) ∧ ForwardsClean w q r (active r sl.grp q.g) parts := by
  have h : okAnd (checks (ready last (.ld ldI)) (slot (.ld ldI)) (last w0) (R last)
    (active (R last) A ldI.g) (loadReq .global ldI)) (fun _ => true) = true := by decide +kernel
  obtain ⟨p, hp, -⟩ := okAnd_of h
  exact ⟨_, _, _, _, .ld ldI, _, p, _, chosen base last _, rfl, by decide +kernel, ⟨rfl, .inl (by decide +kernel)⟩,
    .inl (by decide +kernel), hp, forwardsClean (by decide +kernel)⟩

/-- bar.init with a count of 2^24 − 1; bar.arrive and jload alike. -/
theorem wit_BarrierAndSetAccessesGoInFlight : ∃ (s : State) (sl : Slot) (w : Warp) (r : Regs) (i : Instr) (act : Mask)
    (g : Guard) (c : Prop) (q : MemReq) (parts : List Part) (s1 : State),
    s.Chosen sl w r ∧ lateReq w r act i = some (g, c, q) ∧ act = active r sl.grp g ∧ act ≠ 0 ∧ c ∧ Alone sl w q.kind ∧
    NotKept w q ∧ checks s sl w r act q = (.ok parts, s1) ∧ ForwardsClean w q r act parts := by
  let i : Instr := .barInit ⟨always, 6, sc 5, false, .device, false⟩
  let act : Mask := active (R last) A always
  have hq : ∃ q, lateReq (last w0) (R last) act i = some q := ⟨_, rfl⟩
  obtain ⟨⟨g, c, q⟩, hq⟩ := hq
  have hq' := hq
  simp only [i, lateReq, Option.some.injEq, Prod.mk.injEq] at hq'
  obtain ⟨h1, h2, h3⟩ := hq'
  have h : okAnd (checks (ready last i) (slot i) (last w0) (R last) act q) (fun _ => true) = true := by
    rw [← h3]; decide +kernel
  obtain ⟨p, hp, -⟩ := okAnd_of h
  refine ⟨_, _, _, _, i, act, g, c, q, p, _, chosen base last _, hq, ?_, by decide +kernel, ?_, ⟨rfl, .inl ?_⟩, .inl ?_, hp,
    forwardsClean (by decide +kernel)⟩
  · rw [← h1]; rfl
  · rw [← h2]; decide +kernel
  · decide +kernel
  · decide +kernel

/-- A load at an address that is no multiple of its size. -/
theorem wit_FailedChecksRaise : ∃ (s : State) (sl : Slot) (w : Warp) (r : Regs) (i : Instr) (q : MemReq) (f : SyncFault)
    (s1 : State), s.Chosen sl w r ∧ memReq i = some q ∧ active r sl.grp q.g ≠ 0 ∧ sl.proof = false ∧
    (w.levels = [] ∨ q.kind.forbidden = false) ∧ checks s sl w r (active r sl.grp q.g) q = (.error (.fault f), s1) := by
  let i : LoadI := { ldI with x := short 1 }
  have h : isFault (checks (ready last (.ld i)) (slot (.ld i)) (last w0) (R last) (active (R last) A i.g)
    (loadReq .global i)) = true := by decide +kernel
  obtain ⟨f, hf⟩ := isFault_of h
  exact ⟨_, _, _, _, .ld i, _, f, _, chosen base last _, rfl, by decide +kernel, rfl, .inl (by decide +kernel), hf⟩

/-- One address that passes: the highest canonical one below 2^56 would need a page; this is the last word of one. -/
theorem wit_FailedChecksRaise_form : ∃ (s : State) (sl : Slot) (w : Warp) (r : Regs) (q : MemReq) (act : Mask) (l : Nat)
    (a : Int), s.Chosen sl w r ∧ addresses q r act = [(l, a)] ∧ q.sp = .global ∧
    ∃ p s1, checks s sl w r act q = (.ok p, s1) := by
  have h : okAnd (checks (ready last (.ld ldI)) (slot (.ld ldI)) (last w0) (R last)
    (active (R last) A ldI.g) (loadReq .global ldI)) (fun _ => true) = true := by decide +kernel
  obtain ⟨p, hp, -⟩ := okAnd_of h
  exact ⟨_, _, _, _, loadReq .global ldI, active (R last) A ldI.g, 0, 0x1FFFFFFC, chosen base last (.ld ldI),
    by decide +kernel, rfl, p, _, hp⟩

/-- An access of one address a, as a check of y asks. -/
def Checked (y : State → Slot → Warp → MemReq → Int → Prop) : Prop :=
  ∃ (s : State) (sl : Slot) (w : Warp) (r : Regs) (i : Instr) (q : MemReq) (l : Nat) (a : Int), s.Chosen sl w r ∧ memReq i = some q ∧
    active r sl.grp q.g ≠ 0 ∧ sl.proof = false ∧ w.levels = [] ∧ addresses q r (active r sl.grp q.g) = [(l, a)] ∧ y s sl w q a
theorem checked {y : State → Slot → Warp → MemReq → Int → Prop} (s : State) (f : Warp → Warp) (i : Instr) (q : MemReq) (a : Int)
    (hq : memReq i = some q) (h : decide (active (R f) A q.g ≠ 0 ∧ (f w0).levels = [] ∧
      addresses q (R f) (active (R f) A q.g) = [(0, a)]) = true) (hy : y (put s f i) (slot i) (f w0) q a) : Checked y := by
  obtain ⟨h1, h2, h3⟩ := of_decide_eq_true h
  exact ⟨put s f i, slot i, f w0, R f, i, q, 0, a, chosen s f i, hq, h1, rfl, h2, h3, hy⟩

theorem wit_FailedChecksNameTheirCause_away : Checked fun _ sl w q _ => q.sp = .block ∧ w.home ≠ sl.w :=
  checked base (fun w => { w with home := 1 }) (.lds { ldI with base := .zero }) _ 0 rfl (by decide +kernel) ⟨rfl, by decide +kernel⟩
theorem wit_FailedChecksNameTheirCause_canonical : Checked fun _ _ _ q a => q.sp = .global ∧ canonical (BitVec.ofInt 64 a) = false :=
  checked base (sregs [(4, 0x100000000000000)]) (.ld ldI) _ (2 ^ 56) rfl (by decide +kernel) ⟨rfl, by decide +kernel⟩
/-- Below 0 and at 2^32. -/
theorem wit_FailedChecksNameTheirCause_range (low : Bool) : Checked fun _ sl w q a => q.sp = .block ∧ w.home = sl.w ∧
    a = if low then -4 else 2 ^ 32 := by
  cases low
  · exact checked base (sregs [(4, 0xFFFFFFFC)]) (.lds { ldI with x := short 4 }) _ (2 ^ 32) rfl (by decide +kernel)
      ⟨rfl, by decide +kernel, rfl⟩
  · exact checked base id (.lds { ldI with base := .zero, x := short (-4) }) _ (-4) rfl (by decide +kernel) ⟨rfl, by decide +kernel, rfl⟩
/-- The highest word of global memory but for its lowest bit. -/
theorem wit_FailedChecksNameTheirCause_aligned : Checked fun _ _ _ q a => q.sp = .global ∧ canonical (BitVec.ofInt 64 a) = true ∧
    a % q.size ≠ 0 :=
  checked base (sregs [(4, 0xFFFFFFFFFFFFFD)]) (.ld ldI) _ (2 ^ 56 - 3) rfl (by decide +kernel) ⟨rfl, by decide +kernel, by decide⟩
/-- The first word behind the private bytes, and behind a window of 256. -/
theorem wit_FailedChecksNameTheirCause_private : Checked fun _ _ w q a => q.sp = .priv ∧ Formed q.sp q.size a ∧ w.priv = a.toNat :=
  checked base (fun w => { w with priv := 2032 }) (.ldl { ldI with base := .zero, x := short 2032 }) _ 2032 rfl (by decide +kernel)
    ⟨rfl, by unfold Formed; decide, by decide +kernel⟩
theorem wit_FailedChecksNameTheirCause_window : Checked fun _ _ w q a => ∃ k, q.sp = .window k ∧ Formed q.sp q.size a ∧
    (w.windows.getD k.val (0, 0)).2 = a.toNat :=
  checked base (fun w => { w with windows := [(0, 0), (0x2000, 256)] })
    (.ldk ⟨always, .s 8, 1, .zero, 0, .b32, short 256⟩) _ 256 rfl (by decide +kernel) ⟨1, rfl, by unfold Formed; decide, by decide +kernel⟩
/-- A level with nothing kept. -/
def level : Level := ⟨0x1000, 0, 7, [], [], [], [], [], [], [], false⟩
def inRegion (w : Warp) : Warp := { last w with levels := [level] }

/-- Whatever the instruction: the state, the group and the region are one witness for each of the eight. -/
theorem wit_ForbiddenInsideRegion (i : Instr) : ∃ (s : State) (sl : Slot) (w : Warp) (r : Regs),
    s.Chosen sl w r ∧ sl.instr = i ∧ sl.proof = false ∧ w.levels ≠ [] ∧ active r sl.grp always ≠ 0 :=
  ⟨_, _, _, _, chosen base inRegion i, rfl, rfl, by decide +kernel, by
    show active (R inRegion) A always ≠ 0
    decide +kernel⟩

/-- Stores of eight lanes fill the galley. -/
def stI8 : StoreI := { stI with g := ⟨2, false⟩, idx := .v 3 }
theorem wit_StoresInsideRegionAreHeld : ∃ (s : State) (sl : Slot) (w : Warp) (r : Regs) (i : Instr) (q : MemReq)
    (parts : List Part) (s1 : State), s.Chosen sl w r ∧ memReq i = some q ∧ active r sl.grp q.g ≠ 0 ∧ sl.proof = false ∧
    w.proof = none ∧ w.levels ≠ [] ∧ q.kind = .store ∧ q.sp ≠ .block ∧ checks s sl w r (active r sl.grp q.g) q = (.ok parts, s1) ∧
    w.galleyUsed + 16 * parts.length ≤ 128 ∧ ∀ l ∈ w.levels, ∀ h ∈ l.held, h.id < s1.opSeq := by
  have h : okAnd (checks (ready inRegion (.st stI8)) (slot (.st stI8)) (inRegion w0) (R inRegion)
    (active (R inRegion) A stI8.g) (storeReq .global stI8))
    (fun p => decide ((inRegion w0).galleyUsed + 16 * p.length ≤ 128)) = true := by decide +kernel
  obtain ⟨p, hp, h2⟩ := okAnd_of h
  refine ⟨_, _, _, _, .st stI8, _, p, _, chosen base inRegion _, rfl, by decide +kernel, rfl, by decide +kernel, by decide +kernel, rfl,
    by decide, hp, of_decide_eq_true h2, ?_⟩
  intro l hl k hk
  have h3 : ∀ l ∈ (inRegion w0).levels, l.held = [] := by decide +kernel
  rw [h3 l hl] at hk
  simp at hk

theorem wit_AtomicsInsideRegionAreDeferred : ∃ (s : State) (sl : Slot) (w : Warp) (r : Regs) (i : Instr) (act : Mask)
    (q : MemReq) (parts : List Part) (s1 : State), s.Chosen sl w r ∧ memReq i = some q ∧ act = active r sl.grp q.g ∧
    act ≠ 0 ∧ sl.proof = false ∧ w.proof = none ∧ w.levels ≠ [] ∧ q.kind.deferred = true ∧ w.deferredUsed < 32 ∧
    checks s sl w r act q = (.ok parts, s1) := by
  have h : okAnd (checks (ready inRegion (.red redI)) (slot (.red redI)) (inRegion w0) (R inRegion)
    (active (R inRegion) A redI.g) (redReq .global redI)) (fun _ => true) = true := by decide +kernel
  obtain ⟨p, hp, -⟩ := okAnd_of h
  exact ⟨_, _, _, _, .red redI, _, _, p, _, chosen base inRegion _, rfl, rfl, by decide +kernel, rfl, by decide +kernel, by decide +kernel,
    rfl, by decide +kernel, hp⟩

/-- stc on a queue whose pointer is at 0x2000. -/
def stcI : StcI := ⟨always, some 9, 6, 7, v 8, .b32, short 0⟩
theorem wit_StcHoldsItsGroup : ∃ (s : State) (sl : Slot) (w : Warp) (r : Regs) (i : StcI) (p : Part) (s1 : State) (l0 : Nat),
    s.Chosen sl w r ∧ sl.proof = false ∧ w.proof = none ∧ w.levels = [] ∧ lowest (active r sl.grp i.g) = some l0 ∧
    s.taken.access sl.w w .global 8 .readWrite 2 [(l0, ((r.sget i.q).toNat : Int))] = (.ok [p], s1) := by
  have h : okAnd ((ready last (.stc stcI)).taken.access 0 (last w0) .global 8 .readWrite 2
    [(0, (((R last).sget 6).toNat : Int))]) (fun p => decide (p.length = 1)) = true := by decide +kernel
  obtain ⟨p, hp, h2⟩ := okAnd_of h
  obtain ⟨x, rfl⟩ := List.length_eq_one_iff.1 (of_decide_eq_true h2)
  exact ⟨_, _, _, _, stcI, x, _, 0, chosen base last (.stc stcI), rfl, by decide +kernel, by decide +kernel, by decide +kernel, hp⟩

/-- The machine after an instruction has issued, and the number of the operation it left. -/
def issued (f : Warp → Warp) (i : Instr) : State :=
  match exec i (ready f i) with
  | .next t => t
  | _ => State.reset
def opOf (s : State) : Nat := (((s.warp 0).map fun w => w.pend.map MemOp.id).getD []).getLastD 0
def part0 (s : State) : Warp × MemOp × Piece := ((s.settle 0).partOf 0 (opOf s) 0).getD default

theorem part_of {s : State} (h : ((s.settle 0).partOf 0 (opOf s) 0).isSome = true) :
    (s.settle 0).partOf 0 (opOf s) 0 = some ((part0 s).1, (part0 s).2.1, (part0 s).2.2) := some_of h

/-- What the performing of a part asks for. -/
def Performs (s : State) (k : OpKind → Bool) : Prop :=
  ((s.settle 0).partOf 0 (opOf s) 0).isSome = true ∧ k (part0 s).2.1.kind = true ∧ (part0 s).1.stopped = false ∧
  (s.settle 0).canPerform 0 (part0 s).1 (part0 s).2.1 0 (part0 s).2.2 = true ∧
  (s.settle 0).poisoned (part0 s).2.2.place (part0 s).2.2.size = false ∧ (part0 s).2.2.done = false ∧ (part0 s).1.proof = none ∧ (part0 s).1.r.frame = none ∧
  0 < (part0 s).2.2.size

/-- A load of one lane, and of eight, of which seven wait. -/
theorem wit_LoadsReturnMemory (one : Bool) : ∃ (s0 : State) (slot op k : Nat) (w : Warp) (o : MemOp) (p : Piece),
    (s0.settle slot).partOf slot op k = some (w, o, p) ∧ o.kind.isLoad = true ∧ w.stopped = false ∧
    (s0.settle slot).canPerform slot w o k p = true ∧ (s0.settle slot).poisoned p.place p.size = false ∧
    (s0.settle slot).l1Poisoned (slotForme slot) p = false ∧ IssuedHere w o ∧
    (∀ i, i < p.size → (s0.settle slot).overlayByte slot w o p i = none) ∧
    (∀ d m, o.kind ≠ .kload d m) ∧ (s0.settle slot).l1Copy (slotForme slot) p = none ∧ 0 < p.size ∧ o.pieces.length = if one then 1 else 8 := by
  have go (i : LoadI) (d : Dst) (h : let s := issued last (.ld i)
      Performs s (fun k => decide (k = .load d .b32)) ∧ (∀ i, i < (part0 s).2.2.size →
        (s.settle 0).overlayByte 0 (part0 s).1 (part0 s).2.1 (part0 s).2.2 i = none) ∧
        (s.settle 0).l1Poisoned (slotForme 0) (part0 s).2.2 = false ∧
        (s.settle 0).l1Copy (slotForme 0) (part0 s).2.2 = none ∧ (part0 s).2.1.pieces.length = if one then 1 else 8) :
      ∃ (s0 : State) (slot op k : Nat) (w : Warp) (o : MemOp) (p : Piece),
      (s0.settle slot).partOf slot op k = some (w, o, p) ∧ o.kind.isLoad = true ∧ w.stopped = false ∧
      (s0.settle slot).canPerform slot w o k p = true ∧ (s0.settle slot).poisoned p.place p.size = false ∧
      (s0.settle slot).l1Poisoned (slotForme slot) p = false ∧ IssuedHere w o ∧
      (∀ i, i < p.size → (s0.settle slot).overlayByte slot w o p i = none) ∧
      (∀ d m, o.kind ≠ .kload d m) ∧ (s0.settle slot).l1Copy (slotForme slot) p = none ∧ 0 < p.size ∧ o.pieces.length = if one then 1 else 8 := by
    obtain ⟨⟨h1, h2, h3, h4, h5, -, -, h9, hc⟩, hd, hl, he, hn⟩ := h
    have hk := of_decide_eq_true h2
    refine ⟨issued last (.ld i), 0, opOf _, 0, _, _, _, part_of h1, by rw [hk]; rfl, h3, h4, h5, hl, ?_, hd, ?_, he, hc, hn⟩
    · intro f hf; rw [h9] at hf; simp at hf
    · intro d m; rw [hk]; simp
  cases one
  · exact go { ldI with g := ⟨2, false⟩, d := .v 8, idx := .v 3 } (.v 8) (by unfold Performs; decide +kernel)
  · exact go ldI (.s 8) (by unfold Performs; decide +kernel)

theorem wit_StoresChangeTheirBytes : ∃ (s0 : State) (slot op k : Nat) (w : Warp) (o : MemOp) (p : Piece),
    (s0.settle slot).partOf slot op k = some (w, o, p) ∧ o.kind = .store ∧ (s0.settle slot).canPerform slot w o k p = true ∧
    PlaceExists s0 p.place := by
  let s := issued last (.st stI)
  have h : Performs s (fun k => decide (k = .store)) ∧ (part0 s).2.2.place = .hbm 0x20002000 := by
    unfold Performs; decide +kernel
  obtain ⟨⟨h1, h2, -, h4, -⟩, hp⟩ := h
  exact ⟨s, 0, opOf s, 0, _, _, _, part_of h1, of_decide_eq_true h2, h4, by rw [hp]; trivial⟩

/-- An atomic of eight lanes. -/
theorem wit_AtomicsUpdateTheirWords : ∃ (s0 : State) (slot op k : Nat) (w : Warp) (o : MemOp) (p : Piece)
    (l : List (Place × Nat × Nat)), slot ≠ engineSlot ∧ (s0.settle slot).partOf slot op k = some (w, o, p) ∧
    (s0.settle slot).canPerform slot w o k p = true ∧ updated s0 o.kind p = some l ∧ PlaceExists s0 p.place ∧
    PlaceExists s0 p.place2 ∧ s0.poisoned p.place p.size = false ∧
    (∀ pt pd, o.kind = .catom pt pd → s0.poisoned p.place2 (pairLoSize pt) = false) ∧
    (∀ n b, o.kind = .arrive n b → p.size = 16) ∧ (∀ b d, o.kind = .cas b d → 0 < p.size) ∧ IssuedHere w o ∧ o.pieces.length = 8 := by
  let s := issued last (.atom ⟨⟨2, false⟩, .v 8, .s 6, .v 3, .addI32, .rlx, short 0⟩)
  have h : Performs s (fun k => decide (k = .atom .addI32 (some (.v 8)))) ∧ (part0 s).2.2.place = .hbm 0x20002000 ∧
      (part0 s).2.2.place2 = .hbm 0x20002000 ∧ s.poisoned (part0 s).2.2.place (part0 s).2.2.size = false ∧
      (part0 s).2.1.pieces.length = 8 := by
    unfold Performs; decide +kernel
  obtain ⟨⟨h1, h2, h3, h4, h5, -, -, h9, -⟩, hp, hp2, hq, hn⟩ := h
  have hk := of_decide_eq_true h2
  refine ⟨s, 0, opOf s, 0, _, _, _, _, by decide, part_of h1, h4, by rw [hk]; rfl, by rw [hp]; trivial, by rw [hp2]; trivial, hq,
    ?_, ?_, ?_, ?_, hn⟩
  · intro a b; rw [hk]; simp
  · intro a b; rw [hk]; simp
  · intro a b; rw [hk]; simp
  · intro f hf; rw [h9] at hf; simp at hf

/-- stc of eight lanes has issued; its elements. -/
def stcIssued : State := issued last (.stc { stcI with g := ⟨2, false⟩ })
def stcElems : List (Nat × Nat) := (List.range 8).map fun l => (l, 0)
theorem stc_performs : Performs stcIssued (fun k => decide (k = .stc (some 9) .b32 0x2040 stcElems)) := by unfold Performs; decide +kernel
theorem stc_place : (part0 stcIssued).2.2.place = .hbm 0x20002000 ∧
    stcIssued.poisoned (part0 stcIssued).2.2.place (part0 stcIssued).2.2.size = false ∧
    (part0 stcIssued).2.1.pieces = [(part0 stcIssued).2.2] ∧
    (∀ x ∈ stcElems, x.1 < 32 ∧ lane (part0 stcIssued).1.r.live x.1 = true) ∧ (stcElems.map Prod.fst).Nodup := by decide +kernel
/-- Where its elements go. -/
def stcPlaces : Except MemStop (List Part) × State :=
  ((stcIssued.settle 0).performPart 0 (part0 stcIssued).1 (part0 stcIssued).2.1 0 (part0 stcIssued).2.2).1.stcParts 0 (part0 stcIssued).1 .b32
    (stcElements .b32 0x2040 stcElems (stcIssued.readLe (part0 stcIssued).2.2.place (part0 stcIssued).2.2.size))
theorem stc_places : okAnd stcPlaces (fun _ => true) = true := by decide +kernel
theorem stc_parts : ∃ ps, ((stcIssued.settle 0).performPart 0 (part0 stcIssued).1 (part0 stcIssued).2.1 0 (part0 stcIssued).2.2).1.stcParts 0
    (part0 stcIssued).1 .b32 (stcElements .b32 0x2040 stcElems (stcIssued.readLe (part0 stcIssued).2.2.place (part0 stcIssued).2.2.size)) =
      (.ok ps, stcPlaces.2) := by
  obtain ⟨ps, hps, -⟩ := okAnd_of stc_places
  exact ⟨ps, hps⟩

theorem wit_StcTakesConsecutiveSlots : ∃ (s0 : State) (slot op : Nat) (w : Warp) (o : MemOp) (p : Piece)
    (ri : Option (Fin 256)) (mw : MW) (base : DWord) (elems : List (Nat × Nat)) (parts : List Part) (s2 : State),
    slot < engineSlot ∧ (s0.settle slot).partOf slot op 0 = some (w, o, p) ∧ o.pieces = [p] ∧ o.kind = .stc ri mw base elems ∧ p.done = false ∧
    (s0.settle slot).canPerform slot w o 0 p = true ∧ s0.poisoned p.place p.size = false ∧ PlaceExists s0 p.place ∧
    w.proof = none ∧ w.r.frame = none ∧ (∀ x ∈ elems, x.1 < 32 ∧ lane w.r.live x.1 = true) ∧ (elems.map Prod.fst).Nodup ∧
    ((s0.settle slot).performPart slot w o 0 p).1.stcParts slot w mw (stcElements mw base elems (s0.readLe p.place p.size)) =
      (.ok parts, s2) := by
  have h1 := stc_performs
  have h2 := stc_place
  obtain ⟨ps, hps⟩ := stc_parts
  exact ⟨stcIssued, 0, opOf stcIssued, (part0 stcIssued).1, (part0 stcIssued).2.1, (part0 stcIssued).2.2, some 9, .b32, 0x2040, stcElems, ps,
    stcPlaces.2, by decide, part_of h1.1, h2.2.2.1, of_decide_eq_true h1.2.1, h1.2.2.2.2.2.1, h1.2.2.2.1, h2.2.1, by rw [h2.1]; trivial, h1.2.2.2.2.2.2.1,
    h1.2.2.2.2.2.2.2.1, h2.2.2.2.1, h2.2.2.2.2, hps⟩

/-- A catom of eight lanes, its requests and their results. -/
def catomF (w : Warp) : Warp := sregs [(4, 0x2000), (6, 0x100)] (last w)
def catomI : CatomI := ⟨⟨2, false⟩, 18, .s 4, .s 6, .bf16, none, .rlx, short 2⟩
def catomX : Rd := ⟨R catomF, 0, active (R catomF) A catomI.g, 0⟩
def catomHis : List (Nat × Int) := (lanesOf catomX.act).map fun l => (l, (catomReq catomI).ea catomX l)
def catomLos : List (Nat × Int) :=
  (lanesOf catomX.act).map fun l => (l, ((wrap ((catomReq catomI).ea catomX l) 64 + catomDelta catomX catomI l : Nat) : Int))
def catomHi : Except MemStop (List Part) × State :=
  (ready catomF (.catom catomI)).taken.access 0 (catomF w0) .global (catomReq catomI).size .readWrite 2 catomHis
def catomLo : Except MemStop (List Part) × State :=
  catomHi.2.access 0 (catomF w0) .global (pairLoSize catomI.pt) .readWrite 2 catomLos
theorem catom_forms : (∀ y ∈ catomHis, checkForm .global (catomReq catomI).size 2 y.2 = none) ∧
    (∀ y ∈ catomLos, checkForm .global (pairLoSize catomI.pt) 2 y.2 = none) := by decide +kernel
theorem catom_parts : okAnd catomHi (fun hi => okAnd catomLo fun lo => decide
    (∀ p ∈ hi.zip lo, splitHome p.1 p.2 (catomDelta catomX catomI p.1.lane) = false)) = true := by decide +kernel

theorem wit_CatomGoesInFlight : ∃ (s : State) (sl : Slot) (w : Warp) (r : Regs) (i : CatomI) (hi lo : List Part) (s1 s2 : State),
    let act := active r sl.grp i.g
    let x : Rd := ⟨r, 0, act, 0⟩
    let q := catomReq i
    let his := (lanesOf act).map fun l => (l, q.ea x l)
    let los := (lanesOf act).map fun l => (l, ((wrap (q.ea x l) 64 + catomDelta x i l : Nat) : Int))
    s.Chosen sl w r ∧ act ≠ 0 ∧ Alone sl w q.kind ∧ w.levels = [] ∧
    (∀ y ∈ his, checkForm .global q.size 2 y.2 = none) ∧ (∀ y ∈ los, checkForm .global (pairLoSize i.pt) 2 y.2 = none) ∧
    s.taken.access sl.w w .global q.size .readWrite 2 his = (.ok hi, s1) ∧
    s1.access sl.w w .global (pairLoSize i.pt) .readWrite 2 los = (.ok lo, s2) ∧
    ∀ p ∈ hi.zip lo, splitHome p.1 p.2 (catomDelta x i p.1.lane) = false := by
  obtain ⟨hi, ha, h2⟩ := okAnd_of catom_parts
  obtain ⟨lo, hb, h3⟩ := okAnd_of h2
  exact ⟨ready catomF (.catom catomI), slot (.catom catomI), catomF w0, R catomF, catomI, hi, lo, catomHi.2, catomLo.2,
    chosen base catomF (.catom catomI), by decide +kernel, ⟨rfl, .inl (by decide +kernel)⟩, by decide +kernel, catom_forms.1,
    catom_forms.2, ha, hb, of_decide_eq_true h3⟩

/-- A guard that no lane passes: p1 reads as zero. -/
theorem wit_NoActiveLaneOnlyIssues : ∃ (s : State) (sl : Slot) (w : Warp) (r : Regs) (i : Instr) (q : MemReq),
    s.Chosen sl w r ∧ memReq i = some q ∧ active r sl.grp q.g = 0 :=
  ⟨_, _, _, _, .ld { ldI with g := ⟨1, false⟩ }, _, chosen base id (.ld { ldI with g := ⟨1, false⟩ }), rfl, by
    decide +kernel⟩
theorem wit_NoActiveLaneOnlyIssues_control : ∃ (s : State) (sl : Slot) (w : Warp) (r : Regs) (b : Branch) (j : JsetI),
    s.Chosen sl w r ∧ branchRow sl.pc r (.brx ⟨⟨0, true⟩, .s 3⟩) = some b ∧ active r sl.grp b.g = 0 ∧
    active r sl.grp j.g = 0 :=
  ⟨_, _, _, _, _, ⟨⟨0, true⟩, 15⟩, chosen base id (.brx ⟨⟨0, true⟩, .s 3⟩), rfl, by decide +kernel, by decide +kernel⟩

/-- A store whose page is being moved. -/
theorem wit_MovedAccessesAreSentAgain : ∃ (s0 : State) (slot op k : Nat) (w : Warp) (o : MemOp) (p : Piece) (x : Place) (s1 : State),
    (s0.settle slot).partOf slot op k = some (w, o, p) ∧ o.kind.isLoad = false ∧ (∀ a b, o.kind ≠ .catom a b) ∧
    (s0.settle slot).partReady slot w o k p = true ∧ (s0.settle slot).isMoving p.place = true ∧
    needsFabric slot o.kind p = false ∧ p.sent = false ∧ (s0.settle slot).relocate (slotQuadId slot) w.ctx o.kind p.va = (.ok (some x), s1) := by
  let s : State := { issued last (.st stI) with moving := [⟨0, 0, 0, 0, 2 ^ 29, 0x2000001F⟩] }
  have h : ((s.settle 0).partOf 0 (opOf s) 0).isSome = true ∧ (part0 s).2.1.kind = .store ∧
      (s.settle 0).partReady 0 (part0 s).1 (part0 s).2.1 0 (part0 s).2.2 = true ∧
      (s.settle 0).isMoving (part0 s).2.2.place = true ∧ needsFabric 0 (part0 s).2.1.kind (part0 s).2.2 = false ∧
      (part0 s).2.2.sent = false ∧
      okAnd ((s.settle 0).relocate (slotQuadId 0) (part0 s).1.ctx (part0 s).2.1.kind (part0 s).2.2.va) (fun x => x.isSome) = true := by
    decide +kernel
  obtain ⟨h1, h2, h3, h4, h5, h6, h7⟩ := h
  obtain ⟨x, hx, hy⟩ := okAnd_of h7
  cases x with
  | none => simp at hy
  | some x =>
    refine ⟨s, 0, opOf s, 0, _, _, _, x, _, part_of h1, by rw [h2]; rfl, ?_, h3, h4, h5, h6, hx⟩
    intro a b h
    rw [h2] at h
    cases h

/-- A warp whose walk is due: the page stays; the other case has a leaf that is moving. -/
theorem wit_MovedAccessesAreSentAgain_walk : ∃ (s : State) (slot : Nat) (w : Warp) (x : Wait) (va : DWord),
    s.warp slot = some w ∧ w.waits = [x] ∧ x.kind = .walk va 0 ∧
    (∀ e, s.walk w.ctx va = .ok e → pteMig e.leaf.toNat = false) := by
  let f (w : Warp) : Warp := { w with waits := [⟨A, .walk 0x2000 0, 2, 0⟩] }
  refine ⟨ready f .boot, 0, f w0, _, 0x2000, rfl, rfl, rfl, ?_⟩
  have h : (match (ready f .boot).walk 0 0x2000 with
    | .ok e => decide (pteMig e.leaf.toNat = false)
    | .error _ => true) = true := by decide +kernel
  intro e he
  rw [show (f w0).ctx = 0 by decide +kernel] at he
  rw [he] at h
  exact of_decide_eq_true h
theorem wit_MovedAccessesAreSentAgain_walk_again : ∃ (s : State) (slot : Nat) (w : Warp) (x : Wait) (va : DWord),
    s.warp slot = some w ∧ w.waits = [x] ∧ x.kind = .walk va 0 ∧
    (∀ e, s.walk w.ctx va = .ok e → pteMig e.leaf.toNat = true) ∧ ∃ e, s.walk w.ctx va = .ok e := by
  let f (w : Warp) : Warp := { w with waits := [⟨A, .walk 0x2000 0, 2, 0⟩] }
  let s : State := put (base.writeLe (.hbm 0x30000) (0x2000005F) 8) f .boot
  refine ⟨s, 0, f w0, _, 0x2000, rfl, rfl, rfl, ?_⟩
  have h : (match s.walk 0 0x2000 with
    | .ok e => decide (pteMig e.leaf.toNat = true)
    | .error _ => false) = true := by decide +kernel
  rw [show (f w0).ctx = 0 by decide +kernel]
  cases he : s.walk 0 0x2000 with
  | error _ => rw [he] at h; simp at h
  | ok e =>
    rw [he] at h
    exact ⟨fun a ha => by cases ha; exact of_decide_eq_true h, e, rfl⟩

/-! Control, sets, synchronization -/

/-- Scalar 3 names a target that is a multiple of 4, scalar 4 one that is not. -/
def targets (w : Warp) : Warp := sregs [(3, 0xFFFFFFFFFFFFFFFC), (4, 0xFFFFFFFFFFFFFFFD)] w

theorem wit_BranchesTransferControl : ∃ (s : State) (sl : Slot) (w : Warp) (r : Regs) (i : Instr) (b : Branch),
    s.Chosen sl w r ∧ branchRow sl.pc r i = some b ∧ b.checked = true ∧
    ∀ l, l < 32 → lane (active r sl.grp b.g) l = true → (b.target l).toNat % 4 = 0 :=
  ⟨_, _, _, _, .callx ⟨always, 254, .s 3⟩, _, chosen base targets (.callx ⟨always, 254, .s 3⟩), rfl, rfl, by
    intro l _ _
    show ((R targets).sget 3).toNat % 4 = 0
    decide +kernel⟩

theorem wit_MisalignedTargetsRaise : ∃ (s : State) (sl : Slot) (w : Warp) (r : Regs) (i : Instr) (b : Branch),
    s.Chosen sl w r ∧ sl.proof = false ∧ branchRow sl.pc r i = some b ∧ b.checked = true ∧
    ∃ l, l < 32 ∧ lane (active r sl.grp b.g) l = true ∧ (b.target l).toNat % 4 ≠ 0 :=
  ⟨_, _, _, _, .brx ⟨always, .s 4⟩, _, chosen base targets (.brx ⟨always, .s 4⟩), rfl, rfl, rfl, 31, by decide, by decide +kernel, by
    show ((R targets).sget 4).toNat % 4 ≠ 0
    decide +kernel⟩

/-- A warp with one set register. -/
def withSet (x : JSet) (w : Warp) : Warp := { w with r := { w.r with j := SMap.set [] 15 x } }

theorem wit_JwaitChecks_free : ∃ (s : State) (sl : Slot) (w : Warp) (r : Regs) (i : JsetI), s.Chosen sl w r ∧
    sl.proof = false ∧ active r sl.grp i.g ≠ 0 ∧ (r.jget i.j).open_ = false :=
  ⟨_, _, _, _, ⟨always, 15⟩, chosen base id (.jwait ⟨always, 15⟩), rfl, by decide +kernel, by decide +kernel⟩
theorem wit_JwaitChecks_member : ∃ (s : State) (sl : Slot) (w : Warp) (r : Regs) (i : JsetI), s.Chosen sl w r ∧
    sl.proof = false ∧ active r sl.grp i.g ≠ 0 ∧ (r.jget i.j).open_ = true ∧
    active r sl.grp i.g &&& ~~~(r.jget i.j).members ≠ 0 :=
  ⟨_, _, _, _, ⟨always, 15⟩, chosen base (withSet ⟨0x7FFFFFFF, 0, 0, true⟩) (.jwait ⟨always, 15⟩), rfl, by decide +kernel,
    by decide +kernel, by decide +kernel⟩
theorem wit_JwaitChecks_meet : ∃ (s : State) (sl : Slot) (w : Warp) (r : Regs) (i : JsetI), s.Chosen sl w r ∧
    sl.proof = false ∧ active r sl.grp i.g ≠ 0 ∧ (r.jget i.j).open_ = true ∧
    active r sl.grp i.g &&& ~~~(r.jget i.j).members = 0 ∧ (r.jget i.j).arrived ≠ 0 ∧ sl.pc ≠ (r.jget i.j).meet :=
  ⟨_, _, _, _, ⟨always, 15⟩, chosen base (withSet ⟨A, 1, 0x1008, true⟩) (.jwait ⟨always, 15⟩), rfl, by decide +kernel,
    by decide +kernel, by decide +kernel, by decide +kernel, by decide +kernel⟩

theorem wit_JwaitArrivesAndWaits : ∃ (s : State) (sl : Slot) (w : Warp) (r : Regs) (i : JsetI),
    let act := active r sl.grp i.g
    let x := r.jget i.j
    let y : JSet := { x with arrived := x.arrived ||| act, meet := if x.arrived = 0 then sl.pc else x.meet }
    s.Chosen sl w r ∧ sl.proof = false ∧ act ≠ 0 ∧ x.open_ = true ∧ act &&& ~~~x.members = 0 ∧
    (x.arrived = 0 ∨ sl.pc = x.meet) ∧ ¬NoneReady (r.jset i.j y) := by
  refine ⟨_, _, _, _, ⟨always, 15⟩, chosen base (withSet ⟨A, 0, 0, true⟩) (.jwait ⟨always, 15⟩), rfl, by decide +kernel,
    by decide +kernel, by decide +kernel, by decide +kernel, ?_⟩
  intro h
  exact h 15 (by decide) (by decide +kernel)
/-- The same where a lane that the guard leaves out runs on. -/
theorem wit_JwaitArrivesAndWaits_partial : ∃ (s : State) (sl : Slot) (w : Warp) (r : Regs) (i : JsetI),
    let act := active r sl.grp i.g
    let x := r.jget i.j
    s.Chosen sl w r ∧ sl.proof = false ∧ act ≠ 0 ∧ x.open_ = true ∧ act &&& ~~~x.members = 0 ∧
    (x.arrived = 0 ∨ sl.pc = x.meet) ∧ ∃ l, l < 32 ∧ lane r.live l = true ∧ lane act l = false ∧ ¬WaitsAtJwait w l := by
  let f (w : Warp) : Warp := { withSet ⟨A, 2, 0x1000, true⟩ w with r := { (withSet ⟨A, 2, 0x1000, true⟩ w).r with p := [(1, 1)] } }
  refine ⟨_, _, _, _, ⟨⟨1, false⟩, 15⟩, chosen base f (.jwait ⟨⟨1, false⟩, 15⟩), rfl, by decide +kernel,
    by decide +kernel, by decide +kernel, by decide +kernel, 31, by decide, by decide +kernel, by decide +kernel, ?_⟩
  rintro ⟨x, hx, -⟩
  have h : (f w0).waits = [] := by decide +kernel
  rw [h] at hx
  simp at hx

theorem wit_SetInstructionsChangeTheirSet : ∃ (s : State) (sl : Slot) (w : Warp) (r : Regs) (i : Instr) (act : Mask) (g : Guard)
    (j : Fin 16) (c : Prop) (x : JSet), s.Chosen sl w r ∧ setRow r act i = some (g, j, c, x) ∧ act = active r sl.grp g ∧
    act ≠ 0 ∧ c ∧ (∃ q, i = .jquit q) ∧ NoneReady (r.jset j x) := by
  refine ⟨_, _, _, _, .jquit ⟨always, 15⟩, active (R (withSet ⟨A, 0, 0, true⟩)) A always, _, _, _, _,
    chosen base (withSet ⟨A, 0, 0, true⟩) (.jquit ⟨always, 15⟩), rfl, rfl, by decide +kernel, ?_, ⟨_, rfl⟩, ?_⟩
  · show ((R (withSet ⟨A, 0, 0, true⟩)).jget 15).open_ = true
    decide +kernel
  · unfold NoneReady
    decide +kernel
theorem wit_SetInstructionsChangeTheirSet_open : ∃ (s : State) (sl : Slot) (w : Warp) (r : Regs) (i : Instr) (act : Mask)
    (g : Guard) (j : Fin 16) (c : Prop) (x : JSet), s.Chosen sl w r ∧ setRow r act i = some (g, j, c, x) ∧
    act = active r sl.grp g ∧ act ≠ 0 ∧ c := by
  refine ⟨_, _, _, _, .jopen ⟨always, 0, some (.int 47)⟩, active (R id) A always, _, _, _, _,
    chosen base id (.jopen ⟨always, 0, some (.int 47)⟩), rfl, rfl, by decide +kernel, ?_⟩
  show ((R id).jget 0).arrived = 0
  decide +kernel

/-- Every member of the set has arrived. -/
def arrivedAll (w : Warp) : Warp :=
  { withSet ⟨A, A, 0x1000, true⟩ w with waits := [⟨A, .jwait 15, 2, 0⟩] }
theorem wit_ReleaseFreesWaitingLanes : ∃ (w : Warp) (k : Fin 16) (l len : Nat), ¬NoneReady w.r ∧ l < 32 ∧
    ((w.r.jget k).open_ = true ∧ (w.r.jget k).arrived ≠ 0 ∧ (w.r.jget k).arrived = (w.r.jget k).members) ∧
    lane (w.r.jget k).arrived l = true ∧ (∀ m : Fin 16, lane (w.r.jget m).arrived l = true → m = k) ∧
    (∃ x ∈ w.waits, x.kind = .jwait k ∧ x.lanes &&& (w.r.jget k).arrived ≠ 0) ∧
    ∀ x ∈ w.waits, x.kind = .jwait k → x.lanes &&& (w.r.jget k).arrived ≠ 0 → x.len = len :=
  ⟨arrivedAll w0, 15, 31, 2, fun h => h 15 (by decide) (by decide +kernel), by decide, by decide +kernel, by decide +kernel,
    by decide +kernel, by decide +kernel, by decide +kernel⟩

theorem wit_ExitRetiresLanes : ∃ (s : State) (sl : Slot) (w : Warp) (r : Regs) (i : PlainI), s.Chosen sl w r ∧ sl.proof = false ∧
    active r sl.grp i.g ≠ 0 ∧ w.levels = [] ∧ r.j.wf = true ∧ r.live &&& ~~~(active r sl.grp i.g) = 0 :=
  ⟨_, _, _, _, ⟨always⟩, chosen base id (.exit ⟨always⟩), rfl, by decide +kernel, by decide +kernel, by decide +kernel,
    by decide +kernel⟩

theorem wit_FencesGoInFlight : ∃ (s : State) (sl : Slot) (w : Warp) (r : Regs) (i : FenceI), s.Chosen sl w r ∧
    sl.proof = false ∧ active r sl.grp i.g ≠ 0 ∧ w.levels = [] :=
  ⟨_, _, _, _, ⟨always, .rel, .gang⟩, chosen base id (.fence ⟨always, .rel, .gang⟩), rfl, by decide +kernel, by decide +kernel⟩
theorem wit_FencesGoInFlight_region : ∃ (s : State) (sl : Slot) (w : Warp) (r : Regs) (i j : FenceI), s.Chosen sl w r ∧
    sl.proof = false ∧ active r sl.grp i.g ≠ 0 ∧ w.levels ≠ [] ∧ i.ord = .rel ∧ active r sl.grp j.g ≠ 0 ∧ j.ord = .sc :=
  ⟨_, _, _, _, ⟨always, .rel, .gang⟩, ⟨always, .sc, .system⟩, chosen base inRegion (.fence ⟨always, .rel, .gang⟩), rfl,
    by decide +kernel, by decide +kernel, rfl, by decide +kernel, rfl⟩

/-- A barrier of one warp at 0x2000 in its first phase, and a counter 5 at 0x2040. -/
def objects : State := (base.writeLe (.hbm 0x20002000) (1 + 2 ^ 32) 16).writeLe (.hbm 0x20002040) 5 8

theorem objectReads {s : State} {f : Warp → Warp} {i : Instr} {b : Bool} {va : DWord} {n x : Nat}
    (h : okAnd ((put s f i).taken.objectPart 0 (f w0) b va n .read 0)
      (fun p => decide ((((put s f i).taken.objectPart 0 (f w0) b va n .read 0).2).readNow 0 (f w0) p = some x)) = true) :
    ObjectReads (put s f i) (slot i) (f w0) b va n x := by
  obtain ⟨p, hp, h2⟩ := okAnd_of h
  exact ⟨p, _, hp, of_decide_eq_true h2⟩

/-- The phase is 0: `par` 0 holds the group, `par` 1 lets it go on. -/
theorem wit_BarWaitHoldsUntilThePhase : ∃ (s : State) (sl : Slot) (w : Warp) (r : Regs) (i : BarWaitI) (x : Nat),
    s.Chosen sl w r ∧ sl.proof = false ∧ active r sl.grp i.g ≠ 0 ∧
    ObjectReads s sl w i.scratch (barAddress r i.scratch i.obj) 16 x ∧ WellFormedBarrier x ∧
    phaseOf x = (⟨r, 0, active r sl.grp i.g, 0⟩ : Rd).word i.par 0 % 2 :=
  ⟨_, _, _, _, ⟨always, 6, .int 16, false, .device, false⟩, 1 + 2 ^ 32,
    chosen objects last (.barWait ⟨always, 6, .int 16, false, .device, false⟩), rfl, by decide +kernel,
    objectReads (by decide +kernel), by unfold WellFormedBarrier; decide, by decide +kernel⟩
theorem wit_BarWaitHoldsUntilThePhase_go : ∃ (s : State) (sl : Slot) (w : Warp) (r : Regs) (i : BarWaitI) (x : Nat),
    s.Chosen sl w r ∧ sl.proof = false ∧ active r sl.grp i.g ≠ 0 ∧
    ObjectReads s sl w i.scratch (barAddress r i.scratch i.obj) 16 x ∧ WellFormedBarrier x ∧
    phaseOf x ≠ (⟨r, 0, active r sl.grp i.g, 0⟩ : Rd).word i.par 0 % 2 :=
  ⟨_, _, _, _, ⟨always, 6, .int 17, false, .device, false⟩, 1 + 2 ^ 32,
    chosen objects last (.barWait ⟨always, 6, .int 17, false, .device, false⟩), rfl, by decide +kernel,
    objectReads (by decide +kernel), by unfold WellFormedBarrier; decide, by decide +kernel⟩
theorem wit_BarTestWritesThePhase : ∃ (s : State) (sl : Slot) (w : Warp) (r : Regs) (i : BarTestI) (x : Nat),
    s.Chosen sl w r ∧ sl.proof = false ∧ active r sl.grp i.g ≠ 0 ∧
    ObjectReads s sl w i.scratch (barAddress r i.scratch i.obj) 16 x ∧ WellFormedBarrier x :=
  ⟨_, _, _, _, ⟨always, 7, 6, .int 16, false, .device, false⟩, 1 + 2 ^ 32,
    chosen objects last (.barTest ⟨always, 7, 6, .int 16, false, .device, false⟩), rfl, by decide +kernel,
    objectReads (by decide +kernel), by unfold WellFormedBarrier; decide⟩

/-- The counter is 5: 5 is reached, 6 is not. -/
theorem wit_WaitcComparesUnsigned : ∃ (s : State) (sl : Slot) (w : Warp) (r : Regs) (i j : WaitcI) (x : Nat),
    s.Chosen sl w r ∧ sl.proof = false ∧ active r sl.grp i.g ≠ 0 ∧ ObjectReads s sl w false (r.sget i.ctr) 8 x ∧
    (⟨r, 0, active r sl.grp i.g, 0⟩ : Rd).dword i.value 0 = x ∧ j.ctr = i.ctr ∧ j.g = i.g ∧
    (⟨r, 0, active r sl.grp j.g, 0⟩ : Rd).dword j.value 0 = x + 1 :=
  ⟨_, _, _, _, ⟨always, 7, .int 21, .device⟩, ⟨always, 7, .int 22, .device⟩, 5,
    chosen objects last (.waitc ⟨always, 7, .int 21, .device⟩), rfl, by decide +kernel,
    objectReads (by decide +kernel), by decide +kernel, rfl, rfl, by decide +kernel⟩

/-- One load is counted by sb 0: a limit of 1 lets go, 0 holds; pause 0 and pause 5000. -/
theorem wit_WaitsbAndPauseHold : ∃ (s : State) (sl : Slot) (w : Warp) (r : Regs) (i j : WaitsbI) (a b : PauseI), s.Chosen sl w r ∧
    sl.proof = false ∧ active r sl.grp always ≠ 0 ∧ i.g = always ∧ j.g = always ∧ a.g = always ∧ b.g = always ∧
    w.sbCount i.sb ≤ (⟨r, 0, active r sl.grp i.g, 0⟩ : Rd).word i.n 0 ∧
    (⟨r, 0, active r sl.grp j.g, 0⟩ : Rd).word j.n 0 < w.sbCount j.sb ∧
    (⟨r, 0, active r sl.grp a.g, 0⟩ : Rd).word a.n 0 = 0 ∧ (⟨r, 0, active r sl.grp b.g, 0⟩ : Rd).word b.n 0 ≠ 0 :=
  ⟨_, _, _, _, ⟨always, 0, .int 17⟩, ⟨always, 0, .int 16⟩, ⟨always, .int 16⟩, ⟨always, sc 5⟩, chosen base (fun w =>
    { last w with pend := [⟨9, .store, [], .plain, .warp, 1, 0, false, 0x1000, 0, A, 0⟩] }) (.pause ⟨always, sc 5⟩),
    rfl, by decide +kernel, rfl, rfl, rfl, rfl, by decide +kernel, by decide +kernel, by decide +kernel, by decide +kernel⟩

/-- Two banks, the first a FIFO with eight entries. -/
def twoBanks : Block :=
  { forme := 0, banks := [0, 1], modes := [.fifo, .scratch], bytes := 32768, scratch := [], poison := []
    fifos := SMap.set [] 0 ((List.range 8).map fun k => (BitVec.ofNat 32 k, false)), slots := [0], twins := [], released := false }
def banked : State := { base with gangs := [{ Gang.one 0 1 0 with blocks := [twoBanks] }] }

theorem wit_BankcfgDrainsAndSwitches : ∃ (s : State) (sl : Slot) (w : Warp) (r : Regs) (i : BankcfgI) (b : Block),
    let act := active r sl.grp i.g
    let first := (⟨r, 0, act, 0⟩ : Rd).word i.first 0
    let count := (⟨r, 0, act, 0⟩ : Rd).word i.count 0
    s.Chosen sl w r ∧ sl.proof = false ∧ act ≠ 0 ∧ w.levels = [] ∧ w.home = sl.w ∧ s.scrBlock w.gang w.block = some b ∧
    count ≠ 0 ∧ first + count = b.banks.length :=
  ⟨_, _, _, _, ⟨always, .int 16, .int 18, .fifo, false⟩, twoBanks, chosen banked id (.bankcfg ⟨always, .int 16, .int 18, .fifo, false⟩),
    rfl, by decide +kernel, by decide +kernel, by decide +kernel, by decide +kernel, by decide +kernel, by decide +kernel⟩
theorem wit_BankcfgDrainsAndSwitches_end : ∃ (s : State) (slot : Nat) (w : Warp) (b : Block) (l : List Nat) (m : BankMode)
    (lanes : Mask) (len n : Nat), s.warp slot = some w ∧ w.waits = [⟨lanes, .drain l m, len, n⟩] ∧
    s.scrBlock w.gang w.block = some b ∧ s.banksIdle w.gang w.block b.banks.length l = true ∧ w.platen = [] ∧
    b.modes.length = b.banks.length ∧ (∀ k ∈ l, k < b.banks.length) ∧ lane lanes 31 = true ∧
    ∀ j : Fin 32, lane lanes j = true → w.r.pcGet j = w.r.pcGet 31 := by
  let f (w : Warp) : Warp := { w with waits := [⟨A, .drain [0, 1] .cache, 2, 0⟩] }
  exact ⟨put banked f .boot, 0, f w0, twoBanks, [0, 1], .cache, A, 2, 0, rfl, rfl, by decide +kernel, by decide +kernel, by decide +kernel,
    by decide +kernel, by decide +kernel, by decide +kernel, by decide +kernel⟩

/-- The first byte behind the block's scratch, and its first byte, whose bank is a FIFO. -/
theorem wit_FailedChecksNameTheirCause_scratch : Checked fun s sl w q a => q.sp = .block ∧ w.home = sl.w ∧ Formed q.sp q.size a ∧
    ∀ x, s.scratchBlock sl.w w (scratchTarget q.sp w a.toNat).1 = some x → x.bytes = (scratchTarget q.sp w a.toNat).2 :=
  checked banked (sregs [(4, 32768)]) (.lds ldI) _ 32768 rfl (by decide +kernel) ⟨rfl, by decide +kernel, by unfold Formed; decide, by
    intro x hx
    have h : (put banked (sregs [(4, 32768)]) (.lds ldI)).scratchBlock 0 (sregs [(4, 32768)] w0)
      (scratchTarget .block (sregs [(4, 32768)] w0) 32768).1 = some twoBanks := by decide +kernel
    rw [show x = twoBanks from Option.some.inj (hx.symm.trans h)]
    decide⟩
theorem wit_FailedChecksNameTheirCause_mode : Checked fun s sl w q a => ∃ x, q.sp = .block ∧ w.home = sl.w ∧ Formed q.sp q.size a ∧
    s.scratchBlock sl.w w (scratchTarget q.sp w a.toNat).1 = some x ∧ (scratchTarget q.sp w a.toNat).2 + q.size ≤ x.bytes ∧
    x.unitMode (scratchTarget q.sp w a.toNat).2 ≠ .scratch :=
  checked banked (sregs [(4, 0)]) (.lds ldI) _ 0 rfl (by decide +kernel)
    ⟨twoBanks, rfl, by decide +kernel, by unfold Formed; decide, by decide +kernel, by decide, by decide⟩
theorem wit_FailedChecksNameTheirCause_translation : Checked fun s sl w q a => q.sp = .global ∧ Formed q.sp q.size a ∧
    ∃ c e s1, s.taken.translate (slotQuadId sl.w) w.ctx (BitVec.ofInt 64 a) q.need = (.error (.cause c e), s1) :=
  checked base (sregs [(4, 0x80000000)]) (.ld ldI) _ 0x80000000 rfl (by decide +kernel)
    ⟨rfl, by unfold Formed; decide +kernel, causes_of (by decide +kernel)⟩
/-- Lane 0 is aligned, lane 1 is not. -/
theorem wit_FailedChecksNameTheirCause_second : ∃ (s : State) (sl : Slot) (w : Warp) (r : Regs) (i : Instr) (q : MemReq)
    (before after : List (Nat × Int)) (l : Nat) (a : Int), s.Chosen sl w r ∧ memReq i = some q ∧ active r sl.grp q.g ≠ 0 ∧ sl.proof = false ∧
    w.levels = [] ∧ addresses q r (active r sl.grp q.g) = before ++ (l, a) :: after ∧ before ≠ [] ∧
    (∀ x ∈ before, Formed q.sp q.size x.2) ∧ q.sp = .global ∧ a % q.size ≠ 0 := by
  let f (w : Warp) : Warp := { last w with r := { (last w).r with p := [(1, 3)], v := SMap.set [] (3 * 32 + 1) 1 } }
  let i : LoadI := { ldI with g := ⟨1, false⟩, d := .v 8, base := .s 6, idx := .v 3 }
  exact ⟨put base f (.ld i), slot (.ld i), f w0, R f, .ld i, loadReq .global i, [(0, 0x2000)], [], 1, 0x2001, chosen base f (.ld i), rfl,
    by decide +kernel, rfl, by decide +kernel, by decide +kernel, by decide, by unfold Formed; decide +kernel, rfl, by decide⟩

/-- A pop of all eight entries; a push of 32 into a FIFO of 4,064. -/
def popI : FifoPopI := ⟨⟨2, false⟩, 3, .int 16, false⟩
theorem wit_FifoMovesEntries_pop : ∃ (s : State) (sl : Slot) (w : Warp) (r : Regs) (b : Block) (i : FifoPopI),
    let act := active r sl.grp i.g
    let bank := (⟨r, 0, act, 0⟩ : Rd).word i.bank 0
    s.Chosen sl w r ∧ sl.proof = false ∧ w.levels = [] ∧ w.home = sl.w ∧ s.scrBlock w.gang w.block = some b ∧ act ≠ 0 ∧
    bank < b.banks.length ∧ b.modes.getD bank .scratch = .fifo ∧ (lanesOf act).length = (b.fifos.get bank).length ∧
    ∀ e ∈ b.fifos.get bank, e.2 = false := by
  have h : (⟨R last, 0, active (R last) A popI.g, 0⟩ : Rd).word popI.bank 0 = 0 := by decide +kernel
  have h1 : active (R last) A popI.g = 0xFF := by decide +kernel
  refine ⟨_, _, _, _, twoBanks, popI, chosen banked last (.fifoPop popI), rfl, by decide +kernel, by decide +kernel,
    by decide +kernel, ?_⟩
  show active (R last) A popI.g ≠ 0 ∧ (⟨R last, 0, active (R last) A popI.g, 0⟩ : Rd).word popI.bank 0 < twoBanks.banks.length ∧
    twoBanks.modes.getD ((⟨R last, 0, active (R last) A popI.g, 0⟩ : Rd).word popI.bank 0) .scratch = .fifo ∧
    (lanesOf (active (R last) A popI.g)).length =
      (twoBanks.fifos.get ((⟨R last, 0, active (R last) A popI.g, 0⟩ : Rd).word popI.bank 0)).length ∧
    ∀ e ∈ twoBanks.fifos.get ((⟨R last, 0, active (R last) A popI.g, 0⟩ : Rd).word popI.bank 0), e.2 = false
  rw [h, h1]
  have h2 : (twoBanks.fifos.get 0).all (fun e => !e.2) = true := by decide +kernel
  exact ⟨by decide, by decide, by decide, by decide +kernel, fun e he => by simpa using List.all_eq_true.1 h2 e he⟩
theorem wit_FifoMovesEntries_push : ∃ (s : State) (sl : Slot) (w : Warp) (r : Regs) (b : Block) (i : FifoPushI),
    let act := active r sl.grp i.g
    let bank := (⟨r, 0, act, 0⟩ : Rd).word i.bank 0
    s.Chosen sl w r ∧ sl.proof = false ∧ w.levels = [] ∧ w.home = sl.w ∧ s.scrBlock w.gang w.block = some b ∧ act ≠ 0 ∧
    bank < b.banks.length ∧ b.modes.getD bank .scratch = .fifo ∧
    (b.fifos.get bank).length + (lanesOf act).length ≤ 4096 ∧ s.pushReady sl.w w = true :=
  ⟨_, _, _, _, twoBanks, ⟨always, .int 16, v 3, false⟩, chosen banked last (.fifoPush ⟨always, .int 16, v 3, false⟩), rfl,
    by decide +kernel, by decide +kernel, by decide +kernel, by decide +kernel, by decide +kernel, by decide +kernel,
    by decide +kernel, by decide +kernel⟩

/-- A warp with one wait. -/
def waiting (k : WaitKind) (w : Warp) : Warp := { w with waits := [⟨A, k, 2, 0⟩] }

theorem wit_GroupWaitsEnd : ∃ (s : State) (slot l : Nat) (w : Warp) (x : Wait), s.warp slot = some w ∧ w.waits = [x] ∧
    l < 32 ∧ lane x.lanes l = true ∧ x.kind = .pause 0 :=
  ⟨ready (waiting (.pause 0)) .boot, 0, 31, waiting (.pause 0) w0, _, rfl, rfl, by decide, by decide, rfl⟩
theorem wit_GroupWaitsEnd_sb : ∃ (s : State) (slot l : Nat) (w : Warp) (x : Wait), s.warp slot = some w ∧ w.waits = [x] ∧
    l < 32 ∧ lane x.lanes l = true ∧ ∃ k n, x.kind = .waitsb k n ∧ w.sbCount k = n :=
  ⟨ready (waiting (.waitsb 5 0)) .boot, 0, 31, waiting (.waitsb 5 0) w0, _, rfl, rfl, by decide, by decide, 5, 0, rfl, by decide +kernel⟩
theorem wit_GroupWaitsEnd_counter : ∃ (s : State) (slot l : Nat) (w : Warp) (x : Wait) (p : Part) (s1 : State) (y value : Nat)
    (va : DWord) (sc : Scope) (m : Mask), s.warp slot = some w ∧ w.waits = [x] ∧ l < 32 ∧ lane x.lanes l = true ∧
    x.kind = .waitc va value sc m ∧ s.objectPart slot w false va 8 .read 0 = (.ok p, s1) ∧ s1.readNow slot w p = some y ∧
    value = y := by
  let k : WaitKind := .waitc 0x2040 5 .device A
  have h : okAnd ((put objects (waiting k) .boot).objectPart 0 (waiting k w0) false 0x2040 8 .read 0)
    (fun p => decide ((((put objects (waiting k) .boot).objectPart 0 (waiting k w0) false 0x2040 8 .read 0).2).readNow 0
      (waiting k w0) p = some 5)) = true := by decide +kernel
  obtain ⟨p, hp, h2⟩ := okAnd_of h
  exact ⟨put objects (waiting k) .boot, 0, 31, waiting k w0, ⟨A, k, 2, 0⟩, p, _, 5, 5, 0x2040, .device, A, rfl, rfl,
    by decide, by decide, rfl, hp, of_decide_eq_true h2, rfl⟩
theorem wit_GroupWaitsEnd_phase : ∃ (s : State) (slot l : Nat) (w : Warp) (x : Wait) (p : Part) (s1 : State) (y : Nat)
    (va : DWord) (par : Bool) (sc : Scope) (m : Mask), s.warp slot = some w ∧ w.waits = [x] ∧ l < 32 ∧ lane x.lanes l = true ∧
    x.kind = .barWait va false par sc m ∧ s.objectPart slot w false va 16 .read 0 = (.ok p, s1) ∧
    s1.readNow slot w p = some y ∧ WellFormedBarrier y ∧ phaseOf y ≠ par.toNat := by
  let k : WaitKind := .barWait 0x2000 false true .device A
  have h : okAnd ((put objects (waiting k) .boot).objectPart 0 (waiting k w0) false 0x2000 16 .read 0)
    (fun p => decide ((((put objects (waiting k) .boot).objectPart 0 (waiting k w0) false 0x2000 16 .read 0).2).readNow 0
      (waiting k w0) p = some (1 + 2 ^ 32))) = true := by decide +kernel
  obtain ⟨p, hp, h2⟩ := okAnd_of h
  exact ⟨put objects (waiting k) .boot, 0, 31, waiting k w0, ⟨A, k, 2, 0⟩, p, _, 1 + 2 ^ 32, 0x2000, true, .device, A, rfl,
    rfl, by decide, by decide, rfl, hp, of_decide_eq_true h2, by unfold WellFormedBarrier; decide, by decide⟩

/-! Traps, special registers, privilege -/

/-- A warp with a handler at 0x8000. -/
def handled (w : Warp) : Warp := { w with r := { w.r with vec := 0x8000 } }
theorem canEnter_handled : CanEnter (handled w0) :=
  ⟨by decide +kernel, by decide +kernel, by decide +kernel, by decide +kernel⟩

theorem wit_HandlerIsEntered : ∃ (s : State) (slot : Nat) (w : Warp) (t : TrapInfo), s.warp slot = some w ∧ CanEnter w ∧
    w.boundaryWith t.extra = true :=
  ⟨ready handled .boot, 0, _, ⟨0x41, none, 0, 0, 0, 0, 0, 0, 0, 0, 0, 0, 0, []⟩, rfl, canEnter_handled, by decide +kernel⟩
theorem wit_TrapInstructionEnters : ∃ (s : State) (sl : Slot) (w : Warp) (i : TrapI) (r : Regs), s.Chosen sl w r ∧
    sl.proof = false ∧ active r sl.grp i.g ≠ 0 ∧ CanEnter w :=
  ⟨_, _, _, ⟨always, .int 31⟩, _, chosen base handled (.trap ⟨always, .int 31⟩), rfl, by decide +kernel, canEnter_handled⟩
def anError (c : Nat) : AsyncErr := ⟨c, 0x1000, 0, A, 0x2000, 1, 2, 0, 0, 0, 7, false⟩
theorem wit_QueuedErrorsAreTaken : ∃ (s : State) (slot : Nat) (w : Warp) (e : AsyncErr) (rest : List AsyncErr),
    s.warp slot = some w ∧ CanEnter w ∧ w.stopped = false ∧ w.async = e :: rest ∧ (∀ x ∈ w.det, e.time < x.time) ∧
    (∀ x ∈ rest, e.time ≤ x.time) ∧ (e.cause < 0xC0 ∨ 0xE0 ≤ e.cause) := by
  let f (w : Warp) : Warp := { handled w with async := [anError 0xBF, anError 0xA4], det := [{ anError 0xC1 with time := 8 }] }
  exact ⟨ready f .boot, 0, f w0, anError 0xBF, [anError 0xA4], rfl,
    ⟨by decide +kernel, by decide +kernel, by decide +kernel, by decide +kernel⟩, by decide +kernel, rfl, by decide +kernel,
    by decide,
    .inl (by decide)⟩

/-- A pending result with NX; TMASK enables nothing, or NX. -/
def aResult : Result := ⟨[(32, 7)], [], some 1, A, 1, A, 0x1000, 0, false⟩
theorem wit_PendingResultsAreWritten : ∃ (s : State) (slot k : Nat) (w : Warp) (r : Regs) (x : Result), s.warp slot = some w ∧
    w.results[k]? = some x ∧ w.side x.proof = some r ∧ x.flags &&& r.tmask = 0 := by
  let f (w : Warp) : Warp := { w with results := [aResult] }
  exact ⟨ready f .boot, 0, 0, f w0, (f w0).r, aResult, rfl, rfl, rfl, by decide +kernel⟩
theorem wit_PendingResultsAreWritten_enabled : ∃ (s : State) (slot k j : Nat) (w : Warp) (r : Regs) (x : Result),
    s.warp slot = some w ∧ w.results[k]? = some x ∧ w.side x.proof = some r ∧ j < 6 ∧ x.proof = false ∧ r.frame = none ∧
    (x.flags &&& r.tmask).getLsbD j = true ∧ ∀ m, m < j → (x.flags &&& r.tmask).getLsbD m = false := by
  let f (w : Warp) : Warp := { w with results := [{ aResult with flags := 0x20 }], r := { w.r with tmask := 0x3F } }
  exact ⟨ready f .boot, 0, 0, 5, f w0, (f w0).r, { aResult with flags := 0x20 }, rfl, rfl, rfl, by decide, rfl,
    by decide +kernel, by decide +kernel, by decide +kernel⟩

theorem wit_EnabledFlagsQueueAnError : ∃ (s : State) (sl : Slot) (w : Warp) (r : Regs) (i : Instr) (q : Row) (x j : Nat),
    let act := active r sl.grp q.g
    let set := flagsOf act q.d (q.res ⟨r, x, act, s.opSeq⟩)
    s.Chosen sl w r ∧ floatRow i = some q ∧ s.Reads sl w act (winOf q.srcs) x ∧ q.multi = false ∧ sl.proof = false ∧
    r.frame = none ∧ j < 6 ∧ (set &&& r.tmask).getLsbD j = true ∧ ∀ m, m < j → (set &&& r.tmask).getLsbD m = false := by
  let f (w : Warp) : Warp := { w with r := { w.r with tmask := 1, p := [(1, 1)] } }
  let i : Op2 FM := ⟨⟨1, false⟩, .v 1, .lit 0x3F800001, .lit 0x3F800001, plainF .f32 .rn⟩
  exact ⟨_, _, _, _, .fmul i, _, 0, 0, chosen base f (.fmul i), rfl, .inr ⟨by decide +kernel, (ready f (.fmul i)).taken, rfl⟩,
    rfl, rfl, by decide +kernel, by decide, by decide +kernel, by decide +kernel⟩

theorem wit_CsrrReadsSpecialRegisters : ∃ (s : State) (sl : Slot) (w : Warp) (r : Regs) (i : CsrrI) (z : Nat × Nat),
    s.Chosen sl w r ∧ sl.proof = false ∧ active r sl.grp i.g ≠ 0 ∧ i.d ≠ .b0 ∧ r.frame = none ∧
    specialValue s sl.w w r i.srn.toNat = some z :=
  ⟨_, _, _, _, ⟨always, .v 254, 0x0F⟩, _, chosen base id (.csrr ⟨always, .v 254, 0x0F⟩), rfl, by decide +kernel, by decide,
    by decide +kernel, rfl⟩
theorem wit_CsrrReadsSpecialRegisters_lane : ∃ (s : State) (sl : Slot) (w : Warp) (r : Regs) (i : CsrrI), s.Chosen sl w r ∧
    sl.proof = false ∧ active r sl.grp i.g ≠ 0 ∧ i.d ≠ .b0 ∧ r.frame = none ∧ i.srn = 0 ∧ ∃ k, i.d = .v k :=
  ⟨_, _, _, _, ⟨always, .v 255, 0⟩, chosen base id (.csrr ⟨always, .v 255, 0⟩), rfl, by decide +kernel, by decide,
    by decide +kernel, rfl, 255, rfl⟩

theorem put_context (s : State) (f : Warp → Warp) (i : Instr) (c : Nat) : (put s f i).context c = s.context c := rfl
theorem put_privileged (s : State) (f : Warp → Warp) (i : Instr) (w : Warp) : (put s f i).privileged w = s.privileged w := rfl

/-- Whatever the register: 0x0C, 0x0E, 0x81, or another. -/
theorem wit_CsrwWritesSpecialRegisters (k : BitVec 8) : ∃ (s : State) (sl : Slot) (w : Warp) (r : Regs) (i : CsrwI) (x : Nat),
    s.Chosen sl w r ∧ sl.proof = false ∧ active r sl.grp i.g ≠ 0 ∧
    s.Reads sl w (active r sl.grp i.g) (winOf [(i.a, true)]) x ∧ i.srn = k ∧ s.privileged w = true :=
  ⟨_, _, _, _, ⟨always, k, sc 5⟩, 0, chosen base id (.csrw ⟨always, k, sc 5⟩), rfl, by
    show active (R id) A always ≠ 0
    decide +kernel, .inr ⟨by
      show active (R id) A always ≠ 0
      decide +kernel, (ready id (.csrw ⟨always, k, sc 5⟩)).taken, rfl⟩, rfl, by
    rw [put_privileged]
    decide +kernel⟩

/-- In a handler: the frame of a trap that met the whole warp. -/
def aFrame : Frame :=
  ⟨0xF3, 0, 0, A, 1, A, (List.range 32).foldl (fun m k => m.set k 0x1000) [], 60, 61, 1, [], [], 0, 0, [], [], []⟩
def handling (w : Warp) : Warp := { handled w with r := { (handled w).r with frame := some aFrame } }

theorem wit_TretRestores_outside : ∃ (s : State) (sl : Slot) (w : Warp) (r : Regs) (i : PlainI), s.Chosen sl w r ∧
    sl.proof = false ∧ active r sl.grp i.g ≠ 0 ∧ r.frame = none :=
  ⟨_, _, _, _, ⟨always⟩, chosen base id (.tret ⟨always⟩), rfl, by decide +kernel, by decide +kernel⟩
theorem wit_TretRestores : ∃ (s : State) (sl : Slot) (w : Warp) (r : Regs) (i : PlainI) (f : Frame), s.Chosen sl w r ∧
    sl.proof = false ∧ active r sl.grp i.g ≠ 0 ∧ r.frame = some f ∧ f.group &&& r.live &&& ~~~w.jwaiting &&& ~~~sl.grp = 0 ∧
    f.replay = [] ∧ w.async = [] ∧ w.det = [] ∧ w.boundary = true ∧ w.jwaiting = 0 ∧ f.js.wf = true ∧
    ∀ l, l < 32 → lane sl.grp l = true → lane (f.group &&& r.live) l = true :=
  ⟨_, _, _, _, ⟨always⟩, aFrame, chosen base handling (.tret ⟨always⟩), rfl, by decide +kernel, rfl, by decide +kernel,
    by decide +kernel, by decide +kernel, by decide +kernel, by decide +kernel, by decide +kernel, by decide +kernel, by decide +kernel⟩
/-- The group that issues lacks lane 31. -/
theorem wit_TretRestores_partial : ∃ (s : State) (sl : Slot) (w : Warp) (r : Regs) (i : PlainI) (f : Frame), s.Chosen sl w r ∧
    sl.proof = false ∧ active r sl.grp i.g ≠ 0 ∧ r.frame = some f ∧ f.group &&& r.live &&& ~~~w.jwaiting &&& ~~~sl.grp ≠ 0 :=
  ⟨{ base with warps := [(0, some (handling w0))], issue := [{ slot (.tret ⟨always⟩) with grp := 0x7FFFFFFF }] }, _, _,
    (handling w0).r.forGroup 0x7FFFFFFF, ⟨always⟩, aFrame, ⟨rfl, rfl, rfl⟩, rfl, by decide +kernel, rfl, by decide +kernel⟩

theorem wit_ErrpSetsTrapState : ∃ (s : State) (sl : Slot) (w : Warp) (r : Regs) (i : ErrpPostI) (j : ErrpSetI), s.Chosen sl w r ∧
    sl.proof = false ∧ active r sl.grp i.g ≠ 0 ∧ active r sl.grp j.g ≠ 0 ∧
    (⟨r, 0, active r sl.grp j.g, 0⟩ : Rd).dword j.a 0 = 2 ^ 56 - 4 :=
  ⟨_, _, _, _, ⟨always, .int 16, 3, 4, false⟩, ⟨always, some 9, sc 3, false⟩, chosen base (sregs [(3, 0xFFFFFFFFFFFFFC)])
    (.errpVec ⟨always, some 9, sc 3, false⟩), rfl, by decide +kernel, by decide +kernel, by decide +kernel⟩

/-- A device whose context 0 is no system context. -/
def user : State := { base with ctxs := SMap.set [] 0 ⟨true, false, 0x10000, 0, 0, false⟩ }
/-- Whatever the guard, one that no lane passes too. -/
theorem wit_PrivilegedInstructionsRaise (g : Guard) : ∃ (s : State) (sl : Slot) (w : Warp) (r : Regs) (i : Instr),
    s.Chosen sl w r ∧ sl.proof = false ∧ privilegedGuard i = some g ∧ (s.context w.ctx).sys = false :=
  ⟨_, _, _, _, .csrr ⟨g, .s 1, 0x80⟩, chosen user id (.csrr ⟨g, .s 1, 0x80⟩), rfl, rfl, by
    rw [put_context]
    decide +kernel⟩

/-- Context 0 and the lowest canonical address of the upper half; a root on sheet 3. -/
def names (w : Warp) : Warp := sregs [(4, 0), (5, 0xFF00000000000000), (6, 0x3FFFFFFFE3)] w
theorem wit_TranslationsAreDropped : ∃ (s : State) (sl : Slot) (w : Warp) (r : Regs) (i j : TlbiVaI) (k : TlbiCtxI) (l : TlbiAllI)
    (m : CtxRootI) (n : CtxI), s.Chosen sl w r ∧ sl.proof = false ∧ s.privileged w = true ∧ w.levels = [] ∧
    (active r sl.grp i.g ≠ 0 ∧ (r.sget i.c).toNat < 64 ∧ (s.context (r.sget i.c).toNat).res = true ∧
      2 ^ 64 - 2 ^ 56 = (r.sget i.v).toNat ∧ s.moving = [] ∧ i.mv = false) ∧
    (active r sl.grp j.g ≠ 0 ∧ (r.sget j.c).toNat < 64 ∧ (s.context (r.sget j.c).toNat).res = true ∧
      2 ^ 64 - 2 ^ 56 = (r.sget j.v).toNat ∧ j.mv = true) ∧
    (active r sl.grp k.g ≠ 0 ∧ (r.sget k.c).toNat < 64 ∧ (s.context (r.sget k.c).toNat).res = true ∧ k.mv = false) ∧
    (active r sl.grp l.g ≠ 0 ∧ l.mv = false) ∧
    (active r sl.grp m.g ≠ 0 ∧ (r.sget m.c).toNat < 64 ∧ (s.context (r.sget m.c).toNat).res = true ∧
      (r.sget m.r).toNat / 4 % 8 = 0 ∧ (r.sget m.r).toNat < 2 ^ 38) ∧
    (active r sl.grp n.g ≠ 0 ∧ (r.sget n.c).toNat < 64 ∧ (s.context (r.sget n.c).toNat).res = true) := by
  refine ⟨_, _, _, _, ⟨always, 4, 5, false⟩, ⟨always, 4, 5, true⟩, ⟨always, 4, false⟩, ⟨always, false⟩, ⟨always, 4, 6⟩,
    ⟨always, 4⟩, chosen base names (.tlbiVa ⟨always, 4, 5, false⟩), rfl, ?_⟩
  decide +kernel

theorem wit_MigrationHoldsTheWarp : ∃ (s : State) (sl : Slot) (w : Warp) (r : Regs) (j : MigrI) (p : Phys) (s1 : State),
    s.Chosen sl w r ∧ sl.proof = false ∧ w.levels = [] ∧ w.tgrant = 0 ∧ w.proof = none ∧ w.arrivals = [] ∧ w.pend = [] ∧
    active r sl.grp j.g ≠ 0 ∧ s.taken.translate (slotQuadId sl.w) w.ctx (r.sget j.a) .valid = (.ok p, s1) := by
  let f (w : Warp) : Warp := { last w with tgrant := 0 }
  have h : okAnd ((ready f (.migr ⟨always, 6⟩)).taken.translate (slotQuadId 0) 0 0x2000 .valid) (fun _ => true) = true := by decide +kernel
  obtain ⟨p, hp, -⟩ := okAnd_of h
  exact ⟨_, _, _, _, ⟨always, 6⟩, p, _, chosen base f (.migr ⟨always, 6⟩), rfl, by decide +kernel, by decide +kernel,
    by decide +kernel, by decide +kernel, by decide +kernel, by decide +kernel, hp⟩
theorem wit_MigrationHoldsTheWarp_home : ∃ (s : State) (sl : Slot) (w : Warp) (r : Regs) (j : PlainI), s.Chosen sl w r ∧
    sl.proof = false ∧ w.levels = [] ∧ w.tgrant = 0 ∧ w.proof = none ∧ w.arrivals = [] ∧ w.pend = [] ∧ active r sl.grp j.g ≠ 0 :=
  ⟨_, _, _, _, ⟨always⟩, chosen base (fun w => { w with tgrant := 0 }) (.migrHome ⟨always⟩), rfl, by decide +kernel,
    by decide +kernel, by decide +kernel, by decide +kernel, by decide +kernel, by decide +kernel⟩

/-! The Platen and the Feeders -/

/-- The page tables; layout records at 0x3000 (64 by 64 FP32 words at 0x4000), 0x3020 and 0x3040 (four words at 0x4000 and
0x5000) and 0x3060 (64 by 64 bytes at 0x4000); an imposition descriptor of two steps at 0x3080 with its program at 0x6000. -/
def records : State :=
  { base with
    featLock := 1, featAccept := [0xFFF, 0, 0, 0]
    hbm := [(0x10000, 1), (0x10002, 2), (0x20000, 1), (0x20002, 3), (0x30000, 31), (0x30003, 32)] ++
      [(0x20003001, 64), (0x20003008, 7), (0x2000300C, 64), (0x2000300E, 64), (0x20003010, 1), (0x20003012, 1), (0x20003014, 4), (0x20003018, 1)] ++
      [(0x20003021, 64), (0x20003028, 8), (0x2000302C, 4), (0x2000302E, 1), (0x20003030, 1), (0x20003032, 1), (0x20003034, 4)] ++
      [(0x20003041, 80), (0x20003048, 8), (0x2000304C, 4), (0x2000304E, 1), (0x20003050, 1), (0x20003052, 1), (0x20003054, 4)] ++
      [(0x20003061, 64), (0x20003068, 4), (0x2000306C, 64), (0x2000306E, 64), (0x20003070, 1), (0x20003072, 1), (0x20003074, 1), (0x20003077, 64)] ++
      [(0x20003081, 96), (0x20003088, 2), (0x2000308D, 1), (0x20003092, 1)] }
def addrs (w : Warp) : Warp := sregs [(1, 0x3000), (2, 0x3020), (3, 0x3040), (4, 0x3060), (5, 0x3080), (6, 0x2000), (7, 0x2100)] w

theorem wit_PlatenInstructionsQueue : ∃ (s : State) (sl : Slot) (w : Warp) (r : Regs) (i : Instr) (q : PlatReq) (recs : List LRec)
    (s1 : State), s.Chosen sl w r ∧ sl.proof = false ∧ sl.instr = i ∧ platReq i = some q ∧
    WholeGroup r sl.grp (active r sl.grp q.g) ∧ s.taken.readRecords sl.w w (q.recs.map fun k => r.sget k) = (.ok recs, s1) ∧
    q.ok recs = true ∧ w.levels = [] := by
  let i : AccLdI := ⟨always, 7, 1, .f32, none⟩
  have h : okAnd ((put records addrs (.accLd i)).taken.readRecords 0 (addrs w0) [(R addrs).sget 1]) (accOk .f32) = true := by
    decide +kernel
  obtain ⟨p, hp, h2⟩ := okAnd_of h
  exact ⟨_, _, _, _, .accLd i, _, p, _, chosen records addrs (.accLd i), rfl, rfl, rfl,
    ⟨by decide +kernel, by decide +kernel⟩, hp, h2, by decide +kernel⟩
/-- mma of 64 by 64 bytes. -/
def mmaI : MmaI := ⟨always, 7, 4, 4, .i8, .i8, false, none, none⟩
theorem wit_PlatenInstructionsQueue_mma : ∃ (s : State) (sl : Slot) (w : Warp) (r : Regs) (i : Instr) (q : PlatReq)
    (recs : List LRec) (s1 : State), s.Chosen sl w r ∧ sl.proof = false ∧ sl.instr = i ∧ platReq i = some q ∧
    WholeGroup r sl.grp (active r sl.grp q.g) ∧ s.taken.readRecords sl.w w (q.recs.map fun k => r.sget k) = (.ok recs, s1) ∧
    q.ok recs = true ∧ w.levels = [] := by
  have h : okAnd ((put records addrs (.mma mmaI)).taken.readRecords 0 (addrs w0) [(R addrs).sget 4, (R addrs).sget 4])
    (mmaOk mmaI) = true := by decide +kernel
  obtain ⟨p, hp, h2⟩ := okAnd_of h
  exact ⟨_, _, _, _, .mma mmaI, _, p, _, chosen records addrs (.mma mmaI), rfl, rfl, rfl,
    ⟨by decide +kernel, by decide +kernel⟩, hp, h2, by decide +kernel⟩

/-- The group of lanes 0 to 30. -/
theorem wit_PartialGroupsRaise : ∃ (s : State) (sl : Slot) (w : Warp) (r : Regs) (i : Instr) (q : PlatReq), s.Chosen sl w r ∧
    sl.proof = false ∧ platReq i = some q ∧ ¬WholeGroup r sl.grp (active r sl.grp q.g) :=
  ⟨{ base with warps := [(0, some (id w0))], issue := [{ slot (.accZero ⟨always, 0⟩) with grp := 0x7FFFFFFF }] }, _, _,
    (id w0).r.forGroup 0x7FFFFFFF, .accZero ⟨always, 0⟩, _, ⟨rfl, rfl, rfl⟩, rfl, rfl, by unfold WholeGroup; decide +kernel⟩

/-- A warp with one operation in its Platen queue. -/
def platen (i : Instr) (recs : List LRec) (src : SMap Word) (w : Warp) : Warp :=
  { w with platen := [⟨9, i, A, recs, src, 0, false, false, [], [], 0x1000, 0, 0⟩] }
/-- What `PlatenRuns` asks for, decided on a state. -/
def runs (s0 : State) (w : Warp) (o : PlatOp) : Bool :=
  let s := s0.settleQuad 0
  decide (s.platWarps 0 = [(0, w, o)]) && decide (s.warp 0 = some w) &&
    decide (w.proof = none ∧ w.r.frame = none ∧ w.badT = [] ∧ s.warpClass w ≤ 3) &&
    okAnd (s.platStep 0 w o) (fun x => decide ((s.platStep 0 w o).2.warps = s.warps) && decide (x.stores = []))
theorem runs_of {s0 : State} {w : Warp} {o : PlatOp} (h : runs s0 w o = true) : ∃ x, PlatenRuns (s0.settleQuad 0) 0 0 w o x := by
  simp only [runs, Bool.and_eq_true, decide_eq_true_eq] at h
  obtain ⟨⟨⟨h1, h2⟩, h3⟩, h4⟩ := h
  obtain ⟨x, hx, h5⟩ := okAnd_of h4
  simp only [Bool.and_eq_true, decide_eq_true_eq] at h5
  exact ⟨x, h1, h2, h3, ⟨_, hx, h5.1⟩, h5.2⟩
def platOf (f : Warp → Warp) : PlatOp := ((f w0).platen).headD default

theorem wit_PlatenStepsChangeTheirTile : ∃ (s0 : State) (q slot : Nat) (w : Warp) (o : PlatOp) (x : StepRes) (i : AccZeroI),
    PlatenRuns (s0.settleQuad q) q slot w o x ∧ o.instr = .accZero i := by
  let f := platen (.accZero ⟨always, 7⟩) [] []
  obtain ⟨x, hx⟩ := runs_of (s0 := ready f .boot) (w := f w0) (o := platOf f) (by decide +kernel)
  exact ⟨_, 0, 0, _, _, x, _, hx, rfl⟩
theorem wit_PlatenStepsChangeTheirTile_read : ∃ (s0 : State) (q slot : Nat) (w : Warp) (o : PlatOp) (x : StepRes) (i : AccRdI),
    PlatenRuns (s0.settleQuad q) q slot w o x ∧ o.instr = .accRd i ∧ i.ft = .i32 ∧ i.sum = none ∧ i.nr = 0 := by
  let f := platen (.accRd ⟨always, 255, 7, none, .i32, .rn, false, 1, 0, 63⟩) [] []
  obtain ⟨x, hx⟩ := runs_of (s0 := ready f .boot) (w := f w0) (o := platOf f) (by decide +kernel)
  exact ⟨_, 0, 0, _, _, x, _, hx, rfl, rfl, rfl, rfl⟩
theorem wit_PlatenStepsChangeTheirTile_write : ∃ (s0 : State) (q slot : Nat) (w : Warp) (o : PlatOp) (x : StepRes) (i : AccWrI),
    PlatenRuns (s0.settleQuad q) q slot w o x ∧ o.instr = .accWr i ∧ i.ft = .i32 ∧ i.nr = 0 := by
  let f := platen (.accWr ⟨always, 7, 255, .i32, 1, 0, 63⟩) [] [(31, 9)]
  obtain ⟨x, hx⟩ := runs_of (s0 := ready f .boot) (w := f w0) (o := platOf f) (by decide +kernel)
  exact ⟨_, 0, 0, _, _, x, _, hx, rfl, rfl, rfl⟩

/-! Feeder commands -/

def cpyI : CpyI := ⟨always, 3, 2, none, .device, some 9, some 6⟩
theorem wit_FeederInstructionsGiveCommands : ∃ (s : State) (sl : Slot) (w : Warp) (r : Regs) (i : Instr) (g : Guard)
    (b : State → Slot → Warp → Regs → Mask → Except MemStop Cmd × State) (c : Cmd) (s1 : State), s.Chosen sl w r ∧
    sl.proof = false ∧ w.proof = none ∧ w.levels = [] ∧ feederRow i = some (g, b) ∧
    WholeGroup r sl.grp (active r sl.grp g) ∧ b s.taken sl w r (active r sl.grp g) = (.ok c, s1) := by
  have h : okAnd ((put records addrs (.cpy cpyI)).taken.buildCopy (slot (.cpy cpyI)) (addrs w0) (R addrs)
    (active (R addrs) A always) cpyI .copy) (fun _ => true) = true := by decide +kernel
  obtain ⟨c, hc, -⟩ := okAnd_of h
  exact ⟨_, _, _, _, .cpy cpyI, _, _, c, _, chosen records addrs (.cpy cpyI), rfl, by decide +kernel, by decide +kernel, rfl,
    ⟨by decide +kernel, by decide +kernel⟩, hc⟩
theorem wit_FeederInstructionsGiveCommands_imp : ∃ (s : State) (sl : Slot) (w : Warp) (r : Regs) (i : Instr) (g : Guard)
    (b : State → Slot → Warp → Regs → Mask → Except MemStop Cmd × State) (c : Cmd) (s1 : State), s.Chosen sl w r ∧
    sl.proof = false ∧ w.proof = none ∧ w.levels = [] ∧ feederRow i = some (g, b) ∧
    WholeGroup r sl.grp (active r sl.grp g) ∧ b s.taken sl w r (active r sl.grp g) = (.ok c, s1) := by
  let i : ImpI := ⟨always, 5, .device, none, none⟩
  have h : okAnd ((put records addrs (.impStart i)).taken.buildImp (slot (.impStart i)) (addrs w0) (R addrs)
    (active (R addrs) A always) i) (fun _ => true) = true := by decide +kernel
  obtain ⟨c, hc, -⟩ := okAnd_of h
  exact ⟨_, _, _, _, .impStart i, _, _, c, _, chosen records addrs (.impStart i), rfl, by decide +kernel, by decide +kernel, rfl,
    ⟨by decide +kernel, by decide +kernel⟩, hc⟩

/-- cpy.sig with a barrier and a record in global memory; cpy in a region with a barrier in scratch. -/
def sigI : CpySigI := ⟨{ cpyI with bar := some (6, false), cr := some 7 }, 7, .lit 1⟩
def tieI : CpyI := { cpyI with bar := some (8, true), cr := none }
def tieF (w : Warp) : Warp := sregs [(8, 64)] { addrs w with levels := [level] }
def tied : State := { records with gangs := [{ Gang.one 0 1 0 with blocks := [twoBanks] }] }
def recsOf (s : State) (f : Warp → Warp) (i : Instr) : Except MemStop (List LRec) × State :=
  (put s f i).taken.readRecords 0 (f w0) [(R f).sget 3, (R f).sget 2]
def tie1 : Except NoTrans Phys × State := (recsOf records addrs (.cpySig sigI)).2.translate (slotQuadId 0) (addrs w0).ctx 0x2000 .readWrite
def tie2 : Except NoTrans Phys × State := tie1.2.translate (slotQuadId 0) (addrs w0).ctx 0x2100 .readWrite
def tie3 : Except NoTrans Phys × State := tie2.2.translate (slotQuadId 0) (addrs w0).ctx 0x2100 .write
def pairOk (k : CmdKind) (l : List LRec) : Bool :=
  match l with
  | [d, a] => copyOk k d a
  | _ => false
theorem pair_of {k : CmdKind} {x : Except MemStop (List LRec) × State} (h : okAnd x (pairOk k) = true) :
    ∃ d a, x = (.ok [d, a], x.2) ∧ copyOk k d a = true := by
  obtain ⟨l, hl, h2⟩ := okAnd_of h
  match l, h2 with
  | [d, a], h2 => exact ⟨d, a, hl, h2⟩
theorem tie_oks : okAnd (recsOf records addrs (.cpySig sigI)) (pairOk (.sig 0x2100 1)) = true ∧ okAnd tie1 (fun _ => true) = true ∧
    okAnd tie2 (fun _ => true) = true ∧ okAnd tie3 (fun _ => true) = true ∧
    okAnd (recsOf tied tieF (.cpy tieI)) (pairOk .copy) = true := by decide +kernel
/-- What CopiesAreAccepted asks for. -/
def CopyReady (region : Bool) : Prop := ∃ (s s1 s2 s3 s4 : State) (sl : Slot) (w : Warp) (r : Regs) (i : Instr) (j : CpyI) (kind : CmdKind)
    (ctr : Option DWord) (d a : LRec) (tie : Option Place) (va : DWord), s.Chosen sl w r ∧ sl.proof = false ∧ w.proof = none ∧
    (if region then w.levels ≠ [] ∧ w.deferredUsed < 32 else w.levels = []) ∧ copyRow r i = some (j, kind, ctr) ∧
    WholeGroup r sl.grp (active r sl.grp j.g) ∧ s.taken.readRecords sl.w w [r.sget j.dst, r.sget j.src] = (.ok [d, a], s1) ∧
    copyOk kind d a = true ∧ w.home = sl.w ∧ TiePasses s1 s2 sl w r j.bar tie va ∧ WordPasses s2 s3 sl w 8 .readWrite ctr ∧
    WordPasses s3 s4 sl w 16 .write (j.cr.map fun k => r.sget k)
theorem wit_CopiesAreAccepted : CopyReady false := by
  obtain ⟨h0, h1, h2, h3, -⟩ := tie_oks
  obtain ⟨d, a, hr, hc⟩ := pair_of h0
  obtain ⟨p, hp, -⟩ := okAnd_of h1
  obtain ⟨q, hq, -⟩ := okAnd_of h2
  obtain ⟨u, hu, -⟩ := okAnd_of h3
  exact ⟨put records addrs (.cpySig sigI), (recsOf records addrs (.cpySig sigI)).2, tie1.2, tie2.2, tie3.2, slot (.cpySig sigI), addrs w0,
    R addrs, .cpySig sigI, sigI.c, .sig 0x2100 1, some 0x2100, d, a, some p.place, 0x2000, chosen records addrs (.cpySig sigI), rfl,
    by decide +kernel, by show (addrs w0).levels = []; decide +kernel, by decide +kernel, ⟨by decide +kernel, by decide +kernel⟩, hr, hc,
    by decide +kernel, ⟨by decide +kernel, by decide, by decide, p, hp, rfl⟩, ⟨by decide, by decide, q, hq⟩,
    ⟨by decide, by decide, u, hu⟩⟩
theorem wit_CopiesAreAccepted_region : CopyReady true := by
  obtain ⟨d, a, hr, hc⟩ := pair_of tie_oks.2.2.2.2
  exact ⟨put tied tieF (.cpy tieI), (recsOf tied tieF (.cpy tieI)).2, _, _, _, slot (.cpy tieI), tieF w0,
    R tieF, .cpy tieI, tieI, .copy, none, d, a, some (.scr (tieF w0).gang (tieF w0).block 64), 64, chosen tied tieF (.cpy tieI), rfl,
    by decide +kernel, by show (tieF w0).levels ≠ [] ∧ (tieF w0).deferredUsed < 32; decide +kernel, rfl,
    ⟨by decide +kernel, by decide +kernel⟩, hr, hc, by decide +kernel,
    ⟨by decide +kernel, by decide, by decide +kernel, ⟨twoBanks, by decide +kernel, by decide +kernel, by decide +kernel⟩, rfl, rfl⟩, rfl, rfl⟩

/-- A descriptor of a program. -/
def impI : ImpI := ⟨always, 5, .device, none, some 7⟩
def descOf : Except (Nat × Nat × DWord) (Nat × Bool) × State :=
  (put records addrs (.impStart impI)).taken.constWords 0 (addrs w0).ctx 0x3080 32
def crOf : Except NoTrans Phys × State := descOf.2.translate (slotQuadId 0) (addrs w0).ctx 0x2100 .write
theorem desc_ok : okAnd descOf (fun x => !x.2 && Desc.ok x.1 && (put records addrs (.impStart impI)).feature 8 &&
      decide ((Desc.ofNat x.1).feeder ∈ (put records addrs (.impStart impI)).allowedFeeders ((put records addrs (.impStart impI)).warpRcb (addrs w0)))) =
        true ∧
    okAnd crOf (fun _ => true) = true := by decide +kernel
theorem wit_ProgramsAreAccepted : ∃ (s s1 s2 : State) (sl : Slot) (w : Warp) (r : Regs) (i : ImpI) (x : Nat), s.Chosen sl w r ∧
    sl.proof = false ∧ w.proof = none ∧ w.levels = [] ∧ WholeGroup r sl.grp (active r sl.grp i.g) ∧ (r.sget i.desc).toNat % 64 = 0 ∧
    s.taken.constWords sl.w w.ctx (r.sget i.desc) 32 = (.ok (x, false), s1) ∧ Desc.ok x = true ∧ s.feature 8 = true ∧
    (Desc.ofNat x).feeder ∈ s.allowedFeeders (s.warpRcb w) ∧ WordPasses s1 s2 sl w 16 .write (i.cr.map fun k => r.sget k) := by
  obtain ⟨⟨x, b⟩, hx, h⟩ := okAnd_of desc_ok.1
  obtain ⟨u, hu, -⟩ := okAnd_of desc_ok.2
  simp only [Bool.and_eq_true, Bool.not_eq_true', decide_eq_true_eq] at h
  obtain ⟨⟨⟨h1, h2⟩, h3⟩, h4⟩ := h
  subst h1
  exact ⟨put records addrs (.impStart impI), descOf.2, crOf.2, slot (.impStart impI), addrs w0, R addrs, impI, x,
    chosen records addrs (.impStart impI), rfl, by decide +kernel, by decide +kernel, ⟨by decide +kernel, by decide +kernel⟩,
    by decide +kernel, hx, h2, h3, h4, ⟨by decide, by decide, u, hu⟩⟩

/-- Two records of bytes, all at one address. -/
def flat : LRec := ⟨0x4000, 4, 0, [64, 64, 1, 1], [0, 0, 0, 0]⟩
theorem wit_PlatenStepsChangeTheirTile_mma : ∃ (s0 : State) (q slot : Nat) (w : Warp) (o : PlatOp) (x : StepRes) (i : MmaI)
    (ops : List (List (List Nat) × Nat)) (s1 : State),
    PlatenRuns (s0.settleQuad q) q slot w o x ∧ o.instr = .mma i ∧ o.hurt = [] ∧ mfInt i.af = true ∧ mfInt i.bf = true ∧
    (s0.settleQuad q).mmaOperands slot w i o.next o.recs = (.ok ops, s1) ∧ (∀ l ∈ ops, l.1.length = 64) ∧ 2 ≤ ops.length := by
  let f := platen (.mma mmaI) [flat, flat] []
  obtain ⟨x, hx⟩ := runs_of (s0 := ready f .boot) (w := f w0) (o := platOf f) (by decide +kernel)
  have h : okAnd (((ready f .boot).settleQuad 0).mmaOperands 0 (f w0) mmaI 0 [flat, flat])
    (fun l => l.all (fun y => y.1.length == 64) && decide (2 ≤ l.length)) = true := by decide +kernel
  obtain ⟨ops, ho, h2⟩ := okAnd_of h
  simp only [Bool.and_eq_true, decide_eq_true_eq] at h2
  exact ⟨_, 0, 0, _, _, x, mmaI, ops, _, hx, rfl, rfl, rfl, rfl, ho, fun l hl => by simpa using List.all_eq_true.1 h2.1 l hl, h2.2⟩

def words4 (a : DWord) : LRec := ⟨a, 8, 0, [4, 1, 1, 1], [4, 0, 0, 0]⟩
/-- A copy of four words from 0x4000 to 0x5000, given by the warp. -/
def aCmd : Cmd :=
  { id := 9, owner := .warp 0 0, feeder := 0, cls := 3, ctx := 0, gang := 0, block := 0, forme := 0, rcb := 2, kind := .copy
    src := words4 0x4000, dst := words4 0x5000, tie := none, tieVa := 0, scope := .device, tok := some 9, cr := none, bytes := 0
    imp := none, pc := 0x1000, gseq := 0, lanes := A, suspended := false, killed := false, tiedErr := false, sigged := false, owed := none }
def commanded (c : Cmd) : State := { base with cmds := [c] }

/-- Four words one after another. -/
def four (a : Nat) : List Place := [.hbm a, .hbm (a + 4), .hbm (a + 8), .hbm (a + 12)]
theorem four_apart (a : Nat) : (four a).Pairwise (Apart 4) := by
  simp only [four, Apart, Place.add, List.pairwise_cons, List.mem_cons, List.not_mem_nil, or_false, forall_eq_or_imp,
    forall_eq, ne_eq, Place.hbm.injEq, List.Pairwise.nil, and_true, false_imp_iff, implies_true]
  refine ⟨⟨?_, ?_, ?_⟩, ⟨?_, ?_⟩, ?_⟩ <;> intro i j hi hj <;> omega
theorem four_free {a : Nat} {s t : State} (h : t.moving = []) (p : Place) (hp : p ∈ four a) : t.isMoving p = false ∧ PlaceExists s p := by
  simp only [four, List.mem_cons, List.not_mem_nil, or_false] at hp
  rcases hp with rfl | rfl | rfl | rfl <;> simp [State.isMoving, h, PlaceExists]
theorem four_clean {a n : Nat} {s : State} (h : s.poison = []) (p : Place) (hp : p ∈ four a) : s.poisoned p n = false := by
  simp only [four, List.mem_cons, List.not_mem_nil, or_false] at hp
  rcases hp with rfl | rfl | rfl | rfl <;> simp [State.poisoned, h]

/-- The same, tied to a barrier in scratch that waits for one arrival and 64 bytes. -/
def tiedCmd : Cmd := { aCmd with tie := some (.scr 0 0 64) }
def tiedCopy : State := { (base.writeLe (.scr 0 0 64) (1 + 2 ^ 32 + 2 ^ 70) 16) with cmds := [tiedCmd] }
theorem aloneOn {s : State} {c : Cmd} (h : s.cmds = [c]) (h1 : s.cmdReady c = true ∧ c.cls ≤ 3) : AloneOnFeeder s c where
  only := by simp [h]
  ready := h1.1
  cls := h1.2

theorem wit_CopyChunksMoveBytes : ∃ (s : State) (c : Cmd) (ps pd : List Place) (s1 s2 : State),
    let sd := c.src.side c.rop
    let dd := c.dst.side c.rop
    let len := c.nextChunk.2 * c.elemBytes
    let addrs (rc : LRec) : List Int := (List.range c.nextChunk.2).flatMap fun k => rc.copyAddrs c.rop (c.nextChunk.1 + k)
    s.cmd c.id = some c ∧ (∀ x ∈ s.cmds, x.id = c.id → x = c) ∧ AloneOnFeeder s c ∧ c.imp = none ∧ c.owed = none ∧
    s.postsOf c.id = [] ∧ s.feederBlocked c.feeder = false ∧ c.bytes < c.elems * c.elemBytes ∧ 0 < c.elemBytes ∧
    s.cmdPlaces c sd .read (addrs c.src) = (.ok ps, s1) ∧
    s1.cmdPlaces c dd (if c.rop = 0 then .write else .readWrite) (addrs c.dst) = (.ok pd, s2) ∧
    (∀ p ∈ pd, s2.isMoving p = false ∧ PlaceExists s p) ∧ pd.Pairwise (Apart dd.part) ∧
    ps.length = c.nextChunk.2 * sd.parts ∧ pd.length = c.nextChunk.2 * dd.parts ∧
    (∀ p, c.tie = some p → p.sheet? = none ∧ PlaceExists s p ∧ s.poisoned p 16 = false ∧ WellFormedBarrier (s.readLe p 16) ∧
      s.readLe p 16 / 2 ^ 32 % 2 ^ 24 ≠ 0 ∧ ∀ q ∈ pd, ∀ i j, i < 16 → j < dd.part → p.add i ≠ q.add j) ∧
    ((∀ a x, c.kind ≠ .sig a x) ∧ c.cr = none ∨ c.bytes + len < c.elems * c.elemBytes) ∧
    c.rop = 0 ∧ sd.part * sd.parts = dd.part * dd.parts ∧ (∀ p ∈ ps, s.poisoned p sd.part = false) ∧ c.tie ≠ none ∧
    c.elems * c.elemBytes = c.bytes + len := by
  let s := tiedCopy
  let as (b : DWord) : List Int := (List.range 4).flatMap fun k => (words4 b).copyAddrs 0 (0 + k)
  let x := s.cmdPlaces tiedCmd ⟨.global, 4, 1⟩ .read (as 0x4000)
  let y := x.2.cmdPlaces tiedCmd ⟨.global, 4, 1⟩ .write (as 0x5000)
  have h : okAnd x (fun p => decide (p = four 0x20004000)) = true ∧ okAnd y (fun p => decide (p = four 0x20005000)) = true ∧
      (s.cmdReady tiedCmd = true ∧ tiedCmd.cls ≤ 3) ∧ y.2.moving = [] ∧ s.poison = [] := by decide +kernel
  obtain ⟨h1, h2, h3, h4, h5⟩ := h
  obtain ⟨ps, hp, h6⟩ := okAnd_of h1
  obtain ⟨pd, hd, h7⟩ := okAnd_of h2
  have h8 := of_decide_eq_true h6
  have h9 := of_decide_eq_true h7
  subst h8 h9
  have hb : s.readLe (.scr 0 0 64) 16 = 1 + 2 ^ 32 + 2 ^ 70 ∧ (s.scrBlock 0 0).isSome = true ∧
      s.poisoned (.scr 0 0 64) 16 = false := by decide +kernel
  refine ⟨s, tiedCmd, _, _, _, _, rfl, ?_, aloneOn rfl h3, rfl, rfl, rfl, rfl, by decide, by decide, hp, hd, four_free h4, four_apart _,
    rfl, rfl, ?_, .inl ⟨by intro a x; exact nofun, rfl⟩, rfl, rfl, four_clean h5, nofun, rfl⟩
  · intro x hx _
    simpa using (show x ∈ [tiedCmd] from hx)
  · rintro p hp
    obtain rfl : p = .scr 0 0 64 := (Option.some.inj hp).symm
    refine ⟨rfl, hb.2.1, hb.2.2, by rw [hb.1]; unfold WellFormedBarrier; decide, by rw [hb.1]; decide, ?_⟩
    intro q hq i j _ _
    simp only [four, List.mem_cons, List.not_mem_nil, or_false] at hq
    rcases hq with rfl | rfl | rfl | rfl <;> simp [Place.add]

/-! Imposition programs -/

/-- A program of two steps of rank 0 of 1 and, at level 1, of 2, with buffers at 0x4000 and 0x5000 and a timeout of 5 us. -/
def aDesc : Desc :=
  { prog := 0x6000, nstep := 2, feeder := 0, tag := 7, rank := [0, 0], size := [1, 2], timeout := 5, peers := 0x7000
    feed := List.replicate 16 0, buf := [0x4000, 0x5000, 0, 0, 0, 0, 0, 0], bfmt := List.replicate 8 0 }
/-- The command at a step, given as its 32 bytes. -/
def impAt (x : Nat) (f : ImpState → ImpState) : Cmd :=
  { aCmd with kind := .imp, imp := some (f { ImpState.start aDesc with cur := some x }) }
def impOf (c : Cmd) : ImpState := c.imp.getD default
def stepOf (c : Cmd) : Step := ((impOf c).parsed.getD default).1
def routeOf1 (c : Cmd) : Route := ((impOf c).parsed.getD default).2

/-- The state in which a program's step has been read. -/
def seen (s : State) (c : Cmd) : State := s.setImp c (impOf c)
theorem atStep_of {s : State} {c : Cmd} (h : s.cmds = [c]) (h1 : c.id = 9 ∧ c.imp.isSome = true ∧ c.killed = false ∧
    c.suspended = false ∧ (impOf c).parsed.isSome = true ∧ s.issuedBefore c = true ∧
    ((s.gang c.gang).any fun g => g.acks.contains (.feeder c.id)) = false ∧ (impOf c).cur.isSome = true ∧ s.postsOf 9 = [] ∧
    s.feederBlocked c.feeder = false) : AtStep s (seen s c) 9 c (impOf c) (impOf c) (stepOf c) (routeOf1 c) where
  cmd := by simp [State.cmd, h, h1.1]
  only := by simp [h]
  imp := some_of h1.2.1
  free := ⟨h1.2.2.1, h1.2.2.2.1⟩
  issued := h1.2.2.2.2.2.1
  going := h1.2.2.2.2.2.2.1
  posts := h1.2.2.2.2.2.2.2.2
  fetched := ⟨s, by
    obtain ⟨x, hx⟩ := Option.isSome_iff_exists.1 h1.2.2.2.2.2.2.2.1
    simp [State.fetchStep, hx], rfl⟩
  step := some_of h1.2.2.2.2.1

/-- LOOP c3 with 2 trips; with none. -/
def loop2 : Cmd := impAt (7 + 3 * 16 + 2 * 2 ^ 192) id
def loop0 : Cmd := impAt (7 + 3 * 16) id
/-- ENDLOOP c3 in its second trip of 2, or of 3. -/
def endloop (n : Nat) : Cmd := impAt (8 + 3 * 16) fun p => { p with step := 1, ctr := [0, 0, 0, 1], loops := [(3, 0, n)] }

theorem wit_LoopStepsCount : ∃ (s s1 : State) (id : Nat) (c : Cmd) (p0 p : ImpState) (f : Step) (r : Route),
    AtStep s s1 id c p0 p f r ∧ f.opc = 7 ∧ (∀ x ∈ p.loops, x.1 ≠ f.lc) ∧ f.count ≠ 0 ∧ EndsPlainly c p (p.step + 1) :=
  ⟨commanded loop2, _, 9, _, _, _, _, _, atStep_of (s := commanded loop2) rfl (by decide +kernel), by decide +kernel, by decide +kernel,
    by decide +kernel, .inl rfl⟩
/-- The ENDLOOP of the empty loop is the second step. -/
theorem wit_LoopStepsCount_empty : ∃ (s s1 : State) (id : Nat) (c : Cmd) (p0 p : ImpState) (f : Step) (r : Route) (j : Nat),
    AtStep s s1 id c p0 p f r ∧ f.opc = 7 ∧ (∀ x ∈ p.loops, x.1 ≠ f.lc) ∧ f.count = 0 ∧ EndsPlainly c p (j + 1) ∧
    s1.findEnd c p.desc f.lc (p.desc.nstep - (p.step + 1)) (p.step + 1) = some j := by
  let s : State := { commanded loop0 with hbm := base.hbm ++ [(0x20006020, 0x38)] }
  exact ⟨s, _, 9, _, _, _, _, _, 1, atStep_of (s := s) rfl (by decide +kernel), by decide +kernel, by decide +kernel, by decide +kernel,
    .inl rfl, by decide +kernel⟩
theorem wit_LoopStepsCount_end : ∃ (s s1 : State) (id : Nat) (c : Cmd) (p0 p : ImpState) (f : Step) (r : Route) (j trips : Nat),
    AtStep s s1 id c p0 p f r ∧ f.opc = 8 ∧ p.loops = [(f.lc, j, trips)] ∧ trips ≤ p.ctr.getD f.lc 0 + 1 ∧
    EndsPlainly c p (p.step + 1) :=
  ⟨commanded (endloop 2), _, 9, _, _, _, _, _, 0, 2, atStep_of (s := commanded (endloop 2)) rfl (by decide +kernel), by decide +kernel,
    by decide +kernel, by decide +kernel, .inl rfl⟩
theorem wit_LoopStepsCount_again : ∃ (s s1 : State) (id : Nat) (c : Cmd) (p0 p : ImpState) (f : Step) (r : Route) (j trips : Nat),
    AtStep s s1 id c p0 p f r ∧ f.opc = 8 ∧ p.loops = [(f.lc, j, trips)] ∧ p.ctr.getD f.lc 0 + 1 < trips ∧
    EndsPlainly c p (j + 1) :=
  ⟨commanded (endloop 3), _, 9, _, _, _, _, _, 0, 3, atStep_of (s := commanded (endloop 3)) rfl (by decide +kernel), by decide +kernel,
    by decide +kernel, by decide +kernel, .inl rfl⟩

/-- WAIT for a word at 0x4000 of at least 0, or 1; SIGNAL that adds 1. -/
def wait (n : Nat) (b : Bool) : Cmd := impAt (5 + n * 2 ^ 192) fun p => { p with begun := b }
def sig1 : Cmd := impAt (6 + 2 ^ 192) id
/-- The same from a Feeder of sheet 1, whose word is on sheet 0. -/
def sigFar : Cmd := { sig1 with feeder := 4 }
def vaOf (c : Cmd) : DWord := BitVec.ofNat 64 (wrap (routeOf1 c).dst 64)

/-- What WAIT and SIGNAL ask for: the word at x. -/
def AtStepWord (s s1 s2 : State) (id : Nat) (c : Cmd) (p0 p : ImpState) (f : Step) (r : Route) (n : Need) (x : Phys) : Prop :=
  AtStep s s1 id c p0 p f r ∧ EndsPlainly c p (p.step + 1) ∧
    s1.translate c.mmu c.ctx (BitVec.ofNat 64 (wrap r.dst 64)) n = (.ok x, s2) ∧ s.poisoned x.place 8 = false
theorem atWord (c : Cmd) (n : Need) (q : Phys → State → Bool) (h1 : c.id = 9 ∧ c.imp.isSome = true ∧ c.killed = false ∧
    c.suspended = false ∧ (impOf c).parsed.isSome = true ∧ (commanded c).issuedBefore c = true ∧
    (((commanded c).gang c.gang).any fun g => g.acks.contains (.feeder c.id)) = false ∧ (impOf c).cur.isSome = true ∧
    (commanded c).postsOf 9 = [] ∧ (commanded c).feederBlocked c.feeder = false) (hc : c.cr = none)
    (h2 : okAnd ((seen (commanded c) c).translate c.mmu c.ctx (vaOf c) n) (fun x =>
      !(commanded c).poisoned x.place 8 && q x ((seen (commanded c) c).translate c.mmu c.ctx (vaOf c) n).2) = true) :
    ∃ s2 x, AtStepWord (commanded c) (seen (commanded c) c) s2 9 c (impOf c) (impOf c) (stepOf c) (routeOf1 c) n x ∧ q x s2 = true := by
  obtain ⟨x, hx, h3⟩ := okAnd_of h2
  simp only [Bool.and_eq_true, Bool.not_eq_true'] at h3
  exact ⟨_, x, ⟨atStep_of rfl h1, .inl hc, hx, h3.1⟩, h3.2⟩

theorem wit_WaitAndSignalSteps : ∃ (s s1 s2 : State) (id : Nat) (c : Cmd) (p0 p : ImpState) (f : Step) (r : Route) (x : Phys),
    AtStepWord s s1 s2 id c p0 p f r .read x ∧ f.opc = 5 ∧ p.begun = false ∧ f.count ≤ s.readLe x.place 8 := by
  obtain ⟨s2, x, h1, h2⟩ := atWord (wait 0 false) .read (fun x _ =>
    decide ((stepOf (wait 0 false)).count ≤ (commanded (wait 0 false)).readLe x.place 8)) (by decide +kernel) rfl (by decide +kernel)
  exact ⟨_, _, s2, 9, _, _, _, _, _, x, h1, by decide +kernel, by decide +kernel, of_decide_eq_true h2⟩
theorem wit_WaitAndSignalSteps_poll : ∃ (s s1 s2 : State) (id : Nat) (c : Cmd) (p0 p : ImpState) (f : Step) (r : Route) (x : Phys),
    AtStepWord s s1 s2 id c p0 p f r .read x ∧ f.opc = 5 ∧ p.begun = false ∧ s.readLe x.place 8 < f.count := by
  obtain ⟨s2, x, h1, h2⟩ := atWord (wait 1 false) .read (fun x _ =>
    decide ((commanded (wait 1 false)).readLe x.place 8 < (stepOf (wait 1 false)).count)) (by decide +kernel) rfl (by decide +kernel)
  exact ⟨_, _, s2, 9, _, _, _, _, _, x, h1, by decide +kernel, by decide +kernel, of_decide_eq_true h2⟩
theorem wit_WaitAndSignalSteps_met : ∃ (s s1 s2 : State) (id : Nat) (c : Cmd) (p0 p : ImpState) (f : Step) (r : Route) (x : Phys),
    AtStepWord s s1 s2 id c p0 p f r .read x ∧ f.opc = 5 ∧ p.begun = true ∧ f.count ≤ s.readLe x.place 8 := by
  obtain ⟨s2, x, h1, h2⟩ := atWord (wait 0 true) .read (fun x _ =>
    decide ((stepOf (wait 0 true)).count ≤ (commanded (wait 0 true)).readLe x.place 8)) (by decide +kernel) rfl (by decide +kernel)
  exact ⟨_, _, s2, 9, _, _, _, _, _, x, h1, by decide +kernel, by decide +kernel, of_decide_eq_true h2⟩
def wordFree (c : Cmd) (b : Bool) (x : Phys) (t : State) : Bool :=
  !x.mig && !t.isMoving x.place && (match x.place with | .hbm _ => true | _ => false) && decide (x.sheet = c.feeder / 4) == b
theorem wordFree_of {c : Cmd} {b : Bool} {x : Phys} {t s : State} (h : wordFree c b x t = true) :
    x.mig = false ∧ t.isMoving x.place = false ∧ PlaceExists s x.place ∧ decide (x.sheet = c.feeder / 4) = b := by
  simp only [wordFree, Bool.and_eq_true, Bool.not_eq_true', beq_iff_eq] at h
  refine ⟨h.1.1.1, h.1.1.2, ?_, h.2⟩
  unfold PlaceExists
  split
  · trivial
  · next heq => have := h.1.2; rw [heq] at this; simp at this
theorem wit_WaitAndSignalSteps_signal : ∃ (s s1 s2 : State) (id : Nat) (c : Cmd) (p0 p : ImpState) (f : Step) (r : Route) (x : Phys),
    AtStepWord s s1 s2 id c p0 p f r .readWrite x ∧ f.opc = 6 ∧ x.mig = false ∧ s2.isMoving x.place = false ∧ PlaceExists s x.place ∧
    x.sheet = c.feeder / 4 := by
  obtain ⟨s2, x, h1, h2⟩ := atWord sig1 .readWrite (wordFree sig1 true) (by decide +kernel) rfl (by decide +kernel)
  obtain ⟨h3, h4, h5, h6⟩ := wordFree_of h2
  exact ⟨_, _, s2, 9, _, _, _, _, _, x, h1, by decide +kernel, h3, h4, h5, of_decide_eq_true h6⟩
theorem wit_WaitAndSignalSteps_far : ∃ (s s1 s2 : State) (id : Nat) (c : Cmd) (p0 p : ImpState) (f : Step) (r : Route) (x : Phys),
    AtStepWord s s1 s2 id c p0 p f r .readWrite x ∧ f.opc = 6 ∧ x.mig = false ∧ s2.isMoving x.place = false ∧ PlaceExists s x.place ∧
    x.sheet ≠ c.feeder / 4 := by
  obtain ⟨s2, x, h1, h2⟩ := atWord sigFar .readWrite (wordFree sigFar false) (by decide +kernel) rfl (by decide +kernel)
  obtain ⟨h3, h4, h5, h6⟩ := wordFree_of h2
  exact ⟨_, _, s2, 9, _, _, _, _, _, x, h1, by decide +kernel, h3, h4, h5, of_decide_eq_false h6⟩

/-- A transfer step between the ranks of a level: `lvl` 0 has one rank, level 1 two. 4 elements of 4 bytes from buffer 0, or
into buffer 1. -/
def move (opc lvl : Nat) (f : ImpState → ImpState) : Cmd :=
  impAt (opc + 2 ^ 8 + lvl * (2 ^ 10 + 2 ^ 16) + (if opc = 0 then 0 else 2 ^ 44) + 4 * 2 ^ 192) f
/-- Four wire elements. -/
def oneTo4 : List Elem := [(1, false), (2, false), (3, false), (4, false)]
/-- Its inbound step, of which no chunk has come, or the first waits. -/
def inStep (c : Cmd) (there : Bool) : InStep := ⟨0, ((impOf c).cur).getD 0, [0, 0, 0, 0], 0, [], 1, if there then [(0, oneTo4)] else []⟩
/-- RECV at level 0 with no credit, and with one. -/
def recv0 : Cmd := move 1 0 id
def recvd0 : Cmd := move 1 0 fun p => { p with ins := [inStep recv0 false] }
theorem wit_InboundStepsGiveCredit : ∃ (s s1 : State) (id : Nat) (c : Cmd) (p0 p : ImpState) (f : Step) (r : Route) (i : Instr),
    AtStep s s1 id c p0 p f r ∧ moveInstr f.opc id = some i ∧ f.receives = true ∧ f.lvl = 0 ∧ p.ins = [] :=
  ⟨commanded recv0, _, 9, _, _, _, _, _, .stepRecv 9, atStep_of (s := commanded recv0) rfl (by decide +kernel), by decide +kernel,
    by decide +kernel, by decide +kernel, by decide +kernel⟩

/-- COPY of four elements from buffer 0 to buffer 1. -/
def copy4 : Cmd := impAt (4 + 2 ^ 44 + 4 * 2 ^ 192) id
theorem served {s : State} {n : Nat} (h : ((s.serve n).any fun x => x.1.id == 9) = true) :
    ∃ d u, s.serve n = some (d, u) ∧ d.id = 9 := by
  cases hx : s.serve n with
  | none => rw [hx] at h; simp at h
  | some x => rw [hx] at h; exact ⟨x.1, x.2, rfl, by simpa using h⟩
theorem wit_TransferStepsAreServed : ∃ (s s1 : State) (id : Nat) (c : Cmd) (p0 p : ImpState) (f : Step) (r : Route) (i : Instr) (d : Cmd)
    (u : State), AtStep s s1 id c p0 p f r ∧ moveInstr f.opc id = some i ∧
    (f.receives = true → ∃ e, p.here = some e ∧ (e.lacks < e.upto ∨ chunkCount f r ≤ e.lacks)) ∧
    s1.serve c.feeder = some (d, u) ∧ d.id = id := by
  obtain ⟨d, u, h1, h2⟩ := served (s := seen (commanded copy4) copy4) (n := copy4.feeder) (by decide +kernel)
  exact ⟨commanded copy4, _, 9, copy4, _, _, _, _, .stepCopy 9, d, u, atStep_of (s := commanded copy4) rfl (by decide +kernel),
    by decide +kernel, fun h => absurd h (by decide +kernel), h1, h2⟩

/-- What the moving of a chunk asks for. -/
def MovesChunk (s s1 s0 s2 s3 : State) (id : Nat) (c : Cmd) (p0 p : ImpState) (f : Step) (r : Route) (i : Instr) (k n o : Nat)
    (inn : List (Nat × Bool)) (ps pd : List Place) : Prop :=
  let sd := runSide r.a r.src
  let dd := runSide r.b r.dst
  let d := if f.opc = 1 then [] else s2.readElems sd ps
  let loc := (chunkGives f r d inn).1
  let out := (chunkGives f r d inn).2
  AtStep s s1 id c p0 p f r ∧ AloneOnFeeder s c ∧ moveInstr f.opc id = some i ∧ EndsPlainly c p (p.step + 1) ∧
  ChunkReady s1 s0 c p f r k n o inn ∧
  (if f.opc = 1 then s2 = s0
    else s0.globalPlaces c.mmu c.ctx .read sd.part (runAddrs r.a r.src (chunkSpan f r k).1 (chunkSpan f r k).2) = (.ok ps, s2)) ∧
  (if f.opc = 0 ∨ f.opc = 2 then pd = [] ∧ s3 = s2
    else s2.globalPlaces c.mmu c.ctx .write dd.part (runAddrs r.b r.dst (chunkSpan f r k).1 loc.length) = (.ok pd, s3)) ∧
  (f.opc ≠ 2 → pd.length = loc.length * dd.parts) ∧ pd.Pairwise (Apart dd.part) ∧ (∀ q ∈ pd, s3.isMoving q = false ∧ PlaceExists s q) ∧
  (f.lvl = 1 → ∀ x ∈ out, x.2 = false)
/-- The command with channels. -/
def onChan (c : Cmd) (h : List ImpChan) : State := { commanded c with impChans := h }

/-- SEND at level 0 under a credit for its one chunk. -/
def send0 : Cmd := move 0 0 id
def granting : State := onChan send0 [⟨0, 7, 0, 0, 0, 1, [], [⟨0, 0, 4, 0, 9, 0, 1⟩], []⟩]
theorem wit_TransferStepsMoveChunks : ∃ (s s1 s0 s2 s3 : State) (id : Nat) (c : Cmd) (p0 p : ImpState) (f : Step) (r : Route)
    (i : Instr) (k n o : Nat) (inn : List (Nat × Bool)) (ps pd : List Place),
    MovesChunk s s1 s0 s2 s3 id c p0 p f r i k n o inn ps pd ∧ f.opc = 0 ∧ f.lvl = 0 := by
  let s := seen granting send0
  let x := s.globalPlaces (send0.mmu) 0 .read 4 (runAddrs 0 0x4000 0 4)
  have h : okAnd x (fun p => decide (p = four 0x20004000)) = true := by decide +kernel
  obtain ⟨ps, hp, h6⟩ := okAnd_of h
  have h8 := of_decide_eq_true h6
  subst h8
  refine ⟨granting, s, s, x.2, x.2, 9, send0, _, _, _, _, .stepSend 9, 0, 0, 0, [], _, [], ⟨atStep_of (s := granting) rfl (by decide +kernel),
    aloneOn rfl (by decide +kernel), by decide +kernel, .inl rfl, ?_, hp, ?_, ?_, .nil, nofun, ?_⟩, by decide +kernel, by decide +kernel⟩
  · exact
      { copies := fun h => absurd h (by decide +kernel), sends := fun _ => by decide +kernel, alone := fun _ => rfl
        waits := fun h => absurd h (by decide +kernel)
        out0 := fun _ _ => ⟨rfl, fun _ => ⟨by decide +kernel, by decide +kernel, ⟨0, 0, 4, 0, 9, 0, 1⟩, by decide +kernel, by decide +kernel,
          by decide⟩⟩
        in0 := fun _ h => absurd h (by decide +kernel), out1 := fun _ h => absurd h (by decide +kernel)
        in1 := fun h => absurd h (by decide +kernel) }
  · rw [if_pos (by decide +kernel)]; exact ⟨rfl, rfl⟩
  · exact fun _ => by decide +kernel
  · exact fun h => absurd h (by decide +kernel)

/-- RECV at level 0 whose peer has given its one chunk. -/
def given : State := onChan recvd0 [⟨0, 7, 0, 0, 1, 1, [⟨0, [oneTo4], false⟩], [⟨0, 0, 4, 0, 9, 0, 1⟩], []⟩]
theorem wit_TransferStepsMoveChunks_recv : ∃ (s s1 s0 s2 s3 : State) (id : Nat) (c : Cmd) (p0 p : ImpState) (f : Step) (r : Route)
    (i : Instr) (k n o : Nat) (inn : List (Nat × Bool)) (ps pd : List Place),
    MovesChunk s s1 s0 s2 s3 id c p0 p f r i k n o inn ps pd ∧ f.opc = 1 ∧ f.lvl = 0 ∧ ∃ e, p.here = some e ∧ k ∉ e.recvd := by
  let s := seen given recvd0
  let y := s.globalPlaces recvd0.mmu 0 .write 4 (runAddrs 0 0x5000 0 4)
  have h : okAnd y (fun p => decide (p = four 0x20005000)) = true ∧ y.2.moving = [] := by decide +kernel
  obtain ⟨pd, hd, h6⟩ := okAnd_of h.1
  have h8 := of_decide_eq_true h6
  subst h8
  refine ⟨given, s, s, s, y.2, 9, recvd0, _, _, _, _, .stepRecv 9, 0, 0, 0, oneTo4, [], four 0x20005000, ⟨atStep_of (s := given) rfl (by decide +kernel),
    aloneOn rfl (by decide +kernel), by decide +kernel, .inl rfl, ?_, ?_, ?_, ?_, four_apart _, four_free h.2, ?_⟩, by decide +kernel,
    by decide +kernel, inStep recv0 false, by decide +kernel, by decide +kernel⟩
  · exact
      { copies := fun h => absurd h (by decide +kernel), sends := fun h => absurd h (by decide +kernel)
        alone := fun h => absurd h (by decide +kernel)
        waits := fun _ => ⟨inStep recv0 false, by decide +kernel, by decide +kernel, fun _ _ => by decide +kernel⟩
        out0 := fun _ _ => ⟨rfl, fun h => absurd h (by decide +kernel)⟩
        in0 := fun _ _ => ⟨inStep recv0 false, ⟨0, [oneTo4], false⟩, by decide +kernel, by decide +kernel, by decide +kernel, by decide +kernel⟩
        out1 := fun _ h => absurd h (by decide +kernel), in1 := fun h => absurd h (by decide +kernel) }
  · exact (if_pos (by decide +kernel)).mpr rfl
  · rw [if_neg (by decide +kernel)]; exact hd
  · exact fun _ => by decide +kernel
  · exact fun h => absurd h (by decide +kernel)

/-- Receive, reduce, send at level 1 under a grant, its first chunk received. -/
def rrsCmd : Cmd := impAt (2 + 2 ^ 8 + 2 ^ 10 + 2 ^ 16 + 2 ^ 32 + 4 * 2 ^ 192) fun p => { p with
  grant := some ⟨1, 0, 0, 0, 1⟩, ins := [⟨0, p.cur.getD 0, [0, 0, 0, 0], 0, [], 1, [(0, oneTo4)]⟩] }
theorem wit_TransferStepsMoveChunks_rrs : ∃ (s s1 s0 s2 s3 : State) (id : Nat) (c : Cmd) (p0 p : ImpState) (f : Step) (r : Route)
    (i : Instr) (k n o : Nat) (inn : List (Nat × Bool)) (ps pd : List Place),
    MovesChunk s s1 s0 s2 s3 id c p0 p f r i k n o inn ps pd ∧ f.opc = 2 ∧ f.lvl = 1 := by
  let s := seen (commanded rrsCmd) rrsCmd
  let u := s.peerPort rrsCmd (impOf rrsCmd).desc 1
  let v := u.2.peerPort rrsCmd (impOf rrsCmd).desc 1
  let x := v.2.globalPlaces rrsCmd.mmu 0 .read 4 (runAddrs 0 0x4000 0 4)
  have h : okAnd u (fun p => decide (p = 0)) = true ∧ okAnd v (fun p => decide (p = 0)) = true ∧
      okAnd x (fun p => decide (p = four 0x20004000)) = true := by decide +kernel
  obtain ⟨ps, hp, h6⟩ := okAnd_of h.2.2
  obtain ⟨a, ha, h7⟩ := okAnd_of h.1
  obtain ⟨b, hb, h9⟩ := okAnd_of h.2.1
  have h8 := of_decide_eq_true h6
  subst h8
  have h10 := of_decide_eq_true h7
  subst h10
  refine ⟨commanded rrsCmd, s, v.2, x.2, x.2, 9, rrsCmd, _, _, _, _, .stepRrs 9, 0, 0, 0, oneTo4, _, [],
    ⟨atStep_of (s := commanded rrsCmd) rfl (by decide +kernel), aloneOn rfl (by decide +kernel), by decide +kernel, .inl rfl, ?_, hp, ?_,
      ?_, .nil, nofun, ?_⟩, by decide +kernel, by decide +kernel⟩
  · exact
      { copies := fun h => absurd h (by decide +kernel), sends := fun _ => by decide +kernel
        alone := fun h => absurd h (by decide +kernel)
        waits := fun _ => ⟨⟨0, (impOf rrsCmd).cur.getD 0, [0, 0, 0, 0], 0, [], 1, [(0, oneTo4)]⟩, by decide +kernel, by decide +kernel,
          fun h => absurd h (by decide +kernel)⟩
        out0 := fun _ h => absurd h (by decide +kernel), in0 := fun h => absurd h (by decide +kernel)
        out1 := fun _ _ => ⟨by decide +kernel, by decide +kernel, fun _ => ⟨⟨1, 0, 0, 0, 1⟩, by decide +kernel, by decide, by decide⟩, u.2,
          (if_pos (by decide +kernel)).mpr ha, (if_pos (by decide +kernel)).mpr ⟨b, hb⟩⟩
        in1 := fun _ _ => ⟨⟨0, (impOf rrsCmd).cur.getD 0, [0, 0, 0, 0], 0, [], 1, [(0, oneTo4)]⟩, by decide +kernel, by decide +kernel⟩ }
  · rw [if_pos (by decide +kernel)]; exact ⟨rfl, rfl⟩
  · exact fun h => absurd (by decide +kernel) h
  · exact fun _ => by decide +kernel

/-- Receive, reduce, keep at level 1, its one chunk received: the step's end. -/
def rrcCmd : Cmd := impAt (3 + 2 ^ 8 + 2 ^ 10 + 2 ^ 16 + 2 ^ 32 + 2 ^ 44 + 4 * 2 ^ 192) fun p => { p with
  ins := [⟨0, p.cur.getD 0, [0, 0, 0, 0], 0, [], 1, [(0, oneTo4)]⟩] }
theorem wit_TransferStepsMoveChunks_rrc : ∃ (s s1 s0 s2 s3 : State) (id : Nat) (c : Cmd) (p0 p : ImpState) (f : Step) (r : Route)
    (i : Instr) (k n o : Nat) (inn : List (Nat × Bool)) (ps pd : List Place),
    MovesChunk s s1 s0 s2 s3 id c p0 p f r i k n o inn ps pd ∧ f.opc = 3 ∧ f.lvl = 1 ∧ ∃ e, p.here = some e ∧ k ∉ e.recvd ∧
    chunkCount f r = e.recvd.length + 1 := by
  let s := seen (commanded rrcCmd) rrcCmd
  let v := s.peerPort rrcCmd (impOf rrcCmd).desc 1
  let x := v.2.globalPlaces rrcCmd.mmu 0 .read 4 (runAddrs 0 0x4000 0 4)
  let y := x.2.globalPlaces rrcCmd.mmu 0 .write 4 (runAddrs 0 0x5000 0 4)
  have h : okAnd v (fun p => decide (p = 0)) = true ∧ okAnd x (fun p => decide (p = four 0x20004000)) = true ∧
      okAnd y (fun p => decide (p = four 0x20005000)) = true ∧ y.2.moving = [] := by decide +kernel
  obtain ⟨ps, hp, h6⟩ := okAnd_of h.2.1
  obtain ⟨pd, hd, h7⟩ := okAnd_of h.2.2.1
  obtain ⟨b, hb, -⟩ := okAnd_of h.1
  have h8 := of_decide_eq_true h6
  have h9 := of_decide_eq_true h7
  subst h8 h9
  refine ⟨commanded rrcCmd, s, v.2, x.2, y.2, 9, rrcCmd, _, _, _, _, .stepRrc 9, 0, 0, 0, oneTo4, _, four 0x20005000,
    ⟨atStep_of (s := commanded rrcCmd) rfl (by decide +kernel), aloneOn rfl (by decide +kernel), by decide +kernel, .inl rfl, ?_, hp, ?_,
      ?_, four_apart _, four_free h.2.2.2, ?_⟩, by decide +kernel, by decide +kernel,
      ⟨0, (impOf rrcCmd).cur.getD 0, [0, 0, 0, 0], 0, [], 1, [(0, oneTo4)]⟩, by decide +kernel, by decide +kernel, by decide +kernel⟩
  · exact
      { copies := fun h => absurd h (by decide +kernel), sends := fun h => absurd h (by decide +kernel)
        alone := fun h => absurd h (by decide +kernel)
        waits := fun _ => ⟨⟨0, (impOf rrcCmd).cur.getD 0, [0, 0, 0, 0], 0, [], 1, [(0, oneTo4)]⟩, by decide +kernel, by decide +kernel,
          fun _ h => absurd h (by decide +kernel)⟩
        out0 := fun _ h => absurd h (by decide +kernel), in0 := fun h => absurd h (by decide +kernel)
        out1 := fun _ _ => ⟨by decide +kernel, nofun, fun h => absurd h (by decide +kernel), s, (if_neg (by decide +kernel)).mpr rfl,
          (if_pos (by decide +kernel)).mpr ⟨b, hb⟩⟩
        in1 := fun _ _ => ⟨⟨0, (impOf rrcCmd).cur.getD 0, [0, 0, 0, 0], 0, [], 1, [(0, oneTo4)]⟩, by decide +kernel, by decide +kernel⟩ }
  · rw [if_neg (by decide +kernel)]; exact hd
  · exact fun _ => by decide +kernel
  · exact fun _ => by decide +kernel

/-- What a COPY of four words finds. -/
theorem copies4 : ∃ s2 s3, (seen (commanded copy4) copy4).globalPlaces copy4.mmu 0 .read 4 (runAddrs 0 0x4000 0 4) =
      (.ok (four 0x20004000), s2) ∧ s2.globalPlaces copy4.mmu 0 .write 4 (runAddrs 0 0x5000 0 4) = (.ok (four 0x20005000), s3) ∧
    s3.moving = [] := by
  let x := (seen (commanded copy4) copy4).globalPlaces copy4.mmu 0 .read 4 (runAddrs 0 0x4000 0 4)
  let y := x.2.globalPlaces copy4.mmu 0 .write 4 (runAddrs 0 0x5000 0 4)
  have h : okAnd x (fun p => decide (p = four 0x20004000)) = true ∧ okAnd y (fun p => decide (p = four 0x20005000)) = true ∧
      y.2.moving = [] := by decide +kernel
  obtain ⟨ps, hp, h6⟩ := okAnd_of h.1
  obtain ⟨pd, hd, h7⟩ := okAnd_of h.2.1
  have h8 := of_decide_eq_true h6
  have h9 := of_decide_eq_true h7
  subst h8 h9
  exact ⟨_, _, hp, hd, h.2.2⟩
theorem wit_TransferStepsMoveChunks_copy : ∃ (s s1 s0 s2 s3 : State) (id : Nat) (c : Cmd) (p0 p : ImpState) (f : Step) (r : Route)
    (i : Instr) (k n o : Nat) (inn : List (Nat × Bool)) (ps pd : List Place),
    MovesChunk s s1 s0 s2 s3 id c p0 p f r i k n o inn ps pd ∧ f.opc = 4 := by
  obtain ⟨s2, s3, hp, hd, h⟩ := copies4
  let s := seen (commanded copy4) copy4
  refine ⟨commanded copy4, s, s, s2, s3, 9, copy4, _, _, _, _, .stepCopy 9, 0, 0, 0, [], _, four 0x20005000,
    ⟨atStep_of (s := commanded copy4) rfl (by decide +kernel), aloneOn rfl (by decide +kernel), by decide +kernel, .inl rfl,
      { copies := fun _ => ⟨by decide +kernel, rfl⟩, sends := fun h => absurd h (by decide +kernel), alone := fun _ => rfl
        waits := fun h => absurd h (by decide +kernel), out0 := fun h => absurd h (by decide +kernel)
        in0 := fun _ h => absurd h (by decide +kernel), out1 := fun h => absurd h (by decide +kernel)
        in1 := fun h => absurd h (by decide +kernel) }, hp, ?_, ?_, four_apart _, four_free h, fun h => absurd h (by decide +kernel)⟩,
    by decide +kernel⟩
  · rw [if_neg (by decide +kernel)]; exact hd
  · intro _
    show (four 0x20005000).length = ((s2.readElems ⟨.global, 4, 1⟩ (four 0x20004000)).map some).length * 1
    simp only [State.readElems, List.length_map]
    rfl
theorem wit_CopyStepsMoveElements : ∃ (s s1 : State) (id : Nat) (c : Cmd) (p0 p : ImpState) (f : Step) (r : Route) (ps pd : List Place)
    (s2 s3 : State), AtStep s s1 id c p0 p f r ∧ AloneOnFeeder s c ∧ EndsPlainly c p (p.step + 1) ∧ f.opc = 4 ∧ r.a = 0 ∧ r.b = 0 ∧
    f.rop = 0 ∧ r.src % 4 = 0 ∧ r.dst % 4 = 0 ∧ p.sent = 0 ∧ f.count ≤ 16384 ∧
    s1.globalPlaces c.mmu c.ctx .read 4 ((List.range f.count).map fun k => r.src + 4 * k) = (.ok ps, s2) ∧
    s2.globalPlaces c.mmu c.ctx .write 4 ((List.range f.count).map fun k => r.dst + 4 * k) = (.ok pd, s3) ∧
    ps.length = f.count ∧ pd.length = f.count ∧ pd.Pairwise (Apart 4) ∧
    (∀ q ∈ pd, s3.isMoving q = false ∧ PlaceExists s q) ∧ ∀ q ∈ ps, s.poisoned q 4 = false := by
  obtain ⟨s2, s3, hp, hd, h⟩ := copies4
  have hq : (commanded copy4).poison = [] ∧ (stepOf copy4).count = 4 := by decide +kernel
  exact ⟨commanded copy4, _, 9, copy4, _, _, _, _, _, _, s2, s3, atStep_of (s := commanded copy4) rfl (by decide +kernel),
    aloneOn rfl (by decide +kernel), .inl rfl, by decide +kernel, by decide +kernel, by decide +kernel, by decide +kernel, by decide +kernel,
    by decide +kernel, by decide +kernel, by decide +kernel, hp, hd, hq.2.symm ▸ rfl, hq.2.symm ▸ rfl, four_apart _, four_free h,
    four_clean hq.1⟩

/-- A program's peer 1 is behind port 0, with ECN and without. -/
theorem wit_MessagesReachTheirProgram : ∃ (s t v : State) (l k a : List Byte) (m n : CreditMsg) (b : AbortMsg) (c d : Cmd)
    (p q : ImpState) (g : Grant), CreditMsg.ofBytes [] = none ∧ AbortMsg.ofBytes [] = none ∧ s.programOf 0 1 0 = none ∧
    CreditMsg.ofBytes l = some m ∧ (noted t 0 1 true).programOf 0 1 m.tag = some (c, p) ∧ c ∈ t.cmds ∧ p.grant = some g ∧ g.peer = 1 ∧
    g.landing = m.landing ∧ (noted v 0 1 false).programOf 0 1 m.tag = some (d, q) ∧ d ∈ v.cmds ∧ q.grant = none ∧ q.offers = [] ∧
    m.first = 0 ∧ CreditMsg.ofBytes k = some n ∧ n.tag = m.tag ∧ n.first ≠ 0 ∧ AbortMsg.ofBytes a = some b ∧ b.tag = m.tag := by
  let l : List Byte := [7] ++ List.replicate 31 0
  let k : List Byte := [7] ++ List.replicate 15 0 ++ [1] ++ List.replicate 15 0
  have h : CreditMsg.ofBytes l = some ⟨7, 0, 0, 0, 0, 0⟩ ∧ CreditMsg.ofBytes k = some ⟨7, 0, 0, 0, 1, 0⟩ ∧
      AbortMsg.ofBytes l = some ⟨7, 0, 0⟩ ∧ CreditMsg.ofBytes [] = none ∧ AbortMsg.ofBytes [] = none ∧ base.programOf 0 1 0 = none := by
    decide +kernel
  have h1 : (noted (commanded rrsCmd) 0 1 true).programOf 0 1 7 = some (rrsCmd, impOf rrsCmd) := by decide +kernel
  have h2 : (noted (commanded rrcCmd) 0 1 false).programOf 0 1 7 = some (rrcCmd, impOf rrcCmd) := by decide +kernel
  exact ⟨base, commanded rrsCmd, commanded rrcCmd, l, k, l, _, _, _, rrsCmd, rrcCmd, _, _, ⟨1, 0, 0, 0, 1⟩, h.2.2.2.1, h.2.2.2.2.1,
    h.2.2.2.2.2, h.1, h1, .head _, rfl, rfl, rfl, h2, .head _, rfl, rfl, rfl, h.2.1, rfl, by decide, h.2.2.1, rfl⟩
/-- A receiver at level 1 that has given its peer a credit for its one chunk. -/
def recv1 : Cmd := move 1 1 fun p => { p with ins := [⟨0, p.cur.getD 0, [0, 0, 0, 0], 0, [], 1, []⟩] }
theorem wit_MessagesReachTheirProgram_chunk : ∃ (s : State) (imm : BitVec 32) (good bad : List Byte) (c : Cmd) (p : ImpState) (e : InStep)
    (f : Step) (r : Route) (l : List Elem), (noted s 0 1 true).programOf 0 1 (imm.toNat / 2 ^ 24) = some (c, p) ∧ c ∈ s.cmds ∧
    c.suspended = false ∧ p.ins = [e] ∧ parsedAt p.desc e.ctr e.raw = some (f, r) ∧ f.lvl = 1 ∧ r.frm = 1 ∧
    e.step % 2 ^ 8 = imm.toNat % 2 ^ 8 ∧ (imm.toNat / 2 ^ 8 % 2 ^ 16) = e.lacks ∧ e.lacks < e.upto ∧ e.recvd = [] ∧ e.stream = [] ∧
    payloadElems (wireBytes f r) (chunkSpan f r e.lacks).2 good = some l ∧
    payloadElems (wireBytes f r) (chunkSpan f r e.lacks).2 bad = none := by
  have h1 : (noted (commanded recv1) 0 1 true).programOf 0 1 7 = some (recv1, impOf recv1) := by decide +kernel
  have h2 : ((impOf recv1).parsed).isSome = true := by decide +kernel
  have h3 : (payloadElems (wireBytes (stepOf recv1) (routeOf1 recv1)) 4 (List.replicate 64 0)).isSome = true := by decide +kernel
  exact ⟨commanded recv1, 0x07000000, List.replicate 64 0, [], recv1, _, _, _, _, _, h1, .head _, rfl, rfl, some_of h2, by decide +kernel,
    by decide +kernel, by decide +kernel, by decide +kernel, by decide +kernel, rfl, rfl, some_of h3, by decide +kernel⟩

/-- SEND to the other rank of level 1, its timeout due. -/
def due5 : Cmd := move 0 1 fun p => { p with idle := 5000 }
theorem wit_TransfersThatFailEndTheProgram : ∃ (s : State) (id slot g : Nat) (c : Cmd) (p : ImpState) (f : Step) (r : Route) (w : Warp),
    s.cmd id = some c ∧ c.imp = some p ∧ p.parsed = some (f, r) ∧ c.killed = false ∧ c.suspended = false ∧
    c.owner = .warp slot g ∧ s.warp slot = some w ∧ w.gang = g ∧ w.r.frame = none ∧ w.r.live ≠ 0 ∧ c.cr = none ∧ f.opc < 4 ∧
    p.desc.timeout ≠ 0 ∧ 1000 * p.desc.timeout = p.idle ∧ f.lvl = 1 := by
  have h : (impOf due5).parsed.isSome = true := by decide +kernel
  exact ⟨commanded due5, 9, 0, 0, due5, _, _, _, w0, rfl, rfl, some_of h, rfl, rfl, rfl, by decide +kernel, by decide +kernel,
    by decide +kernel, by decide +kernel, rfl, by decide +kernel, by decide +kernel, by decide +kernel, by decide +kernel⟩

/-! Regions and detected errors -/

theorem wit_RegionBeginOpensALevel : ∃ (s : State) (sl : Slot) (w : Warp) (r : Regs) (i : RgnBeginI), s.Chosen sl w r ∧
    sl.proof = false ∧ RegionGroup r sl.grp (active r sl.grp i.g) ∧ w.levels = [] ∧ s.galleyRoom (sl.w / 68) ≠ [] :=
  ⟨_, _, _, _, ⟨always, 0x800000, 7⟩, chosen base id (.rgnBegin ⟨always, 0x800000, 7⟩), rfl,
    by unfold RegionGroup WholeGroup; decide +kernel, by decide +kernel, by decide +kernel⟩
/-- The fourth level. -/
theorem wit_RegionBeginOpensALevel_inner : ∃ (s : State) (sl : Slot) (w : Warp) (r : Regs) (i : RgnBeginI), s.Chosen sl w r ∧
    sl.proof = false ∧ RegionGroup r sl.grp (active r sl.grp i.g) ∧ w.levels.length = 3 :=
  ⟨_, _, _, _, ⟨always, 0x800000, 7⟩, chosen base (fun w => { w with levels := [level, level, level] })
    (.rgnBegin ⟨always, 0x800000, 7⟩), rfl, by unfold RegionGroup WholeGroup; decide +kernel, by decide +kernel⟩

/-- Two vector registers, all scalars, p7, j15 and tiles 0 and 7 are kept. -/
def keepI : RgnKeepI := ⟨always, 254, 2, 0, 64, 0x80, 0x8000, some 0, some 7⟩
theorem wit_RegionKeepKeepsValues : ∃ (s : State) (sl : Slot) (w : Warp) (r : Regs) (i : RgnKeepI) (l : Level) (rest : List Level),
    s.Chosen sl w r ∧ sl.proof = false ∧ RegionGroup r sl.grp (active r sl.grp i.g) ∧ w.levels = l :: rest ∧
    (w.modInner fun lv => lv.keep r w.tiles (keepUse i)).withLag.galleyUsed ≤ 128 ∧
    s.spareUsed (sl.w / 17) + (w.modInner fun lv => lv.keep r w.tiles (keepUse i)).keptTiles - w.keptTiles = 2 ∧ i.tile0 ≠ none :=
  ⟨_, _, _, _, keepI, level, [], chosen base inRegion (.rgnKeep keepI), rfl, by unfold RegionGroup WholeGroup; decide +kernel, rfl,
    by decide +kernel, by decide +kernel, nofun⟩

/-- A level that holds one byte at 0x2000. -/
def holding : Level := { level with held := [⟨5, false, 0x80, [(0, 7)], [], none⟩] }
/-- What a reduction inside a region leaves to be done at its end. -/
def deferredRed : List Deferred :=
  match exec (.red redI) (ready inRegion (.red redI)) with
  | .next t => ((t.warp 0).bind fun w => w.levels.head?.map Level.deferred).getD []
  | _ => []
def ending (w : Warp) : Warp := { last w with levels := [{ holding with deferred := deferredRed ++ [.feed aCmd] }] }
theorem wit_RegionEndReleases : ∃ (s : State) (sl : Slot) (w : Warp) (r : Regs) (i : PlainI) (l : Level) (ops : List MemOp)
    (work : List Deferred) (s1 s2 : State), s.Chosen sl w r ∧ sl.proof = false ∧ RegionGroup r sl.grp (active r sl.grp i.g) ∧
    (∀ o ∈ w.pend, o.id < s.opSeq) ∧ w.proof = none ∧ w.levels = [l] ∧ l.held ≠ [] ∧ (∀ h ∈ l.held, h.bad = []) ∧
    (memWork l.deferred).length = 1 ∧ (feedWork l.deferred).length = 1 ∧ (∀ o ∈ memWork l.deferred, o.kind ≠ .fence) ∧
    s.taken.releaseOps sl w r (active r sl.grp i.g) l.held = (.ok ops, s1) ∧
    s1.redeferred (slotQuadId sl.w) w.ctx l.deferred = (.ok work, s2) := by
  let i : PlainI := ⟨always⟩
  let l : Level := { holding with deferred := deferredRed ++ [.feed aCmd] }
  let x := (ready ending (.rgnEnd i)).taken.releaseOps (slot (.rgnEnd i)) (ending w0) (R ending) (active (R ending) A always) l.held
  let y := x.2.redeferred (slotQuadId (slot (.rgnEnd i)).w) (ending w0).ctx l.deferred
  have h : okAnd x (fun _ => true) = true ∧ okAnd y (fun _ => true) = true := by decide +kernel
  obtain ⟨ops, ho, -⟩ := okAnd_of h.1
  obtain ⟨work, hw, -⟩ := okAnd_of h.2
  exact ⟨_, _, _, _, i, l, ops, work, _, _, chosen base ending (.rgnEnd i), rfl, by unfold RegionGroup WholeGroup; decide +kernel,
    by decide +kernel, rfl, rfl, nofun, by decide +kernel, by decide +kernel, by decide +kernel, by decide +kernel, ho, hw⟩
/-- A leader. -/
def leading (w : Warp) : Warp := { w with levels := [level], proof := some ⟨w.r, [], [], []⟩ }
theorem wit_RegionEndReleases_leader : ∃ (s : State) (sl : Slot) (w : Warp) (r : Regs) (i : PlainI), s.Chosen sl w r ∧
    sl.proof = false ∧ RegionGroup r sl.grp (active r sl.grp i.g) ∧ (∀ o ∈ w.pend, o.id < s.opSeq) ∧ w.levels ≠ [] ∧ w.proof ≠ none :=
  ⟨_, _, _, _, ⟨always⟩, chosen base leading (.rgnEnd ⟨always⟩), rfl, by unfold RegionGroup WholeGroup; decide +kernel, by decide +kernel,
    nofun, nofun⟩
theorem wit_RegionEndReleases_inner : ∃ (s : State) (sl : Slot) (w : Warp) (r : Regs) (i : PlainI) (l outer : Level)
    (rest : List Level), s.Chosen sl w r ∧ sl.proof = false ∧ RegionGroup r sl.grp (active r sl.grp i.g) ∧
    (∀ o ∈ w.pend, o.id < s.opSeq) ∧ w.proof = none ∧ w.levels = l :: outer :: rest :=
  ⟨_, _, _, _, ⟨always⟩, holding, holding, [], chosen base (fun w => { w with levels := [holding, holding] }) (.rgnEnd ⟨always⟩),
    rfl, by unfold RegionGroup WholeGroup; decide +kernel, by decide +kernel, rfl, rfl⟩

theorem wit_RegionAbortAndStatus : ∃ (s : State) (sl : Slot) (w : Warp) (r : Regs) (i : TrapI) (j : RgnStatusI), s.Chosen sl w r ∧
    sl.proof = false ∧ WholeGroup r sl.grp (active r sl.grp i.g) ∧ w.levels ≠ [] ∧ active r sl.grp j.g ≠ 0 ∧ r.frame = none :=
  ⟨_, _, _, _, ⟨always, .int 31⟩, ⟨always, 63⟩, chosen base inRegion (.rgnAbort ⟨always, .int 31⟩), rfl,
    by unfold WholeGroup; decide +kernel, by decide +kernel, by decide +kernel, by decide +kernel⟩

theorem wit_RegionChecksRaise_handler : ∃ (s : State) (sl : Slot) (w : Warp) (r : Regs) (j : PlainI), s.Chosen sl w r ∧
    sl.instr = .rgnEnd j ∧ sl.proof = false ∧ r.frame ≠ none ∧ active r sl.grp j.g ≠ 0 :=
  ⟨_, _, _, _, ⟨always⟩, chosen base handling (.rgnEnd ⟨always⟩), rfl, rfl, by decide +kernel, by decide +kernel⟩
theorem wit_RegionChecksRaise_group : ∃ (s : State) (sl : Slot) (w : Warp) (r : Regs) (j : PlainI), s.Chosen sl w r ∧
    sl.instr = .rgnEnd j ∧ sl.proof = false ∧ r.frame = none ∧ ¬WholeGroup r sl.grp (active r sl.grp j.g) :=
  ⟨_, _, _, _, ⟨⟨7, false⟩⟩, chosen base inRegion (.rgnEnd ⟨⟨7, false⟩⟩), rfl, rfl, by decide +kernel,
    by unfold WholeGroup; decide +kernel⟩
theorem wit_RegionChecksRaise_level : ∃ (s t : State) (sl sm : Slot) (w x : Warp) (r u : Regs) (j : PlainI) (k : RgnBeginI),
    (s.Chosen sl w r ∧ sl.instr = .rgnEnd j ∧ RegionGroup r sl.grp (active r sl.grp j.g) ∧ w.levels = []) ∧
    (t.Chosen sm x u ∧ sm.instr = .rgnBegin k ∧ RegionGroup u sm.grp (active u sm.grp k.g) ∧ x.levels.length = 4) :=
  ⟨_, _, _, _, _, _, _, _, ⟨always⟩, ⟨always, 0, 0⟩,
    ⟨chosen base id (.rgnEnd ⟨always⟩), rfl, by unfold RegionGroup WholeGroup; decide +kernel, by decide +kernel⟩,
    ⟨chosen base (fun w => { w with levels := [level, level, level, level] }) (.rgnBegin ⟨always, 0, 0⟩), rfl,
      by unfold RegionGroup WholeGroup; decide +kernel, by decide +kernel⟩⟩

/-- An error detected for an instruction of the open level; a kept scalar; one retry left. -/
theorem wit_RollbackRestoresKeptState : ∃ (s : State) (slot : Nat) (w : Warp) (e : AsyncErr) (l : Level), s.warp slot = some w ∧
    w.det = [e] ∧ w.async = [] ∧ w.r.frame = none ∧ w.stopped = false ∧ w.boundary = true ∧ w.platen = [] ∧ w.results = [] ∧
    w.levels = [l] ∧ 1 ≤ e.level ∧ 0 < l.retry ∧ l.kv = [] ∧ l.kp = [] ∧ l.kt = [] ∧
    l.badKept = false ∧ (∀ h ∈ l.held, h.bad = []) ∧ l.held ≠ [] ∧ (l.ks.map Prod.fst).Nodup := by
  let f (w : Warp) : Warp :=
    { w with det := [{ anError 0xC2 with level := 1 }], levels := [{ holding with retry := 1, ks := [(63, 7)] }] }
  exact ⟨ready f .boot, 0, f w0, _, _, rfl, rfl, by decide +kernel, by decide +kernel, by decide +kernel, by decide +kernel,
    by decide +kernel, by decide +kernel, rfl, by decide, by decide, rfl, rfl, rfl, rfl, by decide, nofun, by decide⟩

/-- The oldest instruction within the skid bound, one that is older, and one whose detection an instruction waited for. -/
theorem wit_DetectedErrorsWaitForTheBoundary : ∃ (s t : State) (slot old older : Nat) (w x : Warp) (c : Nat), s.warp slot = some w ∧
    w.r.frame = none ∧ c = 0xC8 ∧ (w.resolved ≤ old ∧ old < w.r.gseq.toNat ∧ w.r.gseq.toNat = old + 256) ∧
    ¬(older < w.r.gseq.toNat ∧ w.r.gseq.toNat ≤ older + 256) ∧
    t.warp slot = some x ∧ x.r.frame = none ∧ old < x.resolved ∧ old < x.r.gseq.toNat ∧ x.r.gseq.toNat ≤ old + 256 := by
  let f (n : Nat) (w : Warp) : Warp := { w with resolved := n, r := { w.r with gseq := 300 } }
  exact ⟨ready (f 44) .boot, ready (f 45) .boot, 0, 44, 43, f 44 w0, f 45 w0, 0xC8, rfl, by decide +kernel, rfl, by decide +kernel,
    by decide +kernel, rfl, by decide +kernel, by decide, by decide, by decide⟩

/-! Gangs, the fabric -/

/-- A launch that waits for its gang to be placed. -/
def waits5 : Work := { Work.one 5 2 with next := 0 }
theorem wit_GangsArePlaced : ∃ (s : State) (w : Work) (l : LaunchRec) (slots : List Nat) (sites : List Site),
    s.nextWork = some w ∧ w.launch = some l ∧ s.sitesFor ⟨w, none⟩ slots = some sites ∧ (sites.flatMap Site.slots).Nodup :=
  ⟨{ base with works := [Work.one 1 2, waits5] }, waits5, .one, [17], [⟨0, [17], [], []⟩], by decide +kernel, rfl,
    by decide +kernel, by decide⟩
theorem wit_GangsArePlaced_again : ∃ (s : State) (gang : Nat) (g : Gang) (w : Work) (l : LaunchRec),
    s.gang gang = some g ∧ g.phase = .waitRelaunch ∧ s.work g.launch = some w ∧ w.launch = some l ∧
    (∀ b ∈ g.blocks, b.released = false) ∧ s.sitesFor ⟨w, some g⟩ [] = some [] ∧ s.yields g = false ∧
    (g.blocks.flatMap Block.slots).Nodup :=
  ⟨{ base with gangs := [{ Gang.one 0 1 0 with phase := .waitRelaunch }], warps := [] }, 0, { Gang.one 0 1 0 with phase := .waitRelaunch },
    Work.one 1 2, .one, rfl, rfl, rfl, rfl, by decide +kernel, by decide +kernel, by decide +kernel, by decide +kernel⟩

/-- A launch that may be relaunched; one retry left. -/
def retries : State :=
  { base with rcbs := [{ Rcb.open 2 with retry := 1 }], works := [{ Work.one 1 2 with launch := some { LaunchRec.one with relaunch := true } }] }
theorem wit_GangsEnd : ∃ (s t : State) (g : Nat) (x : Gang) (w v : Work),
    (s.gang g = some x ∧ s.work x.launch = some w ∧ w.launch ≠ none ∧ s.under w.rcbId (s.domainOf w.rcbId) = true ∧
      (∀ y ∈ s.warpList, y.2.gang = g → killsWith 0xC6 y.2 = false) ∧ s.mayRelaunch x = true) ∧
    (t.gang g = some x ∧ t.work x.launch = some v ∧ v.launch ≠ none ∧ t.under v.rcbId (t.domainOf v.rcbId) = true ∧
      (∀ y ∈ t.warpList, y.2.gang = g → killsWith 0xC6 y.2 = false) ∧ t.mayRelaunch x = false) :=
  ⟨retries, base, 0, Gang.one 0 1 0, { Work.one 1 2 with launch := some { LaunchRec.one with relaunch := true } }, Work.one 1 2,
    ⟨rfl, rfl, by decide, by decide +kernel, by decide +kernel, by decide +kernel⟩,
    ⟨rfl, rfl, by decide, by decide +kernel, by decide +kernel, by decide +kernel⟩⟩
theorem wit_GangsEnd_vec : ∃ (s : State) (g slot : Nat) (x : Gang) (w : Warp) (e : AsyncErr) (rest : List AsyncErr),
    s.gang g = some x ∧ s.warpList.find? (fun y => y.2.gang == g && killsWith e.cause y.2) = some (slot, w) ∧
    s.warp slot = some w ∧ w.det = [] ∧ w.async = e :: rest ∧ w.r.frame = none ∧ w.r.vec = 0 ∧ w.boundary = true ∧
    reliability e.cause = false := by
  let f (w : Warp) : Warp := { w with async := [anError 0xBF] }
  exact ⟨ready f .boot, 0, 0, Gang.one 0 1 0, f w0, anError 0xBF, [], rfl, by decide +kernel, rfl, by decide +kernel, rfl,
    by decide +kernel, by decide +kernel, by decide +kernel, by decide +kernel⟩
/-- The last warp of its gang. -/
theorem wit_GangsEnd_retire : ∃ (s0 : State) (slot : Nat) (w : Warp) (g : Gang),
    let s := s0.settle slot
    s.warp slot = some w ∧ s.retireReady slot w = true ∧ w.async = [] ∧ s.gang w.gang = some g ∧
    (∀ x ∈ (s.dropWarp slot).warpList, x.2.gang ≠ w.gang) ∧
    (∀ k b, g.blocks[k]? = some b → k ≠ w.block → b.released = true) := by
  let f (w : Warp) : Warp := { w with r := { w.r with live := 0 } }
  have h : (ready f .boot).settle 0 = ready f .boot := by decide +kernel
  refine ⟨ready f .boot, 0, f w0, Gang.one 0 1 0, ?_⟩
  rw [h]
  refine ⟨rfl, by decide +kernel, by decide +kernel, rfl, by decide +kernel, ?_⟩
  intro k b hk h0
  have h1 : (f w0).block = 0 := by decide +kernel
  rcases k with - | k
  · exact absurd h1.symm h0
  · simp [Gang.one] at hk
theorem wit_GangsEnd_watchdog : ∃ (s : State) (id : Nat) (x : Rcb) (w : Work), s.rcb id = some x ∧ s.expired x = true ∧ w ∈ s.works ∧
    w.launch ≠ none ∧ s.under w.rcbId (s.domainOf id) = true ∧ (∃ g ∈ s.gangs, g.launch = w.id) :=
  ⟨{ base with rcbs := [{ Rcb.open 2 with wdog := 1, timer := 1000 }] }, 2, { Rcb.open 2 with wdog := 1, timer := 1000 },
    Work.one 1 2, rfl, by decide +kernel, by decide +kernel, by decide, by decide +kernel, by decide +kernel⟩

/-- A gang of class 2 stands where its root allows one warp; a launch of class 0 claims its reservation. -/
def crowded : State :=
  { base with
    rcbs := [{ Rcb.open 2 with warps := 1, rsv := true }, { Rcb.open 3 with addr := 256, parent := 128, ovr := 0x20, index := 1, cls := 2 }]
    works := [Work.one 1 3, waits5] }
theorem wit_GangsStopAndResume_request : ∃ (s : State) (gang : Nat) (g : Gang) (j : Job), s.gang gang = some g ∧
    g.phase = .running ∧ s.claimant = some j ∧ s.victim.map Gang.id = some gang :=
  ⟨crowded, 0, Gang.one 0 1 0, ⟨waits5, none⟩, rfl, rfl, by decide +kernel, by decide +kernel⟩
/-- The gang has run for the slice of its queue; a queue of its class has work that does not fit. -/
def sliced : State :=
  { crowded with
    time := 200000
    rcbs := [{ Rcb.open 2 with warps := 1 }, { Rcb.open 3 with addr := 256, parent := 128, ovr := 0x20, index := 1, cls := 2 }]
    works := [Work.one 1 3, { waits5 with queue := 1, rcbId := 3 }]
    queues := [(0, some ⟨0x100000, 12, 0, 2, 1, 0, 0, 0, false, 0, none, none, []⟩),
      (1, some ⟨0x200000, 12, 0, 2, 1, 0, 0, 0, false, 0, none, none, []⟩)] }
theorem wit_GangsStopAndResume_slice : ∃ (s : State) (gang : Nat) (g : Gang) (no : Nat) (q : Queue) (w x : Work),
    s.gang gang = some g ∧ s.work g.launch = some x ∧ x.queue = no ∧ s.queue no = some q ∧ s.waitingWork no q.cls = some w ∧
    g.phase = .running ∧ s.gangClass g ≠ 0 ∧ q.efSlice ≠ 0 ∧ 1000 * q.efSlice ≤ s.time - g.since :=
  ⟨sliced, 0, Gang.one 0 1 0, 0, _, { waits5 with queue := 1, rcbId := 3 }, Work.one 1 3, rfl, rfl, rfl, rfl, by decide +kernel, rfl,
    by decide +kernel, by decide +kernel, by decide +kernel⟩

def stopping (acks : List Engine) : Gang := { Gang.one 0 1 0 with phase := .stopping, acks := acks }
theorem wit_GangsStopAndResume_stopping : ∃ (s : State) (gang : Nat) (g : Gang), s.gang gang = some g ∧ g.phase = .stopping ∧
    g.acks.contains .cp = false :=
  ⟨{ base with gangs := [stopping []] }, 0, stopping [], rfl, rfl, rfl⟩
theorem wit_GangsStopAndResume_warp : ∃ (s0 : State) (gang : Nat) (g : Gang) (slot : Nat) (w : Warp), s0.gang gang = some g ∧
    g.phase = .stopping ∧
    (let s := s0.settle slot
     g.acks.contains (.warp slot) = false ∧ s.warp slot = some w ∧ w.gang = gang ∧ s.refusedDeparture slot w = false ∧
     w.results = [] ∧ w.mayStop = true) := by
  have h : ({ base with gangs := [stopping []] } : State).settle 0 = { base with gangs := [stopping []] } := by decide +kernel
  refine ⟨{ base with gangs := [stopping []] }, 0, stopping [], 0, w0, rfl, rfl, ?_⟩
  rw [h]
  exact ⟨rfl, by decide +kernel, by decide +kernel, by decide +kernel, by decide +kernel, by decide +kernel⟩
theorem wit_GangsStopAndResume_feeder : ∃ (s : State) (gang : Nat) (g : Gang) (id : Nat) (c : Cmd), s.gang gang = some g ∧
    g.phase = .stopping ∧ g.acks.contains (.feeder id) = false ∧ s.cmd id = some c ∧ c ∈ s.gangCmds gang ∧ c.suspended = false ∧
    c.cr = none ∧ s.postsOf id = [] :=
  ⟨{ commanded aCmd with gangs := [stopping []] }, 0, stopping [], 9, aCmd, rfl, rfl, rfl, rfl, by decide +kernel, rfl, rfl, rfl⟩
/-- Every engine has acknowledged. -/
def stood : State :=
  { base with gangs := [stopping [.cp, .platen 0, .warp 0]], warps := [(0, some { w0 with stopped := true })] }
theorem wit_GangsStopAndResume_complete : ∃ (s0 : State) (gang : Nat) (g : Gang),
    let s := (s0.gangSlots gang).foldl State.settle s0
    let ws := s.warpList.filter fun x => x.2.gang == gang
    s.gang gang = some g ∧ g.phase = .stopping ∧ (∀ e ∈ s.engines gang, g.acks.contains e = true) ∧
    (∀ x ∈ ws, x.2.stopped = true ∧ x.2.holdable = true) := by
  have h : (stood.gangSlots 0).foldl State.settle stood = stood := by decide +kernel
  refine ⟨stood, 0, stopping [.cp, .platen 0, .warp 0], ?_⟩
  rw [h]
  exact ⟨rfl, rfl, by decide +kernel, by decide +kernel⟩
def suspendedGang : Gang := { Gang.one 0 1 0 with phase := .suspended, saved := [(0, { w0 with stopped := true })] }
theorem wit_GangsStopAndResume_resumption : ∃ (s : State) (gang : Nat) (g : Gang), s.gang gang = some g ∧ s.resumable g = true ∧
    (∀ x ∈ g.saved, x.2.pend = []) ∧ (g.saved.map Prod.fst).Nodup ∧ g.saved ≠ [] :=
  ⟨{ base with gangs := [suspendedGang], warps := [] }, 0, suspendedGang, rfl, by decide +kernel, by decide +kernel,
    by decide +kernel, by decide +kernel⟩
theorem wit_GangsStopAndResume_rebuild : ∃ (s : State) (chase : Nat) (g : Gang), chase < 128 ∧ (s.gangs.map Gang.id).Nodup ∧
    g ∈ s.gangs ∧ g.chase = chase ∧ g.phase = .running :=
  ⟨base, 0, Gang.one 0 1 0, by decide, by decide +kernel, by decide +kernel, rfl, rfl⟩

/-- The warp of slot 0 has left for sheet 1 with number 7: the entry is on its way in channel 2 of the fabric. -/
def left (w : Warp) : Warp := { w with waits := [⟨A, .migrating 1 (some 7), 2, 0⟩] }
def onItsWay (queue : List (Nat × Freight)) : State :=
  { base with warps := [(0, some (left w0))], chans := [(2, ⟨1, [(0, .warp 0 7)], 0, 0, queue, false, 0, 0⟩)] }
/-- One that is taken, and one whose receiving queue is full. -/
theorem wit_FabricAndMigration : ∃ (s0 t0 : State) (src dst vc : Nat) (e : Nat × Freight),
    (let key := (src * 4 + dst) * 2 + vc
     let s := s0.pump src dst vc
     let c := s.chans.get key
     src ≠ dst ∧ src < 4 ∧ dst < 4 ∧ vc < 2 ∧ c.refused = false ∧ c.window.find? (fun x => x.1 == c.cursor) = some e ∧
     c.expect ≤ e.1 ∧ s.stands dst e.2 = true ∧ s.takes src dst vc e.2 = true) ∧
    (let key := (src * 4 + dst) * 2 + vc
     let s := t0.pump src dst vc
     let c := s.chans.get key
     c.refused = false ∧ c.window.find? (fun x => x.1 == c.cursor) = some e ∧
     c.expect ≤ e.1 ∧ s.stands dst e.2 = true ∧ s.takes src dst vc e.2 = false) :=
  ⟨onItsWay [], onItsWay (List.replicate 256 (0, .piece 0 0 0)), 0, 1, 0, (0, .warp 0 7), by decide +kernel, by decide +kernel⟩
/-- A warp of sheet 0 that leaves its landing slot on sheet 1 for sheet 2. -/
theorem wit_FabricAndMigration_landing : ∃ (s0 : State) (src dst vc k d : Nat) (e : Nat × Freight) (w : Warp),
    let key := (src * 4 + dst) * 2 + vc
    let s := s0.pump src dst vc
    let c := s.chans.get key
    src ≠ dst ∧ src < 4 ∧ dst < 4 ∧ vc < 2 ∧ c.refused = false ∧ c.window.find? (fun x => x.1 == c.cursor) = some e ∧
    c.expect ≤ e.1 ∧ s.stands dst e.2 = true ∧ s.takes src dst vc e.2 = true ∧ e.2 = .warp k d ∧ s.warp k = some w ∧ k ≠ w.home ∧
    k ≠ 34817 + d := by
  let w : Warp := { w0 with waits := [⟨A, .migrating 2 (some 7), 2, 0⟩] }
  refine ⟨{ base with warps := [(8720, some w)], chans := [(12, ⟨1, [(0, .warp 8720 7)], 0, 0, [], false, 0, 0⟩)] }, 1, 2, 0, 8720, 7,
    (0, .warp 8720 7), w, ?_⟩
  decide +kernel
theorem wit_FabricAndMigration_resend : ∃ (s : State) (src dst vc : Nat), src < 4 ∧ dst < 4 ∧ vc < 2 ∧
    (s.chans.get ((src * 4 + dst) * 2 + vc)).refused = true ∧ (s.chans.get ((src * 4 + dst) * 2 + vc)).wait = 0 :=
  ⟨{ base with chans := [(31, ⟨1, [], 0, 0, [], true, 200, 0⟩)] }, 3, 3, 1, by decide, by decide, by decide, rfl, rfl⟩
def leaving (sheet : Nat) (w : Warp) : Warp := { w with waits := [⟨A, .migrating sheet none, 2, 0⟩] }
/-- For each sheet, its own among them. -/
theorem wit_FabricAndMigration_departure (sheet : Nat) (h : sheet < 4) : ∃ (s0 : State) (slot : Nat) (w : Warp),
    let s := s0.settle slot
    let key := (slot / 68 / 128 * 4 + sheet) * 2 + s.vcOf w
    s.warp slot = some w ∧ w.leavingFor = some sheet ∧ s.departReady slot w = true ∧ (s.chans.get key).room = true ∧
    (sheet = slot / 68 / 128 ↔ sheet = 0) := by
  have hs : (ready (leaving sheet) .boot).settle 0 = ready (leaving sheet) .boot := by interval_cases sheet <;> decide +kernel
  refine ⟨ready (leaving sheet) .boot, 0, leaving sheet w0, ?_⟩
  rw [hs]
  interval_cases sheet <;> exact ⟨rfl, by decide +kernel, by decide +kernel, by decide +kernel, by decide⟩
/-- Into a landing slot of sheet 1, and home to slot 0. -/
theorem wit_FabricAndMigration_arrival : ∃ (s : State) (slot into d key : Nat) (w : Warp),
    s.warp slot = some w ∧ w.departure = some d ∧ s.arrivalKey slot d = some key ∧ into ≠ slot ∧ w.home / 68 / 128 ≠ key / 2 % 4 ∧
    into / 68 / 128 = key / 2 % 4 ∧ into % 17 = 16 ∧ s.warp into = none :=
  ⟨onItsWay [(0, .warp 0 7)], 0, 8720, 7, 2, left w0, rfl, by decide +kernel, by decide +kernel, by decide, by decide +kernel,
    by decide, by decide, by decide +kernel⟩
theorem wit_FabricAndMigration_home : ∃ (s : State) (slot into d key : Nat) (w : Warp),
    s.warp slot = some w ∧ w.departure = some d ∧ s.arrivalKey slot d = some key ∧ into ≠ slot ∧ w.home / 68 / 128 = key / 2 % 4 ∧
    into = w.home := by
  let w : Warp := { w0 with waits := [⟨A, .migrating 0 (some 7), 2, 0⟩] }
  exact ⟨{ base with warps := [(8720, some w)], chans := [(8, ⟨1, [], 1, 1, [(0, .warp 8720 7)], false, 0, 0⟩)] }, 8720, 0, 7, 8, w,
    rfl, by decide +kernel, by decide +kernel, by decide, by decide +kernel, by decide +kernel⟩

/-! Queues, packets, management, RDMA, power -/

/-- A queue with its ring of 4 KiB at 0x100000, of which `n` units are to be parsed. -/
def aQueue (n : Nat) : Queue := ⟨0x100000, 12, 0, 2, 0, 0x7F000000, 0, 32 * n, false, 0, none, none, []⟩
/-- The page tables, that queue as queue 3, and some bytes of its ring. -/
def queued (q : Queue) (bytes : List (Nat × Byte)) : State :=
  { base with
    featLock := 1, featAccept := [0xFFF, 0, 0, 0]
    queues := [(3, some q)]
    hbm := [(0x10000, 1), (0x10002, 2), (0x20000, 1), (0x20002, 3), (0x30000, 31), (0x30003, 32)] ++ records.hbm.drop 6 ++
      bytes.map fun x => (0x20100000 + x.1, x.2) }

/-- A multiple of 32 within the ring; one that is not; a faulted queue. -/
theorem wit_DoorbellsAndCompletion : ∃ (s : State) (no : Nat) (q : Queue) (v x : DWord), s.queue no = some q ∧
    (v.toNat % 32 = 0 ∧ q.tail ≤ v.toNat ∧ v.toNat ≤ q.head + 2 ^ q.log2) ∧
    ¬(x.toNat % 32 = 0 ∧ q.tail ≤ x.toNat ∧ x.toNat ≤ q.head + 2 ^ q.log2) ∧ q.faulted = false :=
  ⟨queued (aQueue 0) [], 3, aQueue 0, 4096, 4128, rfl, by decide +kernel, by decide +kernel, rfl⟩
theorem wit_DoorbellsAndCompletion_faulted : ∃ (s : State) (no : Nat) (q : Queue), s.queue no = some q ∧ q.faulted = true :=
  ⟨queued { aQueue 1 with faulted := true } [], 3, { aQueue 1 with faulted := true }, rfl, rfl⟩

/-- Its gang has finished; with DONE at 0x2000 and without. -/
def ended (done : DWord) : Work := { Work.one 1 2 with finished := 1, done := done, dval := 5 }
theorem wit_DoorbellsAndCompletion_work : ∃ (s t : State) (id : Nat) (w v : Work) (p : Phys) (s1 : State),
    (s.work id = some w ∧ s.complete w = true ∧ w.done = 0) ∧
    (let u := { t with works := t.works.filter fun x => x.id != id }
     t.work id = some v ∧ t.complete v = true ∧ v.done ≠ 0 ∧ u.translate (dieUnit 0) v.ctx v.done .readWrite = (.ok p, s1) ∧ p.mig = false ∧
     s1.isMoving p.place = false ∧ s1.poisoned p.place 8 = false ∧ PlaceExists t p.place) := by
  let t (d : DWord) : State := { base with works := [ended d], gangs := [], warps := [] }
  let x := ({ t 0x2000 with works := [] } : State).translate (dieUnit 0) 0 0x2000 .readWrite
  have h : okAnd x (fun p => decide (p.mig = false ∧ p.place = .hbm 0x20002000 ∧ x.2.isMoving (.hbm 0x20002000) = false ∧
      x.2.poisoned (.hbm 0x20002000) 8 = false)) = true := by decide +kernel
  obtain ⟨p, hp, h⟩ := okAnd_of h
  obtain ⟨h1, h2, h3, h4⟩ := of_decide_eq_true h
  exact ⟨t 0, t 0x2000, 1, ended 0, ended 0x2000, p, x.2, ⟨rfl, by decide +kernel, rfl⟩,
    ⟨rfl, by decide +kernel, by decide, hp, h1, by rw [h2]; exact h3, by rw [h2]; exact h4, by rw [h2]; trivial⟩⟩

/-- What `Parses` asks for, decided; and what is asked of the packet. -/
def parses (s : State) (no : Nat) (q : Queue) (opc : Nat) (ok : Packet → State → Bool) : Bool :=
  let x := { s with cpRR := s.cpRR.set q.cls no }.header q
  decide (s.nextQueue = some no) && decide (s.queue no = some q) && decide (q.haltNext = none) &&
    okAnd x fun hdr => decide (hdr % 256 = opc) && okAnd (x.2.packet q hdr) fun p => decide (p.q = q) && ok p (x.2.packet q hdr).2
theorem parses_of {s : State} {no opc : Nat} {q : Queue} {ok : Packet → State → Bool} (h : parses s no q opc ok = true) :
    ∃ p s2, Parses s no q p s2 opc ∧ p.q = q ∧ ok p s2 = true := by
  simp only [parses, Bool.and_eq_true, decide_eq_true_eq] at h
  obtain ⟨⟨⟨h1, h2⟩, h3⟩, h4⟩ := h
  obtain ⟨hdr, hh, h5⟩ := okAnd_of h4
  simp only [Bool.and_eq_true, decide_eq_true_eq] at h5
  obtain ⟨p, hp, h6⟩ := okAnd_of h5.2
  simp only [Bool.and_eq_true, decide_eq_true_eq] at h6
  exact ⟨p, _, ⟨h1, h2, h3, hdr, _, hh, h5.1, hp⟩, h6⟩

/-- A SKIP of two units. -/
theorem wit_PacketsAreTaken_skip : ∃ (s : State) (no : Nat) (q : Queue) (p : Packet) (s2 : State), Parses s no q p s2 7 := by
  obtain ⟨p, s2, h, -⟩ := parses_of (s := queued (aQueue 2) [(0, 7), (2, 2)]) (no := 3) (q := aQueue 2) (opc := 7)
    (ok := fun _ _ => true) (by decide +kernel)
  exact ⟨_, _, _, p, s2, h⟩
/-- SIGNAL of 7 to the counter at 0x2000. -/
theorem wit_PacketsAreTaken_signal : ∃ (s : State) (no : Nat) (q : Queue) (p : Packet) (s2 : State) (x : Phys) (s3 : State),
    Parses s no q p s2 3 ∧ (p.addr 8).toNat % 8 = 0 ∧ p.byte 24 1 < 6 ∧ p.byte 25 7 = 0 ∧
    s2.translate (dieUnit 0) q.ctx (p.addr 8) .readWrite = (.ok x, s3) ∧ x.mig = false ∧ s3.isMoving x.place = false ∧
    s3.poisoned x.place 8 = false ∧ p.q = q ∧ PlaceExists s x.place := by
  obtain ⟨p, s2, h, hq, hk⟩ := parses_of (s := queued (aQueue 1) [(0, 3), (2, 1), (9, 0x20), (16, 7), (24, 4)]) (no := 3) (q := aQueue 1) (opc := 3)
    (ok := fun p s2 => decide ((p.addr 8).toNat % 8 = 0 ∧ p.byte 24 1 < 6 ∧ p.byte 25 7 = 0) &&
      okAnd (s2.translate (dieUnit 0) 0 (p.addr 8) .readWrite) fun x => decide (x.mig = false ∧ x.place = .hbm 0x20002000 ∧
        (s2.translate (dieUnit 0) 0 (p.addr 8) .readWrite).2.isMoving (.hbm 0x20002000) = false ∧
        (s2.translate (dieUnit 0) 0 (p.addr 8) .readWrite).2.poisoned (.hbm 0x20002000) 8 = false)) (by decide +kernel)
  simp only [Bool.and_eq_true, decide_eq_true_eq] at hk
  obtain ⟨⟨h1, h2, h3⟩, h4⟩ := hk
  obtain ⟨x, hx, h5⟩ := okAnd_of h4
  obtain ⟨h6, h7, h8, h9⟩ := of_decide_eq_true h5
  exact ⟨_, _, _, p, s2, x, _, h, h1, h2, h3, hx, h6, by rw [h7]; exact h8, by rw [h7]; exact h9, hq, by rw [h7]; trivial⟩
/-- SIGNAL whose counter is not aligned. -/
theorem wit_PacketsAreTaken_misaligned : ∃ (s : State) (no : Nat) (q : Queue) (p : Packet) (s2 : State), Parses s no q p s2 3 ∧
    p.byte 24 1 < 6 ∧ p.byte 25 7 = 0 ∧ (p.addr 8).toNat % 8 ≠ 0 := by
  obtain ⟨p, s2, h, -, hk⟩ := parses_of (s := queued (aQueue 1) [(0, 3), (2, 1), (8, 4), (9, 0x20), (16, 7), (24, 4)]) (no := 3)
    (q := aQueue 1) (opc := 3) (ok := fun p _ => decide (p.byte 24 1 < 6 ∧ p.byte 25 7 = 0 ∧ (p.addr 8).toNat % 8 ≠ 0)) (by decide +kernel)
  exact ⟨_, _, _, p, s2, h, of_decide_eq_true hk⟩
/-- FENCE on one counter, and on twelve. -/
theorem wit_PacketsAreTaken_fence : ∃ (s : State) (no : Nat) (q : Queue) (p : Packet) (s2 : State), Parses s no q p s2 2 ∧
    1 ≤ p.byte 8 1 ∧ p.byte 8 1 ≤ 12 ∧ p.byte 9 1 < 6 ∧ p.byte 10 6 = 0 ∧
    p.byte (16 + 16 * p.byte 8 1) (32 * p.len - (16 + 16 * p.byte 8 1)) = 0 ∧ (∀ c ∈ p.counters, c.1.toNat % 8 = 0) ∧
    p.byte 8 1 = 1 := by
  obtain ⟨p, s2, h, hq, hk⟩ := parses_of (s := queued (aQueue 1) [(0, 2), (2, 1), (8, 1), (9, 5), (17, 0x20), (24, 1)]) (no := 3) (q := aQueue 1)
    (opc := 2) (ok := fun p _ => decide (1 ≤ p.byte 8 1 ∧ p.byte 8 1 ≤ 12 ∧ p.byte 9 1 < 6 ∧ p.byte 10 6 = 0 ∧
    p.byte (16 + 16 * p.byte 8 1) (32 * p.len - (16 + 16 * p.byte 8 1)) = 0 ∧ p.counters.all (fun c => c.1.toNat % 8 == 0) = true ∧
    p.byte 8 1 = 1)) (by decide +kernel)
  obtain ⟨h1, h2, h3, h4, h5, h6, h7⟩ := of_decide_eq_true hk
  exact ⟨_, _, _, p, s2, h, h1, h2, h3, h4, h5, fun c hc => by simpa using List.all_eq_true.mp h6 c hc, h7⟩
theorem wit_PacketsAreTaken_fence12 : ∃ (s : State) (no : Nat) (q : Queue) (p : Packet) (s2 : State), Parses s no q p s2 2 ∧
    1 ≤ p.byte 8 1 ∧ p.byte 8 1 ≤ 12 ∧ p.byte 9 1 < 6 ∧ p.byte 10 6 = 0 ∧
    p.byte (16 + 16 * p.byte 8 1) (32 * p.len - (16 + 16 * p.byte 8 1)) = 0 ∧ (∀ c ∈ p.counters, c.1.toNat % 8 = 0) ∧
    p.byte 8 1 = 12 := by
  obtain ⟨p, s2, h, hq, hk⟩ := parses_of (s := queued (aQueue 7) [(0, 2), (2, 7), (8, 12)]) (no := 3) (q := aQueue 7)
    (opc := 2) (ok := fun p _ => decide (1 ≤ p.byte 8 1 ∧ p.byte 8 1 ≤ 12 ∧ p.byte 9 1 < 6 ∧ p.byte 10 6 = 0 ∧
    p.byte (16 + 16 * p.byte 8 1) (32 * p.len - (16 + 16 * p.byte 8 1)) = 0 ∧ p.counters.all (fun c => c.1.toNat % 8 == 0) = true ∧
    p.byte 8 1 = 12)) (by decide +kernel)
  obtain ⟨h1, h2, h3, h4, h5, h6, h7⟩ := of_decide_eq_true hk
  exact ⟨_, _, _, p, s2, h, h1, h2, h3, h4, h5, fun c hc => by simpa using List.all_eq_true.mp h6 c hc, h7⟩

/-- LAUNCH of the record at 0x2000, of one gang of one warp of RCB 128; DONE is 0. -/
theorem wit_PacketsAreTaken_launch : ∃ (s : State) (no : Nat) (q : Queue) (p : Packet) (s2 : State) (x : Nat) (r : Rcb) (s3 s4 : State),
    Parses s no q p s2 1 ∧ p.q = q ∧ (p.addr 8).toNat % 64 = 0 ∧ (p.addr 16).toNat % 8 = 0 ∧ p.byte 32 32 = 0 ∧
    s2.cpRead q.ctx (p.addr 8) 192 = (.ok x, s3) ∧ LaunchRec.ok x = true ∧ s3.rcbAt q.ctx (LaunchRec.ofNat x).rcb = some r ∧
    s3.cpCheck q.ctx (p.addr 16) 8 .readWrite = (none, s4) := by
  obtain ⟨p, s2, h, hq, hk⟩ := parses_of (s := queued (aQueue 2) [(0, 1), (2, 2), (9, 0x20), (10, 0x10),
      (0x2000, 128), (0x2009, 0x10), (0x2010, 1), (0x2014, 1), (0x2018, 1), (0x201C, 1), (0x201D, 1), (0x2020, 8)]) (no := 3) (q := aQueue 2)
    (opc := 1) (ok := fun p s2 => decide ((p.addr 8).toNat % 64 = 0 ∧ p.addr 16 = 0 ∧ p.byte 32 32 = 0) &&
      okAnd (s2.cpRead 0 (p.addr 8) 192) fun x => LaunchRec.ok x &&
        ((s2.cpRead 0 (p.addr 8) 192).2.rcbAt 0 (LaunchRec.ofNat x).rcb).isSome) (by decide +kernel)
  simp only [Bool.and_eq_true, decide_eq_true_eq] at hk
  obtain ⟨⟨h1, h2, h3⟩, h4⟩ := hk
  obtain ⟨x, hx, h5⟩ := okAnd_of h4
  simp only [Bool.and_eq_true] at h5
  obtain ⟨r, hr⟩ := Option.isSome_iff_exists.mp h5.2
  exact ⟨_, _, _, p, s2, x, r, _, _, h, hq, h1, by rw [h2]; rfl, h3, hx, h5.1, hr, by rw [h2]; rfl⟩

/-- The same with DONE at 4. -/
theorem wit_PacketsAreTaken_misalignedDone : ∃ (s : State) (no : Nat) (q : Queue) (p : Packet) (s2 : State) (x : Nat) (r : Rcb) (s3 : State),
    Parses s no q p s2 1 ∧ p.q = q ∧ (p.addr 8).toNat % 64 = 0 ∧ p.byte 32 32 = 0 ∧ s2.cpRead q.ctx (p.addr 8) 192 = (.ok x, s3) ∧
    LaunchRec.ok x = true ∧ s3.rcbAt q.ctx (LaunchRec.ofNat x).rcb = some r ∧ (p.addr 16).toNat % 8 ≠ 0 := by
  obtain ⟨p, s2, h, hq, hk⟩ := parses_of (s := queued (aQueue 2) [(0, 1), (2, 2), (9, 0x20), (10, 0x10), (16, 4),
      (0x2000, 128), (0x2009, 0x10), (0x2010, 1), (0x2014, 1), (0x2018, 1), (0x201C, 1), (0x201D, 1), (0x2020, 8)]) (no := 3) (q := aQueue 2)
    (opc := 1) (ok := fun p s2 => decide ((p.addr 8).toNat % 64 = 0 ∧ (p.addr 16).toNat % 8 ≠ 0 ∧ p.byte 32 32 = 0) &&
      okAnd (s2.cpRead 0 (p.addr 8) 192) fun x => LaunchRec.ok x &&
        ((s2.cpRead 0 (p.addr 8) 192).2.rcbAt 0 (LaunchRec.ofNat x).rcb).isSome) (by decide +kernel)
  simp only [Bool.and_eq_true, decide_eq_true_eq] at hk
  obtain ⟨⟨h1, h2, h3⟩, h4⟩ := hk
  obtain ⟨x, hx, h5⟩ := okAnd_of h4
  simp only [Bool.and_eq_true] at h5
  obtain ⟨r, hr⟩ := Option.isSome_iff_exists.mp h5.2
  exact ⟨_, _, _, p, s2, x, r, _, h, hq, h1, h3, hx, h5.1, hr, h2⟩

/-- COPY of the layouts at 0x3040 and 0x3020 for RCB 128 by Feeder 0. -/
theorem wit_PacketsAreTaken_copy : ∃ (s : State) (no : Nat) (q : Queue) (p : Packet) (s2 : State) (r : Rcb) (sc : Scope)
    (d a : LRec) (s3 s4 s5 s6 : State),
    Parses s no q p s2 4 ∧ p.q = q ∧ s2.rcbAt q.ctx (p.addr 8) = some r ∧
      scopes[p.byte 57 1]? = some sc ∧ (p.addr 16).toNat % 32 = 0 ∧ (p.addr 24).toNat % 32 = 0 ∧ (p.addr 32).toNat % 16 = 0 ∧
      (p.addr 40).toNat % 8 = 0 ∧ p.byte 56 1 < 7 ∧ p.byte 58 1 ≠ 0xFF ∧ p.byte 59 5 = 0 ∧
      p.byte 58 1 ∈ s2.allowedFeeders r.id ∧ s2.packetRecord p (p.addr 16) = (.ok d, s3) ∧
      s3.packetRecord p (p.addr 24) = (.ok a, s4) ∧
      copyOk (if p.byte 56 1 = 0 then .copy else .red (p.byte 56 1)) d a = true ∧
      s4.cpCheck q.ctx (p.addr 32) 16 .write = (none, s5) ∧ s5.cpCheck q.ctx (p.addr 40) 8 .readWrite = (none, s6) := by
  obtain ⟨p, s2, h, hq, hk⟩ := parses_of (s := queued (aQueue 2) [(0, 4), (2, 2), (8, 128), (16, 0x40), (17, 0x30), (24, 0x20), (25, 0x30)])
    (no := 3) (q := aQueue 2)
    (opc := 4) (ok := fun p s2 => decide ((p.addr 16).toNat % 32 = 0 ∧ (p.addr 24).toNat % 32 = 0 ∧ p.addr 32 = 0 ∧
      p.addr 40 = 0 ∧ p.byte 56 1 = 0 ∧ p.byte 57 1 = 0 ∧ p.byte 58 1 = 0 ∧ p.byte 59 5 = 0) &&
      (match s2.rcbAt 0 (p.addr 8) with
        | some r => (s2.allowedFeeders r.id).contains 0
        | none => false) &&
      okAnd (s2.packetRecord p (p.addr 16)) fun d => okAnd ((s2.packetRecord p (p.addr 16)).2.packetRecord p (p.addr 24)) fun a =>
        copyOk .copy d a) (by decide +kernel)
  simp only [Bool.and_eq_true, decide_eq_true_eq] at hk
  obtain ⟨⟨⟨h1, h2, h3, h4, h5, h6, h7, h8⟩, h9⟩, h10⟩ := hk
  split at h9
  · rename_i r hr
    obtain ⟨d, hd, h11⟩ := okAnd_of h10
    obtain ⟨a, ha, h12⟩ := okAnd_of h11
    exact ⟨_, _, _, p, s2, r, .warp, d, a, _, _, _, _, h, hq, hr, by rw [h6]; rfl, h1, h2, by rw [h3]; rfl, by rw [h4]; rfl,
      by rw [h5]; decide, by rw [h7]; decide, h8, by rw [h7]; exact List.contains_iff_mem.mp h9, hd, ha, by rw [h5]; exact h12,
      by rw [h3]; rfl, by rw [h4]; rfl⟩
  · simp at h9

/-- COLLECTIVE of the descriptor at 0x3080. -/
theorem wit_PacketsAreTaken_collective : ∃ (s : State) (no : Nat) (q : Queue) (p : Packet) (s2 : State) (r : Rcb) (sc : Scope)
    (x : Nat) (s3 s4 s5 : State), Parses s no q p s2 5 ∧ p.q = q ∧ s2.rcbAt q.ctx (p.addr 8) = some r ∧
      scopes[p.byte 56 1]? = some sc ∧ (p.addr 16).toNat % 64 = 0 ∧ p.byte 24 8 = 0 ∧ (p.addr 32).toNat % 16 = 0 ∧
      (p.addr 40).toNat % 8 = 0 ∧ p.byte 57 7 = 0 ∧ s2.cpRead q.ctx (p.addr 16) 128 = (.ok x, s3) ∧
      s3.descOk r.id x = true ∧
      s3.cpCheck q.ctx (p.addr 32) 16 .write = (none, s4) ∧ s4.cpCheck q.ctx (p.addr 40) 8 .readWrite = (none, s5) := by
  obtain ⟨p, s2, h, hq, hk⟩ := parses_of (s := queued (aQueue 2) [(0, 5), (2, 2), (8, 128), (16, 0x80), (17, 0x30)])
    (no := 3) (q := aQueue 2)
    (opc := 5) (ok := fun p s2 => decide ((p.addr 16).toNat % 64 = 0 ∧ p.byte 24 8 = 0 ∧ p.addr 32 = 0 ∧ p.addr 40 = 0 ∧
      p.byte 56 1 = 0 ∧ p.byte 57 7 = 0) &&
      (match s2.rcbAt 0 (p.addr 8) with
        | some r => okAnd (s2.cpRead 0 (p.addr 16) 128) fun x => (s2.cpRead 0 (p.addr 16) 128).2.descOk r.id x
        | none => false)) (by decide +kernel)
  simp only [Bool.and_eq_true, decide_eq_true_eq] at hk
  obtain ⟨⟨h1, h2, h3, h4, h5, h6⟩, h9⟩ := hk
  split at h9
  · rename_i r hr
    obtain ⟨x, hx, h11⟩ := okAnd_of h9
    exact ⟨_, _, _, p, s2, r, .warp, x, _, _, _, h, hq, hr, by rw [h5]; rfl, h1, h2, by rw [h3]; rfl, by rw [h4]; rfl, h6, hx,
      h11, by rw [h3]; rfl, by rw [h4]; rfl⟩
  · simp at h9

/-- RCB registers the block at 0x2000: a child of RCB 128. -/
theorem wit_PacketsAreTaken_register : ∃ (s : State) (no : Nat) (q : Queue) (p : Packet) (s2 : State) (x : Nat) (s3 : State),
    Parses s no q p s2 6 ∧ p.q = q ∧ p.byte 16 1 = 0 ∧ p.byte 8 8 % 128 = 0 ∧ p.byte 17 15 = 0 ∧
      s2.cpRead q.ctx (p.addr 8) 128 = (.ok x, s3) ∧ Rcb.ok x (s3.feature 6) = true ∧
      s3.mayRegister (Rcb.ofNat s3.opSeq q.ctx (p.addr 8) x) = true := by
  obtain ⟨p, s2, h, hq, hk⟩ := parses_of (s := queued (aQueue 1) [(0, 6), (2, 1), (9, 0x20), (10, 0x10), (0x2000, 128), (0x200C, 1)])
    (no := 3) (q := aQueue 1)
    (opc := 6) (ok := fun p s2 => decide (p.byte 16 1 = 0 ∧ p.byte 8 8 % 128 = 0 ∧ p.byte 17 15 = 0) &&
      okAnd (s2.cpRead 0 (p.addr 8) 128) fun x => Rcb.ok x ((s2.cpRead 0 (p.addr 8) 128).2.feature 6) &&
        (s2.cpRead 0 (p.addr 8) 128).2.mayRegister (Rcb.ofNat (s2.cpRead 0 (p.addr 8) 128).2.opSeq 0 (p.addr 8) x)) (by decide +kernel)
  simp only [Bool.and_eq_true, decide_eq_true_eq] at hk
  obtain ⟨⟨h1, h2, h3⟩, h4⟩ := hk
  obtain ⟨x, hx, h5⟩ := okAnd_of h4
  simp only [Bool.and_eq_true] at h5
  exact ⟨_, _, _, p, s2, x, _, h, hq, h1, h2, h3, hx, h5.1, h5.2⟩
/-- RCB unregisters RCB 128: while its gang runs, and when it has none. -/
theorem wit_PacketsAreTaken_unregister (busy : Bool) : ∃ (s : State) (no : Nat) (q : Queue) (p : Packet) (s2 : State) (r : Rcb),
    Parses s no q p s2 6 ∧ p.q = q ∧ q.parse = none ∧ p.len = 1 ∧ p.byte 16 1 = 1 ∧ p.byte 8 8 % 128 = 0 ∧
      p.byte 17 15 = 0 ∧ s2.rcbAt q.ctx (p.addr 8) = some r ∧ s2.hasChildren r = false ∧ s2.rcbBusy r.id = busy := by
  have go (s : State) (h : parses s 3 (aQueue 1) 6 (fun p s2 => decide (p.len = 1 ∧ p.byte 16 1 = 1 ∧
        p.byte 8 8 % 128 = 0 ∧ p.byte 17 15 = 0) && (match s2.rcbAt 0 (p.addr 8) with
          | some r => !s2.hasChildren r && s2.rcbBusy r.id == busy
          | none => false)) = true) : ∃ (s : State) (no : Nat) (q : Queue) (p : Packet) (s2 : State) (r : Rcb),
    Parses s no q p s2 6 ∧ p.q = q ∧ q.parse = none ∧ p.len = 1 ∧ p.byte 16 1 = 1 ∧ p.byte 8 8 % 128 = 0 ∧
      p.byte 17 15 = 0 ∧ s2.rcbAt q.ctx (p.addr 8) = some r ∧ s2.hasChildren r = false ∧ s2.rcbBusy r.id = busy := by
    obtain ⟨p, s2, h, hq, hk⟩ := parses_of h
    simp only [Bool.and_eq_true, decide_eq_true_eq] at hk
    obtain ⟨⟨h1, h2, h3, h4⟩, h5⟩ := hk
    split at h5
    · rename_i r hr
      simp only [Bool.and_eq_true, Bool.not_eq_true', beq_iff_eq] at h5
      exact ⟨_, _, _, p, s2, r, h, hq, rfl, h1, h2, h3, h4, hr, h5.1, h5.2⟩
    · simp at h5
  cases busy
  · exact go { queued (aQueue 1) [(0, 6), (2, 1), (8, 128), (16, 1)] with works := [], gangs := [], warps := [] } (by decide +kernel)
  · exact go (queued (aQueue 1) [(0, 6), (2, 1), (8, 128), (16, 1)]) (by decide +kernel)
/-- A FENCE waits for the counter at 0x2000 to reach 3, which it has. -/
theorem wit_PacketsAreTaken_threshold : ∃ (s : State) (no : Nat) (q : Queue) (scope len tag : Nat) (c : DWord × DWord) (v : Nat)
    (s1 : State), s.queue no = some q ∧ q.parse = some (.fence scope len tag [c]) ∧ s.queueSuspended no = false ∧
      q.haltNext = none ∧ s.cpRead q.ctx c.1 8 = (.ok v, s1) ∧ c.2.toNat ≤ v := by
  let q : Queue := { aQueue 1 with parse := some (.fence 4 1 9 [(0x2000, 3)]) }
  let s : State := { base with queues := [(3, some q)], hbm := [(0x10000, 1), (0x10002, 2), (0x20000, 1), (0x20002, 3), (0x30000, 31), (0x30003, 32), (0x20002000, 3)] }
  have h : okAnd (s.cpRead 0 0x2000 8) (fun v => decide (3 ≤ v)) = true := by decide +kernel
  obtain ⟨v, hv, h2⟩ := okAnd_of h
  exact ⟨s, 3, q, 4, 1, 9, (0x2000, 3), v, _, rfl, rfl, by decide +kernel, rfl, hv, of_decide_eq_true h2⟩
/-- OPC 8; OPC 0. -/
theorem wit_PacketsAreTaken_unknown (opc : Byte) (h : opc = 0 ∨ opc = 8) : ∃ (s : State) (no : Nat) (q : Queue) (hdr : Nat) (s1 : State),
    s.nextQueue = some no ∧ s.queue no = some q ∧ s.header q = (.ok hdr, s1) ∧ (hdr % 256 = 0 ∨ 7 < hdr % 256) := by
  have go (s : State) (h : (decide (s.nextQueue = some 3) && decide (s.queue 3 = some (aQueue 1)) && okAnd (s.header (aQueue 1)) fun x =>
      decide (x % 256 = 0 ∨ 7 < x % 256)) = true) : ∃ (s : State) (no : Nat) (q : Queue) (hdr : Nat) (s1 : State),
    s.nextQueue = some no ∧ s.queue no = some q ∧ s.header q = (.ok hdr, s1) ∧ (hdr % 256 = 0 ∨ 7 < hdr % 256) := by
    simp only [Bool.and_eq_true, decide_eq_true_eq] at h
    obtain ⟨x, hx, h2⟩ := okAnd_of h.2
    exact ⟨s, 3, _, x, _, h.1.1, h.1.2, hx, of_decide_eq_true h2⟩
  rcases h with rfl | rfl
  · exact go (queued (aQueue 1) [(2, 1)]) (by decide +kernel)
  · exact go (queued (aQueue 1) [(0, 8), (2, 1)]) (by decide +kernel)
/-- A LAUNCH of length 0. -/
theorem wit_PacketsAreTaken_malformed : ∃ (s : State) (no : Nat) (q : Queue) (hdr : Nat) (s1 s2 : State) (e : Halt) (i : Instr),
    s.queue no = some q ∧ s.nextQueue = some no ∧ { s with cpRR := s.cpRR.set q.cls no }.header q = (.ok hdr, s1) ∧ packetInstr (hdr % 256) no = some i ∧
      s1.packet q hdr = (.error e, s2) := by
  let s := queued (aQueue 1) [(0, 1)]
  have h : (decide (s.nextQueue = some 3) && okAnd ({ s with cpRR := s.cpRR.set (aQueue 1).cls 3 }.header (aQueue 1)) fun x => decide (x = 1)) = true := by decide +kernel
  simp only [Bool.and_eq_true, decide_eq_true_eq] at h
  obtain ⟨x, hx, h2⟩ := okAnd_of h.2
  have h3 := of_decide_eq_true h2
  subst h3
  exact ⟨s, 3, aQueue 1, 1, _, _, (0xE1, (aQueue 1).at 0), .launch 3, rfl, h.1, hx, rfl, rfl⟩

/-! Management -/

theorem wit_ManagementAnswers_boot : ∃ s t : State, (s.phase = .off ∧ s.bootSlot = some 0) ∧ (t.phase = .off ∧ t.bootSlot = none) :=
  ⟨.reset, { State.reset with fuses := 1 }, ⟨rfl, by decide +kernel⟩, ⟨rfl, by decide +kernel⟩⟩
theorem wit_ManagementAnswers_recovery : ∃ (s : State) (i : Instr) (port op : Nat), port < 8 ∧ s.phase = .recovery ∧
    notInRecovery i = some (port, op) :=
  ⟨{ State.reset with phase := .recovery }, .featureLock 7 1, 7, 2, by decide, rfl, rfl⟩
theorem wit_ManagementAnswers_quote : ∃ (s t : State) (n : List Byte), s.phase ≠ .off ∧ t.phase ≠ .off ∧ n.length = 32 ∧ s.leaf < 2 ^ 20 ∧
    s.featAccept.length = 4 ∧ 2 ^ 20 ≤ t.leaf :=
  ⟨{ base with leaf := 2 ^ 20 - 1 }, { base with leaf := 2 ^ 20 }, List.replicate 32 7, by decide +kernel, by decide +kernel,
    by decide +kernel, by decide +kernel, by decide +kernel, by decide +kernel⟩
/-- A message of 63 bytes; one of an unknown operation; one with a byte that should be zero. -/
theorem wit_ManagementAnswers_malformed : ∃ a b c : List Byte, a.length ≠ 64 ∧ (b.length = 64 ∧ 10 < (b.headD 0).toNat) ∧
    c.length = 64 ∧ (c.headD 0).toNat = 1 ∧ ∃ x ∈ (c.drop 1).take 7, x ≠ 0 :=
  ⟨List.replicate 63 1, 11 :: List.replicate 63 0, 1 :: 1 :: List.replicate 62 0, by decide, by decide, rfl, rfl, 1, by decide, by decide⟩
/-- A device with no context. -/
def idle : State := { State.reset with phase := .running }
theorem wit_ManagementAnswers_slot : ∃ (s : State) (port slot : Nat) (v : DWord) (f : FwSlot), port < 8 ∧ s.phase = .running ∧ slot < 2 ∧
    s.anyContext = false ∧ s.fuses ≤ v.toNat ∧ s.slots[s.runSlot]? = some f :=
  ⟨idle, 0, 1, 0, _, by decide, rfl, by decide, rfl, by decide +kernel, rfl⟩
/-- Each code of a lock: 1, 2, 3, 4. -/
theorem wit_ManagementAnswers_lock (x : DWord) : ∃ (s : State) (port : Nat) (y z u : DWord), port < 8 ∧ s.phase = .running ∧
    s.featAccept = [x, y, z, u] ∧ s.featLock ≠ 1 :=
  ⟨{ idle with featAccept := [x, 0, 0, 0] }, 3, 0, 0, 0, by decide, rfl, rfl, show (0 : Nat) ≠ 1 by decide⟩
theorem test_lock_codes :
    (["1", "2", "3", "4"].zip [(0x61 : DWord), 0x1001, 0x60, 0x41]).map (fun x => ({ idle with featAccept := [x.2, 0, 0, 0] }).lockCode) =
      [1, 2, 3, 4] := by decide +kernel
theorem wit_ManagementAnswers_locked : ∃ (s : State) (port word : Nat), port < 8 ∧ s.phase = .running ∧ word < 4 ∧ s.featLock = 1 :=
  ⟨{ idle with featLock := 1 }, 7, 3, by decide, rfl, by decide, rfl⟩
theorem wit_ManagementAnswers_context : ∃ (s : State) (a : CtxArgs), s.phase = .running ∧ s.featLock = 1 ∧ a.ctx < 64 ∧
    a.root.toNat % 32 = 0 ∧ a.root.toNat < 2 ^ 38 ∧ (s.context a.ctx).res = false :=
  ⟨{ idle with featLock := 1 }, ⟨63, true, 0x3FFFFFFFE0, 3, 0⟩, rfl, rfl, by decide, by decide, by decide, by decide +kernel⟩
theorem wit_ManagementAnswers_remove : ∃ (s : State) (c : Nat), s.phase = .running ∧ (s.context c).res = true ∧ s.contextUsed c = false :=
  ⟨{ base with rcbs := [] }, 0, by decide +kernel, by decide +kernel, by decide +kernel⟩
/-- A ring of 16 MiB, and one of 4 KiB. -/
def aQcb (log2 : Byte) : List Byte := [0, 0, 0x10, 0, 0, 0, 0, 0, log2, 0, 2, 0] ++ List.replicate 52 0
theorem wit_ManagementAnswers_queue : ∃ (s : State) (no : Nat) (qcb : List Byte) (q : Queue), s.phase = .running ∧ s.featLock = 1 ∧
    queueOf no qcb = some q ∧ s.queue no = none ∧ (s.context q.ctx).res = true := by
  have h : ((queueOf 3 (aQcb 24)).any fun q => (({ base with featLock := 1 } : State).context q.ctx).res) = true := by decide +kernel
  cases hq : queueOf 3 (aQcb 24) with
  | none => rw [hq] at h; simp at h
  | some q =>
    rw [hq] at h
    exact ⟨{ base with featLock := 1 }, 3, aQcb 24, q, by decide +kernel, rfl, hq, by decide +kernel, h⟩
theorem wit_ManagementAnswers_queue_least : ∃ q, queueOf 0 (aQcb 12) = some q :=
  ⟨_, some_of (by decide +kernel : (queueOf 0 (aQcb 12)).isSome = true)⟩
theorem wit_ManagementAnswers_unregister : ∃ (s : State) (no : Nat) (q : Queue), s.phase = .running ∧ s.featLock = 1 ∧ s.queue no = some q :=
  ⟨queued (aQueue 0) [], 3, aQueue 0, by decide +kernel, rfl, rfl⟩
theorem wit_ManagementAnswers_bind : ∃ (s : State) (p qp c : Nat), s.phase = .running ∧ p < 8 ∧ qp < 4096 ∧ qp ≠ 1 ∧ (s.context c).res = true :=
  ⟨base, 7, 4095, 0, by decide +kernel, by decide, by decide, by decide, by decide +kernel⟩

/-! RDMA -/

/-- Queue pair 2 of port 1 bound to context 0. -/
def bound : State := { base with qps := [(4098, some ⟨0, false⟩)], queues := [(3, some (aQueue 0))] }
theorem wit_RdmaReachesItsContext_unbound : ∃ (s : State) (port qp : Nat) (va : DWord) (i : Instr), s.phase = .running ∧ port < 8 ∧
    qp < 4096 ∧ s.qps.get (port * 4096 + qp) = none ∧ ∃ n, i = .rdmaRead port ⟨qp, true⟩ va n :=
  ⟨base, 7, 4095, 0x2000, .rdmaRead 7 ⟨4095, true⟩ 0x2000 8, by decide +kernel, by decide, by decide, by decide +kernel, 8, rfl⟩
/-- A write and a read of two bytes at 0x2000. -/
theorem wit_RdmaReachesItsContext : ∃ (s : State) (port qp : Nat) (va : DWord) (ctx : Nat) (data : List Byte) (p r : Phys) (s1 s2 : State),
    s.phase = .running ∧ port < 8 ∧ qp < 4096 ∧ s.qps.get (port * 4096 + qp) = some ⟨ctx, false⟩ ∧
    (∀ x ∈ s.rdmaHeld, rdmaKey x ≠ some (port * 4096 + qp)) ∧ s.doorbellAt va = none ∧ data ≠ [] ∧
    firstPart va data.length = data.length ∧ s.translate (portUnit port) ctx va .write = (.ok p, s1) ∧ p.mig = false ∧ s1.isMoving p.place = false ∧
    PlaceExists s p.place ∧ s.translate (portUnit port) ctx va .read = (.ok r, s2) ∧ s.poisoned r.place data.length = false := by
  have h : okAnd (bound.translate (portUnit 1) 0 0x2000 .write) (fun p => decide (p.mig = false ∧ p.place = .hbm 0x20002000 ∧
      (bound.translate (portUnit 1) 0 0x2000 .write).2.isMoving (.hbm 0x20002000) = false)) = true ∧
      okAnd (bound.translate (portUnit 1) 0 0x2000 .read) (fun p => !bound.poisoned p.place 2) = true := by decide +kernel
  obtain ⟨p, hp, h1⟩ := okAnd_of h.1
  obtain ⟨r, hr, h2⟩ := okAnd_of h.2
  obtain ⟨h3, h4, h5⟩ := of_decide_eq_true h1
  exact ⟨bound, 1, 2, 0x2000, 0, [1, 2], p, r, _, _, by decide +kernel, by decide, by decide, by decide +kernel, by decide +kernel,
    by decide +kernel, by decide, by decide +kernel, hp, h3, by rw [h4]; exact h5, by rw [h4]; trivial, hr, by simpa using h2⟩
/-- Its page is moving. -/
theorem wit_RdmaReachesItsContext_held : ∃ (s : State) (port qp : Nat) (va : DWord) (ctx : Nat) (data : List Byte) (p : Phys) (s1 : State),
    s.qps.get (port * 4096 + qp) = some ⟨ctx, false⟩ ∧ (∀ x ∈ s.rdmaHeld, rdmaKey x ≠ some (port * 4096 + qp)) ∧
    s.doorbellAt va = none ∧ data ≠ [] ∧ firstPart va data.length = data.length ∧ s.translate (portUnit port) ctx va .write = (.ok p, s1) ∧
    (p.mig = true ∨ s1.isMoving p.place = true) := by
  let s : State := { bound with hbm := [(0x10000, 1), (0x10002, 2), (0x20000, 1), (0x20002, 3), (0x30000, 0x5F), (0x30003, 32)] }
  have h : okAnd (s.translate (portUnit 1) 0 0x2000 .write) (fun p => p.mig) = true := by decide +kernel
  obtain ⟨p, hp, h1⟩ := okAnd_of h
  exact ⟨s, 1, 2, 0x2000, 0, [1, 2], p, _, by decide +kernel, by decide +kernel, by decide +kernel, by decide, by decide +kernel, hp, .inl h1⟩
theorem wit_RdmaReachesItsContext_doorbell : ∃ (s : State) (port qp : Nat) (va : DWord) (ctx no : Nat) (q : Queue),
    s.qps.get (port * 4096 + qp) = some ⟨ctx, false⟩ ∧ (∀ x ∈ s.rdmaHeld, rdmaKey x ≠ some (port * 4096 + qp)) ∧
    s.doorbellAt va = some (no, q, 0) ∧ s.queue no = some q :=
  ⟨bound, 1, 2, 0x7F000000, 0, 3, aQueue 0, by decide +kernel, by decide +kernel, by decide +kernel, by decide +kernel⟩

/-! Power and errors -/

theorem wit_PowerAndErrors_halted : ∃ (s t : State) (i j : Instr) (rest : List Instr), s.halted = true ∧
    s.agenda = i :: rest ∧ t.halted = true ∧ t.agenda = j :: rest ∧ outsideStep i = true ∧ outsideStep j = false :=
  ⟨{ State.reset with halted := true, agenda := [.powerLoss] }, { State.reset with halted := true, agenda := [.boot] },
    .powerLoss, .boot, [], rfl, rfl, rfl, rfl, rfl, rfl⟩

theorem wit_PowerAndErrors_clock : ∃ s : State, s.halted = true ∧ s.agenda = [] :=
  ⟨{ State.reset with halted := true }, rfl, rfl⟩

theorem wit_PowerAndErrors : ∃ (s : State) (w g b bank : Nat) (x : Warp) (y : Block) (v : Word × Bool), s.freq = 1000 ∧
    s.warp w = some x ∧ s.scrBlock g b = some y ∧ (y.fifos.get bank)[0]? = some v := by
  let y : Block := { forme := 0, banks := [0], modes := [.fifo], bytes := 0, scratch := [], poison := [], fifos := [(0, [(7, false)])], slots := [0], twins := [], released := false }
  exact ⟨{ base with freq := 1000, gangs := [{ Gang.one 0 1 0 with blocks := [y] }] }, 0, 0, 0, 0, w0, y, (7, false), rfl,
    by decide +kernel, rfl, rfl⟩

/-- A level that holds one byte, an operation of the Platen, a latch. -/
theorem wit_PowerAndErrors_places : ∃ (s : State) (w : Nat) (x : Warp) (l : Level) (h : Held) (b : Nat × Byte) (o : PlatOp), s.warp w = some x ∧
    x.levels = [l] ∧ l.held = [h] ∧ b ∈ h.bytes ∧ x.platen = [o] :=
  ⟨ready (fun w => { w with levels := [holding], platen := [default] }) .boot, 0, _, holding, _, (0, 7), default, rfl, rfl, rfl, .head _, rfl⟩

end Sys2Proof.Tests
end

namespace Sys2Proof.Machine.Memory

/-! SUPPORT for O6: every step keeps memory canonical (R2, R212). `State.setByte` alone writes a byte of HBM4, by
`SMap.set`, which keeps the form (Laws/Memory); a loss of power empties HBM4; an update of any other field leaves `hbm`,
and with it the form, as it was. So there is one lemma for each function that answers a state, in the model's order: it
follows the function's branches and cites the lemmas of the functions it calls. The instructions of the vector pipeline
(`State.vec`) and of memory (`State.memory`) share one lemma each. -/

/-! ### Canonical memory in what the model's functions answer -/

/-- The next state of an outcome, if it has one, has its memory in canonical form. -/
def wfOut : Out → Prop
  | .next t => wf t
  | _ => True

/-- The state of an answer, if it has one, has its memory in canonical form. -/
def wfOption : Option State → Prop
  | some t => wf t
  | none => True

/-- The state of a success has its memory in canonical form. -/
def wfExcept {ε : Type} : Except ε State → Prop
  | .ok t => wf t
  | .error _ => True

section
variable {α β ε : Type} {s t : State}

theorem wf_next {o : Out} (e : o = .next t) (h : wfOut o) : wf t := by
  subst e; exact h

theorem wfOut_iff {o : Out} : wfOut o ↔ ∀ t, o = .next t → wf t := by
  refine ⟨fun h t e => wf_next e h, fun h => ?_⟩
  cases o with
  | next t => exact h t rfl
  | fault _ => trivial
  | refused _ => trivial

theorem wf_some {o : Option State} (e : o = some t) (h : wfOption o) : wf t := by
  subst e; exact h

theorem wf_ok {x : Except ε State × α} {a : α} (e : x = (.ok t, a)) (h : wfExcept x.1) : wf t := by
  subst e; exact h

theorem wf_fst {x : State × α} {a : α} (e : x = (t, a)) (h : wf x.1) : wf t := by
  subst e; exact h

theorem wf_snd {x : α × State} {a : α} (e : x = (a, t)) (h : wf x.2) : wf t := by
  subst e; exact h

theorem wf_third {x : α × β × State} {a : α} {b : β} (e : x = (a, b, t)) (h : wf x.2.2) : wf t := by
  subst e; exact h

theorem wf_ite {c : Prop} [Decidable c] (hs : wf s) (ht : wf t) : wf (if c then s else t) := by
  split
  · exact hs
  · exact ht

theorem wf_ite_snd {c : Prop} [Decidable c] {x y : α × State} (hx : wf x.2) (hy : wf y.2) :
    wf (if c then x else y).2 := by
  split
  · exact hx
  · exact hy

theorem wfOut_ite {c : Prop} [Decidable c] {o p : Out} (ho : wfOut o) (hp : wfOut p) :
    wfOut (if c then o else p) := by
  split
  · exact ho
  · exact hp

theorem wfOption_ite {c : Prop} [Decidable c] {o p : Option State} (ho : wfOption o) (hp : wfOption p) :
    wfOption (if c then o else p) := by
  split
  · exact ho
  · exact hp

theorem wfOption_of {o : Option State} (h : ∀ t, o = some t → wf t) : wfOption o := by
  cases o with
  | none => trivial
  | some t => exact h t rfl

theorem wfOption_bind {o : Option α} {f : α → Option State} (hf : ∀ x, wfOption (f x)) :
    wfOption (o.bind f) := by
  cases o with
  | none => trivial
  | some x => exact hf x

theorem wfOption_map {o : Option State} {f : State → State} (ho : wfOption o) (hf : ∀ t, wf t → wf (f t)) :
    wfOption (o.map f) := by
  cases o with
  | none => trivial
  | some t => exact hf t ho

theorem wfOption_findSome {l : List α} {f : α → Option State} (hf : ∀ x, wfOption (f x)) :
    wfOption (l.findSome? f) := by
  refine wfOption_of fun t e => ?_
  obtain ⟨x, -, hx⟩ := List.exists_of_findSome?_eq_some e
  exact wf_some hx (hf x)

theorem wf_getD {o : Option State} (ho : wfOption o) (ht : wf t) : wf (o.getD t) := by
  cases o with
  | none => exact ht
  | some t => exact ho

theorem wf_cached (e : s.Cached t) (h : wf s) : wf t := wf_of_hbm e.hbm h
end

/-! ### What Laws/ says of the shared operations, as facts of the form -/

section
variable {s : State} {sl : Slot} {w : Warp} {r : Regs} {slot : Nat}

theorem wf_modWarp {f : Warp → Warp} (h : wf s) : wf (s.modWarp slot f) := wf_of_hbm (State.modWarp_hbm ..) h
theorem wf_modQueue {q : Nat} {f : Queue → Queue} (h : wf s) : wf (s.modQueue q f) :=
  wf_of_hbm (State.modQueue_hbm ..) h
theorem wf_haltQueue {q c : Nat} (h : wf s) : wf (s.haltQueue q c) := wf_modQueue h
theorem wf_finishWith {e : Warp → Lag} (h : wf s) : wf (s.finishWith sl r e) := wf_modWarp h
theorem wf_finish (h : wf s) : wf (s.finish sl r) := wf_modWarp h
theorem wf_holdWith {m : Mask} {k : WaitKind} {e : Warp → Lag} (h : wf s) : wf (s.holdWith sl r m k e) :=
  wf_modWarp h

theorem wf_holdAt {m : Mask} {k : WaitKind} (h : wf s) : wf (s.holdAt sl r m k) := wf_modWarp h
theorem wf_refreshL1 {f k n : Nat} (h : wf s) : wf (s.refreshL1 f k n) := wf_of_hbm (State.refreshL1_hbm ..) h
theorem wf_refreshHome {f : Nat} {p : Place} {n : Nat} (h : wf s) : wf (s.refreshHome f p n) :=
  wf_of_hbm (State.refreshHome_hbm ..) h

theorem wf_pick {n : Nat} (h : wf s) : wf (s.pick n).2 := wf_cached (State.pick_cached ..) h
theorem wf_translate {u c : Nat} {va : DWord} {n : Need} (h : wf s) : wf (s.translate u c va n).2 :=
  wf_cached (State.translate_cached ..) h
theorem wf_readGlobal {u c : Nat} {va : DWord} {n : Nat} (h : wf s) : wf (s.readGlobal u c va n).2 :=
  wf_cached (State.readGlobal_cached ..) h
theorem wf_constBytes {p : Place} {va n : Nat} (h : wf s) : wf (s.constBytes slot w p va n).2 :=
  wf_cached (State.constBytes_cached ..) h
theorem wf_constWords {c n : Nat} {va : DWord} (h : wf s) : wf (s.constWords slot c va n).2 :=
  wf_cached (State.constWords_cached ..) h
theorem wf_readWindow {win : Option (Nat × Nat × Nat)} (h : wf s) : wf (s.readWindow slot w win).2 :=
  wf_cached (State.readWindow_cached ..) h

theorem wf_tryPost_option {c : Nat} {e : Errata} (h : wf s) : wfOption (s.tryPost c e) :=
  wfOption_of fun _ => wf_tryPost c e h
theorem wf_writeCompletion_option {c : Cmd} {x : Nat} (h : wf s) : wfOption (s.writeCompletion c x) :=
  wfOption_of fun _ => wf_writeCompletion c x h
end

section
variable {s : State} {sl : Slot} {w : Warp} {r : Regs} {act : Mask} {slot : Nat}

/-! ### Records that waited for their list -/

theorem wf_postLate (h : wf s) : wfOption s.postLate :=
  wfOption_findSome fun _ => wfOption_bind fun _ => wf_tryPost_option h

/-! ### The warp of an instruction, errors of its gang -/

theorem wf_onSlot {f : State → Slot → Warp → Regs → Out} (h : wf s)
    (hf : ∀ s sl w r, wf s → wfOut (f s sl w r)) : wfOut (s.onSlot f) := by
  unfold State.onSlot
  split
  · trivial
  · dsimp only
    split
    · trivial
    · split
      · trivial
      · exact hf _ _ _ _ h

theorem wf_modOwner {gang : Nat} {f : Warp → Warp} (h : wf s) : wf (s.modOwner slot gang f) :=
  wf_ite (wf_modWarp h) h

theorem wf_queueFor {gang : Nat} {e : AsyncErr} (h : wf s) : wf (s.queueFor slot gang e) := by
  unfold State.queueFor
  split
  · exact wf_queueAsync _ _ h
  · split
    · exact h
    · exact wf_ite (wf_ite (wf_killGang _ _ h) (wf_post _ h)) (wf_modOwner h)

/-! ### Operands through a constant window -/

theorem wf_operandWindow {win : Option (Nat × Nat × Nat)} (h : wf s) : wf (s.operandWindow sl w act win).2 := by
  unfold State.operandWindow
  split
  · exact h
  · split <;> rename_i e1 <;> have h1 := wf_snd e1 (wf_readWindow h)
    · split <;> exact h1
    · exact wf_ite_snd (wf_detectFor _ _ _ _ _ _ _ _ h1) h1

/-! ### The vector pipeline -/

theorem wf_trapFlags {fl : Flags} (h : wf s) : wf (s.trapFlags sl r act fl) := by
  unfold State.trapFlags
  split
  · exact h
  · split
    · exact h
    · exact wf_queueAsync _ _ h

theorem wf_vecDone {o : VecOp} {x : Rd} (h : wf s) : wf (s.vecDone sl r o x) :=
  wf_ite (wf_modWarp (wf_finish h)) (wf_trapFlags (wf_finish h))

theorem wf_vec {o : VecOp} (h : wf s) : wfOut (s.vec o) := by
  refine wf_onSlot h fun s1 sl w r h1 => ?_
  dsimp only
  split <;> rename_i e1 <;> have h2 := wf_snd e1 (wf_operandWindow h1)
  · exact wf_raise _ _ _ h2
  · exact wf_vecDone (wf_ite h2 h2)

/-! ### Translation of an access -/

theorem wf_translateAll {u ctx : Nat} {n : Need} {kind : Nat} {l : List (Nat × DWord × Nat)} (h : wf s) :
    wf (s.translateAll u ctx n kind l).2 := by
  induction l generalizing s with
  | nil => exact h
  | cons x t ih =>
    unfold State.translateAll
    split
    · rename_i e1
      exact wf_snd e1 (wf_translate h)
    · rename_i e1
      exact wf_snd e1 (wf_translate h)
    · rename_i e1
      have h1 := wf_snd e1 (wf_translate h)
      split
      · exact h1
      · split <;> rename_i e2 <;> exact wf_snd e2 (ih h1)

theorem wf_access {sp : Space} {size : Nat} {n : Need} {kind : Nat} {l : List (Nat × Int)} (h : wf s) :
    wf (s.access slot w sp size n kind l).2 := by
  unfold State.access
  dsimp only
  split
  · exact h
  · split
    · exact h
    · split
      · exact h
      · exact wf_ite_snd h (wf_translateAll h)

/-! ### Memory instructions at issue -/

theorem wf_chooseLocal {l : List Piece} (h : wf s) : wf (s.chooseLocal l).2 := by
  induction l generalizing s with
  | nil => exact h
  | cons p t ih =>
    unfold State.chooseLocal
    split
    · exact ih h
    · exact ih (wf_pick h)

theorem wf_sendOp {op : MemOp} (h : wf s) : wf (s.sendOp sl r act op) := by
  unfold State.sendOp
  split
  · exact h
  · exact wf_ite h h

theorem wf_scFence {op : MemOp} (h : wf s) : wf (s.scFence sl r act op).1 := by
  unfold State.scFence
  split
  · split
    rename_i e1
    have h1 := wf_snd e1 h
    exact wf_modWarp h1
  · exact h

theorem wf_keepWork {op : MemOp} {k : Keep} (h : wf s) : wf (s.keepWork sl w r act op k) :=
  wf_ite (wf_finishWith h) (wf_finish h)

theorem wf_holdStore {sp : Space} {op : MemOp} (h : wf s) : wf (s.holdStore sl w r act sp op) :=
  wf_ite (wf_raise _ _ _ h) (wf_keepWork h)

theorem wf_deferOp {op : MemOp} (h : wf s) : wf (s.deferOp sl w r act op) :=
  wf_ite (wf_raise _ _ _ h) (wf_keepWork h)

theorem wf_takeValuesWith {post : Regs → Regs} (h : wf s) : wf (s.takeValuesWith sl r post) := by
  unfold State.takeValuesWith
  split
  · exact h
  · split
    · exact wf_finish h
    · exact wf_finish (wf_modWarp h)

theorem wf_takeValues (h : wf s) : wf (s.takeValues sl r) := wf_takeValuesWith h

theorem wf_mismatched {e : Lag} {mine : Compared} (h : wf s) : wf (s.mismatched slot e mine) := wf_detect _ _ h

theorem wf_compareProof {mine : Compared} (h : wf s) : wf (s.compareProof sl r mine) := by
  unfold State.compareProof
  split
  · exact wf_finish h
  · split
    · split
      · exact wf_modWarp (wf_finish h)
      · exact wf_finish h
      · exact wf_modWarp (wf_finish h)
      · exact wf_finish h
    · exact wf_mismatched (wf_finish h)

theorem wf_proofMemory {q : MemReq} (h : wf s) : wf (s.proofMemory sl w r act q) := by
  unfold State.proofMemory
  exact wf_ite (wf_compareProof h) (wf_takeValues h)

theorem wf_holdWalk {va : DWord} (h : wf s) : wf (s.holdWalk sl r va) := wf_modWarp h

theorem wf_stopAccess {a : MemStop} (h : wf s) : wf (s.stopAccess sl w r act a) := by
  unfold State.stopAccess
  split
  · exact wf_raise _ _ _ h
  · exact wf_holdWalk h
  · exact wf_detectFor _ _ _ _ _ _ _ _ h

theorem wf_dispatchOp {sp : Space} {op : MemOp} (h : wf s) : wf (s.dispatchOp sl w r act sp op) := by
  unfold State.dispatchOp
  split
  · exact wf_holdStore h
  · split
    · exact wf_deferOp h
    · split
      rename_i e1
      have h1 := wf_fst e1 (wf_scFence h)
      split
      rename_i e2
      have h2 := wf_snd e2 (wf_ite_snd (wf_chooseLocal h1) h1)
      exact wf_sendOp h2

theorem wf_leadMemory {q : MemReq} (h : wf s) : wf (s.leadMemory sl w r act q) := by
  unfold State.leadMemory
  dsimp only
  split
  · exact wf_raise _ _ _ h
  · split <;> rename_i e1 <;> have h1 := wf_snd e1 (wf_access h)
    · exact wf_stopAccess h1
    · split
      · exact wf_dispatchOp h1
      · exact wf_detectFor _ _ _ _ _ _ _ _ (wf_dispatchOp h1)

theorem wf_memoryOn {q : MemReq} (h : wf s) : wf (s.memoryOn sl w r act q) :=
  wf_ite (wf_proofMemory h) (wf_leadMemory h)

theorem wf_memory {q : MemReq} (h : wf s) : wfOut (s.memory q) :=
  wf_onSlot h fun _ _ _ _ h1 => wf_ite (wf_finish h1) (wf_memoryOn h1)

/-! ### Prefetches and `catom` -/

theorem wf_dropLine {forme : Nat} {p : Place} (h : wf s) : wf (s.dropLine forme p) := by
  unfold State.dropLine
  split <;> exact h

theorem wf_fillLine {forme k : Nat} (h : wf s) : wf (s.fillLine forme k) :=
  wf_of_hbm (by simp only [State.fillLine]) h

theorem wf_prefetch {llc : Bool} {cp : Nat} {ea : Int} (h : wf s) : wf (s.prefetch slot w llc cp ea) := by
  unfold State.prefetch
  split <;> rename_i e1 <;> have h1 := wf_snd e1 (wf_translate h)
  · exact h1
  · split
    · exact wf_ite (wf_dropLine h1) (wf_ite h1 (wf_fillLine h1))
    · exact h1

theorem wf_execPref {i : PrefI} (h : wf s) : wfOut (execPref i s) := by
  refine wf_onSlot h fun s1 sl w r h1 => wf_finish (wf_ite h1 ?_)
  exact wf_foldl _ (fun _ _ ha => wf_prefetch ha) _ h1

theorem wf_leadCatom {i : CatomI} (h : wf s) : wf (s.leadCatom sl w r act i) := by
  unfold State.leadCatom
  dsimp only
  split
  · exact wf_raise _ _ _ h
  · split
    · exact wf_stopAccess h
    · split <;> rename_i e1 <;> have h1 := wf_snd e1 (wf_access h)
      · exact wf_stopAccess h1
      · split <;> rename_i e2 <;> have h2 := wf_snd e2 (wf_access h1)
        · exact wf_stopAccess h2
        · split
          · exact wf_raise _ _ _ h2
          · exact wf_dispatchOp h2

theorem wf_proofCatom {i : CatomI} (h : wf s) : wf (s.proofCatom sl r act i) := wf_compareProof h

theorem wf_execCatom {i : CatomI} (h : wf s) : wfOut (execCatom i s) :=
  wf_onSlot h fun _ _ _ _ h1 => wf_ite (wf_finish h1) (wf_ite (wf_proofCatom h1) (wf_leadCatom h1))

/-! ### Parts of memory operations that perform -/

theorem wf_stampStores (h : wf s) : wf (s.stampStores slot) := by
  unfold State.stampStores
  split
  · exact h
  · exact wf_ite h h

theorem wf_shareForRelease {id reach : Nat} (h : wf s) : wf (s.shareForRelease slot id reach) := by
  unfold State.shareForRelease
  split
  · exact wf_stampStores (wf_modWarp h)
  · exact wf_stampStores (wf_foldl _ (fun _ _ ha => wf_modWarp ha) _ h)
  · exact h

theorem wf_acquire {reach : Nat} (h : wf s) : wf (s.acquire slot reach) := wf_ite h h

theorem wf_constFence {id rank : Nat} (h : wf s) : wf (s.constFence slot id rank) := wf_ite h (wf_modWarp h)

theorem wf_settleFence {f : MemOp} (h : wf s) : wf (s.settleFence slot w f) := by
  unfold State.settleFence
  dsimp only
  split
  · exact wf_acquire (wf_ite (wf_shareForRelease (wf_constFence (wf_modWarp h))) (wf_constFence (wf_modWarp h)))
  · exact wf_ite (wf_shareForRelease (wf_constFence (wf_modWarp h))) (wf_constFence (wf_modWarp h))

theorem wf_settleFences {n : Nat} (h : wf s) : wf (s.settleFences slot n) := by
  induction n generalizing s with
  | zero => exact h
  | succ n ih =>
    unfold State.settleFences
    split
    · exact h
    · split
      · exact h
      · exact wf_ite (ih (wf_settleFence h)) h

theorem wf_settle (h : wf s) : wf (s.settle slot) := wf_stampStores (wf_settleFences h)

theorem wf_settleQuad {q : Nat} (h : wf s) : wf (s.settleQuad q) := wf_foldl _ (fun _ _ ha => wf_settle ha) _ h

theorem wf_leaveFabric {op k : Nat} {p : Piece} (h : wf s) : wf (s.leaveFabric slot op k p) := wf_ite h h

theorem wf_detectOnce {cause : Nat} {pc : DWord} {gseq : Nat} {lanes : Mask} {va : DWord} {depth : Nat}
    (h : wf s) : wf (s.detectOnce slot cause pc gseq lanes va depth) := by
  unfold State.detectOnce
  split
  · exact h
  · exact wf_ite h (wf_detectFor _ _ _ _ _ _ _ _ h)

theorem wf_poisonHit {op : MemOp} {va : DWord} {cause : Nat} (h : wf s) : wf (s.poisonHit slot op va cause) :=
  wf_detectOnce h

theorem wf_catomFlag {op : MemOp} (h : wf s) : wf (s.catomFlag slot op) := by
  unfold State.catomFlag
  split
  · split
    · exact wf_modWarp h
    · split
      · exact wf_modWarp h
      · exact wf_queueAsync _ _ (wf_modWarp h)
  · exact h

theorem wf_completeOp {op : MemOp} (h : wf s) : wf (s.completeOp slot w op) := by
  unfold State.completeOp
  dsimp only
  split
  · exact wf_catomFlag (wf_ite (wf_acquire h) h)
  · exact wf_ite (wf_acquire h) h

theorem wf_partDone {op k got : Nat} (h : wf s) : wf (s.partDone slot op k got) := by
  unfold State.partDone
  split
  · exact h
  · split
    · exact h
    · exact wf_ite (wf_completeOp h) h

theorem wf_fillUnits {forme key n : Nat} (h : wf s) : wf (s.fillUnits forme key n) := h

theorem wf_afterLoad {forme : Nat} {op : MemOp} {p : Piece} (h : wf s) : wf (s.afterLoad forme op p) := by
  unfold State.afterLoad
  split
  · exact h
  · exact wf_ite (wf_dropLine h) (wf_ite (wf_fillUnits h) (wf_refreshL1 h))

theorem wf_memoryBytes {op : MemOp} {p : Piece} (h : wf s) : wf (s.memoryBytes slot w op p).2 := by
  unfold State.memoryBytes
  dsimp only
  split
  · exact wf_constBytes h
  · split
    · split
      · exact wf_ite_snd (wf_ite (wf_dropLine (wf_pick h)) (wf_pick h)) (wf_afterLoad (wf_pick h))
      · exact wf_ite_snd (wf_ite (wf_dropLine h) h) (wf_afterLoad h)
    · exact wf_afterLoad h

theorem wf_takesPoison {op : MemOp} {p : Piece} (h : wf s) : wf (s.takesPoison slot w op p).2 := by
  unfold State.takesPoison
  split
  · exact h
  · split
    · exact h
    · split
      · split
        rename_i e1
        have h1 := wf_snd e1 (wf_pick h)
        exact wf_ite_snd h1 (wf_dropLine h1)
      · exact h

theorem wf_sample {op : MemOp} {k : Nat} {p : Piece} (h : wf s) : wf (s.sample slot w op k p) := by
  unfold State.sample
  dsimp only
  split
  all_goals
    split
    · exact wf_partDone h
    · split
      · exact wf_partDone (wf_poisonHit (wf_takesPoison h))
      · exact wf_partDone (wf_memoryBytes (wf_takesPoison h))

theorem wf_execLoadDataReturn {op piece : Nat} {s0 : State} (h : wf s0) :
    wfOut (execLoadDataReturn slot op piece s0) := by
  unfold execLoadDataReturn
  dsimp only
  split
  · trivial
  · exact wfOut_ite (wf_sample (wf_settle h)) trivial

theorem wf_performErr {op : MemOp} {p : Piece} {x : Performed} (h : wf s) : wf (s.performErr slot op p x) := by
  unfold State.performErr
  split
  · exact wf_poisonHit h
  · exact wf_queueAsync _ _ h
  · exact wf_ite (wf_poisonHit h) h

theorem wf_noteArrival {op : MemOp} {p : Piece} {x : Performed} (h : wf s) :
    wf (s.noteArrival slot op p x) := by
  unfold State.noteArrival
  split
  · exact wf_ite (wf_modWarp h) h
  · exact h

theorem wf_performPart {o : MemOp} {k : Nat} {p : Piece} (h : wf s) : wf (s.performPart slot w o k p).1 := by
  unfold State.performPart
  refine wf_performErr (wf_noteArrival ?_)
  have h1 : wf (if ordReleases o.ord then s.shareForRelease slot o.id (s.reach w o.scope) else s) :=
    wf_ite (wf_shareForRelease h) h
  have h2 := wf_leaveFabric (slot := slot) (op := o.id) (k := k) (p := p) h1
  split
  · exact wf_dropLine (wf_dropLine (wf_perform _ _ _ h2))
  · exact wf_perform _ _ _ h2

theorem wf_execStorePerformed {op piece : Nat} {s0 : State} (h : wf s0) :
    wfOut (execStorePerformed slot op piece s0) := by
  unfold execStorePerformed
  dsimp only
  split
  · trivial
  · exact wfOut_ite (wf_partDone (wf_performPart (wf_settle h))) trivial

theorem wf_stcParts {mw : MW} {l : List (Nat × Nat × Nat)} (h : wf s) : wf (s.stcParts slot w mw l).2 :=
  wf_access h

theorem wf_stcFinish {op : MemOp} {ri : Option (Fin 256)} {elems : List (Nat × Nat)} {q0 : Nat}
    {parts : List Part} {grp : Mask} (h : wf s) : wf (s.stcFinish slot op ri elems q0 parts grp) :=
  wf_modWarp (wf_chooseLocal h)

theorem wf_stcFault {op : MemOp} {grp : Mask} {len : Nat} {f : SyncFault} (h : wf s) :
    wf (s.stcFault slot op grp len f) :=
  wf_takeTrap _ _ h

theorem wf_stcElementFault {op : MemOp} {f : SyncFault} (h : wf s) : wf (s.stcElementFault slot w op f) := by
  unfold State.stcElementFault
  split
  · exact wf_modWarp h
  · split
    · exact wf_stcFault h
    · exact wf_ite h (wf_ite (wf_stcFault (wf_modWarp h)) (wf_takeQueued _ _ (wf_modWarp h)))

theorem wf_stcUpdated {op : MemOp} {ri : Option (Fin 256)} {mw : MW} {base : DWord} {elems : List (Nat × Nat)}
    {q0 : Nat} (h : wf s) : wf (s.stcUpdated slot op ri mw base elems q0) := by
  unfold State.stcUpdated
  split
  · exact h
  · split <;> rename_i e2 <;> have h2 := wf_snd e2 (wf_stcParts h)
    · exact h2
    · exact wf_stcElementFault h2
    · exact wf_poisonHit (wf_modWarp h2)
    · exact wf_stcFinish (wf_modWarp h2)

theorem wf_performStc {op : MemOp} {p : Piece} {ri : Option (Fin 256)} {mw : MW} {base : DWord}
    {elems : List (Nat × Nat)} (h : wf s) : wf (s.performStc slot w op p ri mw base elems) := by
  unfold State.performStc
  split
  rename_i e1
  have h1 := wf_fst e1 (wf_performPart h)
  exact wf_stcUpdated (wf_modWarp h1)

theorem wf_warpAtomicPerformed {op piece : Nat} {s0 : State} (h : wf s0) :
    wfOut (warpAtomicPerformed slot op piece s0) := by
  unfold warpAtomicPerformed
  dsimp only
  split
  · trivial
  · split
    · trivial
    · trivial
    · trivial
    · trivial
    · trivial
    · split
      · exact wf_stcUpdated (wf_settle h)
      · exact wfOut_ite (wf_performStc (wf_settle h)) trivial
    · exact wfOut_ite (wf_partDone (wf_performPart (wf_settle h))) trivial

theorem wf_execResultWriteback {k : Nat} (h : wf s) : wfOut (execResultWriteback slot k s) := by
  unfold execResultWriteback
  split
  · trivial
  · exact wf_writeResult _ _ h

theorem wf_relocate {u ctx : Nat} {k : OpKind} {va : DWord} (h : wf s) : wf (s.relocate u ctx k va).2 := by
  unfold State.relocate
  split <;> rename_i e1 <;> exact wf_snd e1 (wf_translate h)

theorem wf_setPart {op k : Nat} {f : Piece → Piece} (h : wf s) : wf (s.setPart slot op k f) := wf_modWarp h

theorem wf_lostPart {op : MemOp} {k : Nat} {p : Piece} {cause entry : Nat} (h : wf s) :
    wf (s.lostPart slot op k p cause entry) :=
  wf_partDone (wf_ite (wf_poisonHit h) (wf_queueAsync _ _ h))

theorem wf_moveOne {op : MemOp} {k : Nat} {p : Piece} (h : wf s) : wf (s.moveOne slot w op k p) := by
  unfold State.moveOne
  split <;> rename_i e1 <;> have h1 := wf_snd e1 (wf_relocate h)
  · exact wf_ite h1 (wf_lostPart h1)
  · exact h1
  · split
    · split <;> rename_i e2 <;> have h2 := wf_snd e2 (wf_relocate h1)
      · exact wf_lostPart h2
      · exact h2
      · exact wf_setPart h2
    · exact wf_setPart h1

theorem wf_execMovedNack {op piece : Nat} {s0 : State} (h : wf s0) :
    wfOut (execMovedNack slot op piece s0) := by
  unfold execMovedNack
  dsimp only
  split
  · trivial
  · exact wfOut_ite (wf_moveOne (wf_leaveFabric (wf_settle h))) trivial

theorem wf_execMigWalkRetry (h : wf s) : wfOut (execMigWalkRetry slot s) := by
  unfold execMigWalkRetry
  split
  · have h1 : wfOption (if slot = engineSlot then s.postLate else none) := wfOption_ite (wf_postLate h) trivial
    split
    · trivial
    · rename_i e1
      exact wf_some e1 h1
  · split
    · trivial
    · exact h

/-! ### Control transfer and rejoin sets -/

theorem wf_withActive {g : Guard} {f : State → Slot → Warp → Regs → Mask → State} (h : wf s)
    (hf : ∀ s sl w r act, wf s → wf (f s sl w r act)) : wfOut (s.withActive g f) :=
  wf_onSlot h fun _ _ _ _ h1 => wf_ite (wf_finish h1) (hf _ _ _ _ _ h1)

theorem wf_raiseOr {f : Option SyncFault} {k : State} (h : wf s) (hk : wf k) : wf (s.raiseOr sl act f k) := by
  unfold State.raiseOr
  split
  · exact hk
  · exact wf_ite hk (wf_raise _ _ _ h)

theorem wf_jump {target : Nat → DWord} (h : wf s) : wf (s.jump sl r act target) := wf_modWarp (wf_finish h)

theorem wf_execBra {i : BraI} (h : wf s) : wfOut (execBra i s) := wf_withActive h fun _ _ _ _ _ h1 => wf_jump h1

theorem wf_execBrx {i : JumpI} (h : wf s) : wfOut (execBrx i s) :=
  wf_withActive h fun _ _ _ _ _ h1 => wf_raiseOr h1 (wf_jump h1)

theorem wf_execRet {i : JumpI} (h : wf s) : wfOut (execRet i s) :=
  wf_withActive h fun _ _ _ _ _ h1 => wf_raiseOr h1 (wf_jump h1)

theorem wf_execCall {i : CallI} (h : wf s) : wfOut (execCall i s) :=
  wf_withActive h fun _ _ _ _ _ h1 => wf_jump h1

theorem wf_execCallx {i : CallxI} (h : wf s) : wfOut (execCallx i s) :=
  wf_withActive h fun _ _ _ _ _ h1 => wf_raiseOr h1 (wf_jump h1)

theorem wf_finishSets (h : wf s) : wf (s.finishSets sl r) := wf_modWarp (wf_finish h)

theorem wf_execJopen {i : JopenI} (h : wf s) : wfOut (execJopen i s) :=
  wf_withActive h fun _ _ _ _ _ h1 => wf_raiseOr h1 (wf_finish h1)

theorem wf_execJenter {i : JsetI} (h : wf s) : wfOut (execJenter i s) :=
  wf_withActive h fun _ _ _ _ _ h1 => wf_raiseOr h1 (wf_finish h1)

theorem wf_execJquit {i : JsetI} (h : wf s) : wfOut (execJquit i s) :=
  wf_withActive h fun _ _ _ _ _ h1 => wf_raiseOr h1 (wf_finishSets h1)

theorem wf_arrive {j : Fin 16} (h : wf s) : wf (s.arrive sl r act j) :=
  wf_ite (wf_finishSets h) (wf_modWarp (wf_holdAt h))

theorem wf_execJwait {i : JsetI} (h : wf s) : wfOut (execJwait i s) :=
  wf_withActive h fun _ _ _ _ _ h1 => wf_raiseOr h1 (wf_raiseOr h1 (wf_arrive h1))

theorem wf_execJfree {i : JsetI} (h : wf s) : wfOut (execJfree i s) :=
  wf_withActive h fun _ _ _ _ _ h1 => wf_raiseOr h1 (wf_finish h1)

theorem wf_execExit {i : PlainI} (h : wf s) : wfOut (execExit i s) :=
  wf_withActive h fun _ _ _ _ _ h1 => wf_raiseOr h1 (wf_raiseOr h1 (wf_finishSets h1))

theorem wf_execJload {i : JmemI} (h : wf s) : wfOut (execJload i s) :=
  wf_withActive h fun _ _ _ _ _ h1 => wf_raiseOr h1 (wf_memoryOn h1)

theorem wf_leadStc {i : StcI} (h : wf s) : wf (s.leadStc sl w r act i) := by
  unfold State.leadStc
  split
  · exact wf_raise _ _ _ h
  · split <;> rename_i e1 <;> have h1 := wf_snd e1 (wf_access h)
    · exact wf_stopAccess h1
    · split
      rename_i e2
      have h2 := wf_snd e2 h1
      exact wf_ite (wf_holdWith h2) (wf_modWarp (wf_holdAt h2))

theorem wf_proofStc {i : StcI} (h : wf s) : wf (s.proofStc sl r act i) := wf_compareProof h

theorem wf_execStc {i : StcI} (h : wf s) : wfOut (execStc i s) :=
  wf_onSlot h fun _ _ _ _ h1 => wf_ite (wf_finish h1) (wf_ite (wf_proofStc h1) (wf_leadStc h1))

/-! ### Fences, barriers, waits, FIFOs -/

theorem wf_execFence {i : FenceI} (h : wf s) : wfOut (execFence i s) := by
  refine wf_withActive h fun s1 sl w r act h1 => ?_
  exact wf_ite (wf_finish h1) (wf_ite (wf_constFence (wf_finish h1)) (wf_modWarp (wf_finish h1)))

theorem wf_objectPart {scratch : Bool} {va : DWord} {size : Nat} {n : Need} {kind : Nat} (h : wf s) :
    wf (s.objectPart slot w scratch va size n kind).2 := by
  unfold State.objectPart
  split <;> rename_i e1 <;> exact wf_snd e1 (wf_access h)

theorem wf_look {scratch : Bool} {va : DWord} {size : Nat} {f : Option Nat → Look} (h : wf s) :
    wf (s.look slot w scratch va size f).2 := by
  unfold State.look
  split <;> rename_i e1 <;> have h1 := wf_snd e1 (wf_objectPart h)
  · exact h1
  · exact wf_refreshHome h1

theorem wf_lookWait {a : WaitKind} (h : wf s) : wf (s.lookWait slot w a).2 := by
  unfold State.lookWait
  split
  · exact wf_look h
  · exact wf_look h
  · exact h

theorem wf_beginWait {k : WaitKind} {va : DWord} (h : wf s) : wf (s.beginWait sl w r act k va) := by
  unfold State.beginWait
  split
  · exact wf_finish h
  · split <;> rename_i e1 <;> have h1 := wf_snd e1 (wf_lookWait h)
    · exact wf_acquire (wf_finish h1)
    · exact wf_holdAt h1
    · exact wf_detectOnce (wf_holdAt h1)
    · exact wf_stopAccess h1

theorem wf_execBarInit {i : BarInitI} (h : wf s) : wfOut (execBarInit i s) :=
  wf_withActive h fun _ _ _ _ _ h1 => wf_ite (wf_raise _ _ _ h1) (wf_ite (wf_raise _ _ _ h1) (wf_memoryOn h1))

theorem wf_execBarArrive {i : BarArriveI} (h : wf s) : wfOut (execBarArrive i s) :=
  wf_withActive h fun _ _ _ _ _ h1 => wf_ite (wf_raise _ _ _ h1) (wf_memoryOn h1)

theorem wf_execBarWait {i : BarWaitI} (h : wf s) : wfOut (execBarWait i s) :=
  wf_withActive h fun _ _ _ _ _ h1 => wf_beginWait h1

theorem wf_testDone {i : BarTestI} {b : Bool} (h : wf s) : wf (s.testDone sl w r act i b) := by
  unfold State.testDone
  exact wf_ite (wf_acquire (wf_modWarp (wf_finish h))) (wf_modWarp (wf_finish h))

theorem wf_execBarTest {i : BarTestI} (h : wf s) : wfOut (execBarTest i s) := by
  refine wf_withActive h fun s1 sl w r act h1 => ?_
  dsimp only
  split
  · exact wf_takeValues h1
  · split <;> rename_i e1 <;> have h2 := wf_snd e1 (wf_look h1)
    · exact wf_testDone h2
    · exact wf_testDone h2
    · exact wf_stopAccess h2
    · exact wf_detectOnce (wf_testDone h2)

theorem wf_execWaitc {i : WaitcI} (h : wf s) : wfOut (execWaitc i s) :=
  wf_withActive h fun _ _ _ _ _ h1 => wf_beginWait h1

theorem wf_execWaitsb {i : WaitsbI} (h : wf s) : wfOut (execWaitsb i s) :=
  wf_withActive h fun _ _ _ _ _ h1 => wf_ite (wf_finish h1) (wf_holdAt h1)

theorem wf_execPause {i : PauseI} (h : wf s) : wfOut (execPause i s) :=
  wf_withActive h fun _ _ _ _ _ h1 => wf_ite (wf_finish h1) (wf_holdAt h1)

theorem wf_execBankcfg {i : BankcfgI} (h : wf s) : wfOut (execBankcfg i s) := by
  refine wf_withActive h fun s1 sl w r act h1 => ?_
  dsimp only
  split
  · exact wf_finish h1
  · split
    · exact wf_raise _ _ _ h1
    · exact wf_holdAt h1

theorem wf_failFifos {g b : Nat} {l : List Nat} (h : wf s) : wf (s.failFifos g b l) :=
  wf_ite h (wf_foldl _ (fun _ _ ha => wf_modWarp ha) _ h)

theorem wf_execBankDrainEnd (h : wf s) : wfOut (execBankDrainEnd slot s) := by
  unfold execBankDrainEnd
  split
  · trivial
  · split
    · trivial
    · split
      · trivial
      · exact wfOut_ite (wf_modWarp (wf_failFifos h)) trivial

theorem wf_fifoMove {gseq : Nat} {k : WaitKind} (h : wf s) : wf (s.fifoMove slot w gseq k) := by
  unfold State.fifoMove
  split
  · exact wf_shareForRelease h
  · exact wf_ite (wf_detectFor _ _ _ _ _ _ _ _ (wf_acquire (wf_modWarp h))) (wf_acquire (wf_modWarp h))
  · exact h

theorem wf_beginFifo {bank : Nat} {k : WaitKind} {push : Bool} (h : wf s) :
    wf (s.beginFifo sl w r act bank k push) := by
  unfold State.beginFifo
  split
  · exact wf_raise _ _ _ h
  · split
    · exact wf_raise _ _ _ h
    · exact wf_ite (wf_holdAt h) (wf_fifoMove (wf_finish h))
    · exact wf_holdAt h

theorem wf_execFifoPush {i : FifoPushI} (h : wf s) : wfOut (execFifoPush i s) :=
  wf_withActive h fun _ _ _ _ _ h1 => wf_ite (wf_finish h1) (wf_beginFifo h1)

theorem wf_execFifoPop {i : FifoPopI} (h : wf s) : wfOut (execFifoPop i s) :=
  wf_withActive h fun _ _ _ _ _ h1 => wf_ite (wf_takeValues h1) (wf_beginFifo h1)

theorem wf_waitFault {x : Wait} {pc : DWord} {f : SyncFault} (h : wf s) :
    wfOut (s.waitFault slot w x pc act f) := by
  unfold State.waitFault
  exact wfOut_ite trivial (wf_takeTrap _ _ h)

theorem wf_finishLook {x : Wait} {pc va : DWord} {y : Look × State} (h : wf y.2) :
    wfOut (s.finishLook slot w x pc va y) := by
  unfold State.finishLook
  split
  · exact wf_acquire (wf_modWarp h)
  · exact wf_waitFault h
  · exact wfOut_ite trivial (wf_detectOnce h)
  · exact wfOut_ite trivial (wf_detectOnce h)
  · trivial

theorem wf_execGroupWaitEnd {lane : Nat} (h : wf s) : wfOut (execGroupWaitEnd slot lane s) := by
  unfold execGroupWaitEnd
  split
  · trivial
  · split
    · trivial
    · split
      · exact wf_finishLook (wf_lookWait h)
      · exact wf_finishLook (wf_lookWait h)
      · exact wfOut_ite (wf_modWarp h) trivial
      · exact wf_modWarp h
      · split
        · exact wf_waitFault h
        · split <;> exact wfOut_ite trivial (wf_fifoMove (wf_modWarp h))
        · trivial
      · split
        · exact wf_waitFault h
        · split <;> exact wfOut_ite trivial (wf_fifoMove (wf_modWarp h))
        · trivial
      · exact wfOut_ite (wf_modWarp h) trivial
      · exact wf_waitFault h
      · exact wfOut_ite (wf_modWarp h) trivial
      · trivial
      · trivial
      · trivial
      · trivial
      · trivial
      · trivial

/-! ### Special registers, invalidations, contexts, traps -/

theorem wf_privilegedOr {k : State} (h : wf s) (hk : wf k) : wf (s.privilegedOr sl w act k) :=
  wf_ite hk (wf_raise _ _ _ h)

theorem wf_execCsrr {i : CsrrI} (h : wf s) : wfOut (execCsrr i s) := by
  refine wf_onSlot h fun s1 sl w r h1 => ?_
  dsimp only
  split
  · split
    · exact wf_privilegedOr h1 (wf_finish h1)
    · split
      · exact wf_privilegedOr h1 (wf_takeValues h1)
      · split
        · exact wf_privilegedOr h1 (wf_raise _ _ _ h1)
        · exact wf_privilegedOr h1 (wf_modWarp (wf_finish h1))
  · split
    · exact wf_finish h1
    · split
      · exact wf_takeValues h1
      · split
        · exact wf_raise _ _ _ h1
        · exact wf_modWarp (wf_finish h1)

theorem wf_srWrite {n : Nat} {x : DWord} (h : wf s) : wf (s.srWrite sl r n x) := by
  unfold State.srWrite
  split
  · exact wf_finish h
  · exact wf_finish h
  · exact wf_ite (wf_finish h) (wf_finish h)

theorem wf_execCsrw {i : CsrwI} (h : wf s) : wfOut (execCsrw i s) := by
  refine wf_onSlot h fun s1 sl w r h1 => ?_
  dsimp only
  split
  · split
    · exact wf_privilegedOr h1 (wf_finish h1)
    · split
      · exact wf_privilegedOr h1 (wf_raiseOr h1 (wf_finish h1))
      · split <;> rename_i e1 <;> have h2 := wf_snd e1 (wf_operandWindow h1)
        · exact wf_privilegedOr h1 (wf_raise _ _ _ h2)
        · exact wf_privilegedOr h1 (wf_srWrite h2)
  · split
    · exact wf_finish h1
    · split
      · exact wf_raiseOr h1 (wf_finish h1)
      · split <;> rename_i e1 <;> have h2 := wf_snd e1 (wf_operandWindow h1)
        · exact wf_raise _ _ _ h2
        · exact wf_srWrite h2

theorem wf_execNop {i : PlainI} (h : wf s) : wfOut (execNop i s) :=
  wf_withActive h fun _ _ _ _ _ h1 => wf_finish h1

theorem wf_privilegedOp {g : Guard} {check : State → Regs → Option SyncFault} {f : State → Slot → Regs → State}
    (h : wf s) (hf : ∀ s sl r, wf s → wf (f s sl r)) : wfOut (s.privilegedOp g check f) := by
  refine wf_onSlot h fun s1 sl w r h1 => wf_privilegedOr h1 ?_
  split
  · exact wf_finish h1
  · split
    · exact wf_raise _ _ _ h1
    · split
      · exact wf_raise _ _ _ h1
      · exact hf _ _ _ h1

theorem wf_waitOps {l : List (Nat × Nat)} (h : wf s) : wf (s.waitOps sl r l) :=
  wf_ite (wf_finish h) (wf_holdAt h)

theorem wf_sendMoved {t : TlbEntry} (h : wf s) : wf (s.sendMoved t) := by
  unfold State.sendMoved
  refine wf_foldl _ (fun a x ha => ?_) _ h
  refine wf_foldl _ (fun a x ha => ?_) _ ha
  refine wf_foldl _ (fun a x ha => ?_) _ ha
  exact wf_ite (wf_moveOne (wf_leaveFabric ha)) ha

theorem wf_clearMoving {c : Nat} {va : DWord} (h : wf s) : wf (s.clearMoving c va) :=
  wf_foldl _ (fun _ _ ha => wf_sendMoved ha) _ h

theorem wf_markMoving {c : Nat} {va : DWord} (h : wf s) : wf (s.markMoving c va) := by
  unfold State.markMoving
  split <;> exact h

theorem wf_execTlbiVa {i : TlbiVaI} (h : wf s) : wfOut (execTlbiVa i s) :=
  wf_privilegedOp h fun _ _ _ h1 => wf_waitOps (wf_ite (wf_markMoving h1) (wf_clearMoving h1))

theorem wf_dropContext {c : Nat} (h : wf s) : wf (s.dropContext sl r c) := wf_waitOps h

theorem wf_execTlbiCtx {i : TlbiCtxI} (h : wf s) : wfOut (execTlbiCtx i s) :=
  wf_privilegedOp h fun _ _ _ h1 => wf_dropContext h1

theorem wf_execTlbiAll {i : TlbiAllI} (h : wf s) : wfOut (execTlbiAll i s) :=
  wf_privilegedOp h fun _ _ _ h1 => wf_waitOps h1

theorem wf_execCtxopRoot {i : CtxRootI} (h : wf s) : wfOut (execCtxopRoot i s) :=
  wf_privilegedOp h fun _ _ _ h1 => wf_dropContext h1

theorem wf_execCtxopDrain {i : CtxI} (h : wf s) : wfOut (execCtxopDrain i s) :=
  wf_privilegedOp h fun _ _ _ h1 => wf_ite (wf_finish h1) (wf_holdAt h1)

theorem wf_execTrap {i : TrapI} (h : wf s) : wfOut (execTrap i s) :=
  wf_withActive h fun _ _ _ _ _ h1 => wf_ite (wf_finish h1) (wf_raiseAt _ _ _ _ _ h1)

theorem wf_replace {l : List Piece} (h : wf s) : wf (s.replace slot w l).2 := by
  induction l generalizing s with
  | nil => exact h
  | cons p t ih =>
    unfold State.replace
    split
    · split
      · exact h
      · split
        · rename_i e1
          exact wf_snd e1 (ih h)
        · exact ih h
    · split
      · rename_i e1
        exact wf_snd e1 (wf_translateAll h)
      · rename_i e1
        have h1 := wf_snd e1 (wf_translateAll h)
        dsimp only
        split
        · rename_i e2
          exact wf_snd e2 (ih h1)
        · exact ih h1

theorem wf_replayFault {op : MemOp} {f : SyncFault} {rest : List Replay} (h : wf s) :
    wf (s.replayFault slot op f rest) :=
  wf_takeTrap _ _ h

theorem wf_reinject {l : List Replay} (h : wf s) : wf (s.reinject slot l) := by
  induction l generalizing s with
  | nil => exact h
  | cons x t ih =>
    unfold State.reinject
    split
    · contradiction
    · rename_i e1
      cases e1
      exact ih (wf_modWarp h)
    · rename_i e1
      cases e1
      split
      · exact h
      · split
        · dsimp only
          split <;> rename_i e2 <;> have h1 := wf_snd e2 (wf_stcParts h)
          · exact wf_replayFault h1
          · exact ih (wf_modWarp h1)
          · exact ih (wf_poisonHit h1)
          · exact ih (wf_stcFinish h1)
        · split <;> rename_i e2 <;> have h1 := wf_snd e2 (wf_replace h)
          · exact wf_replayFault h1
          · exact ih (wf_poisonHit h1)
          · exact ih h1
          · exact ih (wf_modWarp h1)

theorem wf_leaveHandler {f : Frame} (h : wf s) : wf (s.leaveHandler sl w r f) := by
  unfold State.leaveHandler
  split
  · exact wf_modWarp (wf_finish h)
  · split
    · exact wf_reinject (wf_modWarp (wf_finish h))
    · split
      · exact wf_takeQueued _ _ (wf_reinject (wf_modWarp (wf_finish h)))
      · exact wf_takeQueued _ _ (wf_modWarp (wf_finish h))

theorem wf_execTret {i : PlainI} (h : wf s) : wfOut (execTret i s) := by
  refine wf_withActive h fun s1 sl w r act h1 => ?_
  split
  · exact wf_raiseOr h1 (wf_finish h1)
  · exact wf_ite (wf_raise _ _ _ h1) (wf_ite h1 (wf_leaveHandler h1))

theorem wf_execErrpPost {i : ErrpPostI} (h : wf s) : wfOut (execErrpPost i s) :=
  wf_withActive h fun _ _ _ _ _ h1 => wf_ite (wf_finish h1) (wf_post _ (wf_finish h1))

theorem wf_execErrpVec {i : ErrpSetI} (h : wf s) : wfOut (execErrpVec i s) :=
  wf_withActive h fun _ _ _ _ _ h1 => wf_raiseOr h1 (wf_finish h1)

theorem wf_execErrpMask {i : ErrpSetI} (h : wf s) : wfOut (execErrpMask i s) :=
  wf_withActive h fun _ _ _ _ _ h1 => wf_finish h1

theorem wf_execTakeTrap (h : wf s) : wfOut (execTakeTrap slot s) := by
  unfold execTakeTrap
  split
  · trivial
  · split
    · trivial
    · exact wfOut_ite (wf_takeQueued _ _ h) trivial

theorem wf_execRegionRollback (h : wf s) : wfOut (execRegionRollback slot s) := by
  unfold execRegionRollback
  split
  · trivial
  · split
    · trivial
    · exact wfOut_ite (wf_deliverDetected _ h) trivial

theorem wf_reliabilityWords (h : wf s) : wf s.reliabilityWords.2.2 := h

theorem wf_recordOnly {cause : Nat} (h : wf s) : wf (s.recordOnly slot cause) := by
  unfold State.recordOnly
  split
  rename_i e1
  have h1 := wf_snd e1 (wf_ite_snd h (wf_pick h))
  split
  rename_i e2
  have h2 := wf_snd e2 (wf_ite_snd (wf_pick h1) h1)
  dsimp only
  split
  · exact wf_post _ (wf_reliabilityWords (wf_ite h2 h2))
  · exact wf_reliabilityWords (wf_ite h2 h2)

theorem wf_execDetectedError {cause pc gseq lanes : Nat} (h : wf s) :
    wfOut (execDetectedError slot cause pc gseq lanes s) := by
  unfold execDetectedError
  split
  · exact wf_recordOnly h
  · split
    · exact h
    · split
      · exact wf_detectFor _ _ _ _ _ _ _ _ h
      · exact h

theorem wf_killTables {g : Gang} (h : wf s) : wf (s.killTables g) := wf_killGang _ _ h

theorem wf_execGangKill {g cause : Nat} (h : wf s) : wfOut (execGangKill g cause s) := by
  unfold execGangKill
  split
  · trivial
  · split
    · exact wf_takeQueued _ _ h
    · exact wfOut_ite (wf_killTables h) trivial

/-! ### Issue -/

theorem wf_fetchWord {p : Place} (h : wf s) : wf (s.fetchWord slot p).2 := by
  unfold State.fetchWord
  split
  · exact h
  · exact wf_pick h

theorem wf_fetchMore {p : Place} {n : Nat} (h : wf s) : wf (s.fetchMore slot p n).2 := by
  induction n generalizing s p with
  | zero => exact h
  | succ n ih => exact ih (wf_fetchWord h)

theorem wf_fetchPlace {p : Place} {va : Nat} (h : wf s) : wf (s.fetchPlace slot p va).2 := by
  unfold State.fetchPlace
  split
  · exact h
  · split
    rename_i e1
    have h1 := wf_snd e1 (wf_fetchWord h)
    split
    · exact h1
    · dsimp only
      split
      · exact h1
      · split <;> exact wf_fetchMore h1

theorem wf_fetch {ctx : Nat} {pc : DWord} (h : wf s) : wf (s.fetch slot ctx pc).2 := by
  unfold State.fetch
  split
  · exact h
  · split <;> rename_i e1 <;> have h1 := wf_snd e1 (wf_translate h)
    · exact h1
    · exact h1
    · exact wf_fetchPlace h1

theorem wf_fetchPast {ctx : Nat} {pc : DWord} {n : Nat} (h : wf s) : wf (s.fetchPast slot ctx pc n).2.2 := by
  induction n generalizing s pc with
  | zero => exact h
  | succ n ih =>
    unfold State.fetchPast
    split <;> rename_i e1 <;> have h1 := wf_snd e1 (wf_fetch h)
    · exact ih h1
    · exact h1

theorem wf_fetchGroups {ctx : Nat} {l : List Group} (h : wf s) : wf (s.fetchGroups slot ctx l).2 := by
  induction l generalizing s with
  | nil => exact h
  | cons g t ih =>
    unfold State.fetchGroups
    split
    rename_i e1
    have h1 := wf_third e1 (wf_fetchPast h)
    exact ih (wf_ite h1 (wf_modWarp h1))

theorem wf_setIssue {l : List (Group × Verdict)} {g : Group} {i : Instr} {len : Nat} (h : wf s) :
    wf (s.setIssue slot w l g i len) := by
  unfold State.setIssue
  split <;> exact wf_modWarp h

theorem wf_offerGroups (h : wf s) : wfOption (s.offerGroups slot w).1 ∧ wf (s.offerGroups slot w).2 := by
  unfold State.offerGroups
  split
  rename_i e1
  have h1 := wf_snd e1 (wf_fetchGroups h)
  split
  · exact ⟨trivial, h1⟩
  · dsimp only
    split
    · exact ⟨trivial, h1⟩
    · exact ⟨wf_raise _ _ _ (wf_modWarp h1), h1⟩
    · exact ⟨wf_detectFor _ _ _ _ _ _ _ _ h1, h1⟩
    · exact ⟨wf_setIssue h1, h1⟩
    · exact ⟨trivial, h1⟩

theorem wf_offerLeader (h : wf s) : wfOption (s.offerLeader slot).1 ∧ wf (s.offerLeader slot).2 := by
  unfold State.offerLeader
  split
  · exact ⟨trivial, h⟩
  · split
    · exact ⟨wf_killGang _ _ h, h⟩
    · split
      · exact ⟨trivial, h⟩
      · exact wf_offerGroups h

theorem wf_proofTrap {e : Lag} (h : wf s) : wf (s.proofTrap slot e) := wf_modWarp h

theorem wf_offerProof (h : wf s) : wfOption (s.offerProof slot).1 ∧ wf (s.offerProof slot).2 := by
  unfold State.offerProof
  split
  · exact ⟨trivial, h⟩
  · split
    · exact ⟨trivial, h⟩
    · dsimp only
      split
      · exact ⟨trivial, h⟩
      · split
        · exact ⟨wf_proofTrap h, h⟩
        · exact ⟨h, h⟩

theorem wf_offer {q k : Nat} (h : wf s) : wfOption (s.offer q k).1 ∧ wf (s.offer q k).2 := by
  unfold State.offer
  split
  · exact wf_offerLeader h
  · exact wf_offerProof h

theorem wf_offerFrom {q : Nat} {l : List Nat} (h : wf s) : wf (s.offerFrom q l) := by
  induction l generalizing s with
  | nil => exact h
  | cons k t ih =>
    obtain ⟨h1, h2⟩ := wf_offer (q := q) (k := k) h
    unfold State.offerFrom
    split <;> rename_i e1 <;> rw [e1] at h1 h2
    · exact h1
    · exact ih h2

theorem wf_execIssueOpportunity {q : Nat} (h : wf s) : wfOut (execIssueOpportunity q s) := by
  have h1 := wf_settleQuad (q := q) h
  unfold execIssueOpportunity
  generalize s.settleQuad q = t at h1 ⊢
  exact wfOut_ite trivial (wf_offerFrom h1)

theorem wf_afterIssue {before : Warp} (h : wf s) : wf (s.afterIssue sl before) := by
  unfold State.afterIssue
  dsimp only
  split
  · exact h
  · exact wf_ite h (wf_ite (wf_detectFor _ _ _ _ _ _ _ _ (wf_modWarp h)) (wf_modWarp h))

theorem wf_afterPair (h : wf s) : wf (s.afterPair slot) := wf_modWarp h

/-! ### Migration -/

theorem wf_beginMigration {t : Nat} (h : wf s) : wf (s.beginMigration sl r t) := wf_modWarp (wf_finish h)

theorem wf_migrateChecks {k : State} (h : wf s) (hk : wf k) : wf (s.migrateChecks sl w r act k) := by
  unfold State.migrateChecks
  exact wf_ite (wf_finish h) (wf_ite (wf_raise _ _ _ h) (wf_ite (wf_raise _ _ _ h) hk))

theorem wf_execMigr {i : MigrI} (h : wf s) : wfOut (execMigr i s) := by
  refine wf_withActive h fun s1 sl w r act h1 => wf_migrateChecks h1 ?_
  dsimp only
  split <;> rename_i e1 <;> have h2 := wf_snd e1 (wf_translate h1)
  · exact wf_stopAccess h2
  · exact wf_raise _ _ _ h2
  · exact wf_beginMigration h2

theorem wf_execMigrHome {i : PlainI} (h : wf s) : wfOut (execMigrHome i s) :=
  wf_withActive h fun _ _ _ _ _ h1 => wf_migrateChecks h1 (wf_beginMigration h1)

theorem wf_pushParts {key : Nat} {l : List (Nat × Nat × Nat)} (h : wf s) : wf (s.pushParts key l) := by
  induction l generalizing s with
  | nil => exact h
  | cons x t ih =>
    unfold State.pushParts
    exact wf_ite (ih (wf_setPart h)) h

theorem wf_pump {src dst vc : Nat} (h : wf s) : wf (s.pump src dst vc) := wf_pushParts h

theorem wf_freeLanding {key : Nat} {f : Freight} (h : wf s) : wf (s.freeLanding key f) := by
  unfold State.freeLanding
  split
  · exact h
  · exact h
  · split
    · exact h
    · split <;> exact h

theorem wf_execFabricEntry {src dst vc : Nat} {s0 : State} (h : wf s0) :
    wfOut (execFabricEntry src dst vc s0) := by
  unfold execFabricEntry
  split
  · trivial
  · dsimp only
    split
    · trivial
    · split
      · trivial
      · split
        · exact wf_freeLanding (wf_pump h)
        · exact wf_pump h

theorem wf_execFabricResend {src dst vc : Nat} (h : wf s) : wfOut (execFabricResend src dst vc s) := by
  unfold execFabricResend
  exact wfOut_ite h trivial

theorem wf_acquireDevice (h : wf s) : wf (s.acquireDevice slot) := wf_constFence (wf_acquire h)

theorem wf_execMigrationDeparture {s0 : State} (h : wf s0) : wfOut (execMigrationDeparture slot s0) := by
  unfold execMigrationDeparture
  dsimp only
  split
  · trivial
  · split
    · trivial
    · split
      · trivial
      · split
        · exact wf_acquireDevice (wf_modWarp (wf_settle h))
        · exact wfOut_ite trivial (wf_modWarp (wf_settle h))

theorem wf_assignFeeder {rcb sheet : Nat} (h : wf s) : wf (s.assignFeeder rcb sheet).2 := wf_pick h

theorem wf_execMigrationArrival {into : Nat} (h : wf s) : wfOut (execMigrationArrival slot into s) := by
  unfold execMigrationArrival
  split
  · trivial
  · split
    · trivial
    · dsimp only
      generalize hy : s.assignFeeder _ _ = y
      have h1 : wf y.2 := hy ▸ wf_assignFeeder h
      split <;> exact wfOut_ite trivial (wf_acquireDevice h1)

/-! ### Regions and roll back -/

theorem wf_region {g : Guard} {f : State → Slot → Warp → Regs → Mask → State} (h : wf s)
    (hf : ∀ s sl w r act, wf s → wf (f s sl w r act)) : wfOut (s.region g f) := by
  refine wf_onSlot h fun s1 sl w r h1 => ?_
  dsimp only
  split
  · exact wf_finish h1
  · split
    · exact wf_raise _ _ _ h1
    · exact hf _ _ _ _ _ h1

theorem wf_execRgnBegin {i : RgnBeginI} (h : wf s) : wfOut (execRgnBegin i s) := by
  refine wf_region h fun s1 sl w r act h1 => ?_
  split
  · exact wf_raise _ _ _ h1
  · exact wf_ite (wf_raise _ _ _ h1) (wf_modWarp (wf_finish (wf_ite_snd (wf_pick h1) h1)))

theorem wf_execRgnKeep {i : RgnKeepI} (h : wf s) : wfOut (execRgnKeep i s) := by
  refine wf_region h fun s1 sl w r act h1 => ?_
  exact wf_ite (wf_raise _ _ _ h1) (wf_ite (wf_raise _ _ _ h1) (wf_ite (wf_raise _ _ _ h1) (wf_finish h1)))

theorem wf_heldPieces {x : Held} {l : List (Nat × List Byte)} (h : wf s) : wf (s.heldPieces slot w x l).2 := by
  induction l generalizing s with
  | nil => exact h
  | cons y t ih =>
    unfold State.heldPieces
    dsimp only
    split <;> rename_i e1 <;> have h1 := wf_snd e1 (wf_ite_snd (wf_access h) (wf_translateAll h))
    · exact h1
    · split <;> rename_i e2 <;> exact wf_snd e2 (ih h1)

theorem wf_strongFence {x : Option (Ord × Scope)} (h : wf s) : wf (s.strongFence sl r act x).2 := by
  unfold State.strongFence
  split
  · split
    rename_i e1
    have h1 := wf_snd e1 h
    exact h1
  · exact h

theorem wf_releaseOps {l : List Held} (h : wf s) : wf (s.releaseOps sl w r act l).2 := by
  induction l generalizing s with
  | nil => exact h
  | cons x t ih =>
    unfold State.releaseOps
    split <;> rename_i e1 <;> have h1 := wf_snd e1 (wf_heldPieces h)
    · exact h1
    · dsimp only
      split <;> rename_i e2 <;> exact wf_snd e2 (ih (wf_strongFence h1))

theorem wf_retranslate {u ctx : Nat} {pt : Option PairT} {l : List Piece} (h : wf s) :
    wf (s.retranslate u ctx pt l).2 := by
  induction l generalizing s with
  | nil => exact h
  | cons p t ih =>
    unfold State.retranslate
    dsimp only
    split <;> rename_i e1 <;> have h1 := wf_snd e1 (wf_translateAll h)
    · exact h1
    · split
      · exact h1
      · split <;> rename_i e2 <;> exact wf_snd e2 (ih h1)

theorem wf_redeferred {u ctx : Nat} {l : List Deferred} (h : wf s) : wf (s.redeferred u ctx l).2 := by
  induction l generalizing s with
  | nil => exact h
  | cons x t ih =>
    cases x with
    | feed c =>
      unfold State.redeferred
      split <;> rename_i e1 <;> exact wf_snd e1 (ih h)
    | mem op =>
      unfold State.redeferred
      dsimp only
      split <;> rename_i e1 <;> have h1 := wf_snd e1 (wf_retranslate h)
      · exact h1
      · split <;> rename_i e2 <;> exact wf_snd e2 (ih h1)

theorem wf_sendDeferred {l : List Deferred} (h : wf s) : wf (s.sendDeferred sl r act l) := by
  induction l generalizing s with
  | nil => exact h
  | cons x t ih =>
    cases x with
    | feed c => exact ih h
    | mem op => exact ih (wf_modWarp (wf_strongFence h))

theorem wf_releaseRegion {lv : Level} (h : wf s) :
    wfExcept (s.releaseRegion sl w r act lv).1 ∧ wf (s.releaseRegion sl w r act lv).2 := by
  unfold State.releaseRegion
  split <;> rename_i e1 <;> have h1 := wf_snd e1 (wf_releaseOps h)
  · exact ⟨trivial, h1⟩
  · split <;> rename_i e2 <;> have h2 := wf_snd e2 (wf_redeferred h1)
    · exact ⟨trivial, h2⟩
    · exact ⟨wf_modWarp (wf_sendDeferred (wf_modWarp h2)), h2⟩

theorem wf_closeLevel (h : wf s) : wfExcept (s.closeLevel sl w r act).1 ∧ wf (s.closeLevel sl w r act).2 := by
  unfold State.closeLevel
  split
  · exact ⟨trivial, h⟩
  · split
    · exact ⟨trivial, h⟩
    · exact wf_releaseRegion h
  · exact ⟨wf_modWarp h, h⟩

theorem wf_awaitRelease {n : Nat} {grp : Mask} {gseq : Nat} (h : wf s) : wf (s.awaitRelease slot n grp gseq) :=
  wf_modWarp h

theorem wf_endAlone (h : wf s) : wf (s.endAlone sl w r act) := by
  unfold State.endAlone
  split <;> rename_i e1
  · exact wf_stopAccess (wf_snd e1 (wf_closeLevel h).2)
  · exact wf_awaitRelease (wf_finish (wf_ok e1 (wf_closeLevel h).1))

theorem wf_endBoth (h : wf s) : wf (s.endBoth sl w r) := by
  unfold State.endBoth
  split
  · exact wf_finish h
  · dsimp only
    split <;> rename_i e1
    · exact wf_snd e1 (wf_closeLevel h).2
    · exact wf_stopAccess (wf_snd e1 (wf_closeLevel h).2)
    · exact wf_awaitRelease (wf_modWarp (wf_finish (wf_ok e1 (wf_closeLevel h).1)))

theorem wf_execRgnEnd {i : PlainI} (h : wf s) : wfOut (execRgnEnd i s) := by
  refine wf_onSlot h fun s1 sl w r h1 => ?_
  dsimp only
  split
  · exact wf_endBoth h1
  · split
    · exact wf_raise _ _ _ h1
    · exact wf_ite (wf_raise _ _ _ h1) (wf_ite (wf_holdAt h1) (wf_endAlone h1))

theorem wf_execRgnAbort {i : TrapI} (h : wf s) : wfOut (execRgnAbort i s) := by
  refine wf_onSlot h fun s1 sl w r h1 => ?_
  dsimp only
  split
  · exact wf_finish h1
  · split
    · exact wf_raise _ _ _ h1
    · exact wf_ite (wf_raise _ _ _ (wf_modWarp h1)) (wf_detect _ _ (wf_finish (wf_modWarp h1)))

theorem wf_execRgnStatus {i : RgnStatusI} (h : wf s) : wfOut (execRgnStatus i s) := by
  refine wf_withActive h fun s1 sl w r act h1 => ?_
  exact wf_ite (wf_takeValues h1) (wf_modWarp (wf_finish h1))

/-! ### Placement, kill and relaunch of gangs -/

theorem wf_startBlock {v : Work} {l : LaunchRec} {chk : Bool} {gang lin block : Nat} {slots : List Nat}
    (h : wf s) : wf (s.startBlock v l chk gang lin block slots) := by
  refine wf_foldl _ (fun a x ha => ?_) _ h
  have h1 : wf (a.assignFeeder v.rcbId (slotSheet x.1)).2 := wf_assignFeeder ha
  exact h1

theorem wf_startGang {w : Work} {l : LaunchRec} {chk : Bool} {gang lin : Nat} {sites : List Site} (h : wf s) :
    wf (s.startGang w l chk gang lin sites) :=
  wf_foldl _ (fun _ _ ha => wf_startBlock ha) _ h

theorem wf_placeGang {w : Work} {l : LaunchRec} {sites : List Site} (h : wf s) : wf (s.placeGang w l sites) :=
  wf_startGang h

theorem wf_execGangPlacement {launch : Nat} {slots : List Nat} (h : wf s) :
    wfOut (execGangPlacement launch slots s) := by
  unfold execGangPlacement
  split
  · trivial
  · split
    · trivial
    · split
      · trivial
      · exact wf_placeGang h

theorem wf_execGangRelaunch {gang : Nat} {slots : List Nat} (h : wf s) :
    wfOut (execGangRelaunch gang slots s) := by
  unfold execGangRelaunch
  split
  · trivial
  · split
    · trivial
    · split
      · trivial
      · split
        · trivial
        · exact wfOut_ite trivial (wf_startGang h)

theorem wf_leaveErrors (h : wf s) : wf (s.leaveErrors slot w) := by
  unfold State.leaveErrors
  dsimp only
  split
  · exact wf_foldl _ (fun _ _ ha => wf_post _ ha) _ h
  · exact wf_killGang _ _ (wf_foldl _ (fun _ _ ha => wf_post _ ha) _ (wf_foldl _ (fun _ _ ha => wf_post _ ha) _ h))

theorem wf_releaseBlock {gang block : Nat} (h : wf s) : wf (s.releaseBlock gang block) := wf_ite h h

theorem wf_finishGang {gang : Nat} (h : wf s) : wf (s.finishGang gang) := by
  unfold State.finishGang
  split
  · exact h
  · exact wf_ite h h

theorem wf_execWarpRetire {s0 : State} (h : wf s0) : wfOut (execWarpRetire slot s0) := by
  unfold execWarpRetire
  dsimp only
  split
  · trivial
  · split
    · trivial
    · split
      · exact wf_leaveErrors (wf_settle h)
      · exact wf_finishGang (wf_releaseBlock (wf_leaveErrors (wf_settle h)))

theorem wf_execWatchdogExpiry {rcb : Nat} (h : wf s) : wfOut (execWatchdogExpiry rcb s) := by
  unfold execWatchdogExpiry
  split
  · trivial
  · exact wfOut_ite trivial (wf_killDomain _ (wf_post _ h))

/-! ### Layout records and the places they give -/

theorem wf_readRecord {va : DWord} (h : wf s) : wf (s.readRecord slot w va).2 := by
  unfold State.readRecord
  split
  · exact h
  · split <;> rename_i e1 <;> exact wf_snd e1 (wf_constWords h)

theorem wf_readRecords {l : List DWord} (h : wf s) : wf (s.readRecords slot w l).2 := by
  induction l generalizing s with
  | nil => exact h
  | cons a t ih =>
    unfold State.readRecords
    split <;> rename_i e1 <;> have h1 := wf_snd e1 (wf_readRecord h)
    · exact h1
    · split <;> rename_i e2 <;> exact wf_snd e2 (ih h1)

theorem wf_mapPages {u ctx : Nat} {n : Need} {acc : List PageMap} {l : List Int} (h : wf s) :
    wf (s.mapPages u ctx n acc l).2 := by
  induction l generalizing s acc with
  | nil => exact h
  | cons a t ih =>
    unfold State.mapPages
    split
    · exact ih h
    · dsimp only
      split <;> rename_i e1 <;> have h1 := wf_snd e1 (wf_translate h)
      · exact h1
      · exact h1
      · exact wf_ite_snd h1 (ih h1)

theorem wf_globalPlaces {u ctx : Nat} {n : Need} {size : Nat} {l : List Int} (h : wf s) :
    wf (s.globalPlaces u ctx n size l).2 := by
  unfold State.globalPlaces
  split
  · exact h
  · split <;> rename_i e1 <;> exact wf_snd e1 (wf_mapPages h)

theorem wf_engineParts {sp : Space} {n : Need} {size : Nat} {l : List Int} (h : wf s) :
    wf (s.engineParts slot w sp n size l).2 := by
  unfold State.engineParts
  split
  · exact wf_globalPlaces h
  · exact h

theorem wf_gather {rc : LRec} {l : List Int} (h : wf s) : wf (s.gather slot w rc l).2 := by
  unfold State.gather
  dsimp only
  split <;> rename_i e1 <;> have h1 := wf_snd e1 (wf_engineParts h)
  · exact h1
  · split <;> exact h1

/-! ### The Platen -/

theorem wf_stayPoisoned {va : DWord} {unit : Nat} (h : wf s) : wf (s.stayPoisoned sl w r act va unit) :=
  wf_detectFor _ _ _ _ _ _ _ _ h

theorem wf_freshFor {i : Instr} (h : wf s) : wf (s.freshFor i).2 := by
  unfold State.freshFor
  split
  rename_i e1
  have h1 := wf_snd e1 h
  split <;> exact h1

theorem wf_leadPlaten {q : PlatReq} (h : wf s) : wf (s.leadPlaten sl w r act q) := by
  unfold State.leadPlaten
  split <;> rename_i e1 <;> have h1 := wf_snd e1 (wf_readRecords h)
  · exact wf_stayPoisoned h1
  · exact wf_raise _ _ _ h1
  · exact h1
  · split
    · exact wf_raise _ _ _ h1
    · split
      · exact wf_raise _ _ _ h1
      · split
        rename_i e2
        have h2 := wf_snd e2 (wf_freshFor h1)
        exact wf_modWarp (wf_finishWith h2)

theorem wf_proofPlaten {q : PlatReq} (h : wf s) : wf (s.proofPlaten sl r act q) := by
  unfold State.proofPlaten
  exact wf_ite (wf_ite (wf_compareProof h) (wf_modWarp (wf_compareProof h))) (wf_takeValues h)

theorem wf_platenInstr {q : PlatReq} (h : wf s) : wfOut (s.platenInstr q) := by
  refine wf_onSlot h fun s1 sl w r h1 => ?_
  exact wf_ite (wf_proofPlaten h1) (wf_ite (wf_raise _ _ _ h1) (wf_leadPlaten h1))

theorem wf_execMma {i : MmaI} (h : wf s) : wfOut (execMma i s) := wf_platenInstr h

theorem wf_execMmaRes {i : MmaResI} (h : wf s) : wfOut (execMmaRes i s) := wf_platenInstr h

theorem wf_execAccZero {i : AccZeroI} (h : wf s) : wfOut (execAccZero i s) := wf_platenInstr h

theorem wf_execAccRd {i : AccRdI} (h : wf s) : wfOut (execAccRd i s) := wf_platenInstr h

theorem wf_execAccWr {i : AccWrI} (h : wf s) : wfOut (execAccWr i s) := wf_platenInstr h

theorem wf_execAccLd {i : AccLdI} (h : wf s) : wfOut (execAccLd i s) := wf_platenInstr h

theorem wf_execAccSt {i : AccStI} (h : wf s) : wfOut (execAccSt i s) := wf_platenInstr h

theorem wf_operandRows {rc : LRec} {k0 n : Nat} (h : wf s) : wf (s.operandRows slot w rc k0 n).2 := by
  unfold State.operandRows
  dsimp only
  split <;> rename_i e1 <;> exact wf_snd e1 (wf_gather h)

theorem wf_mmaOperands {i : MmaI} {g : Nat} {l : List LRec} (h : wf s) : wf (s.mmaOperands slot w i g l).2 := by
  induction l generalizing s with
  | nil => exact h
  | cons x t ih =>
    unfold State.mmaOperands
    dsimp only
    split <;> rename_i e1 <;> have h1 := wf_snd e1 (wf_operandRows h)
    · exact h1
    · split <;> rename_i e2 <;> exact wf_snd e2 (ih h1)

theorem wf_checkSums {o : PlatOp} (h : wf s) : wf (s.checkSums slot o) := by
  unfold State.checkSums
  dsimp only
  split
  all_goals
    split
    · exact wf_detectFor _ _ _ _ _ _ _ _ h
    · exact wf_ite (wf_ite (wf_detectFor _ _ _ _ _ _ _ _ (wf_pick h)) (wf_pick h)) h

theorem wf_mmaStep {o : PlatOp} {i : MmaI} {res : Option (Fin 8)} (h : wf s) :
    wf (s.mmaStep slot w o i res).2 := by
  unfold State.mmaStep
  split <;> rename_i e1 <;> exact wf_snd e1 (wf_mmaOperands h)

theorem wf_accLdStep {o : PlatOp} {i : AccLdI} (h : wf s) : wf (s.accLdStep slot w o i).2 := by
  unfold State.accLdStep
  dsimp only
  split <;> rename_i e1 <;> exact wf_snd e1 (wf_gather h)

theorem wf_platStep {o : PlatOp} (h : wf s) : wf (s.platStep slot w o).2 := by
  unfold State.platStep
  split
  · exact wf_mmaStep h
  · exact wf_mmaStep h
  · exact h
  · exact h
  · exact h
  · exact wf_accLdStep h
  · exact h
  · exact h

theorem wf_platStores {o : PlatOp} {l : List (Int × Nat)} (h : wf s) : wf (s.platStores slot w o l).2 := by
  unfold State.platStores
  split
  · dsimp only
    split <;> rename_i e1 <;> have h1 := wf_snd e1 (wf_engineParts h)
    · exact h1
    · exact wf_chooseLocal h1
  · exact h

theorem wf_platApply {o : PlatOp} {x : StepRes} {op : Option MemOp} (h : wf s) :
    wf (s.platApply slot o x op) := by
  unfold State.platApply
  dsimp only
  split
  · exact wf_stampStores (wf_modWarp h)
  · exact wf_ite (wf_stampStores (wf_modWarp h)) (wf_checkSums (wf_stampStores (wf_modWarp h)))

theorem wf_platPoison {o : PlatOp} {va : DWord} (h : wf s) : wf (s.platPoison slot o va) :=
  wf_detectFor _ _ _ _ _ _ _ _ (wf_modWarp h)

theorem wf_platFault {o : PlatOp} {f : SyncFault} (h : wf s) : wf (s.platFault slot o f) :=
  wf_queueAsync _ _ (wf_modWarp h)

theorem wf_platEcc {o : PlatOp} (h : wf s) : wf (s.platEcc slot w o) :=
  wf_ite (wf_ite h (wf_detectFor _ _ _ _ _ _ _ _ h)) h

theorem wf_platRun {o : PlatOp} (h : wf s) : wfOption (s.platRun slot w o) := by
  unfold State.platRun
  split
  · rename_i e1
    have h1 := wf_snd e1 (wf_platStep h)
    exact wf_platFault h1
  · rename_i e1
    have h1 := wf_snd e1 (wf_platStep h)
    exact wf_platPoison h1
  · trivial
  · rename_i e1
    have h1 := wf_snd e1 (wf_platStep h)
    split
    · exact wf_platEcc (wf_platApply h1)
    · split
      · rename_i e2
        have h2 := wf_snd e2 (wf_platStores h1)
        exact wf_platFault h2
      · rename_i e2
        have h2 := wf_snd e2 (wf_platStores h1)
        exact wf_platPoison h2
      · trivial
      · rename_i e2
        have h2 := wf_snd e2 (wf_platStores h1)
        exact wf_platEcc (wf_platApply h2)

theorem wf_execPlatenStep {q : Nat} {u : State} (h : wf s) (e : execPlatenStep q s = .next u) : wf u := by
  unfold execPlatenStep at e
  dsimp only at e
  split at e
  · cases e
  · rename_i e1
    cases e
    obtain ⟨x, -, hx⟩ := List.exists_of_findSome?_eq_some e1
    obtain ⟨t, ht, hxt⟩ := Option.map_eq_some_iff.mp hx
    have h1 : wf t := wf_some ht (wf_platRun (wf_settleQuad h))
    obtain ⟨-, rfl⟩ := Prod.mk.inj hxt
    exact h1

/-! ### Commands of the Feeders -/

theorem wf_tieCheck {scratch : Bool} {va : DWord} (h : wf s) : wf (s.tieCheck slot w scratch va).2 := by
  unfold State.tieCheck
  split
  · split <;> rename_i e1 <;> exact wf_snd e1 (wf_access h)
  · split
    · exact h
    · split <;> rename_i e1 <;> exact wf_snd e1 (wf_translate h)

theorem wf_wordCheck {u ctx n : Nat} {need : Need} {kind : Nat} {va : DWord} (h : wf s) :
    wf (s.wordCheck u ctx n need kind va).2 := by
  unfold State.wordCheck
  split
  · exact h
  · split <;> rename_i e1 <;> exact wf_snd e1 (wf_translate h)

theorem wf_wordCheck? {u ctx n : Nat} {need : Need} {kind : Nat} {a : Option DWord} (h : wf s) :
    wf (s.wordCheck? u ctx n need kind a).2 := by
  unfold State.wordCheck?
  split
  · exact h
  · exact wf_wordCheck h

theorem wf_withTie {i : CpyI} {c : Cmd} (h : wf s) : wf (s.withTie slot w r i c).2 := by
  unfold State.withTie
  split
  · exact h
  · dsimp only
    split <;> rename_i e2 <;> exact wf_snd e2 (wf_tieCheck h)

theorem wf_buildCopy {i : CpyI} {kind : CmdKind} (h : wf s) : wf (s.buildCopy sl w r act i kind).2 := by
  unfold State.buildCopy
  dsimp only
  split <;> rename_i e1 <;> have h1 := wf_snd e1 (wf_readRecords h)
  · exact h1
  · split
    · exact h1
    · split
      · exact h1
      · split <;> rename_i e2 <;> have h2 := wf_snd e2 (wf_withTie h1)
        · exact h2
        · split <;> rename_i e3 <;> have h3 := wf_snd e3 (wf_wordCheck? h2)
          · exact h3
          · split <;> rename_i e4 <;> exact wf_snd e4 (wf_wordCheck? h3)

theorem wf_buildImp {i : ImpI} (h : wf s) : wf (s.buildImp sl w r act i).2 := by
  unfold State.buildImp
  dsimp only
  split
  · exact h
  · split <;> rename_i e1 <;> have h1 := wf_snd e1 (wf_constWords h)
    · exact h1
    · exact h1
    · split
      · exact h1
      · split <;> rename_i e2 <;> exact wf_snd e2 (wf_wordCheck? h1)

theorem wf_acceptCmd {words : List DWord} {c : Cmd} (h : wf s) : wf (s.acceptCmd sl w r act words c) := by
  unfold State.acceptCmd
  exact wf_ite (wf_raise _ _ _ h) (wf_ite (wf_finishWith h) (wf_ite (wf_finish h) (wf_modWarp (wf_finish h))))

theorem wf_feederInstr {g : Guard} {words : Regs → List DWord}
    {build : State → Slot → Warp → Regs → Mask → Except MemStop Cmd × State} (h : wf s)
    (hb : ∀ s sl w r act, wf s → wf (build s sl w r act).2) : wfOut (s.feederInstr g words build) := by
  refine wf_onSlot h fun s1 sl w r h1 => ?_
  dsimp only
  split
  · exact wf_compareProof h1
  · split
    · exact wf_raise _ _ _ h1
    · split <;> rename_i e1 <;> have h2 := wf_snd e1 (hb _ _ _ _ _ h1)
      · exact wf_raise _ _ _ h2
      · exact wf_stayPoisoned h2
      · exact h2
      · exact wf_acceptCmd h2

theorem wf_execCpy {i : CpyI} (h : wf s) : wfOut (execCpy i s) :=
  wf_feederInstr h fun _ _ _ _ _ h1 => wf_buildCopy h1

theorem wf_execCpyRed {i : CpyRedI} (h : wf s) : wfOut (execCpyRed i s) :=
  wf_feederInstr h fun _ _ _ _ _ h1 => wf_buildCopy h1

theorem wf_execCpySig {i : CpySigI} (h : wf s) : wfOut (execCpySig i s) :=
  wf_feederInstr h fun _ _ _ _ _ h1 => wf_buildCopy h1

theorem wf_execImpStart {i : ImpI} (h : wf s) : wfOut (execImpStart i s) :=
  wf_feederInstr h fun _ _ _ _ _ h1 => wf_buildImp h1

theorem wf_failWarp {c : Cmd} {gang word : Nat} {laddr : DWord} (h : wf s) :
    wf (s.failWarp c slot gang word laddr) := by
  unfold State.failWarp
  split
  · exact h
  · exact wf_ite (wf_killGang _ _ h) (wf_queueFor h)

theorem wf_endWork {c : Cmd} {q work status word : Nat} {laddr : DWord} (h : wf s) :
    wf (s.endWork c q work status word laddr) := by
  unfold State.endWork
  exact wf_ite h (wf_ite (wf_haltQueue (wf_post _ h)) h)

theorem wf_writeToken {c : Cmd} {gang word : Nat} (h : wf s) : wf (s.writeToken c slot gang word) := by
  unfold State.writeToken
  dsimp only
  split
  · exact wf_modOwner h
  · exact wf_acquire (wf_modOwner h)

theorem wf_closeCmd {c : Cmd} {o : Owed} (h : wf s) : wf (s.closeCmd c o) := by
  unfold State.closeCmd
  split
  · exact wf_endWork h
  · exact wf_ite (wf_failWarp h) h

theorem wf_payRecord {c : Cmd} {o : Owed} (h : wf s) : wfOption (s.payRecord c o) :=
  wfOption_map (wf_writeCompletion_option h) fun _ ht => wf_ite ht (wf_closeCmd ht)

theorem wf_oweRecord {c : Cmd} {o : Owed} (h : wf s) : wf (s.oweRecord c o) := by
  unfold State.oweRecord
  split
  · rename_i e1
    have h1 := wf_some e1 (wf_payRecord h)
    exact h1
  · exact h

theorem wf_endCmd {c : Cmd} {status step bytes : Nat} {laddr : DWord} (h : wf s) :
    wf (s.endCmd c status step bytes laddr) := by
  unfold State.endCmd
  split
  · exact wf_oweRecord h
  · exact wf_oweRecord (wf_ite h (wf_writeToken h))

theorem wf_cmdPlaces {c : Cmd} {d : Side} {n : Need} {l : List Int} (h : wf s) :
    wf (s.cmdPlaces c d n l).2 := by
  unfold State.cmdPlaces
  split
  · exact wf_globalPlaces h
  · exact h
  · exact h

theorem wf_writeElem {forme : Nat} {d : Side} {ps : List Place} {x : Elem} (h : wf s) :
    wf (s.writeElem forme d ps x) :=
  wf_foldl _ (fun _ _ ha => wf_ite (wf_setPoison _ _ (wf_store _ _ _ _ ha)) (wf_store _ _ _ _ ha)) _ h

theorem wf_writeElems {forme : Nat} {d : Side} {ps : List Place} {l : List (Option Elem)} (h : wf s) :
    wf (s.writeElems forme d ps l) := by
  refine wf_foldl _ (fun a x ha => ?_) _ h
  split
  · exact ha
  · exact wf_writeElem ha

theorem wf_redOne {c : Cmd} {dd : Side} {dPresent : Bool} {ps : List Place} {x : Elem} {xPresent : Bool}
    (h : wf s) : wf (s.redOne c dd dPresent ps x xPresent).1 := by
  unfold State.redOne
  dsimp only
  split
  · exact h
  · exact wf_writeElem h

theorem wf_redBlock {c : Cmd} {dd : Side} {there : Bool} {l : List (List Place × Elem × Bool)} (h : wf s) :
    wf (s.redBlock c dd there l).1 :=
  List.foldlRecOn (motive := fun a : State × Bool => wf a.1) _ _ h fun _ ha _ _ => wf_redOne ha

theorem wf_reduce {c : Cmd} {dd : Side} {dp : List Place} {src : List Elem} (h : wf s) :
    wf (s.reduce c dd dp src) :=
  wf_foldl _ (fun _ _ ha => wf_ite (wf_redBlock ha) (wf_redBlock ha)) _ h

theorem wf_moveChunk {c : Cmd} (h : wf s) : wfExcept (s.moveChunk c).1 ∧ wf (s.moveChunk c).2 := by
  unfold State.moveChunk
  dsimp only
  split <;> rename_i e1 <;> have h1 := wf_snd e1 (wf_cmdPlaces h)
  · exact ⟨trivial, h1⟩
  · split <;> rename_i e2 <;> have h2 := wf_snd e2 (wf_cmdPlaces h1)
    · exact ⟨trivial, h2⟩
    · split
      · exact ⟨trivial, h2⟩
      · exact ⟨wf_ite (wf_writeElems h2) (wf_reduce h2), h2⟩

theorem wf_cmdError {c : Cmd} {cause : Nat} {va : DWord} (h : wf s) : wf (s.cmdError c cause va) := by
  unfold State.cmdError
  split
  · exact h
  · split
    · exact wf_queueFor h
    · split
      · exact h
      · exact wf_ite h (wf_ite (wf_detect _ _ h) (wf_modOwner h))

theorem wf_tiePlace {c : Cmd} {p : Place} (h : wf s) : wf (s.tiePlace c p).2 := by
  unfold State.tiePlace
  split
  · exact h
  · split <;> rename_i e1 <;> exact wf_snd e1 (wf_translate h)

theorem wf_tieError {c : Cmd} {cause : Nat} (h : wf s) : wf (s.tieError c cause) := wf_ite h (wf_cmdError h)

theorem wf_landAt {c : Cmd} {p : Place} {n : Nat} (h : wf s) : wf (s.landAt c p n) := by
  unfold State.landAt
  split
  · exact wf_cmdError h
  · split
    · exact wf_putBarrier _ _ _ _ h
    · exact wf_tieError h

theorem wf_addAt {forme : Nat} {p : Place} {x : Nat} (h : wf s) : wf (s.addAt forme p x).2 := by
  unfold State.addAt
  exact wf_ite_snd h (wf_store _ _ _ _ h)

theorem wf_givePost {c : Cmd} {why : PostFor} {va : DWord} {x : Nat} (h : wf s) : wf (s.givePost c why va x) :=
  wf_of_hbm rfl h

theorem wf_tieChunk {c : Cmd} {n : Nat} (h : wf s) : wfOption (s.tieChunk c n) := by
  unfold State.tieChunk
  split
  · exact h
  · split <;> rename_i e1
    · exact wf_tieError (wf_snd e1 (wf_tiePlace h))
    · trivial
    · have h1 := wf_snd e1 (wf_tiePlace h)
      exact wf_ite (wf_landAt h1) (wf_givePost h1)

theorem wf_addCounter {c : Cmd} {why : PostFor} {va x : DWord} {y : Option Added × State} (h : wf s)
    (e : s.addCounter c why va x = some y) : wf y.2 := by
  unfold State.addCounter at e
  split at e <;> rename_i e1 <;> have h1 := wf_snd e1 (wf_translate h)
  · cases e
    exact h1
  · split at e
    · cases e
    · split at e
      · split at e
        rename_i e2
        have h2 := wf_snd e2 (wf_addAt h1)
        cases e
        exact h2
      · cases e
        exact wf_givePost h1

theorem wf_signalled {c : Cmd} {va : DWord} {a : Added} (h : wf s) : wf (s.signalled c va a) := by
  unfold State.signalled
  split
  · exact h
  · exact wf_cmdError h
  · exact wf_cmdError h
  · exact wf_cmdError h

theorem wf_finishCopy {c : Cmd} (h : wf s) : wfOption (s.finishCopy c) := by
  unfold State.finishCopy
  split
  · trivial
  · split
    · split
      · exact wf_endCmd h
      · refine wfOption_of fun t e => ?_
        obtain ⟨y, hy, rfl⟩ := Option.map_eq_some_iff.mp e
        have h1 := wf_addCounter h hy
        split
        · exact h1
        · exact wf_endCmd (wf_signalled h1)
    · exact wf_endCmd h

theorem wf_failCopy {c : Cmd} {status : Nat} {va : DWord} (h : wf s) : wfOption (s.failCopy c status va) := by
  unfold State.failCopy
  exact wfOption_ite (wf_endCmd h) trivial

theorem wf_runChunk {c : Cmd} (h : wf s) : wfOption (s.runChunk c) := by
  unfold State.runChunk
  dsimp only
  split
  · exact wf_finishCopy h
  · split <;> rename_i e1
    · trivial
    · exact wf_failCopy (wf_snd e1 (wf_moveChunk h).2)
    · exact wf_failCopy (wf_snd e1 (wf_moveChunk h).2)
    · exact wfOption_map (wf_tieChunk (wf_ok e1 (wf_moveChunk h).1)) fun _ ht =>
        wf_ite ht (wf_getD (wf_finishCopy ht) ht)

/-! ### Imposition programs -/

theorem wf_peerPort {c : Cmd} {d : Desc} {i : Nat} (h : wf s) : wf (s.peerPort c d i).2 := by
  unfold State.peerPort
  dsimp only
  split <;> rename_i e1 <;> have h1 := wf_snd e1 (wf_readGlobal h)
  · exact h1
  · exact h1
  · split <;> exact h1

theorem wf_fetchStep {c : Cmd} {p : ImpState} (h : wf s) : wf (s.fetchStep c p).2 := by
  unfold State.fetchStep
  split
  · exact h
  · exact h
  · split <;> rename_i e1 <;> exact wf_snd e1 (wf_readGlobal h)

theorem wf_sendAborts {c : Cmd} {p : ImpState} {status : Nat} (h : wf s) : wf (s.sendAborts c p status) := by
  unfold State.sendAborts
  split
  · exact h
  · split
    · exact wf_ite (wf_ite h h) (wf_ite h h)
    · extract_lets one s1
      have hone {a : State} (i : Nat) (ha : wf a) : wf (one a i) := by
        unfold one
        split <;> rename_i e1 <;> have h1 := wf_snd e1 (wf_peerPort ha) <;> exact h1
      have h1 : wf s1 := wf_ite (hone _ h) h
      exact wf_ite (hone _ h1) h1

theorem wf_takeBack {c : Cmd} {d : Desc} {e : InStep} (h : wf s) : wf (s.takeBack c d e) := by
  unfold State.takeBack
  split
  · exact h
  · split <;> exact h

theorem wf_endImp {c : Cmd} {p : ImpState} {status step : Nat} {laddr : DWord} (h : wf s) :
    wf (s.endImp c p status step laddr) := by
  unfold State.endImp
  split
  · exact wf_endCmd (wf_foldl _ (fun _ _ ha => wf_takeBack ha) _ h)
  · split <;> rename_i e1 <;> have h1 := wf_snd e1 (wf_fetchStep h)
    · exact wf_endCmd (wf_foldl _ (fun _ _ ha => wf_takeBack ha) _ (wf_sendAborts h1))
    · exact wf_endCmd (wf_foldl _ (fun _ _ ha => wf_takeBack ha) _ h1)

theorem wf_failImp {c : Cmd} {p : ImpState} {status : Nat} {laddr : DWord} (h : wf s) :
    wf (s.failImp c p status laddr) :=
  wf_endImp h

theorem wf_impGoto {c : Cmd} {p : ImpState} {n : Nat} (h : wf s) : wf (s.impGoto c p n) :=
  wf_ite (wf_endImp h) h

theorem wf_impRead {c : Cmd} {b : Nat} {a : Int} {t n : Nat} (h : wf s) : wf (s.impRead c b a t n).2 := by
  unfold State.impRead
  split <;> rename_i e1 <;> exact wf_snd e1 (wf_globalPlaces h)

theorem wf_impWrite {c : Cmd} {b : Nat} {a : Int} {t : Nat} {l : List (Option Elem)} (h : wf s) :
    wfExcept (s.impWrite c b a t l).1 ∧ wf (s.impWrite c b a t l).2 := by
  unfold State.impWrite
  split <;> rename_i e1 <;> have h1 := wf_snd e1 (wf_globalPlaces h)
  · exact ⟨trivial, h1⟩
  · split
    · exact ⟨trivial, h1⟩
    · exact ⟨wf_writeElems h1, h1⟩

theorem wf_impStop {c : Cmd} {p : ImpState} {a : MemStop} (h : wf s) : wfOption (s.impStop c p a) := by
  unfold State.impStop
  split
  · trivial
  · exact wf_failImp h
  · exact wf_failImp h

theorem wf_writeSide {c : Cmd} {f : Step} {x : Route} {t : Nat} {l : List (Option Elem)} (h : wf s) :
    wfExcept (s.writeSide c f x t l).1 ∧ wf (s.writeSide c f x t l).2 := by
  unfold State.writeSide
  split
  · exact ⟨h, h⟩
  · exact wf_impWrite h

theorem wf_readSide {c : Cmd} {f : Step} {r : Route} {t n : Nat} (h : wf s) : wf (s.readSide c f r t n).2 := by
  unfold State.readSide
  exact wf_ite_snd h (wf_impRead h)

theorem wf_chunkMove {c : Cmd} {f : Step} {x : Route} {k : Nat} {inn : List Elem} (h : wf s) :
    wfExcept ((s.chunkMove c f x k inn).1.map Prod.snd) ∧ wf (s.chunkMove c f x k inn).2 := by
  unfold State.chunkMove
  dsimp only
  split <;> rename_i e1 <;> have h1 := wf_snd e1 (wf_readSide h)
  · exact ⟨trivial, h1⟩
  · split <;> rename_i e2 <;> have h2 := wf_snd e2 (wf_writeSide h1).2
    · exact ⟨trivial, h2⟩
    · exact ⟨wf_ok e2 (wf_writeSide h1).1, h2⟩

theorem wf_moved {c : Cmd} {f : Step} {x : Route} {k : Nat} {inn out : List Elem} {t u : State} (h : wf s)
    (e : s.chunkMove c f x k inn = (.ok (out, t), u)) : wf t := by
  have h1 := (wf_chunkMove (c := c) (f := f) (x := x) (k := k) (inn := inn) h).1
  rw [e] at h1
  exact h1

theorem wf_usedUp {c : Cmd} {p : ImpState} {f : Step} {r : Route} (h : wf s) : wf (s.usedUp c p f r) := by
  unfold State.usedUp
  split
  · exact h
  · split <;> exact h

theorem wf_chunkDone {c : Cmd} {p : ImpState} {f : Step} {r : Route} {k : Nat} (h : wf s) :
    wf (s.chunkDone c p f r k) :=
  wf_ite h (wf_ite (wf_impGoto (wf_usedUp h)) (wf_impGoto h))

theorem wf_newIn {c : Cmd} {d : Desc} {step raw : Nat} {ctr : List Nat} {f : Step} {r : Route} (h : wf s) :
    wf (s.newIn c d step raw ctr f r).2 := by
  unfold State.newIn
  split
  · exact h
  · split
    rename_i e1
    have h1 := wf_snd e1 h
    exact h1

theorem wf_giveCredit {c : Cmd} {d : Desc} {e : InStep} {f : Step} {r : Route} (h : wf s) :
    wf (s.giveCredit c d e f r).2 := by
  unfold State.giveCredit
  split
  · exact h
  · split <;> rename_i e1 <;> have h1 := wf_snd e1 (wf_peerPort h) <;> exact h1

theorem wf_creditNow {c : Cmd} {p : ImpState} {f : Step} {r : Route} (h : wf s) :
    wfOption (s.creditNow c p f r) := by
  unfold State.creditNow
  split
  · trivial
  · dsimp only
    split
    · split
      · split <;> rename_i e2 <;> have h2 := wf_snd e2 (wf_giveCredit h)
        · exact wf_failImp h2
        · exact h2
      · trivial
    · split <;> rename_i e1 <;> have h1 := wf_snd e1 (wf_giveCredit (wf_newIn (wf_foldl _ (fun _ _ ha =>
      wf_takeBack ha) _ h)))
      · exact wf_failImp h1
      · exact h1

theorem wf_creditAhead {c : Cmd} {p : ImpState} {f : Step} (h : wf s) : wfOption (s.creditAhead c p f) := by
  unfold State.creditAhead
  split
  · trivial
  · refine wfOption_bind fun _ => wfOption_bind fun _ => ?_
    dsimp only
    split <;> rename_i e1
    · trivial
    · have h1 := wf_snd e1 (wf_giveCredit (wf_newIn h))
      exact h1

theorem wf_mismatch {c : Cmd} {p : ImpState} {x : InCredit} (h : wf s) : wfOption (s.mismatch c p x) :=
  wfOption_bind fun _ => wfOption_bind fun _ => wfOption_ite trivial (wf_failImp (wf_failImp h))

theorem wf_localIn {c : Cmd} {p : ImpState} {f : Step} {x : Route} {k : Nat} {t : State} (h : wf s)
    (e : s.localIn c p f x k = .ends t) : wf t := by
  unfold State.localIn at e
  split at e
  · cases e
  · split at e
    · cases e
    · split at e
      · cases e
      · split at e
        · cases e
          exact wf_failImp h
        · split at e <;> cases e

theorem wf_localOut {c : Cmd} {p : ImpState} {f : Step} {x : Route} {k : Nat} {t : State} (h : wf s)
    (e : s.localOut c p f x k = .ends t) : wf t := by
  unfold State.localOut at e
  split at e
  · cases e
  · dsimp only at e
    split at e
    · cases e
      exact wf_failImp h
    · split at e
      · cases e
      · split at e
        · split at e
          · cases e
          · rename_i e1
            cases e
            exact wf_some e1 (wf_mismatch h)
        · split at e <;> cases e

theorem wf_localChunk {c : Cmd} {p : ImpState} {f : Step} {x : Route} (h : wf s) :
    wfOption (s.localChunk c p f x) := by
  unfold State.localChunk
  dsimp only
  split
  · rename_i e1
    exact wf_localOut h e1
  · rename_i e1 _
    exact wf_localIn h e1
  · trivial
  · trivial
  · split <;> rename_i e1
    · exact wf_impStop (wf_snd e1 (wf_chunkMove h).2)
    · have h1 := wf_moved h e1
      exact wfOption_ite (wf_chunkDone h1) (wf_chunkDone h1)

theorem wf_portsOf {c : Cmd} {d : Desc} {f : Step} {r : Route} (h : wf s) : wf (s.portsOf c d f r).2 := by
  unfold State.portsOf
  split <;> rename_i e1 <;> have h1 := wf_snd e1 (wf_ite_snd (wf_peerPort h) h)
  · exact h1
  · split <;> rename_i e2 <;> exact wf_snd e2 (wf_ite_snd (wf_peerPort h1) h1)

theorem wf_sendChunk {c : Cmd} {p : ImpState} {f : Step} {r : Route} {port k pstep : Nat} {l : List Elem}
    (h : wf s) : wf (s.sendChunk c p f r port k pstep l) :=
  wf_ite (wf_failImp (wf_post _ h)) (wf_chunkDone h)

theorem wf_wireChunk {c : Cmd} {p : ImpState} {f : Step} {x : Route} (h : wf s) :
    wfOption (s.wireChunk c p f x) := by
  unfold State.wireChunk
  dsimp only
  split
  · exact wf_failImp h
  · split
    · exact wf_failImp h
    · split <;> rename_i e1 <;> have h1 := wf_snd e1 (wf_portsOf h)
      · exact wf_failImp h1
      · split
        · trivial
        · split <;> rename_i e2
          · exact wf_impStop (wf_snd e2 (wf_chunkMove h1).2)
          · have h2 := wf_moved h1 e2
            split
            · exact wf_sendChunk h2
            · exact wf_chunkDone h2

theorem wf_impChunk {c : Cmd} {p : ImpState} (h : wf s) : wfOption (s.impChunk c p) := by
  unfold State.impChunk
  split
  · trivial
  · split
    · split <;> rename_i e1
      · exact wf_impStop (wf_snd e1 (wf_chunkMove h).2)
      · exact wf_chunkDone (wf_moved h e1)
    · exact wfOption_ite trivial (wfOption_ite (wf_localChunk h) (wf_wireChunk h))

theorem wf_cmdChunk {c : Cmd} (h : wf s) : wfOption (s.cmdChunk c) := by
  unfold State.cmdChunk
  split
  · trivial
  · split
    · exact wf_runChunk h
    · split
      · trivial
      · rename_i e2
        have h2 := wf_snd e2 (wf_fetchStep h)
        exact wf_impChunk h2

theorem wf_serve {f : Nat} {x : Cmd × State} (h : wf s) (e : s.serve f = some x) : wf x.2 := by
  unfold State.serve at e
  split at e
  · cases e
  · obtain ⟨y, hy, rfl⟩ := Option.map_eq_some_iff.mp e
    obtain ⟨c, -, hc⟩ := List.mem_filterMap.mp (List.mem_of_find?_eq_some hy)
    obtain ⟨t, ht, rfl⟩ := Option.map_eq_some_iff.mp hc
    have h1 : wf t := wf_some ht (wf_cmdChunk h)
    exact h1

theorem wf_payOwed {f : Nat} (h : wf s) : wfOption (s.payOwed f) :=
  wfOption_findSome fun _ => wfOption_ite (wfOption_bind fun _ => wf_payRecord h) trivial

theorem wf_execFeederChunk {f : Nat} (h : wf s) : wfOut (execFeederChunk f s) := by
  unfold execFeederChunk
  split
  · rename_i e1
    exact wf_some e1 (wf_payOwed h)
  · split
    · exact wf_endCmd h
    · split
      · trivial
      · rename_i e1
        exact wfOut_ite (wf_serve h e1) trivial

theorem wf_onStep {id opc : Nat} {f : State → Cmd → ImpState → Step → Route → Out} (h : wf s)
    (hf : ∀ s c p x y, wf s → wfOut (f s c p x y)) : wfOut (s.onStep id opc f) := by
  unfold State.onStep
  split
  · trivial
  · split
    · trivial
    · split
      · trivial
      · split
        · exact wf_failImp h
        · split
          · trivial
          · split <;> rename_i e1 <;> have h1 := wf_snd e1 (wf_fetchStep h)
            · exact wf_failImp h1
            · split
              · exact wf_failImp h1
              · exact wfOut_ite (hf _ _ _ _ _ h1) trivial

theorem wf_moveStep {id opc : Nat} (h : wf s) : wfOut (s.moveStep id opc) := by
  refine wf_onStep h fun s1 c p f x h1 => ?_
  split <;> rename_i e1
  · exact wf_some e1 (wf_creditNow h1)
  · split <;> rename_i e2
    · exact wf_serve h1 (Option.filter_eq_some_iff.mp e2).1
    · split <;> rename_i e3
      · exact wf_some e3 (wfOption_ite (wf_creditAhead h1) trivial)
      · trivial

theorem wf_execStepSend {id : Nat} (h : wf s) : wfOut (execStepSend id s) := wf_moveStep h

theorem wf_execStepRecv {id : Nat} (h : wf s) : wfOut (execStepRecv id s) := wf_moveStep h

theorem wf_execStepRrs {id : Nat} (h : wf s) : wfOut (execStepRrs id s) := wf_moveStep h

theorem wf_execStepRrc {id : Nat} (h : wf s) : wfOut (execStepRrc id s) := wf_moveStep h

theorem wf_execStepCopy {id : Nat} (h : wf s) : wfOut (execStepCopy id s) := wf_moveStep h

theorem wf_waitWord {c : Cmd} {p : ImpState} {f : Step} {x : Route} (h : wf s) : wf (s.waitWord c p f x).2 := by
  unfold State.waitWord
  dsimp only
  split <;> rename_i e1 <;> have h1 := wf_snd e1 (wf_translate h)
  · exact h1
  · exact h1
  · split <;> exact h1

theorem wf_waitWord_error {c : Cmd} {p : ImpState} {f : Step} {x : Route} {t u : State} (h : wf s)
    (e : s.waitWord c p f x = (.error t, u)) : wf t := by
  unfold State.waitWord at e
  dsimp only at e
  split at e <;> rename_i e1 <;> have h1 := wf_snd e1 (wf_translate h)
  · cases e
    exact wf_failImp h1
  · cases e
    exact wf_failImp h1
  · split at e
    · cases e
      exact wf_failImp h1
    · cases e

theorem wf_execStepWait {id : Nat} (h : wf s) : wfOut (execStepWait id s) := by
  refine wf_onStep h fun s1 c p f x h1 => ?_
  split
  · trivial
  · split <;> rename_i e1
    · exact wf_waitWord_error h1 e1
    · exact wf_impGoto (wf_snd e1 (wf_waitWord h1))
    · have h2 := wf_snd e1 (wf_waitWord h1)
      exact h2

theorem wf_execImpositionWaitMet {id : Nat} (h : wf s) : wfOut (execImpositionWaitMet id s) := by
  refine wf_onStep h fun s1 c p f x h1 => ?_
  split
  · trivial
  · split <;> rename_i e1
    · exact wf_waitWord_error h1 e1
    · exact wf_impGoto (wf_snd e1 (wf_waitWord h1))
    · trivial

theorem wf_signalStep {c : Cmd} {p : ImpState} {va : DWord} {a : Added} (h : wf s) :
    wf (s.signalStep c p va a) := by
  unfold State.signalStep
  split
  · exact wf_impGoto h
  · exact wf_impGoto (wf_cmdError h)
  · exact wf_failImp h
  · exact wf_failImp h

theorem wf_execStepSignal {id : Nat} (h : wf s) : wfOut (execStepSignal id s) := by
  refine wf_onStep h fun s1 c p f x h1 => ?_
  dsimp only
  split
  · trivial
  · rename_i e1
    exact wf_addCounter h1 e1
  · rename_i e1
    exact wf_signalStep (wf_addCounter h1 e1)

theorem wf_loopTo {c : Cmd} {p : ImpState} {a : Option Spot} (h : wf s) : wf (s.loopTo c p a) := by
  unfold State.loopTo
  split
  · exact wf_failImp h
  · exact wf_impGoto h

theorem wf_execStepLoop {id : Nat} (h : wf s) : wfOut (execStepLoop id s) :=
  wf_onStep h fun _ _ _ _ _ h1 => wf_loopTo h1

theorem wf_execStepEndloop {id : Nat} (h : wf s) : wfOut (execStepEndloop id s) :=
  wf_onStep h fun _ _ _ _ _ h1 => wf_loopTo h1

theorem wf_landPost {c : Cmd} {x : Post} {w : Except NoTrans Place} (h : wf s) : wf (s.landPost c x w) := by
  unfold State.landPost
  dsimp only
  split
  · split
    · exact wf_tieError h
    · exact wf_tieError (wf_ite_snd (wf_landAt h) (wf_addAt h))
  · split
    · exact wf_tieError h
    · exact wf_tieError (wf_ite_snd (wf_landAt h) (wf_addAt h))
  · split
    · exact h
    · split <;> exact wf_landAt h
  · split
    · exact wf_signalled h
    · exact wf_signalled (wf_ite_snd (wf_landAt h) (wf_addAt h))
  · split
    · exact wf_signalStep h
    · exact wf_signalStep (wf_ite_snd (wf_landAt h) (wf_addAt h))
  · split
    · exact h
    · split
      · exact wf_landAt h
      · exact wf_addAt h

theorem wf_postStep {id : Nat} (h : wf s) : wfOut (s.postStep id) := by
  unfold State.postStep
  split
  · trivial
  · split
    · trivial
    · extract_lets key
      split
      · trivial
      · rename_i s1 _ _
        have h1 : wf s1 := by
          unfold s1
          clear_value key
          split <;> exact h
        split <;> rename_i e2 <;> have h2 := wf_snd e2 (wf_translate h1)
        · exact wf_landPost h2
        · split
          · exact wfOut_ite h2 trivial
          · exact wfOut_ite (wf_landPost h2) (wfOut_ite h2 (wfOut_ite h2 trivial))

theorem wf_execAtomicPerformed {op piece : Nat} (h : wf s) : wfOut (execAtomicPerformed slot op piece s) := by
  unfold execAtomicPerformed
  split
  · exact wf_postStep h
  · exact wf_warpAtomicPerformed h

theorem wf_notify {port : Nat} {src : Sender} (h : wf s) : wf (s.notify port src) := wf_ite h h

theorem wf_execCredit {port : Nat} {src : Sender} {m : List Byte} (h : wf s) :
    wfOut (execCredit port src m s) := by
  unfold execCredit
  have h1 : wf (s.notify port src) := wf_notify h
  refine wf_getD (wfOption_bind fun _ => wfOption_bind fun _ => ?_) h1
  cases ImpState.credit _ _ with
  | none => trivial
  | some _ => exact h1

theorem wf_execChunk {port : Nat} {src : Sender} {m : ImmWrite} {s0 : State} (h : wf s0) :
    wfOut (execChunk port src m s0) := by
  unfold execChunk
  dsimp only
  split
  · exact wf_notify h
  · split
    · exact wf_notify h
    · split <;> exact wf_notify h

theorem wf_execAbort {port : Nat} {src : Sender} {m : List Byte} {s0 : State} (h : wf s0) :
    wfOut (execAbort port src m s0) := by
  unfold execAbort
  dsimp only
  split <;> exact wf_notify h

theorem wf_execTransferTimeout {id : Nat} (h : wf s) : wfOut (execTransferTimeout id s) := by
  unfold execTransferTimeout
  split
  · trivial
  · split
    · trivial
    · split
      · exact wfOut_ite (wf_failImp h) trivial
      · trivial

theorem wf_execLinkFailure {id : Nat} (h : wf s) : wfOut (execLinkFailure id s) := by
  unfold execLinkFailure
  split
  · exact h
  · split
    · exact h
    · split
      · exact wf_ite (wf_failImp h) h
      · exact h

/-! ### Preemption -/

theorem wf_execPreemptionRequest {gang : Nat} (h : wf s) : wfOut (execPreemptionRequest gang s) := by
  unfold execPreemptionRequest
  split
  · trivial
  · split
    · exact h
    · split
      · trivial
      · exact wfOut_ite h trivial

theorem wf_stopWarp {gang : Nat} (h : wf s) : wfOption (s.stopWarp gang slot) := by
  unfold State.stopWarp
  dsimp only
  split
  · trivial
  · split
    · split
      · exact wf_modWarp (wf_flushResults _ (wf_ite (wf_modWarp (wf_settle h)) (wf_settle h)))
      · exact wf_modWarp (wf_flushResults _ (wf_settle h))
    · trivial

theorem wf_stopCmd {gang id : Nat} (h : wf s) : wfOption (s.stopCmd gang id) := by
  unfold State.stopCmd
  split
  · trivial
  · exact wfOption_ite trivial (wf_oweRecord h)

theorem wf_execEngineStop {gang : Nat} {e : Engine} (h : wf s) : wfOut (execEngineStop gang e s) := by
  unfold execEngineStop
  split
  · trivial
  · split
    · trivial
    · dsimp only
      split
      · trivial
      · rename_i s1 e1
        have h1 : wf s1 := by
          refine wf_some e1 ?_
          split
          · exact wf_stopWarp h
          · exact wfOption_ite h trivial
          · exact wf_stopCmd h
          · exact h
        exact h1

theorem wf_dropWarp {k : Nat} (h : wf s) : wf (s.dropWarp k) := h

theorem wf_execPreemptionComplete {gang : Nat} {s0 : State} (h : wf s0) :
    wfOut (execPreemptionComplete gang s0) := by
  unfold execPreemptionComplete
  have h1 : wf ((s0.gangSlots gang).foldl State.settle s0) := wf_foldl _ (fun _ _ ha => wf_settle ha) _ h
  have h2 (l : List (Nat × Warp)) :
      wf (l.foldl (fun a x => a.dropWarp x.1) ((s0.gangSlots gang).foldl State.settle s0)) :=
    wf_foldl _ (fun _ _ ha => wf_dropWarp ha) _ h1
  dsimp only
  split
  · trivial
  · exact wfOut_ite (h2 _) trivial

theorem wf_resumeWarp (h : wf s) : wf (s.resumeWarp slot w) := wf_reinject h

theorem wf_execResumption {gang : Nat} (h : wf s) : wfOut (execResumption gang s) := by
  unfold execResumption
  split
  · trivial
  · exact wfOut_ite trivial (wf_foldl _ (fun _ _ ha => wf_resumeWarp ha) _ (wf_modQueue h))

theorem wf_execTimeSliceExpiry {gang : Nat} (h : wf s) : wfOut (execTimeSliceExpiry gang s) := by
  unfold execTimeSliceExpiry
  split
  · trivial
  · dsimp only
    split
    · trivial
    · split
      · trivial
      · exact wfOut_ite h trivial

theorem wf_execSchedulerRebuild {chase : Nat} {fatal : Bool} (h : wf s) :
    wfOut (execSchedulerRebuild chase fatal s) := by
  unfold execSchedulerRebuild
  split
  · trivial
  · split
    · exact wf_foldl _ (fun _ _ ha => wf_ite (wf_killTables ha) ha) _ h
    · split
      rename_i e1
      have h1 := wf_third e1 h
      exact h1

/-! ### Queues and packets -/

theorem wf_cpRead {ctx : Nat} {va : DWord} {n : Nat} (h : wf s) : wf (s.cpRead ctx va n).2 := by
  unfold State.cpRead
  split <;> rename_i e1 <;> exact wf_snd e1 (wf_readGlobal h)

theorem wf_header {q : Queue} (h : wf s) : wf (s.header q).2 := wf_cpRead h

theorem wf_packetHalt {no cause : Nat} {laddr w0 : DWord} (h : wf s) : wf (s.packetHalt no cause laddr w0) := by
  unfold State.packetHalt
  split
  · exact h
  · refine wf_modQueue (wf_post _ ?_)
    split <;> exact h

theorem wf_execTail {no : Nat} {v : DWord} (h : wf s) : wfOut (execTail no v s) := by
  unfold execTail
  split
  · trivial
  · dsimp only
    split
    · exact wf_modQueue h
    · exact wf_packetHalt h

theorem wf_execResume {no : Nat} (h : wf s) : wfOut (execResume no s) := by
  unfold execResume
  split
  · trivial
  · split
    · exact wf_modQueue h
    · exact h

theorem wf_execReset {no : Nat} (h : wf s) : wfOut (execReset no s) := by
  unfold execReset
  split
  · trivial
  · split
    · exact wf_modQueue h
    · exact h

theorem wf_accept {no len : Nat} (h : wf s) : wf (s.accept no len) := wf_modQueue h

theorem wf_packet {q : Queue} {hdr : Nat} (h : wf s) : wf (s.packet q hdr).2 := by
  unfold State.packet
  dsimp only
  split
  · exact h
  · split
    · exact h
    · split
      · exact h
      · split <;> rename_i e1 <;> exact wf_snd e1 (wf_cpRead h)

/-- The state of a packet's parse that succeeds has its memory in canonical form. -/
def wfParsed : Option Parsed → Prop
  | some (.ok t) => wf t
  | _ => True

theorem wfParsed_ite {c : Prop} [Decidable c] {x y : Option Parsed} (hx : wfParsed x) (hy : wfParsed y) :
    wfParsed (if c then x else y) := by
  split
  · exact hx
  · exact hy

theorem wf_parsed {x : Option Parsed} {t : State} (e : x = some (.ok t)) (h : wfParsed x) : wf t := by
  subst e; exact h

theorem wf_onPacket {no : Nat} {mine : Nat → Bool} {f : State → Packet → Option Parsed} (h : wf s)
    (hf : ∀ s p, wf s → wfParsed (f s p)) : wfOut (s.onPacket no mine f) := by
  unfold State.onPacket
  split
  · trivial
  · split
    · trivial
    · dsimp only
      split <;> rename_i e1 <;> have h1 := wf_snd e1 (wf_header h)
      · exact wf_packetHalt h1
      · split
        · trivial
        · split <;> rename_i e2 <;> have h2 := wf_snd e2 (wf_packet h1)
          · exact wf_packetHalt h2
          · split
            · trivial
            · exact wf_packetHalt h2
            · rename_i e3
              exact wf_parsed e3 (hf _ _ h2)

theorem wf_cpCheck {ctx : Nat} {va : DWord} {align : Nat} {n : Need} (h : wf s) :
    wf (s.cpCheck ctx va align n).2 := by
  unfold State.cpCheck
  split
  · exact h
  · split
    · exact h
    · split <;> rename_i e1 <;> exact wf_snd e1 (wf_translate h)

theorem wf_cpAdd {ctx : Nat} {va x : DWord} {y : Added × State} (h : wf s) (e : s.cpAdd ctx va x = some y) :
    wf y.2 := by
  unfold State.cpAdd at e
  split at e <;> rename_i e1 <;> have h1 := wf_snd e1 (wf_translate h)
  · cases e
    exact h1
  · split at e
    · cases e
    · split at e
      · cases e
        exact h1
      · cases e
        exact wf_writeLe _ _ _ h1

theorem wf_execSkip {no : Nat} (h : wf s) : wfOut (execSkip no s) := wf_onPacket h fun _ _ h1 => wf_accept h1

theorem wf_execUnknownPacket {no : Nat} (h : wf s) : wfOut (execUnknownPacket no s) := by
  unfold execUnknownPacket
  split
  · trivial
  · split
    · trivial
    · split <;> rename_i e1
      · trivial
      · have h1 := wf_snd e1 (wf_header h)
        exact wfOut_ite trivial (wf_packetHalt h1)

theorem wf_execPacketSignal {no : Nat} (h : wf s) : wfOut (execPacketSignal no s) := by
  refine wf_onPacket h fun s1 p h1 => wfParsed_ite trivial (wfParsed_ite trivial ?_)
  split
  · trivial
  · rename_i e1
    exact wf_accept (wf_cpAdd h1 e1)
  · trivial
  · trivial
  · trivial

theorem wf_execPacketFence {no : Nat} (h : wf s) : wfOut (execPacketFence no s) :=
  wf_onPacket h fun _ _ h1 => wfParsed_ite trivial (wf_modQueue h1)

theorem wf_pollFence {ctx : Nat} {l : List (DWord × DWord)} (h : wf s) : wf (s.pollFence ctx l).2 := by
  induction l generalizing s with
  | nil => exact h
  | cons c t ih =>
    unfold State.pollFence
    split <;> rename_i e1 <;> have h1 := wf_snd e1 (wf_cpRead h)
    · exact h1
    · split <;> rename_i e2 <;> exact wf_snd e2 (ih h1)

theorem wf_execFenceThresholdMet {no : Nat} (h : wf s) : wfOut (execFenceThresholdMet no s) := by
  unfold execFenceThresholdMet
  split
  · trivial
  · split
    · split
      · trivial
      · split <;> rename_i e3 <;> have h3 := wf_snd e3 (wf_pollFence h)
        · exact wf_packetHalt h3
        · exact wf_accept h3
        · exact wfOut_ite trivial (wf_modQueue h3)
    · trivial

theorem wf_execLaunch {no : Nat} (h : wf s) : wfOut (execLaunch no s) := by
  refine wf_onPacket h fun s1 p h1 => wfParsed_ite trivial ?_
  split
  · trivial
  · rename_i e2
    have h2 := wf_snd e2 (wf_cpRead h1)
    refine wfParsed_ite trivial ?_
    split
    · trivial
    · split
      · trivial
      · rename_i e3
        have h3 := wf_snd e3 (wf_cpCheck h2)
        exact wf_accept h3

theorem wf_startCmd {p : Packet} {no rcb feeder : Nat} {scope : Scope} {cr done dval : DWord} {fill : Cmd → Cmd}
    (h : wf s) : wfParsed (s.startCmd p no rcb feeder scope cr done dval fill) := by
  unfold State.startCmd
  split
  · trivial
  · rename_i e1
    have h1 := wf_snd e1 (wf_cpCheck h)
    split
    · trivial
    · rename_i e2
      have h2 := wf_snd e2 (wf_cpCheck h1)
      exact wf_accept h2

theorem wf_packetRecord {p : Packet} {va : DWord} (h : wf s) : wf (s.packetRecord p va).2 := by
  unfold State.packetRecord
  split <;> rename_i e1 <;> exact wf_snd e1 (wf_cpRead h)

theorem wf_copyFeeder {rcb f : Nat} (h : wf s) : wf (s.copyFeeder rcb f).2 := by
  unfold State.copyFeeder
  exact wf_ite_snd (wf_pick h) h

theorem wf_execPacketCopy {no : Nat} (h : wf s) : wfOut (execPacketCopy no s) := by
  refine wf_onPacket h fun s1 p h1 => ?_
  split
  · refine wfParsed_ite trivial ?_
    split
    · trivial
    · rename_i e2
      have h2 := wf_snd e2 (wf_copyFeeder h1)
      split
      · trivial
      · rename_i e3
        have h3 := wf_snd e3 (wf_packetRecord h2)
        split
        · trivial
        · rename_i e4
          exact wfParsed_ite trivial (wf_startCmd (wf_snd e4 (wf_packetRecord h3)))
  · trivial

theorem wf_execCollective {no : Nat} (h : wf s) : wfOut (execCollective no s) := by
  refine wf_onPacket h fun s1 p h1 => ?_
  split
  · refine wfParsed_ite trivial ?_
    split
    · trivial
    · rename_i e2
      exact wfParsed_ite trivial (wf_startCmd (wf_snd e2 (wf_cpRead h1)))
  · trivial

theorem wf_execRcbRegister {no : Nat} (h : wf s) : wfOut (execRcbRegister no s) := by
  refine wf_onPacket h fun s1 p h1 => wfParsed_ite trivial (wfParsed_ite trivial ?_)
  split
  · trivial
  · rename_i e1
    have h2 := wf_snd e1 (wf_cpRead h1)
    exact wfParsed_ite trivial (wf_accept h2)

theorem wf_unregister {no rcb : Nat} (h : wf s) : wf (s.unregister no rcb) :=
  wf_ite (wf_modQueue h) (wf_accept h)

theorem wf_execRcbUnregister {no : Nat} (h : wf s) : wfOut (execRcbUnregister no s) := by
  unfold execRcbUnregister
  split
  · exact wfOut_ite trivial (wf_unregister h)
  · refine wf_onPacket h fun s1 p h1 => wfParsed_ite trivial (wfParsed_ite trivial ?_)
    split
    · trivial
    · exact wfParsed_ite trivial (wf_unregister h1)

theorem wf_doneFailed {w : Work} {cause : Nat} {w0 w1 : DWord} (h : wf s) : wf (s.doneFailed w cause w0 w1) :=
  wf_haltQueue (wf_post _ h)

theorem wf_execWorkCompletionDone {id : Nat} (h : wf s) : wfOut (execWorkCompletionDone id s) := by
  unfold execWorkCompletionDone
  split
  · trivial
  · split
    · trivial
    · dsimp only
      split
      · exact h
      · split
        · trivial
        all_goals
          rename_i e1
          have h1 := wf_cpAdd (s := { s with works := s.works.filter fun x => x.id != id }) h e1
        · exact h1
        · exact wf_doneFailed h1
        · exact wf_doneFailed h1
        · exact wf_doneFailed h1

/-! ### Management, RDMA, errors of the device -/

theorem wf_manage {port op : Nat} {recovery : Bool} {f : Unit → State} (h : wf s) (hf : wf (f ())) :
    wfOut (s.manage port op recovery f) := by
  unfold State.manage
  split
  · trivial
  · split
    · trivial
    · exact wf_ite hf h
    · exact hf

theorem wf_startFirmware {k : Nat} (h : wf s) : wf (s.startFirmware k) := h

theorem wf_execBoot (h : wf s) : wfOut (execBoot s) := by
  unfold execBoot
  split
  · trivial
  · split
    · exact wf_startFirmware h
    · exact h

theorem wf_execReadOfferWords {port : Nat} (h : wf s) : wfOut (execReadOfferWords port s) := wf_manage h h

theorem wf_execFeatureAccept {port word : Nat} {value : DWord} (h : wf s) :
    wfOut (execFeatureAccept port word value s) := by
  refine wf_manage h ?_
  split
  · exact h
  · split <;> exact h

theorem wf_execFeatureLock {port : Nat} {value : DWord} (h : wf s) : wfOut (execFeatureLock port value s) := by
  refine wf_manage h ?_
  split
  · exact h
  · split <;> exact h

theorem wf_execCreateContext {port : Nat} {a : CtxArgs} (h : wf s) : wfOut (execCreateContext port a s) := by
  refine wf_manage h ?_
  split
  · exact h
  · split <;> exact h

theorem wf_execRemoveContext {port ctx : Nat} (h : wf s) : wfOut (execRemoveContext port ctx s) := by
  refine wf_manage h ?_
  split <;> exact h

theorem wf_execRegisterQueue {port : Nat} {a : QueueArgs} (h : wf s) : wfOut (execRegisterQueue port a s) := by
  refine wf_manage h ?_
  split
  · exact h
  · split
    · split
      · exact h
      · split <;> exact h
    · split <;> exact h

theorem wf_execBindQueuePair {port qpPort qp ctx : Nat} (h : wf s) :
    wfOut (execBindQueuePair port qpPort qp ctx s) := by
  refine wf_manage h ?_
  split
  · exact h
  · split <;> exact h

theorem wf_execAttestationQuote {port : Nat} {nonce : List Byte} (h : wf s) :
    wfOut (execAttestationQuote port nonce s) := by
  refine wf_manage h ?_
  split
  · exact h
  · split <;> exact h

theorem wf_execWriteFirmwareSlot {port : Nat} {version : DWord} {image signature : List Byte} (h : wf s) :
    wfOut (execWriteFirmwareSlot port slot version image signature s) := by
  refine wf_manage h ?_
  split
  · exact h
  · split <;> exact h

theorem wf_execReadManagementErrata {port : Nat} (h : wf s) : wfOut (execReadManagementErrata port s) :=
  wf_manage h h

theorem wf_execCommitFirmwareVersion {port : Nat} (h : wf s) : wfOut (execCommitFirmwareVersion port s) := by
  refine wf_manage h ?_
  split <;> exact h

theorem wf_execMalformedManagementMessage {port : Nat} {message : List Byte} (h : wf s) :
    wfOut (execMalformedManagementMessage port message s) := by
  unfold execMalformedManagementMessage
  split
  · trivial
  · exact wf_manage h h

theorem wf_rdmaPages {u ctx : Nat} {n : Need} {l : List (DWord × Nat)} (h : wf s) :
    wf (s.rdmaPages u ctx n l).2 := by
  induction l generalizing s with
  | nil => exact h
  | cons x t ih =>
    unfold State.rdmaPages
    split <;> rename_i e1 <;> have h1 := wf_snd e1 (wf_translate h)
    · exact h1
    · split <;> rename_i e2 <;> exact wf_snd e2 (ih h1)

theorem wf_rdmaFailed {port qp ctx kind : Nat} {e : NoTrans × DWord} (h : wf s) :
    wf (s.rdmaFailed port qp ctx kind e) := by
  unfold State.rdmaFailed
  split <;> exact wf_post _ h

theorem wf_ringDoorbell {no off : Nat} {data : List Byte} (h : wf s) : wf (s.ringDoorbell no off data) := by
  unfold State.ringDoorbell
  extract_lets out s1
  have hout {o : Out} {t : State} (ho : wfOut o) (ht : wf t) : wf (out o t) := by
    cases o with
    | next u => exact ho
    | fault _ => exact ht
    | refused _ => exact ht
  have h1 : wf s1 := by
    unfold s1
    split
    · exact hout (wf_execTail h) h
    · exact h
  split
  · exact hout (wf_execResume h1) h1
  · exact hout (wf_execReset h1) h1
  · exact h1

theorem wf_rdmaPut {port qp ctx : Nat} {va : DWord} {data : List Byte} (h : wf s) :
    wfOption (s.rdmaPut port qp ctx va data) := by
  unfold State.rdmaPut
  split <;> rename_i e1 <;> have h1 := wf_snd e1 (wf_rdmaPages h)
  · exact wf_rdmaFailed h1
  · refine wfOption_ite trivial ?_
    exact List.foldlRecOn (motive := fun a : List Byte × State => wf a.2) _ _ h1
      fun _ ha _ _ => wf_writeBytes _ _ ha

theorem wf_rdmaGet {port qp ctx : Nat} {va : DWord} {len : Nat} (h : wf s) :
    wf (s.rdmaGet port qp ctx va len) := by
  unfold State.rdmaGet
  split <;> rename_i e1 <;> have h1 := wf_snd e1 (wf_rdmaPages h)
  · exact wf_rdmaFailed h1
  · exact wf_ite (wf_rdmaFailed h1) h1

theorem wf_rdmaRun {port qp ctx : Nat} {a : Instr} (h : wf s) : wfOption (s.rdmaRun port qp ctx a) := by
  unfold State.rdmaRun
  split
  · split
    · exact wf_ringDoorbell h
    · exact wf_rdmaPut h
  · split
    · exact h
    · exact wf_rdmaGet h
  · trivial

theorem wf_rdma {port qp : Nat} {i : Instr} (h : wf s) : wfOut (s.rdma port qp i) := by
  unfold State.rdma
  split
  · trivial
  · split
    · exact h
    · split
      · exact h
      · split
        · split
          · rename_i e2
            have h2 := wf_some e2 (wf_rdmaRun h)
            exact h2
          · exact h
        · split
          · split
            · rename_i e3
              have h3 := wf_some e3 (wf_rdmaRun h)
              exact h3
            · trivial
          · exact h

theorem wf_execRdmaWrite {port : Nat} {src : Sender} {va : DWord} {data : List Byte} (h : wf s) :
    wfOut (execRdmaWrite port src va data s) :=
  wf_rdma (wf_notify h)

theorem wf_execRdmaRead {port : Nat} {src : Sender} {va : DWord} {len : Nat} (h : wf s) :
    wfOut (execRdmaRead port src va len s) :=
  wf_rdma (wf_notify h)

theorem wf_fatal {unit index : Nat} (h : wf s) : wf (s.fatal unit index) := wf_post _ h

theorem wf_execThermalTripFatal (h : wf s) : wfOut (execThermalTripFatal s) := by
  unfold execThermalTripFatal
  exact wfOut_ite (wf_fatal h) trivial

theorem wf_execPowerLoss : wfOut (execPowerLoss s) := by
  unfold execPowerLoss
  split
  dsimp only
  exact wf_reset

theorem wf_execCnpReceived {port : Nat} (h : wf s) : wfOut (execCnpReceived port s) := by
  unfold execCnpReceived
  exact wfOut_ite trivial h

theorem wf_execUncorrectableError {p : ErrPlace} (h : wf s) : wfOut (execUncorrectableError p s) := by
  unfold execUncorrectableError
  split
  · exact wf_setPoison _ _ h
  · exact wf_setPoison _ _ h
  · exact h
  · exact wf_modWarp h
  · exact wf_modWarp h
  · exact wf_modWarp h
  · exact wf_modWarp h
  · exact wf_modWarp h
  · exact wf_fatal h
  · exact wf_modWarp h
  · exact wf_modWarp h
  · exact wf_modWarp h
  · exact wf_modWarp h
  · exact wf_ite h h

/-! ### A pass without a step -/

theorem wf_tick {clocks : Nat} (h : wf s) : wf (s.tick clocks) := h

theorem wf_pass (h : wf s) : wf s.pass := by
  unfold State.pass
  split <;> exact wf_tick h

/-! ### Every instruction, every step -/

theorem wf_execCvtN {i : CvtNI} (h : wf s) : wfOut (execCvtN i s) := by
  unfold execCvtN
  split <;> exact wf_vec h

theorem wf_execCvtSr {i : CvtSrI} (h : wf s) : wfOut (execCvtSr i s) := by
  unfold execCvtSr
  split <;> exact wf_vec h

theorem wf_execCvtX2 {i : CvtX2I} (h : wf s) : wfOut (execCvtX2 i s) := by
  unfold execCvtX2
  split <;> exact wf_vec h

theorem wf_execPack {i : Op2 PackP} (h : wf s) : wfOut (execPack i s) := by
  unfold execPack
  split <;> exact wf_vec h

theorem wf_execUnpack {i : Op1 UnpackP} (h : wf s) : wfOut (execUnpack i s) := by
  unfold execUnpack
  split <;> exact wf_vec h

theorem wf_execLvote {i : LvoteI} (h : wf s) : wfOut (execLvote i s) := by
  unfold execLvote
  split <;> exact wf_vec h

theorem wf_exec (i : Instr) (h : wf s) : wfOut (exec i s) := by
  cases i with
  | add | sub | addc | subb | mul | mulhi | mad | madhi | mulwd | div | rem | abs | neg | min | max | sad | add3
  | clamp | and | or | xor | not | andn | bfn | shl | shr | shrA | rot | shf | bfx | bfi | popc | clz | ctz
  | brev | bsel | setp | sel | pfn | mov | movp | movpTo | sethi20 | sethi20Pc | lea | idot4 | idot2 | tacc
  | fadd | fsub | fmul | fma | fdot2 | fscale | fmin | fmax | fclamp | fsetp | fclass | frnd | fexpo | fmant
  | fdiv | fsqrt | frcp | frsq | fex2 | flg2 | fsin | fcos | ftanh | faddE | fmulE | fmaE | xren | xcmpr | xcmp
  | xadd | xmulW | cvt | cvtBlkDecode | cvtBlkEncode | unpkT3 | xlane
  | nbr | mpopc | lmatch => exact wf_vec h
  | cvtN => exact wf_execCvtN h
  | cvtSr => exact wf_execCvtSr h
  | cvtX2 => exact wf_execCvtX2 h
  | pack => exact wf_execPack h
  | unpack => exact wf_execUnpack h
  | lvote => exact wf_execLvote h
  | ld | st | lds | sts | ldgs | stgs | ldk | ldl | stl | atom | red | atoms | reds | cas | cass | signal
  | jsave => exact wf_memory h
  | issueOpportunity => exact wf_execIssueOpportunity h
  | stc => exact wf_execStc h
  | pref => exact wf_execPref h
  | bankcfg => exact wf_execBankcfg h
  | bankDrainEnd => exact wf_execBankDrainEnd h
  | fifoPush => exact wf_execFifoPush h
  | fifoPop => exact wf_execFifoPop h
  | catom => exact wf_execCatom h
  | atomicPerformed => exact wf_execAtomicPerformed h
  | loadDataReturn => exact wf_execLoadDataReturn h
  | storePerformed => exact wf_execStorePerformed h
  | resultWriteback => exact wf_execResultWriteback h
  | fence => exact wf_execFence h
  | barInit => exact wf_execBarInit h
  | barArrive => exact wf_execBarArrive h
  | barWait => exact wf_execBarWait h
  | barTest => exact wf_execBarTest h
  | waitc => exact wf_execWaitc h
  | waitsb => exact wf_execWaitsb h
  | pause => exact wf_execPause h
  | groupWaitEnd => exact wf_execGroupWaitEnd h
  | bra => exact wf_execBra h
  | brx => exact wf_execBrx h
  | call => exact wf_execCall h
  | callx => exact wf_execCallx h
  | ret => exact wf_execRet h
  | exit => exact wf_execExit h
  | jopen => exact wf_execJopen h
  | jenter => exact wf_execJenter h
  | jquit => exact wf_execJquit h
  | jwait => exact wf_execJwait h
  | jfree => exact wf_execJfree h
  | jload => exact wf_execJload h
  | mma => exact wf_execMma h
  | mmaRes => exact wf_execMmaRes h
  | accZero => exact wf_execAccZero h
  | accRd => exact wf_execAccRd h
  | accWr => exact wf_execAccWr h
  | accLd => exact wf_execAccLd h
  | accSt => exact wf_execAccSt h
  | platenStep =>
    rw [wfOut_iff]
    intro t e
    rw [exec] at e
    exact wf_execPlatenStep h e
  | cpy => exact wf_execCpy h
  | cpyRed => exact wf_execCpyRed h
  | cpySig => exact wf_execCpySig h
  | impStart => exact wf_execImpStart h
  | feederChunk => exact wf_execFeederChunk h
  | stepSend => exact wf_execStepSend h
  | stepRecv => exact wf_execStepRecv h
  | stepRrs => exact wf_execStepRrs h
  | stepRrc => exact wf_execStepRrc h
  | stepCopy => exact wf_execStepCopy h
  | stepWait => exact wf_execStepWait h
  | stepSignal => exact wf_execStepSignal h
  | stepLoop => exact wf_execStepLoop h
  | stepEndloop => exact wf_execStepEndloop h
  | credit => exact wf_execCredit h
  | chunk => exact wf_execChunk h
  | abort => exact wf_execAbort h
  | transferTimeout => exact wf_execTransferTimeout h
  | rgnBegin => exact wf_execRgnBegin h
  | rgnKeep => exact wf_execRgnKeep h
  | rgnEnd => exact wf_execRgnEnd h
  | rgnAbort => exact wf_execRgnAbort h
  | rgnStatus => exact wf_execRgnStatus h
  | errpPost => exact wf_execErrpPost h
  | errpVec => exact wf_execErrpVec h
  | errpMask => exact wf_execErrpMask h
  | csrr => exact wf_execCsrr h
  | csrw => exact wf_execCsrw h
  | trap => exact wf_execTrap h
  | tret => exact wf_execTret h
  | migr => exact wf_execMigr h
  | migrHome => exact wf_execMigrHome h
  | migrationDeparture => exact wf_execMigrationDeparture h
  | migrationArrival => exact wf_execMigrationArrival h
  | nop => exact wf_execNop h
  | tlbiVa => exact wf_execTlbiVa h
  | tlbiCtx => exact wf_execTlbiCtx h
  | tlbiAll => exact wf_execTlbiAll h
  | ctxopRoot => exact wf_execCtxopRoot h
  | ctxopDrain => exact wf_execCtxopDrain h
  | migWalkRetry => exact wf_execMigWalkRetry h
  | movedNack => exact wf_execMovedNack h
  | takeTrap => exact wf_execTakeTrap h
  | detectedError => exact wf_execDetectedError h
  | regionRollback => exact wf_execRegionRollback h
  | gangKill => exact wf_execGangKill h
  | gangRelaunch => exact wf_execGangRelaunch h
  | watchdogExpiry => exact wf_execWatchdogExpiry h
  | gangPlacement => exact wf_execGangPlacement h
  | warpRetire => exact wf_execWarpRetire h
  | preemptionRequest => exact wf_execPreemptionRequest h
  | engineStop => exact wf_execEngineStop h
  | preemptionComplete => exact wf_execPreemptionComplete h
  | resumption => exact wf_execResumption h
  | timeSliceExpiry => exact wf_execTimeSliceExpiry h
  | schedulerRebuild => exact wf_execSchedulerRebuild h
  | fabricEntry => exact wf_execFabricEntry h
  | fabricResend => exact wf_execFabricResend h
  | tail => exact wf_execTail h
  | resume => exact wf_execResume h
  | reset => exact wf_execReset h
  | launch => exact wf_execLaunch h
  | packetFence => exact wf_execPacketFence h
  | packetSignal => exact wf_execPacketSignal h
  | packetCopy => exact wf_execPacketCopy h
  | collective => exact wf_execCollective h
  | rcbRegister => exact wf_execRcbRegister h
  | rcbUnregister => exact wf_execRcbUnregister h
  | skip => exact wf_execSkip h
  | unknownPacket => exact wf_execUnknownPacket h
  | fenceThresholdMet => exact wf_execFenceThresholdMet h
  | workCompletionDone => exact wf_execWorkCompletionDone h
  | rdmaWrite => exact wf_execRdmaWrite h
  | rdmaRead => exact wf_execRdmaRead h
  | clockThrottle => exact h
  | thermalTripFatal => exact wf_execThermalTripFatal h
  | boot => exact wf_execBoot h
  | readOfferWords => exact wf_execReadOfferWords h
  | featureAccept => exact wf_execFeatureAccept h
  | featureLock => exact wf_execFeatureLock h
  | createContext => exact wf_execCreateContext h
  | removeContext => exact wf_execRemoveContext h
  | registerQueue => exact wf_execRegisterQueue h
  | bindQueuePair => exact wf_execBindQueuePair h
  | attestationQuote => exact wf_execAttestationQuote h
  | writeFirmwareSlot => exact wf_execWriteFirmwareSlot h
  | readManagementErrata => exact wf_execReadManagementErrata h
  | commitFirmwareVersion => exact wf_execCommitFirmwareVersion h
  | linkFailure => exact wf_execLinkFailure h
  | impositionWaitMet => exact wf_execImpositionWaitMet h
  | uncorrectableError => exact wf_execUncorrectableError h
  | powerLoss => exact wf_execPowerLoss
  | cnpReceived => exact wf_execCnpReceived h
  | malformedManagementMessage => exact wf_execMalformedManagementMessage h

theorem wf_runSlot (h : wf s) : wfOut (runSlot sl s) := by
  unfold runSlot
  split
  · trivial
  · split
    · rename_i e1
      exact wf_afterIssue (wf_next e1 (wf_exec _ h))
    · trivial
    · trivial

theorem wf_runIssue (h : wf s) : wfOut (runIssue s) := by
  unfold runIssue
  split
  · exact h
  · exact wf_runSlot h
  · split
    · rename_i e1
      have h1 := wf_next e1 (wf_runSlot h)
      split
      · rename_i e2
        have h2 := wf_next e2 (wf_runSlot h1)
        exact wf_afterPair h2
      · trivial
      · trivial
    · trivial
    · trivial

theorem wf_runOne {i : Instr} (h : wf s) : wfOut (runOne i s) := by
  unfold runOne
  split
  · rename_i e1
    exact wf_runIssue (wf_next e1 (wf_exec _ h))
  · trivial
  · trivial

theorem wf_firstOf {l : List Instr} (h : wf s) : wfOption (firstOf s l) := by
  induction l with
  | nil => trivial
  | cons i t ih =>
    unfold firstOf
    split
    · rename_i e1
      exact wfOption_ite ih (wf_next e1 (wf_exec _ h))
    · exact ih

theorem wf_ownStep (h : wf s) : wfOut (ownStep s) := by
  unfold ownStep
  split
  · rename_i e1
    exact wf_some e1 (wf_firstOf h)
  · split
    · exact wf_runOne h
    · exact wf_pass h

theorem wf_haltedStep (h : wf s) : wfOut (haltedStep s) := by
  unfold haltedStep
  split
  · exact wfOut_ite (wf_exec _ h) trivial
  · exact wf_pass h

theorem wf_step (h : wf s) : wfOut (step s) := by
  unfold step
  split
  · exact wf_haltedStep h
  · split
    · exact wf_runOne h
    · exact wf_ownStep h

end


/-- Settles O6: the next state of a step has canonical memory, one lemma per function of the model down to `setByte`,
the one operation that writes HBM4. -/
theorem stepKeepsMemoryCanonical : Obligations.StepKeepsMemoryCanonical :=
  fun _ _ h e => wf_next e (wf_step h)

end Sys2Proof.Machine.Memory

namespace Sys2Proof.Machine.Access
open Sys2Proof.Claims

/-! SUPPORT for O13: the checks of an access (R207, R208, R19, R173, R174, R179) one after another, and the fault that each
raises. `State.access` runs them over the lanes of a request; there is one lemma for each way in which it ends with a fault. -/

/-! ### The first failure in a list of lanes -/

theorem head_filterMap_of_first {α β : Type} {f : α → Option β} {before after : List α} {x : α} {e : β}
    (hb : ∀ y ∈ before, f y = none) (hx : f x = some e) : ((before ++ x :: after).filterMap f).head? = some e := by
  rw [List.filterMap_append, List.filterMap_eq_nil_iff.2 hb, List.nil_append, List.filterMap_cons_some hx, List.head?_cons]

theorem head_filterMap_of_none {α β : Type} {f : α → Option β} {l : List α} (h : ∀ y ∈ l, f y = none) :
    (l.filterMap f).head? = none := by
  rw [List.filterMap_eq_nil_iff.2 h, List.head?_nil]

theorem eq_none_of_head_filterMap {α β : Type} {f : α → Option β} {l : List α} (h : (l.filterMap f).head? = none) :
    ∀ y ∈ l, f y = none :=
  List.filterMap_eq_nil_iff.1 (List.head?_eq_none_iff.1 h)

/-! ### The form of one address -/

theorem ofNat_wrap (a : Int) : BitVec.ofNat 64 (wrap a 64) = BitVec.ofInt 64 a := by
  refine BitVec.eq_of_toNat_eq ?_
  rw [BitVec.toNat_ofNat, BitVec.toNat_ofInt, wrap]
  omega

/-- A canonical address is a signed number of 57 bits (R172). -/
theorem toSigned_of_canonical {a : Int} (h : canonical (BitVec.ofInt 64 a) = true) :
    -2 ^ 56 ≤ toSigned (wrap a 64) 64 ∧ toSigned (wrap a 64) 64 < 2 ^ 56 := by
  have hlt : wrap a 64 < 2 ^ 64 := by unfold wrap; omega
  have hn : (BitVec.ofInt 64 a).toNat = wrap a 64 := by rw [← ofNat_wrap, BitVec.toNat_ofNat, Nat.mod_eq_of_lt hlt]
  simp only [canonical, hn, Bool.or_eq_true, beq_iff_eq] at h
  unfold toSigned
  split <;> omega

/-- An address is canonical, or one of 32 bits outside global memory (R207). -/
def InRange (sp : Space) (a : Int) : Prop :=
  if sp = .global then canonical (BitVec.ofInt 64 a) = true else 0 ≤ a ∧ a < 2 ^ 32


/-- What an address out of range raises (R207). -/
def rangeCause (sp : Space) : Nat := if sp = .global then 0x22 else boundCause sp

theorem checkForm_of_inRange {sp : Space} {size kind : Nat} {a : Int} (h : InRange sp a) :
    checkForm sp size kind a = if a % size ≠ 0 then some (memFault 0x23 a kind) else none := by
  cases sp with
  | global =>
    have h : canonical (BitVec.ofInt 64 a) = true := h
    simp only [checkForm, ofNat_wrap, h]; rfl
  | block | gang | priv | window =>
    have h : ¬(a < 0 ∨ 2 ^ 32 ≤ a) := fun h' => by have h : 0 ≤ a ∧ a < 2 ^ 32 := h; omega
    simp only [checkForm, if_neg h]; rfl

theorem checkForm_of_not_inRange {sp : Space} {size kind : Nat} {a : Int} (h : ¬InRange sp a) :
    checkForm sp size kind a = some (memFault (rangeCause sp) a kind) := by
  cases sp with
  | global =>
    have h : canonical (BitVec.ofInt 64 a) = false := by simpa [InRange] using h
    simp only [checkForm, ofNat_wrap, h]; rfl
  | block | gang | priv | window =>
    have h : a < 0 ∨ 2 ^ 32 ≤ a := by
      by_contra h'; exact h (show 0 ≤ a ∧ a < 2 ^ 32 by omega)
    simp only [checkForm, if_pos h]; rfl

theorem checkForm_eq_none_iff {sp : Space} {size kind : Nat} {a : Int} :
    checkForm sp size kind a = none ↔ Formed sp size a := by
  change _ ↔ InRange sp a ∧ a % size = 0
  by_cases h : InRange sp a
  · simp [checkForm_of_inRange h, h]
  · simp [checkForm_of_not_inRange h, h]

/-! ### The bound of one address -/

section
variable {s : State} {slot : Nat} {w : Warp} {sp : Space} {size kind : Nat} {a : Int}

theorem checkBound_scratch (h : sp = .block ∨ sp = .gang) : s.checkBound slot w sp size kind a =
    match s.scratchBlock slot w (scratchTarget sp w a.toNat).1 with
    | none => some (memFault 0x24 a kind)
    | some x =>
      if x.bytes < (scratchTarget sp w a.toNat).2 + size then some (memFault 0x24 a kind)
      else if x.unitMode (scratchTarget sp w a.toNat).2 ≠ .scratch then some (memFault 0x26 a kind)
      else none := by
  rcases h with rfl | rfl <;> rfl

theorem checkBound_eq_none_iff : s.checkBound slot w sp size kind a = none ↔ Bounded s slot w sp size a := by
  cases sp with
  | global => simp [State.checkBound, Bounded]
  | priv | window => simp [State.checkBound, Bounded]
  | block | gang =>
    rw [checkBound_scratch (by simp)]
    simp only [Bounded]
    cases s.scratchBlock slot w _ with
    | none => simp
    | some x => dsimp only; split_ifs <;> simp_all
end

/-! ### The checks of an access: how it ends with a fault (R208) -/

section
variable {s s1 : State} {slot : Nat} {w : Warp} {sp : Space} {size kind : Nat} {n : Need} {before after l : List (Nat × Int)}
  {m : Nat} {a : Int} {e : MemStop}

theorem access_of_away (h : sp = .block ∨ sp = .gang) (hw : w.home ≠ slot) :
    s.access slot w sp size n kind ((m, a) :: after) = (.error (memFault 0x25 a kind), s) := by
  have ha : (sp = .block ∨ sp = .gang) ∧ w.away slot = true := ⟨h, bne_iff_ne.2 hw⟩
  rw [State.access, if_pos ha]; rfl

theorem reached_of_home (hr : sp = .block ∨ sp = .gang → w.home = slot) :
    ¬((sp = .block ∨ sp = .gang) ∧ w.away slot = true) :=
  fun ⟨h, h'⟩ => bne_iff_ne.1 h' (hr h)

theorem access_of_misformed (hr : sp = .block ∨ sp = .gang → w.home = slot) (hb : ∀ x ∈ before, Formed sp size x.2)
    (he : checkForm sp size kind a = some e) :
    s.access slot w sp size n kind (before ++ (m, a) :: after) = (.error e, s) := by
  have hfirst : ((before ++ (m, a) :: after).filterMap fun x => checkForm sp size kind x.2).head? = some e :=
    head_filterMap_of_first (fun x hx => checkForm_eq_none_iff.2 (hb x hx)) he
  rw [State.access, if_neg (reached_of_home hr), hfirst]

theorem access_of_unbounded (hr : sp = .block ∨ sp = .gang → w.home = slot)
    (hf : ∀ x ∈ before ++ (m, a) :: after, Formed sp size x.2) (hb : ∀ x ∈ before, Bounded s slot w sp size x.2)
    (he : s.checkBound slot w sp size kind a = some e) :
    s.access slot w sp size n kind (before ++ (m, a) :: after) = (.error e, s) := by
  have hform := head_filterMap_of_none fun x hx => checkForm_eq_none_iff (kind := kind).2 (hf x hx)
  have hfirst : ((before ++ (m, a) :: after).filterMap fun x => s.checkBound slot w sp size kind x.2).head? = some e :=
    head_filterMap_of_first (fun x hx => checkBound_eq_none_iff.2 (hb x hx)) he
  rw [State.access, if_neg (reached_of_home hr), hform, hfirst]

theorem access_of_untranslated {c x : Nat} (hf : ∀ y ∈ (m, a) :: after, Formed .global size y.2)
    (ht : s.translate (slotQuadId slot) w.ctx (BitVec.ofInt 64 a) n = (.error (.cause c x), s1)) :
    s.access slot w .global size n kind ((m, a) :: after) =
      (.error (.fault ⟨c, BitVec.ofInt 64 a, BitVec.ofNat 64 kind, BitVec.ofNat 64 x, 0⟩), s1) := by
  have hform := head_filterMap_of_none fun y hy => checkForm_eq_none_iff (kind := kind).2 (hf y hy)
  have hbound := head_filterMap_of_none fun (y : Nat × Int) (_ : y ∈ (m, a) :: after) =>
    checkBound_eq_none_iff (s := s) (slot := slot) (w := w) (size := size) (kind := kind).2
      (show Bounded s slot w .global size y.2 from trivial)
  have hglobal : ¬((Space.global = .block ∨ Space.global = .gang)) := by simp
  rw [State.access, if_neg (reached_of_home fun h => absurd h hglobal), hform, hbound]
  simp only [if_neg hglobal, globalParts, ofNat_wrap, List.flatMap_cons, List.singleton_append, State.translateAll, ht]

theorem formed_of_access {parts : List Part} (h : s.access slot w sp size n kind l = (.ok parts, s1)) :
    ∀ x ∈ l, Formed sp size x.2 := by
  unfold State.access at h
  dsimp only at h
  split at h
  · cases h
  · cases hc : (l.filterMap fun x => checkForm sp size kind x.2).head? with
    | some e => rw [hc] at h; cases h
    | none => exact fun x hx => checkForm_eq_none_iff.1 (eq_none_of_head_filterMap hc x hx)

end

/-! ### A memory instruction of a leading warp -/

section
variable {s s1 : State} {sl : Slot} {w : Warp} {r : Regs} {i : Instr} {q : MemReq} {f : SyncFault}

theorem exec_eq_memory (h : memReq i = some q) : exec i s = s.memory q := by
  unfold memReq at h
  split at h <;> cases h <;> rfl

theorem memory_of_leader (hc : s.Chosen sl w r) (ha : active r sl.grp q.g ≠ 0) (hp : sl.proof = false) :
    s.memory q = .next (s.taken.leadMemory sl w r (active r sl.grp q.g) q) := by
  rw [State.memory, State.onSlot_chosen hc]
  simp only [if_neg ha, State.memoryOn, hp]; rfl

theorem leadMemory_of_forbidden {act : Mask} (hl : w.levels ≠ []) (hq : q.kind.forbidden = true) :
    s.leadMemory sl w r act q = s.raise sl act (.plain 0x65) := by
  have h : (!w.levels.isEmpty && q.kind.forbidden) = true := by simp [hl, hq]
  rw [State.leadMemory, if_pos h]; rfl

theorem leadMemory_of_fault {act : Mask} (hk : w.levels = [] ∨ q.kind.forbidden = false)
    (hx : s.access sl.w w q.sp q.size q.need q.no (addresses q r act) = (.error (.fault f), s1)) :
    s.leadMemory sl w r act q = s1.raise sl act f := by
  have h : ¬(!w.levels.isEmpty && q.kind.forbidden) = true := by rcases hk with hk | hk <;> simp [hk]
  unfold addresses at hx
  simp only [State.leadMemory, if_neg h, hx, State.stopAccess]

/-- A failed check raises its fault and does nothing else (R208). -/
theorem exec_of_failedCheck (hc : s.Chosen sl w r) (hq : memReq i = some q) (ha : active r sl.grp q.g ≠ 0)
    (hp : sl.proof = false) (hk : w.levels = [] ∨ q.kind.forbidden = false)
    (hx : checks s sl w r (active r sl.grp q.g) q = (.error (.fault f), s1)) :
    exec i s = .next (s1.raise sl (active r sl.grp q.g) f) := by
  rw [exec_eq_memory hq, memory_of_leader hc ha hp, leadMemory_of_fault hk hx]

theorem accessRaises_of_memFault {cause : Nat} {a : Int} (hc : s.Chosen sl w r) (hq : memReq i = some q)
    (ha : active r sl.grp q.g ≠ 0) (hp : sl.proof = false) (hk : w.levels = [] ∨ q.kind.forbidden = false)
    (hx : checks s sl w r (active r sl.grp q.g) q = (.error (memFault cause a q.no), s.taken)) :
    AccessRaises i q s sl r cause a :=
  ⟨_, rfl, ofNat_wrap a, exec_of_failedCheck hc hq ha hp hk hx⟩

end

theorem failedChecksRaise : FailedChecksRaise := by
  refine ⟨fun s sl w r i q f s1 hc hq ha hp hk hx => exec_of_failedCheck hc hq ha hp hk hx,
    fun s s1 sl w r q act parts x hx hm => ?_⟩
  obtain ⟨hr, hs⟩ := formed_of_access hx x hm
  refine ⟨?_, hs⟩
  split
  · next hg => rw [if_pos hg] at hr; exact toSigned_of_canonical hr
  · next hg => rw [if_neg hg] at hr; exact hr

theorem failedChecksNameTheirCause : FailedChecksNameTheirCause := by
  intro s sl w r i q before after l a hc hq ha hp hk hl scratch
  have raises {cause : Nat} {b : Int}
      (hx : s.taken.access sl.w w q.sp q.size q.need q.no (before ++ (l, a) :: after) =
        (.error (memFault cause b q.no), s.taken)) :
      AccessRaises i q s sl r cause b :=
    accessRaises_of_memFault hc hq ha hp hk (by rw [checks, hl, hx])
  rw [hl]
  refine ⟨?_, ?_, ?_, ?_⟩
  · rintro hs hw rfl
    exact raises (access_of_away hs hw)
  · intro hr hb
    have outside (h : ¬InRange q.sp a) : AccessRaises i q s sl r (rangeCause q.sp) a :=
      raises (access_of_misformed hr hb (checkForm_of_not_inRange h))
    refine ⟨fun hg hn => ?_, fun hg hn => ?_, fun hi hm => ?_⟩
    · have := outside (by simp [InRange, hg, hn])
      rwa [rangeCause, if_pos hg] at this
    · have := outside (by rwa [InRange, if_neg hg])
      rwa [rangeCause, if_neg hg] at this
    · exact raises (access_of_misformed hr hb (by rw [checkForm_of_inRange hi, if_pos hm]))
  · intro hr hf hb
    have beyond {cause : Nat} {b : Int} (h : s.taken.checkBound sl.w w q.sp q.size q.no a = some (memFault cause b q.no)) :
        AccessRaises i q s sl r cause b := raises (access_of_unbounded hr hf hb h)
    refine ⟨fun hs hw => beyond ?_, fun k hs hw => beyond ?_, fun hs hw => beyond ?_, fun x hs hx hw hm => beyond ?_⟩
    · rw [hs]; exact if_pos hw
    · rw [hs]; exact if_pos hw
    · rw [checkBound_scratch hs]
      split
      · rfl
      · next x hx => rw [if_pos (hw x hx)]
    · rw [checkBound_scratch hs, show s.taken.scratchBlock sl.w w _ = some x from hx]
      dsimp only
      rw [if_neg (by omega), if_pos hm]
  · rintro c e s1 hg rfl hf ht
    have hx : checks s sl w r (active r sl.grp q.g) q =
        (.error (.fault ⟨c, BitVec.ofInt 64 a, BitVec.ofNat 64 q.no, BitVec.ofNat 64 e, 0⟩), s1) := by
      rw [checks, hl, hg]
      exact access_of_untranslated (by rwa [hg] at hf) ht
    exact ⟨_, rfl, rfl, exec_of_failedCheck hc hq ha hp hk hx⟩

/-! ### What no region may hold (R400) -/

/-- An atomic with a result, inside a region. -/
theorem exec_of_forbidden {s : State} {sl : Slot} {w : Warp} {r : Regs} {i : Instr} {q : MemReq} (hc : s.Chosen sl w r)
    (hq : memReq i = some q) (ha : active r sl.grp q.g ≠ 0) (hp : sl.proof = false) (hl : w.levels ≠ [])
    (hk : q.kind.forbidden = true) : exec i s = .next (s.taken.raise sl (active r sl.grp q.g) ⟨0x65, 0, 0, 0, 0⟩) := by
  rw [exec_eq_memory hq, memory_of_leader hc ha hp, leadMemory_of_forbidden hl hk]; rfl

theorem forbiddenInsideRegion : ForbiddenInsideRegion := by
  intro s sl w r i g hc hp hl hg ha
  have he : w.levels.isEmpty = false := by simpa using hl
  split at hg
  case h_1 j => subst hg; exact exec_of_forbidden (q := atomReq .global j) hc rfl ha hp hl rfl
  case h_2 j => subst hg; exact exec_of_forbidden (q := atomReq .block j) hc rfl ha hp hl rfl
  case h_3 j => subst hg; exact exec_of_forbidden (q := casReq .global j) hc rfl ha hp hl rfl
  case h_4 j => subst hg; exact exec_of_forbidden (q := casReq .block j) hc rfl ha hp hl rfl
  case h_5 j =>
    obtain ⟨rfl, hd⟩ := hg
    obtain ⟨p, hd⟩ := Option.ne_none_iff_exists'.1 hd
    show execCatom j s = _
    rw [execCatom, State.onSlot_chosen hc]
    simp only [if_neg ha, hp, State.leadCatom, catomReq, hd, he, OpKind.forbidden]; rfl
  case h_6 j =>
    subst hg
    show execStc j s = _
    rw [execStc, State.onSlot_chosen hc]
    simp only [if_neg ha, hp, State.leadStc, he]; rfl
  case h_7 j =>
    subst hg
    show execExit j s = _
    rw [execExit, State.withActive, State.onSlot_chosen hc]
    simp only [if_neg ha, hp, he, State.raiseOr]; rfl
  case h_8 j =>
    subst hg
    show execBarInit j s = _
    rw [execBarInit, State.withActive, State.onSlot_chosen hc]
    simp only [if_neg ha, hp, he]; rfl
  case h_9 => exact hg.elim

/-- Settles O13: each check of `State.access` on its own, and the instructions that a region forbids. -/
theorem accessChecksRaise : Obligations.AccessChecksRaise :=
  ⟨failedChecksRaise, failedChecksNameTheirCause, forbiddenInsideRegion⟩

end Sys2Proof.Machine.Access

namespace Sys2Proof.Machine.Placement
open Sys2Proof.Claims

/-! SUPPORT for O52: a gang's warps take their slots one after another (R11, R268, R270). `startGang` is read from its last block
back, `startBlock` from its last slot back: each adds one warp, and leaves the warps of the other slots. -/

/-! ### What the start of a gang changes -/

/-- Of the state only warps, and what the choice of a Feeder consumes, may differ. -/
def OnlyWarps (s t : State) : Prop := t = { s with warps := t.warps, tlb := t.tlb, env := t.env }

section
variable {s t u : State}

theorem OnlyWarps.refl (s : State) : OnlyWarps s s := rfl

theorem OnlyWarps.trans (h : OnlyWarps s t) (g : OnlyWarps t u) : OnlyWarps s u := by
  unfold OnlyWarps at *
  rw [g, h]

theorem OnlyWarps.of_cached (h : s.Cached t) : OnlyWarps s t := by
  unfold OnlyWarps
  rw [h]

theorem OnlyWarps.setWarp (h : OnlyWarps s t) (k : Nat) (w : Warp) : OnlyWarps s (t.setWarp k w) :=
  h.trans rfl

theorem OnlyWarps.gangs (h : OnlyWarps s t) : t.gangs = s.gangs := by rw [h]
theorem OnlyWarps.works (h : OnlyWarps s t) : t.works = s.works := by rw [h]
theorem OnlyWarps.hbm (h : OnlyWarps s t) : t.hbm = s.hbm := by rw [h]
theorem OnlyWarps.gang (h : OnlyWarps s t) (k : Nat) : t.gang k = s.gang k := by rw [State.gang, h.gangs]; rfl

theorem assignFeeder_cached (s : State) (rcb sheet : Nat) : s.Cached (s.assignFeeder rcb sheet).2 := State.pick_cached ..
end

/-! ### One block -/

theorem getElem?_concat_eq_some {α : Type} {l : List α} {a x : α} {n : Nat} (h : (l ++ [a])[n]? = some x) :
    l[n]? = some x ∨ n = l.length ∧ a = x := by
  rw [List.getElem?_append] at h
  split at h
  · exact .inl h
  · next hn =>
    rw [List.getElem?_singleton] at h
    split at h
    · exact .inr ⟨by omega, Option.some.inj h⟩
    · cases h

section
variable (s : State) (w : Work) (l : LaunchRec) (chk : Bool) (gang lin block : Nat)

/-- The last warp of a block takes its slot. -/
theorem startBlock_concat (slots : List Nat) (a : Nat) :
    s.startBlock w l chk gang lin block (slots ++ [a]) =
      let (f, t) := (s.startBlock w l chk gang lin block slots).assignFeeder w.rcbId (slotSheet a)
      t.setWarp a ((Warp.start l chk gang lin w.ctx block slots.length a f).since t w.since) := by
  simp only [State.startBlock, List.zipIdx_append, List.foldl_append, List.zipIdx_cons, List.zipIdx_nil, List.foldl_cons,
    List.foldl_nil, Nat.zero_add]

theorem startBlock_onlyWarps (slots : List Nat) : OnlyWarps s (s.startBlock w l chk gang lin block slots) := by
  induction slots using List.reverseRecOn with
  | nil => exact .refl s
  | append_singleton slots a ih =>
    rw [startBlock_concat]
    exact (ih.trans (.of_cached (assignFeeder_cached ..))).setWarp _ _

theorem warp_startBlock_ne (slots : List Nat) {k : Nat} (h : k ∉ slots) :
    (s.startBlock w l chk gang lin block slots).warp k = s.warp k := by
  induction slots using List.reverseRecOn with
  | nil => rfl
  | append_singleton slots a ih =>
    rw [List.mem_append, List.mem_singleton, not_or] at h
    rw [startBlock_concat]
    dsimp only
    rw [State.warp_setWarp_ne _ _ h.2, (assignFeeder_cached ..).warp, ih h.1]

/-- Warp n of a block stands in the block's slot n as at its launch. -/
theorem warp_startBlock (slots : List Nat) (hd : slots.Nodup) {n slot : Nat} (h : slots[n]? = some slot) :
    ∃ f t, (s.startBlock w l chk gang lin block slots).warp slot =
      some ((Warp.start l chk gang lin w.ctx block n slot f).since t w.since) := by
  induction slots using List.reverseRecOn with
  | nil => simp at h
  | append_singleton slots a ih =>
    rw [startBlock_concat]
    rw [List.nodup_append] at hd
    obtain ⟨hd, -, hne⟩ := hd
    dsimp only
    rcases getElem?_concat_eq_some h with hn | ⟨rfl, rfl⟩
    · obtain ⟨f, t, hw⟩ := ih hd hn
      have ha : slot ≠ a := hne _ (List.mem_of_getElem? hn) _ (List.mem_singleton_self a)
      exact ⟨f, t, by rw [State.warp_setWarp_ne _ _ ha, (assignFeeder_cached ..).warp, hw]⟩
    · exact ⟨_, _, State.warp_setWarp_self ..⟩
end

/-! ### Every block of a gang -/

section
variable (s : State) (w : Work) (l : LaunchRec) (chk : Bool) (gang lin : Nat)

/-- The last block of a gang starts. -/
theorem startGang_concat (sites : List Site) (x : Site) :
    s.startGang w l chk gang lin (sites ++ [x]) =
      (s.startGang w l chk gang lin sites).startBlock w l chk gang lin sites.length x.slots := by
  simp only [State.startGang, List.zipIdx_append, List.foldl_append, List.zipIdx_cons, List.zipIdx_nil, List.foldl_cons,
    List.foldl_nil, Nat.zero_add]

theorem startGang_onlyWarps (sites : List Site) : OnlyWarps s (s.startGang w l chk gang lin sites) := by
  induction sites using List.reverseRecOn with
  | nil => exact .refl s
  | append_singleton sites x ih =>
    rw [startGang_concat]
    exact ih.trans (startBlock_onlyWarps ..)

theorem flatMap_slots_concat (sites : List Site) (x : Site) :
    (sites ++ [x]).flatMap Site.slots = sites.flatMap Site.slots ++ x.slots := by
  rw [List.flatMap_append, List.flatMap_singleton]

theorem warp_startGang_ne (sites : List Site) {k : Nat} (h : k ∉ sites.flatMap Site.slots) :
    (s.startGang w l chk gang lin sites).warp k = s.warp k := by
  induction sites using List.reverseRecOn with
  | nil => rfl
  | append_singleton sites x ih =>
    rw [flatMap_slots_concat, List.mem_append, not_or] at h
    rw [startGang_concat, warp_startBlock_ne _ _ _ _ _ _ _ _ h.2, ih h.1]

/-- Warp n of block b of a gang stands in slot n of the block's site as at its launch. -/
theorem warp_startGang (sites : List Site) (hd : (sites.flatMap Site.slots).Nodup) {b n slot : Nat} {x : Site}
    (hb : sites[b]? = some x) (hn : x.slots[n]? = some slot) :
    ∃ f t, (s.startGang w l chk gang lin sites).warp slot =
      some ((Warp.start l chk gang lin w.ctx b n slot f).since t w.since) := by
  induction sites using List.reverseRecOn with
  | nil => simp at hb
  | append_singleton sites y ih =>
    rw [flatMap_slots_concat, List.nodup_append] at hd
    obtain ⟨hd, hy, hne⟩ := hd
    rw [startGang_concat]
    rcases getElem?_concat_eq_some hb with hb | ⟨rfl, rfl⟩
    · obtain ⟨f, t, hw⟩ := ih hd hb
      have hm : slot ∈ sites.flatMap Site.slots :=
        List.mem_flatMap.2 ⟨x, List.mem_of_getElem? hb, List.mem_of_getElem? hn⟩
      exact ⟨f, t, by rw [warp_startBlock_ne _ _ _ _ _ _ _ _ fun hk => hne _ hm _ hk rfl, hw]⟩
    · exact warp_startBlock _ _ _ _ _ _ _ _ hy hn
end

theorem get_foldl_set_of_mem {β : Type} [Inhabited β] [DecidableEq β] {l : List Nat} (m : SMap β) {k : Nat} (v : β)
    (hk : k ∈ l) :
    (l.foldl (fun acc x => acc.set x v) m).get k = v :=
  SMap.get_foldl_set_eq l id (fun _ => v) m k v (fun _ _ _ => rfl) ⟨k, hk, rfl⟩

theorem pcGet_launch (pc : DWord) (priv : Nat) {k : Nat} (hk : k < 32) : (Regs.launch pc priv).pcGet k = pc := by
  simp only [Regs.pcGet, Regs.launch]
  exact get_foldl_set_of_mem [] pc (List.mem_range.2 hk)

theorem sget_launch (pc : DWord) (priv k : Nat) : (Regs.launch pc priv).sget k = if k = 63 then BitVec.ofNat 64 priv else 0 := by
  simp only [Regs.sget, Regs.launch]
  exact SMap.get_set ..

/-- A warp as `Warp.start` makes it is one at its launch (R11, R268). -/
theorem launched_of_start {t u : State} {g : Gang} {l : LaunchRec} {chk : Bool} {ctx b n slot f parsed : Nat}
    (h : t.warp slot = some ((Warp.start l chk g.id g.lin ctx b n slot f).since u parsed)) : Launched t g l ctx b n slot := by
  refine ⟨_, h, rfl, rfl, rfl, rfl, rfl, rfl, rfl, rfl, rfl, rfl, rfl, rfl, rfl, rfl, rfl, rfl, rfl, rfl, fun k hk => ?_, fun k m => rfl,
    fun k => ?_, fun k hk => ?_, fun k => rfl⟩
  · exact pcGet_launch _ _ hk
  · exact sget_launch ..
  · exact if_neg hk

/-! ### The placement of a new gang (R270, R271) -/

/-- The gang that the Compositor places next of a record. -/
def newGang (s : State) (w : Work) (l : LaunchRec) (sites : List Site) : Gang :=
  { id := s.opSeq, launch := w.id, lin := w.next, chase := ((sites.head?.map Site.forme).getD 0) / 4
    blocks := sites.map (Block.start l), phase := .running, acks := [], saved := [], order := s.opSeq, since := s.time, stopAt := 0
    saveTime := 0, yieldTo := none, relaunches := 0, checked := s.checkedOf w.rcbId }

/-- The gang stands among the others and its record goes on to its next gang; no warp has started. -/
def withNewGang (s : State) (w : Work) (l : LaunchRec) (sites : List Site) : State :=
  { s with
    opSeq := s.opSeq + 1, gangs := s.gangs ++ [newGang s w l sites], compRR := w.id
    works := s.works.map fun x => if x.id = w.id then { x with next := x.next + 1 } else x }

theorem placeGang_eq (s : State) (w : Work) (l : LaunchRec) (sites : List Site) :
    s.placeGang w l sites = (withNewGang s w l sites).startGang w l (s.checkedOf w.rcbId) s.opSeq w.next sites := by
  simp only [State.placeGang, State.fresh, State.modWork, withNewGang, beq_iff_eq]
  rfl

theorem exec_gangPlacement {s : State} {w : Work} {l : LaunchRec} {slots : List Nat} {sites : List Site}
    (hw : s.nextWork = some w) (hl : w.launch = some l) (hs : s.sitesFor ⟨w, none⟩ slots = some sites) :
    exec (.gangPlacement w.id slots) s = .next (s.placeGang w l sites) := by
  show execGangPlacement w.id slots s = _
  simp [execGangPlacement, hw, hl, hs]

/-! ### A killed gang starts again (R272, R408) -/

/-- No block was released: every block starts again where it was. -/
theorem refill_of_held (l : LaunchRec) {blocks : List Block} (h : ∀ b ∈ blocks, b.released = false) :
    refill l blocks [] = blocks.map fun b => Block.start l b.at := by
  induction blocks with
  | nil => rfl
  | cons b t ih =>
    rw [List.forall_mem_cons] at h
    rw [refill, h.1, ih h.2]; rfl

/-- A gang that starts again with some blocks. -/
def restarted (s : State) (blocks : List Block) (g : Gang) : Gang :=
  { g with blocks := blocks, phase := .running, since := s.time, relaunches := g.relaunches + 1 }

theorem exec_gangRelaunch {s : State} {gang : Nat} {g : Gang} {w : Work} {l : LaunchRec} (hg : s.gang gang = some g)
    (hp : g.phase = .waitRelaunch) (hw : s.work g.launch = some w) (hl : w.launch = some l)
    (hr : ∀ b ∈ g.blocks, b.released = false) (hs : s.sitesFor ⟨w, some g⟩ [] = some []) (hy : s.yields g = false) :
    ∃ u : State, u.gang gang = some (restarted s (g.blocks.map fun b => Block.start l b.at) g) ∧ u.works = s.works ∧ u.hbm = s.hbm ∧
      exec (.gangRelaunch gang []) s = .next (u.startGang w l g.checked gang g.lin (g.blocks.map Block.at)) := by
  have hblocks := refill_of_held l hr
  refine ⟨s.modGang gang (restarted s (refill l g.blocks [])), ?_, rfl, rfl, ?_⟩
  · rw [State.gang_modGang _ _ _ (restarted s _) fun _ => rfl, if_pos rfl, hg, Option.map_some, hblocks]
  · have hsites : (refill l g.blocks []).map Block.at = g.blocks.map Block.at := by
      rw [hblocks, List.map_map]; rfl
    show execGangRelaunch gang [] s = _
    simp [execGangRelaunch, hg, hw, hl, hs, hp, hy, hsites]; rfl

/-- Settles O52: `warp_startGang` says where the warps of a gang that is placed, or starts again, stand. -/
theorem gangsArePlaced : Obligations.GangsArePlaced := by
  refine ⟨fun s w l slots sites hw hl hs hd => ?_, fun s gang g w l hg hp hw hl hr hs hy hd => ?_⟩
  · have ho := startGang_onlyWarps (withNewGang s w l sites) w l (s.checkedOf w.rcbId) s.opSeq w.next sites
    refine ⟨_, newGang s w l sites, exec_gangPlacement hw hl hs, ?_⟩
    rw [placeGang_eq]
    refine ⟨ho.gangs, rfl, rfl, rfl, rfl, ho.hbm, ho.works, fun b n x slot hb hn => ?_, fun k hk => ?_⟩
    · obtain ⟨f, t, h⟩ := warp_startGang (withNewGang s w l sites) w l (s.checkedOf w.rcbId) s.opSeq w.next sites hd hb hn
      exact launched_of_start h
    · exact warp_startGang_ne _ _ _ _ _ _ _ hk
  · obtain ⟨u, hu, hworks, hhbm, he⟩ := exec_gangRelaunch hg hp hw hl hr hs hy
    have ho := startGang_onlyWarps u w l g.checked gang g.lin (g.blocks.map Block.at)
    refine ⟨_, restarted s _ g, he, by rw [ho.gang, hu], rfl, by rw [ho.works, hworks], by rw [ho.hbm, hhbm],
      fun b n x slot hb hn => ?_⟩
    have hid : g.id = gang := by simpa using List.find?_some hg
    subst hid
    have hd' : ((g.blocks.map Block.at).flatMap Site.slots).Nodup := by rw [List.flatMap_map]; exact hd
    have hx : (g.blocks.map Block.at)[b]? = some x.at := by rw [List.getElem?_map, hb]; rfl
    obtain ⟨f, t, h⟩ := warp_startGang u w l g.checked g.id g.lin _ hd' hx hn
    exact launched_of_start h

end Sys2Proof.Machine.Placement

namespace Sys2Proof.Machine.Trap
open Sys2Proof.Claims

/-! SUPPORT for O3: taking a trap (R372, R376). A record is posted behind the trap; it touches memory and what is held of
translations, and no warp. -/

/-! ### Posting a record changes no warp and chooses no instruction -/

/-- The warps and the chosen instructions are those of another state. -/
def SameWarps (s t : State) : Prop := t.warps = s.warps ∧ t.issue = s.issue

section
variable {s t u : State}

theorem SameWarps.refl (s : State) : SameWarps s s := ⟨rfl, rfl⟩
theorem SameWarps.trans (h : SameWarps s t) (g : SameWarps t u) : SameWarps s u := ⟨g.1.trans h.1, g.2.trans h.2⟩
theorem SameWarps.of_cached (h : s.Cached t) : SameWarps s t := by rw [h]; exact ⟨rfl, rfl⟩
theorem SameWarps.toManagement (h : SameWarps s t) (e : Errata) : SameWarps s (t.toManagement e) := h.trans ⟨rfl, rfl⟩
theorem SameWarps.setLost (h : SameWarps s t) (c : Nat) (b : Bool) : SameWarps s (t.setLost c b) := h.trans ⟨rfl, rfl⟩
theorem SameWarps.warp (h : SameWarps s t) (k : Nat) : t.warp k = s.warp k := by unfold State.warp; rw [h.1]

theorem SameWarps.foldl {α : Type} {f : State → α → State} (hf : ∀ a x, SameWarps a (f a x)) (s : State) (l : List α) :
    SameWarps s (l.foldl f s) := by
  induction l generalizing s with
  | nil => exact .refl s
  | cons x l ih => exact (hf s x).trans (ih _)

theorem setByte_sameWarps (s : State) (p : Place) (x : Byte) : SameWarps s (s.setByte p x) := by
  cases p <;> exact ⟨rfl, rfl⟩

theorem putBytes_sameWarps (s : State) (p : Place) (l : List Byte) : SameWarps s (s.putBytes p l) := by
  induction l generalizing s p with
  | nil => exact .refl s
  | cons x l ih => exact (setByte_sameWarps s p x).trans (ih ..)

theorem keepPast_sameWarps (s : State) (p : Place) (n : Nat) : SameWarps s (s.keepPast p n) := by
  cases p <;> exact ⟨rfl, rfl⟩

theorem clearPoison_sameWarps (s : State) (p : Place) (n : Nat) : SameWarps s (s.clearPoison p n) := by
  cases p with
  | hbm k =>
    unfold State.clearPoison
    dsimp only
    split <;> exact ⟨rfl, rfl⟩
  | scr g b o => exact ⟨rfl, rfl⟩

theorem writeBytes_sameWarps (s : State) (p : Place) (l : List Byte) : SameWarps s (s.writeBytes p l) :=
  ((keepPast_sameWarps ..).trans (putBytes_sameWarps ..)).trans (clearPoison_sameWarps ..)

theorem writeGlobal_sameWarps (s : State) (u c : Nat) (va : DWord) (l : List Byte) :
    SameWarps s (s.writeGlobal u c va l).2 := by
  have h := SameWarps.of_cached (s.translate_cached u c va .write)
  unfold State.writeGlobal
  split
  · next e => rw [e] at h; exact h
  · next e =>
    rw [e] at h
    split
    · exact h
    · exact h.trans (writeBytes_sameWarps ..)

theorem tryPost_sameWarps {c : Nat} {e : Errata} (h : s.tryPost c e = some t) : SameWarps s t := by
  have written {a b : State} {o : Wrote} {u c : Nat} {va : DWord} {l : List Byte} (ha : SameWarps s a)
      (hb : a.writeGlobal u c va l = (o, b)) : SameWarps s b := by
    have hw := writeGlobal_sameWarps a u c va l
    rw [hb] at hw
    exact ha.trans hw
  have hr := SameWarps.of_cached (s.readGlobal_cached (dieUnit 0) c (s.context c).errq 64)
  unfold State.tryPost at h
  dsimp only at h
  split at h
  · cases h; exact (SameWarps.refl s).toManagement e
  · split at h
    · next e1 => rw [e1] at hr; cases h; exact hr.toManagement e
    · next e1 =>
      rw [e1] at hr
      split at h
      · cases h; exact hr.toManagement e
      · split at h
        · split at h
          · cases h
          · next e2 => cases h; exact (written hr e2).toManagement e
          · next e2 =>
            split at h
            · cases h
            · next e3 => cases h; exact (written (written hr e2) e3).toManagement e
            · next e3 => cases h; exact (written (written hr e2) e3).setLost c false
        · split at h
          · cases h
          · next e2 => cases h; exact (written hr e2).toManagement e
          · next e2 => cases h; exact (written hr e2).setLost c true

theorem postTo_sameWarps (s : State) (c : Nat) (e : Errata) : SameWarps s (s.postTo c e) := by
  unfold State.postTo
  split
  · next h =>
    split at h
    · cases h
    · exact tryPost_sameWarps h
  · exact ⟨rfl, rfl⟩

theorem post_sameWarps (s : State) (e : Errata) : SameWarps s (s.post e) := by
  unfold State.post
  split
  · exact (SameWarps.foldl (fun a c => postTo_sameWarps ..) ..).trans ⟨rfl, rfl⟩
  · exact postTo_sameWarps ..
end

/-! ### The entry registers (R372) -/

section
variable (r : Regs) (group : Mask) (t : TrapInfo) (time : Nat) (replay : List Replay)

/-- The frame that a trap saves (R376). -/
def frameOf : Frame :=
  { cause := t.cause, time := time, gseq := r.gseq.toNat, group := group, trapping := (t.sync.map fun x => x.1).getD 0
    live := r.live, pcs := (lanesOf group).foldl (fun acc l => acc.set l (r.pcGet l)) []
    s60 := r.sget 60, s61 := r.sget 61, p1 := r.pget 1, js := r.j, latch := r.latch, lvalid := r.lvalid
    lmask := r.lmask, badL := r.badL, ages := r.ages, replay := replay }

theorem enter_eq : r.enter group t time replay =
    { ((((r.sset 60 ((t.sync.map fun x => x.2.2).getD 0)).sset 61 t.laddr).pset 1 (BitVec.allOnes 32)
      ((t.sync.map fun x => x.2.1).getD 0)).setPc group r.vec).dropLatches with frame := some (frameOf r group t time replay) } := by
  unfold Regs.enter frameOf
  cases t.sync <;> rfl

theorem frameOf_pcs {l : Nat} (hl : l < 32) (h : lane group l = true) : (frameOf r group t time replay).pcs.get l = r.pcGet l :=
  SMap.get_foldl_set_eq (lanesOf group) id r.pcGet [] l (r.pcGet l) (fun _ _ e => congrArg r.pcGet e)
    ⟨l, mem_lanesOf.2 ⟨hl, h⟩, rfl⟩

theorem enter_pcGet {l : Nat} (hl : l < 32) :
    (r.enter group t time replay).pcGet l = if lane group l then r.vec else r.pcGet l := by
  rw [enter_eq]
  exact Regs.pcGet_setPc _ _ _ hl

theorem enter_sget (k : Nat) : (r.enter group t time replay).sget k =
    if k = 60 then (t.sync.map fun x => x.2.2).getD 0 else if k = 61 then t.laddr else r.sget k := by
  rw [enter_eq]
  change ((r.sset 60 _).sset 61 _).sget k = _
  rw [Regs.sget_sset, Regs.sget_sset]
  split_ifs with h61 h60 h60
  · omega
  · rfl
  · rfl
  · rfl

theorem enter_pget (k : Nat) : (r.enter group t time replay).pget k =
    if k = 1 then (t.sync.map fun x => x.2.1).getD 0 else r.pget k := by
  rw [enter_eq]
  generalize (t.sync.map fun x => x.2.1).getD 0 = act
  change (if k = 0 then BitVec.allOnes 32
    else (r.p.set 1 ((act &&& BitVec.allOnes 32) ||| (r.p.get 1 &&& ~~~(BitVec.allOnes 32)))).get k) = _
  rw [SMap.get_set, Regs.pget]
  split_ifs with h0 h1 h1
  · omega
  · rfl
  · rw [BitVec.and_allOnes]; simp
  · rfl

theorem enter_rest : r.enter group t time replay = { r with
    s := (r.enter group t time replay).s, p := (r.enter group t time replay).p, pc := (r.enter group t time replay).pc
    lvalid := 0, frame := (r.enter group t time replay).frame } := by
  rw [enter_eq]; rfl

end

/-! ### The trap is taken (R372) -/

theorem flushResults_of_none {s : State} {slot : Nat} {w : Warp} (hw : s.warp slot = some w) (h : w.results = []) :
    s.flushResults slot = s := by
  simp only [State.flushResults, hw, h, List.foldl_nil]

/-- A warp with its trap taken (R372). -/
def entered (w : Warp) (slot : Nat) (t : TrapInfo) (time : Nat) : Warp :=
  let group := w.r.live &&& ~~~w.jwaiting
  let r1 := w.r.enter group t time (w.toReplay t.extra)
  { w with
    r := r1
    pend := w.pend.filter fun op => !op.replayed
    platen := if w.platHeld then [] else w.platen
    platHeld := false
    waits := w.waits.filter Wait.isJ
    proof := w.proof.map fun p => { p with lag := (p.lag.map (w.takenOff)) ++ [t.entry slot w group r1] } }

theorem takeTrap_eq {s : State} {slot : Nat} {w : Warp} {t : TrapInfo} (hw : s.warp slot = some w) (hc : CanEnter w)
    (hb : w.boundaryWith t.extra = true) : s.takeTrap slot t =
      (s.setWarp slot (entered w slot t s.time)).post
        ((s.setWarp slot (entered w slot t s.time)).trapRecord slot w t) := by
  have hr := flushResults_of_none hw hc.results
  simp only [State.takeTrap, hw, hc.outside, hb, hc.vec, State.enterHandler, hr]
  rfl

/-- A trap outside the handler, at a boundary, is taken and touches no other warp; nothing is chosen to run. -/
theorem entered_of_takeTrap {s : State} {slot : Nat} {w : Warp} {t : TrapInfo} (hw : s.warp slot = some w) (hc : CanEnter w)
    (hb : w.boundaryWith t.extra = true) :
    Entered s (s.takeTrap slot t) slot w t.cause t.sync t.laddr ∧ (s.takeTrap slot t).issue = s.issue := by
  rw [takeTrap_eq hw hc hb]
  have hp := post_sameWarps (s.setWarp slot (entered w slot t s.time))
    ((s.setWarp slot (entered w slot t s.time)).trapRecord slot w t)
  refine ⟨⟨fun k hk => ?_, ?_⟩, hp.2⟩
  · rw [hp.warp, State.warp_setWarp_ne _ _ hk]
  · refine ⟨entered w slot t s.time, frameOf w.r (w.r.live &&& ~~~w.jwaiting) t s.time (w.toReplay t.extra),
      by rw [hp.warp, State.warp_setWarp_self], ?_, rfl, rfl, rfl, rfl, rfl, rfl, rfl, rfl, rfl, rfl, rfl, rfl, rfl,
      fun l hl h => frameOf_pcs _ _ _ _ _ hl h, fun l hl => enter_pcGet _ _ _ _ _ hl, fun k => enter_sget ..,
      fun k => enter_pget .., enter_rest .., rfl, rfl, rfl⟩
    exact congrArg Regs.frame (enter_eq ..)

end Sys2Proof.Machine.Trap

namespace Sys2Proof.Machine.Fetch
open Sys2Proof.Claims

/-! SUPPORT for O3: the fetch at a PC (R26 to R30, R48). Where no write has touched the fetch block since the warp's LAUNCH packet
was parsed, each word has one content, so the fetch reads memory as it is and makes no choice. -/

/-! ### The chosen instructions do not matter to a translation -/

/-- A state with other instructions chosen. -/
def withIssue (s : State) (l : List Slot) : State := { s with issue := l }

section
variable (s : State) (l : List Slot)

theorem pick_withIssue (n : Nat) : (withIssue s l).pick n = ((s.pick n).1, withIssue (s.pick n).2 l) := by
  by_cases hn : n ≤ 1
  · simp only [State.pick, if_pos hn]
  · cases h : s.env with
    | nil =>
      have h' : (withIssue s l).env = [] := h
      simp only [State.pick, if_neg hn, h, h']
    | cons c t =>
      have h' : (withIssue s l).env = c :: t := h
      simp only [State.pick, if_neg hn, h, h']; rfl

theorem readEntry_withIssue (sheet pa : Nat) : (withIssue s l).readEntry sheet pa = s.readEntry sheet pa := rfl

theorem leafAt_withIssue (level sheet table va e ctx : Nat) :
    (withIssue s l).leafAt level sheet table va e ctx = s.leafAt level sheet table va e ctx := rfl

theorem walkFrom_withIssue (ctx va : Nat) : ∀ level sheet table,
    (withIssue s l).walkFrom ctx va level sheet table = s.walkFrom ctx va level sheet table := by
  intro level
  induction level with
  | zero => intro sheet table; rw [State.walkFrom, State.walkFrom, readEntry_withIssue]; rfl
  | succ n ih =>
    intro sheet table
    cases n <;> (rw [State.walkFrom, State.walkFrom, readEntry_withIssue]; simp only [ih, leafAt_withIssue])

theorem pointersFrom_withIssue (ctx va : Nat) : ∀ n sheet table,
    (withIssue s l).pointersFrom ctx va n sheet table = s.pointersFrom ctx va n sheet table := by
  intro n
  induction n with
  | zero => intro sheet table; rfl
  | succ n ih =>
    intro sheet table
    rw [State.pointersFrom, State.pointersFrom, readEntry_withIssue]; simp only [ih]

theorem leafOptions_withIssue (u ctx : Nat) (va : DWord) : (withIssue s l).leafOptions u ctx va = s.leafOptions u ctx va := by
  simp only [State.leafOptions, State.walk, walkFrom_withIssue]; rfl

theorem holdLeaf_withIssue (u cap : Nat) (t : TlbEntry) :
    (withIssue s l).holdLeaf u cap t = withIssue (s.holdLeaf u cap t) l := by
  unfold State.holdLeaf
  rw [show (withIssue s l).tlb = s.tlb from rfl]
  dsimp only
  split
  · rfl
  · simp only [pick_withIssue]; rfl

theorem holdLeaf_twice_withIssue (u v m n : Nat) (t : TlbEntry) :
    ((withIssue s l).holdLeaf u m t).holdLeaf v n t = withIssue ((s.holdLeaf u m t).holdLeaf v n t) l := by
  rw [holdLeaf_withIssue, holdLeaf_withIssue]

theorem holdFor_withIssue (u ctx : Nat) (va : DWord) (x : Except NoTrans TlbEntry) :
    (withIssue s l).holdFor u ctx va x = withIssue (s.holdFor u ctx va x) l := by
  unfold State.holdFor
  simp only [pointersFrom_withIssue]
  split
  · rfl
  · split
    · rfl
    · split
      · exact holdLeaf_twice_withIssue { s with tlb := _ } l ..
      · exact holdLeaf_withIssue { s with tlb := _ } l ..

/-- A translation depends on no chosen instruction and leaves them. -/
theorem translate_withIssue (u ctx : Nat) (va : DWord) (n : Need) : (withIssue s l).translate u ctx va n =
    ((s.translate u ctx va n).1, withIssue (s.translate u ctx va n).2 l) := by
  unfold State.translate
  split
  · rfl
  · simp only [leafOptions_withIssue, pick_withIssue, holdFor_withIssue]; rfl

end

/-! ### Words with one content (R30) -/

section
variable {s : State} {slot : Nat} {w : Warp} {key : Nat}

theorem undoAll_eq_self (k : Nat) (l : List Byte) : ∀ h : List Past,
    (∀ x ∈ h, x.undo k l = l) → ∀ y ∈ undoAll k h l, y = l := by
  intro h
  induction h with
  | nil => intro _ y hy; simpa [undoAll] using hy
  | cons x t ih =>
    intro hx y hy
    rw [List.forall_mem_cons] at hx
    rw [undoAll, hx.1, List.mem_cons] at hy
    exact hy.elim id (ih hx.2 y)

theorem undoAll_cons (k : Nat) (l : List Byte) (h : List Past) : ∃ t, undoAll k h l = l :: t := by
  cases h <;> exact ⟨_, rfl⟩

theorem eraseDups_of_all_eq {α : Type} [BEq α] [LawfulBEq α] {l t : List α} {a : α} (hl : l = a :: t)
    (h : ∀ y ∈ l, y = a) :
    l.eraseDups = [a] := by
  subst hl
  rw [List.forall_mem_cons] at h
  have ht : (t.filter fun b => !b == a) = [] := List.filter_eq_nil_iff.2 fun y hy => by simp [h.2 y hy]
  rw [List.eraseDups_cons, ht]; rfl

/-- A write outside some bytes replaced none of them. -/
theorem undo_eq_self (x : Past) (k : Nat) (l : List Byte) (h : x.key + x.old.length ≤ k ∨ k + l.length ≤ x.key) :
    x.undo k l = l := by
  refine List.ext_getElem (by simp [Past.undo]) fun i h1 h2 => ?_
  simp only [Past.undo, List.getElem_map, List.getElem_zipIdx, Nat.zero_add]
  split
  · next hk =>
    rw [List.getElem?_eq_none (by omega)]; rfl
  · rfl

/-- Every content that some bytes outside all writes have had is what they hold. -/
theorem versions_of_settled {n since : Nat} (h : ∀ x ∈ s.past.take (s.past.length - since),
    x.key + x.old.length ≤ key ∨ key + n ≤ x.key) : s.versions key n since = [s.bytes (.hbm key) n] := by
  have hl : (s.bytes (.hbm key) n).length = n := by simp [State.bytes]
  obtain ⟨t, ht⟩ := undoAll_cons key (s.bytes (.hbm key) n) (s.past.take (s.past.length - since))
  refine eraseDups_of_all_eq ht (undoAll_eq_self _ _ _ fun x hx => undo_eq_self _ _ _ ?_)
  rw [hl]
  exact h x hx

/-- The fetch block of a place has not been written since a warp's LAUNCH packet was parsed (R30). -/
def Settled (s : State) (w : Warp) (key : Nat) : Prop :=
  ∀ h ∈ s.past.take (s.past.length - w.codeSince), h.key + h.old.length ≤ key / 32 * 32 ∨ key / 32 * 32 + 32 ≤ h.key

theorem fetchWord_of_settled (hw : s.warp slot = some w) (hs : Settled s w key) {k : Nat} (h1 : key / 32 * 32 ≤ k)
    (h2 : k + 4 ≤ key / 32 * 32 + 32) : s.fetchWord slot (.hbm k) = (s.readLe (.hbm k) 4, s) := by
  have hv : s.versions k 4 (((s.warp slot).map Warp.codeSince).getD 0) = [s.bytes (.hbm k) 4] := by
    rw [hw]
    exact versions_of_settled fun h hh => (hs h hh).imp (fun h => by omega) fun h => by omega
  simp only [State.fetchWord, hv]; rfl

theorem leNat_append (a b : List Byte) : leNat (a ++ b) = leNat a + 2 ^ (8 * a.length) * leNat b := by
  induction a with
  | nil => simp [leNat]
  | cons x t ih =>
    rw [List.cons_append, leNat, leNat, ih, List.length_cons, show 8 * (t.length + 1) = 8 + 8 * t.length by omega, Nat.pow_add]
    ring

theorem readLe_add (s : State) (p : Place) (m n : Nat) :
    s.readLe p (m + n) = s.readLe p m + 2 ^ (8 * m) * s.readLe (p.add m) n := by
  have hb : s.bytes p (m + n) = s.bytes p m ++ s.bytes (p.add m) n := by
    simp only [State.bytes, List.range_add, List.map_append, List.map_map, Place.add_add]; rfl
  rw [State.readLe, hb, leNat_append]
  simp [State.readLe, State.bytes]

theorem readLe_lt (s : State) (p : Place) (n : Nat) : s.readLe p n < 2 ^ (8 * n) := by
  have key (l : List Byte) : leNat l < 2 ^ (8 * l.length) := by
    induction l with
    | nil => simp [leNat]
    | cons x t ih =>
      rw [leNat, List.length_cons, show 8 * (t.length + 1) = 8 + 8 * t.length by omega, Nat.pow_add]
      have := x.isLt
      omega
  simpa [State.readLe, State.bytes] using key (s.bytes p n)

theorem fetchMore_of_settled (hw : s.warp slot = some w) (hs : Settled s w key) :
    ∀ n k, key / 32 * 32 ≤ k → k + 4 * n ≤ key / 32 * 32 + 32 →
      s.fetchMore slot (.hbm k) n = (s.readLe (.hbm k) (4 * n), s) := by
  intro n
  induction n with
  | zero => intro k _ _; rfl
  | succ n ih =>
    intro k h1 h2
    rw [State.fetchMore, fetchWord_of_settled hw hs h1 (by omega)]
    simp only [Place.add_hbm, ih (k + 4) (by omega) (by omega)]
    rw [show 4 * (n + 1) = 4 + 4 * n by omega, readLe_add]; rfl

/-! ### What the fetch gives (R26 to R28, R48) -/

/-- How many words the fetch reads: no further than the block. -/
def span (s : State) (key : Nat) : Nat := min (max (lenWords (firstWord s key)) 2) (8 - key % 32 / 4)

theorem blockWords_eq (s : State) {key : Nat} : blockWords s key =
    firstWord s key + 2 ^ 32 * s.readLe (.hbm (key + 4)) (4 * (span s key - 1)) := by
  have : 1 ≤ span s key := by unfold span; omega
  rw [blockWords, show 4 * min (max (lenWords (firstWord s key)) 2) (8 - key % 32 / 4) = 4 + 4 * (span s key - 1) by
    unfold span at *; omega, readLe_add]
  rfl

theorem blockWords_mod (s : State) {key : Nat} : blockWords s key % 2 ^ 32 = firstWord s key := by
  have : firstWord s key < 2 ^ 32 := readLe_lt s (.hbm key) 4
  rw [blockWords_eq]
  omega

/-- A place whose fetch block is settled and not poisoned. -/
structure Readable (s : State) (slot : Nat) (w : Warp) (key : Nat) : Prop where
  warp : s.warp slot = some w
  aligned : key % 4 = 0
  clean : ∀ n, n ≤ 16 → s.poisoned (.hbm key) n = false
  settled : Settled s w key

theorem fetchPlace_quad (h : Readable s slot w key) (hq : isQuad (firstWord s key) = true) (va : Nat) :
    s.fetchPlace slot (.hbm key) va = (.quad, s) := by
  have hw := fetchWord_of_settled h.warp h.settled (k := key) (by omega) (by have := h.aligned; omega)
  rw [firstWord] at hq
  simp [State.fetchPlace, h.clean 4 (by omega), hw, hq]

theorem fetchPlace_instr (h : Readable s slot w key) (hq : isQuad (firstWord s key) = false) {va : Nat}
    (hva : va % 32 = key % 32) : s.fetchPlace slot (.hbm key) va =
      if 8 - key % 32 / 4 < lenWords (firstWord s key) then
        (.fault (decodeFault causeCrossing (firstWord s key) (s.readLe (.hbm (key + 4)) (4 * (span s key - 1)) % 2 ^ 32))
          (some (firstWord s key)), s)
      else (fetchedOf (blockWords s key) (lenWords (firstWord s key)), s) := by
  have ha := h.aligned
  have hw := fetchWord_of_settled h.warp h.settled (k := key) (by omega) (by omega)
  have hlen : lenWords (firstWord s key) ≤ 4 := by unfold lenWords; split <;> omega
  have hspan : 1 ≤ span s key ∧ span s key ≤ 4 ∧ span s key ≤ 8 - key % 32 / 4 := by unfold span; omega
  have hm := fetchMore_of_settled h.warp h.settled (span s key - 1) (key + 4) (by omega) (by omega)
  have hc : s.poisoned (.hbm key) (4 * (span s key - 1 + 1)) = false := h.clean _ (by omega)
  rw [blockWords_eq]
  unfold span at hm hc ⊢
  unfold firstWord at *
  simp only [State.fetchPlace, h.clean 4 (by omega), hw, hq, hva, hm, hc, Place.add_hbm]
  rfl

end
end Sys2Proof.Machine.Fetch

namespace Sys2Proof.Machine.Fetch
open Sys2Proof.Claims

section
variable {s t : State} {slot : Nat} {w : Warp} {key : Nat}

theorem readLe_of_cached (h : s.Cached t) (p : Place) (n : Nat) : t.readLe p n = s.readLe p n := by
  obtain ⟨a, b, rfl⟩ := h.eq
  cases p <;> rfl

theorem firstWord_of_cached (h : s.Cached t) (key : Nat) : firstWord t key = firstWord s key := readLe_of_cached h ..
theorem blockWords_of_cached (h : s.Cached t) (key : Nat) : blockWords t key = blockWords s key := by
  rw [blockWords, blockWords, firstWord_of_cached h, readLe_of_cached h]

end

/-! ### The fetch at a PC that names a word of memory -/

section
variable {s s1 : State} {slot : Nat} {w : Warp} {pc : DWord} {key : Nat}

theorem codeAt_cached (h : CodeAt s s1 slot w pc key) : s.Cached s1 := by
  obtain ⟨p, ht, -⟩ := h.place
  have hc := s.translate_cached (slotQuadId slot) w.ctx pc .fetch
  rwa [ht] at hc

theorem codeAt_readable (hw : s.warp slot = some w) (h : CodeAt s s1 slot w pc key) : Readable s1 slot w key := by
  obtain ⟨a, b, rfl⟩ := (codeAt_cached h).eq
  exact ⟨hw, by have := h.aligned; have := h.offset; omega, h.clean, h.settled⟩

theorem fetch_of_codeAt (h : CodeAt s s1 slot w pc key) :
    s.fetch slot w.ctx pc = s1.fetchPlace slot (.hbm key) (pc.toNat % 2 ^ 57) := by
  obtain ⟨p, ht, hp⟩ := h.place
  simp [State.fetch, h.aligned, ht, hp]

theorem fetch_quad (hw : s.warp slot = some w) (h : CodeAt s s1 slot w pc key) (hq : isQuad (firstWord s key) = true) :
    s.fetch slot w.ctx pc = (.quad, s1) := by
  rw [← firstWord_of_cached (codeAt_cached h)] at hq
  rw [fetch_of_codeAt h, fetchPlace_quad (codeAt_readable hw h) hq]

/-- A word that is no quad is fetched with its block's words, unless its instruction crosses the block. -/
theorem fetch_instr (hw : s.warp slot = some w) (h : CodeAt s s1 slot w pc key) (hq : isQuad (firstWord s key) = false) :
    ∃ y, s.fetch slot w.ctx pc =
      if 8 < pc.toNat % 32 / 4 + lenWords (firstWord s key) then
        (.fault (decodeFault 0x03 (firstWord s key) y) (some (firstWord s key)), s1)
      else (fetchedOf (blockWords s key) (lenWords (firstWord s key)), s1) := by
  have hc := codeAt_cached h
  have ho := h.offset
  rw [← firstWord_of_cached hc] at hq
  rw [fetch_of_codeAt h, fetchPlace_instr (codeAt_readable hw h) hq (by omega), ← blockWords_of_cached hc,
    ← firstWord_of_cached hc, ← ho]
  refine ⟨s1.readLe (.hbm (key + 4)) (4 * (span s1 key - 1)) % 2 ^ 32, ?_⟩
  have hb : (8 - key % 32 / 4 < lenWords (firstWord s1 key)) ↔ 8 < key % 32 / 4 + lenWords (firstWord s1 key) := by omega
  simp only [hb]; rfl

theorem fetch_crossing (hw : s.warp slot = some w) (h : CodeAt s s1 slot w pc key) (hq : isQuad (firstWord s key) = false)
    (hb : 8 < pc.toNat % 32 / 4 + lenWords (firstWord s key)) :
    ∃ y, s.fetch slot w.ctx pc = (.fault (decodeFault 0x03 (firstWord s key) y) (some (firstWord s key)), s1) := by
  obtain ⟨y, hf⟩ := fetch_instr hw h hq
  exact ⟨y, by rw [hf, if_pos hb]⟩

theorem fetch_undecoded {e : DecFault} (hw : s.warp slot = some w) (h : CodeAt s s1 slot w pc key)
    (hq : isQuad (firstWord s key) = false) (hb : pc.toNat % 32 / 4 + lenWords (firstWord s key) ≤ 8)
    (hd : decodeNat (blockWords s key) = .error e) :
    ∃ y, s.fetch slot w.ctx pc = (.fault (decodeFault e.code (firstWord s key) y) (some (firstWord s key)), s1) := by
  obtain ⟨y, hf⟩ := fetch_instr hw h hq
  refine ⟨bits (blockWords s key) 32 32, ?_⟩
  rw [hf, if_neg (by omega), fetchedOf, hd, blockWords_mod]

theorem fetch_decoded {i : Instr} (hw : s.warp slot = some w) (h : CodeAt s s1 slot w pc key)
    (hq : isQuad (firstWord s key) = false) (hb : pc.toNat % 32 / 4 + lenWords (firstWord s key) ≤ 8)
    (hd : decodeNat (blockWords s key) = .ok i) :
    ∃ y, s.fetch slot w.ctx pc = (.instr i (lenWords (firstWord s key)) (firstWord s key) y, s1) := by
  obtain ⟨y, hf⟩ := fetch_instr hw h hq
  refine ⟨bits (blockWords s key) 32 32, ?_⟩
  rw [hf, if_neg (by omega), fetchedOf, hd, blockWords_mod]

theorem fetch_untranslated {c e : Nat} (ha : pc.toNat % 4 = 0)
    (ht : s.translate (slotQuadId slot) w.ctx pc .fetch = (.error (.cause c e), s1)) :
    s.fetch slot w.ctx pc = (.fault ⟨c, pc, BitVec.ofNat 64 kindFetch, BitVec.ofNat 64 e, flagFetch⟩ none, s1) := by
  simp [State.fetch, ha, ht]

theorem fetch_misaligned (ha : pc.toNat % 4 ≠ 0) : s.fetch slot w.ctx pc = (.fault (decodeFault 0x0A 0 0) none, s) := by
  rw [State.fetch, if_pos ha]; rfl

/-- The instruction at a PC that passes every check is fetched. -/
theorem fetch_of_fetches {m : Mask} {i : Instr} {len : Nat} (hw : s.warp slot = some w) (h : Fetches s s1 slot w m pc i len) :
    s.Cached s1 ∧ ∃ x y, s.fetch slot w.ctx pc = (.instr i len x y, s1) := by
  obtain ⟨key, hc, hq, rfl, hd⟩ := h.word
  exact ⟨codeAt_cached hc, _, fetch_decoded hw hc hq h.block hd⟩

theorem codeAt_withIssue (l : List Slot) (h : CodeAt s s1 slot w pc key) :
    CodeAt (withIssue s l) (withIssue s1 l) slot w pc key := by
  obtain ⟨p, ht, hp⟩ := h.place
  exact ⟨h.aligned, ⟨p, by rw [translate_withIssue, ht], hp⟩, h.offset, h.clean, h.settled⟩

theorem fetches_withIssue {m : Mask} {i : Instr} {len : Nat} (l : List Slot) (h : Fetches s s1 slot w m pc i len) :
    Fetches (withIssue s l) (withIssue s1 l) slot w m pc i len := by
  obtain ⟨key, hc, hw⟩ := h.word
  exact ⟨⟨key, codeAt_withIssue l hc, hw⟩, h.block, h.granted, h.latched⟩

end

/-! ### The groups of some lanes (R274) -/

section
variable {a b : DWord} {x y e m k : Mask} {r : Regs}

/-- At most two groups, in the order of their PCs. -/
def twoGroups (a b : DWord) (x y : Mask) : List Group :=
  (if x = 0 then [] else [⟨a, x, .quad⟩]) ++ if y = 0 then [] else [⟨b, y, .quad⟩]

theorem twoGroups_first (hx : x ≠ 0) : twoGroups a b x y = ⟨a, x, .quad⟩ :: twoGroups a b 0 y := by
  rw [twoGroups, twoGroups, if_neg hx, if_pos rfl]; rfl

theorem twoGroups_second (hy : y ≠ 0) : twoGroups a b 0 y = [⟨b, y, .quad⟩] := by
  rw [twoGroups, if_pos rfl, if_neg hy]; rfl

theorem twoGroups_none : twoGroups a b 0 0 = [] := rfl

theorem zero_or_mask (x : Mask) : 0 ||| x = x := BitVec.zero_or

theorem or_ne_zero (he : e ≠ 0) : x ||| e ≠ 0 := fun h => he (BitVec.or_eq_zero_iff.1 h).2

theorem ne_of_lt_pc (h : a < b) : a ≠ b := fun hab => by subst hab; exact absurd h (BitVec.lt_irrefl a)

theorem addGroup_first (he : e ≠ 0) (h : y ≠ 0 → a < b) :
    addGroup ⟨a, e, .quad⟩ (twoGroups a b x y) = twoGroups a b (x ||| e) y := by
  rw [twoGroups_first (or_ne_zero he)]
  by_cases hx : x = 0
  · rw [hx, zero_or_mask]
    by_cases hy : y = 0
    · rw [hy, twoGroups_none, addGroup]
    · rw [twoGroups_second hy, addGroup, if_neg (ne_of_lt_pc (h hy)), if_pos (h hy)]
  · rw [twoGroups_first hx, addGroup, if_pos rfl]

theorem addGroup_second (he : e ≠ 0) (h : a < b) :
    addGroup ⟨b, e, .quad⟩ (twoGroups a b x y) = twoGroups a b x (y ||| e) := by
  have hback : addGroup ⟨b, e, .quad⟩ (twoGroups a b 0 y) = twoGroups a b 0 (y ||| e) := by
    rw [twoGroups_second (or_ne_zero he)]
    by_cases hy : y = 0
    · rw [hy, twoGroups_none, addGroup, zero_or_mask]
    · rw [twoGroups_second hy, addGroup, if_pos rfl]
  by_cases hx : x = 0
  · rw [hx, hback]
  · have hlt : ¬b < a := fun h' => absurd (BitVec.lt_trans h h') (BitVec.lt_irrefl a)
    rw [twoGroups_first hx, twoGroups_first hx, addGroup, if_neg (ne_of_lt_pc h).symm, if_neg hlt, hback]

/-- The mask of some lanes. -/
def maskOfLanes : List Nat → Mask
  | [] => 0
  | l :: t => BitVec.ofNat 32 (2 ^ l) ||| maskOfLanes t

theorem getLsbD_maskOfLanes (L : List Nat) {j : Nat} (hj : j < 32) : (maskOfLanes L).getLsbD j = decide (j ∈ L) := by
  induction L with
  | nil => simp [maskOfLanes]
  | cons l t ih =>
    rw [maskOfLanes, BitVec.getLsbD_or, ih, BitVec.getLsbD_ofNat, Nat.testBit_two_pow]
    simp [hj, List.mem_cons, eq_comm, Bool.decide_or]

theorem laneBit_ne_zero {l : Nat} (hl : l < 32) : BitVec.ofNat 32 (2 ^ l) ≠ 0 := fun h => by
  have hbit : (BitVec.ofNat 32 (2 ^ l)).getLsbD l = true := by
    rw [BitVec.getLsbD_ofNat, Nat.testBit_two_pow]; simp [hl]
  rw [h] at hbit
  simp at hbit

theorem lane_and_not (k m : Mask) {l : Nat} (hl : l < 32) : lane (k &&& ~~~m) l = (lane k l && !lane m l) := by
  simp only [lane, BitVec.getLsbD_and, BitVec.getLsbD_not, hl, decide_true, Bool.true_and]

theorem maskOfLanes_filter (k m : Mask) : maskOfLanes ((lanesOf k).filter (lane m)) = k &&& m := by
  refine BitVec.eq_of_getLsbD_eq fun j hj => ?_
  rw [getLsbD_maskOfLanes _ hj, BitVec.getLsbD_and]
  simp [mem_lanesOf, hj, lane]

theorem foldl_addGroup (L : List Nat) : ∀ x y, (∀ l ∈ L, l < 32) →
    (∀ l ∈ L, r.pcGet l = if lane m l then a else b) → ((y ≠ 0 ∨ ∃ l ∈ L, lane m l = false) → a < b) →
    L.foldl (fun acc l => addGroup ⟨r.pcGet l, BitVec.ofNat 32 (2 ^ l), .quad⟩ acc) (twoGroups a b x y) =
      twoGroups a b (x ||| maskOfLanes (L.filter (lane m))) (y ||| maskOfLanes (L.filter fun l => !lane m l)) := by
  induction L with
  | nil => intro x y _ _ _; simp [maskOfLanes]
  | cons l t ih =>
    intro x y hl hp hab
    rw [List.forall_mem_cons] at hl hp
    have he := laneBit_ne_zero hl.1
    rw [List.foldl_cons, hp.1]
    cases hm : lane m l with
    | true =>
      rw [if_pos rfl, addGroup_first he fun hy => hab (.inl hy), ih _ _ hl.2 hp.2 fun h => hab (h.imp id fun ⟨j, hj, h⟩ =>
        ⟨j, List.mem_cons_of_mem _ hj, h⟩)]
      simp [hm, maskOfLanes, BitVec.or_assoc]
    | false =>
      have hlt := hab (.inr ⟨l, List.mem_cons_self, hm⟩)
      rw [if_neg (by simp), addGroup_second he hlt, ih _ _ hl.2 hp.2 fun _ => hlt]
      simp [hm, maskOfLanes, BitVec.or_assoc]

/-- The lanes of k stand at a, those of them outside m at b: two groups at most. -/
theorem groupsOf_two (hp : ∀ l, l < 32 → lane k l = true → r.pcGet l = if lane m l then a else b)
    (hab : k &&& ~~~m ≠ 0 → a < b) : groupsOf r k = twoGroups a b (k &&& m) (k &&& ~~~m) := by
  have hnot : ((lanesOf k).filter fun l => !lane m l) = (lanesOf k).filter (lane (~~~m)) :=
    List.filter_congr fun l hl => by simp [lane, (mem_lanesOf.1 hl).1]
  have h := foldl_addGroup (r := r) (a := a) (b := b) (m := m) (lanesOf k) 0 0 (fun l hl => (mem_lanesOf.1 hl).1)
    (fun l hl => hp l (mem_lanesOf.1 hl).1 (mem_lanesOf.1 hl).2) fun h => by
      obtain ⟨l, hl, hm⟩ := h.resolve_left (by simp)
      obtain ⟨hl, hk⟩ := mem_lanesOf.1 hl
      refine hab fun h0 => ?_
      have hlane := lane_and_not k m hl
      rw [h0, hk, hm, lane_zero] at hlane
      cases hlane
  rw [hnot, maskOfLanes_filter, maskOfLanes_filter, zero_or_mask, zero_or_mask] at h
  exact h

theorem groupsOf_one (hk : k ≠ 0) (hp : ∀ l, l < 32 → lane k l = true → r.pcGet l = a) :
    groupsOf r k = [⟨a, k, .quad⟩] := by
  have h := groupsOf_two (m := BitVec.allOnes 32) (a := a) (b := a) (fun l hl hkl => by rw [hp l hl hkl, ite_self])
    (fun h => absurd (by simp) h)
  have hall : k &&& ~~~(BitVec.allOnes 32) = 0 := by simp
  rw [h, hall, BitVec.and_allOnes, twoGroups_first hk, twoGroups_none]

end
end Sys2Proof.Machine.Fetch

namespace Sys2Proof.Machine.Opportunity
open Sys2Proof.Claims Fetch

/-! SUPPORT for O3: an issue opportunity of a quadrant whose one warp has nothing in flight (R92, R274 to R276). -/

/-! ### A warp that nothing holds -/

/-- Nothing of a warp or of any other is in flight, and the warp waits for nothing. -/
structure Idle (s : State) (slot : Nat) (w : Warp) : Prop where
  warp : s.warp slot = some w
  pend : ∀ x ∈ s.warpList, x.2.pend = []
  cmds : s.cmds = []
  empty : w.results = [] ∧ w.platen = [] ∧ w.heldTok = [] ∧ w.waits = [] ∧ w.levels = [] ∧ w.async = [] ∧ w.det = [] ∧
    w.pend = [] ∧ w.proof = none ∧ w.r.frame = none

section
variable {s t : State} {q slot : Nat} {w : Warp}

theorem Idle.of_quiet (h : Quiet s q slot w) : Idle s slot w := ⟨h.warp, h.settled.1, h.settled.2, h.empty⟩

theorem Idle.cached (h : Idle s slot w) (hc : s.Cached t) : Idle t slot w := by
  obtain ⟨a, b, rfl⟩ := hc.eq
  exact ⟨h.warp, h.pend, h.cmds, h.empty⟩

theorem mem_set_of_mem {β : Type} [Inhabited β] [DecidableEq β] {m : SMap β} {k : Nat} {v : β} {x : Nat × β}
    (h : x ∈ m.set k v) : x ∈ m ∨ x = (k, v) := by
  have erased (m : SMap β) (h : x ∈ m.erase k) : x ∈ m := (List.mem_filter.1 h).1
  induction m with
  | nil =>
    rw [SMap.set] at h
    split at h
    · exact .inl h
    · exact .inr (List.mem_singleton.1 h)
  | cons y t ih =>
    rw [SMap.set] at h
    split at h
    · split at h
      · exact .inl (erased _ h)
      · exact (List.mem_cons.1 h).elim .inr .inl
    · split at h
      · split at h
        · exact .inl (List.mem_cons_of_mem _ (erased _ h))
        · exact (List.mem_cons.1 h).elim .inr fun h => .inl (List.mem_cons_of_mem _ h)
      · rcases List.mem_cons.1 h with h | h
        · exact .inl (h ▸ List.mem_cons_self)
        · exact (ih h).imp (List.mem_cons_of_mem _) id

theorem mem_warpList_setWarp {k : Nat} {v : Warp} {x : Nat × Warp} (h : x ∈ (s.setWarp k v).warpList) :
    x ∈ s.warpList ∨ x = (k, v) := by
  obtain ⟨y, hy, hx⟩ := List.mem_filterMap.1 h
  rcases mem_set_of_mem hy with hy | rfl
  · exact .inl (List.mem_filterMap.2 ⟨y, hy, hx⟩)
  · exact .inr (Option.some.inj hx).symm

/-- Other registers outside a handler leave the warp idle. -/
theorem Idle.setWarp (h : Idle s slot w) {r : Regs} (hr : r.frame = none) :
    Idle (s.setWarp slot { w with r := r }) slot { w with r := r } := by
  obtain ⟨he1, he2, he3, he4, he5, he6, he7, hp, he8, -⟩ := h.empty
  refine ⟨State.warp_setWarp_self .., fun x hx => ?_, h.cmds, he1, he2, he3, he4, he5, he6, he7, hp, he8, hr⟩
  rcases mem_warpList_setWarp hx with hx | rfl
  · exact h.pend x hx
  · exact hp

theorem pending_of_idle (h : Idle s slot w) : s.pending slot w = {} := by
  obtain ⟨hres, hplat, htok, -, -, -, -, hpend, hproof, hframe⟩ := h.empty
  simp [State.pending, State.warpCmds, Regs.replayPlat, hres, hplat, htok, hpend, hproof, hframe, h.cmds, Use.all, Use.and]

theorem inFlight_of_idle (h : Idle s slot w) : w.inFlight = [] := by
  obtain ⟨-, -, -, -, -, -, -, hpend, hproof, -⟩ := h.empty
  simp [Warp.inFlight, Warp.lagOps, hpend, hproof]

theorem visible_of_idle (h : Idle s slot w) : s.visible slot = [] := by
  refine List.flatMap_eq_nil_iff.2 fun y hy => ?_
  rw [h.pend y hy]
  split <;> rfl

theorem releaseReady_of_idle (h : Idle s slot w) (id reach : Nat) : s.releaseReady slot w id reach = true := by
  obtain ⟨-, hplat, -, -, -, -, -, hpend, hproof, -⟩ := h.empty
  simp [State.releaseReady, Warp.lagOps, Warp.storesQueued, visible_of_idle h, hplat, hpend, hproof]

theorem sbCount_of_idle (h : Idle s slot w) (n : Nat) : w.sbCount n = 0 := by
  obtain ⟨-, hplat, -, -, -, -, -, -, -, hframe⟩ := h.empty
  simp [Warp.sbCount, Regs.replayMem, Regs.replayPlat, inFlight_of_idle h, hplat, hframe]

theorem activeStall_of_idle (h : Idle s slot w) (i : Instr) : s.activeStall slot w i = false := by
  have hflight := inFlight_of_idle h
  have hready := releaseReady_of_idle h s.opSeq 4
  obtain ⟨hres, hplat, -, hwaits, hlevels, -, -, hpend, hproof, hframe⟩ := h.empty
  have hfeeder : s.feederInFlight slot w = 0 := by simp [State.feederInFlight, State.warpCmds, h.cmds, hlevels, hproof]
  have hfence : w.deviceFence = false := by simp [Warp.deviceFence, hpend]
  have hdrain : w.draining = false := by simp [Warp.draining, hwaits]
  have hregion : regionQuiet w = true := by simp [regionQuiet, hpend, hplat, hres, hproof]
  simp only [State.activeStall, hfeeder, hfence, hdrain, hflight, hplat, sbCount_of_idle h, Config.feederInFlight, hregion, hready,
    hframe]
  split <;> simp

theorem unitStall_of_idle (h : Idle s slot w) (i : Instr) (act : Mask) : s.unitStall slot w i act = false := by
  have hactive := activeStall_of_idle h i
  obtain ⟨-, hplat, -, hwaits, -, -, -, hpend, -, -⟩ := h.empty
  simp [State.unitStall, State.windowFull, Warp.walking, hactive, hplat, hwaits, hpend, Config.platenQueue]

theorem deferredTokens_of_idle (h : Idle s slot w) : w.deferredTokens = [] := by
  obtain ⟨-, -, -, -, hlevels, -⟩ := h.empty
  simp [Warp.deferredTokens, hlevels]

theorem meets_nil (l : List Nat) : meets l [] = false := by simp [meets]

/-! ### What becomes of a group (R12, R40, R48) -/

section
variable {g : Group} {i : Instr} {len x y : Nat}

theorem verdict_issue (h : Idle s slot w) (hg : g.what = .instr i len x y)
    (hr : (useOf i).outOfGrant w.vgrant w.tgrant = false) (hl : staleLatch w.r g.grp (useOf i) = false) :
    s.verdict slot w (s.pending slot w) g = .issue i len := by
  have hblocked (u : Use) : u.blockedBy {} = false := by simp [Use.blockedBy, meets_nil]
  simp only [State.verdict, hg, hr, hl, pending_of_idle h, hblocked, unitStall_of_idle h, deferredTokens_of_idle h, meets_nil]
  simp

theorem verdict_outOfGrant (hg : g.what = .instr i len x y) (busy : Use)
    (hr : (useOf i).outOfGrant w.vgrant w.tgrant = true) :
    s.verdict slot w busy g = .fault (decodeFault 0x08 x y) (active w.r g.grp (wordGuard x)) := by
  simp only [State.verdict, hg, hr]; rfl

theorem verdict_staleLatch (hg : g.what = .instr i len x y) (busy : Use)
    (hr : (useOf i).outOfGrant w.vgrant w.tgrant = false) (hl : staleLatch w.r g.grp (useOf i) = true) :
    s.verdict slot w busy g = .fault (decodeFault 0x09 x y) (active w.r g.grp (wordGuard x)) := by
  simp only [State.verdict, hg, hr, hl]; rfl

theorem verdict_fault {f : SyncFault} {o : Option Nat} (hg : g.what = .fault f o) (busy : Use) :
    s.verdict slot w busy g = .fault f ((o.map fun x => active w.r g.grp (wordGuard x)).getD g.grp) := by
  cases o <;> simp only [State.verdict, hg] <;> rfl

end
end
end Sys2Proof.Machine.Opportunity

namespace Sys2Proof.Machine.Opportunity
open Sys2Proof.Claims Fetch Trap

/-! ### The offers of a quadrant with one warp (R275) -/

section
variable {s t u : State} {q slot : Nat} {w : Warp}

theorem foldl_eq_self {α β : Type} {f : β → α → β} {b : β} {l : List α} (h : ∀ x ∈ l, f b x = b) :
    l.foldl f b = b := by
  induction l with
  | nil => rfl
  | cons x t ih =>
    rw [List.forall_mem_cons] at h
    rw [List.foldl_cons, h.1, ih h.2]

theorem settle_of_none (h : s.warp slot = none) : s.settle slot = s := by
  simp [State.settle, State.settleFences, State.stampStores, h]

theorem settle_of_idle (h : Idle s slot w) : s.settle slot = s := by
  obtain ⟨-, -, -, -, -, -, -, hpend, -, -⟩ := h.empty
  simp [State.settle, State.settleFences, State.stampStores, h.warp, hpend, stampOps]

/-- Nothing in flight settles. -/
theorem settleQuad_of_quiet (h : Quiet s q slot w) : s.settleQuad q = s := by
  refine foldl_eq_self fun k hk => ?_
  have hk := List.mem_range.1 hk
  by_cases hs : q * 17 + k = slot
  · rw [hs, settle_of_idle (.of_quiet h)]
  · exact settle_of_none (h.alone _ (by omega) hs)

theorem quiet_withIssue (h : Quiet s q slot w) (l : List Slot) : Quiet (withIssue s l) q slot w :=
  ⟨h.place, h.warp, h.alone, h.settled, h.empty, h.runs⟩

theorem offerLeader_of_none (h : s.warp slot = none) : s.offerLeader slot = (none, s) := by
  simp only [State.offerLeader, h]

theorem offerProof_of_none (h : ∀ w, s.warp slot = some w → w.proof = none) : s.offerProof slot = (none, s) := by
  cases hw : s.warp slot with
  | none => simp only [State.offerProof, hw]
  | some w => simp only [State.offerProof, hw, h w hw, Option.bind_none]

/-- Nothing keeps the warp from its offer. -/
theorem offerLeader_of_quiet (h : Quiet s q slot w) : s.offerLeader slot = s.offerGroups slot w := by
  obtain ⟨-, hplat, -, -, -, hasync, hdet, hpend, hproof, hframe⟩ := h.empty
  obtain ⟨hstop, g, hg, hphase⟩ := h.runs
  have hoverdue : w.overdue = none := by simp [Warp.overdue, Regs.inHandler, hframe]
  have hbarred : s.barred w = false := by
    simp [State.barred, Regs.inHandler, hstop, hg, hphase, hframe, hasync, hdet, hpend, hplat, hproof]
  simp [State.offerLeader, h.warp, hoverdue, hbarred]

/-- No other place of the quadrant makes an offer. -/
theorem offer_of_other (h : Quiet s q slot w) {k : Nat} (hk : k < 34) (hne : k ≠ slot % 17) : s.offer q k = (none, s) := by
  have hq := h.place.2
  unfold State.offer
  split
  · exact offerLeader_of_none (h.alone _ (by omega) (by omega))
  · refine offerProof_of_none fun v hv => ?_
    by_cases hs : q * 17 + (k - 17) = slot
    · rw [hs, h.warp] at hv
      obtain ⟨-, -, -, -, -, -, -, -, hproof, -⟩ := h.empty
      rw [← Option.some.inj hv, hproof]
    · rw [h.alone _ (by omega) hs] at hv
      cases hv

/-- The first offer taken ends the round. -/
theorem offerFrom_of_only {k : Nat} (hk : s.offer q k = (some t, u)) : ∀ l : List Nat, k ∈ l →
    (∀ j ∈ l, j ≠ k → s.offer q j = (none, s)) → s.offerFrom q l = { t with rrSlot := t.rrSlot.set q k } := by
  intro l
  induction l with
  | nil => intro hm; cases hm
  | cons j l ih =>
    intro hm hn
    rw [List.forall_mem_cons] at hn
    by_cases hj : j = k
    · rw [State.offerFrom, hj, hk]
    · rw [State.offerFrom, hn.1 hj]
      exact ih ((List.mem_cons.1 hm).resolve_left fun h => hj h.symm) hn.2

/-- The opportunity of the quadrant is that of its one warp. -/
theorem exec_issueOpportunity (h : Quiet s q slot w) (ho : (withIssue s []).offerGroups slot w = (some t, u)) :
    exec (.issueOpportunity q) s = .next { t with rrSlot := t.rrSlot.set q (slot % 17) } := by
  have hq := h.place.2
  have h0 := quiet_withIssue h []
  have hoffer : (withIssue s []).offer q (slot % 17) = (some t, u) := by
    rw [State.offer, if_pos (Nat.mod_lt _ (by omega)), show q * 17 + slot % 17 = slot by omega, offerLeader_of_quiet h0, ho]
  have hround := offerFrom_of_only hoffer ((List.range 34).map fun i => (s.rrSlot.get q + 1 + i) % 34)
    (List.mem_map.2 ⟨(slot % 17 + 34 - (s.rrSlot.get q + 1) % 34) % 34, List.mem_range.2 (by omega), by omega⟩)
    fun j hj hne => by
      obtain ⟨i, -, rfl⟩ := List.mem_map.1 hj
      exact offer_of_other h0 (Nat.mod_lt _ (by omega)) hne
  have hlt : ¬Config.formes * Config.quadsPerForme ≤ q := by
    have := h.place.1
    simp only [Config.formes, Config.quadsPerForme]
    omega
  show execIssueOpportunity q s = _
  rw [execIssueOpportunity, if_neg hlt, settleQuad_of_quiet h]
  exact congrArg Host.Outcome.next hround

end

/-! ### The fetch of the groups (R26 to R28) -/

section
variable {s s1 s2 : State} {slot c : Nat} {m x y : Mask} {pc a b : DWord} {f g : Fetched}

theorem fetchPast_of_fetch (n : Nat) (hf : s.fetch slot c pc = (f, s1)) (hq : f ≠ .quad) :
    s.fetchPast slot c pc (n + 1) = (pc, f, s1) := by
  rw [State.fetchPast, hf]
  cases f
  case quad => exact absurd rfl hq
  all_goals rfl

theorem fetchPast_of_quad (n : Nat) (hf : s.fetch slot c pc = (.quad, s1)) :
    s.fetchPast slot c pc (n + 1) = s1.fetchPast slot c (pc + 4) n := by
  rw [State.fetchPast, hf]

theorem fetchGroups_one (hf : s.fetch slot c pc = (f, s1)) (hq : f ≠ .quad) :
    s.fetchGroups slot c [⟨pc, m, .quad⟩] = ([⟨pc, m, f⟩], s1) := by
  simp [State.fetchGroups, fetchPast_of_fetch 15 hf hq, addGroup]

theorem fetchGroups_two (ha : s.fetch slot c a = (f, s1)) (hf : f ≠ .quad) (hb : s1.fetch slot c b = (g, s2)) (hg : g ≠ .quad)
    (hab : a < b) : s.fetchGroups slot c [⟨a, x, .quad⟩, ⟨b, y, .quad⟩] = ([⟨a, x, f⟩, ⟨b, y, g⟩], s2) := by
  simp [State.fetchGroups, fetchPast_of_fetch 15 ha hf, fetchPast_of_fetch 15 hb hg, addGroup, ne_of_lt_pc hab, hab]

/-- A group behind a quad moves past it (R27). -/
theorem fetchGroups_quad (ha : s.fetch slot c pc = (.quad, s1)) (hb : s1.fetch slot c (pc + 4) = (f, s2)) (hq : f ≠ .quad) :
    s.fetchGroups slot c [⟨pc, m, .quad⟩] =
      ([⟨pc + 4, m, f⟩], s2.modWarp slot fun w => w.stepOver m pc (pc + 4)) := by
  have hne : pc + 4 ≠ pc := by bv_omega
  have hp : s.fetchPast slot c pc 16 = (pc + 4, f, s2) := by rw [fetchPast_of_quad 15 ha, fetchPast_of_fetch 14 hb hq]
  simp only [State.fetchGroups, hp, if_neg hne, addGroup]

end

/-! ### The choice (R92, R276) -/

section
variable {s s1 : State} {slot : Nat} {w w1 : Warp} {g h : Group} {i j : Instr} {len len' : Nat} {f : SyncFault} {act : Mask}

theorem chooseFirst_singleton (r : Regs) (p : Group × Verdict) : chooseFirst r [p] = some p := by
  by_cases h : 32 ≤ r.age p.1.grp <;> simp [chooseFirst, h]

theorem age_lt {r : Regs} (h : ∀ l, r.ages.get l < 32) (m : Mask) : r.age m < 32 := by
  have key (L : List Nat) : ∀ a, a < 32 → L.foldl (fun a l => max a (r.ages.get l)) a < 32 := by
    induction L with
    | nil => intro a ha; exact ha
    | cons l t ih => intro a ha; exact ih _ (Nat.max_lt.2 ⟨ha, h l⟩)
  exact key _ 0 (by omega)

/-- Among young groups the one with the lowest PC comes first. -/
theorem chooseFirst_young {r : Regs} (hr : ∀ l, r.ages.get l < 32) (p : Group × Verdict) (t : List (Group × Verdict)) :
    chooseFirst r (p :: t) = some p := by
  have hnone : ((p :: t).filter fun x => decide (32 ≤ r.age x.1.grp)) = [] :=
    List.filter_eq_nil_iff.2 fun x _ => by simpa using age_lt hr x.1.grp
  rw [chooseFirst, hnone]; rfl

/-- The lanes of the warp of one group have aged. -/
def agedWarp (w : Warp) (runnable issued : Mask) : Warp := { w with r := w.r.aged runnable issued }

theorem setIssue_one (hw : s.warp slot = some w) : s.setIssue slot w [(g, .issue i len)] g i len =
    { s.setWarp slot (agedWarp w (0 ||| g.grp) g.grp) with issue := [⟨slot, false, g.grp, g.pc, len, i⟩] } := by
  have h : s.secondOf slot w [(g, .issue i len)] g i = none := by simp [State.secondOf]
  simp only [State.setIssue, h, State.modWarp_some _ hw]; rfl

theorem setIssue_two (hw : s.warp slot = some w) (hne : h.pc ≠ g.pc) (hi : s.pairable slot w i g.grp = true)
    (hj : s.pairable slot w j h.grp = true) :
    s.setIssue slot w [(g, .issue i len), (h, .issue j len')] g i len =
      { s.setWarp slot (agedWarp w (0 ||| g.grp ||| h.grp) (g.grp ||| h.grp)) with
        issue := if movesFirst i j then [⟨slot, false, h.grp, h.pc, len', j⟩, ⟨slot, false, g.grp, g.pc, len, i⟩]
          else [⟨slot, false, g.grp, g.pc, len, i⟩, ⟨slot, false, h.grp, h.pc, len', j⟩] } := by
  have h2 : s.secondOf slot w [(g, .issue i len), (h, .issue j len')] g i = some (h, j, len') := by
    simp [State.secondOf, hne, hi, hj]
  simp only [State.setIssue, h2, State.modWarp_some _ hw]; rfl

theorem offerGroups_issue (hg : s.fetchGroups slot w.ctx (groupsOf w.r (w.r.live &&& ~~~w.waiting)) = ([g], s1))
    (hw : s1.warp slot = some w1) (hv : s1.verdict slot w1 (s1.pending slot w1) g = .issue i len) :
    s.offerGroups slot w = (some (s1.setIssue slot w1 [(g, .issue i len)] g i len), s1) := by
  simp [State.offerGroups, hg, hw, hv, chooseFirst_singleton]

theorem offerGroups_fault (hg : s.fetchGroups slot w.ctx (groupsOf w.r (w.r.live &&& ~~~w.waiting)) = ([g], s1))
    (hw : s1.warp slot = some w1) (hv : s1.verdict slot w1 (s1.pending slot w1) g = .fault f act) :
    s.offerGroups slot w = (some ((s1.setWarp slot (agedWarp w1 (0 ||| g.grp) g.grp)).raise
      ⟨slot, false, g.grp, g.pc, 0, .nop ⟨⟨0, false⟩⟩⟩ act f), s1) := by
  simp [State.offerGroups, hg, hw, hv, chooseFirst_singleton, State.modWarp_some _ hw, agedWarp]

theorem offerGroups_pair (hg : s.fetchGroups slot w.ctx (groupsOf w.r (w.r.live &&& ~~~w.waiting)) = ([g, h], s1))
    (hw : s1.warp slot = some w1) (hages : ∀ l, w1.r.ages.get l < 32)
    (hi : s1.verdict slot w1 (s1.pending slot w1) g = .issue i len)
    (hj : s1.verdict slot w1 (s1.pending slot w1) h = .issue j len') :
    s.offerGroups slot w = (some (s1.setIssue slot w1 [(g, .issue i len), (h, .issue j len')] g i len), s1) := by
  simp [State.offerGroups, hg, hw, hi, hj, chooseFirst_young hages]

end
end Sys2Proof.Machine.Opportunity

namespace Sys2Proof.Machine.Opportunity
open Sys2Proof.Claims Fetch Trap

/-! ### One group is chosen (R26 to R28, R275, R276) -/

section
variable {s s1 s2 : State} {q slot len : Nat} {w w1 : Warp} {pc : DWord} {i : Instr} {g : Group}

theorem idle_of_quiet (h : Quiet s q slot w) : Idle (withIssue s []) slot w := .of_quiet (quiet_withIssue h [])

theorem waits_of_quiet (h : Quiet s q slot w) : w.waits = [] := by
  obtain ⟨-, -, -, hwaits, -⟩ := h.empty
  exact hwaits

/-- No lane of a warp without waits is held back. -/
theorem groupsOf_runnable (h : Quiet s q slot w) : groupsOf w.r (w.r.live &&& ~~~w.waiting) = groupsOf w.r w.r.live := by
  have hall : w.r.live &&& ~~~w.waiting = w.r.live := by
    rw [Warp.waiting, waits_of_quiet h]
    exact BitVec.and_allOnes
  rw [hall]

theorem sameMemory_of_fields (hm : s1.hbm = s.hbm) (hg : s1.gangs = s.gangs) : SameMemory s s1 := fun p => by
  cases p with
  | hbm k => exact congrArg (·.get k) hm
  | scr g b o => simp only [State.byte, State.scrBlock, State.gang, hg]

/-- A translation leaves memory as it is. -/
theorem memory_of_cached (h : s.Cached s1) : s1.hbm = s.hbm ∧ s1.gangs = s.gangs := by
  obtain ⟨a, b, rfl⟩ := h.eq
  exact ⟨rfl, rfl⟩

/-- The only group of the warp, fetched, is chosen when it passes the checks. -/
theorem exec_of_one_group (h : Quiet s q slot w)
    (hg : (withIssue s []).fetchGroups slot w.ctx (groupsOf w.r w.r.live) = ([g], s1)) (hi : Idle s1 slot w1)
    (hv : s1.verdict slot w1 (s1.pending slot w1) g = .issue i len) :
    exec (.issueOpportunity q) s = .next { s1.setWarp slot (agedWarp w1 (0 ||| g.grp) g.grp) with
      issue := [⟨slot, false, g.grp, g.pc, len, i⟩], rrSlot := s1.rrSlot.set q (slot % 17) } := by
  rw [← groupsOf_runnable h] at hg
  rw [exec_issueOpportunity h (offerGroups_issue hg hi.warp hv), setIssue_one hi.warp]
  rfl

theorem oneGroupIssues : OneGroupIssues := by
  intro s s1 q slot w pc i len h hlive hpc hf
  have hf0 := fetches_withIssue [] hf
  obtain ⟨hc, x, y, hfetch⟩ := fetch_of_fetches (idle_of_quiet h).warp hf0
  have hg := fetchGroups_one (m := w.r.live) hfetch (by simp)
  rw [← groupsOf_one hlive hpc] at hg
  have hi := (idle_of_quiet h).cached hc
  refine ⟨_, agedWarp w (0 ||| w.r.live) w.r.live, exec_of_one_group h hg hi (verdict_issue hi rfl hf.granted hf.latched), rfl,
    State.warp_setWarp_self .., rfl, rfl, fun k hk => ?_, ?_⟩
  · exact (State.warp_setWarp_ne _ _ hk).trans (hc.warp k)
  · exact sameMemory_of_fields (memory_of_cached hc).1 (memory_of_cached hc).2

/-! ### A quad is stepped over (R27) -/

theorem staleLatch_setPc (r : Regs) (m k : Mask) (a : DWord) (u : Use) : staleLatch (r.setPc m a) k u = staleLatch r k u := by
  have h : ((r.setPc m a).forGroup k).lvalid = (r.forGroup k).lvalid := by
    unfold Regs.forGroup
    rw [show (r.setPc m a).lmask = r.lmask from rfl]
    split <;> rfl
  rw [staleLatch, h]
  rfl

theorem quadsAreSteppedOver : QuadsAreSteppedOver := by
  intro s s1 s2 q slot w pc key i len h hlive hpc hquad hkey hf
  have hq0 := codeAt_withIssue [] hquad
  have hc1 := codeAt_cached hq0
  have hfq := fetch_quad (idle_of_quiet h).warp hq0 (by rw [show firstWord (withIssue s []) key = 3 from hkey]; rfl)
  have hi1 := (idle_of_quiet h).cached hc1
  obtain ⟨hc2, x, y, hfetch⟩ := fetch_of_fetches hi1.warp (fetches_withIssue [] hf)
  have hi2 := hi1.cached hc2
  have hc := hc1.trans hc2
  have hg := fetchGroups_quad (m := w.r.live) hfq hfetch (by simp)
  obtain ⟨-, -, -, -, -, -, -, -, hproof, hframe⟩ := h.empty
  have hstep : w.stepOver w.r.live pc (pc + 4) = { w with r := w.r.setPc w.r.live (pc + 4) } := by
    simp [Warp.stepOver, hproof]
  rw [← groupsOf_one hlive hpc, State.modWarp_some _ hi2.warp, hstep] at hg
  have hi := hi2.setWarp (r := w.r.setPc w.r.live (pc + 4)) hframe
  have hv := verdict_issue hi (g := ⟨pc + 4, w.r.live, .instr i len x y⟩) rfl hf.granted
    (by rw [staleLatch_setPc]; exact hf.latched)
  refine ⟨_, agedWarp { w with r := w.r.setPc w.r.live (pc + 4) } (0 ||| w.r.live) w.r.live, exec_of_one_group h hg hi hv, rfl,
    State.warp_setWarp_self .., rfl, rfl, fun l hl => Regs.pcGet_setPc _ _ _ hl, fun k hk => ?_, ?_⟩
  · exact ((State.warp_setWarp_ne _ _ hk).trans (State.warp_setWarp_ne _ _ hk)).trans (hc.warp k)
  · exact sameMemory_of_fields (memory_of_cached hc).1 (memory_of_cached hc).2

end

/-! ### Two groups are chosen (R92, R276) -/

section
variable {s : State} {slot : Nat} {w : Warp} {i : Instr} {m k : Mask}

theorem pairable_of_eligible (hd : dualEligible i = true) (hl : namesLatch i = false) (hu : usesWindow i = false) (m : Mask) :
    s.pairable slot w i m = true := by
  have hw (act : Mask) : s.windowOk slot w i act = true := by
    unfold State.windowOk
    rw [hu]
    split <;> simp
  simp [State.pairable, hd, hl, hw]

theorem and_eq_of_subset (h : m &&& ~~~k = 0) : k &&& m = m := by
  refine BitVec.eq_of_getLsbD_eq fun j hj => ?_
  have hz : (m &&& ~~~k).getLsbD j = false := by rw [h]; simp
  rw [BitVec.getLsbD_and, BitVec.getLsbD_not] at hz
  rw [BitVec.getLsbD_and]
  revert hz
  cases m.getLsbD j <;> cases k.getLsbD j <;> simp [hj]

theorem eligibleGroupsIssueTogether : EligibleGroupsIssueTogether := by
  intro s s1 s2 q slot w m a b i j la lb h hsub hm hrest hab hpc hages hfi hfj hel x y
  obtain ⟨hc1, u, v, hfetch1⟩ := fetch_of_fetches (idle_of_quiet h).warp (fetches_withIssue [] hfi)
  have hi1 := (idle_of_quiet h).cached hc1
  obtain ⟨hc2, u', v', hfetch2⟩ := fetch_of_fetches hi1.warp (fetches_withIssue [] hfj)
  have hi := hi1.cached hc2
  have hg := fetchGroups_two (x := m) (y := w.r.live &&& ~~~m) hfetch1 (by simp) hfetch2 (by simp) hab
  have htwo : groupsOf w.r w.r.live = [⟨a, m, .quad⟩, ⟨b, w.r.live &&& ~~~m, .quad⟩] := by
    rw [groupsOf_two hpc fun _ => hab, and_eq_of_subset hsub, twoGroups_first hm, twoGroups_second hrest]
  rw [← htwo, ← groupsOf_runnable h] at hg
  have hvi := verdict_issue hi (g := ⟨a, m, .instr i la u v⟩) rfl hfi.granted hfi.latched
  have hvj := verdict_issue hi (g := ⟨b, w.r.live &&& ~~~m, .instr j lb u' v'⟩) rfl hfj.granted hfj.latched
  obtain ⟨hdi, hli, hwi⟩ := hel i (.inl rfl)
  obtain ⟨hdj, hlj, hwj⟩ := hel j (.inr rfl)
  have hex := exec_issueOpportunity h (offerGroups_pair hg hi.warp hages hvi hvj)
  rw [setIssue_two hi.warp (ne_of_lt_pc hab).symm (pairable_of_eligible hdi hli hwi _) (pairable_of_eligible hdj hlj hwj _)] at hex
  exact ⟨_, agedWarp w (0 ||| m ||| w.r.live &&& ~~~m) (m ||| w.r.live &&& ~~~m), hex, rfl, State.warp_setWarp_self ..,
    rfl, rfl⟩

end

/-! ### A check fails before issue (R48) -/

section
variable {s s2 : State} {q slot : Nat} {w : Warp} {pc : DWord} {f : Fetched} {x : SyncFault} {act : Mask}

theorem canEnter_agedWarp (h : CanEnter w) (m k : Mask) : CanEnter (agedWarp w m k) := ⟨h.outside, h.vec, h.boundary, h.results⟩

/-- A fault outside the handler is taken at once. -/
theorem entered_of_raise {sl : Slot} (hw : s.warp sl.w = some w) (hc : CanEnter w) (act : Mask) (x : SyncFault) :
    Entered s (s.raise sl act x) sl.w w x.cause (some (sl.grp, act, sl.pc)) x.laddr ∧ (s.raise sl act x).issue = s.issue :=
  entered_of_takeTrap hw hc hc.boundary

/-- A fault before issue enters the handler. -/
theorem opportunityRaises_of_fault (h : Quiet s q slot w) (hc : CanEnter w) (hlive : w.r.live ≠ 0)
    (hpc : ∀ l, l < 32 → lane w.r.live l = true → w.r.pcGet l = pc)
    (hf : (withIssue s []).fetch slot w.ctx pc = (f, s2)) (hs : (withIssue s []).Cached s2) (hq : f ≠ .quad)
    (hv : ∀ busy, s2.verdict slot w busy ⟨pc, w.r.live, f⟩ = .fault x act) :
    OpportunityRaises s q slot w pc x.cause act x.laddr := by
  have hg := fetchGroups_one (m := w.r.live) hf hq
  rw [← groupsOf_one hlive hpc, ← groupsOf_runnable h] at hg
  have hw2 : s2.warp slot = some w := (hs.warp slot).trans h.warp
  have hex := exec_issueOpportunity h (offerGroups_fault hg hw2 (hv _))
  obtain ⟨⟨hothers, hwarp⟩, hissue⟩ := entered_of_raise (s := s2.setWarp slot (agedWarp w (0 ||| w.r.live) w.r.live))
    (sl := ⟨slot, false, w.r.live, pc, 0, .nop ⟨⟨0, false⟩⟩⟩) (State.warp_setWarp_self ..) (canEnter_agedWarp hc _ _)
    act x
  refine ⟨_, agedWarp w (0 ||| w.r.live) w.r.live, hex, ?_, rfl, fun k hk => ?_, hwarp⟩
  · obtain ⟨a, b, rfl⟩ := hs.eq
    exact hissue
  · exact (hothers k hk).trans ((State.warp_setWarp_ne _ _ hk).trans (hs.warp k))

/-- A failed fetch raises its fault, for the active lanes where the first word is known. -/
theorem opportunityRaises_of_fetch {o : Option Nat} (h : Quiet s q slot w) (hc : CanEnter w) (hlive : w.r.live ≠ 0)
    (hpc : ∀ l, l < 32 → lane w.r.live l = true → w.r.pcGet l = pc)
    (hf : (withIssue s []).fetch slot w.ctx pc = (.fault x o, s2)) (hs : (withIssue s []).Cached s2) :
    OpportunityRaises s q slot w pc x.cause ((o.map fun k => active w.r w.r.live (wordGuard k)).getD w.r.live) x.laddr :=
  opportunityRaises_of_fault h hc hlive hpc hf hs (by simp) (verdict_fault rfl)

theorem decodeChecksRaise : DecodeChecksRaise := by
  intro s s1 q slot w pc key h hc hlive hpc act len here
  have hw := (idle_of_quiet h).warp
  refine ⟨fun c e ha ht => ?_, fun hh hb => ?_, fun e hh hb hd => ?_, fun i hh hb hd => ?_, fun ha => ?_⟩
  · have ht0 := translate_withIssue s [] (slotQuadId slot) w.ctx pc .fetch
    rw [ht] at ht0
    have hs := (withIssue s []).translate_cached (slotQuadId slot) w.ctx pc .fetch
    rw [ht0] at hs
    exact opportunityRaises_of_fetch h hc hlive hpc (fetch_untranslated ha ht0) hs
  · have hcode := codeAt_withIssue [] hh.1
    obtain ⟨y, hf⟩ := fetch_crossing hw hcode hh.2 hb
    exact opportunityRaises_of_fetch h hc hlive hpc hf (codeAt_cached hcode)
  · have hcode := codeAt_withIssue [] hh.1
    obtain ⟨y, hf⟩ := fetch_undecoded hw hcode hh.2 hb hd
    exact opportunityRaises_of_fetch h hc hlive hpc hf (codeAt_cached hcode)
  · have hcode := codeAt_withIssue [] hh.1
    obtain ⟨y, hf⟩ := fetch_decoded hw hcode hh.2 hb hd
    have hraises {f : SyncFault} := opportunityRaises_of_fault (x := f) (act := act) h hc hlive hpc hf
      (codeAt_cached hcode) (by simp)
    exact ⟨fun ho => hraises fun busy => verdict_outOfGrant rfl busy ho,
      fun ho hl => hraises fun busy => verdict_staleLatch rfl busy ho hl⟩
  · exact opportunityRaises_of_fetch h hc hlive hpc (fetch_misaligned ha) (.refl _)

end

/-- Settles O3: the quiet quadrant makes its one offer to the warp, whose groups are fetched, judged and chosen; what fails a check
enters the handler before issue. -/
theorem opportunityChoosesTheDecoded : Obligations.OpportunityChoosesTheDecoded :=
  ⟨oneGroupIssues, decodeChecksRaise, quadsAreSteppedOver, eligibleGroupsIssueTogether⟩

end Sys2Proof.Machine.Opportunity

/-! ### Worked words (O1) -/

open Sys2Proof Sys2Proof.Machine Sys2Proof.Claims in
/-- Settles O1, each word by running the decoder on it. -/
theorem workedWordsDecode : Obligations.WorkedWordsDecode := by
  unfold Obligations.WorkedWordsDecode
  refine ⟨?_, ?_, ?_, ?_, ?_, ?_, ?_, ?_, ?_, ?_, ?_, ?_, ?_, ?_⟩ <;> decide +kernel

namespace Sys2Proof.Machine

/-! ### The step that runs what is chosen (O4) -/

theorem step_of_agenda {s s1 : State} {i : Instr} {rest : List Instr} (hh : s.halted = false) (ha : s.agenda = i :: rest)
    (he : exec i { s with agenda := rest } = .next s1) : step s = runIssue s1 := by
  have hs : step s = runOne i { s with agenda := rest } := by
    rw [step, if_neg (by simp [hh]), ha]
  rw [hs, runOne, he]

theorem runSlot_next {s t : State} {sl : Slot} {w : Warp} (hw : s.warp sl.w = some w) (he : exec sl.instr s = .next t) :
    runSlot sl s = .next (t.afterIssue sl w) := by
  simp only [runSlot, hw, he]

theorem clearBad_of_noBad {w : Warp} (u : Use) (act : Mask) (hV : w.badV = []) (hS : w.badS = []) (hP : w.badP = [])
    (hJ : w.badJ = []) : w.clearBad u act = w := by
  simp [Warp.clearBad, hV, hS, hP, hJ]

theorem readsBad_of_noBad {w : Warp} (u : Use) (act : Mask) (hV : w.badV = []) (hS : w.badS = []) (hP : w.badP = [])
    (hJ : w.badJ = []) (hL : w.r.badL = []) : w.readsBad u act = false := by
  simp [Warp.readsBad, meets, hV, hS, hP, hJ, hL]

theorem warp_modWarp_of_fixed {s : State} {slot : Nat} {f : Warp → Warp} (h : ∀ y, s.warp slot = some y → f y = y)
    (k : Nat) : (s.modWarp slot f).warp k = s.warp k := by
  unfold State.modWarp
  cases hw : s.warp slot with
  | none => rfl
  | some y =>
    simp only [h y hw, State.warp_setWarp]
    split
    next hk => rw [hk, hw]
    · rfl

/-- R411: where nothing is unreadable, the check behind an instruction leaves every warp as it is. -/
theorem warp_afterIssue_of_noBad {t : State} {sl : Slot} {w : Warp} (hV : w.badV = []) (hS : w.badS = []) (hP : w.badP = [])
    (hJ : w.badJ = []) (hL : w.r.badL = [])
    (ht : ∀ y, t.warp sl.w = some y → y.badV = [] ∧ y.badS = [] ∧ y.badP = [] ∧ y.badJ = []) (k : Nat) :
    (t.afterIssue sl w).warp k = t.warp k := by
  unfold State.afterIssue
  cases t.warp sl.w with
  | none => rfl
  | some y =>
    simp only [readsBad_of_noBad _ _ hV hS hP hJ hL, Bool.false_eq_true, if_false]
    split
    · rfl
    · refine warp_modWarp_of_fixed (fun z hz => ?_) k
      obtain ⟨hV', hS', hP', hJ'⟩ := ht z hz
      exact clearBad_of_noBad _ _ hV' hS' hP' hJ'

end Sys2Proof.Machine

open Sys2Proof Sys2Proof.Machine in
/-- Settles O4: step takes the agenda's head to runOne, and runIssue runs what was chosen slot by slot. -/
theorem stepRunsTheChosen : Obligations.StepRunsTheChosen := by
  unfold Obligations.StepRunsTheChosen
  intro s s1 i rest hh ha he
  rw [step_of_agenda hh ha he]
  refine ⟨fun h0 => by rw [runIssue, h0], ?_, ?_⟩
  · intro sl w t h1 hw ht
    refine ⟨by rw [runIssue, h1]; exact runSlot_next hw ht, ?_⟩
    intro hV hS hP hJ hL hb k
    exact warp_afterIssue_of_noBad hV hS hP hJ hL hb k
  · intro a b w v t u x h2 hw ht hv hu hx
    refine ⟨State.afterPair { u.afterIssue b v with issue := [] } a.w, ?_, ?_, ?_, ?_⟩
    · simp only [runIssue, h2, runSlot_next hw ht, runSlot_next hv hu]
    · exact State.modWarp_issue ..
    · rw [State.afterPair, State.warp_modWarp, if_pos rfl]
      exact congrArg (Option.map _) hx
    · intro k hk
      rw [State.afterPair, State.warp_modWarp, if_neg hk]
      rfl

namespace Sys2Proof.Machine

open Sys2Proof.Claims

/-! ### Instructions that only issue (O19) -/

section
variable {s : State} {sl : Slot} {w : Warp} {r : Regs}

theorem State.Chosen.side_some (h : s.Chosen sl w r) : ∃ r0, w.side sl.proof = some r0 := by
  obtain ⟨r0, hr0, -⟩ := Option.map_eq_some_iff.1 h.side
  exact ⟨r0, hr0⟩

/-- The end of an instruction whose registers are as its group found them, from any state that still holds the warp. -/
theorem State.Chosen.finish_passed {m : State} (h : s.Chosen sl w r) (hm : m.warp sl.w = some w) :
    ∃ w' r', m.finish sl r = m.setWarp sl.w w' ∧ w'.side sl.proof = some r' ∧ w.SameButRegs w' sl.proof ∧
      w'.results = w.results ∧ Passed r r' sl := by
  obtain ⟨r0, hr0⟩ := h.side_some
  obtain ⟨r2, p2, he, hside, hother⟩ := State.finish_done r hm hr0
  exact ⟨_, _, he, hside, ⟨rfl, hother⟩, rfl, Regs.advanced_finish sl rfl rfl, rfl⟩

theorem onlyIssues_of_finish {i : Instr} (h : s.Chosen sl w r) (he : exec i s = .next (s.taken.finish sl r)) :
    OnlyIssues i s sl w r := by
  obtain ⟨w', r', hf, hside, hsame, hres, hpass⟩ := h.finish_passed (m := s.taken) h.warp
  rw [hf] at he
  exact ⟨_, r', he, ⟨⟨rfl, fun k hk => State.warp_setWarp_ne _ _ hk⟩, w', State.warp_setWarp_self .., hside, hsame, hres⟩, hpass⟩

theorem withActive_of_none {g : Guard} (f : State → Slot → Warp → Regs → Mask → State) (h : s.Chosen sl w r)
    (ha : active r sl.grp g = 0) : s.withActive g f = .next (s.taken.finish sl r) := by
  rw [State.withActive, State.onSlot_chosen h]
  simp only [ha, if_true]

/-- Every instruction run under `withActive` only issues where its guard leaves no lane (R34). -/
theorem onlyIssues_of_withActive {i : Instr} {g : Guard} {f : State → Slot → Warp → Regs → Mask → State}
    (h : s.Chosen sl w r) (ha : active r sl.grp g = 0) (he : exec i s = s.withActive g f) : OnlyIssues i s sl w r :=
  onlyIssues_of_finish h (he.trans (withActive_of_none f h ha))

theorem memory_eq_withActive (q : MemReq) :
    s.memory q = s.withActive q.g fun s1 sl w r act => s1.memoryOn sl w r act q := rfl

theorem exec_of_lateReq {i : Instr} {act : Mask} {g : Guard} {c : Prop} {q : MemReq} (h : lateReq w r act i = some (g, c, q)) :
    ∃ f, exec i s = s.withActive g f := by
  unfold lateReq at h
  split at h
  all_goals simp only [Option.some.injEq, Prod.mk.injEq, reduceCtorEq] at h
  all_goals obtain ⟨rfl, -, -⟩ := h
  all_goals
    apply Exists.intro
    unfold exec
    rfl

theorem exec_of_branchRow {i : Instr} {pc : DWord} {b : Branch} (h : branchRow pc r i = some b) :
    ∃ f, exec i s = s.withActive b.g f := by
  unfold branchRow at h
  split at h
  all_goals simp only [Option.some.injEq, reduceCtorEq] at h
  all_goals obtain rfl := h
  all_goals
    apply Exists.intro
    unfold exec
    rfl

theorem exec_of_setRow {i : Instr} {act : Mask} {g : Guard} {j : Fin 16} {c : Prop} {x : JSet}
    (h : setRow r act i = some (g, j, c, x)) : ∃ f, exec i s = s.withActive g f := by
  unfold setRow at h
  split at h
  all_goals simp only [Option.some.injEq, Prod.mk.injEq, reduceCtorEq] at h
  all_goals obtain ⟨rfl, -⟩ := h
  all_goals
    apply Exists.intro
    unfold exec
    rfl

theorem noActiveLaneOnlyIssues : NoActiveLaneOnlyIssues := by
  intro s sl w r i g h hi ha
  have main : (∃ f, exec i s = s.withActive g f) → OnlyIssues i s sl w r := fun ⟨_, he⟩ => onlyIssues_of_withActive h ha he
  rcases hi with ⟨q, hq, rfl⟩ | ⟨c, q, hq⟩ | ⟨b, hb, rfl⟩ | ⟨j, c, x, hx⟩ | hi
  · exact main ⟨_, (Access.exec_eq_memory hq).trans (memory_eq_withActive q)⟩
  · exact main (exec_of_lateReq hq)
  · exact main (exec_of_branchRow hb)
  · exact main (exec_of_setRow hx)
  · split at hi
    case h_12 j =>
      subst hi
      exact main ⟨fun s1 sl w r act => if sl.proof then s1.proofCatom sl r act j else s1.leadCatom sl w r act j, rfl⟩
    case h_13 => exact hi.elim
    all_goals
      subst hi
      refine main ?_
      apply Exists.intro
      unfold exec
      rfl

theorem nopOnlyIssues : NopOnlyIssues := by
  intro s sl w r i h
  refine onlyIssues_of_finish h ?_
  rw [show exec (.nop i) s = s.withActive i.g fun s1 sl _ r _ => s1.finish sl r from rfl, State.withActive,
    State.onSlot_chosen h]
  simp only [ite_self]

/-! ### Prefetches (R216) -/

/-- Only the L1 copies and what translation keeps may differ. -/
def State.Filled (s t : State) : Prop := t = { s with l1 := t.l1, tlb := t.tlb, env := t.env }

theorem State.Filled.refl (s : State) : s.Filled s := rfl

theorem State.Filled.trans {s t u : State} (h : s.Filled t) (g : t.Filled u) : s.Filled u := by
  unfold State.Filled at *
  rw [g, h]

theorem State.Filled.warp {t : State} (h : s.Filled t) (k : Nat) : t.warp k = s.warp k := by rw [h]; rfl

theorem State.Filled.of_l1 (s : State) (m : SMap (Option Byte)) : s.Filled { s with l1 := m } := rfl

theorem prefetch_filled (s : State) (slot : Nat) (w : Warp) (llc : Bool) (cp : Nat) (ea : Int) :
    s.Filled (s.prefetch slot w llc cp ea) := by
  have hc := State.translate_cached s (slotQuadId slot) w.ctx (BitVec.ofNat 64 (wrap ea 64)) .read
  have hf : s.Filled (s.translate (slotQuadId slot) w.ctx (BitVec.ofNat 64 (wrap ea 64)) .read).2 := by
    obtain ⟨a, b, e⟩ := hc.eq
    rw [e]; rfl
  unfold State.prefetch
  split
  next s1 h1 => rwa [h1] at hf
  next p s1 h1 =>
    rw [h1] at hf
    split
    next k hk =>
      split
      · exact hf.trans (State.Filled.of_l1 ..)
      · split
        · exact hf
        · exact hf.trans (State.Filled.of_l1 ..)
    · exact hf

theorem foldl_prefetch_filled (slot : Nat) (w : Warp) (llc : Bool) (cp : Nat) (ea : Nat → Int) (l : List Nat) :
    ∀ s : State, s.Filled (l.foldl (fun a n => a.prefetch slot w llc cp (ea n)) s) := by
  induction l with
  | nil => exact State.Filled.refl
  | cons n t ih => exact fun s => (prefetch_filled s slot w llc cp (ea n)).trans (ih _)

theorem exec_pref {i : PrefI} (h : s.Chosen sl w r) : ∃ m, s.taken.Filled m ∧ exec (.pref i) s = .next (m.finish sl r) := by
  rw [show exec (.pref i) s = execPref i s from rfl, execPref, State.onSlot_chosen h]
  refine ⟨_, ?_, rfl⟩
  split
  · exact State.Filled.refl _
  · exact foldl_prefetch_filled ..

theorem prefetchChangesNothing : PrefetchChangesNothing := by
  intro s sl w r i h
  obtain ⟨m, hm, he⟩ := exec_pref (i := i) h
  have hw : m.warp sl.w = some w := (hm.warp _).trans h.warp
  obtain ⟨w', r', hf, hside, hsame, hres, hpass⟩ := h.finish_passed hw
  rw [hf] at he
  refine ⟨_, w', r', he, ⟨?_, fun k hk => ?_⟩, State.warp_setWarp_self .., hside, hsame, hres, hpass⟩
  · rw [hm]; rfl
  · exact (State.warp_setWarp_ne _ _ hk).trans (hm.warp k)

end

end Sys2Proof.Machine

open Sys2Proof.Machine in
/-- Settles O19, by the end of an instruction that every one of these runs to. -/
theorem instructionsThatOnlyIssue : Obligations.InstructionsThatOnlyIssue :=
  ⟨noActiveLaneOnlyIssues, prefetchChangesNothing, nopOnlyIssues⟩

namespace Sys2Proof

/-! ### Codes of the enumerated fields: each is read back, and fits its field (R32, R47) -/

@[simp] theorem Ty.ofCode_code (x : Ty) : Ty.ofCode x.code = x := by cases x <;> rfl
theorem Ty.code_lt (x : Ty) : x.code < 8 := by cases x <;> decide
@[simp] theorem Cmp.ofCode_code (x : Cmp) : Cmp.ofCode x.code = x := by cases x <;> rfl
theorem Cmp.code_lt (x : Cmp) : x.code < 6 := by cases x <;> decide
@[simp] theorem FCmp.ofCode_code (x : FCmp) : FCmp.ofCode x.code = x := by cases x <;> rfl
theorem FCmp.code_lt (x : FCmp) : x.code < 14 := by cases x <;> decide
@[simp] theorem Comb.ofCode_code (x : Comb) : Comb.ofCode x.code = x := by cases x <;> rfl
theorem Comb.code_lt (x : Comb) : x.code < 4 := by cases x <;> decide
@[simp] theorem FT.ofCode_code (x : FT) : FT.ofCode x.code = x := by cases x <;> rfl
theorem FT.code_lt (x : FT) : x.code < 5 := by cases x <;> decide
@[simp] theorem RM.ofCode_code (x : RM) : RM.ofCode x.code = x := by cases x <;> rfl
theorem RM.code_lt (x : RM) : x.code < 4 := by cases x <;> decide
@[simp] theorem XT.ofCode_code (x : XT) : XT.ofCode x.code = x := by cases x <;> rfl
theorem XT.code_lt (x : XT) : x.code < 3 := by cases x <;> decide
@[simp] theorem NF.ofCode_code (x : NF) : NF.ofCode x.code = x := by cases x <;> rfl
theorem NF.code_lt (x : NF) : x.code < 3 := by cases x <;> decide
@[simp] theorem CT.ofCode_code (x : CT) : CT.ofCode x.code = x := by cases x <;> rfl
theorem CT.code_lt (x : CT) : x.code < 12 := by cases x <;> decide
@[simp] theorem Scope.ofCode_code (x : Scope) : Scope.ofCode x.code = x := by cases x <;> rfl
theorem Scope.code_lt (x : Scope) : x.code < 6 := by cases x <;> decide
@[simp] theorem Ord.ofCode_code (x : Ord) : Ord.ofCode x.code = x := by cases x <;> rfl
theorem Ord.code_lt (x : Ord) : x.code < 6 := by cases x <;> decide
@[simp] theorem MW.ofCode_code (x : MW) : MW.ofCode x.code = x := by cases x <;> rfl
theorem MW.code_lt (x : MW) : x.code < 8 := by cases x <;> decide
@[simp] theorem AOp.ofCode_code (x : AOp) : AOp.ofCode x.code = x := by cases x <;> rfl
theorem AOp.code_lt (x : AOp) : x.code < 16 := by cases x <;> decide
@[simp] theorem XlaneMode.ofCode_code (x : XlaneMode) : XlaneMode.ofCode x.code = x := by cases x <;> rfl
theorem XlaneMode.code_lt (x : XlaneMode) : x.code < 4 := by cases x <;> decide
@[simp] theorem PopcMode.ofCode_code (x : PopcMode) : PopcMode.ofCode x.code = x := by cases x <;> rfl
theorem PopcMode.code_lt (x : PopcMode) : x.code < 3 := by cases x <;> decide
@[simp] theorem BankMode.ofCode_code (x : BankMode) : BankMode.ofCode x.code = x := by cases x <;> rfl
theorem BankMode.code_lt (x : BankMode) : x.code < 3 := by cases x <;> decide
@[simp] theorem PairT.ofCode_code (x : PairT) : PairT.ofCode x.code = x := by cases x <;> rfl
theorem PairT.code_lt (x : PairT) : x.code < 3 := by cases x <;> decide
@[simp] theorem MF.ofCode_code (x : MF) : MF.ofCode x.code = x := by cases x <;> rfl
theorem MF.code_lt (x : MF) : x.code < 7 := by cases x <;> decide
@[simp] theorem AF.ofCode_code (x : AF) : AF.ofCode x.code = x := by cases x <;> rfl
theorem AF.code_lt (x : AF) : x.code < 6 := by cases x <;> decide

/-- The six reductions have the codes from 1 on (R249). -/
@[simp] theorem Rop.ofCode_code (x : Rop) : Rop.ofCode x.code = x := by cases x <;> rfl
theorem Rop.code_pos (x : Rop) : 0 < x.code := by cases x <;> decide
theorem Rop.code_lt (x : Rop) : x.code < 7 := by cases x <;> decide

/-- The orders that a load, a store or a `catom` may have are read back from their two bits (R209, R222). -/
theorem Ord.ofLoad_loadCode {x : Ord} (h : x.loadOk = true) : Ord.ofLoad x.loadCode = x := by revert h; cases x <;> decide
theorem Ord.loadCode_lt (x : Ord) : x.loadCode < 4 := by cases x <;> decide
theorem Ord.ofStore_storeCode {x : Ord} (h : x.storeOk = true) : Ord.ofStore x.storeCode = x := by
  revert h; cases x <;> decide
theorem Ord.storeCode_lt (x : Ord) : x.storeCode < 4 := by cases x <;> decide
theorem Ord.ofCatom_catomCode {x : Ord} (h : x.redOk = true) : Ord.ofCatom x.catomCode = x := by revert h; cases x <;> decide
theorem Ord.catomCode_lt (x : Ord) : x.catomCode < 3 := by cases x <;> decide

/-! ### Operand codes (R35, R36): nine bits each -/

theorem Src.code_lt (x : Src) : x.code < 512 := by cases x <;> simp only [Src.code] <;> omega
theorem Dst.code_lt (d : Dst) : d.code < 512 := by cases d <;> simp only [Dst.code] <;> omega
theorem Dst.nwBit_lt (d : Dst) : d.nwBit < 2 := by cases d <;> simp [Dst.nwBit]
theorem ABase.code_lt (b : ABase) : b.code < 512 := by cases b <;> simp only [ABase.code] <;> omega
theorem Src.extWord_lt (x : Src) : x.extWord < 2 ^ 32 := by cases x <;> simp only [Src.extWord] <;> omega
theorem sregCode_lt (r : Fin 64) : sregCode r < 512 := by simp only [sregCode]; omega
theorem optSregCode_lt (o : Option (Fin 64)) : optSregCode o < 512 := by cases o <;> simp only [optSregCode] <;> omega
theorem optIndex_lt {n : Nat} (hn : 0 < n) (o : Option (Fin n)) : optIndex o < n := by
  cases o <;> simp only [optIndex] <;> omega

/-- The extension code of a source that the third word holds. -/
theorem Src.code_of_isExt {x : Src} (h : x.isExt = true) : x.code = 448 ∨ x.code = 449 := by
  cases x <;> simp_all [Src.isExt, Src.code]

/-- The sources that the extension of a 96-bit form holds are one and the same (R35). -/
theorem extAgree_iff {l : List Src} :
    extAgree l = true ↔ ∀ x ∈ l, ∀ y ∈ l, x.isExt = true → y.isExt = true → x = y := by
  constructor
  · intro h x hx y hy ex ey
    have mem {z : Src} (hz : z ∈ l) (ez : z.isExt = true) : z ∈ l.filter Src.isExt := List.mem_filter.2 ⟨hz, ez⟩
    have hx' := mem hx ex
    have hy' := mem hy ey
    unfold extAgree at h
    split at h
    · next e => rw [e] at hx'; cases hx'
    · next z t e =>
      have all {u : Src} (hu : u ∈ l.filter Src.isExt) : u = z := by
        rw [e] at hu
        rcases List.mem_cons.1 hu with hu | hu
        · exact hu
        · exact eq_of_beq (List.all_eq_true.1 h u hu)
      rw [all hx', all hy']
  · intro h
    unfold extAgree
    split
    · rfl
    · next z t e =>
      have of {u : Src} (hu : u ∈ z :: t) : u ∈ l ∧ u.isExt = true := List.mem_filter.1 (e ▸ hu)
      obtain ⟨hz, ez⟩ := of List.mem_cons_self
      refine List.all_eq_true.2 fun u hu => beq_iff_eq.2 ?_
      obtain ⟨hu', eu⟩ := of (List.mem_cons_of_mem _ hu)
      exact h u hu' z hz eu ez

@[simp] theorem extAgree_singleton (x : Src) : extAgree [x] = true := by simp [extAgree_iff]

end Sys2Proof

namespace Sys2Proof.Codec

/-! ### Rules of the decoder's monad -/

section
variable {α β : Type} {f : DecFault}

@[simp] theorem need_true : need true f = .ok () := rfl
@[simp] theorem need_false : need false f = .error f := rfl
@[simp] theorem ok_bind (a : α) (k : α → Dec β) : ((Except.ok a : Dec α) >>= k) = k a := rfl

theorem need_eq_ok {c : Bool} {u : Unit} : need c f = .ok u ↔ c = true := by cases c <;> simp

theorem bind_eq_ok {x : Dec α} {k : α → Dec β} {b : β} : (x >>= k) = .ok b ↔ ∃ a, x = .ok a ∧ k a = .ok b := by
  cases x with
  | ok a => simp
  | error e =>
    constructor
    · intro h; cases h
    · rintro ⟨_, h, _⟩; cases h

end

/-! ### The fields of an encoded form -/

section
variable {r : Raw} {l : List Src}

theorem withSrcs_eq (r : Raw) (l : List Src) : ∃ n e, r.withSrcs l = { r with len := n, ext := e } := by
  unfold Raw.withSrcs
  split
  · exact ⟨_, _, rfl⟩
  · exact ⟨_, _, rfl⟩

@[simp] theorem withSrcs_op : (r.withSrcs l).op = r.op := by obtain ⟨n, e, h⟩ := withSrcs_eq r l; rw [h]
@[simp] theorem withSrcs_guard : (r.withSrcs l).guard = r.guard := by obtain ⟨n, e, h⟩ := withSrcs_eq r l; rw [h]; rfl
@[simp] theorem withSrcs_nw : (r.withSrcs l).nw = r.nw := by obtain ⟨n, e, h⟩ := withSrcs_eq r l; rw [h]
@[simp] theorem withSrcs_d : (r.withSrcs l).d = r.d := by obtain ⟨n, e, h⟩ := withSrcs_eq r l; rw [h]
@[simp] theorem withSrcs_a : (r.withSrcs l).a = r.a := by obtain ⟨n, e, h⟩ := withSrcs_eq r l; rw [h]
@[simp] theorem withSrcs_b : (r.withSrcs l).b = r.b := by obtain ⟨n, e, h⟩ := withSrcs_eq r l; rw [h]
@[simp] theorem withSrcs_c : (r.withSrcs l).c = r.c := by obtain ⟨n, e, h⟩ := withSrcs_eq r l; rw [h]
@[simp] theorem withSrcs_sub : (r.withSrcs l).sub = r.sub := by obtain ⟨n, e, h⟩ := withSrcs_eq r l; rw [h]
@[simp] theorem withSrcs_m : (r.withSrcs l).m = r.m := by obtain ⟨n, e, h⟩ := withSrcs_eq r l; rw [h]

/-- The guard fields of a guard are read back (R33). -/
@[simp] theorem guard_mk (g : Guard) (len op nw d a b c sub m ext : Nat) :
    (⟨len, op, g.p.val, g.neg.toNat, nw, d, a, b, c, sub, m, ext⟩ : Raw).guard = g := by
  obtain ⟨p, _ | _⟩ := g <;> simp [Raw.guard]

end

/-! ### Operand fields are read back (R35 to R37, R42, R207) -/

section
variable {r : Raw} {l : List Src} {x : Src} {p : Pos}

/-- The form has the third word that a source needs. -/
def Holds (r : Raw) (x : Src) : Prop := x.isExt = true → r.len = 3 ∧ r.ext = x.extWord

/-- A number below a bound is the value of the index made of it. -/
theorem ofNat_val {n : Nat} [NeZero n] (k : Fin n) : Fin.ofNat n k.val = k := Fin.ext (Nat.mod_eq_of_lt k.isLt)

theorem srcCode_code (h : Holds r x) : srcCode r x.code = .ok x := by
  cases x with
  | v k => simp (disch := omega) only [srcCode, Src.code, if_pos, ofNat_val]
  | s k => simp (disch := omega) only [srcCode, Src.code, if_pos, if_neg, Nat.add_sub_cancel_left, ofNat_val]
  | b k => simp (disch := omega) only [srcCode, Src.code, if_pos, if_neg, Nat.add_sub_cancel_left, ofNat_val]
  | int k => simp (disch := omega) only [srcCode, Src.code, if_pos, if_neg, Nat.add_sub_cancel_left, ofNat_val]
  | flt k => simp (disch := omega) only [srcCode, Src.code, if_pos, if_neg, Nat.add_sub_cancel_left, ofNat_val]
  | lit w =>
    obtain ⟨hl, he⟩ := h rfl
    have hw : BitVec.ofNat 32 r.ext = w := by simp [he, Src.extWord]
    simp only [srcCode, Src.code, hl, hw]
    rfl
  | win k off =>
    obtain ⟨hl, he⟩ := h rfl
    have ho : BitVec.ofNat 17 r.ext = off := by
      apply BitVec.eq_of_toNat_eq
      rw [he, BitVec.toNat_ofNat, Src.extWord]
      omega
    have hk : Fin.ofNat 8 (bits r.ext 17 3) = k := by
      apply Fin.ext
      rw [he, Fin.val_ofNat, Src.extWord, bits]
      omega
    simp only [srcCode, Src.code, hl, ho, hk]
    rfl

/-- A source that is read has its own code. -/
theorem code_of_srcCode {code : Nat} (h : srcCode r code = .ok x) : x.code = code := by
  unfold srcCode at h
  repeat' split at h
  all_goals cases h
  all_goals simp only [Src.code, Fin.val_ofNat]
  all_goals omega

theorem holds_of_not_isExt (h : x.isExt = false) : Holds r x := fun h' => by rw [h] at h'; cases h'

theorem src_eq_ok {code : Nat} : src r code p = .ok x ↔ srcCode r code = .ok x ∧ x.okAt p = true := by
  simp only [src, bind_eq_ok, need_eq_ok, Except.ok.injEq]
  constructor
  · rintro ⟨y, hy, _, hp, rfl⟩
    exact ⟨hy, hp⟩
  · rintro ⟨hy, hp⟩
    exact ⟨x, hy, (), hp, rfl⟩

theorem src_code (h : Holds r x) (hp : x.okAt p = true) : src r x.code p = .ok x := src_eq_ok.2 ⟨srcCode_code h, hp⟩

theorem vreg_eq_ok {code n : Nat} {k : Fin 256} : vreg code n = .ok k ↔ code = k.val ∧ k.val % n = 0 := by
  simp only [vreg, bind_eq_ok, need_eq_ok, Except.ok.injEq, decide_eq_true_eq]
  constructor
  · rintro ⟨_, ⟨hlt, hn⟩, rfl⟩
    have hv : (Fin.ofNat 256 code).val = code := Nat.mod_eq_of_lt hlt
    exact ⟨hv.symm, hv.symm ▸ hn⟩
  · rintro ⟨rfl, hn⟩
    exact ⟨(), ⟨k.isLt, hn⟩, ofNat_val k⟩

theorem index_eq_ok {code n : Nat} [NeZero n] {k : Fin n} : index code n = .ok k ↔ code = k.val := by
  simp only [index, bind_eq_ok, need_eq_ok, Except.ok.injEq, decide_eq_true_eq]
  constructor
  · rintro ⟨_, hlt, rfl⟩
    exact (Nat.mod_eq_of_lt hlt).symm
  · rintro rfl
    exact ⟨(), k.isLt, ofNat_val k⟩

theorem sreg_eq_ok {code : Nat} {k : Fin 64} : sreg code = .ok k ↔ code = sregCode k := by
  simp only [sreg, bind_eq_ok, need_eq_ok, Except.ok.injEq, decide_eq_true_eq, sregCode]
  constructor
  · rintro ⟨_, ⟨hlo, hhi⟩, rfl⟩
    simp only [Fin.val_ofNat]
    omega
  · rintro rfl
    exact ⟨(), ⟨by omega, by omega⟩, by rw [Nat.add_sub_cancel_left, ofNat_val]⟩

theorem sregOpt_eq_ok {code : Nat} {o : Option (Fin 64)} : sregOpt code = .ok o ↔ code = optSregCode o := by
  unfold sregOpt
  split
  · next h =>
    rw [h, Except.ok.injEq]
    cases o with
    | none => simp [optSregCode]
    | some k => simp only [optSregCode, reduceCtorEq, false_iff]; omega
  · next h =>
    simp only [bind_eq_ok, sreg_eq_ok, Except.ok.injEq]
    cases o with
    | none => simp [optSregCode, h]
    | some k => simp [optSregCode, sregCode]

theorem abase_eq_ok {code : Nat} {b : ABase} : abase code = .ok b ↔ code = b.code := by
  constructor
  · intro h
    unfold abase at h
    repeat' split at h
    all_goals cases h
    all_goals simp only [ABase.code, Fin.val_ofNat]
    all_goals omega
  · rintro rfl
    cases b with
    | zero => rfl
    | s k => simp (disch := omega) only [abase, ABase.code, if_pos, if_neg, Nat.add_sub_cancel_left, ofNat_val]
    | v k => simp (disch := omega) only [abase, ABase.code, if_pos, ofNat_val]

/-- A destination without NW, or b0 with it (R42). -/
theorem dst_eq_ok {d : Dst} (hn : r.nw < 2) : dst r = .ok d ↔ r.d = d.code ∧ r.nw = d.nwBit := by
  unfold dst
  constructor
  · intro h
    repeat' split at h
    all_goals cases h
    all_goals simp only [Dst.code, Dst.nwBit, Fin.val_ofNat]
    all_goals omega
  · rintro ⟨hd, hw⟩
    rw [hd, hw]
    cases d with
    | v k => simp (disch := omega) only [Dst.code, Dst.nwBit, if_pos, if_true, ofNat_val]
    | s k => simp (disch := omega) only [Dst.code, Dst.nwBit, if_pos, if_neg, if_true, Nat.add_sub_cancel_left, ofNat_val]
    | b0 => rfl

/-- A vector register with clear low bits, an index, a scalar, a base: the code of each reads back. -/
theorem vreg_val {n : Nat} {k : Fin 256} (h : k.val % n = 0) : vreg k.val n = .ok k := vreg_eq_ok.2 ⟨rfl, h⟩
@[simp] theorem index_val {n : Nat} [NeZero n] (k : Fin n) : index k.val n = .ok k := index_eq_ok.2 rfl
@[simp] theorem sreg_code (k : Fin 64) : sreg (sregCode k) = .ok k := sreg_eq_ok.2 rfl
@[simp] theorem sregOpt_code (o : Option (Fin 64)) : sregOpt (optSregCode o) = .ok o := sregOpt_eq_ok.2 rfl
@[simp] theorem abase_code (b : ABase) : abase b.code = .ok b := abase_eq_ok.2 rfl
theorem dst_code {d : Dst} (hd : r.d = d.code) (hw : r.nw = d.nwBit) : dst r = .ok d :=
  (dst_eq_ok (hw ▸ d.nwBit_lt)).2 ⟨hd, hw⟩
@[simp] theorem dst_mk (d : Dst) (len op g gn a b c sub m ext : Nat) :
    dst ⟨len, op, g, gn, d.nwBit, d.code, a, b, c, sub, m, ext⟩ = .ok d := dst_code rfl rfl
@[simp] theorem dst_withSrcs : dst (r.withSrcs l) = dst r := by unfold dst; rw [withSrcs_nw, withSrcs_d]

end

/-! ### The third word of a 96-bit form (R35, R39) -/

section
variable {r : Raw} {l : List Src} {a b c x : Src}

/-- The first source that needs the third word is in it, and no other source is. -/
theorem find_isExt (h : l.find? Src.isExt = some x) : x ∈ l ∧ x.isExt = true :=
  ⟨List.mem_of_find?_eq_some h, List.find?_some h⟩

theorem holds_withSrcs (ha : extAgree l = true) (hx : x ∈ l) : Holds (r.withSrcs l) x := by
  intro ex
  unfold Raw.withSrcs
  cases h : l.find? Src.isExt with
  | none => exact absurd ex (by simpa using List.find?_eq_none.1 h x hx)
  | some y =>
    obtain ⟨hy, ey⟩ := find_isExt h
    rw [extAgree_iff.1 ha x hx y hy ex ey]
    exact ⟨rfl, rfl⟩

theorem src_withSrcs {p : Pos} (ha : extAgree l = true) (hx : x ∈ l) (hp : x.okAt p = true) :
    src (r.withSrcs l) x.code p = .ok x := src_code (holds_withSrcs ha hx) hp

/-- A 64-bit form with the third word that its sources need has a length its major permits (R39). -/
theorem len96_withSrcs (hr : r.len = 2) (hc : ∀ x ∈ l, x.code ∈ [r.d, r.a, r.b, r.c]) :
    len96 (r.withSrcs l) = .ok () := by
  rw [len96, need_eq_ok]
  cases h : l.find? Src.isExt with
  | none => simp [Raw.withSrcs, h, hr]
  | some y =>
    obtain ⟨hy, ey⟩ := find_isExt h
    have hmem := hc y hy
    have : 448 ∈ [r.d, r.a, r.b, r.c] ∨ 449 ∈ [r.d, r.a, r.b, r.c] := 
      (Src.code_of_isExt ey).imp (fun e : y.code = 448 => e ▸ hmem) (fun e : y.code = 449 => e ▸ hmem)
    simpa [Raw.withSrcs, h] using this

/-- A window's word leaves the bits above its index zero (R48). -/
theorem res96_withSrcs {codes : List Nat} (hr : r.len = 2) (ha : extAgree l = true) (hc : codes = l.map Src.code) :
    res96 (r.withSrcs l) codes = .ok () := by
  rw [res96, need_eq_ok]
  cases h : l.find? Src.isExt with
  | none => simp [Raw.withSrcs, h, hr]
  | some y =>
    obtain ⟨hy, ey⟩ := find_isExt h
    cases y with
    | win k off =>
      have : bits (off.toNat + 2 ^ 17 * k.val) 20 12 = 0 := by simp only [bits]; omega
      simp only [Raw.withSrcs, h, Src.extWord, this]
      exact Bool.or_true _
    | lit w =>
      have : 449 ∉ codes := by
        rw [hc, List.mem_map]
        rintro ⟨z, hz, e⟩
        have ez : z.isExt = true := by cases z <;> simp_all [Src.code, Src.isExt] <;> omega
        rw [extAgree_iff.1 ha z hz _ hy ez ey] at e
        cases e
      simp [this]
    | _ => cases ey

/-- Sources that agree do not name both extension codes (R35). -/
theorem ext96_codes (h : extAgree l = true) : ext96 (l.map Src.code) = .ok () := by
  rw [ext96, need_eq_ok]
  by_contra hn
  obtain ⟨⟨x, hx, cx⟩, y, hy, cy⟩ : (∃ x ∈ l, x.code = 448) ∧ ∃ y ∈ l, y.code = 449 := by simpa using hn
  have ex : x.isExt = true := by cases x <;> simp_all [Src.code, Src.isExt] <;> omega
  have ey : y.isExt = true := by cases y <;> simp_all [Src.code, Src.isExt] <;> omega
  rw [extAgree_iff.1 h x hx y hy ex ey, cy] at cx
  cases cx
@[simp] theorem ext96_pair (h : extAgree [a, b] = true) : ext96 [a.code, b.code] = .ok () := ext96_codes h
@[simp] theorem ext96_triple (h : extAgree [a, b, c] = true) : ext96 [a.code, b.code, c.code] = .ok () := ext96_codes h

/-- Sources read from codes that do not name both extension codes agree. -/
theorem extAgree_of_ext96 {codes : List Nat} (h : ext96 codes = .ok ()) (hl : ∀ x ∈ l, ∃ k ∈ codes, srcCode r k = .ok x) :
    extAgree l = true := by
  rw [extAgree_iff]
  intro x hx y hy ex ey
  obtain ⟨k, hk, rx⟩ := hl x hx
  obtain ⟨m, hm, ry⟩ := hl y hy
  rw [ext96, need_eq_ok] at h
  have both : ¬(448 ∈ codes ∧ 449 ∈ codes) := by simpa [imp_iff_not_or] using h
  have cx := Src.code_of_isExt ex
  have cy := Src.code_of_isExt ey
  rw [code_of_srcCode rx] at cx
  rw [code_of_srcCode ry] at cy
  have hkm : k = m := by
    rcases cx with rfl | rfl <;> rcases cy with rfl | rfl
    · rfl
    · exact absurd ⟨hk, hm⟩ both
    · exact absurd ⟨hm, hk⟩ both
    · rfl
  rw [hkm, ry] at rx
  cases rx
  rfl

theorem extAgree_pair {j k : Nat} (h : ext96 [j, k] = .ok ()) (ha : srcCode r j = .ok a) (hb : srcCode r k = .ok b) :
    extAgree [a, b] = true :=
  extAgree_of_ext96 (r := r) h (by simp [ha, hb])

theorem extAgree_triple {j k m : Nat} (h : ext96 [j, k, m] = .ok ()) (ha : srcCode r j = .ok a) (hb : srcCode r k = .ok b)
    (hc : srcCode r m = .ok c) : extAgree [a, b, c] = true :=
  extAgree_of_ext96 (r := r) h (by simp [ha, hb, hc])

end
end Sys2Proof.Codec

namespace Sys2Proof.Codec
open Laws.Encoding

/-! ### The fields laid out as one number are read back (R26, R31) -/

/-- Every field fits its bits. -/
structure Fits (r : Raw) : Prop where
  head : Head r
  d : r.d < 512
  a : r.a < 512
  b : r.b < 512
  c : r.c < 512
  sub : r.sub < 32
  m : r.m < 256
  ext : r.ext < 2 ^ (32 * (r.len - 2))

theorem lenWords_toNat {r : Raw} (h : Fits r) : lenWords r.toNat = r.len := by
  obtain ⟨⟨⟨hl, hu⟩, -⟩, -⟩ := h
  have hm : r.toNat % 4 = r.len - 2 := by unfold Raw.toNat; omega
  unfold lenWords
  rw [hm]
  obtain h | h | h : r.len = 2 ∨ r.len = 3 ∨ r.len = 4 := by omega
  all_goals rw [h]; rfl

theorem bits_toNat_fields {r : Raw} (h : Fits r) :
    bits r.toNat 2 8 = r.op ∧ bits r.toNat 10 3 = r.g ∧ bits r.toNat 13 1 = r.gn ∧ bits r.toNat 14 1 = r.nw ∧
      bits r.toNat 15 9 = r.d ∧ bits r.toNat 24 9 = r.a ∧ bits r.toNat 33 9 = r.b ∧ bits r.toNat 42 9 = r.c ∧
      bits r.toNat 51 5 = r.sub ∧ bits r.toNat 56 8 = r.m ∧ r.toNat / 2 ^ 64 = r.ext := by
  obtain ⟨⟨⟨hl, hu⟩, hop, hg, hgn, hnw⟩, hd, ha, hb, hc, hs, hm, -⟩ := h
  unfold Raw.toNat bits
  refine ⟨?_, ?_, ?_, ?_, ?_, ?_, ?_, ?_, ?_, ?_, ?_⟩ <;> omega

theorem ofNat_toNat {r : Raw} (h : Fits r) : Raw.ofNat r.toNat = r := by
  obtain ⟨hop, hg, hgn, hnw, hd, ha, hb, hc, hs, hm, hx⟩ := bits_toNat_fields h
  have hext {n : Nat} (hn : r.ext < 2 ^ n) : bits r.toNat 64 n = r.ext := by rw [bits, hx, Nat.mod_eq_of_lt hn]
  unfold Raw.ofNat
  rw [lenWords_toNat h, hop, hg, hgn, hnw, hd, ha, hb, hc, hs, hm, hext]
  have hlt := h.ext
  obtain ⟨hl, hu⟩ := h.head.1
  obtain h | h | h : r.len = 2 ∨ r.len = 3 ∨ r.len = 4 := by omega
  all_goals rw [h] at hlt ⊢; exact hlt

/-- Fields that fit and decode to an instruction. -/
def Reads (r : Raw) (i : Instr) : Prop := Fits r ∧ decodeRaw r = .ok i

theorem decodeNat_toNat {r : Raw} {i : Instr} (h : Reads r i) : decodeNat r.toNat = .ok i := by
  obtain ⟨hf, hd⟩ := h
  have hl : r.len ≠ 1 := by have := hf.head.1.1; omega
  rw [decodeNat, lenWords_toNat hf, if_neg hl, ofNat_toNat hf, hd]

/-! ### The encoded forms fit -/

section
variable {op sub m d a b c x : Nat} {g : Guard}

theorem fits_enc64 (hop : op < 256) (hd : d < 512) (ha : a < 512) (hb : b < 512) (hc : c < 512) (hs : sub < 32)
    (hm : m < 256) : Fits (enc64 op g sub m d a b c) :=
  ⟨head_enc64 hop .., hd, ha, hb, hc, hs, hm, Nat.one_pos⟩

theorem fits_enc128 (hop : op < 256) (hd : d < 512) (ha : a < 512) (hb : b < 512) (hc : c < 512) (hs : sub < 32)
    (hm : m < 256) (hx : x < 2 ^ 64) : Fits (enc128 op g sub m d a b c x) :=
  ⟨head_enc128 hop .., hd, ha, hb, hc, hs, hm, hx⟩

theorem fits_encLong {long : Bool} (hop : op < 256) (hd : d < 512) (ha : a < 512) (hb : b < 512) (hc : c < 512)
    (hs : sub < 32) (hm : m < 256) (hx : x < 2 ^ 64) : Fits (encLong long op g sub m d a b c x) := by
  unfold encLong
  split
  · exact fits_enc128 hop hd ha hb hc hs hm hx
  · exact fits_enc64 hop hd ha hb hc hs hm

theorem fits_withSrcs {r : Raw} {l : List Src} (h : Fits r) : Fits (r.withSrcs l) := by
  obtain ⟨hh, hd, ha, hb, hc, hs, hm, hx⟩ := h
  refine ⟨head_withSrcs hh l, by simpa, by simpa, by simpa, by simpa, by simpa, by simpa, ?_⟩
  unfold Raw.withSrcs
  split
  · exact Src.extWord_lt _
  · exact hx

theorem fits_withDst {r : Raw} {d : Dst} (h : Fits r) : Fits (r.withDst d) := by
  obtain ⟨hh, hd, ha, hb, hc, hs, hm, hx⟩ := h
  exact ⟨head_withDst hh d, d.code_lt, ha, hb, hc, hs, hm, hx⟩

theorem fits_enc1 {d : Dst} {a : Src} (hop : op < 256) (hs : sub < 32) (hm : m < 256) : Fits (enc1 op sub m g d a) :=
  fits_withSrcs (fits_withDst (fits_enc64 hop (by decide) a.code_lt (by decide) (by decide) hs hm))
theorem fits_enc2 {d : Dst} {a b : Src} (hop : op < 256) (hs : sub < 32) (hm : m < 256) (hc : c < 512) :
    Fits (enc2 op sub m g d a b c) :=
  fits_withSrcs (fits_withDst (fits_enc64 hop (by decide) a.code_lt b.code_lt hc hs hm))
theorem fits_enc3 {d : Dst} {a b c : Src} (hop : op < 256) (hs : sub < 32) (hm : m < 256) :
    Fits (enc3 op sub m g d a b c) :=
  fits_withSrcs (fits_withDst (fits_enc64 hop (by decide) a.code_lt b.code_lt c.code_lt hs hm))

theorem Ext.word_lt (x : Ext) : x.word < 2 ^ 32 := by
  have := x.scope.code_lt
  have : (x.off % 2 ^ 24).toNat < 2 ^ 24 := by omega
  unfold Ext.word
  omega

theorem fits_encMem {sub2 : Nat} {x : Ext} (hop : op < 256) (hd : d < 512) (ha : a < 512) (hb : b < 512) (hs : sub2 < 4)
    (hm : m < 256) : Fits (encMem op sub2 g m d a b x) := by
  have ho : (x.off % 4096).toNat < 4096 := by omega
  unfold encMem
  split
  · exact fits_enc128 hop hd ha hb (by decide) (by omega) hm (by have := Ext.word_lt x; omega)
  · exact fits_enc64 hop hd ha hb (by omega) (by omega) hm

end

end Sys2Proof.Codec

namespace Sys2Proof.Codec

/-! ### Integer forms (R88 to R110) -/

@[simp] theorem toNat_bne_zero (b : Bool) : (b.toNat != 0) = b := by cases b <;> rfl

section
variable {op sub m c0 : Nat} {g : Guard} {d : Dst} {a b c : Src} {pa pb pc : Pos} {w : Bool}

/-- The sources and the destination of a form are read back when they pass their checks. -/
theorem intOps1_enc (ha : a.okAt pa = true) (hd : dstInt d w [a] = true) :
    intOps1 (enc1 op sub m g d a) pa w = .ok (d, a) := by
  simp [intOps1, enc1, enc64, Raw.withDst, hd, ha, src_withSrcs, res96_withSrcs, unused]

theorem intOps2_enc (ha : a.okAt pa = true) (hb : b.okAt pb = true) (hd : dstInt d w [a, b] = true)
    (he : extAgree [a, b] = true) : intOps2 (enc2 op sub m g d a b c0) pa pb w = .ok (d, a, b) := by
  simp [intOps2, enc2, enc64, Raw.withDst, hd, ha, hb, he, src_withSrcs]

theorem intOps3_enc (ha : a.okAt pa = true) (hb : b.okAt pb = true) (hc : c.okAt pc = true) (hd : dstInt d w [a, b, c] = true)
    (he : extAgree [a, b, c] = true) : intOps3 (enc3 op sub m g d a b c) pa pb pc w = .ok (d, a, b, c) := by
  simp [intOps3, enc3, enc64, Raw.withDst, hd, ha, hb, hc, he, src_withSrcs, res96_withSrcs]

@[simp] theorem enc1_len96 : len96 (enc1 op sub m g d a) = .ok () :=
  len96_withSrcs rfl (by simp [enc64, Raw.withDst])
@[simp] theorem enc2_len96 : len96 (enc2 op sub m g d a b c0) = .ok () :=
  len96_withSrcs rfl (by simp [enc64, Raw.withDst])
@[simp] theorem enc3_len96 : len96 (enc3 op sub m g d a b c) = .ok () :=
  len96_withSrcs rfl (by simp [enc64, Raw.withDst])
@[simp] theorem enc2_res96 (he : extAgree [a, b] = true) : res96 (enc2 op sub m g d a b c0) [a.code, b.code] = .ok () :=
  res96_withSrcs rfl he rfl

@[simp] theorem enc1_guard : (enc1 op sub m g d a).guard = g := by simp [enc1, enc64, Raw.withDst]
@[simp] theorem enc2_guard : (enc2 op sub m g d a b c0).guard = g := by simp [enc2, enc64, Raw.withDst]
@[simp] theorem enc3_guard : (enc3 op sub m g d a b c).guard = g := by simp [enc3, enc64, Raw.withDst]
@[simp] theorem enc1_sub : (enc1 op sub m g d a).sub = sub := withSrcs_sub
@[simp] theorem enc2_sub : (enc2 op sub m g d a b c0).sub = sub := withSrcs_sub
@[simp] theorem enc3_sub : (enc3 op sub m g d a b c).sub = sub := withSrcs_sub
@[simp] theorem enc1_m : (enc1 op sub m g d a).m = m := withSrcs_m
@[simp] theorem enc2_m : (enc2 op sub m g d a b c0).m = m := withSrcs_m
@[simp] theorem enc3_m : (enc3 op sub m g d a b c).m = m := withSrcs_m
@[simp] theorem enc2_a : (enc2 op sub m g d a b c0).a = a.code := withSrcs_a
@[simp] theorem enc2_b : (enc2 op sub m g d a b c0).b = b.code := withSrcs_b
@[simp] theorem enc2_c : (enc2 op sub m g d a b c0).c = c0 := withSrcs_c

end

theorem or_not_of_imp {a b : Bool} (h : b = true → a = true) : (a || !b) = true := by
  cases b
  · exact Bool.or_true a
  · rw [h rfl, Bool.true_or]

/-- The integer modifier byte is read back: the type, SAT, X, CB0 and CB1 (R88). -/
theorem intMods_byte {r : Raw} {p : IntSpec} {ty : Ty} {sat x c0 c1 : Bool}
    (hm : r.m = ty.code + 8 * sat.toNat + 16 * x.toNat + 32 * c0.toNat + 64 * c1.toNat) (hty : p.tyOk ty = true)
    (hs : sat = true → p.satZero = false ∧ p.satOk ty = true) (hx : x = true → p.x = true) (h0 : c0 = true → p.cb0 = true)
    (h1 : c1 = true → p.cb1 = true) :
    intMods r p = .ok ty ∧ r.mbit 3 = sat ∧ r.mbit 4 = x ∧ r.mbit 5 = c0 ∧ r.mbit 6 = c1 := by
  have := ty.code_lt
  have := sat.toNat_le
  have := x.toNat_le
  have := c0.toNat_le
  have := c1.toNat_le
  have bty : bits r.m 0 3 = ty.code := by rw [hm, bits]; omega
  have b3 : bits r.m 3 1 = sat.toNat := by rw [hm, bits]; omega
  have b4 : bits r.m 4 1 = x.toNat := by rw [hm, bits]; omega
  have b5 : bits r.m 5 1 = c0.toNat := by rw [hm, bits]; omega
  have b6 : bits r.m 6 1 = c1.toNat := by rw [hm, bits]; omega
  have b7 : bits r.m 7 1 = 0 := by rw [hm, bits]; omega
  have hzero : (!p.satZero || !sat) = true := or_not_of_imp fun h => by rw [(hs h).1, Bool.not_false]
  have hok : (!sat || p.satOk ty) = true := by rw [Bool.or_comm]; exact or_not_of_imp fun h => (hs h).2
  simp only [intMods, mzero, Raw.mbit, bty, b3, b4, b5, b6, b7, toNat_bne_zero, Ty.ofCode_code, hty, or_not_of_imp hx,
    or_not_of_imp h0, or_not_of_imp h1, hzero, hok]
  exact ⟨rfl, trivial, trivial, trivial, trivial⟩

/-- What the checks of the integer modifiers and operands leave (R35, R37, R42, R88, R89). -/
theorem of_intMods {r : Raw} {p : IntSpec} {ty : Ty} (h : intMods r p = .ok ty) :
    p.tyOk ty = true ∧ (r.mbit 3 = true → p.satOk ty = true) := by
  simp only [intMods, bind_eq_ok, need_eq_ok, Except.ok.injEq] at h
  obtain ⟨-, -, -, -, -, -, -, -, -, -, -, hok, rfl⟩ := h
  obtain ⟨hty, hs⟩ := Bool.and_eq_true_iff.1 hok
  exact ⟨hty, fun h3 => by simpa [h3] using hs⟩

section
variable {r : Raw} {pa pb pc : Pos} {w : Bool} {d : Dst} {a b c : Src}

theorem of_intOps1 (h : intOps1 r pa w = .ok (d, a)) : a.okAt pa = true ∧ dstInt d w [a] = true := by
  simp only [intOps1, bind_eq_ok, need_eq_ok, src_eq_ok, Except.ok.injEq, Prod.mk.injEq] at h
  obtain ⟨_, -, _, ⟨-, ha⟩, -, -, -, -, -, hd, -, -, rfl, rfl⟩ := h
  exact ⟨ha, hd⟩

theorem of_intOps2 (h : intOps2 r pa pb w = .ok (d, a, b)) :
    a.okAt pa = true ∧ b.okAt pb = true ∧ dstInt d w [a, b] = true ∧ extAgree [a, b] = true := by
  simp only [intOps2, bind_eq_ok, need_eq_ok, src_eq_ok, Except.ok.injEq, Prod.mk.injEq] at h
  obtain ⟨_, -, _, ⟨ra, ha⟩, _, ⟨rb, hb⟩, -, hd, _, he, rfl, rfl, rfl⟩ := h
  exact ⟨ha, hb, hd, extAgree_pair he ra rb⟩

theorem of_intOps3 (h : intOps3 r pa pb pc w = .ok (d, a, b, c)) :
    a.okAt pa = true ∧ b.okAt pb = true ∧ c.okAt pc = true ∧ dstInt d w [a, b, c] = true ∧ extAgree [a, b, c] = true := by
  simp only [intOps3, bind_eq_ok, need_eq_ok, src_eq_ok, Except.ok.injEq, Prod.mk.injEq] at h
  obtain ⟨_, -, _, ⟨ra, ha⟩, _, ⟨rb, hb⟩, _, ⟨rc, hc⟩, -, hd, _, he, -, -, rfl, rfl, rfl, rfl⟩ := h
  exact ⟨ha, hb, hc, hd, extAgree_triple he ra rb rc⟩

end

section
variable {op sub : Nat} {r : Raw} {p : IntSpec}

theorem decI1_enc {i : Op1 IntM} {satOk : Ty → Bool} (hw : wfI1 p.tyOk satOk i = true)
    (hp : p.satZero = false ∧ p.satOk = satOk) : decI1 (encI1 op i) p = .ok i := by
  obtain ⟨g, d, a, ty, sat⟩ := i
  simp only [wfI1, Bool.and_eq_true] at hw
  obtain ⟨⟨⟨hty, hs⟩, ha⟩, hd⟩ := hw
  obtain ⟨hm, h3, -⟩ := intMods_byte (r := encI1 op ⟨g, d, a, ty, sat⟩) (x := false) (c0 := false) (c1 := false) (sat := sat)
    (by simp [encI1, IntM.byte]) hty (by rintro rfl; simpa [hp] using hs) (by simp) (by simp) (by simp)
  simp only [decI1, sub0, hm, h3]
  simp [encI1, intOps1_enc ha hd]

theorem wf_of_decI1 {i : Op1 IntM} (h : decI1 r p = .ok i) : wfI1 p.tyOk p.satOk i = true := by
  simp only [decI1, bind_eq_ok, Except.ok.injEq, Prod.exists] at h
  obtain ⟨-, -, -, -, ty, hm, d, a, ho, rfl⟩ := h
  obtain ⟨hty, hs⟩ := of_intMods hm
  obtain ⟨ha, hd⟩ := of_intOps1 ho
  have hs' : (!r.mbit 3 || p.satOk ty) = true := by cases h3 : r.mbit 3 <;> simp [hs, h3]
  simp only [wfI1, hty, hs', ha, hd, Bool.and_self]

theorem decI2_enc {i : Op2 IntM} (hw : wfI2 p.tyOk i = true) (hp : p.satZero = false ∧ ∀ t, p.satOk t = true) :
    decI2 (encI2 op i) p = .ok i := by
  obtain ⟨g, d, a, b, ty, sat⟩ := i
  simp only [wfI2, Bool.and_eq_true] at hw
  obtain ⟨⟨⟨⟨hty, ha⟩, hb⟩, hd⟩, he⟩ := hw
  obtain ⟨hm, h3, -⟩ := intMods_byte (r := encI2 op ⟨g, d, a, b, ty, sat⟩) (x := false) (c0 := false) (c1 := false)
    (sat := sat) (by simp [encI2, IntM.byte]) hty (by simp [hp]) (by simp) (by simp) (by simp)
  simp only [decI2, sub0, hm, h3]
  simp [encI2, intOps2_enc ha hb hd he, he, unused]

theorem wf_of_decI2 {i : Op2 IntM} (h : decI2 r p = .ok i) : wfI2 p.tyOk i = true := by
  simp only [decI2, bind_eq_ok, Except.ok.injEq, Prod.exists] at h
  obtain ⟨-, -, -, -, ty, hm, d, a, b, ho, -, -, -, -, rfl⟩ := h
  obtain ⟨ha, hb, hd, he⟩ := of_intOps2 ho
  simp only [wfI2, (of_intMods hm).1, ha, hb, hd, he, Bool.and_self]

theorem decI3_enc {i : Op3 IntM} (hw : wfI3 p.tyOk i = true) (hp : p.satZero = false ∧ ∀ t, p.satOk t = true) :
    decI3 (encI3 op i) p = .ok i := by
  obtain ⟨g, d, a, b, c, ty, sat⟩ := i
  simp only [wfI3, Bool.and_eq_true] at hw
  obtain ⟨⟨⟨⟨⟨hty, ha⟩, hb⟩, hc⟩, hd⟩, he⟩ := hw
  obtain ⟨hm, h3, -⟩ := intMods_byte (r := encI3 op ⟨g, d, a, b, c, ty, sat⟩) (x := false) (c0 := false) (c1 := false)
    (sat := sat) (by simp [encI3, IntM.byte]) hty (by simp [hp]) (by simp) (by simp) (by simp)
  simp only [decI3, sub0, hm, h3]
  simp [encI3, intOps3_enc ha hb hc hd he]

theorem wf_of_decI3 {i : Op3 IntM} (h : decI3 r p = .ok i) : wfI3 p.tyOk i = true := by
  simp only [decI3, bind_eq_ok, Except.ok.injEq, Prod.exists] at h
  obtain ⟨-, -, -, -, ty, hm, d, a, b, c, ho, rfl⟩ := h
  obtain ⟨ha, hb, hc, hd, he⟩ := of_intOps3 ho
  simp only [wfI3, (of_intMods hm).1, ha, hb, hc, hd, he, Bool.and_self]

/-- A type alone in the modifier byte. -/
theorem intMods_ty {ty : Ty} (hm : r.m = ty.code) (hty : p.tyOk ty = true) : intMods r p = .ok ty :=
  (intMods_byte (sat := false) (x := false) (c0 := false) (c1 := false) (by simpa using hm) hty (by simp) (by simp) (by simp)
    (by simp)).1

theorem decT1_enc {i : Op1 Ty} {f : Ty → Bool} (hw : wfT1 p.tyOk f i = true) : decT1 (encT1 op i) p f = .ok i := by
  obtain ⟨g, d, a, ty⟩ := i
  simp only [wfT1, Bool.and_eq_true] at hw
  obtain ⟨⟨hty, ha⟩, hd⟩ := hw
  simp only [decT1, sub0, intMods_ty (r := encT1 op ⟨g, d, a, ty⟩) (by simp [encT1]) hty]
  simp [encT1, intOps1_enc ha hd]

theorem wf_of_decT1 {i : Op1 Ty} {f : Ty → Bool} (h : decT1 r p f = .ok i) : wfT1 p.tyOk f i = true := by
  simp only [decT1, bind_eq_ok, Except.ok.injEq, Prod.exists] at h
  obtain ⟨-, -, -, -, ty, hm, d, a, ho, rfl⟩ := h
  obtain ⟨ha, hd⟩ := of_intOps1 ho
  simp only [wfT1, (of_intMods hm).1, ha, hd, Bool.and_self]

theorem decT2_enc {i : Op2 Ty} {f : Ty → Bool} {pb : Ty → Pos} (hw : wfT2 p.tyOk f pb i = true) :
    decT2 (encT2 op sub i) p f pb = .ok i := by
  obtain ⟨g, d, a, b, ty⟩ := i
  simp only [wfT2, Bool.and_eq_true] at hw
  obtain ⟨⟨⟨⟨hty, ha⟩, hb⟩, hd⟩, he⟩ := hw
  simp only [decT2, intMods_ty (r := encT2 op sub ⟨g, d, a, b, ty⟩) (by simp [encT2]) hty]
  simp [encT2, intOps2_enc ha hb hd he, he, unused]

theorem wf_of_decT2 {i : Op2 Ty} {f : Ty → Bool} {pb : Ty → Pos} (h : decT2 r p f pb = .ok i) :
    wfT2 p.tyOk f pb i = true := by
  simp only [decT2, bind_eq_ok, Except.ok.injEq, Prod.exists] at h
  obtain ⟨-, -, ty, hm, d, a, b, ho, -, -, -, -, rfl⟩ := h
  obtain ⟨ha, hb, hd, he⟩ := of_intOps2 ho
  simp only [wfT2, (of_intMods hm).1, ha, hb, hd, he, Bool.and_self]

theorem decT3_enc {i : Op3 Ty} {pc : Ty → Pos} (hw : wfT3 p.tyOk pc i = true) : decT3 (encT3 op i) p pc = .ok i := by
  obtain ⟨g, d, a, b, c, ty⟩ := i
  simp only [wfT3, Bool.and_eq_true] at hw
  obtain ⟨⟨⟨⟨⟨hty, ha⟩, hb⟩, hc⟩, hd⟩, he⟩ := hw
  simp only [decT3, sub0, intMods_ty (r := encT3 op ⟨g, d, a, b, c, ty⟩) (by simp [encT3]) hty]
  simp [encT3, intOps3_enc ha hb hc hd he]

theorem wf_of_decT3 {i : Op3 Ty} {pc : Ty → Pos} (h : decT3 r p pc = .ok i) : wfT3 p.tyOk pc i = true := by
  simp only [decT3, bind_eq_ok, Except.ok.injEq, Prod.exists] at h
  obtain ⟨-, -, -, -, ty, hm, d, a, b, c, ho, rfl⟩ := h
  obtain ⟨ha, hb, hc, hd, he⟩ := of_intOps3 ho
  simp only [wfT3, (of_intMods hm).1, ha, hb, hc, hd, he, Bool.and_self]

/-- The dot products (R110): HI and UB only where the instruction has them. -/
theorem decDot_enc {i : Op3 DotM} {x ub : Bool} (hhi : i.m.hi = true → x = true) (hub : i.m.ub = true → ub = true)
    (ha : i.a.okAt .i32 = true) (hb : i.b.okAt .i32 = true) (hc : i.c.okAt .i32 = true)
    (hd : dstInt i.d false [i.a, i.b, i.c] = true) (he : extAgree [i.a, i.b, i.c] = true) :
    decDot (encDot op i) x ub = .ok i := by
  obtain ⟨g, d, a, b, c, sat, hi, ua, ub'⟩ := i
  obtain ⟨hm, h3, h4, h5, h6⟩ := intMods_byte (r := encDot op ⟨g, d, a, b, c, sat, hi, ua, ub'⟩)
    (p := { tyOk := fun t => t == .i32, satOk := fun _ => true, x := x, cb0 := true, cb1 := ub }) (ty := .i32) (sat := sat)
    (x := hi) (c0 := ua) (c1 := ub') (by simp [encDot, DotM.byte, Ty.code]) rfl (by simp) hhi (by simp) hub
  simp only [decDot, sub0, hm, h3, h4, h5, h6]
  simp [encDot, intOps3_enc ha hb hc hd he]

theorem of_decDot {i : Op3 DotM} {x ub : Bool} (h : decDot r x ub = .ok i) :
    (i.m.hi = true → x = true) ∧ (i.m.ub = true → ub = true) ∧ i.a.okAt .i32 = true ∧ i.b.okAt .i32 = true ∧
      i.c.okAt .i32 = true ∧ dstInt i.d false [i.a, i.b, i.c] = true ∧ extAgree [i.a, i.b, i.c] = true := by
  simp only [decDot, bind_eq_ok, Except.ok.injEq, Prod.exists, intMods, need_eq_ok] at h
  obtain ⟨-, -, -, -, _, ⟨-, -, -, hx, -, -, -, h6, -⟩, d, a, b, c, ho, rfl⟩ := h
  refine ⟨fun h4 => ?_, fun h6' => ?_, of_intOps3 ho⟩
  · have h4' : r.mbit 4 = true := h4
    simpa [h4'] using hx
  · have h6'' : r.mbit 6 = true := h6'
    simpa [h6''] using h6

end
end Sys2Proof.Codec

namespace Sys2Proof.Codec

/-! ### Carry chains, bit functions, comparisons, predicates (R97 to R109) -/

section
variable {op m c0 : Nat} {r : Raw} {l : List Src} {g : Guard} {d : Dst} {a b c : Src} {ty : Ty} {pd pa pb pc : Fin 8}

theorem decCarry_enc {ci : Bool} (hty : ty.wide = true) (ha : a.okAt ty.pos = true) (hb : b.okAt ty.pos = true)
    (hd : dstInt d (ty.width == 64) [a, b] = true) (he : extAgree [a, b] = true) :
    decCarry (encCarry op ⟨g, d, a, b, pc, ty, ci⟩) = .ok ⟨g, d, a, b, pc, ty, ci⟩ := by
  obtain ⟨hm, -, h4, -⟩ := intMods_byte (r := encCarry op ⟨g, d, a, b, pc, ty, ci⟩)
    (p := { tyOk := Ty.wide, satZero := true, x := true }) (sat := false) (x := ci) (c0 := false) (c1 := false)
    (by simp [encCarry]) hty (by simp) (by simp) (by simp) (by simp)
  simp only [decCarry, sub0, hm, h4]
  simp [encCarry, intOps2_enc ha hb hd he, he]

theorem of_decCarry {i : CarryI} (h : decCarry r = .ok i) :
    i.ty.wide = true ∧ i.a.okAt i.ty.pos = true ∧ i.b.okAt i.ty.pos = true ∧
      dstInt i.d (i.ty.width == 64) [i.a, i.b] = true ∧ extAgree [i.a, i.b] = true := by
  simp only [decCarry, bind_eq_ok, Except.ok.injEq, Prod.exists] at h
  obtain ⟨-, -, -, -, ty, hm, d, a, b, ho, pc, -, -, -, rfl⟩ := h
  exact ⟨(of_intMods hm).1, of_intOps2 ho⟩

/-- The position of a source of bfn: 64 bits in the uniform form (R98). -/
def bfnPos (d : Dst) : Pos :=
  match d with
  | .s _ => .i64
  | _ => .i32

theorem decBfn_eq (r : Raw) : decBfn r = (do
    sub0 r
    len96 r
    let d ← dst r
    let (d, a, b, c) ← intOps3 r (bfnPos d) (bfnPos d) (bfnPos d) false
    .ok ⟨r.guard, d, a, b, c, BitVec.ofNat 8 r.m⟩) := rfl

theorem decBfn_enc {lut : BitVec 8} (ha : a.okAt (bfnPos d) = true) (hb : b.okAt (bfnPos d) = true)
    (hc : c.okAt (bfnPos d) = true) (hd : dstInt d false [a, b, c] = true) (he : extAgree [a, b, c] = true) :
    decBfn (enc3 op 0 lut.toNat g d a b c) = .ok ⟨g, d, a, b, c, lut⟩ := by
  have hdst : dst (enc3 op 0 lut.toNat g d a b c) = .ok d := dst_code withSrcs_d withSrcs_nw
  simp [decBfn_eq, sub0, hdst, intOps3_enc ha hb hc hd he]

theorem of_decBfn {i : Op3 (BitVec 8)} (h : decBfn r = .ok i) :
    i.a.okAt (bfnPos i.d) = true ∧ i.b.okAt (bfnPos i.d) = true ∧ i.c.okAt (bfnPos i.d) = true ∧
      dstInt i.d false [i.a, i.b, i.c] = true ∧ extAgree [i.a, i.b, i.c] = true := by
  simp only [decBfn_eq, bind_eq_ok, Except.ok.injEq, Prod.exists] at h
  obtain ⟨-, -, -, -, d, hd, d', a, b, c, ho, rfl⟩ := h
  have e : d' = d := by
    simp only [intOps3, hd, ok_bind, bind_eq_ok, Except.ok.injEq, Prod.mk.injEq] at ho
    obtain ⟨_, -, _, -, _, -, -, -, -, -, -, -, rfl, -⟩ := ho
    rfl
  rw [← e] at ho
  exact of_intOps3 ho

theorem decShf_enc {x : Bool} (hty : ty.wide = true) (ha : a.okAt ty.pos = true) (hb : b.okAt ty.pos = true)
    (hc : c.okAt .i32 = true) (hd : dstInt d (ty.width == 64) [a, b, c] = true) (he : extAgree [a, b, c] = true) :
    decShf (enc3 op 0 (ty.code + 16 * x.toNat) g d a b c) = .ok ⟨g, d, a, b, c, ty, x⟩ := by
  obtain ⟨hm, -, h4, -⟩ := intMods_byte (r := enc3 op 0 (ty.code + 16 * x.toNat) g d a b c)
    (p := { tyOk := Ty.wide, satZero := true, x := true }) (sat := false) (x := x) (c0 := false) (c1 := false)
    (by simp) hty (by simp) (by simp) (by simp) (by simp)
  simp only [decShf, sub0, hm, h4]
  simp [intOps3_enc ha hb hc hd he]

theorem of_decShf {i : Op3 ShfM} (h : decShf r = .ok i) :
    i.m.ty.wide = true ∧ i.a.okAt i.m.ty.pos = true ∧ i.b.okAt i.m.ty.pos = true ∧ i.c.okAt .i32 = true ∧
      dstInt i.d (i.m.ty.width == 64) [i.a, i.b, i.c] = true ∧ extAgree [i.a, i.b, i.c] = true := by
  simp only [decShf, bind_eq_ok, Except.ok.injEq, Prod.exists] at h
  obtain ⟨-, -, -, -, ty, hm, d, a, b, c, ho, rfl⟩ := h
  exact ⟨(of_intMods hm).1, of_intOps3 ho⟩

theorem decBsel_enc (ha : a.okAt .i32 = true) (hb : b.okAt .i32 = true) (hc : c.okAt .i32 = true)
    (hd : dstInt d false [a, b, c] = true) (he : extAgree [a, b, c] = true) :
    decBsel (enc3 op 0 0 g d a b c) = .ok ⟨g, d, a, b, c, ()⟩ := by
  simp only [decBsel, sub0, intMods_ty (r := enc3 op 0 0 g d a b c) (ty := .i32)
    (p := { tyOk := fun t => t == .i32, satZero := true }) (by simp [Ty.code]) rfl]
  simp [intOps3_enc ha hb hc hd he]

theorem of_decBsel {i : Op3 Unit} (h : decBsel r = .ok i) :
    i.a.okAt .i32 = true ∧ i.b.okAt .i32 = true ∧ i.c.okAt .i32 = true ∧ dstInt i.d false [i.a, i.b, i.c] = true ∧
      extAgree [i.a, i.b, i.c] = true := by
  simp only [decBsel, bind_eq_ok, Except.ok.injEq, Prod.exists] at h
  obtain ⟨-, -, -, -, _, -, d, a, b, c, ho, rfl⟩ := h
  exact of_intOps3 ho

/-- The predicate of a combination, zero without one (R103). -/
theorem combPred_val {cb : Comb} (hc : r.c = pc.val) (h : (cb != .none || pc == 0) = true) : combPred r cb = .ok pc := by
  unfold combPred
  split
  · next e =>
    have : pc = 0 := by simpa [e] using h
    simp [hc, this, unused]
  · simp [hc]

theorem of_combPred {cb : Comb} (h : combPred r cb = .ok pc) : (cb != .none || pc == 0) = true := by
  unfold combPred at h
  split at h
  · simp only [bind_eq_ok, Except.ok.injEq] at h
    obtain ⟨-, -, rfl⟩ := h
    simp
  · next e => simp [e]

theorem decSetp_enc {cc : Cmp} {cb : Comb} (ha : a.okAt ty.pos = true) (hb : b.okAt ty.pos = true)
    (he : extAgree [a, b] = true) (hc : (cb != .none || pc == 0) = true) :
    decSetp ((enc64 op g cc.code (ty.code + 32 * cb.code) pd.val a.code b.code pc.val).withSrcs [a, b]) =
      .ok ⟨g, pd, a, b, cc, ty, cb, pc⟩ := by
  obtain ⟨c0, c1, hcb⟩ : ∃ c0 c1 : Bool, cb.code = c0.toNat + 2 * c1.toNat := by
    cases cb
    · exact ⟨false, false, rfl⟩
    · exact ⟨true, false, rfl⟩
    · exact ⟨false, true, rfl⟩
    · exact ⟨true, true, rfl⟩
  have hmods (r : Raw) (hm : r.m = ty.code + 32 * cb.code) :=
    (intMods_byte (r := r) (p := { tyOk := fun _ => true, satZero := true, cb0 := true, cb1 := true }) (ty := ty)
      (sat := false) (x := false) (c0 := c0) (c1 := c1) (by simp [hm, hcb]; omega) rfl (by simp) (by simp) (by simp)
      (by simp)).1
  have hbits : bits (ty.code + 32 * cb.code) 5 2 = cb.code := by
    have := ty.code_lt
    have := cb.code_lt
    rw [bits]
    omega
  have hp (r : Raw) (hr : r.c = pc.val) : combPred r cb = .ok pc := combPred_val hr hc
  simp [decSetp, enc64, cc.code_lt, len96_withSrcs, hmods, noNw, src_withSrcs, ha, hb, he, hbits, hp, res96_withSrcs]

theorem of_decSetp {i : SetpI} (h : decSetp r = .ok i) :
    i.a.okAt i.ty.pos = true ∧ i.b.okAt i.ty.pos = true ∧ extAgree [i.a, i.b] = true ∧
      (i.comb != .none || i.pc == 0) = true := by
  simp only [decSetp, bind_eq_ok, src_eq_ok, Except.ok.injEq] at h
  obtain ⟨-, -, -, -, ty, -, -, -, pd, -, a, ⟨ra, ha⟩, b, ⟨rb, hb⟩, _, he, pc, hp, -, -, rfl⟩ := h
  exact ⟨ha, hb, extAgree_pair he ra rb, of_combPred hp⟩

theorem decSel_enc (hty : ty.wide = true) (ha : a.okAt ty.pos = true) (hb : b.okAt ty.pos = true)
    (hd : dstInt d (ty.width == 64) [a, b] = true) (he : extAgree [a, b] = true) :
    decSel (enc2 op 0 ty.code g d a b pc.val) = .ok ⟨g, d, a, b, pc, ty⟩ := by
  simp only [decSel, sub0, intMods_ty (r := enc2 op 0 ty.code g d a b pc.val) (p := isWide0) (by simp) hty]
  simp [intOps2_enc ha hb hd he, he]

theorem of_decSel {i : SelI} (h : decSel r = .ok i) :
    i.ty.wide = true ∧ i.a.okAt i.ty.pos = true ∧ i.b.okAt i.ty.pos = true ∧
      dstInt i.d (i.ty.width == 64) [i.a, i.b] = true ∧ extAgree [i.a, i.b] = true := by
  simp only [decSel, bind_eq_ok, Except.ok.injEq, Prod.exists] at h
  obtain ⟨-, -, -, -, ty, hm, d, a, b, ho, pc, -, -, -, rfl⟩ := h
  exact ⟨(of_intMods hm).1, of_intOps2 ho⟩

/-- A form of 64 bits has a length of the majors that permit 96 too. -/
theorem len96_of_two (h : r.len = 2) : len96 r = .ok () := by simp [len96, h]

theorem decPfn_enc {lut : BitVec 8} :
    decPfn (enc64 op g 0 lut.toNat pd.val pa.val pb.val pc.val) = .ok ⟨g, pd, pa, pb, pc, lut⟩ := by
  simp [decPfn, enc64, sub0, len96_of_two, noNw]

theorem decMovp_enc {k : Fin 8} : decMovp ((enc64 op g 0 0 0 k.val 0 0).withDst d) = .ok (.movp ⟨g, d, k⟩) := by
  have hm (r : Raw) (hm : r.m = 0) := intMods_ty (r := r) (ty := .i32)
    (p := { tyOk := fun t => t == .i32, satZero := true, x := true }) (by rw [hm]; rfl) rfl
  simp [decMovp, enc64, Raw.withDst, sub0, len96_of_two, hm, Raw.mbit, bits, unused]

theorem decMovp_to {k : Fin 8} (ha : a.okAt .i32 = true) :
    decMovp ((enc64 op g 0 16 k.val a.code 0 0).withSrcs [a]) = .ok (.movpTo ⟨g, k, a⟩) := by
  have hm (r : Raw) (hm : r.m = 16) := (intMods_byte (r := r) (ty := .i32) (sat := false) (x := true) (c0 := false)
    (c1 := false) (p := { tyOk := fun t => t == .i32, satZero := true, x := true }) (by rw [hm]; rfl) rfl (by simp) (by simp)
    (by simp) (by simp)).1
  simp [decMovp, enc64, sub0, len96_withSrcs, hm, Raw.mbit, bits, unused, noNw, src_withSrcs, ha, res96_withSrcs]

theorem wf_of_decMovp {i : Instr} (h : decMovp r = .ok i) : i.wf = true := by
  simp only [decMovp, bind_eq_ok] at h
  obtain ⟨-, -, -, -, _, -, h⟩ := h
  split at h
  · simp only [bind_eq_ok, src_eq_ok, Except.ok.injEq] at h
    obtain ⟨-, -, _, -, a, ⟨-, ha⟩, -, -, -, -, -, -, rfl⟩ := h
    exact ha
  · simp only [bind_eq_ok, Except.ok.injEq] at h
    obtain ⟨_, -, _, -, -, -, -, -, rfl⟩ := h
    rfl

/-- Twenty bits cut in fields of nine, nine and two (R108). -/
theorem join_sethi (x : BitVec 20) :
    BitVec.ofNat 20 (bits x.toNat 0 9 + bits x.toNat 9 9 * 2 ^ 9 + bits (bits x.toNat 18 2) 0 2 * 2 ^ 18) = x := by
  apply BitVec.eq_of_toNat_eq
  rw [BitVec.toNat_ofNat]
  simp only [bits]
  omega

theorem decSethi_enc {i : SethiI} (s : Bool) :
    decSethi (encSethi s.toNat i) = .ok (if s then .sethi20Pc i else .sethi20 i) := by
  have hc : bits (bits i.imm.toNat 18 2) 2 7 = 0 := by simp only [bits]; omega
  cases s
  all_goals
    simp only [decSethi, encSethi, enc64, mzero, noNw, len64, guard_mk, sreg_code, hc, ok_bind]
    rw [join_sethi]
    rfl

theorem wf_of_decSethi {i : Instr} (h : decSethi r = .ok i) : i.wf = true := by
  simp only [decSethi, bind_eq_ok, Except.ok.injEq] at h
  obtain ⟨-, -, -, -, -, -, -, -, _, -, -, -, rfl⟩ := h
  split <;> rfl

theorem decLea_enc {n : Bool} {sh : Fin 4} (ha : a.okAt .i64 = true) (hb : b.okAt .i32 = true) (hc : c.okAt .i32 = true)
    (hd : dstInt d true [a, b, c] = true) (he : extAgree [a, b, c] = true) :
    decLea (enc3 op 0 (n.toNat + 16 * sh.val) g d a b c) = .ok ⟨g, d, a, b, c, n, sh⟩ := by
  have hn := n.toNat_le
  have hsh : Fin.ofNat 4 (bits (n.toNat + 16 * sh.val) 4 2) = sh := by
    apply Fin.ext
    simp only [bits, Fin.val_ofNat]
    omega
  have hm : intMods (enc3 op 0 (n.toNat + 16 * sh.val) g d a b c)
      { tyOk := Ty.is32, satZero := true, x := true, cb0 := true } = .ok (if n then .n32 else .i32) := by
    refine (intMods_byte (sat := false) (x := sh.val % 2 == 1) (c0 := sh.val / 2 == 1) (c1 := false) ?_ ?_ (by simp) (by simp)
      (by simp) (by simp)).1
    · rw [enc3_m]
      fin_cases sh <;> cases n <;> rfl
    · cases n <;> rfl
  simp only [decLea, sub0, hm, enc3_m, hsh]
  cases n <;> simp [intOps3_enc ha hb hc hd he]

theorem of_decLea {i : Op3 LeaM} (h : decLea r = .ok i) :
    i.a.okAt .i64 = true ∧ i.b.okAt .i32 = true ∧ i.c.okAt .i32 = true ∧ dstInt i.d true [i.a, i.b, i.c] = true ∧
      extAgree [i.a, i.b, i.c] = true := by
  simp only [decLea, bind_eq_ok, Except.ok.injEq, Prod.exists] at h
  obtain ⟨-, -, -, -, _, -, d, a, b, c, ho, rfl⟩ := h
  exact of_intOps3 ho

end
end Sys2Proof.Codec

namespace Sys2Proof.Codec

/-! ### Floating forms (R111 to R120) -/

section
variable {op : Nat} {r : Raw} {l : List Src} {g : Guard} {d : Dst} {a b c : Src} {ft : FT} {pd pc : Fin 8} {p : FSpec}

/-- The floating modifier byte is read back (R111). -/
theorem floatMods_byte {m : FM} (hm : r.m = m.byte) (hok : p.ok m = true) : floatMods r p = .ok m := by
  obtain ⟨ft, mode, f5, f6⟩ := m
  have := ft.code_lt
  have := mode.code_lt
  have := f5.toNat_le
  have := f6.toNat_le
  simp only [FM.byte] at hm
  have b0 : bits r.m 0 3 = ft.code := by rw [hm, bits]; omega
  have b3 : bits r.m 3 2 = mode.code := by rw [hm, bits]; omega
  have b5 : bits r.m 5 1 = f5.toNat := by rw [hm, bits]; omega
  have b6 : bits r.m 6 1 = f6.toNat := by rw [hm, bits]; omega
  have b7 : bits r.m 7 1 = 0 := by rw [hm, bits]; omega
  simp only [FSpec.ok, Bool.and_eq_true] at hok
  obtain ⟨⟨⟨hft, hrm⟩, h5⟩, h6⟩ := hok
  simp [floatMods, mzero, Raw.mbit, b0, b3, b5, b6, b7, ft.code_lt, hft, hrm, h5, h6]

theorem of_floatMods {m : FM} (h : floatMods r p = .ok m) : p.ok m = true := by
  simp only [floatMods, bind_eq_ok, need_eq_ok, Except.ok.injEq] at h
  obtain ⟨-, -, -, h5, -, h6, -, -, -, hf, rfl⟩ := h
  simp only [FSpec.ok, hf, h5, h6, Bool.and_self]

/-- A vector destination or b0 (R111). -/
theorem dstV_eq_ok : dstV r = .ok d ↔ dst r = .ok d ∧ dstVec d = true := by
  simp only [dstV, bind_eq_ok, need_eq_ok, Except.ok.injEq]
  constructor
  · rintro ⟨_, hd, _, hv, rfl⟩
    exact ⟨hd, hv⟩
  · rintro ⟨hd, hv⟩
    exact ⟨d, hd, (), hv, rfl⟩

theorem dstV_ok (hd : dst r = .ok d) (hv : dstVec d = true) : dstV r = .ok d := dstV_eq_ok.2 ⟨hd, hv⟩

theorem decF1_enc {m : FM} (hw : wfF1 p ⟨g, d, a, m⟩ = true) : decF1 (encF1 op ⟨g, d, a, m⟩) p = .ok ⟨g, d, a, m⟩ := by
  simp only [wfF1, Bool.and_eq_true] at hw
  obtain ⟨⟨hm, hd⟩, ha⟩ := hw
  have hmods (r : Raw) (hr : r.m = m.byte) := floatMods_byte hr hm
  simp [decF1, encF1, enc1, enc64, Raw.withDst, sub0, len96_withSrcs, hmods, dstV, hd, src_withSrcs, ha, unused,
    res96_withSrcs]

theorem wf_of_decF1 {i : Op1 FM} (h : decF1 r p = .ok i) : wfF1 p i = true := by
  simp only [decF1, bind_eq_ok, src_eq_ok, dstV_eq_ok, Except.ok.injEq] at h
  obtain ⟨-, -, -, -, m, hm, d, ⟨-, hd⟩, a, ⟨-, ha⟩, -, -, -, -, -, -, rfl⟩ := h
  simp only [wfF1, of_floatMods hm, hd, ha, Bool.and_self]

theorem decF2_enc {m : FM} {pb : FT → Pos} (hw : wfF2 p pb ⟨g, d, a, b, m⟩ = true) :
    decF2 (encF2 op ⟨g, d, a, b, m⟩) p pb = .ok ⟨g, d, a, b, m⟩ := by
  simp only [wfF2, Bool.and_eq_true] at hw
  obtain ⟨⟨⟨⟨hm, hd⟩, ha⟩, hb⟩, he⟩ := hw
  have hmods (r : Raw) (hr : r.m = m.byte) := floatMods_byte hr hm
  simp [decF2, encF2, enc2, enc64, Raw.withDst, sub0, len96_withSrcs, hmods, dstV, hd, src_withSrcs, ha, hb, he, unused,
    res96_withSrcs]

theorem wf_of_decF2 {i : Op2 FM} {pb : FT → Pos} (h : decF2 r p pb = .ok i) : wfF2 p pb i = true := by
  simp only [decF2, bind_eq_ok, src_eq_ok, dstV_eq_ok, Except.ok.injEq] at h
  obtain ⟨-, -, -, -, m, hm, d, ⟨-, hd⟩, a, ⟨ra, ha⟩, b, ⟨rb, hb⟩, -, -, _, he, -, -, rfl⟩ := h
  simp only [wfF2, of_floatMods hm, hd, ha, hb, extAgree_pair he ra rb, Bool.and_self]

theorem decF3_enc {m : FM} {pc : FT → Pos} (hw : wfF3 p pc ⟨g, d, a, b, c, m⟩ = true) :
    decF3 (encF3 op ⟨g, d, a, b, c, m⟩) p pc = .ok ⟨g, d, a, b, c, m⟩ := by
  simp only [wfF3, Bool.and_eq_true] at hw
  obtain ⟨⟨⟨⟨⟨hm, hd⟩, ha⟩, hb⟩, hc⟩, he⟩ := hw
  have hmods (r : Raw) (hr : r.m = m.byte) := floatMods_byte hr hm
  simp [decF3, encF3, enc3, enc64, Raw.withDst, sub0, len96_withSrcs, hmods, dstV, hd, src_withSrcs, ha, hb, hc, he,
    res96_withSrcs]

theorem wf_of_decF3 {i : Op3 FM} {pc : FT → Pos} (h : decF3 r p pc = .ok i) : wfF3 p pc i = true := by
  simp only [decF3, bind_eq_ok, src_eq_ok, dstV_eq_ok, Except.ok.injEq] at h
  obtain ⟨-, -, -, -, m, hm, d, ⟨-, hd⟩, a, ⟨ra, ha⟩, b, ⟨rb, hb⟩, c, ⟨rc, hc⟩, _, he, -, -, rfl⟩ := h
  simp only [wfF3, of_floatMods hm, hd, ha, hb, hc, extAgree_triple he ra rb rc, Bool.and_self]

/-- The three lone formats have the codes below 3 (R111). -/
theorem lone_iff (ft : FT) : ft.lone = true ↔ ft.code < 3 := by cases ft <;> decide
theorem lone_ofCode {x : Nat} (h : x < 3) : (FT.ofCode x).lone = true := by
  obtain rfl | rfl | rfl : x = 0 ∨ x = 1 ∨ x = 2 := by omega
  all_goals rfl

theorem decFsetp_enc {cc : FCmp} {cb : Comb} (hft : ft.lone = true) (ha : a.okAt ft.pos = true) (hb : b.okAt ft.pos = true)
    (he : extAgree [a, b] = true) (hc : (cb != .none || pc == 0) = true) :
    decFsetp ((enc64 op g cc.code (ft.code + 32 * cb.code) pd.val a.code b.code pc.val).withSrcs [a, b]) =
      .ok ⟨g, pd, a, b, cc, ft, cb, pc⟩ := by
  have hlone := (lone_iff ft).1 hft
  have := cb.code_lt
  have b0 : bits (ft.code + 32 * cb.code) 0 3 = ft.code := by rw [bits]; omega
  have b3 : bits (ft.code + 32 * cb.code) 3 2 = 0 := by rw [bits]; omega
  have b5 : bits (ft.code + 32 * cb.code) 5 2 = cb.code := by rw [bits]; omega
  have b7 : bits (ft.code + 32 * cb.code) 7 1 = 0 := by rw [bits]; omega
  have hp (r : Raw) (hr : r.c = pc.val) : combPred r cb = .ok pc := combPred_val hr hc
  simp [decFsetp, enc64, cc.code_lt, len96_withSrcs, mzero, b0, b3, b5, b7, hlone, noNw, src_withSrcs, ha, hb, he, hp,
    res96_withSrcs]

theorem of_decFsetp {i : FsetpI} (h : decFsetp r = .ok i) :
    i.ft.lone = true ∧ i.a.okAt i.ft.pos = true ∧ i.b.okAt i.ft.pos = true ∧ extAgree [i.a, i.b] = true ∧
      (i.comb != .none || i.pc == 0) = true := by
  simp only [decFsetp, bind_eq_ok, need_eq_ok, src_eq_ok, Except.ok.injEq, Bool.and_eq_true, decide_eq_true_eq] at h
  obtain ⟨-, -, -, -, -, -, -, ⟨hft, -⟩, -, -, pd, -, a, ⟨ra, ha⟩, b, ⟨rb, hb⟩, _, he, pc, hp, -, -, rfl⟩ := h
  exact ⟨lone_ofCode hft, ha, hb, extAgree_pair he ra rb, of_combPred hp⟩

theorem decFclass_enc (hft : ft.lone = true) (ha : a.okAt ft.pos = true) (hb : b.okAt .i32 = true)
    (he : extAgree [a, b] = true) :
    decFclass ((enc64 op g 0 ft.code pd.val a.code b.code 0).withSrcs [a, b]) = .ok ⟨g, pd, a, b, ft⟩ := by
  have hlone := (lone_iff ft).1 hft
  have b0 : bits ft.code 0 3 = ft.code := by rw [bits]; omega
  have b3 : bits ft.code 3 2 = 0 := by rw [bits]; omega
  have b5 : bits ft.code 5 3 = 0 := by rw [bits]; omega
  simp [decFclass, enc64, sub0, len96_withSrcs, mzero, b0, b3, b5, hlone, noNw, src_withSrcs, ha, hb, he, unused,
    res96_withSrcs]

theorem of_decFclass {i : FclassI} (h : decFclass r = .ok i) :
    i.ft.lone = true ∧ i.a.okAt i.ft.pos = true ∧ i.mask.okAt .i32 = true ∧ extAgree [i.a, i.mask] = true := by
  simp only [decFclass, bind_eq_ok, need_eq_ok, src_eq_ok, Except.ok.injEq, Bool.and_eq_true, decide_eq_true_eq] at h
  obtain ⟨-, -, -, -, -, -, -, ⟨hft, -⟩, -, -, pd, -, a, ⟨ra, ha⟩, b, ⟨rb, hb⟩, -, -, _, he, -, -, rfl⟩ := h
  exact ⟨lone_ofCode hft, ha, hb, extAgree_pair he ra rb⟩

end

/-! ### Exact forms (R121 to R131) -/

section
variable {op : Nat} {r : Raw} {g : Guard} {d : Dst} {a b c : Src} {t : XT} {pd : Fin 8} {v u : Fin 256} {n k : Fin 4}

@[simp] theorem code_bne_three (t : XT) : (t.code != 3) = true := by cases t <;> rfl
theorem val_bne_zero {n : Fin 4} (h : (n != 0) = true) : (n.val != 0) = true :=
  bne_iff_ne.2 fun e => bne_iff_ne.1 h (Fin.ext e)

/-- A component format alone in the modifier byte (R123). -/
theorem xtMods_code (hm : r.m = t.code) : xtMods r = .ok t := by
  have := t.code_lt
  have b0 : bits r.m 0 2 = t.code := by rw [hm, bits]; omega
  have b2 : bits r.m 2 6 = 0 := by rw [hm, bits]; omega
  simp [xtMods, mzero, b0, b2]

theorem dstAligned_eq_ok {n : Nat} : dstAligned r n = .ok d ↔ r.nw = 0 ∧ ∃ k : Fin 256, d = .v k ∧ r.d = k.val ∧ k.val % n = 0 := by
  simp only [dstAligned, noNw, bind_eq_ok, need_eq_ok, vreg_eq_ok, Except.ok.injEq, beq_iff_eq]
  constructor
  · rintro ⟨_, hn, k, ⟨hd, hk⟩, rfl⟩
    exact ⟨hn, k, rfl, hd, hk⟩
  · rintro ⟨hn, k, rfl, hd, hk⟩
    exact ⟨(), hn, k, ⟨hd, hk⟩, rfl⟩

theorem dstAligned_mk {len gn a b c sub m ext : Nat} {k g : Nat} (h : d.alignedV k = true) :
    dstAligned ⟨len, op, g, gn, d.nwBit, d.code, a, b, c, sub, m, ext⟩ k = .ok d := by
  cases d with
  | v i => exact dstAligned_eq_ok.2 ⟨rfl, i, rfl, rfl, by simpa [Dst.alignedV] using h⟩
  | _ => cases h

theorem dstAligned_withSrcs {k : Nat} {l : List Src} : dstAligned (r.withSrcs l) k = dstAligned r k := by
  simp [dstAligned, noNw]

theorem alignedV_of_dstAligned {n : Nat} (h : dstAligned r n = .ok d) : d.alignedV n = true := by
  obtain ⟨-, k, rfl, -, hk⟩ := dstAligned_eq_ok.1 h
  simpa [Dst.alignedV] using hk

theorem decX2_enc (hd : d.alignedV 2 = true) (ha : a.okAt t.pos = true) (hb : b.okAt t.pos = true)
    (he : extAgree [a, b] = true) : decX2 (enc2 op 0 t.code g d a b 0) = .ok ⟨g, d, a, b, t⟩ := by
  have hmods (r : Raw) (hr : r.m = t.code) := xtMods_code hr
  simp [decX2, enc2, enc64, Raw.withDst, sub0, len96_withSrcs, hmods, dstAligned_withSrcs, dstAligned_mk, hd, src_withSrcs,
    ha, hb, he, unused, res96_withSrcs]

theorem of_decX2 {i : Op2 XT} (h : decX2 r = .ok i) :
    i.d.alignedV 2 = true ∧ i.a.okAt i.m.pos = true ∧ i.b.okAt i.m.pos = true ∧ extAgree [i.a, i.b] = true := by
  simp only [decX2, bind_eq_ok, src_eq_ok, Except.ok.injEq] at h
  obtain ⟨-, -, -, -, t, -, d, hd, a, ⟨ra, ha⟩, b, ⟨rb, hb⟩, -, -, _, he, -, -, rfl⟩ := h
  exact ⟨alignedV_of_dstAligned hd, ha, hb, extAgree_pair he ra rb⟩

theorem decX3_enc (hd : d.alignedV 4 = true) (ha : a.okAt t.pos = true) (hb : b.okAt t.pos = true) (hc : c.okAt t.pos = true)
    (he : extAgree [a, b, c] = true) : decX3 (enc3 op 0 t.code g d a b c) = .ok ⟨g, d, a, b, c, t⟩ := by
  have hmods (r : Raw) (hr : r.m = t.code) := xtMods_code hr
  simp [decX3, enc3, enc64, Raw.withDst, sub0, len96_withSrcs, hmods, dstAligned_withSrcs, dstAligned_mk, hd, src_withSrcs,
    ha, hb, hc, he, res96_withSrcs]

theorem of_decX3 {i : Op3 XT} (h : decX3 r = .ok i) :
    i.d.alignedV 4 = true ∧ i.a.okAt i.m.pos = true ∧ i.b.okAt i.m.pos = true ∧ i.c.okAt i.m.pos = true ∧
      extAgree [i.a, i.b, i.c] = true := by
  simp only [decX3, bind_eq_ok, src_eq_ok, Except.ok.injEq] at h
  obtain ⟨-, -, -, -, t, -, d, hd, a, ⟨ra, ha⟩, b, ⟨rb, hb⟩, c, ⟨rc, hc⟩, _, he, -, -, rfl⟩ := h
  exact ⟨alignedV_of_dstAligned hd, ha, hb, hc, extAgree_triple he ra rb rc⟩

/-- An expansion's register is aligned to its length (R84, R128). -/
theorem expAligned_iff {n : Nat} : expAligned v n = true ↔ v.val % expAlign n = 0 := by
  unfold expAligned expAlign
  by_cases h0 : n = 0
  · simp [h0, Nat.mod_one]
  · by_cases h1 : n = 1
    · simp [h1]
    · simp [h0, h1]

theorem vreg_expAlign {n : Nat} (h : expAligned v n = true) : vreg v.val (expAlign n) = .ok v := vreg_val (expAligned_iff.1 h)

theorem decXren_enc (hn : (n != 0) = true) (hd : expAligned v n = true) (ha : expAligned u n = true) :
    decXren (enc64 op g 0 (t.code + 4 * n.val) v.val u.val 0 0) = .ok ⟨g, v, u, t, n⟩ := by
  have hn' := val_bne_zero hn
  have := t.code_lt
  have b0 : bits (t.code + 4 * n.val) 0 2 = t.code := by rw [bits]; omega
  have b2 : bits (t.code + 4 * n.val) 2 2 = n.val := by rw [bits]; omega
  have b4 : bits (t.code + 4 * n.val) 4 4 = 0 := by rw [bits]; omega
  simp [decXren, enc64, sub0, len96_of_two, mzero, b0, b2, b4, hn', noNw, vreg_expAlign, hd, ha, unused]

/-- A length code in two bits. -/
theorem ofNat_bits_two_ne {m lo : Nat} : (Fin.ofNat 4 (bits m lo 2) != 0) = (bits m lo 2 != 0) := by
  have h : (Fin.ofNat 4 (bits m lo 2)).val = bits m lo 2 := Nat.mod_mod ..
  rw [Bool.eq_iff_iff, bne_iff_ne, bne_iff_ne, Ne, Fin.ext_iff, h]
  rfl
theorem val_bits_two {m lo : Nat} : (Fin.ofNat 4 (bits m lo 2)).val = bits m lo 2 := Nat.mod_mod ..

theorem of_decXren {i : XrenI} (h : decXren r = .ok i) :
    (i.na != 0) = true ∧ expAligned i.d i.na = true ∧ expAligned i.a i.na = true := by
  simp only [decXren, bind_eq_ok, need_eq_ok, vreg_eq_ok, Except.ok.injEq, Bool.and_eq_true, ← ofNat_bits_two_ne] at h
  obtain ⟨-, -, -, -, -, -, -, ⟨-, hn⟩, -, -, d, ⟨-, hd⟩, a, ⟨-, ha⟩, -, -, -, -, rfl⟩ := h
  refine ⟨hn, expAligned_iff.2 ?_, expAligned_iff.2 ?_⟩
  · rw [val_bits_two]; exact hd
  · rw [val_bits_two]; exact ha

theorem decXcmpr_enc {mode : RM} (hn : (n != 0) = true) (hk : k.val < n.val) (hd : expAligned v k = true) (ha : expAligned u n = true) :
    decXcmpr (enc64 op g 0 (t.code + 4 * n.val + 16 * k.val + 64 * mode.code) v.val u.val 0 0) =
      .ok ⟨g, v, u, t, n, k, mode⟩ := by
  have hn' := val_bne_zero hn
  have := t.code_lt
  have := mode.code_lt
  have b0 : bits (t.code + 4 * n.val + 16 * k.val + 64 * mode.code) 0 2 = t.code := by rw [bits]; omega
  have b2 : bits (t.code + 4 * n.val + 16 * k.val + 64 * mode.code) 2 2 = n.val := by rw [bits]; omega
  have b4 : bits (t.code + 4 * n.val + 16 * k.val + 64 * mode.code) 4 2 = k.val := by rw [bits]; omega
  have b6 : bits (t.code + 4 * n.val + 16 * k.val + 64 * mode.code) 6 2 = mode.code := by rw [bits]; omega
  have hk' : k < n := hk
  simp [decXcmpr, enc64, sub0, len96_of_two, b0, b2, b4, b6, hn', hk', noNw, vreg_expAlign, hd, ha, unused]

theorem of_decXcmpr {i : XcmprI} (h : decXcmpr r = .ok i) :
    (i.na != 0) = true ∧ i.nd.val < i.na.val ∧ expAligned i.d i.nd = true ∧ expAligned i.a i.na = true := by
  simp only [decXcmpr, bind_eq_ok, need_eq_ok, vreg_eq_ok, Except.ok.injEq, Bool.and_eq_true, ← ofNat_bits_two_ne] at h
  obtain ⟨-, -, -, -, -, ⟨⟨-, hn⟩, hlt⟩, -, -, d, ⟨-, hd⟩, a, ⟨-, ha⟩, -, -, -, -, rfl⟩ := h
  refine ⟨hn, ?_, expAligned_iff.2 ?_, expAligned_iff.2 ?_⟩
  · rw [val_bits_two, val_bits_two]; exact of_decide_eq_true hlt
  · rw [val_bits_two]; exact hd
  · rw [val_bits_two]; exact ha

theorem decXcmp_enc {cc : Cmp} (hn : (n != 0) = true) (ha : expAligned v n = true) (hb : expAligned u n = true) :
    decXcmp (enc64 op g 0 (t.code + 4 * n.val + 16 * cc.code) pd.val v.val u.val 0) = .ok ⟨g, pd, v, u, t, n, cc⟩ := by
  have hn' := val_bne_zero hn
  have := t.code_lt
  have hcc := cc.code_lt
  have b0 : bits (t.code + 4 * n.val + 16 * cc.code) 0 2 = t.code := by rw [bits]; omega
  have b2 : bits (t.code + 4 * n.val + 16 * cc.code) 2 2 = n.val := by rw [bits]; omega
  have b4 : bits (t.code + 4 * n.val + 16 * cc.code) 4 3 = cc.code := by rw [bits]; omega
  have b7 : bits (t.code + 4 * n.val + 16 * cc.code) 7 1 = 0 := by rw [bits]; omega
  simp [decXcmp, enc64, sub0, len96_of_two, mzero, b0, b2, b4, b7, hn', hcc, noNw, vreg_expAlign, hb, ha, unused]

theorem of_decXcmp {i : XcmpI} (h : decXcmp r = .ok i) :
    (i.na != 0) = true ∧ expAligned i.a i.na = true ∧ expAligned i.b i.na = true := by
  simp only [decXcmp, bind_eq_ok, need_eq_ok, vreg_eq_ok, Except.ok.injEq, Bool.and_eq_true, ← ofNat_bits_two_ne] at h
  obtain ⟨-, -, -, -, -, -, -, ⟨⟨-, hn⟩, -⟩, -, -, pd, -, a, ⟨-, ha⟩, b, ⟨-, hb⟩, -, -, rfl⟩ := h
  refine ⟨hn, expAligned_iff.2 ?_, expAligned_iff.2 ?_⟩
  · rw [val_bits_two]; exact ha
  · rw [val_bits_two]; exact hb

/-- The second operand of `xadd`: one word, or an expansion (R130). -/
def xaddOk (b : Src) (t : XT) (n : Nat) : Bool :=
  if n = 0 then b.okAt t.pos else match b with
    | .v r => expAligned r n
    | _ => false

theorem decXadd_enc (hn : (n != 0) = true) (hd : expAligned v n = true) (ha : expAligned u n = true) (hb : xaddOk b t k = true) :
    decXadd ((enc64 op g 0 (t.code + 4 * n.val + 16 * k.val) v.val u.val b.code 0).withSrcs [b]) =
      .ok ⟨g, v, u, b, t, n, k⟩ := by
  have hn' := val_bne_zero hn
  have := t.code_lt
  generalize hm : t.code + 4 * n.val + 16 * k.val = m
  have b0 : bits m 0 2 = t.code := by rw [bits]; omega
  have b2 : bits m 2 2 = n.val := by rw [bits]; omega
  have b4 : bits m 4 2 = k.val := by rw [bits]; omega
  have b6 : bits m 6 2 = 0 := by rw [bits]; omega
  unfold xaddOk at hb
  by_cases hk : k.val = 0
  · rw [if_pos hk] at hb
    obtain rfl : k = 0 := Fin.ext hk
    simp only [Fin.val_zero] at b0 b2 b4 b6
    simp [decXadd, enc64, sub0, len96_withSrcs, mzero, b0, b2, b4, b6, hn', noNw, vreg_expAlign, hd, ha, unused, src_withSrcs,
      hb, res96_withSrcs]
  · rw [if_neg hk] at hb
    obtain ⟨w, rfl, hw⟩ : ∃ w, b = .v w ∧ expAligned w k = true := by
      cases b with
      | v w => exact ⟨w, rfl, hb⟩
      | _ => cases hb
    have hvb : vreg (Src.v w).code (expAlign k) = .ok w := vreg_expAlign hw
    simp [decXadd, enc64, sub0, len96_withSrcs, mzero, b0, b2, b4, b6, hn', hk, noNw, vreg_expAlign, hd, ha, unused, hvb,
      res96_withSrcs]

theorem of_decXadd {i : XaddI} (h : decXadd r = .ok i) :
    (i.na != 0) = true ∧ expAligned i.d i.na = true ∧ expAligned i.a i.na = true ∧ xaddOk i.b i.t i.nb = true := by
  simp only [decXadd, bind_eq_ok, need_eq_ok, vreg_eq_ok, Except.ok.injEq, Bool.and_eq_true, ← ofNat_bits_two_ne] at h
  obtain ⟨-, -, -, -, -, -, -, ⟨-, hn⟩, -, -, d, ⟨-, hd⟩, a, ⟨-, ha⟩, b, hb, -, -, -, -, rfl⟩ := h
  refine ⟨hn, expAligned_iff.2 ?_, expAligned_iff.2 ?_, ?_⟩
  · rw [val_bits_two]; exact hd
  · rw [val_bits_two]; exact ha
  · unfold xaddOk
    rw [val_bits_two]
    split at hb
    · next h0 => rw [if_pos h0]; exact (src_eq_ok.1 hb).2
    · next h0 =>
      simp only [bind_eq_ok, vreg_eq_ok, Except.ok.injEq] at hb
      obtain ⟨w, ⟨-, hw⟩, rfl⟩ := hb
      rw [if_neg h0]
      exact expAligned_iff.2 hw

theorem decXmul_enc (hn : (n != 0) = true) (hd : expAligned v n = true) (ha : expAligned u n = true) (hb : b.okAt t.pos = true) :
    decXmul ((enc64 op g 0 (t.code + 4 * n.val) v.val u.val b.code 0).withSrcs [b]) = .ok ⟨g, v, u, b, t, n⟩ := by
  have hn' := val_bne_zero hn
  have := t.code_lt
  have b0 : bits (t.code + 4 * n.val) 0 2 = t.code := by rw [bits]; omega
  have b2 : bits (t.code + 4 * n.val) 2 2 = n.val := by rw [bits]; omega
  have b4 : bits (t.code + 4 * n.val) 4 4 = 0 := by rw [bits]; omega
  simp [decXmul, enc64, sub0, len96_withSrcs, mzero, b0, b2, b4, hn', noNw, vreg_expAlign, hd, ha, unused, src_withSrcs,
    hb, res96_withSrcs]

theorem of_decXmul {i : XmulI} (h : decXmul r = .ok i) :
    (i.na != 0) = true ∧ expAligned i.d i.na = true ∧ expAligned i.a i.na = true ∧ i.b.okAt i.t.pos = true := by
  simp only [decXmul, bind_eq_ok, need_eq_ok, src_eq_ok, vreg_eq_ok, Except.ok.injEq, Bool.and_eq_true,
    ← ofNat_bits_two_ne] at h
  obtain ⟨-, -, -, -, -, -, -, ⟨-, hn⟩, -, -, d, ⟨-, hd⟩, a, ⟨-, ha⟩, b, ⟨-, hb⟩, -, -, -, -, rfl⟩ := h
  refine ⟨hn, expAligned_iff.2 ?_, expAligned_iff.2 ?_, hb⟩
  · rw [val_bits_two]; exact hd
  · rw [val_bits_two]; exact ha

end
end Sys2Proof.Codec

namespace Sys2Proof.Codec

/-! ### Conversions (R132 to R142) -/

section
variable {op : Nat} {r : Raw} {g : Guard} {d : Dst} {a b c : Src} {v u : Fin 256} {wf : XT} {nf : NF} {mode : RM}
  {sel : Fin 4} {x y z : Bool}

/-- A constant bit of M. -/
theorem mbit_of_bits {n : Nat} {x : Bool} (h : bits r.m n 1 = x.toNat) : r.mbit n = x := by
  rw [Raw.mbit, h, toNat_bne_zero]

/-- The checks of `cvt` that concern its modifiers hold for an easy destination and source when they hold at all (R133). -/
theorem wfCvt_mods {m : CvtM} (h : wfCvt ⟨g, d, a, m⟩ = true) : wfCvt ⟨g, .v 0, .s 0, m⟩ = true := by
  simp only [wfCvt, Bool.and_eq_true] at h ⊢
  obtain ⟨⟨h, -⟩, -⟩ := h
  exact ⟨⟨h, rfl⟩, by simp⟩

theorem wfCvt_src {m : CvtM} (h : wfCvt ⟨g, d, a, m⟩ = true) : a.okAt m.st.pos = true := by
  simp only [wfCvt, Bool.and_eq_true] at h
  exact h.1.2

theorem decCvt_enc {m : CvtM} (hw : wfCvt ⟨g, d, a, m⟩ = true) :
    decCvt (((enc64 op g 0 (m.dt.code + 16 * m.st.code) 0 a.code 0 (m.rm.code + 4 * m.sat.toNat)).withDst d).withSrcs [a]) =
      .ok ⟨g, d, a, m⟩ := by
  have hm := wfCvt_mods hw
  have ha := wfCvt_src hw
  obtain ⟨dt, st, mode, sat⟩ := m
  have := dt.code_lt
  have := st.code_lt
  have := mode.code_lt
  have := sat.toNat_le
  have b0 : bits (dt.code + 16 * st.code) 0 4 = dt.code := by rw [bits]; omega
  have b4 : bits (dt.code + 16 * st.code) 4 4 = st.code := by rw [bits]; omega
  have c0 : bits (mode.code + 4 * sat.toNat) 0 2 = mode.code := by rw [bits]; omega
  have c2 : bits (mode.code + 4 * sat.toNat) 2 1 = sat.toNat := by rw [bits]; omega
  have c3 : bits (mode.code + 4 * sat.toNat) 3 6 = 0 := by rw [bits]; omega
  simp [decCvt, enc64, Raw.withDst, sub0, len96_withSrcs, b0, b4, c0, c2, c3, dt.code_lt, st.code_lt, hm, src_withSrcs, ha,
    unused, hw, res96_withSrcs]

theorem wf_of_decCvt {i : Op1 CvtM} (h : decCvt r = .ok i) : wfCvt i = true := by
  simp only [decCvt, bind_eq_ok, need_eq_ok, Except.ok.injEq] at h
  obtain ⟨-, -, -, -, -, -, -, -, d, -, a, -, -, -, -, hw, -, -, -, -, rfl⟩ := h
  exact hw

theorem decCvtN_widen (hd : dstVec d = true) (ha : a.okAt .narrow = true) :
    decCvtN (enc1 op 0 (1 + 2 * x.toNat + 4 * wf.code + 16 * sel.val) g d a) = .ok ⟨g, d, a, x, wf, .widen sel⟩ := by
  have := wf.code_lt
  have := x.toNat_le
  have b0 : bits (1 + 2 * x.toNat + 4 * wf.code + 16 * sel.val) 0 1 = 1 := by rw [bits]; omega
  have b1 : bits (1 + 2 * x.toNat + 4 * wf.code + 16 * sel.val) 1 1 = x.toNat := by rw [bits]; omega
  have b2 : bits (1 + 2 * x.toNat + 4 * wf.code + 16 * sel.val) 2 2 = wf.code := by rw [bits]; omega
  have b4 : bits (1 + 2 * x.toNat + 4 * wf.code + 16 * sel.val) 4 2 = sel.val := by rw [bits]; omega
  have b6 : bits (1 + 2 * x.toNat + 4 * wf.code + 16 * sel.val) 6 2 = 0 := by rw [bits]; omega
  simp [decCvtN, enc1, enc64, Raw.withDst, sub0, len96_withSrcs, Raw.mbit, mzero, b0, b1, b2, b4, b6, dstV, hd,
    src_withSrcs, ha, unused]

theorem decCvtN_narrow (hd : dstVec d = true) (ha : a.okAt wf.pos = true) (hb : b.okAt wf.pos = true)
    (he : extAgree [a, b] = true) :
    decCvtN (enc2 op 0 (2 * x.toNat + 4 * wf.code + 16 * mode.code + 64 * y.toNat + 128 * z.toNat) g d a b 0) =
      .ok ⟨g, d, a, x, wf, .narrow b mode y z⟩ := by
  have := wf.code_lt
  have := mode.code_lt
  have := x.toNat_le
  have := y.toNat_le
  have := z.toNat_le
  generalize hm : 2 * x.toNat + 4 * wf.code + 16 * mode.code + 64 * y.toNat + 128 * z.toNat = m
  have b0 : bits m 0 1 = 0 := by rw [bits]; omega
  have b1 : bits m 1 1 = x.toNat := by rw [bits]; omega
  have b2 : bits m 2 2 = wf.code := by rw [bits]; omega
  have b4 : bits m 4 2 = mode.code := by rw [bits]; omega
  have b6 : bits m 6 1 = y.toNat := by rw [bits]; omega
  have b7 : bits m 7 1 = z.toNat := by rw [bits]; omega
  simp [decCvtN, enc2, enc64, Raw.withDst, sub0, len96_withSrcs, Raw.mbit, b0, b1, b2, b4, b6, b7, dstV, hd,
    src_withSrcs, ha, hb, he, unused, res96_withSrcs]

theorem wf_of_decCvtN {i : CvtNI} (h : decCvtN r = .ok i) : (Instr.cvtN i).wf = true := by
  simp only [decCvtN, bind_eq_ok] at h
  obtain ⟨-, -, -, -, h⟩ := h
  split at h
  · simp only [bind_eq_ok, dstV_eq_ok, src_eq_ok, Except.ok.injEq] at h
    obtain ⟨-, -, -, -, d, ⟨-, hd⟩, a, ⟨-, ha⟩, -, -, -, -, rfl⟩ := h
    simp only [Instr.wf, hd, ha, Bool.and_self]
  · simp only [bind_eq_ok, dstV_eq_ok, src_eq_ok, Except.ok.injEq] at h
    obtain ⟨-, -, d, ⟨-, hd⟩, a, ⟨ra, ha⟩, b, ⟨rb, hb⟩, -, -, _, he, -, -, rfl⟩ := h
    simp only [Instr.wf, hd, ha, hb, extAgree_pair he ra rb, Bool.and_self]

/-- `cvt.sr` to a lone 16-bit word (R136). -/
theorem decCvtSr_word (hd : dstVec d = true) (ha : a.okAt .f32 = true) (hc : c.okAt .i32 = true)
    (he : extAgree [a, c] = true) :
    decCvtSr (((enc64 op g 0 x.toNat 0 a.code 0 c.code).withDst d).withSrcs [a, c]) =
      .ok ⟨g, d, a, c, if x then .bf16 else .f16⟩ := by
  have := x.toNat_le
  have b0 : bits x.toNat 0 2 = x.toNat := by rw [bits]; omega
  have b2 : bits x.toNat 2 1 = 0 := by rw [bits]; omega
  have b3 : bits x.toNat 3 1 = 0 := by rw [bits]; omega
  have b4 : bits x.toNat 4 4 = 0 := by rw [bits]; omega
  cases x
  all_goals
    simp only [Bool.toNat_true, Bool.toNat_false] at b0 b2 b3 b4
    simp [decCvtSr, enc64, Raw.withDst, sub0, len96_withSrcs, Raw.mbit, mzero, b0, b2, b3, b4, dstV, hd, src_withSrcs, ha,
      hc, he, unused, res96_withSrcs]

theorem decCvtSr_byte (hd : dstVec d = true) (ha : a.okAt .f32 = true) (hb : b.okAt .f32 = true) (hc : c.okAt .i32 = true)
    (he : extAgree [a, b, c] = true) :
    decCvtSr (enc3 op 0 (2 + x.toNat + 4 * y.toNat + 8 * z.toNat) g d a b c) = .ok ⟨g, d, a, c, .byte x b y z⟩ := by
  have := x.toNat_le
  have := y.toNat_le
  have := z.toNat_le
  generalize hm : 2 + x.toNat + 4 * y.toNat + 8 * z.toNat = m
  have b0 : bits m 0 2 = 2 + x.toNat := by rw [bits]; omega
  have b2 : bits m 2 1 = y.toNat := by rw [bits]; omega
  have b3 : bits m 3 1 = z.toNat := by rw [bits]; omega
  have b4 : bits m 4 4 = 0 := by rw [bits]; omega
  cases x
  all_goals
    simp only [Bool.toNat_true, Bool.toNat_false] at b0
    simp [decCvtSr, enc3, enc64, Raw.withDst, sub0, len96_withSrcs, Raw.mbit, mzero, b0, b2, b3, b4, dstV, hd, src_withSrcs,
      ha, hb, hc, he, res96_withSrcs]

theorem wf_of_decCvtSr {i : CvtSrI} (h : decCvtSr r = .ok i) : (Instr.cvtSr i).wf = true := by
  simp only [decCvtSr, bind_eq_ok, dstV_eq_ok, src_eq_ok] at h
  obtain ⟨-, -, -, -, -, -, -, -, d, ⟨-, hd⟩, a, ⟨ra, ha⟩, c, ⟨rc, hc⟩, h⟩ := h
  split at h
  · simp only [bind_eq_ok, Except.ok.injEq] at h
    obtain ⟨-, -, _, he, -, -, rfl⟩ := h
    have hac := extAgree_pair he ra rc
    split
    · simp only [Instr.wf, hd, ha, hc, hac, Bool.and_self]
    · simp only [Instr.wf, hd, ha, hc, hac, Bool.and_self]
  · simp only [bind_eq_ok, src_eq_ok, Except.ok.injEq] at h
    obtain ⟨b, ⟨rb, hb⟩, _, he, -, -, rfl⟩ := h
    simp only [Instr.wf, hd, ha, hb, hc, extAgree_triple he ra rb rc, Bool.and_self]

@[simp] theorem nf_code_bne_three (nf : NF) : (nf.code != 3) = true := by cases nf <;> rfl
theorem nf_code_eq_zero (nf : NF) : (nf.code == 0) = (nf == .e2m1) := by cases nf <;> rfl

/-- The registers that a block's elements take (R137). -/
def blkGrp (nf : NF) : Nat := if nf = .e2m1 then 8 else 4

/-- The destination of an encoded block: b0 only under a given scale (R139). -/
def dstBlk (d : Dst) (auto : Bool) : Bool :=
  match d with
  | .v _ => true
  | .s _ => false
  | .b0 => !auto

theorem dstBlk_iff {auto : Bool} : dstBlk d auto = true ↔ dstVec d = true ∧ (!(auto && d == .b0)) = true := by
  cases d <;> cases auto <;> simp [dstBlk, dstVec]

theorem nf_ofCode_eq (n : Nat) : (NF.ofCode n == .e2m1) = (n == 0) := by
  obtain _ | _ | n := n <;> rfl

theorem decCvtBlk_decode (ha : a.okAt .narrow = true) (hd : v.val % blkGrp nf = 0) :
    decCvtBlk (enc64 op g 0 (1 + 2 * nf.code + 8 * sel.val) v.val a.code u.val 0) =
      .ok (.cvtBlkDecode ⟨g, v, a, u, nf, sel⟩) := by
  have := nf.code_lt
  have b0 : bits (1 + 2 * nf.code + 8 * sel.val) 0 1 = 1 := by rw [bits]; omega
  have b1 : bits (1 + 2 * nf.code + 8 * sel.val) 1 2 = nf.code := by rw [bits]; omega
  have b3 : bits (1 + 2 * nf.code + 8 * sel.val) 3 2 = sel.val := by rw [bits]; omega
  have b5 : bits (1 + 2 * nf.code + 8 * sel.val) 5 1 = 0 := by rw [bits]; omega
  have b6 : bits (1 + 2 * nf.code + 8 * sel.val) 6 1 = 0 := by rw [bits]; omega
  have b7 : bits (1 + 2 * nf.code + 8 * sel.val) 7 1 = 0 := by rw [bits]; omega
  have hx : a.isExt = false := by cases a <;> simp_all [Src.okAt, Src.isExt]
  have hs (r : Raw) : src r a.code .narrow = .ok a := src_code (holds_of_not_isExt hx) ha
  have hv : vreg v.val (if nf = .e2m1 then 8 else 4) = .ok v := vreg_val hd
  have hu : vreg u.val 1 = .ok u := vreg_val (Nat.mod_one _)
  simp [decCvtBlk, enc64, sub0, len96_of_two, Raw.mbit, mzero, b0, b1, b3, b5, b6, b7, noNw, hs, hv, hu]

theorem decCvtBlk_encode {auto ovf : Bool} (ha : v.val % blkGrp nf = 0) (ho : (!(ovf && nf == .e2m1)) = true)
    (hd : dstBlk d auto = true) :
    decCvtBlk ((enc64 op g 0 (2 * nf.code + 8 * sel.val + 32 * auto.toNat + 64 * ovf.toNat) 0 v.val u.val mode.code).withDst d) =
      .ok (.cvtBlkEncode ⟨g, d, v, u, nf, sel, auto, mode, ovf⟩) := by
  have := nf.code_lt
  have := mode.code_lt
  have := auto.toNat_le
  have := ovf.toNat_le
  generalize hm : 2 * nf.code + 8 * sel.val + 32 * auto.toNat + 64 * ovf.toNat = m
  have b0 : bits m 0 1 = 0 := by rw [bits]; omega
  have b1 : bits m 1 2 = nf.code := by rw [bits]; omega
  have b3 : bits m 3 2 = sel.val := by rw [bits]; omega
  have b5 : bits m 5 1 = auto.toNat := by rw [bits]; omega
  have b6 : bits m 6 1 = ovf.toNat := by rw [bits]; omega
  have b7 : bits m 7 1 = 0 := by rw [bits]; omega
  have c0 : bits mode.code 0 2 = mode.code := by rw [bits]; omega
  have c2 : bits mode.code 2 7 = 0 := by rw [bits]; omega
  have hv : vreg v.val (if nf = .e2m1 then 8 else 4) = .ok v := vreg_val ha
  have hu : vreg u.val 1 = .ok u := vreg_val (Nat.mod_one _)
  obtain ⟨hdv, hda⟩ := dstBlk_iff.1 hd
  have ho' : (!(nf.code == 0 && ovf)) = true := by rw [nf_code_eq_zero, Bool.and_comm]; exact ho
  simp only [decCvtBlk, enc64, Raw.withDst, Raw.mbit, b0, b1, b3, b5, b6, c0, c2, toNat_bne_zero, ho', NF.ofCode_code, hv,
    hu]
  simp only [sub0, len96_of_two, mzero, b7, dstV, dst_mk, ok_bind, need_true, hdv, hda, nf_code_bne_three, Bool.and_self, beq_self_eq_true,
    bne_self_eq_false, Bool.false_eq_true, if_false, Bool.not_false, Bool.true_or]
  simp

theorem wf_of_decCvtBlk {i : Instr} (h : decCvtBlk r = .ok i) : i.wf = true := by
  simp only [decCvtBlk, bind_eq_ok, need_eq_ok] at h
  obtain ⟨-, -, -, -, -, -, -, hovf, -, -, h⟩ := h
  have grp {x : Nat} : blkGrp (NF.ofCode x) = if NF.ofCode x = .e2m1 then 8 else 4 := rfl
  split at h
  · simp only [bind_eq_ok, vreg_eq_ok, src_eq_ok, Except.ok.injEq] at h
    obtain ⟨-, -, d, ⟨-, hd⟩, a, ⟨-, ha⟩, -, -, -, -, rfl⟩ := h
    simp [Instr.wf, ha, hd]
  · simp only [bind_eq_ok, need_eq_ok, vreg_eq_ok, dstV_eq_ok, Except.ok.injEq] at h
    obtain ⟨d, ⟨-, hd⟩, -, hb0, a, ⟨-, ha⟩, -, -, -, -, rfl⟩ := h
    have hdst : dstBlk d (r.mbit 5) = true := dstBlk_iff.2 ⟨hd, hb0⟩
    have ho : (!(r.mbit 6 && NF.ofCode (bits r.m 1 2) == .e2m1)) = true := by
      rw [nf_ofCode_eq, Bool.and_comm]
      exact (Bool.and_eq_true_iff.1 hovf).2
    have hblk : (a.val % (if NF.ofCode (bits r.m 1 2) = .e2m1 then 8 else 4) == 0) = true := beq_iff_eq.2 ha
    exact Bool.and_eq_true_iff.2 ⟨Bool.and_eq_true_iff.2 ⟨hblk, ho⟩, hdst⟩

/-- `cvt.x2` from FP64 (R132). -/
theorem decCvtX2_toX2 (hd : v.val % 2 = 0) (ha : a.okAt .f64 = true) :
    decCvtX2 ((enc64 op g 0 0 v.val a.code 0 0).withSrcs [a]) = .ok (.toX2 g v a) := by
  have hv := vreg_val hd
  simp [decCvtX2, enc64, sub0, len96_withSrcs, mzero, bits, Raw.mbit, noNw, hv, src_withSrcs, ha, unused, res96_withSrcs]

theorem decCvtX2_toF64 (hd : v.val % 2 = 0) (ha : u.val % 2 = 0) :
    decCvtX2 (enc64 op g 0 (1 + 2 * mode.code) v.val u.val 0 0) = .ok (.toF64 g v u mode) := by
  have := mode.code_lt
  have b0 : bits (1 + 2 * mode.code) 0 1 = 1 := by rw [bits]; omega
  have b1 : bits (1 + 2 * mode.code) 1 2 = mode.code := by rw [bits]; omega
  have b3 : bits (1 + 2 * mode.code) 3 5 = 0 := by rw [bits]; omega
  simp [decCvtX2, enc64, sub0, len96_of_two, mzero, b0, b1, b3, Raw.mbit, noNw, vreg_val hd, vreg_val ha, unused]

theorem wf_of_decCvtX2 {i : CvtX2I} (h : decCvtX2 r = .ok i) : (Instr.cvtX2 i).wf = true := by
  simp only [decCvtX2, bind_eq_ok, vreg_eq_ok] at h
  obtain ⟨-, -, -, -, -, -, -, -, -, -, d, ⟨-, hd⟩, h⟩ := h
  split at h
  · simp only [bind_eq_ok, vreg_eq_ok, Except.ok.injEq] at h
    obtain ⟨a, ⟨-, ha⟩, -, -, -, -, rfl⟩ := h
    simp [Instr.wf, hd, ha]
  · simp only [bind_eq_ok, src_eq_ok, Except.ok.injEq] at h
    obtain ⟨a, ⟨-, ha⟩, -, -, -, -, -, -, rfl⟩ := h
    simp [Instr.wf, hd, ha]

/-- A source of a narrow position is a register or a latch. -/
theorem isExt_of_narrow (h : a.okAt .narrow = true) : a.isExt = false := by cases a <;> simp_all [Src.okAt, Src.isExt]

@[simp] theorem vreg_one (v : Fin 256) : vreg v.val 1 = .ok v := vreg_val (Nat.mod_one _)

/-- The modifier byte of `unpk.t3`: PV and the predicate (R142). -/
def unpkByte (pd : Option (Fin 8)) : Nat :=
  match pd with
  | none => 0
  | some p => 8 + p.val

theorem decUnpk_enc {pd : Option (Fin 8)} (ha : a.okAt .narrow = true) :
    decUnpk (enc64 op g 0 (unpkByte pd) v.val a.code 0 0) = .ok ⟨g, v, a, pd⟩ := by
  have hs (r : Raw) : src r a.code .narrow = .ok a := src_code (holds_of_not_isExt (isExt_of_narrow ha)) ha
  cases pd with
  | none => simp [decUnpk, enc64, sub0, len96_of_two, mzero, bits, Raw.mbit, noNw, hs, unused, unpkByte]
  | some p =>
    have b0 : bits (8 + p.val) 0 3 = p.val := by rw [bits]; omega
    have b3 : bits (8 + p.val) 3 1 = 1 := by rw [bits]; omega
    have b4 : bits (8 + p.val) 4 4 = 0 := by rw [bits]; omega
    simp [decUnpk, enc64, sub0, len96_of_two, mzero, b0, b3, b4, Raw.mbit, noNw, hs, unused, unpkByte]

theorem of_decUnpk {i : UnpkI} (h : decUnpk r = .ok i) : i.a.okAt .narrow = true := by
  simp only [decUnpk, bind_eq_ok, src_eq_ok, Except.ok.injEq] at h
  obtain ⟨-, -, -, -, -, -, -, -, _, -, a, ⟨-, ha⟩, -, -, -, -, rfl⟩ := h
  exact ha

/-- The form of `pack` that the fields of its modifier byte name (R140). -/
def packOf (p mode : Nat) (sat hi : Bool) : PackP :=
  match p with
  | 0 => .f16x2 (RM.ofCode mode)
  | 1 => .bf16x2 (RM.ofCode mode)
  | 2 => .i16x2 sat
  | 3 => .n16x2 sat
  | 4 => .i8 sat hi
  | _ => .n8 sat hi

/-- The position of the sources of `pack`. -/
def packPos (p : Nat) : Pos := if p < 2 then .f32 else .i32

theorem decPack_fields {p mode : Nat} {sat hi : Bool} (hp : p < 6) (hmode : mode < 4) (hm : (decide (p < 2) || mode == 0) = true)
    (hs : (decide (2 ≤ p) || !sat) = true) (hh : (decide (4 ≤ p) || !hi) = true) (hd : dstVec d = true) (ha : a.okAt (packPos p) = true)
    (hb : b.okAt (packPos p) = true) (he : extAgree [a, b] = true) :
    decPack (enc2 op 0 (p + 8 * mode + 32 * sat.toNat + 64 * hi.toNat) g d a b 0) = .ok ⟨g, d, a, b, packOf p mode sat hi⟩ := by
  have := sat.toNat_le
  have := hi.toNat_le
  have hpos : (if p < 2 then Pos.f32 else Pos.i32) = packPos p := rfl
  generalize hx : p + 8 * mode + 32 * sat.toNat + 64 * hi.toNat = m
  have b0 : bits m 0 3 = p := by rw [bits]; omega
  have b3 : bits m 3 2 = mode := by rw [bits]; omega
  have b5 : bits m 5 1 = sat.toNat := by rw [bits]; omega
  have b6 : bits m 6 1 = hi.toNat := by rw [bits]; omega
  have b7 : bits m 7 1 = 0 := by rw [bits]; omega
  simp only [decPack, enc2, enc64, Raw.withDst, Raw.mbit, withSrcs_m, b0, b3, b5, b6, toNat_bne_zero, hm, hs, hh, hpos]
  simp [sub0, len96_withSrcs, mzero, b7, hp, dstV, hd, src_withSrcs, ha, hb, he, unused, res96_withSrcs]
  rfl

theorem wf_of_decPack {i : Op2 PackP} (h : decPack r = .ok i) : (Instr.pack i).wf = true := by
  simp only [decPack, bind_eq_ok, need_eq_ok, dstV_eq_ok, src_eq_ok, Except.ok.injEq, decide_eq_true_eq] at h
  obtain ⟨-, -, -, -, -, -, -, hp, -, -, -, -, -, -, d, ⟨-, hd⟩, a, ⟨ra, ha⟩, b, ⟨rb, hb⟩, -, -, _, he, -, -, rfl⟩ := h
  have hab := extAgree_pair he ra rb
  generalize bits r.m 0 3 = p at *
  have : p = 0 ∨ p = 1 ∨ p = 2 ∨ p = 3 ∨ p = 4 ∨ p = 5 := by omega
  rcases this with rfl | rfl | rfl | rfl | rfl | rfl
  all_goals simp [Instr.wf, hd, hab]; exact ⟨ha, hb⟩

/-- The form of `unpack` that the fields of its modifier byte name (R141). -/
def unpackOf (p sel : Nat) : UnpackP :=
  match p with
  | 0 => .f16 (Fin.ofNat 2 sel)
  | 1 => .bf16 (Fin.ofNat 2 sel)
  | 2 => .i16 (Fin.ofNat 2 sel)
  | 3 => .n16 (Fin.ofNat 2 sel)
  | 4 => .i8 (Fin.ofNat 4 sel)
  | _ => .n8 (Fin.ofNat 4 sel)

/-- The position of the source of `unpack`. -/
def unpackPos (p : Nat) : Pos := if p < 2 then .pair else .i32

theorem decUnpack_fields {p sel : Nat} (hp : p < 6) (hsel : sel < 4) (hs : (decide (4 ≤ p) || decide (sel < 2)) = true)
    (hd : dstVec d = true) (ha : a.okAt (unpackPos p) = true) :
    decUnpack (enc1 op 0 (p + 8 * sel) g d a) = .ok ⟨g, d, a, unpackOf p sel⟩ := by
  generalize hm : p + 8 * sel = m
  have b0 : bits m 0 3 = p := by rw [bits]; omega
  have b3 : bits m 3 2 = sel := by rw [bits]; omega
  have b5 : bits m 5 3 = 0 := by rw [bits]; omega
  have hpos : (if p < 2 then Pos.pair else Pos.i32) = unpackPos p := rfl
  simp only [decUnpack, enc1, enc64, Raw.withDst, withSrcs_m, b0, b3, hs, hpos]
  simp [sub0, len96_withSrcs, mzero, b5, hp, dstV, hd, src_withSrcs, ha, unused, res96_withSrcs, -Fin.ofNat_eq_cast]
  rfl

theorem wf_of_decUnpack {i : Op1 UnpackP} (h : decUnpack r = .ok i) : (Instr.unpack i).wf = true := by
  simp only [decUnpack, bind_eq_ok, need_eq_ok, dstV_eq_ok, src_eq_ok, Except.ok.injEq, Bool.and_eq_true,
    decide_eq_true_eq] at h
  obtain ⟨-, -, -, -, -, -, -, ⟨hp, -⟩, d, ⟨-, hd⟩, a, ⟨-, ha⟩, -, -, -, -, -, -, rfl⟩ := h
  generalize bits r.m 0 3 = p at *
  have : p = 0 ∨ p = 1 ∨ p = 2 ∨ p = 3 ∨ p = 4 ∨ p = 5 := by omega
  rcases this with rfl | rfl | rfl | rfl | rfl | rfl
  all_goals simp [Instr.wf, hd]; exact ha

end
end Sys2Proof.Codec

namespace Sys2Proof.Codec

/-! ### Lane exchange (R299 to R304) -/

section
variable {op : Nat} {r : Raw} {l : List Src} {g : Guard} {d : Dst} {a b c : Src} {v u : Fin 256} {pd : Option (Fin 8)} {x y : Bool}
  {k p : Fin 8}

/-- The optional predicate that C names with PV is read back (R300). -/
theorem optPred_val (h : r.c = optIndex pd) : optPred r pd.isSome = .ok pd := by
  cases pd with
  | none => simp [optPred, h, optIndex, unused]
  | some p => simp [optPred, h, optIndex]

theorem decXlane_enc {mode : XlaneMode} {seg : Fin 6} (hb : b.okAt .i32 = true) :
    decXlane ((enc64 op g mode.code (seg.val + 8 * pd.isSome.toNat) v.val u.val b.code (optIndex pd)).withSrcs [b]) =
      .ok ⟨g, v, u, b, mode, seg, pd⟩ := by
  have := pd.isSome.toNat_le
  have b0 : bits (seg.val + 8 * pd.isSome.toNat) 0 3 = seg.val := by rw [bits]; omega
  have b3 : bits (seg.val + 8 * pd.isSome.toNat) 3 1 = pd.isSome.toNat := by rw [bits]; omega
  have b4 : bits (seg.val + 8 * pd.isSome.toNat) 4 4 = 0 := by rw [bits]; omega
  have hp (r : Raw) (h : r.c = optIndex pd) : optPred r pd.isSome = .ok pd := optPred_val h
  simp [decXlane, enc64, mode.code_lt, len96_withSrcs, mzero, b0, b3, b4, Raw.mbit, noNw, src_withSrcs, hb, hp, res96_withSrcs]

theorem of_decXlane {i : XlaneI} (h : decXlane r = .ok i) : i.b.okAt .i32 = true := by
  simp only [decXlane, bind_eq_ok, src_eq_ok, Except.ok.injEq] at h
  obtain ⟨-, -, -, -, -, -, -, -, -, -, _, -, _, -, b, ⟨-, hb⟩, _, -, -, -, rfl⟩ := h
  exact hb

theorem decNbr_enc (hb : b.okAt .i32 = true) :
    decNbr ((enc64 op g 0 (x.toNat + 8 * pd.isSome.toNat) v.val u.val b.code (optIndex pd)).withSrcs [b]) =
      .ok ⟨g, v, u, b, x, pd⟩ := by
  have := pd.isSome.toNat_le
  have := x.toNat_le
  have b0 : bits (x.toNat + 8 * pd.isSome.toNat) 0 1 = x.toNat := by rw [bits]; omega
  have b1 : bits (x.toNat + 8 * pd.isSome.toNat) 1 2 = 0 := by rw [bits]; omega
  have b3 : bits (x.toNat + 8 * pd.isSome.toNat) 3 1 = pd.isSome.toNat := by rw [bits]; omega
  have b4 : bits (x.toNat + 8 * pd.isSome.toNat) 4 4 = 0 := by rw [bits]; omega
  have hp (r : Raw) (h : r.c = optIndex pd) : optPred r pd.isSome = .ok pd := optPred_val h
  simp [decNbr, enc64, sub0, len96_withSrcs, mzero, b0, b1, b3, b4, Raw.mbit, noNw, src_withSrcs, hb, hp, res96_withSrcs]

theorem of_decNbr {i : NbrI} (h : decNbr r = .ok i) : i.n.okAt .i32 = true := by
  simp only [decNbr, bind_eq_ok, src_eq_ok, Except.ok.injEq] at h
  obtain ⟨-, -, -, -, -, -, -, -, -, -, _, -, _, -, b, ⟨-, hb⟩, _, -, -, -, rfl⟩ := h
  exact hb

/-- The minor and the destination field of a vote (R302). -/
def voteSub : VoteOp → Nat
  | .and _ => 0
  | .or _ => 1
  | .same _ => 2
  | .xor _ => 4
  | .maskV _ | .maskS _ => 3
def voteDst : VoteOp → Nat
  | .and p | .or p | .same p | .xor p => p.val
  | .maskV d => d.val
  | .maskS d => sregCode d

theorem decLvote_enc {o : VoteOp} : decLvote (enc64 op g (voteSub o) x.toNat (voteDst o) p.val 0 0) = .ok ⟨g, o, p, x⟩ := by
  have := x.toNat_le
  have b0 : bits x.toNat 0 1 = x.toNat := by rw [bits]; omega
  have b1 : bits x.toNat 1 7 = 0 := by rw [bits]; omega
  cases o with
  | maskS d =>
    have hd : ¬sregCode d < 256 := by simp [sregCode]
    simp [decLvote, enc64, voteSub, voteDst, len96_of_two, mzero, b0, b1, Raw.mbit, noNw, unused, hd]
  | _ => simp [decLvote, enc64, voteSub, voteDst, len96_of_two, mzero, b0, b1, Raw.mbit, noNw, unused]

/-- The destination of `mpopc`: a scalar only for the total (R303). -/
def dstPopc (d : Dst) (mode : PopcMode) : Bool :=
  match d with
  | .v _ => true
  | .s _ => mode == .tot
  | .b0 => false

theorem decMpopc_eq (r : Raw) : decMpopc r = (do
    sub0 r
    len96 r
    mzero r 3 5
    need (bits r.m 0 2 != 3) .illegalModifier
    noNw r
    let d ← dst r
    need (dstPopc d (PopcMode.ofCode (bits r.m 0 2))) .illegalOperand
    let pa ← index r.a 8
    unused r.b
    unused r.c
    .ok ⟨r.guard, d, pa, PopcMode.ofCode (bits r.m 0 2), r.mbit 2⟩) := rfl

@[simp] theorem popc_code_bne_three (mode : PopcMode) : (mode.code != 3) = true := by cases mode <;> rfl

theorem decMpopc_enc {mode : PopcMode} (hd : dstPopc d mode = true) :
    decMpopc (enc64 op g 0 (mode.code + 4 * x.toNat) d.code p.val 0 0) = .ok ⟨g, d, p, mode, x⟩ := by
  have := mode.code_lt
  have := x.toNat_le
  have b0 : bits (mode.code + 4 * x.toNat) 0 2 = mode.code := by rw [bits]; omega
  have b2 : bits (mode.code + 4 * x.toNat) 2 1 = x.toNat := by rw [bits]; omega
  have b3 : bits (mode.code + 4 * x.toNat) 3 5 = 0 := by rw [bits]; omega
  have hw : 0 = d.nwBit := by
    cases d with
    | b0 => cases hd
    | _ => rfl
  have hdst : dst (enc64 op g 0 (mode.code + 4 * x.toNat) d.code p.val 0 0) = .ok d := dst_code rfl hw
  unfold enc64 at hdst ⊢
  simp [decMpopc_eq, hdst, b0, hd, sub0, len96_of_two, mzero, b2, b3, Raw.mbit, noNw, unused]

theorem of_decMpopc {i : MpopcI} (h : decMpopc r = .ok i) : dstPopc i.d i.mode = true := by
  simp only [decMpopc_eq, bind_eq_ok, need_eq_ok, Except.ok.injEq] at h
  obtain ⟨-, -, -, -, -, -, -, -, -, -, d, -, -, hd, _, -, -, -, -, -, rfl⟩ := h
  exact hd

/-- The minor, PV and C of a match (R304). -/
def matchSub : MatchMode → Nat
  | .grp => 0
  | .uni _ => 1
  | .lead => 2
def matchPd : MatchMode → Option (Fin 8)
  | .uni pd => pd
  | _ => none

theorem decLmatch_enc {mode : MatchMode} (ha : (!x || u.val % 2 == 0) = true) :
    decLmatch (enc64 op g (matchSub mode) (x.toNat + 8 * (matchPd mode).isSome.toNat) v.val u.val 0 (optIndex (matchPd mode))) =
      .ok ⟨g, v, u, x, mode⟩ := by
  have := x.toNat_le
  have := (matchPd mode).isSome.toNat_le
  generalize hm : x.toNat + 8 * (matchPd mode).isSome.toNat = m
  have b0 : bits m 0 1 = x.toNat := by rw [bits]; omega
  have b1 : bits m 1 2 = 0 := by rw [bits]; omega
  have b3 : bits m 3 1 = (matchPd mode).isSome.toNat := by rw [bits]; omega
  have b4 : bits m 4 4 = 0 := by rw [bits]; omega
  have hu : vreg u.val (if x = true then 2 else 1) = .ok u := by
    cases x
    · exact vreg_one u
    · exact vreg_val (by simpa using ha)
  have hp (r : Raw) (h : r.c = optIndex (matchPd mode)) : optPred r (matchPd mode).isSome = .ok (matchPd mode) :=
    optPred_val h
  cases mode with
  | uni pd =>
    simp only [matchPd] at b3 hp ⊢
    simp [decLmatch, enc64, matchSub, len96_of_two, mzero, b0, b1, b3, b4, Raw.mbit, noNw, hu, hp, unused]
  | _ =>
    simp only [matchPd, Option.isSome_none, Bool.toNat_false] at b3 hp ⊢
    simp [decLmatch, enc64, matchSub, len96_of_two, mzero, b0, b1, b3, b4, Raw.mbit, noNw, hu, hp, unused]

theorem of_decLmatch {i : LmatchI} (h : decLmatch r = .ok i) : (!i.w64 || i.a.val % 2 == 0) = true := by
  simp only [decLmatch, bind_eq_ok, vreg_eq_ok, Except.ok.injEq] at h
  obtain ⟨-, -, -, -, -, -, -, -, -, -, -, -, _, -, a, ⟨-, ha⟩, -, -, _, -, rfl⟩ := h
  show (!r.mbit 0 || a.val % 2 == 0) = true
  cases h0 : r.mbit 0
  · rfl
  · simpa [h0] using ha

end

/-! ### Memory forms (R205 to R224) -/

section
variable {op : Nat} {r : Raw} {g : Guard} {d : Dst} {a b c : Src} {v u : Fin 256} {base idx : ABase} {x : Ext}
  {strong scopeOk sbcOk cpOk : Bool}

theorem signedField_mod_24 {z : Int} (h : -8388608 ≤ z ∧ z < 8388608) : signedField (z % 16777216).toNat 24 = z := by
  unfold signedField
  split <;> omega

theorem signedField_mod_12 {z : Int} (h : -2048 ≤ z ∧ z < 2048) : signedField (z % 4096).toNat 12 = z := by
  unfold signedField
  split <;> omega

theorem signedField_24_bounds {n : Nat} (h : n < 2 ^ 24) : -8388608 ≤ signedField n 24 ∧ signedField n 24 < 8388608 := by
  unfold signedField
  split <;> omega

theorem signedField_12_bounds {n : Nat} (h : n < 4096) : -2048 ≤ signedField n 12 ∧ signedField n 12 < 2048 := by
  unfold signedField
  split <;> omega

/-- The fields of the extension word (R206). -/
theorem ext_word_bits (x : Ext) :
    bits x.word 0 24 = (x.off % 2 ^ 24).toNat ∧ bits x.word 24 3 = x.sbc.val ∧ bits x.word 27 3 = x.scope.code ∧
      bits x.word 30 2 = x.cp.val ∧ bits x.word 32 32 = 0 := by
  have := x.scope.code_lt
  have : (x.off % 2 ^ 24).toNat < 2 ^ 24 := by omega
  unfold Ext.word
  refine ⟨?_, ?_, ?_, ?_, ?_⟩ <;> rw [bits] <;> omega

/-- The words that an extension stands in: LEN, the extension word, off12 (R205). -/
structure HasExt (r : Raw) (x : Ext) (off12 : Nat) : Prop where
  len : r.len = if x.long then 4 else 2
  ext : x.long = true → r.ext = x.word
  off12 : off12 = if x.long then 0 else (x.off % 4096).toNat

theorem scope_code_eq_zero (s : Scope) : (s.code == 0) = (s == .warp) := by cases s <;> rfl

theorem extMods_ok {o : Nat} (h : HasExt r x o) (hx : x.ok strong scopeOk sbcOk cpOk = true) :
    extMods r ⟨strong, scopeOk, sbcOk, cpOk⟩ = .ok () := by
  obtain ⟨hl, he, -⟩ := h
  unfold extMods
  cases hlong : x.long with
  | false => simp [hl, hlong]
  | true =>
    obtain ⟨-, b24, b27, b30, -⟩ := ext_word_bits x
    simp only [Ext.ok, hlong, if_true, Bool.and_eq_true] at hx
    obtain ⟨⟨⟨-, hsbc⟩, hscope⟩, hcp⟩ := hx
    have h7 : (x.sbc.val != 7) = true := bne_iff_ne.2 (by omega)
    have hs0 : (x.sbc.val == 0) = (x.sbc == 0) := by
      rw [Bool.eq_iff_iff, beq_iff_eq, beq_iff_eq]
      exact (Fin.ext_iff (b := 0)).symm
    have hc0 : (x.cp.val == 0) = (x.cp == 0) := by
      rw [Bool.eq_iff_iff, beq_iff_eq, beq_iff_eq]
      exact (Fin.ext_iff (b := 0)).symm
    simp only [hl, hlong, if_true, he hlong, b24, b27, b30, h7, hs0, hc0, hsbc, hscope, hcp, scope_code_eq_zero,
      x.scope.code_lt, decide_true, Bool.and_self, need_true, ok_bind]

theorem extOf_ok {o : Nat} (h : HasExt r x o) (hx : x.ok strong scopeOk sbcOk cpOk = true) : extOf r o = .ok x := by
  obtain ⟨hl, he, ho⟩ := h
  obtain ⟨long, off, sbc, scope, cp⟩ := x
  unfold extOf
  cases long with
  | false =>
    simp only [Ext.ok, Bool.false_eq_true, if_false, Bool.and_eq_true, decide_eq_true_eq, beq_iff_eq] at hx hl ho
    obtain ⟨⟨⟨hoff, rfl⟩, rfl⟩, rfl⟩ := hx
    simp only [hl, ho, signedField_mod_12 hoff]
    rfl
  | true =>
    obtain ⟨b0, b24, b27, b30, b32⟩ := ext_word_bits ⟨true, off, sbc, scope, cp⟩
    simp only [Ext.ok, if_true, Bool.and_eq_true, decide_eq_true_eq] at hx hl ho
    obtain ⟨⟨⟨hoff, -⟩, -⟩, -⟩ := hx
    simp [hl, ho, he rfl, b0, b24, b27, b30, b32, signedField_mod_24 hoff]

/-- What the checks of an extension leave (R206). -/
theorem ok_of_ext {o : Nat} (hm : extMods r ⟨strong, scopeOk, sbcOk, cpOk⟩ = .ok ()) (hx : extOf r o = .ok x) (ho : o < 4096) :
    x.ok strong scopeOk sbcOk cpOk = true := by
  unfold extMods at hm
  unfold extOf at hx
  split at hx
  · next hl =>
    rw [if_pos hl] at hm
    simp only [bind_eq_ok, need_eq_ok, Except.ok.injEq, Bool.and_eq_true, decide_eq_true_eq] at hm hx
    obtain ⟨-, ⟨-, hsbc⟩, -, ⟨-, hscope⟩, hcp⟩ := hm
    obtain ⟨-, -, rfl⟩ := hx
    have hoff := signedField_24_bounds (n := bits r.ext 0 24) (Nat.mod_lt _ (by decide))
    have hsbc' : (sbcOk || Fin.ofNat 7 (bits r.ext 24 3) == 0) = true := by
      cases sbcOk
      · have : bits r.ext 24 3 = 0 := by simpa using hsbc
        rw [this]; rfl
      · rfl
    have hscope' : (scopeOk && strong || Scope.ofCode (bits r.ext 27 3) == .warp) = true := by
      cases hs : (scopeOk && strong)
      · have : bits r.ext 27 3 = 0 := by simpa [hs] using hscope
        rw [this]; rfl
      · rfl
    have hcp' : (cpOk || Fin.ofNat 4 (bits r.ext 30 2) == 0) = true := by
      cases cpOk
      · have : bits r.ext 30 2 = 0 := by simpa using hcp
        rw [this]; rfl
      · rfl
    simp only [Ext.ok, if_true, hoff, and_self, decide_true, hsbc', hscope', hcp', Bool.and_self]
  · simp only [Except.ok.injEq] at hx
    subst hx
    have hoff := signedField_12_bounds ho
    simp only [Ext.ok, Bool.false_eq_true, if_false, hoff, and_self, decide_true]
    rfl

end
end Sys2Proof.Codec

namespace Sys2Proof.Codec

/-! ### The fields of a memory form (R32, R205) -/

/-- What the decoder of a memory major reads. -/
structure MemForm (r : Raw) (g : Guard) (sub2 m d a b : Nat) (x : Ext) : Prop where
  guard : r.guard = g
  nw : r.nw = 0
  d : r.d = d
  a : r.a = a
  b : r.b = b
  m : r.m = m
  sub2 : r.sub2 = sub2
  ext : HasExt r x r.off12

theorem memForm_encMem {op sub2 m d a b : Nat} {g : Guard} {x : Ext} (hs : sub2 < 4) :
    MemForm (encMem op sub2 g m d a b x) g sub2 m d a b x := by
  have ho : (x.off % 4096).toNat < 4096 := by omega
  unfold encMem
  cases hl : x.long with
  | true =>
    rw [if_pos rfl]
    refine ⟨guard_mk .., rfl, rfl, rfl, rfl, rfl, ?_, ⟨(by rw [hl]; rfl), fun _ => rfl, ?_⟩⟩
    · simp only [Raw.sub2, enc128, enc64, bits]
      omega
    · simp only [hl, if_true, Raw.off12, enc128, enc64, bits]
      omega
  | false =>
    rw [if_neg (by simp)]
    refine ⟨guard_mk .., rfl, rfl, rfl, rfl, rfl, ?_, ⟨(by rw [hl]; rfl), (fun h => by rw [hl] at h; cases h), ?_⟩⟩
    · simp only [Raw.sub2, enc64, bits]
      omega
    · simp only [hl, Bool.false_eq_true, if_false, Raw.off12, enc64, bits]
      omega

theorem len64or128_of_hasExt {r : Raw} {x : Ext} {o : Nat} (h : HasExt r x o) : len64or128 r = .ok () := by
  rw [len64or128, need_eq_ok, h.len]
  cases x.long <;> rfl

theorem off12_lt {r : Raw} (h : r.c < 512) : r.off12 < 4096 := by
  unfold Raw.off12 bits
  omega

section
variable {op : Nat} {r : Raw} {g : Guard} {d : Dst} {a data : Src} {v : Fin 256} {base idx : ABase} {x : Ext}
  {global scope cp scalarOk privateSpace ip : Bool} {sc : Fin 4} {w : MW} {ord : Ord}

/-- Only global memory has index pairs (R207). -/
theorem global_of_addrOk (h : addrOk global base idx ip = true) : (global || !ip) = true := by
  cases global <;> cases ip <;> simp_all [addrOk]

theorem address_ok (ha : r.a = base.code) (hb : r.b = idx.code) (h : addrOk global base idx ip = true) :
    address r global ip = .ok (base, idx) := by
  simp [address, ha, hb, h]

theorem addrOk_of_address (h : address r global ip = .ok (base, idx)) : addrOk global base idx ip = true := by
  simp only [address, bind_eq_ok, need_eq_ok, Except.ok.injEq, Prod.mk.injEq] at h
  obtain ⟨_, -, _, -, -, h, rfl, rfl⟩ := h
  exact h

/-- The modifier byte of a load or a store: width, scale, IP and a two-bit order (R209). -/
theorem memByte_bits {ordCode : Nat} (ho : ordCode < 4) (hm : r.m = w.code + 8 * sc.val + 32 * ip.toNat + 64 * ordCode) :
    bits r.m 0 3 = w.code ∧ bits r.m 3 2 = sc.val ∧ r.mbit 5 = ip ∧ bits r.m 6 2 = ordCode := by
  have := w.code_lt
  have := ip.toNat_le
  rw [hm]
  refine ⟨by rw [bits]; omega, by rw [bits]; omega, ?_, by rw [bits]; omega⟩
  have b5 : bits r.m 5 1 = ip.toNat := by rw [hm, bits]; omega
  rw [Raw.mbit, b5, toNat_bne_zero]

theorem nwBit_of_loadDst (h : loadDst d base idx w scalarOk = true) : 0 = d.nwBit := by
  cases d with
  | b0 => cases h
  | _ => rfl

theorem decLoad_enc (hw : wfLoad global scope cp scalarOk privateSpace ⟨g, d, base, idx, sc, ip, w, ord, x⟩ = true) :
    decLoad (encLoad op ⟨g, d, base, idx, sc, ip, w, ord, x⟩) global scope cp scalarOk privateSpace =
      .ok ⟨g, d, base, idx, sc, ip, w, ord, x⟩ := by
  simp only [wfLoad, Bool.and_eq_true] at hw
  obtain ⟨⟨⟨⟨haddr, hd⟩, hord⟩, hpriv⟩, hx⟩ := hw
  have hr : MemForm (encLoad op ⟨g, d, base, idx, sc, ip, w, ord, x⟩) g 0 _ d.code base.code idx.code x :=
    memForm_encMem (by decide)
  generalize encLoad op ⟨g, d, base, idx, sc, ip, w, ord, x⟩ = r at hr ⊢
  obtain ⟨b0, b3, b5, b6⟩ := memByte_bits ord.loadCode_lt hr.m
  have hdst : dst r = .ok d := dst_code hr.d (hr.nw.trans (nwBit_of_loadDst hd))
  simp [decLoad, memSub0, hr.sub2, len64or128_of_hasExt hr.ext, b0, b3, b5, b6, Ord.ofLoad_loadCode hord, hpriv,
    global_of_addrOk haddr, extMods_ok hr.ext hx, noNw, hr.nw, hdst, address_ok hr.a hr.b haddr, hd, extOf_ok hr.ext hx,
    hr.guard]

theorem wf_of_decLoad {i : LoadI} (hc : r.c < 512) (h : decLoad r global scope cp scalarOk privateSpace = .ok i) :
    wfLoad global scope cp scalarOk privateSpace i = true := by
  simp only [decLoad, bind_eq_ok, need_eq_ok, Except.ok.injEq, Prod.exists] at h
  obtain ⟨-, -, -, -, -, hpriv, -, -, _, hm, -, -, d, -, base, idx, ha, -, hd, x, hx, rfl⟩ := h
  have hord : (Ord.ofLoad (bits r.m 6 2)).loadOk = true := by
    unfold Ord.ofLoad
    split <;> rfl
  simp only [wfLoad, addrOk_of_address ha, hd, hord, hpriv, ok_of_ext hm hx (off12_lt hc), Bool.and_self]

theorem isExt_of_storeData (h : storeData data w = true) : data.isExt = false := by
  cases data <;> simp_all [storeData, Src.isExt]

theorem dataSrc_code (h : storeData data w = true) : dataSrc r data.code w = .ok data := by
  simp [dataSrc, srcCode_code (holds_of_not_isExt (isExt_of_storeData h)), h]

theorem storeData_of_dataSrc {k : Nat} (h : dataSrc r k w = .ok data) : storeData data w = true := by
  simp only [dataSrc, bind_eq_ok, need_eq_ok, Except.ok.injEq] at h
  obtain ⟨_, -, -, h, rfl⟩ := h
  exact h

theorem decStore_enc (hw : wfStore global scope cp privateSpace ⟨g, data, base, idx, sc, ip, w, ord, x⟩ = true) :
    decStore (encStore op ⟨g, data, base, idx, sc, ip, w, ord, x⟩) global scope cp privateSpace =
      .ok ⟨g, data, base, idx, sc, ip, w, ord, x⟩ := by
  simp only [wfStore, Bool.and_eq_true] at hw
  obtain ⟨⟨⟨⟨⟨haddr, hwidth⟩, hd⟩, hord⟩, hpriv⟩, hx⟩ := hw
  have hr : MemForm (encStore op ⟨g, data, base, idx, sc, ip, w, ord, x⟩) g 0 _ data.code base.code idx.code x :=
    memForm_encMem (by decide)
  generalize encStore op ⟨g, data, base, idx, sc, ip, w, ord, x⟩ = r at hr ⊢
  obtain ⟨b0, b3, b5, b6⟩ := memByte_bits ord.storeCode_lt hr.m
  simp [decStore, memSub0, hr.sub2, len64or128_of_hasExt hr.ext, b0, b3, b5, b6, Ord.ofStore_storeCode hord, hpriv, hwidth,
    global_of_addrOk haddr, extMods_ok hr.ext hx, noNw, hr.nw, hr.d, dataSrc_code hd, address_ok hr.a hr.b haddr,
    extOf_ok hr.ext hx, hr.guard]

theorem wf_of_decStore {i : StoreI} (hc : r.c < 512) (h : decStore r global scope cp privateSpace = .ok i) :
    wfStore global scope cp privateSpace i = true := by
  simp only [decStore, bind_eq_ok, need_eq_ok, Except.ok.injEq, Prod.exists, Bool.and_eq_true] at h
  obtain ⟨-, -, -, -, -, ⟨hwidth, hpriv⟩, -, -, _, hm, -, -, data, hd, base, idx, ha, x, hx, rfl⟩ := h
  have hord : (Ord.ofStore (bits r.m 6 2)).storeOk = true := by
    unfold Ord.ofStore
    split <;> rfl
  simp only [wfStore, addrOk_of_address ha, hwidth, storeData_of_dataSrc hd, hord, hpriv, ok_of_ext hm hx (off12_lt hc),
    Bool.and_self]

theorem decLdk_enc {win : Fin 8} (hd : loadDst d .zero idx w true = true) (hx : x.ok false false false false = true) :
    decLdk (encMem op 0 g (w.code + 8 * sc.val) d.code win.val idx.code x) = .ok ⟨g, d, win, idx, sc, w, x⟩ := by
  have hr : MemForm (encMem op 0 g (w.code + 8 * sc.val) d.code win.val idx.code x) g 0 _ d.code win.val idx.code x :=
    memForm_encMem (by decide)
  generalize encMem op 0 g (w.code + 8 * sc.val) d.code win.val idx.code x = r at hr ⊢
  obtain ⟨b0, b3, b5, b6⟩ := memByte_bits (r := r) (w := w) (sc := sc) (ip := false) (ordCode := 0) (by decide)
    (by simpa using hr.m)
  have hdst : dst r = .ok d := dst_code hr.d (hr.nw.trans (nwBit_of_loadDst hd))
  simp [decLdk, memSub0, hr.sub2, len64or128_of_hasExt hr.ext, b0, b3, b5, b6, extMods_ok hr.ext hx, noNw, hr.nw, hdst, hr.a,
    hr.b, hd, extOf_ok hr.ext hx, hr.guard]

theorem of_decLdk {i : LdkI} (hc : r.c < 512) (h : decLdk r = .ok i) :
    loadDst i.d .zero i.idx i.w true = true ∧ i.x.ok false false false false = true := by
  simp only [decLdk, bind_eq_ok, need_eq_ok, Except.ok.injEq] at h
  obtain ⟨-, -, -, -, -, -, _, hm, -, -, d, -, win, -, idx, -, -, hd, x, hx, rfl⟩ := h
  exact ⟨hd, ok_of_ext hm hx (off12_lt hc)⟩

theorem decPref_enc {llc : Bool} (haddr : addrOk true base idx ip = true) (hx : x.ok false false false true = true) :
    decPref (encMem op 0 g (llc.toNat + 8 * sc.val + 32 * ip.toNat) 0 base.code idx.code x) =
      .ok ⟨g, base, idx, sc, ip, llc, x⟩ := by
  have hr : MemForm (encMem op 0 g (llc.toNat + 8 * sc.val + 32 * ip.toNat) 0 base.code idx.code x) g 0 _ 0 base.code
    idx.code x := memForm_encMem (by decide)
  generalize encMem op 0 g (llc.toNat + 8 * sc.val + 32 * ip.toNat) 0 base.code idx.code x = r at hr ⊢
  have := llc.toNat_le
  have := ip.toNat_le
  have hm := hr.m
  have b0 : bits r.m 0 1 = llc.toNat := by rw [hm, bits]; omega
  have b1 : bits r.m 1 2 = 0 := by rw [hm, bits]; omega
  have b3 : bits r.m 3 2 = sc.val := by rw [hm, bits]; omega
  have b5 : bits r.m 5 1 = ip.toNat := by rw [hm, bits]; omega
  have b6 : bits r.m 6 2 = 0 := by rw [hm, bits]; omega
  simp [decPref, memSub0, hr.sub2, len64or128_of_hasExt hr.ext, b0, b1, b3, b5, b6, mzero, Raw.mbit, extMods_ok hr.ext hx, noNw,
    hr.nw, address_ok hr.a hr.b haddr, extOf_ok hr.ext hx, noD, hr.d, hr.guard]

theorem of_decPref {i : PrefI} (hc : r.c < 512) (h : decPref r = .ok i) :
    addrOk true i.base i.idx i.ip = true ∧ i.x.ok false false false true = true := by
  simp only [decPref, bind_eq_ok, Except.ok.injEq, Prod.exists] at h
  obtain ⟨-, -, -, -, -, -, -, -, _, hm, -, -, base, idx, ha, x, hx, -, -, rfl⟩ := h
  exact ⟨addrOk_of_address ha, ok_of_ext hm hx (off12_lt hc)⟩

/-- A scalar or an integer constant is in no third word. -/
theorem isExt_of_sOrInt (h : a.sOrInt = true) : a.isExt = false := by cases a <;> simp_all [Src.sOrInt, Src.isExt]

theorem sOrInt_code (h : a.sOrInt = true) : sOrInt r a.code = .ok a := by
  simp [sOrInt, srcCode_code (holds_of_not_isExt (isExt_of_sOrInt h)), h]

theorem sOrInt_of_ok {k : Nat} (h : sOrInt r k = .ok a) : a.sOrInt = true := by
  simp only [sOrInt, bind_eq_ok, need_eq_ok, Except.ok.injEq] at h
  obtain ⟨_, -, -, h, rfl⟩ := h
  exact h

/-- A form of 64 or 128 bits with its extension word (R205). -/
structure LongForm (r : Raw) (long : Bool) (g : Guard) (sub m d a b c ext : Nat) : Prop where
  guard : r.guard = g
  len : r.len = if long then 4 else 2
  nw : r.nw = 0
  d : r.d = d
  a : r.a = a
  b : r.b = b
  c : r.c = c
  sub : r.sub = sub
  m : r.m = m
  ext : r.ext = if long then ext else 0

theorem longForm_encLong {long : Bool} {sub m d a b c ext : Nat} :
    LongForm (encLong long op g sub m d a b c ext) long g sub m d a b c ext := by
  cases long
  · exact ⟨guard_mk .., rfl, rfl, rfl, rfl, rfl, rfl, rfl, rfl, rfl⟩
  · exact ⟨guard_mk .., rfl, rfl, rfl, rfl, rfl, rfl, rfl, rfl, rfl⟩

section
variable {long : Bool} {sub m d0 a0 b0 c0 ext : Nat}

/-- LEN tells the two lengths apart. -/
theorem LongForm.isLong (h : LongForm r long g sub m d0 a0 b0 c0 ext) : (r.len == 4) = long := by
  rw [h.len]
  cases long <;> rfl

theorem LongForm.len64or128 (h : LongForm r long g sub m d0 a0 b0 c0 ext) : len64or128 r = .ok () := by
  rw [Sys2Proof.len64or128, need_eq_ok, h.len]
  cases long <;> rfl

end
end
end Sys2Proof.Codec

namespace Sys2Proof.Codec

/-! ### Banks and FIFOs (R217, R218) -/

section
variable {op : Nat} {r : Raw} {g : Guard} {long : Bool}

theorem bankMode_bits (x : BankMode) : bits x.code 0 2 = x.code ∧ bits x.code 2 6 = 0 ∧ (x.code != 3) = true := by
  cases x <;> decide

theorem decBankcfg_enc {first count : Src} {mode : BankMode} (hf : first.sOrInt = true) (hc : count.sOrInt = true) :
    decBankcfg (encLong long op g 0 mode.code 0 first.code count.code 0 0) = .ok ⟨g, first, count, mode, long⟩ := by
  have hr : LongForm (encLong long op g 0 mode.code 0 first.code count.code 0 0) long g 0 mode.code 0 first.code count.code 0 0 :=
    longForm_encLong
  generalize encLong long op g 0 mode.code 0 first.code count.code 0 0 = r at hr ⊢
  obtain ⟨b0, b2, b3⟩ := bankMode_bits mode
  simp [decBankcfg, memSub0, Raw.sub2, hr.sub, hr.len64or128, mzero, hr.m, b0, b2, b3, noExtFields, hr.ext, noNw, hr.nw, hr.a, hr.b,
    sOrInt_code hf, sOrInt_code hc, noOffset, Raw.off12, hr.c, noD, hr.d, hr.guard, hr.isLong, show bits 0 3 2 = 0 from rfl,
    show bits 0 0 3 = 0 from rfl, show bits 0 0 32 = 0 from rfl]

theorem of_decBankcfg {i : BankcfgI} (h : decBankcfg r = .ok i) : i.first.sOrInt = true ∧ i.count.sOrInt = true := by
  simp only [decBankcfg, bind_eq_ok, Except.ok.injEq] at h
  obtain ⟨-, -, -, -, -, -, -, -, -, -, -, -, first, hf, count, hc, -, -, -, -, rfl⟩ := h
  exact ⟨sOrInt_of_ok hf, sOrInt_of_ok hc⟩

theorem decFifo_push {bank data : Src} (hb : bank.sOrInt = true) (hd : storeData data .b32 = true) :
    decFifo (encLong long op g 0 0 data.code bank.code 0 0 0) = .ok (.fifoPush ⟨g, bank, data, long⟩) := by
  have hr : LongForm (encLong long op g 0 0 data.code bank.code 0 0 0) long g 0 0 data.code bank.code 0 0 0 := longForm_encLong
  generalize encLong long op g 0 0 data.code bank.code 0 0 0 = r at hr ⊢
  simp [decFifo, Raw.sub2, hr.sub, hr.len64or128, mzero, hr.m, noExtFields, hr.ext, noNw, hr.nw, hr.a, hr.b, hr.d, unused,
    sOrInt_code hb, dataSrc_code hd, noOffset, Raw.off12, hr.c, hr.guard, hr.isLong, show bits 0 3 2 = 0 from rfl,
    show bits 0 0 3 = 0 from rfl, show bits 0 0 32 = 0 from rfl, show bits 0 0 8 = 0 from rfl]

theorem decFifo_pop {bank : Src} {d : Fin 256} (hb : bank.sOrInt = true) :
    decFifo (encLong long op g 8 0 d.val bank.code 0 0 0) = .ok (.fifoPop ⟨g, d, bank, long⟩) := by
  have hr : LongForm (encLong long op g 8 0 d.val bank.code 0 0 0) long g 8 0 d.val bank.code 0 0 0 := longForm_encLong
  generalize encLong long op g 8 0 d.val bank.code 0 0 0 = r at hr ⊢
  simp [decFifo, Raw.sub2, hr.sub, hr.len64or128, mzero, hr.m, noExtFields, hr.ext, noNw, hr.nw, hr.a, hr.b, hr.d, unused,
    sOrInt_code hb, vreg_val (Nat.mod_one _), noOffset, Raw.off12, hr.c, hr.guard, hr.isLong, show bits 8 3 2 = 1 from rfl,
    show bits 8 0 3 = 0 from rfl, show bits 0 0 32 = 0 from rfl, show bits 0 0 8 = 0 from rfl]

theorem wf_of_decFifo {i : Instr} (h : decFifo r = .ok i) : i.wf = true := by
  simp only [decFifo, bind_eq_ok] at h
  obtain ⟨-, -, -, -, -, -, -, -, -, -, h⟩ := h
  split at h
  · simp only [bind_eq_ok, Except.ok.injEq] at h
    obtain ⟨data, hd, bank, hb, -, -, -, -, rfl⟩ := h
    simp only [Instr.wf, sOrInt_of_ok hb, storeData_of_dataSrc hd, Bool.and_self]
  · simp only [bind_eq_ok, Except.ok.injEq] at h
    obtain ⟨d, -, bank, hb, -, -, -, -, rfl⟩ := h
    exact sOrInt_of_ok hb

/-! ### Atomics (R219 to R224) -/

section
variable {d : Dst} {data : Src} {base idx : ABase} {x : Ext} {global : Bool} {aop : AOp} {ord : Ord}

/-- The modifier byte of an atomic: a low field of four bits and the order above it (R219). -/
theorem atomByte_bits {low : Nat} (hl : low < 16) (hm : r.m = low + 16 * ord.code) :
    bits r.m 0 4 = low ∧ bits r.m 4 3 = ord.code ∧ bits r.m 7 1 = 0 := by
  have := ord.code_lt
  rw [hm]
  refine ⟨?_, ?_, ?_⟩ <;> rw [bits] <;> omega

theorem atomMods_eq {low : Nat} {ok : Ord → Bool} (hl : low < 16) (hm : r.m = low + 16 * ord.code) (ho : ok ord = true) :
    atomMods r ok = .ok ord := by
  obtain ⟨-, b4, b7⟩ := atomByte_bits hl hm
  simp [atomMods, mzero, b4, b7, ord.code_lt, ho]

theorem of_atomMods {ok : Ord → Bool} (h : atomMods r ok = .ok ord) : ok ord = true := by
  simp only [atomMods, bind_eq_ok, need_eq_ok, Except.ok.injEq, Bool.and_eq_true] at h
  obtain ⟨-, -, -, ⟨-, h⟩, rfl⟩ := h
  exact h

theorem nwBit_of_atomDst (h : atomDst d base idx aop = true) : 0 = d.nwBit := by
  cases d with
  | b0 => cases h
  | _ => rfl

theorem decAtom_enc (haddr : addrOk global base idx false = true) (hd : atomDst d base idx aop = true) (ho : ord.atomOk = true)
    (hx : x.ok true true false global = true) :
    decAtom (encAtom op ⟨g, d, base, idx, aop, ord, x⟩) global = .ok ⟨g, d, base, idx, aop, ord, x⟩ := by
  have hr : MemForm (encAtom op ⟨g, d, base, idx, aop, ord, x⟩) g 0 _ d.code base.code idx.code x := memForm_encMem (by decide)
  generalize encAtom op ⟨g, d, base, idx, aop, ord, x⟩ = r at hr ⊢
  obtain ⟨b0, -, -⟩ := atomByte_bits aop.code_lt hr.m
  have hdst : dst r = .ok d := dst_code hr.d (hr.nw.trans (nwBit_of_atomDst hd))
  simp [decAtom, memSub0, hr.sub2, len64or128_of_hasExt hr.ext, atomMods_eq aop.code_lt hr.m ho, extMods_ok hr.ext hx, noNw,
    hr.nw, hdst, address_ok hr.a hr.b haddr, b0, hd, extOf_ok hr.ext hx, hr.guard]

theorem of_decAtom {i : AtomI} (hc : r.c < 512) (h : decAtom r global = .ok i) :
    addrOk global i.base i.idx false = true ∧ atomDst i.d i.base i.idx i.op = true ∧ i.ord.atomOk = true ∧
      i.x.ok true true false global = true := by
  simp only [decAtom, bind_eq_ok, need_eq_ok, Except.ok.injEq, Prod.exists] at h
  obtain ⟨-, -, -, -, ord, ho, _, hm, -, -, d, -, base, idx, ha, -, hd, x, hx, rfl⟩ := h
  exact ⟨addrOk_of_address ha, hd, of_atomMods ho, ok_of_ext hm hx (off12_lt hc)⟩

theorem decRed_enc (haddr : addrOk global base idx false = true)
    (hd : storeData data (if aop.is64 then .b64 else .b32) = true) (ho : ord.redOk = true)
    (hx : x.ok true true true global = true) :
    decRed (encRed op ⟨g, data, base, idx, aop, ord, x⟩) global = .ok ⟨g, data, base, idx, aop, ord, x⟩ := by
  have hr : MemForm (encRed op ⟨g, data, base, idx, aop, ord, x⟩) g 0 _ data.code base.code idx.code x :=
    memForm_encMem (by decide)
  generalize encRed op ⟨g, data, base, idx, aop, ord, x⟩ = r at hr ⊢
  obtain ⟨b0, -, -⟩ := atomByte_bits aop.code_lt hr.m
  simp [decRed, memSub0, hr.sub2, len64or128_of_hasExt hr.ext, atomMods_eq aop.code_lt hr.m ho, extMods_ok hr.ext hx, noNw,
    hr.nw, hr.d, dataSrc_code hd, address_ok hr.a hr.b haddr, b0, extOf_ok hr.ext hx, hr.guard]

theorem of_decRed {i : RedI} (hc : r.c < 512) (h : decRed r global = .ok i) :
    addrOk global i.base i.idx false = true ∧ storeData i.data (if i.op.is64 then .b64 else .b32) = true ∧
      i.ord.redOk = true ∧ i.x.ok true true true global = true := by
  simp only [decRed, bind_eq_ok, Except.ok.injEq, Prod.exists] at h
  obtain ⟨-, -, -, -, ord, ho, _, hm, -, -, data, hd, base, idx, ha, x, hx, rfl⟩ := h
  exact ⟨addrOk_of_address ha, storeData_of_dataSrc hd, of_atomMods ho, ok_of_ext hm hx (off12_lt hc)⟩

theorem decCas_enc {d : Fin 256} {w64 : Bool} (haddr : addrOk global base idx false = true)
    (hd : d.val % (if w64 then 4 else 2) = 0) (ho : ord.atomOk = true) (hx : x.ok true true false global = true) :
    decCas (encCas op ⟨g, d, base, idx, w64, ord, x⟩) global = .ok ⟨g, d, base, idx, w64, ord, x⟩ := by
  have hr : MemForm (encCas op ⟨g, d, base, idx, w64, ord, x⟩) g 0 _ d.val base.code idx.code x := memForm_encMem (by decide)
  generalize encCas op ⟨g, d, base, idx, w64, ord, x⟩ = r at hr ⊢
  have hw := w64.toNat_le
  have := ord.code_lt
  have hm : r.m = w64.toNat + 16 * ord.code := hr.m
  have b0 : bits r.m 0 1 = w64.toNat := by rw [hm, bits]; omega
  have b1 : bits r.m 1 3 = 0 := by rw [hm, bits]; omega
  simp [decCas, memSub0, hr.sub2, len64or128_of_hasExt hr.ext, mzero, b1, atomMods_eq (show w64.toNat < 16 by omega) hr.m ho,
    extMods_ok hr.ext hx, noNw, hr.nw, hr.d, Raw.mbit, b0, vreg_val hd, address_ok hr.a hr.b haddr,
    extOf_ok hr.ext hx, hr.guard]

theorem of_decCas {i : CasI} (hc : r.c < 512) (h : decCas r global = .ok i) :
    addrOk global i.base i.idx false = true ∧ i.d.val % (if i.w64 then 4 else 2) = 0 ∧ i.ord.atomOk = true ∧
      i.x.ok true true false global = true := by
  simp only [decCas, bind_eq_ok, vreg_eq_ok, Except.ok.injEq, Prod.exists] at h
  obtain ⟨-, -, -, -, -, -, ord, ho, _, hm, -, -, d, ⟨-, hd⟩, base, idx, ha, x, hx, rfl⟩ := h
  exact ⟨addrOk_of_address ha, hd, of_atomMods ho, ok_of_ext hm hx (off12_lt hc)⟩

/-- A branch target is a scalar or an even vector register (R290). -/
def targetOk : ABase → Bool
  | .zero => false
  | .s _ => true
  | .v r => r.val % 2 == 0

theorem target_eq_ok {k : Nat} {t : ABase} : target k = .ok t ↔ k = t.code ∧ targetOk t = true := by
  have e : target k = abase k >>= fun t => need (targetOk t) .illegalOperand >>= fun _ => .ok t := rfl
  simp only [e, bind_eq_ok, abase_eq_ok, need_eq_ok, Except.ok.injEq]
  constructor
  · rintro ⟨_, rfl, _, ht, rfl⟩
    exact ⟨rfl, ht⟩
  · rintro ⟨rfl, ht⟩
    exact ⟨t, rfl, (), ht, rfl⟩

theorem target_code {t : ABase} (h : targetOk t = true) : target t.code = .ok t := target_eq_ok.2 ⟨rfl, h⟩

/-- Three bits that name a predicate or nothing, behind their presence bit (R222). -/
def pdBits : Option (Fin 8) → Nat
  | none => 0
  | some p => 4 + 8 * p.val

/-- The modifier byte of `catom`: pair type, predicate, order (R222). -/
theorem catomByte_bits {pt : PairT} {pd : Option (Fin 8)} (hm : r.m = pt.code + pdBits pd + 64 * ord.catomCode) :
    bits r.m 0 2 = pt.code ∧ bits r.m 2 1 = pd.isSome.toNat ∧ bits r.m 3 3 = optIndex pd ∧ bits r.m 6 2 = ord.catomCode := by
  have := ord.catomCode_lt
  have := pt.code_lt
  rw [hm]
  cases pd with
  | none =>
    simp only [pdBits, optIndex, Option.isSome_none, Bool.toNat_false]
    refine ⟨?_, ?_, ?_, ?_⟩ <;> rw [bits] <;> omega
  | some p =>
    simp only [pdBits, optIndex, Option.isSome_some, Bool.toNat_true]
    refine ⟨?_, ?_, ?_, ?_⟩ <;> rw [bits] <;> omega

theorem decCatom_enc {d : Fin 256} {delta : ABase} {pt : PairT} {pd : Option (Fin 8)}
    (haddr : addrOk true base .zero false = true) (hd : d.val % 2 = 0) (ht : targetOk delta = true) (ho : ord.redOk = true)
    (hx : x.ok true true pd.isNone true = true) :
    decCatom (encMem op 0 g (pt.code + pdBits pd + 64 * ord.catomCode) d.val base.code delta.code x) =
      .ok ⟨g, d, base, delta, pt, pd, ord, x⟩ := by
  have hr : MemForm (encMem op 0 g (pt.code + pdBits pd + 64 * ord.catomCode) d.val base.code delta.code x) g 0 _ d.val
    base.code delta.code x := memForm_encMem (by decide)
  generalize encMem op 0 g (pt.code + pdBits pd + 64 * ord.catomCode) d.val base.code delta.code x = r at hr ⊢
  obtain ⟨b0, b2, b3, b6⟩ := catomByte_bits hr.m
  have hcodes : (pt.code != 3 && ord.catomCode != 3) = true := by cases pt <;> cases ord <;> decide
  have hm2 : r.mbit 2 = pd.isSome := by rw [Raw.mbit, b2, toNat_bne_zero]
  have hnone : (!pd.isSome) = pd.isNone := by cases pd <;> rfl
  have hres : (pd.isSome || optIndex pd == 0) = true := by cases pd <;> rfl
  have hpd : (if pd.isSome then some (Fin.ofNat 8 (optIndex pd)) else none) = pd := by
    cases pd with
    | none => rfl
    | some p => exact congrArg some (ofNat_val p)
  simp [-Fin.ofNat_eq_cast, decCatom, memSub0, hr.sub2, len64or128_of_hasExt hr.ext, hm2, b0, b3, b6, hres, hcodes, hnone,
    extMods_ok hr.ext hx, noNw, hr.nw, hr.d, vreg_val hd, hr.a, haddr, hr.b, target_code ht, extOf_ok hr.ext hx, hr.guard,
    hpd, Ord.ofCatom_catomCode ho]

theorem redOk_ofCatom (n : Nat) : (Ord.ofCatom n).redOk = true := by
  unfold Ord.ofCatom
  split <;> rfl

theorem of_decCatom {i : CatomI} (hc : r.c < 512) (h : decCatom r = .ok i) :
    addrOk true i.base .zero false = true ∧ i.d.val % 2 = 0 ∧ targetOk i.delta = true ∧ i.ord.redOk = true ∧
      i.x.ok true true i.pd.isNone true = true := by
  simp only [decCatom, bind_eq_ok, need_eq_ok, vreg_eq_ok, target_eq_ok, Except.ok.injEq] at h
  obtain ⟨-, -, -, -, -, -, -, -, _, hm, -, -, d, ⟨-, hd⟩, base, -, -, haddr, delta, ⟨-, ht⟩, x, hx, rfl⟩ := h
  refine ⟨haddr, hd, ht, redOk_ofCatom _, ?_⟩
  have hpd : (if r.mbit 2 then some (Fin.ofNat 8 (bits r.m 3 3)) else none : Option (Fin 8)).isNone = !r.mbit 2 := by
    cases r.mbit 2 <;> rfl
  rw [hpd]
  exact ok_of_ext hm hx (off12_lt hc)

end
end
end Sys2Proof.Codec

namespace Sys2Proof.Codec

section
variable {op : Nat} {r : Raw} {g : Guard} {long : Bool}

/-! ### stc (R305) -/

/-- What stc permits in its extension (R305). -/
def stcExt (x : Ext) : Bool :=
  x.off ≥ -8388608 && x.off < 8388608 && (x.long || (x.off == 0 && x.sbc == 0 && x.scope == .device && x.cp == 0))

theorem ok_of_stcExt {x : Ext} (h : stcExt x = true) : x.ok true true true true = true := by
  obtain ⟨long, off, sbc, scope, cp⟩ := x
  simp only [stcExt, Bool.and_eq_true, decide_eq_true_eq] at h
  obtain ⟨⟨hlo, hhi⟩, h⟩ := h
  cases long with
  | true => simp only [Ext.ok, if_true, Bool.true_or, Bool.and_true, decide_eq_true_eq]; omega
  | false =>
    simp only [Bool.false_or, Bool.and_eq_true, beq_iff_eq] at h
    obtain ⟨⟨⟨rfl, rfl⟩, rfl⟩, rfl⟩ := h
    rfl

theorem decStc_enc {ri : Option (Fin 256)} {q base : Fin 64} {data : Src} {w : MW} {x : Ext} (hw : w.storeOk = true)
    (hw' : (w != .b128) = true) (hd : storeData data w = true) (hx : stcExt x = true) :
    decStc (encLong x.long op g 0 (w.code + 8 * ri.isSome.toNat) (optIndex ri) (sregCode q) (sregCode base) data.code x.word) =
      .ok ⟨g, ri, q, base, data, w, x⟩ := by
  have hr : LongForm (encLong x.long op g 0 (w.code + 8 * ri.isSome.toNat) (optIndex ri) (sregCode q) (sregCode base) data.code
    x.word) x.long g 0 _ (optIndex ri) (sregCode q) (sregCode base) data.code x.word := longForm_encLong
  generalize encLong x.long op g 0 (w.code + 8 * ri.isSome.toNat) (optIndex ri) (sregCode q) (sregCode base) data.code
    x.word = r at hr ⊢
  have hok := ok_of_stcExt hx
  have hext : HasExt r x 0 := by
    refine ⟨hr.len, fun hl => by rw [hr.ext, if_pos hl], ?_⟩
    cases hl : x.long with
    | true => rfl
    | false =>
      have hoff : x.off = 0 := by simp [stcExt, hl] at hx; exact hx.2.1.1.1
      rw [hoff]; rfl
  have := w.code_lt
  have := ri.isSome.toNat_le
  have b0 : bits r.m 0 3 = w.code := by rw [hr.m, bits]; omega
  have b3 : bits r.m 3 1 = ri.isSome.toNat := by rw [hr.m, bits]; omega
  have b4 : bits r.m 4 4 = 0 := by rw [hr.m, bits]; omega
  have hm3 : r.mbit 3 = ri.isSome := by rw [Raw.mbit, b3, toNat_bne_zero]
  have hri : (if ri.isSome then do
      let d ← vreg (optIndex ri) 1
      .ok (some d)
    else .ok none : Dec (Option (Fin 256))) = .ok ri := by
    cases ri with
    | none => rfl
    | some d => simp [optIndex, vreg_val (Nat.mod_one _)]
  have hres : (ri.isSome || optIndex ri == 0) = true := by cases ri <;> rfl
  simp only [decStc, sub0, hr.sub, hr.len64or128, mzero, b4, b0, MW.ofCode_code, hw, hw', Bool.and_self, extMods_ok hext hok,
    noNw, hr.nw, hm3, hri, hr.a, hr.b, hr.c, hr.d, sreg_code, dataSrc_code hd, extOf_ok hext hok, hres, hr.guard,
    beq_self_eq_true, need_true, ok_bind]

theorem of_decStc {i : StcI} (h : decStc r = .ok i) :
    i.w.storeOk = true ∧ (i.w != .b128) = true ∧ storeData i.data i.w = true ∧ stcExt i.x = true := by
  simp only [decStc, bind_eq_ok, need_eq_ok, Except.ok.injEq, Bool.and_eq_true] at h
  obtain ⟨-, -, -, -, -, -, -, ⟨hw, hw'⟩, _, hm, -, -, ri, -, q, -, base, -, data, hd, x, hx, -, -, rfl⟩ := h
  refine ⟨hw, hw', storeData_of_dataSrc hd, ?_⟩
  have hok := ok_of_ext hm hx (by decide)
  cases hl : x.long with
  | true => simpa [stcExt, hl, Ext.ok] using hok
  | false =>
    have hshort : x = ⟨false, 0, 0, .device, 0⟩ := by
      unfold extOf at hx
      split at hx
      · simp only [bind_eq_ok, Except.ok.injEq] at hx
        obtain ⟨-, -, rfl⟩ := hx
        cases hl
      · simp only [Except.ok.injEq] at hx
        exact hx.symm
    subst hshort
    rfl

/-! ### Synchronisation (R225 to R234) -/

theorem decFence_enc {ord : Ord} {scope : Scope} (ho : ord.fenceOk = true) :
    decFence (enc64 op g 0 (ord.code + 8 * scope.code) 0 0 0 0) = .ok ⟨g, ord, scope⟩ := by
  have := ord.code_lt
  have := scope.code_lt
  have b0 : bits (ord.code + 8 * scope.code) 0 3 = ord.code := by rw [bits]; omega
  have b3 : bits (ord.code + 8 * scope.code) 3 3 = scope.code := by rw [bits]; omega
  have b6 : bits (ord.code + 8 * scope.code) 6 2 = 0 := by rw [bits]; omega
  simp [decFence, enc64, sub0, len64, mzero, b0, b3, b6, ord.code_lt, scope.code_lt, ho, noNw, unused, noD]

theorem of_decFence {i : FenceI} (h : decFence r = .ok i) : i.ord.fenceOk = true := by
  simp only [decFence, bind_eq_ok, need_eq_ok, Except.ok.injEq, Bool.and_eq_true] at h
  obtain ⟨-, -, -, -, -, -, -, ⟨⟨-, ho⟩, -⟩, -, -, -, -, -, -, -, -, -, -, rfl⟩ := h
  exact ho

/-- The modifier byte of bar: space and scope (R227). -/
theorem barByte_bits {s : Bool} {scope : Scope} (hm : r.m = barByte s scope) :
    r.mbit 0 = s ∧ bits r.m 1 3 = scope.code ∧ bits r.m 4 4 = 0 := by
  have := s.toNat_le
  have := scope.code_lt
  rw [hm]
  refine ⟨?_, by rw [barByte, bits]; omega, by rw [barByte, bits]; omega⟩
  have b0 : bits (barByte s scope) 0 1 = s.toNat := by rw [barByte, bits]; omega
  rw [Raw.mbit, hm, b0, toNat_bne_zero]

theorem sbc_ne_seven (k : Fin 7) : (k.val != 7) = true := bne_iff_ne.2 (by omega)

/-- The word behind a form of synchronisation holds its counter alone (R227, R232). -/
theorem sbcWord_bits (k : Fin 7) : bits k.val 0 3 = k.val ∧ bits k.val 3 61 = 0 := by
  refine ⟨?_, ?_⟩ <;> rw [bits] <;> omega

theorem sbc_eq_zero {k : Fin 7} (h : (long || k == 0) = true) : (if long then k.val else 0) = k.val := by
  cases long with
  | true => rfl
  | false => rw [eq_of_beq h]; rfl

section
variable {obj ctr : Fin 64} {a b : Src} {scratch : Bool} {scope : Scope} {sbc : Fin 7}

theorem decBar_init (ha : a.sOrInt = true) :
    decBar (encLong long op g 0 (barByte scratch scope) 0 (sregCode obj) a.code 0 0) =
      .ok (.barInit ⟨g, obj, a, scratch, scope, long⟩) := by
  have hr : LongForm (encLong long op g 0 (barByte scratch scope) 0 (sregCode obj) a.code 0 0) long g 0 _ 0 (sregCode obj)
    a.code 0 0 := longForm_encLong
  generalize encLong long op g 0 (barByte scratch scope) 0 (sregCode obj) a.code 0 0 = r at hr ⊢
  obtain ⟨h0, b1, b4⟩ := barByte_bits hr.m
  simp [decBar, hr.sub, hr.len64or128, mzero, b4, b1, scope.code_lt, hr.ext, show bits 0 0 3 = 0 from rfl, noNw, hr.nw, hr.a,
    h0, hr.isLong, hr.b, sOrInt_code ha, hr.c, unused, show bits 0 3 61 = 0 from rfl, noD, hr.d, hr.guard]

theorem decBar_arrive (ha : a.okAt .i32 = true) (ha' : a.isExt = false) (hb : b.okAt .i64 = true) (hb' : b.isExt = false)
    (hs : (long || sbc == 0) = true) :
    decBar (encLong long op g 1 (barByte scratch scope) 0 (sregCode obj) a.code b.code sbc.val) =
      .ok (.barArrive ⟨g, obj, a, b, scratch, scope, long, sbc⟩) := by
  have hr : LongForm (encLong long op g 1 (barByte scratch scope) 0 (sregCode obj) a.code b.code sbc.val) long g 1 _ 0
    (sregCode obj) a.code b.code sbc.val := longForm_encLong
  generalize encLong long op g 1 (barByte scratch scope) 0 (sregCode obj) a.code b.code sbc.val = r at hr ⊢
  obtain ⟨h0, b1, b4⟩ := barByte_bits hr.m
  obtain ⟨e0, e3⟩ := sbcWord_bits sbc
  simp [-Fin.ofNat_eq_cast, decBar, hr.sub, hr.len64or128, mzero, b4, b1, scope.code_lt, hr.ext, sbc_eq_zero hs, e0, e3,
    sbc_ne_seven, noNw, hr.nw, hr.a, h0, hr.isLong, hr.b, src_code (holds_of_not_isExt ha') ha, hr.c,
    src_code (holds_of_not_isExt hb') hb, noD, hr.d, hr.guard]

theorem decBar_wait (ha : a.sOrInt = true) :
    decBar (encLong long op g 2 (barByte scratch scope) 0 (sregCode obj) a.code 0 0) =
      .ok (.barWait ⟨g, obj, a, scratch, scope, long⟩) := by
  have hr : LongForm (encLong long op g 2 (barByte scratch scope) 0 (sregCode obj) a.code 0 0) long g 2 _ 0 (sregCode obj)
    a.code 0 0 := longForm_encLong
  generalize encLong long op g 2 (barByte scratch scope) 0 (sregCode obj) a.code 0 0 = r at hr ⊢
  obtain ⟨h0, b1, b4⟩ := barByte_bits hr.m
  simp [decBar, hr.sub, hr.len64or128, mzero, b4, b1, scope.code_lt, hr.ext, show bits 0 0 3 = 0 from rfl, noNw, hr.nw, hr.a,
    h0, hr.isLong, hr.b, sOrInt_code ha, hr.c, unused, show bits 0 3 61 = 0 from rfl, noD, hr.d, hr.guard]

theorem decBar_test {pd : Fin 8} (ha : a.sOrInt = true) :
    decBar (encLong long op g 3 (barByte scratch scope) pd.val (sregCode obj) a.code 0 0) =
      .ok (.barTest ⟨g, pd, obj, a, scratch, scope, long⟩) := by
  have hr : LongForm (encLong long op g 3 (barByte scratch scope) pd.val (sregCode obj) a.code 0 0) long g 3 _ pd.val
    (sregCode obj) a.code 0 0 := longForm_encLong
  generalize encLong long op g 3 (barByte scratch scope) pd.val (sregCode obj) a.code 0 0 = r at hr ⊢
  obtain ⟨h0, b1, b4⟩ := barByte_bits hr.m
  simp [decBar, hr.sub, hr.len64or128, mzero, b4, b1, scope.code_lt, hr.ext, show bits 0 0 3 = 0 from rfl, noNw, hr.nw, hr.a,
    h0, hr.isLong, hr.b, sOrInt_code ha, hr.c, unused, show bits 0 3 61 = 0 from rfl, hr.d, hr.guard]

/-- A form of 64 bits has no counter in its extension (R227, R232). -/
theorem long_or_sbc (hl : len64or128 r = .ok ()) (hx : r.len = 2 → r.ext = 0) :
    (r.len == 4 || Fin.ofNat 7 (bits r.ext 0 3) == 0) = true := by
  rw [len64or128, need_eq_ok] at hl
  cases h4 : r.len == 4 with
  | true => rfl
  | false =>
    rw [h4, Bool.or_false, beq_iff_eq] at hl
    rw [hx hl]
    rfl

/-- A source of a form that has no third word needs none. -/
theorem isExt_of_srcCode {k : Nat} (hl : r.len ≠ 3) (h : srcCode r k = .ok a) : a.isExt = false := by
  have hk := code_of_srcCode h
  cases he : a.isExt with
  | false => rfl
  | true =>
    exfalso
    rcases Src.code_of_isExt he with hc | hc <;> rw [← hk, hc] at h <;> simp [srcCode, hl] at h

theorem wf_of_decBar {i : Instr} (hx : r.len = 2 → r.ext = 0) (h : decBar r = .ok i) : i.wf = true := by
  simp only [decBar, bind_eq_ok] at h
  obtain ⟨-, -, _, hlen, -, -, -, -, -, -, -, -, obj, -, h⟩ := h
  have hl : r.len ≠ 3 := by
    rw [len64or128, need_eq_ok] at hlen
    intro e
    rw [e] at hlen
    cases hlen
  split at h
  · simp only [bind_eq_ok, Except.ok.injEq] at h
    obtain ⟨count, hc, -, -, -, -, -, -, rfl⟩ := h
    exact sOrInt_of_ok hc
  · simp only [bind_eq_ok, src_eq_ok, Except.ok.injEq] at h
    obtain ⟨count, ⟨hc, hc'⟩, bytes, ⟨hb, hb'⟩, -, -, -, -, rfl⟩ := h
    simp only [Instr.wf, hc', hb', isExt_of_srcCode hl hc, isExt_of_srcCode hl hb, long_or_sbc hlen hx, Bool.not_false, Bool.and_self]
  · simp only [bind_eq_ok, Except.ok.injEq] at h
    obtain ⟨par, hp, -, -, -, -, -, -, rfl⟩ := h
    exact sOrInt_of_ok hp
  · simp only [bind_eq_ok, Except.ok.injEq] at h
    obtain ⟨pd, -, par, hp, -, -, -, -, rfl⟩ := h
    exact sOrInt_of_ok hp

theorem scope_bits (x : Scope) : bits x.code 0 3 = x.code ∧ bits x.code 3 5 = 0 := by cases x <;> decide

theorem decWaitc_enc (ha : a.sOrInt = true) :
    decWaitc (enc64 op g 0 scope.code 0 (sregCode ctr) a.code 0) = .ok ⟨g, ctr, a, scope⟩ := by
  obtain ⟨b0, b3⟩ := scope_bits scope
  simp [decWaitc, enc64, sub0, len64, mzero, b0, b3, scope.code_lt, noNw, sOrInt_code ha, unused, noD]

theorem of_decWaitc {i : WaitcI} (h : decWaitc r = .ok i) : i.value.sOrInt = true := by
  simp only [decWaitc, bind_eq_ok, Except.ok.injEq] at h
  obtain ⟨-, -, -, -, -, -, -, -, -, -, ctr, -, v, hv, -, -, -, -, rfl⟩ := h
  exact sOrInt_of_ok hv

theorem decSignal_enc (ha : a.sOrInt = true) (hs : (long || sbc == 0) = true) :
    decSignal (encLong long op g 0 scope.code 0 (sregCode ctr) a.code 0 sbc.val) = .ok ⟨g, ctr, a, scope, long, sbc⟩ := by
  have hr : LongForm (encLong long op g 0 scope.code 0 (sregCode ctr) a.code 0 sbc.val) long g 0 scope.code 0 (sregCode ctr)
    a.code 0 sbc.val := longForm_encLong
  generalize encLong long op g 0 scope.code 0 (sregCode ctr) a.code 0 sbc.val = r at hr ⊢
  obtain ⟨b0, b3⟩ := scope_bits scope
  obtain ⟨e0, e3⟩ := sbcWord_bits sbc
  simp [-Fin.ofNat_eq_cast, decSignal, sub0, hr.sub, hr.len64or128, mzero, hr.m, b0, b3, scope.code_lt, hr.ext, sbc_eq_zero hs,
    e0, e3, sbc_ne_seven, noNw, hr.nw, hr.a, hr.isLong, hr.b, sOrInt_code ha, hr.c, unused, noD, hr.d, hr.guard]

theorem of_decSignal {i : SignalI} (hx : r.len = 2 → r.ext = 0) (h : decSignal r = .ok i) :
    i.value.sOrInt = true ∧ (i.long || i.sbc == 0) = true := by
  simp only [decSignal, bind_eq_ok, Except.ok.injEq] at h
  obtain ⟨-, -, _, hlen, -, -, -, -, -, -, ctr, -, v, hv, -, -, -, -, -, -, rfl⟩ := h
  exact ⟨sOrInt_of_ok hv, long_or_sbc hlen hx⟩

theorem decWaitsb_enc {sb : Fin 6} (ha : a.sOrInt = true) : decWaitsb (enc64 op g 0 0 0 sb.val a.code 0) = .ok ⟨g, sb, a⟩ := by
  simp [decWaitsb, enc64, sub0, len64, mzero, show bits 0 0 8 = 0 from rfl, noNw, sOrInt_code ha, unused, noD]

theorem of_decWaitsb {i : WaitsbI} (h : decWaitsb r = .ok i) : i.n.sOrInt = true := by
  simp only [decWaitsb, bind_eq_ok, Except.ok.injEq] at h
  obtain ⟨-, -, -, -, -, -, -, -, sb, -, n, hn, -, -, -, -, rfl⟩ := h
  exact sOrInt_of_ok hn

theorem decPause_enc (ha : a.okAt .i32 = true) (ha' : a.isExt = false) :
    decPause (enc64 op g 0 0 0 0 a.code 0) = .ok ⟨g, a⟩ := by
  simp [decPause, enc64, sub0, len64, mzero, show bits 0 0 8 = 0 from rfl, noNw, src_code (holds_of_not_isExt ha') ha, unused, noD]

theorem of_decPause {i : PauseI} (h : decPause r = .ok i) : i.n.okAt .i32 = true ∧ i.n.isExt = false := by
  simp only [decPause, bind_eq_ok, src_eq_ok, Except.ok.injEq] at h
  obtain ⟨-, -, _, hlen, -, -, -, -, -, -, n, ⟨hn, hn'⟩, -, -, -, -, rfl⟩ := h
  have hl : r.len ≠ 3 := by
    rw [len64, need_eq_ok, beq_iff_eq] at hlen
    omega
  exact ⟨hn', isExt_of_srcCode hl hn⟩

end
end
end Sys2Proof.Codec

namespace Sys2Proof.Codec

section
variable {op : Nat} {r : Raw} {g : Guard}

/-! ### Control (R287 to R298) -/

theorem off24_enc24 {d : Nat} (off : BitVec 24) : (enc24 op g d off).off24 = off := by
  apply BitVec.eq_of_toNat_eq
  have := off.isLt
  simp only [Raw.off24, enc24, enc64, BitVec.toNat_ofNat, bits]
  omega

theorem enc24_high (off : BitVec 24) : bits (bits off.toNat 18 6) 6 3 = 0 := by
  simp only [bits]
  omega

theorem decBra_enc {off : BitVec 24} : decBra (enc24 op g 0 off) = .ok ⟨g, off⟩ := by
  have ho := off24_enc24 (op := op) (g := g) (d := 0) off
  simp only [decBra, ho]
  simp [enc24, enc64, ctlHead, sub0, len64, mzero, show bits 0 0 8 = 0 from rfl, noNw, enc24_high, noD]

theorem decCall_enc {off : BitVec 24} {link : Fin 256} (h : link.val % 2 = 0) :
    decCall (enc24 op g link.val off) = .ok ⟨g, link, off⟩ := by
  have ho := off24_enc24 (op := op) (g := g) (d := link.val) off
  simp only [decCall, ho]
  simp [enc24, enc64, ctlHead, sub0, len64, mzero, show bits 0 0 8 = 0 from rfl, noNw, vreg_val h, enc24_high]

theorem of_decCall {i : CallI} (h : decCall r = .ok i) : i.link.val % 2 = 0 := by
  simp only [decCall, bind_eq_ok, vreg_eq_ok, Except.ok.injEq] at h
  obtain ⟨-, -, -, -, -, -, link, ⟨-, hl⟩, -, -, rfl⟩ := h
  exact hl

theorem decJump_enc {t : ABase} (ht : targetOk t = true) : decJump (enc64 op g 0 0 0 t.code 0 0) = .ok ⟨g, t⟩ := by
  simp [decJump, enc64, ctlHead, sub0, len64, mzero, show bits 0 0 8 = 0 from rfl, noNw, target_code ht, unused, noD]

theorem of_decJump {i : JumpI} (h : decJump r = .ok i) : targetOk i.target = true := by
  simp only [decJump, bind_eq_ok, target_eq_ok, Except.ok.injEq] at h
  obtain ⟨-, -, -, -, -, -, t, ⟨-, ht⟩, -, -, -, -, -, -, rfl⟩ := h
  exact ht

theorem decCallx_enc {link : Fin 256} {t : ABase} (hl : link.val % 2 = 0) (ht : targetOk t = true) :
    decCallx (enc64 op g 0 0 link.val t.code 0 0) = .ok ⟨g, link, t⟩ := by
  simp [decCallx, enc64, ctlHead, sub0, len64, mzero, show bits 0 0 8 = 0 from rfl, noNw, vreg_val hl, target_code ht, unused]

theorem of_decCallx {i : CallxI} (h : decCallx r = .ok i) : i.link.val % 2 = 0 ∧ targetOk i.target = true := by
  simp only [decCallx, bind_eq_ok, vreg_eq_ok, target_eq_ok, Except.ok.injEq] at h
  obtain ⟨-, -, -, -, -, -, link, ⟨-, hl⟩, t, ⟨-, ht⟩, -, -, -, -, rfl⟩ := h
  exact ⟨hl, ht⟩

theorem decPlain_enc {sub : Nat} : decPlain (enc64 op g sub 0 0 0 0 0) = .ok ⟨g⟩ := by
  simp [decPlain, enc64, mzero, show bits 0 0 8 = 0 from rfl, noNw, unused, noD]

theorem ctlHead_enc {m d a b c : Nat} : ctlHead (enc64 op g 0 m d a b c) = .ok () := rfl

/-- The mask operand of jopen: a scalar or a constant, or none (R296). -/
def maskOk : Option Src → Bool
  | none => true
  | some m => m.sOrInt

/-- Its field (R296). -/
def maskCode : Option Src → Nat
  | none => 0
  | some m => m.code

theorem decJopen_enc {j : Fin 16} {mask : Option Src} (hm : maskOk mask = true) :
    decJopen (enc64 op g 0 mask.isSome.toNat j.val (maskCode mask) 0 0) = .ok ⟨g, j, mask⟩ := by
  cases mask with
  | none =>
    simp [decJopen, enc64, ctlHead, sub0, len64, mzero, Raw.mbit, show bits 0 1 7 = 0 from rfl, show bits 0 0 1 = 0 from rfl, noNw,
      maskCode, unused]
  | some m =>
    have hs : sOrInt (enc64 op g 0 1 j.val m.code 0 0) m.code = .ok m := sOrInt_code hm
    simp only [enc64] at hs
    simp [decJopen, enc64, ctlHead, sub0, len64, mzero, Raw.mbit, show bits 1 1 7 = 0 from rfl, show bits 1 0 1 = 1 from rfl, noNw,
      maskCode, hs, unused]

theorem of_decJopen {i : JopenI} (h : decJopen r = .ok i) : maskOk i.mask = true := by
  simp only [decJopen, bind_eq_ok, Except.ok.injEq] at h
  obtain ⟨-, -, -, -, -, -, j, -, mask, hm, -, -, -, -, rfl⟩ := h
  split at hm
  · simp only [bind_eq_ok, Except.ok.injEq] at hm
    obtain ⟨m, hm, rfl⟩ := hm
    exact sOrInt_of_ok hm
  · simp only [bind_eq_ok, Except.ok.injEq] at hm
    obtain ⟨-, -, rfl⟩ := hm
    rfl

theorem decJset_enc {j : Fin 16} : decJset (enc64 op g 0 0 j.val 0 0 0) = .ok ⟨g, j⟩ := by
  simp [decJset, enc64, ctlHead, sub0, len64, mzero, show bits 0 0 8 = 0 from rfl, noNw, unused]

theorem decJmem_enc {j : Fin 16} {base : Fin 64} {slot : Src} (hs : slot.sOrInt = true) :
    decJmem (enc64 op g 0 0 j.val (sregCode base) slot.code 0) = .ok ⟨g, j, base, slot⟩ := by
  simp [decJmem, enc64, ctlHead, sub0, len64, mzero, show bits 0 0 8 = 0 from rfl, noNw, sOrInt_code hs, unused]

theorem of_decJmem {i : JmemI} (h : decJmem r = .ok i) : i.slot.sOrInt = true := by
  simp only [decJmem, bind_eq_ok, Except.ok.injEq] at h
  obtain ⟨-, -, -, -, -, -, j, -, base, -, slot, hs, -, -, rfl⟩ := h
  exact sOrInt_of_ok hs

theorem longForm_enc128 (sub m d a b c ext : Nat) : LongForm (enc128 op g sub m d a b c ext) true g sub m d a b c ext :=
  longForm_encLong (long := true)

/-! ### Platen (R159 to R168) -/

/-- The scale registers of mma (R163). -/
def scaleWord : Option (Fin 64 × Fin 64) → Nat
  | none => 0
  | some (x, y) => sregCode x + 2 ^ 9 * sregCode y

theorem mmaExt_bits {scale : Option (Fin 64 × Fin 64)} {tk : Option (Fin 64)} {e : Nat}
    (he : e = scaleWord scale + 2 ^ 18 * optSregCode tk) :
    bits e 18 9 = optSregCode tk ∧ bits e 27 37 = 0 ∧
      match scale with
      | none => bits e 0 9 = 0 ∧ bits e 9 9 = 0
      | some (x, y) => bits e 0 9 = sregCode x ∧ bits e 9 9 = sregCode y := by
  have := optSregCode_lt tk
  cases scale with
  | none =>
    subst he
    simp only [scaleWord]
    refine ⟨?_, ?_, ?_, ?_⟩ <;> rw [bits] <;> omega
  | some p =>
    obtain ⟨x, y⟩ := p
    have := sregCode_lt x
    have := sregCode_lt y
    subst he
    simp only [scaleWord]
    refine ⟨?_, ?_, ?_, ?_⟩ <;> rw [bits] <;> omega

theorem mmaByte_bits {af bf : MF} {scale ck : Bool} {m : Nat} (hm : m = af.code + 8 * bf.code + 64 * scale.toNat + 128 * ck.toNat) :
    bits m 0 3 = af.code ∧ bits m 3 3 = bf.code ∧ bits m 6 1 = scale.toNat ∧ bits m 7 1 = ck.toNat := by
  have := af.code_lt
  have := bf.code_lt
  have := scale.toNat_le
  have := ck.toNat_le
  subst hm
  refine ⟨?_, ?_, ?_, ?_⟩ <;> rw [bits] <;> omega

/-- The scale operand is read where its bit stands, and its fields are unused otherwise. -/
theorem mmaScale_read {scale : Option (Fin 64 × Fin 64)} {tk : Option (Fin 64)} {e : Nat}
    (he : e = scaleWord scale + 2 ^ 18 * optSregCode tk) :
    (if scale.isSome then do
      let x ← sreg (bits e 0 9)
      let y ← sreg (bits e 9 9)
      .ok (some (x, y))
    else do
      unused (bits e 0 9)
      unused (bits e 9 9)
      .ok none : Dec (Option (Fin 64 × Fin 64))) = .ok scale := by
  obtain ⟨-, -, h⟩ := mmaExt_bits he
  cases scale with
  | none => simp [h.1, h.2, unused]
  | some p => simp [h.1, h.2]

theorem code_ne_seven (x : MF) : (x.code != 7) = true := by cases x <;> rfl

section
variable {d res : Fin 8} {sa sb : Fin 64} {af bf : MF} {ck : Bool} {scale : Option (Fin 64 × Fin 64)} {tk : Option (Fin 64)}

/-- What the decoder of mma reads. -/
structure MmaForm (r : Raw) (sub res : Nat) (i : MmaI) : Prop where
  guard : r.guard = i.g
  len : r.len = 4
  sub : r.sub = sub
  nw : r.nw = 0
  d : r.d = i.d.val
  a : r.a = sregCode i.sa
  b : r.b = sregCode i.sb
  c : r.c = res
  m : r.m = i.af.code + 8 * i.bf.code + 64 * i.scale.isSome.toNat + 128 * i.ck.toNat
  ext : r.ext = scaleWord i.scale + 2 ^ 18 * optSregCode i.tk

theorem mmaForm_encMma (sub res : Nat) (i : MmaI) : MmaForm (encMma sub res i) sub res i := by
  obtain ⟨g, d, sa, sb, af, bf, ck, scale, tk⟩ := i
  cases scale
  · exact ⟨guard_mk .., rfl, rfl, rfl, rfl, rfl, rfl, rfl, rfl, rfl⟩
  · exact ⟨guard_mk .., rfl, rfl, rfl, rfl, rfl, rfl, rfl, rfl, rfl⟩

theorem unused_zero : unused 0 = .ok () := rfl

theorem decMma_enc (hp : mmaPair af bf = true) (hs : mmaScale af scale.isSome = true) :
    decMma (encMma 0 0 ⟨g, d, sa, sb, af, bf, ck, scale, tk⟩) = .ok (.mma ⟨g, d, sa, sb, af, bf, ck, scale, tk⟩) := by
  have hr := mmaForm_encMma 0 0 ⟨g, d, sa, sb, af, bf, ck, scale, tk⟩
  generalize encMma 0 0 ⟨g, d, sa, sb, af, bf, ck, scale, tk⟩ = r at hr ⊢
  obtain ⟨b0, b3, b6, b7⟩ := mmaByte_bits hr.m
  obtain ⟨e18, e27, -⟩ := mmaExt_bits hr.ext
  simp [decMma, hr.sub, len128, hr.len, b0, b3, code_ne_seven, Raw.mbit, b6, b7, hp, hs, noNw, hr.nw, hr.d, hr.a, hr.b,
    mmaScale_read hr.ext, e18, e27, unused_zero, hr.c, hr.guard]

theorem decMma_res (hp : mmaPair af bf = true) (hs : mmaScale af scale.isSome = true) (hd : (d != res) = true)
    (h8 : (af != .i8) = true) (hn : (af != .n8) = true) :
    decMma (encMma 1 res.val ⟨g, d, sa, sb, af, bf, ck, scale, tk⟩) =
      .ok (.mmaRes ⟨⟨g, d, sa, sb, af, bf, ck, scale, tk⟩, res⟩) := by
  have hr := mmaForm_encMma 1 res.val ⟨g, d, sa, sb, af, bf, ck, scale, tk⟩
  generalize encMma 1 res.val ⟨g, d, sa, sb, af, bf, ck, scale, tk⟩ = r at hr ⊢
  obtain ⟨b0, b3, b6, b7⟩ := mmaByte_bits hr.m
  obtain ⟨e18, e27, -⟩ := mmaExt_bits hr.ext
  have hres : (res != d) = true := by rw [bne_comm]; exact hd
  have hint : (af == .i8 || af == .n8) = false := by cases af <;> simp_all
  simp [decMma, hr.sub, len128, hr.len, b0, b3, code_ne_seven, Raw.mbit, b6, b7, hp, hs, noNw, hr.nw, hr.d, hr.a, hr.b,
    mmaScale_read hr.ext, e18, e27, hr.c, hr.guard, hres, hint]

theorem wf_of_decMma {i : Instr} (h : decMma r = .ok i) : i.wf = true := by
  simp only [decMma, bind_eq_ok, need_eq_ok, Bool.and_eq_true] at h
  obtain ⟨-, hlt, -, -, -, -, -, ⟨hp, hs⟩, -, hint, -, -, d, -, sa, -, sb, -, scale, hsc, tk, -, h⟩ := h
  have hsome : scale.isSome = r.mbit 6 := by
    split at hsc
    · next hb =>
      simp only [bind_eq_ok, Except.ok.injEq] at hsc
      obtain ⟨_, -, _, -, rfl⟩ := hsc
      exact hb.symm
    · next hb =>
      simp only [bind_eq_ok, Except.ok.injEq] at hsc
      obtain ⟨_, -, _, -, rfl⟩ := hsc
      exact (Bool.eq_false_iff.2 hb).symm
  have hm : wfMma ⟨r.guard, d, sa, sb, MF.ofCode (bits r.m 0 3), MF.ofCode (bits r.m 3 3), r.mbit 7, scale, tk⟩ = true := by
    simp only [wfMma, hp, hsome, hs, Bool.and_self]
  split at h
  · simp only [bind_eq_ok, Except.ok.injEq] at h
    obtain ⟨-, -, -, -, rfl⟩ := h
    exact hm
  · next hsub =>
    simp only [bind_eq_ok, need_eq_ok, Except.ok.injEq] at h
    obtain ⟨res, -, -, hne, -, -, rfl⟩ := h
    have h1 : r.sub = 1 := by rw [decide_eq_true_eq] at hlt; omega
    rw [h1, beq_self_eq_true, Bool.true_and, Bool.not_eq_true', Bool.or_eq_false_iff] at hint
    have hd : (d != res) = true := by rw [bne_comm]; exact hne
    have h8 : (MF.ofCode (bits r.m 0 3) != .i8) = true := by rw [bne, hint.1]; rfl
    have hn : (MF.ofCode (bits r.m 0 3) != .n8) = true := by rw [bne, hint.2]; rfl
    simp only [Instr.wf, hm, hd, h8, hn, Bool.and_self]

end

/-! ### Accumulators (R164 to R168) -/

section
variable {d a : Fin 8} {ft : AF} {md : RM} {ovf : Bool} {sum : Option (Fin 8)} {rh : Fin 2} {nr : Fin 5} {col : Fin 64}
  {lrec : Fin 64} {tk : Option (Fin 64)} {sb : Fin 6} {v : Fin 256}

theorem decAcc_zero : decAcc (enc128 op g 0 0 d.val 0 0 0 0) = .ok (.accZero ⟨g, d⟩) := by
  simp [decAcc, enc128, enc64, len128, mzero, show bits 0 0 8 = 0 from rfl, noNw, unused]

/-- The format word of acc.rd and acc.st (R165). -/
theorem accWord_bits (ft : AF) (md : RM) (ovf : Bool) (sum : Option (Fin 8)) :
    bits (accWord ft md ovf sum) 0 3 = ft.code ∧ bits (accWord ft md ovf sum) 3 2 = md.code ∧
      bits (accWord ft md ovf sum) 5 1 = ovf.toNat ∧ bits (accWord ft md ovf sum) 6 1 = sum.isSome.toNat ∧
      bits (accWord ft md ovf sum) 7 1 = 0 := by
  have := ft.code_lt
  have := md.code_lt
  have := ovf.toNat_le
  have := sum.isSome.toNat_le
  unfold accWord
  refine ⟨?_, ?_, ?_, ?_, ?_⟩ <;> rw [bits] <;> omega

theorem accByte_mods (hm : r.m = accWord ft md ovf sum) (h : accMods ft md ovf sum.isSome = true) :
    accByte r true = .ok ft ∧ RM.ofCode (bits r.m 3 2) = md ∧ r.mbit 5 = ovf ∧ r.mbit 6 = sum.isSome := by
  obtain ⟨b0, b3, b5, b6, b7⟩ := accWord_bits ft md ovf sum
  rw [← hm] at b0 b3 b5 b6 b7
  have h5 : r.mbit 5 = ovf := by rw [Raw.mbit, b5, toNat_bne_zero]
  have h6 : r.mbit 6 = sum.isSome := by rw [Raw.mbit, b6, toNat_bne_zero]
  simp [accByte, mzero, b0, b3, b7, ft.code_lt, h5, h6, h]

theorem accByte_format (hm : r.m = ft.code) : accByte r false = .ok ft := by
  have : bits ft.code 0 3 = ft.code ∧ bits ft.code 3 4 = 0 ∧ bits ft.code 7 1 = 0 := by cases ft <;> decide
  simp [accByte, mzero, hm, this, ft.code_lt]

theorem of_accByte (h : accByte r true = .ok ft) : accMods ft (RM.ofCode (bits r.m 3 2)) (r.mbit 5) (r.mbit 6) = true := by
  simp only [accByte, bind_eq_ok, need_eq_ok, Except.ok.injEq, if_true] at h
  obtain ⟨-, -, -, -, -, h, rfl⟩ := h
  exact h

theorem accSum_read (h6 : r.mbit 6 = sum.isSome) (hc : r.c = optIndex sum) : accSum r = .ok sum := by
  unfold accSum
  rw [h6, hc]
  cases sum with
  | none => rfl
  | some t => simp [optIndex]

theorem of_accSum (h : accSum r = .ok sum) : sum.isSome = r.mbit 6 := by
  unfold accSum at h
  split at h
  · next hb =>
    simp only [bind_eq_ok, Except.ok.injEq] at h
    obtain ⟨_, -, rfl⟩ := h
    exact hb.symm
  · next hb =>
    simp only [bind_eq_ok, Except.ok.injEq] at h
    obtain ⟨_, -, rfl⟩ := h
    exact (Bool.eq_false_iff.2 hb).symm

/-- The registers and columns that a format permits (R167). -/
def colsOk (ft : AF) (nr : Fin 5) (col : Fin 64) : Bool :=
  col.val % ft.perReg == 0 && decide (col.val + 2 ^ nr.val * ft.perReg ≤ 64)

theorem colWord_bits {e : Nat} (he : e = rh.val + 2 * nr.val + 16 * col.val) :
    bits e 0 1 = rh.val ∧ bits e 1 3 = nr.val ∧ bits e 4 6 = col.val ∧ bits e 10 54 = 0 := by
  subst he
  refine ⟨?_, ?_, ?_, ?_⟩ <;> rw [bits] <;> omega

theorem accCols_read (he : r.ext = rh.val + 2 * nr.val + 16 * col.val) (h : colsOk ft nr col = true) :
    accCols r ft = .ok () := by
  obtain ⟨-, b1, b4, -⟩ := colWord_bits he
  unfold colsOk at h
  simp [accCols, b1, b4, nr.isLt, h]

theorem of_accCols (h : accCols r ft = .ok ()) :
    colsOk ft (Fin.ofNat 5 (bits r.ext 1 3)) (Fin.ofNat 64 (bits r.ext 4 6)) = true := by
  simp only [accCols, bind_eq_ok, need_eq_ok, decide_eq_true_eq] at h
  obtain ⟨-, hn, h⟩ := h
  have hnr : (Fin.ofNat 5 (bits r.ext 1 3)).val = bits r.ext 1 3 := Nat.mod_eq_of_lt hn
  have hcol : (Fin.ofNat 64 (bits r.ext 4 6)).val = bits r.ext 4 6 := Nat.mod_eq_of_lt (Nat.mod_lt _ (by decide))
  rw [colsOk, hnr, hcol]
  exact h

theorem decAcc_rd (hm : accMods ft md ovf sum.isSome = true) (hc : colsOk ft nr col = true) :
    decAcc (enc128 op g 1 (accWord ft md ovf sum) v.val a.val 0 (optIndex sum) (rh.val + 2 * nr.val + 16 * col.val)) =
      .ok (.accRd ⟨g, v, a, sum, ft, md, ovf, rh, nr, col⟩) := by
  have hr := longForm_enc128 (op := op) (g := g) 1 (accWord ft md ovf sum) v.val a.val 0 (optIndex sum) (rh.val + 2 * nr.val + 16 * col.val)
  generalize enc128 op g 1 (accWord ft md ovf sum) v.val a.val 0 (optIndex sum) (rh.val + 2 * nr.val + 16 * col.val) = r at hr ⊢
  have he : r.ext = rh.val + 2 * nr.val + 16 * col.val := hr.ext
  obtain ⟨hbyte, h3, h5, h6⟩ := accByte_mods (r := r) hr.m hm
  obtain ⟨e0, e1, e4, e10⟩ := colWord_bits he
  have hcols := accCols_read he hc
  have hsum : accSum r = .ok sum := accSum_read h6 hr.c
  simp [-Fin.ofNat_eq_cast, decAcc, hr.sub, len128, hr.len, hbyte, hcols, noNw,
    hr.nw, hr.d, vreg_val (Nat.mod_one _),
    hr.a, unused, hr.b, hsum, e0, e1, e4, e10, h3, h5, hr.guard]

theorem decAcc_wr (hc : colsOk ft nr col = true) :
    decAcc (enc128 op g 2 ft.code d.val v.val 0 0 (rh.val + 2 * nr.val + 16 * col.val)) =
      .ok (.accWr ⟨g, d, v, ft, rh, nr, col⟩) := by
  have hr := longForm_enc128 (op := op) (g := g) 2 ft.code d.val v.val 0 0 (rh.val + 2 * nr.val + 16 * col.val)
  generalize enc128 op g 2 ft.code d.val v.val 0 0 (rh.val + 2 * nr.val + 16 * col.val) = r at hr ⊢
  have he : r.ext = rh.val + 2 * nr.val + 16 * col.val := hr.ext
  have hbyte : accByte r false = .ok ft := accByte_format hr.m
  obtain ⟨e0, e1, e4, e10⟩ := colWord_bits he
  have hcols := accCols_read he hc
  simp [-Fin.ofNat_eq_cast, decAcc, hr.sub, len128, hr.len, hbyte, hcols, noNw,
    hr.nw, hr.d, vreg_val (Nat.mod_one _),
    hr.a, unused, hr.b, hr.c, e0, e1, e4, e10,
    hr.guard]

theorem decAcc_ld : decAcc (enc128 op g 3 ft.code d.val (sregCode lrec) 0 0 (2 ^ 18 * optSregCode tk)) =
    .ok (.accLd ⟨g, d, lrec, ft, tk⟩) := by
  have hr := longForm_enc128 (op := op) (g := g) 3 ft.code d.val (sregCode lrec) 0 0 (2 ^ 18 * optSregCode tk)
  generalize enc128 op g 3 ft.code d.val (sregCode lrec) 0 0 (2 ^ 18 * optSregCode tk) = r at hr ⊢
  have := optSregCode_lt tk
  have he : r.ext = 2 ^ 18 * optSregCode tk := hr.ext
  have e0 : bits r.ext 0 18 = 0 := by rw [he, bits]; omega
  have e18 : bits r.ext 18 9 = optSregCode tk := by rw [he, bits]; omega
  have e27 : bits r.ext 27 37 = 0 := by rw [he, bits]; omega
  have hbyte : accByte r false = .ok ft := accByte_format hr.m
  simp [decAcc, hr.sub, len128, hr.len, hbyte, noNw,
    hr.nw, hr.d, hr.a, unused,
    hr.b, hr.c, e0, e18, e27, hr.guard]

theorem decAcc_st (hm : accMods ft md ovf sum.isSome = true) :
    decAcc (enc128 op g 4 (accWord ft md ovf sum) 0 a.val (sregCode lrec) (optIndex sum) sb.val) =
      .ok (.accSt ⟨g, a, lrec, sum, ft, md, ovf, sb⟩) := by
  have hr := longForm_enc128 (op := op) (g := g) 4 (accWord ft md ovf sum) 0 a.val (sregCode lrec) (optIndex sum) sb.val
  generalize enc128 op g 4 (accWord ft md ovf sum) 0 a.val (sregCode lrec) (optIndex sum) sb.val = r at hr ⊢
  have he : r.ext = sb.val := hr.ext
  have e0 : bits r.ext 0 3 = sb.val := by rw [he, bits]; omega
  have e3 : bits r.ext 3 61 = 0 := by rw [he, bits]; omega
  obtain ⟨hbyte, h3, h5, h6⟩ := accByte_mods (r := r) hr.m hm
  have hsum : accSum r = .ok sum := accSum_read h6 hr.c
  simp [-Fin.ofNat_eq_cast, decAcc, hr.sub, len128, hr.len, hbyte, noNw,
    hr.nw, hr.d, noD, hr.a,
    hr.b, hsum, e0, e3, sb.isLt, h3, h5, hr.guard]

theorem wf_of_decAcc {i : Instr} (h : decAcc r = .ok i) : i.wf = true := by
  simp only [decAcc, bind_eq_ok] at h
  obtain ⟨-, -, -, -, h⟩ := h
  split at h
  · simp only [bind_eq_ok, Except.ok.injEq] at h
    obtain ⟨-, -, -, -, d, -, -, -, -, -, -, -, -, -, rfl⟩ := h
    rfl
  · simp only [bind_eq_ok, Except.ok.injEq] at h
    obtain ⟨ft, hft, _, hcols, -, -, d, -, a, -, -, -, sum, hsum, -, -, rfl⟩ := h
    have hm := of_accByte hft
    rw [← of_accSum hsum] at hm
    have hc := of_accCols hcols
    simp only [colsOk, Bool.and_eq_true] at hc
    obtain ⟨hper, hcol⟩ := hc
    simp only [Instr.wf, hm, hper, hcol, Bool.and_self]
  · simp only [bind_eq_ok, Except.ok.injEq] at h
    obtain ⟨ft, -, _, hcols, -, -, d, -, a, -, -, -, -, -, -, -, rfl⟩ := h
    exact of_accCols hcols
  · simp only [bind_eq_ok, Except.ok.injEq] at h
    obtain ⟨ft, -, -, -, d, -, lrec, -, -, -, -, -, tk, -, -, -, rfl⟩ := h
    rfl
  · simp only [bind_eq_ok, Except.ok.injEq] at h
    obtain ⟨ft, hft, -, -, -, -, a, -, lrec, -, sum, hsum, -, -, -, -, rfl⟩ := h
    have hm := of_accByte hft
    rw [← of_accSum hsum] at hm
    exact hm

end
end
end Sys2Proof.Codec

namespace Sys2Proof.Codec

section
variable {op : Nat} {r : Raw} {g : Guard}

/-! ### Feeder commands (R241) -/

section
variable {dst src ctr desc : Fin 64} {bar : Option (Fin 64 × Bool)} {scope : Scope} {tk cr : Option (Fin 64)}

/-- The space bit of the barrier that a copy is tied to (R241). -/
def barBit : Option (Fin 64 × Bool) → Nat
  | some (_, true) => 1
  | _ => 0

/-- What the decoder of cpy reads: minor, reduction, its operand C and the counter's field. -/
structure CpyForm (r : Raw) (sub rop c ctr : Nat) (i : CpyI) : Prop where
  guard : r.guard = i.g
  len : r.len = 4
  sub : r.sub = sub
  nw : r.nw = 0
  d : r.d = sregCode i.dst
  a : r.a = sregCode i.src
  b : r.b = optSregCode (i.bar.map Prod.fst)
  c : r.c = c
  m : r.m = i.scope.code + 8 * rop + 64 * barBit i.bar
  ext : r.ext = optSregCode i.tk + 2 ^ 9 * optSregCode i.cr + 2 ^ 18 * ctr

theorem cpyForm_encCpy (sub rop c ctr : Nat) (i : CpyI) : CpyForm (encCpy sub rop c ctr i) sub rop c ctr i := by
  obtain ⟨g, dst, src, bar, scope, tk, cr⟩ := i
  obtain _ | ⟨k, _ | _⟩ := bar <;>
    exact ⟨guard_mk .., rfl, rfl, rfl, rfl, rfl, rfl, rfl, rfl, rfl⟩

theorem cpyByte_bits {rop : Nat} (hrop : rop < 8) (hm : r.m = scope.code + 8 * rop + 64 * barBit bar) :
    bits r.m 0 3 = scope.code ∧ bits r.m 3 3 = rop ∧ bits r.m 6 1 = barBit bar ∧ bits r.m 7 1 = 0 := by
  have := scope.code_lt
  have : barBit bar ≤ 1 := by unfold barBit; split <;> decide
  rw [hm]
  refine ⟨?_, ?_, ?_, ?_⟩ <;> rw [bits] <;> omega

theorem cpyWord_bits {c : Nat} (hc : c < 512) (he : r.ext = optSregCode tk + 2 ^ 9 * optSregCode cr + 2 ^ 18 * c) :
    bits r.ext 0 9 = optSregCode tk ∧ bits r.ext 9 9 = optSregCode cr ∧ bits r.ext 18 9 = c ∧ bits r.ext 27 37 = 0 := by
  have := optSregCode_lt tk
  have := optSregCode_lt cr
  rw [he]
  refine ⟨?_, ?_, ?_, ?_⟩ <;> rw [bits] <;> omega

/-- The barrier is read with its space, which stands only beside one (R241). -/
theorem cpyBar_read (h6 : bits r.m 6 1 = barBit bar) :
    (bar.map Prod.fst).map (fun x => (x, r.mbit 6)) = bar ∧ (!(r.mbit 6 && optSregCode (bar.map Prod.fst) == 0)) = true := by
  rw [Raw.mbit, h6]
  obtain _ | ⟨k, _ | _⟩ := bar
  · exact ⟨rfl, rfl⟩
  · exact ⟨rfl, rfl⟩
  · refine ⟨rfl, ?_⟩
    have : optSregCode (some k) ≠ 0 := by simp only [optSregCode]; omega
    simp [barBit, this]

theorem decCpy_cpy : decCpy (encCpy 0 0 0 0 ⟨g, dst, src, bar, scope, tk, cr⟩) = .ok (.cpy ⟨g, dst, src, bar, scope, tk, cr⟩) := by
  have hr := cpyForm_encCpy 0 0 0 0 ⟨g, dst, src, bar, scope, tk, cr⟩
  generalize encCpy 0 0 0 0 ⟨g, dst, src, bar, scope, tk, cr⟩ = r at hr ⊢
  obtain ⟨b0, b3, b6, b7⟩ := cpyByte_bits (scope := scope) (bar := bar) (by decide) hr.m
  obtain ⟨e0, e9, e18, e27⟩ := cpyWord_bits (tk := tk) (cr := cr) (by decide) hr.ext
  obtain ⟨hbar, hok⟩ := cpyBar_read b6
  simp [-Option.map_map, -Bool.not_and, decCpy, hr.sub, len128, hr.len, mzero, b0, b3, b7, scope.code_lt, hr.b, hok, noNw, hr.nw,
    hr.d, hr.a, hr.c, unused, e0, e9, e18, e27, hbar, hr.guard]

theorem decCpy_red {rop : Rop} : decCpy (encCpy 1 rop.code 0 0 ⟨g, dst, src, bar, scope, tk, cr⟩) =
    .ok (.cpyRed ⟨⟨g, dst, src, bar, scope, tk, cr⟩, rop⟩) := by
  have hr := cpyForm_encCpy 1 rop.code 0 0 ⟨g, dst, src, bar, scope, tk, cr⟩
  generalize encCpy 1 rop.code 0 0 ⟨g, dst, src, bar, scope, tk, cr⟩ = r at hr ⊢
  have hlt : rop.code < 8 := rop.code_lt.trans (by decide)
  obtain ⟨b0, b3, b6, b7⟩ := cpyByte_bits (scope := scope) (bar := bar) hlt hr.m
  obtain ⟨e0, e9, e18, e27⟩ := cpyWord_bits (tk := tk) (cr := cr) (by decide) hr.ext
  obtain ⟨hbar, hok⟩ := cpyBar_read b6
  have hrop : (rop.code != 0 && rop.code != 7) = true := by cases rop <;> rfl
  simp [-Option.map_map, -Bool.not_and, decCpy, hr.sub, len128, hr.len, mzero, b0, b3, b7, scope.code_lt, hrop, hr.b, hok, noNw,
    hr.nw, hr.d, hr.a, hr.c, unused, e0, e9, e18, e27, hbar, hr.guard]

theorem decCpy_sig {value : Src} (hv : value.sOrInt = true) :
    decCpy (encCpy 2 0 value.code (sregCode ctr) ⟨g, dst, src, bar, scope, tk, cr⟩) =
      .ok (.cpySig ⟨⟨g, dst, src, bar, scope, tk, cr⟩, ctr, value⟩) := by
  have hr := cpyForm_encCpy 2 0 value.code (sregCode ctr) ⟨g, dst, src, bar, scope, tk, cr⟩
  generalize encCpy 2 0 value.code (sregCode ctr) ⟨g, dst, src, bar, scope, tk, cr⟩ = r at hr ⊢
  obtain ⟨b0, b3, b6, b7⟩ := cpyByte_bits (scope := scope) (bar := bar) (by decide) hr.m
  obtain ⟨e0, e9, e18, e27⟩ := cpyWord_bits (tk := tk) (cr := cr) (sregCode_lt ctr) hr.ext
  obtain ⟨hbar, hok⟩ := cpyBar_read b6
  simp [-Option.map_map, -Bool.not_and, decCpy, hr.sub, len128, hr.len, mzero, b0, b3, b7, scope.code_lt, hr.b, hok, noNw, hr.nw,
    hr.d, hr.a, hr.c, sOrInt_code hv, e0, e9, e18, e27, hbar, hr.guard]

theorem wf_of_decCpy {i : Instr} (h : decCpy r = .ok i) : i.wf = true := by
  simp only [decCpy, bind_eq_ok] at h
  obtain ⟨-, -, -, -, -, -, -, -, -, -, -, -, -, -, d, -, a, -, bar, -, tk, -, cr, -, h⟩ := h
  split at h
  · simp only [bind_eq_ok, Except.ok.injEq] at h
    obtain ⟨v, hv, ctr, -, -, -, rfl⟩ := h
    exact sOrInt_of_ok hv
  · simp only [bind_eq_ok, Except.ok.injEq] at h
    obtain ⟨-, -, -, -, -, -, rfl⟩ := h
    split <;> rfl

theorem decImp_enc : decImp (enc128 op g 0 scope.code (sregCode desc) 0 0 0 (optSregCode tk + 2 ^ 9 * optSregCode cr)) =
    .ok ⟨g, desc, scope, tk, cr⟩ := by
  have := optSregCode_lt tk
  have := optSregCode_lt cr
  generalize he : optSregCode tk + 2 ^ 9 * optSregCode cr = e
  have e0 : bits e 0 9 = optSregCode tk := by rw [← he, bits]; omega
  have e9 : bits e 9 9 = optSregCode cr := by rw [← he, bits]; omega
  have e18 : bits e 18 46 = 0 := by rw [← he, bits]; omega
  obtain ⟨b0, b3⟩ := scope_bits scope
  simp [decImp, enc128, enc64, sub0, len128, mzero, b0, b3, scope.code_lt, noNw, unused, e0, e9, e18]

end

/-! ### Regions (R390 to R395) -/

theorem isExt_of_trapNum {a : Src} (h : a.trapNum = true) : a.isExt = false := by cases a <;> simp_all [Src.trapNum, Src.isExt]

theorem trapNum_code {a : Src} (h : a.trapNum = true) : trapNum r a.code = .ok a := by
  simp [trapNum, srcCode_code (holds_of_not_isExt (isExt_of_trapNum h)), h]

theorem trapNum_of_ok {a : Src} {k : Nat} (h : trapNum r k = .ok a) : a.trapNum = true := by
  simp only [trapNum, bind_eq_ok, need_eq_ok, Except.ok.injEq] at h
  obtain ⟨_, -, -, h, rfl⟩ := h
  exact h

theorem keptTile_code (t : Option (Fin 8)) : keptTile (tileCode t) = t := by
  cases t with
  | none => rfl
  | some k =>
    have : Fin.ofNat 8 (8 + k.val) = k := Fin.ext (by simp)
    simp only [keptTile, tileCode, this]
    rw [if_neg (by omega)]

theorem tileCode_lt (t : Option (Fin 8)) : tileCode t < 16 := by cases t <;> simp only [tileCode] <;> omega

theorem tileCode_keeps (t : Option (Fin 8)) : (decide (8 ≤ tileCode t) || tileCode t == 0) = true := by
  cases t <;> simp [tileCode]

theorem tileCode_differ {t u : Option (Fin 8)} (h : (t.isNone || t != u) = true) :
    (decide (tileCode t < 8) || tileCode t != tileCode u) = true := by
  cases t with
  | none => rfl
  | some k =>
    have hne : some k ≠ u := by simpa using h
    have : tileCode (some k) ≠ tileCode u := fun e => hne (by rw [← keptTile_code (some k), e, keptTile_code])
    simp [this]

theorem keptTile_differ {x y : Nat} (hx : x < 16) (hy : y < 16) (h : (decide (x < 8) || x != y) = true) :
    ((keptTile x).isNone || keptTile x != keptTile y) = true := by
  unfold keptTile
  by_cases h8 : x < 8
  · simp [h8]
  · have hne : x ≠ y := by simpa [h8] using h
    simp only [h8, if_false]
    split
    · rfl
    · have : Fin.ofNat 8 x ≠ Fin.ofNat 8 y := fun e => by
        have := congrArg Fin.val e
        simp only [Fin.val_ofNat] at this
        omega
      simpa [-Fin.ofNat_eq_cast] using this

theorem decRgn_begin {loff : BitVec 24} {retry : Fin 8} :
    decRgn (enc128 op g 0 0 0 0 0 0 (loff.toNat + 2 ^ 24 * retry.val)) = .ok (.rgnBegin ⟨g, loff, retry⟩) := by
  generalize he : loff.toNat + 2 ^ 24 * retry.val = e
  have := loff.isLt
  have e0 : bits e 0 24 = loff.toNat := by rw [← he, bits]; omega
  have e24 : bits e 24 3 = retry.val := by rw [← he, bits]; omega
  have e27 : bits e 27 37 = 0 := by rw [← he, bits]; omega
  simp [decRgn, enc128, enc64, mzero, show bits 0 0 8 = 0 from rfl, noNw, unused, noD, e0, e24, e27]

/-- The fields of the word of rgn.keep (R392). -/
def keepWord (i : RgnKeepI) : Nat :=
  i.vnum.val + 2 ^ 9 * i.vfirst.val + 2 ^ 17 * i.sfirst.val + 2 ^ 23 * i.snum.val + 2 ^ 30 * i.pmask.toNat +
    2 ^ 38 * i.jmask.toNat + 2 ^ 54 * tileCode i.tile0 + 2 ^ 58 * tileCode i.tile1

theorem keepWord_bits (i : RgnKeepI) :
    bits (keepWord i) 0 9 = i.vnum.val ∧ bits (keepWord i) 9 8 = i.vfirst.val ∧ bits (keepWord i) 17 6 = i.sfirst.val ∧
      bits (keepWord i) 23 7 = i.snum.val ∧ bits (keepWord i) 30 8 = i.pmask.toNat ∧ bits (keepWord i) 38 16 = i.jmask.toNat ∧
      bits (keepWord i) 54 4 = tileCode i.tile0 ∧ bits (keepWord i) 58 4 = tileCode i.tile1 ∧ bits (keepWord i) 62 2 = 0 := by
  have := i.pmask.isLt
  have := i.jmask.isLt
  have := tileCode_lt i.tile0
  have := tileCode_lt i.tile1
  unfold keepWord
  refine ⟨?_, ?_, ?_, ?_, ?_, ?_, ?_, ?_, ?_⟩ <;> rw [bits] <;> omega

theorem fin_beq_zero {n : Nat} [NeZero n] (k : Fin n) : (k == 0) = (k.val == 0) := by
  rw [Bool.eq_iff_iff, beq_iff_eq, beq_iff_eq, Fin.ext_iff, Fin.val_zero]

theorem decRgn_keep {i : RgnKeepI} (h : (Instr.rgnKeep i).wf = true) :
    decRgn (enc128 op i.g 1 0 0 0 0 0 (keepWord i)) = .ok (.rgnKeep i) := by
  have hr := longForm_enc128 (op := op) (g := i.g) 1 0 0 0 0 0 (keepWord i)
  generalize enc128 op i.g 1 0 0 0 0 0 (keepWord i) = r at hr ⊢
  obtain ⟨e0, e9, e17, e23, e30, e38, e54, e58, e62⟩ := keepWord_bits i
  simp only [Instr.wf, Bool.and_eq_true, fin_beq_zero] at h
  obtain ⟨⟨⟨⟨hv, hs⟩, hsum⟩, hp⟩, ht⟩ := h
  have hnum : ((i.vnum.val != 0 || i.vfirst.val == 0) && (i.snum.val != 0 || i.sfirst.val == 0) &&
      decide (i.sfirst.val + i.snum.val ≤ 64) && bits i.pmask.toNat 0 1 == 0) = true := by
    simp only [hv, hs, hsum, hp, Bool.and_self]
  have htiles : ((decide (8 ≤ tileCode i.tile0) || tileCode i.tile0 == 0) &&
      (decide (8 ≤ tileCode i.tile1) || tileCode i.tile1 == 0) &&
      (decide (tileCode i.tile0 < 8) || tileCode i.tile0 != tileCode i.tile1)) = true := by
    simp only [tileCode_keeps, tileCode_differ ht, Bool.and_self]
  simp [-Fin.ofNat_eq_cast, -Bool.and_eq_true, decRgn, hr.sub, hr.len, mzero, hr.m, show bits 0 0 8 = 0 from rfl, hr.ext, e0, e9,
    e17, e23, e30, e38, e54, e58, e62, hnum, htiles, noNw, hr.nw, unused, hr.a, hr.b, hr.c, noD, hr.d, hr.guard,
    keptTile_code]

theorem decRgn_end : decRgn (enc64 op g 2 0 0 0 0 0) = .ok (.rgnEnd ⟨g⟩) := by
  have hp := decPlain_enc (op := op) (g := g) (sub := 2)
  have hm : mzero (enc64 op g 2 0 0 0 0 0) 0 8 = .ok () := by simp [mzero, enc64, show bits 0 0 8 = 0 from rfl]
  have hsub : (enc64 op g 2 0 0 0 0 0).sub = 2 := rfl
  have hlen : (enc64 op g 2 0 0 0 0 0).len = 2 := rfl
  simp [decRgn, hsub, hlen, hm, hp]

theorem decRgn_abort {n : Src} (hn : n.trapNum = true) : decRgn (enc64 op g 3 0 0 n.code 0 0) = .ok (.rgnAbort ⟨g, n⟩) := by
  simp [decRgn, enc64, mzero, show bits 0 0 8 = 0 from rfl, noNw, trapNum_code hn, unused, noD]

theorem decRgn_status {d : Fin 64} : decRgn (enc64 op g 4 0 (sregCode d) 0 0 0) = .ok (.rgnStatus ⟨g, d⟩) := by
  simp [decRgn, enc64, mzero, show bits 0 0 8 = 0 from rfl, noNw, unused]

theorem bits_lt (x n k : Nat) : bits x n k < 2 ^ k := Nat.mod_lt _ (Nat.two_pow_pos k)

theorem wf_of_decRgn {i : Instr} (h : decRgn r = .ok i) : i.wf = true := by
  simp only [decRgn, bind_eq_ok] at h
  obtain ⟨-, -, -, -, -, -, h⟩ := h
  split at h
  · simp only [bind_eq_ok, Except.ok.injEq] at h
    obtain ⟨-, -, -, -, -, -, -, -, -, -, -, -, rfl⟩ := h
    rfl
  · simp only [bind_eq_ok, need_eq_ok, Bool.and_eq_true, decide_eq_true_eq, Except.ok.injEq] at h
    obtain ⟨-, ⟨⟨⟨⟨hvn, hv⟩, hs⟩, hsum⟩, hp⟩, -, ⟨-, ht⟩, -, -, -, -, -, -, -, -, -, -, -, -, rfl⟩ := h
    have hfirst : (Fin.ofNat 256 (bits r.ext 9 8)).val = bits r.ext 9 8 := Nat.mod_eq_of_lt (bits_lt _ _ _)
    have hnum : (Fin.ofNat 257 (bits r.ext 0 9)).val = bits r.ext 0 9 := Nat.mod_eq_of_lt hvn
    have hsfirst : (Fin.ofNat 64 (bits r.ext 17 6)).val = bits r.ext 17 6 := Nat.mod_eq_of_lt (bits_lt _ _ _)
    have hsnum : (Fin.ofNat 65 (bits r.ext 23 7)).val = bits r.ext 23 7 := Nat.mod_eq_of_lt (by omega)
    have hpm : (BitVec.ofNat 8 (bits r.ext 30 8)).toNat = bits r.ext 30 8 := Nat.mod_eq_of_lt (bits_lt _ _ _)
    have htiles := keptTile_differ (bits_lt r.ext 54 4) (bits_lt r.ext 58 4) ht
    simp only [Instr.wf, fin_beq_zero, hfirst, hnum, hsfirst, hsnum, hpm, hv, hs, hp, hsum, htiles, decide_true,
      Bool.and_self]
  · simp only [bind_eq_ok, Except.ok.injEq] at h
    obtain ⟨p, -, rfl⟩ := h
    rfl
  · simp only [bind_eq_ok, Except.ok.injEq] at h
    obtain ⟨-, -, n, hn, -, -, -, -, -, -, rfl⟩ := h
    exact trapNum_of_ok hn
  · simp only [bind_eq_ok, Except.ok.injEq] at h
    obtain ⟨-, -, d, -, -, -, -, -, -, -, rfl⟩ := h
    rfl

/-! ### Errata (R383) -/

section
variable {n a : Src} {w0 w1 : Fin 64} {d : Option (Fin 64)} {long : Bool}

theorem decErrp_post (hn : n.trapNum = true) :
    decErrp (encLong long op g 0 0 0 n.code (sregCode w0) (sregCode w1) 0) = .ok (.errpPost ⟨g, n, w0, w1, long⟩) := by
  have hr : LongForm (encLong long op g 0 0 0 n.code (sregCode w0) (sregCode w1) 0) long g 0 0 0 n.code (sregCode w0)
    (sregCode w1) 0 := longForm_encLong
  generalize encLong long op g 0 0 0 n.code (sregCode w0) (sregCode w1) 0 = r at hr ⊢
  simp [decErrp, sub0, hr.sub, hr.len64or128, mzero, hr.m, show bits 0 2 6 = 0 from rfl, show bits 0 0 2 = 0 from rfl, noNw, hr.nw,
    hr.a, trapNum_code hn, hr.b, hr.c, hr.ext, noD, hr.d, hr.guard, hr.isLong]

theorem decErrp_vec {k : Fin 64} :
    decErrp (encLong long op g 0 1 (optSregCode d) (Src.s k).code 0 0 0) = .ok (.errpVec ⟨g, d, .s k, long⟩) := by
  have hr : LongForm (encLong long op g 0 1 (optSregCode d) (Src.s k).code 0 0 0) long g 0 1 (optSregCode d) (sregCode k) 0 0 0 :=
    longForm_encLong
  generalize encLong long op g 0 1 (optSregCode d) (Src.s k).code 0 0 0 = r at hr ⊢
  simp [decErrp, sub0, hr.sub, hr.len64or128, mzero, hr.m, show bits 1 2 6 = 0 from rfl, show bits 1 0 2 = 1 from rfl, noNw, hr.nw,
    hr.a, unused, hr.b, hr.c, hr.ext, hr.d, hr.guard, hr.isLong]

theorem decErrp_mask (ha : a.sOrInt = true) :
    decErrp (encLong long op g 0 2 (optSregCode d) a.code 0 0 0) = .ok (.errpMask ⟨g, d, a, long⟩) := by
  have hr : LongForm (encLong long op g 0 2 (optSregCode d) a.code 0 0 0) long g 0 2 (optSregCode d) a.code 0 0 0 :=
    longForm_encLong
  generalize encLong long op g 0 2 (optSregCode d) a.code 0 0 0 = r at hr ⊢
  simp [decErrp, sub0, hr.sub, hr.len64or128, mzero, hr.m, show bits 2 2 6 = 0 from rfl, show bits 2 0 2 = 2 from rfl, noNw, hr.nw,
    hr.a, sOrInt_code ha, unused, hr.b, hr.c, hr.ext, hr.d, hr.guard, hr.isLong]

end

theorem wf_of_decErrp {i : Instr} (h : decErrp r = .ok i) : i.wf = true := by
  simp only [decErrp, bind_eq_ok] at h
  obtain ⟨-, -, -, -, -, -, -, -, -, -, h⟩ := h
  split at h
  · simp only [bind_eq_ok, Except.ok.injEq] at h
    obtain ⟨n, hn, w0, -, w1, -, -, -, -, -, rfl⟩ := h
    exact trapNum_of_ok hn
  · simp only [bind_eq_ok, Except.ok.injEq] at h
    obtain ⟨d, -, a, -, -, -, -, -, -, -, rfl⟩ := h
    rfl
  · simp only [bind_eq_ok, Except.ok.injEq] at h
    obtain ⟨d, -, a, ha, -, -, -, -, -, -, rfl⟩ := h
    exact sOrInt_of_ok ha

end
end Sys2Proof.Codec

namespace Sys2Proof.Codec

section
variable {op : Nat} {r : Raw} {g : Guard}

/-! ### System instructions (R345 to R352, R379) -/

/-- What csrr may write: a scalar, or a vector register, even for a 64-bit one (R346). -/
def csrrDst (srn : Nat) : Dst → Bool
  | .v k => !srIs64 srn || k.val % 2 == 0
  | .s _ => true
  | .b0 => false

theorem decCsrr_eq (r : Raw) : decCsrr r = sub0 r >>= fun _ => len64 r >>= fun _ => noNw r >>= fun _ => dst r >>= fun d =>
    need (match d with
      | .v x => !srIs64 r.m || x.val % 2 == 0
      | _ => true) .illegalOperand >>= fun _ => unused r.a >>= fun _ => unused r.b >>= fun _ => unused r.c >>= fun _ =>
    .ok ⟨r.guard, d, BitVec.ofNat 8 r.m⟩ := rfl

theorem decCsrr_enc {srn : BitVec 8} {d : Dst} (hd : csrrDst srn.toNat d = true) :
    decCsrr (enc64 op g 0 srn.toNat d.code 0 0 0) = .ok ⟨g, d, srn⟩ := by
  have hr : LongForm (enc64 op g 0 srn.toNat d.code 0 0 0) false g 0 srn.toNat d.code 0 0 0 0 := longForm_encLong (long := false)
  generalize enc64 op g 0 srn.toNat d.code 0 0 0 = r at hr ⊢
  cases d with
  | b0 => cases hd
  | v k =>
    have hdst : dst r = .ok (.v k) := dst_code hr.d hr.nw
    simp only [csrrDst] at hd
    simp [decCsrr_eq, sub0, hr.sub, len64, hr.len, noNw, hr.nw, hdst, hr.m, hd, unused, hr.a, hr.b, hr.c, hr.guard]
  | s k =>
    have hdst : dst r = .ok (.s k) := dst_code hr.d hr.nw
    simp [decCsrr_eq, sub0, hr.sub, len64, hr.len, noNw, hr.nw, hdst, hr.m, unused, hr.a, hr.b, hr.c, hr.guard]

theorem of_decCsrr {i : CsrrI} (hm : r.m < 256) (h : decCsrr r = .ok i) : csrrDst i.srn.toNat i.d = true := by
  simp only [decCsrr_eq, bind_eq_ok, need_eq_ok, Except.ok.injEq, noNw, beq_iff_eq] at h
  obtain ⟨-, -, -, -, -, hn, d, hd, -, hok, -, -, -, -, -, -, rfl⟩ := h
  have hm' : (BitVec.ofNat 8 r.m).toNat = r.m := Nat.mod_eq_of_lt hm
  obtain ⟨-, hnw⟩ := (dst_eq_ok (by omega)).1 hd
  cases d with
  | b0 => rw [hn] at hnw; cases hnw
  | v k => rw [csrrDst, hm']; exact hok
  | s k => rfl

/-- What csrw may read (R347). -/
def csrwSrc : Src → Bool
  | .s _ | .int _ | .lit _ | .win _ _ => true
  | _ => false

theorem decCsrw_eq (r : Raw) : decCsrw r = sub0 r >>= fun _ => len96 r >>= fun _ => noNw r >>= fun _ => srcCode r r.a >>= fun a =>
    need (csrwSrc a) .illegalOperand >>= fun _ => unused r.b >>= fun _ => unused r.c >>= fun _ => res96 r [r.a] >>= fun _ =>
    noD r >>= fun _ => .ok ⟨r.guard, BitVec.ofNat 8 r.m, a⟩ := rfl

theorem decCsrw_enc {srn : BitVec 8} {a : Src} (ha : csrwSrc a = true) :
    decCsrw ((enc64 op g 0 srn.toNat 0 a.code 0 0).withSrcs [a]) = .ok ⟨g, srn, a⟩ := by
  have hlen : len96 ((enc64 op g 0 srn.toNat 0 a.code 0 0).withSrcs [a]) = .ok () := len96_withSrcs rfl (by simp [enc64])
  have hsrc : srcCode ((enc64 op g 0 srn.toNat 0 a.code 0 0).withSrcs [a]) a.code = .ok a :=
    srcCode_code (holds_withSrcs (by simp) (by simp))
  have hres : res96 ((enc64 op g 0 srn.toNat 0 a.code 0 0).withSrcs [a]) [a.code] = .ok () :=
    res96_withSrcs rfl (by simp) rfl
  have hguard : (enc64 op g 0 srn.toNat 0 a.code 0 0).guard = g := guard_mk ..
  have hf : (enc64 op g 0 srn.toNat 0 a.code 0 0).a = a.code := rfl
  simp only [decCsrw_eq, sub0, noNw, unused, noD, withSrcs_sub, withSrcs_nw, withSrcs_a, withSrcs_b, withSrcs_c, withSrcs_d,
    withSrcs_m, withSrcs_guard, hlen, hf, hsrc, hres, hguard]
  simp [enc64, ha]

theorem of_decCsrw {i : CsrwI} (h : decCsrw r = .ok i) : csrwSrc i.a = true := by
  simp only [decCsrw_eq, bind_eq_ok, need_eq_ok, Except.ok.injEq] at h
  obtain ⟨-, -, -, -, -, -, a, -, -, ha, -, -, -, -, -, -, -, -, rfl⟩ := h
  exact ha

theorem decTrap_trap {n : Src} (hn : n.trapNum = true) : decTrap (enc64 op g 0 0 0 n.code 0 0) = .ok (.trap ⟨g, n⟩) := by
  simp [decTrap, enc64, len64, mzero, show bits 0 0 8 = 0 from rfl, noNw, trapNum_code hn, unused, noD]

theorem decTrap_tret : decTrap (enc64 op g 1 0 0 0 0 0) = .ok (.tret ⟨g⟩) := by
  have hp := decPlain_enc (op := op) (g := g) (sub := 1)
  have hsub : (enc64 op g 1 0 0 0 0 0).sub = 1 := rfl
  have hlen : (enc64 op g 1 0 0 0 0 0).len = 2 := rfl
  simp [decTrap, hsub, len64, hlen, hp]

theorem wf_of_decTrap {i : Instr} (h : decTrap r = .ok i) : i.wf = true := by
  simp only [decTrap, bind_eq_ok] at h
  obtain ⟨-, -, -, -, h⟩ := h
  split at h
  · simp only [bind_eq_ok, Except.ok.injEq] at h
    obtain ⟨p, -, rfl⟩ := h
    rfl
  · simp only [bind_eq_ok, Except.ok.injEq] at h
    obtain ⟨-, -, -, -, n, hn, -, -, -, -, -, -, rfl⟩ := h
    exact trapNum_of_ok hn

theorem decMigr_migr {a : Fin 64} : decMigr (enc64 op g 0 0 0 (sregCode a) 0 0) = .ok (.migr ⟨g, a⟩) := by
  simp [decMigr, enc64, len64, mzero, show bits 0 0 8 = 0 from rfl, noNw, unused, noD]

theorem decMigr_home : decMigr (enc64 op g 1 0 0 0 0 0) = .ok (.migrHome ⟨g⟩) := by
  have hp := decPlain_enc (op := op) (g := g) (sub := 1)
  have hsub : (enc64 op g 1 0 0 0 0 0).sub = 1 := rfl
  have hlen : (enc64 op g 1 0 0 0 0 0).len = 2 := rfl
  simp [decMigr, hsub, len64, hlen, hp]

theorem wf_of_decMigr {i : Instr} (h : decMigr r = .ok i) : i.wf = true := by
  simp only [decMigr, bind_eq_ok] at h
  obtain ⟨-, -, -, -, h⟩ := h
  split at h
  · simp only [bind_eq_ok, Except.ok.injEq] at h
    obtain ⟨p, -, rfl⟩ := h
    rfl
  · simp only [bind_eq_ok, Except.ok.injEq] at h
    obtain ⟨-, -, -, -, a, -, -, -, -, -, -, -, rfl⟩ := h
    rfl

section
variable {c v : Fin 64} {mv : Bool}

theorem flag_bits (b : Bool) : bits b.toNat 0 1 = b.toNat ∧ bits b.toNat 1 7 = 0 := by cases b <;> decide

theorem decTlbi_va : decTlbi (enc64 op g 0 mv.toNat 0 (sregCode c) (sregCode v) 0) = .ok (.tlbiVa ⟨g, c, v, mv⟩) := by
  obtain ⟨b0, b1⟩ := flag_bits mv
  simp [decTlbi, enc64, len64, mzero, b1, noNw, unused, noD, Raw.mbit, b0]

theorem decTlbi_ctx : decTlbi (enc64 op g 1 mv.toNat 0 (sregCode c) 0 0) = .ok (.tlbiCtx ⟨g, c, mv⟩) := by
  obtain ⟨b0, b1⟩ := flag_bits mv
  simp [decTlbi, enc64, len64, mzero, b1, noNw, unused, noD, Raw.mbit, b0]

theorem decTlbi_all : decTlbi (enc64 op g 2 mv.toNat 0 0 0 0) = .ok (.tlbiAll ⟨g, mv⟩) := by
  obtain ⟨b0, b1⟩ := flag_bits mv
  simp [decTlbi, enc64, len64, mzero, b1, noNw, unused, noD, Raw.mbit, b0]

theorem wf_of_decTlbi {i : Instr} (h : decTlbi r = .ok i) : i.wf = true := by
  simp only [decTlbi, bind_eq_ok] at h
  obtain ⟨-, -, -, -, -, -, -, -, h⟩ := h
  split at h
  · simp only [bind_eq_ok, Except.ok.injEq] at h
    obtain ⟨c, -, v, -, -, -, -, -, rfl⟩ := h
    rfl
  · simp only [bind_eq_ok, Except.ok.injEq] at h
    obtain ⟨c, -, -, -, -, -, -, -, rfl⟩ := h
    rfl
  · simp only [bind_eq_ok, Except.ok.injEq] at h
    obtain ⟨-, -, -, -, -, -, -, -, rfl⟩ := h
    rfl

theorem decCtxop_root : decCtxop (enc64 op g 0 0 0 (sregCode c) (sregCode v) 0) = .ok (.ctxopRoot ⟨g, c, v⟩) := by
  simp [decCtxop, enc64, len64, mzero, show bits 0 0 8 = 0 from rfl, noNw, unused, noD]

theorem decCtxop_drain : decCtxop (enc64 op g 1 0 0 (sregCode c) 0 0) = .ok (.ctxopDrain ⟨g, c⟩) := by
  simp [decCtxop, enc64, len64, mzero, show bits 0 0 8 = 0 from rfl, noNw, unused, noD]

theorem wf_of_decCtxop {i : Instr} (h : decCtxop r = .ok i) : i.wf = true := by
  simp only [decCtxop, bind_eq_ok] at h
  obtain ⟨-, -, -, -, -, -, -, -, c, -, h⟩ := h
  split at h
  · simp only [bind_eq_ok, Except.ok.injEq] at h
    obtain ⟨b, -, -, -, -, -, rfl⟩ := h
    rfl
  · simp only [bind_eq_ok, Except.ok.injEq] at h
    obtain ⟨-, -, -, -, -, -, rfl⟩ := h
    rfl

end
end
end Sys2Proof.Codec

namespace Sys2Proof.Codec

/-! ### The opcode map (R45), and the forms that many instructions share -/

/-- The opcode map sends the words of major k to a decoder. -/
def Major (k : Nat) (dec : Raw → Dec Instr) : Prop := ∀ r : Raw, decodeRaw { r with op := k } = dec { r with op := k }

theorem Major.decode {k : Nat} {dec : Raw → Dec Instr} {r : Raw} (h : Major k dec) (hop : r.op = k) : decodeRaw r = dec r := by
  subst hop
  exact h r

section
variable {α : Type} {op : Nat} {f : α → Instr} {dec : Raw → Dec α} {r : Raw} {i : α}

theorem reads_map (hm : Major op fun r => (dec r).map f) (hop : r.op = op) (hf : Fits r) (hd : dec r = .ok i) :
    Reads r (f i) := ⟨hf, by rw [hm.decode hop, hd]; rfl⟩

theorem reads_major {dec : Raw → Dec Instr} {i : Instr} (hm : Major op dec) (hop : r.op = op) (hf : Fits r)
    (hd : dec r = .ok i) : Reads r i := ⟨hf, by rw [hm.decode hop, hd]⟩

end

/-- An instruction has words, which the decoder reads back. -/
def Encodes (i : Instr) : Prop := ∃ r, i.toRaw = some r ∧ Reads r i

section
variable {op sub m c0 : Nat} {g : Guard} {d : Dst} {a b c : Src}

@[simp] theorem enc1_op : (enc1 op sub m g d a).op = op := by simp [enc1, enc64, Raw.withDst]
@[simp] theorem enc2_op : (enc2 op sub m g d a b c0).op = op := by simp [enc2, enc64, Raw.withDst]
@[simp] theorem enc3_op : (enc3 op sub m g d a b c).op = op := by simp [enc3, enc64, Raw.withDst]

@[simp] theorem encMem_op {sub2 m d a b : Nat} {x : Ext} : (encMem op sub2 g m d a b x).op = op := by
  unfold encMem
  split <;> rfl

@[simp] theorem encLong_op {long : Bool} {m d a b c x : Nat} : (encLong long op g sub m d a b c x).op = op := by
  cases long <;> rfl

theorem intM_byte_lt (x : IntM) : x.byte < 256 := by
  have := x.ty.code_lt
  have := x.sat.toNat_le
  unfold IntM.byte
  omega

theorem dotM_byte_lt (x : DotM) : x.byte < 256 := by
  have := x.sat.toNat_le
  have := x.hi.toNat_le
  have := x.ua.toNat_le
  have := x.ub.toNat_le
  unfold DotM.byte
  omega

theorem floatM_byte_lt (x : FM) : x.byte < 256 := by
  have := x.ft.code_lt
  have := x.rm.code_lt
  have := x.f5.toNat_le
  have := x.f6.toNat_le
  unfold FM.byte
  omega

theorem ty_byte_lt (x : Ty) : x.code < 256 := x.code_lt.trans (by decide)

end

section
variable {op : Nat} {p : IntSpec} {q : FSpec} {r : Raw}

theorem reads_I1 {i : Op1 IntM} {f : Op1 IntM → Instr} {satOk : Ty → Bool} (hop : op < 256)
    (hm : Major op fun r => (decI1 r p).map f) (hp : p.satZero = false ∧ p.satOk = satOk) (hw : wfI1 p.tyOk satOk i = true) :
    Reads (encI1 op i) (f i) :=
  reads_map hm enc1_op (fits_enc1 hop (by decide) (intM_byte_lt _)) (decI1_enc hw hp)

theorem reads_I2 {i : Op2 IntM} {f : Op2 IntM → Instr} (hop : op < 256) (hm : Major op fun r => (decI2 r p).map f)
    (hp : p.satZero = false ∧ ∀ t, p.satOk t = true) (hw : wfI2 p.tyOk i = true) : Reads (encI2 op i) (f i) :=
  reads_map hm enc2_op (fits_enc2 hop (by decide) (intM_byte_lt _) (by decide)) (decI2_enc hw hp)

theorem reads_I3 {i : Op3 IntM} {f : Op3 IntM → Instr} (hop : op < 256) (hm : Major op fun r => (decI3 r p).map f)
    (hp : p.satZero = false ∧ ∀ t, p.satOk t = true) (hw : wfI3 p.tyOk i = true) : Reads (encI3 op i) (f i) :=
  reads_map hm enc3_op (fits_enc3 hop (by decide) (intM_byte_lt _)) (decI3_enc hw hp)

theorem reads_T1 {i : Op1 Ty} {f : Op1 Ty → Instr} {s : Ty → Bool} (hop : op < 256) (hm : Major op fun r => (decT1 r p s).map f)
    (hw : wfT1 p.tyOk s i = true) : Reads (encT1 op i) (f i) :=
  reads_map hm enc1_op (fits_enc1 hop (by decide) (ty_byte_lt _)) (decT1_enc hw)

theorem reads_T2 {i : Op2 Ty} {f : Op2 Ty → Instr} {s : Ty → Bool} {pb : Ty → Pos} (hop : op < 256)
    (hm : Major op fun r => (sub0 r).bind fun _ => (decT2 r p s pb).map f) (hw : wfT2 p.tyOk s pb i = true) :
    Reads (encT2 op 0 i) (f i) := by
  have hs : sub0 (encT2 op 0 i) = .ok () := by simp [sub0, encT2]
  have hd := decT2_enc (op := op) (sub := 0) hw
  refine ⟨fits_enc2 hop (by decide) (ty_byte_lt _) (by decide), ?_⟩
  rw [hm.decode (show (encT2 op 0 i).op = op from enc2_op), hs, hd]
  rfl

theorem reads_T3 {i : Op3 Ty} {f : Op3 Ty → Instr} {pc : Ty → Pos} (hop : op < 256) (hm : Major op fun r => (decT3 r p pc).map f)
    (hw : wfT3 p.tyOk pc i = true) : Reads (encT3 op i) (f i) :=
  reads_map hm enc3_op (fits_enc3 hop (by decide) (ty_byte_lt _)) (decT3_enc hw)

/-- shr and shr.a share a major (R99). -/
theorem reads_shift {i : Op2 Ty} {x : Bool}
    (hw : wfT2 isWide0.tyOk res64 (fun _ => .i32) i = true) :
    Reads (encT2 0x17 x.toNat i) (if x then .shrA i else .shr i) := by
  have hd := decT2_enc (op := 0x17) (sub := x.toNat) hw
  refine ⟨fits_enc2 (by decide) (by have := x.toNat_le; omega) (ty_byte_lt _) (by decide), ?_⟩
  rw [Major.decode (k := 0x17) (dec := fun r => (need (decide (r.sub < 2)) .undefinedMinor).bind fun _ =>
    (decT2 r isWide0 res64 (fun _ => .i32)).map (if r.sub = 0 then .shr else .shrA)) (fun _ => rfl)
    (show (encT2 0x17 x.toNat i).op = 0x17 from enc2_op), hd]
  have hsub : (encT2 0x17 x.toNat i).sub = x.toNat := by simp [encT2]
  rw [hsub]
  cases x <;> rfl

theorem reads_F1 {i : Op1 FM} {f : Op1 FM → Instr} (hop : op < 256) (hm : Major op fun r => (decF1 r q).map f)
    (hw : wfF1 q i = true) : Reads (encF1 op i) (f i) :=
  reads_map hm enc1_op (fits_enc1 hop (by decide) (floatM_byte_lt _)) (decF1_enc hw)

theorem reads_F2 {i : Op2 FM} {f : Op2 FM → Instr} {pb : FT → Pos} (hop : op < 256) (hm : Major op fun r => (decF2 r q pb).map f)
    (hw : wfF2 q pb i = true) : Reads (encF2 op i) (f i) :=
  reads_map hm enc2_op (fits_enc2 hop (by decide) (floatM_byte_lt _) (by decide)) (decF2_enc hw)

theorem reads_F3 {i : Op3 FM} {f : Op3 FM → Instr} {pc : FT → Pos} (hop : op < 256) (hm : Major op fun r => (decF3 r q pc).map f)
    (hw : wfF3 q pc i = true) : Reads (encF3 op i) (f i) :=
  reads_map hm enc3_op (fits_enc3 hop (by decide) (floatM_byte_lt _)) (decF3_enc hw)

theorem reads_carry {i : CarryI} {f : CarryI → Instr} (hop : op < 256) (hm : Major op fun r => (decCarry r).map f)
    (hw : (i.ty.wide && i.a.okAt i.ty.pos && i.b.okAt i.ty.pos && dstInt i.d (i.ty.width == 64) [i.a, i.b] &&
      extAgree [i.a, i.b]) = true) : Reads (encCarry op i) (f i) := by
  obtain ⟨g, d, a, b, pc, ty, ci⟩ := i
  simp only [Bool.and_eq_true] at hw
  obtain ⟨⟨⟨⟨hty, ha⟩, hb⟩, hd⟩, he⟩ := hw
  have := ty.code_lt
  have := ci.toNat_le
  exact reads_map hm enc2_op (fits_enc2 hop (by decide) (by simp only; omega) (by simp only; omega)) (decCarry_enc hty ha hb hd he)

theorem reads_dot {i : Op3 DotM} {f : Op3 DotM → Instr} {x ub : Bool} (hop : op < 256)
    (hm : Major op fun r => (decDot r x ub).map f) (hhi : i.m.hi = true → x = true) (hub : i.m.ub = true → ub = true)
    (hw : (i.a.okAt .i32 && i.b.okAt .i32 && i.c.okAt .i32 && dstInt i.d false [i.a, i.b, i.c] && extAgree [i.a, i.b, i.c]) =
      true) : Reads (encDot op i) (f i) := by
  simp only [Bool.and_eq_true] at hw
  obtain ⟨⟨⟨⟨ha, hb⟩, hc⟩, hd⟩, he⟩ := hw
  exact reads_map hm enc3_op (fits_enc3 hop (by decide) (dotM_byte_lt _)) (decDot_enc hhi hub ha hb hc hd he)

theorem reads_load {i : LoadI} {f : LoadI → Instr} {global scope cp scalarOk privateSpace : Bool} (hop : op < 256)
    (hm : Major op fun r => (decLoad r global scope cp scalarOk privateSpace).map f)
    (hw : wfLoad global scope cp scalarOk privateSpace i = true) : Reads (encLoad op i) (f i) := by
  obtain ⟨g, d, base, idx, sc, ip, w, ord, x⟩ := i
  have := w.code_lt
  have := ip.toNat_le
  have := ord.loadCode_lt
  exact reads_map hm encMem_op (fits_encMem hop d.code_lt base.code_lt idx.code_lt (by decide) (by simp only; omega))
    (decLoad_enc hw)

theorem reads_store {i : StoreI} {f : StoreI → Instr} {global scope cp privateSpace : Bool} (hop : op < 256)
    (hm : Major op fun r => (decStore r global scope cp privateSpace).map f)
    (hw : wfStore global scope cp privateSpace i = true) : Reads (encStore op i) (f i) := by
  obtain ⟨g, data, base, idx, sc, ip, w, ord, x⟩ := i
  have := w.code_lt
  have := ip.toNat_le
  have := ord.storeCode_lt
  exact reads_map hm encMem_op (fits_encMem hop data.code_lt base.code_lt idx.code_lt (by decide) (by simp only; omega))
    (decStore_enc hw)

theorem reads_atom {i : AtomI} {f : AtomI → Instr} {global : Bool} (hop : op < 256)
    (hm : Major op fun r => (decAtom r global).map f)
    (hw : (addrOk global i.base i.idx false && atomDst i.d i.base i.idx i.op && i.ord.atomOk && i.x.ok true true false global) =
      true) : Reads (encAtom op i) (f i) := by
  obtain ⟨g, d, base, idx, aop, ord, x⟩ := i
  simp only [Bool.and_eq_true] at hw
  obtain ⟨⟨⟨haddr, hd⟩, ho⟩, hx⟩ := hw
  have := aop.code_lt
  have := ord.code_lt
  exact reads_map hm encMem_op (fits_encMem hop d.code_lt base.code_lt idx.code_lt (by decide) (by simp only; omega))
    (decAtom_enc haddr hd ho hx)

theorem reads_red {i : RedI} {f : RedI → Instr} {global : Bool} (hop : op < 256)
    (hm : Major op fun r => (decRed r global).map f)
    (hw : (addrOk global i.base i.idx false && storeData i.data (if i.op.is64 then .b64 else .b32) && i.ord.redOk &&
      i.x.ok true true true global) = true) : Reads (encRed op i) (f i) := by
  obtain ⟨g, data, base, idx, aop, ord, x⟩ := i
  simp only [Bool.and_eq_true] at hw
  obtain ⟨⟨⟨haddr, hd⟩, ho⟩, hx⟩ := hw
  have := aop.code_lt
  have := ord.code_lt
  exact reads_map hm encMem_op (fits_encMem hop data.code_lt base.code_lt idx.code_lt (by decide) (by simp only; omega))
    (decRed_enc haddr hd ho hx)

theorem reads_cas {i : CasI} {f : CasI → Instr} {global : Bool} (hop : op < 256)
    (hm : Major op fun r => (decCas r global).map f)
    (hw : (addrOk global i.base i.idx false && (i.d.val % (if i.w64 then 4 else 2) == 0) && i.ord.atomOk &&
      i.x.ok true true false global) = true) : Reads (encCas op i) (f i) := by
  obtain ⟨g, d, base, idx, w64, ord, x⟩ := i
  simp only [Bool.and_eq_true, beq_iff_eq] at hw
  obtain ⟨⟨⟨haddr, hd⟩, ho⟩, hx⟩ := hw
  have := w64.toNat_le
  have := ord.code_lt
  exact reads_map hm encMem_op (fits_encMem hop (by simp only; omega) base.code_lt idx.code_lt (by decide) (by simp only; omega))
    (decCas_enc haddr hd ho hx)

/-- Forms with no operand but one of the rejoin sets, or a target, or the guard alone (R287 to R297). -/
theorem reads_set {i : JsetI} {f : JsetI → Instr} (hop : op < 256) (hm : Major op fun r => (decJset r).map f) :
    Reads (enc64 op i.g 0 0 i.j.val 0 0 0) (f i) :=
  reads_map hm rfl (fits_enc64 hop (by omega) (by decide) (by decide) (by decide) (by decide) (by decide)) decJset_enc

theorem reads_jump {i : JumpI} {f : JumpI → Instr} (hop : op < 256) (hm : Major op fun r => (decJump r).map f)
    (hw : targetOk i.target = true) : Reads (enc64 op i.g 0 0 0 i.target.code 0 0) (f i) :=
  reads_map hm rfl (fits_enc64 hop (by decide) i.target.code_lt (by decide) (by decide) (by decide) (by decide)) (decJump_enc hw)

theorem reads_jmem {i : JmemI} {f : JmemI → Instr} (hop : op < 256) (hm : Major op fun r => (decJmem r).map f)
    (hw : i.slot.sOrInt = true) : Reads (enc64 op i.g 0 0 i.j.val (sregCode i.base) i.slot.code 0) (f i) :=
  reads_map hm rfl (fits_enc64 hop (by omega) (sregCode_lt _) i.slot.code_lt (by decide) (by decide) (by decide)) (decJmem_enc hw)

theorem reads_plain {i : PlainI} {f : PlainI → Instr} (hop : op < 256)
    (hm : Major op fun r => (ctlHead r).bind fun _ => (decPlain r).map f) : Reads (enc64 op i.g 0 0 0 0 0 0) (f i) := by
  refine ⟨fits_enc64 hop (by decide) (by decide) (by decide) (by decide) (by decide) (by decide), ?_⟩
  rw [hm.decode (show (enc64 op i.g 0 0 0 0 0 0).op = op from rfl), ctlHead_enc, decPlain_enc]
  rfl

end
end Sys2Proof.Codec

namespace Sys2Proof.Codec

/-! ### Every well-formed instruction has words that are read back (R26) -/

section
variable {op : Nat} {r : Raw}

theorem encodes {i : Instr} {r : Raw} (ht : i.toRaw = some r) (hr : Reads r i) : Encodes i := ⟨r, ht, hr⟩

theorem encodes_bfn {i : Op3 (BitVec 8)} (h : (Instr.bfn i).wf = true) : Encodes (.bfn i) := by
  obtain ⟨g, d, a, b, c, lut⟩ := i
  have hw : (a.okAt (bfnPos d) && b.okAt (bfnPos d) && c.okAt (bfnPos d) && dstInt d false [a, b, c] && extAgree [a, b, c]) =
    true := h
  simp only [Bool.and_eq_true] at hw
  obtain ⟨⟨⟨⟨ha, hb⟩, hc⟩, hd⟩, he⟩ := hw
  exact encodes rfl (reads_map (fun _ => rfl) enc3_op (fits_enc3 (by decide) (by decide) lut.isLt) (decBfn_enc ha hb hc hd he))

theorem encodes_shf {i : Op3 ShfM} (h : (Instr.shf i).wf = true) : Encodes (.shf i) := by
  obtain ⟨g, d, a, b, c, ty, x⟩ := i
  simp only [Instr.wf, Bool.and_eq_true] at h
  obtain ⟨⟨⟨⟨⟨hty, ha⟩, hb⟩, hc⟩, hd⟩, he⟩ := h
  have := ty.code_lt
  have := x.toNat_le
  exact encodes rfl (reads_map (fun _ => rfl) enc3_op (fits_enc3 (by decide) (by decide) (by simp only; omega))
    (decShf_enc hty ha hb hc hd he))

theorem encodes_bsel {i : Op3 Unit} (h : (Instr.bsel i).wf = true) : Encodes (.bsel i) := by
  obtain ⟨g, d, a, b, c, u⟩ := i
  simp only [Instr.wf, Bool.and_eq_true] at h
  obtain ⟨⟨⟨⟨ha, hb⟩, hc⟩, hd⟩, he⟩ := h
  exact encodes rfl (reads_map (fun _ => rfl) enc3_op (fits_enc3 (by decide) (by decide) (by decide)) (decBsel_enc ha hb hc hd he))

theorem encodes_setp {i : SetpI} (h : (Instr.setp i).wf = true) : Encodes (.setp i) := by
  obtain ⟨g, pd, a, b, cc, ty, cb, pc⟩ := i
  simp only [Instr.wf, Bool.and_eq_true] at h
  obtain ⟨⟨⟨ha, hb⟩, he⟩, hc⟩ := h
  have := cc.code_lt
  have := ty.code_lt
  have := cb.code_lt
  exact encodes rfl (reads_map (fun _ => rfl) withSrcs_op (fits_withSrcs (fits_enc64 (by decide) (by omega) a.code_lt b.code_lt
    (by omega) (by simp only; omega) (by simp only; omega))) (decSetp_enc ha hb he hc))

theorem encodes_sel {i : SelI} (h : (Instr.sel i).wf = true) : Encodes (.sel i) := by
  obtain ⟨g, d, a, b, pc, ty⟩ := i
  simp only [Instr.wf, Bool.and_eq_true] at h
  obtain ⟨⟨⟨⟨hty, ha⟩, hb⟩, hd⟩, he⟩ := h
  exact encodes rfl (reads_map (fun _ => rfl) enc2_op (fits_enc2 (by decide) (by decide) (ty_byte_lt _) (by omega))
    (decSel_enc hty ha hb hd he))

theorem encodes_pfn (i : PfnI) : Encodes (.pfn i) := by
  obtain ⟨g, pd, pa, pb, pc, lut⟩ := i
  exact encodes rfl (reads_map (fun _ => rfl) rfl (fits_enc64 (by decide) (by omega) (by omega) (by omega) (by omega) (by decide)
    lut.isLt) decPfn_enc)

theorem encodes_movp (i : MovpI) : Encodes (.movp i) := by
  obtain ⟨g, d, k⟩ := i
  exact encodes rfl (reads_major (dec := decMovp) (fun _ => rfl) rfl (fits_withDst (fits_enc64 (by decide) (by decide) (by omega) (by decide)
    (by decide) (by decide) (by decide))) decMovp_enc)

theorem encodes_movpTo {i : MovpToI} (h : i.a.okAt .i32 = true) : Encodes (.movpTo i) := by
  obtain ⟨g, k, a⟩ := i
  exact encodes rfl (reads_major (dec := decMovp) (fun _ => rfl) withSrcs_op (fits_withSrcs (fits_enc64 (by decide) (by omega) a.code_lt (by decide)
    (by decide) (by decide) (by decide))) (decMovp_to h))

theorem fits_encSethi {s : Nat} (i : SethiI) (hs : s < 32) : Fits (encSethi s i) :=
  fits_enc64 (by decide) (sregCode_lt _) (bits_lt _ _ _) (bits_lt _ _ _) ((bits_lt _ _ _).trans (by decide)) hs (by decide)

theorem encodes_lea {i : Op3 LeaM} (h : (Instr.lea i).wf = true) : Encodes (.lea i) := by
  obtain ⟨g, d, a, b, c, n, sh⟩ := i
  simp only [Instr.wf, Bool.and_eq_true] at h
  obtain ⟨⟨⟨⟨ha, hb⟩, hc⟩, hd⟩, he⟩ := h
  have := n.toNat_le
  exact encodes rfl (reads_map (fun _ => rfl) enc3_op (fits_enc3 (by decide) (by decide) (by simp only; omega))
    (decLea_enc ha hb hc hd he))

theorem encodes_idot4 {i : Op3 DotM} (h : (Instr.idot4 i).wf = true) : Encodes (.idot4 i) := by
  simp only [Instr.wf, Bool.and_assoc] at h
  obtain ⟨hhi, hw⟩ := Bool.and_eq_true_iff.1 h
  exact encodes rfl (reads_dot (by decide) (fun _ => rfl) (by simpa using hhi) (fun _ => rfl) (by simpa only [Bool.and_assoc]))

theorem encodes_idot2 {i : Op3 DotM} (h : (Instr.idot2 i).wf = true) : Encodes (.idot2 i) :=
  encodes rfl (reads_dot (by decide) (fun _ => rfl) (fun _ => rfl) (fun _ => rfl) h)

theorem encodes_tacc {i : Op3 DotM} (h : (Instr.tacc i).wf = true) : Encodes (.tacc i) := by
  simp only [Instr.wf, Bool.and_assoc] at h
  obtain ⟨hhi, hw⟩ := Bool.and_eq_true_iff.1 h
  obtain ⟨hub, hw⟩ := Bool.and_eq_true_iff.1 hw
  exact encodes rfl (reads_dot (by decide) (fun _ => rfl) (by simpa using hhi) (by simpa using hub) (by simpa only [Bool.and_assoc]))

/-! Floating comparisons and expansions (R120, R121, R133 to R142). -/

theorem encodes_fsetp {i : FsetpI} (h : (Instr.fsetp i).wf = true) : Encodes (.fsetp i) := by
  obtain ⟨g, pd, a, b, cc, ft, cb, pc⟩ := i
  simp only [Instr.wf, Bool.and_eq_true] at h
  obtain ⟨⟨⟨⟨hft, ha⟩, hb⟩, he⟩, hc⟩ := h
  have := cc.code_lt
  have := ft.code_lt
  have := cb.code_lt
  exact encodes rfl (reads_map (fun _ => rfl) withSrcs_op (fits_withSrcs (fits_enc64 (by decide) (by omega) a.code_lt b.code_lt
    (by omega) (by simp only; omega) (by simp only; omega))) (decFsetp_enc hft ha hb he hc))

theorem encodes_fclass {i : FclassI} (h : (Instr.fclass i).wf = true) : Encodes (.fclass i) := by
  obtain ⟨g, pd, a, b, ft⟩ := i
  simp only [Instr.wf, Bool.and_eq_true] at h
  obtain ⟨⟨⟨hft, ha⟩, hb⟩, he⟩ := h
  have := ft.code_lt
  exact encodes rfl (reads_map (fun _ => rfl) withSrcs_op (fits_withSrcs (fits_enc64 (by decide) (by omega) a.code_lt b.code_lt
    (by decide) (by decide) (by simp only; omega))) (decFclass_enc hft ha hb he))

theorem reads_X2 {i : Op2 XT} {f : Op2 XT → Instr} (hop : op < 256) (hm : Major op fun r => (decX2 r).map f)
    (h : (i.d.alignedV 2 && i.a.okAt i.m.pos && i.b.okAt i.m.pos && extAgree [i.a, i.b]) = true) :
    Reads (enc2 op 0 i.m.code i.g i.d i.a i.b 0) (f i) := by
  simp only [Bool.and_eq_true] at h
  obtain ⟨⟨⟨hd, ha⟩, hb⟩, he⟩ := h
  exact reads_map hm enc2_op (fits_enc2 hop (by decide) (i.m.code_lt.trans (by decide)) (by decide)) (decX2_enc hd ha hb he)

theorem encodes_fmaE {i : Op3 XT} (h : (Instr.fmaE i).wf = true) : Encodes (.fmaE i) := by
  simp only [Instr.wf, Bool.and_eq_true] at h
  obtain ⟨⟨⟨⟨hd, ha⟩, hb⟩, hc⟩, he⟩ := h
  exact encodes rfl (reads_map (fun _ => rfl) enc3_op (fits_enc3 (by decide) (by decide) (i.m.code_lt.trans (by decide)))
    (decX3_enc hd ha hb hc he))

theorem encodes_xren {i : XrenI} (h : (Instr.xren i).wf = true) : Encodes (.xren i) := by
  obtain ⟨g, d, a, t, n⟩ := i
  simp only [Instr.wf, Bool.and_eq_true] at h
  obtain ⟨⟨hn, hd⟩, ha⟩ := h
  have := t.code_lt
  exact encodes rfl (reads_map (fun _ => rfl) rfl (fits_enc64 (by decide) (by omega) (by omega) (by decide) (by decide) (by decide)
    (by simp only; omega)) (decXren_enc hn hd ha))

theorem encodes_xcmpr {i : XcmprI} (h : (Instr.xcmpr i).wf = true) : Encodes (.xcmpr i) := by
  obtain ⟨g, d, a, t, n, k, mode⟩ := i
  simp only [Instr.wf, Bool.and_eq_true, decide_eq_true_eq] at h
  obtain ⟨⟨⟨hn, hk⟩, hd⟩, ha⟩ := h
  have := t.code_lt
  have := mode.code_lt
  exact encodes rfl (reads_map (fun _ => rfl) rfl (fits_enc64 (by decide) (by omega) (by omega) (by decide) (by decide) (by decide)
    (by simp only; omega)) (decXcmpr_enc hn hk hd ha))

theorem encodes_xcmp {i : XcmpI} (h : (Instr.xcmp i).wf = true) : Encodes (.xcmp i) := by
  obtain ⟨g, pd, a, b, t, n, cc⟩ := i
  simp only [Instr.wf, Bool.and_eq_true] at h
  obtain ⟨⟨hn, ha⟩, hb⟩ := h
  have := t.code_lt
  have := cc.code_lt
  exact encodes rfl (reads_map (fun _ => rfl) rfl (fits_enc64 (by decide) (by omega) (by omega) (by omega) (by decide) (by decide)
    (by simp only; omega)) (decXcmp_enc hn ha hb))

theorem wf_xadd (i : XaddI) : (Instr.xadd i).wf =
    (i.na != 0 && expAligned i.d i.na && expAligned i.a i.na && xaddOk i.b i.t i.nb.val) := by
  have h : (i.nb.val = 0) = (i.nb = 0) := by rw [Fin.ext_iff]; rfl
  simp only [xaddOk, h]
  rfl

theorem encodes_xadd {i : XaddI} (h : (Instr.xadd i).wf = true) : Encodes (.xadd i) := by
  obtain ⟨g, d, a, b, t, n, k⟩ := i
  simp only [wf_xadd, Bool.and_eq_true] at h
  obtain ⟨⟨⟨hn, hd⟩, ha⟩, hb⟩ := h
  have := t.code_lt
  exact encodes rfl (reads_map (fun _ => rfl) withSrcs_op (fits_withSrcs (fits_enc64 (by decide) (by omega) (by omega) b.code_lt
    (by decide) (by decide) (by simp only; omega))) (decXadd_enc hn hd ha hb))

theorem encodes_xmulW {i : XmulI} (h : (Instr.xmulW i).wf = true) : Encodes (.xmulW i) := by
  obtain ⟨g, d, a, b, t, n⟩ := i
  simp only [Instr.wf, Bool.and_eq_true] at h
  obtain ⟨⟨⟨hn, hd⟩, ha⟩, hb⟩ := h
  have := t.code_lt
  exact encodes rfl (reads_map (fun _ => rfl) withSrcs_op (fits_withSrcs (fits_enc64 (by decide) (by omega) (by omega) b.code_lt
    (by decide) (by decide) (by simp only; omega))) (decXmul_enc hn hd ha hb))

end
end Sys2Proof.Codec

namespace Sys2Proof.Codec

/-! Conversions (R123 to R142) and lane operations (R143 to R148). -/

section
variable {op : Nat} {r : Raw}

theorem encodes_cvt {i : Op1 CvtM} (h : (Instr.cvt i).wf = true) : Encodes (.cvt i) := by
  obtain ⟨g, d, a, m⟩ := i
  have := m.dt.code_lt
  have := m.st.code_lt
  have := m.rm.code_lt
  have := m.sat.toNat_le
  exact encodes rfl (reads_map (fun _ => rfl) withSrcs_op (fits_withSrcs (fits_withDst (fits_enc64 (by decide) (by decide)
    a.code_lt (by decide) (by simp only; omega) (by decide) (by simp only; omega)))) (decCvt_enc h))

theorem encodes_cvtN {i : CvtNI} (h : (Instr.cvtN i).wf = true) : Encodes (.cvtN i) := by
  obtain ⟨g, d, a, x, w, dir⟩ := i
  have := w.code_lt
  have := x.toNat_le
  cases dir with
  | narrow b mode y z =>
    have := mode.code_lt
    have := y.toNat_le
    have := z.toNat_le
    simp only [Instr.wf, Bool.and_eq_true] at h
    obtain ⟨hd, ⟨ha, hb⟩, he⟩ := h
    exact encodes rfl (reads_map (fun _ => rfl) enc2_op (fits_enc2 (by decide) (by decide) (by simp only; omega) (by decide))
      (decCvtN_narrow hd ha hb he))
  | widen sel =>
    simp only [Instr.wf, Bool.and_eq_true] at h
    obtain ⟨hd, ha⟩ := h
    exact encodes rfl (reads_map (fun _ => rfl) enc1_op (fits_enc1 (by decide) (by decide) (by simp only; omega))
      (decCvtN_widen hd ha))

theorem reads_cvtSr_word {g : Guard} {d : Dst} {a c : Src} (x : Bool)
    (h : (Instr.cvtSr ⟨g, d, a, c, if x then .bf16 else .f16⟩).wf = true) :
    Reads (((enc64 0x82 g 0 x.toNat 0 a.code 0 c.code).withDst d).withSrcs [a, c])
      (.cvtSr ⟨g, d, a, c, if x then .bf16 else .f16⟩) := by
  have := x.toNat_le
  have hw : (dstVec d && a.okAt .f32 && c.okAt .i32 && extAgree [a, c]) = true := by cases x <;> exact h
  simp only [Bool.and_eq_true] at hw
  obtain ⟨⟨⟨hd, ha⟩, hc⟩, he⟩ := hw
  exact reads_map (fun _ => rfl) withSrcs_op (fits_withSrcs (fits_withDst (fits_enc64 (by decide) (by decide) a.code_lt (by decide)
    c.code_lt (by decide) (by omega)))) (decCvtSr_word hd ha hc he)

theorem encodes_cvtSr {i : CvtSrI} (h : (Instr.cvtSr i).wf = true) : Encodes (.cvtSr i) := by
  obtain ⟨g, d, a, c, dest⟩ := i
  cases dest with
  | f16 => exact encodes rfl (reads_cvtSr_word false h)
  | bf16 => exact encodes rfl (reads_cvtSr_word true h)
  | byte x b y z =>
    have := x.toNat_le
    have := y.toNat_le
    have := z.toNat_le
    simp only [Instr.wf, Bool.and_eq_true] at h
    obtain ⟨⟨⟨hd, ha⟩, hc⟩, hb, he⟩ := h
    exact encodes rfl (reads_map (fun _ => rfl) enc3_op (fits_enc3 (by decide) (by decide) (by omega))
      (decCvtSr_byte hd ha hb hc he))

theorem encodes_cvtBlkDecode {i : CvtBlkDecI} (h : (Instr.cvtBlkDecode i).wf = true) : Encodes (.cvtBlkDecode i) := by
  obtain ⟨g, d, a, s, nf, sel⟩ := i
  have hw : (a.okAt .narrow && (d.val % blkGrp nf == 0)) = true := by cases nf <;> exact h
  simp only [Bool.and_eq_true, beq_iff_eq] at hw
  obtain ⟨ha, hd⟩ := hw
  have := nf.code_lt
  exact encodes rfl (reads_major (fun _ => rfl) rfl (fits_enc64 (by decide) (by omega) a.code_lt (by omega) (by decide) (by decide)
    (by simp only; omega)) (decCvtBlk_decode ha hd))

theorem encodes_cvtBlkEncode {i : CvtBlkEncI} (h : (Instr.cvtBlkEncode i).wf = true) : Encodes (.cvtBlkEncode i) := by
  obtain ⟨g, d, a, s, nf, sel, auto, mode, ovf⟩ := i
  have hw : ((a.val % blkGrp nf == 0) && !(ovf && nf == .e2m1) && dstBlk d auto) = true := by cases nf <;> cases d <;> exact h
  simp only [Bool.and_eq_true, beq_iff_eq] at hw
  obtain ⟨⟨ha, ho⟩, hd⟩ := hw
  have := nf.code_lt
  have := auto.toNat_le
  have := ovf.toNat_le
  have := mode.code_lt
  exact encodes rfl (reads_major (dec := decCvtBlk) (fun _ => rfl) rfl (fits_withDst (fits_enc64 (by decide) (by decide) (by omega)
    (by omega) (by simp only; omega) (by decide) (by simp only; omega))) (decCvtBlk_encode ha ho hd))

theorem encodes_cvtX2 {i : CvtX2I} (h : (Instr.cvtX2 i).wf = true) : Encodes (.cvtX2 i) := by
  cases i with
  | toX2 g d a =>
    simp only [Instr.wf, Bool.and_eq_true, beq_iff_eq] at h
    obtain ⟨hd, ha⟩ := h
    exact encodes rfl (reads_map (fun _ => rfl) withSrcs_op (fits_withSrcs (fits_enc64 (by decide) (by omega) a.code_lt (by decide)
      (by decide) (by decide) (by decide))) (decCvtX2_toX2 hd ha))
  | toF64 g d a mode =>
    simp only [Instr.wf, Bool.and_eq_true, beq_iff_eq] at h
    obtain ⟨hd, ha⟩ := h
    have := mode.code_lt
    exact encodes rfl (reads_map (fun _ => rfl) rfl (fits_enc64 (by decide) (by omega) (by omega) (by decide) (by decide) (by decide)
      (by omega)) (decCvtX2_toF64 hd ha))

theorem encodes_unpkT3 {i : UnpkI} (h : i.a.okAt .narrow = true) : Encodes (.unpkT3 i) := by
  obtain ⟨g, d, a, pd⟩ := i
  have ht : (Instr.unpkT3 ⟨g, d, a, pd⟩).toRaw = some (enc64 0x85 g 0 (unpkByte pd) d.val a.code 0 0) := by cases pd <;> rfl
  have hm : unpkByte pd < 256 := by cases pd <;> simp only [unpkByte] <;> omega
  exact encodes ht (reads_map (fun _ => rfl) rfl (fits_enc64 (by decide) (by omega) a.code_lt (by decide) (by decide) (by decide) hm)
    (decUnpk_enc h))

/-- The fields of a pack's modifier byte: its pair, a rounding, saturation, half (R141). -/
theorem reads_pack {g : Guard} {d : Dst} {a b : Src} {p mode : Nat} {sat hi : Bool} (hp : p < 6) (hmode : mode < 4)
    (hm : (decide (p < 2) || mode == 0) = true) (hs : (decide (2 ≤ p) || !sat) = true) (hh : (decide (4 ≤ p) || !hi) = true)
    (hw : (dstVec d && (a.okAt (packPos p) && b.okAt (packPos p)) && extAgree [a, b]) = true) :
    Reads (enc2 0x86 0 (p + 8 * mode + 32 * sat.toNat + 64 * hi.toNat) g d a b 0) (.pack ⟨g, d, a, b, packOf p mode sat hi⟩) := by
  simp only [Bool.and_eq_true] at hw
  obtain ⟨⟨hd, ha, hb⟩, he⟩ := hw
  have := sat.toNat_le
  have := hi.toNat_le
  exact reads_map (fun _ => rfl) enc2_op (fits_enc2 (by decide) (by decide) (by omega) (by decide))
    (decPack_fields hp hmode hm hs hh hd ha hb he)

theorem encodes_pack {i : Op2 PackP} (h : (Instr.pack i).wf = true) : Encodes (.pack i) := by
  obtain ⟨g, d, a, b, m⟩ := i
  cases m with
  | f16x2 mode =>
    have hr := reads_pack (g := g) (p := 0) (sat := false) (hi := false) (by decide) (mode.code_lt) rfl rfl rfl h
    simp only [packOf, RM.ofCode_code] at hr
    exact encodes (by simp [Instr.toRaw]) hr
  | bf16x2 mode =>
    have hr := reads_pack (g := g) (p := 1) (sat := false) (hi := false) (by decide) (mode.code_lt) rfl rfl rfl h
    simp only [packOf, RM.ofCode_code] at hr
    exact encodes (by simp [Instr.toRaw]) hr
  | i16x2 sat =>
    have hr := reads_pack (g := g) (p := 2) (mode := 0) (sat := sat) (hi := false) (by decide) (by decide) rfl rfl rfl h
    exact encodes (by simp [Instr.toRaw]) hr
  | n16x2 sat =>
    have hr := reads_pack (g := g) (p := 3) (mode := 0) (sat := sat) (hi := false) (by decide) (by decide) rfl rfl rfl h
    exact encodes (by simp [Instr.toRaw]) hr
  | i8 sat hi =>
    have hr := reads_pack (g := g) (p := 4) (mode := 0) (sat := sat) (hi := hi) (by decide) (by decide) rfl rfl rfl h
    exact encodes (by simp [Instr.toRaw]) hr
  | n8 sat hi =>
    have hr := reads_pack (g := g) (p := 5) (mode := 0) (sat := sat) (hi := hi) (by decide) (by decide) rfl rfl rfl h
    exact encodes (by simp [Instr.toRaw]) hr

theorem reads_unpack {g : Guard} {d : Dst} {a : Src} {p sel : Nat} (hp : p < 6) (hsel : sel < 4)
    (hs : (decide (4 ≤ p) || decide (sel < 2)) = true) (hw : (dstVec d && a.okAt (unpackPos p)) = true) :
    Reads (enc1 0x87 0 (p + 8 * sel) g d a) (.unpack ⟨g, d, a, unpackOf p sel⟩) := by
  obtain ⟨hd, ha⟩ := Bool.and_eq_true_iff.1 hw
  exact reads_map (fun _ => rfl) enc1_op (fits_enc1 (by decide) (by decide) (by omega)) (decUnpack_fields hp hsel hs hd ha)

theorem encodes_unpack {i : Op1 UnpackP} (h : (Instr.unpack i).wf = true) : Encodes (.unpack i) := by
  obtain ⟨g, d, a, m⟩ := i
  have low (e : Fin 2) (p : Nat) : (decide (4 ≤ p) || decide (e.val < 2)) = true := by simp [e.isLt]
  cases m with
  | f16 e =>
    have hr := reads_unpack (g := g) (p := 0) (by decide) (by omega) (low e 0) h
    simp only [unpackOf, ofNat_val] at hr
    exact encodes (by simp [Instr.toRaw]) hr
  | bf16 e =>
    have hr := reads_unpack (g := g) (p := 1) (by decide) (by omega) (low e 1) h
    simp only [unpackOf, ofNat_val] at hr
    exact encodes (by simp [Instr.toRaw]) hr
  | i16 e =>
    have hr := reads_unpack (g := g) (p := 2) (by decide) (by omega) (low e 2) h
    simp only [unpackOf, ofNat_val] at hr
    exact encodes (by simp [Instr.toRaw]) hr
  | n16 e =>
    have hr := reads_unpack (g := g) (p := 3) (by decide) (by omega) (low e 3) h
    simp only [unpackOf, ofNat_val] at hr
    exact encodes (by simp [Instr.toRaw]) hr
  | i8 e =>
    have hr := reads_unpack (g := g) (p := 4) (by decide) e.isLt rfl h
    simp only [unpackOf, ofNat_val] at hr
    exact encodes (by simp [Instr.toRaw]) hr
  | n8 e =>
    have hr := reads_unpack (g := g) (p := 5) (by decide) e.isLt rfl h
    simp only [unpackOf, ofNat_val] at hr
    exact encodes (by simp [Instr.toRaw]) hr

theorem encodes_xlane {i : XlaneI} (h : i.b.okAt .i32 = true) : Encodes (.xlane i) := by
  obtain ⟨g, d, a, b, mode, seg, pd⟩ := i
  have := mode.code_lt
  have := pd.isSome.toNat_le
  have := optIndex_lt (by decide) pd
  exact encodes rfl (reads_map (fun _ => rfl) withSrcs_op (fits_withSrcs (fits_enc64 (by decide) (by omega) (by omega) b.code_lt
    (by simp only; omega) (by simp only; omega) (by simp only; omega))) (decXlane_enc h))

theorem encodes_nbr {i : NbrI} (h : i.n.okAt .i32 = true) : Encodes (.nbr i) := by
  obtain ⟨g, d, a, n, above, pd⟩ := i
  have := above.toNat_le
  have := pd.isSome.toNat_le
  have := optIndex_lt (by decide) pd
  exact encodes rfl (reads_map (fun _ => rfl) withSrcs_op (fits_withSrcs (fits_enc64 (by decide) (by omega) (by omega) n.code_lt
    (by simp only; omega) (by decide) (by simp only; omega))) (decNbr_enc h))

theorem encodes_lvote (i : LvoteI) : Encodes (.lvote i) := by
  obtain ⟨g, o, pa, na⟩ := i
  have ht : (Instr.lvote ⟨g, o, pa, na⟩).toRaw = some (enc64 0x92 g (voteSub o) na.toNat (voteDst o) pa.val 0 0) := by
    cases o <;> rfl
  have hs : voteSub o < 32 := by cases o <;> simp [voteSub]
  have hd : voteDst o < 512 := by cases o <;> simp only [voteDst, sregCode] <;> omega
  have := na.toNat_le
  exact encodes ht (reads_map (fun _ => rfl) rfl (fits_enc64 (by decide) hd (by omega) (by decide) (by decide) hs (by omega))
    decLvote_enc)

theorem encodes_mpopc {i : MpopcI} (h : (Instr.mpopc i).wf = true) : Encodes (.mpopc i) := by
  obtain ⟨g, d, pa, mode, na⟩ := i
  have hd : dstPopc d mode = true := by cases d <;> exact h
  have := mode.code_lt
  have := na.toNat_le
  exact encodes rfl (reads_map (fun _ => rfl) rfl (fits_enc64 (by decide) d.code_lt (by omega) (by decide) (by decide) (by decide)
    (by simp only; omega)) (decMpopc_enc hd))

theorem encodes_lmatch {i : LmatchI} (h : (!i.w64 || i.a.val % 2 == 0) = true) : Encodes (.lmatch i) := by
  obtain ⟨g, d, a, w64, mode⟩ := i
  have ht : (Instr.lmatch ⟨g, d, a, w64, mode⟩).toRaw = some (enc64 0x94 g (matchSub mode)
      (w64.toNat + 8 * (matchPd mode).isSome.toNat) d.val a.val 0 (optIndex (matchPd mode))) := by
    cases mode <;> rfl
  have hs : matchSub mode < 32 := by cases mode <;> simp [matchSub]
  have := w64.toNat_le
  have := (matchPd mode).isSome.toNat_le
  have := optIndex_lt (by decide) (matchPd mode)
  exact encodes ht (reads_map (fun _ => rfl) rfl (fits_enc64 (by decide) (by omega) (by omega) (by decide) (by omega) hs
    (by omega)) (decLmatch_enc h))

end
end Sys2Proof.Codec

namespace Sys2Proof.Codec

/-! Memory (R205 to R224, R305), synchronisation (R225 to R234) and control (R287 to R298). -/

section

theorem encodes_stc {i : StcI} (h : (Instr.stc i).wf = true) : Encodes (.stc i) := by
  obtain ⟨g, ri, q, base, data, w, x⟩ := i
  have hw : (w.storeOk && w != .b128 && storeData data w && stcExt x) = true := by
    simpa only [Instr.wf, stcExt, Bool.and_assoc] using h
  simp only [Bool.and_eq_true] at hw
  obtain ⟨⟨⟨hs, hn⟩, hd⟩, hx⟩ := hw
  have := w.code_lt
  have := ri.isSome.toNat_le
  have := optIndex_lt (by decide) ri
  have := Ext.word_lt x
  exact encodes rfl (reads_map (fun _ => rfl) encLong_op (fits_encLong (by decide) (by simp only; omega) (sregCode_lt _)
    (sregCode_lt _) data.code_lt (by decide) (by simp only; omega) (by simp only; omega)) (decStc_enc hs hn hd hx))

theorem encodes_ldk {i : LdkI} (h : (Instr.ldk i).wf = true) : Encodes (.ldk i) := by
  obtain ⟨g, d, win, idx, sc, w, x⟩ := i
  simp only [Instr.wf, Bool.and_eq_true] at h
  obtain ⟨hd, hx⟩ := h
  have := w.code_lt
  exact encodes rfl (reads_map (fun _ => rfl) encMem_op (fits_encMem (by decide) d.code_lt (by omega) idx.code_lt (by decide)
    (by simp only; omega)) (decLdk_enc hd hx))

theorem encodes_pref {i : PrefI} (h : (Instr.pref i).wf = true) : Encodes (.pref i) := by
  obtain ⟨g, base, idx, sc, ip, llc, x⟩ := i
  simp only [Instr.wf, Bool.and_eq_true] at h
  obtain ⟨ha, hx⟩ := h
  have := ip.toNat_le
  have := llc.toNat_le
  exact encodes rfl (reads_map (fun _ => rfl) encMem_op (fits_encMem (by decide) (by decide) base.code_lt idx.code_lt (by decide)
    (by simp only; omega)) (decPref_enc ha hx))

theorem encodes_bankcfg {i : BankcfgI} (h : (Instr.bankcfg i).wf = true) : Encodes (.bankcfg i) := by
  obtain ⟨hf, hc⟩ := Bool.and_eq_true_iff.1 h
  exact encodes rfl (reads_map (fun _ => rfl) encLong_op (fits_encLong (by decide) (by decide) i.first.code_lt i.count.code_lt
    (by decide) (by decide) (i.mode.code_lt.trans (by decide)) (by decide)) (decBankcfg_enc hf hc))

theorem encodes_fifoPush {i : FifoPushI} (h : (Instr.fifoPush i).wf = true) : Encodes (.fifoPush i) := by
  obtain ⟨hb, hd⟩ := Bool.and_eq_true_iff.1 h
  exact encodes rfl (reads_major (dec := decFifo) (fun _ => rfl) encLong_op (fits_encLong (by decide) i.data.code_lt i.bank.code_lt (by decide)
    (by decide) (by decide) (by decide) (by decide)) (decFifo_push hb hd))

theorem encodes_fifoPop {i : FifoPopI} (h : i.bank.sOrInt = true) : Encodes (.fifoPop i) :=
  encodes rfl (reads_major (dec := decFifo) (fun _ => rfl) encLong_op (fits_encLong (by decide) (by omega) i.bank.code_lt (by decide) (by decide)
    (by decide) (by decide) (by decide)) (decFifo_pop h))

theorem encodes_catom {i : CatomI} (h : (Instr.catom i).wf = true) : Encodes (.catom i) := by
  obtain ⟨g, d, base, delta, pt, pd, ord, x⟩ := i
  have ht : (Instr.catom ⟨g, d, base, delta, pt, pd, ord, x⟩).toRaw = some (encMem 0xB0 0 g
      (pt.code + pdBits pd + 64 * ord.catomCode) d.val base.code delta.code x) := by
    cases pd <;> rfl
  have hw : (addrOk true base .zero false && d.val % 2 == 0 && targetOk delta && ord.redOk && x.ok true true pd.isNone true) =
    true := by cases delta <;> exact h
  simp only [Bool.and_eq_true, beq_iff_eq] at hw
  obtain ⟨⟨⟨⟨ha, hd⟩, htg⟩, ho⟩, hx⟩ := hw
  have := pt.code_lt
  have := ord.catomCode_lt
  have : pdBits pd < 64 := by cases pd <;> simp only [pdBits] <;> omega
  exact encodes ht (reads_map (fun _ => rfl) encMem_op (fits_encMem (by decide) (by omega) base.code_lt delta.code_lt (by decide)
    (by omega)) (decCatom_enc ha hd htg ho hx))

theorem encodes_fence {i : FenceI} (h : i.ord.fenceOk = true) : Encodes (.fence i) := by
  have := i.ord.code_lt
  have := i.scope.code_lt
  exact encodes rfl (reads_map (fun _ => rfl) rfl (fits_enc64 (by decide) (by decide) (by decide) (by decide) (by decide)
    (by decide) (by omega)) (decFence_enc h))

theorem barByte_lt (s : Bool) (x : Scope) : barByte s x < 256 := by
  have := s.toNat_le
  have := x.code_lt
  unfold barByte
  omega

theorem encodes_barInit {i : BarInitI} (h : i.count.sOrInt = true) : Encodes (.barInit i) :=
  encodes rfl (reads_major (dec := decBar) (fun _ => rfl) encLong_op (fits_encLong (by decide) (by decide) (sregCode_lt _) i.count.code_lt
    (by decide) (by decide) (barByte_lt _ _) (by decide)) (decBar_init h))

theorem encodes_barArrive {i : BarArriveI} (h : (Instr.barArrive i).wf = true) : Encodes (.barArrive i) := by
  simp only [Instr.wf, Bool.and_eq_true, Bool.not_eq_true'] at h
  obtain ⟨⟨⟨⟨ha, ha'⟩, hb⟩, hb'⟩, hs⟩ := h
  exact encodes rfl (reads_major (dec := decBar) (fun _ => rfl) encLong_op (fits_encLong (by decide) (by decide) (sregCode_lt _) i.count.code_lt
    i.bytes.code_lt (by decide) (barByte_lt _ _) (by omega)) (decBar_arrive ha ha' hb hb' hs))

theorem encodes_barWait {i : BarWaitI} (h : i.par.sOrInt = true) : Encodes (.barWait i) :=
  encodes rfl (reads_major (dec := decBar) (fun _ => rfl) encLong_op (fits_encLong (by decide) (by decide) (sregCode_lt _) i.par.code_lt
    (by decide) (by decide) (barByte_lt _ _) (by decide)) (decBar_wait h))

theorem encodes_barTest {i : BarTestI} (h : i.par.sOrInt = true) : Encodes (.barTest i) :=
  encodes rfl (reads_major (dec := decBar) (fun _ => rfl) encLong_op (fits_encLong (by decide) (by omega) (sregCode_lt _) i.par.code_lt
    (by decide) (by decide) (barByte_lt _ _) (by decide)) (decBar_test h))

theorem encodes_waitc {i : WaitcI} (h : i.value.sOrInt = true) : Encodes (.waitc i) :=
  encodes rfl (reads_map (fun _ => rfl) rfl (fits_enc64 (by decide) (by decide) (sregCode_lt _) i.value.code_lt (by decide)
    (by decide) (i.scope.code_lt.trans (by decide))) (decWaitc_enc h))

theorem encodes_signal {i : SignalI} (h : (Instr.signal i).wf = true) : Encodes (.signal i) := by
  obtain ⟨hv, hs⟩ := Bool.and_eq_true_iff.1 h
  exact encodes rfl (reads_map (fun _ => rfl) encLong_op (fits_encLong (by decide) (by decide) (sregCode_lt _) i.value.code_lt
    (by decide) (by decide) (i.scope.code_lt.trans (by decide)) (by omega)) (decSignal_enc hv hs))

theorem encodes_waitsb {i : WaitsbI} (h : i.n.sOrInt = true) : Encodes (.waitsb i) :=
  encodes rfl (reads_map (fun _ => rfl) rfl (fits_enc64 (by decide) (by decide) (by omega) i.n.code_lt (by decide) (by decide)
    (by decide)) (decWaitsb_enc h))

theorem encodes_pause {i : PauseI} (h : (Instr.pause i).wf = true) : Encodes (.pause i) := by
  simp only [Instr.wf, Bool.and_eq_true, Bool.not_eq_true'] at h
  obtain ⟨hn, hn'⟩ := h
  exact encodes rfl (reads_map (fun _ => rfl) rfl (fits_enc64 (by decide) (by decide) (by decide) i.n.code_lt (by decide)
    (by decide) (by decide)) (decPause_enc hn hn'))

theorem fits_enc24 {op d : Nat} {g : Guard} {off : BitVec 24} (hop : op < 256) (hd : d < 512) : Fits (enc24 op g d off) :=
  fits_enc64 hop hd (bits_lt _ _ _) (bits_lt _ _ _) ((bits_lt _ _ _).trans (by decide)) (by decide) (by decide)

theorem encodes_bra (i : BraI) : Encodes (.bra i) :=
  encodes rfl (reads_map (fun _ => rfl) rfl (fits_enc24 (by decide) (by decide)) decBra_enc)

theorem encodes_call {i : CallI} (h : (Instr.call i).wf = true) : Encodes (.call i) :=
  encodes rfl (reads_map (fun _ => rfl) rfl (fits_enc24 (by decide) (by omega)) (decCall_enc (eq_of_beq h)))

theorem encodes_callx {i : CallxI} (h : (i.link.val % 2 == 0 && targetOk i.target) = true) : Encodes (.callx i) := by
  obtain ⟨hl, ht⟩ := Bool.and_eq_true_iff.1 h
  exact encodes rfl (reads_map (fun _ => rfl) rfl (fits_enc64 (by decide) (by omega) i.target.code_lt (by decide) (by decide)
    (by decide) (by decide)) (decCallx_enc (eq_of_beq hl) ht))

theorem encodes_jopen {i : JopenI} (h : maskOk i.mask = true) : Encodes (.jopen i) := by
  obtain ⟨g, j, mask⟩ := i
  have ht : (Instr.jopen ⟨g, j, mask⟩).toRaw = some (enc64 0xD6 g 0 mask.isSome.toNat j.val (maskCode mask) 0 0) := by
    cases mask <;> rfl
  have hm : maskCode mask < 512 := by
    cases mask with
    | none => exact Nat.zero_lt_succ _
    | some m => exact m.code_lt
  have := mask.isSome.toNat_le
  exact encodes ht (reads_map (fun _ => rfl) rfl (fits_enc64 (by decide) (by omega) hm (by decide) (by decide) (by decide)
    (by omega)) (decJopen_enc h))

/-! Platen and Feeder (R159 to R168, R241). -/

theorem fits_encMma {sub res : Nat} (i : MmaI) (hs : sub < 32) (hr : res < 512) : Fits (encMma sub res i) := by
  obtain ⟨g, d, sa, sb, af, bf, ck, scale, tk⟩ := i
  have := af.code_lt
  have := bf.code_lt
  have := ck.toNat_le
  have := optSregCode_lt tk
  have hx : scaleWord scale < 2 ^ 18 := by
    cases scale with
    | none => decide
    | some p =>
      obtain ⟨x, y⟩ := p
      have := sregCode_lt x
      have := sregCode_lt y
      simp only [scaleWord]
      omega
  have := scale.isSome.toNat_le
  have he : encMma sub res ⟨g, d, sa, sb, af, bf, ck, scale, tk⟩ = enc128 0xE0 g sub (af.code + 8 * bf.code +
      64 * scale.isSome.toNat + 128 * ck.toNat) d.val (sregCode sa) (sregCode sb) res
      (scaleWord scale + 2 ^ 18 * optSregCode tk) := by
    cases scale <;> rfl
  rw [he]
  exact fits_enc128 (by decide) (by omega) (sregCode_lt _) (sregCode_lt _) hr hs (by omega) (by omega)

theorem encodes_mma {i : MmaI} (h : wfMma i = true) : Encodes (.mma i) := by
  obtain ⟨hp, hs⟩ := Bool.and_eq_true_iff.1 h
  exact encodes rfl (reads_major (fun _ => rfl) rfl (fits_encMma i (by decide) (by decide)) (decMma_enc hp hs))

theorem encodes_mmaRes {i : MmaResI} (h : (Instr.mmaRes i).wf = true) : Encodes (.mmaRes i) := by
  obtain ⟨m, res⟩ := i
  simp only [Instr.wf, wfMma, Bool.and_eq_true] at h
  obtain ⟨⟨⟨⟨hp, hs⟩, hd⟩, h8⟩, hn⟩ := h
  exact encodes rfl (reads_major (fun _ => rfl) rfl (fits_encMma m (by decide) (by omega)) (decMma_res hp hs hd h8 hn))

theorem accWord_lt (ft : AF) (md : RM) (ovf : Bool) (sum : Option (Fin 8)) : accWord ft md ovf sum < 128 := by
  have := ft.code_lt
  have := md.code_lt
  have := ovf.toNat_le
  have := sum.isSome.toNat_le
  unfold accWord
  omega

theorem encodes_accZero (i : AccZeroI) : Encodes (.accZero i) :=
  encodes rfl (reads_major (fun _ => rfl) rfl (fits_enc128 (by decide) (by omega) (by decide) (by decide) (by decide) (by decide)
    (by decide) (by decide)) decAcc_zero)

theorem encodes_accRd {i : AccRdI} (h : (Instr.accRd i).wf = true) : Encodes (.accRd i) := by
  simp only [Instr.wf, Bool.and_assoc] at h
  obtain ⟨hm, hc⟩ := Bool.and_eq_true_iff.1 h
  have := optIndex_lt (by decide) i.sum
  have := accWord_lt i.ft i.rm i.ovf i.sum
  exact encodes rfl (reads_major (fun _ => rfl) rfl (fits_enc128 (by decide) (by omega) (by omega) (by decide) (by omega)
    (by decide) (by omega) (by omega)) (decAcc_rd hm hc))

theorem encodes_accWr {i : AccWrI} (h : colsOk i.ft i.nr i.col = true) : Encodes (.accWr i) :=
  encodes rfl (reads_major (fun _ => rfl) rfl (fits_enc128 (by decide) (by omega) (by omega) (by decide) (by decide)
    (by decide) (i.ft.code_lt.trans (by decide)) (by omega)) (decAcc_wr h))

theorem encodes_accLd (i : AccLdI) : Encodes (.accLd i) := by
  have := optSregCode_lt i.tk
  exact encodes rfl (reads_major (fun _ => rfl) rfl (fits_enc128 (by decide) (by omega) (sregCode_lt _) (by decide) (by decide)
    (by decide) (i.ft.code_lt.trans (by decide)) (by omega)) decAcc_ld)

theorem encodes_accSt {i : AccStI} (h : accMods i.ft i.rm i.ovf i.sum.isSome = true) : Encodes (.accSt i) := by
  have := optIndex_lt (by decide) i.sum
  have := accWord_lt i.ft i.rm i.ovf i.sum
  exact encodes rfl (reads_major (fun _ => rfl) rfl (fits_enc128 (by decide) (by decide) (by omega) (sregCode_lt _) (by omega)
    (by decide) (by omega) (by omega)) (decAcc_st h))

theorem fits_encCpy {sub rop c ctr : Nat} (i : CpyI) (hs : sub < 32) (hr : rop < 8) (hc : c < 512) (ht : ctr < 512) :
    Fits (encCpy sub rop c ctr i) := by
  obtain ⟨g, dst, src, bar, scope, tk, cr⟩ := i
  have := scope.code_lt
  have := optSregCode_lt tk
  have := optSregCode_lt cr
  have hb : barBit bar < 2 := by unfold barBit; split <;> decide
  have he : encCpy sub rop c ctr ⟨g, dst, src, bar, scope, tk, cr⟩ = enc128 0xE8 g sub (scope.code + 8 * rop + 64 * barBit bar)
      (sregCode dst) (sregCode src) (optSregCode (bar.map Prod.fst)) c
      (optSregCode tk + 2 ^ 9 * optSregCode cr + 2 ^ 18 * ctr) := by
    obtain _ | ⟨k, _ | _⟩ := bar <;> rfl
  rw [he]
  exact fits_enc128 (by decide) (sregCode_lt _) (sregCode_lt _) (optSregCode_lt _) hc hs (by omega) (by omega)

theorem encodes_cpy (i : CpyI) : Encodes (.cpy i) :=
  encodes rfl (reads_major (fun _ => rfl) rfl (fits_encCpy i (by decide) (by decide) (by decide) (by decide)) decCpy_cpy)

theorem encodes_cpyRed (i : CpyRedI) : Encodes (.cpyRed i) :=
  encodes rfl (reads_major (fun _ => rfl) rfl (fits_encCpy i.c (by decide) (i.rop.code_lt.trans (by decide)) (by decide)
    (by decide)) decCpy_red)

theorem encodes_cpySig {i : CpySigI} (h : i.value.sOrInt = true) : Encodes (.cpySig i) :=
  encodes rfl (reads_major (fun _ => rfl) rfl (fits_encCpy i.c (by decide) (by decide) i.value.code_lt (sregCode_lt _))
    (decCpy_sig h))

theorem encodes_impStart (i : ImpI) : Encodes (.impStart i) := by
  have := optSregCode_lt i.tk
  have := optSregCode_lt i.cr
  exact encodes rfl (reads_map (fun _ => rfl) rfl (fits_enc128 (by decide) (sregCode_lt _) (by decide) (by decide) (by decide)
    (by decide) (i.scope.code_lt.trans (by decide)) (by omega)) decImp_enc)

end
end Sys2Proof.Codec

namespace Sys2Proof.Codec

/-! Regions, errata and the system's instructions (R345 to R352, R379, R383, R390 to R395). -/

theorem encodes_rgnBegin (i : RgnBeginI) : Encodes (.rgnBegin i) := by
  have := i.loff.isLt
  exact encodes rfl (reads_major (dec := decRgn) (fun _ => rfl) rfl (fits_enc128 (by decide) (by decide) (by decide) (by decide)
    (by decide) (by decide) (by decide) (by omega)) decRgn_begin)

theorem encodes_rgnKeep {i : RgnKeepI} (h : (Instr.rgnKeep i).wf = true) : Encodes (.rgnKeep i) := by
  have := i.pmask.isLt
  have := i.jmask.isLt
  have := tileCode_lt i.tile0
  have := tileCode_lt i.tile1
  have hx : keepWord i < 2 ^ 64 := by
    unfold keepWord
    omega
  exact encodes rfl (reads_major (dec := decRgn) (fun _ => rfl) rfl (fits_enc128 (by decide) (by decide) (by decide) (by decide)
    (by decide) (by decide) (by decide) hx) (decRgn_keep h))

theorem encodes_rgnEnd (i : PlainI) : Encodes (.rgnEnd i) :=
  encodes rfl (reads_major (dec := decRgn) (fun _ => rfl) rfl (fits_enc64 (by decide) (by decide) (by decide) (by decide)
    (by decide) (by decide) (by decide)) decRgn_end)

theorem encodes_rgnAbort {i : TrapI} (h : i.n.trapNum = true) : Encodes (.rgnAbort i) :=
  encodes rfl (reads_major (dec := decRgn) (fun _ => rfl) rfl (fits_enc64 (by decide) (by decide) i.n.code_lt (by decide)
    (by decide) (by decide) (by decide)) (decRgn_abort h))

theorem encodes_rgnStatus (i : RgnStatusI) : Encodes (.rgnStatus i) :=
  encodes rfl (reads_major (dec := decRgn) (fun _ => rfl) rfl (fits_enc64 (by decide) (sregCode_lt _) (by decide) (by decide)
    (by decide) (by decide) (by decide)) decRgn_status)

theorem encodes_errpPost {i : ErrpPostI} (h : i.n.trapNum = true) : Encodes (.errpPost i) :=
  encodes rfl (reads_major (dec := decErrp) (fun _ => rfl) encLong_op (fits_encLong (by decide) (by decide) i.n.code_lt
    (sregCode_lt _) (sregCode_lt _) (by decide) (by decide) (by decide)) (decErrp_post h))

theorem encodes_errpVec {i : ErrpSetI} (h : (Instr.errpVec i).wf = true) : Encodes (.errpVec i) := by
  obtain ⟨g, d, a, long⟩ := i
  cases a with
  | s k => exact encodes rfl (reads_major (dec := decErrp) (fun _ => rfl) encLong_op (fits_encLong (by decide) (optSregCode_lt _)
      (Src.code_lt _) (by decide) (by decide) (by decide) (by decide) (by decide)) decErrp_vec)
  | _ => cases h

theorem encodes_errpMask {i : ErrpSetI} (h : i.a.sOrInt = true) : Encodes (.errpMask i) :=
  encodes rfl (reads_major (dec := decErrp) (fun _ => rfl) encLong_op (fits_encLong (by decide) (optSregCode_lt _) i.a.code_lt
    (by decide) (by decide) (by decide) (by decide) (by decide)) (decErrp_mask h))

theorem encodes_csrr {i : CsrrI} (h : (Instr.csrr i).wf = true) : Encodes (.csrr i) := by
  obtain ⟨g, d, srn⟩ := i
  have hd : csrrDst srn.toNat d = true := by cases d <;> exact h
  exact encodes rfl (reads_map (fun _ => rfl) rfl (fits_enc64 (by decide) d.code_lt (by decide) (by decide) (by decide) (by decide)
    srn.isLt) (decCsrr_enc hd))

theorem encodes_csrw {i : CsrwI} (h : (Instr.csrw i).wf = true) : Encodes (.csrw i) := by
  obtain ⟨g, srn, a⟩ := i
  have ha : csrwSrc a = true := by cases a <;> exact h
  exact encodes rfl (reads_map (fun _ => rfl) withSrcs_op (fits_withSrcs (fits_enc64 (by decide) (by decide) a.code_lt (by decide)
    (by decide) (by decide) srn.isLt)) (decCsrw_enc ha))

theorem encodes_trap {i : TrapI} (h : i.n.trapNum = true) : Encodes (.trap i) :=
  encodes rfl (reads_major (dec := decTrap) (fun _ => rfl) rfl (fits_enc64 (by decide) (by decide) i.n.code_lt (by decide)
    (by decide) (by decide) (by decide)) (decTrap_trap h))

theorem encodes_tret (i : PlainI) : Encodes (.tret i) :=
  encodes rfl (reads_major (dec := decTrap) (fun _ => rfl) rfl (fits_enc64 (by decide) (by decide) (by decide) (by decide)
    (by decide) (by decide) (by decide)) decTrap_tret)

theorem encodes_migr (i : MigrI) : Encodes (.migr i) :=
  encodes rfl (reads_major (dec := decMigr) (fun _ => rfl) rfl (fits_enc64 (by decide) (by decide) (sregCode_lt _) (by decide)
    (by decide) (by decide) (by decide)) decMigr_migr)

theorem encodes_migrHome (i : PlainI) : Encodes (.migrHome i) :=
  encodes rfl (reads_major (dec := decMigr) (fun _ => rfl) rfl (fits_enc64 (by decide) (by decide) (by decide) (by decide)
    (by decide) (by decide) (by decide)) decMigr_home)

theorem toNat_byte (b : Bool) : b.toNat < 256 := b.toNat_le.trans_lt (by decide)

theorem encodes_tlbiVa (i : TlbiVaI) : Encodes (.tlbiVa i) :=
  encodes rfl (reads_major (dec := decTlbi) (fun _ => rfl) rfl (fits_enc64 (by decide) (by decide) (sregCode_lt _) (sregCode_lt _)
    (by decide) (by decide) (toNat_byte _)) decTlbi_va)

theorem encodes_tlbiCtx (i : TlbiCtxI) : Encodes (.tlbiCtx i) :=
  encodes rfl (reads_major (dec := decTlbi) (fun _ => rfl) rfl (fits_enc64 (by decide) (by decide) (sregCode_lt _) (by decide)
    (by decide) (by decide) (toNat_byte _)) decTlbi_ctx)

theorem encodes_tlbiAll (i : TlbiAllI) : Encodes (.tlbiAll i) :=
  encodes rfl (reads_major (dec := decTlbi) (fun _ => rfl) rfl (fits_enc64 (by decide) (by decide) (by decide) (by decide)
    (by decide) (by decide) (toNat_byte _)) decTlbi_all)

theorem encodes_ctxopRoot (i : CtxRootI) : Encodes (.ctxopRoot i) :=
  encodes rfl (reads_major (dec := decCtxop) (fun _ => rfl) rfl (fits_enc64 (by decide) (by decide) (sregCode_lt _) (sregCode_lt _)
    (by decide) (by decide) (by decide)) decCtxop_root)

theorem encodes_ctxopDrain (i : CtxI) : Encodes (.ctxopDrain i) :=
  encodes rfl (reads_major (dec := decCtxop) (fun _ => rfl) rfl (fits_enc64 (by decide) (by decide) (sregCode_lt _) (by decide)
    (by decide) (by decide) (by decide)) decCtxop_drain)

/-- Every well-formed instruction has words that the decoder reads back (R26). -/
theorem encodes_of_wf {i : Instr} (h : i.wf = true) : Encodes i := by
  cases i with
  | add i => exact encodes rfl (reads_I2 (by decide) (fun _ => rfl) ⟨rfl, fun _ => rfl⟩ h)
  | sub i => exact encodes rfl (reads_I2 (by decide) (fun _ => rfl) ⟨rfl, fun _ => rfl⟩ h)
  | addc i => exact encodes rfl (reads_carry (by decide) (fun _ => rfl) h)
  | subb i => exact encodes rfl (reads_carry (by decide) (fun _ => rfl) h)
  | mul i => exact encodes rfl (reads_I2 (by decide) (fun _ => rfl) ⟨rfl, fun _ => rfl⟩ h)
  | mulhi i => exact encodes rfl (reads_T2 (by decide) (fun _ => rfl) h)
  | mad i => exact encodes rfl (reads_I3 (by decide) (fun _ => rfl) ⟨rfl, fun _ => rfl⟩ h)
  | madhi i => exact encodes rfl (reads_T3 (by decide) (fun _ => rfl) h)
  | mulwd i => exact encodes rfl (reads_T2 (by decide) (fun _ => rfl) h)
  | div i => exact encodes rfl (reads_T2 (by decide) (fun _ => rfl) h)
  | rem i => exact encodes rfl (reads_T2 (by decide) (fun _ => rfl) h)
  | abs i => exact encodes rfl (reads_I1 (by decide) (fun _ => rfl) ⟨rfl, rfl⟩ h)
  | neg i => exact encodes rfl (reads_I1 (by decide) (fun _ => rfl) ⟨rfl, rfl⟩ h)
  | min i => exact encodes rfl (reads_T2 (by decide) (fun _ => rfl) h)
  | max i => exact encodes rfl (reads_T2 (by decide) (fun _ => rfl) h)
  | and i => exact encodes rfl (reads_T2 (by decide) (fun _ => rfl) h)
  | or i => exact encodes rfl (reads_T2 (by decide) (fun _ => rfl) h)
  | xor i => exact encodes rfl (reads_T2 (by decide) (fun _ => rfl) h)
  | not i => exact encodes rfl (reads_T1 (by decide) (fun _ => rfl) h)
  | andn i => exact encodes rfl (reads_T2 (by decide) (fun _ => rfl) h)
  | bfn i => exact encodes_bfn h
  | shl i => exact encodes rfl (reads_T2 (by decide) (fun _ => rfl) h)
  | shr i => exact encodes rfl (reads_shift (x := false) h)
  | shrA i => exact encodes rfl (reads_shift (x := true) h)
  | rot i => exact encodes rfl (reads_T2 (by decide) (fun _ => rfl) h)
  | shf i => exact encodes_shf h
  | bfx i => exact encodes rfl (reads_T2 (by decide) (fun _ => rfl) h)
  | bfi i => exact encodes rfl (reads_T3 (by decide) (fun _ => rfl) h)
  | popc i => exact encodes rfl (reads_T1 (by decide) (fun _ => rfl) h)
  | clz i => exact encodes rfl (reads_T1 (by decide) (fun _ => rfl) h)
  | ctz i => exact encodes rfl (reads_T1 (by decide) (fun _ => rfl) h)
  | brev i => exact encodes rfl (reads_T1 (by decide) (fun _ => rfl) h)
  | bsel i => exact encodes_bsel h
  | setp i => exact encodes_setp h
  | sel i => exact encodes_sel h
  | pfn i => exact encodes_pfn i
  | mov i => exact encodes rfl (reads_T1 (by decide) (fun _ => rfl) h)
  | movp i => exact encodes_movp i
  | movpTo i => exact encodes_movpTo h
  | sethi20 i => exact encodes rfl (reads_major (dec := decSethi) (fun _ => rfl) rfl (fits_encSethi i (by decide)) (decSethi_enc false))
  | sethi20Pc i => exact encodes rfl (reads_major (dec := decSethi) (fun _ => rfl) rfl (fits_encSethi i (by decide)) (decSethi_enc true))
  | lea i => exact encodes_lea h
  | idot4 i => exact encodes_idot4 h
  | idot2 i => exact encodes_idot2 h
  | tacc i => exact encodes_tacc h
  | sad i => exact encodes rfl (reads_T3 (by decide) (fun _ => rfl) h)
  | add3 i => exact encodes rfl (reads_I3 (by decide) (fun _ => rfl) ⟨rfl, fun _ => rfl⟩ h)
  | clamp i => exact encodes rfl (reads_T3 (by decide) (fun _ => rfl) h)
  | fadd i => exact encodes rfl (reads_F2 (by decide) (fun _ => rfl) h)
  | fsub i => exact encodes rfl (reads_F2 (by decide) (fun _ => rfl) h)
  | fmul i => exact encodes rfl (reads_F2 (by decide) (fun _ => rfl) h)
  | fma i => exact encodes rfl (reads_F3 (by decide) (fun _ => rfl) h)
  | fmin i => exact encodes rfl (reads_F2 (by decide) (fun _ => rfl) h)
  | fmax i => exact encodes rfl (reads_F2 (by decide) (fun _ => rfl) h)
  | fsetp i => exact encodes_fsetp h
  | fclass i => exact encodes_fclass h
  | fdiv i => exact encodes rfl (reads_F2 (by decide) (fun _ => rfl) h)
  | fsqrt i => exact encodes rfl (reads_F1 (by decide) (fun _ => rfl) h)
  | frcp i => exact encodes rfl (reads_F1 (by decide) (fun _ => rfl) h)
  | frsq i => exact encodes rfl (reads_F1 (by decide) (fun _ => rfl) h)
  | fex2 i => exact encodes rfl (reads_F1 (by decide) (fun _ => rfl) h)
  | flg2 i => exact encodes rfl (reads_F1 (by decide) (fun _ => rfl) h)
  | fsin i => exact encodes rfl (reads_F1 (by decide) (fun _ => rfl) h)
  | fcos i => exact encodes rfl (reads_F1 (by decide) (fun _ => rfl) h)
  | ftanh i => exact encodes rfl (reads_F1 (by decide) (fun _ => rfl) h)
  | frnd i => exact encodes rfl (reads_F1 (by decide) (fun _ => rfl) h)
  | fscale i => exact encodes rfl (reads_F2 (by decide) (fun _ => rfl) h)
  | fexpo i => exact encodes rfl (reads_F1 (by decide) (fun _ => rfl) h)
  | fmant i => exact encodes rfl (reads_F1 (by decide) (fun _ => rfl) h)
  | fdot2 i => exact encodes rfl (reads_F3 (by decide) (fun _ => rfl) h)
  | fclamp i => exact encodes rfl (reads_F3 (by decide) (fun _ => rfl) h)
  | faddE i => exact encodes rfl (reads_X2 (by decide) (fun _ => rfl) h)
  | fmulE i => exact encodes rfl (reads_X2 (by decide) (fun _ => rfl) h)
  | fmaE i => exact encodes_fmaE h
  | xren i => exact encodes_xren h
  | xcmpr i => exact encodes_xcmpr h
  | xcmp i => exact encodes_xcmp h
  | xadd i => exact encodes_xadd h
  | xmulW i => exact encodes_xmulW h
  | cvt i => exact encodes_cvt h
  | cvtN i => exact encodes_cvtN h
  | cvtSr i => exact encodes_cvtSr h
  | cvtBlkDecode i => exact encodes_cvtBlkDecode h
  | cvtBlkEncode i => exact encodes_cvtBlkEncode h
  | cvtX2 i => exact encodes_cvtX2 h
  | unpkT3 i => exact encodes_unpkT3 h
  | pack i => exact encodes_pack h
  | unpack i => exact encodes_unpack h
  | xlane i => exact encodes_xlane h
  | nbr i => exact encodes_nbr h
  | lvote i => exact encodes_lvote i
  | mpopc i => exact encodes_mpopc h
  | lmatch i => exact encodes_lmatch h
  | stc i => exact encodes_stc h
  | ld i => exact encodes rfl (reads_load (by decide) (fun _ => rfl) h)
  | st i => exact encodes rfl (reads_store (by decide) (fun _ => rfl) h)
  | lds i => exact encodes rfl (reads_load (by decide) (fun _ => rfl) h)
  | sts i => exact encodes rfl (reads_store (by decide) (fun _ => rfl) h)
  | ldgs i => exact encodes rfl (reads_load (by decide) (fun _ => rfl) h)
  | stgs i => exact encodes rfl (reads_store (by decide) (fun _ => rfl) h)
  | ldk i => exact encodes_ldk h
  | ldl i => exact encodes rfl (reads_load (by decide) (fun _ => rfl) h)
  | stl i => exact encodes rfl (reads_store (by decide) (fun _ => rfl) h)
  | pref i => exact encodes_pref h
  | bankcfg i => exact encodes_bankcfg h
  | fifoPush i => exact encodes_fifoPush h
  | fifoPop i => exact encodes_fifoPop h
  | atom i => exact encodes rfl (reads_atom (by decide) (fun _ => rfl) h)
  | atoms i => exact encodes rfl (reads_atom (by decide) (fun _ => rfl) h)
  | red i => exact encodes rfl (reads_red (by decide) (fun _ => rfl) h)
  | reds i => exact encodes rfl (reads_red (by decide) (fun _ => rfl) h)
  | cas i => exact encodes rfl (reads_cas (by decide) (fun _ => rfl) h)
  | cass i => exact encodes rfl (reads_cas (by decide) (fun _ => rfl) h)
  | catom i => exact encodes_catom h
  | fence i => exact encodes_fence h
  | barInit i => exact encodes_barInit h
  | barArrive i => exact encodes_barArrive h
  | barWait i => exact encodes_barWait h
  | barTest i => exact encodes_barTest h
  | waitc i => exact encodes_waitc h
  | signal i => exact encodes_signal h
  | waitsb i => exact encodes_waitsb h
  | pause i => exact encodes_pause h
  | bra i => exact encodes_bra i
  | brx i => exact encodes rfl (reads_jump (by decide) (fun _ => rfl) h)
  | call i => exact encodes_call h
  | callx i => exact encodes_callx h
  | ret i => exact encodes rfl (reads_jump (by decide) (fun _ => rfl) h)
  | exit i => exact encodes rfl (reads_plain (by decide) (fun _ => rfl))
  | jopen i => exact encodes_jopen h
  | jenter i => exact encodes rfl (reads_set (by decide) (fun _ => rfl))
  | jquit i => exact encodes rfl (reads_set (by decide) (fun _ => rfl))
  | jwait i => exact encodes rfl (reads_set (by decide) (fun _ => rfl))
  | jfree i => exact encodes rfl (reads_set (by decide) (fun _ => rfl))
  | jsave i => exact encodes rfl (reads_jmem (by decide) (fun _ => rfl) h)
  | jload i => exact encodes rfl (reads_jmem (by decide) (fun _ => rfl) h)
  | mma i => exact encodes_mma h
  | mmaRes i => exact encodes_mmaRes h
  | accZero i => exact encodes_accZero i
  | accRd i => exact encodes_accRd h
  | accWr i => exact encodes_accWr h
  | accLd i => exact encodes_accLd i
  | accSt i => exact encodes_accSt h
  | cpy i => exact encodes_cpy i
  | cpyRed i => exact encodes_cpyRed i
  | cpySig i => exact encodes_cpySig h
  | impStart i => exact encodes_impStart i
  | rgnBegin i => exact encodes_rgnBegin i
  | rgnKeep i => exact encodes_rgnKeep h
  | rgnEnd i => exact encodes_rgnEnd i
  | rgnAbort i => exact encodes_rgnAbort h
  | rgnStatus i => exact encodes_rgnStatus i
  | errpPost i => exact encodes_errpPost h
  | errpVec i => exact encodes_errpVec h
  | errpMask i => exact encodes_errpMask h
  | csrr i => exact encodes_csrr h
  | csrw i => exact encodes_csrw h
  | trap i => exact encodes_trap h
  | tret i => exact encodes_tret i
  | migr i => exact encodes_migr i
  | migrHome i => exact encodes_migrHome i
  | nop i => exact encodes rfl (reads_plain (by decide) (fun _ => rfl))
  | tlbiVa i => exact encodes_tlbiVa i
  | tlbiCtx i => exact encodes_tlbiCtx i
  | tlbiAll i => exact encodes_tlbiAll i
  | ctxopRoot i => exact encodes_ctxopRoot i
  | ctxopDrain i => exact encodes_ctxopDrain i
  | _ => cases h

end Sys2Proof.Codec

namespace Sys2Proof.Codec

open Sys2Proof.Claims

/-! ### Reserved words (R44 to R48, R390): what each major judges first -/

/-- An operand field names the literal or the constant window. -/
def namesThird (r : Raw) : Bool := [r.d, r.a, r.b, r.c].contains 448 || [r.d, r.a, r.b, r.c].contains 449

/-- The length is one of some lengths, and three words only where a field names the third (R39, R44). -/
def lengthOk (r : Raw) (l : List Nat) : Bool := l.contains r.len && (r.len != 3 || namesThird r)

/-- The minor of a word is that of a memory major or of any other (R31, R32). -/
def minorField (r : Raw) : Nat := if 0xA0 ≤ r.op ∧ r.op < 0xC0 then r.sub2 else r.sub

/-- A check of the minor, and behind it one of the length. -/
structure Gated (minorOk lenOk : Bool) {α : Type} (x : Dec α) : Prop where
  minor : minorOk = false → x = .error .undefinedMinor
  length : minorOk = true → lenOk = false → x = .error .illegalLength

section
variable {α β : Type} {c l : Bool} {x : Dec α}

theorem gated_bind (k : Unit → Dec α) :
    Gated c l (need c .undefinedMinor >>= fun _ => need l .illegalLength >>= k) :=
  ⟨fun h => by rw [h]; rfl, fun hc hl => by rw [hc, hl]; rfl⟩

theorem Gated.map (f : α → β) (h : Gated c l x) : Gated c l (x.map f) :=
  ⟨fun hc => by rw [h.minor hc]; rfl, fun hc hl => by rw [h.length hc hl]; rfl⟩

/-- The minor judged by the map itself. -/
theorem gated_outer (f : α → β) (k : Unit → Dec α) :
    Gated c l ((need c .undefinedMinor).bind fun _ => (need l .illegalLength >>= k).map f) :=
  ⟨fun h => by rw [h]; rfl, fun hc hl => by rw [hc, hl]; rfl⟩

/-- The two checks as one head. -/
theorem gated_head (k : Unit → Dec α) :
    Gated c l ((need c .undefinedMinor >>= fun _ => need l .illegalLength) >>= k) :=
  ⟨fun h => by rw [h]; rfl, fun hc hl => by rw [hc, hl]; rfl⟩

end

/-- A major that the map assigns: how many minors it has, whether it is one of memory, and its lengths. -/
def Assigned (k n : Nat) (memory : Bool) (l : Nat → List Nat) : Prop :=
  (∀ m, majorLengths k m = some (l m)) ∧ minors k = n ∧ memory = (decide (0xA0 ≤ k) && decide (k < 0xC0))

/-- What the words of R48 say of what a major reads. -/
def Judged (r : Raw) (x : Dec Instr) : Prop :=
  match majorLengths r.op (minorField r) with
  | none => x = .error .undefinedOpcode
  | some l => Gated (decide (minorField r < minors r.op)) (lengthOk r l) x

/-- What is read is well-formed, and reserved words are refused. -/
def Sound (r : Raw) (x : Dec Instr) : Prop := (∀ i, x = .ok i → i.wf = true) ∧ Judged r x

section
variable {r : Raw} {k n : Nat} {l : Nat → List Nat} {x : Dec Instr}

theorem judged_of_gated {memory : Bool} (hop : r.op = k) (ha : Assigned k n memory l)
    (hg : Gated (decide ((if memory then r.sub2 else r.sub) < n)) (lengthOk r (l (minorField r))) x) : Judged r x := by
  obtain ⟨hl, hn, hm⟩ := ha
  have hf : minorField r = if memory then r.sub2 else r.sub := by
    rw [minorField, hop, hm]
    simp only [Bool.and_eq_true, decide_eq_true_eq]
  unfold Judged
  rw [hop, hl, hn, hf]
  rw [hf] at hg
  exact hg

theorem beq_zero_eq_lt_one (a : Nat) : (a == 0) = decide (a < 1) := by
  rw [Bool.eq_iff_iff, beq_iff_eq, decide_eq_true_eq]
  omega

theorem lengthOk_96 (r : Raw) : (r.len == 2 || (r.len == 3 && ([r.d, r.a, r.b, r.c].contains 448 ||
    [r.d, r.a, r.b, r.c].contains 449))) = lengthOk r [2, 3] := by
  unfold lengthOk namesThird
  by_cases h2 : r.len = 2
  · simp [h2]
  · by_cases h3 : r.len = 3
    · simp [h3]
    · simp [h2, h3]

theorem lengthOk_64 (r : Raw) : (r.len == 2) = lengthOk r [2] := by
  unfold lengthOk
  by_cases h2 : r.len = 2
  · simp [h2]
  · simp [h2]

theorem lengthOk_128 (r : Raw) : (r.len == 4) = lengthOk r [4] := by
  unfold lengthOk
  by_cases h4 : r.len = 4
  · simp [h4]
  · simp [h4]

theorem lengthOk_64or128 (r : Raw) : (r.len == 2 || r.len == 4) = lengthOk r [2, 4] := by
  unfold lengthOk
  by_cases h2 : r.len = 2
  · simp [h2]
  · by_cases h4 : r.len = 4
    · simp [h4]
    · simp [h2, h4]

/-- One minor and the lengths of 64 or 96 bits. -/
theorem sound_96 (hop : r.op = k)
    (hg : Gated (r.sub == 0) (r.len == 2 || (r.len == 3 && ([r.d, r.a, r.b, r.c].contains 448 ||
      [r.d, r.a, r.b, r.c].contains 449))) x) (hw : ∀ i, x = .ok i → i.wf = true)
    (ha : Assigned k 1 false fun _ => [2, 3] := by exact ⟨fun _ => rfl, rfl, rfl⟩) : Sound r x :=
  ⟨hw, judged_of_gated hop ha (by rw [beq_zero_eq_lt_one, lengthOk_96] at hg; exact hg)⟩

/-- More minors. -/
theorem sound_96s (hop : r.op = k)
    (hg : Gated (decide (r.sub < n)) (r.len == 2 || (r.len == 3 && ([r.d, r.a, r.b, r.c].contains 448 ||
      [r.d, r.a, r.b, r.c].contains 449))) x) (hw : ∀ i, x = .ok i → i.wf = true)
    (ha : Assigned k n false fun _ => [2, 3] := by exact ⟨fun _ => rfl, rfl, rfl⟩) : Sound r x :=
  ⟨hw, judged_of_gated hop ha (by rw [lengthOk_96] at hg; exact hg)⟩

theorem sound_64 (hop : r.op = k) (hg : Gated (r.sub == 0) (r.len == 2) x)
    (hw : ∀ i, x = .ok i → i.wf = true)
    (ha : Assigned k 1 false fun _ => [2] := by exact ⟨fun _ => rfl, rfl, rfl⟩) : Sound r x :=
  ⟨hw, judged_of_gated hop ha (by rw [beq_zero_eq_lt_one, lengthOk_64] at hg; exact hg)⟩

theorem sound_64s (hop : r.op = k) (hg : Gated (decide (r.sub < n)) (r.len == 2) x)
    (hw : ∀ i, x = .ok i → i.wf = true)
    (ha : Assigned k n false fun _ => [2] := by exact ⟨fun _ => rfl, rfl, rfl⟩) : Sound r x :=
  ⟨hw, judged_of_gated hop ha (by rw [lengthOk_64] at hg; exact hg)⟩

theorem sound_128 (hop : r.op = k) (hg : Gated (r.sub == 0) (r.len == 4) x)
    (hw : ∀ i, x = .ok i → i.wf = true)
    (ha : Assigned k 1 false fun _ => [4] := by exact ⟨fun _ => rfl, rfl, rfl⟩) : Sound r x :=
  ⟨hw, judged_of_gated hop ha (by rw [beq_zero_eq_lt_one, lengthOk_128] at hg; exact hg)⟩

theorem sound_128s (hop : r.op = k) (hg : Gated (decide (r.sub < n)) (r.len == 4) x)
    (hw : ∀ i, x = .ok i → i.wf = true)
    (ha : Assigned k n false fun _ => [4] := by exact ⟨fun _ => rfl, rfl, rfl⟩) : Sound r x :=
  ⟨hw, judged_of_gated hop ha (by rw [lengthOk_128] at hg; exact hg)⟩

theorem sound_long (hop : r.op = k)
    (hg : Gated (r.sub == 0) (r.len == 2 || r.len == 4) x) (hw : ∀ i, x = .ok i → i.wf = true)
    (ha : Assigned k 1 false fun _ => [2, 4] := by exact ⟨fun _ => rfl, rfl, rfl⟩) : Sound r x :=
  ⟨hw, judged_of_gated hop ha (by rw [beq_zero_eq_lt_one, lengthOk_64or128] at hg; exact hg)⟩

theorem sound_longs (hop : r.op = k)
    (hg : Gated (decide (r.sub < n)) (r.len == 2 || r.len == 4) x) (hw : ∀ i, x = .ok i → i.wf = true)
    (ha : Assigned k n false fun _ => [2, 4] := by exact ⟨fun _ => rfl, rfl, rfl⟩) : Sound r x :=
  ⟨hw, judged_of_gated hop ha (by rw [lengthOk_64or128] at hg; exact hg)⟩

/-- A memory major. -/
theorem sound_memory (hop : r.op = k)
    (hg : Gated (r.sub2 == 0) (r.len == 2 || r.len == 4) x) (hw : ∀ i, x = .ok i → i.wf = true)
    (ha : Assigned k 1 true fun _ => [2, 4] := by exact ⟨fun _ => rfl, rfl, rfl⟩) : Sound r x :=
  ⟨hw, judged_of_gated hop ha (by rw [beq_zero_eq_lt_one, lengthOk_64or128] at hg; exact hg)⟩

theorem sound_memories (hop : r.op = k)
    (hg : Gated (decide (r.sub2 < n)) (r.len == 2 || r.len == 4) x) (hw : ∀ i, x = .ok i → i.wf = true)
    (ha : Assigned k n true fun _ => [2, 4] := by exact ⟨fun _ => rfl, rfl, rfl⟩) : Sound r x :=
  ⟨hw, judged_of_gated hop ha (by rw [lengthOk_64or128] at hg; exact hg)⟩

theorem wf_map {α : Type} {f : α → Instr} {d : Dec α} (h : ∀ i, d = .ok i → (f i).wf = true) :
    ∀ i, d.map f = .ok i → i.wf = true := by
  intro i hi
  cases d with
  | error e => cases hi
  | ok a => cases hi; exact h a rfl

theorem wf_bind {d : Dec Unit} {y : Unit → Dec Instr} (h : ∀ i, y () = .ok i → i.wf = true) :
    ∀ i, d.bind y = .ok i → i.wf = true := by
  intro i hi
  cases d with
  | error e => cases hi
  | ok a => exact h i hi

end
end Sys2Proof.Codec

namespace Sys2Proof.Codec

open Sys2Proof.Claims

/-! ### The whole map: what is read is well-formed, and reserved words are refused by name -/

/-- The bounds of the fields of words (R31). -/
structure Bounds (r : Raw) : Prop where
  op : r.op < 256
  c : r.c < 512
  m : r.m < 256
  short : r.len = 2 → r.ext = 0

section
variable {r : Raw}

theorem wf_carry {i : CarryI} (h : decCarry r = .ok i) : (Instr.addc i).wf = true := by
  simpa only [Instr.wf, Bool.and_eq_true, and_assoc] using of_decCarry h

theorem wf_bfn {i : Op3 (BitVec 8)} (h : decBfn r = .ok i) : (Instr.bfn i).wf = true := by
  have hw : (i.a.okAt (bfnPos i.d) && i.b.okAt (bfnPos i.d) && i.c.okAt (bfnPos i.d) && dstInt i.d false [i.a, i.b, i.c] &&
      extAgree [i.a, i.b, i.c]) = true := by
    simpa only [Bool.and_eq_true, and_assoc] using of_decBfn h
  exact hw

theorem wf_dot {i : Op3 DotM} {x ub : Bool} (h : decDot r x ub = .ok i) :
    (i.a.okAt .i32 && i.b.okAt .i32 && i.c.okAt .i32 && dstInt i.d false [i.a, i.b, i.c] && extAgree [i.a, i.b, i.c]) = true := by
  obtain ⟨-, -, hw⟩ := of_decDot h
  simpa only [Bool.and_eq_true, and_assoc] using hw

theorem wf_idot4 {i : Op3 DotM} (h : decDot r false true = .ok i) : (Instr.idot4 i).wf = true := by
  have hhi : i.m.hi = false := by simpa using (of_decDot h).1
  simpa only [Instr.wf, hhi, Bool.not_false, Bool.true_and] using wf_dot h

theorem wf_tacc {i : Op3 DotM} (h : decDot r false false = .ok i) : (Instr.tacc i).wf = true := by
  obtain ⟨hhi, hub, -⟩ := of_decDot h
  have hhi' : i.m.hi = false := by simpa using hhi
  have hub' : i.m.ub = false := by simpa using hub
  simpa only [Instr.wf, hhi', hub', Bool.not_false, Bool.true_and] using wf_dot h

theorem wf_callx {i : CallxI} (h : decCallx r = .ok i) : (Instr.callx i).wf = true := by
  obtain ⟨hl, ht⟩ := of_decCallx h
  exact Bool.and_eq_true_iff.2 ⟨beq_iff_eq.2 hl, ht⟩

theorem wf_catom {i : CatomI} (hc : r.c < 512) (h : decCatom r = .ok i) : (Instr.catom i).wf = true := by
  have hw : (addrOk true i.base .zero false && i.d.val % 2 == 0 && targetOk i.delta && i.ord.redOk &&
      i.x.ok true true i.pd.isNone true) = true := by
    simpa only [Bool.and_eq_true, beq_iff_eq, and_assoc] using of_decCatom hc h
  obtain ⟨g, d, base, delta, pt, pd, ord, x⟩ := i
  cases delta <;> exact hw

theorem wf_mpopc {i : MpopcI} (h : decMpopc r = .ok i) : (Instr.mpopc i).wf = true := by
  have hw := of_decMpopc h
  obtain ⟨g, d, pa, mode, na⟩ := i
  cases d <;> exact hw

theorem wf_csrr {i : CsrrI} (hm : r.m < 256) (h : decCsrr r = .ok i) : (Instr.csrr i).wf = true := by
  have hw := of_decCsrr hm h
  obtain ⟨g, d, srn⟩ := i
  cases d <;> exact hw

theorem wf_csrw {i : CsrwI} (h : decCsrw r = .ok i) : (Instr.csrw i).wf = true := by
  have hw := of_decCsrw h
  obtain ⟨g, srn, a⟩ := i
  cases a <;> exact hw

theorem wf_stc {i : StcI} (h : decStc r = .ok i) : (Instr.stc i).wf = true := by
  have hw : (i.w.storeOk && i.w != .b128 && storeData i.data i.w && stcExt i.x) = true := by
    simpa only [Bool.and_eq_true, and_assoc] using of_decStc h
  simpa only [Instr.wf, stcExt, Bool.and_assoc] using hw

/-- rgn judges its length by its minor (R390). -/
theorem sound_rgn (hop : r.op = 0xF0) : Sound r (decRgn r) := by
  refine ⟨fun i h => wf_of_decRgn h, judged_of_gated (n := 5) (memory := false) (l := fun m => if m < 2 then [4] else [2]) hop
    ⟨fun _ => rfl, rfl, rfl⟩ ?_⟩
  have hf : minorField r = r.sub := by rw [minorField, hop]; rfl
  have hl : (if r.sub < 2 then r.len == 4 else r.len == 2) = lengthOk r (if minorField r < 2 then [4] else [2]) := by
    rw [hf, lengthOk_64, lengthOk_128]
    split <;> rfl
  rw [← hl]
  exact gated_bind _

/-- The majors that the map assigns (R45). -/
def assignedMajors : List Nat :=
  List.range' 0x01 45 ++ List.range' 0x40 23 ++ List.range' 0x70 8 ++ List.range' 0x80 8 ++ List.range' 0x90 6 ++
    List.range' 0xA0 19 ++ List.range' 0xC0 6 ++ List.range' 0xD0 13 ++ [0xE0, 0xE1, 0xE8, 0xE9, 0xF0, 0xF1] ++
    List.range' 0xF8 7

theorem majorLengths_eq_none {k m : Nat} (hk : k < 256) (h : k ∉ assignedMajors) : majorLengths k m = none := by
  have all : ∀ k < 256, k ∉ assignedMajors → majorLengths k 0 = none := by decide +kernel
  have h0 := all k hk h
  unfold majorLengths at h0 ⊢
  split_ifs at h0 ⊢
  rfl

end

/-- One case for each major, in the order of the opcode map (R45). -/
theorem sound_decodeRaw {r : Raw} (hb : Bounds r) : Sound r (decodeRaw r) := by
  unfold decodeRaw
  split
  case h_1 hop => exact sound_96 hop ((gated_bind _).map _) (wf_map fun _ h => wf_of_decI2 h)
  case h_2 hop => exact sound_96 hop ((gated_bind _).map _) (wf_map fun _ h => wf_of_decI2 h)
  case h_3 hop => exact sound_96 hop ((gated_bind _).map _) (wf_map fun _ h => wf_carry h)
  case h_4 hop => exact sound_96 hop ((gated_bind _).map _) (wf_map fun _ h => wf_carry h)
  case h_5 hop => exact sound_96 hop ((gated_bind _).map _) (wf_map fun _ h => wf_of_decI2 h)
  case h_6 hop => exact sound_96 hop (gated_outer _ _) (wf_bind (wf_map fun _ h => wf_of_decT2 h))
  case h_7 hop => exact sound_96 hop ((gated_bind _).map _) (wf_map fun _ h => wf_of_decI3 h)
  case h_8 hop => exact sound_96 hop ((gated_bind _).map _) (wf_map fun _ h => wf_of_decT3 h)
  case h_9 hop => exact sound_96 hop (gated_outer _ _) (wf_bind (wf_map fun _ h => wf_of_decT2 h))
  case h_10 hop => exact sound_96 hop (gated_outer _ _) (wf_bind (wf_map fun _ h => wf_of_decT2 h))
  case h_11 hop => exact sound_96 hop (gated_outer _ _) (wf_bind (wf_map fun _ h => wf_of_decT2 h))
  case h_12 hop => exact sound_96 hop ((gated_bind _).map _) (wf_map fun _ h => wf_of_decI1 h)
  case h_13 hop => exact sound_96 hop ((gated_bind _).map _) (wf_map fun _ h => wf_of_decI1 h)
  case h_14 hop => exact sound_96 hop (gated_outer _ _) (wf_bind (wf_map fun _ h => wf_of_decT2 h))
  case h_15 hop => exact sound_96 hop (gated_outer _ _) (wf_bind (wf_map fun _ h => wf_of_decT2 h))
  case h_16 hop => exact sound_96 hop (gated_outer _ _) (wf_bind (wf_map fun _ h => wf_of_decT2 h))
  case h_17 hop => exact sound_96 hop (gated_outer _ _) (wf_bind (wf_map fun _ h => wf_of_decT2 h))
  case h_18 hop => exact sound_96 hop (gated_outer _ _) (wf_bind (wf_map fun _ h => wf_of_decT2 h))
  case h_19 hop => exact sound_96 hop ((gated_bind _).map _) (wf_map fun _ h => wf_of_decT1 h)
  case h_20 hop => exact sound_96 hop (gated_outer _ _) (wf_bind (wf_map fun _ h => wf_of_decT2 h))
  case h_21 hop => exact sound_96 hop ((gated_bind _).map _) (wf_map fun _ h => wf_bfn h)
  case h_22 hop => exact sound_96 hop (gated_outer _ _) (wf_bind (wf_map fun _ h => wf_of_decT2 h))
  case h_23 hop => exact sound_96s hop (gated_outer _ _) (wf_bind (wf_map fun _ h => by
    split <;> exact wf_of_decT2 h))
  case h_24 hop => exact sound_96 hop (gated_outer _ _) (wf_bind (wf_map fun _ h => wf_of_decT2 h))
  case h_25 hop => exact sound_96 hop ((gated_bind _).map _) (wf_map fun _ h => by
    simpa only [Instr.wf, Bool.and_eq_true, and_assoc, beq_iff_eq, decide_eq_true_eq] using of_decShf h)
  case h_26 hop => exact sound_96 hop (gated_outer _ _) (wf_bind (wf_map fun _ h => wf_of_decT2 h))
  case h_27 hop => exact sound_96 hop ((gated_bind _).map _) (wf_map fun _ h => wf_of_decT3 h)
  case h_28 hop => exact sound_96 hop ((gated_bind _).map _) (wf_map fun _ h => wf_of_decT1 h)
  case h_29 hop => exact sound_96 hop ((gated_bind _).map _) (wf_map fun _ h => wf_of_decT1 h)
  case h_30 hop => exact sound_96 hop ((gated_bind _).map _) (wf_map fun _ h => wf_of_decT1 h)
  case h_31 hop => exact sound_96 hop ((gated_bind _).map _) (wf_map fun _ h => wf_of_decT1 h)
  case h_32 hop => exact sound_96 hop ((gated_bind _).map _) (wf_map fun _ h => by
    simpa only [Instr.wf, Bool.and_eq_true, and_assoc, beq_iff_eq, decide_eq_true_eq] using of_decBsel h)
  case h_33 hop => exact sound_96s hop ((gated_bind _).map _) (wf_map fun _ h => by
    simpa only [Instr.wf, Bool.and_eq_true, and_assoc, beq_iff_eq, decide_eq_true_eq] using of_decSetp h)
  case h_34 hop => exact sound_96 hop ((gated_bind _).map _) (wf_map fun _ h => by
    simpa only [Instr.wf, Bool.and_eq_true, and_assoc, beq_iff_eq, decide_eq_true_eq] using of_decSel h)
  case h_35 hop => exact sound_96 hop ((gated_bind _).map _) (wf_map fun _ _ => rfl)
  case h_36 hop => exact sound_96 hop ((gated_bind _).map _) (wf_map fun _ h => wf_of_decT1 h)
  case h_37 hop => exact sound_96 hop (gated_bind _) (fun _ h => wf_of_decMovp h)
  case h_38 hop => exact sound_64s hop (gated_bind _) (fun _ h => wf_of_decSethi h)
  case h_39 hop => exact sound_96 hop ((gated_bind _).map _) (wf_map fun _ h => by
    simpa only [Instr.wf, Bool.and_eq_true, and_assoc, beq_iff_eq, decide_eq_true_eq] using of_decLea h)
  case h_40 hop => exact sound_96 hop ((gated_bind _).map _) (wf_map fun _ h => wf_idot4 h)
  case h_41 hop => exact sound_96 hop ((gated_bind _).map _) (wf_map fun _ h => wf_dot h)
  case h_42 hop => exact sound_96 hop ((gated_bind _).map _) (wf_map fun _ h => wf_tacc h)
  case h_43 hop => exact sound_96 hop ((gated_bind _).map _) (wf_map fun _ h => wf_of_decT3 h)
  case h_44 hop => exact sound_96 hop ((gated_bind _).map _) (wf_map fun _ h => wf_of_decI3 h)
  case h_45 hop => exact sound_96 hop ((gated_bind _).map _) (wf_map fun _ h => wf_of_decT3 h)
  case h_46 hop => exact sound_96 hop ((gated_bind _).map _) (wf_map fun _ h => wf_of_decF2 h)
  case h_47 hop => exact sound_96 hop ((gated_bind _).map _) (wf_map fun _ h => wf_of_decF2 h)
  case h_48 hop => exact sound_96 hop ((gated_bind _).map _) (wf_map fun _ h => wf_of_decF2 h)
  case h_49 hop => exact sound_96 hop ((gated_bind _).map _) (wf_map fun _ h => wf_of_decF3 h)
  case h_50 hop => exact sound_96 hop ((gated_bind _).map _) (wf_map fun _ h => wf_of_decF2 h)
  case h_51 hop => exact sound_96 hop ((gated_bind _).map _) (wf_map fun _ h => wf_of_decF2 h)
  case h_52 hop => exact sound_96s hop ((gated_bind _).map _) (wf_map fun _ h => by
    simpa only [Instr.wf, Bool.and_eq_true, and_assoc, beq_iff_eq, decide_eq_true_eq] using of_decFsetp h)
  case h_53 hop => exact sound_96 hop ((gated_bind _).map _) (wf_map fun _ h => by
    simpa only [Instr.wf, Bool.and_eq_true, and_assoc, beq_iff_eq, decide_eq_true_eq] using of_decFclass h)
  case h_54 hop => exact sound_96 hop ((gated_bind _).map _) (wf_map fun _ h => wf_of_decF2 h)
  case h_55 hop => exact sound_96 hop ((gated_bind _).map _) (wf_map fun _ h => wf_of_decF1 h)
  case h_56 hop => exact sound_96 hop ((gated_bind _).map _) (wf_map fun _ h => wf_of_decF1 h)
  case h_57 hop => exact sound_96 hop ((gated_bind _).map _) (wf_map fun _ h => wf_of_decF1 h)
  case h_58 hop => exact sound_96 hop ((gated_bind _).map _) (wf_map fun _ h => wf_of_decF1 h)
  case h_59 hop => exact sound_96 hop ((gated_bind _).map _) (wf_map fun _ h => wf_of_decF1 h)
  case h_60 hop => exact sound_96 hop ((gated_bind _).map _) (wf_map fun _ h => wf_of_decF1 h)
  case h_61 hop => exact sound_96 hop ((gated_bind _).map _) (wf_map fun _ h => wf_of_decF1 h)
  case h_62 hop => exact sound_96 hop ((gated_bind _).map _) (wf_map fun _ h => wf_of_decF1 h)
  case h_63 hop => exact sound_96 hop ((gated_bind _).map _) (wf_map fun _ h => wf_of_decF1 h)
  case h_64 hop => exact sound_96 hop ((gated_bind _).map _) (wf_map fun _ h => wf_of_decF2 h)
  case h_65 hop => exact sound_96 hop ((gated_bind _).map _) (wf_map fun _ h => wf_of_decF1 h)
  case h_66 hop => exact sound_96 hop ((gated_bind _).map _) (wf_map fun _ h => wf_of_decF1 h)
  case h_67 hop => exact sound_96 hop ((gated_bind _).map _) (wf_map fun _ h => wf_of_decF3 h)
  case h_68 hop => exact sound_96 hop ((gated_bind _).map _) (wf_map fun _ h => wf_of_decF3 h)
  case h_69 hop => exact sound_96 hop ((gated_bind _).map _) (wf_map fun _ h => by
    simpa only [Instr.wf, Bool.and_eq_true, and_assoc, beq_iff_eq, decide_eq_true_eq] using of_decX2 h)
  case h_70 hop => exact sound_96 hop ((gated_bind _).map _) (wf_map fun _ h => by
    simpa only [Instr.wf, Bool.and_eq_true, and_assoc, beq_iff_eq, decide_eq_true_eq] using of_decX2 h)
  case h_71 hop => exact sound_96 hop ((gated_bind _).map _) (wf_map fun _ h => by
    simpa only [Instr.wf, Bool.and_eq_true, and_assoc, beq_iff_eq, decide_eq_true_eq] using of_decX3 h)
  case h_72 hop => exact sound_96 hop ((gated_bind _).map _) (wf_map fun _ h => by
    simpa only [Instr.wf, Bool.and_eq_true, and_assoc, beq_iff_eq, decide_eq_true_eq] using of_decXren h)
  case h_73 hop => exact sound_96 hop ((gated_bind _).map _) (wf_map fun _ h => by
    simpa only [Instr.wf, Bool.and_eq_true, and_assoc, beq_iff_eq, decide_eq_true_eq] using of_decXcmpr h)
  case h_74 hop => exact sound_96 hop ((gated_bind _).map _) (wf_map fun _ h => by
    simpa only [Instr.wf, Bool.and_eq_true, and_assoc, beq_iff_eq, decide_eq_true_eq] using of_decXcmp h)
  case h_75 hop => exact sound_96 hop ((gated_bind _).map _) (wf_map fun _ h => by
    simpa only [wf_xadd, Bool.and_eq_true, and_assoc] using of_decXadd h)
  case h_76 hop => exact sound_96 hop ((gated_bind _).map _) (wf_map fun _ h => by
    simpa only [Instr.wf, Bool.and_eq_true, and_assoc, beq_iff_eq, decide_eq_true_eq] using of_decXmul h)
  case h_77 hop => exact sound_96 hop ((gated_bind _).map _) (wf_map fun _ h => wf_of_decCvt h)
  case h_78 hop => exact sound_96 hop ((gated_bind _).map _) (wf_map fun _ h => wf_of_decCvtN h)
  case h_79 hop => exact sound_96 hop ((gated_bind _).map _) (wf_map fun _ h => wf_of_decCvtSr h)
  case h_80 hop => exact sound_96 hop (gated_bind _) (fun _ h => wf_of_decCvtBlk h)
  case h_81 hop => exact sound_96 hop ((gated_bind _).map _) (wf_map fun _ h => wf_of_decCvtX2 h)
  case h_82 hop => exact sound_96 hop ((gated_bind _).map _) (wf_map fun _ h => of_decUnpk h)
  case h_83 hop => exact sound_96 hop ((gated_bind _).map _) (wf_map fun _ h => wf_of_decPack h)
  case h_84 hop => exact sound_96 hop ((gated_bind _).map _) (wf_map fun _ h => wf_of_decUnpack h)
  case h_85 hop => exact sound_96s hop ((gated_bind _).map _) (wf_map fun _ h => of_decXlane h)
  case h_86 hop => exact sound_96 hop ((gated_bind _).map _) (wf_map fun _ h => of_decNbr h)
  case h_87 hop => exact sound_96s hop ((gated_bind _).map _) (wf_map fun _ _ => rfl)
  case h_88 hop => exact sound_96 hop ((gated_bind _).map _) (wf_map fun _ h => wf_mpopc h)
  case h_89 hop => exact sound_96s hop ((gated_bind _).map _) (wf_map fun _ h => of_decLmatch h)
  case h_90 hop => exact sound_long hop ((gated_bind _).map _) (wf_map fun _ h => wf_stc h)
  case h_91 hop => exact sound_memory hop ((gated_bind _).map _) (wf_map fun _ h => wf_of_decLoad hb.c h)
  case h_92 hop => exact sound_memory hop ((gated_bind _).map _) (wf_map fun _ h => wf_of_decStore hb.c h)
  case h_93 hop => exact sound_memory hop ((gated_bind _).map _) (wf_map fun _ h => wf_of_decLoad hb.c h)
  case h_94 hop => exact sound_memory hop ((gated_bind _).map _) (wf_map fun _ h => wf_of_decStore hb.c h)
  case h_95 hop => exact sound_memory hop ((gated_bind _).map _) (wf_map fun _ h => wf_of_decLoad hb.c h)
  case h_96 hop => exact sound_memory hop ((gated_bind _).map _) (wf_map fun _ h => wf_of_decStore hb.c h)
  case h_97 hop => exact sound_memory hop ((gated_bind _).map _) (wf_map fun _ h => by
    simpa only [Instr.wf, Bool.and_eq_true, and_assoc, beq_iff_eq] using of_decLdk hb.c h)
  case h_98 hop => exact sound_memory hop ((gated_bind _).map _) (wf_map fun _ h => wf_of_decLoad hb.c h)
  case h_99 hop => exact sound_memory hop ((gated_bind _).map _) (wf_map fun _ h => wf_of_decStore hb.c h)
  case h_100 hop => exact sound_memory hop ((gated_bind _).map _) (wf_map fun _ h => by
    simpa only [Instr.wf, Bool.and_eq_true, and_assoc, beq_iff_eq] using of_decPref hb.c h)
  case h_101 hop => exact sound_memory hop ((gated_bind _).map _) (wf_map fun _ h => by
    simpa only [Instr.wf, Bool.and_eq_true, and_assoc, beq_iff_eq, decide_eq_true_eq] using of_decBankcfg h)
  case h_102 hop => exact sound_memory hop ((gated_bind _).map _) (wf_map fun _ h => by
    simpa only [Instr.wf, Bool.and_eq_true, and_assoc, beq_iff_eq] using of_decAtom hb.c h)
  case h_103 hop => exact sound_memory hop ((gated_bind _).map _) (wf_map fun _ h => by
    simpa only [Instr.wf, Bool.and_eq_true, and_assoc, beq_iff_eq] using of_decRed hb.c h)
  case h_104 hop => exact sound_memory hop ((gated_bind _).map _) (wf_map fun _ h => by
    simpa only [Instr.wf, Bool.and_eq_true, and_assoc, beq_iff_eq] using of_decAtom hb.c h)
  case h_105 hop => exact sound_memory hop ((gated_bind _).map _) (wf_map fun _ h => by
    simpa only [Instr.wf, Bool.and_eq_true, and_assoc, beq_iff_eq] using of_decRed hb.c h)
  case h_106 hop => exact sound_memory hop ((gated_bind _).map _) (wf_map fun _ h => by
    simpa only [Instr.wf, Bool.and_eq_true, and_assoc, beq_iff_eq] using of_decCas hb.c h)
  case h_107 hop => exact sound_memory hop ((gated_bind _).map _) (wf_map fun _ h => wf_catom hb.c h)
  case h_108 hop => exact sound_memories hop (gated_bind _) (fun _ h => wf_of_decFifo h)
  case h_109 hop => exact sound_memory hop ((gated_bind _).map _) (wf_map fun _ h => by
    simpa only [Instr.wf, Bool.and_eq_true, and_assoc, beq_iff_eq] using of_decCas hb.c h)
  case h_110 hop => exact sound_64 hop ((gated_bind _).map _) (wf_map fun _ h => of_decFence h)
  case h_111 hop => exact sound_longs hop (gated_bind _) (fun _ h => wf_of_decBar hb.short h)
  case h_112 hop => exact sound_64 hop ((gated_bind _).map _) (wf_map fun _ h => of_decWaitc h)
  case h_113 hop => exact sound_long hop ((gated_bind _).map _) (wf_map fun _ h => by
    simpa only [Instr.wf, Bool.and_eq_true] using of_decSignal hb.short h)
  case h_114 hop => exact sound_64 hop ((gated_bind _).map _) (wf_map fun _ h => of_decWaitsb h)
  case h_115 hop => exact sound_64 hop ((gated_bind _).map _) (wf_map fun _ h => by
    simpa only [Instr.wf, Bool.and_eq_true, Bool.not_eq_true'] using of_decPause h)
  case h_116 hop => exact sound_64 hop ((gated_head _).map _) (wf_map fun _ _ => rfl)
  case h_117 hop => exact sound_64 hop ((gated_head _).map _) (wf_map fun _ h => of_decJump h)
  case h_118 hop => exact sound_64 hop ((gated_head _).map _) (wf_map fun _ h => beq_iff_eq.2 (of_decCall h))
  case h_119 hop => exact sound_64 hop ((gated_head _).map _) (wf_map fun _ h => wf_callx h)
  case h_120 hop => exact sound_64 hop ((gated_head _).map _) (wf_map fun _ h => of_decJump h)
  case h_121 hop => exact sound_64 hop (gated_head _) (wf_bind (wf_map fun _ _ => rfl))
  case h_122 hop => exact sound_64 hop ((gated_head _).map _) (wf_map fun _ h => of_decJopen h)
  case h_123 hop => exact sound_64 hop ((gated_head _).map _) (wf_map fun _ _ => rfl)
  case h_124 hop => exact sound_64 hop ((gated_head _).map _) (wf_map fun _ _ => rfl)
  case h_125 hop => exact sound_64 hop ((gated_head _).map _) (wf_map fun _ _ => rfl)
  case h_126 hop => exact sound_64 hop ((gated_head _).map _) (wf_map fun _ _ => rfl)
  case h_127 hop => exact sound_64 hop ((gated_head _).map _) (wf_map fun _ h => of_decJmem h)
  case h_128 hop => exact sound_64 hop ((gated_head _).map _) (wf_map fun _ h => of_decJmem h)
  case h_129 hop => exact sound_128s hop (gated_bind _) (fun _ h => wf_of_decMma h)
  case h_130 hop => exact sound_128s hop (gated_bind _) (fun _ h => wf_of_decAcc h)
  case h_131 hop => exact sound_128s hop (gated_bind _) (fun _ h => wf_of_decCpy h)
  case h_132 hop => exact sound_128 hop ((gated_bind _).map _) (wf_map fun _ _ => rfl)
  case h_133 hop => exact sound_rgn hop
  case h_134 hop => exact sound_long hop (gated_bind _) (fun _ h => wf_of_decErrp h)
  case h_135 hop => exact sound_64 hop ((gated_bind _).map _) (wf_map fun _ h => wf_csrr hb.m h)
  case h_136 hop => exact sound_96 hop ((gated_bind _).map _) (wf_map fun _ h => wf_csrw h)
  case h_137 hop => exact sound_64s hop (gated_bind _) (fun _ h => wf_of_decTrap h)
  case h_138 hop => exact sound_64s hop (gated_bind _) (fun _ h => wf_of_decMigr h)
  case h_139 hop => exact sound_64 hop (gated_head _) (wf_bind (wf_map fun _ _ => rfl))
  case h_140 hop => exact sound_64s hop (gated_bind _) (fun _ h => wf_of_decTlbi h)
  case h_141 hop => exact sound_64s hop (gated_bind _) (fun _ h => wf_of_decCtxop h)
  case h_142 =>
    have hn : r.op ∉ assignedMajors := by
      intro hm
      simp only [imp_false] at *
      simp [assignedMajors, List.range', *] at hm
    refine ⟨(fun i h => by cases h), ?_⟩
    rw [Judged, majorLengths_eq_none hb.op hn]

end Sys2Proof.Codec

namespace Sys2Proof.Codec

open Sys2Proof.Claims

/-! ### Decode and encode agree (O2) -/

section
variable {x : Nat}

theorem lenWords_eq_one_iff (x : Nat) : lenWords x = 1 ↔ x % 4 = 3 := by
  unfold lenWords
  have hx : x % 4 < 4 := Nat.mod_lt _ (by decide)
  interval_cases x % 4 <;> decide

theorem bounds_ofNat (x : Nat) : Bounds (Raw.ofNat x) where
  op := Nat.mod_lt _ (by decide)
  c := Nat.mod_lt _ (by decide)
  m := Nat.mod_lt _ (by decide)
  short h := by
    have hl : lenWords x = 2 := h
    simp only [Raw.ofNat, hl, bits, Nat.pow_zero, Nat.mod_one]

theorem op_ofNat (x : Nat) : (Raw.ofNat x).op = x / 4 % 256 := rfl

theorem len_ofNat (x : Nat) : (Raw.ofNat x).len = lenWords x := rfl

theorem minorField_ofNat (x : Nat) : minorField (Raw.ofNat x) = minorOf x := by
  have hs : (Raw.ofNat x).sub2 = x / 2 ^ 54 % 4 := by
    simp only [Raw.sub2, Raw.ofNat, bits]
    omega
  rw [minorField, minorOf, hs]
  rfl

theorem namesThird_ofNat (x : Nat) : namesThird (Raw.ofNat x) = true ↔ namesExt x := by
  simp only [namesThird, namesExt, Raw.ofNat, bits, List.contains_eq_mem, List.mem_cons, List.not_mem_nil, or_false,
    Bool.or_eq_true, decide_eq_true_eq, exists_eq_or_imp, exists_eq_left, Nat.reducePow]
  omega

theorem lengthOk_of_badLength {l : List Nat} (h : BadLength x l) : lengthOk (Raw.ofNat x) l = false := by
  rw [lengthOk, len_ofNat, Bool.and_eq_false_iff]
  refine h.imp (fun hl => by simpa using hl) fun ⟨h3, hn⟩ => ?_
  rw [h3, Bool.eq_false_iff.2 (mt (namesThird_ofNat x).1 hn)]
  rfl

theorem decodeNat_of_len (h : x % 4 ≠ 3) : decodeNat x = decodeRaw (Raw.ofNat x) :=
  if_neg (mt (lenWords_eq_one_iff x).1 h)

/-- What R44 to R48 say of the words of a number. -/
theorem judged_decodeNat (h : x % 4 ≠ 3) : Judged (Raw.ofNat x) (decodeNat x) := by
  rw [decodeNat_of_len h]
  exact (sound_decodeRaw (bounds_ofNat x)).2

theorem reservedWordsAreRefused : ReservedWordsAreRefused := by
  intro x
  refine ⟨fun h => if_pos ((lenWords_eq_one_iff x).2 h), fun h hn => ?_, fun l h hl => ?_⟩
  · have hj := judged_decodeNat h
    rwa [Judged, op_ofNat, minorField_ofNat, hn] at hj
  · have hj := judged_decodeNat h
    rw [Judged, op_ofNat, minorField_ofNat, hl] at hj
    exact ⟨fun hm => hj.minor (decide_eq_false (Nat.not_lt.2 hm)),
      fun hm hb => hj.length (decide_eq_true hm) (lengthOk_of_badLength hb)⟩

theorem wf_of_decodeNat {i : Instr} (h : decodeNat x = .ok i) : i.wf = true := by
  by_cases hl : lenWords x = 1
  · rw [decodeNat, if_pos hl] at h
    cases h
  · rw [decodeNat, if_neg hl] at h
    exact (sound_decodeRaw (bounds_ofNat x)).1 i h

end

theorem decodeNat_of_encode {i : Instr} {x : Nat} (hw : i.wf = true) (h : encode i = some x) : decodeNat x = .ok i := by
  obtain ⟨r, ht, hr⟩ := encodes_of_wf hw
  rw [encode, ht, Option.map_some, Option.some.injEq] at h
  rw [← h]
  exact decodeNat_toNat hr

theorem exists_encode {i : Instr} (hw : i.wf = true) : ∃ x, encode i = some x := by
  obtain ⟨r, ht, -⟩ := encodes_of_wf hw
  exact ⟨r.toNat, by rw [encode, ht, Option.map_some]⟩

/-- Settles O2: `encodes_of_wf` gives every well-formed instruction its fields, which the decoder reads back; `sound_decodeRaw` says
of every major that what it reads is well-formed, and which check refuses its reserved words. -/
theorem encodeThenDecode : Obligations.EncodeThenDecode :=
  ⟨reservedWordsAreRefused, fun _ _ hw h => decodeNat_of_encode hw h, fun _ hw => exists_encode hw,
    fun _ _ h => wf_of_decodeNat h⟩

end Sys2Proof.Codec

namespace Sys2Proof.Results

open Sys2Proof.Machine Sys2Proof.Claims

/-! ### The values of the types, and their results (R89, R90) -/

theorem width_pos (t : Ty) : 0 < t.width := by cases t <;> decide

theorem width_le (t : Ty) : t.width ≤ 64 := by cases t <;> decide

theorem wrap_lt (x : Int) (n : Nat) : wrap x n < 2 ^ n := by
  have h : (0 : Int) < 2 ^ n := by positivity
  have h2 := Int.emod_lt_of_pos x h
  have h3 := Int.emod_nonneg x h.ne'
  zify [wrap]
  rwa [Int.toNat_of_nonneg h3]

theorem wrap_cast (x : Int) (n : Nat) : (wrap x n : Int) = x % 2 ^ n :=
  Int.toNat_of_nonneg (Int.emod_nonneg x (by positivity))

theorem wrap_natCast (x n : Nat) : wrap x n = x % 2 ^ n := by
  zify
  rw [wrap_cast]

theorem ofNat_wrap (x : Int) (n : Nat) : BitVec.ofNat n (wrap x n) = BitVec.ofInt n x := by
  apply BitVec.eq_of_toNat_eq
  rw [BitVec.toNat_ofNat, Nat.mod_eq_of_lt (wrap_lt x n), BitVec.toNat_ofInt, wrap]
  norm_cast

/-- A number of n bits is its residue, read with the sign. -/
theorem toSigned_wrap {n : Nat} (hn : 0 < n) (x : Int) :
    toSigned (wrap x n) n = -2 ^ (n - 1) + (x - -2 ^ (n - 1)) % 2 ^ n := by
  obtain ⟨k, rfl⟩ : ∃ k, n = k + 1 := ⟨n - 1, by omega⟩
  have hp : (2 : Int) ^ (k + 1) = 2 * 2 ^ k := by ring
  have hq : 2 ^ (k + 1) = 2 * 2 ^ k := by ring
  have hc := wrap_cast x (k + 1)
  have hlt := wrap_lt x (k + 1)
  have hk : ((2 ^ k : Nat) : Int) = 2 ^ k := by norm_cast
  rw [toSigned, Nat.mod_eq_of_lt hlt, Nat.add_sub_cancel]
  rw [hp] at hc ⊢
  generalize wrap x (k + 1) = y at *
  rw [hq] at hlt
  have hd := Int.emod_add_mul_ediv x (2 * 2 ^ k)
  rw [← hc] at hd
  have hpos : (0 : Int) < 2 ^ k := by positivity
  have hx : x - -2 ^ k = ((y : Int) + 2 ^ k) + 2 * 2 ^ k * (x / (2 * 2 ^ k)) := by linarith
  rw [hx, Int.add_mul_emod_self_left]
  split
  next hy =>
    rw [Int.emod_eq_of_lt (by omega) (by omega)]
    ring
  next hy =>
    rw [← Int.sub_emod_right, Int.emod_eq_of_lt (by omega) (by omega)]
    ring

/-- The residue that a type keeps (R90). -/
theorem fit_false (t : Ty) (x : Int) :
    fit t false x = if t.signed then toSigned (wrap x t.width) t.width else (wrap x t.width : Nat) := by
  unfold fit
  cases hs : t.signed
  · simp [wrap_cast]
  · simp [toSigned_wrap (width_pos t)]

/-- The value of a type of 64 bits is its residue or 2^64 below. -/
theorem fit_wide {t : Ty} (ht : t.width = 64) (x : Int) :
    fit t false x = wrap x 64 ∨ fit t false x = (wrap x 64 : Int) - 2 ^ 64 := by
  have hlt := wrap_lt x 64
  rw [fit_false, ht, toSigned, Nat.mod_eq_of_lt hlt]
  split
  · split
    · exact .inl rfl
    · exact .inr rfl
  · exact .inl rfl

theorem dword_of_residue {n : Nat} {v : Int} (hv : v = n ∨ v = (n : Int) - 2 ^ 64) :
    LaneRes.dword n = ⟨[BitVec.ofInt 32 v, BitVec.ofInt 32 (v / 2 ^ 32)], BitVec.ofInt 64 v, false, 0⟩ := by
  have low : BitVec.ofNat 32 n = BitVec.ofInt 32 v := by
    apply BitVec.eq_of_toNat_eq
    rw [BitVec.toNat_ofNat, BitVec.toNat_ofInt]
    omega
  have high : BitVec.ofNat 32 (n / 2 ^ 32) = BitVec.ofInt 32 (v / 2 ^ 32) := by
    apply BitVec.eq_of_toNat_eq
    rw [BitVec.toNat_ofNat, BitVec.toNat_ofInt]
    omega
  have whole : BitVec.ofNat 64 n = BitVec.ofInt 64 v := by
    apply BitVec.eq_of_toNat_eq
    rw [BitVec.toNat_ofNat, BitVec.toNat_ofInt]
    omega
  rw [LaneRes.dword, low, high, whole]

/-- A residue is delivered as its type has it (R67, R89). -/
theorem ofTy_wrap (t : Ty) (x : Int) : LaneRes.ofTy t (wrap x t.width) = typed t (fit t false x) := by
  unfold LaneRes.ofTy typed
  by_cases ht : t.width = 64
  · rw [if_pos ht, if_pos ht]
    exact dword_of_residue (ht ▸ fit_wide ht x)
  · rw [if_neg ht, if_neg ht, fit_false]
    cases hs : t.signed
    · simp only [Bool.false_eq_true, if_false, Nat.mod_eq_of_lt (wrap_lt x _), BitVec.ofInt_natCast]
    · simp only [if_true, ofNat_wrap]

theorem ofTy_natCast (t : Ty) (n : Nat) : LaneRes.ofTy t (n % 2 ^ t.width) = intRes t false n := by
  rw [← wrap_natCast, ofTy_wrap]
  rfl

/-- What a type delivers of a code is a matter of the code's residue. -/
theorem ofTy_mod (t : Ty) (n : Nat) : LaneRes.ofTy t (n % 2 ^ t.width) = LaneRes.ofTy t n := by
  unfold LaneRes.ofTy
  by_cases ht : t.width = 64
  · have low : BitVec.ofNat 32 (n % 2 ^ 64) = BitVec.ofNat 32 n := by
      apply BitVec.eq_of_toNat_eq
      rw [BitVec.toNat_ofNat, BitVec.toNat_ofNat]
      omega
    have high : BitVec.ofNat 32 (n % 2 ^ 64 / 2 ^ 32) = BitVec.ofNat 32 (n / 2 ^ 32) := by
      apply BitVec.eq_of_toNat_eq
      rw [BitVec.toNat_ofNat, BitVec.toNat_ofNat]
      omega
    have whole : BitVec.ofNat 64 (n % 2 ^ 64) = BitVec.ofNat 64 n := by
      apply BitVec.eq_of_toNat_eq
      rw [BitVec.toNat_ofNat, BitVec.toNat_ofNat, Nat.mod_mod]
    rw [if_pos ht, if_pos ht, ht, LaneRes.dword, LaneRes.dword, low, high, whole]
  · rw [if_neg ht, if_neg ht, toSigned, toSigned, Nat.mod_mod]

theorem intRes_natCast (t : Ty) (n : Nat) : intRes t false n = LaneRes.ofTy t n := by rw [← ofTy_natCast, ofTy_mod]

theorem fit_of_mem {t : Ty} {x : Int} (hl : Ty.lo t ≤ x) (hu : x ≤ Ty.hi t) : fit t false x = x := by
  have hp : (2 : Int) ^ t.width = 2 * 2 ^ (t.width - 1) := by
    rw [← pow_succ', Nat.sub_add_cancel (width_pos t)]
  unfold fit
  unfold Ty.lo Ty.hi at *
  push_cast at hl hu
  cases hs : t.signed <;> simp only [hs, Bool.false_eq_true, if_false, if_true] at hl hu ⊢
  · rw [Int.emod_eq_of_lt (by omega) (by omega)]
    omega
  · rw [Int.emod_eq_of_lt (by omega) (by omega)]
    omega

/-- Saturation clamps first (R90). -/
theorem fit_true (t : Ty) (x : Int) : fit t true x = max (Ty.lo t) (min x (Ty.hi t)) := by
  have hp : (2 : Int) ^ t.width = 2 * 2 ^ (t.width - 1) := by
    rw [← pow_succ', Nat.sub_add_cancel (width_pos t)]
  unfold fit Ty.lo Ty.hi
  push_cast
  cases t.signed
  · simp
  · simp only [if_true, hp]
    congr 2
    ring

theorem lo_le_hi (t : Ty) : Ty.lo t ≤ Ty.hi t := by cases t <;> decide

/-- An exact value is delivered as R90 has it. -/
theorem deliverInt_eq (t : Ty) (sat : Bool) (x : Int) : deliverInt t sat x = intRes t sat x := by
  rw [deliverInt, ofTy_wrap, intRes]
  cases sat
  · rfl
  · rw [if_pos rfl, fit_of_mem (le_max_left _ _) (max_le (lo_le_hi t) (min_le_right _ _)), fit_true]

theorem dword_wrap (x : Int) : LaneRes.dword (wrap x 64) = intRes .n64 false x := ofTy_wrap .n64 x

/-- One word, zero-extended. -/
theorem word_eq_typed {n : Nat} (h : n < 2 ^ 32) : LaneRes.word n = typed .n32 n := by
  rw [LaneRes.word, Nat.mod_eq_of_lt h]
  simp only [typed, Ty.width, BitVec.ofInt_natCast]
  rfl

@[simp] theorem typed_flags (t : Ty) (v : Int) : (typed t v).flags = 0 := rfl

@[simp] theorem intRes_flags (t : Ty) (sat : Bool) (x : Int) : (intRes t sat x).flags = 0 := rfl

@[simp] theorem bitRes_flags (t : Ty) (f : Nat → Bool) : (bitRes t f).flags = 0 := rfl

/-! ### The codes of operands fit their widths (R36) -/

theorem fconst_f32_lt : ∀ c : Fin 16, fconst f32 c.val < 2 ^ 32 := by decide +kernel

theorem word_lt (x : Rd) (a : Src) (l : Nat) : x.word a l < 2 ^ 32 := by
  cases a with
  | v k => exact BitVec.isLt _
  | s k => exact Nat.mod_lt _ (by decide)
  | b k => exact BitVec.isLt _
  | int c => exact wrap_lt _ _
  | flt c => exact fconst_f32_lt c
  | lit w => exact BitVec.isLt _
  | win k off => exact Nat.mod_lt _ (by decide)

theorem dword_lt (x : Rd) (a : Src) (l : Nat) : x.dword a l < 2 ^ 64 := by
  cases a with
  | v k => exact BitVec.isLt _
  | s k => exact BitVec.isLt _
  | b k =>
    have h1 := (x.r.latchGet k.val l).isLt
    have h2 := (x.r.latchGet (k.val + 1) l).isLt
    simp only [Rd.dword]
    omega
  | int c => exact wrap_lt _ _
  | flt c => exact Nat.two_pow_pos 64
  | lit w => exact wrap_lt _ _
  | win k off => exact Nat.mod_lt _ (by decide)

theorem code_lt (x : Rd) (a : Src) (w l : Nat) : x.code a w l < 2 ^ w := by
  unfold Rd.code
  split
  next h => rw [h]; exact dword_lt x a l
  · exact Nat.mod_lt _ (Nat.two_pow_pos w)

theorem code_word (x : Rd) (a : Src) (l : Nat) : x.code a 32 l = x.word a l := by
  rw [Rd.code, if_neg (by decide), Nat.mod_eq_of_lt (word_lt x a l)]

theorem i32_eq (x : Rd) (a : Src) (l : Nat) : x.i32 a l = x.int .i32 a l := by
  have h : x.int .i32 a l = toSigned (x.code a 32 l) 32 := rfl
  rw [h, code_word, Rd.i32]

theorem n32_eq (x : Rd) (a : Src) (l : Nat) : (x.word a l : Int) = x.int .n32 a l := by
  have h : x.int .n32 a l = (x.code a 32 l : Nat) := rfl
  rw [h, code_word]

end Sys2Proof.Results

namespace Sys2Proof.Results

open Sys2Proof.Machine Sys2Proof.Claims

/-! ### Results bit by bit (R98 to R107) -/

theorem bits_one_beq (x k : Nat) : (bits x k 1 == 1) = x.testBit k := by
  rw [Nat.testBit_eq_decide_div_mod_eq]
  rfl

theorem bits_one (x k : Nat) : bits x k 1 = (x.testBit k).toNat := by
  rw [Nat.toNat_testBit]
  rfl

theorem ofBits_succ (w : Nat) (f : Nat → Bool) : ofBits (w + 1) f = ofBits w f + if f w then 2 ^ w else 0 := by
  rw [ofBits, List.range_succ, List.foldl_append]
  cases h : f w <;> simp [ofBits, h]

/-- The bits of a number make its residue. -/
theorem ofBits_eq_mod {w n : Nat} {f : Nat → Bool} (h : ∀ j < w, n.testBit j = f j) : ofBits w f = n % 2 ^ w := by
  induction w with
  | zero => simp [ofBits, Nat.mod_one]
  | succ w ih =>
    rw [ofBits_succ, ih fun j hj => h j (by omega), ← h w (by omega), Nat.mod_pow_succ, ← Nat.toNat_testBit]
    cases n.testBit w <;> simp

/-- A result given bit by bit is that of any code with these bits. -/
theorem ofTy_eq_bitRes {t : Ty} {n : Nat} {f : Nat → Bool} (h : ∀ j < t.width, n.testBit j = f j) :
    LaneRes.ofTy t n = bitRes t f := by
  rw [bitRes, ofBits_eq_mod h, ← ofTy_mod, ← intRes_natCast]
  rfl

section
variable {w a b j : Nat}

theorem testBit_ones_sub (ha : a < 2 ^ w) : (ones w - a).testBit j = (decide (j < w) && !a.testBit j) := by
  rw [ones, Nat.sub_sub, Nat.add_comm, Nat.testBit_two_pow_sub_succ ha]

theorem reverseBits_succ (w a : Nat) : reverseBits (w + 1) a = 2 * reverseBits w a + (a.testBit w).toNat := by
  rw [reverseBits, List.range_succ, List.foldl_append, List.foldl_cons, List.foldl_nil, bits_one, Nat.mul_comm]
  rfl

theorem testBit_reverseBits (hj : j < w) : (reverseBits w a).testBit j = a.testBit (w - 1 - j) := by
  induction w generalizing j with
  | zero => omega
  | succ w ih =>
    rw [reverseBits_succ]
    cases j with
    | zero =>
      rw [Nat.add_sub_cancel, Nat.sub_zero]
      cases a.testBit w <;> simp
    | succ j =>
      rw [Nat.testBit_succ, show (2 * reverseBits w a + (a.testBit w).toNat) / 2 = reverseBits w a by
        rw [Nat.mul_add_div (by decide), Nat.div_eq_of_lt (Bool.toNat_lt _), Nat.add_zero], ih (by omega)]
      congr 1
      omega

/-! #### The bit function of three words (R98) -/

/-- One entry of the truth table of `bitFn`. -/
def entry (w a b c k : Nat) : Nat :=
  (if bits k 0 1 = 1 then a else ones w - a) &&& (if bits k 1 1 = 1 then b else ones w - b) &&&
    (if bits k 2 1 = 1 then c else ones w - c)

theorem testBit_foldl_or (p : Nat → Prop) [DecidablePred p] (g : Nat → Nat) (l : List Nat) (n j : Nat) :
    (l.foldl (fun acc k => if p k then acc ||| g k else acc) n).testBit j =
      (n.testBit j || l.any fun k => decide (p k) && (g k).testBit j) := by
  induction l generalizing n with
  | nil => simp
  | cons k l ih =>
    rw [List.foldl_cons, ih]
    by_cases hk : p k <;> simp [hk, Bool.or_assoc]

theorem testBit_choose (ha : a < 2 ^ w) (hj : j < w) (k i : Nat) :
    (if bits k i 1 = 1 then a else ones w - a).testBit j = (k.testBit i == a.testBit j) := by
  rw [bits_one]
  cases k.testBit i <;> simp [testBit_ones_sub ha, hj]

theorem testBit_entry {c : Nat} (ha : a < 2 ^ w) (hb : b < 2 ^ w) (hc : c < 2 ^ w) (hj : j < w) (k : Nat) :
    (entry w a b c k).testBit j = ((k.testBit 0 == a.testBit j) && (k.testBit 1 == b.testBit j) && (k.testBit 2 == c.testBit j)) := by
  rw [entry, Nat.testBit_and, Nat.testBit_and, testBit_choose ha hj, testBit_choose hb hj, testBit_choose hc hj]

theorem testBit_bitFn {c : Nat} (lut : BitVec 8) (ha : a < 2 ^ w) (hb : b < 2 ^ w) (hc : c < 2 ^ w) (hj : j < w) :
    (bitFn lut.toNat w a b c).testBit j =
      lut.getLsbD ((a.testBit j).toNat + 2 * (b.testBit j).toNat + 4 * (c.testBit j).toNat) := by
  have h : bitFn lut.toNat w a b c =
      (List.range 8).foldl (fun acc k => if bits lut.toNat k 1 = 1 then acc ||| entry w a b c k else acc) 0 := rfl
  have hl (k : Nat) : decide (bits lut.toNat k 1 = 1) = lut.getLsbD k := by
    rw [bits_one]
    cases hk : lut.toNat.testBit k <;> simp [BitVec.getLsbD, hk]
  simp only [h, testBit_foldl_or, testBit_entry ha hb hc hj, hl]
  generalize a.testBit j = x
  generalize b.testBit j = y
  generalize c.testBit j = z
  cases x <;> cases y <;> cases z <;> simp [List.range_succ, Nat.testBit_succ]

/-! #### Shifts and bit fields (R99, R100) -/

theorem toSigned_eq_toInt (hw : 0 < w) : toSigned a w = (BitVec.ofNat w a).toInt := by
  have hp : 2 ^ w = 2 * 2 ^ (w - 1) := by rw [← pow_succ', Nat.sub_add_cancel hw]
  have hi : ((2 ^ w : Nat) : Int) = 2 ^ w := by norm_cast
  rw [BitVec.toInt_eq_toNat_cond, toSigned, BitVec.toNat_ofNat, hi]
  split <;> split <;> omega

/-- A bit of a signed number, shifted and extended: past its top the sign stands. -/
theorem testBit_wrap_toSigned {n m : Nat} (hn : 0 < n) (hj : j < w) :
    (wrap (toSigned a n / 2 ^ m) w).testBit j = a.testBit (min (j + m) (n - 1)) := by
  have h : wrap (toSigned a n / 2 ^ m) w = (((BitVec.ofNat n a).sshiftRight m).signExtend w).toNat := by
    rw [BitVec.signExtend, BitVec.toInt_sshiftRight, Int.shiftRight_eq_div_pow, ← toSigned_eq_toInt hn, ← ofNat_wrap,
      BitVec.toNat_ofNat, Nat.mod_eq_of_lt (wrap_lt _ _)]
    norm_cast
  have hget {i : Nat} (hi : i < n) : (BitVec.ofNat n a).getLsbD i = a.testBit i := by
    rw [BitVec.getLsbD_ofNat, decide_eq_true hi, Bool.true_and]
  rw [h, BitVec.testBit_toNat, BitVec.getLsbD_signExtend, BitVec.getLsbD_sshiftRight, BitVec.msb_sshiftRight,
    BitVec.msb_eq_getLsbD_last, hget (show n - 1 < n by omega)]
  simp only [hj, decide_true, Bool.true_and]
  by_cases h1 : m + j < n
  · rw [if_pos (by omega), if_pos h1, hget h1, min_eq_left (by omega), Nat.add_comm]
    simp [show ¬ n ≤ j by omega]
  · rw [if_neg h1, min_eq_right (by omega)]
    split
    · simp [show ¬ n ≤ j by omega]
    · rfl

theorem testBit_eq_false (ha : a < 2 ^ w) (hj : w ≤ j) : a.testBit j = false :=
  Nat.testBit_lt_two_pow (ha.trans_le (Nat.pow_le_pow_right (by decide) hj))

theorem shiftRight_logical (ha : a < 2 ^ w) (n : Nat) : shiftRight false w a n = a / 2 ^ n := by
  rw [shiftRight, if_neg (by decide)]
  rcases le_total n w with h | h
  · rw [min_eq_left h]
  · rw [min_eq_right h, Nat.div_eq_of_lt ha, Nat.div_eq_of_lt (ha.trans_le (Nat.pow_le_pow_right (by decide) h))]

theorem testBit_shiftRight_arithmetic (hj : j < w) (n : Nat) :
    (shiftRight true w a n).testBit j = a.testBit (min (j + n) (w - 1)) := by
  rw [shiftRight, if_pos rfl, testBit_wrap_toSigned (by omega) hj]
  congr 1
  omega

theorem shl_mod (w a n : Nat) : (if w ≤ n then 0 else a * 2 ^ n) % 2 ^ w = a * 2 ^ n % 2 ^ w := by
  split
  next h => rw [Nat.zero_mod, Nat.mod_eq_zero_of_dvd (dvd_mul_of_dvd_right (pow_dvd_pow 2 h) a)]
  · rfl

theorem testBit_rotl (ha : a < 2 ^ w) (hj : j < w) (n : Nat) :
    (rotl w a n).testBit j = a.testBit ((j + w - n % w) % w) := by
  have hk : n % w < w := Nat.mod_lt _ (by omega)
  unfold rotl
  generalize n % w = k at *
  have hw : 2 ^ w = 2 ^ k * 2 ^ (w - k) := by rw [← pow_add, Nat.add_sub_cancel' hk.le]
  have hlow : a / 2 ^ (w - k) < 2 ^ k := by
    rw [Nat.div_lt_iff_lt_mul (Nat.two_pow_pos _), ← hw]
    exact ha
  have hsplit : a * 2 ^ k % 2 ^ w = 2 ^ k * (a % 2 ^ (w - k)) := by rw [hw, Nat.mul_comm a, Nat.mul_mod_mul_left]
  rw [hsplit, Nat.testBit_two_pow_mul_add _ hlow]
  split
  next h =>
    rw [Nat.testBit_div_two_pow, Nat.mod_eq_of_lt (by omega)]
    congr 1
    omega
  next h =>
    rw [Nat.testBit_mod_two_pow, show j + w - k = j - k + w by omega, Nat.add_mod_right, Nat.mod_eq_of_lt (by omega)]
    simp only [show j - k < w - k by omega, decide_true, Bool.true_and]

end

end Sys2Proof.Results

namespace Sys2Proof.Results

open Sys2Proof.Machine Sys2Proof.Claims

/-! ### Bit fields, counts and the byte permutation (R100 to R102) -/

section
variable {w a b j : Nat}

/-- The bit of a bit field of n bits from s on (R100), as `shiftRow` has it. -/
def fieldBit (t : Ty) (a s n j : Nat) : Bool :=
  if n = 0 then false
  else if j < n ∨ t.signed = true then
    (if s + min j (n - 1) < t.width then a.testBit (s + min j (n - 1)) else t.signed && a.testBit (t.width - 1))
  else false

theorem testBit_fieldOut {t : Ty} (ha : a < 2 ^ t.width) (ctl : Nat) (hj : j < t.width) :
    (fieldOut t a ctl).testBit j = fieldBit t a (ctl % 256) (min (ctl / 256 % 256) t.width) j := by
  have hs : bits ctl 0 8 = ctl % 256 := by simp [bits]
  have hn : bits ctl 8 8 = ctl / 256 % 256 := rfl
  simp only [fieldOut, fieldBit, hs, hn]
  generalize ctl % 256 = s
  have hle : min (ctl / 256 % 256) t.width ≤ t.width := min_le_right _ _
  generalize min (ctl / 256 % 256) t.width = n at *
  by_cases h0 : n = 0
  · simp [h0]
  · rw [if_neg h0, if_neg h0]
    cases ht : t.signed
    · simp only [Bool.false_eq_true, if_false, or_false, Bool.false_and]
      have hf : wrap ((a : Int) / 2 ^ s) n = a / 2 ^ s % 2 ^ n := by
        rw [← wrap_natCast]
        norm_cast
      rw [hf, Nat.testBit_mod_two_pow, Nat.testBit_div_two_pow]
      by_cases hjn : j < n
      · rw [if_pos hjn, min_eq_left (by omega), Nat.add_comm j s, decide_eq_true hjn, Bool.true_and]
        split
        · rfl
        next h => exact testBit_eq_false ha (by omega)
      · rw [if_neg hjn, decide_eq_false hjn, Bool.false_and]
    · simp only [if_true, or_true, Bool.true_and]
      have h := testBit_wrap_toSigned (w := t.width) (a := wrap (toSigned a t.width / 2 ^ s) n) (m := 0) (j := j)
        (by omega : 0 < n) hj
      rw [pow_zero, Int.ediv_one, Nat.add_zero] at h
      rw [h, testBit_wrap_toSigned (width_pos t) (by omega), Nat.add_comm s]
      split
      · rw [min_eq_left (by omega)]
      · rw [min_eq_right (by omega)]

theorem testBit_fieldIn (ctl : Nat) (hj : j < w) :
    (fieldIn w a b ctl).testBit j =
      if ctl % 256 ≤ j ∧ j < ctl % 256 + min (ctl / 256 % 256) w then a.testBit (j - ctl % 256) else b.testBit j := by
  have hs : bits ctl 0 8 = ctl % 256 := by simp [bits]
  have hn : bits ctl 8 8 = ctl / 256 % 256 := rfl
  simp only [fieldIn, hs, hn]
  generalize ctl % 256 = s
  generalize min (ctl / 256 % 256) w = n
  have hm : (ones n * 2 ^ s % 2 ^ w).testBit j = decide (s ≤ j ∧ j < s + n) := by
    rw [Nat.testBit_mod_two_pow, Nat.testBit_mul_two_pow, ones, Nat.testBit_two_pow_sub_one, decide_eq_true hj, Bool.true_and,
      ← Bool.decide_and]
    exact decide_eq_decide.2 (by omega)
  rw [Nat.testBit_or, Nat.testBit_and, Nat.testBit_and, testBit_ones_sub (Nat.mod_lt _ (Nat.two_pow_pos w)), hm,
    Nat.testBit_mul_two_pow, decide_eq_true hj]
  by_cases h : s ≤ j ∧ j < s + n
  · simp [h]
  · simp [h]

/-! #### Counts (R101) -/

theorem popCount_eq (w a : Nat) : popCount w a = ((List.range w).filter fun j => a.testBit j).length := by
  induction w with
  | zero => rfl
  | succ w ih =>
    have h : popCount (w + 1) a = popCount w a + bits a w 1 := by
      rw [popCount, List.range_succ, List.foldl_append]
      rfl
    rw [h, ih, bits_one, List.range_succ, List.filter_append, List.length_append]
    cases hb : a.testBit w <;> simp [hb]

theorem length_takeWhile_range {p : Nat → Bool} {n k : Nat} (hk : k ≤ n) (h : ∀ j < k, p j = true)
    (hn : k < n → p k = false) : ((List.range n).takeWhile p).length = k := by
  obtain ⟨m, rfl⟩ := Nat.exists_eq_add_of_le hk
  rw [List.range_add, List.takeWhile_append_of_pos fun j hj => h j (List.mem_range.1 hj)]
  cases m with
  | zero => simp
  | succ m =>
    have hp : p k = false := hn (by omega)
    simp [List.range_succ_eq_map, hp]

theorem leadingZeros_eq (ha : a < 2 ^ w) :
    leadingZeros w a = ((List.range w).takeWhile fun j => !a.testBit (w - 1 - j)).length := by
  symm
  unfold leadingZeros
  split
  next h =>
    subst h
    exact length_takeWhile_range le_rfl (fun j _ => by simp) fun h => absurd h (lt_irrefl w)
  next h =>
    have hlog : a.log2 < w := (Nat.log2_lt h).2 ha
    refine length_takeWhile_range (by omega) (fun j hj => ?_) fun _ => ?_
    · rw [testBit_eq_false Nat.lt_log2_self (by omega)]
      rfl
    · rw [show w - 1 - (w - 1 - a.log2) = a.log2 by omega, Nat.testBit_log2 h]
      rfl

theorem trailingZeros_eq (w a : Nat) :
    trailingZeros w a = ((List.range w).takeWhile fun j => !a.testBit j).length := by
  symm
  simp only [trailingZeros, bits_one_beq]
  cases hf : (List.range w).find? fun k => a.testBit k with
  | none =>
    exact length_takeWhile_range le_rfl (List.find?_range_eq_none.1 hf) fun h => absurd h (lt_irrefl w)
  | some k =>
    obtain ⟨hk, hm, hlow⟩ := List.find?_range_eq_some.1 hf
    exact length_takeWhile_range (List.mem_range.1 hm).le hlow fun _ => by
      rw [Option.getD_some, hk]
      rfl

/-- A count fits its word. -/
theorem length_takeWhile_lt (t : Ty) (p : Nat → Bool) : ((List.range t.width).takeWhile p).length < 2 ^ 32 :=
  calc ((List.range t.width).takeWhile p).length ≤ (List.range t.width).length := (List.takeWhile_sublist p).length_le
    _ = t.width := List.length_range
    _ < 2 ^ 32 := (width_le t).trans_lt (by decide)

theorem length_filter_lt (t : Ty) (p : Nat → Bool) : ((List.range t.width).filter p).length < 2 ^ 32 :=
  calc ((List.range t.width).filter p).length ≤ (List.range t.width).length := List.length_filter_le ..
    _ = t.width := List.length_range
    _ < 2 ^ 32 := (width_le t).trans_lt (by decide)

/-! #### The byte permutation (R102) -/

/-- Bit i of the byte that bsel takes for the control byte f, as `countRow` has it. -/
def permuteBit (x f i : Nat) : Bool :=
  match f / 8 % 4 with
  | 0 => (x / 2 ^ (8 * (f % 8)) % 256).testBit i
  | 1 => false
  | 2 => (x / 2 ^ (8 * (f % 8)) % 256).testBit 7
  | _ => true

theorem bselByte_lt (x f : Nat) : bselByte x f < 2 ^ 8 := by
  simp only [bselByte]
  split
  · exact Nat.mod_lt _ (by decide)
  · decide
  · split <;> decide
  · decide

theorem testBit_bselByte {i : Nat} (x f : Nat) (hi : i < 8) : (bselByte x f).testBit i = permuteBit x f i := by
  have hall : (255 : Nat).testBit i = true := by
    have h := Nat.testBit_two_pow_sub_one 8 i
    rwa [decide_eq_true hi] at h
  have hf : bits f 0 3 = f % 8 := by simp [bits]
  have hm : bits f 3 2 = f / 8 % 4 := rfl
  have hy : bits x (8 * (f % 8)) 8 = x / 2 ^ (8 * (f % 8)) % 256 := rfl
  simp only [bselByte, permuteBit, hf, hm, hy, bits_one]
  generalize f / 8 % 4 = q
  match q with
  | 0 => rfl
  | 1 => exact Nat.zero_testBit i
  | 2 =>
    cases (x / 2 ^ (8 * (f % 8)) % 256).testBit 7
    · exact Nat.zero_testBit i
    · exact hall
  | _ + 3 => exact hall

/-- Four bytes in a row. -/
theorem testBit_foldl_bytes {g : Nat → Nat} (hg : ∀ j, g j < 2 ^ 8) (n : Nat) :
    ∀ k < 8 * n, ((List.range n).foldl (fun acc j => acc + 2 ^ (8 * j) * g j) 0).testBit k = (g (k / 8)).testBit (k % 8) := by
  have hlt (n : Nat) : (List.range n).foldl (fun acc j => acc + 2 ^ (8 * j) * g j) 0 < 2 ^ (8 * n) := by
    induction n with
    | zero => exact Nat.one_pos
    | succ n ih =>
      have h := hg n
      have hp : 2 ^ (8 * (n + 1)) = 2 ^ (8 * n) * 2 ^ 8 := by rw [← pow_add]; rfl
      rw [List.range_succ, List.foldl_append, List.foldl_cons, List.foldl_nil, hp]
      nlinarith
  induction n with
  | zero => omega
  | succ n ih =>
    intro k hk
    rw [List.range_succ, List.foldl_append, List.foldl_cons, List.foldl_nil, Nat.add_comm, Nat.testBit_two_pow_mul_add _ (hlt n)]
    split
    next h => exact ih k h
    next h => rw [show k / 8 = n by omega, show k % 8 = k - 8 * n by omega]

theorem testBit_bytePermute (a b sel : Nat) {k : Nat} (hk : k < 32) :
    (bytePermute a b sel).testBit k = permuteBit (a + 2 ^ 32 * b) (sel / 2 ^ (8 * (k / 8)) % 256) (k % 8) := by
  rw [bytePermute, testBit_foldl_bytes (fun j => bselByte_lt _ _) 4 k hk, testBit_bselByte _ _ (Nat.mod_lt _ (by decide))]
  rfl

end

/-! ### Quotients, dot products and comparisons (R96, R103, R110) -/

theorem divInt_eq (t : Ty) (a b : Int) : divInt t a b = quotient t a b := by
  have hc : (t.signed && a == Ty.lo t && b == -1) = true ↔ t.signed ∧ a = -2 ^ (t.width - 1) ∧ b = -1 := by
    cases hs : t.signed <;> simp [Ty.lo, hs]
  simp only [divInt, quotient, hc]

theorem remInt_eq (t : Ty) (a b : Int) : remInt t a b = remainder t a b := by
  have hc : (t.signed && a == Ty.lo t && b == -1) = true ↔ t.signed ∧ a = -2 ^ (t.width - 1) ∧ b = -1 := by
    cases hs : t.signed <;> simp [Ty.lo, hs]
  simp only [remInt, remainder, hc, Int.tmod_def]

theorem byteOf_eq_element (u : Bool) (w j : Nat) : Claims.byteOf u w j = Machine.element w 8 j u := by
  cases u <;> simp [Claims.byteOf, Machine.element, bits, toSigned]

theorem halfOf_eq_element (u : Bool) (w j : Nat) : Claims.halfOf u w j = Machine.element w 16 j u := by
  cases u <;> simp [Claims.halfOf, Machine.element, bits, toSigned]

end Sys2Proof.Results

namespace Sys2Proof.Results

open Sys2Proof.Machine Sys2Proof.Claims

/-! ### An instruction of the vector pipeline that computes what its row says -/

/-- The operation of the pipeline is what the row of the tables gives. -/
structure Computes (o : VecOp) (q : Row) : Prop where
  guard : o.g = q.g
  dst : o.d = q.d
  pred : o.pd = q.pd
  window : o.win = winOf q.srcs
  clocks : o.multi = q.multi
  extra : ∀ x, o.extra x = []
  result : ∀ x l, o.f x l = q.res x l
  quiet : ∀ x l, (q.res x l).flags = 0

theorem flagsOf_eq_zero {act : Mask} {d : Option Dst} {res : Nat → LaneRes} (h : ∀ l, (res l).flags = 0) :
    flagsOf act d res = 0 := by
  have hf : (fun (a : Flags) (l : Nat) => a ||| (res l).flags) = fun a _ => a := by
    funext a l
    rw [h]
    exact BitVec.or_zero
  unfold flagsOf
  rw [hf]
  exact List.foldl_fixed ..

theorem completes_of_computes {s : State} {sl : Slot} {w : Warp} {r : Regs} {i : Instr} {q : Row} {x : Nat} (o : VecOp)
    (hc : s.Chosen sl w r) (hx : s.Reads sl w (active r sl.grp q.g) (winOf q.srcs) x) (he : exec i s = s.vec o)
    (ho : Computes o q) : Completes i q s sl w r x := by
  obtain ⟨hg, hd, hp, hw, hm, hextra, hres, hquiet⟩ := ho
  rw [← hg, ← hw] at hx
  obtain ⟨t, ht, hdone⟩ := State.vec_done o hc hx (hextra _) fun _ _ => by
    rw [flagsOf_eq_zero fun l => by rw [hres]; exact hquiet _ l]
    exact BitVec.zero_and
  refine ⟨t, he.trans ht, ?_⟩
  rw [← hg, ← hd, ← hp, ← hm, ← funext (hres _)]
  exact hdone

/-- What a table's statement needs of each of its instructions: the pipeline's operation, and that it computes the row. -/
def Tabled (row : DWord → Instr → Option Row) : Prop :=
  ∀ (s : State) (sl : Slot) (i : Instr) (q : Row), s.issue.head? = some sl → row sl.pc i = some q →
    ∃ o : VecOp, exec i s = s.vec o ∧ Computes o q

theorem rowsComplete_of_tabled {row : DWord → Instr → Option Row} (h : Tabled row) : RowsComplete row := by
  intro s sl w r i q x hc hq hx
  obtain ⟨o, he, ho⟩ := h s sl i q hc.head hq
  exact completes_of_computes o hc hx he ho

/-! ### Integer arithmetic (R95, R96) -/

section
variable {g : Guard} {d : Dst} {a b c : Src} {t : Ty} {sat multi : Bool}

theorem computes_int1 {i : Op1 IntM} {f : Int → Int} {h : (Src → Int) → Int} (hf : ∀ v, f (v i.a) = h v) :
    Computes (int1 i f) (intOp i.g i.d i.m.ty i.m.sat (wide i.m.ty) [i.a] h) :=
  ⟨rfl, rfl, rfl, rfl, rfl, fun _ => rfl,
    fun x l => (deliverInt_eq ..).trans (congrArg (intRes _ _) (hf fun a => x.int _ a l)), fun _ _ => rfl⟩

theorem computes_int2 {f : Int → Int → Int} {h : (Src → Int) → Int} (hf : ∀ v, f (v a) (v b) = h v) :
    Computes (int2 g d a b t sat multi f) (intOp g d t sat multi [a, b] h) :=
  ⟨rfl, rfl, rfl, rfl, rfl, fun _ => rfl,
    fun x l => (deliverInt_eq ..).trans (congrArg (intRes _ _) (hf fun a => x.int _ a l)), fun _ _ => rfl⟩

theorem computes_int3 {f : Int → Int → Int → Int} {h : (Src → Int) → Int} (hf : ∀ v, f (v a) (v b) (v c) = h v) :
    Computes (int3 g d a b c t sat multi f) (intOp g d t sat multi [a, b, c] h) :=
  ⟨rfl, rfl, rfl, rfl, rfl, fun _ => rfl,
    fun x l => (deliverInt_eq ..).trans (congrArg (intRes _ _) (hf fun a => x.int _ a l)), fun _ _ => rfl⟩

end

theorem natAbs_eq_ite (a : Int) : (if a < 0 then -a else a) = (a.natAbs : Int) := by
  split <;> omega

theorem natAbs_sub_eq_ite (a b : Int) : (if a < b then b - a else a - b) = ((a - b).natAbs : Int) := by
  split <;> omega

theorem tabled_intRow : Tabled fun _ => intRow := by
  intro s sl i q _ (hq : intRow i = some q)
  unfold intRow at hq
  split at hq
  case h_1 => cases hq; exact ⟨_, rfl, computes_int2 fun _ => rfl⟩
  case h_2 => cases hq; exact ⟨_, rfl, computes_int2 fun _ => rfl⟩
  case h_3 => cases hq; exact ⟨_, rfl, computes_int2 fun _ => rfl⟩
  case h_4 => cases hq; exact ⟨_, rfl, computes_int2 fun _ => rfl⟩
  case h_5 => cases hq; exact ⟨_, rfl, computes_int3 fun _ => rfl⟩
  case h_6 => cases hq; exact ⟨_, rfl, computes_int3 fun _ => rfl⟩
  case h_7 => cases hq; exact ⟨_, rfl, computes_int2 fun _ => divInt_eq ..⟩
  case h_8 => cases hq; exact ⟨_, rfl, computes_int2 fun _ => remInt_eq ..⟩
  case h_9 => cases hq; exact ⟨_, rfl, computes_int1 fun _ => natAbs_eq_ite _⟩
  case h_10 => cases hq; exact ⟨_, rfl, computes_int1 fun _ => rfl⟩
  case h_11 => cases hq; exact ⟨_, rfl, computes_int2 fun _ => rfl⟩
  case h_12 => cases hq; exact ⟨_, rfl, computes_int2 fun _ => rfl⟩
  case h_13 => cases hq; exact ⟨_, rfl, computes_int3 fun _ => congrArg (· + _) (natAbs_sub_eq_ite ..)⟩
  case h_14 => cases hq; exact ⟨_, rfl, computes_int3 fun _ => rfl⟩
  case h_15 => cases hq; exact ⟨_, rfl, computes_int3 fun _ => rfl⟩
  case h_16 => cases hq

end Sys2Proof.Results

namespace Sys2Proof.Results

open Sys2Proof.Machine Sys2Proof.Claims

/-! ### Carry chains, address forms and dot products (R97, R108 to R110): O7 -/

theorem carryIn_cast (x : Rd) (i : CarryI) (l : Nat) :
    (carryIn x i l : Int) = if i.ci && lane (x.r.pget i.pc) l then 1 else 0 := by
  unfold carryIn
  split <;> rfl

/-- A carry instruction whose sum or difference and whose carry are those of R97. -/
theorem computes_carry {i : CarryI} {f u : Int → Int → Int → Int} {out : Int → Bool} {p : Int → Prop} [DecidablePred p]
    (hf : ∀ a b c, f a b c = u a b c) (hp : ∀ x, out x = decide (p x)) :
    Computes (carryOp i f out) ⟨i.g, some i.d, some i.pc, [(i.a, wide i.ty), (i.b, wide i.ty)], wide i.ty, fun x l =>
      { intRes i.ty false (u (x.code i.a i.ty.width l) (x.code i.b i.ty.width l)
          (if i.ci && lane (x.r.pget i.pc) l then 1 else 0)) with
        p := decide (p (u (x.code i.a i.ty.width l) (x.code i.b i.ty.width l)
          (if i.ci && lane (x.r.pget i.pc) l then 1 else 0))) }⟩ := by
  refine ⟨rfl, rfl, rfl, rfl, rfl, fun _ => rfl, fun x l => ?_, fun _ _ => rfl⟩
  simp only [carryOp, ofTy_wrap, hf, hp, carryIn_cast, intRes]

theorem tabled_carryRow : Tabled fun _ => carryRow := by
  intro s sl i q _ (hq : carryRow i = some q)
  unfold carryRow at hq
  split at hq
  case h_1 i =>
    cases hq
    exact ⟨_, rfl, computes_carry (u := fun a b c => a + b + c) (fun _ _ _ => rfl) fun x => by push_cast; rfl⟩
  case h_2 i =>
    cases hq
    exact ⟨_, rfl, computes_carry (u := fun a b c => a - b - c) (fun _ _ _ => rfl) fun _ => rfl⟩
  case h_3 => cases hq

theorem computes_mulwd (i : Op2 Ty) :
    Computes { g := i.g, d := some i.d, pd := none, win := winOf [(i.a, false), (i.b, false)], multi := false, free := false
               f := fun x l => .dword (wrap (x.int i.m i.a l * x.int i.m i.b l) 64) }
      ⟨i.g, some i.d, none, [(i.a, false), (i.b, false)], false, fun x l =>
        intRes .n64 false (x.int i.m i.a l * x.int i.m i.b l)⟩ :=
  ⟨rfl, rfl, rfl, rfl, rfl, fun _ => rfl, fun _ _ => dword_wrap _, fun _ _ => rfl⟩

/-- The index of lea, in its reading (R109). -/
theorem index_eq (x : Rd) (n32 : Bool) (b : Src) (l : Nat) :
    (if n32 then (x.word b l : Int) else x.i32 b l) = x.int (if n32 then .n32 else .i32) b l := by
  cases n32
  · exact i32_eq x b l
  · exact n32_eq x b l

theorem computes_sethi (i : SethiI) {base y : Int} (h : base + toSigned i.imm.toNat 20 * 2 ^ 12 = y) :
    Computes (sethiOp i base) ⟨i.g, some (.s i.sd), none, [], false, fun _ _ => intRes .n64 false y⟩ :=
  ⟨rfl, rfl, rfl, rfl, rfl, fun _ => rfl, fun _ _ => by rw [← h]; exact dword_wrap _, fun _ _ => rfl⟩

theorem toSigned_imm (b : BitVec 20) : toSigned b.toNat 20 = b.toInt := by
  rw [toSigned_eq_toInt (by decide), BitVec.ofNat_toNat, BitVec.setWidth_eq]

/-- A dot product whose sum of elements is that of R110. -/
theorem computes_dot {i : Op3 DotM} {f e : Nat → Nat → Int} (h : ∀ a b, f a b = e a b) :
    Computes (dotOp i f) ⟨i.g, some i.d, none, [(i.a, false), (i.b, false), (i.c, false)], false, fun x l =>
      intRes .i32 i.m.sat (x.int .i32 i.c l + e (x.word i.a l) (x.word i.b l))⟩ := by
  refine ⟨rfl, rfl, rfl, rfl, rfl, fun _ => rfl, fun x l => ?_, fun _ _ => rfl⟩
  simp only [dotOp, deliverInt_eq, i32_eq, h]

/-- The sums of elements of idot4, idot2 and tacc (R110). -/
def sum4 (i : Op3 DotM) (a b : Nat) : Int :=
  let e (j : Nat) : Int := Claims.byteOf i.m.ua a j * Claims.byteOf i.m.ub b j
  e 0 + e 1 + e 2 + e 3
def sum2 (i : Op3 DotM) (a b : Nat) : Int :=
  let e (j : Nat) : Int := Claims.halfOf i.m.ua a j * Claims.byteOf i.m.ub b (2 * i.m.hi.toNat + j)
  e 0 + e 1
def sumSigns (i : Op3 DotM) (a b : Nat) : Int :=
  let e (j : Nat) : Int := (Claims.byteOf false b j).sign * Claims.byteOf i.m.ua a j
  e 0 + e 1 + e 2 + e 3

theorem sum_range_four (e : Nat → Int) : (List.range 4).foldl (fun acc j => acc + e j) 0 = e 0 + e 1 + e 2 + e 3 := by
  simp [List.range_succ]

theorem sum_range_two (e : Nat → Int) : (List.range 2).foldl (fun acc j => acc + e j) 0 = e 0 + e 1 := by
  simp [List.range_succ]

theorem tabled_addressRow : Tabled addressRow := by
  intro s sl i q hh hq
  unfold addressRow at hq
  split at hq
  case h_1 i => cases hq; exact ⟨_, rfl, computes_mulwd i⟩
  case h_2 i =>
    cases hq
    refine ⟨_, rfl, ⟨rfl, rfl, rfl, rfl, rfl, fun _ => rfl, fun x l => ?_, fun _ _ => rfl⟩⟩
    dsimp only
    rw [dword_wrap, index_eq, i32_eq]
  case h_3 i =>
    cases hq
    exact ⟨_, rfl, computes_sethi i (by rw [toSigned_imm, zero_add]; rfl)⟩
  case h_4 i =>
    cases hq
    refine ⟨_, rfl, computes_sethi i ?_⟩
    rw [toSigned_imm, hh]
    rfl
  case h_5 i =>
    cases hq
    exact ⟨_, rfl, computes_dot (e := sum4 i) fun a b => by simp only [sum4, sum_range_four, byteOf_eq_element]⟩
  case h_6 i =>
    cases hq
    exact ⟨_, rfl, computes_dot (e := sum2 i) fun a b => by
      simp only [sum2, sum_range_two, byteOf_eq_element, halfOf_eq_element]⟩
  case h_7 i =>
    cases hq
    exact ⟨_, rfl, computes_dot (e := sumSigns i) fun a b => by simp only [sumSigns, sum_range_four, byteOf_eq_element]⟩
  case h_8 => cases hq

/-- Settles O7: each instruction of the tables is the pipeline's operation on the values that the table gives
(`tabled_intRow`, `tabled_carryRow`, `tabled_addressRow`), which completes by `State.vec_done`. -/
theorem integerArithmeticCompletes : Obligations.IntegerArithmeticCompletes :=
  ⟨rowsComplete_of_tabled tabled_intRow, rowsComplete_of_tabled tabled_carryRow, rowsComplete_of_tabled tabled_addressRow⟩

end Sys2Proof.Results

namespace Sys2Proof.Results

open Sys2Proof.Machine Sys2Proof.Claims

/-! ### Bitwise instructions, shifts, bit fields, counts and predicates (R98 to R107): O8 -/

/-- A result delivered modulo 2^w is that of its bits. -/
theorem ofTy_mod_eq_bitRes {t : Ty} {n : Nat} {f : Nat → Bool} (h : ∀ j < t.width, n.testBit j = f j) :
    LaneRes.ofTy t (n % 2 ^ t.width) = bitRes t f := (ofTy_mod t n).trans (ofTy_eq_bitRes h)

theorem computes_code1 {i : Op1 Ty} {f : Nat → Nat} {p : Nat → Nat → Bool}
    (h : ∀ a < 2 ^ i.m.width, ∀ j < i.m.width, (f a).testBit j = p a j) :
    Computes (code1 i f) ⟨i.g, some i.d, none, [(i.a, wide i.m)], wide i.m, fun x l =>
      bitRes i.m (p (x.code i.a i.m.width l))⟩ :=
  ⟨rfl, rfl, rfl, rfl, rfl, fun _ => rfl, fun x l => ofTy_mod_eq_bitRes (h _ (code_lt x i.a _ l)), fun _ _ => rfl⟩

theorem computes_code2 {i : Op2 Ty} {f : Nat → Nat → Nat} {p : Bool → Bool → Bool}
    (h : ∀ a b, b < 2 ^ i.m.width → ∀ j < i.m.width, (f a b).testBit j = p (a.testBit j) (b.testBit j)) :
    Computes (code2 i f) (bitRow.two i.g i.d i.a i.b i.m p) :=
  ⟨rfl, rfl, rfl, rfl, rfl, fun _ => rfl, fun x l => ofTy_mod_eq_bitRes (h _ _ (code_lt x i.b _ l)), fun _ _ => rfl⟩

theorem dword_eq_bitRes {n : Nat} {f : Nat → Bool} (h : ∀ j < 64, n.testBit j = f j) : LaneRes.dword n = bitRes .n64 f :=
  ofTy_eq_bitRes (t := .n64) h

theorem word_eq_ofTy (n : Nat) : LaneRes.word n = LaneRes.ofTy .n32 n := by
  have h : BitVec.ofNat 32 (n % 2 ^ 32) = BitVec.ofNat 32 n := BitVec.eq_of_toNat_eq (by simp)
  rw [LaneRes.word, ← h]
  rfl

theorem word_eq_bitRes {n : Nat} {f : Nat → Bool} (h : ∀ j < 32, n.testBit j = f j) : LaneRes.word n = bitRes .n32 f :=
  (word_eq_ofTy n).trans (ofTy_eq_bitRes (t := .n32) h)

theorem tabled_bitRow : Tabled fun _ => bitRow := by
  intro s sl i q _ (hq : bitRow i = some q)
  unfold bitRow at hq
  split at hq
  case h_1 => cases hq; exact ⟨_, rfl, computes_code2 fun _ _ _ _ _ => Nat.testBit_and ..⟩
  case h_2 => cases hq; exact ⟨_, rfl, computes_code2 fun _ _ _ _ _ => Nat.testBit_or ..⟩
  case h_3 => cases hq; exact ⟨_, rfl, computes_code2 fun _ _ _ _ _ => Nat.testBit_xor ..⟩
  case h_4 i =>
    cases hq
    refine ⟨_, rfl, computes_code2 fun a b hb j hj => ?_⟩
    rw [Nat.testBit_and, testBit_ones_sub hb, decide_eq_true hj, Bool.true_and]
  case h_5 i =>
    cases hq
    refine ⟨_, rfl, computes_code1 (p := fun a j => !a.testBit j) fun a ha j hj => ?_⟩
    rw [testBit_ones_sub ha, decide_eq_true hj, Bool.true_and]
  case h_6 => cases hq; exact ⟨_, rfl, computes_code1 (p := Nat.testBit) fun _ _ _ _ => rfl⟩
  case h_7 i =>
    cases hq
    exact ⟨_, rfl, ⟨rfl, rfl, rfl, rfl, rfl, fun _ => rfl, fun x l => ofTy_eq_bitRes fun _ _ => rfl, fun _ _ => rfl⟩⟩
  case h_8 i =>
    cases hq
    exact ⟨_, rfl, computes_code1 (p := fun a j => a.testBit (i.m.width - 1 - j)) fun _ _ _ hj => testBit_reverseBits hj⟩
  case h_9 i =>
    cases hq
    have bit {w : Nat} (x : Rd) (l j : Nat) (hj : j < w) :=
      testBit_bitFn i.m (code_lt x i.a w l) (code_lt x i.b w l) (code_lt x i.c w l) hj
    obtain ⟨g, d, a, b, c, m⟩ := i
    refine ⟨_, rfl, ?_⟩
    cases d with
    | s k => exact ⟨rfl, rfl, rfl, rfl, rfl, fun _ => rfl, fun x l => dword_eq_bitRes (bit x l), fun _ _ => rfl⟩
    | v k => exact ⟨rfl, rfl, rfl, rfl, rfl, fun _ => rfl, fun x l => word_eq_bitRes (bit x l), fun _ _ => rfl⟩
    | b0 => exact ⟨rfl, rfl, rfl, rfl, rfl, fun _ => rfl, fun x l => word_eq_bitRes (bit x l), fun _ _ => rfl⟩
  case h_10 => cases hq

theorem computes_ctl2 {i : Op2 Ty} {f : Nat → Nat → Nat} {r : Nat → Nat → LaneRes}
    (h : ∀ a < 2 ^ i.m.width, ∀ n, LaneRes.ofTy i.m (f a n % 2 ^ i.m.width) = r a n) (hq : ∀ a n, (r a n).flags = 0) :
    Computes (ctl2 i f) (shiftRow.by_ i r) :=
  ⟨rfl, rfl, rfl, rfl, rfl, fun _ => rfl, fun x l => h _ (code_lt x i.a _ l) _, fun _ _ => hq _ _⟩

theorem ofTy_mod_eq_intRes {t : Ty} {n : Nat} {y : Int} (h : (n : Int) = y) :
    LaneRes.ofTy t (n % 2 ^ t.width) = intRes t false y := by rw [ofTy_natCast, h]

theorem tabled_shiftRow : Tabled fun _ => shiftRow := by
  intro s sl i q _ (hq : shiftRow i = some q)
  unfold shiftRow at hq
  split at hq
  case h_1 i =>
    cases hq
    refine ⟨_, rfl, computes_ctl2 (fun a _ n => ?_) fun _ _ => rfl⟩
    rw [shl_mod]
    exact ofTy_mod_eq_intRes (by push_cast; rfl)
  case h_2 i =>
    cases hq
    refine ⟨_, rfl, computes_ctl2 (fun a ha n => ?_) fun _ _ => rfl⟩
    rw [shiftRight_logical ha]
    exact ofTy_mod_eq_intRes (by push_cast; rfl)
  case h_3 i =>
    cases hq
    exact ⟨_, rfl, computes_ctl2 (i := i) (r := fun a n => bitRes i.m fun j => a.testBit (min (j + n) (i.m.width - 1)))
      (fun _ _ n => ofTy_mod_eq_bitRes fun _ hj => testBit_shiftRight_arithmetic hj n) fun _ _ => rfl⟩
  case h_4 i =>
    cases hq
    exact ⟨_, rfl, computes_ctl2 (fun _ ha n => ofTy_mod_eq_bitRes fun _ hj => testBit_rotl ha hj n) fun _ _ => rfl⟩
  case h_5 i =>
    cases hq
    refine ⟨_, rfl, ⟨rfl, rfl, rfl, rfl, rfl, fun _ => rfl, fun x l => ?_, fun _ _ => rfl⟩⟩
    dsimp only
    rw [← ofTy_natCast, funnel, apply_ite (· % 2 ^ i.m.ty.width)]
  case h_6 i =>
    cases hq
    exact ⟨_, rfl, computes_ctl2 (fun _ ha c => ofTy_mod_eq_bitRes fun _ hj => testBit_fieldOut ha c hj) fun _ _ => rfl⟩
  case h_7 i =>
    cases hq
    exact ⟨_, rfl, ⟨rfl, rfl, rfl, rfl, rfl, fun _ => rfl, fun x l => ofTy_eq_bitRes fun _ hj => testBit_fieldIn _ hj,
      fun _ _ => rfl⟩⟩
  case h_8 => cases hq

theorem computes_count {i : Op1 Ty} {f n : Nat → Nat → Nat} (h : ∀ a < 2 ^ i.m.width, f i.m.width a = n i.m.width a)
    (hlt : ∀ a, n i.m.width a < 2 ^ 32) : Computes (countOp i f) (countRow.by_ i n) := by
  refine ⟨rfl, rfl, rfl, rfl, rfl, fun _ => rfl, fun x l => ?_, fun _ _ => rfl⟩
  have hw : LaneRes.word (f i.m.width (x.code i.a i.m.width l)) = typed .n32 (n i.m.width (x.code i.a i.m.width l)) := by
    rw [h _ (code_lt x i.a _ l)]
    exact word_eq_typed (hlt _)
  exact hw

theorem tabled_countRow : Tabled fun _ => countRow := by
  intro s sl i q _ (hq : countRow i = some q)
  unfold countRow at hq
  split at hq
  case h_1 i =>
    cases hq
    exact ⟨_, rfl, computes_count (fun a _ => popCount_eq _ a) fun _ => length_filter_lt ..⟩
  case h_2 i =>
    cases hq
    exact ⟨_, rfl, computes_count (fun _ ha => leadingZeros_eq ha) fun _ => length_takeWhile_lt ..⟩
  case h_3 i =>
    cases hq
    exact ⟨_, rfl, computes_count (fun a _ => trailingZeros_eq _ a) fun _ => length_takeWhile_lt ..⟩
  case h_4 i =>
    cases hq
    exact ⟨_, rfl, ⟨rfl, rfl, rfl, rfl, rfl, fun _ => rfl, fun x l => ofTy_eq_bitRes (t := .i32) fun _ hk =>
      testBit_bytePermute _ _ _ hk, fun _ _ => rfl⟩⟩
  case h_5 => cases hq

theorem tabled_predRow : Tabled fun _ => predRow := by
  intro s sl i q _ (hq : predRow i = some q)
  unfold predRow at hq
  split at hq
  case h_1 i =>
    cases hq
    refine ⟨_, rfl, ⟨rfl, rfl, rfl, rfl, rfl, fun _ => rfl, fun x l => ?_, fun _ _ => rfl⟩⟩
    obtain ⟨g, pd, a, b, cc, ty, comb, pc⟩ := i
    cases cc
    all_goals cases comb <;> rfl
  case h_2 i =>
    cases hq
    exact ⟨_, rfl, ⟨rfl, rfl, rfl, rfl, rfl, fun _ => rfl, fun x l => congrArg LaneRes.bit (bits_one_beq ..),
      fun _ _ => rfl⟩⟩
  case h_3 i =>
    cases hq
    exact ⟨_, rfl, ⟨rfl, rfl, rfl, rfl, rfl, fun _ => rfl, fun x l => word_eq_typed (BitVec.isLt _), fun _ _ => rfl⟩⟩
  case h_4 i =>
    cases hq
    exact ⟨_, rfl, ⟨rfl, rfl, rfl, rfl, rfl, fun _ => rfl, fun x l => congrArg LaneRes.bit (bits_one_beq ..),
      fun _ _ => rfl⟩⟩
  case h_5 => cases hq

/-- Settles O8: each instruction of the tables is the pipeline's operation on the bits that the table gives (`tabled_bitRow`,
`tabled_shiftRow`, `tabled_countRow`, `tabled_predRow`), which completes by `State.vec_done`. -/
theorem bitAndPredicateInstructionsComplete : Obligations.BitAndPredicateInstructionsComplete :=
  ⟨rowsComplete_of_tabled tabled_bitRow, rowsComplete_of_tabled tabled_shiftRow, rowsComplete_of_tabled tabled_countRow,
    rowsComplete_of_tabled tabled_predRow⟩

end Sys2Proof.Results

namespace Sys2Proof.Results

open Sys2Proof.Machine Sys2Proof.Claims

/-! ### Instructions of the vector pipeline whose lanes may raise flags (R23, R111 to R142) -/

/-- The operation of the pipeline is what the row of the tables gives; its lanes may raise flags. -/
structure Implements (o : VecOp) (q : Row) : Prop where
  guard : o.g = q.g
  dst : o.d = q.d
  pred : o.pd = q.pd
  window : o.win = winOf q.srcs
  clocks : o.multi = q.multi
  extra : ∀ x, o.extra x = []
  result : ∀ x l, o.f x l = q.res x l

/-- An operation with its row's operands and clocks, which writes nothing but its lanes' results. -/
theorem Implements.of_result {o : VecOp} {q : Row}
    (h : o = { g := q.g, d := q.d, pd := q.pd, win := winOf q.srcs, multi := q.multi, free := o.free, f := o.f })
    (hf : ∀ x l, o.f x l = q.res x l) : Implements o q := by
  rw [h]
  exact ⟨rfl, rfl, rfl, rfl, rfl, fun _ => rfl, hf⟩

/-- An instruction that runs as the pipeline's operation of its row, in every state. -/
def Runs (i : Instr) (q : Row) : Prop := ∃ o : VecOp, (∀ s, exec i s = s.vec o) ∧ Implements o q

theorem quietRowsComplete_of_runs {row : Instr → Option Row} (h : ∀ i q, row i = some q → Runs i q) :
    QuietRowsComplete row := by
  intro s sl w r i q x hc hq hx hquiet
  obtain ⟨o, he, hg, hd, hp, hw, hm, hextra, hres⟩ := h i q hq
  rw [← hg, ← hw] at hx
  rw [← hm, ← hg, ← hd, ← funext (hres _)] at hquiet
  obtain ⟨t, ht, hdone⟩ := State.vec_done o hc hx (hextra _) hquiet
  refine ⟨t, (he s).trans ht, ?_⟩
  rw [← hg, ← hd, ← hp, ← hm, ← funext (hres _)]
  exact hdone

/-! ### Operands taken element by element (R69, R112) -/

theorem implements_flo1 (i : Op1 FM) (multi : Bool) (f : Fmt → FV → FRes) :
    Implements (flo1 i multi f) (flo1Row i multi f) := by
  obtain ⟨g, d, a, ft, m⟩ := i
  refine .of_result rfl fun x l => ?_
  cases ft <;> rfl

theorem implements_flo2 {i : Op2 FM} {multi : Bool} {f h : Fmt → Nat → Nat → FRes} (hf : ∀ t a b, f t a b = h t a b) :
    Implements (flo2 i multi f) (flo2Row i multi h) := by
  obtain rfl : f = h := funext fun t => funext fun a => funext (hf t a)
  obtain ⟨g, d, a, b, ft, m⟩ := i
  refine .of_result rfl fun x l => ?_
  cases ft <;> rfl

theorem implements_flo3 (i : Op3 FM) (f : Fmt → Nat → Nat → Nat → FRes) : Implements (flo3 i f) (flo3Row i f) := by
  obtain ⟨g, d, a, b, c, ft, m⟩ := i
  refine .of_result rfl fun x l => ?_
  cases ft <;> rfl

/-- A NaN of the inputs, else the exact value rounded once: `arith`, as the model delivers it (R74, R112). -/
theorem orNan_eq_arith (f : Fmt) (md : RM) (a b : Nat) (exact : FV → FV → Option FV) :
    f.orNan [f.decode a, f.decode b] md (exact (f.decode a) (f.decode b)) = arith f md a b exact := by
  unfold Fmt.orNan arith
  cases f.nanResult [f.decode a, f.decode b] with
  | some n => rfl
  | none => cases exact (f.decode a) (f.decode b) <;> rfl

theorem implements_fscale (i : Op2 FM) :
    Implements { g := i.g, d := some i.d, pd := none, win := winOf [(i.a, false), (i.b, false)], multi := false, free := false
                 f := fun x l => ofElems ((x.elems i.m.ft i.a l).map fun a =>
                   scaleF i.m.rm (x.i32 i.b l) (fmtOf i.m.ft) ((fmtOf i.m.ft).decode a)) }
      { flo1Row ⟨i.g, i.d, i.a, i.m⟩ false (fun _ _ => default) with
        srcs := [(i.a, false), (i.b, false)]
        res := fun x l => (flo1Row ⟨i.g, i.d, i.a, i.m⟩ false (scaleF i.m.rm (x.int .i32 i.b l))).res x l } := by
  refine .of_result rfl fun x l => ?_
  dsimp only
  rw [i32_eq]
  exact (implements_flo1 ⟨i.g, i.d, i.a, i.m⟩ false _).result x l

theorem floatRow_runs (i : Instr) (q : Row) (hq : floatRow i = some q) : Runs i q := by
  cases i with
  | fadd => cases hq; exact ⟨_, fun _ => rfl, implements_flo2 fun t a b => orNan_eq_arith t _ a b _⟩
  | fsub => cases hq; exact ⟨_, fun _ => rfl, implements_flo2 fun t a b => orNan_eq_arith t _ a b fun x y => FV.add _ x y.negate⟩
  | fmul => cases hq; exact ⟨_, fun _ => rfl, implements_flo2 fun t a b => orNan_eq_arith t _ a b _⟩
  | fmin => cases hq; exact ⟨_, fun _ => rfl, implements_flo2 fun _ _ _ => rfl⟩
  | fmax => cases hq; exact ⟨_, fun _ => rfl, implements_flo2 fun _ _ _ => rfl⟩
  | fdiv => cases hq; exact ⟨_, fun _ => rfl, implements_flo2 fun _ _ _ => rfl⟩
  | fma => cases hq; exact ⟨_, fun _ => rfl, implements_flo3 ..⟩
  | fclamp => cases hq; exact ⟨_, fun _ => rfl, implements_flo3 ..⟩
  | frnd => cases hq; exact ⟨_, fun _ => rfl, implements_flo1 ..⟩
  | fexpo => cases hq; exact ⟨_, fun _ => rfl, implements_flo1 ..⟩
  | fmant => cases hq; exact ⟨_, fun _ => rfl, implements_flo1 ..⟩
  | fsqrt => cases hq; exact ⟨_, fun _ => rfl, implements_flo1 ..⟩
  | frcp => cases hq; exact ⟨_, fun _ => rfl, implements_flo1 ..⟩
  | frsq => cases hq; exact ⟨_, fun _ => rfl, implements_flo1 ..⟩
  | fex2 => cases hq; exact ⟨_, fun _ => rfl, implements_flo1 ..⟩
  | flg2 => cases hq; exact ⟨_, fun _ => rfl, implements_flo1 ..⟩
  | fsin => cases hq; exact ⟨_, fun _ => rfl, implements_flo1 ..⟩
  | fcos => cases hq; exact ⟨_, fun _ => rfl, implements_flo1 ..⟩
  | ftanh => cases hq; exact ⟨_, fun _ => rfl, implements_flo1 ..⟩
  | fscale i => cases hq; exact ⟨_, fun _ => rfl, implements_fscale i⟩
  | fdot2 => cases hq; exact ⟨_, fun _ => rfl, .of_result rfl fun _ _ => rfl⟩
  | fsetp => cases hq; exact ⟨_, fun _ => rfl, .of_result rfl fun _ _ => rfl⟩
  | fclass => cases hq; exact ⟨_, fun _ => rfl, .of_result rfl fun _ _ => congrArg LaneRes.bit (bits_one_beq ..)⟩
  | _ => cases hq

theorem exactRow_runs (i : Instr) (q : Row) (hq : exactRow i = some q) : Runs i q := by
  cases i with
  | faddE => cases hq; exact ⟨_, fun _ => rfl, .of_result rfl fun _ _ => congrArg (transform _ · _ 1) (orNan_eq_arith ..)⟩
  | fmulE => cases hq; exact ⟨_, fun _ => rfl, .of_result rfl fun _ _ => congrArg (transform _ · _ 1) (orNan_eq_arith ..)⟩
  | fmaE => cases hq; exact ⟨_, fun _ => rfl, .of_result rfl fun _ _ => rfl⟩
  | xren => cases hq; exact ⟨_, fun _ => rfl, .of_result rfl fun _ _ => rfl⟩
  | xcmpr => cases hq; exact ⟨_, fun _ => rfl, .of_result rfl fun _ _ => rfl⟩
  | xcmp => cases hq; exact ⟨_, fun _ => rfl, .of_result rfl fun _ _ => rfl⟩
  | xadd => cases hq; exact ⟨_, fun _ => rfl, .of_result rfl fun _ _ => rfl⟩
  | xmulW => cases hq; exact ⟨_, fun _ => rfl, .of_result rfl fun _ _ => rfl⟩
  | cvtX2 i =>
    cases i with
    | toX2 g d a => cases hq; exact ⟨_, fun _ => rfl, .of_result rfl fun _ _ => rfl⟩
    | toF64 g d a md => cases hq; exact ⟨_, fun _ => rfl, .of_result rfl fun _ _ => rfl⟩
  | _ => cases hq

/-- Settles O9: each instruction of the two tables runs as the pipeline's operation of its row (`floatRow_runs`,
`exactRow_runs`), which completes by `State.vec_done` when no flag traps. -/
theorem floatingInstructionsComplete : Obligations.FloatingInstructionsComplete :=
  ⟨quietRowsComplete_of_runs floatRow_runs, quietRowsComplete_of_runs exactRow_runs⟩

end Sys2Proof.Results

namespace Sys2Proof.Results

open Sys2Proof.Machine Sys2Proof.Claims

/-! ### Conversions and packing (R133 to R142) -/

theorem ofFmt_eq_convRes (pair : Bool) (z : FRes) : ofFmt pair z = convRes pair z := by cases pair <;> rfl

theorem bits_zero (x n : Nat) : bits x 0 n = x % 2 ^ n := by rw [bits, pow_zero, Nat.div_one]

theorem placeBytes_eq (old lo hi : Nat) (top : Bool) : placeBytes old lo hi top =
    if top then old % 2 ^ 16 + 2 ^ 16 * (lo + 2 ^ 8 * hi) else old / 2 ^ 16 * 2 ^ 16 + (lo + 2 ^ 8 * hi) := by
  unfold placeBytes
  split <;> omega

theorem bytesRes_eq_keepRes (x : Rd) (d : Dst) (l : Nat) (a b : FRes) (top : Bool) :
    bytesRes x d l a b top = keepRes x d l a b top := by
  simp only [bytesRes, keepRes, placeBytes_eq]
  rfl

/-- What a type keeps of an exact value agrees with it modulo 2^w (R90). -/
theorem fit_false_emod (t : Ty) (x : Int) : fit t false x % 2 ^ t.width = x % 2 ^ t.width := by
  simp only [fit, Bool.false_eq_true, if_false, Int.add_emod_emod, add_sub_cancel]

theorem packInt_eq_fit (t : Ty) (sat : Bool) (x : Int) :
    packInt t.signed sat t.width x = (fit t sat x % 2 ^ t.width).toNat := by
  cases sat
  · rw [fit_false_emod]
    rfl
  · rw [fit_true]
    rfl

/-- A word that holds a number modulo 2^32. -/
theorem word_wrap_eq_typed (x : Int) : LaneRes.word (wrap x 32) = typed .n32 (x % 2 ^ 32) := by
  rw [word_eq_typed (wrap_lt x 32), wrap_cast]

theorem halfOf_unsigned_emod (w j : Nat) : Claims.halfOf true w j % 2 ^ 32 = Claims.halfOf true w j := by
  rw [Claims.halfOf, if_pos (.inl rfl)]
  omega

theorem byteOf_unsigned_emod (w j : Nat) : Claims.byteOf true w j % 2 ^ 32 = Claims.byteOf true w j := by
  rw [Claims.byteOf, if_pos (.inl rfl)]
  omega

/-- The five trits of a byte (R83), each as its row gives it. -/
theorem trits_eq (c : Nat) : trits c =
    (List.range 5).map fun i => if 243 ≤ c then 0 else (c / 3 ^ i % 3 + 255) % 256 := by
  unfold trits
  split
  · rfl
  · refine List.map_congr_left fun i _ => ?_
    unfold wrap
    omega

section
variable {q : Row}

theorem cvt_runs {i : Op1 CvtM} (hq : convertRow (.cvt i) = some q) : Runs (.cvt i) q := by
  cases hq
  refine ⟨_, fun _ => rfl, .of_result rfl fun x l => ?_⟩
  dsimp only
  cases ctTy i.m.st with
  | none =>
    cases ctTy i.m.dt with
    | none => exact ofFmt_eq_convRes ..
    | some u => rfl
  | some t =>
    cases ctTy i.m.dt with
    | none => exact ofFmt_eq_convRes ..
    | some u => exact deliverInt_eq ..

theorem cvtN_runs {i : CvtNI} (hq : convertRow (.cvtN i) = some q) : Runs (.cvtN i) q := by
  obtain ⟨g, d, a, e5, wf, dir⟩ := i
  cases dir with
  | narrow b md ovf hi => cases hq; exact ⟨_, fun _ => rfl, .of_result rfl fun _ _ => bytesRes_eq_keepRes ..⟩
  | widen k => cases hq; exact ⟨_, fun _ => rfl, .of_result rfl fun _ _ => rfl⟩

theorem cvtSr_runs {i : CvtSrI} (hq : convertRow (.cvtSr i) = some q) : Runs (.cvtSr i) q := by
  obtain ⟨g, d, a, c, dest⟩ := i
  have low (f : Fmt) (n : Option (Bool × Bool)) (v : FV) (z : Nat) : srTo f n v (bits z 0 16) = srTo f n v (z % 2 ^ 16) := by
    rw [bits_zero]
  cases dest with
  | byte e5 b ovf hi =>
    cases hq
    refine ⟨_, fun _ => rfl, .of_result rfl fun x l => ?_⟩
    dsimp only
    rw [bytesRes_eq_keepRes, low]
    rfl
  | f16 => cases hq; exact ⟨_, fun _ => rfl, .of_result rfl fun _ _ => congrArg LaneRes.ofFRes (low ..)⟩
  | bf16 => cases hq; exact ⟨_, fun _ => rfl, .of_result rfl fun _ _ => congrArg LaneRes.ofFRes (low ..)⟩

theorem cvtBlkDecode_runs {i : CvtBlkDecI} (hq : convertRow (.cvtBlkDecode i) = some q) : Runs (.cvtBlkDecode i) q := by
  cases hq
  refine ⟨_, fun _ => rfl, .of_result rfl fun x l => ?_⟩
  dsimp only
  cases i.nf <;> rfl

theorem cvtBlkEncode_runs {i : CvtBlkEncI} (hq : convertRow (.cvtBlkEncode i) = some q) : Runs (.cvtBlkEncode i) q := by
  obtain ⟨g, d, a, sc, nf, sel, auto, md, ovf⟩ := i
  cases auto with
  | true => cases hq
  | false =>
    cases hq
    refine ⟨_, fun _ => rfl, .of_result rfl fun x l => ?_⟩
    dsimp only
    cases nf <;> rfl

theorem pack_runs {i : Op2 PackP} (hq : convertRow (.pack i) = some q) : Runs (.pack i) q := by
  have words (t : Ty) (sat : Bool) (a b : Int) :
      LaneRes.word (packInt t.signed sat t.width a + 2 ^ 16 * packInt t.signed sat t.width b) =
        wordRes ((fit t sat a % 2 ^ t.width).toNat + 2 ^ 16 * (fit t sat b % 2 ^ t.width).toNat) 0 := by
    rw [packInt_eq_fit, packInt_eq_fit]
    rfl
  have bytes (x : Rd) (d : Dst) (l : Nat) (hi : Bool) (t : Ty) (sat : Bool) (a b : Int) :
      bytesRes x d l ⟨packInt t.signed sat t.width a, 0⟩ ⟨packInt t.signed sat t.width b, 0⟩ hi =
        keepRes x d l ⟨(fit t sat a % 2 ^ t.width).toNat, 0⟩ ⟨(fit t sat b % 2 ^ t.width).toNat, 0⟩ hi := by
    rw [packInt_eq_fit, packInt_eq_fit, bytesRes_eq_keepRes]
  obtain ⟨g, d, a, b, m⟩ := i
  cases hq
  cases m with
  | f16x2 md => exact ⟨_, fun _ => rfl, .of_result rfl fun _ _ => rfl⟩
  | bf16x2 md => exact ⟨_, fun _ => rfl, .of_result rfl fun _ _ => rfl⟩
  | i16x2 sat => exact ⟨_, fun _ => rfl, .of_result rfl fun _ _ => words .i16 ..⟩
  | n16x2 sat => exact ⟨_, fun _ => rfl, .of_result rfl fun _ _ => words .n16 ..⟩
  | i8 sat hi => exact ⟨_, fun _ => rfl, .of_result rfl fun x l => bytes x d l hi .i8 ..⟩
  | n8 sat hi => exact ⟨_, fun _ => rfl, .of_result rfl fun x l => bytes x d l hi .n8 ..⟩

theorem unpack_runs {i : Op1 UnpackP} (hq : convertRow (.unpack i) = some q) : Runs (.unpack i) q := by
  have half (u : Bool) (w k : Nat) : LaneRes.word (wrap (Machine.element w 16 k u) 32) = typed .n32 (Claims.halfOf u w k % 2 ^ 32) := by
    rw [word_wrap_eq_typed, halfOf_eq_element]
  have byte (u : Bool) (w k : Nat) : LaneRes.word (wrap (Machine.element w 8 k u) 32) = typed .n32 (Claims.byteOf u w k % 2 ^ 32) := by
    rw [word_wrap_eq_typed, byteOf_eq_element]
  obtain ⟨g, d, a, m⟩ := i
  cases hq
  cases m with
  | f16 k => exact ⟨_, fun _ => rfl, .of_result rfl fun _ _ => rfl⟩
  | bf16 k => exact ⟨_, fun _ => rfl, .of_result rfl fun _ _ => rfl⟩
  | i16 k => exact ⟨_, fun _ => rfl, .of_result rfl fun _ _ => half false ..⟩
  | n16 k => exact ⟨_, fun _ => rfl, .of_result rfl fun _ _ => (half true ..).trans (congrArg _ (halfOf_unsigned_emod ..))⟩
  | i8 k => exact ⟨_, fun _ => rfl, .of_result rfl fun _ _ => byte false ..⟩
  | n8 k => exact ⟨_, fun _ => rfl, .of_result rfl fun _ _ => (byte true ..).trans (congrArg _ (byteOf_unsigned_emod ..))⟩

theorem unpkT3_runs {i : UnpkI} (hq : convertRow (.unpkT3 i) = some q) : Runs (.unpkT3 i) q := by
  cases hq
  refine ⟨_, fun _ => rfl, .of_result rfl fun x l => ?_⟩
  dsimp only
  rw [funext trits_eq]
  generalize x.word i.a l = w
  simp [List.range_succ, LaneRes.words, bits]

end

theorem convertRow_runs (i : Instr) (q : Row) (hq : convertRow i = some q) : Runs i q := by
  cases i with
  | cvt => exact cvt_runs hq
  | cvtN => exact cvtN_runs hq
  | cvtSr => exact cvtSr_runs hq
  | cvtBlkDecode => exact cvtBlkDecode_runs hq
  | cvtBlkEncode => exact cvtBlkEncode_runs hq
  | pack => exact pack_runs hq
  | unpack => exact unpack_runs hq
  | unpkT3 => exact unpkT3_runs hq
  | _ => cases hq

end Sys2Proof.Results

namespace Sys2Proof.Results

open Sys2Proof.Machine Sys2Proof.Claims

/-! ### Arithmetic errors (R370) and pending results (R93): O36 -/

theorem lowestFlag_eq {x : BitVec 6} {j : Nat} (hj : j < 6) (hx : x.getLsbD j = true) (hlow : ∀ m, m < j → x.getLsbD m = false) :
    lowestFlag x = some j :=
  List.find?_range_eq_some.2 ⟨hx, List.mem_range.2 hj, fun m hm => by rw [hlow m hm]; rfl⟩

/-- The arithmetic error of flags of which j is the lowest enabled one (R370). -/
def flagError (j : Nat) (flags : Flags) (pc : DWord) (gseq : Nat) (act : Mask) (level time : Nat) : AsyncErr :=
  { cause := 0x40 + j, pc := pc, gseq := gseq, lanes := act, laddr := 0, w0 := flags.zeroExtend 64, w1 := 0, unit := 0,
    index := 0, level := level, time := time, soft := false }

section
variable {r : Regs} {flags : Flags}

theorem arithErr_of_lowest {j : Nat} (hj : j < 6) (hx : (flags &&& r.tmask).getLsbD j = true)
    (hlow : ∀ m, m < j → (flags &&& r.tmask).getLsbD m = false) (pc : DWord) (gseq : Nat) (act : Mask) (level time : Nat) :
    arithErr r flags pc gseq act level time = some (flagError j flags pc gseq act level time) := by
  rw [arithErr, enabledFlags, lowestFlag_eq hj hx hlow]
  rfl

theorem arithErr_of_quiet (h : flags &&& r.tmask = 0) (pc : DWord) (gseq : Nat) (act : Mask) (level time : Nat) :
    arithErr r flags pc gseq act level time = none := by
  rw [arithErr, enabledFlags, h]
  rfl

end

/-- Outside a handler an error is queued behind the others (R373). -/
theorem queueAsync_of_outside {s : State} {slot : Nat} {w : Warp} (e : AsyncErr) (hw : s.warp slot = some w)
    (hr : w.r.frame = none) : s.queueAsync slot e = s.setWarp slot { w with async := w.async ++ [e] } := by
  have h : w.r.inHandler = false := by rw [Regs.inHandler, hr]; rfl
  rw [State.queueAsync, hw]
  simp only [h, Bool.false_and, Bool.false_eq_true, if_false]

/-! #### Write-back (R93) -/

section
variable {s : State} {slot : Nat} {w : Warp} {r : Regs} {x : Result}

/-- A warp with one of its pending results written. -/
def withResult (w : Warp) (x : Result) (r : Regs) : Warp :=
  { w with results := w.results.filter fun y => y != x }.setSide x.proof (x.deliver r)

theorem withResult_results (w : Warp) (x : Result) (r : Regs) : (withResult w x r).results = w.results.filter fun y => y != x := by
  unfold withResult Warp.setSide
  split <;> rfl

theorem withResult_rest (w : Warp) (x : Result) (r : Regs) : withResult w x r =
    { w with r := (withResult w x r).r, proof := (withResult w x r).proof, results := (withResult w x r).results } := by
  unfold withResult Warp.setSide
  split <;> rfl

theorem side_withResult (h : w.side x.proof = some r) : (withResult w x r).side x.proof = some (x.deliver r) :=
  Warp.side_setSide_self (r0 := r) _ h

/-- A leader's result goes into the leader's registers. -/
theorem withResult_of_leader (hp : x.proof = false) : withResult w x r =
    { w with r := x.deliver r, results := w.results.filter fun y => y != x } := by
  rw [withResult, hp]
  rfl

/-- A delivered result touches no frame. -/
theorem deliver_frame (x : Result) (r : Regs) : (x.deliver r).frame = r.frame := by
  unfold Result.deliver
  cases x.pd with
  | none => rfl
  | some p => exact Regs.pset_frame ..

/-- Write-back: the result goes into its side's registers; a leader's enabled flags make an arithmetic error. -/
theorem writeResult_eq (hw : s.warp slot = some w) (hr : w.side x.proof = some r) :
    s.writeResult slot x =
      if x.proof then s.setWarp slot (withResult w x r)
      else match arithErr r x.flags x.pc x.gseq x.act w.levels.length s.time with
        | none => s.setWarp slot (withResult w x r)
        | some e => (s.setWarp slot (withResult w x r)).queueAsync slot e := by
  have hr' : ({ w with results := w.results.filter fun y => y != x } : Warp).side x.proof = some r := hr
  rw [State.writeResult, hw]
  simp only [hr']
  rfl

theorem exec_resultWriteback {k : Nat} (hw : s.warp slot = some w) (hx : w.results[k]? = some x) :
    exec (.resultWriteback slot k) s = .next (s.writeResult slot x) := by
  rw [show exec (.resultWriteback slot k) s = execResultWriteback slot k s from rfl, execResultWriteback, hw, Option.bind_some, hx]

theorem writeResult_of_quiet (hw : s.warp slot = some w) (hr : w.side x.proof = some r)
    (hq : x.proof = true ∨ x.flags &&& r.tmask = 0) : s.writeResult slot x = s.setWarp slot (withResult w x r) := by
  rw [writeResult_eq hw hr]
  rcases hq with hp | hf
  · rw [if_pos hp]
  · rw [arithErr_of_quiet hf]
    exact ite_self _

/-- A leader's result with enabled flags (R370). -/
theorem writeResult_of_enabled {j : Nat} (hw : s.warp slot = some w) (hr : w.side x.proof = some r) (hp : x.proof = false)
    (hframe : r.frame = none) (hj : j < 6) (hf : (x.flags &&& r.tmask).getLsbD j = true)
    (hlow : ∀ m, m < j → (x.flags &&& r.tmask).getLsbD m = false) :
    s.writeResult slot x = (s.setWarp slot (withResult w x r)).setWarp slot
      { w with
        r := x.deliver r
        results := w.results.filter fun y => y != x
        async := w.async ++ [flagError j x.flags x.pc x.gseq x.act w.levels.length s.time] } := by
  have hout : (withResult w x r).r.frame = none := by
    rw [withResult_of_leader hp]
    exact (deliver_frame x r).trans hframe
  rw [writeResult_eq hw hr, hp, if_neg (by decide), arithErr_of_lowest hj hf hlow]
  refine (queueAsync_of_outside _ (State.warp_setWarp_self ..) hout).trans ?_
  rw [withResult_of_leader hp]

end

theorem pendingResultsAreWritten : PendingResultsAreWritten := by
  intro s slot k w r x hw hx hr
  refine ⟨_, exec_resultWriteback hw hx, fun hq => ?_, fun j hj hp hframe hf hlow => ?_⟩
  · rw [writeResult_of_quiet hw hr hq]
    exact ⟨_, State.warp_setWarp_self .., side_withResult hr, withResult_results .., withResult_rest .., rfl⟩
  · rw [writeResult_of_enabled hw hr hp hframe hj hf hlow]
    exact ⟨_, _, State.warp_setWarp_self .., rfl, rfl, rfl, rfl, rfl, rfl, rfl⟩

/-! #### One-clock instructions (R370) -/

section
variable {s : State} {sl : Slot} {w : Warp} {r : Regs} {x : Nat} {o : VecOp}

/-- A chosen instruction whose window operand reads: what is left to do is the write-back. -/
theorem vec_eq_vecDone (h : s.Chosen sl w r) (hx : s.Reads sl w (active r sl.grp o.g) o.win x) :
    ∃ s2 n, s.taken.Cached s2 ∧
      s.vec o = .next (State.vecDone { s2 with opSeq := n } sl r o ⟨r, x, active r sl.grp o.g, s.opSeq⟩) := by
  obtain ⟨s2, hwin, hc⟩ := hx.operandWindow
  have hseq : s2.opSeq = s.opSeq := by rw [hc]; rfl
  rw [State.vec, State.onSlot_chosen h]
  simp only [hwin, hseq]
  cases o.free
  · exact ⟨s2, s2.opSeq, hc, rfl⟩
  · exact ⟨s2, s.opSeq + 1, hc, rfl⟩

theorem vecDone_of_oneClock {m : State} {X : Rd} (hm : o.multi = false) :
    m.vecDone sl r o X = (m.finish sl (r.vecAfter sl.grp X.act o.d o.pd (o.table X) (o.extra X))).trapFlags sl r X.act
      (flagsOf X.act o.d (o.f X)) := by
  rw [State.vecDone, hm, if_neg (by decide), VecOp.flags_eq]

theorem vecAfter_written {X : Rd} (he : o.extra X = []) (r : Regs) (grp : Mask) :
    Written r (r.vecAfter grp X.act o.d o.pd (o.table X) (o.extra X)) X.act o.d o.pd (o.f X) := by
  obtain ⟨la, lv, lb, hl⟩ := Regs.latchesAfter_eq r grp o.d (o.table X)
  exact VecOp.written o X r _ he (by rw [hl]) (by rw [hl]) (by rw [hl]) _

/-- The end of a leader's instruction. -/
theorem finish_of_leader {m : State} (hw : m.warp sl.w = some w) (hp : sl.proof = false) (r1 : Regs) :
    ∃ p, m.finish sl r1 =
      m.setWarp sl.w { w with r := { r1.setPc sl.grp sl.after with gseq := r1.gseq + 1 }, proof := p } := by
  have hside : w.side sl.proof = some w.r := by rw [hp]; rfl
  obtain ⟨r2, p, he, hr2, -⟩ := State.finish_done r1 hw hside
  rw [hp] at hr2
  rw [← Option.some.inj hr2]
  exact ⟨p, he⟩

/-- Enabled flags of a leader outside a handler queue the error of the lowest (R370). -/
theorem trapFlags_of_enabled {m : State} {flags : Flags} {j : Nat} {act : Mask} (hw : m.warp sl.w = some w)
    (hp : sl.proof = false) (hframe : w.r.frame = none) (hj : j < 6) (hf : (flags &&& r.tmask).getLsbD j = true)
    (hlow : ∀ k, k < j → (flags &&& r.tmask).getLsbD k = false) :
    m.trapFlags sl r act flags = m.setWarp sl.w { w with
      async := w.async ++ [flagError j flags sl.pc r.gseq.toNat act w.levels.length m.time] } := by
  rw [State.trapFlags, hp, if_neg (by decide), arithErr_of_lowest hj hf hlow, hw]
  exact queueAsync_of_outside _ hw hframe

/-- What a one-clock instruction leaves whose lowest enabled flag is j (R370): its results, and the error queued. -/
def QueuesError (s t : State) (sl : Slot) (w : Warp) (r : Regs) (act : Mask) (d : Option Dst) (pd : Option (Fin 8))
    (res : Nat → LaneRes) (j : Nat) : Prop :=
  ∃ (w' : Warp) (e : AsyncErr), s.SameOutside t sl.w ∧ t.warp sl.w = some w' ∧ r.Advanced w'.r sl ∧
    Written r w'.r act d pd res ∧ w'.r.fpflags = r.fpflags ||| (flagsOf act d res).zeroExtend 64 ∧
    w'.async = w.async ++ [e] ∧ e.cause = 0x40 + j ∧ e.w0 = (flagsOf act d res).zeroExtend 64 ∧ e.pc = sl.pc ∧ e.lanes = act

/-- The write-back of a one-clock instruction with enabled flags. -/
theorem vecDone_queuesError {m : State} {act : Mask} {z j : Nat} (hm : s.taken.Cached m) (n : Nat) (h : s.Chosen sl w r)
    (he : ∀ y, o.extra y = []) (hmulti : o.multi = false) (hp : sl.proof = false) (hframe : r.frame = none) (hj : j < 6)
    (hf : (flagsOf act o.d (o.f ⟨r, x, act, z⟩) &&& r.tmask).getLsbD j = true)
    (hlow : ∀ k, k < j → (flagsOf act o.d (o.f ⟨r, x, act, z⟩) &&& r.tmask).getLsbD k = false) :
    QueuesError s (State.vecDone { m with opSeq := n } sl r o ⟨r, x, act, z⟩) sl w r act o.d o.pd (o.f ⟨r, x, act, z⟩) j := by
  have hw : State.warp { m with opSeq := n } sl.w = some w := (hm.warp _).trans h.warp
  have hwritten := vecAfter_written (he ⟨r, x, act, z⟩) r sl.grp
  obtain ⟨v, s', p, hafter⟩ := Regs.vecAfter_eq r sl.grp act o.d o.pd (o.table ⟨r, x, act, z⟩) (o.extra ⟨r, x, act, z⟩)
  rw [vecDone_of_oneClock hmulti]
  dsimp only at hwritten ⊢
  rw [VecOp.flags_eq] at hafter
  rw [hafter] at hwritten ⊢
  obtain ⟨p2, hfinish⟩ := finish_of_leader hw hp _
  rw [hfinish, trapFlags_of_enabled (State.warp_setWarp_self ..) hp hframe hj hf hlow]
  refine ⟨_, _, ⟨?_, fun k hk => ?_⟩, State.warp_setWarp_self .., Regs.advanced_finish sl rfl rfl,
    ⟨hwritten.v, hwritten.s, hwritten.p⟩, rfl, rfl, rfl, rfl, rfl, rfl⟩
  · obtain ⟨a, b, rfl⟩ := hm.eq
    rfl
  · rw [State.warp_setWarp_ne _ _ hk, State.warp_setWarp_ne _ _ hk]
    exact hm.warp k

theorem exec_queuesError {i : Instr} {q : Row} {j : Nat} (ho : Runs i q) (h : s.Chosen sl w r)
    (hx : s.Reads sl w (active r sl.grp q.g) (winOf q.srcs) x) (hmulti : q.multi = false) (hp : sl.proof = false)
    (hframe : r.frame = none) (hj : j < 6)
    (hf : (flagsOf (active r sl.grp q.g) q.d (q.res ⟨r, x, active r sl.grp q.g, s.opSeq⟩) &&& r.tmask).getLsbD j = true)
    (hlow : ∀ k, k < j →
      (flagsOf (active r sl.grp q.g) q.d (q.res ⟨r, x, active r sl.grp q.g, s.opSeq⟩) &&& r.tmask).getLsbD k = false) :
    ∃ t, exec i s = .next t ∧ QueuesError s t sl w r (active r sl.grp q.g) q.d q.pd
      (q.res ⟨r, x, active r sl.grp q.g, s.opSeq⟩) j := by
  obtain ⟨o, he, hg, hd, hpd, hw, hm, hextra, hres⟩ := ho
  rw [← hg, ← hw] at hx
  rw [← hg, ← hd, ← funext (hres _)] at hf hlow
  rw [← hm] at hmulti
  obtain ⟨s2, n, hc, hv⟩ := vec_eq_vecDone h hx
  refine ⟨_, (he s).trans hv, ?_⟩
  rw [← hg, ← hd, ← hpd, ← funext (hres _)]
  exact vecDone_queuesError hc n h hextra hmulti hp hframe hj hf hlow

end

theorem enabledFlagsQueueAnError : EnabledFlagsQueueAnError := by
  intro s sl w r i q x j act res set hc hrow hx hmulti hp hframe hj hf hlow
  have hruns : Runs i q := by
    rcases hrow with h | h | h
    · exact floatRow_runs i q h
    · exact exactRow_runs i q h
    · exact convertRow_runs i q h
  obtain ⟨t, ht, w', e, herr⟩ := exec_queuesError hruns hc hx hmulti hp hframe hj hf hlow
  exact ⟨t, w', e, ht, herr⟩

/-- Settles O36: write-back is `writeResult_eq`; an instruction of the three tables runs as the pipeline's operation of its row
(`floatRow_runs`, `exactRow_runs`, `convertRow_runs`), and `trapFlags_of_enabled` queues the error of its enabled flags. -/
theorem resultsAreWrittenWithTheirFlags : Obligations.ResultsAreWrittenWithTheirFlags :=
  ⟨pendingResultsAreWritten, enabledFlagsQueueAnError⟩

end Sys2Proof.Results

namespace Sys2Proof.Results

open Sys2Proof.Machine Sys2Proof.Claims

/-! ### Lane exchange, votes and matches (R299 to R304): O10 -/

/-! #### Masks, lane by lane -/

theorem mask_eq_iff {a b : Mask} : a = b ↔ ∀ k < 32, lane a k = lane b k :=
  ⟨fun h _ _ => by rw [h], BitVec.eq_of_getLsbD_eq⟩

theorem toNat_maskOf (f : Nat → Bool) : (maskOf f).toNat = ofBits 32 f := by
  rw [ofBits_eq_mod fun j hj => maskOf_lane f hj, Nat.mod_eq_of_lt (maskOf f).isLt]

theorem lowest_maskOf (f : Nat → Bool) : lowest (maskOf f) = (List.range 32).find? f :=
  List.find?_congr fun _ hk => maskOf_lane f (List.mem_range.1 hk)

theorem countOf_and_maskOf (m : Mask) (f : Nat → Bool) :
    countOf (m &&& maskOf f) = ((List.range 32).filter fun k => lane m k && f k).length := by
  refine congrArg List.length (List.filter_congr fun k hk => ?_)
  rw [← maskOf_lane f (List.mem_range.1 hk)]
  exact BitVec.getLsbD_and ..

theorem maskOf_eq_iff_all (f : Nat → Bool) (m : Mask) :
    maskOf f = m ↔ ((List.range 32).all fun k => f k == lane m k) = true := by
  simp only [mask_eq_iff, List.all_eq_true, List.mem_range, beq_iff_eq]
  exact forall₂_congr fun k hk => by rw [maskOf_lane f hk]

/-! #### Masks, counts and lanes as words -/

theorem word_mask (m : Mask) : LaneRes.word m.toNat = typed .n32 m.toNat := word_eq_typed m.isLt

theorem word_countOf (m : Mask) : LaneRes.word (countOf m) = typed .n32 (countOf m) :=
  word_eq_typed ((List.length_filter_le ..).trans_lt (by decide))

theorem word_maskOf (f : Nat → Bool) : LaneRes.word (maskOf f).toNat = typed .n32 (ofBits 32 f) := by
  rw [word_mask, toNat_maskOf]

theorem lowest_getD_lt (m : Mask) : (lowest m).getD 0 < 32 := by
  cases h : lowest m with
  | none => decide
  | some k => exact (lowest_mem h).1

theorem word_lowest_maskOf (f : Nat → Bool) :
    LaneRes.word ((lowest (maskOf f)).getD 0) = typed .n32 (((List.range 32).find? f).getD 0 : Nat) := by
  rw [word_eq_typed ((lowest_getD_lt _).trans (by decide)), lowest_maskOf]

/-- The mask m with its bit where a test picks just the lanes of m, else 0. -/
theorem word_of_maskOf_eq (f : Nat → Bool) (m : Mask) :
    (if maskOf f = m then { LaneRes.word m.toNat with p := true } else LaneRes.word 0) =
      { typed .n32 (if ((List.range 32).all fun k => f k == lane m k) = true then (m.toNat : Int) else 0) with
        p := (List.range 32).all fun k => f k == lane m k } := by
  simp only [maskOf_eq_iff_all, word_mask]
  split
  next h => rw [h]
  next h => rw [Bool.eq_false_iff.2 h]; exact word_eq_typed (by decide)

/-! #### Matches (R304) -/

/-- The active lanes that hold the value of lane l, as `laneRow` has them. -/
def sameValue (i : LmatchI) (x : Rd) (l k : Nat) : Bool := lane x.act k &&
  (if i.w64 then x.r.vpair i.a k == x.r.vpair i.a l else x.r.vget i.a k == x.r.vget i.a l)

theorem setWidth_eq_iff (a b : Word) : a.setWidth 64 = b.setWidth 64 ↔ a = b := by
  bv_omega

/-- Extended to 64 bits two words differ as before. -/
theorem sameValue_eq (i : LmatchI) (x : Rd) (l k : Nat) :
    (lane x.act k && ((if i.w64 then x.r.vpair i.a k else (x.r.vget i.a k).setWidth 64) ==
      (if i.w64 then x.r.vpair i.a l else (x.r.vget i.a l).setWidth 64))) = sameValue i x l k := by
  unfold sameValue
  cases i.w64
  · simp only [Bool.false_eq_true, if_false]
    congr 1
    rw [Bool.eq_iff_iff, beq_iff_eq, beq_iff_eq, setWidth_eq_iff]
  · rfl

section
variable {q : Row}

theorem xlane_runs {i : XlaneI} (hq : laneRow (.xlane i) = some q) : Runs (.xlane i) q := by
  cases hq
  exact ⟨_, fun _ => rfl, .of_result rfl fun _ _ => rfl⟩

theorem nbr_runs {i : NbrI} (hq : laneRow (.nbr i) = some q) : Runs (.nbr i) q := by
  cases hq
  exact ⟨_, fun _ => rfl, .of_result rfl fun _ _ => rfl⟩

theorem lvote_runs {i : LvoteI} (hq : laneRow (.lvote i) = some q) : Runs (.lvote i) q := by
  obtain ⟨g, op, pa, na⟩ := i
  cases hq
  cases op with
  | and pd => exact ⟨_, fun _ => rfl, .of_result rfl fun _ _ => rfl⟩
  | or pd => exact ⟨_, fun _ => rfl, .of_result rfl fun _ _ => congrArg LaneRes.bit (decide_not ..).symm⟩
  | same pd => exact ⟨_, fun _ => rfl, .of_result rfl fun _ _ => congrArg LaneRes.bit (Bool.decide_or ..).symm⟩
  | xor pd => exact ⟨_, fun _ => rfl, .of_result rfl fun _ _ => rfl⟩
  | maskV d => exact ⟨_, fun _ => rfl, .of_result rfl fun _ _ => word_mask _⟩
  | maskS d => exact ⟨_, fun _ => rfl, .of_result rfl fun _ _ => word_mask _⟩

theorem mpopc_runs {i : MpopcI} (hq : laneRow (.mpopc i) = some q) : Runs (.mpopc i) q := by
  cases hq
  refine ⟨_, fun _ => rfl, .of_result rfl fun x l => ?_⟩
  dsimp only
  rw [word_countOf, countOf_and_maskOf]
  rfl

theorem lmatch_runs {i : LmatchI} (hq : laneRow (.lmatch i) = some q) : Runs (.lmatch i) q := by
  cases hq
  refine ⟨_, fun _ => rfl, .of_result rfl fun x l => ?_⟩
  dsimp only
  rw [funext (sameValue_eq i x l)]
  obtain ⟨g, d, a, w64, mode⟩ := i
  cases mode with
  | grp => exact word_maskOf _
  | uni p => exact word_of_maskOf_eq _ _
  | lead => exact word_lowest_maskOf _

end

theorem laneRow_runs (i : Instr) (q : Row) (hq : laneRow i = some q) : Runs i q := by
  cases i with
  | xlane => exact xlane_runs hq
  | nbr => exact nbr_runs hq
  | lvote => exact lvote_runs hq
  | mpopc => exact mpopc_runs hq
  | lmatch => exact lmatch_runs hq
  | _ => cases hq

/-- Settles O10: each instruction of the two tables runs as the pipeline's operation of its row (`convertRow_runs`,
`laneRow_runs`), which completes by `State.vec_done` when no flag traps. -/
theorem conversionsAndLanesComplete : Obligations.ConversionsAndLanesComplete :=
  ⟨quietRowsComplete_of_runs convertRow_runs, quietRowsComplete_of_runs laneRow_runs⟩

end Sys2Proof.Results

namespace Sys2Proof.Results

open Sys2Proof.Machine Sys2Proof.Claims

/-! ### cvt.blk with AUTO (R139): O11 -/

/-! #### A multi-clock instruction that writes other words beside its results (R93) -/

/-- What a multi-clock instruction leaves: its registers as they were but for the latches and the PCs, and the result z pending. -/
structure LeavesPending (s t : State) (sl : Slot) (w w' : Warp) (r r' : Regs) (z : Result) : Prop where
  outside : s.SameOutside t sl.w
  warp : t.warp sl.w = some w'
  side : w'.side sl.proof = some r'
  rest : w.SameButRegs w' sl.proof
  pcs : r.Advanced r' sl
  results : w'.results = w.results ++ [z]
  v : r'.v = r.v
  s : r'.s = r.s
  p : r'.p = r.p

theorem vecDone_leavesPending {s m : State} {sl : Slot} {w : Warp} {r : Regs} {o : VecOp} (hm : s.taken.Cached m) (n : Nat)
    (h : s.Chosen sl w r) (hmulti : o.multi = true) (X : Rd) :
    ∃ w' r', LeavesPending s (State.vecDone { m with opSeq := n } sl r o X) sl w w' r r'
      (pendingResult sl r X.act o.d o.pd (o.table X) (o.extra X)) := by
  have hw : State.warp { m with opSeq := n } sl.w = some w := (hm.warp _).trans h.warp
  obtain ⟨r0, hr0, -⟩ := Option.map_eq_some_iff.1 h.side
  obtain ⟨la, lv, lb, hl⟩ := Regs.latchesAfter_eq r sl.grp o.d (o.table X)
  obtain ⟨r2, p2, hfinish, hside, hother⟩ := State.finish_done { r with latch := la, lvalid := lv, badL := lb } hw hr0
  rw [State.vecDone, if_pos hmulti, hl, hfinish, State.modWarp_some _ (State.warp_setWarp_self ..)]
  refine ⟨_, _, ⟨?_, fun k hk => ?_⟩, State.warp_setWarp_self .., hside, ⟨rfl, hother⟩, Regs.advanced_finish sl rfl rfl, rfl,
    rfl, rfl, rfl⟩
  · obtain ⟨a, b, rfl⟩ := hm.eq
    rfl
  · rw [State.warp_setWarp_ne _ _ hk, State.warp_setWarp_ne _ _ hk]
    exact hm.warp k

/-- A pending result without a predicate writes its lanes' words, then the others. -/
theorem vget_deliver_pendingResult (sl : Slot) (r q : Regs) (act : Mask) (d : Option Dst) (tab : List (Nat × LaneRes))
    (extra : List (Nat × Word)) (k l : Nat) :
    ((pendingResult sl r act d none tab extra).deliver q).vget k l =
      ((q.writeV (vecWrites d tab)).writeV extra).vget k l :=
  congrArg (SMap.get · _) (List.foldl_append ..)

/-- A run of writes that gives each key the value a function has there, if it has one. -/
theorem get_foldl_set_of_mem_iff {ws : List (Nat × Word)} {f : Nat → Option Word} {k : Nat} (m : SMap Word)
    (h : ∀ v, (k, v) ∈ ws ↔ f k = some v) : (ws.foldl (fun acc y => acc.set y.1 y.2) m).get k = (f k).getD (m.get k) := by
  cases hf : f k with
  | none =>
    refine SMap.get_foldl_set_ne ws _ _ m k fun y hy hk => ?_
    subst hk
    rw [(h y.2).1 hy] at hf
    cases hf
  | some v =>
    refine SMap.get_foldl_set_eq ws _ _ m k v (fun y hy hk => ?_) ⟨_, (h v).2 hf, rfl⟩
    subst hk
    exact Option.some.inj (((h y.2).1 hy).symm.trans hf)

/-- An instruction without a window operand reads nothing there. -/
theorem noWindow_reads (s : State) (sl : Slot) (w : Warp) (act : Mask) : s.Reads sl w act none 0 := by
  by_cases h : act = 0
  · exact .inl ⟨h, rfl⟩
  · exact .inr ⟨h, _, rfl⟩

/-! #### The blocks of a warp's lanes (R81) -/

theorem blockLanes_eq (nf : NF) : blockLanes nf = if nf = .e2m1 then 4 else 8 := by cases nf <;> rfl

theorem one_lt_blockLanes (nf : NF) : 1 < blockLanes nf := by cases nf <;> decide

theorem lt_blocks_iff (nf : NF) (l : Nat) : l / blockLanes nf < 32 / blockLanes nf ↔ l < 32 := by
  cases nf <;> simp only [blockLanes] <;> omega

/-- A lane of l's block is active. -/
def blockActive (nf : NF) (act : Mask) (l : Nat) : Bool :=
  (List.range (blockLanes nf)).any fun k => lane act (l / blockLanes nf * blockLanes nf + k)

/-- The scale and special byte that l's block chooses. -/
def chosenScale (x : Rd) (i : CvtBlkEncI) (l : Nat) : Nat × Nat × Bool := autoScale i.nf (x.blockElems i.a i.nf l)

/-- The byte b in byte SEL of a word. -/
def putByte (sel : Nat) (old : Word) (b : Nat) : Word :=
  BitVec.ofNat 32 (old.toNat - old.toNat / 2 ^ (8 * sel) % 2 ^ 8 * 2 ^ (8 * sel) + b * 2 ^ (8 * sel))

/-- A write of the byte b into lane l of the scale register. -/
def scaleWrite (x : Rd) (i : CvtBlkEncI) (l b : Nat) : Nat × Word := (i.sc * 32 + l, putByte i.sel (x.r.vget i.sc l) b)

/-- The byte that AUTO writes into lane l of its scale register, if it writes there. -/
def scaleByte (x : Rd) (i : CvtBlkEncI) (l : Nat) : Option Nat :=
  if blockActive i.nf x.act l = true ∧ l % blockLanes i.nf = 0 then some (chosenScale x i l).1
  else if blockActive i.nf x.act l = true ∧ i.nf = .e2m1 ∧ l % blockLanes i.nf = 1 then some (chosenScale x i l).2.1
  else none

section
variable {x : Rd} {i : CvtBlkEncI}

/-- The scale bytes of block b as AUTO writes them (R139). -/
def blockWrites (x : Rd) (i : CvtBlkEncI) (b : Nat) : List (Nat × Word) :=
  if blockActive i.nf x.act (b * blockLanes i.nf) = true then
    if i.nf = .e2m1 then
      [scaleWrite x i (b * blockLanes i.nf) (chosenScale x i (b * blockLanes i.nf)).1,
        scaleWrite x i (b * blockLanes i.nf + 1) (chosenScale x i (b * blockLanes i.nf)).2.1]
    else [scaleWrite x i (b * blockLanes i.nf) (chosenScale x i (b * blockLanes i.nf)).1]
  else []

theorem autoWrites_eq (hd : i.d ≠ .v i.sc) :
    x.autoWrites i = (List.range (32 / blockLanes i.nf)).flatMap (blockWrites x i) := by
  have hfirst (b : Nat) : b * blockLanes i.nf / blockLanes i.nf = b :=
    Nat.mul_div_cancel _ (Nat.zero_lt_of_lt (one_lt_blockLanes _))
  have hn (l : Nat) : ¬(i.d = .v i.sc ∧ lane x.act l = true) := fun h => hd h.1
  simp only [Rd.autoWrites, hn, if_false]
  unfold blockWrites blockActive
  simp only [hfirst]
  rfl

/-- Lanes of one block agree on whether it is active and on its scale. -/
theorem blockActive_congr {l m : Nat} (h : l / blockLanes i.nf = m / blockLanes i.nf) :
    blockActive i.nf x.act l = blockActive i.nf x.act m := by
  unfold blockActive
  rw [h]

theorem chosenScale_congr {l m : Nat} (h : l / blockLanes i.nf = m / blockLanes i.nf) :
    chosenScale x i l = chosenScale x i m := by
  simp only [chosenScale, Rd.blockElems, h]

theorem scaleByte_eq_some_iff {l c : Nat} : scaleByte x i l = some c ↔ blockActive i.nf x.act l = true ∧
    (l % blockLanes i.nf = 0 ∧ (chosenScale x i l).1 = c ∨
      i.nf = .e2m1 ∧ l % blockLanes i.nf = 1 ∧ (chosenScale x i l).2.1 = c) := by
  unfold scaleByte
  split
  next h => simp [h]
  next h =>
    split
    next h' =>
      obtain ⟨hact, he, hmod⟩ := h'
      simp [hact, eq_true he, hmod]
    next h' => simp only [reduceCtorEq, false_iff]; tauto

theorem mem_blockWrites_iff {b : Nat} {y : Nat × Word} :
    y ∈ blockWrites x i b ↔ blockActive i.nf x.act (b * blockLanes i.nf) = true ∧
      (y = scaleWrite x i (b * blockLanes i.nf) (chosenScale x i (b * blockLanes i.nf)).1 ∨
        i.nf = .e2m1 ∧ y = scaleWrite x i (b * blockLanes i.nf + 1) (chosenScale x i (b * blockLanes i.nf)).2.1) := by
  unfold blockWrites
  split
  next hact =>
    split
    next he => simp only [List.mem_pair, hact, eq_true he, true_and]
    next he => simp only [List.mem_singleton, hact, eq_false he, true_and, false_and, or_false]
  next hact => simp only [List.not_mem_nil, eq_false hact, false_and]

/-- Each block writes into the lanes of its own that `scaleByte` names. -/
theorem mem_blockWrites {b : Nat} {y : Nat × Word} :
    y ∈ blockWrites x i b ↔ ∃ l, l / blockLanes i.nf = b ∧ ∃ c, scaleByte x i l = some c ∧ y = scaleWrite x i l c := by
  have hn := one_lt_blockLanes i.nf
  have hfirst : b * blockLanes i.nf / blockLanes i.nf = b := Nat.mul_div_cancel _ (by omega)
  have hsecond : (b * blockLanes i.nf + 1) / blockLanes i.nf = b := by
    rw [Nat.mul_comm, Nat.mul_add_div (by omega), Nat.div_eq_of_lt hn, Nat.add_zero]
  have hone : (b * blockLanes i.nf + 1) % blockLanes i.nf = 1 := by rw [Nat.mul_add_mod_self_right, Nat.mod_eq_of_lt hn]
  have hblock := hsecond.trans hfirst.symm
  simp only [mem_blockWrites_iff, scaleByte_eq_some_iff]
  constructor
  · rintro ⟨hact, rfl | ⟨he, rfl⟩⟩
    · exact ⟨_, hfirst, _, ⟨hact, .inl ⟨Nat.mul_mod_left .., rfl⟩⟩, rfl⟩
    · exact ⟨_, hsecond, _, ⟨(blockActive_congr hblock).trans hact, .inr ⟨he, hone, rfl⟩⟩,
        by rw [chosenScale_congr hblock]⟩
  · rintro ⟨l, rfl, c, ⟨hact, ⟨hmod, rfl⟩ | ⟨he, hmod, rfl⟩⟩, rfl⟩
    · have hl : l / blockLanes i.nf * blockLanes i.nf = l := Nat.div_mul_cancel (Nat.dvd_of_mod_eq_zero hmod)
      rw [hl]
      exact ⟨hact, .inl rfl⟩
    · have hl : l / blockLanes i.nf * blockLanes i.nf + 1 = l := by rw [← hmod, Nat.mul_comm]; exact Nat.div_add_mod ..
      rw [← blockActive_congr hblock, ← chosenScale_congr hblock, hl]
      exact ⟨hact, .inr ⟨he, rfl⟩⟩

/-- The word at a place of the register file that AUTO's writes name. -/
def scaleAt (x : Rd) (i : CvtBlkEncI) (k : Nat) : Option Word :=
  if k / 32 = i.sc then (scaleByte x i (k % 32)).map (putByte i.sel (x.r.vget i.sc (k % 32))) else none

theorem mem_autoWrites (hd : i.d ≠ .v i.sc) {k : Nat} {v : Word} : (k, v) ∈ x.autoWrites i ↔ scaleAt x i k = some v := by
  simp only [autoWrites_eq hd, List.mem_flatMap, List.mem_range, mem_blockWrites, scaleWrite, Prod.mk.injEq, scaleAt]
  constructor
  · rintro ⟨b, hb, l, rfl, c, hc, rfl, rfl⟩
    have hl := (lt_blocks_iff ..).1 hb
    rw [if_pos (by omega), show (i.sc * 32 + l) % 32 = l by omega, hc]
    rfl
  · intro h
    split at h
    next hk =>
      obtain ⟨c, hc, rfl⟩ := Option.map_eq_some_iff.1 h
      exact ⟨_, (lt_blocks_iff ..).2 (Nat.mod_lt k (by decide)), _, rfl, _, hc, by omega, rfl⟩
    next => cases h

/-- The registers after AUTO's writes: only the bytes of the scale register that `scaleByte` gives change. -/
theorem vget_writeV_autoWrites (hd : i.d ≠ .v i.sc) (q : Regs) (k : Nat) {l : Nat} (hl : l < 32) :
    (q.writeV (x.autoWrites i)).vget k l =
      if k = i.sc then ((scaleByte x i l).map (putByte i.sel (x.r.vget k l))).getD (q.vget k l) else q.vget k l := by
  refine (get_foldl_set_of_mem_iff q.v fun _ => mem_autoWrites hd).trans ?_
  rw [scaleAt, show (k * 32 + l) / 32 = k by omega, show (k * 32 + l) % 32 = l by omega]
  split
  next h => rw [← h]; rfl
  next => rfl

/-! #### The instruction -/

/-- The word of encoded elements in lane l. -/
def encodedWord (x : Rd) (i : CvtBlkEncI) (l : Nat) : Word :=
  BitVec.ofNat 32 ((List.range (32 / elemBits i.nf)).foldl (fun a j => a +
    (encodeElem i.nf i.rm i.ovf (chosenScale x i l).1 (chosenScale x i l).2.1
      (f32.decode (x.r.vget (i.a + j) l).toNat)).code * 2 ^ (elemBits i.nf * j)) 0)

/-- The operation of cvt.blk with AUTO in the vector pipeline: its lanes give the encoded words, its other writes the scale
bytes. -/
theorem exec_cvtBlkEncode_auto (hauto : i.auto = true) : ∃ o : VecOp, (∀ s, exec (.cvtBlkEncode i) s = s.vec o) ∧
    o.g = i.g ∧ o.d = i.d ∧ o.pd = none ∧ o.win = none ∧ o.multi = true ∧ (∀ x, o.extra x = x.autoWrites i) ∧
    ∀ x l, (o.f x l).ws = [encodedWord x i l] := by
  obtain ⟨g, d, a, sc, nf, sel, auto, md, ovf⟩ := i
  obtain rfl : auto = true := hauto
  refine ⟨_, fun _ => rfl, rfl, rfl, rfl, rfl, rfl, fun _ => rfl, fun x l => ?_⟩
  simp only [encodedWord, chosenScale, if_true, LaneRes.word]
  generalize autoScale nf (x.blockElems a nf l) = c
  cases nf <;> rfl

/-- The words of a result of one word a lane. -/
theorem vget_writeV_oneWord {d : Fin 256} {o : VecOp} {f : Nat → Word} (hd : o.d = some (.v d)) (hws : ∀ l, (o.f x l).ws = [f l])
    (q : Regs) (k : Nat) {l : Nat} (hl : l < 32) :
    (q.writeV (vecWrites o.d (o.table x))).vget k l = if k = d ∧ lane x.act l = true then f l else q.vget k l := by
  have htable : o.table x = (lanesOf x.act).map fun l => (l, o.f x l) := by rw [VecOp.table, hd]
  rw [htable, hd]
  refine (vecWrites_get q.v d x.act (o.f x) k l hl).trans ?_
  rw [hws]
  by_cases hk : k = d
  · simp [hk, Regs.vget]
  · rw [if_neg (c := k = d ∧ _) fun h => hk h.1]
    split
    next h =>
      rw [List.getElem?_eq_none (by rw [List.length_singleton]; omega)]
      rfl
    next => rfl

/-- A word of the registers after AUTO's writes, by the branches of R139. -/
theorem getD_scaleByte (k l : Nat) (f : Nat → Word) (old : Word) :
    (if k = i.sc then ((scaleByte x i l).map f).getD old else old) =
      if k = i.sc ∧ blockActive i.nf x.act l = true ∧ l % blockLanes i.nf = 0 then f (chosenScale x i l).1
      else if k = i.sc ∧ blockActive i.nf x.act l = true ∧ i.nf = .e2m1 ∧ l % blockLanes i.nf = 1 then
        f (chosenScale x i l).2.1
      else old := by
  by_cases hk : k = i.sc
  · simp only [eq_true hk, true_and, if_true, scaleByte]
    split
    · rfl
    · split <;> rfl
  · simp only [eq_false hk, false_and, if_false]

/-- What the result of cvt.blk with AUTO writes: the encoded words, and the bytes of the scale register. -/
theorem vget_deliver_autoScale {d : Fin 256} {o : VecOp} (hd : o.d = some (.v d)) (hid : i.d = .v d) (hne : d ≠ i.sc)
    (hextra : o.extra x = x.autoWrites i) (hws : ∀ l, (o.f x l).ws = [encodedWord x i l])
    (sl : Slot) (r q : Regs) (k : Nat) {l : Nat} (hl : l < 32) :
    ((pendingResult sl r x.act o.d none (o.table x) (o.extra x)).deliver q).vget k l =
      if k = d ∧ lane x.act l = true then encodedWord x i l
      else if k = i.sc then ((scaleByte x i l).map (putByte i.sel (x.r.vget k l))).getD (q.vget k l)
      else q.vget k l := by
  have hsc : i.d ≠ .v i.sc := fun h => hne (Dst.v.inj (hid.symm.trans h))
  rw [vget_deliver_pendingResult, hextra, vget_writeV_autoWrites hsc _ k hl, vget_writeV_oneWord hd hws q k hl]
  by_cases hk : k = i.sc
  · have hkd : ¬(k = d ∧ lane x.act l = true) := fun h => hne (Fin.ext (h.1.symm.trans hk))
    rw [if_neg hkd, if_neg hkd]
  · rw [if_neg hk, if_neg hk]

end

/-- Settles O11: the instruction runs as a multi-clock operation with other writes (`exec_cvtBlkEncode_auto`), which leaves its
result pending (`vecDone_leavesPending`); the result writes what `vget_deliver_autoScale` says. -/
theorem autoScaleEncodes : Obligations.AutoScaleEncodes := by
  unfold Obligations.AutoScaleEncodes
  simp only [← blockLanes_eq]
  intro s sl w r i d hc hauto hid hne
  obtain ⟨o, he, hg, hd, hpd, hwin, hmulti, hextra, hws⟩ := exec_cvtBlkEncode_auto hauto
  have hreads : s.Reads sl w (active r sl.grp o.g) o.win 0 := hwin ▸ noWindow_reads ..
  obtain ⟨s2, n, hcached, hvec⟩ := vec_eq_vecDone hc hreads
  rw [hg] at hvec
  obtain ⟨w', r', h⟩ := vecDone_leavesPending hcached n hc hmulti ⟨r, 0, active r sl.grp i.g, s.opSeq⟩
  refine ⟨_, w', r', _, (he s).trans hvec, h.outside, h.warp, h.side, h.rest, h.pcs, h.results, h.v, h.s, h.p, rfl,
    fun q k l hl => ?_⟩
  rw [hpd]
  refine (vget_deliver_autoScale (hd.trans (congrArg some hid)) hid hne (hextra _) (hws _) _ _ _ _ hl).trans ?_
  rw [getD_scaleByte]
  rfl

end Sys2Proof.Results

namespace Sys2Proof.Results

open Sys2Proof.Machine Sys2Proof.Claims

/-! ### The checks of transfers, jwait, Platen and region instructions: O23 -/

section
variable {s : State} {sl : Slot} {w : Warp} {r : Regs}

theorem withActive_of_lanes {g : Guard} (f : State → Slot → Warp → Regs → Mask → State) (h : s.Chosen sl w r)
    (ha : active r sl.grp g ≠ 0) : s.withActive g f = .next (f s.taken sl w r (active r sl.grp g)) := by
  rw [State.withActive, State.onSlot_chosen h]
  simp only [if_neg ha]

/-- A leader's check that fails raises its fault, whatever was to follow (R405). -/
theorem raiseOr_of_leader {act : Mask} (hp : sl.proof = false) (f : SyncFault) (k : State) :
    s.raiseOr sl act (some f) k = s.raise sl act f := by
  rw [State.raiseOr, hp]
  rfl

/-! #### Transfers (R293) -/

/-- The two readings of a vector pair as one target (R290). -/
theorem target_eq_targetOf (r : Regs) (a : ABase) : r.target a = targetOf r a := by
  funext l
  cases a with
  | zero => rfl
  | s k => rfl
  | v k =>
    have hlo := (r.vget k.val l).isLt
    have hhi := (r.vget (k.val + 1) l).isLt
    refine BitVec.eq_of_toNat_eq ?_
    rw [Regs.target, Regs.vpair, targetOf, BitVec.toNat_append, ← Nat.shiftLeft_add_eq_or_of_lt hlo, Nat.shiftLeft_eq,
      BitVec.toNat_ofNat]
    omega

theorem exists_targetFault (i : Instr) {act : Mask} {t : Nat → DWord}
    (h : ∃ l, l < 32 ∧ lane act l = true ∧ (t l).toNat % 4 ≠ 0) :
    ∃ f, f.cause = 0x0A ∧ f.laddr = 0 ∧ targetFault i act t = some f := by
  obtain ⟨l, hl, ha, ht⟩ := h
  refine ⟨_, rfl, rfl, if_pos ?_⟩
  exact List.any_eq_true.2 ⟨l, mem_lanesOf.2 ⟨hl, ha⟩, by simpa using ht⟩

/-- A transfer with a target register checks the lanes' targets before anything else. -/
theorem exec_checked {i : Instr} {b : Branch} (hb : branchRow sl.pc r i = some b) (hc : b.checked = true) (h : s.Chosen sl w r)
    (ha : active r sl.grp b.g ≠ 0) :
    ∃ k, exec i s = .next (s.taken.raiseOr sl (active r sl.grp b.g)
      (targetFault sl.instr (active r sl.grp b.g) b.target) k) := by
  unfold branchRow at hb
  split at hb <;> simp only [Option.some.injEq, reduceCtorEq] at hb <;> subst hb
  case h_1 | h_2 => cases hc
  case h_3 j =>
    rw [show exec (.brx j) s = execBrx j s from rfl, execBrx, withActive_of_lanes _ h ha, target_eq_targetOf]
    exact ⟨_, rfl⟩
  case h_4 j =>
    rw [show exec (.ret j) s = execRet j s from rfl, execRet, withActive_of_lanes _ h ha, target_eq_targetOf]
    exact ⟨_, rfl⟩
  case h_5 j =>
    rw [show exec (.callx j) s = execCallx j s from rfl, execCallx, withActive_of_lanes _ h ha, target_eq_targetOf]
    exact ⟨_, rfl⟩

theorem misalignedTargetsRaise : MisalignedTargetsRaise := by
  intro s sl w r i b h hp hb hc hl
  have ha : active r sl.grp b.g ≠ 0 := by
    obtain ⟨l, -, ha, -⟩ := hl
    intro h0
    rw [h0] at ha
    simp [lane] at ha
  obtain ⟨k, hk⟩ := exec_checked hb hc h ha
  obtain ⟨f, hcause, haddr, hf⟩ := exists_targetFault sl.instr hl
  rw [hf, raiseOr_of_leader hp] at hk
  exact ⟨f, hcause, haddr, hk⟩

/-! #### jwait (R279) -/

theorem exec_jwait_of_fault {i : JsetI} {f : SyncFault} (h : s.Chosen sl w r) (hp : sl.proof = false)
    (ha : active r sl.grp i.g ≠ 0) (hf : jwaitFault (r.jget i.j) (active r sl.grp i.g) sl.pc = some f) :
    exec (.jwait i) s = .next (s.taken.raise sl (active r sl.grp i.g) f) := by
  rw [show exec (.jwait i) s = execJwait i s from rfl, execJwait, withActive_of_lanes _ h ha]
  simp only [hf, raiseOr_of_leader hp]

theorem jwaitChecks : JwaitChecks := by
  intro s sl w r i act x h hp ha
  refine ⟨fun hfree => ?_, fun hopen hm => ?_, fun hopen hm harr hpc => ?_⟩ <;>
    refine exec_jwait_of_fault h hp ha ?_ <;> unfold jwaitFault
  · rw [show (r.jget i.j).open_ = false from hfree]
    rfl
  · rw [show (r.jget i.j).open_ = true from hopen]
    exact if_pos hm
  · rw [show (r.jget i.j).open_ = true from hopen]
    exact (if_neg (not_not_intro hm)).trans (if_pos ⟨harr, hpc⟩)

/-! #### Whole groups (R143, R388) -/

theorem wholeGroup_iff {grp act : Mask} : wholeGroup r grp act = true ↔ WholeGroup r grp act := by
  rw [wholeGroup, Bool.and_eq_true, beq_iff_eq, bne_iff_ne, WholeGroup]

theorem wholeGroup_eq_false {grp act : Mask} (h : ¬WholeGroup r grp act) : wholeGroup r grp act = false :=
  Bool.eq_false_iff.2 fun ht => h (wholeGroup_iff.1 ht)

theorem exec_eq_platenInstr {i : Instr} {q : PlatReq} (h : platReq i = some q) : exec i s = s.platenInstr q := by
  unfold platReq at h
  split at h <;> cases h <;> rfl

theorem platenInstr_of_leader {q : PlatReq} (h : s.Chosen sl w r) (hp : sl.proof = false) :
    s.platenInstr q = .next (if !wholeGroup r sl.grp (active r sl.grp q.g)
      then s.taken.raise sl (active r sl.grp q.g) (.plain causePartialGroup)
      else s.taken.leadPlaten sl w r (active r sl.grp q.g) q) := by
  rw [State.platenInstr, State.onSlot_chosen h]
  simp only [hp, Bool.false_eq_true, if_false]

theorem partialGroupsRaise : PartialGroupsRaise := by
  intro s sl w r i q h hp hq hw
  rw [exec_eq_platenInstr hq, platenInstr_of_leader h hp, wholeGroup_eq_false hw]
  rfl

/-! #### Region instructions (R388 to R393, R400) -/

theorem regionFault_of_handler {act : Mask} (hf : r.frame ≠ none) (ha : act ≠ 0) :
    regionFault r.inHandler r sl.grp act = some ⟨0x65, 0, 0, 0, 0⟩ := by
  have h : r.inHandler = true := Option.isSome_iff_ne_none.2 hf
  rw [regionFault, h, Bool.true_and, if_pos (bne_iff_ne.2 ha)]
  rfl

theorem regionFault_of_partial {act : Mask} (hf : r.frame = none ∨ act = 0) (hw : ¬WholeGroup r sl.grp act) :
    regionFault r.inHandler r sl.grp act = some ⟨0x68, 0, 0, 0, 0⟩ := by
  have h : (r.inHandler && act != 0) = false := by
    rcases hf with hf | hf <;> simp [Regs.inHandler, hf]
  rw [regionFault, h, wholeGroup_eq_false hw]
  rfl

theorem regionFault_of_group {act : Mask} (hg : RegionGroup r sl.grp act) : regionFault r.inHandler r sl.grp act = none := by
  obtain ⟨hw, hf⟩ := hg
  rw [regionFault, Regs.inHandler, hf, wholeGroup_iff.2 hw]
  rfl

/-- The guard of a region instruction that opens, fills or closes a level. -/
def levelGuard : Instr → Option Guard
  | .rgnBegin j => some j.g
  | .rgnKeep j => some j.g
  | .rgnEnd j => some j.g
  | _ => none

/-- `regionFault` judges a region instruction before anything else. -/
theorem exec_of_regionFault {i : Instr} {g : Guard} {e : SyncFault} (hi : levelGuard i = some g) (h : s.Chosen sl w r)
    (hp : sl.proof = false) (hf : regionFault r.inHandler r sl.grp (active r sl.grp g) = some e) :
    exec i s = .next (s.taken.raise sl (active r sl.grp g) e) := by
  unfold levelGuard at hi
  split at hi <;> cases hi
  case h_1 j =>
    rw [show exec (.rgnBegin j) s = execRgnBegin j s from rfl, execRgnBegin, State.region, State.onSlot_chosen h]
    simp only [hp, hf, Bool.false_eq_true, if_false]
  case h_2 j =>
    rw [show exec (.rgnKeep j) s = execRgnKeep j s from rfl, execRgnKeep, State.region, State.onSlot_chosen h]
    simp only [hp, hf, Bool.false_eq_true, if_false]
  case h_3 j =>
    rw [show exec (.rgnEnd j) s = execRgnEnd j s from rfl, execRgnEnd, State.onSlot_chosen h]
    simp only [hp, hf, Bool.false_eq_true, if_false]

/-- An instruction that `regionFault` lets pass is refused where its level is missing, or one too many (R391 to R393). -/
theorem exec_of_nesting {i : Instr} {g : Guard} (hi : levelGuard i = some g) (h : s.Chosen sl w r) (hp : sl.proof = false)
    (hf : regionFault r.inHandler r sl.grp (active r sl.grp g) = none)
    (hl : (w.levels = [] ∧ ∀ j, i ≠ .rgnBegin j) ∨ (4 ≤ w.levels.length ∧ ∃ j, i = .rgnBegin j)) :
    exec i s = .next (s.taken.raise sl (active r sl.grp g) (.plain causeRegionNesting)) := by
  unfold levelGuard at hi
  split at hi <;> cases hi
  case h_1 j =>
    have h4 : 4 ≤ w.levels.length := hl.elim (fun hn => absurd rfl (hn.2 j)) And.left
    rw [show exec (.rgnBegin j) s = execRgnBegin j s from rfl, execRgnBegin, State.region, State.onSlot_chosen h]
    simp only [hp, hf, Bool.false_eq_true, if_false, if_pos h4]
  case h_2 j =>
    have h0 : w.levels.isEmpty = true := hl.elim (fun hn => List.isEmpty_iff.2 hn.1) fun ⟨_, k, hk⟩ => nomatch hk
    rw [show exec (.rgnKeep j) s = execRgnKeep j s from rfl, execRgnKeep, State.region, State.onSlot_chosen h]
    simp only [hp, hf, h0, Bool.false_eq_true, if_false, if_true]
  case h_3 j =>
    have h0 : w.levels.isEmpty = true := hl.elim (fun hn => List.isEmpty_iff.2 hn.1) fun ⟨_, k, hk⟩ => nomatch hk
    rw [show exec (.rgnEnd j) s = execRgnEnd j s from rfl, execRgnEnd, State.onSlot_chosen h]
    simp only [hp, hf, h0, Bool.false_eq_true, if_false, if_true]

theorem regionChecksRaise : RegionChecksRaise := by
  intro s sl w r i g h hp hi act
  have hg : levelGuard i = some g := by
    split at hi
    case h_4 => exact hi.elim
    all_goals exact congrArg some hi.symm
  exact ⟨fun hf ha => exec_of_regionFault hg h hp (regionFault_of_handler hf ha),
    fun hf hw => exec_of_regionFault hg h hp (regionFault_of_partial hf hw),
    fun hgrp hl => exec_of_nesting hg h hp (regionFault_of_group hgrp) hl⟩

end

/-- Settles O23: each check of the four groups of instructions fails before anything else of its instruction happens. -/
theorem controlChecksRaise : Obligations.ControlChecksRaise :=
  ⟨misalignedTargetsRaise, jwaitChecks, partialGroupsRaise, regionChecksRaise⟩

end Sys2Proof.Results

namespace Sys2Proof.Results

open Sys2Proof.Machine Sys2Proof.Claims

/-! ### A Platen instruction joins the queue of its warp: O41 -/

section
variable {s s1 : State} {sl : Slot} {w : Warp} {r : Regs} {act : Mask}

theorem readRecord_cached (slot : Nat) (va : DWord) : s.Cached (s.readRecord slot w va).2 := by
  unfold State.readRecord
  have h := State.constWords_cached slot w.ctx 8 s va
  split
  · exact State.Cached.refl s
  · split <;> rename_i e <;> rwa [e] at h

theorem readRecords_cached (slot : Nat) (l : List DWord) : ∀ s : State, s.Cached (s.readRecords slot w l).2 := by
  induction l with
  | nil => exact State.Cached.refl
  | cons a t ih =>
    intro s
    have h := readRecord_cached (s := s) (w := w) slot a
    unfold State.readRecords
    split <;> rename_i e <;> rw [e] at h
    · exact h
    · have h1 := h.trans (ih _)
      split <;> rename_i e1 <;> rwa [e1] at h1

theorem freshFor_eq (s : State) (i : Instr) : ∃ n, (s.freshFor i).2 = { s with opSeq := n } := by
  unfold State.freshFor State.fresh
  cases i <;> exact ⟨_, rfl⟩

theorem follow_eq (w : Warp) (sl : Slot) (e : Lag) : ∃ p, w.follow sl e = { w with proof := p } := by
  unfold Warp.follow
  split
  · exact ⟨_, rfl⟩
  · split <;> exact ⟨_, rfl⟩

/-- The end of a leader's instruction, whatever entry it leaves for its proof warp. -/
theorem finishWith_of_leader (hw : s.warp sl.w = some w) (hp : sl.proof = false) (e : Warp → Lag) :
    ∃ p, s.finishWith sl r e =
      s.setWarp sl.w { w with r := { r.setPc sl.grp sl.after with gseq := r.gseq + 1 }, proof := p } := by
  obtain ⟨p, he⟩ := follow_eq w sl (e w)
  refine ⟨p, ?_⟩
  rw [State.finishWith_chosen hw, he, hp]
  rfl

/-- The registers of a group that goes on. -/
theorem passed_setPc (r : Regs) (sl : Slot) : Passed r { r.setPc sl.grp sl.after with gseq := r.gseq + 1 } sl :=
  ⟨Regs.advanced_finish sl rfl rfl, rfl⟩

theorem leadPlaten_eq {q : PlatReq} {recs : List LRec}
    (hr : s.readRecords sl.w w (q.recs.map fun k => r.sget k.val) = (.ok recs, s1)) (hok : q.ok recs = true)
    (hf : w.levels = [] ∨ q.forbid recs = false) :
    ∃ e, s.leadPlaten sl w r act q = ((s1.freshFor sl.instr).2.finishWith sl r e).modWarp sl.w fun y =>
      { y with platen := y.platen ++ [platOp sl y r act (s1.freshFor sl.instr).1 recs (q.src r act)] } := by
  have hforbid : (!w.levels.isEmpty && q.forbid recs) = false := by
    rcases hf with h | h <;> simp [h]
  rw [State.leadPlaten, hr]
  simp only [hok, hforbid, Bool.not_true, Bool.false_eq_true, if_false]
  exact ⟨_, rfl⟩

/-- An accepted Platen instruction: the operation stands at the end of the warp's queue. -/
theorem leadPlaten_of_accepted {q : PlatReq} {recs : List LRec} (hw : s.warp sl.w = some w) (hp : sl.proof = false)
    (hr : s.readRecords sl.w w (q.recs.map fun k => r.sget k.val) = (.ok recs, s1)) (hok : q.ok recs = true)
    (hf : w.levels = [] ∨ q.forbid recs = false) :
    ∃ (m : State) (w' y : Warp) (id : Nat),
      (∀ k, k ≠ sl.w → m.warp k = s.warp k) ∧ SameMemory s m ∧ s.leadPlaten sl w r act q = m.setWarp sl.w w' ∧
      w'.r = { r.setPc sl.grp sl.after with gseq := r.gseq + 1 } ∧
      w' = { w with r := w'.r, proof := w'.proof, platen := w.platen ++ [platOp sl y r act id recs (q.src r act)] } := by
  have hc : s.Cached s1 := by
    have h := readRecords_cached (w := w) sl.w (q.recs.map fun k => r.sget k.val) s
    rwa [hr] at h
  obtain ⟨e, he⟩ := leadPlaten_eq (act := act) hr hok hf
  obtain ⟨n, hn⟩ := freshFor_eq s1 sl.instr
  have hw2 : State.warp { s1 with opSeq := n } sl.w = some w := (hc.warp _).trans hw
  obtain ⟨p, hfin⟩ := finishWith_of_leader (r := r) hw2 hp e
  rw [hn, hfin, State.modWarp_some _ (State.warp_setWarp_self ..)] at he
  refine ⟨_, _, _, _, fun k hk => ?_, ?_, he, rfl, rfl⟩
  · rw [State.warp_setWarp_ne _ _ hk]
    exact hc.warp k
  · exact Opportunity.sameMemory_of_fields (Opportunity.memory_of_cached hc).1 (Opportunity.memory_of_cached hc).2

/-- acc.wr captures its source registers, lane by lane (R167). -/
theorem get_captured (r : Regs) (i : AccWrI) (act : Mask) {k l : Nat} (hk : k < 2 ^ i.nr.val) (hl : l < 32)
    (ha : lane act l = true) : (captured r i act).get (32 * k + l) = r.vget (i.a + k) l := by
  have he : captured r i act = ((List.range (2 ^ i.nr.val)).flatMap fun k => (lanesOf act).map fun l => (k, l)).foldl
      (fun (acc : SMap Word) (x : Nat × Nat) => acc.set (32 * x.1 + x.2) (r.vget (i.a + x.1) x.2)) [] := by
    simp only [captured, List.foldl_flatMap, List.foldl_map]
  rw [he]
  refine SMap.get_foldl_set_eq _ (fun x : Nat × Nat => 32 * x.1 + x.2) (fun x => r.vget (i.a + x.1) x.2) _ _ _ ?_ ?_
  · rintro ⟨a, b⟩ hm hkey
    simp only [List.mem_flatMap, List.mem_map, Prod.mk.injEq] at hm
    obtain ⟨a, -, m, hm, rfl, rfl⟩ := hm
    obtain ⟨hm, -⟩ := mem_lanesOf.1 hm
    obtain ⟨rfl, rfl⟩ : a = k ∧ m = l := by
      dsimp only at hkey
      omega
    rfl
  · exact ⟨(k, l), List.mem_flatMap.2 ⟨k, List.mem_range.2 hk, List.mem_map.2 ⟨l, mem_lanesOf.2 ⟨hl, ha⟩, rfl⟩⟩, rfl⟩

end

/-- Settles O41: the whole group runs to `leadPlaten`, whose records are read and pass (`leadPlaten_of_accepted`). -/
theorem platenInstructionsQueue : Obligations.PlatenInstructionsQueue := by
  intro s sl w r i q recs s1 h hp hi hq hgrp hrecs hok hforbid
  have hrecs : s.taken.readRecords sl.w w (q.recs.map fun k => r.sget k.val) = (.ok recs, s1) := by
    simpa [List.map_flatMap, ← List.map_eq_flatMap, Function.comp_def] using hrecs
  obtain ⟨m, w', y, id, hothers, hmem, ht, hr', hw'⟩ :=
    leadPlaten_of_accepted (s := s.taken) (act := active r sl.grp q.g) h.warp hp hrecs hok hforbid
  refine ⟨_, w', _, ?_, State.warp_setWarp_self .., hr' ▸ passed_setPc r sl, hw', fun k hk => ?_, hmem, hi, rfl, rfl, rfl, rfl, rfl, ?_⟩
  · rw [exec_eq_platenInstr hq, platenInstr_of_leader h hp, wholeGroup_iff.2 hgrp, ht]
    rfl
  · rw [State.warp_setWarp_ne _ _ hk]
    exact hothers k hk
  · rintro j rfl k l hk hl ha
    cases hq
    exact get_captured r j _ hk hl ha

end Sys2Proof.Results

namespace Sys2Proof.Results

open Sys2Proof.Machine Sys2Proof.Claims

/-! ### Codes that enter and leave a tile (R165): O43 -/

/-- A format with the exponents of FP32 and b fraction bits: BF16 is that of 7, FP32 that of 23 (R68). -/
def wideFmt (b : Nat) : Fmt := ⟨8, b, true⟩

/-- A magnitude with its sign. -/
def signedInt (neg : Bool) (n : Nat) : Int := if neg then -(n : Int) else n

section
variable {b c e m n : Nat} {neg : Bool} (md : RM)

theorem qmin_wideFmt (b : Nat) : (wideFmt b).qmin = -126 - (b : Int) := by
  simp [Fmt.qmin, Fmt.emin, Fmt.bias, wideFmt]

theorem qmin_f32 : f32.qmin = -149 := by decide

theorem natAbs_signedInt (neg : Bool) (n : Nat) : (signedInt neg n).natAbs = n := by
  cases neg <;> simp [signedInt]

theorem signedInt_lt_zero (hn : n ≠ 0) : decide (signedInt neg n < 0) = neg := by
  cases neg
  · simp [signedInt]
  · simp [signedInt, Nat.pos_of_ne_zero hn]

/-- Rounding a value that the format holds, in every mode: the unit q of its last place divides it, and its code is no larger than
the largest finite one (R70). -/
theorem code_round_of_exact (f : Fmt) {E q : Int} (hn : n ≠ 0) (hq : max (topExp n E - f.fbits) f.qmin = q)
    (hE : q ≤ E) (hmax : (q - f.qmin).toNat * 2 ^ f.fbits + n * 2 ^ (E - q).toNat ≤ f.maxCode) :
    (f.round md (signedInt neg n) E).code = f.signed neg ((q - f.qmin).toNat * 2 ^ f.fbits + n * 2 ^ (E - q).toNat) := by
  have hat (s : Bool) : roundAt md s n E q = (n * 2 ^ (E - q).toNat, false) := if_pos hE
  simp only [Fmt.round, natAbs_signedInt, signedInt_lt_zero hn, hq, hat, if_neg (not_lt.2 hmax)]

/-- A subnormal with fraction m of b bits, as FP32 holds it. -/
theorem code_round_subnormal (hb : b ≤ 23) (hm : m ≠ 0) (hlt : m < 2 ^ b) :
    (f32.round md (signedInt neg m) (wideFmt b).qmin).code = f32.signed neg (m * 2 ^ (23 - b)) := by
  have hlog : m.log2 < b := (Nat.log2_lt hm).2 hlt
  have hpow : 2 ^ b * 2 ^ (23 - b) = 2 ^ 23 := pow_mul_pow_sub 2 hb
  have hk : (-126 - (b : Int) - -149).toNat = 23 - b := by omega
  have h := code_round_of_exact (neg := neg) md f32 (E := (wideFmt b).qmin) (q := -149) hm ?_ ?_ ?_
  · rw [h, qmin_wideFmt, qmin_f32, hk]
    simp
  · rw [qmin_wideFmt, qmin_f32, topExp, show (f32.fbits : Int) = 23 from rfl]
    omega
  · rw [qmin_wideFmt]
    omega
  · rw [qmin_wideFmt, qmin_f32, hk, show f32.maxCode = 0x7F7FFFFF by decide]
    have := Nat.mul_lt_mul_of_pos_right hlt (Nat.two_pow_pos (23 - b))
    simp only [sub_self, Int.toNat_zero, zero_mul, zero_add]
    omega

theorem log2_two_pow_add (hlt : m < 2 ^ b) : (2 ^ b + m).log2 = b :=
  (Nat.log2_eq_iff (by omega)).2 ⟨Nat.le_add_right .., by rw [pow_succ]; omega⟩

/-- A normal with exponent field e and fraction m of b bits, as FP32 holds it. -/
theorem code_round_normal (hb : b ≤ 23) (hlt : m < 2 ^ b) (he : e ≠ 0) (hmax : e < 255) :
    (f32.round md (signedInt neg (2 ^ b + m)) ((wideFmt b).qmin + e - 1)).code =
      f32.signed neg (e * 2 ^ 23 + m * 2 ^ (23 - b)) := by
  have hpow : 2 ^ b * 2 ^ (23 - b) = 2 ^ 23 := pow_mul_pow_sub 2 hb
  have hk : (-126 - (b : Int) + e - 1 - (e - 150)).toNat = 23 - b := by omega
  have hu : ((e : Int) - 150 - -149).toNat = e - 1 := by omega
  have hcode : (e - 1) * 2 ^ 23 + (2 ^ b + m) * 2 ^ (23 - b) = e * 2 ^ 23 + m * 2 ^ (23 - b) := by
    rw [Nat.add_mul, hpow]
    omega
  have h := code_round_of_exact (neg := neg) md f32 (n := 2 ^ b + m) (E := (wideFmt b).qmin + e - 1) (q := e - 150)
    (by have := Nat.two_pow_pos b; omega) ?_ ?_ ?_
  · rw [h, qmin_wideFmt, qmin_f32, hk, hu, show f32.fbits = 23 from rfl, hcode]
  · rw [qmin_wideFmt, qmin_f32, topExp, log2_two_pow_add hlt, show (f32.fbits : Int) = 23 from rfl]
    omega
  · rw [qmin_wideFmt]
    omega
  · rw [qmin_wideFmt, qmin_f32, hk, hu, show f32.fbits = 23 from rfl, hcode, show f32.maxCode = 0x7F7FFFFF by decide]
    have := Nat.mul_lt_mul_of_pos_right hlt (Nat.two_pow_pos (23 - b))
    omega

/-- The value of a code by its fields (R68). -/
theorem decode_wideFmt (b c : Nat) : (wideFmt b).decode c =
    if bits c b 8 = 255 then
      (if bits c 0 b = 0 then .inf (bits c (8 + b) 1 == 1)
      else .nan (bits c (8 + b) 1 == 1) (decide ((wideFmt b).quietBit ≤ bits c 0 b)) (bits c 0 b))
    else if bits c b 8 = 0 then
      (if bits c 0 b = 0 then .zero (bits c (8 + b) 1 == 1)
      else .fin (signedInt (bits c (8 + b) 1 == 1) (bits c 0 b)) (wideFmt b).qmin)
    else .fin (signedInt (bits c (8 + b) 1 == 1) (2 ^ b + bits c 0 b)) ((wideFmt b).qmin + bits c b 8 - 1) := by
  simp only [Fmt.decode, show (wideFmt b).ebits = 8 from rfl, show (wideFmt b).fbits = b from rfl,
    show (wideFmt b).inf = true from rfl, Bool.true_and, Bool.not_true, Bool.false_and, Bool.false_eq_true,
    if_false, beq_iff_eq, Nat.reducePow, Nat.reduceSub, signedInt]

/-- The fields of a code below its sign. -/
theorem mod_eq_fields (b c : Nat) : c % 2 ^ (8 + b) = bits c b 8 * 2 ^ b + bits c 0 b := by
  rw [bits, bits, Nat.add_comm 8 b, pow_add, Nat.mod_mul, pow_zero, Nat.div_one]
  ring

/-- A code as its sign and the rest, scaled to FP32. -/
theorem mul_eq_signed (hb : b ≤ 23) (hc : c < 2 ^ (9 + b)) :
    c * 2 ^ (23 - b) = f32.signed (bits c (8 + b) 1 == 1) (bits c b 8 * 2 ^ 23 + bits c 0 b * 2 ^ (23 - b)) := by
  have hpow : 2 ^ b * 2 ^ (23 - b) = 2 ^ 23 := pow_mul_pow_sub 2 hb
  have hsplit := Nat.div_add_mod c (2 ^ (8 + b))
  have hlow : c % 2 ^ (8 + b) * 2 ^ (23 - b) = bits c b 8 * 2 ^ 23 + bits c 0 b * 2 ^ (23 - b) := by
    rw [mod_eq_fields, Nat.add_mul, Nat.mul_assoc, hpow]
  have htop : 2 ^ (8 + b) * 2 ^ (23 - b) = 2 ^ 31 := by
    rw [pow_add, Nat.mul_assoc, hpow]
    rfl
  have hs : c / 2 ^ (8 + b) < 2 := Nat.div_lt_of_lt_mul (by rwa [← pow_succ, show 8 + b + 1 = 9 + b by omega])
  calc c * 2 ^ (23 - b)
      = (2 ^ (8 + b) * (c / 2 ^ (8 + b)) + c % 2 ^ (8 + b)) * 2 ^ (23 - b) := by rw [hsplit]
    _ = 2 ^ 31 * (c / 2 ^ (8 + b)) + (bits c b 8 * 2 ^ 23 + bits c 0 b * 2 ^ (23 - b)) := by
      rw [Nat.add_mul, hlow, Nat.mul_right_comm, htop]
    _ = _ := by
      rw [Fmt.signed, show f32.signBit = 2 ^ 31 from rfl,
        show bits c (8 + b) 1 = c / 2 ^ (8 + b) by rw [bits, pow_one, Nat.mod_eq_of_lt hs]]
      generalize c / 2 ^ (8 + b) = s at hs
      obtain rfl | rfl : s = 0 ∨ s = 1 := by omega
      · simp
      · exact Nat.add_comm ..

/-- A code that is no NaN goes to the FP32 code of the same value, in every mode (R70, R165). -/
theorem code_deliver_wideFmt (hb : b ≤ 23) (hc : c < 2 ^ (9 + b)) (hn : ¬255 * 2 ^ b < c % 2 ^ (8 + b)) :
    (f32.deliver md ((wideFmt b).decode c)).code = c * 2 ^ (23 - b) := by
  have hm : bits c 0 b < 2 ^ b := Nat.mod_lt _ (Nat.two_pow_pos b)
  have he : bits c b 8 < 256 := Nat.mod_lt _ (by decide)
  rw [mod_eq_fields] at hn
  rw [decode_wideFmt, mul_eq_signed hb hc]
  by_cases he1 : bits c b 8 = 255
  · rw [he1] at hn ⊢
    have hm0 : bits c 0 b = 0 := by omega
    rw [if_pos rfl, if_pos hm0, hm0, Nat.zero_mul]
    rfl
  · rw [if_neg he1]
    by_cases he0 : bits c b 8 = 0
    · rw [if_pos he0, he0, Nat.zero_mul, Nat.zero_add]
      by_cases hm0 : bits c 0 b = 0
      · rw [if_pos hm0, hm0, Nat.zero_mul]
        rfl
      · rw [if_neg hm0]
        exact code_round_subnormal md hb hm0 hm
    · rw [if_neg he0]
      exact code_round_normal md hb hm he0 (by omega)

/-- A NaN becomes the canonical one (R75, R165). -/
theorem code_deliver_wideFmt_nan (hn : 255 * 2 ^ b < c % 2 ^ (8 + b)) :
    (f32.deliver md ((wideFmt b).decode c)).code = 0x7FC00000 := by
  have hm : bits c 0 b < 2 ^ b := Nat.mod_lt _ (Nat.two_pow_pos b)
  have he : bits c b 8 < 256 := Nat.mod_lt _ (by decide)
  rw [mod_eq_fields] at hn
  have he1 : bits c b 8 = 255 := by
    by_contra hne
    have h : (bits c b 8 + 1) * 2 ^ b ≤ 255 * 2 ^ b := Nat.mul_le_mul_right _ (by omega)
    rw [Nat.add_mul] at h
    omega
  have hm0 : bits c 0 b ≠ 0 := by
    rw [he1] at hn
    omega
  rw [decode_wideFmt, if_pos he1, if_neg hm0]
  rfl

end

theorem intoTile_bf16 (c : Nat) : intoTile .bf16 c = BitVec.ofNat 32 (f32.deliver .rn ((wideFmt 7).decode c)).code := rfl

theorem intoTile_f32 (c : Nat) : intoTile .f32 c = BitVec.ofNat 32 (f32.deliver .rn ((wideFmt 23).decode c)).code := rfl

theorem outOfTile_f32 (c : Word) (md : RM) (ovf : Bool) :
    outOfTile .f32 md ovf c none = (f32.deliver md ((wideFmt 23).decode c.toNat)).code := rfl

/-- Settles O43: BF16 and FP32 codes are codes of `wideFmt`, whose values FP32 holds (`code_deliver_wideFmt`). -/
theorem tileConversionsAreExact : Obligations.TileConversionsAreExact := by
  refine ⟨fun c hc hn => ?_, fun c _ hn => ?_, fun c hc hn => ?_, fun c md ovf hn => ?_, fun c => rfl, fun c md ovf => rfl⟩
  · rw [intoTile_bf16, code_deliver_wideFmt (b := 7) .rn (by decide) hc hn]
  · rw [intoTile_bf16, code_deliver_wideFmt_nan (b := 7) .rn hn]
    rfl
  · rw [intoTile_f32, code_deliver_wideFmt (b := 23) .rn (by decide) hc hn, Nat.sub_self, pow_zero, Nat.mul_one]
  · rw [outOfTile_f32, code_deliver_wideFmt (b := 23) md (by decide) c.isLt hn, Nat.sub_self, pow_zero, Nat.mul_one]

end Sys2Proof.Results
namespace Sys2Proof.Results

open Sys2Proof.Machine Sys2Proof.Claims

/-! ### A step of the Platen (R146, R155): what it reads, and what of the state it changes -/

section
variable {w : Warp} {s t u : State} {slot : Nat}

/-! #### Reading operands changes only what translation keeps -/

theorem mapPages_cached (v ctx : Nat) (n : Need) (l : List Int) :
    ∀ (acc : List PageMap) (s : State), s.Cached (s.mapPages v ctx n acc l).2 := by
  induction l with
  | nil => exact fun _ => State.Cached.refl
  | cons a l ih =>
    intro acc s
    unfold State.mapPages
    split
    · exact ih acc s
    · dsimp only
      have h := State.translate_cached s v ctx (BitVec.ofNat 64 (wrap a 64)) n
      split <;> rename_i e <;> rw [e] at h
      · exact h
      · exact h
      · split
        · exact h
        · exact h.trans (ih _ _)

theorem globalPlaces_cached (v ctx : Nat) (n : Need) (size : Nat) (l : List Int) :
    s.Cached (s.globalPlaces v ctx n size l).2 := by
  unfold State.globalPlaces
  split
  · exact State.Cached.refl s
  · have h := mapPages_cached v ctx n (l.flatMap fun a => if size = 2 ∧ a % 2 ≠ 0 then [a, a + 1] else [a]) [] s
    split <;> rename_i e <;> rwa [e] at h

theorem engineParts_cached (sp : Space) (n : Need) (size : Nat) (l : List Int) :
    s.Cached (s.engineParts slot w sp n size l).2 := by
  unfold State.engineParts
  split
  · exact globalPlaces_cached ..
  · exact State.Cached.refl s

theorem gather_cached (rc : LRec) (l : List Int) : s.Cached (s.gather slot w rc l).2 := by
  unfold State.gather
  dsimp only
  split <;> rename_i e
  · exact (congrArg Prod.snd e) ▸ engineParts_cached ..
  · have h := (congrArg Prod.snd e) ▸ engineParts_cached (s := s) (slot := slot) (w := w) ..
    split <;> exact h

theorem operandRows_cached (rc : LRec) (k n : Nat) : s.Cached (s.operandRows slot w rc k n).2 := by
  unfold State.operandRows
  dsimp only
  have h := gather_cached (s := s) (slot := slot) (w := w) rc ((rc.rows k n).flatten.map Prod.fst)
  split <;> rename_i e <;> rwa [e] at h

theorem mmaOperands_cached (i : MmaI) (g : Nat) (l : List LRec) : ∀ s : State, s.Cached (s.mmaOperands slot w i g l).2 := by
  induction l with
  | nil => exact State.Cached.refl
  | cons rc l ih =>
    intro s
    unfold State.mmaOperands
    dsimp only
    split <;> rename_i e
    · exact (congrArg Prod.snd e) ▸ operandRows_cached ..
    · have h := (congrArg Prod.snd e) ▸ operandRows_cached (s := s) (slot := slot) (w := w) ..
      split <;> rename_i e1
      · exact h.trans ((congrArg Prod.snd e1) ▸ ih _)
      · exact h.trans ((congrArg Prod.snd e1) ▸ ih _)

theorem mmaStep_cached (o : PlatOp) (i : MmaI) (res : Option (Fin 8)) : s.Cached (s.mmaStep slot w o i res).2 := by
  unfold State.mmaStep
  have h := mmaOperands_cached (slot := slot) (w := w) i o.next o.recs s
  split <;> rename_i e <;> rwa [e] at h

theorem accLdStep_cached (o : PlatOp) (i : AccLdI) : s.Cached (s.accLdStep slot w o i).2 := by
  unfold State.accLdStep
  dsimp only
  have h := gather_cached (s := s) (slot := slot) (w := w) ((o.recs.head?).getD default)
    (((o.recs.head?).getD default).rows16 o.next).flatten
  split <;> rename_i e <;> rwa [e] at h

theorem platStep_cached (o : PlatOp) : s.Cached (s.platStep slot w o).2 := by
  unfold State.platStep
  split
  · exact mmaStep_cached ..
  · exact mmaStep_cached ..
  · exact State.Cached.refl s
  · exact State.Cached.refl s
  · exact State.Cached.refl s
  · exact accLdStep_cached ..
  · exact State.Cached.refl s
  · exact State.Cached.refl s

/-! #### Settling fences leaves every byte -/

/-- Memory and the blocks' scratch are as they were. -/
def SameStores (s t : State) : Prop := t.hbm = s.hbm ∧ t.gangs = s.gangs

theorem SameStores.trans (h : SameStores s t) (g : SameStores t u) : SameStores s u := ⟨g.1.trans h.1, g.2.trans h.2⟩

theorem SameStores.modWarp (h : SameStores s t) (k : Nat) (f : Warp → Warp) : SameStores s (t.modWarp k f) := by
  unfold State.modWarp
  split
  · exact h
  · exact h

theorem SameStores.foldl {α : Type} {f : State → α → State} (hf : ∀ a x, SameStores a (f a x)) (l : List α) (s : State) :
    SameStores s (l.foldl f s) := by
  induction l generalizing s with
  | nil => exact ⟨rfl, rfl⟩
  | cons x l ih => exact (hf s x).trans (ih _)

theorem stampStores_sameStores (s : State) (slot : Nat) : SameStores s (s.stampStores slot) := by
  unfold State.stampStores
  split
  · exact ⟨rfl, rfl⟩
  · dsimp only
    split
    · exact ⟨rfl, rfl⟩
    · exact ⟨rfl, rfl⟩

theorem shareForRelease_sameStores (s : State) (slot id reach : Nat) : SameStores s (s.shareForRelease slot id reach) := by
  unfold State.shareForRelease
  split
  · exact (SameStores.modWarp ⟨rfl, rfl⟩ ..).trans (stampStores_sameStores ..)
  · exact (SameStores.foldl (fun _ _ => SameStores.modWarp ⟨rfl, rfl⟩ ..) _ s).trans (stampStores_sameStores ..)
  · exact ⟨rfl, rfl⟩

theorem constFence_sameStores (s : State) (slot id rank : Nat) : SameStores s (s.constFence slot id rank) := by
  unfold State.constFence
  split
  · exact ⟨rfl, rfl⟩
  · exact SameStores.modWarp ⟨rfl, rfl⟩ ..

theorem acquire_sameStores (s : State) (slot reach : Nat) : SameStores s (s.acquire slot reach) := by
  unfold State.acquire State.dropL1
  split <;> exact ⟨rfl, rfl⟩

theorem settleFence_sameStores (s : State) (slot : Nat) (w : Warp) (f : MemOp) : SameStores s (s.settleFence slot w f) := by
  have h := (SameStores.modWarp (s := s) ⟨rfl, rfl⟩ slot fun x => { x with pend := x.pend.filter fun o => o.id != f.id }).trans
    (constFence_sameStores _ slot f.id (scopeRank f.scope))
  unfold State.settleFence
  dsimp only
  split <;> split
  · exact (h.trans (shareForRelease_sameStores ..)).trans (acquire_sameStores ..)
  · exact h.trans (acquire_sameStores ..)
  · exact h.trans (shareForRelease_sameStores ..)
  · exact h

theorem settleFences_sameStores (slot n : Nat) : ∀ s : State, SameStores s (s.settleFences slot n) := by
  induction n with
  | zero => exact fun _ => ⟨rfl, rfl⟩
  | succ n ih =>
    intro s
    unfold State.settleFences
    split
    · exact ⟨rfl, rfl⟩
    · split
      · exact ⟨rfl, rfl⟩
      · split
        · exact (settleFence_sameStores ..).trans (ih _)
        · exact ⟨rfl, rfl⟩

theorem settleQuad_sameStores (s : State) (q : Nat) : SameStores s (s.settleQuad q) :=
  SameStores.foldl (fun a _ => (settleFences_sameStores _ _ a).trans (stampStores_sameStores ..)) _ s

end

end Sys2Proof.Results

namespace Sys2Proof.Results

open Sys2Proof.Machine Sys2Proof.Claims

/-! ### A step of the Platen: the warp after it -/

section
variable {s t : State} {slot q : Nat} {w y : Warp} {o : PlatOp} {x : StepRes}

/-- The warp of a slot is y but for errors queued or detected and the places of its stores; memory is that of s. -/
def Keeps (s t : State) (slot : Nat) (y : Warp) : Prop :=
  (∃ w', t.warp slot = some w' ∧ w' = { y with pend := w'.pend, async := w'.async, det := w'.det }) ∧ SameStores s t

theorem Keeps.of_warps {u : State} (h : Keeps s t slot y) (hw : u.warps = t.warps) (hm : SameStores t u) : Keeps s u slot y :=
  ⟨by rw [State.warp, hw]; exact h.1, h.2.trans hm⟩

theorem Keeps.stampStores (h : Keeps s t slot y) : Keeps s (t.stampStores slot) slot y := by
  obtain ⟨⟨w', hw, he⟩, hm⟩ := h
  refine ⟨?_, hm.trans (stampStores_sameStores t slot)⟩
  unfold State.stampStores
  rw [hw]
  dsimp only
  split
  · exact ⟨w', hw, he⟩
  · refine ⟨_, State.warp_setWarp_self .., ?_⟩
    rw [he]

/-- Outside a handler an error detected for a warp only joins its queues (R373, R375). -/
theorem Keeps.detect (h : Keeps s t slot y) (hf : y.r.frame = none) (e : AsyncErr) : Keeps s (t.detect slot e) slot y := by
  obtain ⟨⟨w', hw, he⟩, hm⟩ := h
  have hr : w'.r.frame = none := by rw [he]; exact hf
  have hin : w'.r.inHandler = false := by rw [Regs.inHandler, hr]; rfl
  have joins (a d : List AsyncErr) : Keeps s (t.setWarp slot { w' with async := a, det := d }) slot y :=
    ⟨⟨_, State.warp_setWarp_self .., by rw [he]⟩, hm⟩
  rw [State.detect, hw]
  simp only [hin, Bool.false_eq_true, if_false, queueAsync_of_outside e hw hr]
  split
  · exact joins w'.async _
  · exact joins _ w'.det

theorem Keeps.detectFor (h : Keeps s t slot y) (hf : y.r.frame = none) (c : Nat) (pc : DWord) (g : Nat) (m : Mask) (a : DWord)
    (n l : Nat) : Keeps s (t.detectFor slot c pc g m a n l) slot y :=
  (h.of_warps (u := t.reliabilityWords.2.2) rfl ⟨rfl, rfl⟩).detect hf _

theorem Keeps.ite {u : State} {c : Prop} [Decidable c] (h : Keeps s t slot y) (g : Keeps s u slot y) :
    Keeps s (if c then t else u) slot y := by
  split
  · exact h
  · exact g

theorem Keeps.checkSums (h : Keeps s t slot y) (hf : y.r.frame = none) (o : PlatOp) : Keeps s (t.checkSums slot o) slot y := by
  have hpick : Keeps s (t.pick 2).2 slot y := by
    obtain ⟨a, b, hp⟩ := (State.pick_cached t 2).eq
    rw [hp]
    exact h.of_warps rfl ⟨rfl, rfl⟩
  exact .ite (h.detectFor hf ..) (.ite (.ite (hpick.detectFor hf ..) hpick) h)

/-! #### Registers -/

/-- Outside a handler scalars delivered change nothing else of the registers. -/
theorem foldl_sDeliver_eq (g : Nat) (l : List (Nat × DWord)) : ∀ r : Regs, r.frame = none →
    ∃ z, l.foldl (fun a y => a.sDeliver g y.1 y.2) r = { r with s := z } := by
  induction l with
  | nil => exact fun r _ => ⟨r.s, rfl⟩
  | cons a l ih =>
    intro r hr
    have h : r.sDeliver g a.1 a.2 = r.sset a.1 a.2 := by rw [Regs.sDeliver, hr]
    obtain ⟨z, hz⟩ := ih (r.sset a.1 a.2) hr
    rw [List.foldl_cons, h, hz]
    exact ⟨z, rfl⟩

theorem deliver_scalars_eq {r : Regs} (hr : r.frame = none) (g : Nat) (l : List (Nat × DWord)) :
    ∃ z, r.deliver g ⟨[], l, [], []⟩ = { r with s := z } := foldl_sDeliver_eq g l r hr

/-! #### The step applied -/

/-- The queue of a warp after a step of an operation (R145). -/
def queueAfter (w : Warp) (o : PlatOp) (x : StepRes) : List PlatOp :=
  if o.steps ≤ o.next + 1 then w.platen.filter fun y => y.id != o.id
  else w.platen.map fun y =>
    if y.id = o.id then { o with next := o.next + 1, skip := o.skip || x.skip, sums := x.sums, hurt := [] } else y

/-- What a step makes of its warp. -/
structure Stepped (w y : Warp) (o : PlatOp) (x : StepRes) : Prop where
  v : y.r.v = (w.r.writeV x.vw).v
  tiles : y.tiles = x.tiles
  platen : y.platen = queueAfter w o x
  frame : y.r.frame = w.r.frame

/-- The last step delivers the token's scalar (R160). -/
theorem stepped_of_delivered {r0 : Regs} {g : Nat} {l : List (Nat × DWord)} (hf : w.r.frame = none)
    (hr : y.r = r0.deliver g ⟨[], l, [], []⟩) (h0 : r0.frame = none) (hv : r0.v = (w.r.writeV x.vw).v) (ht : y.tiles = x.tiles)
    (hp : y.platen = queueAfter w o x) : Stepped w y o x := by
  obtain ⟨z, hz⟩ := deliver_scalars_eq h0 g l
  rw [hz] at hr
  exact ⟨by rw [hr]; exact hv, ht, hp, by rw [hr]; exact h0.trans hf.symm⟩

/-- Once the warp is written, a step places the warp's stores and ends the check of an operation (R157, R158). -/
theorem keeps_of_stepped (hf : w.r.frame = none) (hy : Stepped w y o x) {c c' : Prop} [Decidable c] [Decidable c']
    (n : SMap DWord) (o1 : PlatOp) :
    let t := (s.setWarp slot y).stampStores slot
    ∃ y, Keeps s (if c then t else if c' then { t with skip := n } else t.checkSums slot o1) slot y ∧ Stepped w y o x := by
  have h : Keeps s ((s.setWarp slot y).stampStores slot) slot y :=
    Keeps.stampStores ⟨⟨y, State.warp_setWarp_self .., rfl⟩, rfl, rfl⟩
  exact ⟨y, .ite h (.ite (h.of_warps rfl ⟨rfl, rfl⟩) (h.checkSums (hy.frame.trans hf) o1)), hy⟩

theorem platApply_keeps (hw : s.warp slot = some w) (hf : w.r.frame = none) :
    ∃ y, Keeps s (s.platApply slot o x none) slot y ∧ Stepped w y o x := by
  simp only [State.platApply, State.modWarp_some _ hw]
  refine keeps_of_stepped hf ?_ _ _
  by_cases hl : o.steps ≤ o.next + 1
  · simp only [hl, decide_true, Bool.not_true, Bool.false_eq_true, if_false, if_true]
    split <;> exact stepped_of_delivered hf rfl hf rfl rfl (if_pos hl).symm
  · simp only [hl, decide_false, Bool.not_false, if_true, Bool.false_eq_true, if_false]
    exact ⟨rfl, rfl, (if_neg hl).symm, rfl⟩

end

end Sys2Proof.Results

namespace Sys2Proof.Results

open Sys2Proof.Machine Sys2Proof.Claims

/-! ### A step of the Platen: the one operation that may run -/

section
variable {s s0 s1 : State} {slot q : Nat} {w : Warp} {o : PlatOp} {x : StepRes}

/-- A single candidate is found in its class (R146). -/
theorem byClass_singleton (hc : s.warpClass w ≤ 3) : s.byClass [(slot, w, o)] = [(slot, w, o)] := by
  have h : s.warpClass w = 0 ∨ s.warpClass w = 1 ∨ s.warpClass w = 2 ∨ s.warpClass w = 3 := by omega
  have hr : List.range 4 = [0, 1, 2, 3] := rfl
  rcases h with h | h | h | h <;> simp [State.byClass, hr, h]

theorem platEcc_of_good (hb : w.badT = []) : s.platEcc slot w o = s := by
  rw [State.platEcc, hb]
  rfl

theorem platRun_of_step (hx : s.platStep slot w o = (.ok x, s1)) (hst : x.stores = []) (hb : w.badT = []) :
    s.platRun slot w o = some (s1.platApply slot o x none) := by
  rw [State.platRun, hx]
  simp only [hst, List.isEmpty_nil, if_true, platEcc_of_good hb]

theorem exec_platenStep (h : PlatenRuns (s0.settleQuad q) q slot w o x) :
    ∃ (t : State) (w' : Warp), exec (.platenStep q) s0 = .next t ∧ t.warp slot = some w' ∧ SameMemory s0 t ∧ Stepped w w' o x := by
  obtain ⟨honly, hw, ⟨-, hf, hb, hclass⟩, ⟨s1, hx, -⟩, hst⟩ := h
  have hc : (s0.settleQuad q).Cached s1 := by
    have h := platStep_cached (s := s0.settleQuad q) (slot := slot) (w := w) o
    rwa [hx] at h
  obtain ⟨y, ⟨⟨w', hw', he⟩, hmem⟩, hy⟩ := platApply_keeps (o := o) (x := x) ((hc.warp slot).trans hw) hf
  have hsame := ((settleQuad_sameStores s0 q).trans (Opportunity.memory_of_cached hc)).trans hmem
  refine ⟨{ s1.platApply slot o x none with platRR := (s1.platApply slot o x none).platRR.set q (slotNum slot) }, w', ?_, hw',
    Opportunity.sameMemory_of_fields hsame.1 hsame.2, ?_⟩
  · show execPlatenStep q s0 = _
    unfold execPlatenStep
    simp only [honly, byClass_singleton hclass, List.findSome?_cons, platRun_of_step hx hst hb, Option.map_some]
  · rw [he]
    exact ⟨hy.v, hy.tiles, hy.platen, hy.frame⟩

end

end Sys2Proof.Results

namespace Sys2Proof.Results

open Sys2Proof.Machine Sys2Proof.Claims

/-! ### Tiles: the elements of a map that lists several (R147) -/

section

/-! #### Reading parts of a map -/

/-- A filter that drops no entry of a key. -/
theorem get_filter_of_keeps {q : Nat × Word → Bool} {k : Nat} (hq : ∀ x : Nat × Word, x.1 = k → q x = true) (m : SMap Word) :
    SMap.get (m.filter q) k = m.get k := by
  induction m with
  | nil => rfl
  | cons x m ih =>
    by_cases hx : q x = true
    · rw [List.filter_cons_of_pos hx, SMap.get, SMap.get, ih]
    · rw [List.filter_cons_of_neg hx, ih, SMap.get, if_neg fun hk => hx (hq x hk.symm)]

theorem get_eq_zero_of_not_mem {m : SMap Word} {k : Nat} (h : ∀ x ∈ m, x.1 ≠ k) : m.get k = 0 := by
  induction m with
  | nil => rfl
  | cons x m ih =>
    rw [SMap.get, if_neg (h x List.mem_cons_self).symm, ih fun y hy => h y (List.mem_cons_of_mem _ hy)]

theorem get_append_of_left {a b : SMap Word} {k : Nat} (h : ∀ x ∈ b, x.1 ≠ k) : SMap.get (a ++ b) k = a.get k := by
  induction a with
  | nil => exact get_eq_zero_of_not_mem h
  | cons x a ih => rw [List.cons_append, SMap.get, SMap.get, ih]

theorem get_append_of_right {a b : SMap Word} {k : Nat} (h : ∀ x ∈ a, x.1 ≠ k) : SMap.get (a ++ b) k = b.get k := by
  induction a with
  | nil => rfl
  | cons x a ih =>
    rw [List.cons_append, SMap.get, if_neg (h x List.mem_cons_self).symm, ih fun y hy => h y (List.mem_cons_of_mem _ hy)]

/-- The entries for the words of a list from key b + n on: a zero has none (R147). -/
def entriesFrom (b : Nat) (l : List Word) (n : Nat) : SMap Word :=
  (l.zipIdx n).filterMap fun x => if x.1 = 0 then none else some (b + x.2, x.1)

theorem entriesFrom_cons (b n : Nat) (a : Word) (l : List Word) :
    entriesFrom b (a :: l) n = if a = 0 then entriesFrom b l (n + 1) else (b + n, a) :: entriesFrom b l (n + 1) := by
  rw [entriesFrom, List.zipIdx_cons, List.filterMap_cons]
  by_cases ha : a = 0
  · simp only [ha, if_true]
    rfl
  · simp only [ha, if_false]
    rfl

theorem key_of_mem_entriesFrom {b n : Nat} {l : List Word} {x : Nat × Word} (h : x ∈ entriesFrom b l n) :
    ∃ j, n ≤ j ∧ j < n + l.length ∧ x.1 = b + j := by
  obtain ⟨y, hy, he⟩ := List.mem_filterMap.1 h
  split at he
  · cases he
  · cases he
    exact ⟨y.2, List.le_snd_of_mem_zipIdx hy, List.snd_lt_add_of_mem_zipIdx hy, rfl⟩

theorem get_entriesFrom (b : Nat) (l : List Word) : ∀ n e : Nat, (entriesFrom b l n).get (b + (n + e)) = l.getD e 0 := by
  induction l with
  | nil => exact fun _ _ => rfl
  | cons a l ih =>
    intro n e
    rw [entriesFrom_cons]
    cases e with
    | zero =>
      by_cases ha : a = 0
      · rw [if_pos ha, ha]
        refine get_eq_zero_of_not_mem fun x hx => ?_
        obtain ⟨j, hj, -, hk⟩ := key_of_mem_entriesFrom hx
        omega
      · rw [if_neg ha]
        exact if_pos rfl
    | succ e =>
      have h := ih (n + 1) e
      rw [show b + (n + 1 + e) = b + (n + (e + 1)) by omega] at h
      rw [List.getD_cons_succ, ← h]
      split
      · rfl
      · rw [SMap.get_cons, if_neg (by omega)]

theorem setTile_eq (tiles : SMap Word) (t : Nat) (l : List Word) : setTile tiles t l =
    (tiles.filter fun x => decide (x.1 / 4096 < t)) ++ entriesFrom (t * 4096) (l.take 4096) 0 ++
      (tiles.filter fun x => decide (t < x.1 / 4096)) := rfl

/-- The elements of a tile that has been given anew; every other tile keeps its own. -/
theorem get_setTile (tiles : SMap Word) (t : Nat) (l : List Word) {e : Nat} (he : e < 4096) (u : Nat) :
    (setTile tiles t l).get (u * 4096 + e) = if u = t then l.getD e 0 else tiles.get (u * 4096 + e) := by
  have hdiv : (u * 4096 + e) / 4096 = u := by omega
  have hmid (x : Nat × Word) (hx : x ∈ entriesFrom (t * 4096) (l.take 4096) 0) : x.1 / 4096 = t := by
    obtain ⟨j, -, hj, hk⟩ := key_of_mem_entriesFrom hx
    have := List.length_take_le 4096 l
    omega
  have hhigh (hu : u ≤ t) : ∀ x ∈ tiles.filter fun x => decide (t < x.1 / 4096), x.1 ≠ u * 4096 + e := fun x hx h => by
    have := of_decide_eq_true (List.mem_filter.1 hx).2
    omega
  have hlow (hu : t ≤ u) : ∀ x ∈ tiles.filter fun x => decide (x.1 / 4096 < t), x.1 ≠ u * 4096 + e := fun x hx h => by
    have := of_decide_eq_true (List.mem_filter.1 hx).2
    omega
  have hother (hu : u ≠ t) : ∀ x ∈ entriesFrom (t * 4096) (l.take 4096) 0, x.1 ≠ u * 4096 + e := fun x hx h => by
    have := hmid x hx
    omega
  rw [setTile_eq]
  rcases Nat.lt_trichotomy u t with hu | rfl | hu
  · rw [get_append_of_left (hhigh hu.le), get_append_of_left (hother hu.ne), if_neg hu.ne]
    refine get_filter_of_keeps (fun x hx => ?_) tiles
    rw [hx, hdiv, decide_eq_true hu]
  · rw [get_append_of_left (hhigh le_rfl), get_append_of_right (hlow le_rfl), if_pos rfl]
    have h := get_entriesFrom (u * 4096) (l.take 4096) 0 e
    rw [Nat.zero_add] at h
    rw [h]
    simp [List.getD_eq_getElem?_getD, he]
  · rw [List.append_assoc, get_append_of_right (hlow hu.le), get_append_of_right (hother hu.ne'), if_neg hu.ne']
    refine get_filter_of_keeps (fun x hx => ?_) tiles
    rw [hx, hdiv, decide_eq_true hu]

/-! #### A tile as a list of its elements -/

theorem length_denseFrom : ∀ (n k : Nat) (m : SMap Word), (denseFrom n k m).length = n
  | 0, _, _ => rfl
  | n + 1, k, [] => congrArg (· + 1) (length_denseFrom n (k + 1) [])
  | n + 1, k, (j, v) :: m => by
    rw [denseFrom]
    split
    · exact congrArg (· + 1) (length_denseFrom n (k + 1) m)
    · exact congrArg (· + 1) (length_denseFrom n (k + 1) ((j, v) :: m))

theorem length_tileWords (tiles : SMap Word) (t : Nat) : (tileWords tiles t).length = 4096 := length_denseFrom ..

theorem wfFrom_cons {k : Nat} {x : Nat × Word} {m : SMap Word} :
    SMap.wfFrom k (x :: m) = true ↔ k ≤ x.1 ∧ x.2 ≠ 0 ∧ SMap.wfFrom (x.1 + 1) m = true := by
  simp only [SMap.wfFrom, Bool.and_eq_true, decide_eq_true_eq, and_assoc]
  rfl

theorem le_key_of_wfFrom {m : SMap Word} : ∀ {k : Nat}, SMap.wfFrom k m = true → ∀ x ∈ m, k ≤ x.1 := by
  induction m with
  | nil => exact fun _ x hx => absurd hx List.not_mem_nil
  | cons y m ih =>
    intro k h x hx
    obtain ⟨hk, -, hm⟩ := wfFrom_cons.1 h
    rcases List.mem_cons.1 hx with rfl | hx
    · exact hk
    · exact (hk.trans (Nat.le_succ _)).trans (ih hm x hx)

theorem wfFrom_filter (q : Nat × Word → Bool) {m : SMap Word} :
    ∀ {k b : Nat}, SMap.wfFrom k m = true → (∀ x ∈ m, q x = true → b ≤ x.1) → SMap.wfFrom b (m.filter q) = true := by
  induction m with
  | nil => exact fun _ _ => rfl
  | cons y m ih =>
    intro k b h hb
    obtain ⟨-, hv, hm⟩ := wfFrom_cons.1 h
    by_cases hq : q y = true
    · rw [List.filter_cons_of_pos hq]
      exact wfFrom_cons.2 ⟨hb y List.mem_cons_self hq, hv, ih hm fun x hx _ => le_key_of_wfFrom hm x hx⟩
    · rw [List.filter_cons_of_neg hq]
      exact ih hm fun x hx => hb x (List.mem_cons_of_mem _ hx)

/-- Of a canonical map the list holds what the keys read. -/
theorem getD_denseFrom : ∀ (n k : Nat) (m : SMap Word), SMap.wfFrom k m = true → ∀ e, e < n →
    (denseFrom n k m).getD e 0 = m.get (k + e)
  | 0, _, _, _, _, he => absurd he (Nat.not_lt_zero _)
  | n + 1, k, [], h, 0, _ => rfl
  | n + 1, k, [], h, e + 1, he => getD_denseFrom n (k + 1) [] rfl e (Nat.lt_of_succ_lt_succ he)
  | n + 1, k, (j, v) :: m, h, e, he => by
    obtain ⟨hj, hv, hm⟩ := wfFrom_cons.1 h
    rw [denseFrom]
    by_cases hk : k = j
    · subst hk
      rw [if_pos rfl]
      cases e with
      | zero => exact (if_pos rfl).symm
      | succ e =>
        rw [List.getD_cons_succ, getD_denseFrom n (k + 1) m hm e (by omega), SMap.get, if_neg (by omega), Nat.add_right_comm k 1 e,
          Nat.add_assoc]
    · have hw : SMap.wfFrom (k + 1) ((j, v) :: m) = true := wfFrom_cons.2 ⟨Nat.lt_of_le_of_ne hj hk, hv, hm⟩
      rw [if_neg hk]
      cases e with
      | zero => exact (get_eq_zero_of_not_mem fun x hx => Nat.ne_of_gt (le_key_of_wfFrom hw x hx)).symm
      | succ e => rw [List.getD_cons_succ, getD_denseFrom n (k + 1) _ hw e (by omega), Nat.add_right_comm k 1 e, Nat.add_assoc]

/-- Of a canonical map the elements of a tile are those that its keys read. -/
theorem getD_tileWords {w : Warp} (h : w.tiles.wf = true) (t : Nat) {e : Nat} (he : e < 4096) :
    (tileWords w.tiles t).getD e 0 = element w t e := by
  have hw : SMap.wfFrom (t * 4096) (w.tiles.filter fun x => x.1 / 4096 == t) = true :=
    wfFrom_filter _ h fun x _ hx => by
      have := eq_of_beq hx
      omega
  rw [tileWords, getD_denseFrom _ _ _ hw e he]
  exact get_filter_of_keeps (fun x hx => by rw [hx]; exact beq_iff_eq.2 (by omega)) w.tiles

/-! #### Rows -/

theorem getElem?_rowsOf {β : Type} (n : Nat) : ∀ (k : Nat) (l : List β) (j : Nat), j < k →
    (rowsOf n k l)[j]? = some ((l.drop (n * j)).take n)
  | 0, _, _, h => absurd h (Nat.not_lt_zero _)
  | k + 1, l, 0, _ => rfl
  | k + 1, l, j + 1, h => by
    rw [rowsOf, List.getElem?_cons_succ, getElem?_rowsOf n k _ j (by omega), List.drop_drop, Nat.mul_succ, Nat.add_comm n]

theorem length_of_mem_rowsOf {β : Type} (n : Nat) : ∀ (k : Nat) (l : List β), l.length = n * k → ∀ r ∈ rowsOf n k l, r.length = n
  | 0, _, _, _, hr => absurd hr List.not_mem_nil
  | k + 1, l, hl, r, hr => by
    rw [Nat.mul_succ] at hl
    rcases List.mem_cons.1 hr with rfl | hr
    · rw [List.length_take, hl]
      omega
    · exact length_of_mem_rowsOf n k _ (by rw [List.length_drop, hl]; omega) r hr

/-- Element (m, n) of rows of 64 put one behind another. -/
theorem getElem?_flatten_rows {β : Type} (L : List (List β)) (h : ∀ r ∈ L, r.length = 64) (e : Nat) :
    L.flatten[e]? = (L[e / 64]?).bind fun r => r[e % 64]? := by
  induction L generalizing e with
  | nil => rfl
  | cons r L ih =>
    have hr : r.length = 64 := h r List.mem_cons_self
    rw [List.flatten_cons, List.getElem?_append, hr]
    split
    · next he => rw [Nat.div_eq_of_lt he, Nat.mod_eq_of_lt he]; rfl
    · next he =>
      rw [ih (fun r hr => h r (List.mem_cons_of_mem _ hr)), show e / 64 = (e - 64) / 64 + 1 by omega,
        show (e - 64) % 64 = e % 64 by omega]
      rfl

end

end Sys2Proof.Results

namespace Sys2Proof.Results

open Sys2Proof.Machine Sys2Proof.Claims

/-! ### What a step computes: an integer mma (R153) -/

section
variable {s s1 : State} {slot : Nat} {w : Warp} {o : PlatOp} {i : MmaI} {x : StepRes} {res : Option (Fin 8)}

/-- A map over numbered elements that does not look at the numbers. -/
theorem map_zipIdx_map {β γ δ : Type} {u : β → γ} {f : γ × Nat → δ} {g : β → δ} (h : ∀ a n, f (u a, n) = g a) (l : List β) :
    (l.map u).zipIdx.map f = l.map g := by
  refine List.ext_getElem? fun n => ?_
  simp [h, Function.comp_def]

theorem foldl_products_eq_intDot (f g : MF) (a b : List Nat) :
    (((a.map (mfIntValue f)).zip (b.map (mfIntValue g))).map fun z => z.1 * z.2).foldl (· + ·) 0 = intDot f g a b := by
  rw [List.zip_map, List.map_map, ← List.sum_eq_foldl]
  rfl

theorem accumulateInt_eq (g : Int) (c : Word) : accumulateInt g c = c + BitVec.ofInt 32 g := by
  rw [accumulateInt, ofNat_wrap, BitVec.ofInt_add]
  simp

/-- The elements of a tile after a group of an integer mma, row by row: products added to what was there. -/
def addProducts (f g : MF) (a b : List (List Nat)) (c : List (List Word)) : List Word :=
  (((a.map fun x => b.map fun y => intDot f g x y).zip c).map fun z =>
    (z.1.zip z.2).map fun y => y.2 + BitVec.ofInt 32 y.1).flatten

/-- The tile of an integer mma that no error strikes. -/
theorem tiles_mmaGroup_int {ops : List (List (List Nat) × Nat)} {tiles : SMap Word} (hh : o.hurt = []) (hi : mfInt i.af = true) :
    (mmaGroup o i res ops tiles).tiles = setTile tiles i.d (addProducts i.af i.bf ((ops[0]?).getD default).1
      ((ops[1]?).getD default).1 (rowsOf 64 64 (tileWords tiles i.d))) := by
  simp only [mmaGroup, hi, if_true, hh, List.foldl_nil, add_zero, accumulateInt_eq, addProducts]
  refine congrArg (fun l => setTile tiles i.d (List.map _ (List.zip l _)).flatten) ?_
  exact map_zipIdx_map (fun a _ => map_zipIdx_map (fun b _ => foldl_products_eq_intDot i.af i.bf a b) _) _

theorem length_of_mem_addRows {u : Word → Int → Word} {g : List (List Int)} {c : List (List Word)} (hg : ∀ r ∈ g, r.length = 64)
    (hc : ∀ r ∈ c, r.length = 64) : ∀ r ∈ (g.zip c).map fun z => (z.1.zip z.2).map fun y => u y.2 y.1, r.length = 64 := by
  intro r hr
  obtain ⟨z, hz, rfl⟩ := List.mem_map.1 hr
  obtain ⟨h1, h2⟩ := List.of_mem_zip (a := z.1) (b := z.2) hz
  rw [List.length_map, List.length_zip, hg _ h1, hc _ h2, Nat.min_self]

/-- Element e of that tile, row e / 64 and column e % 64. -/
theorem getD_addProducts (f g : MF) {a b : List (List Nat)} (ha : a.length = 64) (hb : b.length = 64) {l : List Word}
    (hl : l.length = 4096) {e : Nat} (he : e < 4096) :
    (addProducts f g a b (rowsOf 64 64 l)).getD e 0 =
      l.getD e 0 + BitVec.ofInt 32 (intDot f g (a.getD (e / 64) []) (b.getD (e % 64) [])) := by
  have hrows := length_of_mem_addRows (u := fun c n => c + BitVec.ofInt 32 n)
    (g := a.map fun x => b.map fun y => intDot f g x y) (c := rowsOf 64 64 l)
    (fun r hr => by obtain ⟨x, -, rfl⟩ := List.mem_map.1 hr; rw [List.length_map, hb]) (length_of_mem_rowsOf 64 64 l hl)
  have hm : e / 64 < a.length := by omega
  have hn : e % 64 < b.length := by omega
  have hproduct : (a.map fun x => b.map fun y => intDot f g x y)[e / 64]? = some (b.map fun y => intDot f g a[e / 64] y) := by
    rw [List.getElem?_map, List.getElem?_eq_getElem hm, Option.map_some]
  have hold : ((l.drop (64 * (e / 64))).take 64)[e % 64]? = some l[e] := by
    rw [List.getElem?_take_of_lt (Nat.mod_lt _ (by decide)), List.getElem?_drop, Nat.div_add_mod, List.getElem?_eq_getElem]
  have hcell : ((b.map fun y => intDot f g a[e / 64] y).zip ((l.drop (64 * (e / 64))).take 64))[e % 64]? =
      some (intDot f g a[e / 64] b[e % 64], l[e]) :=
    List.getElem?_zip_eq_some.2 ⟨by rw [List.getElem?_map, List.getElem?_eq_getElem hn, Option.map_some], hold⟩
  have hrow : ((a.map fun x => b.map fun y => intDot f g x y).zip (rowsOf 64 64 l))[e / 64]? =
      some (b.map fun y => intDot f g a[e / 64] y, (l.drop (64 * (e / 64))).take 64) :=
    List.getElem?_zip_eq_some.2 ⟨hproduct, getElem?_rowsOf 64 64 l (e / 64) (by omega)⟩
  rw [List.getD_eq_getElem?_getD, addProducts, getElem?_flatten_rows _ hrows, List.getElem?_map, hrow]
  simp only [Option.map_some, Option.bind_some, List.getElem?_map, hcell, Option.getD_some]
  rw [List.getD_eq_getElem _ _ hm, List.getD_eq_getElem _ _ hn, List.getD_eq_getElem _ _ (by omega)]

end

end Sys2Proof.Results

namespace Sys2Proof.Results

open Sys2Proof.Machine Sys2Proof.Claims

/-! ### What each step makes of tiles and registers -/

section
variable {s s1 : State} {slot : Nat} {w y : Warp} {o : PlatOp} {x : StepRes}

/-- A tile given anew, as its elements. -/
theorem tilesAfter_setTile {t : Nat} {l : List Word} (h : y.tiles = setTile w.tiles t l) :
    TilesAfter w y [t] fun _ e => l.getD e 0 := by
  intro u e he
  rw [Claims.element, h, get_setTile _ _ _ he]
  simp only [List.mem_singleton, Claims.element]

theorem tilesAfter_congr {l : List Nat} {f g : Nat → Nat → Word} (h : TilesAfter w y l f)
    (hfg : ∀ t ∈ l, ∀ e, e < 4096 → f t e = g t e) : TilesAfter w y l g := by
  intro t e he
  rw [h t e he]
  split
  next ht => exact hfg t ht e he
  next => rfl

/-! #### acc.zero (R166) -/

theorem Stepped.accZero {i : AccZeroI} (hy : Stepped w y o x) (hi : o.instr = .accZero i) (hx : s.platStep slot w o = (.ok x, s1)) :
    y.r.v = w.r.v ∧ TilesAfter w y [i.d.val] fun _ _ => 0 := by
  simp only [State.platStep, hi, Prod.mk.injEq, Except.ok.injEq] at hx
  obtain ⟨rfl, -⟩ := hx
  exact ⟨hy.v, tilesAfter_congr (tilesAfter_setTile hy.tiles) fun _ _ _ _ => rfl⟩

/-! #### acc.rd and acc.wr of one register of 32-bit integers (R167) -/

/-- A write for each lane of a mask, at keys of their own. -/
theorem get_foldl_set_lanesOf {f : Nat → Nat} (hf : ∀ a b, f a = f b → a = b) (g : Nat → Word) (act : Mask) (m : SMap Word) {l : Nat}
    (hl : l < 32) : ((lanesOf act).foldl (fun m l => m.set (f l) (g l)) m).get (f l) = if lane act l then g l else m.get (f l) := by
  split
  next h =>
    exact SMap.get_foldl_set_eq _ f g m _ _ (fun x _ hx => by rw [hf x l hx]) ⟨l, mem_lanesOf.2 ⟨hl, h⟩, rfl⟩
  next h =>
    refine SMap.get_foldl_set_ne _ f g m _ fun x hx he => h ?_
    rw [← hf x l he]
    exact (mem_lanesOf.1 hx).2

/-- Each active lane gives its element of the column. -/
theorem accRdWords_int {i : AccRdI} (hf : i.ft = .i32) (hn : i.nr = 0) (act : Mask) (tiles : SMap Word) :
    accRdWords i act tiles = (lanesOf act).map fun l =>
      (i.d.val * 32 + l, tiles.get (i.a.val * 4096 + ((32 * i.rh.val + l) * 64 + i.col.val))) := by
  rw [← List.flatMap_pure_eq_map]
  simp [accRdWords, hf, hn, perReg, afBits, outOfTile, Function.comp_def]

theorem Stepped.accRd {i : AccRdI} (hy : Stepped w y o x) (hi : o.instr = .accRd i) (hf : i.ft = .i32) (hn : i.nr = 0)
    (hx : s.platStep slot w o = (.ok x, s1)) : y.tiles = w.tiles ∧
      ∀ k l, l < 32 → y.r.vget k l = if k = i.d.val ∧ lane o.act l = true ∧ lane w.r.live l = true
        then Claims.element w i.a ((32 * i.rh.val + l) * 64 + i.col.val) else w.r.vget k l := by
  simp only [State.platStep, hi, Prod.mk.injEq, Except.ok.injEq] at hx
  obtain ⟨rfl, -⟩ := hx
  refine ⟨hy.tiles, fun k l hl => ?_⟩
  rw [Regs.vget, hy.v]
  dsimp only
  rw [accRdWords_int hf hn, Regs.writeV, List.foldl_map]
  by_cases hk : k = i.d.val
  · subst hk
    rw [get_foldl_set_lanesOf (fun a b h => by omega) _ _ _ hl, lane, BitVec.getLsbD_and]
    simp only [Bool.and_eq_true, true_and]
    rfl
  · rw [if_neg (fun h => hk h.1)]
    refine SMap.get_foldl_set_ne _ _ _ _ _ fun a ha h => hk ?_
    have := (mem_lanesOf.1 ha).1
    omega

/-- The lanes write their words one after the other into the column. -/
theorem accWrTiles_int {i : AccWrI} (hf : i.ft = .i32) (hn : i.nr = 0) (act : Mask) (src tiles : SMap Word) :
    accWrTiles i act src tiles = (lanesOf act).foldl (fun m l =>
      m.set (i.d.val * 4096 + ((32 * i.rh.val + l) * 64 + i.col.val)) (src.get l)) tiles := by
  have hword (l : Nat) : BitVec.ofNat 32 (bits (src.get l).toNat 0 32) = src.get l := by
    rw [bits_zero, Nat.mod_eq_of_lt (src.get l).isLt, BitVec.ofNat_toNat, BitVec.setWidth_eq]
  simp [accWrTiles, hf, hn, perReg, afBits, intoTile, hword, Nat.add_assoc]

theorem Stepped.accWr {i : AccWrI} (hy : Stepped w y o x) (hi : o.instr = .accWr i) (hf : i.ft = .i32) (hn : i.nr = 0)
    (hc : i.col.val < 64) (hh : i.rh.val < 2) (hx : s.platStep slot w o = (.ok x, s1)) : y.r.v = w.r.v ∧
      TilesAfter w y [i.d.val] fun t e =>
        if e % 64 = i.col.val ∧ e / 64 / 32 = i.rh.val ∧ lane o.act (e / 64 % 32) = true
        then o.src.get (e / 64 % 32) else Claims.element w t e := by
  simp only [State.platStep, hi, Prod.mk.injEq, Except.ok.injEq] at hx
  obtain ⟨rfl, -⟩ := hx
  refine ⟨hy.v, fun t e he => ?_⟩
  rw [Claims.element, hy.tiles]
  dsimp only
  rw [accWrTiles_int hf hn]
  by_cases h : t = i.d.val ∧ e % 64 = i.col.val ∧ e / 64 / 32 = i.rh.val
  · obtain ⟨rfl, hcol, hrow⟩ := h
    have he : i.d.val * 4096 + e = i.d.val * 4096 + ((32 * i.rh.val + e / 64 % 32) * 64 + i.col.val) := by omega
    rw [if_pos (List.mem_singleton_self _), Claims.element, he,
      get_foldl_set_lanesOf (fun a b h => by omega) _ _ _ (Nat.mod_lt _ (by decide))]
    simp only [hcol, hrow, true_and]
  · rw [SMap.get_foldl_set_ne _ _ _ _ _ fun l hl hk => h ?_]
    · split
      next ht =>
        rw [if_neg fun hc => h ⟨List.mem_singleton.1 ht, hc.1, hc.2.1⟩]
        rfl
      next => rfl
    · have := (mem_lanesOf.1 hl).1
      omega

/-! #### An integer mma (R153) -/

theorem platStep_of_mma {i : MmaI} {ops : List (List (List Nat) × Nat)} (hi : o.instr = .mma i)
    (hops : s.mmaOperands slot w i o.next o.recs = (.ok ops, s1)) :
    s.platStep slot w o = (.ok (mmaGroup o i none ops w.tiles), s1) := by
  simp only [State.platStep, State.mmaStep, hi, hops]

theorem warps_of_mmaOperands {i : MmaI} {n : Nat} {l : List LRec} {p : Except MemStop (List (List (List Nat) × Nat))}
    (h : s.mmaOperands slot w i n l = (p, s1)) : s1.warps = s.warps := by
  have hc := mmaOperands_cached (slot := slot) (w := w) i n l s
  rw [h] at hc
  obtain ⟨tlb, env, hs⟩ := hc.eq
  exact (congrArg State.warps hs :)

/-- The sums of products are added to the tile as the step lists its elements. -/
theorem Stepped.mma {i : MmaI} {ops : List (List (List Nat) × Nat)} {s2 : State} (hy : Stepped w y o x) (hi : o.instr = .mma i)
    (hh : o.hurt = []) (hint : mfInt i.af = true) (hops : s.mmaOperands slot w i o.next o.recs = (.ok ops, s2))
    (hlen : ∀ l ∈ ops, l.1.length = 64) (htwo : 2 ≤ ops.length) (hx : s.platStep slot w o = (.ok x, s1)) : y.r.v = w.r.v ∧
      TilesAfter w y [i.d.val] fun t e => (tileWords w.tiles t).getD e 0 +
        BitVec.ofInt 32 (intDot i.af i.bf (((ops.getD 0 default).1).getD (e / 64) []) (((ops.getD 1 default).1).getD (e % 64) [])) := by
  simp only [platStep_of_mma hi hops, Prod.mk.injEq, Except.ok.injEq] at hx
  obtain ⟨rfl, -⟩ := hx
  have hvw : (mmaGroup o i none ops w.tiles).vw = [] := by simp only [mmaGroup, hint, if_true]
  have hv := hy.v
  rw [hvw] at hv
  refine ⟨hv, tilesAfter_congr (tilesAfter_setTile (hy.tiles.trans (tiles_mmaGroup_int hh hint))) fun t ht e he => ?_⟩
  rw [List.mem_singleton.1 ht]
  have side (n : Nat) (hn : n < ops.length) : ((ops.getD n default).1).length = 64 := by
    rw [List.getD_eq_getElem _ _ hn]
    exact hlen _ (List.getElem_mem hn)
  exact getD_addProducts i.af i.bf (side 0 (by omega)) (side 1 (by omega)) (length_tileWords ..) he

end

end Sys2Proof.Results

namespace Sys2Proof.Results

open Sys2Proof.Machine Sys2Proof.Claims

/-! ### Platen steps on a tile map in canonical form -/

/-- What O42 says, of a warp whose tile map is in canonical form. -/
def PlatenStepsChangeCanonicalTiles : Prop :=
  ∀ (s0 : State) (q slot : Nat) (w : Warp) (o : PlatOp) (x : StepRes), w.tiles.wf = true →
    PlatenRuns (s0.settleQuad q) q slot w o x →
    ∃ (t : State) (w' : Warp), exec (.platenStep q) s0 = .next t ∧ t.warp slot = some w' ∧ SameMemory s0 t ∧
      (o.next + 1 < o.steps → w'.platen = w.platen.map fun y =>
        if y.id = o.id then { o with next := o.next + 1, skip := o.skip || x.skip, sums := x.sums, hurt := [] } else y) ∧
      (o.steps ≤ o.next + 1 → w'.platen = w.platen.filter fun y => y.id != o.id) ∧
      (∀ i, o.instr = .accZero i → w'.r.v = w.r.v ∧ TilesAfter w w' [i.d.val] fun _ _ => 0) ∧
      (∀ i, o.instr = .accRd i → i.ft = .i32 → i.sum = none → i.nr = 0 → w'.tiles = w.tiles ∧
        ∀ k l, l < 32 → w'.r.vget k l = if k = i.d.val ∧ lane o.act l = true ∧ lane w.r.live l = true
          then Claims.element w i.a ((32 * i.rh.val + l) * 64 + i.col.val) else w.r.vget k l) ∧
      (∀ i, o.instr = .accWr i → i.ft = .i32 → i.nr = 0 → i.col.val < 64 → i.rh.val < 2 → w'.r.v = w.r.v ∧
        TilesAfter w w' [i.d.val] fun t e =>
          if e % 64 = i.col.val ∧ e / 64 / 32 = i.rh.val ∧ lane o.act (e / 64 % 32) = true
          then o.src.get (e / 64 % 32) else Claims.element w t e) ∧
      (∀ i ops s1, o.instr = .mma i → o.hurt = [] → mfInt i.af = true → mfInt i.bf = true →
        (s0.settleQuad q).mmaOperands slot w i o.next o.recs = (.ok ops, s1) →
        (∀ l ∈ ops, l.1.length = 64) → 2 ≤ ops.length → w'.r.v = w.r.v ∧
        TilesAfter w w' [i.d.val] fun t e =>
          Claims.element w t e + BitVec.ofInt 32 (intDot i.af i.bf (((ops.getD 0 default).1).getD (e / 64) [])
            (((ops.getD 1 default).1).getD (e % 64) [])))

theorem platenStepsChangeCanonicalTiles : PlatenStepsChangeCanonicalTiles := by
  intro s0 q slot w o x hwf h
  obtain ⟨t, w', ht, hw', hmem, hy⟩ := exec_platenStep h
  obtain ⟨s1, hx, -⟩ := h.step
  refine ⟨t, w', ht, hw', hmem, fun hn => hy.platen.trans (if_neg (by omega)), fun hn => hy.platen.trans (if_pos hn),
    fun i hi => hy.accZero hi hx, fun i hi hf _ hn => hy.accRd hi hf hn hx, fun i hi hf hn hc hh => hy.accWr hi hf hn hc hh hx,
    fun i ops s2 hi hh hint _ hops hlen htwo => ?_⟩
  obtain ⟨hv, htiles⟩ := hy.mma hi hh hint hops hlen htwo hx
  refine ⟨hv, tilesAfter_congr htiles fun t _ e he => ?_⟩
  rw [getD_tileWords hwf t he]

/-! ### A tile map out of order (O42)

R153 has an integer mma add to the element it replaces. The model lists the elements of a tile with `denseFrom`,
which takes the keys in rising order and passes over an element listed behind a higher key, where `SMap.get`, and with it
`element`, still finds it. O42 says nothing of the order, so a warp whose map lists element 1 before element 0 refutes it. -/

namespace Unordered

/-- mma of 64 by 64 bytes into tile 0. -/
def instr : MmaI := ⟨⟨0, false⟩, 0, 4, 4, .i8, .i8, false, none, none⟩

/-- A record of 64 rows whose bytes all stand at one address of global memory. -/
def record : LRec := ⟨0x4000, 4, 0, [64, 64, 1, 1], [0, 0, 0, 0]⟩

def op : PlatOp := ⟨9, .mma instr, BitVec.allOnes 32, [record, record], [], 0, false, false, [], [], 0x1000, 0, 0⟩

/-- The machine after reset with an empty program in slot 0, no work queued for it. -/
def idle : State := { State.reset.load [] with agenda := [], issue := [] }

/-- Elements 1 and 0 of tile 0 are both 1; the map lists element 1 first. -/
def warp : Warp := { (idle.warp 0).getD default with platen := [op], tiles := [(1, 1), (0, 1)] }

def state : State := { idle with warps := [(0, some warp)] }

/-- The operands that the step reads: two lists of 64 rows. -/
def okOperands (p : Except MemStop (List (List (List Nat) × Nat)) × State) : Bool :=
  p.1.toOption.any fun ops => ops.all (fun l => l.1.length == 64) && decide (2 ≤ ops.length)

theorem operands_of_okOperands {p : Except MemStop (List (List (List Nat) × Nat)) × State} (h : okOperands p = true) :
    ∃ ops, p = (.ok ops, p.2) ∧ (∀ l ∈ ops, l.1.length = 64) ∧ 2 ≤ ops.length := by
  obtain ⟨_ | ops, s⟩ := p
  · cases h
  · obtain ⟨hall, htwo⟩ := Bool.and_eq_true_iff.1 h
    exact ⟨ops, rfl, fun l hl => eq_of_beq (List.all_eq_true.1 hall l hl), of_decide_eq_true htwo⟩

theorem mmaOperands_ok : ∃ ops, (state.settleQuad 0).mmaOperands 0 warp instr op.next op.recs =
    (.ok ops, ((state.settleQuad 0).mmaOperands 0 warp instr op.next op.recs).2) ∧ (∀ l ∈ ops, l.1.length = 64) ∧ 2 ≤ ops.length :=
  operands_of_okOperands (by decide +kernel)

theorem platenRuns {ops : List (List (List Nat) × Nat)} {s1 : State}
    (h : (state.settleQuad 0).mmaOperands 0 warp instr op.next op.recs = (.ok ops, s1)) :
    PlatenRuns (state.settleQuad 0) 0 0 warp op (mmaGroup op instr none ops warp.tiles) where
  only := by decide +kernel
  warp := by decide +kernel
  side := by decide +kernel
  step := ⟨s1, platStep_of_mma rfl h, warps_of_mmaOperands h⟩
  stores := rfl

/-- The map lists element 0 as 1, the step takes it as 0. -/
theorem element_tileWords : Claims.element warp 0 0 = 1 ∧ (tileWords warp.tiles 0).getD 0 0 = 0 := by decide +kernel

end Unordered

/-- Refutes O42: in a tile map that lists element 1 before element 0 the step of an integer mma takes element 0 as 0, not as the
1 that the map holds. `platenStepsChangeCanonicalTiles` is what holds of maps in canonical form. -/
theorem not_platenStepsChangeTheirTile : ¬ Obligations.PlatenStepsChangeTheirTile := by
  unfold Obligations.PlatenStepsChangeTheirTile
  intro hall
  obtain ⟨ops, hops, hlen, htwo⟩ := Unordered.mmaOperands_ok
  have hruns := Unordered.platenRuns hops
  obtain ⟨t, w', ht, hw', -, -, -, -, -, -, hmma⟩ := hall _ _ _ _ _ _ hruns
  obtain ⟨-, hclaimed⟩ := hmma _ _ _ rfl rfl rfl rfl hops hlen htwo
  obtain ⟨t2, w2, ht2, hw2, -, hy⟩ := exec_platenStep hruns
  obtain rfl : t = t2 := by
    rw [ht] at ht2
    cases ht2
    rfl
  obtain rfl : w' = w2 := Option.some.inj (hw'.symm.trans hw2)
  obtain ⟨s1, hx, -⟩ := hruns.step
  obtain ⟨-, hstepped⟩ := hy.mma rfl rfl rfl hops hlen htwo hx
  have hsame := (hclaimed 0 0 (by decide)).symm.trans (hstepped 0 0 (by decide))
  have hin : 0 ∈ [Unordered.instr.d.val] := by decide
  rw [if_pos hin, if_pos hin] at hsame
  obtain ⟨hmap, hlist⟩ := Unordered.element_tileWords
  have hold := (BitVec.add_left_inj _).1 hsame
  rw [hmap, hlist] at hold
  exact absurd hold (by decide)

end Sys2Proof.Results

namespace Sys2Proof.Results

open Sys2Proof.Machine Sys2Proof.Claims

/-! ### Fences go in flight: O27 -/

section
variable {s t : State} {sl : Slot} {w y : Warp} {r : Regs} {slot : Nat}

/-! #### Changes of one warp -/

theorem sameOutside_modWarp (h : s.SameOutside t slot) (f : Warp → Warp) : s.SameOutside (t.modWarp slot f) slot := by
  refine ⟨?_, fun k hk => ?_⟩
  · unfold State.modWarp
    split
    · exact h.rest
    · rw [h.rest]
      rfl
  · rw [State.warp_modWarp, if_neg hk]
    exact h.others k hk

theorem warp_modWarp_of_some (hw : t.warp slot = some y) (f : Warp → Warp) : (t.modWarp slot f).warp slot = some (f y) := by
  rw [State.warp_modWarp, if_pos rfl, hw, Option.map_some]

/-- A leader's instruction ends: its warp has the registers it wrote and, it may be, an entry more for its proof warp. -/
theorem warp_finish_of_leader (hw : s.warp sl.w = some w) (hp : sl.proof = false) (r : Regs) :
    ∃ p, (s.finish sl r).warp sl.w = some { w with r := { r.setPc sl.grp sl.after with gseq := r.gseq + 1 }, proof := p } := by
  obtain ⟨p, hf⟩ := finishWith_of_leader (r := r) hw hp sl.lag
  exact ⟨p, by rw [State.finish, hf, State.warp_setWarp_self]⟩

theorem constFence_sameOutside (h : s.SameOutside t slot) (id rank : Nat) : s.SameOutside (t.constFence slot id rank) slot := by
  unfold State.constFence
  split
  · exact h
  · exact sameOutside_modWarp h _

/-- What a warp's later reads through a constant window must see is all that `constFence` changes (R20). -/
theorem warp_constFence (hw : t.warp slot = some y) (id rank : Nat) :
    ∃ a b c, (t.constFence slot id rank).warp slot = some { y with constSince := a, constSeq := b, constOwn := c } := by
  unfold State.constFence
  split
  · exact ⟨_, _, _, hw⟩
  · exact ⟨_, _, _, warp_modWarp_of_some hw _⟩

/-! #### The order and scope of a fence -/

theorem ordAcquires_iff (o : Ord) : ordAcquires o = true ↔ o = .acq ∨ o = .ar ∨ o = .sc := by
  cases o <;> simp [ordAcquires]

/-- Inside a region a fence keeps only its acquire part (R204). -/
theorem fenceOrd_of_acquires (inRegion : Bool) {o : Ord} (h : ordAcquires o = true) :
    fenceOrd inRegion o = if inRegion then .acq else o := by
  rw [fenceOrd, h, Bool.and_true]

theorem fenceOrd_of_not_acquires (inRegion : Bool) {o : Ord} (h : ordAcquires o = false) : fenceOrd inRegion o = o := by
  rw [fenceOrd, h, Bool.and_false]
  rfl

/-! #### The instruction -/

/-- A fence of a leading warp with an active lane: of order o, it goes in flight unless a region leaves nothing of it. -/
theorem exec_fence {i : FenceI} (h : s.Chosen sl w r) (hp : sl.proof = false) (ha : active r sl.grp i.g ≠ 0) {o : Ord}
    (ho : fenceOrd (!w.levels.isEmpty) i.ord = o) :
    exec (.fence i) s = .next
      (if !w.levels.isEmpty && !ordAcquires o then
        (s.taken.finish sl r).constFence sl.w s.opSeq (scopeRank (effectiveScope .global i.scope))
      else (s.taken.fresh.2.finish sl r).modWarp sl.w fun x => { x with pend := x.pend ++
        [fenceOp s.opSeq o (effectiveScope .global i.scope) sl.pc r.gseq.toNat (active r sl.grp i.g) w.levels.length] }) := by
  rw [show exec (.fence i) s = execFence i s from rfl, execFence, withActive_of_lanes _ h ha]
  simp only [hp, ho, Bool.false_eq_true, if_false]
  rfl

theorem fence_onlyIssues_inRegion {i : FenceI} (h : s.Chosen sl w r) (hp : sl.proof = false) (ha : active r sl.grp i.g ≠ 0)
    (hl : w.levels ≠ []) (ho : ordAcquires i.ord = false) :
    ∃ (t : State) (w' : Warp), exec (.fence i) s = .next t ∧ s.SameOutside t sl.w ∧ t.warp sl.w = some w' ∧ Passed r w'.r sl ∧
      w' = { w with r := w'.r, proof := w'.proof, constSince := w'.constSince, constSeq := w'.constSeq, constOwn := w'.constOwn } := by
  have hin : w.levels.isEmpty = false := List.isEmpty_eq_false_iff.2 hl
  obtain ⟨p, hfin⟩ := warp_finish_of_leader (s := s.taken) h.warp hp r
  obtain ⟨a, b, c, hwarp⟩ := warp_constFence hfin s.opSeq (scopeRank (effectiveScope .global i.scope))
  have he := exec_fence h hp ha (fenceOrd_of_not_acquires _ ho)
  rw [hin, ho] at he
  have htaken : s.SameOutside s.taken sl.w := ⟨rfl, fun _ _ => rfl⟩
  exact ⟨_, _, he, constFence_sameOutside (sameOutside_modWarp htaken _) .., hwarp, passed_setPc r sl, rfl⟩

theorem fence_goesInFlight {i : FenceI} (h : s.Chosen sl w r) (hp : sl.proof = false) (ha : active r sl.grp i.g ≠ 0)
    {o : Ord} (ho : fenceOrd (!w.levels.isEmpty) i.ord = o) (hout : (!w.levels.isEmpty && !ordAcquires o) = false) :
    ∃ (t : State) (w' : Warp), exec (.fence i) s = .next t ∧ s.SameOutside t sl.w ∧ t.warp sl.w = some w' ∧
      w' = { w with r := w'.r, proof := w'.proof, pend := w.pend ++
        [fenceOp s.opSeq o (effectiveScope .global i.scope) sl.pc r.gseq.toNat (active r sl.grp i.g) w.levels.length] } ∧
      Passed r w'.r sl := by
  obtain ⟨p, hfin⟩ := warp_finish_of_leader (s := s.taken.fresh.2) h.warp hp r
  have he := exec_fence h hp ha ho
  rw [hout] at he
  have hnumbered : s.SameOutside s.taken.fresh.2 sl.w := ⟨rfl, fun _ _ => rfl⟩
  exact ⟨_, _, he, sameOutside_modWarp (sameOutside_modWarp hnumbered _) _, warp_modWarp_of_some hfin _, rfl, passed_setPc r sl⟩

end

/-- Settles O27: by what the region leaves of the fence's order (`fenceOrd_of_acquires`). -/
theorem fencesGoInFlight : Obligations.FencesGoInFlight := by
  intro s sl w r i act acquires h hp ha
  refine ⟨fun hl hno => ?_, fun hgo => ?_⟩
  · have ho : ordAcquires i.ord = false := Bool.eq_false_iff.2 fun ht => hno ((ordAcquires_iff _).1 ht)
    exact fence_onlyIssues_inRegion h hp ha hl ho
  · have hord : fenceOrd (!w.levels.isEmpty) i.ord = (if w.levels = [] then i.ord else .acq) ∧
        (!w.levels.isEmpty && !ordAcquires (if w.levels = [] then i.ord else .acq)) = false := by
      by_cases hl : w.levels = []
      · rw [if_pos hl, hl]
        exact ⟨rfl, rfl⟩
      · have ho : ordAcquires i.ord = true := (ordAcquires_iff _).2 (hgo.resolve_left hl)
        rw [if_neg hl, fenceOrd_of_acquires _ ho, List.isEmpty_eq_false_iff.2 hl]
        exact ⟨rfl, rfl⟩
    obtain ⟨t, w', he, hsame, hw', hpend, hpass⟩ := fence_goesInFlight h hp ha hord.1 hord.2
    exact ⟨t, w', _, he, hsame, hw', hpend, hpass, rfl, rfl, rfl, rfl⟩

end Sys2Proof.Results

namespace Sys2Proof.Results

open Sys2Proof.Machine Sys2Proof.Claims

/-! ### Accesses whose page has moved away: O21 -/

section
variable {s t s0 s1 : State} {slot op k : Nat} {w : Warp} {o : MemOp} {p : Piece} {x : Place}

/-! #### Settling and translating again change no byte -/

theorem settle_sameStores (s : State) (slot : Nat) : SameStores s (s.settle slot) :=
  (settleFences_sameStores ..).trans (stampStores_sameStores ..)

theorem relocate_cached (s : State) (u ctx : Nat) (kd : OpKind) (va : DWord) : s.Cached (s.relocate u ctx kd va).2 := by
  unfold State.relocate
  generalize (if kd.isLoad then Need.read else if kd.isStore then .write else .readWrite) = need
  have h := s.translate_cached u ctx va need
  split <;> rename_i e <;> rwa [e] at h

theorem setPart_sameStores (s : State) (slot op k : Nat) (f : Piece → Piece) : SameStores s (s.setPart slot op k f) :=
  SameStores.modWarp ⟨rfl, rfl⟩ ..

/-! #### The part of an operation -/

theorem partOf_eq_some (h : s.partOf slot op k = some (w, o, p)) :
    s.warp slot = some w ∧ w.pend.find? (fun y => y.id == op) = some o ∧ o.pieces[k]? = some p := by
  simp only [State.partOf, Option.bind_eq_some_iff, Option.map_eq_some_iff, Prod.mk.injEq] at h
  obtain ⟨w', hw, o', ho, p', hp, rfl, rfl, rfl⟩ := h
  exact ⟨hw, ho, hp⟩

theorem id_of_find? {l : List MemOp} (h : l.find? (fun y => y.id == op) = some o) : o.id = op :=
  eq_of_beq (List.find?_some h :)

theorem getElem?_setPiece (f : Piece → Piece) (h : o.pieces[k]? = some p) : (o.setPiece k f).pieces[k]? = some (f p) := by
  rw [MemOp.setPiece, List.getElem?_map, List.getElem?_zipIdx, h]
  simp

/-- An operation of a list is found by its number after a change that keeps the numbers. -/
theorem find?_map_of_keepsId {g : MemOp → MemOp} (hg : ∀ y, (g y).id = y.id) {l : List MemOp}
    (h : l.find? (fun y => y.id == op) = some o) : (l.map g).find? (fun y => y.id == op) = some (g o) := by
  have he : (fun y : MemOp => y.id == op) ∘ g = fun y => y.id == op := funext fun y => by rw [Function.comp_apply, hg]
  rw [List.find?_map, he, h, Option.map_some]

/-- Changing one part of an operation in flight changes it where the operation stands. -/
theorem pend_setPart (f : Piece → Piece) (hw : s.warp slot = some w)
    (ho : w.pend.find? (fun y => y.id == op) = some o) :
    ∃ w', (s.setPart slot op k f).warp slot = some w' ∧ w'.pend.find? (fun y => y.id == op) = some (o.setPiece k f) := by
  refine ⟨_, warp_modWarp_of_some hw _, ?_⟩
  rw [find?_map_of_keepsId (fun y => ?_) ho, if_pos (id_of_find? ho)]
  split <;> rfl

/-! #### The part is sent to where its page is now -/

theorem moveOne_of_relocated (hk : ∀ a b, o.kind ≠ .catom a b)
    (h : s.relocate (slotQuadId slot) w.ctx o.kind p.va = (.ok (some x), s1)) :
    s.moveOne slot w o k p = s1.setPart slot o.id k fun q => { q with place := x, place2 := x, sent := false } := by
  unfold State.moveOne
  rw [h]
  dsimp only
  split
  next pt pd hcatom => exact absurd hcatom (hk pt pd)
  next => rfl

/-- A part that did not enter the fabric leaves nothing there. -/
theorem leaveFabric_of_notSent (h : p.sent = false) : s.leaveFabric slot op k p = s := by
  rw [State.leaveFabric, h]
  rfl

theorem exec_movedNack (hpart : (s0.settle slot).partOf slot op k = some (w, o, p)) (hload : o.kind.isLoad = false)
    (hready : (s0.settle slot).partReady slot w o k p = true) (hmoving : (s0.settle slot).isMoving p.place = true)
    (hfabric : needsFabric slot o.kind p = false) (hsent : p.sent = false) :
    exec (.movedNack slot op k) s0 = .next ((s0.settle slot).moveOne slot w o k p) := by
  show execMovedNack slot op k s0 = _
  unfold execMovedNack
  simp only [hpart, hload, hready, hmoving, hfabric, leaveFabric_of_notSent hsent, Bool.not_false, Bool.and_self, Bool.true_or,
    if_true]

/-! #### The walk of a held store is repeated -/

theorem findSome?_walkDue_singleton {y : Wait} {va : DWord} (h : y.kind = .walk va 0) :
    ([y].findSome? fun x => x.walkDue.map fun va => (x, va)) = some (y, va) := by
  rw [List.findSome?_singleton, Wait.walkDue, h]
  rfl

/-- The walk finds its page still moving: it is repeated a microsecond on. -/
theorem exec_migWalkRetry_of_moving {y : Wait} {va : DWord} (hw : s.warp slot = some w) (hy : w.waits = [y])
    (hk : y.kind = .walk va 0) {e : TlbEntry} (he : s.walk w.ctx va = .ok e) (hmig : pteMig e.leaf.toNat = true) :
    exec (.migWalkRetry slot) s = .next (s.setWarp slot { w with waits := [{ y with kind := .walk va 1000 }] }) := by
  show execMigWalkRetry slot s = _
  unfold execMigWalkRetry
  simp only [hw, hy, findSome?_walkDue_singleton hk, he, hmig, if_true, List.map_cons, List.map_nil]

/-- The walk finds its page at rest, or fails: the group issues its instruction again. -/
theorem exec_migWalkRetry_of_still {y : Wait} {va : DWord} (hw : s.warp slot = some w) (hy : w.waits = [y])
    (hk : y.kind = .walk va 0) (h : ∀ e, s.walk w.ctx va = .ok e → pteMig e.leaf.toNat = false) :
    exec (.migWalkRetry slot) s = .next (s.setWarp slot { w with waits := [] }) := by
  have hgone : [y].filter (fun z => z != y) = [] := by simp
  show execMigWalkRetry slot s = _
  unfold execMigWalkRetry
  cases he : s.walk w.ctx va with
  | error e => simp only [hw, hy, findSome?_walkDue_singleton hk, he, Bool.false_eq_true, if_false, hgone]
  | ok e => simp only [hw, hy, findSome?_walkDue_singleton hk, he, h e he, Bool.false_eq_true, if_false, hgone]

end

/-- Settles O21: the part keeps its operation and takes the place that its page has now (`pend_setPart`); a repeated walk asks
again whether the page is still moving. -/
theorem movedAccessesAreSentAgain : Obligations.MovedAccessesAreSentAgain := by
  refine ⟨?_, ?_⟩
  · intro s0 slot op k w o p x s1 s hpart hload hcatom hready hmoving hfabric hsent hmoved
    obtain ⟨hw, ho, hp⟩ := partOf_eq_some hpart
    have hc : s.Cached s1 := by
      have h := relocate_cached s (slotQuadId slot) w.ctx o.kind p.va
      rwa [hmoved] at h
    have he := exec_movedNack hpart hload hready hmoving hfabric hsent
    rw [moveOne_of_relocated hcatom hmoved, id_of_find? ho] at he
    have hmem : SameStores s0 s1 := (settle_sameStores s0 slot).trans (Opportunity.memory_of_cached hc)
    have hsame := hmem.trans (setPart_sameStores s1 slot op k fun q => { q with place := x, place2 := x, sent := false })
    obtain ⟨w', hw', ho'⟩ := pend_setPart _ ((hc.warp slot).trans hw) ho
    exact ⟨_, he, Opportunity.sameMemory_of_fields hsame.1 hsame.2, w', _, hw', ho', getElem?_setPiece _ hp⟩
  · intro s slot w x va hw hx hk
    refine ⟨fun hmoving hok => ?_, exec_migWalkRetry_of_still hw hx hk⟩
    obtain ⟨e, he⟩ := hok
    exact exec_migWalkRetry_of_moving hw hx hk he (hmoving e he)

end Sys2Proof.Results

namespace Sys2Proof.Results

open Sys2Proof.Machine Sys2Proof.Claims Sys2Proof.Machine.Trap

/-! ### A store is performed: O16 -/

section
variable {s t u s0 : State} {slot op k : Nat} {w : Warp} {o : MemOp} {p : Piece}

/-! #### The numbers and kinds of operations in flight -/

def numbersAndKinds (w : Warp) : List (Nat × OpKind) := w.pend.map fun o => (o.id, o.kind)

/-- The operations in flight of every warp keep their numbers and kinds. -/
def SameKinds (s t : State) : Prop := ∀ k, (t.warp k).map numbersAndKinds = (s.warp k).map numbersAndKinds

theorem SameKinds.refl (s : State) : SameKinds s s := fun _ => rfl

theorem SameKinds.trans (h : SameKinds s t) (g : SameKinds t u) : SameKinds s u := fun k => (g k).trans (h k)

theorem SameKinds.of_sameWarps (h : SameWarps s t) : SameKinds s t := fun k => by rw [h.warp k]

theorem SameKinds.modWarp (s : State) (slot : Nat) {f : Warp → Warp} (hf : ∀ w, numbersAndKinds (f w) = numbersAndKinds w) :
    SameKinds s (s.modWarp slot f) := by
  intro k
  rw [State.warp_modWarp]
  split
  next hk =>
    rw [hk, Option.map_map]
    exact congrArg (fun g => Option.map g (s.warp slot)) (funext hf)
  next => rfl

theorem SameKinds.foldl {α : Type} {f : State → α → State} (hf : ∀ a x, SameKinds a (f a x)) (l : List α) (s : State) :
    SameKinds s (l.foldl f s) := by
  induction l generalizing s with
  | nil => exact .refl s
  | cons x l ih => exact (hf s x).trans (ih _)

theorem kind_of_find? (w : Warp) (op : Nat) : (w.pend.find? fun y => y.id == op).map MemOp.kind =
    ((numbersAndKinds w).find? fun y => y.1 == op).map Prod.snd := by
  rw [numbersAndKinds, List.find?_map, Option.map_map]
  rfl

/-- A number finds an operation of the same kind as before. -/
theorem SameKinds.kind (h : SameKinds s t) {y : Warp} {o' : MemOp} (hw : s.warp slot = some w)
    (ho : w.pend.find? (fun z => z.id == op) = some o) (hy : t.warp slot = some y)
    (ho' : y.pend.find? (fun z => z.id == op) = some o') : o'.kind = o.kind := by
  have hk := h slot
  rw [hw, hy, Option.map_some, Option.map_some] at hk
  have hfound := (kind_of_find? y op).trans (Option.some.inj hk ▸ (kind_of_find? w op).symm)
  rw [ho, ho'] at hfound
  exact Option.some.inj hfound

/-- Stamping gives stores places in the order, no operation another number or kind (R196). -/
theorem stampOps_kinds (l : List MemOp) : ∀ (all : List MemOp) (n : Nat),
    ((stampOps all l n).1.map fun o => (o.id, o.kind)) = l.map fun o => (o.id, o.kind) := by
  induction l with
  | nil => exact fun _ _ => rfl
  | cons o l ih =>
    intro all n
    unfold stampOps
    simp only [List.map_cons, ih]

theorem stampStores_sameKinds (s : State) (slot : Nat) : SameKinds s (s.stampStores slot) := by
  unfold State.stampStores
  split
  next => exact .refl s
  next w hw =>
    dsimp only
    split
    · exact .refl s
    · intro k
      rw [State.warp_setWarp]
      split
      next hk =>
        rw [hk, hw, Option.map_some, Option.map_some]
        exact congrArg some (stampOps_kinds ..)
      next => rfl

theorem shareStores_kinds (w : Warp) (id loc : Nat) :
    numbersAndKinds (w.shareStores id loc) = numbersAndKinds w := by
  rw [numbersAndKinds, Warp.shareStores, List.map_map]
  refine List.map_congr_left fun o _ => ?_
  rw [Function.comp_apply]
  split <;> rfl

theorem widenStores_kinds (w : Warp) : numbersAndKinds w.widenStores = numbersAndKinds w := by
  rw [numbersAndKinds, Warp.widenStores, List.map_map]
  rfl

theorem shareForRelease_sameKinds (s : State) (slot id reach : Nat) : SameKinds s (s.shareForRelease slot id reach) := by
  unfold State.shareForRelease
  split
  · exact (SameKinds.modWarp s slot fun w => shareStores_kinds w id 1).trans (stampStores_sameKinds _ _)
  · refine (SameKinds.foldl (fun a (y : Nat × Warp) => SameKinds.modWarp a y.1 fun w => ?_) _ s).trans (stampStores_sameKinds _ _)
    split
    · exact shareStores_kinds w id 2
    · exact widenStores_kinds w
  · exact .refl s

/-! #### A store's bytes -/

theorem dropLine_sameStores (s : State) (forme : Nat) (q : Place) : SameStores s (s.dropLine forme q) := by
  cases q <;> exact ⟨rfl, rfl⟩

theorem dropLine_sameWarps (s : State) (forme : Nat) (q : Place) : SameWarps s (s.dropLine forme q) := by
  cases q <;> exact ⟨rfl, rfl⟩

theorem leaveFabric_sameStores (s : State) (slot op k : Nat) (p : Piece) : SameStores s (s.leaveFabric slot op k p) := by
  unfold State.leaveFabric
  split <;> exact ⟨rfl, rfl⟩

theorem leaveFabric_sameWarps (s : State) (slot op k : Nat) (p : Piece) : SameWarps s (s.leaveFabric slot op k p) := by
  unfold State.leaveFabric
  split <;> exact ⟨rfl, rfl⟩

theorem refreshHome_sameWarps (s : State) (forme : Nat) (q : Place) (n : Nat) : SameWarps s (s.refreshHome forme q n) := by
  cases q with
  | hbm key =>
    unfold State.refreshHome State.refreshL1
    dsimp only
    split <;> exact ⟨rfl, rfl⟩
  | scr _ _ _ => exact .refl s

theorem store_sameWarps (s : State) (forme : Nat) (q : Place) (x n : Nat) : SameWarps s (s.store forme q x n) :=
  (writeBytes_sameWarps ..).trans (refreshHome_sameWarps ..)

theorem refreshSheet_sameStores (s : State) (sheet : Nat) (q : Place) (n : Nat) : SameStores s (s.refreshSheet sheet q n) := by
  cases q <;> exact ⟨rfl, rfl⟩

theorem refreshSheet_sameWarps (s : State) (sheet : Nat) (q : Place) (n : Nat) : SameWarps s (s.refreshSheet sheet q n) := by
  cases q <;> exact ⟨rfl, rfl⟩

theorem scrBlock_of_sameStores (h : SameStores s t) (g c : Nat) : t.scrBlock g c = s.scrBlock g c := by
  rw [State.scrBlock, State.gang, h.2]
  rfl

/-- Where memory is as before but for a store, the bytes stored have changed and no others (R212). -/
theorem stored_of_store {q : Place} {x n forme : Nat} (h : SameStores s t) (hq : PlaceExists s q)
    (g : SameStores (t.store forme q x n) u) : Stored s u q x n := by
  have hst := Opportunity.sameMemory_of_fields h.1 h.2
  have hu := Opportunity.sameMemory_of_fields g.1 g.2
  have hq' : t.places q := by
    cases q with
    | hbm _ => trivial
    | scr a b _ => exact (congrArg Option.isSome (scrBlock_of_sameStores h a b)).trans hq
  refine ⟨fun i hi => (hu _).trans (State.byte_store forme hq' x hi), fun q' hne => ?_⟩
  rw [hu, State.byte_store_ne forme x n hne, hst]

/-! #### The part is performed and its operation completes -/

/-- A store performed at its home returns nothing; beside memory the L1 copies follow (R193). -/
theorem perform_store (s : State) (forme : Nat) (p : Piece) :
    ∃ t, s.perform forme .store p = ⟨t, 0, false, none, false⟩ ∧ SameStores (s.store forme p.place p.data p.size) t ∧ SameWarps s t := by
  refine ⟨_, rfl, ?_, ?_⟩
  · split
    · exact refreshSheet_sameStores ..
    · exact ⟨rfl, rfl⟩
  · split
    · exact (store_sameWarps ..).trans (refreshSheet_sameWarps ..)
    · exact store_sameWarps ..

/-- A store raises nothing where it is performed, and is no arrival. -/
theorem performErr_store (hk : o.kind = .store) (t : State) (slot : Nat) (p : Piece) :
    (t.noteArrival slot o p ⟨t, 0, false, none, false⟩).performErr slot o p ⟨t, 0, false, none, false⟩ = t := by
  rw [State.noteArrival, hk]
  rfl

theorem value_store (hk : o.kind = .store) (t : State) (p : Piece) : Performed.value ⟨t, 0, false, none, false⟩ o p = 0 := by
  rw [Performed.value, hk]
  rfl

/-- Beside its own bytes a store performed at its home changes none: others may read stores released with it, it leaves the
fabric, L1 copies follow or are dropped (R190, R215, R331). -/
theorem performPart_store (hk : o.kind = .store) (s : State) (slot : Nat) (w : Warp) (k : Nat) (p : Piece) :
    ∃ a b, s.performPart slot w o k p = (b, 0) ∧ SameStores s a ∧
      SameStores (a.store (slotForme slot) p.place p.data p.size) b ∧ SameKinds s b := by
  obtain ⟨s1, hs1, hmem1, hkinds1⟩ : ∃ s1, s1 = (if ordReleases o.ord then s.shareForRelease slot o.id (s.reach w o.scope) else s) ∧
      SameStores s s1 ∧ SameKinds s s1 := by
    refine ⟨_, rfl, ?_⟩
    split
    · exact ⟨shareForRelease_sameStores .., shareForRelease_sameKinds s slot o.id _⟩
    · exact ⟨⟨rfl, rfl⟩, .refl s⟩
  obtain ⟨t, hperform, hmem, hwarps⟩ := perform_store (s1.leaveFabric slot o.id k p) (slotForme slot) p
  have hkinds := hkinds1.trans (.of_sameWarps ((leaveFabric_sameWarps s1 slot o.id k p).trans hwarps))
  refine ⟨s1.leaveFabric slot o.id k p, if o.cp = 3 then (t.dropLine (slotForme slot) p.place).dropLine (slotForme slot) p.place2 else t,
    ?_, hmem1.trans (leaveFabric_sameStores ..), ?_⟩
  · rw [State.performPart, ← hs1]
    simp only [hk, hperform]
    split <;> rw [performErr_store hk, value_store hk]
  · split
    · exact ⟨(hmem.trans (dropLine_sameStores ..)).trans (dropLine_sameStores ..),
        hkinds.trans (.of_sameWarps ((dropLine_sameWarps ..).trans (dropLine_sameWarps ..)))⟩
    · exact ⟨hmem, hkinds⟩

/-- A store that completes writes no register and raises nothing. -/
theorem completeOp_sameStores (hk : o.kind = .store) (s : State) (slot : Nat) (w : Warp) : SameStores s (s.completeOp slot w o) := by
  unfold State.completeOp
  simp only [hk]
  have hset (y : Warp) : SameStores s (s.setWarp slot y) := ⟨rfl, rfl⟩
  split
  · exact (hset _).trans (acquire_sameStores ..)
  · exact hset _

theorem partDone_sameStores (hk : ∀ w o, s.warp slot = some w → w.pend.find? (fun y => y.id == op) = some o → o.kind = .store)
    (k got : Nat) : SameStores s (s.partDone slot op k got) := by
  unfold State.partDone
  split
  next => exact ⟨rfl, rfl⟩
  next w hw =>
    split
    next => exact ⟨rfl, rfl⟩
    next o ho =>
      dsimp only
      split
      · exact completeOp_sameStores (o := o.setPiece k _) (hk w o hw ho) ..
      · exact ⟨rfl, rfl⟩

theorem exec_storePerformed {b : State} {v : Nat} (hpart : (s0.settle slot).partOf slot op k = some (w, o, p))
    (hk : o.kind = .store) (hcan : (s0.settle slot).canPerform slot w o k p = true)
    (hb : (s0.settle slot).performPart slot w o k p = (b, v)) :
    exec (.storePerformed slot op k) s0 = .next (b.partDone slot op k v) := by
  show execStorePerformed slot op k s0 = _
  unfold execStorePerformed
  simp only [hpart, hk, OpKind.isStore, Bool.true_and, hcan, if_true, hb]

end

/-- Settles O16: settling, the release and the completion change no byte, the store at the part's place its own
(`stored_of_store`). -/
theorem storesChangeTheirBytes : Obligations.StoresChangeTheirBytes := by
  intro s0 slot op k w o p s hpart hk hcan hplace
  obtain ⟨hw, ho, -⟩ := partOf_eq_some hpart
  obtain ⟨a, b, hb, hmem, hstore, hkinds⟩ := performPart_store hk s slot w k p
  have hdone := partDone_sameStores (s := b) (fun y o' hy ho' => (hkinds.kind hw ho hy ho').trans hk) k 0
  exact ⟨_, exec_storePerformed hpart hk hcan hb,
    stored_of_store ((settle_sameStores s0 slot).trans hmem) hplace (hstore.trans hdone)⟩

end Sys2Proof.Results

namespace Sys2Proof.Results

open Sys2Proof.Machine Sys2Proof.Claims

/-! ### bankcfg waits for its banks, then switches them: O30 -/

section
variable {s t : State} {sl : Slot} {w : Warp} {r : Regs} {slot : Nat} {b b' : Block} {l : List Nat} {m : BankMode}

/-! #### The instruction holds its group (R217) -/

theorem holdAt_of_leader (hw : s.warp sl.w = some w) (hp : sl.proof = false) (r : Regs) (lanes : Mask) (k : WaitKind) :
    ∃ p, s.holdAt sl r lanes k = s.setWarp sl.w { w with
      r := { r.setPc (sl.grp &&& ~~~lanes) sl.after with gseq := r.gseq + 1 }, proof := p,
      waits := w.waits ++ [⟨lanes, k, sl.len, r.gseq.toNat⟩] } := by
  obtain ⟨p, he⟩ := follow_eq w sl (sl.lag w)
  refine ⟨p, ?_⟩
  rw [State.holdAt, State.holdWith, State.modWarp_some _ hw, he, hp]
  rfl

/-- An instruction of a leader that does nothing but hold its whole group. -/
theorem holdsGroup_of_holdAt {i : Instr} {k : WaitKind} (h : s.Chosen sl w r) (hp : sl.proof = false)
    (he : exec i s = .next (s.taken.holdAt sl r sl.grp k)) : HoldsGroup i s sl w r k := by
  obtain ⟨p, hhold⟩ := holdAt_of_leader (s := s.taken) h.warp hp r sl.grp k
  rw [hhold] at he
  refine ⟨_, _, he, ⟨rfl, fun j hj => State.warp_setWarp_ne _ _ hj⟩, State.warp_setWarp_self .., rfl, rfl, fun l hl => ?_⟩
  refine (Regs.pcGet_setPc r (sl.grp &&& ~~~sl.grp) sl.after hl).trans ?_
  rw [BitVec.and_not_self, lane_zero]
  rfl

theorem bankFault_eq_none {first count : Nat} (hl : w.levels = []) (hhome : w.home = slot)
    (hb : s.scrBlock w.gang w.block = some b) (hc : count ≠ 0) (hle : first + count ≤ b.banks.length) :
    bankFault s slot w first count = none := by
  have haway : w.away slot = false := by rw [Warp.away, hhome, bne_self_eq_false]
  simp only [bankFault, hl, State.scratchBlock, haway, hb, List.isEmpty_nil, Bool.not_true, Bool.false_eq_true, if_false,
    Option.map_some, Option.getD_some]
  exact if_neg (by omega)

theorem exec_bankcfg {i : BankcfgI} {x : Rd} (h : s.Chosen sl w r) (hp : sl.proof = false) (ha : active r sl.grp i.g ≠ 0)
    (hx : x = ⟨r, 0, active r sl.grp i.g, 0⟩) (hf : bankFault s.taken sl.w w (x.word i.first 0) (x.word i.count 0) = none) :
    exec (.bankcfg i) s = .next (s.taken.holdAt sl r sl.grp
      (.drain ((List.range (x.word i.count 0)).map fun k => x.word i.first 0 + k) i.mode)) := by
  subst hx
  rw [show exec (.bankcfg i) s = execBankcfg i s from rfl, execBankcfg, withActive_of_lanes _ h ha]
  simp only [hp, hf, Bool.false_eq_true, if_false]

/-! #### One bank is switched (R178) -/

theorem get_filter_key {β : Type} [Inhabited β] (m : SMap β) (f : Nat → Bool) (k : Nat) :
    SMap.get (m.filter fun x => f x.1) k = if f k then m.get k else default := by
  induction m with
  | nil => exact (ite_self _).symm
  | cons x m ih =>
    obtain ⟨a, v⟩ := x
    by_cases hk : k = a
    · subst hk
      by_cases hf : f k = true <;> simp [SMap.get_cons, hf, ih]
    · by_cases hf : f a = true <;> simp [SMap.get_cons, hf, hk, ih]

/-- The banks of a list, and no others, are in mode m, and empty where that is another than before (R178). -/
structure Switched (b b' : Block) (l : List Nat) (m : BankMode) : Prop where
  banks : b'.banks = b.banks
  released : b'.released = b.released
  length : b'.modes.length = b.modes.length
  modes : ∀ k, b'.modes.getD k .scratch = if k ∈ l then m else b.modes.getD k .scratch
  fifos : ∀ k, b'.fifos.get k = if k ∈ l ∧ b.modes.getD k .scratch ≠ m then [] else b.fifos.get k
  scratch : ∀ o, b'.scratch.get o = if o / 64 % b.banks.length ∈ l ∧ b.modes.getD (o / 64 % b.banks.length) .scratch ≠ m
    then 0 else b.scratch.get o

theorem Switched.nil (b : Block) (m : BankMode) : Switched b b [] m := by
  constructor <;> simp

/-- Banks switched one after another: a second switch of a bank has no effect. -/
theorem Switched.cons {b1 b2 : Block} {k : Nat} (h : Switched b b1 [k] m) (g : Switched b1 b2 l m) : Switched b b2 (k :: l) m where
  banks := g.banks.trans h.banks
  released := g.released.trans h.released
  length := g.length.trans h.length
  modes j := by
    rw [g.modes, h.modes]
    by_cases hj : j = k <;> simp [hj]
  fifos j := by
    rw [g.fifos, h.fifos, h.modes]
    by_cases hj : j = k <;> simp [hj]
  scratch o := by
    rw [g.scratch, h.scratch, h.modes, h.banks]
    by_cases hj : o / 64 % b.banks.length = k <;> simp [hj]

theorem getD_set_mode (l : List BankMode) {k : Nat} (hk : k < l.length) (m : BankMode) (j : Nat) :
    (l.zipIdx.map fun x => if x.2 = k then m else x.1).getD j .scratch = if j = k then m else l.getD j .scratch := by
  simp only [List.getD_eq_getElem?_getD, List.getElem?_map, List.getElem?_zipIdx, Option.map_map]
  by_cases hj : j = k
  · subst hj
    simp [hk]
  · simp [hj, Function.comp_def]

theorem switched_switchBank {k : Nat} (hk : k < b.modes.length) : Switched b (b.switchBank k m) [k] m := by
  unfold Block.switchBank
  split
  next hm =>
    refine ⟨rfl, rfl, rfl, fun j => ?_, fun j => ?_, fun o => ?_⟩
    · by_cases hj : j = k
      · rw [hj, hm, if_pos (List.mem_singleton_self k)]
      · rw [if_neg (by simpa using hj)]
    · rw [if_neg fun h => h.2 (by rw [List.mem_singleton.1 h.1, hm])]
    · rw [if_neg fun h => h.2 (by rw [List.mem_singleton.1 h.1, hm])]
  next hm =>
    refine ⟨rfl, rfl, by simp, fun j => ?_, fun j => ?_, fun o => ?_⟩
    · simp only [getD_set_mode _ hk, List.mem_singleton]
    · refine (get_filter_key b.fifos (fun x => x != k) j).trans ?_
      by_cases hj : j = k
      · subst hj
        exact (if_neg (by simp)).trans (if_pos ⟨List.mem_singleton_self _, hm⟩).symm
      · simp [hj]
    · refine (get_filter_key b.scratch (fun x => !inBank b.banks.length k x) o).trans ?_
      by_cases hj : o / 64 % b.banks.length = k
      · subst hj
        exact (if_neg (by simp [inBank])).trans (if_pos ⟨List.mem_singleton_self _, hm⟩).symm
      · simp [inBank, hj]

theorem switched_foldl (hl : ∀ k ∈ l, k < b.modes.length) : Switched b (l.foldl (fun a k => a.switchBank k m) b) l m := by
  induction l generalizing b with
  | nil => exact .nil b m
  | cons k l ih =>
    have hk := switched_switchBank (m := m) (hl k List.mem_cons_self)
    exact hk.cons (ih fun j hj => by rw [hk.length]; exact hl j (List.mem_cons_of_mem _ hj))

theorem Switched.bankAfter (h : Switched b b' l m) {k : Nat} (hk : k ∈ l) : BankAfter b b' k m := by
  refine ⟨by rw [h.modes, if_pos hk], fun hm => ⟨?_, fun o ho => ?_⟩, fun hm => ⟨?_, fun o ho => ?_⟩⟩
  · rw [h.fifos, if_pos ⟨hk, hm⟩]
  · rw [h.scratch, ho, if_pos ⟨hk, hm⟩]
  · rw [h.fifos, if_neg fun hc => hc.2 hm]
  · rw [h.scratch, ho, if_neg fun hc => hc.2 hm]

theorem Switched.others (h : Switched b b' l m) {k : Nat} (hk : k ∉ l) :
    b'.modes.getD k .scratch = b.modes.getD k .scratch ∧ b'.fifos.get k = b.fifos.get k :=
  ⟨by rw [h.modes, if_neg hk], by rw [h.fifos, if_neg fun hc => hk hc.1]⟩

/-- Switching banks leaves a block placed or released as it is. -/
theorem released_foldl_switchBank (l : List Nat) (m : BankMode) (b : Block) :
    (l.foldl (fun a k => a.switchBank k m) b).released = b.released := by
  induction l generalizing b with
  | nil => rfl
  | cons k l ih =>
    rw [List.foldl_cons, ih, Block.switchBank]
    split <;> rfl

/-! #### The drain ends (R178, R217) -/

theorem failFifos_sameStores (s : State) (g c : Nat) (l : List Nat) : SameStores s (s.failFifos g c l) := by
  unfold State.failFifos
  split
  · exact ⟨rfl, rfl⟩
  · exact SameStores.foldl (fun _ _ => SameStores.modWarp ⟨rfl, rfl⟩ ..) _ s

/-- A warp whose waits are no fifo instructions keeps them. -/
theorem warp_failFifos (hw : s.warp slot = some w) (hwait : (w.waits.map fun x => x.failFifo l) = w.waits) (g c : Nat) :
    (s.failFifos g c l).warp slot = some w := by
  unfold State.failFifos
  split
  · exact hw
  · generalize s.warpList.filter _ = ys
    induction ys generalizing s with
    | nil => exact hw
    | cons y ys ih =>
      refine ih ?_
      rw [State.warp_modWarp]
      split
      next hy =>
        subst hy
        rw [hw, Option.map_some, hwait]
      next => exact hw

/-- The state whose banks have been switched, in the order of the list. -/
def switchBanks (s : State) (w : Warp) (l : List Nat) (m : BankMode) : State :=
  s.modGang w.gang fun g => g.modBlock w.block fun y => l.foldl (fun a k => a.switchBank k m) y

theorem exec_bankDrainEnd {lanes : Mask} {len n : Nat} (hw : s.warp slot = some w)
    (hx : w.waits = [⟨lanes, .drain l m, len, n⟩]) (hb : s.scrBlock w.gang w.block = some b)
    (hidle : s.banksIdle w.gang w.block b.banks.length l = true) (hplaten : ∀ o ∈ w.platen, o.usesScratch = false) :
    exec (.bankDrainEnd slot) s = .next
      (((switchBanks s w l m).failFifos w.gang w.block (b.leaveFifo l m)).modWarp slot fun y =>
        y.endWait ⟨lanes, .drain l m, len, n⟩) := by
  have hall : (w.platen.all fun o => !o.usesScratch) = true := List.all_eq_true.2 fun o ho => by rw [hplaten o ho]; rfl
  show execBankDrainEnd slot s = _
  unfold execBankDrainEnd
  simp only [hw, hx, List.findSome?_singleton, hb, hidle, hall, Bool.and_self, if_true, switchBanks]

/-- The block of the warp, once its banks are switched. -/
theorem scrBlock_of_switchBanks (hb : s.scrBlock w.gang w.block = some b) (h : SameStores (switchBanks s w l m) t) :
    t.scrBlock w.gang w.block = some (l.foldl (fun a k => a.switchBank k m) b) := by
  rw [scrBlock_of_sameStores h, switchBanks, State.scrBlock_modBlock _ _ _ _ _ _ (released_foldl_switchBank l m), if_pos ⟨rfl, rfl⟩, hb,
    Option.map_some]

/-- The lanes of a wait go on behind its instruction. -/
theorem pcGet_endWait (w : Warp) (x : Wait) {k : Nat} (hk : k < 32) (hlane : lane x.lanes k = true)
    (hsame : ∀ j, lane x.lanes j = true → w.r.pcGet j = w.r.pcGet k) :
    (w.endWait x).r.pcGet k = w.r.pcGet k + BitVec.ofNat 64 (4 * x.len) := by
  unfold Warp.endWait
  cases hlow : lowest x.lanes with
  | none => rw [lowest_eq_none hlow k hk] at hlane; cases hlane
  | some j =>
    dsimp only
    rw [Regs.pcGet_setPc _ _ _ hk, if_pos hlane, hsame j (lowest_mem hlow).2]

theorem endWait_eq (w : Warp) (x : Wait) (hx : w.waits = [x]) : w.endWait x = { w with r := (w.endWait x).r, waits := [] } := by
  unfold Warp.endWait
  rw [hx]
  simp

end

/-- Settles O30: the checks of R217 pass, so the group is held; at the drain's end the fold over the banks switches each of them
(`switched_foldl`). -/
theorem bankcfgDrainsAndSwitches : Obligations.BankcfgDrainsAndSwitches := by
  refine ⟨?_, ?_⟩
  · intro s sl w r i b act first count h hp ha hl hhome hb hc hle
    exact holdsGroup_of_holdAt h hp (exec_bankcfg h hp ha rfl (bankFault_eq_none (s := s.taken) hl hhome hb hc hle))
  · intro s slot w b l m lanes len n hw hx hb hidle hplaten hmodes hbanks
    have hswitched : Switched b (l.foldl (fun a k => a.switchBank k m) b) l m := switched_foldl fun k hk => hmodes ▸ hbanks k hk
    have hstores : SameStores (switchBanks s w l m) (((switchBanks s w l m).failFifos w.gang w.block (b.leaveFifo l m)).modWarp slot
        fun y => y.endWait ⟨lanes, .drain l m, len, n⟩) := SameStores.modWarp (failFifos_sameStores ..) ..
    have hkept : ((switchBanks s w l m).failFifos w.gang w.block (b.leaveFifo l m)).warp slot = some w :=
      warp_failFifos (s := switchBanks s w l m) hw (by rw [hx]; rfl) w.gang w.block
    exact ⟨_, _, _, exec_bankDrainEnd hw hx hb hidle hplaten, warp_modWarp_of_some hkept _, endWait_eq w _ hx,
      fun k hk hlane hsame => pcGet_endWait w _ hk hlane hsame, scrBlock_of_switchBanks hb hstores,
      fun k hk => hswitched.bankAfter hk, fun k _ hk => hswitched.others hk, fun a => congrArg (·.get a) hstores.1⟩

end Sys2Proof.Results

namespace Sys2Proof.Results

open Sys2Proof.Machine Sys2Proof.Claims

/-! ### Looking at an awaited object -/

section
variable {s t u m s1 : State} {sl : Slot} {w w' : Warp} {r : Regs} {slot : Nat} {p : Part} {va : DWord}

/-! #### What the checks of an access change (R208, R341) -/

theorem translateAll_cached (u ctx : Nat) (n : Need) (kind : Nat) (l : List (Nat × DWord × Nat)) :
    ∀ s : State, s.Cached (s.translateAll u ctx n kind l).2 := by
  induction l with
  | nil => exact State.Cached.refl
  | cons x l ih =>
    intro s
    have h := s.translate_cached u ctx x.2.1 n
    unfold State.translateAll
    split <;> rename_i e <;> rw [e] at h
    · exact h
    · exact h
    · split
      · exact h
      · have h1 := h.trans (ih _)
        split <;> rename_i e1 <;> rwa [e1] at h1

theorem access_cached (s : State) (slot : Nat) (w : Warp) (sp : Space) (size : Nat) (n : Need) (kind : Nat)
    (l : List (Nat × Int)) : s.Cached (s.access slot w sp size n kind l).2 := by
  unfold State.access
  dsimp only
  split
  · exact .refl s
  · split
    · exact .refl s
    · split
      · exact .refl s
      · split
        · exact .refl s
        · exact translateAll_cached ..

theorem objectPart_cached (s : State) (slot : Nat) (w : Warp) (scratch : Bool) (va : DWord) (size : Nat) (n : Need) (kind : Nat) :
    s.Cached (s.objectPart slot w scratch va size n kind).2 := by
  have h := access_cached s slot w (objSpace scratch) size n kind [(0, (va.toNat : Int))]
  unfold State.objectPart
  split <;> rename_i e <;> rwa [e] at h

/-- Only what translation, numbering and the L1 copies keep may differ. -/
def Looked (s t : State) : Prop := t = { s with tlb := t.tlb, env := t.env, opSeq := t.opSeq, l1 := t.l1, l1bad := t.l1bad }

theorem Looked.refl (s : State) : Looked s s := rfl

theorem Looked.trans (h : Looked s t) (g : Looked t u) : Looked s u := by
  unfold Looked at *
  rw [g, h]

theorem Looked.of_cached (h : s.Cached t) : Looked s t := by
  unfold Looked
  rw [h]

theorem Looked.warp (h : Looked s t) (k : Nat) : t.warp k = s.warp k := by
  rw [h]
  rfl

theorem Looked.sameMemory (h : Looked s t) : SameMemory s t :=
  Opportunity.sameMemory_of_fields (by rw [h]) (by rw [h])

theorem refreshHome_looked (s : State) (forme : Nat) (q : Place) (n : Nat) : Looked s (s.refreshHome forme q n) := by
  cases q with
  | hbm key =>
    unfold State.refreshHome State.refreshL1
    dsimp only
    split <;> rfl
  | scr _ _ _ => rfl

theorem acquire_looked (s : State) (slot reach : Nat) : Looked s (s.acquire slot reach) := by
  unfold State.acquire State.dropL1
  split <;> rfl

theorem onlyWarp_of_taken (h : Looked s.taken m) (slot : Nat) : OnlyWarp s m slot := by
  refine ⟨?_, fun k _ => h.warp k⟩
  rw [h]
  rfl

theorem onlyWarp_setWarp (h : OnlyWarp s t slot) (y : Warp) : OnlyWarp s (t.setWarp slot y) slot := by
  refine ⟨?_, fun k hk => (State.warp_setWarp_ne _ _ hk).trans (h.others k hk)⟩
  rw [h.rest]
  rfl

theorem onlyWarp_modWarp (h : OnlyWarp s t slot) (f : Warp → Warp) : OnlyWarp s (t.modWarp slot f) slot := by
  unfold State.modWarp
  split
  · exact h
  · exact onlyWarp_setWarp h _

theorem onlyWarp_of_looked (h : OnlyWarp s t slot) (g : Looked t u) : OnlyWarp s u slot := by
  refine ⟨?_, fun k hk => (g.warp k).trans (h.others k hk)⟩
  rw [g, h.rest]

/-! #### What a look shows (R230, R231) -/

theorem look_of_read {x : Nat} {size : Nat} {scratch : Bool} (f : Option Nat → Look)
    (hp : s.objectPart slot w scratch va size .read 0 = (.ok p, s1)) (hx : s1.readNow slot w p = some x) :
    ∃ m, Looked s m ∧ s.look slot w scratch va size f = (f (some x), m) := by
  have hc : s.Cached s1 := by
    have h := objectPart_cached s slot w scratch va size .read 0
    rwa [hp] at h
  refine ⟨_, (Looked.of_cached hc).trans (refreshHome_looked s1 (slotForme slot) p.place size), ?_⟩
  rw [State.look, show kindLoad = 0 from rfl, hp]
  dsimp only
  rw [hx]

/-- A barrier that is not malformed shows its phase (R226, R230). -/
theorem phaseLook_of_wellFormed {x : Nat} (h : WellFormedBarrier x) (par : Bool) (va : DWord) :
    phaseLook (some x) par va = if phaseOf x ≠ par.toNat then .go else .stay := by
  obtain ⟨h24, h56, he, hp⟩ := h
  have hparse : Barrier.parse x = some ⟨bits x 0 24, bits x 32 24, bits x 63 1 == 1, bits x 64 64⟩ := by
    refine if_pos ⟨h24, h56, ?_, ?_⟩
    · simpa [bits] using he
    · simpa [bits] using hp
  have hphase : bits x 63 1 = phaseOf x := rfl
  have hlt : phaseOf x < 2 := Nat.mod_lt _ (by decide)
  rw [phaseLook, hparse, hphase]
  rcases (by omega : phaseOf x = 0 ∨ phaseOf x = 1) with h0 | h0 <;> rw [h0] <;> cases par <;> rfl

theorem toNat_parity (n : Nat) : (n % 2 == 1).toNat = n % 2 := by
  rcases Nat.mod_two_eq_zero_or_one n with h | h <;> rw [h] <;> rfl

theorem objAddress_toNat (scratch : Bool) (x : DWord) :
    (objAddress scratch x).toNat = x.toNat % (if scratch then 2 ^ 32 else 2 ^ 64) := by
  cases scratch with
  | false => exact (Nat.mod_eq_of_lt x.isLt).symm
  | true => exact (BitVec.toNat_and ..).trans (Nat.and_two_pow_sub_one_eq_mod x.toNat 32)

theorem objAddress_eq (r : Regs) (scratch : Bool) (k : Fin 64) : objAddress scratch (r.sget k) = barAddress r scratch k := by
  cases scratch with
  | false => rfl
  | true =>
    refine BitVec.eq_of_toNat_eq ((objAddress_toNat ..).trans ?_)
    simp only [barAddress, if_true, BitVec.toNat_ofNat]
    omega

/-! #### A wait at its issue (R230, R231, R233, R234) -/

/-- An instruction of a leader that, after a look, ends at once. -/
theorem continues_of_finish {i : Instr} (h : s.Chosen sl w r) (hm : Looked s.taken m)
    (ht : Looked (m.finish sl r) t) (he : exec i s = .next t) : Continues i s sl w r := by
  obtain ⟨w', r', hf, hside, hsame, hres, hpass⟩ := h.finish_passed ((hm.warp sl.w).trans h.warp)
  rw [hf] at ht
  refine ⟨t, w', r', he, onlyWarp_of_looked (onlyWarp_setWarp (onlyWarp_of_taken hm _) _) ht,
    (ht.warp _).trans (State.warp_setWarp_self ..), hside, hsame.other, ?_, hpass⟩
  rw [hsame.rest, hres]

/-- An instruction of a leader that, after a look, holds its whole group. -/
theorem holdsGroup_of_looked {i : Instr} {k : WaitKind} (h : s.Chosen sl w r) (hp : sl.proof = false) (hm : Looked s.taken m)
    (he : exec i s = .next (m.holdAt sl r sl.grp k)) : HoldsGroup i s sl w r k := by
  obtain ⟨p, hhold⟩ := holdAt_of_leader ((hm.warp sl.w).trans h.warp) hp r sl.grp k
  rw [hhold] at he
  refine ⟨_, _, he, onlyWarp_setWarp (onlyWarp_of_taken hm _) _, State.warp_setWarp_self .., rfl, rfl, fun l hl => ?_⟩
  refine (Regs.pcGet_setPc r (sl.grp &&& ~~~sl.grp) sl.after hl).trans ?_
  rw [BitVec.and_not_self, lane_zero]
  rfl

/-- A wait on an object whose look says whether it ends. -/
theorem beginWait_of_look {i : Instr} {k : WaitKind} {c : Prop} [Decidable c] {act : Mask} (h : s.Chosen sl w r)
    (hp : sl.proof = false) (hm : Looked s.taken m) (hl : s.taken.lookWait sl.w w k = (if c then .go else .stay, m))
    (he : exec i s = .next (s.taken.beginWait sl w r act k va)) :
    (c → Continues i s sl w r) ∧ (¬c → HoldsGroup i s sl w r k) := by
  unfold State.beginWait at he
  simp only [hp, hl, Bool.false_eq_true, if_false] at he
  refine ⟨fun hc => ?_, fun hc => ?_⟩
  · rw [if_pos hc] at he
    exact continues_of_finish h hm (acquire_looked ..) he
  · rw [if_neg hc] at he
    exact holdsGroup_of_looked h hp hm he

theorem lookWait_waitc {x value : Nat} (hp : s.objectPart slot w false va 8 .read 0 = (.ok p, s1))
    (hx : s1.readNow slot w p = some x) (sc : Scope) (act : Mask) :
    ∃ m, Looked s m ∧ s.lookWait slot w (.waitc va value sc act) = (if value ≤ x then .go else .stay, m) := by
  unfold State.lookWait
  exact look_of_read _ hp hx

theorem lookWait_barWait {x : Nat} {scratch : Bool} (hp : s.objectPart slot w scratch va 16 .read 0 = (.ok p, s1))
    (hx : s1.readNow slot w p = some x) (hwf : WellFormedBarrier x) (par : Bool) (sc : Scope) (act : Mask) :
    ∃ m, Looked s m ∧
      s.lookWait slot w (.barWait va scratch par sc act) = (if phaseOf x ≠ par.toNat then .go else .stay, m) := by
  obtain ⟨m, hm, hl⟩ := look_of_read (fun y => phaseLook y par va) hp hx
  rw [phaseLook_of_wellFormed hwf] at hl
  exact ⟨m, hm, hl⟩

theorem waitcComparesUnsigned : WaitcComparesUnsigned := by
  intro s sl w r i x act value h hp ha hread
  obtain ⟨p, s1, hpart, hx⟩ := hread
  obtain ⟨m, hm, hl⟩ := lookWait_waitc (value := value) hpart hx (effectiveScope .global i.scope) act
  have he : exec (.waitc i) s = .next (s.taken.beginWait sl w r act
      (.waitc (r.sget i.ctr) value (effectiveScope .global i.scope) act) (r.sget i.ctr)) := by
    rw [show exec (.waitc i) s = execWaitc i s from rfl, execWaitc, withActive_of_lanes _ h ha]
  obtain ⟨hgo, hstay⟩ := beginWait_of_look h hp hm hl he
  exact ⟨hgo, fun hlt => ⟨_, hstay (Nat.not_le.2 hlt)⟩⟩

theorem waitsbAndPauseHold : WaitsbAndPauseHold := by
  intro s sl w r h hp
  have continues {i : Instr} (he : exec i s = .next (s.taken.finish sl r)) : Continues i s sl w r :=
    continues_of_finish h (.refl _) (.refl _) he
  refine ⟨fun i ha => ?_, fun i ha => ?_⟩
  · have he : exec (.waitsb i) s = execWaitsb i s := rfl
    rw [execWaitsb, withActive_of_lanes _ h ha] at he
    simp only [hp, Bool.false_or, decide_eq_true_eq] at he
    refine ⟨fun hle => continues (he.trans (by rw [if_pos hle])), fun hlt => ?_⟩
    exact holdsGroup_of_holdAt h hp (he.trans (by rw [if_neg (Nat.not_le.2 hlt)]))
  · have he : exec (.pause i) s = execPause i s := rfl
    rw [execPause, withActive_of_lanes _ h ha] at he
    simp only [hp, Bool.false_or, decide_eq_true_eq] at he
    refine ⟨fun h0 => continues (he.trans (by rw [h0, if_pos (Nat.zero_min _)])), fun h0 => ?_⟩
    have hmin : min ((⟨r, 0, active r sl.grp i.g, 0⟩ : Rd).word i.n (Rd.once r (active r sl.grp i.g))) 4095 ≠ 0 := by omega
    exact holdsGroup_of_holdAt h hp (he.trans (by rw [if_neg hmin]))

end

/-- Settles O29: a look at the counter decides between the two outcomes (`beginWait_of_look`); waitsb and pause look at nothing but
the warp and their operand. -/
theorem waitsHoldTheGroup : Obligations.WaitsHoldTheGroup :=
  ⟨waitcComparesUnsigned, waitsbAndPauseHold⟩

end Sys2Proof.Results

namespace Sys2Proof.Results

open Sys2Proof.Machine Sys2Proof.Claims

/-! ### bar.wait and bar.test: O28 -/

section
variable {s m : State} {sl : Slot} {w : Warp} {r : Regs} {act : Mask}

theorem barWaitHoldsUntilThePhase : BarWaitHoldsUntilThePhase := by
  intro s sl w r i x act va par h hp ha hread hwf
  obtain ⟨p, s1, hpart, hx⟩ := hread
  have hpar : ((⟨r, 0, act, 0⟩ : Rd).word i.par 0 % 2 == 1).toNat = par := toNat_parity _
  have heq : ((⟨r, 0, act, 0⟩ : Rd).word i.par 0 % 2 == 1) = (par == 1) := rfl
  obtain ⟨m, hm, hl⟩ := lookWait_barWait hpart hx hwf (par == 1) (barScope i.scratch i.scope) act
  have he : exec (.barWait i) s = .next (s.taken.beginWait sl w r act
      (.barWait va i.scratch (par == 1) (barScope i.scratch i.scope) act) va) := by
    rw [show exec (.barWait i) s = execBarWait i s from rfl, execBarWait, withActive_of_lanes _ h ha, objAddress_eq]
  obtain ⟨hgo, hstay⟩ := beginWait_of_look h hp hm hl he
  rw [← heq, hpar] at hgo hstay
  exact ⟨hgo, fun hsame => ⟨_, hstay (not_not_intro hsame)⟩⟩

/-- A bar.test that has read a phase ends with its predicate, and acquires when it writes 1. -/
theorem testDone_of_leader {i : BarTestI} (h : s.Chosen sl w r) (hp : sl.proof = false) (hm : Looked s.taken m) (b : Bool) :
    ∃ w', OnlyWarp s (m.testDone sl w r act i b) sl.w ∧ (m.testDone sl w r act i b).warp sl.w = some w' ∧
      w' = { w with r := w'.r, proof := w'.proof } ∧
      w'.r = { (r.pset i.pd act (if b then act else 0)).setPc sl.grp sl.after with gseq := r.gseq + 1 } := by
  obtain ⟨q, hfin⟩ := warp_finish_of_leader ((hm.warp sl.w).trans h.warp) hp (r.pset i.pd act (if b then act else 0))
  rw [Regs.pset_gseq] at hfin
  have hgiven := warp_modWarp_of_some hfin fun y => y.giveValues r.gseq.toNat ⟨[], [], [(i.pd.val, if b then act else 0, act)], []⟩
  have honly : OnlyWarp s ((m.finish sl (r.pset i.pd act (if b then act else 0))).modWarp sl.w fun y =>
      y.giveValues r.gseq.toNat ⟨[], [], [(i.pd.val, if b then act else 0, act)], []⟩) sl.w :=
    onlyWarp_modWarp (onlyWarp_modWarp (onlyWarp_of_taken hm sl.w) _) _
  unfold State.testDone
  cases b with
  | false => exact ⟨_, honly, hgiven, rfl, rfl⟩
  | true =>
    have hacq := acquire_looked ((m.finish sl (r.pset i.pd act act)).modWarp sl.w fun y =>
      y.giveValues r.gseq.toNat ⟨[], [], [(i.pd.val, act, act)], []⟩) sl.w (m.reach w (barScope i.scratch i.scope))
    exact ⟨_, onlyWarp_of_looked honly hacq, (hacq.warp _).trans hgiven, rfl, rfl⟩

theorem pset_eq (r : Regs) (k : Nat) (act m : Mask) : ∃ p, r.pset k act m = { r with p := p } := by
  unfold Regs.pset
  split
  · exact ⟨r.p, rfl⟩
  · exact ⟨_, rfl⟩

theorem exec_barTest {i : BarTestI} {c : Prop} [Decidable c] (h : s.Chosen sl w r) (hp : sl.proof = false)
    (ha : active r sl.grp i.g ≠ 0)
    (hl : s.taken.look sl.w w i.scratch (barAddress r i.scratch i.obj) 16 (fun v =>
      phaseLook v ((⟨r, 0, active r sl.grp i.g, 0⟩ : Rd).word i.par 0 % 2 == 1) (barAddress r i.scratch i.obj)) =
        (if c then .go else .stay, m)) :
    exec (.barTest i) s = .next (m.testDone sl w r (active r sl.grp i.g) i (decide c)) := by
  have he : exec (.barTest i) s = execBarTest i s := rfl
  rw [execBarTest, withActive_of_lanes _ h ha] at he
  simp only [objAddress_eq, hp, hl, Bool.false_eq_true, if_false] at he
  rw [he]
  by_cases hc : c
  · rw [if_pos hc, decide_eq_true hc]
  · rw [if_neg hc, decide_eq_false hc]

theorem barTestWritesThePhase : BarTestWritesThePhase := by
  intro s sl w r i x act va par h hp ha hread hwf
  obtain ⟨p, s1, hpart, hx⟩ := hread
  obtain ⟨m, hm, hl⟩ := look_of_read (fun v => phaseLook v ((⟨r, 0, act, 0⟩ : Rd).word i.par 0 % 2 == 1) va) hpart hx
  rw [phaseLook_of_wellFormed hwf, toNat_parity] at hl
  obtain ⟨w', honly, hw', hrest, hr⟩ := testDone_of_leader (act := act) (i := i) h hp hm (decide (phaseOf x ≠ par))
  obtain ⟨bits, hpset⟩ := pset_eq r i.pd act (if decide (phaseOf x ≠ par) then act else 0)
  refine ⟨_, w', exec_barTest h hp ha hl, honly, hw', hrest, ?_, ?_, fun k l hl => ?_⟩
  · rw [hr, hpset]
    exact Regs.advanced_finish (r1 := { r with p := bits }) sl rfl rfl
  · rw [hr, hpset]
    rfl
  · have hpget : w'.r.pget k = (r.pset i.pd act (if decide (phaseOf x ≠ par) then act else 0)).pget k := by rw [hr]; rfl
    have hbit (hlane : lane act l = true) :
        lane (if decide (phaseOf x ≠ par) then act else 0) l = decide (phaseOf x ≠ par) := by
      split
      next hne => rw [hlane, hne]
      next hne => rw [lane_zero, Bool.eq_false_iff.2 hne]
    rw [hpget, Regs.lane_pget_pset]
    by_cases hk : k = i.pd.val
    · subst hk
      split
      next hw => exact hbit hw.2.2
      next => rfl
    · rw [if_neg fun hw => hk hw.1, if_neg fun hw => hk hw.1]

end

/-- Settles O28: the phase that the look shows (`phaseLook_of_wellFormed`) ends or holds a bar.wait, and is what bar.test writes. -/
theorem barriersWaitAndTest : Obligations.BarriersWaitAndTest :=
  ⟨barWaitHoldsUntilThePhase, barTestWritesThePhase⟩

end Sys2Proof.Results

namespace Sys2Proof.Results

open Sys2Proof.Machine Sys2Proof.Claims

/-! ### The end of a group's wait: O32 -/

section
variable {s m t : State} {slot l : Nat} {w : Warp} {x : Wait}

theorem find?_wait (hx : w.waits = [x]) (hl : lane x.lanes l = true) :
    (w.waits.find? fun y => y.lanes.getLsbD l) = some x := by
  rw [hx]
  exact List.find?_cons_of_pos hl

theorem exec_groupWaitEnd_of_count (hw : s.warp slot = some w) (hx : w.waits = [x]) (hl : lane x.lanes l = true)
    (hk : x.kind = .pause 0 ∨ ∃ k n, x.kind = .waitsb k n ∧ w.sbCount k ≤ n) :
    exec (.groupWaitEnd slot l) s = .next (s.modWarp slot fun y => y.endWait x) := by
  show execGroupWaitEnd slot l s = _
  unfold execGroupWaitEnd
  rcases hk with hk | ⟨k, n, hk, hle⟩
  · simp only [hw, find?_wait hx hl, hk]
  · simp only [hw, find?_wait hx hl, hk, if_pos hle]

theorem exec_groupWaitEnd_of_look (hw : s.warp slot = some w) (hx : w.waits = [x]) (hl : lane x.lanes l = true)
    (hk : (∃ va v sc a, x.kind = .waitc va v sc a) ∨ ∃ va b par sc a, x.kind = .barWait va b par sc a)
    (hgo : s.lookWait slot w x.kind = (.go, m)) :
    exec (.groupWaitEnd slot l) s = .next ((m.modWarp slot fun y => y.endWait x).acquire slot (s.reach w x.kind.scope)) := by
  show execGroupWaitEnd slot l s = _
  unfold execGroupWaitEnd
  rcases hk with ⟨va, v, sc, a, hk⟩ | ⟨va, b, par, sc, a, hk⟩ <;> rw [hk] at hgo <;>
    simp only [hw, find?_wait hx hl, hk, hgo, State.finishLook]

theorem pcGet_endWait_of_other (w : Warp) (x : Wait) {k : Nat} (hk : k < 32) (hlane : lane x.lanes k = false) :
    (w.endWait x).r.pcGet k = w.r.pcGet k := by
  unfold Warp.endWait
  cases lowest x.lanes with
  | none => rfl
  | some j =>
    dsimp only
    rw [Regs.pcGet_setPc _ _ _ hk, hlane]
    rfl

theorem endWait_regs (w : Warp) (x : Wait) : (w.endWait x).r = { w.r with pc := (w.endWait x).r.pc } := by
  unfold Warp.endWait
  cases lowest x.lanes <;> rfl

end

/-- Settles O32: whatever the wait awaits, its end runs to `Warp.endWait`, before and after which only looks happen. -/
theorem groupWaitsEnd : Obligations.GroupWaitsEnd := by
  intro s slot l w x p s1 y hw hx hl hlane hkind
  have main {m t : State} (he : exec (.groupWaitEnd slot l) s = .next t) (hm : Looked s m)
      (ht : Looked (m.modWarp slot fun y => y.endWait x) t) :
      ∃ (t : State) (w' : Warp), exec (.groupWaitEnd slot l) s = .next t ∧ t.warp slot = some w' ∧
        w' = { w with r := w'.r, waits := [] } ∧ w'.r = { w.r with pc := w'.r.pc } ∧ SameMemory s t ∧
        (∀ k, k < 32 → lane x.lanes k = false → w'.r.pcGet k = w.r.pcGet k) ∧
        ((∀ j k, lane x.lanes j = true → lane x.lanes k = true → w.r.pcGet j = w.r.pcGet k) →
          w'.r.pcGet l = w.r.pcGet l + BitVec.ofNat 64 (4 * x.len)) := by
    have hwarp : t.warp slot = some (w.endWait x) :=
      (ht.warp slot).trans (warp_modWarp_of_some ((hm.warp slot).trans hw) _)
    have hmem : SameStores s (m.modWarp slot fun y => y.endWait x) := SameStores.modWarp ⟨by rw [hm], by rw [hm]⟩ ..
    refine ⟨t, _, he, hwarp, endWait_eq w x hx, endWait_regs w x, fun q => ?_, fun k hk hn => pcGet_endWait_of_other w x hk hn,
      fun hsame => pcGet_endWait w x hl hlane fun j hj => hsame j l hj hlane⟩
    exact (ht.sameMemory q).trans (Opportunity.sameMemory_of_fields hmem.1 hmem.2 q)
  have counted (hk : x.kind = .pause 0 ∨ ∃ k n, x.kind = .waitsb k n ∧ w.sbCount k ≤ n) :=
    main (exec_groupWaitEnd_of_count hw hx hlane hk) (.refl s) (.refl _)
  cases hk : x.kind with
  | pause n =>
    simp only [hk] at hkind
    exact counted (.inl (hkind ▸ hk))
  | waitsb k n =>
    simp only [hk] at hkind
    exact counted (.inr ⟨k, n, hk, hkind⟩)
  | waitc va v sc a =>
    simp only [hk] at hkind
    obtain ⟨hpart, hy, hle⟩ := hkind
    obtain ⟨m, hm, hlook⟩ := lookWait_waitc (value := v) hpart hy sc a
    rw [if_pos hle, ← hk] at hlook
    exact main (exec_groupWaitEnd_of_look hw hx hlane (.inl ⟨va, v, sc, a, hk⟩) hlook) hm (acquire_looked ..)
  | barWait va b par sc a =>
    simp only [hk] at hkind
    obtain ⟨hpart, hy, hwf, hne⟩ := hkind
    obtain ⟨m, hm, hlook⟩ := lookWait_barWait hpart hy hwf par sc a
    rw [if_pos hne, ← hk] at hlook
    exact main (exec_groupWaitEnd_of_look hw hx hlane (.inr ⟨va, b, par, sc, a, hk⟩) hlook) hm (acquire_looked ..)
  | _ =>
    simp only [hk] at hkind

end Sys2Proof.Results

namespace Sys2Proof.Results

open Sys2Proof.Machine Sys2Proof.Claims

/-! ### Memory instructions of a leader at issue -/

section
variable {s t m s1 : State} {sl : Slot} {w y : Warp} {r : Regs} {act : Mask} {slot : Nat} {op : MemOp} {q : MemReq} {sp : Space}
  {parts : List Part}

/-! #### States that differ in one warp and in what translation and numbering keep -/

theorem sameOutside_taken (s : State) (slot : Nat) : s.SameOutside s.taken slot := ⟨rfl, fun _ _ => rfl⟩

theorem sameOutside_cached (h : s.SameOutside t slot) (hc : t.Cached m) : s.SameOutside m slot := by
  refine ⟨?_, fun k hk => (hc.warp k).trans (h.others k hk)⟩
  rw [hc, h.rest]

theorem sameOutside_opSeq (h : s.SameOutside t slot) (n : Nat) : s.SameOutside { t with opSeq := n } slot := by
  refine ⟨?_, h.others⟩
  rw [h.rest]

theorem sameOutside_setWarp (h : s.SameOutside t slot) (y : Warp) : s.SameOutside (t.setWarp slot y) slot := by
  refine ⟨?_, fun k hk => (State.warp_setWarp_ne _ _ hk).trans (h.others k hk)⟩
  rw [h.rest]
  rfl

/-! #### The parts of an operation and their places among the readable stores (R196) -/

/-- A part without what says who may read its store early. -/
def unplaced (p : Piece) : Piece := { p with loc := 0, seq := 0 }

theorem chooseLocal_cached (l : List Piece) : ∀ s : State, s.Cached (s.chooseLocal l).2 := by
  induction l with
  | nil => exact State.Cached.refl
  | cons p l ih =>
    intro s
    unfold State.chooseLocal
    split
    · exact ih s
    · exact (s.pick_cached 2).trans (ih _)

theorem chooseLocal_unplaced (l : List Piece) : ∀ s : State, (s.chooseLocal l).1.map unplaced = l.map unplaced := by
  induction l with
  | nil => exact fun _ => rfl
  | cons p l ih =>
    intro s
    unfold State.chooseLocal
    split
    · exact congrArg (unplaced p :: ·) (ih s)
    · exact congrArg (unplaced p :: ·) (ih _)

theorem stampPieces_unplaced (older : List MemOp) (l : List Piece) : ∀ (before : List Piece) (n : Nat),
    (stampPieces older before l n).1.map unplaced = l.map unplaced := by
  induction l with
  | nil => exact fun _ _ => rfl
  | cons p l ih =>
    intro before n
    unfold stampPieces
    simp only [List.map_cons, ih]
    split <;> rfl

/-- Stamping a single operation changes at most the places of its parts, and those only of a store. -/
theorem stampOps_singleton (all : List MemOp) (op : MemOp) (n : Nat) :
    ∃ ps, (stampOps all [op] n).1 = [{ op with pieces := ps }] ∧ ps.map unplaced = op.pieces.map unplaced ∧
      (op.kind.isStore = false → ps = op.pieces) := by
  refine ⟨_, rfl, ?_, fun hk => ?_⟩
  · split
    · exact stampPieces_unplaced ..
    · rfl
  · rw [hk]
    rfl

/-! #### An operation goes into flight (R192, R195, R205) -/

theorem scFence_eq (hw : m.warp sl.w = some w) (hout : s.SameOutside m sl.w) (r : Regs) (act : Mask) (op : MemOp) :
    ∃ m1 id before, m.scFence sl r act op = (m1, { op with id := id }) ∧ s.SameOutside m1 sl.w ∧
      m1.warp sl.w = some { w with pend := w.pend ++ before } ∧
      before = if op.ord = .sc then [fenceOp op.id .sc op.scope sl.pc r.gseq.toNat act w.levels.length] else [] := by
  unfold State.scFence
  split
  · have hfresh : m.fresh.2.warp sl.w = some w := hw
    exact ⟨_, _, _, rfl, sameOutside_modWarp (sameOutside_opSeq hout (m.opSeq + 1)) _, warp_modWarp_of_some hfresh _, rfl⟩
  · exact ⟨m, op.id, _, rfl, hout, by rw [List.append_nil]; exact hw, rfl⟩

/-- Whether others may read a store early is the device's choice; nothing else of the parts changes (R196). -/
theorem chooseLocal_eq (m : State) (l : List Piece) (c : Bool) : ∃ ps m1, (if c then m.chooseLocal l else (l, m)) = (ps, m1) ∧
    m.Cached m1 ∧ ps.map unplaced = l.map unplaced ∧ (c = false → ps = l) := by
  cases c with
  | false => exact ⟨l, m, rfl, .refl m, rfl, fun _ => rfl⟩
  | true => exact ⟨_, _, rfl, chooseLocal_cached l m, chooseLocal_unplaced l m, nofun⟩

/-- An operation that no proof warp holds up joins those in flight, and its group goes on. -/
theorem sendOp_of_alone (hw : m.warp sl.w = some y) (hn : y.proof = none ∨ op.kind.compared = false) :
    ∃ p n ps, m.sendOp sl r act op = ({ m with opSeq := n }).setWarp sl.w { y with
        r := { r.setPc sl.grp sl.after with gseq := r.gseq + 1 }, proof := p, pend := y.pend ++ [{ op with pieces := ps }] } ∧
      ps.map unplaced = op.pieces.map unplaced ∧ (op.kind.isStore = false → ps = op.pieces) := by
  have hheld : (y.proof.isSome && op.kind.compared) = false := by rcases hn with hn | hn <;> simp [hn]
  obtain ⟨p, hp⟩ := follow_eq y sl (sl.lag y)
  obtain ⟨ps, hstamp, hparts, hsame⟩ := stampOps_singleton y.inFlight op m.opSeq
  refine ⟨p, (stampOps y.inFlight [op] m.opSeq).2, ps, ?_, hparts, hsame⟩
  unfold State.sendOp
  simp only [hw, hheld, Bool.false_eq_true, if_false, hp, hstamp]
  rfl

/-- In t the operation `op` of a leader is in flight as op', behind the fence of a .sc access (R192). -/
structure Sent (s t : State) (sl : Slot) (w : Warp) (r : Regs) (act : Mask) (op : MemOp) (w' : Warp) (before : List MemOp)
    (op' : MemOp) : Prop where
  outside : s.SameOutside t sl.w
  warp : t.warp sl.w = some w'
  rest : w' = { w with r := { r.setPc sl.grp sl.after with gseq := r.gseq + 1 }, proof := w'.proof, pend := w.pend ++ before ++ [op'] }
  fence : before = if op.ord = .sc then [fenceOp op.id .sc op.scope sl.pc r.gseq.toNat act w.levels.length] else []
  same : op' = { op with id := op'.id, pieces := op'.pieces }
  parts : op'.pieces.map unplaced = op.pieces.map unplaced
  others : op.kind.isStore = false → op'.pieces = op.pieces

/-- No open region keeps an operation of this kind and space (R235). -/
def PassesRegions (w : Warp) (k : OpKind) (sp : Space) : Prop :=
  w.levels = [] ∨ k.isLoad = true ∨ (k.isStore = true ∧ sp = .block)

theorem dispatchOp_of_passes (h : PassesRegions w op.kind sp) : m.dispatchOp sl w r act sp op =
    (let (m1, op1) := m.scFence sl r act op
    let (ps, m2) := if op1.kind.isStore && !ordReleases op1.ord then m1.chooseLocal op1.pieces else (op1.pieces, m1)
    m2.sendOp sl r act { op1 with pieces := ps }) := by
  have hheld : (!w.levels.isEmpty && op.kind.isStore && sp != .block) = false := by
    rcases h with h | h | ⟨-, h⟩
    · simp [h]
    · cases hk : op.kind <;> simp [hk, OpKind.isLoad, OpKind.isStore] at h ⊢
    · simp [h]
  have hdeferred : (!w.levels.isEmpty && op.kind.deferred) = false := by
    rcases h with h | h | ⟨h, -⟩
    · simp [h]
    · cases hk : op.kind <;> simp [hk, OpKind.isLoad, OpKind.deferred] at h ⊢
    · cases hk : op.kind <;> simp [hk, OpKind.isStore, OpKind.deferred] at h ⊢
  rw [State.dispatchOp, hheld, hdeferred]
  rfl

theorem dispatchOp_sent (hout : s.SameOutside m sl.w) (hw : m.warp sl.w = some w) (hn : w.proof = none ∨ op.kind.compared = false)
    (h : PassesRegions w op.kind sp) (r : Regs) (act : Mask) :
    ∃ w' before op', Sent s (m.dispatchOp sl w r act sp op) sl w r act op w' before op' := by
  obtain ⟨m1, id, before, hsc, hout1, hw1, hbefore⟩ := scFence_eq hw hout r act op
  obtain ⟨ps1, m2, hchosen, hc, hps1, hsame1⟩ := chooseLocal_eq m1 op.pieces (op.kind.isStore && !ordReleases op.ord)
  obtain ⟨p, n, ps, hsent, hps, hsame⟩ := sendOp_of_alone (r := r) (act := act) (op := { op with id := id, pieces := ps1 })
    ((hc.warp _).trans hw1) hn
  refine ⟨{ w with
    r := { r.setPc sl.grp sl.after with gseq := r.gseq + 1 }
    proof := p
    pend := w.pend ++ before ++ [{ op with id := id, pieces := ps }] }, before, { op with id := id, pieces := ps }, ?_⟩
  rw [dispatchOp_of_passes h, hsc]
  simp only [hchosen, hsent]
  refine ⟨sameOutside_setWarp (sameOutside_opSeq (sameOutside_cached hout1 hc) n) _, State.warp_setWarp_self .., rfl, hbefore, rfl,
    hps.trans hps1, fun hk => (hsame hk).trans (hsame1 ?_)⟩
  rw [hk]
  rfl

/-! #### The checks pass (R208) -/

/-- The registers of a memory instruction that counts its bank conflicts (R176). -/
def countConflicts (s : State) (sl : Slot) (w : Warp) (r : Regs) (act : Mask) (q : MemReq) : Regs :=
  { r with bankconf := r.bankconf + BitVec.ofNat 64 (s.bankConflicts sl.w w q.sp (addresses q r act)) }

theorem bankConflicts_of_cached (h : s.Cached t) (n slot : Nat) (w : Warp) (sp : Space) (l : List (Nat × Int)) :
    State.bankConflicts { t with opSeq := n } slot w sp l = s.bankConflicts slot w sp l := by
  rw [h]
  rfl

/-- A request that no region forbids, whose checks pass and whose loads meet no poison in the galley, is dispatched. -/
theorem leadMemory_of_checks (hk : w.levels = [] ∨ q.kind.forbidden = false)
    (hx : s.access sl.w w q.sp q.size q.need q.no (addresses q r act) = (.ok parts, s1))
    (hclean : q.kind.isLoad = true → ForwardsClean w q r act parts) :
    s.leadMemory sl w r act q = s1.fresh.2.dispatchOp sl w (countConflicts s sl w r act q) act q.sp
      (q.op sl w r act s1.opSeq (q.pieces ⟨r, 0, act, 0⟩ w parts) (parts.all Part.cached)) := by
  have hc : s.Cached s1 := by
    have h := access_cached s sl.w w q.sp q.size q.need q.no (addresses q r act)
    rwa [hx] at h
  have hallowed : ¬(!w.levels.isEmpty && q.kind.forbidden) = true := by rcases hk with hk | hk <;> simp [hk]
  have hbad : (if q.kind.isLoad then (q.pieces ⟨r, 0, act, 0⟩ w parts).filter fun p => p.forwardsBad w q.sp else []) = [] := by
    split
    next hl => exact List.filter_eq_nil_iff.2 fun p hp => by rw [hclean hl p hp]; exact Bool.false_ne_true
    next => rfl
  have hconf := bankConflicts_of_cached hc (s1.opSeq + 1) sl.w w q.sp (addresses q r act)
  unfold addresses at hx hconf
  unfold State.leadMemory
  simp only [if_neg hallowed, hx, hbad, State.fresh, hconf]
  rfl

theorem passesRegions_of_notKept (h : NotKept w q) : PassesRegions w q.kind q.sp := h

theorem not_forbidden_of_passes {k : OpKind} (h : PassesRegions w k sp) : w.levels = [] ∨ k.forbidden = false := by
  rcases h with h | h | ⟨h, -⟩
  · exact .inl h
  · cases k with
    | load _ _ | kload _ _ | jload _ => exact .inr rfl
    | _ => cases h
  · cases k with
    | store => exact .inr rfl
    | _ => cases h

/-- A request's parts have no place yet among the readable stores. -/
theorem pieces_unplaced (q : MemReq) (x : Rd) (w : Warp) (parts : List Part) :
    (q.pieces x w parts).map unplaced = q.pieces x w parts := by
  unfold MemReq.pieces
  rw [List.map_map]
  rfl

theorem sameOutside_of_checks {l : List (Nat × Int)} {size kind : Nat} {n : Need}
    (hx : s.taken.access slot w sp size n kind l = (.ok parts, s1)) : s.SameOutside s1 slot ∧ s1.warp slot = s.warp slot := by
  have h := access_cached s.taken slot w sp size n kind l
  rw [hx] at h
  exact ⟨sameOutside_cached (sameOutside_taken s slot) h, h.warp slot⟩

end

end Sys2Proof.Results

namespace Sys2Proof.Results

open Sys2Proof.Machine Sys2Proof.Claims

/-! ### Memory instructions, barrier operations and set loads go in flight: O12 -/

section
variable {s m s1 : State} {sl : Slot} {w : Warp} {r : Regs} {act : Mask} {q : MemReq} {i : Instr} {g : Guard} {c : Prop}
  {parts : List Part}

theorem advanced_setPc (r : Regs) (sl : Slot) (x : DWord) :
    r.Advanced { { r with bankconf := x }.setPc sl.grp sl.after with gseq := r.gseq + 1 } sl :=
  Regs.advanced_finish (r1 := { r with bankconf := x }) sl rfl rfl

theorem goesInFlight_of_leadMemory (h : s.Chosen sl w r) (he : exec i s = .next (s.taken.leadMemory sl w r act q))
    (ha : Alone sl w q.kind) (hn : NotKept w q) (hx : checks s sl w r act q = (.ok parts, s1))
    (hclean : ForwardsClean w q r act parts) : GoesInFlight i q s sl w r act parts := by
  obtain ⟨hout, hw1⟩ := sameOutside_of_checks hx
  obtain ⟨w', before, op, hsent⟩ := dispatchOp_sent (m := s1.fresh.2) (sameOutside_opSeq hout (s1.opSeq + 1)) (hw1.trans h.warp)
    (op := q.op sl w r act s1.opSeq (q.pieces ⟨r, 0, act, 0⟩ w parts) (parts.all Part.cached)) ha.2 (passesRegions_of_notKept hn)
    (countConflicts s.taken sl w r act q) act
  rw [leadMemory_of_checks (not_forbidden_of_passes (passesRegions_of_notKept hn)) hx fun _ => hclean] at he
  have hr : w'.r = { (countConflicts s.taken sl w r act q).setPc sl.grp sl.after with gseq := r.gseq + 1 } := by rw [hsent.rest]; rfl
  have hbefore := hsent.fence
  refine ⟨_, w', op, before, he, hsent.outside, hsent.warp, ?_, ?_, fun ho => ?_, fun ho => ⟨s1.opSeq, ?_⟩, ?_, ?_, ?_⟩
  · rw [hsent.rest]
  · rw [hsent.rest]
  · exact hbefore.trans (if_neg ho)
  · exact hbefore.trans (if_pos ho)
  · rw [hsent.same]
    refine ⟨rfl, ⟨rfl, rfl⟩, ⟨rfl, rfl, rfl, rfl, rfl⟩, ?_⟩
    exact hsent.parts.trans (pieces_unplaced ..)
  · rw [hr]
    exact advanced_setPc r sl _
  · rw [hr]
    rfl

theorem memoryRequestsGoInFlight : MemoryRequestsGoInFlight := by
  intro s sl w r i q parts s1 h hi hact ha hn hx hclean
  refine goesInFlight_of_leadMemory h ?_ ha hn hx hclean
  rw [Access.exec_eq_memory hi, Access.memory_of_leader h hact ha.1]

/-! #### Requests behind a check of their own (R228, R229, R298) -/

theorem badCount_eq_false {n : Nat} (h : 1 ≤ n) (hlt : n < 2 ^ 24) : badCount n = false := by
  have h0 : (n == 0) = false := beq_eq_false_iff_ne.2 (by omega)
  rw [badCount, h0, decide_eq_false (Nat.not_le.2 hlt)]
  rfl

/-- The code of a fresh barrier of a count (R228). -/
theorem code_fresh (n : Nat) : Barrier.code ⟨n, n, false, 0⟩ = n + 2 ^ 32 * n := by
  simp only [Barrier.code, Bool.toNat_false, Nat.mul_zero, Nat.add_zero]

theorem memoryOn_of_leader (hp : sl.proof = false) : s.memoryOn sl w r act q = s.leadMemory sl w r act q := by
  rw [State.memoryOn, hp]
  rfl

/-- An instruction whose own check has passed runs its request through the checks of R208. -/
theorem exec_of_lateReq_passed (h : s.Chosen sl w r) (hi : lateReq w r act i = some (g, c, q)) (hg : act = active r sl.grp g)
    (ha : act ≠ 0) (hc : c) (hp : sl.proof = false) : exec i s = .next (s.taken.leadMemory sl w r act q) := by
  unfold lateReq at hi
  split at hi <;> simp only [Option.some.injEq, Prod.mk.injEq, reduceCtorEq] at hi <;> obtain ⟨rfl, rfl, rfl⟩ := hi <;> subst hg
  case h_1 j =>
    have hfree : ((r.jget j.j.val).arrived != 0) = false := by rw [hc]; rfl
    rw [show exec (.jload j) s = execJload j s from rfl, execJload, withActive_of_lanes _ h ha, hfree, memoryOn_of_leader hp]
    rfl
  case h_2 j =>
    obtain ⟨hl, h1, hlt⟩ := hc
    rw [show exec (.barInit j) s = execBarInit j s from rfl, execBarInit, withActive_of_lanes _ h ha]
    simp only [hp, hl, badCount_eq_false h1 hlt, memoryOn_of_leader hp, objAddress_toNat, code_fresh, List.isEmpty_nil, Bool.not_true,
      Bool.and_false, Bool.false_eq_true, if_false]
    rfl
  case h_3 j =>
    obtain ⟨h1, hlt⟩ := hc
    rw [show exec (.barArrive j) s = execBarArrive j s from rfl, execBarArrive, withActive_of_lanes _ h ha]
    simp only [hp, badCount_eq_false h1 hlt, memoryOn_of_leader hp, objAddress_toNat, Bool.and_false, Bool.false_eq_true, if_false]
    rfl

theorem barrierAndSetAccessesGoInFlight : BarrierAndSetAccessesGoInFlight := by
  intro s sl w r i act g c q parts s1 h hi hg hact hc ha hn hx hclean
  exact goesInFlight_of_leadMemory h (exec_of_lateReq_passed h hi hg hact hc ha.1) ha hn hx hclean

end

/-- Settles O12: every one of these instructions runs to a request's dispatch, which sends its operation (`dispatchOp_sent`). -/
theorem memoryInstructionsGoInFlight : Obligations.MemoryInstructionsGoInFlight :=
  ⟨memoryRequestsGoInFlight, barrierAndSetAccessesGoInFlight⟩

end Sys2Proof.Results

namespace Sys2Proof.Results

open Sys2Proof.Machine Sys2Proof.Claims

/-! ### catom goes in flight: O18 -/

section
variable {s s1 s2 : State} {sl : Slot} {w : Warp} {r : Regs} {act : Mask} {i : CatomI} {hi lo : List Part}

/-- A catom whose words pass their checks and share a home is dispatched (R222, R224). -/
theorem leadCatom_of_checks {his los : List (Nat × Int)} (hl : w.levels = [])
    (hhis : his = (lanesOf act).map fun l => (l, (catomReq i).ea ⟨r, 0, act, 0⟩ l))
    (hlos : los = (lanesOf act).map fun l =>
      (l, ((wrap ((catomReq i).ea ⟨r, 0, act, 0⟩ l) 64 + catomDelta ⟨r, 0, act, 0⟩ i l : Nat) : Int)))
    (hformHi : ∀ y ∈ his, checkForm .global (catomReq i).size kindAtomic y.2 = none)
    (hformLo : ∀ y ∈ los, checkForm .global (pairLoSize i.pt) kindAtomic y.2 = none)
    (hxHi : s.access sl.w w .global (catomReq i).size .readWrite kindAtomic his = (.ok hi, s1))
    (hxLo : s1.access sl.w w .global (pairLoSize i.pt) .readWrite kindAtomic los = (.ok lo, s2))
    (hhome : ∀ p ∈ hi.zip lo, splitHome p.1 p.2 (catomDelta ⟨r, 0, act, 0⟩ i p.1.lane) = false) :
    s.leadCatom sl w r act i = s2.fresh.2.dispatchOp sl w r act .global
      ((catomReq i).op sl w r act s2.opSeq (catomPieces ⟨r, 0, act, 0⟩ i hi lo) true) := by
  have hforms : ((his.filterMap fun y => checkForm .global (catomReq i).size kindAtomic y.2) ++
      (los.filterMap fun y => checkForm .global (pairLoSize i.pt) kindAtomic y.2)).head? = none := by
    rw [List.filterMap_eq_nil_iff.2 hformHi, List.filterMap_eq_nil_iff.2 hformLo, List.append_nil, List.head?_nil]
  have hsplit : ((hi.zip lo).find? fun p => splitHome p.1 p.2 (catomDelta ⟨r, 0, act, 0⟩ i p.1.lane)) = none :=
    List.find?_eq_none.2 fun p hp => by rw [hhome p hp]; exact Bool.false_ne_true
  have hallowed : (!w.levels.isEmpty && (catomReq i).kind.forbidden) = false := by rw [hl]; rfl
  subst hhis hlos
  unfold State.leadCatom
  simp only [hallowed, Bool.false_eq_true, if_false, hforms, hxHi, hxLo, hsplit, State.fresh]

end

/-- Settles O18: both words of each lane pass their checks, and the operation that holds them is sent (`dispatchOp_sent`). -/
theorem catomGoesInFlight : Obligations.CatomGoesInFlight := by
  intro s sl w r i hi lo s1 s2 act x q his los h hact halone hl hformHi hformLo hxHi hxLo hhome
  obtain ⟨hout, hw1⟩ := sameOutside_of_checks hxHi
  have hc : s1.Cached s2 := by
    have h := access_cached s1 sl.w w .global (pairLoSize i.pt) .readWrite 2 los
    rwa [hxLo] at h
  have hw2 : s2.warp sl.w = some w := (hc.warp _).trans (hw1.trans h.warp)
  obtain ⟨w', before, op, hsent⟩ := dispatchOp_sent (m := s2.fresh.2)
    (sameOutside_opSeq (sameOutside_cached hout hc) (s2.opSeq + 1)) hw2
    (op := q.op sl w r act s2.opSeq (catomPieces x i hi lo) true) (sp := .global) halone.2 (.inl hl) r act
  have he : exec (.catom i) s = .next (s.taken.leadCatom sl w r act i) := by
    rw [show exec (.catom i) s = execCatom i s from rfl, execCatom, State.onSlot_chosen h]
    simp only [halone.1, Bool.false_eq_true, if_false]
    exact congrArg _ (if_neg hact)
  rw [leadCatom_of_checks hl rfl rfl hformHi hformLo hxHi hxLo hhome] at he
  have hbefore := hsent.fence
  refine ⟨_, w', op, before, he, hsent.outside, hsent.warp, ?_, fun ho => ?_, fun f hf => ?_, ?_, ?_⟩
  · rw [hsent.rest]
  · rw [hbefore]
    exact if_neg ho
  · rw [hbefore] at hf
    split at hf
    · rw [List.mem_singleton.1 hf]
      exact ⟨rfl, rfl⟩
    · cases hf
  · rw [hsent.rest]
    exact passed_setPc r sl
  · rw [hsent.same, hsent.others rfl]
    exact ⟨rfl, rfl, rfl, rfl⟩

end Sys2Proof.Results

namespace Sys2Proof.Results

open Sys2Proof.Machine Sys2Proof.Machine.Trap Sys2Proof.Claims

/-! ### What releases, the fabric and performed parts leave of a warp

A release lets stores be read, and stamps them; the performance of a barrier operation notes arrivals. Nothing else of a
warp changes: its `core`. -/

section
variable {s t u : State} {slot : Nat} {w y : Warp}

/-- An operation but for the parts of a store, which change as others may read it. -/
def bare (o : MemOp) : MemOp := if o.kind.isStore then { o with pieces := [] } else o

/-- A warp but for who may read its stores and the arrivals noted at its block's barriers. -/
def core (w : Warp) : Warp := { w with pend := w.pend.map bare, arrivals := [] }

/-- The warp in this slot has the same core. -/
def SameCore (slot : Nat) (s t : State) : Prop := (t.warp slot).map core = (s.warp slot).map core

theorem SameCore.refl (slot : Nat) (s : State) : SameCore slot s s := rfl

theorem SameCore.trans (h : SameCore slot s t) (g : SameCore slot t u) : SameCore slot s u := Eq.trans g h

theorem SameCore.of_warp (h : t.warp slot = s.warp slot) : SameCore slot s t := congrArg _ h

theorem SameCore.of_sameWarps (h : SameWarps s t) : SameCore slot s t := .of_warp (h.warp slot)

theorem SameCore.modWarp (s : State) (k : Nat) {f : Warp → Warp} (hf : k = slot → ∀ w, core (f w) = core w) :
    SameCore slot s (s.modWarp k f) := by
  unfold SameCore
  rw [State.warp_modWarp]
  split
  next hk =>
    subst hk
    rw [Option.map_map]
    exact congrArg (fun g => Option.map g (s.warp slot)) (funext (hf rfl))
  next => rfl

theorem SameCore.foldl {α : Type} {f : State → α → State} (hf : ∀ a x, SameCore slot a (f a x)) (l : List α) (s : State) :
    SameCore slot s (l.foldl f s) := by
  induction l generalizing s with
  | nil => exact .refl slot s
  | cons x l ih => exact (hf s x).trans (ih _)

theorem SameCore.warp (h : SameCore slot s t) (hw : s.warp slot = some w) : ∃ y, t.warp slot = some y ∧ core y = core w := by
  unfold SameCore at h
  rw [hw] at h
  exact Option.map_eq_some_iff.1 h

theorem regs_of_core (h : core y = core w) : y.r = w.r :=
  (congrArg Warp.r h : (core y).r = (core w).r)

theorem stampOps_bare (l : List MemOp) : ∀ (all : List MemOp) (n : Nat), (stampOps all l n).1.map bare = l.map bare := by
  induction l with
  | nil => exact fun _ _ => rfl
  | cons o l ih =>
    intro all n
    unfold stampOps
    simp only [List.map_cons, ih]
    cases hk : o.kind.isStore <;> simp only [bare, hk, Bool.false_eq_true, if_false, if_true]

theorem stampStores_sameCore (slot : Nat) (s : State) (k : Nat) : SameCore slot s (s.stampStores k) := by
  unfold State.stampStores
  split
  next => exact .refl slot s
  next w hw =>
    dsimp only
    split
    · exact .refl slot s
    · unfold SameCore
      rw [State.warp_setWarp]
      split
      next hk =>
        rw [hk, hw, Option.map_some, Option.map_some]
        exact congrArg (fun l => some { w with pend := l, arrivals := [] }) (stampOps_bare ..)
      next => rfl

theorem shareStores_core (w : Warp) (id loc : Nat) : core (w.shareStores id loc) = core w := by
  have hp : (w.shareStores id loc).pend.map bare = w.pend.map bare := by
    rw [Warp.shareStores, List.map_map]
    refine List.map_congr_left fun o _ => ?_
    rw [Function.comp_apply]
    cases hk : o.kind.isStore with
    | false => simp only [Bool.false_and, Bool.false_eq_true, if_false]
    | true => split <;> simp only [bare, hk, if_true]
  exact congrArg (fun l => { w with pend := l, arrivals := [] }) hp

theorem shareForRelease_sameCore (s : State) (slot id reach : Nat) : SameCore slot s (s.shareForRelease slot id reach) := by
  unfold State.shareForRelease
  split
  · exact (SameCore.modWarp s slot fun _ w => shareStores_core w id 1).trans (stampStores_sameCore ..)
  · refine (SameCore.foldl (fun a (y : Nat × Warp) => SameCore.modWarp a y.1 fun hy w => ?_) _ s).trans (stampStores_sameCore ..)
    rw [if_pos hy]
    exact shareStores_core w id 2
  · exact .refl slot s

end

end Sys2Proof.Results

namespace Sys2Proof.Results

open Sys2Proof.Machine Sys2Proof.Claims

/-! ### FIFO banks: O31 -/

section
variable {s t m : State} {sl : Slot} {w : Warp} {r : Regs} {b : Block} {act : Mask} {bank : Nat} {k : WaitKind}

/-- An instruction on a FIFO bank of the home block that meets room or entries moves them at once (R218). -/
theorem beginFifo_of_go (hl : w.levels = []) (hhome : w.home = sl.w) (hb : s.scrBlock w.gang w.block = some b)
    (hbank : bank < b.banks.length) (hgo : s.fifoLook w k = .go) {push : Bool} (hready : push = true → s.pushReady sl.w w = true) :
    s.beginFifo sl w r act bank k push = (s.finish sl r).fifoMove sl.w w r.gseq.toNat k := by
  have hf : bankFault s sl.w w bank 1 = none := bankFault_eq_none hl hhome hb (by decide) hbank
  have hheld : (push && !s.pushReady sl.w w) = false := by
    cases push with
    | false => rfl
    | true => rw [hready rfl]; rfl
  simp only [State.beginFifo, hf, hgo, hheld, Bool.false_eq_true, if_false]

theorem fifoLook_push {words : List Word} (hb : s.scrBlock w.gang w.block = some b) (hmode : b.modes.getD bank .scratch = .fifo)
    (hroom : (b.fifos.get bank).length + words.length ≤ 4096) : s.fifoLook w (.fifoPush bank words act) = .go := by
  simp only [State.fifoLook, hb, hmode, ne_eq, not_true_eq_false, if_false]
  exact if_pos hroom

theorem fifoLook_pop {d : Fin 256} (hb : s.scrBlock w.gang w.block = some b) (hmode : b.modes.getD bank .scratch = .fifo)
    (hfull : (lanesOf act).length ≤ (b.fifos.get bank).length) : s.fifoLook w (.fifoPop bank d act) = .go := by
  simp only [State.fifoLook, hb, hmode, ne_eq, not_true_eq_false, if_false]
  exact if_pos hfull

/-- A block whose FIFO bank has another queue. -/
def withFifo (b : Block) (bank : Nat) (f : List (Word × Bool) → List (Word × Bool)) : Block :=
  { b with fifos := b.fifos.modify bank f }

theorem fifos_withFifo (b : Block) (bank : Nat) (f : List (Word × Bool) → List (Word × Bool)) :
    (withFifo b bank f).fifos.get bank = f (b.fifos.get bank) ∧ ∀ k, k ≠ bank → (withFifo b bank f).fifos.get k = b.fifos.get k :=
  ⟨SMap.get_set_self .., fun _ hk => SMap.get_set_ne _ _ hk⟩

theorem scrBlock_withFifo (hm : SameStores s m) (hb : s.scrBlock w.gang w.block = some b)
    (f : List (Word × Bool) → List (Word × Bool)) :
    (m.modGang w.gang fun g => g.modBlock w.block fun y => withFifo y bank f).scrBlock w.gang w.block =
      some (withFifo b bank f) := by
  rw [State.scrBlock_modBlock _ _ _ _ _ (fun y => withFifo y bank f) fun _ => rfl, if_pos ⟨rfl, rfl⟩, scrBlock_of_sameStores hm, hb]
  rfl

/-- The queues of FIFO banks are no memory. -/
theorem sameMemory_withFifo (hm : SameStores s m) (f : List (Word × Bool) → List (Word × Bool)) :
    SameMemory s (m.modGang w.gang fun g => g.modBlock w.block fun y => withFifo y bank f) := by
  intro q
  cases q with
  | hbm a => exact congrArg (fun x => SMap.get x a) hm.1
  | scr g c o =>
    refine (?_ : _ = m.byte (.scr g c o)).trans (Opportunity.sameMemory_of_fields hm.1 hm.2 _)
    simp only [State.byte]
    rw [State.scrBlock_modBlock _ _ _ _ _ (fun y => withFifo y bank f) fun _ => rfl]
    split
    · rw [Option.map_map]
      rfl
    · rfl

/-! #### A push (R218) -/

theorem storeData_word (x : Rd) (a : Src) (l : Nat) : BitVec.ofNat 32 (x.storeData a 4 l) = BitVec.ofNat 32 (x.word a l) :=
  BitVec.eq_of_toNat_eq (by simp [Rd.storeData])

theorem finish_sameStores (s : State) (sl : Slot) (r : Regs) : SameStores s (s.taken.finish sl r) :=
  SameStores.modWarp ⟨rfl, rfl⟩ ..

/-- What a push waits for. -/
def pushWait (r : Regs) (sl : Slot) (i : FifoPushI) : WaitKind :=
  .fifoPush ((⟨r, 0, active r sl.grp i.g, 0⟩ : Rd).word i.bank 0)
    ((lanesOf (active r sl.grp i.g)).map fun l => BitVec.ofNat 32 ((⟨r, 0, active r sl.grp i.g, 0⟩ : Rd).storeData i.data 4 l))
    (active r sl.grp i.g)

theorem exec_fifoPush {i : FifoPushI} (h : s.Chosen sl w r) (hp : sl.proof = false) (hl : w.levels = []) (hhome : w.home = sl.w)
    (hb : s.scrBlock w.gang w.block = some b) (ha : active r sl.grp i.g ≠ 0)
    (hbank : (⟨r, 0, active r sl.grp i.g, 0⟩ : Rd).word i.bank 0 < b.banks.length)
    (hgo : s.taken.fifoLook w (pushWait r sl i) = .go) (hready : s.pushReady sl.w w = true) :
    exec (.fifoPush i) s = .next ((s.taken.finish sl r).fifoMove sl.w w r.gseq.toNat (pushWait r sl i)) := by
  rw [show exec (.fifoPush i) s = execFifoPush i s from rfl, execFifoPush, withActive_of_lanes _ h ha]
  simp only [hp, Bool.false_eq_true, if_false]
  exact congrArg _ (beginFifo_of_go hl hhome (s := s.taken) hb hbank hgo fun _ => hready)

/-! #### A pop (R218) -/

theorem exec_fifoPop {i : FifoPopI} (h : s.Chosen sl w r) (hp : sl.proof = false) (hl : w.levels = []) (hhome : w.home = sl.w)
    (hb : s.scrBlock w.gang w.block = some b) (ha : active r sl.grp i.g ≠ 0)
    (hbank : (⟨r, 0, active r sl.grp i.g, 0⟩ : Rd).word i.bank 0 < b.banks.length)
    (hgo : s.taken.fifoLook w (.fifoPop ((⟨r, 0, active r sl.grp i.g, 0⟩ : Rd).word i.bank 0) i.d (active r sl.grp i.g)) = .go) :
    exec (.fifoPop i) s = .next ((s.taken.finish sl r).fifoMove sl.w w r.gseq.toNat
      (.fifoPop ((⟨r, 0, active r sl.grp i.g, 0⟩ : Rd).word i.bank 0) i.d (active r sl.grp i.g))) := by
  rw [show exec (.fifoPop i) s = execFifoPop i s from rfl, execFifoPop, withActive_of_lanes _ h ha]
  simp only [hp, Bool.false_eq_true, if_false]
  exact congrArg _ (beginFifo_of_go hl hhome (s := s.taken) hb hbank hgo nofun)

theorem pairwise_lanesOf (m : Mask) : (lanesOf m).Pairwise (· < ·) := List.pairwise_lt_range.filter _

/-- A pair of a rising list and another holds the entry that stands behind as many as are less. -/
theorem getElem?_of_mem_zip {L : List Nat} (hL : L.Pairwise (· < ·)) {α : Type} {M : List α} {x : Nat × α} (hx : x ∈ L.zip M) :
    M[(L.filter fun m => m < x.1).length]? = some x.2 := by
  induction L generalizing M with
  | nil => cases hx
  | cons a L ih =>
    obtain ⟨hlt, hL⟩ := List.pairwise_cons.1 hL
    cases M with
    | nil => cases hx
    | cons m M =>
      rcases List.mem_cons.1 hx with rfl | hx
      · have hnone : (a :: L).filter (fun m => m < a) = [] :=
          List.filter_eq_nil_iff.2 fun b hb => by
            rcases List.mem_cons.1 hb with rfl | hb
            · simp
            · simpa using (hlt b hb).le
        rw [hnone]
        rfl
      · have ha : decide (a < x.1) = true := decide_eq_true (hlt _ (List.of_mem_zip hx).1)
        rw [List.filter_cons_of_pos (p := fun m => decide (m < x.1)) ha, List.length_cons, List.getElem?_cons_succ]
        exact ih hL hx

/-- What a pop writes: to each lane in turn the entry that it takes, poison in place of a poisoned one. -/
def popped (d gseq : Nat) (act : Mask) (q : List (Word × Bool)) : List (Nat × Word) :=
  ((lanesOf act).zip (q.take (lanesOf act).length)).map fun x =>
    (d * 32 + x.1, if x.2.2 then BitVec.ofNat 32 (Config.poisonValue gseq x.1) else x.2.1)

theorem vget_popped (y : Regs) (d gseq : Nat) {q : List (Word × Bool)} (hfull : (lanesOf act).length ≤ q.length)
    (hclean : ∀ e ∈ q, e.2 = false) (k : Nat) {l : Nat} (hl : l < 32) :
    (y.writeV (popped d gseq act q)).vget k l = if k = d ∧ lane act l = true
      then ((q[((lanesOf act).filter fun m => m < l).length]?).map Prod.fst).getD 0 else y.vget k l := by
  unfold Regs.writeV Regs.vget popped
  simp only [List.foldl_map]
  split
  next hk =>
    obtain ⟨rfl, hlane⟩ := hk
    refine SMap.get_foldl_set_eq _ _ _ _ _ _ (fun x hx he => ?_) ?_
    · obtain rfl : x.1 = l := by omega
      have hget := getElem?_of_mem_zip (pairwise_lanesOf act) hx
      rw [List.getElem?_take] at hget
      split at hget
      next => rw [hget, hclean x.2 (List.mem_of_getElem? hget)]; rfl
      next => cases hget
    · have hmem : l ∈ ((lanesOf act).zip (q.take (lanesOf act).length)).map Prod.fst := by
        rw [List.map_fst_zip (by simp [hfull])]
        exact mem_lanesOf.2 ⟨hl, hlane⟩
      obtain ⟨x, hx, rfl⟩ := List.mem_map.1 hmem
      exact ⟨x, hx, rfl⟩
  next hk =>
    refine SMap.get_foldl_set_ne _ _ _ _ _ fun x hx he => hk ?_
    obtain ⟨hlt, hlane⟩ := mem_lanesOf.1 (List.of_mem_zip hx).1
    obtain ⟨rfl, rfl⟩ : k = d ∧ l = x.1 := by omega
    exact ⟨rfl, hlane⟩

/-- A pop of entries without poison, spelled out. -/
theorem fifoMove_pop {d : Fin 256} {gseq : Nat} (slot : Nat) (hb : s.scrBlock w.gang w.block = some b)
    (hclean : ∀ e ∈ b.fifos.get bank, e.2 = false) :
    s.fifoMove slot w gseq (.fifoPop bank d act) =
      (((s.modGang w.gang fun g => g.modBlock w.block fun y =>
          withFifo y bank fun q => q.drop (lanesOf act).length).modWarp slot fun y =>
        ({ y with r := y.r.writeV (popped d.val gseq act (b.fifos.get bank)) }).giveValues gseq
          ⟨popped d.val gseq act (b.fifos.get bank), [], [], []⟩).acquire slot (s.reach w .block)) := by
  have hgood : ((b.fifos.get bank).take (lanesOf act).length).any Prod.snd = false :=
    List.any_eq_false.2 fun e he => by rw [hclean e (List.mem_of_mem_take he)]; exact Bool.false_ne_true
  unfold State.fifoMove
  simp only [hb, Option.map_some, Option.getD_some, countOf, hgood, Bool.false_eq_true, if_false]
  rfl

end

/-- Settles O31: room or entries let the instruction move at once (`beginFifo_of_go`), and the move changes the bank's queue
(`scrBlock_withFifo`); a pop's lanes take the entries in their order (`vget_popped`). -/
theorem fifoMovesEntries : Obligations.FifoMovesEntries := by
  intro s sl w r b h hp hl hhome hb
  obtain ⟨p, hfin⟩ := warp_finish_of_leader (s := s.taken) h.warp hp r
  have hstores := finish_sameStores s sl r
  constructor
  · intro i act bank ha hbank hmode hroom hready
    have hgo : s.taken.fifoLook w (pushWait r sl i) = .go := fifoLook_push (s := s.taken) hb hmode (by rwa [List.length_map])
    have hshared := hstores.trans (shareForRelease_sameStores (s.taken.finish sl r) sl.w (s.taken.finish sl r).opSeq
      ((s.taken.finish sl r).reach w .block))
    obtain ⟨w', hw', hcore⟩ := (shareForRelease_sameCore (s.taken.finish sl r) sl.w (s.taken.finish sl r).opSeq
      ((s.taken.finish sl r).reach w .block)).warp hfin
    obtain ⟨hsame, hothers⟩ := fifos_withFifo b bank fun q => q ++
      ((lanesOf act).map fun l => BitVec.ofNat 32 ((⟨r, 0, act, 0⟩ : Rd).storeData i.data 4 l)).map fun x => (x, false)
    refine ⟨_, _, exec_fifoPush h hp hl hhome hb ha hbank hgo hready, scrBlock_withFifo hshared hb _, ?_, hothers,
      sameMemory_withFifo hshared _, w', hw', ?_⟩
    · rw [hsame, List.map_map]
      exact congrArg _ (List.map_congr_left fun l _ => congrArg (·, false) (storeData_word ..))
    · rw [regs_of_core hcore]
      exact passed_setPc r sl
  · intro i act bank ha hbank hmode hfull hclean
    have hgo := fifoLook_pop (s := s.taken) (d := i.d) hb hmode hfull
    have he := exec_fifoPop h hp hl hhome hb ha hbank hgo
    rw [fifoMove_pop sl.w ((scrBlock_of_sameStores hstores ..).trans hb) hclean] at he
    obtain ⟨hsame, hothers⟩ := fifos_withFifo b bank fun q => q.drop (lanesOf act).length
    have hmoved (m : State) (f : Warp → Warp) (reach : Nat) : SameStores m ((m.modWarp sl.w f).acquire sl.w reach) :=
      (SameStores.modWarp ⟨rfl, rfl⟩ ..).trans (acquire_sameStores ..)
    refine ⟨_, _, _, he, (scrBlock_of_sameStores (hmoved ..) ..).trans (scrBlock_withFifo hstores hb _), hsame, hothers,
      fun q => (Opportunity.sameMemory_of_fields (hmoved ..).1 (hmoved ..).2 q).trans (sameMemory_withFifo hstores _ q),
      ((acquire_looked ..).warp _).trans (warp_modWarp_of_some (t := (s.taken.finish sl r).modGang w.gang _) hfin _),
      ⟨(passed_setPc r sl).pcs.pcs, rfl⟩, fun k l hlt => vget_popped _ _ _ hfull hclean k hlt⟩

end Sys2Proof.Results

namespace Sys2Proof.Results

open Sys2Proof.Machine Sys2Proof.Claims

/-! ### The galley of a region (R397) -/

section
variable {lv : Level} {gs : Bool} {id a : Nat} {strong : Option (Ord × Scope)} {h : Held} {l A B : List Held}

/-! #### The newest byte among the entries of a galley -/

/-- The byte that an entry holds for an address. -/
def heldAt (gs : Bool) (a : Nat) (h : Held) : Option Byte :=
  if h.gs = gs ∧ h.block = a / 64 then (h.bytes.find? fun b => b.1 == a % 64).map Prod.snd else none

/-- The byte of the newest entry that holds one for an address. -/
def newest (gs : Bool) (a : Nat) (l : List Held) : Option Byte := l.reverse.findSome? (heldAt gs a)

theorem newest_append (l1 l2 : List Held) : newest gs a (l1 ++ l2) = (newest gs a l2).or (newest gs a l1) := by
  rw [newest, List.reverse_append, List.findSome?_append]
  rfl

theorem newest_singleton (h : Held) : newest gs a [h] = heldAt gs a h := by
  unfold newest
  rw [List.reverse_singleton, List.findSome?_singleton]

theorem heldByte_eq (lv : Level) (gs : Bool) (a : Nat) :
    lv.heldByte (fun _ => true) gs (a / 64) (a % 64) = newest gs a lv.held := by
  have hstep (l : List Held) : ∀ acc : Option Byte, l.foldl (fun acc h =>
      if (fun _ => true) h = true ∧ h.gs = gs ∧ h.block = a / 64 then
        (match h.bytes.find? fun b => b.1 == a % 64 with
          | some b => some b.2
          | none => acc)
      else acc) acc = (newest gs a l).or acc := by
    induction l with
    | nil => exact fun _ => rfl
    | cons h l ih =>
      intro acc
      rw [List.foldl_cons, ih, ← List.singleton_append, newest_append, newest_singleton, Option.or_assoc]
      congr 1
      unfold heldAt
      simp only [true_and]
      split
      · cases h.bytes.find? fun b => b.1 == a % 64 <;> rfl
      · rfl
  exact (hstep lv.held none).trans (Option.or_none ..)

/-! #### Where one byte goes -/

/-- An entry with another byte at an offset. -/
def withByte (a : Nat) (b : Byte) (h : Held) : Held :=
  { h with bytes := h.bytes.filter (fun y => y.1 != a % 64) ++ [(a % 64, b)], bad := h.bad.filter fun y => y != a % 64 }

/-- The entry that takes a byte: the block's shared one, or a strong store's own. -/
def target (lv : Level) (id : Nat) (gs : Bool) (strong : Option (Ord × Scope)) (a : Nat) : Option Held :=
  if strong.isSome then lv.held.find? fun h => h.gs == gs && h.block == a / 64 && h.id == id && h.strong.isSome
  else lv.shared gs (a / 64) [a % 64]

theorem holdByte_of_some (ht : target lv id gs strong a = some h) (b : Byte) :
    lv.holdByte id gs strong a b = { lv with held := lv.held.map fun x => if x = h then withByte a b x else x } := by
  unfold target at ht
  simp only [Level.holdByte, ht]
  rfl

theorem holdByte_of_none (ht : target lv id gs strong a = none) (b : Byte) :
    lv.holdByte id gs strong a b = { lv with held := lv.held ++ [⟨id, gs, a / 64, [(a % 64, b)], [], strong⟩] } := by
  unfold target at ht
  simp only [Level.holdByte, ht]

theorem heldAt_withByte_self {b : Byte} (hg : h.gs = gs) (hb : h.block = a / 64) : heldAt gs a (withByte a b h) = some b := by
  have hnone : (h.bytes.filter fun y => y.1 != a % 64).find? (fun y => y.1 == a % 64) = none :=
    List.find?_eq_none.2 fun y hy => by simpa using (List.mem_filter.1 hy).2
  unfold heldAt
  rw [if_pos ⟨hg, hb⟩]
  simp [withByte, List.find?_append, hnone]

theorem heldAt_withByte_ne {a' : Nat} {b : Byte} (hb : h.block = a / 64) (hne : a' ≠ a) :
    heldAt gs a' (withByte a b h) = heldAt gs a' h := by
  unfold heldAt
  refine if_ctx_congr Iff.rfl (fun hc => ?_) fun _ => rfl
  have hoff : a' % 64 ≠ a % 64 := fun he => hne (by have := hc.2.symm.trans hb; omega)
  have hlast : ((a % 64 : Nat) == a' % 64) = false := beq_eq_false_iff_ne.2 hoff.symm
  congr 1
  simp only [withByte, List.find?_append, List.find?_filter, List.find?_cons, hlast, List.find?_nil, Option.or_none]
  congr 1
  funext y
  by_cases hy : y.1 = a' % 64
  · simp [hy, hoff]
  · simp [hy]

/-- A fresh entry of one byte. -/
theorem heldAt_fresh {a' : Nat} (b : Byte) (strong : Option (Ord × Scope)) :
    heldAt gs a' ⟨id, gs, a / 64, [(a % 64, b)], [], strong⟩ = if a' = a then some b else none := by
  unfold heldAt
  by_cases he : a' = a
  · subst he
    simp
  · rw [if_neg he]
    split
    next hc =>
      have hoff : ¬a % 64 = a' % 64 := fun h => he (by have := hc.2; dsimp only at this; omega)
      simp [hoff]
    next => rfl

/-! #### No newer entry than the one that takes it holds the byte -/

/-- h is an entry that no newer one holds a byte of this address behind. -/
def Uppermost (l : List Held) (gs : Bool) (a : Nat) (h : Held) : Prop :=
  h.gs = gs ∧ h.block = a / 64 ∧ ∃ A B, l = A ++ h :: B ∧ ∀ x ∈ B, heldAt gs a x = none

theorem heldAt_eq_none (hx : ∀ b ∈ h.bytes, b.1 ≠ a % 64) : heldAt gs a h = none := by
  have hnone : h.bytes.find? (fun b => b.1 == a % 64) = none := List.find?_eq_none.2 fun b hb => by simpa using hx b hb
  unfold heldAt
  rw [hnone]
  exact ite_self _

theorem uppermost_shared (hs : lv.shared gs (a / 64) [a % 64] = some h) : Uppermost lv.held gs a h := by
  unfold Level.shared at hs
  dsimp only at hs
  split at hs
  next => cases hs
  next hyoung =>
    obtain ⟨hplain, newer, older, hsplit, hstrong⟩ := List.find?_eq_some_iff_append.1 hs
    have htake : (((lv.held.filter fun x => x.gs == gs && x.block == a / 64).reverse).takeWhile fun x => x.strong.isSome) = newer := by
      rw [hsplit, List.takeWhile_append_of_pos fun x hx => by simpa using hstrong x hx, List.takeWhile_cons_of_neg (by simpa using hplain),
        List.append_nil]
    rw [htake] at hyoung
    have hlist := congrArg List.reverse hsplit
    rw [List.reverse_reverse, List.reverse_append, List.reverse_cons, List.append_assoc, List.singleton_append] at hlist
    obtain ⟨A, C, hheld, hA, hC⟩ := List.filter_eq_append_iff.1 hlist
    obtain ⟨D, B, hD, hnot, hh, hB⟩ := List.filter_eq_cons_iff.1 hC
    obtain ⟨hg, hb⟩ : h.gs = gs ∧ h.block = a / 64 := by simpa using hh
    refine ⟨hg, hb, A ++ D, B, by rw [hheld, hD, List.append_assoc], fun x hx => ?_⟩
    by_cases hP : (x.gs == gs && x.block == a / 64) = true
    · have hmem : x ∈ newer := by
        rw [← List.mem_reverse, ← hB]
        exact List.mem_filter.2 ⟨hx, hP⟩
      refine heldAt_eq_none fun b hb he => hyoung ?_
      exact List.any_eq_true.2 ⟨x, hmem, List.any_eq_true.2 ⟨b, hb, by simp [he]⟩⟩
    · exact if_neg (by simpa using hP)

/-- An operation's own entries are strong and no newer entry is of the block of one of them. -/
def OwnEntries (id : Nat) (l : List Held) : Prop :=
  (∀ h ∈ l, h.id = id → h.strong.isSome) ∧ l.Pairwise fun h x => h.id = id → ¬(x.gs = h.gs ∧ x.block = h.block)

theorem uppermost_own (ho : OwnEntries id lv.held)
    (hs : lv.held.find? (fun h => h.gs == gs && h.block == a / 64 && h.id == id && h.strong.isSome) = some h) :
    Uppermost lv.held gs a h := by
  obtain ⟨hh, A, B, hheld, -⟩ := List.find?_eq_some_iff_append.1 hs
  obtain ⟨⟨⟨hg, hb⟩, hid⟩, -⟩ : ((h.gs = gs ∧ h.block = a / 64) ∧ h.id = id) ∧ h.strong.isSome = true := by simpa using hh
  have hpair := ho.2
  rw [hheld] at hpair
  refine ⟨hg, hb, A, B, hheld, fun x hx => if_neg fun hc => ?_⟩
  exact (List.pairwise_cons.1 (List.pairwise_append.1 hpair).2.1).1 x hx hid ⟨hc.1.trans hg.symm, hc.2.trans hb.symm⟩

/-- A strong store's entries are its own. -/
def Fits (id : Nat) (strong : Option (Ord × Scope)) (l : List Held) : Prop := strong.isSome = true → OwnEntries id l

theorem uppermost_target (hf : Fits id strong lv.held) (hs : target lv id gs strong a = some h) : Uppermost lv.held gs a h := by
  unfold target at hs
  split at hs
  next hstrong => exact uppermost_own (hf hstrong) hs
  next => exact uppermost_shared hs

/-! #### What one byte changes -/

theorem newest_map {a' : Nat} {f : Held → Held} (hf : ∀ x ∈ l, heldAt gs a' (f x) = heldAt gs a' x) :
    newest gs a' (l.map f) = newest gs a' l := by
  induction l with
  | nil => rfl
  | cons h l ih =>
    rw [List.map_cons, ← List.singleton_append, ← List.singleton_append (l := l), newest_append, newest_append, newest_singleton,
      newest_singleton, hf h List.mem_cons_self, ih fun x hx => hf x (List.mem_cons_of_mem _ hx)]

/-- The uppermost entry gives the byte written into it, wherever else the same entry stands. -/
theorem newest_withByte_self (hu : Uppermost l gs a h) (b : Byte) :
    newest gs a (l.map fun x => if x = h then withByte a b x else x) = some b := by
  obtain ⟨hg, hb, A, B, rfl, hB⟩ := hu
  have hself : heldAt gs a (if h = h then withByte a b h else h) = some b := by
    rw [if_pos rfl]
    exact heldAt_withByte_self hg hb
  rw [List.map_append, List.map_cons, ← List.singleton_append, newest_append, newest_append, newest_singleton, hself]
  cases hlater : newest gs a (B.map fun x => if x = h then withByte a b x else x) with
  | none => rfl
  | some c =>
    obtain ⟨x, hx, hc⟩ := List.exists_of_findSome?_eq_some hlater
    obtain ⟨y, hy, rfl⟩ := List.mem_map.1 (List.mem_reverse.1 hx)
    split at hc
    next he =>
      rw [he, heldAt_withByte_self hg hb] at hc
      rw [← hc]
      rfl
    next =>
      rw [hB y hy] at hc
      cases hc

theorem newest_withByte_ne {a' : Nat} (hb : h.block = a / 64) (hne : a' ≠ a) (b : Byte) :
    newest gs a' (l.map fun x => if x = h then withByte a b x else x) = newest gs a' l := by
  refine newest_map fun x _ => ?_
  split
  next he => exact heldAt_withByte_ne (he ▸ hb) hne
  next => rfl

/-- A level after a byte of a store is held there: its newest byte, and room for an entry more (R397). -/
theorem newest_holdByte (hf : Fits id strong lv.held) (a' : Nat) (b : Byte) :
    newest gs a' (lv.holdByte id gs strong a b).held = if a' = a then some b else newest gs a' lv.held := by
  cases ht : target lv id gs strong a with
  | none =>
    rw [holdByte_of_none ht, newest_append, newest_singleton, heldAt_fresh]
    split <;> rfl
  | some h =>
    have hu := uppermost_target hf ht
    rw [holdByte_of_some ht]
    split
    next he => subst he; exact newest_withByte_self hu b
    next hne => exact newest_withByte_ne hu.2.1 hne b

theorem fits_holdByte (hf : Fits id strong lv.held) (b : Byte) : Fits id strong (lv.holdByte id gs strong a b).held := by
  intro hs
  obtain ⟨hstrong, hpair⟩ := hf hs
  cases ht : target lv id gs strong a with
  | none =>
    rw [holdByte_of_none ht]
    refine ⟨fun x hx hid => ?_, List.pairwise_append.2 ⟨hpair, List.pairwise_singleton .., fun x hx y hy hid hc => ?_⟩⟩
    · rcases List.mem_append.1 hx with hx | hx
      · exact hstrong x hx hid
      · rw [List.mem_singleton.1 hx]
        exact hs
    · rw [List.mem_singleton.1 hy] at hc
      unfold target at ht
      rw [if_pos hs] at ht
      refine List.find?_eq_none.1 ht x hx ?_
      simp [hid, ← hc.1, ← hc.2, hstrong x hx hid]
  | some h =>
    rw [holdByte_of_some ht]
    have hkeeps (x : Held) : (if x = h then withByte a b x else x).id = x.id ∧ (if x = h then withByte a b x else x).gs = x.gs ∧
        (if x = h then withByte a b x else x).block = x.block ∧ (if x = h then withByte a b x else x).strong = x.strong := by
      split <;> exact ⟨rfl, rfl, rfl, rfl⟩
    refine ⟨fun x hx hid => ?_, List.pairwise_map.2 (hpair.imp fun {x y} hxy hid hc => ?_)⟩
    · obtain ⟨y, hy, rfl⟩ := List.mem_map.1 hx
      rw [(hkeeps y).1] at hid
      rw [(hkeeps y).2.2.2]
      exact hstrong y hy hid
    · rw [(hkeeps x).1] at hid
      rw [(hkeeps x).2.1, (hkeeps y).2.1, (hkeeps x).2.2.1, (hkeeps y).2.2.1] at hc
      exact hxy hid hc

/-- A level that holds at most n entries more than another, and differs in nothing else. -/
def HoldsMore (n : Nat) (lv lv' : Level) : Prop := lv' = { lv with held := lv'.held } ∧ lv'.held.length ≤ lv.held.length + n

theorem HoldsMore.trans {m n : Nat} {l1 l2 l3 : Level} (h : HoldsMore m l1 l2) (g : HoldsMore n l2 l3) :
    HoldsMore (m + n) l1 l3 := by
  refine ⟨?_, by have := h.2; have := g.2; omega⟩
  rw [g.1, h.1]

theorem holdsMore_holdByte (b : Byte) : HoldsMore 1 lv (lv.holdByte id gs strong a b) := by
  cases ht : target lv id gs strong a with
  | none =>
    rw [holdByte_of_none ht]
    exact ⟨rfl, (List.length_append ..).le⟩
  | some h =>
    rw [holdByte_of_some ht]
    exact ⟨rfl, by rw [List.length_map]; omega⟩

/-! #### The bytes of a store and of its lanes -/

/-- Hold the bytes of a part, those from number k on. -/
def holdFrom (id : Nat) (gs : Bool) (strong : Option (Ord × Scope)) (va : Nat) (lv : Level) (l : List Byte) (k : Nat) : Level :=
  (l.zipIdx k).foldl (fun y x => y.holdByte id gs strong (va + x.2) x.1) lv

theorem holdFrom_cons (va : Nat) (b : Byte) (l : List Byte) (k : Nat) :
    holdFrom id gs strong va lv (b :: l) k = holdFrom id gs strong va (lv.holdByte id gs strong (va + k) b) l (k + 1) := rfl

theorem newest_holdFrom (va : Nat) (l : List Byte) : ∀ (k : Nat) (lv : Level), Fits id strong lv.held →
    newest gs a (holdFrom id gs strong va lv l k).held =
      if va + k ≤ a then (l[a - (va + k)]?).or (newest gs a lv.held) else newest gs a lv.held := by
  induction l with
  | nil => exact fun _ _ _ => by rw [List.getElem?_nil, Option.none_or, ite_self]; rfl
  | cons b l ih =>
    intro k lv hf
    rw [holdFrom_cons, ih _ _ (fits_holdByte hf b), newest_holdByte hf]
    rcases Nat.lt_trichotomy a (va + k) with hlt | rfl | hgt
    · rw [if_neg (by omega), if_neg (by omega), if_neg (by omega)]
    · rw [if_neg (by omega), if_pos rfl, if_pos le_rfl, Nat.sub_self]
      rfl
    · rw [if_pos (by omega), if_neg (by omega), if_pos hgt.le, show a - (va + k) = a - (va + (k + 1)) + 1 by omega,
        List.getElem?_cons_succ]

theorem fits_holdFrom (va : Nat) (l : List Byte) : ∀ (k : Nat) (lv : Level), Fits id strong lv.held →
    Fits id strong (holdFrom id gs strong va lv l k).held := by
  induction l with
  | nil => exact fun _ _ hf => hf
  | cons b l ih => exact fun k lv hf => ih _ _ (fits_holdByte hf b)

theorem holdsMore_holdFrom (va : Nat) (l : List Byte) : ∀ (k : Nat) (lv : Level),
    HoldsMore l.length lv (holdFrom id gs strong va lv l k) := by
  induction l with
  | nil => exact fun _ _ => ⟨rfl, le_rfl⟩
  | cons b l ih =>
    intro k lv
    rw [holdFrom_cons, List.length_cons, Nat.add_comm]
    exact (holdsMore_holdByte b).trans (ih _ _)

theorem hold_cons (p : Piece) (l : List Piece) : lv.hold id gs strong (p :: l) =
    (holdFrom id gs strong p.va.toNat lv (leBytes p.data p.size) 0).hold id gs strong l := rfl

/-- The byte of a part at an address that it covers. -/
def partByte (p : Piece) (a : Nat) : Option Byte :=
  if p.va.toNat ≤ a ∧ a < p.va.toNat + p.size then some (BitVec.ofNat 8 (p.data / 2 ^ (8 * (a - p.va.toNat)))) else none

theorem newest_holdPart (hf : Fits id strong lv.held) (p : Piece) :
    newest gs a (holdFrom id gs strong p.va.toNat lv (leBytes p.data p.size) 0).held = (partByte p a).or (newest gs a lv.held) := by
  rw [newest_holdFrom _ _ _ _ hf, Nat.add_zero]
  unfold partByte
  by_cases hle : p.va.toNat ≤ a
  · rw [if_pos hle]
    by_cases hlt : a < p.va.toNat + p.size
    · have hin : a - p.va.toNat < (leBytes p.data p.size).length := by rw [leBytes_length]; omega
      rw [if_pos ⟨hle, hlt⟩, List.getElem?_eq_getElem hin, leBytes_get]
    · rw [if_neg (fun h => hlt h.2), List.getElem?_eq_none (by rw [leBytes_length]; omega)]
  · rw [if_neg hle, if_neg fun h => hle h.1]
    rfl

theorem newest_hold (l : List Piece) : ∀ lv : Level, Fits id strong lv.held →
    newest gs a (lv.hold id gs strong l).held = (l.reverse.findSome? fun p => partByte p a).or (newest gs a lv.held) := by
  induction l with
  | nil => exact fun _ _ => rfl
  | cons p l ih =>
    intro lv hf
    rw [hold_cons, ih _ (fits_holdFrom _ _ _ _ hf), newest_holdPart hf, List.reverse_cons, List.findSome?_append, List.findSome?_singleton,
      Option.or_assoc]

theorem holdsMore_hold {c : Nat} (l : List Piece) (hc : ∀ p ∈ l, p.size ≤ c) : ∀ lv : Level,
    HoldsMore (c * l.length) lv (lv.hold id gs strong l) := by
  induction l with
  | nil => exact fun _ => ⟨rfl, Nat.le_add_right ..⟩
  | cons p l ih =>
    intro lv
    have hpart := (holdsMore_holdFrom (id := id) (gs := gs) (strong := strong) p.va.toNat (leBytes p.data p.size) 0 lv).trans
      (ih (fun q hq => hc q (List.mem_cons_of_mem _ hq)) _)
    refine ⟨hpart.1, hpart.2.trans ?_⟩
    have := hc p List.mem_cons_self
    rw [leBytes_length, List.length_cons, Nat.mul_succ]
    omega

theorem findSome?_partByte (l : List Piece) :
    (l.findSome? fun p => partByte p a) =
      (l.find? fun p => decide (p.va.toNat ≤ a ∧ a < p.va.toNat + p.size)).map fun p =>
        BitVec.ofNat 8 (p.data / 2 ^ (8 * (a - p.va.toNat))) := by
  induction l with
  | nil => rfl
  | cons p l ih =>
    rw [List.findSome?_cons, List.find?_cons]
    by_cases hc : p.va.toNat ≤ a ∧ a < p.va.toNat + p.size
    · rw [partByte, if_pos hc, decide_eq_true hc]
      rfl
    · rw [partByte, if_neg hc, decide_eq_false hc, ← ih]

/-- A level that has held the parts of a store gives their bytes, of the highest lane where lanes overlap (R186, R397). -/
theorem holdsBytes_hold (hf : Fits id strong lv.held) (l : List Piece) : HoldsBytes lv (lv.hold id gs strong l) gs l := by
  intro a
  rw [heldByte_eq, heldByte_eq, newest_hold l lv hf, findSome?_partByte]
  cases l.reverse.find? fun p => decide (p.va.toNat ≤ a ∧ a < p.va.toNat + p.size) <;> rfl

/-- Every entry is of an earlier operation: none is the operation's own. -/
theorem fits_of_earlier (h : ∀ h ∈ lv.held, h.id < id) : Fits id strong lv.held := by
  refine fun _ => ⟨fun x hx he => absurd (h x hx) (by omega), List.Pairwise.imp_of_mem (R := fun _ _ => True) (fun hx _ _ he => ?_)
    (List.pairwise_of_forall fun _ _ => trivial)⟩
  exact absurd (h _ hx) (by omega)

end

end Sys2Proof.Results

namespace Sys2Proof.Results

open Sys2Proof.Machine Sys2Proof.Claims

/-! ### Accesses inside regions are kept: O14 -/

section
variable {s m s1 : State} {sl : Slot} {w : Warp} {r : Regs} {act : Mask} {q : MemReq} {i : Instr} {op : MemOp} {sp : Space} {k : Keep}
  {parts : List Part} {lv : Level} {rest : List Level} {l : List (Nat × Int)} {slot size kind : Nat} {n : Need}

theorem withLag_of_alone (h : w.proof = none) : w.withLag = w := by
  rw [Warp.withLag, h]

theorem takeKept_galley (hl : w.levels = lv :: rest) (gs : Bool) : w.takeKept (.galley gs) op =
    { w with levels := lv.hold op.id gs (if op.ord = .plain then none else some (op.ord, op.scope)) op.pieces :: rest } := by
  simp only [Warp.takeKept, Warp.modInner, hl]

theorem takeKept_defer (hl : w.levels = lv :: rest) :
    w.takeKept .defer op = { w with levels := { lv with deferred := lv.deferred ++ [.mem op] } :: rest } := by
  simp only [Warp.takeKept, Warp.modInner, hl]

/-- Kept work of a leader without a proof warp takes its place at once. -/
theorem keepWork_of_alone (hn : w.proof = none) (hp : sl.proof = false) (hout : s.SameOutside m sl.w) :
    ∃ p, s.SameOutside (m.keepWork sl w r act op k) sl.w ∧ (m.keepWork sl w r act op k).warp sl.w =
      some { w.takeKept k op with r := { r.setPc sl.grp sl.after with gseq := r.gseq + 1 }, proof := p } := by
  have hkeep : m.keepWork sl w r act op k = (m.setWarp sl.w (w.takeKept k op)).finish sl r := by
    rw [State.keepWork, hn]
    rfl
  obtain ⟨p, hfin⟩ := warp_finish_of_leader (s := m.setWarp sl.w (w.takeKept k op)) (State.warp_setWarp_self ..) hp r
  rw [hkeep]
  exact ⟨p, sameOutside_modWarp (sameOutside_setWarp hout _) _, hfin⟩

/-- An instruction whose operation goes to the innermost level's galley or queue. -/
theorem keptByRegion_of_keepWork {c : Regs} {f : Level → Level → Prop} {lv' : Level}
    (he : exec i s = .next (m.keepWork sl w c act op k)) (hn : w.proof = none) (hp : sl.proof = false)
    (hout : s.SameOutside m sl.w) (hl : w.levels = lv :: rest) (hc : c = { r with bankconf := c.bankconf })
    (ht : w.takeKept k op = { w with levels := lv' :: rest }) (hf : f lv lv') : KeptByRegion i s sl w r f := by
  obtain ⟨p, hkept, hw⟩ := keepWork_of_alone (r := c) (act := act) (op := op) (k := k) hn hp hout
  rw [ht] at hw
  refine ⟨_, _, lv, lv', rest, he, hkept, hw, hl, rfl, hf, rfl, ?_, ?_⟩
  · rw [hc]
    exact advanced_setPc r sl _
  · rw [hc]
    rfl

theorem dispatchOp_of_store (hl : w.levels ≠ []) (hk : op.kind = .store) (hs : sp ≠ .block) :
    m.dispatchOp sl w r act sp op = m.holdStore sl w r act sp op := by
  have hheld : (!w.levels.isEmpty && op.kind.isStore && sp != .block) = true := by
    rw [hk]
    simp [hl, hs, OpKind.isStore]
  rw [State.dispatchOp, if_pos hheld]

theorem dispatchOp_of_deferred (hl : w.levels ≠ []) (hk : op.kind.deferred = true) :
    m.dispatchOp sl w r act sp op = m.deferOp sl w r act op := by
  have hstore : op.kind.isStore = false := by
    cases h : op.kind <;> simp [h, OpKind.deferred, OpKind.isStore] at hk ⊢
  have hempty : w.levels.isEmpty = false := by simpa using hl
  rw [State.dispatchOp, hstore, hk, hempty]
  rfl

theorem allowed_of_deferred {kd : OpKind} (h : kd.deferred = true) : kd.forbidden = false ∧ kd.isLoad = false := by
  unfold OpKind.deferred at h
  split at h
  case h_5 => cases h
  all_goals exact ⟨rfl, rfl⟩

/-! #### The room in the galley -/

theorem foldl_used_le {c : Nat} (l : List Level) : ∀ {x y : Nat}, x ≤ y + c →
    l.foldl (fun a lv => a + lv.used) x ≤ l.foldl (fun a lv => a + lv.used) y + c := by
  induction l with
  | nil => exact id
  | cons lv l ih => exact fun h => ih (by dsimp only; omega)

theorem galleyUsed_of_holdsMore {c : Nat} {lv' : Level} (hl : w.levels = lv :: rest) (h : HoldsMore c lv lv') :
    ({ w with levels := lv' :: rest } : Warp).galleyUsed ≤ w.galleyUsed + c := by
  have hused : lv'.used ≤ lv.used + c := by
    have hle := h.2
    rw [h.1]
    simp only [Level.used, Level.scalarEntries]
    omega
  unfold Warp.galleyUsed
  rw [hl]
  exact foldl_used_le rest (by dsimp only; omega)

/-! #### Parts are no larger than their access -/

theorem translateAll_sizes {c : Nat} (u ctx : Nat) (n : Need) (kind : Nat) (l : List (Nat × DWord × Nat))
    (hl : ∀ x ∈ l, x.2.2 ≤ c) : ∀ (s : State) {parts : List Part} {s1 : State},
    s.translateAll u ctx n kind l = (.ok parts, s1) → ∀ p ∈ parts, p.size ≤ c := by
  induction l with
  | nil =>
    intro s parts s1 h p hp
    cases h
    cases hp
  | cons x l ih =>
    intro s parts s1 h p hp
    unfold State.translateAll at h
    split at h
    · cases h
    · cases h
    · split at h
      · cases h
      · split at h
        next => cases h
        next hrest =>
          cases h
          rcases List.mem_cons.1 hp with rfl | hp
          · exact hl x List.mem_cons_self
          · exact ih (fun y hy => hl y (List.mem_cons_of_mem _ hy)) _ hrest p hp

theorem globalParts_sizes (w : Warp) (sp : Space) (lane : Nat) (ea : Int) (size : Nat) :
    ∀ x ∈ globalParts w sp lane ea size, x.2.2 ≤ size := by
  intro x hx
  unfold globalParts at hx
  split at hx
  · obtain ⟨k, -, rfl⟩ := List.mem_map.1 hx
    exact Nat.min_le_left ..
  · obtain ⟨k, -, rfl⟩ := List.mem_map.1 hx
    exact Nat.min_le_left ..
  · rw [List.mem_singleton.1 hx]

theorem access_sizes (hx : s.access slot w sp size n kind l = (.ok parts, s1)) : ∀ p ∈ parts, p.size ≤ size := by
  unfold State.access at hx
  dsimp only at hx
  split at hx
  · cases hx
  · split at hx
    · cases hx
    · split at hx
      · cases hx
      · split at hx
        · cases hx
          intro p hp
          obtain ⟨x, -, rfl⟩ := List.mem_map.1 hp
          exact le_rfl
        · refine translateAll_sizes _ _ _ _ _ (fun x hx => ?_) _ hx
          obtain ⟨y, -, hy⟩ := List.mem_flatMap.1 hx
          exact globalParts_sizes _ _ _ _ _ x hy

theorem size_le_of_store (hi : memReq i = some q) (hk : q.kind = .store) : q.size ≤ 16 := by
  have hbytes (b : MW) : mwBytes b ≤ 16 := by cases b <;> decide
  cases i with
  | st _ | sts _ | stgs _ | stl _ =>
    cases hi
    exact hbytes _
  | jsave _ =>
    cases hi
    exact le_rfl
  | ld _ | lds _ | ldgs _ | ldl _ | ldk _ | atom _ | atoms _ | red _ | reds _ | cas _ | cass _ | signal _ =>
    cases hi
    cases hk
  | _ => cases hi

theorem pieces_sizes {c : Nat} (q : MemReq) (x : Rd) (w : Warp) (h : ∀ p ∈ parts, p.size ≤ c) :
    ∀ p ∈ q.pieces x w parts, p.size ≤ c := by
  intro p hp
  obtain ⟨y, hy, rfl⟩ := List.mem_map.1 hp
  exact h _ (List.fst_mem_of_mem_zipIdx hy)

theorem length_pieces (q : MemReq) (x : Rd) (w : Warp) (parts : List Part) : (q.pieces x w parts).length = parts.length := by
  rw [MemReq.pieces, List.length_map, List.length_zipIdx]

/-! #### Stores and deferred atomics -/

theorem storesInsideRegionAreHeld : StoresInsideRegionAreHeld := by
  intro s sl w r i q parts s1 h hi ha hp hn hl hk hs hx hroom hearlier
  obtain ⟨lv, rest, hlv⟩ := List.exists_cons_of_ne_nil hl
  have hforbid : q.kind.forbidden = false := by rw [hk]; rfl
  have hclean : q.kind.isLoad = true → ForwardsClean w q r (active r sl.grp q.g) parts := by rw [hk]; nofun
  have hmore := holdsMore_hold (id := s1.opSeq) (gs := decide (q.sp = .gang))
    (strong := if q.ord = .plain then none else some (q.ord, effectiveScope q.sp q.scope)) _
    (pieces_sizes q ⟨r, 0, active r sl.grp q.g, 0⟩ w fun p hp => (access_sizes hx p hp).trans (size_le_of_store hi hk)) lv
  rw [length_pieces] at hmore
  have hused := galleyUsed_of_holdsMore hlv hmore
  have he : exec i s = .next (s.taken.leadMemory sl w r (active r sl.grp q.g) q) := by
    rw [Access.exec_eq_memory hi, Access.memory_of_leader h ha hp]
  rw [leadMemory_of_checks (.inr hforbid) hx hclean, dispatchOp_of_store hl hk hs] at he
  have hfits : ¬Config.galleyEntries < (w.withLag.takeKept (.galley (decide (q.sp = .gang)))
      (q.op sl w r (active r sl.grp q.g) s1.opSeq (q.pieces ⟨r, 0, active r sl.grp q.g, 0⟩ w parts)
        (parts.all Part.cached))).galleyUsed := by
    rw [withLag_of_alone hn, takeKept_galley hlv]
    exact Nat.not_lt.2 (hused.trans hroom)
  rw [State.holdStore, if_neg hfits] at he
  refine keptByRegion_of_keepWork he hn hp (sameOutside_opSeq (sameOutside_of_checks hx).1 (s1.opSeq + 1)) hlv rfl (takeKept_galley hlv _)
    ⟨holdsBytes_hold (fits_of_earlier (hearlier lv (hlv ▸ List.mem_cons_self))) _, ?_, hmore.1⟩
  exact (congrArg Level.deferred hmore.1 :)

theorem atomicsInsideRegionAreDeferred : AtomicsInsideRegionAreDeferred := by
  intro s sl w r i act q parts s1 h hi hact ha hp hn hl hk hroom hx
  subst hact
  obtain ⟨lv, rest, hlv⟩ := List.exists_cons_of_ne_nil hl
  obtain ⟨hforbid, hload⟩ := allowed_of_deferred hk
  have he : exec i s = .next (s.taken.leadMemory sl w r (active r sl.grp q.g) q) := by
    rcases hi with hi | ⟨c, hi, hc⟩
    · rw [Access.exec_eq_memory hi, Access.memory_of_leader h ha hp]
    · exact exec_of_lateReq_passed h hi rfl ha hc hp
  have hfits : ¬Config.deferredMax ≤ w.withLag.deferredUsed := by
    rw [withLag_of_alone hn]
    exact Nat.not_le.2 hroom
  rw [leadMemory_of_checks (.inr hforbid) hx (fun hl => absurd hl (by rw [hload]; exact Bool.false_ne_true)),
    dispatchOp_of_deferred hl hk, State.deferOp, if_neg hfits] at he
  exact keptByRegion_of_keepWork he hn hp (sameOutside_opSeq (sameOutside_of_checks hx).1 (s1.opSeq + 1)) hlv rfl (takeKept_defer hlv)
    ⟨_, rfl, rfl, ⟨rfl, rfl⟩, ⟨rfl, rfl, rfl, rfl, rfl⟩, pieces_unplaced ..⟩

end

/-- Settles O14: the operation goes to the innermost level (`keptByRegion_of_keepWork`); a store's bytes are the newest there
(`holdsBytes_hold`), and there is room for them because a part adds at most one entry for each of its bytes (`holdsMore_hold`). -/
theorem accessesInsideRegionsAreKept : Obligations.AccessesInsideRegionsAreKept :=
  ⟨storesInsideRegionAreHeld, atomicsInsideRegionAreDeferred⟩

end Sys2Proof.Results

namespace Sys2Proof.Results

open Sys2Proof.Machine Sys2Proof.Claims

/-! ### What an operation leaves in the registers (R210, R211, R219 to R223, R298) -/

section
variable {r r' : Regs} {op : MemOp} {gseq : Nat} {live : Mask} {d : Dst}

/-! #### Values and their words -/

theorem ofNat_bits (n x i : Nat) : BitVec.ofNat n (bits x i n) = BitVec.ofNat n (x / 2 ^ i) :=
  BitVec.eq_of_toNat_eq (by simp [bits])

theorem ofNat_wrap_toSigned (x m : Nat) {n : Nat} (hn : 0 < n) :
    BitVec.ofNat m (wrap (toSigned x n) m) = (BitVec.ofNat n x).signExtend m := by
  rw [ofNat_wrap, toSigned_eq_toInt hn]
  rfl

theorem wordsOfValue_eq (w : MW) (x : Nat) : wordsOfValue w x = loadedWords w x := by
  cases w with
  | n8 => rfl
  | i8 => exact congrArg (fun y => [y]) (ofNat_wrap_toSigned x 32 (by decide))
  | n16 => rfl
  | i16 => exact congrArg (fun y => [y]) (ofNat_wrap_toSigned x 32 (by decide))
  | b32 => exact congrArg (fun y => [y]) ((ofNat_bits 32 x 0).trans (by rw [pow_zero, Nat.div_one]))
  | i32 => exact congrArg (fun y => [y]) ((ofNat_bits 32 x 0).trans (by rw [pow_zero, Nat.div_one]))
  | b64 => simp [wordsOfValue, loadedWords, mwBytes, List.range_succ, ofNat_bits]
  | b128 => simp [wordsOfValue, loadedWords, mwBytes, ofNat_bits]

theorem scalarOfValue_eq (w : MW) (x : Nat) : scalarOfValue w x = loadedScalar w x := by
  cases w with
  | n8 => rfl
  | i8 => exact ofNat_wrap_toSigned x 64 (by decide)
  | n16 => rfl
  | i16 => exact ofNat_wrap_toSigned x 64 (by decide)
  | b32 => rfl
  | i32 => exact ofNat_wrap_toSigned x 64 (by decide)
  | b64 => exact BitVec.eq_of_toNat_eq (by simp [scalarOfValue, loadedScalar, mwBytes, mwSigned])
  | b128 => exact BitVec.eq_of_toNat_eq (by simp [scalarOfValue, loadedScalar, mwBytes, mwSigned])

theorem words_eq (n x : Nat) : ((List.range n).map fun i => BitVec.ofNat 32 (bits x (32 * i) 32)) = wordsOfNat n x :=
  List.map_congr_left fun _ _ => ofNat_bits ..

/-! #### Delivery outside a handler, or in the one the instruction issued in (R236) -/

/-- A handler that runs, if one does, was entered before the instruction of this number. -/
def Ungated (r : Regs) (gseq : Nat) : Prop := ∀ f, r.frame = some f → f.gseq ≤ gseq

theorem sDeliver_of_ungated (h : Ungated r gseq) (k : Nat) (x : DWord) : r.sDeliver gseq k x = r.sset k x := by
  unfold Regs.sDeliver
  split
  next f hf => rw [if_neg fun hc => absurd (h f hf) (by omega), if_neg fun hc => absurd (h f hf) (by omega)]
  next => rfl

theorem pDeliver_of_ungated (h : Ungated r gseq) (k : Nat) (act m : Mask) : r.pDeliver gseq k act m = r.pset k act m := by
  unfold Regs.pDeliver
  split
  next f hf => rw [if_neg fun hc => absurd (h f hf) (by omega)]
  next => rfl

/-! #### A vector group and a scalar -/

/-- The words that lanes get from register k on. -/
theorem get_laneWords {L : List Nat} (hL : ∀ a ∈ L, a < 32) (words : Nat → List Word) (k j : Nat) {m : Nat} (hm : m < 32)
    (v : SMap Word) : ((L.flatMap fun l => (words l).zipIdx.map fun y =>
      ((k + y.2) * 32 + l, y.1)).foldl (fun acc x => acc.set x.1 x.2) v).get (j * 32 + m) =
      if m ∈ L ∧ k ≤ j then ((words m)[j - k]?).getD (v.get (j * 32 + m)) else v.get (j * 32 + m) := by
  have hkey {x : Nat × Word} (hx : x ∈ L.flatMap fun l => (words l).zipIdx.map fun y => ((k + y.2) * 32 + l, y.1))
      (he : x.1 = j * 32 + m) : m ∈ L ∧ k ≤ j ∧ (words m)[j - k]? = some x.2 := by
    obtain ⟨l, hl, y, hy, rfl⟩ := by simpa only [List.mem_flatMap, List.mem_map] using hx
    have hlt := hL l hl
    obtain ⟨rfl, hj⟩ : l = m ∧ k + y.2 = j := by dsimp only at he; omega
    refine ⟨hl, by omega, ?_⟩
    rw [show j - k = y.2 by omega]
    exact List.mk_mem_zipIdx_iff_getElem?.1 hy
  split
  next hc =>
    cases hw : (words m)[j - k]? with
    | none =>
      refine SMap.get_foldl_set_ne _ _ _ _ _ fun x hx he => ?_
      rw [(hkey hx he).2.2] at hw
      cases hw
    | some z =>
      refine SMap.get_foldl_set_eq _ _ _ _ _ _ (fun x hx he => ?_) ⟨((k + (j - k)) * 32 + m, z), ?_, ?_⟩
      · exact Option.some.inj ((hkey hx he).2.2.symm.trans hw)
      · exact List.mem_flatMap.2 ⟨m, hc.1, List.mem_map.2 ⟨(z, j - k), List.mk_mem_zipIdx_iff_getElem?.2 hw, rfl⟩⟩
      · dsimp only
        rw [Nat.add_sub_cancel' hc.2]
  next hc => exact SMap.get_foldl_set_ne _ _ _ _ _ fun x hx he => hc ⟨(hkey hx he).1, (hkey hx he).2.1⟩

/-- The lanes of an operation's parts, and those of them that live. -/
def opLanes (op : MemOp) : List Nat := (op.pieces.map Piece.lane).eraseDups

/-- The lanes to write, and the one that a scalar takes its value from, while one that issued the operation lives (R294). -/
def scalarLanes (op : MemOp) (live : Mask) : List Nat :=
  if op.lanes &&& live ≠ 0 ∨ (opLanes op).filter (lane live) ≠ [] then opLanes op else []

theorem mem_liveLanes {m : Nat} : m ∈ (opLanes op).filter (lane live) ↔ (∃ p ∈ op.pieces, p.lane = m) ∧ lane live m = true := by
  rw [List.mem_filter, opLanes, List.mem_eraseDups, List.mem_map]

theorem lt_of_mem_liveLanes {m : Nat} (h : m ∈ (opLanes op).filter (lane live)) : m < 32 := by
  by_contra hm
  have hlane : lane live m = false := BitVec.getLsbD_of_ge live m (by omega)
  rw [(mem_liveLanes.1 h).2] at hlane
  cases hlane

theorem liveLanes_ne_nil : (opLanes op).filter (lane live) ≠ [] ↔ ∃ p ∈ op.pieces, lane live p.lane = true := by
  constructor
  · intro h
    obtain ⟨m, hm⟩ := List.exists_mem_of_ne_nil _ h
    obtain ⟨⟨p, hp, rfl⟩, hl⟩ := mem_liveLanes.1 hm
    exact ⟨p, hp, hl⟩
  · rintro ⟨p, hp, hl⟩
    exact List.ne_nil_of_mem (mem_liveLanes.2 ⟨⟨p, hp, rfl⟩, hl⟩)

/-- What an operation's values leave in its destination (R210, R211). -/
theorem destHolds_deliver (hr : Ungated r gseq) (d : Dst) (words : Nat → List Word) (scalar : Nat → DWord) :
    ∃ y, r.deliver gseq (valueWrites d ((opLanes op).filter (lane r.live)) (scalarLanes op r.live) (fun l => words (op.laneValue l))
        fun l => scalar (op.laneValue l)) = { r with v := y.v, s := y.s } ∧ DestHolds op r y d words scalar := by
  cases d with
  | v k =>
    refine ⟨{ r with v := _ }, rfl, rfl, fun j m hm => ?_⟩
    refine (get_laneWords (fun a ha => lt_of_mem_liveLanes ha) _ k.val j hm r.v).trans ?_
    refine if_congr ?_ rfl rfl
    rw [mem_liveLanes, and_assoc]
  | s k =>
    unfold DestHolds
    by_cases hc : op.lanes &&& r.live ≠ 0 ∨ ∃ p ∈ op.pieces, lane r.live p.lane = true
    · have hs : scalarLanes op r.live = opLanes op := if_pos (by rwa [liveLanes_ne_nil])
      cases hp : op.pieces with
      | nil =>
        refine ⟨r, ?_, rfl, fun j => (ite_self _).symm⟩
        rw [hs, opLanes, hp]
        rfl
      | cons p rest =>
        refine ⟨r.sset k (scalar (op.laneValue p.lane)), ?_, rfl, fun j => ?_⟩
        · have htake : (opLanes op).take 1 = [p.lane] := by
            rw [opLanes, hp, List.map_cons, List.eraseDups_cons]
            rfl
          rw [hs, valueWrites, htake]
          exact sDeliver_of_ungated (r := r.writeV []) hr k _
        · exact (SMap.get_set ..).trans (if_congr (by rw [← hp, and_iff_left hc]) rfl rfl)
    · have hs : scalarLanes op r.live = [] := if_neg (by rwa [liveLanes_ne_nil])
      refine ⟨r, ?_, rfl, fun j => ?_⟩
      · rw [hs]
        rfl
      · rw [if_neg fun h => hc h.2]
  | b0 => exact ⟨r, rfl, trivial⟩

theorem delivered_value {words : Nat → List Word} {scalar : Nat → DWord} (hr : Ungated r gseq)
    (hw : op.writes r.live = valueWrites d ((opLanes op).filter (lane r.live)) (scalarLanes op r.live) (fun l => words (op.laneValue l))
      fun l => scalar (op.laneValue l)) :
    (r.deliver gseq (op.writes r.live)).p = r.p ∧ (r.deliver gseq (op.writes r.live)).j = r.j ∧
      DestHolds op r (r.deliver gseq (op.writes r.live)) d words scalar := by
  obtain ⟨y, he, hd⟩ := destHolds_deliver (op := op) hr d words scalar
  rw [hw, he]
  exact ⟨rfl, rfl, hd⟩

/-! #### What each kind of operation writes -/

theorem writes_load {w : MW} (hk : op.kind = .load d w ∨ op.kind = .kload d w) (live : Mask) :
    op.writes live = valueWrites d ((opLanes op).filter (lane live)) (scalarLanes op live) (fun l => loadedWords w (op.laneValue l))
      fun l => loadedScalar w (op.laneValue l) := by
  simp only [← wordsOfValue_eq, ← scalarOfValue_eq]
  unfold MemOp.writes
  rcases hk with hk | hk <;> rw [hk] <;> rfl

theorem writes_atom {a : AOp} (hk : op.kind = .atom a (some d)) (live : Mask) :
    op.writes live = valueWrites d ((opLanes op).filter (lane live)) (scalarLanes op live)
      (fun l => wordsOfNat (if a.is64 then 2 else 1) (op.laneValue l)) fun l => BitVec.ofNat 64 (op.laneValue l) := by
  have hn : aopSize a / 4 = if a.is64 then 2 else 1 := by unfold aopSize; split <;> rfl
  simp only [← words_eq, ← hn]
  unfold MemOp.writes
  rw [hk]
  rfl

theorem writes_cas {w64 : Bool} {k : Fin 256} (hk : op.kind = .cas w64 k) (live : Mask) :
    op.writes live = valueWrites (.v k) ((opLanes op).filter (lane live)) (scalarLanes op live)
      (fun l => wordsOfNat (if w64 then 2 else 1) (op.laneValue l)) fun _ => 0 := by
  have hn : (if w64 then 8 else 4) / 4 = if w64 then 2 else 1 := by cases w64 <;> rfl
  simp only [← words_eq, ← hn]
  unfold MemOp.writes
  rw [hk]
  rfl

theorem jloadSet_eq (image : Nat) (live : Mask) :
    jloadSet image live = if image / 2 ^ 64 % 2 = 1 then ⟨BitVec.ofNat 32 image &&& live, 0, 0, true⟩ else default := rfl

/-- The values of an operation whose parts are all done are delivered. -/
theorem delivered (hr : Ungated r op.gseq) : Delivered op r (r.deliver op.gseq (op.writes r.live)) := by
  cases hk : op.kind with
  | load d w =>
    simp only [Delivered, hk]
    exact delivered_value hr (writes_load (.inl hk) _)
  | kload d w =>
    simp only [Delivered, hk]
    exact delivered_value hr (writes_load (.inr hk) _)
  | cas w64 d =>
    simp only [Delivered, hk]
    exact delivered_value hr (writes_cas hk _)
  | atom a d =>
    cases d with
    | none =>
      simp only [Delivered, MemOp.writes, hk]
      exact ⟨rfl, rfl, rfl, rfl⟩
    | some d =>
      simp only [Delivered, hk]
      exact delivered_value hr (writes_atom hk _)
  | catom pt pd =>
    cases pd with
    | none =>
      simp only [Delivered, MemOp.writes, hk]
      exact ⟨rfl, rfl, rfl, rfl⟩
    | some pd =>
      have he : r.deliver op.gseq (op.writes r.live) =
          r.pset pd.val (op.lanes &&& r.live) (maskOf fun l => op.pieces.any fun p => p.lane == l && p.got == some 1) := by
        simp only [MemOp.writes, hk]
        exact pDeliver_of_ungated (r := r) hr _ _ _
      obtain ⟨p, hp⟩ := pset_eq r pd.val (op.lanes &&& r.live) (maskOf fun l => op.pieces.any fun p => p.lane == l && p.got == some 1)
      simp only [Delivered, hk]
      rw [he]
      refine ⟨by rw [hp], by rw [hp], by rw [hp], fun j m hm => ?_⟩
      have hlane : lane (op.lanes &&& r.live) m = (lane op.lanes m && lane r.live m) := BitVec.getLsbD_and ..
      have hcond : (j = pd.val ∧ pd.val ≠ 0 ∧ (lane op.lanes m && lane r.live m) = true) ↔
          j = pd.val ∧ j ≠ 0 ∧ lane op.lanes m = true ∧ lane r.live m = true := by
        rw [Bool.and_eq_true]
        constructor <;> rintro ⟨rfl, h⟩ <;> exact ⟨rfl, h⟩
      rw [Regs.lane_pget_pset, maskOf_lane _ hm, hlane]
      by_cases hc : j = pd.val ∧ j ≠ 0 ∧ lane op.lanes m = true ∧ lane r.live m = true
      · rw [if_pos (hcond.2 hc), if_pos hc]
        simp only [List.any_eq_true, Bool.and_eq_true, beq_iff_eq]
      · rw [if_neg fun h => hc (hcond.1 h), if_neg hc]
  | jload j =>
    simp only [Delivered, MemOp.writes, hk]
    cases op.pieces with
    | nil => exact ⟨rfl, rfl, rfl, nofun⟩
    | cons p rest =>
      refine ⟨rfl, rfl, rfl, fun q rest' hq k => ?_⟩
      obtain ⟨rfl, -⟩ := List.cons.inj hq
      exact (SMap.get_set ..).trans (if_congr Iff.rfl (jloadSet_eq ..) rfl)
  | _ =>
    simp only [Delivered, MemOp.writes, hk]
    exact ⟨rfl, rfl, rfl, rfl⟩

end

end Sys2Proof.Results

namespace Sys2Proof.Results

open Sys2Proof.Machine Sys2Proof.Machine.Trap Sys2Proof.Claims

/-! ### A part returns its value (R211, R219, R223) -/

section
variable {s t m : State} {slot k v : Nat} {w y : Warp} {o op : MemOp} {r r' : Regs}

/-! #### A catom's flag (R223) -/

/-- The inexact flag of a catom traps nobody, or its error has room to be queued. -/
def FlagRoom (y : Warp) : Prop := y.r.tmask.getLsbD 5 = false ∨ y.r.frame = none ∨ y.async.length < 4

theorem inexact_of_unmasked {mask : Flags} (h : mask.getLsbD 5 = false) : (0x20 : Flags) &&& mask = 0 := by
  refine BitVec.eq_of_getLsbD_eq fun i hi => ?_
  rw [BitVec.getLsbD_and]
  rcases Nat.lt_succ_iff_lt_or_eq.1 hi with hi | rfl
  · have hbit : (0x20 : Flags).getLsbD i = false := by interval_cases i <;> rfl
    exact (congrArg (· && _) hbit).trans BitVec.getLsbD_zero.symm
  · exact (congrArg (_ && ·) h).trans BitVec.getLsbD_zero.symm

theorem queueAsync_of_room (hw : s.warp slot = some y) (h : y.r.frame = none ∨ y.async.length < 4) (e : AsyncErr) :
    s.queueAsync slot e = s.setWarp slot { y with async := y.async ++ [e] } := by
  have hroom : (y.r.inHandler && decide (4 ≤ y.async.length)) = false := by
    rcases h with h | h
    · rw [Regs.inHandler, h]
      rfl
    · rw [decide_eq_false (Nat.not_le.2 h), Bool.and_false]
  rw [State.queueAsync, hw]
  simp only [hroom, Bool.false_eq_true, if_false]

/-- The flag is set, and its error queued when it traps; nothing else changes. -/
theorem catomFlag_of_room (hw : s.warp slot = some y) (h : FlagRoom y) (op : MemOp) : SameStores s (s.catomFlag slot op) ∧
    ∃ z, (s.catomFlag slot op).warp slot = some z ∧ z = { y with r := { y.r with fpflags := z.r.fpflags }, async := z.async } := by
  have hset := warp_modWarp_of_some hw fun z => { z with r := z.r.setFlags 0x20 }
  have hstores : SameStores s (s.modWarp slot fun z => { z with r := z.r.setFlags 0x20 }) := SameStores.modWarp ⟨rfl, rfl⟩ ..
  unfold State.catomFlag
  split
  next =>
    simp only [hw]
    cases he : arithErr y.r 0x20 op.pc op.gseq op.lanes op.depth s.time with
    | none => exact ⟨hstores, _, hset, rfl⟩
    | some e =>
      have hroom : y.r.frame = none ∨ y.async.length < 4 := h.resolve_left fun hmask => by
        rw [arithErr_of_quiet (inexact_of_unmasked hmask)] at he
        cases he
      dsimp only
      rw [queueAsync_of_room hset hroom]
      exact ⟨hstores.trans ⟨rfl, rfl⟩, _, State.warp_setWarp_self .., rfl⟩
  next => exact ⟨⟨rfl, rfl⟩, _, hw, rfl⟩

/-! #### Delivery leaves what a trap depends on -/

/-- The trap mask is the same, and a warp outside handlers stays outside. -/
def SameTraps (r r' : Regs) : Prop := r'.tmask = r.tmask ∧ (r.frame = none → r'.frame = none)

theorem SameTraps.trans {r1 r2 r3 : Regs} (h : SameTraps r1 r2) (g : SameTraps r2 r3) : SameTraps r1 r3 :=
  ⟨g.1.trans h.1, fun hf => g.2 (h.2 hf)⟩

theorem SameTraps.foldl {α : Type} {f : Regs → α → Regs} (hf : ∀ a x, SameTraps a (f a x)) (l : List α) (r : Regs) :
    SameTraps r (l.foldl f r) := by
  induction l generalizing r with
  | nil => exact ⟨rfl, id⟩
  | cons x l ih => exact (hf r x).trans (ih _)

theorem sDeliver_sameTraps (r : Regs) (g k : Nat) (x : DWord) : SameTraps r (r.sDeliver g k x) := by
  unfold Regs.sDeliver
  split
  next hf => split <;> [skip; split] <;> exact ⟨rfl, fun h => absurd (hf.symm.trans h) (Option.some_ne_none _)⟩
  next => exact ⟨rfl, id⟩

theorem pset_sameTraps (r : Regs) (k : Nat) (act m : Mask) : SameTraps r (r.pset k act m) := by
  obtain ⟨p, hp⟩ := pset_eq r k act m
  rw [hp]
  exact ⟨rfl, id⟩

theorem pDeliver_sameTraps (r : Regs) (g k : Nat) (act m : Mask) : SameTraps r (r.pDeliver g k act m) := by
  unfold Regs.pDeliver
  split
  next hf =>
    split
    · exact ⟨rfl, fun h => absurd (hf.symm.trans h) (Option.some_ne_none _)⟩
    · exact pset_sameTraps ..
  next => exact pset_sameTraps ..

theorem deliver_sameTraps (r : Regs) (g : Nat) (x : Writes) : SameTraps r (r.deliver g x) := by
  have hv : SameTraps r (r.writeV x.vw) := ⟨rfl, id⟩
  have hs := SameTraps.foldl (fun a (y : Nat × DWord) => sDeliver_sameTraps a g y.1 y.2) x.sw (r.writeV x.vw)
  have hp := SameTraps.foldl (fun a (y : Nat × Mask × Mask) => pDeliver_sameTraps a g y.1 y.2.2 y.2.1) x.pw
    (x.sw.foldl (fun a y => a.sDeliver g y.1 y.2) (r.writeV x.vw))
  refine ((hv.trans hs).trans hp).trans (SameTraps.foldl (fun _ _ => ?_) _ _)
  exact ⟨rfl, id⟩

/-! #### The last part -/

/-- The warp of a finished operation. -/
def finished (y : Warp) (op : MemOp) : Warp :=
  let y1 := { y with pend := y.pend.filter (fun o => o.id != op.id), r := y.r.deliver op.gseq (op.writes y.r.live) }
  if op.kind.returns then y1.giveValues op.gseq (op.writes y.r.live) else y1

/-- The state with a finished operation, before a catom's flag. -/
def withFinished (m : State) (slot : Nat) (y : Warp) (op : MemOp) : State :=
  if op.acquires then (m.setWarp slot (finished y op)).acquire slot (m.reach y op.scope) else m.setWarp slot (finished y op)

theorem completeOp_eq (m : State) (slot : Nat) (y : Warp) (op : MemOp) : m.completeOp slot y op = match op.kind with
    | .catom _ _ => (withFinished m slot y op).catomFlag slot op
    | _ => withFinished m slot y op := rfl

theorem finished_eq (y : Warp) (op : MemOp) : ∃ p, finished y op =
    { y with pend := y.pend.filter (fun o => o.id != op.id), r := y.r.deliver op.gseq (op.writes y.r.live), proof := p } := by
  unfold finished
  dsimp only
  split <;> exact ⟨_, rfl⟩

theorem withFinished_warp (m : State) (slot : Nat) (y : Warp) (op : MemOp) :
    SameStores m (withFinished m slot y op) ∧ (withFinished m slot y op).warp slot = some (finished y op) := by
  have hset : SameStores m (m.setWarp slot (finished y op)) := ⟨rfl, rfl⟩
  have hwarp : (m.setWarp slot (finished y op)).warp slot = some (finished y op) := State.warp_setWarp_self ..
  unfold withFinished
  split
  · exact ⟨hset.trans (acquire_sameStores ..), ((acquire_looked ..).warp slot).trans hwarp⟩
  · exact ⟨hset, hwarp⟩

/-- A finished operation is no longer in flight, and what it returned is delivered. -/
theorem completeOp_delivers (hcat : ∀ pt pd, op.kind = .catom pt pd → FlagRoom y) (m : State) (slot : Nat) :
    SameStores m (m.completeOp slot y op) ∧ ∃ z, (m.completeOp slot y op).warp slot = some z ∧
      z.pend = y.pend.filter (fun x => x.id != op.id) ∧
      z.r = { y.r.deliver op.gseq (op.writes y.r.live) with fpflags := z.r.fpflags } := by
  obtain ⟨p, hp⟩ := finished_eq y op
  obtain ⟨hstores, hwarp⟩ := withFinished_warp m slot y op
  rw [completeOp_eq]
  split
  next pt pd hk =>
    have hroom : FlagRoom (finished y op) := by
      obtain ⟨hmask, hframe⟩ := deliver_sameTraps y.r op.gseq (op.writes y.r.live)
      rw [hp, FlagRoom, hmask]
      exact (hcat pt pd hk).imp_right (Or.imp_left hframe)
    obtain ⟨hsame, z, hz, hrest⟩ := catomFlag_of_room hwarp hroom op
    refine ⟨hstores.trans hsame, z, hz, ?_, ?_⟩
    · rw [hrest, hp]
    · rw [hrest, hp]
  next => exact ⟨hstores, _, hwarp, by rw [hp], by rw [hp]⟩

theorem partDone_eq (hw : m.warp slot = some y) (ho : y.pend.find? (fun x => x.id == o.id) = some o) (k v : Nat) :
    m.partDone slot o.id k v = if (gotPart o k v).pieces.all Piece.done then m.completeOp slot y (gotPart o k v)
      else m.setWarp slot { y with pend := y.pend.map fun x => if x.id = o.id then gotPart o k v else x } := by
  unfold State.partDone
  simp only [hw, ho]
  rfl

/-- A part of an operation in flight has returned v. -/
theorem partDone_returns (hw : m.warp slot = some y) (ho : y.pend.find? (fun x => x.id == o.id) = some o)
    (hcat : ∀ pt pd, o.kind = .catom pt pd → FlagRoom y) (k v : Nat) : SameStores m (m.partDone slot o.id k v) ∧
      (IssuedHere y o → ∃ z, (m.partDone slot o.id k v).warp slot = some z ∧ PartReturned y z o k v) := by
  rw [partDone_eq hw ho]
  by_cases hall : (gotPart o k v).pieces.all Piece.done = true
  · obtain ⟨hstores, z, hz, hpend, hr⟩ := completeOp_delivers (y := y) (op := gotPart o k v) hcat m slot
    rw [if_pos hall]
    refine ⟨hstores, fun hi => ⟨z, hz, fun hn => absurd (hall.symm.trans hn) (by decide), fun _ => ⟨fun x hx => ?_, ?_⟩⟩⟩
    · rw [hpend] at hx
      exact bne_iff_ne.1 (List.mem_filter.1 hx).2
    · rw [hr]
      exact delivered (op := gotPart o k v) hi
  · rw [if_neg hall]
    refine ⟨⟨rfl, rfl⟩, fun _ => ⟨_, State.warp_setWarp_self .., fun _ => ⟨rfl, gotPart o k v, ?_, rfl, rfl⟩,
      fun h => absurd h hall⟩⟩
    have hkeeps (x : MemOp) : (if x.id = o.id then gotPart o k v else x).id = x.id := by
      split
      next h => exact h.symm
      next => rfl
    exact (find?_map_of_keepsId hkeeps ho).trans (by rw [if_pos rfl])

/-- What a part returns does not depend on what releases leave of its warp. -/
theorem partReturned_of_core {z : Warp} (h : core y = core w) (hret : PartReturned y z o k v) : PartReturned w z o k v := by
  have hr := regs_of_core h
  exact ⟨hr ▸ hret.waiting, hr ▸ hret.last⟩

/-- An operation that is no store is found as before. -/
theorem find?_of_core (h : core y = core w) (hk : o.kind.isStore = false) (ho : w.pend.find? (fun x => x.id == o.id) = some o) :
    y.pend.find? (fun x => x.id == o.id) = some o := by
  have hid (x : MemOp) : (bare x).id = x.id := by unfold bare; split <;> rfl
  have hkind (x : MemOp) : (bare x).kind = x.kind := by unfold bare; split <;> rfl
  have hbare {x : MemOp} (hx : x.kind.isStore = false) : bare x = x := by rw [bare, hx]; rfl
  have hpend : y.pend.map bare = w.pend.map bare := (congrArg Warp.pend h : (core y).pend = (core w).pend)
  have hfound := find?_map_of_keepsId hid ho
  rw [← hpend, List.find?_map, show (fun x : MemOp => x.id == o.id) ∘ bare = fun x => x.id == o.id from
    funext fun x => by rw [Function.comp_apply, hid], hbare hk] at hfound
  obtain ⟨x, hx, he⟩ := Option.map_eq_some_iff.1 hfound
  have hxk : x.kind.isStore = false := by rw [← hkind x, he, hk]
  rw [hx, ← he, hbare hxk]

end

end Sys2Proof.Results

namespace Sys2Proof.Results

open Sys2Proof.Machine Sys2Proof.Claims

/-! ### A load's part returns: O15 -/

section
variable {s s0 : State} {slot op k : Nat} {w : Warp} {o : MemOp} {p : Piece}

/-! #### What a read leaves in the caches (R193, R195, R215) -/

theorem dropLine_looked (s : State) (forme : Nat) (q : Place) : Looked s (s.dropLine forme q) := by
  cases q <;> rfl

theorem afterLoad_looked (s : State) (forme : Nat) (o : MemOp) (p : Piece) : Looked s (s.afterLoad forme o p) := by
  unfold State.afterLoad
  split
  · rfl
  · split
    · exact dropLine_looked ..
    · split
      · rfl
      · exact refreshHome_looked s forme (.hbm _) p.size

theorem memoryBytes_looked (s : State) (slot : Nat) (w : Warp) (o : MemOp) (p : Piece) : Looked s (s.memoryBytes slot w o p).2 := by
  have hpick (n : Nat) : Looked s (s.pick n).2 := .of_cached (s.pick_cached n)
  unfold State.memoryBytes
  dsimp only
  split
  · exact hpick _
  · split
    next copy _ =>
      have hchoice : Looked s (if copy ≠ s.bytes p.place p.size ∧ (!o.bypasses (s.reach w o.scope)) = true then s.pick 2
          else (0, s)).2 := by
        split
        · exact hpick 2
        · rfl
      generalize (if copy ≠ s.bytes p.place p.size ∧ (!o.bypasses (s.reach w o.scope)) = true then s.pick 2
        else (0, s)) = x at hchoice
      split
      · split
        · exact hchoice.trans (dropLine_looked ..)
        · exact hchoice
      · exact hchoice.trans (afterLoad_looked ..)
    · exact afterLoad_looked ..

theorem memoryBytes_home (hk : ∀ d m, o.kind ≠ .kload d m) (hc : s.l1Copy (slotForme slot) p = none) :
    s.memoryBytes slot w o p = (s.bytes p.place p.size, s.afterLoad (slotForme slot) o p) := by
  unfold State.memoryBytes
  simp only [hc]

/-- Where nothing is poisoned, a load takes no poison. -/
theorem takesPoison_of_clean (hp : s.poisoned p.place p.size = false) (hl : s.l1Poisoned (slotForme slot) p = false) :
    s.takesPoison slot w o p = (false, s) := by
  unfold State.takesPoison
  simp only [hp, hl, Bool.false_and, Bool.false_eq_true, if_false]
  split <;> rfl

/-! #### The value of a part -/

/-- Bytes that nothing overlays are those of memory. -/
theorem overlaid_none {n : Nat} {found : Nat → Option Byte} (h : ∀ i, i < n → found i = none) (home : Nat → Byte) :
    ((((List.range n).map found).zip ((List.range n).map home)).map fun x => x.1.getD x.2) = (List.range n).map home := by
  rw [List.zip_map', List.map_map]
  exact List.map_congr_left fun i hi => by rw [Function.comp_apply, h i (List.mem_range.1 hi), Option.getD_none]

theorem not_all_isSome {n : Nat} {found : Nat → Option Byte} (h : ∀ i, i < n → found i = none) (hn : 0 < n) :
    ¬((List.range n).map found).all Option.isSome = true := by
  intro hall
  have h0 := List.all_eq_true.1 hall _ (List.mem_map_of_mem (List.mem_range.2 hn))
  rw [h 0 hn] at h0
  cases h0

/-- The bytes that a part takes from elsewhere than memory; a constant window is read at memory (R187). -/
def overlaid (s : State) (slot : Nat) (w : Warp) (o : MemOp) (p : Piece) : List (Option Byte) :=
  match o.kind with
  | .kload _ _ => (List.range p.size).map fun _ => none
  | _ => (List.range p.size).map fun i => s.overlayByte slot w o p i

theorem sample_of_clean (hp : s.poisoned p.place p.size = false) (hl : s.l1Poisoned (slotForme slot) p = false) :
    s.sample slot w o k p = if (overlaid s slot w o p).all Option.isSome
      then s.partDone slot o.id k (leNat ((overlaid s slot w o p).filterMap id))
      else (s.memoryBytes slot w o p).2.partDone slot o.id k
        (leNat (((overlaid s slot w o p).zip (s.memoryBytes slot w o p).1).map fun x => x.1.getD x.2)) := by
  unfold State.sample
  simp only [takesPoison_of_clean hp hl, Bool.false_eq_true, if_false]
  rfl

theorem overlaid_eq (hk : ∀ d x, o.kind ≠ .kload d x) :
    overlaid s slot w o p = (List.range p.size).map fun i => s.overlayByte slot w o p i := by
  unfold overlaid
  split
  next d x hkind => exact absurd hkind (hk d x)
  next => rfl

/-- A load's part returns from a state that differs in caches alone; the value is memory's where nothing is closer. -/
theorem sample_eq (hp : s.poisoned p.place p.size = false) (hl : s.l1Poisoned (slotForme slot) p = false) :
    ∃ m v, Looked s m ∧ s.sample slot w o k p = m.partDone slot o.id k v ∧
      ((∀ i, i < p.size → s.overlayByte slot w o p i = none) → (∀ d x, o.kind ≠ .kload d x) →
        s.l1Copy (slotForme slot) p = none → 0 < p.size → v = s.readLe p.place p.size) := by
  rw [sample_of_clean hp hl]
  split
  next hall =>
    refine ⟨s, _, .refl s, rfl, fun hover hk hc hn => absurd hall ?_⟩
    rw [overlaid_eq hk]
    exact not_all_isSome hover hn
  next =>
    refine ⟨_, _, memoryBytes_looked s slot w o p, rfl, fun hover hk hc hn => ?_⟩
    rw [memoryBytes_home hk hc, overlaid_eq hk]
    exact congrArg leNat (overlaid_none hover _)

theorem exec_loadDataReturn (hpart : (s0.settle slot).partOf slot op k = some (w, o, p)) (hk : o.kind.isLoad = true)
    (hstop : w.stopped = false) (hcan : (s0.settle slot).canPerform slot w o k p = true) :
    exec (.loadDataReturn slot op k) s0 = .next ((s0.settle slot).sample slot w o k p) := by
  show execLoadDataReturn slot op k s0 = _
  unfold execLoadDataReturn
  simp only [hpart, hk, hstop, hcan, Bool.not_false, Bool.and_self, if_true]

end

/-- Settles O15: the part returns from a state that differs in caches alone (`sample_eq`); with the last part the operation's values
are delivered (`partDone_returns`). -/
theorem loadsReturnMemory : Obligations.LoadsReturnMemory := by
  intro s0 slot op k w o p s hpart hk hstop hcan hclean hl1
  obtain ⟨hw, ho, -⟩ := partOf_eq_some hpart
  obtain rfl := id_of_find? ho
  obtain ⟨m, v, hm, he, hv⟩ := sample_eq (w := w) (o := o) (k := k) hclean hl1
  have hcat (pt : PairT) (pd : Option (Fin 8)) (h : o.kind = .catom pt pd) : FlagRoom w := by
    rw [h] at hk
    cases hk
  obtain ⟨hdone, hret⟩ := partDone_returns ((hm.warp slot).trans hw) ho hcat k v
  have hsettled := settle_sameStores s0 slot
  refine ⟨_, exec_loadDataReturn hpart hk hstop hcan, fun q => ?_, fun hi hover hkind hcopy hn => ?_⟩
  · rw [he, Opportunity.sameMemory_of_fields hdone.1 hdone.2 q, hm.sameMemory q]
    exact Opportunity.sameMemory_of_fields hsettled.1 hsettled.2 q
  · rw [he, ← hv hover hkind hcopy hn]
    exact hret hi

end Sys2Proof.Results

namespace Sys2Proof.Results

open Sys2Proof.Machine Sys2Proof.Machine.Trap Sys2Proof.Claims

/-! ### Atomics, arrivals and signals update their words: O17 -/

section
variable {s t u s0 : State} {slot op k v forme : Nat} {w y : Warp} {o : MemOp} {p : Piece} {l : List (Place × Nat × Nat)} {q : Place}

/-! #### What precedes a performance changes warps, numbers and copies, but no memory and no poison -/

/-- Only warps, their numbering, the L1 copies and the fabric may differ. -/
def SameButWarps (s t : State) : Prop := t = { s with warps := t.warps, opSeq := t.opSeq, l1 := t.l1, chans := t.chans }

theorem SameButWarps.refl (s : State) : SameButWarps s s := rfl

theorem SameButWarps.trans (h : SameButWarps s t) (g : SameButWarps t u) : SameButWarps s u := by
  unfold SameButWarps at *
  rw [g, h]

theorem SameButWarps.sameStores (h : SameButWarps s t) : SameStores s t := by
  rw [h]
  exact ⟨rfl, rfl⟩

theorem SameButWarps.poisoned (h : SameButWarps s t) (q : Place) (n : Nat) : t.poisoned q n = s.poisoned q n := by
  rw [h]
  cases q <;> rfl

theorem SameButWarps.readLe (h : SameButWarps s t) (q : Place) (n : Nat) : t.readLe q n = s.readLe q n := by
  rw [h]
  cases q <;> rfl

theorem SameButWarps.modWarp (s : State) (slot : Nat) (f : Warp → Warp) : SameButWarps s (s.modWarp slot f) := by
  unfold State.modWarp
  split <;> rfl

theorem SameButWarps.foldl {α : Type} {f : State → α → State} (hf : ∀ a x, SameButWarps a (f a x)) (l : List α) (s : State) :
    SameButWarps s (l.foldl f s) := by
  induction l generalizing s with
  | nil => rfl
  | cons x l ih => exact (hf s x).trans (ih _)

theorem stampStores_sameButWarps (s : State) (slot : Nat) : SameButWarps s (s.stampStores slot) := by
  unfold State.stampStores
  split
  · rfl
  · dsimp only
    split <;> rfl

theorem shareForRelease_sameButWarps (s : State) (slot id reach : Nat) : SameButWarps s (s.shareForRelease slot id reach) := by
  unfold State.shareForRelease
  split
  · exact (SameButWarps.modWarp ..).trans (stampStores_sameButWarps ..)
  · exact (SameButWarps.foldl (fun _ _ => SameButWarps.modWarp ..) _ s).trans (stampStores_sameButWarps ..)
  · rfl

theorem settleFence_sameButWarps (s : State) (slot : Nat) (w : Warp) (f : MemOp) : SameButWarps s (s.settleFence slot w f) := by
  have hconst (m : State) (id rank : Nat) : SameButWarps m (m.constFence slot id rank) := by
    unfold State.constFence
    split
    · rfl
    · exact SameButWarps.modWarp ..
  have hshare (m : State) (id reach : Nat) (b : Bool) : SameButWarps m (if b then m.shareForRelease slot id reach else m) := by
    split
    · exact shareForRelease_sameButWarps ..
    · rfl
  have hacquire (m : State) (reach : Nat) (b : Bool) : SameButWarps m (if b then m.acquire slot reach else m) := by
    unfold State.acquire State.dropL1
    split <;> [split; skip] <;> rfl
  exact (((SameButWarps.modWarp s slot _).trans (hconst ..)).trans (hshare ..)).trans (hacquire ..)

theorem settle_sameButWarps (s : State) (slot : Nat) : SameButWarps s (s.settle slot) := by
  have hfences (n : Nat) : ∀ s : State, SameButWarps s (s.settleFences slot n) := by
    induction n with
    | zero => exact fun _ => rfl
    | succ n ih =>
      intro s
      unfold State.settleFences
      split
      · rfl
      · split
        · rfl
        · split
          · exact (settleFence_sameButWarps ..).trans (ih _)
          · rfl
  exact (hfences _ s).trans (stampStores_sameButWarps ..)

theorem leaveFabric_sameButWarps (s : State) (slot op k : Nat) (p : Piece) : SameButWarps s (s.leaveFabric slot op k p) := by
  unfold State.leaveFabric
  split <;> rfl

/-! #### Stores one after another -/

theorem storedAll_of_sameMemory (h : StoredAll s t l) (g : SameMemory t u) : StoredAll s u l := by
  induction h with
  | nil h => exact .nil fun q => (g q).trans (h q)
  | cons h _ ih => exact .cons h (ih g)

theorem storedAll_singleton {x n : Nat} (h : SameStores s t) (hq : PlaceExists s q) (g : SameStores (t.store forme q x n) u) :
    StoredAll s u [(q, x, n)] :=
  .cons (stored_of_store h hq g) (.nil fun _ => rfl)

theorem places_putBytes {q' : Place} (l : List Byte) : ∀ (s : State) (q : Place), s.places q' → (s.putBytes q l).places q' := by
  induction l with
  | nil => exact fun _ _ h => h
  | cons x l ih => exact fun s q h => ih _ _ (State.places_setByte x h)

theorem places_clearPoison {q' : Place} (n : Nat) (h : s.places q') : (s.clearPoison q n).places q' := by
  cases q' with
  | hbm _ => trivial
  | scr g b o =>
    cases q with
    | hbm k =>
      unfold State.clearPoison
      dsimp only
      split <;> exact h
    | scr g' b' o' =>
      unfold State.clearPoison State.places at *
      dsimp only at *
      rw [State.scrBlock_modBlock _ _ _ _ _ (fun z => if z.poison.isEmpty then z
        else { z with poison := z.poison.filter fun w => !(decide (o' ≤ 4 * w ∧ 4 * w + 4 ≤ o' + n)) }) fun x => by split <;> rfl]
      split
      · simpa using h
      · exact h

/-- A store takes no place away. -/
theorem placeExists_store {q' : Place} (forme x n : Nat) (h : PlaceExists s q') : PlaceExists (s.store forme q x n) q' := by
  have hwritten : (s.writeLe q x n).places q' :=
    places_clearPoison _ (places_putBytes _ _ _ ((State.places_keepPast s q q' _).symm ▸ h))
  cases q' with
  | hbm _ => trivial
  | scr g b o =>
    refine (congrArg Option.isSome (scrBlock_of_sameStores ?_ g b)).trans hwritten
    have hm := refreshHome_looked (s.writeLe q x n) forme q n
    exact ⟨by rw [State.store, hm], by rw [State.store, hm]⟩

theorem placeExists_of_sameStores (h : SameStores s t) (hq : PlaceExists s q) : PlaceExists t q := by
  cases q with
  | hbm _ => trivial
  | scr a b _ => exact (congrArg Option.isSome (scrBlock_of_sameStores h a b)).trans hq

/-! #### A barrier's arrival (R226, R229) -/

theorem get_mapWarps (m : SMap (Option Warp)) (f : Warp → Warp) (k : Nat) :
    SMap.get (m.map fun x => (x.1, x.2.map f)) k = (m.get k).map f := by
  induction m with
  | nil => rfl
  | cons x m ih =>
    rw [List.map_cons, SMap.get_cons, SMap.get_cons, ih]
    split <;> rfl

theorem phaseDone_sameCore (s : State) (q : Place) : SameStores s (s.phaseDone q) ∧ SameCore slot s (s.phaseDone q) := by
  cases q with
  | hbm _ => exact ⟨⟨rfl, rfl⟩, .refl slot s⟩
  | scr g b o =>
    refine ⟨⟨rfl, rfl⟩, ?_⟩
    have hcore (x : Warp) :
        core (if x.gang = g ∧ x.block = b then { x with arrivals := x.arrivals.filter fun y => y != o } else x) = core x := by
      split <;> rfl
    refine (congrArg (Option.map core) (get_mapWarps s.warps _ slot)).trans ?_
    rw [Option.map_map]
    exact congrArg (fun f => Option.map f (s.warp slot)) (funext hcore)

theorem putBarrier_eq (s : State) (forme : Nat) (q : Place) (b b' : Barrier) :
    SameStores (s.store forme q b'.code 16) (s.putBarrier forme q b b') ∧ SameCore slot s (s.putBarrier forme q b b') := by
  have hstore : SameCore slot s (s.store forme q b'.code 16) := .of_sameWarps (store_sameWarps ..)
  unfold State.putBarrier
  dsimp only
  split
  · exact ⟨⟨rfl, rfl⟩, hstore⟩
  · obtain ⟨hsame, hcore⟩ := phaseDone_sameCore (slot := slot) (s.store forme q b'.code 16) q
    exact ⟨hsame, hstore.trans hcore⟩

/-- A barrier object that is not malformed and takes an arrival of this count (R226, R229). -/
def TakesArrival (x n : Nat) : Prop :=
  x / 2 ^ 24 % 2 ^ 8 = 0 ∧ x / 2 ^ 56 % 2 ^ 7 = 0 ∧ x % 2 ^ 24 ≠ 0 ∧ x / 2 ^ 32 % 2 ^ 24 ≤ x % 2 ^ 24 ∧ n ≤ x / 2 ^ 32 % 2 ^ 24

/-- The object after an arrival of this count and number of bytes: a phase that completes begins the next. -/
def afterArrival (x n by_ : Nat) : Nat :=
  if x / 2 ^ 32 % 2 ^ 24 = n ∧ (x / 2 ^ 64 + by_) % 2 ^ 64 = 0 then
    x % 2 ^ 24 + 2 ^ 32 * (x % 2 ^ 24) + 2 ^ 63 * (1 - x / 2 ^ 63 % 2)
  else x % 2 ^ 24 + 2 ^ 32 * (x / 2 ^ 32 % 2 ^ 24 - n) + 2 ^ 63 * (x / 2 ^ 63 % 2) + 2 ^ 64 * ((x / 2 ^ 64 + by_) % 2 ^ 64)

/-- The model's arrival computes that object. -/
theorem arrive_code {x n by_ : Nat} (h : TakesArrival x n) :
    ∃ b b', Barrier.parse x = some b ∧ b.arrive n by_ = some b' ∧ b'.code = afterArrival x n by_ := by
  obtain ⟨h24, h56, he, hp, hn⟩ := h
  have he' : bits x 0 24 = x % 2 ^ 24 := bits_zero x 24
  have hparse : Barrier.parse x = some ⟨bits x 0 24, bits x 32 24, bits x 63 1 == 1, bits x 64 64⟩ :=
    if_pos ⟨h24, h56, he'.symm ▸ he, he'.symm ▸ hp⟩
  have hphase : (bits x 63 1 == 1).toNat = x / 2 ^ 63 % 2 := toNat_parity _
  have hnot (b : Bool) : (!b).toNat = 1 - b.toNat := by cases b <;> rfl
  have hbytes : (bits x 64 64 + by_) % 2 ^ 64 = (x / 2 ^ 64 + by_) % 2 ^ 64 := Nat.mod_add_mod ..
  have hzero : bits x 32 24 - n = 0 ↔ x / 2 ^ 32 % 2 ^ 24 = n :=
    Nat.sub_eq_zero_iff_le.trans ⟨fun h => Nat.le_antisymm h hn, Nat.le_of_eq⟩
  refine ⟨_, _, hparse, if_neg (Nat.not_lt.2 hn), ?_⟩
  unfold Barrier.settle afterArrival
  dsimp only
  rw [hbytes]
  by_cases hc : x / 2 ^ 32 % 2 ^ 24 = n ∧ (x / 2 ^ 64 + by_) % 2 ^ 64 = 0
  · rw [if_pos ⟨hzero.2 hc.1, hc.2⟩, if_pos hc]
    simp only [Barrier.code, he', hnot, hphase, hc.2, Nat.mul_zero, Nat.add_zero]
  · rw [if_neg fun h => hc ⟨hzero.1 h.1, h.2⟩, if_neg hc]
    simp only [Barrier.code, he', hphase]
    rfl

/-! #### The performance of a part at its home (R220 to R223, R229, R232) -/

/-- The value that a performed part returns: that before, a catom's whether its error was not exact. -/
def returned (s : State) (k : OpKind) (p : Piece) : Nat :=
  match k with
  | .catom pt _ => (catomUpdate pt (s.readLe p.place p.size) (s.readLe p.place2 (pairLoSize pt)) p.data p.data2).2.2.toNat
  | _ => s.readLe p.place p.size

/-- A part of the warp in this slot has been performed: its stores are made, it raises nothing and it returns v. -/
structure Performs (s0 s : State) (slot : Nat) (o : MemOp) (p : Piece) (l : List (Place × Nat × Nat)) (v : Nat)
    (y : Performed) : Prop where
  stored : StoredAll s0 y.s l
  core : SameCore slot s y.s
  clean : y.poison = false ∧ y.cause = none
  value : y.value o p = v

/-- An arrival that updates its object finds one that takes it. -/
theorem updated_arrive {n : Nat} {by_ : DWord} (hu : updated s0 (.arrive n by_) p = some l) :
    TakesArrival (s0.readLe p.place p.size) n ∧ l = [(p.place, afterArrival (s0.readLe p.place p.size) n by_.toNat, 16)] := by
  obtain ⟨hwf, h⟩ := Option.ite_none_right_eq_some.1 hu
  exact ⟨hwf, (Option.some.inj h).symm⟩

/-- What an update needs of its places: they exist and are not poisoned, and a barrier object has 16 bytes. -/
structure Updatable (s0 : State) (k : OpKind) (p : Piece) : Prop where
  place : PlaceExists s0 p.place
  place2 : PlaceExists s0 p.place2
  clean : s0.poisoned p.place p.size = false
  clean2 : ∀ pt pd, k = .catom pt pd → s0.poisoned p.place2 (pairLoSize pt) = false

/-- An update of one word, whose value before is returned. -/
theorem performs_store {x n : Nat} (h : SameButWarps s0 s) (hq : PlaceExists s0 p.place) (hk : ∀ pt pd, o.kind ≠ .catom pt pd)
    (slot forme : Nat) : Performs s0 s slot o p [(p.place, x, n)] (s0.readLe p.place p.size)
      ⟨s.store forme p.place x n, s0.readLe p.place p.size, false, none, false⟩ := by
  refine ⟨storedAll_singleton h.sameStores hq ⟨rfl, rfl⟩, .of_sameWarps (store_sameWarps ..), ⟨rfl, rfl⟩, ?_⟩
  unfold Performed.value
  split
  next pt pd hkind => exact absurd hkind (hk pt pd)
  next => rfl

theorem perform_updates (h : SameButWarps s0 s) (hu : updated s0 o.kind p = some l) (hq : Updatable s0 o.kind p)
    (slot forme : Nat) : Performs s0 s slot o p l (returned s0 o.kind p) (s.perform forme o.kind p) := by
  obtain ⟨hq1, hq2, hclean, hclean2⟩ := hq
  have hold := h.readLe p.place p.size
  have hbad := (h.poisoned p.place p.size).trans hclean
  unfold State.perform
  simp only [hold, hbad, Bool.false_eq_true, if_false]
  cases hk : o.kind with
  | atom a d =>
    rw [hk] at hu
    obtain rfl := Option.some.inj hu
    exact performs_store h hq1 (by rw [hk]; nofun) ..
  | signal =>
    rw [hk] at hu
    obtain rfl := Option.some.inj hu
    exact performs_store h hq1 (by rw [hk]; nofun) ..
  | cas w64 d =>
    rw [hk] at hu
    obtain rfl := Option.some.inj hu
    dsimp only
    split
    · exact performs_store h hq1 (by rw [hk]; nofun) ..
    · refine ⟨.nil fun q => (State.refreshHome_byte ..).trans (Opportunity.sameMemory_of_fields h.sameStores.1 h.sameStores.2 q),
        .of_sameWarps (refreshHome_sameWarps ..), ⟨rfl, rfl⟩, ?_⟩
      rw [Performed.value, hk]
      rfl
  | catom pt pd =>
    rw [hk] at hu
    obtain rfl := Option.some.inj hu
    have hbad2 := (h.poisoned p.place2 (pairLoSize pt)).trans (hclean2 pt pd hk)
    simp only [hbad2, h.readLe p.place2, Bool.or_self, Bool.false_eq_true, if_false]
    refine ⟨.cons (stored_of_store h.sameStores hq1 ⟨rfl, rfl⟩) (storedAll_singleton ⟨rfl, rfl⟩
      (placeExists_store _ _ _ (placeExists_of_sameStores h.sameStores hq2)) ⟨rfl, rfl⟩),
      .of_sameWarps ((store_sameWarps ..).trans (store_sameWarps ..)), ⟨rfl, rfl⟩, ?_⟩
    rw [Performed.value, hk]
    rfl
  | arrive n by_ =>
    rw [hk] at hu
    obtain ⟨hwf, rfl⟩ := updated_arrive hu
    obtain ⟨b, b', hparse, harrive, hcode⟩ := arrive_code (by_ := by_.toNat) hwf
    obtain ⟨hstore, hcore⟩ := putBarrier_eq (slot := slot) s forme p.place b b'
    simp only [hparse, harrive]
    refine ⟨?_, hcore, ⟨rfl, rfl⟩, ?_⟩
    · rw [hcode] at hstore
      exact storedAll_singleton h.sameStores hq1 hstore
    · rw [Performed.value, hk]
      rfl
  | _ =>
    rw [hk] at hu
    cases hu

/-! #### What surrounds the performance -/

theorem Performs.with_state {x : Performed} {m : State} {v : Nat} (h : Performs s0 s slot o p l v x) (hm : SameStores x.s m)
    (hc : SameCore slot x.s m) : Performs s0 s slot o p l v { x with s := m } :=
  ⟨storedAll_of_sameMemory h.stored (Opportunity.sameMemory_of_fields hm.1 hm.2), h.core.trans hc, h.clean, h.value⟩

theorem noteArrival_eq (s : State) (slot : Nat) (o : MemOp) (p : Piece) (x : Performed) :
    SameStores s (s.noteArrival slot o p x) ∧ SameCore slot s (s.noteArrival slot o p x) := by
  unfold State.noteArrival
  split
  · split
    · exact ⟨SameStores.modWarp ⟨rfl, rfl⟩ .., .modWarp _ _ fun _ _ => rfl⟩
    · exact ⟨⟨rfl, rfl⟩, .refl ..⟩
  · exact ⟨⟨rfl, rfl⟩, .refl ..⟩

/-- A part performed without an error raises none. -/
theorem performErr_of_clean {x : Performed} (h : x.poison = false ∧ x.cause = none) (s : State) (slot : Nat) (o : MemOp) (p : Piece) :
    s.performErr slot o p x = s := by
  unfold State.performErr
  simp only [h.1, h.2, Bool.false_eq_true, if_false]

theorem performPart_updates (h : SameButWarps s0 s) (hu : updated s0 o.kind p = some l) (hq : Updatable s0 o.kind p)
    (slot k : Nat) (w : Warp) :
    ∃ b, s.performPart slot w o k p = (b, returned s0 o.kind p) ∧ StoredAll s0 b l ∧ SameCore slot s b := by
  obtain ⟨s1, hs1, honly, hcore⟩ : ∃ s1, s1 = (if ordReleases o.ord then s.shareForRelease slot o.id (s.reach w o.scope) else s) ∧
      SameButWarps s s1 ∧ SameCore slot s s1 := by
    refine ⟨_, rfl, ?_⟩
    split
    · exact ⟨shareForRelease_sameButWarps .., shareForRelease_sameCore ..⟩
    · exact ⟨.refl s, .refl slot s⟩
  have hdone := perform_updates ((h.trans honly).trans (leaveFabric_sameButWarps s1 slot o.id k p)) hu hq slot (slotForme slot)
  obtain ⟨x, hx, hdropped⟩ : ∃ x, x = (if o.cp = 3 then
      ({ (s1.leaveFabric slot o.id k p).perform (slotForme slot) o.kind p with
        s := (((s1.leaveFabric slot o.id k p).perform (slotForme slot) o.kind p).s.dropLine (slotForme slot) p.place).dropLine
          (slotForme slot) p.place2 } : Performed)
      else (s1.leaveFabric slot o.id k p).perform (slotForme slot) o.kind p) ∧
      Performs s0 (s1.leaveFabric slot o.id k p) slot o p l (returned s0 o.kind p) x := by
    refine ⟨_, rfl, ?_⟩
    split
    · exact hdone.with_state ((dropLine_sameStores ..).trans (dropLine_sameStores ..))
        (.of_sameWarps ((dropLine_sameWarps ..).trans (dropLine_sameWarps ..)))
    · exact hdone
  obtain ⟨hnote, hnoted⟩ := noteArrival_eq x.s slot o p x
  refine ⟨x.s.noteArrival slot o p x, ?_, (hdropped.with_state hnote hnoted).stored,
    ((hcore.trans (.of_sameWarps (leaveFabric_sameWarps ..))).trans hdropped.core).trans hnoted⟩
  rw [State.performPart, ← hs1]
  simp only [← hx, performErr_of_clean hdropped.clean, hdropped.value]

theorem flagRoom_of_core (h : core y = core w) (hw : FlagRoom w) : FlagRoom y := by
  have hasync : y.async = w.async := (congrArg Warp.async h : (core y).async = (core w).async)
  unfold FlagRoom at *
  rwa [regs_of_core h, hasync]

theorem not_store_of_updated (hu : updated s0 o.kind p = some l) : o.kind.isStore = false := by
  cases hk : o.kind with
  | store =>
    rw [hk] at hu
    cases hu
  | _ => rfl

theorem exec_atomicPerformed {b : State} (hslot : slot ≠ engineSlot) (hpart : (s0.settle slot).partOf slot op k = some (w, o, p))
    (hu : updated s0 o.kind p = some l) (hcan : (s0.settle slot).canPerform slot w o k p = true)
    (hb : (s0.settle slot).performPart slot w o k p = (b, v)) :
    exec (.atomicPerformed slot op k) s0 = .next (b.partDone slot op k v) := by
  show execAtomicPerformed slot op k s0 = _
  rw [execAtomicPerformed, if_neg hslot]
  unfold warpAtomicPerformed
  simp only [hpart]
  cases hk : o.kind with
  | atom _ _ | cas _ _ | catom _ _ | arrive _ _ | signal => simp only [hcan, if_true, hb]
  | _ =>
    rw [hk] at hu
    cases hu

end

/-- Settles O17: what precedes the performance changes no memory and no poison (`settle_sameButWarps`); the part makes its stores and
returns its value (`perform_updates`), which with the last part is delivered (`partDone_returns`). -/
theorem atomicsUpdateTheirWords : Obligations.AtomicsUpdateTheirWords := by
  intro s0 slot op k w o p l s hslot hpart hcan hu hq hq2 hclean hcat hsize hcas
  obtain ⟨hw, ho, -⟩ := partOf_eq_some hpart
  obtain rfl := id_of_find? ho
  obtain ⟨b, hb, hstored, hcore⟩ := performPart_updates (settle_sameButWarps s0 slot) hu
    ⟨hq, hq2, hclean, fun pt pd h => (hcat pt pd h).1⟩ slot k w
  obtain ⟨y, hy, hyw⟩ := hcore.warp hw
  obtain ⟨hdone, hret⟩ := partDone_returns hy (find?_of_core hyw (not_store_of_updated hu) ho)
    (fun pt pd h => flagRoom_of_core hyw (hcat pt pd h).2) k (returned s0 o.kind p)
  refine ⟨_, exec_atomicPerformed hslot hpart hu hcan hb,
    storedAll_of_sameMemory hstored (Opportunity.sameMemory_of_fields hdone.1 hdone.2), fun hi => ?_⟩
  obtain ⟨w', hw', hr⟩ := hret (by rw [IssuedHere, regs_of_core hyw]; exact hi)
  exact ⟨w', hw', partReturned_of_core hyw hr⟩

end Sys2Proof.Results
